-- ==== Sys2Proof/Word.lean ====
section
/-! DEFINITION. Words, the names of the agents, and the plain records that packets, messages and cards carry.
Plain data only; the arithmetic on it stands in Machine/Bits.lean and later files. -/

namespace Sys2Proof.Machine

/-- A float value: a NaN, an infinity, or `(-1)^neg * m * 2^e`. -/
inductive FVal where
  | nan (signalling : Bool)
  | inf (neg : Bool)
  | fin (neg : Bool) (m : Nat) (e : Int)
  deriving DecidableEq, Repr

end Sys2Proof.Machine

namespace Sys2Proof

/-- A byte (R3). -/
abbrev Byte := BitVec 8
/-- An instruction word or a 32-bit register (R3). -/
abbrev W32 := BitVec 32
/-- A 64-bit register (R11). -/
abbrev W64 := BitVec 64
/-- A vector register, 512 bytes, byte 0 lowest (R124). -/
abbrev VReg := BitVec 4096
/-- A mask of the mask stack, bit `i` for element `i` (R127). -/
abbrev Mask := BitVec 512
/-- The number of a scalar or vector register in an instruction word (R27). -/
abbrev RegNo := BitVec 5
/-- A physical shuttle number, 64 x panel + 8 x loom + position (R383). -/
abbrev ShNo := BitVec 8

/-- The four sequencers of a shuttle (R11, R76). -/
inductive Stream where
  | c | l | x | s
  deriving DecidableEq, Repr

/-- The header fields of an engine command (R34), without its count and command code. -/
structure Hdr where
  /-- completion counter -/
  cc : BitVec 3
  /-- semaphore waited on, 31 for none -/
  wt : BitVec 5
  /-- semaphore signalled, 31 for none -/
  sg : BitVec 5
  aq : Bool
  rl : Bool
  /-- scope in the coding of R35 -/
  sc : BitVec 4
  deriving DecidableEq, Repr

/-- A packet as the Creel has read it: virtual address of its first unit, and the bytes of its units (R314). -/
structure Packet where
  va : Nat
  bytes : List Byte
  deriving DecidableEq, Repr

/-- What a collective's chunks carry so that unlike commands are noticed (R410). -/
structure Digest where
  fn : Nat
  op : Nat
  k : Nat
  rt : Nat
  fa : Nat
  fo : Nat
  anc : Int
  rm : Nat
  sca : BitVec 32
  scb : BitVec 32
  osx : Int
  ranks : List W32
  deriving DecidableEq, Repr

/-- What names a message between packages: the package at the channel's other end, its virtual channel and its number (R401). -/
structure Tag where
  peer : BitVec 8
  vc : BitVec 2
  seq : BitVec 48
  deriving DecidableEq, Repr

/-- A collective chunk on its way to this package (R412, R413): bytes `off ..` of the block that rank
`src` sends to the rank on panel `panel`. -/
structure Chunk where
  /-- of a chunk that a warp link brings; none for one of a weft port or of a Heddle of this package -/
  tag : Option Tag
  /-- of a chunk that a warp switch has reduced: its data are the partial results, and these are their flags (R415) -/
  reduced : Option W64
  panel : BitVec 2
  cm : BitVec 6
  j : Nat
  src : Nat
  dig : Digest
  off : Nat
  data : List Byte
  /-- the sender's command has `rel` at `.dm` or `.sy` (R411) -/
  rel : Bool
  deriving DecidableEq, Repr

/-- A chunk boundary of a panel's Heddle, with the communicators and ranks whose receivers have granted a credit for a landing slot
(R412, R413). -/
structure HeddleTurn where
  panel : BitVec 2
  credits : List (BitVec 6 × Nat)
  deriving DecidableEq, Repr

/-- A warp link that has been trained, with the package or warp switch at its other end (R397). -/
structure LinkEnd where
  link : Nat
  peer : BitVec 8
  peerLink : BitVec 5
  switch : Bool
  deriving DecidableEq, Repr

/-- What one message of virtual channel 0 asks of the package it reaches (R399, R401, R403). -/
inductive RemoteOp where
  | read (n : Nat)
  | write (data : List Byte)
  | atomic (op : BitVec 3) (v : W64)
  | declare (n : BitVec 32) (flag : W64)
  /-- the declarer's task commits or is aborted: its entry is removed (R247) -/
  | undeclare
  | contribute (op : BitVec 3) (v : W64)
  /-- a contribution of a value to a shadow cell with this anchor, the element's number telling it apart; the reply is the flags
  it sets (R264, R268) -/
  | accumulate (anc : Int) (x : Machine.FVal) (num : Nat)
  | ordered (op : BitVec 4) (v : W64) (key : BitVec 32)
  | fill (v : W64)
  deriving DecidableEq, Repr

/-- What a package answers a message with: the bytes that were read or the flags that were set, the result of an ordered atomic
with the accesses of the asker's package that come before it, or the cause of a refusal. -/
inductive Reply where
  | data (bytes : List Byte)
  | result (v : W64) (after : List (Nat × Nat))
  | refused (cause : BitVec 8)
  deriving DecidableEq, Repr

/-- A numbered message between packages (R401): `seq` rises by one per message of a channel. -/
structure RemoteMsg where
  peer : BitVec 8
  seq : BitVec 48
  /-- the agent there that asks, by its name there, and how many accesses of each agent here come before (R229, R400) -/
  agent : Nat
  seen : List (Nat × Nat)
  /-- physical address at the target, or extended address of a flag for `fill` -/
  pa : Nat
  op : RemoteOp
  deriving DecidableEq, Repr

/-- Where a check failed (R370). -/
inductive CheckSite where
  /-- a cell of Pocket, Sleeve, Bolt or HBM, or a tile row, by location -/
  | cell (place : Nat)
  /-- a word of a code section, of the monitor section when `mon` holds -/
  | code (sh : ShNo) (st : Stream) (mon : Bool) (word : Nat)
  /-- a register, queue or format entry that the instruction at the stream's pc reads: class and index of R379 -/
  | reg (sh : ShNo) (st : Stream) (kind : BitVec 8) (ix : BitVec 8)
  /-- a shuttle's back plane -/
  | plane (sh : ShNo)
  | card (hash : BitVec 128)
  /-- a command queue or a descriptor in flight -/
  | flight
  /-- the unit as a whole -/
  | part
  deriving DecidableEq, Repr

/-- What became of a failed check: its code corrected it, a retry passed, the stored bits are past correction but their cells are
sound (R17, R20, R379), or every retry failed (R371; assumption log 58). -/
inductive CheckOutcome where
  | corrected | transient | uncorrectable | lasting
  deriving DecidableEq, Repr

/-- A failed check as the hop or store reports it (R370, R371, R373). -/
structure CheckFail where
  /-- health-record class of R373 -/
  cls : BitVec 8
  /-- unit number of that class -/
  unit : BitVec 24
  site : CheckSite
  outcome : CheckOutcome
  /-- 2 when a staged line at its commit is lost, 3 when a yoke unit is the commit sequencer or a count table (R374), else 0 -/
  fatal : BitVec 8
  deriving DecidableEq, Repr

/-! ## The application cores and bring-up (R387, R388, R390 to R395) -/

inductive HartMode where
  | machine | supervisor | user
  deriving DecidableEq, Repr

/-- What an application core, a PCIe agent or the management unit does to the rest of the package. -/
inductive CoreAct where
  /-- core `h` stores or loads at an effective address -/
  | store (h : BitVec 5) (va : Nat)
  | load (h : BitVec 5) (va n : Nat)
  /-- core `h` executes FENCE rw,w, or FENCE r,rw -/
  | fenceWrites (h : BitVec 5)
  | fenceReads (h : BitVec 5)
  /-- core `h` goes to a mode, with this value in satp -/
  | enter (h : BitVec 5) (mode : HartMode) (satp : W64)
  /-- core `h` takes an identity pending in its machine-level or supervisor-level interrupt file -/
  | claim (h : BitVec 5) (machine : Bool) (identity : Nat)
  /-- a PCIe agent of root complex `rc` stores at the address that its IOMMU gives -/
  | pcieStore (rc : BitVec 2) (pa : Nat)
  /-- the console UART raises its interrupt -/
  | uart
  /-- the management unit goes on with bring-up -/
  | bringUp
  deriving DecidableEq, Repr

/-- What a card holds for one task (R340, R343, R347). -/
structure CardTask where
  /-- the task's index -/
  index : Nat
  /-- position in the start order -/
  order : Nat
  /-- its places and shuttles; of a DUAL task, those of its copies -/
  places : List Nat
  shuttles : List ShNo
  dual : Bool
  /-- producer whose grants it carries, at Sleeve, at Bolt -/
  carry : Option (Nat × Bool × Bool)
  /-- its successors, and its grants in 64 KiB units -/
  succs : List Nat
  slv : Nat
  blt : Nat
  sbase : Nat
  bbase : Nat
  shape0 : W64
  shape1 : W64
  /-- outcome of the condition word, none when the task has none -/
  cond : Option Bool
  /-- table index, VB and generation delta of each range the task translated -/
  ranges : List (Nat × BitVec 40 × BitVec 16)
  /-- the order in which its parts are copied (R338) -/
  copies : List Nat
  /-- for each shuttle, the configuration delta and the CRC-32 of the plane it makes (R347) -/
  deltas : List (List (Nat × BitVec 64) × BitVec 32)
  deriving DecidableEq, Repr

/-- A pattern card (R340). -/
structure Card where
  hash : BitVec 128
  ver : BitVec 32
  hep : W64
  gang : Nat
  nfail : Nat
  usable : Bool
  /-- in a gang, the first ordinal of a launch that may use this version (R348, R416) -/
  since : Nat
  /-- in a gang, the first launch after the recorded one, as each member counts the launches of the hash (R416) -/
  base : Nat
  /-- the latest launch that ended here without a guard failure, by ordinal, and NFAIL before it (R424) -/
  prior : Option (Nat × Nat)
  /-- recorded here for a launch that was not ganged (R422) -/
  own : Bool
  /-- the group entries of its graph: members, ONELOOM, ONEPANEL -/
  groups : List (List Nat × Bool × Bool)
  placeMap : List (Nat × ShNo)
  tasks : List CardTask
  deriving DecidableEq, Repr

end Sys2Proof
end

