-- ==== Sys2Proof/Syntax.lean ====
section
/-! DEFINITION. The instructions: one constructor per row of spec/opcode_table.json, in its order.
Word rows carry the fields of the word; engine commands carry their header and the fields of their step words (R34);
packets carry the queue and the fields of their body (R317); the other rows are events that the agenda delivers. -/

namespace Sys2Proof

/-- The steps of the ZB1960, each whole and indivisible. -/
inductive Instr where
  /-- RESET (R22). Reset leaves each control sequencer in monitor mode at pc 0, clears its state, and starts bring-up. -/
  | reset
  /-- ADD (R53). Adds two scalar registers modulo 2^64. -/
  | add (d : BitVec 5) (a : BitVec 5) (b : BitVec 5)
  /-- SUB (R53). Subtracts two scalar registers modulo 2^64. -/
  | sub (d : BitVec 5) (a : BitVec 5) (b : BitVec 5)
  /-- AND (R53). Bitwise AND of two scalar registers. -/
  | and (d : BitVec 5) (a : BitVec 5) (b : BitVec 5)
  /-- OR (R53). Bitwise OR of two scalar registers. -/
  | or (d : BitVec 5) (a : BitVec 5) (b : BitVec 5)
  /-- XOR (R53). Bitwise XOR of two scalar registers. -/
  | xor (d : BitVec 5) (a : BitVec 5) (b : BitVec 5)
  /-- ANDN (R53). a AND NOT b. -/
  | andn (d : BitVec 5) (a : BitVec 5) (b : BitVec 5)
  /-- SLL (R53). Shift left by b[5:0]. -/
  | sll (d : BitVec 5) (a : BitVec 5) (b : BitVec 5)
  /-- SRL (R53). Logical shift right by b[5:0]. -/
  | srl (d : BitVec 5) (a : BitVec 5) (b : BitVec 5)
  /-- SRA (R53). Arithmetic shift right by b[5:0]. -/
  | sra (d : BitVec 5) (a : BitVec 5) (b : BitVec 5)
  /-- MIN (R53). Signed minimum. -/
  | min (d : BitVec 5) (a : BitVec 5) (b : BitVec 5)
  /-- MAX (R53). Signed maximum. -/
  | max (d : BitVec 5) (a : BitVec 5) (b : BitVec 5)
  /-- MINU (R53). Unsigned minimum. -/
  | minu (d : BitVec 5) (a : BitVec 5) (b : BitVec 5)
  /-- MAXU (R53). Unsigned maximum. -/
  | maxu (d : BitVec 5) (a : BitVec 5) (b : BitVec 5)
  /-- CLZ (R53). Counts leading zero bits. -/
  | clz (d : BitVec 5) (a : BitVec 5)
  /-- CTZ (R53). Counts trailing zero bits. -/
  | ctz (d : BitVec 5) (a : BitVec 5)
  /-- POP (R53). Counts one bits. -/
  | pop (d : BitVec 5) (a : BitVec 5)
  /-- MUL (R54). Low 64 bits of the product. -/
  | mul (d : BitVec 5) (a : BitVec 5) (b : BitVec 5)
  /-- MULH (R54). High 64 bits of the signed product. -/
  | mulh (d : BitVec 5) (a : BitVec 5) (b : BitVec 5)
  /-- MULHU (R54). High 64 bits of the unsigned product. -/
  | mulhu (d : BitVec 5) (a : BitVec 5) (b : BitVec 5)
  /-- DIV (R55). Signed division truncated towards zero, with defined results on zero divisor. -/
  | div (d : BitVec 5) (a : BitVec 5) (b : BitVec 5)
  /-- DIVU (R55). Unsigned division. -/
  | divu (d : BitVec 5) (a : BitVec 5) (b : BitVec 5)
  /-- REM (R55). Signed remainder. -/
  | rem (d : BitVec 5) (a : BitVec 5) (b : BitVec 5)
  /-- REMU (R55). Unsigned remainder. -/
  | remu (d : BitVec 5) (a : BitVec 5) (b : BitVec 5)
  /-- SEQ (R56). Sets 1 if equal. -/
  | seq (d : BitVec 5) (a : BitVec 5) (b : BitVec 5)
  /-- SNE (R56). Sets 1 if not equal. -/
  | sne (d : BitVec 5) (a : BitVec 5) (b : BitVec 5)
  /-- SLT (R56). Sets 1 if signed less. -/
  | slt (d : BitVec 5) (a : BitVec 5) (b : BitVec 5)
  /-- SLTU (R56). Sets 1 if unsigned less. -/
  | sltu (d : BitVec 5) (a : BitVec 5) (b : BitVec 5)
  /-- SEL (R56). Selects a or b on a condition register. -/
  | sel (d : BitVec 5) (a : BitVec 5) (b : BitVec 5) (m : BitVec 5)
  /-- ADDI (R57). Adds a sign-extended immediate. -/
  | addi (d : BitVec 5) (a : BitVec 5) (i : BitVec 16)
  /-- ANDI (R57). AND with a zero-extended immediate. -/
  | andi (d : BitVec 5) (a : BitVec 5) (i : BitVec 16)
  /-- ORI (R57). OR with a zero-extended immediate. -/
  | ori (d : BitVec 5) (a : BitVec 5) (i : BitVec 16)
  /-- XORI (R57). XOR with a zero-extended immediate. -/
  | xori (d : BitVec 5) (a : BitVec 5) (i : BitVec 16)
  /-- SLLI (R58). Shift left by immediate. -/
  | slli (d : BitVec 5) (a : BitVec 5) (p : BitVec 6)
  /-- SRLI (R58). Logical shift right by immediate. -/
  | srli (d : BitVec 5) (a : BitVec 5) (p : BitVec 6)
  /-- SRAI (R58). Arithmetic shift right by immediate. -/
  | srai (d : BitVec 5) (a : BitVec 5) (p : BitVec 6)
  /-- EXTU (R59). Extracts an unsigned bit field. -/
  | extu (d : BitVec 5) (a : BitVec 5) (p : BitVec 6) (w : BitVec 6)
  /-- EXTS (R59). Extracts a signed bit field. -/
  | exts (d : BitVec 5) (a : BitVec 5) (p : BitVec 6) (w : BitVec 6)
  /-- INS (R59). Inserts a bit field into the destination. -/
  | ins (d : BitVec 5) (a : BitVec 5) (p : BitVec 6) (w : BitVec 6)
  /-- MOVZ (R60). Loads a shifted 16-bit immediate, zeroing the rest. -/
  | movz (d : BitVec 5) (h : BitVec 2) (i : BitVec 16)
  /-- MOVK (R60). Replaces one 16-bit field, keeping the rest. -/
  | movk (d : BitVec 5) (h : BitVec 2) (i : BitVec 16)
  /-- LDB (R63). Loads a byte from Pocket, zero-extended. -/
  | ldb (v : BitVec 5) (a : BitVec 5) (o : BitVec 13)
  /-- LDH (R63). Loads 2 bytes, zero-extended. -/
  | ldh (v : BitVec 5) (a : BitVec 5) (o : BitVec 13)
  /-- LDW (R63). Loads 4 bytes, zero-extended. -/
  | ldw (v : BitVec 5) (a : BitVec 5) (o : BitVec 13)
  /-- LDD (R63). Loads 8 bytes. -/
  | ldd (v : BitVec 5) (a : BitVec 5) (o : BitVec 13) (sx : Bool)
  /-- LDBS (R63). Loads a byte, sign-extended. -/
  | ldbs (v : BitVec 5) (a : BitVec 5) (o : BitVec 13)
  /-- LDHS (R63). Loads 2 bytes, sign-extended. -/
  | ldhs (v : BitVec 5) (a : BitVec 5) (o : BitVec 13)
  /-- LDWS (R63). Loads 4 bytes, sign-extended. -/
  | ldws (v : BitVec 5) (a : BitVec 5) (o : BitVec 13)
  /-- STB (R63). Stores a byte to Pocket. -/
  | stb (v : BitVec 5) (a : BitVec 5) (o : BitVec 13)
  /-- STH (R63). Stores 2 bytes. -/
  | sth (v : BitVec 5) (a : BitVec 5) (o : BitVec 13)
  /-- STW (R63). Stores 4 bytes. -/
  | stw (v : BitVec 5) (a : BitVec 5) (o : BitVec 13)
  /-- STD (R63). Stores 8 bytes. -/
  | std (v : BitVec 5) (a : BitVec 5) (o : BitVec 13)
  /-- BEQ (R65). Branches if equal. -/
  | beq (a : BitVec 5) (b : BitVec 5) (o : BitVec 13)
  /-- BNE (R65). Branches if not equal. -/
  | bne (a : BitVec 5) (b : BitVec 5) (o : BitVec 13)
  /-- BLT (R65). Branches if signed less. -/
  | blt (a : BitVec 5) (b : BitVec 5) (o : BitVec 13)
  /-- BGE (R65). Branches if signed greater or equal. -/
  | bge (a : BitVec 5) (b : BitVec 5) (o : BitVec 13)
  /-- BLTU (R65). Branches if unsigned less. -/
  | bltu (a : BitVec 5) (b : BitVec 5) (o : BitVec 13)
  /-- BGEU (R65). Branches if unsigned greater or equal. -/
  | bgeu (a : BitVec 5) (b : BitVec 5) (o : BitVec 13)
  /-- JMP (R66). Jumps by a word offset and writes bor. -/
  | jmp (o : BitVec 26)
  /-- CALL (R66). Jumps and writes the return address to lnk. -/
  | call (o : BitVec 26)
  /-- JR (R67). Jumps to a register target. -/
  | jr (a : BitVec 5)
  /-- CALLR (R67). Calls a register target. -/
  | callr (a : BitVec 5)
  /-- RET (R67). Returns to lnk. -/
  | ret
  /-- LOOP (R70). Opens a loop level with limit and stride, or skips a zero-trip body. -/
  | loop (l : BitVec 3) (g : Bool) (f : Bool) (a : BitVec 5) (o : BitVec 14)
  /-- ENDL (R71). Advances the innermost counter and loops back or closes the level. -/
  | endl (l : BitVec 3)
  /-- ENDL_X (R71). Closes the innermost loop level at once. -/
  | endlX (l : BitVec 3)
  /-- SKIPPED_INSTRUCTION (R72). An instruction at a flagged first or last loop position is passed over in one fabric cycle. -/
  | skippedInstruction
  /-- MFSR (R74). Reads a special register. -/
  | mfsr (d : BitVec 5) (p : BitVec 8)
  /-- MTSR (R74). Writes a special register. -/
  | mtsr (a : BitVec 5) (p : BitVec 8)
  /-- MXSR (R74). Swaps a special register with a scalar register. -/
  | mxsr (d : BitVec 5) (a : BitVec 5) (p : BitVec 8)
  /-- NOP (R75). Does nothing. -/
  | nop
  /-- HINT (R75). A hint performed as NOP. -/
  | hint (h : BitVec 6)
  /-- QPUSH (R98). Pushes a scalar to Q.CL, Q.CX or Q.CS, waiting for room. -/
  | qpush (a : BitVec 5) (q : BitVec 5)
  /-- QPOP (R98). Pops Q.SC into a scalar register, waiting for an entry. -/
  | qpop (d : BitVec 5)
  /-- CCWAIT (R92). Control stream waits until a completion count reaches a threshold. -/
  | ccwait (a : BitVec 5) (c : BitVec 3)
  /-- ADDA (R61). Adds an immediate and traps if the result leaves local Pocket. -/
  | adda (d : BitVec 5) (a : BitVec 5) (i : BitVec 16)
  /-- VADD_FLOAT (R132). Float addition at FP32, FP16 or BF16. -/
  | vaddFloat (t : BitVec 2) (d : BitVec 5) (a : BitVec 5) (b : BitVec 5) (r : BitVec 3) (k : BitVec 4)
  /-- VSUB_FLOAT (R132). Float subtraction. -/
  | vsubFloat (t : BitVec 2) (d : BitVec 5) (a : BitVec 5) (b : BitVec 5) (r : BitVec 3) (k : BitVec 4)
  /-- VMUL_FLOAT (R132). Float multiplication. -/
  | vmulFloat (t : BitVec 2) (d : BitVec 5) (a : BitVec 5) (b : BitVec 5) (r : BitVec 3) (k : BitVec 4)
  /-- VDIV_FLOAT (R133). Float division. -/
  | vdivFloat (t : BitVec 2) (d : BitVec 5) (a : BitVec 5) (b : BitVec 5) (r : BitVec 3) (k : BitVec 4)
  /-- VMIN_FLOAT (R133). Float minimum. -/
  | vminFloat (t : BitVec 2) (d : BitVec 5) (a : BitVec 5) (b : BitVec 5) (r : BitVec 3) (k : BitVec 4)
  /-- VMAX_FLOAT (R133). Float maximum. -/
  | vmaxFloat (t : BitVec 2) (d : BitVec 5) (a : BitVec 5) (b : BitVec 5) (r : BitVec 3) (k : BitVec 4)
  /-- VCPYS (R133). Magnitude of a with the sign of b. -/
  | vcpys (t : BitVec 2) (d : BitVec 5) (a : BitVec 5) (b : BitVec 5) (r : BitVec 3) (k : BitVec 4)
  /-- VFMA (R134). Fused a × b + c. -/
  | vfma (t : BitVec 2) (d : BitVec 5) (a : BitVec 5) (b : BitVec 5) (r : BitVec 3) (k : BitVec 4)
  /-- VFMS (R134). Fused a × b − c. -/
  | vfms (t : BitVec 2) (d : BitVec 5) (a : BitVec 5) (b : BitVec 5) (r : BitVec 3) (k : BitVec 4)
  /-- VFNMA (R134). Fused −(a × b) + c. -/
  | vfnma (t : BitVec 2) (d : BitVec 5) (a : BitVec 5) (b : BitVec 5) (r : BitVec 3) (k : BitVec 4)
  /-- VFNMS (R134). Fused −(a × b) − c. -/
  | vfnms (t : BitVec 2) (d : BitVec 5) (a : BitVec 5) (b : BitVec 5) (r : BitVec 3) (k : BitVec 4)
  /-- VABS (R135). Absolute value. -/
  | vabs (d : BitVec 5) (a : BitVec 5) (t : BitVec 5) (r : BitVec 3) (k : BitVec 4)
  /-- VNEG (R135). Negation. -/
  | vneg (d : BitVec 5) (a : BitVec 5) (t : BitVec 5) (r : BitVec 3) (k : BitVec 4)
  /-- VSQRT (R135). Square root. -/
  | vsqrt (d : BitVec 5) (a : BitVec 5) (t : BitVec 5) (r : BitVec 3) (k : BitVec 4)
  /-- VRINT (R135). Rounds to an integral value. -/
  | vrint (d : BitVec 5) (a : BitVec 5) (t : BitVec 5) (r : BitVec 3) (k : BitVec 4)
  /-- VRCPE (R136). Reciprocal estimate. -/
  | vrcpe (d : BitVec 5) (a : BitVec 5) (t : BitVec 5) (r : BitVec 3) (k : BitVec 4)
  /-- VRSQE (R136). Reciprocal square-root estimate. -/
  | vrsqe (d : BitVec 5) (a : BitVec 5) (t : BitVec 5) (r : BitVec 3) (k : BitVec 4)
  /-- VEX2E (R136). Estimate of 2^a. -/
  | vex2e (d : BitVec 5) (a : BitVec 5) (t : BitVec 5) (r : BitVec 3) (k : BitVec 4)
  /-- VLG2E (R136). Estimate of log2(a). -/
  | vlg2e (d : BitVec 5) (a : BitVec 5) (t : BitVec 5) (r : BitVec 3) (k : BitVec 4)
  /-- VCEQ_FLOAT (R137). Float equal compare pushed onto the mask stack. -/
  | vceqFloat (t : BitVec 5) (a : BitVec 5) (b : BitVec 5) (r : BitVec 3) (k : BitVec 4)
  /-- VCNE_FLOAT (R137). Float not-equal compare pushed onto the mask stack. -/
  | vcneFloat (t : BitVec 5) (a : BitVec 5) (b : BitVec 5) (r : BitVec 3) (k : BitVec 4)
  /-- VCLT_FLOAT (R137). Float less-than compare pushed onto the mask stack. -/
  | vcltFloat (t : BitVec 5) (a : BitVec 5) (b : BitVec 5) (r : BitVec 3) (k : BitVec 4)
  /-- VCLE_FLOAT (R137). Float less-or-equal compare pushed onto the mask stack. -/
  | vcleFloat (t : BitVec 5) (a : BitVec 5) (b : BitVec 5) (r : BitVec 3) (k : BitVec 4)
  /-- VCUN (R137). Unordered compare pushed onto the mask stack. -/
  | vcun (t : BitVec 5) (a : BitVec 5) (b : BitVec 5) (r : BitVec 3) (k : BitVec 4)
  /-- VADD_INT (R139). Integer addition. -/
  | vaddInt (d : BitVec 5) (a : BitVec 5) (b : BitVec 5) (e : BitVec 3) (k : BitVec 4)
  /-- VSUB_INT (R139). Integer subtraction. -/
  | vsubInt (d : BitVec 5) (a : BitVec 5) (b : BitVec 5) (e : BitVec 3) (k : BitVec 4)
  /-- VMUL_INT (R139). Low half of the integer product. -/
  | vmulInt (d : BitVec 5) (a : BitVec 5) (b : BitVec 5) (e : BitVec 3) (k : BitVec 4)
  /-- VMULH (R139). High half of the integer product. -/
  | vmulh (d : BitVec 5) (a : BitVec 5) (b : BitVec 5) (e : BitVec 3) (k : BitVec 4)
  /-- VADDS (R139). Saturating addition. -/
  | vadds (d : BitVec 5) (a : BitVec 5) (b : BitVec 5) (e : BitVec 3) (k : BitVec 4)
  /-- VSUBS (R139). Saturating subtraction. -/
  | vsubs (d : BitVec 5) (a : BitVec 5) (b : BitVec 5) (e : BitVec 3) (k : BitVec 4)
  /-- VMIN_INT (R139). Integer minimum. -/
  | vminInt (d : BitVec 5) (a : BitVec 5) (b : BitVec 5) (e : BitVec 3) (k : BitVec 4)
  /-- VMAX_INT (R139). Integer maximum. -/
  | vmaxInt (d : BitVec 5) (a : BitVec 5) (b : BitVec 5) (e : BitVec 3) (k : BitVec 4)
  /-- VABSD (R139). Absolute difference. -/
  | vabsd (d : BitVec 5) (a : BitVec 5) (b : BitVec 5) (e : BitVec 3) (k : BitVec 4)
  /-- VDIV_INT (R139). Integer quotient. -/
  | vdivInt (d : BitVec 5) (a : BitVec 5) (b : BitVec 5) (e : BitVec 3) (k : BitVec 4)
  /-- VREM (R139). Integer remainder. -/
  | vrem (d : BitVec 5) (a : BitVec 5) (b : BitVec 5) (e : BitVec 3) (k : BitVec 4)
  /-- VCEQ_INT (R138). Integer equal compare pushed onto the mask stack. -/
  | vceqInt (a : BitVec 5) (b : BitVec 5) (e : BitVec 3) (k : BitVec 4)
  /-- VCNE_INT (R138). Integer not-equal compare pushed onto the mask stack. -/
  | vcneInt (a : BitVec 5) (b : BitVec 5) (e : BitVec 3) (k : BitVec 4)
  /-- VCLT_INT (R138). Integer less-than compare pushed onto the mask stack. -/
  | vcltInt (a : BitVec 5) (b : BitVec 5) (e : BitVec 3) (k : BitVec 4)
  /-- VCLE_INT (R138). Integer less-or-equal compare pushed onto the mask stack. -/
  | vcleInt (a : BitVec 5) (b : BitVec 5) (e : BitVec 3) (k : BitVec 4)
  /-- VAND (R140). Vector AND. -/
  | vand (d : BitVec 5) (a : BitVec 5) (b : BitVec 5) (e : BitVec 3) (k : BitVec 4)
  /-- VOR (R140). Vector OR. -/
  | vor (d : BitVec 5) (a : BitVec 5) (b : BitVec 5) (e : BitVec 3) (k : BitVec 4)
  /-- VXOR (R140). Vector XOR. -/
  | vxor (d : BitVec 5) (a : BitVec 5) (b : BitVec 5) (e : BitVec 3) (k : BitVec 4)
  /-- VANDN (R140). Vector AND NOT. -/
  | vandn (d : BitVec 5) (a : BitVec 5) (b : BitVec 5) (e : BitVec 3) (k : BitVec 4)
  /-- VNOT (R140). Vector NOT. -/
  | vnot (d : BitVec 5) (a : BitVec 5) (e : BitVec 3) (k : BitVec 4)
  /-- VSLL (R140). Per-element shift left. -/
  | vsll (d : BitVec 5) (a : BitVec 5) (b : BitVec 5) (e : BitVec 3) (k : BitVec 4)
  /-- VSRL (R140). Per-element logical shift right. -/
  | vsrl (d : BitVec 5) (a : BitVec 5) (b : BitVec 5) (e : BitVec 3) (k : BitVec 4)
  /-- VSRA (R140). Per-element arithmetic shift right. -/
  | vsra (d : BitVec 5) (a : BitVec 5) (b : BitVec 5) (e : BitVec 3) (k : BitVec 4)
  /-- VADDI_I32 (R141). Adds an immediate to 32-bit elements. -/
  | vaddiI32 (d : BitVec 5) (a : BitVec 5) (i : BitVec 8) (k : BitVec 4)
  /-- VADDI_I16 (R141). Adds an immediate to 16-bit elements. -/
  | vaddiI16 (d : BitVec 5) (a : BitVec 5) (i : BitVec 8) (k : BitVec 4)
  /-- VADDI_I8 (R141). Adds an immediate to 8-bit elements. -/
  | vaddiI8 (d : BitVec 5) (a : BitVec 5) (i : BitVec 8) (k : BitVec 4)
  /-- VSLLI_32 (R141). Immediate shift left of 32-bit elements. -/
  | vslli32 (d : BitVec 5) (a : BitVec 5) (i : BitVec 5) (k : BitVec 4)
  /-- VSRLI_32 (R141). Immediate logical shift right of 32-bit elements. -/
  | vsrli32 (d : BitVec 5) (a : BitVec 5) (i : BitVec 5) (k : BitVec 4)
  /-- VSRAI_32 (R141). Immediate arithmetic shift right of 32-bit elements. -/
  | vsrai32 (d : BitVec 5) (a : BitVec 5) (i : BitVec 5) (k : BitVec 4)
  /-- VSLLI_16 (R141). Immediate shift left of 16-bit elements. -/
  | vslli16 (d : BitVec 5) (a : BitVec 5) (i : BitVec 4) (k : BitVec 4)
  /-- VSRLI_16 (R141). Immediate logical shift right of 16-bit elements. -/
  | vsrli16 (d : BitVec 5) (a : BitVec 5) (i : BitVec 4) (k : BitVec 4)
  /-- VSRAI_16 (R141). Immediate arithmetic shift right of 16-bit elements. -/
  | vsrai16 (d : BitVec 5) (a : BitVec 5) (i : BitVec 4) (k : BitVec 4)
  /-- VMOVI_32 (R141). Writes a sign-extended immediate to 32-bit elements. -/
  | vmovi32 (d : BitVec 5) (i : BitVec 8) (k : BitVec 4)
  /-- VFMOVI_F32 (R141). Writes the FP32 value of a ZF8 code. -/
  | vfmoviF32 (d : BitVec 5) (i : BitVec 8) (k : BitVec 4)
  /-- VSPLAT_32 (R141). Broadcasts one 32-bit element. -/
  | vsplat32 (d : BitVec 5) (a : BitVec 5) (i : BitVec 7) (k : BitVec 4)
  /-- VSLDN_32 (R141). Slides 32-bit elements down. -/
  | vsldn32 (d : BitVec 5) (a : BitVec 5) (i : BitVec 7) (k : BitVec 4)
  /-- VSLUP_32 (R141). Slides 32-bit elements up. -/
  | vslup32 (d : BitVec 5) (a : BitVec 5) (i : BitVec 7) (k : BitVec 4)
  /-- VCVT (R143). Converts one part of a register between formats, optionally scaled. -/
  | vcvt (d : BitVec 5) (a : BitVec 5) (s : Bool) (p : BitVec 3) (r : BitVec 3) (f : BitVec 4) (k : BitVec 4)
  /-- VPACKS (R144). Packs two registers to half width with saturation. -/
  | vpacks (d : BitVec 5) (a : BitVec 5) (b : BitVec 5) (e : BitVec 3) (k : BitVec 4)
  /-- VPACKT (R144). Packs two registers to half width by truncation. -/
  | vpackt (d : BitVec 5) (a : BitVec 5) (b : BitVec 5) (e : BitVec 3) (k : BitVec 4)
  /-- VUNPKL (R144). Unpacks the low half to double width. -/
  | vunpkl (d : BitVec 5) (a : BitVec 5) (e : BitVec 3) (k : BitVec 4)
  /-- VUNPKH (R144). Unpacks the high half to double width. -/
  | vunpkh (d : BitVec 5) (a : BitVec 5) (e : BitVec 3) (k : BitVec 4)
  /-- VUNSP (R145). Unpacks SP8 codes into a BF16 register pair. -/
  | vunsp (d : BitVec 5) (a : BitVec 5) (k : BitVec 4)
  /-- VPERM (R146). Permutes by indices in vb. -/
  | vperm (d : BitVec 5) (a : BitVec 5) (b : BitVec 5) (w : BitVec 3) (k : BitVec 4)
  /-- VPERM2 (R146). Two-source permute by indices in the old destination. -/
  | vperm2 (d : BitVec 5) (a : BitVec 5) (b : BitVec 5) (w : BitVec 3) (k : BitVec 4)
  /-- VBCQ (R146). Broadcasts one entry popped from Q.CX. -/
  | vbcq (d : BitVec 5) (w : BitVec 3) (k : BitVec 4)
  /-- VZIPL (R146). Interleaves low halves. -/
  | vzipl (d : BitVec 5) (a : BitVec 5) (b : BitVec 5) (w : BitVec 3) (k : BitVec 4)
  /-- VZIPH (R146). Interleaves high halves. -/
  | vziph (d : BitVec 5) (a : BitVec 5) (b : BitVec 5) (w : BitVec 3) (k : BitVec 4)
  /-- VUZPE (R146). Takes even elements. -/
  | vuzpe (d : BitVec 5) (a : BitVec 5) (b : BitVec 5) (w : BitVec 3) (k : BitVec 4)
  /-- VUZPO (R146). Takes odd elements. -/
  | vuzpo (d : BitVec 5) (a : BitVec 5) (b : BitVec 5) (w : BitVec 3) (k : BitVec 4)
  /-- VREV (R146). Reverses elements. -/
  | vrev (d : BitVec 5) (a : BitVec 5) (w : BitVec 3) (k : BitVec 4)
  /-- VSEL (R147). Selects elements by the effective mask. -/
  | vsel (d : BitVec 5) (a : BitVec 5) (b : BitVec 5) (w : BitVec 3) (k : BitVec 4)
  /-- MPUSHR (R147). Pushes a mask read from a register. -/
  | mpushr (a : BitVec 5) (k : BitVec 4)
  /-- MSAVE (R147). Writes the effective mask into a register. -/
  | msave (d : BitVec 5) (k : BitVec 4)
  /-- MINV (R147). Inverts the top mask within its parent. -/
  | minv (w : BitVec 3) (k : BitVec 4)
  /-- MPOP (R147). Pops the mask stack. -/
  | mpop (k : BitVec 4)
  /-- MCLR (R147). Empties the mask stack. -/
  | mclr (k : BitVec 4)
  /-- VRSUM (R150). Exact segmented sum output through the format entry. -/
  | vrsum (d : BitVec 5) (a : BitVec 5) (t : BitVec 3) (k : BitVec 4)
  /-- VRSSQ (R150). Exact segmented sum of squares. -/
  | vrssq (d : BitVec 5) (a : BitVec 5) (t : BitVec 3) (k : BitVec 4)
  /-- VRDOT (R150). Exact segmented dot product. -/
  | vrdot (d : BitVec 5) (a : BitVec 5) (b : BitVec 5) (t : BitVec 3) (k : BitVec 4)
  /-- VRSUMA (R150). Exact segmented sum that also adds raw cells from vb. -/
  | vrsuma (d : BitVec 5) (a : BitVec 5) (b : BitVec 5) (t : BitVec 3) (k : BitVec 4)
  /-- VSCAN (R151). Exact inclusive prefix sum. -/
  | vscan (d : BitVec 5) (a : BitVec 5) (t : BitVec 3) (k : BitVec 4)
  /-- VSCNX (R151). Exact exclusive prefix sum. -/
  | vscnx (d : BitVec 5) (a : BitVec 5) (t : BitVec 3) (k : BitVec 4)
  /-- VRMAX (R152). Segmented maximum. -/
  | vrmax (d : BitVec 5) (a : BitVec 5) (t : BitVec 3) (k : BitVec 4)
  /-- VRMIN (R152). Segmented minimum. -/
  | vrmin (d : BitVec 5) (a : BitVec 5) (t : BitVec 3) (k : BitVec 4)
  /-- VAMAX (R153). Captures the largest magnitude into the entry's ring. -/
  | vamax (a : BitVec 5) (t : BitVec 3) (k : BitVec 4)
  /-- VDSCALE (R153). Derives OSX from the ring and advances the ring head. -/
  | vdscale (k : BitVec 4)
  /-- SHRM (R101). Sets shp.RM. -/
  | shrm (i : BitVec 8) (k : BitVec 4)
  /-- SHFT (R101). Sets shp.FBASE and shp.FLV. -/
  | shft (l : BitVec 5) (b : BitVec 6) (k : BitVec 4)
  /-- SHPOP (R101). Pops Q.CX into the shape register. -/
  | shpop (k : BitVec 4)
  /-- MRD (R300). Waits on the tile watermark and converts a tile row into a vector register. -/
  | mrd (v : BitVec 5) (l : BitVec 5) (t : BitVec 2) (r : BitVec 6) (k : BitVec 4)
  /-- MRDC (R300). Converts a tile row into a register and empties the row. -/
  | mrdc (v : BitVec 5) (l : BitVec 5) (t : BitVec 2) (r : BitVec 6) (k : BitVec 4)
  /-- MRDR (R300). Reads raw tile-row cells into a register pair. -/
  | mrdr (v : BitVec 5) (l : BitVec 5) (t : BitVec 2) (r : BitVec 6) (k : BitVec 4)
  /-- QPOPV_X (R100). X pops Q.LX into a vector register. -/
  | qpopvX (v : BitVec 5) (k : BitVec 4)
  /-- QPUSHV_X (R100). X pushes a vector register to Q.XS. -/
  | qpushvX (v : BitVec 5) (k : BitVec 4)
  /-- SLOOP_X (R88). X opens a loop level with a limit popped from Q.CX. -/
  | sloopX (f : BitVec 2) (o : BitVec 8) (l : BitVec 4) (k : BitVec 4)
  /-- SENDL_X (R88). X repeats or closes a loop level. -/
  | sendlX (l : BitVec 4) (k : BitVec 4)
  /-- SENDL_EXIT_X (R88). X closes a loop level at once. -/
  | sendlExitX (l : BitVec 4) (k : BitVec 4)
  /-- QDROP_X (R100). X pops and discards n entries of Q.CX. -/
  | qdropX (n : BitVec 4) (k : BitVec 4)
  /-- TNOP_X (R100). X performs its token bits only. -/
  | tnopX (k : BitVec 4)
  /-- VLD (R156). Loads 64 Pocket cells into a vector register in unit, strided, indexed or transpose mode. -/
  | vld (v : BitVec 5) (a : BitVec 5) (x : Bool) (i : Bool) (m : BitVec 2) (o : BitVec 8) (k : BitVec 4)
  /-- VST (R156). Stores a vector register to 64 Pocket cells. -/
  | vst (v : BitVec 5) (a : BitVec 5) (i : Bool) (m : BitVec 2) (o : BitVec 8) (k : BitVec 4)
  /-- QPOPA (R99). Pops the inbound scalar queue into an address register. -/
  | qpopa (d : BitVec 5) (k : BitVec 4)
  /-- QPUSHA (R99). S pushes an address register to Q.SC. -/
  | qpusha (a : BitVec 5) (k : BitVec 4)
  /-- QPUSHV_L (R99). L pushes a vector register to Q.LX. -/
  | qpushvL (v : BitVec 5) (k : BitVec 4)
  /-- QPOPV_S (R99). S pops Q.XS into a vector register. -/
  | qpopvS (v : BitVec 5) (k : BitVec 4)
  /-- SLOOP_LS (R88). L or S opens a loop level with a limit popped from its inbound queue. -/
  | sloopLs (l : BitVec 5) (g : Bool) (f : Bool) (o : BitVec 8) (k : BitVec 4)
  /-- SENDL_LS (R88). L or S repeats or closes a loop level. -/
  | sendlLs (l : BitVec 5) (k : BitVec 4)
  /-- SENDL_EXIT_LS (R88). L or S closes a loop level at once. -/
  | sendlExitLs (l : BitVec 5) (k : BitVec 4)
  /-- CCWAIT_LS (R92). L or S waits until a completion count reaches a threshold. -/
  | ccwaitLs (c : BitVec 5) (n : BitVec 8) (k : BitVec 4)
  /-- QDROP_LS (R99). L or S pops and discards n inbound entries. -/
  | qdropLs (n : BitVec 8) (k : BitVec 4)
  /-- TNOP_LS (R99). L or S performs its token bits only. -/
  | tnopLs (k : BitVec 4)
  /-- TMOV (R201). L or S accepts a tile move with optional transpose from a Pocket descriptor. -/
  | tmov (m : Bool) (t : BitVec 5) (c : BitVec 3) (q : BitVec 2) (a : Bool) (r : Bool) (s : BitVec 4) (k : BitVec 4)
  /-- TGATH (R201). Accepts a gathering tile move. -/
  | tgath (m : Bool) (t : BitVec 5) (c : BitVec 3) (q : BitVec 2) (a : Bool) (r : Bool) (s : BitVec 4) (k : BitVec 4)
  /-- TSCAT (R201). Accepts a scattering tile move. -/
  | tscat (m : Bool) (t : BitVec 5) (c : BitVec 3) (q : BitVec 2) (a : Bool) (r : Bool) (s : BitVec 4) (k : BitVec 4)
  /-- TFILL (R201). Accepts a pattern-fill tile move. -/
  | tfill (m : Bool) (t : BitVec 5) (c : BitVec 3) (q : BitVec 2) (a : Bool) (r : Bool) (s : BitVec 4) (k : BitVec 4)
  /-- TMOVF (R201). Accepts a tile move that fills each destination cell. -/
  | tmovf (m : Bool) (t : BitVec 5) (c : BitVec 3) (q : BitVec 2) (a : Bool) (r : Bool) (s : BitVec 4) (k : BitVec 4)
  /-- AADDI (R160). Adds 8 × immediate to an address register. -/
  | aaddi (d : BitVec 5) (a : BitVec 5) (i : BitVec 8) (k : BitVec 4)
  /-- AADDV (R160). Adds 512 × immediate to an address register. -/
  | aaddv (d : BitVec 5) (a : BitVec 5) (i : BitVec 8) (k : BitVec 4)
  /-- AADD (R160). Adds two address registers. -/
  | aadd (d : BitVec 5) (a : BitVec 5) (b : BitVec 4) (k : BitVec 4)
  /-- ASUB (R160). Subtracts two address registers. -/
  | asub (d : BitVec 5) (a : BitVec 5) (b : BitVec 4) (k : BitVec 4)
  /-- ASLLI (R160). Shifts an address register left. -/
  | aslli (d : BitVec 5) (a : BitVec 5) (n : BitVec 6) (k : BitVec 4)
  /-- DTSET (R276). Pops tape base and limit-pointer into the stream's tape registers. -/
  | dtset (k : BitVec 4)
  /-- DPLD (R276). Loads primal values as a forward unit VLD whatever the mode. -/
  | dpld (v : BitVec 5) (a : BitVec 5) (o : BitVec 8) (k : BitVec 4)
  /-- DGLD (R276). Converts 128 shadow-form cells to FP32. -/
  | dgld (v : BitVec 5) (a : BitVec 5) (n : BitVec 8) (k : BitVec 4)
  /-- DGLDC (R276). Converts 128 shadow-form cells to FP32 and clears them. -/
  | dgldc (v : BitVec 5) (a : BitVec 5) (n : BitVec 8) (k : BitVec 4)
  /-- MZERO (R292). Accepts a command that empties tiles and sets their anchors. -/
  | mzero (h : Hdr) (tm : BitVec 4) (anc : BitVec 8) (as : Bool) (fx : BitVec 6) (lv : BitVec 3)
  /-- MMA (R293). Accepts a command that accumulates A × B exactly into a tile. -/
  | mma (h : Hdr) (t : BitVec 2) (fx : BitVec 6) (lv : BitVec 3) (snp : Bool) (ta : Bool) (tb : Bool) (mca : Bool) (mcb : Bool) (tri : BitVec 2) (sn : BitVec 5) (sd : BitVec 5) (ss : BitVec 5) (sb : BitVec 5) (sa : BitVec 5)
  /-- MBIAS (R294). Accepts a command that adds a bias vector to tile rows. -/
  | mbias (h : Hdr) (t : BitVec 2) (fx : BitVec 6) (lv : BitVec 3) (snp : Bool) (sn : BitVec 5) (sd : BitVec 5) (sa : BitVec 5)
  /-- MADDT (R295). Accepts a command that adds one tile into another. -/
  | maddt (h : Hdr) (td : BitVec 2) (ts : BitVec 2) (cs : Bool)
  /-- MOUT (R296). Accepts a command that converts tile rows into Pocket with optional capture. -/
  | mout (h : Hdr) (t : BitVec 2) (fx : BitVec 6) (lv : BitVec 3) (snp : Bool) (cap : Bool) (clr : Bool) (tr : Bool) (row0 : BitVec 6) (nr : BitVec 6) (sn : BitVec 5) (ss : BitVec 5) (sa : BitVec 5)
  /-- MOUTR (R297). Accepts a command that stores raw tile cells into Pocket. -/
  | moutr (h : Hdr) (t : BitVec 2) (clr : Bool) (tr : Bool) (row0 : BitVec 6) (nr : BitVec 6) (ss : BitVec 5) (sa : BitVec 5)
  /-- MLDR (R297). Accepts a command that loads raw cells from Pocket into a tile. -/
  | mldr (h : Hdr) (t : BitVec 2) (tr : Bool) (row0 : BitVec 6) (nr : BitVec 6) (ss : BitVec 5) (sa : BitVec 5)
  /-- MNOP (R298). Accepts an order-and-signal matrix command with no step word. -/
  | mnop (h : Hdr)
  /-- MSNAP (R299). Accepts a command that writes a format-entry snapshot to Pocket. -/
  | msnap (h : Hdr) (fx : BitVec 6) (lv : BitVec 3) (sa : BitVec 5)
  /-- MATRIX_COMMAND_START (R288). After earlier commands start and its wait is met, a matrix command acquires, reads its entry and performs its rows. -/
  | matrixCommandStart (sh : ShNo) (id : Nat)
  /-- MATRIX_COMMAND_COMPLETE (R288). A matrix command sets its flags, releases, lowers its counter and signals. -/
  | matrixCommandComplete (sh : ShNo) (id : Nat)
  /-- TCMOV (R201). C accepts a tile move between any levels. -/
  | tcmov (h : Hdr) (tq : BitVec 2) (dsc : BitVec 14)
  /-- TCGATH (R201). C accepts a gathering tile move. -/
  | tcgath (h : Hdr) (dsc : BitVec 14)
  /-- TCSCAT (R201). C accepts a scattering tile move. -/
  | tcscat (h : Hdr) (dsc : BitVec 14)
  /-- TCFILL (R201). C accepts a pattern-fill tile move. -/
  | tcfill (h : Hdr) (dsc : BitVec 14)
  /-- TCMOVF (R201). C accepts a filling tile move. -/
  | tcmovf (h : Hdr) (dsc : BitVec 14)
  /-- TILE_MOVE_RUN (R202). An accepted move waits on its semaphore, acquires and copies its rows. -/
  | tileMoveRun (sh : ShNo) (id : Nat)
  /-- MOVE_RESIDENCY_RESUME (R218). On a resume or deny reply a waiting move rereads the map and continues or faults. -/
  | moveResidencyResume (sh : ShNo) (id : Nat)
  /-- TILE_MOVE_COMPLETE (R205). A move with all writes performed releases, lowers its counter and signals. -/
  | tileMoveComplete (sh : ShNo) (id : Nat)
  /-- CAR (R406). Accepts an exact all-reduce. -/
  | car (h : Hdr) (cm : BitVec 6) (op : BitVec 4) (fx : BitVec 6) (lv : BitVec 3) (sc : BitVec 5) (sb : BitVec 5) (sa : BitVec 5)
  /-- CRS (R406). Accepts an exact reduce-scatter. -/
  | crs (h : Hdr) (cm : BitVec 6) (op : BitVec 4) (fx : BitVec 6) (lv : BitVec 3) (sc : BitVec 5) (sb : BitVec 5) (sa : BitVec 5)
  /-- CAG (R406). Accepts an all-gather. -/
  | cag (h : Hdr) (cm : BitVec 6) (sc : BitVec 5) (sb : BitVec 5) (sa : BitVec 5)
  /-- CBC (R406). Accepts a broadcast. -/
  | cbc (h : Hdr) (cm : BitVec 6) (rt : BitVec 8) (sc : BitVec 5) (sb : BitVec 5) (sa : BitVec 5)
  /-- CRED (R406). Accepts a reduce to a root. -/
  | cred (h : Hdr) (cm : BitVec 6) (op : BitVec 4) (fx : BitVec 6) (lv : BitVec 3) (rt : BitVec 8) (sc : BitVec 5) (sb : BitVec 5) (sa : BitVec 5)
  /-- CA2A (R406). Accepts an all-to-all. -/
  | ca2a (h : Hdr) (cm : BitVec 6) (sc : BitVec 5) (sb : BitVec 5) (sa : BitVec 5)
  /-- CBAR (R406). Accepts a collective barrier. -/
  | cbar (h : Hdr) (cm : BitVec 6)
  /-- HEDDLE_CHUNK_BEGIN (R412). At a chunk boundary the Heddle begins the ready chunk of highest priority. -/
  | heddleChunkBegin (turn : HeddleTurn)
  /-- CHUNK_ARRIVAL (R413). An arriving collective chunk is drained into landing slots or the receive extent. -/
  | chunkArrival (c : Chunk)
  /-- COLLECTIVE_COMPLETE (R411). A collective writes its receive bytes, releases and lowers its counter. -/
  | collectiveComplete (sh : ShNo) (id : Nat)
  /-- FAULT_NOTICE_ARRIVAL (R410). A fault notice ends the matching collective with cause 0x3B and blocks the communicator. -/
  | faultNoticeArrival (tag : Option Tag) (cm : BitVec 6) (j : Nat)
  /-- SWITCH_LIMIT_EXPIRY (R415). A late rank makes the warp switch abandon and the Heddles re-run by ring. -/
  | switchLimitExpiry (sh : ShNo) (id : Nat)
  /-- RINV (R227). Accepts an invalidation of a virtual interval. -/
  | rinv (h : Hdr) (y : BitVec 5) (x : BitVec 5)
  /-- RINVX (R227). Accepts an invalidation of one entry's interval. -/
  | rinvx (h : Hdr) (x : BitVec 5)
  /-- RINVA (R227). Accepts an invalidation of all ranges. -/
  | rinva (h : Hdr)
  /-- RSPLIT (R227). Accepts a range split. -/
  | rsplit (h : Hdr) (z : BitVec 5) (y : BitVec 5) (x : BitVec 5)
  /-- RMERGE (R227). Accepts a range merge. -/
  | rmerge (h : Hdr) (y : BitVec 5) (x : BitVec 5)
  /-- RPRESS (R227). Accepts a compaction of a range's backing. -/
  | rpress (h : Hdr) (y : BitVec 5) (x : BitVec 5)
  /-- RRES (R227). Accepts a residency reply made from the device. -/
  | rres (h : Hdr) (z : BitVec 5) (y : BitVec 5) (x : BitVec 5)
  /-- RGENA (R227). Accepts a GEN advance. -/
  | rgena (h : Hdr) (x : BitVec 5)
  /-- RANGE_COMMAND_RUN (R227). Once its wait is met and its task is oldest, a range command acquires and performs its effect. -/
  | rangeCommandRun (sh : ShNo) (id : Nat)
  /-- PRESS_BLOCK_COPY (R224). The Press copies one 4 KiB block and raises the watermark. -/
  | pressBlockCopy
  /-- INVALIDATION_COMPLETE (R220). No stale translation remains; BUSY clears and an MSI is sent. -/
  | invalidationComplete (id : Nat)
  /-- TEND (R185). Ends a stream; in C waits for the streams and counters and completes the shuttle's part. -/
  | tend (k : BitVec 4)
  /-- GINFO (R185). Returns group size and rank. -/
  | ginfo (d : BitVec 5) (g : BitVec 2)
  /-- TORDER (R185). Waits until the task is the oldest. -/
  | torder (l : BitVec 4)
  /-- LDF (R186). Waits until a cell is full and reads it. -/
  | ldf (d : BitVec 5) (a : BitVec 5) (l : BitVec 4)
  /-- LDFE (R186). Waits until a cell is full, reads it and empties it. -/
  | ldfe (d : BitVec 5) (a : BitVec 5) (l : BitVec 4)
  /-- STEF (R186). Waits until a cell is empty, writes it and fills it. -/
  | stef (d : BitVec 5) (a : BitVec 5) (l : BitVec 4)
  /-- FESET (R186). Sets a cell full without waiting. -/
  | feset (a : BitVec 5)
  /-- FECLR (R186). Sets a cell empty without waiting. -/
  | feclr (a : BitVec 5)
  /-- VLDFE (R186). Waits until 64 cells are full, loads and empties them. -/
  | vldfe (v : BitVec 5) (a : BitVec 5) (l : BitVec 4) (k : BitVec 4)
  /-- VSTEF (R186). Waits until 64 cells are empty, writes and fills them. -/
  | vstef (v : BitVec 5) (a : BitVec 5) (l : BitVec 4) (k : BitVec 4)
  /-- BARARR (R177). Makes an arrival on a barrier. -/
  | bararr (b : BitVec 5) (l : BitVec 4)
  /-- BARPOST (R177). Makes a posting arrival with a byte count. -/
  | barpost (b : BitVec 5) (a : BitVec 5) (l : BitVec 4)
  /-- BARSYNC (R187). Arrives if not already arrived, then waits for the phase. -/
  | barsync (b : BitVec 5) (l : BitVec 4)
  /-- BARWAIT (R179). Waits until the member's last phase completes. -/
  | barwait (b : BitVec 5) (l : BitVec 4) (k : BitVec 4)
  /-- SEMSIG (R181). Signals a semaphore, stalling while it is 255. -/
  | semsig (s : BitVec 5) (k : BitVec 4)
  /-- SEMWAIT (R181). Waits for and takes one count of a semaphore. -/
  | semwait (s : BitVec 5) (l : BitVec 4) (k : BitVec 4)
  /-- WAIT_LIMIT_EXPIRY (R182). A timed wait reaches its limit and takes cause 0x14. -/
  | waitLimitExpiry (sh : ShNo) (st : Stream)
  /-- LDS (R253). Synchronising load of a Pocket cell. -/
  | lds (d : BitVec 5) (a : BitVec 5) (c : BitVec 4)
  /-- LDS_ACQ (R253). Synchronising load that acquires at its scope. -/
  | ldsAcq (d : BitVec 5) (a : BitVec 5) (c : BitVec 4)
  /-- STS (R253). Synchronising store of a Pocket cell. -/
  | sts (d : BitVec 5) (a : BitVec 5) (c : BitVec 4)
  /-- STS_REL (R253). Synchronising store that releases at its scope. -/
  | stsRel (d : BitVec 5) (a : BitVec 5) (c : BitVec 4)
  /-- ACQ (R241). Makes preceding synchronising loads acquires at the scope. -/
  | acq (c : BitVec 4) (k : BitVec 4)
  /-- REL (R241). Makes following synchronising stores releases at the scope. -/
  | rel (c : BitVec 4) (k : BitVec 4)
  /-- MARK (R242). Pushes markers into the named channels. -/
  | mark (m : BitVec 8)
  /-- JOIN (R243). Waits for every marker to reach its head, then releases and acquires. -/
  | join (l : BitVec 5) (c : BitVec 4)
  /-- FENCE (R243). MARK of all channels followed by JOIN. -/
  | fence (l : BitVec 5) (c : BitVec 4)
  /-- ATOM (R245). Sends an atomic update to a cell's bank unit. -/
  | atom (d : BitVec 5) (a : BitVec 5) (o : BitVec 3) (c : BitVec 4)
  /-- ATOM_REL (R245). Sends an atomic update that releases at its scope. -/
  | atomRel (d : BitVec 5) (a : BitVec 5) (o : BitVec 3) (c : BitVec 4)
  /-- VATOM (R245). Sends 64 atomic updates. -/
  | vatom (v : BitVec 5) (a : BitVec 5) (o : BitVec 3) (c : BitVec 4) (k : BitVec 4)
  /-- VATOM_REL (R245). Sends 64 atomic updates that release. -/
  | vatomRel (v : BitVec 5) (a : BitVec 5) (o : BitVec 3) (c : BitVec 4) (k : BitVec 4)
  /-- CLDECL (R247). Declares a counted line with count, scope and flag. -/
  | cldecl (d : BitVec 5) (a : BitVec 5) (c : BitVec 4)
  /-- CLADD (R248). Sends one contribution to a counted line. -/
  | cladd (d : BitVec 5) (a : BitVec 5) (o : BitVec 3)
  /-- OATOM (R250). Makes an ordered atomic contribution and waits for its result. -/
  | oatom (d : BitVec 5) (a : BitVec 5) (o : BitVec 4) (l : BitVec 4)
  /-- BANK_UPDATE (R246). A bank unit performs an atomic or contribution message on its cell. -/
  | bankUpdate (sh : ShNo) (id : Nat)
  /-- CL_FLAG_FILL (R249). A complete counted line fills its flag cell with n as a release. -/
  | clFlagFill (panel : BitVec 2) (line : Nat)
  /-- BRK (R378). Takes the breakpoint trap. -/
  | brk (k : BitVec 4)
  /-- MCALL (R378). Takes the monitor-call trap with an immediate. -/
  | mcall (n : BitVec 5) (m : BitVec 5)
  /-- TRET (R25). Returns from a trap to esst mode at epc. -/
  | tret
  /-- CKMARK (R378). Records a checkpoint step for LSTEP. -/
  | ckmark (a : BitVec 5)
  /-- ABTOK (R378). Waits until oldest and raises an abort token. -/
  | abtok (a : BitVec 5)
  /-- DFWD (R261). Switches the issuing sequencer to forward mode. -/
  | dfwd (k : BitVec 4)
  /-- DREV (R261). Switches the issuing sequencer to reverse mode. -/
  | drev (k : BitVec 4)
  /-- STREAM_DEADLOCK (R96). All sequencers stalled on one another with nothing pending: C takes cause 0x0E. -/
  | streamDeadlock (sh : ShNo)
  /-- ASYNC_FAULT_TAKE (R358). C takes the oldest pending asynchronous fault at a task-mode boundary. -/
  | asyncFaultTake (sh : ShNo)
  /-- TRAP_ROUTE (R351). A trap routed beyond the monitor is written to the trap ring once its task is oldest. -/
  | trapRoute (sh : Option ShNo) (tid : Nat)
  /-- TASK_START (R162). A ready task is placed, granted, loaded and started on its shuttles. -/
  | taskStart (tid : Nat) (pl : List (Nat × ShNo)) (sbase : Nat) (bbase : Nat)
  /-- TASK_COMMIT (R167). The oldest complete task's staged writes are checked and performed and its completion signalled. -/
  | taskCommit (tid : Nat)
  /-- DUAL_SIGNATURE_COMPARE (R349). When both DUAL copies end their signatures are compared and the task commits or reruns. -/
  | dualSignatureCompare (tid : Nat)
  /-- DOBBY_STEP (R341). A replay lane step waits on its semaphore, acts and signals. -/
  | dobbyStep (lid : Nat) (tid : Nat)
  /-- PUNCH_REFINE (R348). Between launches the Punch rewrites a card under a new version. -/
  | punchRefine (c : Card)
  /-- CARD_COPY (R416). A card or its refinement is copied to every gang member. -/
  | cardCopy (tag : Tag) (c : Card)
  /-- STOP_MESSAGE (R416). A gang stop ends replay at the member's next task boundary. -/
  | stopMessage (tag : Tag) (hash : BitVec 128) (ordinal : Nat)
  /-- ABORT_TOKEN_MESSAGE (R375). An abort token arriving from another package stops every launch there. -/
  | abortTokenMessage (tag : Tag) (reason : BitVec 16) (pkid : BitVec 8)
  /-- LSTEP_MESSAGE (R416). A member's frozen LSTEP arrives; AGREED is set once all have sent or left. -/
  | lstepMessage (tag : Tag) (step : W64)
  /-- REMOTE_ACCESS_MESSAGE (R401). A remote access message is performed at the target once per sequence number and acknowledged. -/
  | remoteAccessMessage (m : RemoteMsg)
  /-- REMOTE_ACK_MESSAGE (R399). An acknowledgement frees the sender's copy of a remote message, which has this virtual channel and
  sequence number. -/
  | remoteAckMessage (peer : BitVec 8) (number : BitVec 2 × BitVec 48) (reply : Reply)
  /-- LINK_FAILURE (R402). A link leaves service and unacknowledged messages are re-sent on another route. -/
  | linkFailure (link : Nat)
  /-- CHECK_FAILURE (R371). A failed integrity check is retried and classed transient or lasting. -/
  | checkFailure (f : CheckFail)
  /-- OPERATING_POINT_CHANGE (R396). The power manager moves the package to another operating point. -/
  | operatingPointChange (point : BitVec 8) (mhz : BitVec 16)
  /-- LAUNCH (R317). A launch packet is checked and its graph handed to the Drafter or Dobby. -/
  | launch (q : Nat) (p : Packet)
  /-- RESUME (R369). A resume packet restores a checkpoint image and continues the launch. -/
  | resume (q : Nat) (p : Packet)
  /-- FENCE_PACKET (R319). A fence packet begins waiting on counters. -/
  | fencePacket (q : Nat) (p : Packet)
  /-- FENCE_PACKET_MET (R319). All fence counters seen at their targets; the fence completes as a release. -/
  | fencePacketMet (q : Nat) (id : Nat)
  /-- FENCE_EXPIRY (R319). A fence limit expires; status 7 and the queue halts. -/
  | fenceExpiry (q : Nat) (id : Nat)
  /-- IB (R320). Dispatches an indirect buffer at the next level. -/
  | ibPacket (q : Nat) (p : Packet)
  /-- PRED (R321). Reads a word and skips the next packets if the test fails. -/
  | predPacket (q : Nat) (p : Packet)
  /-- LOOP_PACKET (R322). Dispatches a packet body COUNT times. -/
  | loopPacket (q : Nat) (p : Packet)
  /-- FFENCE (R323). A fetch fence begins waiting for earlier packets. -/
  | ffence (q : Nat) (p : Packet)
  /-- FFENCE_COMPLETE (R323). Earlier packets done, read-ahead units are discarded and the fence completes. -/
  | ffenceComplete (q : Nat)
  /-- HINT_PACKET (R327). Tells the power manager the coming work class. -/
  | hintPacket (q : Nat) (p : Packet)
  /-- TREADLE_PACKET (R324). Starts a Treadle run on a handle with four arguments. -/
  | treadlePacket (q : Nat) (p : Packet)
  /-- NOP_PACKET (R317). A padding packet that completes at once. -/
  | nopPacket (q : Nat) (p : Packet)
  /-- PACKET_FETCH (R323). The Creel reads a packet's units ahead of its dispatch. -/
  | packetFetch (q : Nat)
  /-- PACKET_COMPLETE (R316). A completion report writes STATUS, adds to SIG and advances CIDX in order. -/
  | packetComplete (q : Nat) (id : Nat)
  /-- AGEING_STEP (R312). A candidate queue's AGE rises every AGEP µs. -/
  | ageingStep (q : Nat)
  /-- TREADLE_BUDGET_EXPIRY (R324). A Treadle run spends its budget before END and ends with status 6. -/
  | treadleBudgetExpiry (q : Nat)
  /-- TREADLE_LI (R324). Loads a sign-extended immediate. -/
  | treadleLi (d : BitVec 4) (i : BitVec 16)
  /-- TREADLE_SHORI (R324). Shifts left 16 and ORs an immediate. -/
  | treadleShori (d : BitVec 4) (i : BitVec 16)
  /-- TREADLE_ADD (R324). Treadle addition. -/
  | treadleAdd (d : BitVec 4) (a : BitVec 4) (b : BitVec 4)
  /-- TREADLE_SUB (R324). Treadle subtraction. -/
  | treadleSub (d : BitVec 4) (a : BitVec 4) (b : BitVec 4)
  /-- TREADLE_AND (R324). Treadle AND. -/
  | treadleAnd (d : BitVec 4) (a : BitVec 4) (b : BitVec 4)
  /-- TREADLE_OR (R324). Treadle OR. -/
  | treadleOr (d : BitVec 4) (a : BitVec 4) (b : BitVec 4)
  /-- TREADLE_XOR (R324). Treadle XOR. -/
  | treadleXor (d : BitVec 4) (a : BitVec 4) (b : BitVec 4)
  /-- TREADLE_SHL (R324). Treadle shift left. -/
  | treadleShl (d : BitVec 4) (a : BitVec 4) (b : BitVec 4)
  /-- TREADLE_SHR (R324). Treadle logical shift right. -/
  | treadleShr (d : BitVec 4) (a : BitVec 4) (b : BitVec 4)
  /-- TREADLE_ADDI (R324). Treadle add immediate. -/
  | treadleAddi (d : BitVec 4) (a : BitVec 4) (i : BitVec 16)
  /-- TREADLE_LD (R324). Loads 8 bytes with an acquire, or a buffered store. -/
  | treadleLd (d : BitVec 4) (a : BitVec 4) (i : BitVec 16)
  /-- TREADLE_ST (R324). Buffers an 8-byte store. -/
  | treadleSt (d : BitVec 4) (a : BitVec 4) (i : BitVec 16)
  /-- TREADLE_BEQ (R324). Branches if equal. -/
  | treadleBeq (a : BitVec 4) (b : BitVec 4) (i : BitVec 16)
  /-- TREADLE_BNE (R324). Branches if not equal. -/
  | treadleBne (a : BitVec 4) (b : BitVec 4) (i : BitVec 16)
  /-- TREADLE_BLTU (R324). Branches if unsigned less. -/
  | treadleBltu (a : BitVec 4) (b : BitVec 4) (i : BitVec 16)
  /-- TREADLE_BGEU (R324). Branches if unsigned greater or equal. -/
  | treadleBgeu (a : BitVec 4) (b : BitVec 4) (i : BitVec 16)
  /-- TREADLE_EMIT (R324). Reads a 64-byte unit as a packet to emit. -/
  | treadleEmit (a : BitVec 4)
  /-- TREADLE_END (R324). Ends the run, performs buffered stores all or none and dispatches emitted packets. -/
  | treadleEnd
  /-- KICK (R305). A write of a queue number makes the Creel read WIDX and fetch or wake the queue. -/
  | kick (q : Nat)
  /-- DOORBELL_WRITE (R305). A write to the doorbell aperture kicks queue q. -/
  | doorbellWrite (q : Nat) (v : W64)
  /-- DESTROY (R328). Destroys a queue, cancelling its unstarted work. -/
  | destroy (q : Nat)
  /-- DESTROY_COMPLETE (R328). With every acknowledgement collected, DSTAT.BUSY clears and MSIV is sent. -/
  | destroyComplete (q : Nat)
  /-- SLOTS_WRITE (R310). Lowering SLOTS marks queues in removed slots for eviction; raising frees slots. -/
  | slotsWrite (v : W64)
  /-- WAKE_READ (R307). A read of WAKE pops the oldest wake record. -/
  | wakeRead
  /-- TLOAD (R326). Submits a Treadle image for verification and sets BUSY. -/
  | tload (v : W64)
  /-- TLOAD_VERIFY_COMPLETE (R326). The verifier accepts or rejects the image and TSTAT shows the result. -/
  | tloadVerifyComplete
  /-- TFREE (R326). Frees a Treadle handle. -/
  | tfree (v : W64)
  /-- PREQ (R362). Requests pre-emption of a queue's launch. -/
  | preq (v : W64)
  /-- PREEMPT_COMPLETE (R363). With every acknowledgement collected the Creel writes the image and the launch completes with status 3. -/
  | preemptComplete (q : Nat)
  /-- PREL (R362). Clears the pre-emption hold of a queue. -/
  | prel (v : W64)
  /-- RREQ_READ (R219). A read of RREQ pops the oldest residency request. -/
  | rreqRead
  /-- RRESUME (R219). A write replies resume or deny to an outstanding residency request. -/
  | rresume (v : W64)
  /-- RGENREQ (R216). Advances the GEN of a named range entry. -/
  | rgenreq (v : W64)
  /-- RIVCTL_GO (R220). Starts an invalidation of RIVLO and RIVLEN. -/
  | rivctlGo
  /-- TRCMD_DELIVER (R357). Delivers a routed trap to the shuttle's monitor. -/
  | trcmdDeliver (n : Nat)
  /-- TRCMD_RETRY (R357). Resumes a frozen shuttle, reissuing the trapping instruction. -/
  | trcmdRetry (n : Nat)
  /-- TRCMD_KILL (R357). Requests discard of the trapping task's launch. -/
  | trcmdKill (n : Nat)
  /-- KILL_COMPLETE (R357). With acknowledgements collected the launch's tasks are discarded and status 5 reported. -/
  | killComplete (q : Nat)
  /-- ABTOK_REGISTER (R375). A write to ABTOK raises an abort token. -/
  | abtokRegister (v : W64)
  /-- CFLUSH (R350). Drops every card once running replays end. -/
  | cflush
  /-- MBCMD_REPORT (R394). Requests a signed attestation report. -/
  | mbcmdReport (v : W64)
  /-- MB_REPORT_COMPLETE (R394). The root of trust writes the report and clears BUSY. -/
  | mbReportComplete
  /-- CMCFG_WRITE (R410). A write of CMCFG configures a communicator and unblocks it, restarting its count. -/
  | cmcfgWrite (cm : BitVec 6) (v : W64)
  /-- WPIDX_WRITE (R417). Advancing the transmit index sends frames on a weft port. -/
  | wpidxWrite (port : BitVec 4) (v : W64)
  /-- WEFT_FRAME_RECEIVE (R417). A frame arrives at a weft port and fills the receive ring or device transport. -/
  | weftFrameReceive (port : BitVec 4) (data : List Byte)
  /-- REGISTER_WRITE (R7). A write to a device register with no behaviour of its own sets its value. -/
  | registerWrite (off : Nat) (v : W64)
  /-- WARP_LINK_ENTERS_SERVICE (R350). A warp link completes training and enters service, setting LNKST UP and raising HEPOCH. -/
  | warpLinkEntersService (l : LinkEnd)
  /-- WEFT_PORT_LINK_CHANGE (R417). A weft port's link comes up or goes down, changing WPCFG.UP. -/
  | weftPortLinkChange (port : BitVec 4) (up : Bool)
  /-- WEFT_TRANSMIT_DONE (R417). A frame queued on a weft port has been sent, advancing the transmit-done index and raising WPMSI. -/
  | weftTransmitDone (port : BitVec 4)
  /-- GANG_MEMBER_LEAVES_SERVICE (R416). A package learns that a gang member has left service, raising HEPOCH and counting it for AGREED. -/
  | gangMemberLeavesService (peer : BitVec 8)
  /-- CORE_OR_PCIE_STORE (R388). An application core or PCIe agent store to HBM, coherent with the device, such as a residency-map
  bit, range descriptor or ring unit. `data` is what a store stores, or the image that a step of bring-up checks. -/
  | coreOrPcieStore (act : CoreAct) (data : List Byte)
  /-- ABORT_TOKEN_COMPLETE (R375). The acknowledgement collector holds every acknowledgement for an abort token, so uncommitted tasks are discarded and packets in dispatch complete with status 5. -/
  | abortTokenComplete
  deriving DecidableEq, Repr

end Sys2Proof
end

