-- ==== Sys2Proof/WellFormed.lean ====
section
/-! DEFINITION. Which instructions have no reserved field value (R27, R31, R35, R39). -/

namespace Sys2Proof

/-- A semaphore field of a header: 0 to 15, or 31 for none (R34). -/
def semFieldOk (x : BitVec 5) : Bool := decide (x.toNat ≤ 15 ∨ x.toNat = 31)

/-- The header holds no reserved value (R34, R35). -/
def Hdr.wf (h : Hdr) : Bool := semFieldOk h.wt && semFieldOk h.sg && decide (h.sc.toNat ≤ 8)

/-- Width ratio of a conversion (R142). -/
def cvtRatio (f : BitVec 4) : Nat :=
  match f.toNat with
  | 1 => 2 | 2 => 2 | 3 => 2 | 4 => 2 | 5 => 4 | 6 => 4 | 7 => 2 | 8 => 2
  | 9 => 1 | 10 => 1 | 11 => 1 | 12 => 1 | 13 => 4 | 14 => 4 | 15 => 4 | _ => 0

/-- The scale bit is legal on this pair (R142). -/
def cvtScaled (f : BitVec 4) : Bool :=
  match f.toNat with
  | 5 => true | 6 => true | 7 => true | 8 => true | 13 => true | 14 => true | 15 => true | _ => false

/-- Pair, scale and part of a conversion (R142). -/
def cvtOk (f : BitVec 4) (s : Bool) (p : BitVec 3) : Bool :=
  decide (f.toNat ≠ 0) && decide (p.toNat < cvtRatio f) && (!s || cvtScaled f)

/-- The control-stream limit on token fields: the token bits of the instruction, 0 where it has none (R33). -/
def Instr.tok : Instr → BitVec 4
  | .vaddFloat _ _ _ _ _ k => k
  | .vsubFloat _ _ _ _ _ k => k
  | .vmulFloat _ _ _ _ _ k => k
  | .vdivFloat _ _ _ _ _ k => k
  | .vminFloat _ _ _ _ _ k => k
  | .vmaxFloat _ _ _ _ _ k => k
  | .vcpys _ _ _ _ _ k => k
  | .vfma _ _ _ _ _ k => k
  | .vfms _ _ _ _ _ k => k
  | .vfnma _ _ _ _ _ k => k
  | .vfnms _ _ _ _ _ k => k
  | .vabs _ _ _ _ k => k
  | .vneg _ _ _ _ k => k
  | .vsqrt _ _ _ _ k => k
  | .vrint _ _ _ _ k => k
  | .vrcpe _ _ _ _ k => k
  | .vrsqe _ _ _ _ k => k
  | .vex2e _ _ _ _ k => k
  | .vlg2e _ _ _ _ k => k
  | .vceqFloat _ _ _ _ k => k
  | .vcneFloat _ _ _ _ k => k
  | .vcltFloat _ _ _ _ k => k
  | .vcleFloat _ _ _ _ k => k
  | .vcun _ _ _ _ k => k
  | .vaddInt _ _ _ _ k => k
  | .vsubInt _ _ _ _ k => k
  | .vmulInt _ _ _ _ k => k
  | .vmulh _ _ _ _ k => k
  | .vadds _ _ _ _ k => k
  | .vsubs _ _ _ _ k => k
  | .vminInt _ _ _ _ k => k
  | .vmaxInt _ _ _ _ k => k
  | .vabsd _ _ _ _ k => k
  | .vdivInt _ _ _ _ k => k
  | .vrem _ _ _ _ k => k
  | .vceqInt _ _ _ k => k
  | .vcneInt _ _ _ k => k
  | .vcltInt _ _ _ k => k
  | .vcleInt _ _ _ k => k
  | .vand _ _ _ _ k => k
  | .vor _ _ _ _ k => k
  | .vxor _ _ _ _ k => k
  | .vandn _ _ _ _ k => k
  | .vnot _ _ _ k => k
  | .vsll _ _ _ _ k => k
  | .vsrl _ _ _ _ k => k
  | .vsra _ _ _ _ k => k
  | .vaddiI32 _ _ _ k => k
  | .vaddiI16 _ _ _ k => k
  | .vaddiI8 _ _ _ k => k
  | .vslli32 _ _ _ k => k
  | .vsrli32 _ _ _ k => k
  | .vsrai32 _ _ _ k => k
  | .vslli16 _ _ _ k => k
  | .vsrli16 _ _ _ k => k
  | .vsrai16 _ _ _ k => k
  | .vmovi32 _ _ k => k
  | .vfmoviF32 _ _ k => k
  | .vsplat32 _ _ _ k => k
  | .vsldn32 _ _ _ k => k
  | .vslup32 _ _ _ k => k
  | .vcvt _ _ _ _ _ _ k => k
  | .vpacks _ _ _ _ k => k
  | .vpackt _ _ _ _ k => k
  | .vunpkl _ _ _ k => k
  | .vunpkh _ _ _ k => k
  | .vunsp _ _ k => k
  | .vperm _ _ _ _ k => k
  | .vperm2 _ _ _ _ k => k
  | .vbcq _ _ k => k
  | .vzipl _ _ _ _ k => k
  | .vziph _ _ _ _ k => k
  | .vuzpe _ _ _ _ k => k
  | .vuzpo _ _ _ _ k => k
  | .vrev _ _ _ k => k
  | .vsel _ _ _ _ k => k
  | .mpushr _ k => k
  | .msave _ k => k
  | .minv _ k => k
  | .mpop k => k
  | .mclr k => k
  | .vrsum _ _ _ k => k
  | .vrssq _ _ _ k => k
  | .vrdot _ _ _ _ k => k
  | .vrsuma _ _ _ _ k => k
  | .vscan _ _ _ k => k
  | .vscnx _ _ _ k => k
  | .vrmax _ _ _ k => k
  | .vrmin _ _ _ k => k
  | .vamax _ _ k => k
  | .vdscale k => k
  | .shrm _ k => k
  | .shft _ _ k => k
  | .shpop k => k
  | .mrd _ _ _ _ k => k
  | .mrdc _ _ _ _ k => k
  | .mrdr _ _ _ _ k => k
  | .qpopvX _ k => k
  | .qpushvX _ k => k
  | .sloopX _ _ _ k => k
  | .sendlX _ k => k
  | .sendlExitX _ k => k
  | .qdropX _ k => k
  | .tnopX k => k
  | .vld _ _ _ _ _ _ k => k
  | .vst _ _ _ _ _ k => k
  | .qpopa _ k => k
  | .qpusha _ k => k
  | .qpushvL _ k => k
  | .qpopvS _ k => k
  | .sloopLs _ _ _ _ k => k
  | .sendlLs _ k => k
  | .sendlExitLs _ k => k
  | .ccwaitLs _ _ k => k
  | .qdropLs _ k => k
  | .tnopLs k => k
  | .tmov _ _ _ _ _ _ _ k => k
  | .tgath _ _ _ _ _ _ _ k => k
  | .tscat _ _ _ _ _ _ _ k => k
  | .tfill _ _ _ _ _ _ _ k => k
  | .tmovf _ _ _ _ _ _ _ k => k
  | .aaddi _ _ _ k => k
  | .aaddv _ _ _ k => k
  | .aadd _ _ _ k => k
  | .asub _ _ _ k => k
  | .aslli _ _ _ k => k
  | .dtset k => k
  | .dpld _ _ _ k => k
  | .dgld _ _ _ k => k
  | .dgldc _ _ _ k => k
  | .tend k => k
  | .vldfe _ _ _ k => k
  | .vstef _ _ _ k => k
  | .barwait _ _ k => k
  | .semsig _ k => k
  | .semwait _ _ k => k
  | .acq _ k => k
  | .rel _ k => k
  | .vatom _ _ _ _ k => k
  | .vatomRel _ _ _ _ k => k
  | .brk k => k
  | .dfwd k => k
  | .drev k => k
  | _ => 0

/-- No field of the instruction holds a reserved value. -/
def Instr.wf : Instr → Bool
  | .loop l _ _ _ o =>
    decide (l.toNat ≤ 5) && decide (o.toNat ≠ 0)
  | .endl l =>
    decide (l.toNat ≤ 5)
  | .endlX l =>
    decide (l.toNat ≤ 5)
  | .hint h =>
    decide (2 ≤ h.toNat) && decide (h.toNat ≤ 9)
  | .qpush _ q =>
    decide (q.toNat ≤ 2)
  | .vaddFloat t _ _ _ r _ =>
    decide (t.toNat ≤ 2) && decide (r.toNat ≤ 5)
  | .vsubFloat t _ _ _ r _ =>
    decide (t.toNat ≤ 2) && decide (r.toNat ≤ 5)
  | .vmulFloat t _ _ _ r _ =>
    decide (t.toNat ≤ 2) && decide (r.toNat ≤ 5)
  | .vdivFloat t _ _ _ r _ =>
    decide (t.toNat ≤ 2) && decide (r.toNat ≤ 5)
  | .vminFloat t _ _ _ r _ =>
    decide (t.toNat ≤ 2) && decide (r.toNat ≤ 5)
  | .vmaxFloat t _ _ _ r _ =>
    decide (t.toNat ≤ 2) && decide (r.toNat ≤ 5)
  | .vcpys t _ _ _ r _ =>
    decide (t.toNat ≤ 2) && decide (r.toNat ≤ 5)
  | .vfma t _ _ _ r _ =>
    decide (t.toNat ≤ 2) && decide (r.toNat ≤ 5)
  | .vfms t _ _ _ r _ =>
    decide (t.toNat ≤ 2) && decide (r.toNat ≤ 5)
  | .vfnma t _ _ _ r _ =>
    decide (t.toNat ≤ 2) && decide (r.toNat ≤ 5)
  | .vfnms t _ _ _ r _ =>
    decide (t.toNat ≤ 2) && decide (r.toNat ≤ 5)
  | .vabs _ _ t r _ =>
    decide (t.toNat ≤ 2) && decide (r.toNat ≤ 5)
  | .vneg _ _ t r _ =>
    decide (t.toNat ≤ 2) && decide (r.toNat ≤ 5)
  | .vsqrt _ _ t r _ =>
    decide (t.toNat ≤ 2) && decide (r.toNat ≤ 5)
  | .vrint _ _ t r _ =>
    decide (t.toNat ≤ 2) && decide (r.toNat ≤ 5)
  | .vrcpe _ _ t r _ =>
    decide (t.toNat ≤ 2) && decide (r.toNat ≤ 5)
  | .vrsqe _ _ t r _ =>
    decide (t.toNat ≤ 2) && decide (r.toNat ≤ 5)
  | .vex2e _ _ t r _ =>
    decide (t.toNat ≤ 2) && decide (r.toNat ≤ 5)
  | .vlg2e _ _ t r _ =>
    decide (t.toNat ≤ 2) && decide (r.toNat ≤ 5)
  | .vceqFloat t _ _ r _ =>
    decide (t.toNat ≤ 2) && decide (r.toNat ≤ 5)
  | .vcneFloat t _ _ r _ =>
    decide (t.toNat ≤ 2) && decide (r.toNat ≤ 5)
  | .vcltFloat t _ _ r _ =>
    decide (t.toNat ≤ 2) && decide (r.toNat ≤ 5)
  | .vcleFloat t _ _ r _ =>
    decide (t.toNat ≤ 2) && decide (r.toNat ≤ 5)
  | .vcun t _ _ r _ =>
    decide (t.toNat ≤ 2) && decide (r.toNat ≤ 5)
  | .vcvt _ _ s p r f _ =>
    cvtOk f s p && decide (r.toNat ≤ 5)
  | .vpacks _ _ _ e _ =>
    decide (2 ≤ e.toNat)
  | .vpackt _ _ _ e _ =>
    decide (2 ≤ e.toNat)
  | .vunpkl _ _ e _ =>
    decide (e.toNat ≤ 5)
  | .vunpkh _ _ e _ =>
    decide (e.toNat ≤ 5)
  | .vunsp d _ _ =>
    decide (d.toNat % 2 = 0)
  | .vperm _ _ _ w _ =>
    decide (w.toNat ≤ 3)
  | .vperm2 _ _ _ w _ =>
    decide (w.toNat ≤ 3)
  | .vbcq _ w _ =>
    decide (w.toNat ≤ 3)
  | .vzipl _ _ _ w _ =>
    decide (w.toNat ≤ 3)
  | .vziph _ _ _ w _ =>
    decide (w.toNat ≤ 3)
  | .vuzpe _ _ _ w _ =>
    decide (w.toNat ≤ 3)
  | .vuzpo _ _ _ w _ =>
    decide (w.toNat ≤ 3)
  | .vrev _ _ w _ =>
    decide (w.toNat ≤ 3)
  | .vsel _ _ _ w _ =>
    decide (w.toNat ≤ 3)
  | .minv w _ =>
    decide (w.toNat ≤ 3)
  | .shrm i _ =>
    decide (1 ≤ i.toNat) && decide (i.toNat ≤ 5)
  | .shft l _ _ =>
    decide (l.toNat ≤ 5 ∨ l.toNat = 31)
  | .mrd _ l _ _ _ =>
    decide (l.toNat ≤ 5 ∨ l.toNat = 31)
  | .mrdc _ l _ _ _ =>
    decide (l.toNat ≤ 5 ∨ l.toNat = 31)
  | .mrdr v l _ _ _ =>
    decide (l.toNat ≤ 5 ∨ l.toNat = 31) && decide (v.toNat % 2 = 0)
  | .sloopX _ o l _ =>
    decide (l.toNat ≤ 5) && decide (o.toNat ≠ 0)
  | .sendlX l _ =>
    decide (l.toNat ≤ 5)
  | .sendlExitX l _ =>
    decide (l.toNat ≤ 5)
  | .vld v a _ _ m _ _ =>
    decide (a.toNat ≤ 15) && decide (m.toNat ≠ 3) && decide (m.toNat = 1 → a.toNat ≠ 15) && decide (m.toNat = 2 → v.toNat % 2 = 0)
  | .vst v a _ m _ _ =>
    decide (a.toNat ≤ 15) && decide (m.toNat ≠ 3) && decide (m.toNat = 1 → a.toNat ≠ 15) && decide (m.toNat = 2 → v.toNat % 2 = 0)
  | .qpopa d _ =>
    decide (d.toNat ≤ 15)
  | .qpusha a _ =>
    decide (a.toNat ≤ 15)
  | .sloopLs l _ _ o _ =>
    decide (l.toNat ≤ 5) && decide (o.toNat ≠ 0)
  | .sendlLs l _ =>
    decide (l.toNat ≤ 5)
  | .sendlExitLs l _ =>
    decide (l.toNat ≤ 5)
  | .ccwaitLs c n _ =>
    decide (c.toNat ≤ 7) && decide (n.toNat ≤ 63)
  | .qdropLs n _ =>
    decide (1 ≤ n.toNat) && decide (n.toNat ≤ 16)
  | .tmov _ t _ q _ _ s _ =>
    decide (t.toNat ≤ 15) && decide (q.toNat ≠ 3) && decide (s.toNat ≤ 8)
  | .tgath _ t _ q _ _ s _ =>
    decide (t.toNat ≤ 15) && decide (q.toNat ≠ 3) && decide (s.toNat ≤ 8)
  | .tscat _ t _ q _ _ s _ =>
    decide (t.toNat ≤ 15) && decide (q.toNat ≠ 3) && decide (s.toNat ≤ 8)
  | .tfill _ t _ q _ _ s _ =>
    decide (t.toNat ≤ 15) && decide (q.toNat ≠ 3) && decide (s.toNat ≤ 8)
  | .tmovf _ t _ q _ _ s _ =>
    decide (t.toNat ≤ 15) && decide (q.toNat ≠ 3) && decide (s.toNat ≤ 8)
  | .aaddi d a _ _ =>
    decide (d.toNat ≤ 15) && decide (a.toNat ≤ 15)
  | .aaddv d a _ _ =>
    decide (d.toNat ≤ 15) && decide (a.toNat ≤ 15)
  | .aadd d a _ _ =>
    decide (d.toNat ≤ 15) && decide (a.toNat ≤ 15)
  | .asub d a _ _ =>
    decide (d.toNat ≤ 15) && decide (a.toNat ≤ 15)
  | .aslli d a _ _ =>
    decide (d.toNat ≤ 15) && decide (a.toNat ≤ 15)
  | .dpld _ a _ _ =>
    decide (a.toNat ≤ 15)
  | .dgld _ a _ _ =>
    decide (a.toNat ≤ 15)
  | .dgldc _ a _ _ =>
    decide (a.toNat ≤ 15)
  | .mzero h tm anc as fx lv =>
    h.wf && decide (tm.toNat ≠ 0) && decide (as = false → fx.toNat = 0 ∧ lv.toNat = 0) && decide (as = true → anc.toNat = 0) && decide (lv.toNat ≠ 6)
  | .mma h _ fx lv snp _ _ _ _ _ sn _ _ _ _ =>
    h.wf && decide (snp = true → fx.toNat = 0 ∧ lv.toNat = 0) && decide (snp = false → sn.toNat = 0) && decide (lv.toNat ≠ 6)
  | .mbias h _ fx lv snp sn _ _ =>
    h.wf && decide (snp = true → fx.toNat = 0 ∧ lv.toNat = 0) && decide (snp = false → sn.toNat = 0) && decide (lv.toNat ≠ 6)
  | .maddt h td ts _ =>
    h.wf && decide (td ≠ ts)
  | .mout h _ fx lv snp cap _ _ row0 nr sn _ _ =>
    h.wf && decide (row0.toNat + nr.toNat ≤ 63) && decide (snp = true ∧ cap = false → fx.toNat = 0 ∧ lv.toNat = 0) && decide (snp = false → sn.toNat = 0) && decide (lv.toNat ≠ 6)
  | .moutr h _ _ _ row0 nr _ _ =>
    h.wf && decide (row0.toNat + nr.toNat ≤ 63)
  | .mldr h _ _ row0 nr _ _ =>
    h.wf && decide (row0.toNat + nr.toNat ≤ 63)
  | .mnop h =>
    h.wf
  | .msnap h _ lv _ =>
    h.wf && decide (lv.toNat ≠ 6)
  | .tcmov h tq _ =>
    h.wf && decide (tq.toNat ≠ 3)
  | .tcgath h _ =>
    h.wf
  | .tcscat h _ =>
    h.wf
  | .tcfill h _ =>
    h.wf
  | .tcmovf h _ =>
    h.wf
  | .car h _ op _ lv _ _ _ =>
    h.wf && decide (op.toNat ≤ 2) && decide (lv.toNat ≠ 6)
  | .crs h _ op _ lv _ _ _ =>
    h.wf && decide (op.toNat ≤ 2) && decide (lv.toNat ≠ 6)
  | .cag h _ _ _ _ =>
    h.wf
  | .cbc h _ _ _ _ _ =>
    h.wf
  | .cred h _ op _ lv _ _ _ _ =>
    h.wf && decide (op.toNat ≤ 2) && decide (lv.toNat ≠ 6)
  | .ca2a h _ _ _ _ =>
    h.wf
  | .cbar h _ =>
    h.wf
  | .rinv h _ _ =>
    h.wf
  | .rinvx h _ =>
    h.wf
  | .rinva h =>
    h.wf
  | .rsplit h _ _ _ =>
    h.wf
  | .rmerge h _ _ =>
    h.wf
  | .rpress h _ _ =>
    h.wf
  | .rres h _ _ _ =>
    h.wf
  | .rgena h _ =>
    h.wf
  | .vldfe _ a _ _ =>
    decide (a.toNat ≤ 15)
  | .vstef _ a _ _ =>
    decide (a.toNat ≤ 15)
  | .bararr b _ =>
    decide (b.toNat ≤ 3)
  | .barpost b _ _ =>
    decide (b.toNat ≤ 3)
  | .barsync b _ =>
    decide (b.toNat ≤ 3)
  | .barwait b _ _ =>
    decide (b.toNat ≤ 3)
  | .semsig s _ =>
    decide (s.toNat ≤ 15)
  | .semwait s _ _ =>
    decide (s.toNat ≤ 15)
  | .lds _ _ c =>
    decide (c.toNat ≤ 8)
  | .ldsAcq _ _ c =>
    decide (c.toNat ≤ 8)
  | .sts _ _ c =>
    decide (c.toNat ≤ 8)
  | .stsRel _ _ c =>
    decide (c.toNat ≤ 8)
  | .acq c _ =>
    decide (c.toNat ≤ 8)
  | .rel c _ =>
    decide (c.toNat ≤ 8)
  | .mark m =>
    decide (m.toNat ≠ 0)
  | .join l c =>
    decide (l.toNat ≤ 15) && decide (c.toNat ≤ 8)
  | .fence l c =>
    decide (l.toNat ≤ 15) && decide (c.toNat ≤ 8)
  | .atom _ _ _ c =>
    decide (c.toNat ≤ 8)
  | .atomRel _ _ _ c =>
    decide (c.toNat ≤ 8)
  | .vatom _ a _ c _ =>
    decide (a.toNat ≤ 15) && decide (c.toNat ≤ 8)
  | .vatomRel _ a _ c _ =>
    decide (a.toNat ≤ 15) && decide (c.toNat ≤ 8)
  | .cldecl d _ c =>
    decide (d.toNat % 2 = 0) && decide (1 ≤ c.toNat) && decide (c.toNat ≤ 7)
  | .oatom d _ o _ =>
    decide (d.toNat % 2 = 0) && decide (o.toNat ≤ 8)
  | _ => true

/-- Well-formed when issued by stream `st`: in the control stream the token bits are reserved (R33). -/
def Instr.wfIn (st : Stream) (i : Instr) : Bool := i.wf && (decide (st ≠ .c) || decide (i.tok = 0))

end Sys2Proof
end

