-- ==== Sys2Proof/Decode.lean ====
section
/-! DEFINITION. Decoding of instruction words, stream by stream, in the order of tests of R39 and R40; the Treadle's
words (R324); and the encoder written from the same layouts. The section is noncomputable because the run-time system
has no tags for the later of the 376 constructors; the kernel evaluates every definition here. -/

namespace Sys2Proof

noncomputable section

/-- Why a word is not an instruction of the stream that would issue it (R39). -/
inductive Reject where
  /-- cause 0x01 -/
  | illegal
  /-- cause 0x02 -/
  | wrongStream
  deriving DecidableEq, Repr

/-- Zero-extended field placed at bit `lo`. -/
def putField {n : Nat} (x : BitVec n) (lo : Nat) : W32 := x.setWidth 32 <<< lo

/-- One bit placed at `lo`. -/
def putBit (b : Bool) (lo : Nat) : W32 := (BitVec.ofBool b).setWidth 32 <<< lo

/-- What a row builds: a one-word instruction, or an engine command from its header and step words. -/
inductive RowBuild where
  | word (build : W32 → Instr)
  | command (steps : Nat) (monitorOnly : Bool) (build : Hdr → List W32 → Option Instr)

/-- One row of the opcode map: `sel` covers the major and the minor, `mask` every fixed bit. -/
structure Row where
  sel : W32
  mask : W32
  val : W32
  streams : List Stream
  build : RowBuild

/-- Header fields of format E (R34). -/
def hdrOf (w : W32) : Hdr :=
  { cc := w.extractLsb' 16 3, wt := w.extractLsb' 11 5, sg := w.extractLsb' 6 5,
    aq := w.getLsbD 5, rl := w.getLsbD 4, sc := w.extractLsb' 0 4 }

def rowAdd : Row :=
  { sel := 0xFC0007E0#32, mask := 0xFC0007FF#32, val := 0x00000020#32, streams := [.c],
    build := .word fun w => .add (w.extractLsb' 21 5) (w.extractLsb' 16 5) (w.extractLsb' 11 5) }
def rowSub : Row :=
  { sel := 0xFC0007E0#32, mask := 0xFC0007FF#32, val := 0x00000040#32, streams := [.c],
    build := .word fun w => .sub (w.extractLsb' 21 5) (w.extractLsb' 16 5) (w.extractLsb' 11 5) }
def rowAnd : Row :=
  { sel := 0xFC0007E0#32, mask := 0xFC0007FF#32, val := 0x00000060#32, streams := [.c],
    build := .word fun w => .and (w.extractLsb' 21 5) (w.extractLsb' 16 5) (w.extractLsb' 11 5) }
def rowOr : Row :=
  { sel := 0xFC0007E0#32, mask := 0xFC0007FF#32, val := 0x00000080#32, streams := [.c],
    build := .word fun w => .or (w.extractLsb' 21 5) (w.extractLsb' 16 5) (w.extractLsb' 11 5) }
def rowXor : Row :=
  { sel := 0xFC0007E0#32, mask := 0xFC0007FF#32, val := 0x000000A0#32, streams := [.c],
    build := .word fun w => .xor (w.extractLsb' 21 5) (w.extractLsb' 16 5) (w.extractLsb' 11 5) }
def rowAndn : Row :=
  { sel := 0xFC0007E0#32, mask := 0xFC0007FF#32, val := 0x000000C0#32, streams := [.c],
    build := .word fun w => .andn (w.extractLsb' 21 5) (w.extractLsb' 16 5) (w.extractLsb' 11 5) }
def rowSll : Row :=
  { sel := 0xFC0007E0#32, mask := 0xFC0007FF#32, val := 0x000000E0#32, streams := [.c],
    build := .word fun w => .sll (w.extractLsb' 21 5) (w.extractLsb' 16 5) (w.extractLsb' 11 5) }
def rowSrl : Row :=
  { sel := 0xFC0007E0#32, mask := 0xFC0007FF#32, val := 0x00000100#32, streams := [.c],
    build := .word fun w => .srl (w.extractLsb' 21 5) (w.extractLsb' 16 5) (w.extractLsb' 11 5) }
def rowSra : Row :=
  { sel := 0xFC0007E0#32, mask := 0xFC0007FF#32, val := 0x00000120#32, streams := [.c],
    build := .word fun w => .sra (w.extractLsb' 21 5) (w.extractLsb' 16 5) (w.extractLsb' 11 5) }
def rowMin : Row :=
  { sel := 0xFC0007E0#32, mask := 0xFC0007FF#32, val := 0x00000140#32, streams := [.c],
    build := .word fun w => .min (w.extractLsb' 21 5) (w.extractLsb' 16 5) (w.extractLsb' 11 5) }
def rowMax : Row :=
  { sel := 0xFC0007E0#32, mask := 0xFC0007FF#32, val := 0x00000160#32, streams := [.c],
    build := .word fun w => .max (w.extractLsb' 21 5) (w.extractLsb' 16 5) (w.extractLsb' 11 5) }
def rowMinu : Row :=
  { sel := 0xFC0007E0#32, mask := 0xFC0007FF#32, val := 0x00000180#32, streams := [.c],
    build := .word fun w => .minu (w.extractLsb' 21 5) (w.extractLsb' 16 5) (w.extractLsb' 11 5) }
def rowMaxu : Row :=
  { sel := 0xFC0007E0#32, mask := 0xFC0007FF#32, val := 0x000001A0#32, streams := [.c],
    build := .word fun w => .maxu (w.extractLsb' 21 5) (w.extractLsb' 16 5) (w.extractLsb' 11 5) }
def rowClz : Row :=
  { sel := 0xFC0007E0#32, mask := 0xFC00FFFF#32, val := 0x000001C0#32, streams := [.c],
    build := .word fun w => .clz (w.extractLsb' 21 5) (w.extractLsb' 16 5) }
def rowCtz : Row :=
  { sel := 0xFC0007E0#32, mask := 0xFC00FFFF#32, val := 0x000001E0#32, streams := [.c],
    build := .word fun w => .ctz (w.extractLsb' 21 5) (w.extractLsb' 16 5) }
def rowPop : Row :=
  { sel := 0xFC0007E0#32, mask := 0xFC00FFFF#32, val := 0x00000200#32, streams := [.c],
    build := .word fun w => .pop (w.extractLsb' 21 5) (w.extractLsb' 16 5) }
/-- The rows of major 0x00. -/
def rowsMajor00 : List Row :=
  [rowAdd, rowSub, rowAnd, rowOr, rowXor, rowAndn, rowSll, rowSrl, rowSra, rowMin, rowMax, rowMinu, rowMaxu,
  rowClz, rowCtz, rowPop]

def rowMul : Row :=
  { sel := 0xFC0007E0#32, mask := 0xFC0007FF#32, val := 0x04000020#32, streams := [.c],
    build := .word fun w => .mul (w.extractLsb' 21 5) (w.extractLsb' 16 5) (w.extractLsb' 11 5) }
def rowMulh : Row :=
  { sel := 0xFC0007E0#32, mask := 0xFC0007FF#32, val := 0x04000040#32, streams := [.c],
    build := .word fun w => .mulh (w.extractLsb' 21 5) (w.extractLsb' 16 5) (w.extractLsb' 11 5) }
def rowMulhu : Row :=
  { sel := 0xFC0007E0#32, mask := 0xFC0007FF#32, val := 0x04000060#32, streams := [.c],
    build := .word fun w => .mulhu (w.extractLsb' 21 5) (w.extractLsb' 16 5) (w.extractLsb' 11 5) }
def rowDiv : Row :=
  { sel := 0xFC0007E0#32, mask := 0xFC0007FF#32, val := 0x04000080#32, streams := [.c],
    build := .word fun w => .div (w.extractLsb' 21 5) (w.extractLsb' 16 5) (w.extractLsb' 11 5) }
def rowDivu : Row :=
  { sel := 0xFC0007E0#32, mask := 0xFC0007FF#32, val := 0x040000A0#32, streams := [.c],
    build := .word fun w => .divu (w.extractLsb' 21 5) (w.extractLsb' 16 5) (w.extractLsb' 11 5) }
def rowRem : Row :=
  { sel := 0xFC0007E0#32, mask := 0xFC0007FF#32, val := 0x040000C0#32, streams := [.c],
    build := .word fun w => .rem (w.extractLsb' 21 5) (w.extractLsb' 16 5) (w.extractLsb' 11 5) }
def rowRemu : Row :=
  { sel := 0xFC0007E0#32, mask := 0xFC0007FF#32, val := 0x040000E0#32, streams := [.c],
    build := .word fun w => .remu (w.extractLsb' 21 5) (w.extractLsb' 16 5) (w.extractLsb' 11 5) }
/-- The rows of major 0x01. -/
def rowsMajor01 : List Row :=
  [rowMul, rowMulh, rowMulhu, rowDiv, rowDivu, rowRem, rowRemu]

def rowSeq : Row :=
  { sel := 0xFC0007E0#32, mask := 0xFC0007FF#32, val := 0x08000020#32, streams := [.c],
    build := .word fun w => .seq (w.extractLsb' 21 5) (w.extractLsb' 16 5) (w.extractLsb' 11 5) }
def rowSne : Row :=
  { sel := 0xFC0007E0#32, mask := 0xFC0007FF#32, val := 0x08000040#32, streams := [.c],
    build := .word fun w => .sne (w.extractLsb' 21 5) (w.extractLsb' 16 5) (w.extractLsb' 11 5) }
def rowSlt : Row :=
  { sel := 0xFC0007E0#32, mask := 0xFC0007FF#32, val := 0x08000060#32, streams := [.c],
    build := .word fun w => .slt (w.extractLsb' 21 5) (w.extractLsb' 16 5) (w.extractLsb' 11 5) }
def rowSltu : Row :=
  { sel := 0xFC0007E0#32, mask := 0xFC0007FF#32, val := 0x08000080#32, streams := [.c],
    build := .word fun w => .sltu (w.extractLsb' 21 5) (w.extractLsb' 16 5) (w.extractLsb' 11 5) }
def rowSel : Row :=
  { sel := 0xFC0007E0#32, mask := 0xFC0007E0#32, val := 0x080000A0#32, streams := [.c],
    build := .word fun w => .sel (w.extractLsb' 21 5) (w.extractLsb' 16 5) (w.extractLsb' 11 5) (w.extractLsb' 0 5) }
/-- The rows of major 0x02. -/
def rowsMajor02 : List Row :=
  [rowSeq, rowSne, rowSlt, rowSltu, rowSel]

def rowAddi : Row :=
  { sel := 0xFC000000#32, mask := 0xFC000000#32, val := 0x0C000000#32, streams := [.c],
    build := .word fun w => .addi (w.extractLsb' 21 5) (w.extractLsb' 16 5) (w.extractLsb' 0 16) }
/-- The rows of major 0x03. -/
def rowsMajor03 : List Row :=
  [rowAddi]

def rowAndi : Row :=
  { sel := 0xFC000000#32, mask := 0xFC000000#32, val := 0x10000000#32, streams := [.c],
    build := .word fun w => .andi (w.extractLsb' 21 5) (w.extractLsb' 16 5) (w.extractLsb' 0 16) }
/-- The rows of major 0x04. -/
def rowsMajor04 : List Row :=
  [rowAndi]

def rowOri : Row :=
  { sel := 0xFC000000#32, mask := 0xFC000000#32, val := 0x14000000#32, streams := [.c],
    build := .word fun w => .ori (w.extractLsb' 21 5) (w.extractLsb' 16 5) (w.extractLsb' 0 16) }
/-- The rows of major 0x05. -/
def rowsMajor05 : List Row :=
  [rowOri]

def rowXori : Row :=
  { sel := 0xFC000000#32, mask := 0xFC000000#32, val := 0x18000000#32, streams := [.c],
    build := .word fun w => .xori (w.extractLsb' 21 5) (w.extractLsb' 16 5) (w.extractLsb' 0 16) }
/-- The rows of major 0x06. -/
def rowsMajor06 : List Row :=
  [rowXori]

def rowSlli : Row :=
  { sel := 0xFC00000F#32, mask := 0xFC0003FF#32, val := 0x1C000001#32, streams := [.c],
    build := .word fun w => .slli (w.extractLsb' 21 5) (w.extractLsb' 16 5) (w.extractLsb' 10 6) }
def rowSrli : Row :=
  { sel := 0xFC00000F#32, mask := 0xFC0003FF#32, val := 0x1C000002#32, streams := [.c],
    build := .word fun w => .srli (w.extractLsb' 21 5) (w.extractLsb' 16 5) (w.extractLsb' 10 6) }
def rowSrai : Row :=
  { sel := 0xFC00000F#32, mask := 0xFC0003FF#32, val := 0x1C000003#32, streams := [.c],
    build := .word fun w => .srai (w.extractLsb' 21 5) (w.extractLsb' 16 5) (w.extractLsb' 10 6) }
def rowExtu : Row :=
  { sel := 0xFC00000F#32, mask := 0xFC00000F#32, val := 0x1C000004#32, streams := [.c],
    build := .word fun w => .extu (w.extractLsb' 21 5) (w.extractLsb' 16 5) (w.extractLsb' 10 6) (w.extractLsb' 4 6) }
def rowExts : Row :=
  { sel := 0xFC00000F#32, mask := 0xFC00000F#32, val := 0x1C000005#32, streams := [.c],
    build := .word fun w => .exts (w.extractLsb' 21 5) (w.extractLsb' 16 5) (w.extractLsb' 10 6) (w.extractLsb' 4 6) }
def rowIns : Row :=
  { sel := 0xFC00000F#32, mask := 0xFC00000F#32, val := 0x1C000006#32, streams := [.c],
    build := .word fun w => .ins (w.extractLsb' 21 5) (w.extractLsb' 16 5) (w.extractLsb' 10 6) (w.extractLsb' 4 6) }
/-- The rows of major 0x07. -/
def rowsMajor07 : List Row :=
  [rowSlli, rowSrli, rowSrai, rowExtu, rowExts, rowIns]

def rowMovz : Row :=
  { sel := 0xFC040000#32, mask := 0xFC070000#32, val := 0x20000000#32, streams := [.c],
    build := .word fun w => .movz (w.extractLsb' 21 5) (w.extractLsb' 19 2) (w.extractLsb' 0 16) }
def rowMovk : Row :=
  { sel := 0xFC040000#32, mask := 0xFC070000#32, val := 0x20040000#32, streams := [.c],
    build := .word fun w => .movk (w.extractLsb' 21 5) (w.extractLsb' 19 2) (w.extractLsb' 0 16) }
/-- The rows of major 0x08. -/
def rowsMajor08 : List Row :=
  [rowMovz, rowMovk]

def rowLdb : Row :=
  { sel := 0xFC00E000#32, mask := 0xFC00E000#32, val := 0x24000000#32, streams := [.c],
    build := .word fun w => .ldb (w.extractLsb' 21 5) (w.extractLsb' 16 5) (w.extractLsb' 0 13) }
def rowLdh : Row :=
  { sel := 0xFC00E000#32, mask := 0xFC00E000#32, val := 0x24004000#32, streams := [.c],
    build := .word fun w => .ldh (w.extractLsb' 21 5) (w.extractLsb' 16 5) (w.extractLsb' 0 13) }
def rowLdw : Row :=
  { sel := 0xFC00E000#32, mask := 0xFC00E000#32, val := 0x24008000#32, streams := [.c],
    build := .word fun w => .ldw (w.extractLsb' 21 5) (w.extractLsb' 16 5) (w.extractLsb' 0 13) }
def rowLdd : Row :=
  { sel := 0xFC00C000#32, mask := 0xFC00C000#32, val := 0x2400C000#32, streams := [.c],
    build := .word fun w => .ldd (w.extractLsb' 21 5) (w.extractLsb' 16 5) (w.extractLsb' 0 13) (w.getLsbD 13) }
def rowLdbs : Row :=
  { sel := 0xFC00E000#32, mask := 0xFC00E000#32, val := 0x24002000#32, streams := [.c],
    build := .word fun w => .ldbs (w.extractLsb' 21 5) (w.extractLsb' 16 5) (w.extractLsb' 0 13) }
def rowLdhs : Row :=
  { sel := 0xFC00E000#32, mask := 0xFC00E000#32, val := 0x24006000#32, streams := [.c],
    build := .word fun w => .ldhs (w.extractLsb' 21 5) (w.extractLsb' 16 5) (w.extractLsb' 0 13) }
def rowLdws : Row :=
  { sel := 0xFC00E000#32, mask := 0xFC00E000#32, val := 0x2400A000#32, streams := [.c],
    build := .word fun w => .ldws (w.extractLsb' 21 5) (w.extractLsb' 16 5) (w.extractLsb' 0 13) }
/-- The rows of major 0x09. -/
def rowsMajor09 : List Row :=
  [rowLdb, rowLdh, rowLdw, rowLdd, rowLdbs, rowLdhs, rowLdws]

def rowStb : Row :=
  { sel := 0xFC00C000#32, mask := 0xFC00E000#32, val := 0x28000000#32, streams := [.c],
    build := .word fun w => .stb (w.extractLsb' 21 5) (w.extractLsb' 16 5) (w.extractLsb' 0 13) }
def rowSth : Row :=
  { sel := 0xFC00C000#32, mask := 0xFC00E000#32, val := 0x28004000#32, streams := [.c],
    build := .word fun w => .sth (w.extractLsb' 21 5) (w.extractLsb' 16 5) (w.extractLsb' 0 13) }
def rowStw : Row :=
  { sel := 0xFC00C000#32, mask := 0xFC00E000#32, val := 0x28008000#32, streams := [.c],
    build := .word fun w => .stw (w.extractLsb' 21 5) (w.extractLsb' 16 5) (w.extractLsb' 0 13) }
def rowStd : Row :=
  { sel := 0xFC00C000#32, mask := 0xFC00E000#32, val := 0x2800C000#32, streams := [.c],
    build := .word fun w => .std (w.extractLsb' 21 5) (w.extractLsb' 16 5) (w.extractLsb' 0 13) }
/-- The rows of major 0x0A. -/
def rowsMajor0A : List Row :=
  [rowStb, rowSth, rowStw, rowStd]

def rowBeq : Row :=
  { sel := 0xFC00E000#32, mask := 0xFC00E000#32, val := 0x2C000000#32, streams := [.c],
    build := .word fun w => .beq (w.extractLsb' 21 5) (w.extractLsb' 16 5) (w.extractLsb' 0 13) }
def rowBne : Row :=
  { sel := 0xFC00E000#32, mask := 0xFC00E000#32, val := 0x2C002000#32, streams := [.c],
    build := .word fun w => .bne (w.extractLsb' 21 5) (w.extractLsb' 16 5) (w.extractLsb' 0 13) }
def rowBlt : Row :=
  { sel := 0xFC00E000#32, mask := 0xFC00E000#32, val := 0x2C004000#32, streams := [.c],
    build := .word fun w => .blt (w.extractLsb' 21 5) (w.extractLsb' 16 5) (w.extractLsb' 0 13) }
def rowBge : Row :=
  { sel := 0xFC00E000#32, mask := 0xFC00E000#32, val := 0x2C006000#32, streams := [.c],
    build := .word fun w => .bge (w.extractLsb' 21 5) (w.extractLsb' 16 5) (w.extractLsb' 0 13) }
def rowBltu : Row :=
  { sel := 0xFC00E000#32, mask := 0xFC00E000#32, val := 0x2C008000#32, streams := [.c],
    build := .word fun w => .bltu (w.extractLsb' 21 5) (w.extractLsb' 16 5) (w.extractLsb' 0 13) }
def rowBgeu : Row :=
  { sel := 0xFC00E000#32, mask := 0xFC00E000#32, val := 0x2C00A000#32, streams := [.c],
    build := .word fun w => .bgeu (w.extractLsb' 21 5) (w.extractLsb' 16 5) (w.extractLsb' 0 13) }
/-- The rows of major 0x0B. -/
def rowsMajor0B : List Row :=
  [rowBeq, rowBne, rowBlt, rowBge, rowBltu, rowBgeu]

def rowJmp : Row :=
  { sel := 0xFC000000#32, mask := 0xFC000000#32, val := 0x30000000#32, streams := [.c],
    build := .word fun w => .jmp (w.extractLsb' 0 26) }
/-- The rows of major 0x0C. -/
def rowsMajor0C : List Row :=
  [rowJmp]

def rowCall : Row :=
  { sel := 0xFC000000#32, mask := 0xFC000000#32, val := 0x34000000#32, streams := [.c],
    build := .word fun w => .call (w.extractLsb' 0 26) }
/-- The rows of major 0x0D. -/
def rowsMajor0D : List Row :=
  [rowCall]

def rowJr : Row :=
  { sel := 0xFC0007E0#32, mask := 0xFFE0FFFF#32, val := 0x38000020#32, streams := [.c],
    build := .word fun w => .jr (w.extractLsb' 16 5) }
def rowCallr : Row :=
  { sel := 0xFC0007E0#32, mask := 0xFFE0FFFF#32, val := 0x38000040#32, streams := [.c],
    build := .word fun w => .callr (w.extractLsb' 16 5) }
def rowRet : Row :=
  { sel := 0xFC0007E0#32, mask := 0xFFFFFFFF#32, val := 0x38000060#32, streams := [.c],
    build := .word fun _ => .ret }
/-- The rows of major 0x0E. -/
def rowsMajor0E : List Row :=
  [rowJr, rowCallr, rowRet]

def rowLoop : Row :=
  { sel := 0xFC000000#32, mask := 0xFC600000#32, val := 0x3C000000#32, streams := [.c],
    build := .word fun w => .loop (w.extractLsb' 23 3) (w.getLsbD 20) (w.getLsbD 19) (w.extractLsb' 14 5) (w.extractLsb' 0 14) }
/-- The rows of major 0x0F. -/
def rowsMajor0F : List Row :=
  [rowLoop]

def rowEndl : Row :=
  { sel := 0xFC080000#32, mask := 0xFC7FFFFF#32, val := 0x40000000#32, streams := [.c],
    build := .word fun w => .endl (w.extractLsb' 23 3) }
def rowEndlX : Row :=
  { sel := 0xFC080000#32, mask := 0xFC7FFFFF#32, val := 0x40080000#32, streams := [.c],
    build := .word fun w => .endlX (w.extractLsb' 23 3) }
/-- The rows of major 0x10. -/
def rowsMajor10 : List Row :=
  [rowEndl, rowEndlX]

def rowMfsr : Row :=
  { sel := 0xFC00C000#32, mask := 0xFC1FFF00#32, val := 0x44000000#32, streams := [.c],
    build := .word fun w => .mfsr (w.extractLsb' 21 5) (w.extractLsb' 0 8) }
def rowMtsr : Row :=
  { sel := 0xFC00C000#32, mask := 0xFFE0FF00#32, val := 0x44004000#32, streams := [.c],
    build := .word fun w => .mtsr (w.extractLsb' 16 5) (w.extractLsb' 0 8) }
def rowMxsr : Row :=
  { sel := 0xFC00C000#32, mask := 0xFC00FF00#32, val := 0x44008000#32, streams := [.c],
    build := .word fun w => .mxsr (w.extractLsb' 21 5) (w.extractLsb' 16 5) (w.extractLsb' 0 8) }
/-- The rows of major 0x11. -/
def rowsMajor11 : List Row :=
  [rowMfsr, rowMtsr, rowMxsr]

def rowNop : Row :=
  { sel := 0xFC0007E0#32, mask := 0xFFFFFFFF#32, val := 0x48000020#32, streams := [.c],
    build := .word fun _ => .nop }
def rowHint : Row :=
  { sel := 0xFC000000#32, mask := 0xFFFFF81F#32, val := 0x48000000#32, streams := [.c],
    build := .word fun w => .hint (w.extractLsb' 5 6) }
/-- The rows of major 0x12. -/
def rowsMajor12 : List Row :=
  [rowNop, rowHint]

def rowQpush : Row :=
  { sel := 0xFC0007E0#32, mask := 0xFFE0FFE0#32, val := 0x4C000020#32, streams := [.c],
    build := .word fun w => .qpush (w.extractLsb' 16 5) (w.extractLsb' 0 5) }
def rowQpop : Row :=
  { sel := 0xFC0007E0#32, mask := 0xFC1FFFFF#32, val := 0x4C000040#32, streams := [.c],
    build := .word fun w => .qpop (w.extractLsb' 21 5) }
def rowCcwait : Row :=
  { sel := 0xFC0007E0#32, mask := 0xFFE0FFF8#32, val := 0x4C000060#32, streams := [.c],
    build := .word fun w => .ccwait (w.extractLsb' 16 5) (w.extractLsb' 0 3) }
/-- The rows of major 0x13. -/
def rowsMajor13 : List Row :=
  [rowQpush, rowQpop, rowCcwait]

def rowAdda : Row :=
  { sel := 0xFC000000#32, mask := 0xFC000000#32, val := 0x50000000#32, streams := [.c],
    build := .word fun w => .adda (w.extractLsb' 21 5) (w.extractLsb' 16 5) (w.extractLsb' 0 16) }
/-- The rows of major 0x14. -/
def rowsMajor14 : List Row :=
  [rowAdda]

def rowVaddFloat18 : Row :=
  { sel := 0xFC0000F0#32, mask := 0xFC0000F0#32, val := 0x60000010#32, streams := [.x],
    build := .word fun w => .vaddFloat (w.extractLsb' 27 2) (w.extractLsb' 21 5) (w.extractLsb' 16 5) (w.extractLsb' 11 5) (w.extractLsb' 8 3) (w.extractLsb' 0 4) }
def rowVsubFloat18 : Row :=
  { sel := 0xFC0000F0#32, mask := 0xFC0000F0#32, val := 0x60000020#32, streams := [.x],
    build := .word fun w => .vsubFloat (w.extractLsb' 27 2) (w.extractLsb' 21 5) (w.extractLsb' 16 5) (w.extractLsb' 11 5) (w.extractLsb' 8 3) (w.extractLsb' 0 4) }
def rowVmulFloat18 : Row :=
  { sel := 0xFC0000F0#32, mask := 0xFC0000F0#32, val := 0x60000030#32, streams := [.x],
    build := .word fun w => .vmulFloat (w.extractLsb' 27 2) (w.extractLsb' 21 5) (w.extractLsb' 16 5) (w.extractLsb' 11 5) (w.extractLsb' 8 3) (w.extractLsb' 0 4) }
def rowVdivFloat18 : Row :=
  { sel := 0xFC0000F0#32, mask := 0xFC0000F0#32, val := 0x60000040#32, streams := [.x],
    build := .word fun w => .vdivFloat (w.extractLsb' 27 2) (w.extractLsb' 21 5) (w.extractLsb' 16 5) (w.extractLsb' 11 5) (w.extractLsb' 8 3) (w.extractLsb' 0 4) }
def rowVminFloat18 : Row :=
  { sel := 0xFC0000F0#32, mask := 0xFC0000F0#32, val := 0x60000050#32, streams := [.x],
    build := .word fun w => .vminFloat (w.extractLsb' 27 2) (w.extractLsb' 21 5) (w.extractLsb' 16 5) (w.extractLsb' 11 5) (w.extractLsb' 8 3) (w.extractLsb' 0 4) }
def rowVmaxFloat18 : Row :=
  { sel := 0xFC0000F0#32, mask := 0xFC0000F0#32, val := 0x60000060#32, streams := [.x],
    build := .word fun w => .vmaxFloat (w.extractLsb' 27 2) (w.extractLsb' 21 5) (w.extractLsb' 16 5) (w.extractLsb' 11 5) (w.extractLsb' 8 3) (w.extractLsb' 0 4) }
def rowVcpys18 : Row :=
  { sel := 0xFC0000F0#32, mask := 0xFC0000F0#32, val := 0x60000070#32, streams := [.x],
    build := .word fun w => .vcpys (w.extractLsb' 27 2) (w.extractLsb' 21 5) (w.extractLsb' 16 5) (w.extractLsb' 11 5) (w.extractLsb' 8 3) (w.extractLsb' 0 4) }
/-- The rows of major 0x18. -/
def rowsMajor18 : List Row :=
  [rowVaddFloat18, rowVsubFloat18, rowVmulFloat18, rowVdivFloat18, rowVminFloat18, rowVmaxFloat18, rowVcpys18]

def rowVfma19 : Row :=
  { sel := 0xFC0000F0#32, mask := 0xFC0000F0#32, val := 0x64000010#32, streams := [.x],
    build := .word fun w => .vfma (w.extractLsb' 27 2) (w.extractLsb' 21 5) (w.extractLsb' 16 5) (w.extractLsb' 11 5) (w.extractLsb' 8 3) (w.extractLsb' 0 4) }
def rowVfms19 : Row :=
  { sel := 0xFC0000F0#32, mask := 0xFC0000F0#32, val := 0x64000020#32, streams := [.x],
    build := .word fun w => .vfms (w.extractLsb' 27 2) (w.extractLsb' 21 5) (w.extractLsb' 16 5) (w.extractLsb' 11 5) (w.extractLsb' 8 3) (w.extractLsb' 0 4) }
def rowVfnma19 : Row :=
  { sel := 0xFC0000F0#32, mask := 0xFC0000F0#32, val := 0x64000030#32, streams := [.x],
    build := .word fun w => .vfnma (w.extractLsb' 27 2) (w.extractLsb' 21 5) (w.extractLsb' 16 5) (w.extractLsb' 11 5) (w.extractLsb' 8 3) (w.extractLsb' 0 4) }
def rowVfnms19 : Row :=
  { sel := 0xFC0000F0#32, mask := 0xFC0000F0#32, val := 0x64000040#32, streams := [.x],
    build := .word fun w => .vfnms (w.extractLsb' 27 2) (w.extractLsb' 21 5) (w.extractLsb' 16 5) (w.extractLsb' 11 5) (w.extractLsb' 8 3) (w.extractLsb' 0 4) }
/-- The rows of major 0x19. -/
def rowsMajor19 : List Row :=
  [rowVfma19, rowVfms19, rowVfnma19, rowVfnms19]

def rowVaddFloat1A : Row :=
  { sel := 0xFC0000F0#32, mask := 0xFC0000F0#32, val := 0x68000010#32, streams := [.x],
    build := .word fun w => .vaddFloat (w.extractLsb' 27 2) (w.extractLsb' 21 5) (w.extractLsb' 16 5) (w.extractLsb' 11 5) (w.extractLsb' 8 3) (w.extractLsb' 0 4) }
def rowVsubFloat1A : Row :=
  { sel := 0xFC0000F0#32, mask := 0xFC0000F0#32, val := 0x68000020#32, streams := [.x],
    build := .word fun w => .vsubFloat (w.extractLsb' 27 2) (w.extractLsb' 21 5) (w.extractLsb' 16 5) (w.extractLsb' 11 5) (w.extractLsb' 8 3) (w.extractLsb' 0 4) }
def rowVmulFloat1A : Row :=
  { sel := 0xFC0000F0#32, mask := 0xFC0000F0#32, val := 0x68000030#32, streams := [.x],
    build := .word fun w => .vmulFloat (w.extractLsb' 27 2) (w.extractLsb' 21 5) (w.extractLsb' 16 5) (w.extractLsb' 11 5) (w.extractLsb' 8 3) (w.extractLsb' 0 4) }
def rowVdivFloat1A : Row :=
  { sel := 0xFC0000F0#32, mask := 0xFC0000F0#32, val := 0x68000040#32, streams := [.x],
    build := .word fun w => .vdivFloat (w.extractLsb' 27 2) (w.extractLsb' 21 5) (w.extractLsb' 16 5) (w.extractLsb' 11 5) (w.extractLsb' 8 3) (w.extractLsb' 0 4) }
def rowVminFloat1A : Row :=
  { sel := 0xFC0000F0#32, mask := 0xFC0000F0#32, val := 0x68000050#32, streams := [.x],
    build := .word fun w => .vminFloat (w.extractLsb' 27 2) (w.extractLsb' 21 5) (w.extractLsb' 16 5) (w.extractLsb' 11 5) (w.extractLsb' 8 3) (w.extractLsb' 0 4) }
def rowVmaxFloat1A : Row :=
  { sel := 0xFC0000F0#32, mask := 0xFC0000F0#32, val := 0x68000060#32, streams := [.x],
    build := .word fun w => .vmaxFloat (w.extractLsb' 27 2) (w.extractLsb' 21 5) (w.extractLsb' 16 5) (w.extractLsb' 11 5) (w.extractLsb' 8 3) (w.extractLsb' 0 4) }
def rowVcpys1A : Row :=
  { sel := 0xFC0000F0#32, mask := 0xFC0000F0#32, val := 0x68000070#32, streams := [.x],
    build := .word fun w => .vcpys (w.extractLsb' 27 2) (w.extractLsb' 21 5) (w.extractLsb' 16 5) (w.extractLsb' 11 5) (w.extractLsb' 8 3) (w.extractLsb' 0 4) }
/-- The rows of major 0x1A. -/
def rowsMajor1A : List Row :=
  [rowVaddFloat1A, rowVsubFloat1A, rowVmulFloat1A, rowVdivFloat1A, rowVminFloat1A, rowVmaxFloat1A, rowVcpys1A]

def rowVfma1B : Row :=
  { sel := 0xFC0000F0#32, mask := 0xFC0000F0#32, val := 0x6C000010#32, streams := [.x],
    build := .word fun w => .vfma (w.extractLsb' 27 2) (w.extractLsb' 21 5) (w.extractLsb' 16 5) (w.extractLsb' 11 5) (w.extractLsb' 8 3) (w.extractLsb' 0 4) }
def rowVfms1B : Row :=
  { sel := 0xFC0000F0#32, mask := 0xFC0000F0#32, val := 0x6C000020#32, streams := [.x],
    build := .word fun w => .vfms (w.extractLsb' 27 2) (w.extractLsb' 21 5) (w.extractLsb' 16 5) (w.extractLsb' 11 5) (w.extractLsb' 8 3) (w.extractLsb' 0 4) }
def rowVfnma1B : Row :=
  { sel := 0xFC0000F0#32, mask := 0xFC0000F0#32, val := 0x6C000030#32, streams := [.x],
    build := .word fun w => .vfnma (w.extractLsb' 27 2) (w.extractLsb' 21 5) (w.extractLsb' 16 5) (w.extractLsb' 11 5) (w.extractLsb' 8 3) (w.extractLsb' 0 4) }
def rowVfnms1B : Row :=
  { sel := 0xFC0000F0#32, mask := 0xFC0000F0#32, val := 0x6C000040#32, streams := [.x],
    build := .word fun w => .vfnms (w.extractLsb' 27 2) (w.extractLsb' 21 5) (w.extractLsb' 16 5) (w.extractLsb' 11 5) (w.extractLsb' 8 3) (w.extractLsb' 0 4) }
/-- The rows of major 0x1B. -/
def rowsMajor1B : List Row :=
  [rowVfma1B, rowVfms1B, rowVfnma1B, rowVfnms1B]

def rowVaddFloat1C : Row :=
  { sel := 0xFC0000F0#32, mask := 0xFC0000F0#32, val := 0x70000010#32, streams := [.x],
    build := .word fun w => .vaddFloat (w.extractLsb' 27 2) (w.extractLsb' 21 5) (w.extractLsb' 16 5) (w.extractLsb' 11 5) (w.extractLsb' 8 3) (w.extractLsb' 0 4) }
def rowVsubFloat1C : Row :=
  { sel := 0xFC0000F0#32, mask := 0xFC0000F0#32, val := 0x70000020#32, streams := [.x],
    build := .word fun w => .vsubFloat (w.extractLsb' 27 2) (w.extractLsb' 21 5) (w.extractLsb' 16 5) (w.extractLsb' 11 5) (w.extractLsb' 8 3) (w.extractLsb' 0 4) }
def rowVmulFloat1C : Row :=
  { sel := 0xFC0000F0#32, mask := 0xFC0000F0#32, val := 0x70000030#32, streams := [.x],
    build := .word fun w => .vmulFloat (w.extractLsb' 27 2) (w.extractLsb' 21 5) (w.extractLsb' 16 5) (w.extractLsb' 11 5) (w.extractLsb' 8 3) (w.extractLsb' 0 4) }
def rowVdivFloat1C : Row :=
  { sel := 0xFC0000F0#32, mask := 0xFC0000F0#32, val := 0x70000040#32, streams := [.x],
    build := .word fun w => .vdivFloat (w.extractLsb' 27 2) (w.extractLsb' 21 5) (w.extractLsb' 16 5) (w.extractLsb' 11 5) (w.extractLsb' 8 3) (w.extractLsb' 0 4) }
def rowVminFloat1C : Row :=
  { sel := 0xFC0000F0#32, mask := 0xFC0000F0#32, val := 0x70000050#32, streams := [.x],
    build := .word fun w => .vminFloat (w.extractLsb' 27 2) (w.extractLsb' 21 5) (w.extractLsb' 16 5) (w.extractLsb' 11 5) (w.extractLsb' 8 3) (w.extractLsb' 0 4) }
def rowVmaxFloat1C : Row :=
  { sel := 0xFC0000F0#32, mask := 0xFC0000F0#32, val := 0x70000060#32, streams := [.x],
    build := .word fun w => .vmaxFloat (w.extractLsb' 27 2) (w.extractLsb' 21 5) (w.extractLsb' 16 5) (w.extractLsb' 11 5) (w.extractLsb' 8 3) (w.extractLsb' 0 4) }
def rowVcpys1C : Row :=
  { sel := 0xFC0000F0#32, mask := 0xFC0000F0#32, val := 0x70000070#32, streams := [.x],
    build := .word fun w => .vcpys (w.extractLsb' 27 2) (w.extractLsb' 21 5) (w.extractLsb' 16 5) (w.extractLsb' 11 5) (w.extractLsb' 8 3) (w.extractLsb' 0 4) }
/-- The rows of major 0x1C. -/
def rowsMajor1C : List Row :=
  [rowVaddFloat1C, rowVsubFloat1C, rowVmulFloat1C, rowVdivFloat1C, rowVminFloat1C, rowVmaxFloat1C, rowVcpys1C]

def rowVfma1D : Row :=
  { sel := 0xFC0000F0#32, mask := 0xFC0000F0#32, val := 0x74000010#32, streams := [.x],
    build := .word fun w => .vfma (w.extractLsb' 27 2) (w.extractLsb' 21 5) (w.extractLsb' 16 5) (w.extractLsb' 11 5) (w.extractLsb' 8 3) (w.extractLsb' 0 4) }
def rowVfms1D : Row :=
  { sel := 0xFC0000F0#32, mask := 0xFC0000F0#32, val := 0x74000020#32, streams := [.x],
    build := .word fun w => .vfms (w.extractLsb' 27 2) (w.extractLsb' 21 5) (w.extractLsb' 16 5) (w.extractLsb' 11 5) (w.extractLsb' 8 3) (w.extractLsb' 0 4) }
def rowVfnma1D : Row :=
  { sel := 0xFC0000F0#32, mask := 0xFC0000F0#32, val := 0x74000030#32, streams := [.x],
    build := .word fun w => .vfnma (w.extractLsb' 27 2) (w.extractLsb' 21 5) (w.extractLsb' 16 5) (w.extractLsb' 11 5) (w.extractLsb' 8 3) (w.extractLsb' 0 4) }
def rowVfnms1D : Row :=
  { sel := 0xFC0000F0#32, mask := 0xFC0000F0#32, val := 0x74000040#32, streams := [.x],
    build := .word fun w => .vfnms (w.extractLsb' 27 2) (w.extractLsb' 21 5) (w.extractLsb' 16 5) (w.extractLsb' 11 5) (w.extractLsb' 8 3) (w.extractLsb' 0 4) }
/-- The rows of major 0x1D. -/
def rowsMajor1D : List Row :=
  [rowVfma1D, rowVfms1D, rowVfnma1D, rowVfnms1D]

def rowVabs : Row :=
  { sel := 0xFC0000F0#32, mask := 0xFC0000F0#32, val := 0x78000010#32, streams := [.x],
    build := .word fun w => .vabs (w.extractLsb' 21 5) (w.extractLsb' 16 5) (w.extractLsb' 11 5) (w.extractLsb' 8 3) (w.extractLsb' 0 4) }
def rowVneg : Row :=
  { sel := 0xFC0000F0#32, mask := 0xFC0000F0#32, val := 0x78000020#32, streams := [.x],
    build := .word fun w => .vneg (w.extractLsb' 21 5) (w.extractLsb' 16 5) (w.extractLsb' 11 5) (w.extractLsb' 8 3) (w.extractLsb' 0 4) }
def rowVsqrt : Row :=
  { sel := 0xFC0000F0#32, mask := 0xFC0000F0#32, val := 0x78000030#32, streams := [.x],
    build := .word fun w => .vsqrt (w.extractLsb' 21 5) (w.extractLsb' 16 5) (w.extractLsb' 11 5) (w.extractLsb' 8 3) (w.extractLsb' 0 4) }
def rowVrint : Row :=
  { sel := 0xFC0000F0#32, mask := 0xFC0000F0#32, val := 0x78000040#32, streams := [.x],
    build := .word fun w => .vrint (w.extractLsb' 21 5) (w.extractLsb' 16 5) (w.extractLsb' 11 5) (w.extractLsb' 8 3) (w.extractLsb' 0 4) }
def rowVrcpe : Row :=
  { sel := 0xFC0000F0#32, mask := 0xFC0000F0#32, val := 0x78000050#32, streams := [.x],
    build := .word fun w => .vrcpe (w.extractLsb' 21 5) (w.extractLsb' 16 5) (w.extractLsb' 11 5) (w.extractLsb' 8 3) (w.extractLsb' 0 4) }
def rowVrsqe : Row :=
  { sel := 0xFC0000F0#32, mask := 0xFC0000F0#32, val := 0x78000060#32, streams := [.x],
    build := .word fun w => .vrsqe (w.extractLsb' 21 5) (w.extractLsb' 16 5) (w.extractLsb' 11 5) (w.extractLsb' 8 3) (w.extractLsb' 0 4) }
def rowVex2e : Row :=
  { sel := 0xFC0000F0#32, mask := 0xFC0000F0#32, val := 0x78000070#32, streams := [.x],
    build := .word fun w => .vex2e (w.extractLsb' 21 5) (w.extractLsb' 16 5) (w.extractLsb' 11 5) (w.extractLsb' 8 3) (w.extractLsb' 0 4) }
def rowVlg2e : Row :=
  { sel := 0xFC0000F0#32, mask := 0xFC0000F0#32, val := 0x78000080#32, streams := [.x],
    build := .word fun w => .vlg2e (w.extractLsb' 21 5) (w.extractLsb' 16 5) (w.extractLsb' 11 5) (w.extractLsb' 8 3) (w.extractLsb' 0 4) }
/-- The rows of major 0x1E. -/
def rowsMajor1E : List Row :=
  [rowVabs, rowVneg, rowVsqrt, rowVrint, rowVrcpe, rowVrsqe, rowVex2e, rowVlg2e]

def rowVceqFloat : Row :=
  { sel := 0xFC0000F0#32, mask := 0xFC0000F0#32, val := 0x7C000010#32, streams := [.x],
    build := .word fun w => .vceqFloat (w.extractLsb' 21 5) (w.extractLsb' 16 5) (w.extractLsb' 11 5) (w.extractLsb' 8 3) (w.extractLsb' 0 4) }
def rowVcneFloat : Row :=
  { sel := 0xFC0000F0#32, mask := 0xFC0000F0#32, val := 0x7C000020#32, streams := [.x],
    build := .word fun w => .vcneFloat (w.extractLsb' 21 5) (w.extractLsb' 16 5) (w.extractLsb' 11 5) (w.extractLsb' 8 3) (w.extractLsb' 0 4) }
def rowVcltFloat : Row :=
  { sel := 0xFC0000F0#32, mask := 0xFC0000F0#32, val := 0x7C000030#32, streams := [.x],
    build := .word fun w => .vcltFloat (w.extractLsb' 21 5) (w.extractLsb' 16 5) (w.extractLsb' 11 5) (w.extractLsb' 8 3) (w.extractLsb' 0 4) }
def rowVcleFloat : Row :=
  { sel := 0xFC0000F0#32, mask := 0xFC0000F0#32, val := 0x7C000040#32, streams := [.x],
    build := .word fun w => .vcleFloat (w.extractLsb' 21 5) (w.extractLsb' 16 5) (w.extractLsb' 11 5) (w.extractLsb' 8 3) (w.extractLsb' 0 4) }
def rowVcun : Row :=
  { sel := 0xFC0000F0#32, mask := 0xFC0000F0#32, val := 0x7C000050#32, streams := [.x],
    build := .word fun w => .vcun (w.extractLsb' 21 5) (w.extractLsb' 16 5) (w.extractLsb' 11 5) (w.extractLsb' 8 3) (w.extractLsb' 0 4) }
/-- The rows of major 0x1F. -/
def rowsMajor1F : List Row :=
  [rowVceqFloat, rowVcneFloat, rowVcltFloat, rowVcleFloat, rowVcun]

def rowVaddInt : Row :=
  { sel := 0xFC0000F0#32, mask := 0xFC0000F0#32, val := 0x80000010#32, streams := [.x],
    build := .word fun w => .vaddInt (w.extractLsb' 21 5) (w.extractLsb' 16 5) (w.extractLsb' 11 5) (w.extractLsb' 8 3) (w.extractLsb' 0 4) }
def rowVsubInt : Row :=
  { sel := 0xFC0000F0#32, mask := 0xFC0000F0#32, val := 0x80000020#32, streams := [.x],
    build := .word fun w => .vsubInt (w.extractLsb' 21 5) (w.extractLsb' 16 5) (w.extractLsb' 11 5) (w.extractLsb' 8 3) (w.extractLsb' 0 4) }
def rowVmulInt : Row :=
  { sel := 0xFC0000F0#32, mask := 0xFC0000F0#32, val := 0x80000030#32, streams := [.x],
    build := .word fun w => .vmulInt (w.extractLsb' 21 5) (w.extractLsb' 16 5) (w.extractLsb' 11 5) (w.extractLsb' 8 3) (w.extractLsb' 0 4) }
def rowVmulh : Row :=
  { sel := 0xFC0000F0#32, mask := 0xFC0000F0#32, val := 0x80000040#32, streams := [.x],
    build := .word fun w => .vmulh (w.extractLsb' 21 5) (w.extractLsb' 16 5) (w.extractLsb' 11 5) (w.extractLsb' 8 3) (w.extractLsb' 0 4) }
def rowVadds : Row :=
  { sel := 0xFC0000F0#32, mask := 0xFC0000F0#32, val := 0x80000050#32, streams := [.x],
    build := .word fun w => .vadds (w.extractLsb' 21 5) (w.extractLsb' 16 5) (w.extractLsb' 11 5) (w.extractLsb' 8 3) (w.extractLsb' 0 4) }
def rowVsubs : Row :=
  { sel := 0xFC0000F0#32, mask := 0xFC0000F0#32, val := 0x80000060#32, streams := [.x],
    build := .word fun w => .vsubs (w.extractLsb' 21 5) (w.extractLsb' 16 5) (w.extractLsb' 11 5) (w.extractLsb' 8 3) (w.extractLsb' 0 4) }
def rowVminInt : Row :=
  { sel := 0xFC0000F0#32, mask := 0xFC0000F0#32, val := 0x80000070#32, streams := [.x],
    build := .word fun w => .vminInt (w.extractLsb' 21 5) (w.extractLsb' 16 5) (w.extractLsb' 11 5) (w.extractLsb' 8 3) (w.extractLsb' 0 4) }
def rowVmaxInt : Row :=
  { sel := 0xFC0000F0#32, mask := 0xFC0000F0#32, val := 0x80000080#32, streams := [.x],
    build := .word fun w => .vmaxInt (w.extractLsb' 21 5) (w.extractLsb' 16 5) (w.extractLsb' 11 5) (w.extractLsb' 8 3) (w.extractLsb' 0 4) }
def rowVabsd : Row :=
  { sel := 0xFC0000F0#32, mask := 0xFC0000F0#32, val := 0x80000090#32, streams := [.x],
    build := .word fun w => .vabsd (w.extractLsb' 21 5) (w.extractLsb' 16 5) (w.extractLsb' 11 5) (w.extractLsb' 8 3) (w.extractLsb' 0 4) }
def rowVdivInt : Row :=
  { sel := 0xFC0000F0#32, mask := 0xFC0000F0#32, val := 0x800000A0#32, streams := [.x],
    build := .word fun w => .vdivInt (w.extractLsb' 21 5) (w.extractLsb' 16 5) (w.extractLsb' 11 5) (w.extractLsb' 8 3) (w.extractLsb' 0 4) }
def rowVrem : Row :=
  { sel := 0xFC0000F0#32, mask := 0xFC0000F0#32, val := 0x800000B0#32, streams := [.x],
    build := .word fun w => .vrem (w.extractLsb' 21 5) (w.extractLsb' 16 5) (w.extractLsb' 11 5) (w.extractLsb' 8 3) (w.extractLsb' 0 4) }
/-- The rows of major 0x20. -/
def rowsMajor20 : List Row :=
  [rowVaddInt, rowVsubInt, rowVmulInt, rowVmulh, rowVadds, rowVsubs, rowVminInt, rowVmaxInt, rowVabsd,
  rowVdivInt, rowVrem]

def rowVceqInt : Row :=
  { sel := 0xFC0000F0#32, mask := 0xFFE000F0#32, val := 0x84000010#32, streams := [.x],
    build := .word fun w => .vceqInt (w.extractLsb' 16 5) (w.extractLsb' 11 5) (w.extractLsb' 8 3) (w.extractLsb' 0 4) }
def rowVcneInt : Row :=
  { sel := 0xFC0000F0#32, mask := 0xFFE000F0#32, val := 0x84000020#32, streams := [.x],
    build := .word fun w => .vcneInt (w.extractLsb' 16 5) (w.extractLsb' 11 5) (w.extractLsb' 8 3) (w.extractLsb' 0 4) }
def rowVcltInt : Row :=
  { sel := 0xFC0000F0#32, mask := 0xFFE000F0#32, val := 0x84000030#32, streams := [.x],
    build := .word fun w => .vcltInt (w.extractLsb' 16 5) (w.extractLsb' 11 5) (w.extractLsb' 8 3) (w.extractLsb' 0 4) }
def rowVcleInt : Row :=
  { sel := 0xFC0000F0#32, mask := 0xFFE000F0#32, val := 0x84000040#32, streams := [.x],
    build := .word fun w => .vcleInt (w.extractLsb' 16 5) (w.extractLsb' 11 5) (w.extractLsb' 8 3) (w.extractLsb' 0 4) }
/-- The rows of major 0x21. -/
def rowsMajor21 : List Row :=
  [rowVceqInt, rowVcneInt, rowVcltInt, rowVcleInt]

def rowVand : Row :=
  { sel := 0xFC0000F0#32, mask := 0xFC0000F0#32, val := 0x88000010#32, streams := [.x],
    build := .word fun w => .vand (w.extractLsb' 21 5) (w.extractLsb' 16 5) (w.extractLsb' 11 5) (w.extractLsb' 8 3) (w.extractLsb' 0 4) }
def rowVor : Row :=
  { sel := 0xFC0000F0#32, mask := 0xFC0000F0#32, val := 0x88000020#32, streams := [.x],
    build := .word fun w => .vor (w.extractLsb' 21 5) (w.extractLsb' 16 5) (w.extractLsb' 11 5) (w.extractLsb' 8 3) (w.extractLsb' 0 4) }
def rowVxor : Row :=
  { sel := 0xFC0000F0#32, mask := 0xFC0000F0#32, val := 0x88000030#32, streams := [.x],
    build := .word fun w => .vxor (w.extractLsb' 21 5) (w.extractLsb' 16 5) (w.extractLsb' 11 5) (w.extractLsb' 8 3) (w.extractLsb' 0 4) }
def rowVandn : Row :=
  { sel := 0xFC0000F0#32, mask := 0xFC0000F0#32, val := 0x88000040#32, streams := [.x],
    build := .word fun w => .vandn (w.extractLsb' 21 5) (w.extractLsb' 16 5) (w.extractLsb' 11 5) (w.extractLsb' 8 3) (w.extractLsb' 0 4) }
def rowVnot : Row :=
  { sel := 0xFC0000F0#32, mask := 0xFC00F8F0#32, val := 0x88000050#32, streams := [.x],
    build := .word fun w => .vnot (w.extractLsb' 21 5) (w.extractLsb' 16 5) (w.extractLsb' 8 3) (w.extractLsb' 0 4) }
def rowVsll : Row :=
  { sel := 0xFC0000F0#32, mask := 0xFC0000F0#32, val := 0x88000060#32, streams := [.x],
    build := .word fun w => .vsll (w.extractLsb' 21 5) (w.extractLsb' 16 5) (w.extractLsb' 11 5) (w.extractLsb' 8 3) (w.extractLsb' 0 4) }
def rowVsrl : Row :=
  { sel := 0xFC0000F0#32, mask := 0xFC0000F0#32, val := 0x88000070#32, streams := [.x],
    build := .word fun w => .vsrl (w.extractLsb' 21 5) (w.extractLsb' 16 5) (w.extractLsb' 11 5) (w.extractLsb' 8 3) (w.extractLsb' 0 4) }
def rowVsra : Row :=
  { sel := 0xFC0000F0#32, mask := 0xFC0000F0#32, val := 0x88000080#32, streams := [.x],
    build := .word fun w => .vsra (w.extractLsb' 21 5) (w.extractLsb' 16 5) (w.extractLsb' 11 5) (w.extractLsb' 8 3) (w.extractLsb' 0 4) }
/-- The rows of major 0x22. -/
def rowsMajor22 : List Row :=
  [rowVand, rowVor, rowVxor, rowVandn, rowVnot, rowVsll, rowVsrl, rowVsra]

def rowVaddiI32 : Row :=
  { sel := 0xFC0000F0#32, mask := 0xFC0000F0#32, val := 0x8C000010#32, streams := [.x],
    build := .word fun w => .vaddiI32 (w.extractLsb' 21 5) (w.extractLsb' 16 5) (w.extractLsb' 8 8) (w.extractLsb' 0 4) }
def rowVaddiI16 : Row :=
  { sel := 0xFC0000F0#32, mask := 0xFC0000F0#32, val := 0x8C000020#32, streams := [.x],
    build := .word fun w => .vaddiI16 (w.extractLsb' 21 5) (w.extractLsb' 16 5) (w.extractLsb' 8 8) (w.extractLsb' 0 4) }
def rowVaddiI8 : Row :=
  { sel := 0xFC0000F0#32, mask := 0xFC0000F0#32, val := 0x8C000030#32, streams := [.x],
    build := .word fun w => .vaddiI8 (w.extractLsb' 21 5) (w.extractLsb' 16 5) (w.extractLsb' 8 8) (w.extractLsb' 0 4) }
def rowVslli32 : Row :=
  { sel := 0xFC0000F0#32, mask := 0xFC00E0F0#32, val := 0x8C000040#32, streams := [.x],
    build := .word fun w => .vslli32 (w.extractLsb' 21 5) (w.extractLsb' 16 5) (w.extractLsb' 8 5) (w.extractLsb' 0 4) }
def rowVsrli32 : Row :=
  { sel := 0xFC0000F0#32, mask := 0xFC00E0F0#32, val := 0x8C000050#32, streams := [.x],
    build := .word fun w => .vsrli32 (w.extractLsb' 21 5) (w.extractLsb' 16 5) (w.extractLsb' 8 5) (w.extractLsb' 0 4) }
def rowVsrai32 : Row :=
  { sel := 0xFC0000F0#32, mask := 0xFC00E0F0#32, val := 0x8C000060#32, streams := [.x],
    build := .word fun w => .vsrai32 (w.extractLsb' 21 5) (w.extractLsb' 16 5) (w.extractLsb' 8 5) (w.extractLsb' 0 4) }
def rowVslli16 : Row :=
  { sel := 0xFC0000F0#32, mask := 0xFC00F0F0#32, val := 0x8C000070#32, streams := [.x],
    build := .word fun w => .vslli16 (w.extractLsb' 21 5) (w.extractLsb' 16 5) (w.extractLsb' 8 4) (w.extractLsb' 0 4) }
def rowVsrli16 : Row :=
  { sel := 0xFC0000F0#32, mask := 0xFC00F0F0#32, val := 0x8C000080#32, streams := [.x],
    build := .word fun w => .vsrli16 (w.extractLsb' 21 5) (w.extractLsb' 16 5) (w.extractLsb' 8 4) (w.extractLsb' 0 4) }
def rowVsrai16 : Row :=
  { sel := 0xFC0000F0#32, mask := 0xFC00F0F0#32, val := 0x8C000090#32, streams := [.x],
    build := .word fun w => .vsrai16 (w.extractLsb' 21 5) (w.extractLsb' 16 5) (w.extractLsb' 8 4) (w.extractLsb' 0 4) }
def rowVmovi32 : Row :=
  { sel := 0xFC0000F0#32, mask := 0xFC1F00F0#32, val := 0x8C0000A0#32, streams := [.x],
    build := .word fun w => .vmovi32 (w.extractLsb' 21 5) (w.extractLsb' 8 8) (w.extractLsb' 0 4) }
def rowVfmoviF32 : Row :=
  { sel := 0xFC0000F0#32, mask := 0xFC1F00F0#32, val := 0x8C0000B0#32, streams := [.x],
    build := .word fun w => .vfmoviF32 (w.extractLsb' 21 5) (w.extractLsb' 8 8) (w.extractLsb' 0 4) }
def rowVsplat32 : Row :=
  { sel := 0xFC0000F0#32, mask := 0xFC0080F0#32, val := 0x8C0000C0#32, streams := [.x],
    build := .word fun w => .vsplat32 (w.extractLsb' 21 5) (w.extractLsb' 16 5) (w.extractLsb' 8 7) (w.extractLsb' 0 4) }
def rowVsldn32 : Row :=
  { sel := 0xFC0000F0#32, mask := 0xFC0080F0#32, val := 0x8C0000D0#32, streams := [.x],
    build := .word fun w => .vsldn32 (w.extractLsb' 21 5) (w.extractLsb' 16 5) (w.extractLsb' 8 7) (w.extractLsb' 0 4) }
def rowVslup32 : Row :=
  { sel := 0xFC0000F0#32, mask := 0xFC0080F0#32, val := 0x8C0000E0#32, streams := [.x],
    build := .word fun w => .vslup32 (w.extractLsb' 21 5) (w.extractLsb' 16 5) (w.extractLsb' 8 7) (w.extractLsb' 0 4) }
/-- The rows of major 0x23. -/
def rowsMajor23 : List Row :=
  [rowVaddiI32, rowVaddiI16, rowVaddiI8, rowVslli32, rowVsrli32, rowVsrai32, rowVslli16, rowVsrli16,
  rowVsrai16, rowVmovi32, rowVfmoviF32, rowVsplat32, rowVsldn32, rowVslup32]

def rowVcvt : Row :=
  { sel := 0xFC000000#32, mask := 0xFC004000#32, val := 0x90000000#32, streams := [.x],
    build := .word fun w => .vcvt (w.extractLsb' 21 5) (w.extractLsb' 16 5) (w.getLsbD 15) (w.extractLsb' 11 3) (w.extractLsb' 8 3) (w.extractLsb' 4 4) (w.extractLsb' 0 4) }
/-- The rows of major 0x24. -/
def rowsMajor24 : List Row :=
  [rowVcvt]

def rowVpacks : Row :=
  { sel := 0xFC0000F0#32, mask := 0xFC0000F0#32, val := 0x94000010#32, streams := [.x],
    build := .word fun w => .vpacks (w.extractLsb' 21 5) (w.extractLsb' 16 5) (w.extractLsb' 11 5) (w.extractLsb' 8 3) (w.extractLsb' 0 4) }
def rowVpackt : Row :=
  { sel := 0xFC0000F0#32, mask := 0xFC0000F0#32, val := 0x94000020#32, streams := [.x],
    build := .word fun w => .vpackt (w.extractLsb' 21 5) (w.extractLsb' 16 5) (w.extractLsb' 11 5) (w.extractLsb' 8 3) (w.extractLsb' 0 4) }
def rowVunpkl : Row :=
  { sel := 0xFC0000F0#32, mask := 0xFC00F8F0#32, val := 0x94000030#32, streams := [.x],
    build := .word fun w => .vunpkl (w.extractLsb' 21 5) (w.extractLsb' 16 5) (w.extractLsb' 8 3) (w.extractLsb' 0 4) }
def rowVunpkh : Row :=
  { sel := 0xFC0000F0#32, mask := 0xFC00F8F0#32, val := 0x94000040#32, streams := [.x],
    build := .word fun w => .vunpkh (w.extractLsb' 21 5) (w.extractLsb' 16 5) (w.extractLsb' 8 3) (w.extractLsb' 0 4) }
def rowVunsp : Row :=
  { sel := 0xFC0000F0#32, mask := 0xFC00FFF0#32, val := 0x94000050#32, streams := [.x],
    build := .word fun w => .vunsp (w.extractLsb' 21 5) (w.extractLsb' 16 5) (w.extractLsb' 0 4) }
/-- The rows of major 0x25. -/
def rowsMajor25 : List Row :=
  [rowVpacks, rowVpackt, rowVunpkl, rowVunpkh, rowVunsp]

def rowVperm : Row :=
  { sel := 0xFC0000F0#32, mask := 0xFC0000F0#32, val := 0x98000010#32, streams := [.x],
    build := .word fun w => .vperm (w.extractLsb' 21 5) (w.extractLsb' 16 5) (w.extractLsb' 11 5) (w.extractLsb' 8 3) (w.extractLsb' 0 4) }
def rowVperm2 : Row :=
  { sel := 0xFC0000F0#32, mask := 0xFC0000F0#32, val := 0x98000020#32, streams := [.x],
    build := .word fun w => .vperm2 (w.extractLsb' 21 5) (w.extractLsb' 16 5) (w.extractLsb' 11 5) (w.extractLsb' 8 3) (w.extractLsb' 0 4) }
def rowVbcq : Row :=
  { sel := 0xFC0000F0#32, mask := 0xFC1FF8F0#32, val := 0x98000030#32, streams := [.x],
    build := .word fun w => .vbcq (w.extractLsb' 21 5) (w.extractLsb' 8 3) (w.extractLsb' 0 4) }
def rowVzipl : Row :=
  { sel := 0xFC0000F0#32, mask := 0xFC0000F0#32, val := 0x98000040#32, streams := [.x],
    build := .word fun w => .vzipl (w.extractLsb' 21 5) (w.extractLsb' 16 5) (w.extractLsb' 11 5) (w.extractLsb' 8 3) (w.extractLsb' 0 4) }
def rowVziph : Row :=
  { sel := 0xFC0000F0#32, mask := 0xFC0000F0#32, val := 0x98000050#32, streams := [.x],
    build := .word fun w => .vziph (w.extractLsb' 21 5) (w.extractLsb' 16 5) (w.extractLsb' 11 5) (w.extractLsb' 8 3) (w.extractLsb' 0 4) }
def rowVuzpe : Row :=
  { sel := 0xFC0000F0#32, mask := 0xFC0000F0#32, val := 0x98000060#32, streams := [.x],
    build := .word fun w => .vuzpe (w.extractLsb' 21 5) (w.extractLsb' 16 5) (w.extractLsb' 11 5) (w.extractLsb' 8 3) (w.extractLsb' 0 4) }
def rowVuzpo : Row :=
  { sel := 0xFC0000F0#32, mask := 0xFC0000F0#32, val := 0x98000070#32, streams := [.x],
    build := .word fun w => .vuzpo (w.extractLsb' 21 5) (w.extractLsb' 16 5) (w.extractLsb' 11 5) (w.extractLsb' 8 3) (w.extractLsb' 0 4) }
def rowVrev : Row :=
  { sel := 0xFC0000F0#32, mask := 0xFC00F8F0#32, val := 0x98000080#32, streams := [.x],
    build := .word fun w => .vrev (w.extractLsb' 21 5) (w.extractLsb' 16 5) (w.extractLsb' 8 3) (w.extractLsb' 0 4) }
/-- The rows of major 0x26. -/
def rowsMajor26 : List Row :=
  [rowVperm, rowVperm2, rowVbcq, rowVzipl, rowVziph, rowVuzpe, rowVuzpo, rowVrev]

def rowVsel : Row :=
  { sel := 0xFC0000F0#32, mask := 0xFC0000F0#32, val := 0x9C000010#32, streams := [.x],
    build := .word fun w => .vsel (w.extractLsb' 21 5) (w.extractLsb' 16 5) (w.extractLsb' 11 5) (w.extractLsb' 8 3) (w.extractLsb' 0 4) }
def rowMpushr : Row :=
  { sel := 0xFC0000F0#32, mask := 0xFFE0FFF0#32, val := 0x9C000020#32, streams := [.x],
    build := .word fun w => .mpushr (w.extractLsb' 16 5) (w.extractLsb' 0 4) }
def rowMsave : Row :=
  { sel := 0xFC0000F0#32, mask := 0xFC1FFFF0#32, val := 0x9C000030#32, streams := [.x],
    build := .word fun w => .msave (w.extractLsb' 21 5) (w.extractLsb' 0 4) }
def rowMinv : Row :=
  { sel := 0xFC0000F0#32, mask := 0xFFFFF8F0#32, val := 0x9C000040#32, streams := [.x],
    build := .word fun w => .minv (w.extractLsb' 8 3) (w.extractLsb' 0 4) }
def rowMpop : Row :=
  { sel := 0xFC0000F0#32, mask := 0xFFFFFFF0#32, val := 0x9C000050#32, streams := [.x],
    build := .word fun w => .mpop (w.extractLsb' 0 4) }
def rowMclr : Row :=
  { sel := 0xFC0000F0#32, mask := 0xFFFFFFF0#32, val := 0x9C000060#32, streams := [.x],
    build := .word fun w => .mclr (w.extractLsb' 0 4) }
/-- The rows of major 0x27. -/
def rowsMajor27 : List Row :=
  [rowVsel, rowMpushr, rowMsave, rowMinv, rowMpop, rowMclr]

def rowVrsum : Row :=
  { sel := 0xFC0000F0#32, mask := 0xFC00F8F0#32, val := 0xA0000010#32, streams := [.x],
    build := .word fun w => .vrsum (w.extractLsb' 21 5) (w.extractLsb' 16 5) (w.extractLsb' 8 3) (w.extractLsb' 0 4) }
def rowVrssq : Row :=
  { sel := 0xFC0000F0#32, mask := 0xFC00F8F0#32, val := 0xA0000020#32, streams := [.x],
    build := .word fun w => .vrssq (w.extractLsb' 21 5) (w.extractLsb' 16 5) (w.extractLsb' 8 3) (w.extractLsb' 0 4) }
def rowVrdot : Row :=
  { sel := 0xFC0000F0#32, mask := 0xFC0000F0#32, val := 0xA0000030#32, streams := [.x],
    build := .word fun w => .vrdot (w.extractLsb' 21 5) (w.extractLsb' 16 5) (w.extractLsb' 11 5) (w.extractLsb' 8 3) (w.extractLsb' 0 4) }
def rowVrsuma : Row :=
  { sel := 0xFC0000F0#32, mask := 0xFC0000F0#32, val := 0xA0000040#32, streams := [.x],
    build := .word fun w => .vrsuma (w.extractLsb' 21 5) (w.extractLsb' 16 5) (w.extractLsb' 11 5) (w.extractLsb' 8 3) (w.extractLsb' 0 4) }
def rowVscan : Row :=
  { sel := 0xFC0000F0#32, mask := 0xFC00F8F0#32, val := 0xA0000050#32, streams := [.x],
    build := .word fun w => .vscan (w.extractLsb' 21 5) (w.extractLsb' 16 5) (w.extractLsb' 8 3) (w.extractLsb' 0 4) }
def rowVscnx : Row :=
  { sel := 0xFC0000F0#32, mask := 0xFC00F8F0#32, val := 0xA0000060#32, streams := [.x],
    build := .word fun w => .vscnx (w.extractLsb' 21 5) (w.extractLsb' 16 5) (w.extractLsb' 8 3) (w.extractLsb' 0 4) }
def rowVrmax : Row :=
  { sel := 0xFC0000F0#32, mask := 0xFC00F8F0#32, val := 0xA0000070#32, streams := [.x],
    build := .word fun w => .vrmax (w.extractLsb' 21 5) (w.extractLsb' 16 5) (w.extractLsb' 8 3) (w.extractLsb' 0 4) }
def rowVrmin : Row :=
  { sel := 0xFC0000F0#32, mask := 0xFC00F8F0#32, val := 0xA0000080#32, streams := [.x],
    build := .word fun w => .vrmin (w.extractLsb' 21 5) (w.extractLsb' 16 5) (w.extractLsb' 8 3) (w.extractLsb' 0 4) }
/-- The rows of major 0x28. -/
def rowsMajor28 : List Row :=
  [rowVrsum, rowVrssq, rowVrdot, rowVrsuma, rowVscan, rowVscnx, rowVrmax, rowVrmin]

def rowVamax : Row :=
  { sel := 0xFC0000F0#32, mask := 0xFFE0F8F0#32, val := 0xA4000010#32, streams := [.x],
    build := .word fun w => .vamax (w.extractLsb' 16 5) (w.extractLsb' 8 3) (w.extractLsb' 0 4) }
def rowVdscale : Row :=
  { sel := 0xFC0000F0#32, mask := 0xFFFFFFF0#32, val := 0xA4000020#32, streams := [.x],
    build := .word fun w => .vdscale (w.extractLsb' 0 4) }
/-- The rows of major 0x29. -/
def rowsMajor29 : List Row :=
  [rowVamax, rowVdscale]

def rowShrm : Row :=
  { sel := 0xFC0000F0#32, mask := 0xFFFF00F0#32, val := 0xA8000010#32, streams := [.x],
    build := .word fun w => .shrm (w.extractLsb' 8 8) (w.extractLsb' 0 4) }
def rowShft : Row :=
  { sel := 0xFC0000F0#32, mask := 0xFC1FC0F0#32, val := 0xA8000020#32, streams := [.x],
    build := .word fun w => .shft (w.extractLsb' 21 5) (w.extractLsb' 8 6) (w.extractLsb' 0 4) }
def rowShpop : Row :=
  { sel := 0xFC0000F0#32, mask := 0xFFFFFFF0#32, val := 0xA8000030#32, streams := [.x],
    build := .word fun w => .shpop (w.extractLsb' 0 4) }
/-- The rows of major 0x2A. -/
def rowsMajor2A : List Row :=
  [rowShrm, rowShft, rowShpop]

def rowMrd : Row :=
  { sel := 0xFC0000F0#32, mask := 0xFC0000F0#32, val := 0xAC000010#32, streams := [.x],
    build := .word fun w => .mrd (w.extractLsb' 21 5) (w.extractLsb' 16 5) (w.extractLsb' 14 2) (w.extractLsb' 8 6) (w.extractLsb' 0 4) }
def rowMrdc : Row :=
  { sel := 0xFC0000F0#32, mask := 0xFC0000F0#32, val := 0xAC000020#32, streams := [.x],
    build := .word fun w => .mrdc (w.extractLsb' 21 5) (w.extractLsb' 16 5) (w.extractLsb' 14 2) (w.extractLsb' 8 6) (w.extractLsb' 0 4) }
def rowMrdr : Row :=
  { sel := 0xFC0000F0#32, mask := 0xFC0000F0#32, val := 0xAC000030#32, streams := [.x],
    build := .word fun w => .mrdr (w.extractLsb' 21 5) (w.extractLsb' 16 5) (w.extractLsb' 14 2) (w.extractLsb' 8 6) (w.extractLsb' 0 4) }
/-- The rows of major 0x2B. -/
def rowsMajor2B : List Row :=
  [rowMrd, rowMrdc, rowMrdr]

def rowQpopvX : Row :=
  { sel := 0xFC00FF00#32, mask := 0xFC1FFFF0#32, val := 0xBC000100#32, streams := [.x],
    build := .word fun w => .qpopvX (w.extractLsb' 21 5) (w.extractLsb' 0 4) }
def rowQpushvX : Row :=
  { sel := 0xFC00FF00#32, mask := 0xFFE0FFF0#32, val := 0xBC000200#32, streams := [.x],
    build := .word fun w => .qpushvX (w.extractLsb' 16 5) (w.extractLsb' 0 4) }
def rowSloopX : Row :=
  { sel := 0xFC00FF00#32, mask := 0xFC00FF00#32, val := 0xBC000300#32, streams := [.x],
    build := .word fun w => .sloopX (w.extractLsb' 24 2) (w.extractLsb' 16 8) (w.extractLsb' 4 4) (w.extractLsb' 0 4) }
def rowSendlX : Row :=
  { sel := 0xFC00FF00#32, mask := 0xFFFFFF00#32, val := 0xBC000400#32, streams := [.x],
    build := .word fun w => .sendlX (w.extractLsb' 4 4) (w.extractLsb' 0 4) }
def rowSendlExitX : Row :=
  { sel := 0xFC00FF00#32, mask := 0xFFFFFF00#32, val := 0xBC000500#32, streams := [.x],
    build := .word fun w => .sendlExitX (w.extractLsb' 4 4) (w.extractLsb' 0 4) }
def rowQdropX : Row :=
  { sel := 0xFC00FF00#32, mask := 0xFFFFFF00#32, val := 0xBC000600#32, streams := [.x],
    build := .word fun w => .qdropX (w.extractLsb' 4 4) (w.extractLsb' 0 4) }
def rowTnopX : Row :=
  { sel := 0xFC00FF00#32, mask := 0xFFFFFFF0#32, val := 0xBC000700#32, streams := [.x],
    build := .word fun w => .tnopX (w.extractLsb' 0 4) }
/-- The rows of major 0x2F. -/
def rowsMajor2F : List Row :=
  [rowQpopvX, rowQpushvX, rowSloopX, rowSendlX, rowSendlExitX, rowQdropX, rowTnopX]

def rowVld : Row :=
  { sel := 0xFC000000#32, mask := 0xFC000000#32, val := 0xC0000000#32, streams := [.l],
    build := .word fun w => .vld (w.extractLsb' 21 5) (w.extractLsb' 16 5) (w.getLsbD 15) (w.getLsbD 14) (w.extractLsb' 12 2) (w.extractLsb' 4 8) (w.extractLsb' 0 4) }
/-- The rows of major 0x30. -/
def rowsMajor30 : List Row :=
  [rowVld]

def rowVst : Row :=
  { sel := 0xFC000000#32, mask := 0xFC008000#32, val := 0xC4000000#32, streams := [.s],
    build := .word fun w => .vst (w.extractLsb' 21 5) (w.extractLsb' 16 5) (w.getLsbD 14) (w.extractLsb' 12 2) (w.extractLsb' 4 8) (w.extractLsb' 0 4) }
/-- The rows of major 0x31. -/
def rowsMajor31 : List Row :=
  [rowVst]

def rowQpopa : Row :=
  { sel := 0xFC00F000#32, mask := 0xFC1FFFF0#32, val := 0xC8001000#32, streams := [.l, .s],
    build := .word fun w => .qpopa (w.extractLsb' 21 5) (w.extractLsb' 0 4) }
def rowQpusha : Row :=
  { sel := 0xFC00F000#32, mask := 0xFFE0FFF0#32, val := 0xC8002000#32, streams := [.s],
    build := .word fun w => .qpusha (w.extractLsb' 16 5) (w.extractLsb' 0 4) }
def rowQpushvL : Row :=
  { sel := 0xFC00F000#32, mask := 0xFC1FFFF0#32, val := 0xC8003000#32, streams := [.l],
    build := .word fun w => .qpushvL (w.extractLsb' 21 5) (w.extractLsb' 0 4) }
def rowQpopvS : Row :=
  { sel := 0xFC00F000#32, mask := 0xFC1FFFF0#32, val := 0xC8004000#32, streams := [.s],
    build := .word fun w => .qpopvS (w.extractLsb' 21 5) (w.extractLsb' 0 4) }
def rowSloopLs : Row :=
  { sel := 0xFC00F000#32, mask := 0xFC1CF000#32, val := 0xC8005000#32, streams := [.l, .s],
    build := .word fun w => .sloopLs (w.extractLsb' 21 5) (w.getLsbD 17) (w.getLsbD 16) (w.extractLsb' 4 8) (w.extractLsb' 0 4) }
def rowSendlLs : Row :=
  { sel := 0xFC00F000#32, mask := 0xFC1FFFF0#32, val := 0xC8006000#32, streams := [.l, .s],
    build := .word fun w => .sendlLs (w.extractLsb' 21 5) (w.extractLsb' 0 4) }
def rowSendlExitLs : Row :=
  { sel := 0xFC00F000#32, mask := 0xFC1FFFF0#32, val := 0xC8007000#32, streams := [.l, .s],
    build := .word fun w => .sendlExitLs (w.extractLsb' 21 5) (w.extractLsb' 0 4) }
def rowCcwaitLs : Row :=
  { sel := 0xFC00F000#32, mask := 0xFC1FF000#32, val := 0xC8008000#32, streams := [.l, .s],
    build := .word fun w => .ccwaitLs (w.extractLsb' 21 5) (w.extractLsb' 4 8) (w.extractLsb' 0 4) }
def rowQdropLs : Row :=
  { sel := 0xFC00F000#32, mask := 0xFFFFF000#32, val := 0xC8009000#32, streams := [.l, .s],
    build := .word fun w => .qdropLs (w.extractLsb' 4 8) (w.extractLsb' 0 4) }
def rowTnopLs : Row :=
  { sel := 0xFC00F000#32, mask := 0xFFFFFFF0#32, val := 0xC800A000#32, streams := [.l, .s],
    build := .word fun w => .tnopLs (w.extractLsb' 0 4) }
/-- The rows of major 0x32. -/
def rowsMajor32 : List Row :=
  [rowQpopa, rowQpusha, rowQpushvL, rowQpopvS, rowSloopLs, rowSendlLs, rowSendlExitLs, rowCcwaitLs,
  rowQdropLs, rowTnopLs]

def rowTmov34 : Row :=
  { sel := 0xFC038000#32, mask := 0xFC038070#32, val := 0xD0008000#32, streams := [.l],
    build := .word fun w => .tmov (w.getLsbD 26) (w.extractLsb' 21 5) (w.extractLsb' 18 3) (w.extractLsb' 13 2) (w.getLsbD 12) (w.getLsbD 11) (w.extractLsb' 7 4) (w.extractLsb' 0 4) }
def rowTgath34 : Row :=
  { sel := 0xFC038000#32, mask := 0xFC038070#32, val := 0xD0010000#32, streams := [.l],
    build := .word fun w => .tgath (w.getLsbD 26) (w.extractLsb' 21 5) (w.extractLsb' 18 3) (w.extractLsb' 13 2) (w.getLsbD 12) (w.getLsbD 11) (w.extractLsb' 7 4) (w.extractLsb' 0 4) }
def rowTscat34 : Row :=
  { sel := 0xFC038000#32, mask := 0xFC038070#32, val := 0xD0018000#32, streams := [.l],
    build := .word fun w => .tscat (w.getLsbD 26) (w.extractLsb' 21 5) (w.extractLsb' 18 3) (w.extractLsb' 13 2) (w.getLsbD 12) (w.getLsbD 11) (w.extractLsb' 7 4) (w.extractLsb' 0 4) }
def rowTfill34 : Row :=
  { sel := 0xFC038000#32, mask := 0xFC038070#32, val := 0xD0020000#32, streams := [.l],
    build := .word fun w => .tfill (w.getLsbD 26) (w.extractLsb' 21 5) (w.extractLsb' 18 3) (w.extractLsb' 13 2) (w.getLsbD 12) (w.getLsbD 11) (w.extractLsb' 7 4) (w.extractLsb' 0 4) }
def rowTmovf34 : Row :=
  { sel := 0xFC038000#32, mask := 0xFC038070#32, val := 0xD0028000#32, streams := [.l],
    build := .word fun w => .tmovf (w.getLsbD 26) (w.extractLsb' 21 5) (w.extractLsb' 18 3) (w.extractLsb' 13 2) (w.getLsbD 12) (w.getLsbD 11) (w.extractLsb' 7 4) (w.extractLsb' 0 4) }
/-- The rows of major 0x34. -/
def rowsMajor34 : List Row :=
  [rowTmov34, rowTgath34, rowTscat34, rowTfill34, rowTmovf34]

def rowTmov35 : Row :=
  { sel := 0xFC038000#32, mask := 0xFC038070#32, val := 0xD4008000#32, streams := [.s],
    build := .word fun w => .tmov (w.getLsbD 26) (w.extractLsb' 21 5) (w.extractLsb' 18 3) (w.extractLsb' 13 2) (w.getLsbD 12) (w.getLsbD 11) (w.extractLsb' 7 4) (w.extractLsb' 0 4) }
def rowTgath35 : Row :=
  { sel := 0xFC038000#32, mask := 0xFC038070#32, val := 0xD4010000#32, streams := [.s],
    build := .word fun w => .tgath (w.getLsbD 26) (w.extractLsb' 21 5) (w.extractLsb' 18 3) (w.extractLsb' 13 2) (w.getLsbD 12) (w.getLsbD 11) (w.extractLsb' 7 4) (w.extractLsb' 0 4) }
def rowTscat35 : Row :=
  { sel := 0xFC038000#32, mask := 0xFC038070#32, val := 0xD4018000#32, streams := [.s],
    build := .word fun w => .tscat (w.getLsbD 26) (w.extractLsb' 21 5) (w.extractLsb' 18 3) (w.extractLsb' 13 2) (w.getLsbD 12) (w.getLsbD 11) (w.extractLsb' 7 4) (w.extractLsb' 0 4) }
def rowTfill35 : Row :=
  { sel := 0xFC038000#32, mask := 0xFC038070#32, val := 0xD4020000#32, streams := [.s],
    build := .word fun w => .tfill (w.getLsbD 26) (w.extractLsb' 21 5) (w.extractLsb' 18 3) (w.extractLsb' 13 2) (w.getLsbD 12) (w.getLsbD 11) (w.extractLsb' 7 4) (w.extractLsb' 0 4) }
def rowTmovf35 : Row :=
  { sel := 0xFC038000#32, mask := 0xFC038070#32, val := 0xD4028000#32, streams := [.s],
    build := .word fun w => .tmovf (w.getLsbD 26) (w.extractLsb' 21 5) (w.extractLsb' 18 3) (w.extractLsb' 13 2) (w.getLsbD 12) (w.getLsbD 11) (w.extractLsb' 7 4) (w.extractLsb' 0 4) }
/-- The rows of major 0x35. -/
def rowsMajor35 : List Row :=
  [rowTmov35, rowTgath35, rowTscat35, rowTfill35, rowTmovf35]

def rowAaddi : Row :=
  { sel := 0xFC00F000#32, mask := 0xFC00F000#32, val := 0xD8001000#32, streams := [.l, .s],
    build := .word fun w => .aaddi (w.extractLsb' 21 5) (w.extractLsb' 16 5) (w.extractLsb' 4 8) (w.extractLsb' 0 4) }
def rowAaddv : Row :=
  { sel := 0xFC00F000#32, mask := 0xFC00F000#32, val := 0xD8002000#32, streams := [.l, .s],
    build := .word fun w => .aaddv (w.extractLsb' 21 5) (w.extractLsb' 16 5) (w.extractLsb' 4 8) (w.extractLsb' 0 4) }
def rowAadd : Row :=
  { sel := 0xFC00F000#32, mask := 0xFC00FF00#32, val := 0xD8003000#32, streams := [.l, .s],
    build := .word fun w => .aadd (w.extractLsb' 21 5) (w.extractLsb' 16 5) (w.extractLsb' 4 4) (w.extractLsb' 0 4) }
def rowAsub : Row :=
  { sel := 0xFC00F000#32, mask := 0xFC00FF00#32, val := 0xD8004000#32, streams := [.l, .s],
    build := .word fun w => .asub (w.extractLsb' 21 5) (w.extractLsb' 16 5) (w.extractLsb' 4 4) (w.extractLsb' 0 4) }
def rowAslli : Row :=
  { sel := 0xFC00F000#32, mask := 0xFC00FC00#32, val := 0xD8005000#32, streams := [.l, .s],
    build := .word fun w => .aslli (w.extractLsb' 21 5) (w.extractLsb' 16 5) (w.extractLsb' 4 6) (w.extractLsb' 0 4) }
/-- The rows of major 0x36. -/
def rowsMajor36 : List Row :=
  [rowAaddi, rowAaddv, rowAadd, rowAsub, rowAslli]

def rowDtset : Row :=
  { sel := 0xFC00F000#32, mask := 0xFFFFFFF0#32, val := 0xDC001000#32, streams := [.l, .s],
    build := .word fun w => .dtset (w.extractLsb' 0 4) }
def rowDpld : Row :=
  { sel := 0xFC00F000#32, mask := 0xFC00F000#32, val := 0xDC002000#32, streams := [.l],
    build := .word fun w => .dpld (w.extractLsb' 21 5) (w.extractLsb' 16 5) (w.extractLsb' 4 8) (w.extractLsb' 0 4) }
def rowDgld : Row :=
  { sel := 0xFC00F000#32, mask := 0xFC00F000#32, val := 0xDC003000#32, streams := [.l, .s],
    build := .word fun w => .dgld (w.extractLsb' 21 5) (w.extractLsb' 16 5) (w.extractLsb' 4 8) (w.extractLsb' 0 4) }
def rowDgldc : Row :=
  { sel := 0xFC00F000#32, mask := 0xFC00F000#32, val := 0xDC004000#32, streams := [.l, .s],
    build := .word fun w => .dgldc (w.extractLsb' 21 5) (w.extractLsb' 16 5) (w.extractLsb' 4 8) (w.extractLsb' 0 4) }
/-- The rows of major 0x37. -/
def rowsMajor37 : List Row :=
  [rowDtset, rowDpld, rowDgld, rowDgldc]

def rowMzero : Row :=
  { sel := 0xFC780000#32, mask := 0xFFF80000#32, val := 0xE0880000#32, streams := [.c],
    build := .command 1 false (fun h ws => match ws with | [p] => if p &&& 0x000003FF#32 = 0 then some (.mzero h (p.extractLsb' 28 4) (p.extractLsb' 20 8) (p.getLsbD 19) (p.extractLsb' 13 6) (p.extractLsb' 10 3)) else none | _ => none) }
def rowMma : Row :=
  { sel := 0xFC780000#32, mask := 0xFFF80000#32, val := 0xE1100000#32, streams := [.c],
    build := .command 2 false (fun h ws => match ws with | [p, q] => if p &&& 0x00003FFF#32 = 0 ∧ q &&& 0xFE000000#32 = 0 then some (.mma h (p.extractLsb' 30 2) (p.extractLsb' 24 6) (p.extractLsb' 21 3) (p.getLsbD 20) (p.getLsbD 19) (p.getLsbD 18) (p.getLsbD 17) (p.getLsbD 16) (p.extractLsb' 14 2) (q.extractLsb' 20 5) (q.extractLsb' 15 5) (q.extractLsb' 10 5) (q.extractLsb' 5 5) (q.extractLsb' 0 5)) else none | _ => none) }
def rowMbias : Row :=
  { sel := 0xFC780000#32, mask := 0xFFF80000#32, val := 0xE1180000#32, streams := [.c],
    build := .command 2 false (fun h ws => match ws with | [p, q] => if p &&& 0x000FFFFF#32 = 0 ∧ q &&& 0xFE007FE0#32 = 0 then some (.mbias h (p.extractLsb' 30 2) (p.extractLsb' 24 6) (p.extractLsb' 21 3) (p.getLsbD 20) (q.extractLsb' 20 5) (q.extractLsb' 15 5) (q.extractLsb' 0 5)) else none | _ => none) }
def rowMaddt : Row :=
  { sel := 0xFC780000#32, mask := 0xFFF80000#32, val := 0xE0A00000#32, streams := [.c],
    build := .command 1 false (fun h ws => match ws with | [p] => if p &&& 0x07FFFFFF#32 = 0 then some (.maddt h (p.extractLsb' 30 2) (p.extractLsb' 28 2) (p.getLsbD 27)) else none | _ => none) }
def rowMout : Row :=
  { sel := 0xFC780000#32, mask := 0xFFF80000#32, val := 0xE1280000#32, streams := [.c],
    build := .command 2 false (fun h ws => match ws with | [p, q] => if p &&& 0x0000001F#32 = 0 ∧ q &&& 0xFFFF8000#32 = 0 then some (.mout h (p.extractLsb' 30 2) (p.extractLsb' 24 6) (p.extractLsb' 21 3) (p.getLsbD 20) (p.getLsbD 19) (p.getLsbD 18) (p.getLsbD 17) (p.extractLsb' 11 6) (p.extractLsb' 5 6) (q.extractLsb' 10 5) (q.extractLsb' 5 5) (q.extractLsb' 0 5)) else none | _ => none) }
def rowMoutr : Row :=
  { sel := 0xFC780000#32, mask := 0xFFF80000#32, val := 0xE1300000#32, streams := [.c],
    build := .command 2 false (fun h ws => match ws with | [p, q] => if p &&& 0x3FF8001F#32 = 0 ∧ q &&& 0xFFFFFC00#32 = 0 then some (.moutr h (p.extractLsb' 30 2) (p.getLsbD 18) (p.getLsbD 17) (p.extractLsb' 11 6) (p.extractLsb' 5 6) (q.extractLsb' 5 5) (q.extractLsb' 0 5)) else none | _ => none) }
def rowMldr : Row :=
  { sel := 0xFC780000#32, mask := 0xFFF80000#32, val := 0xE1380000#32, streams := [.c],
    build := .command 2 false (fun h ws => match ws with | [p, q] => if p &&& 0x3FFC001F#32 = 0 ∧ q &&& 0xFFFFFC00#32 = 0 then some (.mldr h (p.extractLsb' 30 2) (p.getLsbD 17) (p.extractLsb' 11 6) (p.extractLsb' 5 6) (q.extractLsb' 5 5) (q.extractLsb' 0 5)) else none | _ => none) }
def rowMnop : Row :=
  { sel := 0xFC780000#32, mask := 0xFFF80000#32, val := 0xE0400000#32, streams := [.c],
    build := .command 0 false (fun h ws => match ws with | [] => some (.mnop h) | _ => none) }
def rowMsnap : Row :=
  { sel := 0xFC780000#32, mask := 0xFFF80000#32, val := 0xE0C80000#32, streams := [.c],
    build := .command 1 false (fun h ws => match ws with | [p] => if p &&& 0xC01FFFE0#32 = 0 then some (.msnap h (p.extractLsb' 24 6) (p.extractLsb' 21 3) (p.extractLsb' 0 5)) else none | _ => none) }
/-- The rows of major 0x38. -/
def rowsMajor38 : List Row :=
  [rowMzero, rowMma, rowMbias, rowMaddt, rowMout, rowMoutr, rowMldr, rowMnop, rowMsnap]

def rowTcmov : Row :=
  { sel := 0xFC780000#32, mask := 0xFFF80000#32, val := 0xE4880000#32, streams := [.c],
    build := .command 1 false (fun h ws => match ws with | [p] => if p &&& 0xFFFF0000#32 = 0 then some (.tcmov h (p.extractLsb' 14 2) (p.extractLsb' 0 14)) else none | _ => none) }
def rowTcgath : Row :=
  { sel := 0xFC780000#32, mask := 0xFFF80000#32, val := 0xE4900000#32, streams := [.c],
    build := .command 1 false (fun h ws => match ws with | [p] => if p &&& 0xFFFFC000#32 = 0 then some (.tcgath h (p.extractLsb' 0 14)) else none | _ => none) }
def rowTcscat : Row :=
  { sel := 0xFC780000#32, mask := 0xFFF80000#32, val := 0xE4980000#32, streams := [.c],
    build := .command 1 false (fun h ws => match ws with | [p] => if p &&& 0xFFFFC000#32 = 0 then some (.tcscat h (p.extractLsb' 0 14)) else none | _ => none) }
def rowTcfill : Row :=
  { sel := 0xFC780000#32, mask := 0xFFF80000#32, val := 0xE4A00000#32, streams := [.c],
    build := .command 1 false (fun h ws => match ws with | [p] => if p &&& 0xFFFFC000#32 = 0 then some (.tcfill h (p.extractLsb' 0 14)) else none | _ => none) }
def rowTcmovf : Row :=
  { sel := 0xFC780000#32, mask := 0xFFF80000#32, val := 0xE4A80000#32, streams := [.c],
    build := .command 1 false (fun h ws => match ws with | [p] => if p &&& 0xFFFFC000#32 = 0 then some (.tcmovf h (p.extractLsb' 0 14)) else none | _ => none) }
/-- The rows of major 0x39. -/
def rowsMajor39 : List Row :=
  [rowTcmov, rowTcgath, rowTcscat, rowTcfill, rowTcmovf]

def rowCar : Row :=
  { sel := 0xFC780000#32, mask := 0xFFF80000#32, val := 0xE9080000#32, streams := [.c],
    build := .command 2 false (fun h ws => match ws with | [p, q] => if p &&& 0x00001FE0#32 = 0 ∧ q &&& 0xFFFFFC00#32 = 0 then some (.car h (p.extractLsb' 26 6) (p.extractLsb' 22 4) (p.extractLsb' 16 6) (p.extractLsb' 13 3) (p.extractLsb' 0 5) (q.extractLsb' 5 5) (q.extractLsb' 0 5)) else none | _ => none) }
def rowCrs : Row :=
  { sel := 0xFC780000#32, mask := 0xFFF80000#32, val := 0xE9100000#32, streams := [.c],
    build := .command 2 false (fun h ws => match ws with | [p, q] => if p &&& 0x00001FE0#32 = 0 ∧ q &&& 0xFFFFFC00#32 = 0 then some (.crs h (p.extractLsb' 26 6) (p.extractLsb' 22 4) (p.extractLsb' 16 6) (p.extractLsb' 13 3) (p.extractLsb' 0 5) (q.extractLsb' 5 5) (q.extractLsb' 0 5)) else none | _ => none) }
def rowCag : Row :=
  { sel := 0xFC780000#32, mask := 0xFFF80000#32, val := 0xE9180000#32, streams := [.c],
    build := .command 2 false (fun h ws => match ws with | [p, q] => if p &&& 0x03FFFFE0#32 = 0 ∧ q &&& 0xFFFFFC00#32 = 0 then some (.cag h (p.extractLsb' 26 6) (p.extractLsb' 0 5) (q.extractLsb' 5 5) (q.extractLsb' 0 5)) else none | _ => none) }
def rowCbc : Row :=
  { sel := 0xFC780000#32, mask := 0xFFF80000#32, val := 0xE9200000#32, streams := [.c],
    build := .command 2 false (fun h ws => match ws with | [p, q] => if p &&& 0x03FFE000#32 = 0 ∧ q &&& 0xFFFFFC00#32 = 0 then some (.cbc h (p.extractLsb' 26 6) (p.extractLsb' 5 8) (p.extractLsb' 0 5) (q.extractLsb' 5 5) (q.extractLsb' 0 5)) else none | _ => none) }
def rowCred : Row :=
  { sel := 0xFC780000#32, mask := 0xFFF80000#32, val := 0xE9280000#32, streams := [.c],
    build := .command 2 false (fun h ws => match ws with | [p, q] => if p &&& 0x00000000#32 = 0 ∧ q &&& 0xFFFFFC00#32 = 0 then some (.cred h (p.extractLsb' 26 6) (p.extractLsb' 22 4) (p.extractLsb' 16 6) (p.extractLsb' 13 3) (p.extractLsb' 5 8) (p.extractLsb' 0 5) (q.extractLsb' 5 5) (q.extractLsb' 0 5)) else none | _ => none) }
def rowCa2a : Row :=
  { sel := 0xFC780000#32, mask := 0xFFF80000#32, val := 0xE9300000#32, streams := [.c],
    build := .command 2 false (fun h ws => match ws with | [p, q] => if p &&& 0x03FFFFE0#32 = 0 ∧ q &&& 0xFFFFFC00#32 = 0 then some (.ca2a h (p.extractLsb' 26 6) (p.extractLsb' 0 5) (q.extractLsb' 5 5) (q.extractLsb' 0 5)) else none | _ => none) }
def rowCbar : Row :=
  { sel := 0xFC780000#32, mask := 0xFFF80000#32, val := 0xE9380000#32, streams := [.c],
    build := .command 2 false (fun h ws => match ws with | [p, q] => if p &&& 0x03FFFFFF#32 = 0 ∧ q &&& 0xFFFFFFFF#32 = 0 then some (.cbar h (p.extractLsb' 26 6)) else none | _ => none) }
/-- The rows of major 0x3A. -/
def rowsMajor3A : List Row :=
  [rowCar, rowCrs, rowCag, rowCbc, rowCred, rowCa2a, rowCbar]

def rowRinv : Row :=
  { sel := 0xFC780000#32, mask := 0xFFF80000#32, val := 0xEC880000#32, streams := [.c],
    build := .command 1 false (fun h ws => match ws with | [p] => if p &&& 0xFFFFFC00#32 = 0 then some (.rinv h (p.extractLsb' 5 5) (p.extractLsb' 0 5)) else none | _ => none) }
def rowRinvx : Row :=
  { sel := 0xFC780000#32, mask := 0xFFF80000#32, val := 0xEC900000#32, streams := [.c],
    build := .command 1 false (fun h ws => match ws with | [p] => if p &&& 0xFFFFFFE0#32 = 0 then some (.rinvx h (p.extractLsb' 0 5)) else none | _ => none) }
def rowRinva : Row :=
  { sel := 0xFC780000#32, mask := 0xFFF80000#32, val := 0xEC980000#32, streams := [.c],
    build := .command 1 false (fun h ws => match ws with | [p] => if p &&& 0xFFFFFFFF#32 = 0 then some (.rinva h) else none | _ => none) }
def rowRsplit : Row :=
  { sel := 0xFC780000#32, mask := 0xFFF80000#32, val := 0xECA00000#32, streams := [.c],
    build := .command 1 true (fun h ws => match ws with | [p] => if p &&& 0xFFFF8000#32 = 0 then some (.rsplit h (p.extractLsb' 10 5) (p.extractLsb' 5 5) (p.extractLsb' 0 5)) else none | _ => none) }
def rowRmerge : Row :=
  { sel := 0xFC780000#32, mask := 0xFFF80000#32, val := 0xECA80000#32, streams := [.c],
    build := .command 1 true (fun h ws => match ws with | [p] => if p &&& 0xFFFFFC00#32 = 0 then some (.rmerge h (p.extractLsb' 5 5) (p.extractLsb' 0 5)) else none | _ => none) }
def rowRpress : Row :=
  { sel := 0xFC780000#32, mask := 0xFFF80000#32, val := 0xECB00000#32, streams := [.c],
    build := .command 1 true (fun h ws => match ws with | [p] => if p &&& 0xFFFFFC00#32 = 0 then some (.rpress h (p.extractLsb' 5 5) (p.extractLsb' 0 5)) else none | _ => none) }
def rowRres : Row :=
  { sel := 0xFC780000#32, mask := 0xFFF80000#32, val := 0xECB80000#32, streams := [.c],
    build := .command 1 true (fun h ws => match ws with | [p] => if p &&& 0xFFFF8000#32 = 0 then some (.rres h (p.extractLsb' 10 5) (p.extractLsb' 5 5) (p.extractLsb' 0 5)) else none | _ => none) }
def rowRgena : Row :=
  { sel := 0xFC780000#32, mask := 0xFFF80000#32, val := 0xECC00000#32, streams := [.c],
    build := .command 1 false (fun h ws => match ws with | [p] => if p &&& 0xFFFFFFE0#32 = 0 then some (.rgena h (p.extractLsb' 0 5)) else none | _ => none) }
/-- The rows of major 0x3B. -/
def rowsMajor3B : List Row :=
  [rowRinv, rowRinvx, rowRinva, rowRsplit, rowRmerge, rowRpress, rowRres, rowRgena]

def rowTend : Row :=
  { sel := 0xFC00FF00#32, mask := 0xFFFFFFF0#32, val := 0xF0000100#32, streams := [.c, .l, .x, .s],
    build := .word fun w => .tend (w.extractLsb' 0 4) }
def rowGinfo : Row :=
  { sel := 0xFC00FF00#32, mask := 0xFC1FFFCF#32, val := 0xF0000200#32, streams := [.c],
    build := .word fun w => .ginfo (w.extractLsb' 21 5) (w.extractLsb' 4 2) }
def rowTorder : Row :=
  { sel := 0xFC00FF00#32, mask := 0xFFFFFF0F#32, val := 0xF0000300#32, streams := [.c],
    build := .word fun w => .torder (w.extractLsb' 4 4) }
def rowLdf : Row :=
  { sel := 0xFC00FF00#32, mask := 0xFC00FF0F#32, val := 0xF0000400#32, streams := [.c],
    build := .word fun w => .ldf (w.extractLsb' 21 5) (w.extractLsb' 16 5) (w.extractLsb' 4 4) }
def rowLdfe : Row :=
  { sel := 0xFC00FF00#32, mask := 0xFC00FF0F#32, val := 0xF0000500#32, streams := [.c],
    build := .word fun w => .ldfe (w.extractLsb' 21 5) (w.extractLsb' 16 5) (w.extractLsb' 4 4) }
def rowStef : Row :=
  { sel := 0xFC00FF00#32, mask := 0xFC00FF0F#32, val := 0xF0000600#32, streams := [.c],
    build := .word fun w => .stef (w.extractLsb' 21 5) (w.extractLsb' 16 5) (w.extractLsb' 4 4) }
def rowFeset : Row :=
  { sel := 0xFC00FF00#32, mask := 0xFFE0FFFF#32, val := 0xF0000700#32, streams := [.c],
    build := .word fun w => .feset (w.extractLsb' 16 5) }
def rowFeclr : Row :=
  { sel := 0xFC00FF00#32, mask := 0xFFE0FFFF#32, val := 0xF0000800#32, streams := [.c],
    build := .word fun w => .feclr (w.extractLsb' 16 5) }
def rowVldfe : Row :=
  { sel := 0xFC00FF00#32, mask := 0xFC00FF00#32, val := 0xF0000900#32, streams := [.l],
    build := .word fun w => .vldfe (w.extractLsb' 21 5) (w.extractLsb' 16 5) (w.extractLsb' 4 4) (w.extractLsb' 0 4) }
def rowVstef : Row :=
  { sel := 0xFC00FF00#32, mask := 0xFC00FF00#32, val := 0xF0000A00#32, streams := [.s],
    build := .word fun w => .vstef (w.extractLsb' 21 5) (w.extractLsb' 16 5) (w.extractLsb' 4 4) (w.extractLsb' 0 4) }
def rowBararr : Row :=
  { sel := 0xFC00FF00#32, mask := 0xFC1FFF0F#32, val := 0xF0000B00#32, streams := [.c],
    build := .word fun w => .bararr (w.extractLsb' 21 5) (w.extractLsb' 4 4) }
def rowBarpost : Row :=
  { sel := 0xFC00FF00#32, mask := 0xFC00FF0F#32, val := 0xF0000C00#32, streams := [.c],
    build := .word fun w => .barpost (w.extractLsb' 21 5) (w.extractLsb' 16 5) (w.extractLsb' 4 4) }
def rowBarsync : Row :=
  { sel := 0xFC00FF00#32, mask := 0xFC1FFF0F#32, val := 0xF0000D00#32, streams := [.c],
    build := .word fun w => .barsync (w.extractLsb' 21 5) (w.extractLsb' 4 4) }
def rowBarwait : Row :=
  { sel := 0xFC00FF00#32, mask := 0xFC1FFF00#32, val := 0xF0000E00#32, streams := [.c, .l, .x, .s],
    build := .word fun w => .barwait (w.extractLsb' 21 5) (w.extractLsb' 4 4) (w.extractLsb' 0 4) }
def rowSemsig : Row :=
  { sel := 0xFC00FF00#32, mask := 0xFC1FFFF0#32, val := 0xF0000F00#32, streams := [.c, .l, .x, .s],
    build := .word fun w => .semsig (w.extractLsb' 21 5) (w.extractLsb' 0 4) }
def rowSemwait : Row :=
  { sel := 0xFC00FF00#32, mask := 0xFC1FFF00#32, val := 0xF0001000#32, streams := [.c, .l, .x, .s],
    build := .word fun w => .semwait (w.extractLsb' 21 5) (w.extractLsb' 4 4) (w.extractLsb' 0 4) }
/-- The rows of major 0x3C. -/
def rowsMajor3C : List Row :=
  [rowTend, rowGinfo, rowTorder, rowLdf, rowLdfe, rowStef, rowFeset, rowFeclr, rowVldfe, rowVstef, rowBararr,
  rowBarpost, rowBarsync, rowBarwait, rowSemsig, rowSemwait]

def rowLds : Row :=
  { sel := 0xFC00FF00#32, mask := 0xFC00FF0F#32, val := 0xF4000100#32, streams := [.c],
    build := .word fun w => .lds (w.extractLsb' 21 5) (w.extractLsb' 16 5) (w.extractLsb' 4 4) }
def rowLdsAcq : Row :=
  { sel := 0xFC00FF00#32, mask := 0xFC00FF0F#32, val := 0xF4000200#32, streams := [.c],
    build := .word fun w => .ldsAcq (w.extractLsb' 21 5) (w.extractLsb' 16 5) (w.extractLsb' 4 4) }
def rowSts : Row :=
  { sel := 0xFC00FF00#32, mask := 0xFC00FF0F#32, val := 0xF4000300#32, streams := [.c],
    build := .word fun w => .sts (w.extractLsb' 21 5) (w.extractLsb' 16 5) (w.extractLsb' 4 4) }
def rowStsRel : Row :=
  { sel := 0xFC00FF00#32, mask := 0xFC00FF0F#32, val := 0xF4000400#32, streams := [.c],
    build := .word fun w => .stsRel (w.extractLsb' 21 5) (w.extractLsb' 16 5) (w.extractLsb' 4 4) }
def rowAcq : Row :=
  { sel := 0xFC00FF00#32, mask := 0xFFFFFF00#32, val := 0xF4000500#32, streams := [.c, .l, .s],
    build := .word fun w => .acq (w.extractLsb' 4 4) (w.extractLsb' 0 4) }
def rowRel : Row :=
  { sel := 0xFC00FF00#32, mask := 0xFFFFFF00#32, val := 0xF4000600#32, streams := [.c, .l, .s],
    build := .word fun w => .rel (w.extractLsb' 4 4) (w.extractLsb' 0 4) }
def rowMark : Row :=
  { sel := 0xFC00FF00#32, mask := 0xFF00FFFF#32, val := 0xF4000800#32, streams := [.c],
    build := .word fun w => .mark (w.extractLsb' 16 8) }
def rowJoin : Row :=
  { sel := 0xFC00FF00#32, mask := 0xFFE0FF0F#32, val := 0xF4000900#32, streams := [.c],
    build := .word fun w => .join (w.extractLsb' 16 5) (w.extractLsb' 4 4) }
def rowFence : Row :=
  { sel := 0xFC00FF00#32, mask := 0xFFE0FF0F#32, val := 0xF4000A00#32, streams := [.c],
    build := .word fun w => .fence (w.extractLsb' 16 5) (w.extractLsb' 4 4) }
def rowAtom : Row :=
  { sel := 0xFC00F800#32, mask := 0xFC00F80F#32, val := 0xF4001000#32, streams := [.c],
    build := .word fun w => .atom (w.extractLsb' 21 5) (w.extractLsb' 16 5) (w.extractLsb' 8 3) (w.extractLsb' 4 4) }
def rowAtomRel : Row :=
  { sel := 0xFC00F800#32, mask := 0xFC00F80F#32, val := 0xF4001800#32, streams := [.c],
    build := .word fun w => .atomRel (w.extractLsb' 21 5) (w.extractLsb' 16 5) (w.extractLsb' 8 3) (w.extractLsb' 4 4) }
def rowVatom : Row :=
  { sel := 0xFC00F800#32, mask := 0xFC00F800#32, val := 0xF4002000#32, streams := [.s],
    build := .word fun w => .vatom (w.extractLsb' 21 5) (w.extractLsb' 16 5) (w.extractLsb' 8 3) (w.extractLsb' 4 4) (w.extractLsb' 0 4) }
def rowVatomRel : Row :=
  { sel := 0xFC00F800#32, mask := 0xFC00F800#32, val := 0xF4002800#32, streams := [.s],
    build := .word fun w => .vatomRel (w.extractLsb' 21 5) (w.extractLsb' 16 5) (w.extractLsb' 8 3) (w.extractLsb' 4 4) (w.extractLsb' 0 4) }
def rowCldecl : Row :=
  { sel := 0xFC00FF00#32, mask := 0xFC00FF0F#32, val := 0xF4003000#32, streams := [.c],
    build := .word fun w => .cldecl (w.extractLsb' 21 5) (w.extractLsb' 16 5) (w.extractLsb' 4 4) }
def rowCladd : Row :=
  { sel := 0xFC00F800#32, mask := 0xFC00F8FF#32, val := 0xF4003800#32, streams := [.c],
    build := .word fun w => .cladd (w.extractLsb' 21 5) (w.extractLsb' 16 5) (w.extractLsb' 8 3) }
def rowOatom48 : Row :=
  { sel := 0xFC00FF00#32, mask := 0xFC00FF0F#32, val := 0xF4004800#32, streams := [.c],
    build := .word fun w => .oatom (w.extractLsb' 21 5) (w.extractLsb' 16 5) (w.extractLsb' 8 4) (w.extractLsb' 4 4) }
def rowOatom : Row :=
  { sel := 0xFC00F800#32, mask := 0xFC00F00F#32, val := 0xF4004000#32, streams := [.c],
    build := .word fun w => .oatom (w.extractLsb' 21 5) (w.extractLsb' 16 5) (w.extractLsb' 8 4) (w.extractLsb' 4 4) }
/-- The rows of major 0x3D. -/
def rowsMajor3D : List Row :=
  [rowLds, rowLdsAcq, rowSts, rowStsRel, rowAcq, rowRel, rowMark, rowJoin, rowFence, rowAtom, rowAtomRel,
  rowVatom, rowVatomRel, rowCldecl, rowCladd, rowOatom48, rowOatom]

def rowBrk : Row :=
  { sel := 0xFC00FF00#32, mask := 0xFFFFFFF0#32, val := 0xF8000100#32, streams := [.c, .l, .x, .s],
    build := .word fun w => .brk (w.extractLsb' 0 4) }
def rowMcall : Row :=
  { sel := 0xFC00FF00#32, mask := 0xFC00FFFF#32, val := 0xF8000200#32, streams := [.c],
    build := .word fun w => .mcall (w.extractLsb' 21 5) (w.extractLsb' 16 5) }
def rowTret : Row :=
  { sel := 0xFC00FF00#32, mask := 0xFFFFFFFF#32, val := 0xF8000300#32, streams := [.c],
    build := .word fun _ => .tret }
def rowCkmark : Row :=
  { sel := 0xFC00FF00#32, mask := 0xFFE0FFFF#32, val := 0xF8000400#32, streams := [.c],
    build := .word fun w => .ckmark (w.extractLsb' 16 5) }
def rowAbtok : Row :=
  { sel := 0xFC00FF00#32, mask := 0xFFE0FFFF#32, val := 0xF8000500#32, streams := [.c],
    build := .word fun w => .abtok (w.extractLsb' 16 5) }
def rowDfwd : Row :=
  { sel := 0xFC00FF00#32, mask := 0xFFFFFFF0#32, val := 0xF8006000#32, streams := [.c, .l, .x, .s],
    build := .word fun w => .dfwd (w.extractLsb' 0 4) }
def rowDrev : Row :=
  { sel := 0xFC00FF00#32, mask := 0xFFFFFFF0#32, val := 0xF8006100#32, streams := [.c, .l, .x, .s],
    build := .word fun w => .drev (w.extractLsb' 0 4) }
/-- The rows of major 0x3E. -/
def rowsMajor3E : List Row :=
  [rowBrk, rowMcall, rowTret, rowCkmark, rowAbtok, rowDfwd, rowDrev]

/-- The rows of a major opcode; none where the major is unassigned or reserved (R37). -/
def rowsOf (op : BitVec 6) : List Row :=
  match op.toNat with
  | 0x00 => rowsMajor00
  | 0x01 => rowsMajor01
  | 0x02 => rowsMajor02
  | 0x03 => rowsMajor03
  | 0x04 => rowsMajor04
  | 0x05 => rowsMajor05
  | 0x06 => rowsMajor06
  | 0x07 => rowsMajor07
  | 0x08 => rowsMajor08
  | 0x09 => rowsMajor09
  | 0x0A => rowsMajor0A
  | 0x0B => rowsMajor0B
  | 0x0C => rowsMajor0C
  | 0x0D => rowsMajor0D
  | 0x0E => rowsMajor0E
  | 0x0F => rowsMajor0F
  | 0x10 => rowsMajor10
  | 0x11 => rowsMajor11
  | 0x12 => rowsMajor12
  | 0x13 => rowsMajor13
  | 0x14 => rowsMajor14
  | 0x18 => rowsMajor18
  | 0x19 => rowsMajor19
  | 0x1A => rowsMajor1A
  | 0x1B => rowsMajor1B
  | 0x1C => rowsMajor1C
  | 0x1D => rowsMajor1D
  | 0x1E => rowsMajor1E
  | 0x1F => rowsMajor1F
  | 0x20 => rowsMajor20
  | 0x21 => rowsMajor21
  | 0x22 => rowsMajor22
  | 0x23 => rowsMajor23
  | 0x24 => rowsMajor24
  | 0x25 => rowsMajor25
  | 0x26 => rowsMajor26
  | 0x27 => rowsMajor27
  | 0x28 => rowsMajor28
  | 0x29 => rowsMajor29
  | 0x2A => rowsMajor2A
  | 0x2B => rowsMajor2B
  | 0x2F => rowsMajor2F
  | 0x30 => rowsMajor30
  | 0x31 => rowsMajor31
  | 0x32 => rowsMajor32
  | 0x34 => rowsMajor34
  | 0x35 => rowsMajor35
  | 0x36 => rowsMajor36
  | 0x37 => rowsMajor37
  | 0x38 => rowsMajor38
  | 0x39 => rowsMajor39
  | 0x3A => rowsMajor3A
  | 0x3B => rowsMajor3B
  | 0x3C => rowsMajor3C
  | 0x3D => rowsMajor3D
  | 0x3E => rowsMajor3E
  | _ => []

/-- The major opcode of a word (R26). -/
def majorOf (w : W32) : BitVec 6 := w.extractLsb' 26 6

/-- The tests of R39 on one word, up to its reserved fields and the header count; `.command` headers also have their
semaphore and scope values tested here. -/
def decodeRow (st : Stream) (w : W32) : Except Reject Row :=
  if w = 0#32 ∨ w = 0xFFFFFFFF#32 then .error .illegal else
  let rows := rowsOf (majorOf w)
  if rows.isEmpty then .error .illegal else
  if !(rows.any fun r => r.streams.contains st) then .error .wrongStream else
  match rows.find? (fun r => decide (w &&& r.sel = r.val &&& r.sel)) with
  | none => .error .illegal
  | some r =>
    if !(r.streams.contains st) then .error .wrongStream else
    if w &&& r.mask ≠ r.val then .error .illegal else
    match r.build with
    | .word b => if (b w).wfIn st then .ok r else .error .illegal
    | .command _ _ _ => if (hdrOf w).wf then .ok r else .error .illegal

/-- How many step words follow the word (R26). -/
def Row.steps (r : Row) : Nat := match r.build with | .word _ => 0 | .command n _ _ => n

/-- The command may be issued in monitor mode only (R226). -/
def Row.monitorOnly (r : Row) : Bool := match r.build with | .word _ => false | .command _ m _ => m

/-- The instruction of a row, from its word and step words; reserved values of step words are illegal (R39, R291). -/
def Row.instr (r : Row) (w : W32) (steps : List W32) : Except Reject Instr :=
  match r.build with
  | .word b => .ok (b w)
  | .command _ _ b =>
    match b (hdrOf w) steps with
    | some i => if i.wf then .ok i else .error .illegal
    | none => .error .illegal

/-- The instruction that stream `st` reads from a word and its step words. -/
def decode (st : Stream) (w : W32) (steps : List W32) : Except Reject Instr :=
  match decodeRow st w with
  | .error r => .error r
  | .ok r => r.instr w steps

/-- The length in bytes of a skipped word, read raw (R72). -/
def rawLength (st : Stream) (w : W32) : Nat :=
  if st = .c ∧ 0x38 ≤ (majorOf w).toNat ∧ (majorOf w).toNat ≤ 0x3B then 4 * (1 + (w.extractLsb' 23 3).toNat) else 4

/-- One Treadle word (R324). -/
def decodeTreadle (w : W32) : Option Instr :=
  match (w.extractLsb' 24 8).toNat with
  | 0x01 => if w &&& 0x000F0000#32 = 0 then some (.treadleLi (w.extractLsb' 20 4) (w.extractLsb' 0 16)) else none
  | 0x02 => if w &&& 0x000F0000#32 = 0 then some (.treadleShori (w.extractLsb' 20 4) (w.extractLsb' 0 16)) else none
  | 0x03 => if w &&& 0x0000FFF0#32 = 0 then some (.treadleAdd (w.extractLsb' 20 4) (w.extractLsb' 16 4) (w.extractLsb' 0 4)) else none
  | 0x04 => if w &&& 0x0000FFF0#32 = 0 then some (.treadleSub (w.extractLsb' 20 4) (w.extractLsb' 16 4) (w.extractLsb' 0 4)) else none
  | 0x05 => if w &&& 0x0000FFF0#32 = 0 then some (.treadleAnd (w.extractLsb' 20 4) (w.extractLsb' 16 4) (w.extractLsb' 0 4)) else none
  | 0x06 => if w &&& 0x0000FFF0#32 = 0 then some (.treadleOr (w.extractLsb' 20 4) (w.extractLsb' 16 4) (w.extractLsb' 0 4)) else none
  | 0x07 => if w &&& 0x0000FFF0#32 = 0 then some (.treadleXor (w.extractLsb' 20 4) (w.extractLsb' 16 4) (w.extractLsb' 0 4)) else none
  | 0x08 => if w &&& 0x0000FFF0#32 = 0 then some (.treadleShl (w.extractLsb' 20 4) (w.extractLsb' 16 4) (w.extractLsb' 0 4)) else none
  | 0x09 => if w &&& 0x0000FFF0#32 = 0 then some (.treadleShr (w.extractLsb' 20 4) (w.extractLsb' 16 4) (w.extractLsb' 0 4)) else none
  | 0x0A => some (.treadleAddi (w.extractLsb' 20 4) (w.extractLsb' 16 4) (w.extractLsb' 0 16))
  | 0x10 => some (.treadleLd (w.extractLsb' 20 4) (w.extractLsb' 16 4) (w.extractLsb' 0 16))
  | 0x11 => some (.treadleSt (w.extractLsb' 20 4) (w.extractLsb' 16 4) (w.extractLsb' 0 16))
  | 0x18 => some (.treadleBeq (w.extractLsb' 20 4) (w.extractLsb' 16 4) (w.extractLsb' 0 16))
  | 0x19 => some (.treadleBne (w.extractLsb' 20 4) (w.extractLsb' 16 4) (w.extractLsb' 0 16))
  | 0x1A => some (.treadleBltu (w.extractLsb' 20 4) (w.extractLsb' 16 4) (w.extractLsb' 0 16))
  | 0x1B => some (.treadleBgeu (w.extractLsb' 20 4) (w.extractLsb' 16 4) (w.extractLsb' 0 16))
  | 0x20 => if w &&& 0x00F0FFFF#32 = 0 then some (.treadleEmit (w.extractLsb' 16 4)) else none
  | 0x3F => if w &&& 0x00FFFFFF#32 = 0 then some (.treadleEnd) else none
  | _ => none

/-- The header word of a command whose fixed bits are `base` (R34). -/
def encodeHdr (base : W32) (h : Hdr) : W32 :=
  base ||| putField h.cc 16 ||| putField h.wt 11 ||| putField h.sg 6 ||| putBit h.aq 5 ||| putBit h.rl 4 ||| putField h.sc 0

/-- The words of an instruction, from the formats of the spec; events and packets have none. -/
def encode : Instr → List W32
  | .add d a b => [0x00000020#32 ||| putField d 21 ||| putField a 16 ||| putField b 11]
  | .sub d a b => [0x00000040#32 ||| putField d 21 ||| putField a 16 ||| putField b 11]
  | .and d a b => [0x00000060#32 ||| putField d 21 ||| putField a 16 ||| putField b 11]
  | .or d a b => [0x00000080#32 ||| putField d 21 ||| putField a 16 ||| putField b 11]
  | .xor d a b => [0x000000A0#32 ||| putField d 21 ||| putField a 16 ||| putField b 11]
  | .andn d a b => [0x000000C0#32 ||| putField d 21 ||| putField a 16 ||| putField b 11]
  | .sll d a b => [0x000000E0#32 ||| putField d 21 ||| putField a 16 ||| putField b 11]
  | .srl d a b => [0x00000100#32 ||| putField d 21 ||| putField a 16 ||| putField b 11]
  | .sra d a b => [0x00000120#32 ||| putField d 21 ||| putField a 16 ||| putField b 11]
  | .min d a b => [0x00000140#32 ||| putField d 21 ||| putField a 16 ||| putField b 11]
  | .max d a b => [0x00000160#32 ||| putField d 21 ||| putField a 16 ||| putField b 11]
  | .minu d a b => [0x00000180#32 ||| putField d 21 ||| putField a 16 ||| putField b 11]
  | .maxu d a b => [0x000001A0#32 ||| putField d 21 ||| putField a 16 ||| putField b 11]
  | .clz d a => [0x000001C0#32 ||| putField d 21 ||| putField a 16]
  | .ctz d a => [0x000001E0#32 ||| putField d 21 ||| putField a 16]
  | .pop d a => [0x00000200#32 ||| putField d 21 ||| putField a 16]
  | .mul d a b => [0x04000020#32 ||| putField d 21 ||| putField a 16 ||| putField b 11]
  | .mulh d a b => [0x04000040#32 ||| putField d 21 ||| putField a 16 ||| putField b 11]
  | .mulhu d a b => [0x04000060#32 ||| putField d 21 ||| putField a 16 ||| putField b 11]
  | .div d a b => [0x04000080#32 ||| putField d 21 ||| putField a 16 ||| putField b 11]
  | .divu d a b => [0x040000A0#32 ||| putField d 21 ||| putField a 16 ||| putField b 11]
  | .rem d a b => [0x040000C0#32 ||| putField d 21 ||| putField a 16 ||| putField b 11]
  | .remu d a b => [0x040000E0#32 ||| putField d 21 ||| putField a 16 ||| putField b 11]
  | .seq d a b => [0x08000020#32 ||| putField d 21 ||| putField a 16 ||| putField b 11]
  | .sne d a b => [0x08000040#32 ||| putField d 21 ||| putField a 16 ||| putField b 11]
  | .slt d a b => [0x08000060#32 ||| putField d 21 ||| putField a 16 ||| putField b 11]
  | .sltu d a b => [0x08000080#32 ||| putField d 21 ||| putField a 16 ||| putField b 11]
  | .sel d a b m => [0x080000A0#32 ||| putField d 21 ||| putField a 16 ||| putField b 11 ||| putField m 0]
  | .addi d a i => [0x0C000000#32 ||| putField d 21 ||| putField a 16 ||| putField i 0]
  | .andi d a i => [0x10000000#32 ||| putField d 21 ||| putField a 16 ||| putField i 0]
  | .ori d a i => [0x14000000#32 ||| putField d 21 ||| putField a 16 ||| putField i 0]
  | .xori d a i => [0x18000000#32 ||| putField d 21 ||| putField a 16 ||| putField i 0]
  | .slli d a p => [0x1C000001#32 ||| putField d 21 ||| putField a 16 ||| putField p 10]
  | .srli d a p => [0x1C000002#32 ||| putField d 21 ||| putField a 16 ||| putField p 10]
  | .srai d a p => [0x1C000003#32 ||| putField d 21 ||| putField a 16 ||| putField p 10]
  | .extu d a p w => [0x1C000004#32 ||| putField d 21 ||| putField a 16 ||| putField p 10 ||| putField w 4]
  | .exts d a p w => [0x1C000005#32 ||| putField d 21 ||| putField a 16 ||| putField p 10 ||| putField w 4]
  | .ins d a p w => [0x1C000006#32 ||| putField d 21 ||| putField a 16 ||| putField p 10 ||| putField w 4]
  | .movz d h i => [0x20000000#32 ||| putField d 21 ||| putField h 19 ||| putField i 0]
  | .movk d h i => [0x20040000#32 ||| putField d 21 ||| putField h 19 ||| putField i 0]
  | .ldb v a o => [0x24000000#32 ||| putField v 21 ||| putField a 16 ||| putField o 0]
  | .ldh v a o => [0x24004000#32 ||| putField v 21 ||| putField a 16 ||| putField o 0]
  | .ldw v a o => [0x24008000#32 ||| putField v 21 ||| putField a 16 ||| putField o 0]
  | .ldd v a o sx => [0x2400C000#32 ||| putField v 21 ||| putField a 16 ||| putField o 0 ||| putBit sx 13]
  | .ldbs v a o => [0x24002000#32 ||| putField v 21 ||| putField a 16 ||| putField o 0]
  | .ldhs v a o => [0x24006000#32 ||| putField v 21 ||| putField a 16 ||| putField o 0]
  | .ldws v a o => [0x2400A000#32 ||| putField v 21 ||| putField a 16 ||| putField o 0]
  | .stb v a o => [0x28000000#32 ||| putField v 21 ||| putField a 16 ||| putField o 0]
  | .sth v a o => [0x28004000#32 ||| putField v 21 ||| putField a 16 ||| putField o 0]
  | .stw v a o => [0x28008000#32 ||| putField v 21 ||| putField a 16 ||| putField o 0]
  | .std v a o => [0x2800C000#32 ||| putField v 21 ||| putField a 16 ||| putField o 0]
  | .beq a b o => [0x2C000000#32 ||| putField a 21 ||| putField b 16 ||| putField o 0]
  | .bne a b o => [0x2C002000#32 ||| putField a 21 ||| putField b 16 ||| putField o 0]
  | .blt a b o => [0x2C004000#32 ||| putField a 21 ||| putField b 16 ||| putField o 0]
  | .bge a b o => [0x2C006000#32 ||| putField a 21 ||| putField b 16 ||| putField o 0]
  | .bltu a b o => [0x2C008000#32 ||| putField a 21 ||| putField b 16 ||| putField o 0]
  | .bgeu a b o => [0x2C00A000#32 ||| putField a 21 ||| putField b 16 ||| putField o 0]
  | .jmp o => [0x30000000#32 ||| putField o 0]
  | .call o => [0x34000000#32 ||| putField o 0]
  | .jr a => [0x38000020#32 ||| putField a 16]
  | .callr a => [0x38000040#32 ||| putField a 16]
  | .ret => [0x38000060#32]
  | .loop l g f a o => [0x3C000000#32 ||| putField l 23 ||| putBit g 20 ||| putBit f 19 ||| putField a 14 ||| putField o 0]
  | .endl l => [0x40000000#32 ||| putField l 23]
  | .endlX l => [0x40080000#32 ||| putField l 23]
  | .mfsr d p => [0x44000000#32 ||| putField d 21 ||| putField p 0]
  | .mtsr a p => [0x44004000#32 ||| putField a 16 ||| putField p 0]
  | .mxsr d a p => [0x44008000#32 ||| putField d 21 ||| putField a 16 ||| putField p 0]
  | .nop => [0x48000020#32]
  | .hint h => [0x48000000#32 ||| putField h 5]
  | .qpush a q => [0x4C000020#32 ||| putField a 16 ||| putField q 0]
  | .qpop d => [0x4C000040#32 ||| putField d 21]
  | .ccwait a c => [0x4C000060#32 ||| putField a 16 ||| putField c 0]
  | .adda d a i => [0x50000000#32 ||| putField d 21 ||| putField a 16 ||| putField i 0]
  | .vaddFloat t d a b r k => [0x60000010#32 ||| putField t 27 ||| putField d 21 ||| putField a 16 ||| putField b 11 ||| putField r 8 ||| putField k 0]
  | .vsubFloat t d a b r k => [0x60000020#32 ||| putField t 27 ||| putField d 21 ||| putField a 16 ||| putField b 11 ||| putField r 8 ||| putField k 0]
  | .vmulFloat t d a b r k => [0x60000030#32 ||| putField t 27 ||| putField d 21 ||| putField a 16 ||| putField b 11 ||| putField r 8 ||| putField k 0]
  | .vdivFloat t d a b r k => [0x60000040#32 ||| putField t 27 ||| putField d 21 ||| putField a 16 ||| putField b 11 ||| putField r 8 ||| putField k 0]
  | .vminFloat t d a b r k => [0x60000050#32 ||| putField t 27 ||| putField d 21 ||| putField a 16 ||| putField b 11 ||| putField r 8 ||| putField k 0]
  | .vmaxFloat t d a b r k => [0x60000060#32 ||| putField t 27 ||| putField d 21 ||| putField a 16 ||| putField b 11 ||| putField r 8 ||| putField k 0]
  | .vcpys t d a b r k => [0x60000070#32 ||| putField t 27 ||| putField d 21 ||| putField a 16 ||| putField b 11 ||| putField r 8 ||| putField k 0]
  | .vfma t d a b r k => [0x64000010#32 ||| putField t 27 ||| putField d 21 ||| putField a 16 ||| putField b 11 ||| putField r 8 ||| putField k 0]
  | .vfms t d a b r k => [0x64000020#32 ||| putField t 27 ||| putField d 21 ||| putField a 16 ||| putField b 11 ||| putField r 8 ||| putField k 0]
  | .vfnma t d a b r k => [0x64000030#32 ||| putField t 27 ||| putField d 21 ||| putField a 16 ||| putField b 11 ||| putField r 8 ||| putField k 0]
  | .vfnms t d a b r k => [0x64000040#32 ||| putField t 27 ||| putField d 21 ||| putField a 16 ||| putField b 11 ||| putField r 8 ||| putField k 0]
  | .vabs d a t r k => [0x78000010#32 ||| putField d 21 ||| putField a 16 ||| putField t 11 ||| putField r 8 ||| putField k 0]
  | .vneg d a t r k => [0x78000020#32 ||| putField d 21 ||| putField a 16 ||| putField t 11 ||| putField r 8 ||| putField k 0]
  | .vsqrt d a t r k => [0x78000030#32 ||| putField d 21 ||| putField a 16 ||| putField t 11 ||| putField r 8 ||| putField k 0]
  | .vrint d a t r k => [0x78000040#32 ||| putField d 21 ||| putField a 16 ||| putField t 11 ||| putField r 8 ||| putField k 0]
  | .vrcpe d a t r k => [0x78000050#32 ||| putField d 21 ||| putField a 16 ||| putField t 11 ||| putField r 8 ||| putField k 0]
  | .vrsqe d a t r k => [0x78000060#32 ||| putField d 21 ||| putField a 16 ||| putField t 11 ||| putField r 8 ||| putField k 0]
  | .vex2e d a t r k => [0x78000070#32 ||| putField d 21 ||| putField a 16 ||| putField t 11 ||| putField r 8 ||| putField k 0]
  | .vlg2e d a t r k => [0x78000080#32 ||| putField d 21 ||| putField a 16 ||| putField t 11 ||| putField r 8 ||| putField k 0]
  | .vceqFloat t a b r k => [0x7C000010#32 ||| putField t 21 ||| putField a 16 ||| putField b 11 ||| putField r 8 ||| putField k 0]
  | .vcneFloat t a b r k => [0x7C000020#32 ||| putField t 21 ||| putField a 16 ||| putField b 11 ||| putField r 8 ||| putField k 0]
  | .vcltFloat t a b r k => [0x7C000030#32 ||| putField t 21 ||| putField a 16 ||| putField b 11 ||| putField r 8 ||| putField k 0]
  | .vcleFloat t a b r k => [0x7C000040#32 ||| putField t 21 ||| putField a 16 ||| putField b 11 ||| putField r 8 ||| putField k 0]
  | .vcun t a b r k => [0x7C000050#32 ||| putField t 21 ||| putField a 16 ||| putField b 11 ||| putField r 8 ||| putField k 0]
  | .vaddInt d a b e k => [0x80000010#32 ||| putField d 21 ||| putField a 16 ||| putField b 11 ||| putField e 8 ||| putField k 0]
  | .vsubInt d a b e k => [0x80000020#32 ||| putField d 21 ||| putField a 16 ||| putField b 11 ||| putField e 8 ||| putField k 0]
  | .vmulInt d a b e k => [0x80000030#32 ||| putField d 21 ||| putField a 16 ||| putField b 11 ||| putField e 8 ||| putField k 0]
  | .vmulh d a b e k => [0x80000040#32 ||| putField d 21 ||| putField a 16 ||| putField b 11 ||| putField e 8 ||| putField k 0]
  | .vadds d a b e k => [0x80000050#32 ||| putField d 21 ||| putField a 16 ||| putField b 11 ||| putField e 8 ||| putField k 0]
  | .vsubs d a b e k => [0x80000060#32 ||| putField d 21 ||| putField a 16 ||| putField b 11 ||| putField e 8 ||| putField k 0]
  | .vminInt d a b e k => [0x80000070#32 ||| putField d 21 ||| putField a 16 ||| putField b 11 ||| putField e 8 ||| putField k 0]
  | .vmaxInt d a b e k => [0x80000080#32 ||| putField d 21 ||| putField a 16 ||| putField b 11 ||| putField e 8 ||| putField k 0]
  | .vabsd d a b e k => [0x80000090#32 ||| putField d 21 ||| putField a 16 ||| putField b 11 ||| putField e 8 ||| putField k 0]
  | .vdivInt d a b e k => [0x800000A0#32 ||| putField d 21 ||| putField a 16 ||| putField b 11 ||| putField e 8 ||| putField k 0]
  | .vrem d a b e k => [0x800000B0#32 ||| putField d 21 ||| putField a 16 ||| putField b 11 ||| putField e 8 ||| putField k 0]
  | .vceqInt a b e k => [0x84000010#32 ||| putField a 16 ||| putField b 11 ||| putField e 8 ||| putField k 0]
  | .vcneInt a b e k => [0x84000020#32 ||| putField a 16 ||| putField b 11 ||| putField e 8 ||| putField k 0]
  | .vcltInt a b e k => [0x84000030#32 ||| putField a 16 ||| putField b 11 ||| putField e 8 ||| putField k 0]
  | .vcleInt a b e k => [0x84000040#32 ||| putField a 16 ||| putField b 11 ||| putField e 8 ||| putField k 0]
  | .vand d a b e k => [0x88000010#32 ||| putField d 21 ||| putField a 16 ||| putField b 11 ||| putField e 8 ||| putField k 0]
  | .vor d a b e k => [0x88000020#32 ||| putField d 21 ||| putField a 16 ||| putField b 11 ||| putField e 8 ||| putField k 0]
  | .vxor d a b e k => [0x88000030#32 ||| putField d 21 ||| putField a 16 ||| putField b 11 ||| putField e 8 ||| putField k 0]
  | .vandn d a b e k => [0x88000040#32 ||| putField d 21 ||| putField a 16 ||| putField b 11 ||| putField e 8 ||| putField k 0]
  | .vnot d a e k => [0x88000050#32 ||| putField d 21 ||| putField a 16 ||| putField e 8 ||| putField k 0]
  | .vsll d a b e k => [0x88000060#32 ||| putField d 21 ||| putField a 16 ||| putField b 11 ||| putField e 8 ||| putField k 0]
  | .vsrl d a b e k => [0x88000070#32 ||| putField d 21 ||| putField a 16 ||| putField b 11 ||| putField e 8 ||| putField k 0]
  | .vsra d a b e k => [0x88000080#32 ||| putField d 21 ||| putField a 16 ||| putField b 11 ||| putField e 8 ||| putField k 0]
  | .vaddiI32 d a i k => [0x8C000010#32 ||| putField d 21 ||| putField a 16 ||| putField i 8 ||| putField k 0]
  | .vaddiI16 d a i k => [0x8C000020#32 ||| putField d 21 ||| putField a 16 ||| putField i 8 ||| putField k 0]
  | .vaddiI8 d a i k => [0x8C000030#32 ||| putField d 21 ||| putField a 16 ||| putField i 8 ||| putField k 0]
  | .vslli32 d a i k => [0x8C000040#32 ||| putField d 21 ||| putField a 16 ||| putField i 8 ||| putField k 0]
  | .vsrli32 d a i k => [0x8C000050#32 ||| putField d 21 ||| putField a 16 ||| putField i 8 ||| putField k 0]
  | .vsrai32 d a i k => [0x8C000060#32 ||| putField d 21 ||| putField a 16 ||| putField i 8 ||| putField k 0]
  | .vslli16 d a i k => [0x8C000070#32 ||| putField d 21 ||| putField a 16 ||| putField i 8 ||| putField k 0]
  | .vsrli16 d a i k => [0x8C000080#32 ||| putField d 21 ||| putField a 16 ||| putField i 8 ||| putField k 0]
  | .vsrai16 d a i k => [0x8C000090#32 ||| putField d 21 ||| putField a 16 ||| putField i 8 ||| putField k 0]
  | .vmovi32 d i k => [0x8C0000A0#32 ||| putField d 21 ||| putField i 8 ||| putField k 0]
  | .vfmoviF32 d i k => [0x8C0000B0#32 ||| putField d 21 ||| putField i 8 ||| putField k 0]
  | .vsplat32 d a i k => [0x8C0000C0#32 ||| putField d 21 ||| putField a 16 ||| putField i 8 ||| putField k 0]
  | .vsldn32 d a i k => [0x8C0000D0#32 ||| putField d 21 ||| putField a 16 ||| putField i 8 ||| putField k 0]
  | .vslup32 d a i k => [0x8C0000E0#32 ||| putField d 21 ||| putField a 16 ||| putField i 8 ||| putField k 0]
  | .vcvt d a s p r f k => [0x90000000#32 ||| putField d 21 ||| putField a 16 ||| putBit s 15 ||| putField p 11 ||| putField r 8 ||| putField f 4 ||| putField k 0]
  | .vpacks d a b e k => [0x94000010#32 ||| putField d 21 ||| putField a 16 ||| putField b 11 ||| putField e 8 ||| putField k 0]
  | .vpackt d a b e k => [0x94000020#32 ||| putField d 21 ||| putField a 16 ||| putField b 11 ||| putField e 8 ||| putField k 0]
  | .vunpkl d a e k => [0x94000030#32 ||| putField d 21 ||| putField a 16 ||| putField e 8 ||| putField k 0]
  | .vunpkh d a e k => [0x94000040#32 ||| putField d 21 ||| putField a 16 ||| putField e 8 ||| putField k 0]
  | .vunsp d a k => [0x94000050#32 ||| putField d 21 ||| putField a 16 ||| putField k 0]
  | .vperm d a b w k => [0x98000010#32 ||| putField d 21 ||| putField a 16 ||| putField b 11 ||| putField w 8 ||| putField k 0]
  | .vperm2 d a b w k => [0x98000020#32 ||| putField d 21 ||| putField a 16 ||| putField b 11 ||| putField w 8 ||| putField k 0]
  | .vbcq d w k => [0x98000030#32 ||| putField d 21 ||| putField w 8 ||| putField k 0]
  | .vzipl d a b w k => [0x98000040#32 ||| putField d 21 ||| putField a 16 ||| putField b 11 ||| putField w 8 ||| putField k 0]
  | .vziph d a b w k => [0x98000050#32 ||| putField d 21 ||| putField a 16 ||| putField b 11 ||| putField w 8 ||| putField k 0]
  | .vuzpe d a b w k => [0x98000060#32 ||| putField d 21 ||| putField a 16 ||| putField b 11 ||| putField w 8 ||| putField k 0]
  | .vuzpo d a b w k => [0x98000070#32 ||| putField d 21 ||| putField a 16 ||| putField b 11 ||| putField w 8 ||| putField k 0]
  | .vrev d a w k => [0x98000080#32 ||| putField d 21 ||| putField a 16 ||| putField w 8 ||| putField k 0]
  | .vsel d a b w k => [0x9C000010#32 ||| putField d 21 ||| putField a 16 ||| putField b 11 ||| putField w 8 ||| putField k 0]
  | .mpushr a k => [0x9C000020#32 ||| putField a 16 ||| putField k 0]
  | .msave d k => [0x9C000030#32 ||| putField d 21 ||| putField k 0]
  | .minv w k => [0x9C000040#32 ||| putField w 8 ||| putField k 0]
  | .mpop k => [0x9C000050#32 ||| putField k 0]
  | .mclr k => [0x9C000060#32 ||| putField k 0]
  | .vrsum d a t k => [0xA0000010#32 ||| putField d 21 ||| putField a 16 ||| putField t 8 ||| putField k 0]
  | .vrssq d a t k => [0xA0000020#32 ||| putField d 21 ||| putField a 16 ||| putField t 8 ||| putField k 0]
  | .vrdot d a b t k => [0xA0000030#32 ||| putField d 21 ||| putField a 16 ||| putField b 11 ||| putField t 8 ||| putField k 0]
  | .vrsuma d a b t k => [0xA0000040#32 ||| putField d 21 ||| putField a 16 ||| putField b 11 ||| putField t 8 ||| putField k 0]
  | .vscan d a t k => [0xA0000050#32 ||| putField d 21 ||| putField a 16 ||| putField t 8 ||| putField k 0]
  | .vscnx d a t k => [0xA0000060#32 ||| putField d 21 ||| putField a 16 ||| putField t 8 ||| putField k 0]
  | .vrmax d a t k => [0xA0000070#32 ||| putField d 21 ||| putField a 16 ||| putField t 8 ||| putField k 0]
  | .vrmin d a t k => [0xA0000080#32 ||| putField d 21 ||| putField a 16 ||| putField t 8 ||| putField k 0]
  | .vamax a t k => [0xA4000010#32 ||| putField a 16 ||| putField t 8 ||| putField k 0]
  | .vdscale k => [0xA4000020#32 ||| putField k 0]
  | .shrm i k => [0xA8000010#32 ||| putField i 8 ||| putField k 0]
  | .shft l b k => [0xA8000020#32 ||| putField l 21 ||| putField b 8 ||| putField k 0]
  | .shpop k => [0xA8000030#32 ||| putField k 0]
  | .mrd v l t r k => [0xAC000010#32 ||| putField v 21 ||| putField l 16 ||| putField t 14 ||| putField r 8 ||| putField k 0]
  | .mrdc v l t r k => [0xAC000020#32 ||| putField v 21 ||| putField l 16 ||| putField t 14 ||| putField r 8 ||| putField k 0]
  | .mrdr v l t r k => [0xAC000030#32 ||| putField v 21 ||| putField l 16 ||| putField t 14 ||| putField r 8 ||| putField k 0]
  | .qpopvX v k => [0xBC000100#32 ||| putField v 21 ||| putField k 0]
  | .qpushvX v k => [0xBC000200#32 ||| putField v 16 ||| putField k 0]
  | .sloopX f o l k => [0xBC000300#32 ||| putField f 24 ||| putField o 16 ||| putField l 4 ||| putField k 0]
  | .sendlX l k => [0xBC000400#32 ||| putField l 4 ||| putField k 0]
  | .sendlExitX l k => [0xBC000500#32 ||| putField l 4 ||| putField k 0]
  | .qdropX n k => [0xBC000600#32 ||| putField n 4 ||| putField k 0]
  | .tnopX k => [0xBC000700#32 ||| putField k 0]
  | .vld v a x i m o k => [0xC0000000#32 ||| putField v 21 ||| putField a 16 ||| putBit x 15 ||| putBit i 14 ||| putField m 12 ||| putField o 4 ||| putField k 0]
  | .vst v a i m o k => [0xC4000000#32 ||| putField v 21 ||| putField a 16 ||| putBit i 14 ||| putField m 12 ||| putField o 4 ||| putField k 0]
  | .qpopa d k => [0xC8001000#32 ||| putField d 21 ||| putField k 0]
  | .qpusha a k => [0xC8002000#32 ||| putField a 16 ||| putField k 0]
  | .qpushvL v k => [0xC8003000#32 ||| putField v 21 ||| putField k 0]
  | .qpopvS v k => [0xC8004000#32 ||| putField v 21 ||| putField k 0]
  | .sloopLs l g f o k => [0xC8005000#32 ||| putField l 21 ||| putBit g 17 ||| putBit f 16 ||| putField o 4 ||| putField k 0]
  | .sendlLs l k => [0xC8006000#32 ||| putField l 21 ||| putField k 0]
  | .sendlExitLs l k => [0xC8007000#32 ||| putField l 21 ||| putField k 0]
  | .ccwaitLs c n k => [0xC8008000#32 ||| putField c 21 ||| putField n 4 ||| putField k 0]
  | .qdropLs n k => [0xC8009000#32 ||| putField n 4 ||| putField k 0]
  | .tnopLs k => [0xC800A000#32 ||| putField k 0]
  | .tmov m t c q a r s k => [0xD0008000#32 ||| putBit m 26 ||| putField t 21 ||| putField c 18 ||| putField q 13 ||| putBit a 12 ||| putBit r 11 ||| putField s 7 ||| putField k 0]
  | .tgath m t c q a r s k => [0xD0010000#32 ||| putBit m 26 ||| putField t 21 ||| putField c 18 ||| putField q 13 ||| putBit a 12 ||| putBit r 11 ||| putField s 7 ||| putField k 0]
  | .tscat m t c q a r s k => [0xD0018000#32 ||| putBit m 26 ||| putField t 21 ||| putField c 18 ||| putField q 13 ||| putBit a 12 ||| putBit r 11 ||| putField s 7 ||| putField k 0]
  | .tfill m t c q a r s k => [0xD0020000#32 ||| putBit m 26 ||| putField t 21 ||| putField c 18 ||| putField q 13 ||| putBit a 12 ||| putBit r 11 ||| putField s 7 ||| putField k 0]
  | .tmovf m t c q a r s k => [0xD0028000#32 ||| putBit m 26 ||| putField t 21 ||| putField c 18 ||| putField q 13 ||| putBit a 12 ||| putBit r 11 ||| putField s 7 ||| putField k 0]
  | .aaddi d a i k => [0xD8001000#32 ||| putField d 21 ||| putField a 16 ||| putField i 4 ||| putField k 0]
  | .aaddv d a i k => [0xD8002000#32 ||| putField d 21 ||| putField a 16 ||| putField i 4 ||| putField k 0]
  | .aadd d a b k => [0xD8003000#32 ||| putField d 21 ||| putField a 16 ||| putField b 4 ||| putField k 0]
  | .asub d a b k => [0xD8004000#32 ||| putField d 21 ||| putField a 16 ||| putField b 4 ||| putField k 0]
  | .aslli d a n k => [0xD8005000#32 ||| putField d 21 ||| putField a 16 ||| putField n 4 ||| putField k 0]
  | .dtset k => [0xDC001000#32 ||| putField k 0]
  | .dpld v a o k => [0xDC002000#32 ||| putField v 21 ||| putField a 16 ||| putField o 4 ||| putField k 0]
  | .dgld v a n k => [0xDC003000#32 ||| putField v 21 ||| putField a 16 ||| putField n 4 ||| putField k 0]
  | .dgldc v a n k => [0xDC004000#32 ||| putField v 21 ||| putField a 16 ||| putField n 4 ||| putField k 0]
  | .mzero h tm anc as fx lv => [encodeHdr 0xE0880000#32 h, putField tm 28 ||| putField anc 20 ||| putBit as 19 ||| putField fx 13 ||| putField lv 10]
  | .mma h t fx lv snp ta tb mca mcb tri sn sd ss sb sa => [encodeHdr 0xE1100000#32 h, putField t 30 ||| putField fx 24 ||| putField lv 21 ||| putBit snp 20 ||| putBit ta 19 ||| putBit tb 18 ||| putBit mca 17 ||| putBit mcb 16 ||| putField tri 14, putField sn 20 ||| putField sd 15 ||| putField ss 10 ||| putField sb 5 ||| putField sa 0]
  | .mbias h t fx lv snp sn sd sa => [encodeHdr 0xE1180000#32 h, putField t 30 ||| putField fx 24 ||| putField lv 21 ||| putBit snp 20, putField sn 20 ||| putField sd 15 ||| putField sa 0]
  | .maddt h td ts cs => [encodeHdr 0xE0A00000#32 h, putField td 30 ||| putField ts 28 ||| putBit cs 27]
  | .mout h t fx lv snp cap clr tr row0 nr sn ss sa => [encodeHdr 0xE1280000#32 h, putField t 30 ||| putField fx 24 ||| putField lv 21 ||| putBit snp 20 ||| putBit cap 19 ||| putBit clr 18 ||| putBit tr 17 ||| putField row0 11 ||| putField nr 5, putField sn 10 ||| putField ss 5 ||| putField sa 0]
  | .moutr h t clr tr row0 nr ss sa => [encodeHdr 0xE1300000#32 h, putField t 30 ||| putBit clr 18 ||| putBit tr 17 ||| putField row0 11 ||| putField nr 5, putField ss 5 ||| putField sa 0]
  | .mldr h t tr row0 nr ss sa => [encodeHdr 0xE1380000#32 h, putField t 30 ||| putBit tr 17 ||| putField row0 11 ||| putField nr 5, putField ss 5 ||| putField sa 0]
  | .mnop h => [encodeHdr 0xE0400000#32 h]
  | .msnap h fx lv sa => [encodeHdr 0xE0C80000#32 h, putField fx 24 ||| putField lv 21 ||| putField sa 0]
  | .tcmov h tq dsc => [encodeHdr 0xE4880000#32 h, putField tq 14 ||| putField dsc 0]
  | .tcgath h dsc => [encodeHdr 0xE4900000#32 h, putField dsc 0]
  | .tcscat h dsc => [encodeHdr 0xE4980000#32 h, putField dsc 0]
  | .tcfill h dsc => [encodeHdr 0xE4A00000#32 h, putField dsc 0]
  | .tcmovf h dsc => [encodeHdr 0xE4A80000#32 h, putField dsc 0]
  | .car h cm op fx lv sc sb sa => [encodeHdr 0xE9080000#32 h, putField cm 26 ||| putField op 22 ||| putField fx 16 ||| putField lv 13 ||| putField sc 0, putField sb 5 ||| putField sa 0]
  | .crs h cm op fx lv sc sb sa => [encodeHdr 0xE9100000#32 h, putField cm 26 ||| putField op 22 ||| putField fx 16 ||| putField lv 13 ||| putField sc 0, putField sb 5 ||| putField sa 0]
  | .cag h cm sc sb sa => [encodeHdr 0xE9180000#32 h, putField cm 26 ||| putField sc 0, putField sb 5 ||| putField sa 0]
  | .cbc h cm rt sc sb sa => [encodeHdr 0xE9200000#32 h, putField cm 26 ||| putField rt 5 ||| putField sc 0, putField sb 5 ||| putField sa 0]
  | .cred h cm op fx lv rt sc sb sa => [encodeHdr 0xE9280000#32 h, putField cm 26 ||| putField op 22 ||| putField fx 16 ||| putField lv 13 ||| putField rt 5 ||| putField sc 0, putField sb 5 ||| putField sa 0]
  | .ca2a h cm sc sb sa => [encodeHdr 0xE9300000#32 h, putField cm 26 ||| putField sc 0, putField sb 5 ||| putField sa 0]
  | .cbar h cm => [encodeHdr 0xE9380000#32 h, putField cm 26, 0#32]
  | .rinv h y x => [encodeHdr 0xEC880000#32 h, putField y 5 ||| putField x 0]
  | .rinvx h x => [encodeHdr 0xEC900000#32 h, putField x 0]
  | .rinva h => [encodeHdr 0xEC980000#32 h, 0#32]
  | .rsplit h z y x => [encodeHdr 0xECA00000#32 h, putField z 10 ||| putField y 5 ||| putField x 0]
  | .rmerge h y x => [encodeHdr 0xECA80000#32 h, putField y 5 ||| putField x 0]
  | .rpress h y x => [encodeHdr 0xECB00000#32 h, putField y 5 ||| putField x 0]
  | .rres h z y x => [encodeHdr 0xECB80000#32 h, putField z 10 ||| putField y 5 ||| putField x 0]
  | .rgena h x => [encodeHdr 0xECC00000#32 h, putField x 0]
  | .tend k => [0xF0000100#32 ||| putField k 0]
  | .ginfo d g => [0xF0000200#32 ||| putField d 21 ||| putField g 4]
  | .torder l => [0xF0000300#32 ||| putField l 4]
  | .ldf d a l => [0xF0000400#32 ||| putField d 21 ||| putField a 16 ||| putField l 4]
  | .ldfe d a l => [0xF0000500#32 ||| putField d 21 ||| putField a 16 ||| putField l 4]
  | .stef d a l => [0xF0000600#32 ||| putField d 21 ||| putField a 16 ||| putField l 4]
  | .feset a => [0xF0000700#32 ||| putField a 16]
  | .feclr a => [0xF0000800#32 ||| putField a 16]
  | .vldfe v a l k => [0xF0000900#32 ||| putField v 21 ||| putField a 16 ||| putField l 4 ||| putField k 0]
  | .vstef v a l k => [0xF0000A00#32 ||| putField v 21 ||| putField a 16 ||| putField l 4 ||| putField k 0]
  | .bararr b l => [0xF0000B00#32 ||| putField b 21 ||| putField l 4]
  | .barpost b a l => [0xF0000C00#32 ||| putField b 21 ||| putField a 16 ||| putField l 4]
  | .barsync b l => [0xF0000D00#32 ||| putField b 21 ||| putField l 4]
  | .barwait b l k => [0xF0000E00#32 ||| putField b 21 ||| putField l 4 ||| putField k 0]
  | .semsig s k => [0xF0000F00#32 ||| putField s 21 ||| putField k 0]
  | .semwait s l k => [0xF0001000#32 ||| putField s 21 ||| putField l 4 ||| putField k 0]
  | .lds d a c => [0xF4000100#32 ||| putField d 21 ||| putField a 16 ||| putField c 4]
  | .ldsAcq d a c => [0xF4000200#32 ||| putField d 21 ||| putField a 16 ||| putField c 4]
  | .sts d a c => [0xF4000300#32 ||| putField d 21 ||| putField a 16 ||| putField c 4]
  | .stsRel d a c => [0xF4000400#32 ||| putField d 21 ||| putField a 16 ||| putField c 4]
  | .acq c k => [0xF4000500#32 ||| putField c 4 ||| putField k 0]
  | .rel c k => [0xF4000600#32 ||| putField c 4 ||| putField k 0]
  | .mark m => [0xF4000800#32 ||| putField m 16]
  | .join l c => [0xF4000900#32 ||| putField l 16 ||| putField c 4]
  | .fence l c => [0xF4000A00#32 ||| putField l 16 ||| putField c 4]
  | .atom d a o c => [0xF4001000#32 ||| putField d 21 ||| putField a 16 ||| putField o 8 ||| putField c 4]
  | .atomRel d a o c => [0xF4001800#32 ||| putField d 21 ||| putField a 16 ||| putField o 8 ||| putField c 4]
  | .vatom v a o c k => [0xF4002000#32 ||| putField v 21 ||| putField a 16 ||| putField o 8 ||| putField c 4 ||| putField k 0]
  | .vatomRel v a o c k => [0xF4002800#32 ||| putField v 21 ||| putField a 16 ||| putField o 8 ||| putField c 4 ||| putField k 0]
  | .cldecl d a c => [0xF4003000#32 ||| putField d 21 ||| putField a 16 ||| putField c 4]
  | .cladd d a o => [0xF4003800#32 ||| putField d 21 ||| putField a 16 ||| putField o 8]
  | .oatom d a o l => [0xF4004000#32 ||| putField d 21 ||| putField a 16 ||| putField o 8 ||| putField l 4]
  | .brk k => [0xF8000100#32 ||| putField k 0]
  | .mcall n m => [0xF8000200#32 ||| putField n 21 ||| putField m 16]
  | .tret => [0xF8000300#32]
  | .ckmark a => [0xF8000400#32 ||| putField a 16]
  | .abtok a => [0xF8000500#32 ||| putField a 16]
  | .dfwd k => [0xF8006000#32 ||| putField k 0]
  | .drev k => [0xF8006100#32 ||| putField k 0]
  | .treadleLi d i => [0x01000000#32 ||| putField d 20 ||| putField i 0]
  | .treadleShori d i => [0x02000000#32 ||| putField d 20 ||| putField i 0]
  | .treadleAdd d a b => [0x03000000#32 ||| putField d 20 ||| putField a 16 ||| putField b 0]
  | .treadleSub d a b => [0x04000000#32 ||| putField d 20 ||| putField a 16 ||| putField b 0]
  | .treadleAnd d a b => [0x05000000#32 ||| putField d 20 ||| putField a 16 ||| putField b 0]
  | .treadleOr d a b => [0x06000000#32 ||| putField d 20 ||| putField a 16 ||| putField b 0]
  | .treadleXor d a b => [0x07000000#32 ||| putField d 20 ||| putField a 16 ||| putField b 0]
  | .treadleShl d a b => [0x08000000#32 ||| putField d 20 ||| putField a 16 ||| putField b 0]
  | .treadleShr d a b => [0x09000000#32 ||| putField d 20 ||| putField a 16 ||| putField b 0]
  | .treadleAddi d a i => [0x0A000000#32 ||| putField d 20 ||| putField a 16 ||| putField i 0]
  | .treadleLd d a i => [0x10000000#32 ||| putField d 20 ||| putField a 16 ||| putField i 0]
  | .treadleSt d a i => [0x11000000#32 ||| putField d 20 ||| putField a 16 ||| putField i 0]
  | .treadleBeq a b i => [0x18000000#32 ||| putField a 20 ||| putField b 16 ||| putField i 0]
  | .treadleBne a b i => [0x19000000#32 ||| putField a 20 ||| putField b 16 ||| putField i 0]
  | .treadleBltu a b i => [0x1A000000#32 ||| putField a 20 ||| putField b 16 ||| putField i 0]
  | .treadleBgeu a b i => [0x1B000000#32 ||| putField a 20 ||| putField b 16 ||| putField i 0]
  | .treadleEmit a => [0x20000000#32 ||| putField a 16]
  | .treadleEnd => [0x3F000000#32]
  | _ => []

/-- The streams tried for a word whose stream is not known, in this order. -/
def allStreams : List Stream := [.c, .l, .x, .s]

/-- The words of a numbered instruction: bit 0 is bit 0 of the first word (little-endian words). -/
def tableWords : Nat → Nat → List W32
  | 0, _ => []
  | n + 1, w => BitVec.ofNat 32 w :: tableWords n (w / 2 ^ 32)

/-- The longest instruction: a header with seven step words (R26). -/
def maxWords : Nat := 8

/-- The first stream whose decoder reads an instruction from the words, with that instruction. -/
def decodeAny (ws : List W32) : List Stream → Option (Stream × Instr)
  | [] => none
  | st :: rest =>
    match ws with
    | [] => none
    | w :: more =>
      match decodeRow st w with
      | .ok r =>
        match r.instr w (more.take r.steps) with
        | .ok i => some (st, i)
        | .error _ => decodeAny ws rest
      | .error _ => decodeAny ws rest

/-- The instruction of a word numbered as the opcode table numbers it, in the first of C, L, X and S that has it, else
in the Treadle. Seven Treadle words are also control-stream words (LD, ST, BEQ, BNE, BLTU, BGEU, EMIT: majors 0x04, 0x06
and 0x08); those bits alone are read as the control stream reads them. -/
def decodeTableWord (_nbits w : Nat) : Option Instr :=
  match decodeAny (tableWords maxWords w) allStreams with
  | some (_, i) => some i
  | none => decodeTreadle (BitVec.ofNat 32 w)

end

end Sys2Proof
end

