-- ==== Sys2Proof/Machine/Bits.lean ====
section
/-! DEFINITION. Bytes, little-endian numbers, and memory as a list of the cells that are not zero, in rising order of
address (R3, R16, R191). -/

namespace Sys2Proof.Machine
open Sys2Proof

/-- Sign extension of a value of `n` bits to an integer. -/
def sintOf (n x : Nat) : Int :=
  let y := x % 2 ^ n
  if y < 2 ^ (n - 1) then y else (y : Int) - 2 ^ n

/-- The low `n` bits of an integer, in two's complement. -/
def lowBits (n : Nat) (x : Int) : Nat := (x % (2 ^ n : Int)).toNat

/-- Little-endian value of bytes (R3). -/
def leNat : List Byte → Nat
  | [] => 0
  | b :: bs => b.toNat + 256 * leNat bs

/-- The `n` low bytes of a number, lowest first (R3). -/
def leBytes : Nat → Nat → List Byte
  | 0, _ => []
  | n + 1, x => BitVec.ofNat 8 x :: leBytes n (x / 256)

/-- The byte at a place; unlisted places read zero (R16, R191). -/
def memByte : List Host.Cell → Nat → Byte
  | [], _ => 0
  | (k, v) :: m, a => if k = a then v else memByte m a

/-- The `n` bytes from a place upwards. -/
def memBytes (m : List Host.Cell) (a : Nat) : Nat → List Byte
  | 0 => []
  | n + 1 => memByte m a :: memBytes m (a + 1) n

/-- The cells of bytes laid from `a` upwards that are not zero. -/
def cellsFrom (a : Nat) : List Byte → List Host.Cell
  | [] => []
  | b :: bs => if b = 0 then cellsFrom (a + 1) bs else (a, b) :: cellsFrom (a + 1) bs

/-- Bytes written from `a` upwards. -/
def memStore (m : List Host.Cell) (a : Nat) (bs : List Byte) : List Host.Cell :=
  m.filter (fun c => decide (c.1 < a)) ++ cellsFrom a bs ++ m.filter (fun c => decide (a + bs.length ≤ c.1))

/-- The canonical form: addresses strictly rising, and no cell zero. -/
def Memory.wf : List Host.Cell → Bool
  | [] => true
  | c :: m => decide (c.2 ≠ 0) && m.all (fun d => decide (c.1 < d.1)) && Memory.wf m

/-- A number added to a rising list of numbers. -/
def insertNat (a : Nat) : List Nat → List Nat
  | [] => [a]
  | b :: bs => if a < b then a :: b :: bs else if a = b then b :: bs else b :: insertNat a bs

/-- A value looked up in a rising association list. -/
def assocGet {α : Type} (l : List (Nat × α)) (a : Nat) : Option α :=
  match l with
  | [] => none
  | (k, v) :: r => if k = a then some v else assocGet r a

/-- A value set in a rising association list. -/
def assocSet {α : Type} (a : Nat) (v : α) : List (Nat × α) → List (Nat × α)
  | [] => [(a, v)]
  | (k, w) :: r => if a < k then (a, v) :: (k, w) :: r else if a = k then (a, v) :: r else (k, w) :: assocSet a v r

/-- A key removed from an association list. -/
def assocErase {α : Type} (a : Nat) (l : List (Nat × α)) : List (Nat × α) := l.filter fun p => decide (p.1 ≠ a)

/-- Position of the highest 1 bit plus 1; 0 for 0. -/
def bitLen (x : Nat) : Nat := if x = 0 then 0 else Nat.log2 x + 1

end Sys2Proof.Machine
end

