-- ==== Sys2Proof/Config.lean ====
section
/-! DEFINITION. What the part fixes and what the spec leaves open. Constants of the ZB1960 are plain definitions; values the
spec does not give are opaque, so that no proof can rest on them. -/

namespace Sys2Proof.Config

/-- Bytes of a Pocket (R15). -/
def pocketBytes : Nat := 0xC0000
/-- Bytes of a Sleeve (R188). -/
def sleeveBytes : Nat := 0x400000
/-- Bytes of a Bolt that addresses reach; the rest is the staging reserve (R188, R196). -/
def boltBytes : Nat := 0x7000000
/-- Bytes of HBM (R384). -/
def hbmBytes : Nat := 2 ^ 39

/-- The application cores (R387): how many, their vector length in bits, the bytes of the caches of each and of the one they share,
the line size, and the rate of their time counter in MHz. -/
def harts : Nat := 32
def hartVlen : Nat := 256
def hartCaches : List Nat := [2 ^ 16, 2 ^ 16, 2 ^ 20]
def sharedCache : Nat := 2 ^ 26
def lineBytes : Nat := 64
def timeMhz : Nat := 100

/-- Units of `State.clock` in a microsecond: the least number that makes the fabric cycle of every operating point whole (R396). -/
def unitsPerUs : Nat := 72000

/-- A value the spec leaves open: the `n`-th one that the run meets (assumption log 5). -/
opaque freeValue : Nat → BitVec 64

/-- The signature of an attestation report, made with a key that never leaves the root of trust (R394, assumption log 6). -/
opaque attestationSignature : List Byte → List Byte

/-- What the package's own sensors measure as its power in W at a fabric cycle (R389, assumption log 91). -/
opaque power : Nat → BitVec 16

/-- Whether the signature that goes with an image verifies under the key whose hash the fuses hold, or under that of the image before
it (R393, assumption log 123). -/
opaque imageSigned : List Byte → Bool

/-- The core and identity to which the APLIC sends an interrupt of the console UART (R391, assumption log 124). -/
opaque uartIdentity : BitVec 16

end Sys2Proof.Config
end

