-- ==== Sys2Proof/Machine/State.lean ====
section
/-! DEFINITION. The state of the package as plain data, and the state after reset. -/

namespace Sys2Proof.Machine
open Sys2Proof

/-- Why the model itself stops. -/
inductive Fault where
  /-- Raised by `step` when the agenda holds an instruction word, command, packet or Treadle word as if it were an event.
  Safe: the hardware's events are the event rows of the table only. -/
  | notAnEvent
  deriving DecidableEq, Repr

/-- Why an instruction has no meaning here. -/
inductive Refusal where
  /-- Raised by `exec` for an instruction that has no meaning yet. Safe: it stops. -/
  | notModelled (mnemonic : String)
  deriving DecidableEq, Repr

/-! ## Order between agents (R229 to R235) -/

/-- The set of agents of a scope, as its agent sees it (R231). -/
inductive Ext where
  /-- one agent only -/
  | sq (agent : Nat)
  /-- the agents of these shuttles -/
  | set (shuttles : List ShNo)
  | pk | io | dm | sy
  deriving DecidableEq, Repr

/-- For each agent listed, how many of its accesses, from the first, are meant. -/
abbrev Clock := List (Nat × Nat)

/-- Accesses learned through one edge, with the extents of its release and its acquire (R233). -/
structure Learned where
  rel : Ext
  acq : Ext
  clk : Clock
  deriving DecidableEq, Repr

/-- What is ordered before a point of an agent: by stream order of its shuttle, and through edges (R233, R234). -/
structure Know where
  own : Clock
  learned : List Learned
  deriving DecidableEq, Repr

/-- A release: who made it, the agents it reaches and the accesses it carries (R233). -/
structure Carry where
  agent : Nat
  home : ShNo
  ext : Ext
  clk : Clock
  deriving DecidableEq, Repr

/-- Kinds of access, as far as conflicts tell them apart (R230, R236). -/
inductive AccKind where
  | plain
  | sync
  /-- a commuting update, with its operation -/
  | update (op : Nat)
  | capture
  /-- a contribution to a counted line, with its operation, or to a shadow cell or barrier -/
  | contribution (op : Nat)
  /-- a consume or FECLR, and a fill or FESET: their turns (R175) -/
  | consume
  | fill
  deriving DecidableEq, Repr

/-- One access of a race tag (R238). -/
structure Access where
  agent : Nat
  home : ShNo
  epoch : Nat
  write : Bool
  kind : AccKind
  ext : Ext
  deriving DecidableEq, Repr

/-! ## A sequencer -/

/-- One loop level (R69). -/
structure Level where
  k : W32
  lim : W32
  str : Nat
  start : W32
  fin : W32
  fo : Bool
  lo : Bool
  deriving DecidableEq, Repr

/-- A loop unit (R69, R76): levels `0 .. depth - 1` are open. -/
structure LoopUnit where
  levels : Vector Level 6
  depth : Nat
  deriving DecidableEq, Repr

/-- A code section, with the words that hold an uncorrectable error (R18, R20). -/
structure Section where
  words : List W32
  bad : List Nat
  deriving DecidableEq, Repr

/-- Run state of a sequencer (R24, R77, R185). -/
inductive Run where
  | idle | running | ended | halted
  deriving DecidableEq, Repr

/-- What the instruction at pc waits on (R81 to R83, R91, R92, R182, R185). -/
inductive StallKind where
  /-- queues, tokens, credits and counters: the stalls of R96 -/
  | stream
  /-- TEND of C -/
  | tend
  /-- a consume of the cells at these places (R174) -/
  | consume (places : List Nat)
  /-- full/empty cell, barrier or semaphore -/
  | sync
  /-- being the oldest task, JOIN, an ordered atomic, a declaration, the matrix engine and its like -/
  | other
  deriving DecidableEq, Repr

/-- A wait: its kind, the cycle in which it began, its limit code (0 none), and the shuttle's progress and the package's
stamp when it was last tried. -/
structure Stall where
  kind : StallKind
  since : Nat
  limit : Nat
  seen : Nat
  stamp : Nat
  deriving DecidableEq, Repr

/-- A scalar queue entry, with what its push orders before its pop (R80, R85). -/
structure QEntry where
  val : W64
  know : Know
  deriving DecidableEq, Repr

/-- A vector queue entry. -/
structure VEntry where
  val : VReg
  know : Know
  deriving DecidableEq, Repr

/-- A sequencer (R11, R76). -/
structure Seq where
  pc : W32
  loops : LoopUnit
  /-- sst, ldst, exst or stst (R13, R78) -/
  status : W64
  run : Run
  code : Section
  stall : Option Stall
  /-- entries a waiting QDROP has popped (R99), and the token and the credit it popped when it issued (R83) -/
  held : List QEntry
  taken : Option (List Know × List Know)
  /-- its name among the agents of R229, new at each task start -/
  agent : Nat
  know : Know
  /-- fences that later synchronising stores also release for (R241) -/
  relFences : List Carry
  /-- releases read by earlier synchronising loads (R241) -/
  sighted : List Carry
  /-- what was ordered before its latest access (R239) -/
  atAccess : Know
  /-- its ordering epoch: it rises with every completed instruction but a command that pops and pushes no token (R239) -/
  era : Nat
  /-- dtbc, dtbl or dtbs (R256) -/
  dtb : W64
  /-- dtpc, dtpl or dtps (R256) -/
  dtp : W64
  deriving DecidableEq, Repr

/-! ## Engines of a shuttle -/

/-- An accumulator cell: 136-bit residue and tags (R110). -/
structure XCell where
  c : BitVec 136
  nan : Bool
  pinf : Bool
  ninf : Bool
  deriving DecidableEq, Repr

/-- A row of a tile with its anchor (R292). -/
structure TileRow where
  cells : Vector XCell 64
  anchor : Int
  deriving DecidableEq, Repr

/-- An accumulator tile (R278) and TANC. -/
structure Tile where
  rows : Vector TileRow 64
  anchor : Int
  deriving DecidableEq, Repr

/-- A semaphore: its count, the releases of its unconsumed signals in order, and whether every signal so far was ordered
after the one before it (R181). -/
structure Sem where
  count : Nat
  signals : List Carry
  ordered : Bool
  last : Option Access
  deriving DecidableEq, Repr

/-- An asynchronous fault (R358). -/
structure AsyncFault where
  cause : BitVec 8
  eval : W64
  str : Stream
  eng : BitVec 4
  ipc : W32
  /-- the command that reported it, and the fabric cycle in which it was found -/
  cmd : Nat
  found : Nat
  deriving DecidableEq, Repr

/-- A trap that goes beyond the monitor, before and after its record is written (R351, R356, R357). -/
structure HeldTrap where
  cause : BitVec 8
  eval : W64
  eaux : W64
  epc : W32
  halt : Bool
  fw : Bool
  /-- number of the written record -/
  record : Option Nat
  deriving DecidableEq, Repr

/-- A step trap that waits for a command (R361). -/
structure StepWait where
  str : Stream
  ipc : W32
  cmd : Nat
  /-- the command has completed: the trap is taken at C's next boundary in task mode -/
  due : Bool
  deriving DecidableEq, Repr

/-- C's pushes into a channel's queue, the pops from it, and what the latest pop comes after (R242). -/
structure Chan where
  pushed : Nat
  popped : Nat
  last : Know
  deriving DecidableEq, Repr

/-- The markers of one MARK: for each named channel the pops awaited and what the last of them comes after, and the
commands and updates awaited (R242). -/
structure Marks where
  pops : List (Stream × Nat × Option Know)
  jobs : List Nat
  deriving DecidableEq, Repr

/-! ## A shuttle -/

/-- A format-table entry with its ring of twelve slots (R115, R121). -/
structure FmtEntry where
  bits : BitVec 128
  ring : Vector W32 12
  deriving DecidableEq, Repr

/-- A shuttle. -/
structure Shuttle where
  /-- s0-s31 (R11) -/
  sregs : Vector W64 32
  c : Seq
  l : Seq
  x : Seq
  s : Seq
  /-- firmware's monitor section (R163) -/
  monSection : Section
  lnk : W64
  bor : W32
  tvec : W32
  /-- tvec as firmware last wrote it (R163) -/
  fwTvec : W32
  epc : W32
  ecause : W64
  eval : W64
  esst : W64
  mscratch : W64
  shp : W64
  ftix : BitVec 6
  gsel : BitVec 2
  tts : W64
  dseg : W64
  rwin : W32
  sgnt : W64
  bgnt : W64
  dpr : Vector W64 4
  eaux : W64
  dbgc : W64
  lrpc : W32
  xrpc : W32
  srpc : W32
  /-- bit 0 L, bit 1 X, bit 2 S stopped by a freeze -/
  sstp : BitVec 3
  /-- bit b: a BARSYNC on barrier b has arrived and still waits (R187) -/
  bsw : BitVec 4
  /-- a0-a15 of L and of S (R76) -/
  aL : Vector W64 16
  aS : Vector W64 16
  /-- v0-v31 (R124) -/
  vregs : Vector VReg 32
  /-- the mask stack, top first (R127) -/
  masks : List Mask
  qCL : List QEntry
  qCX : List QEntry
  qCS : List QEntry
  qSC : List QEntry
  qLX : List VEntry
  qXS : List VEntry
  /-- T(L,X), T(X,S), T(S,L): one entry per token, oldest first (R82) -/
  tLX : List Know
  tXS : List Know
  tSL : List Know
  /-- Cr(L,X), Cr(X,S), Cr(S,L) -/
  crLX : List Know
  crXS : List Know
  crSL : List Know
  /-- cc0-cc7 (R91) -/
  cc : Vector Nat 8
  /-- the completed commands of each counter: issuing agent, its epoch at issue, what the completion orders (R92) -/
  ccDone : Vector (List (Nat × Nat × Know)) 8
  sems : Vector Sem 16
  fmt : Vector FmtEntry 64
  tiles : Vector Tile 4
  pending : List AsyncFault
  /-- all four sequencers are stopped for a handler beyond the monitor or a pre-emption (R354, R357) -/
  frozen : Bool
  trap : Option HeldTrap
  /-- step traps that wait for their commands, oldest first (R361) -/
  stepWaits : List StepWait
  /-- rises with every completed instruction and engine event of the shuttle -/
  progress : Nat
  /-- the running task's image has a monitor entry (R163) -/
  ownMonitor : Bool
  /-- the running task and this shuttle's rank in it (of a DUAL task, its copy) -/
  task : Option (Nat × Nat)
  /-- channels of L, X and S -/
  chanL : Chan
  chanX : Chan
  chanS : Chan
  /-- MARKs since the last JOIN, oldest first, and what their finished markers cover -/
  marks : List Marks
  covered : Know
  /-- completed matrix commands, tile moves, collectives and range commands: issuing agent, its epoch at issue, and what the
  completion orders (R242, R243, R298) -/
  engDone : Vector (List (Nat × Nat × Know)) 4
  /-- the oldest of the four MARKs that a fifth waits for, by its place among `marks` (R242) -/
  markWait : Option Nat
  /-- FENCEs whose markers are pushed and that have not completed: address, plus 2^32 in monitor mode (R243) -/
  fences : List Nat
  /-- epochs of C's arrivals on each barrier (R178, R179) -/
  arrivals : Vector (List Nat) 4
  /-- OATOMs of C that wait: address (plus 2^32 in monitor mode) and contribution's name (R250) -/
  oatoms : List (Nat × Nat)
  /-- the configuration planes: of the running task, and of the next one (R347) -/
  face : List W64
  back : List W64
  /-- a soft error has struck the plane at the back -/
  backBad : Bool
  /-- registers, queues, masks and table entries that hold an uncorrectable error: class and index as 256 * class + index, and
  for an address register its stream (R370, R379; assumption log 108) -/
  marked : List (Stream × Nat)
  deriving DecidableEq, Repr

/-! ## Commands and messages on their way (R93, R201, R226, R246, R280, R406) -/

/-- What every engine command and tile move carries (R34, R205, R229). -/
structure Job where
  /-- its name among the agents too -/
  id : Nat
  sh : ShNo
  st : Stream
  ipc : W32
  /-- issuing sequencer's agent, and its epoch at issue -/
  issuer : Nat
  epoch : Nat
  /-- its ordering epoch then (R239) -/
  era : Nat
  /-- the instruction's words -/
  words : List W32
  task : Option (Nat × Nat)
  cc : BitVec 3
  wt : Option Nat
  sg : Option Nat
  aq : Bool
  rl : Bool
  ext : Ext
  /-- what precedes its reads -/
  know : Know
  rev : Bool
  /-- rwin, and the dpr registers of the shuttles it may reach, as they were at acceptance (R193, R257) -/
  win : W32
  dprs : List (ShNo × Vector W64 4)
  started : Bool
  /-- its effect is whole; its completion is still to come -/
  ran : Bool
  /-- it completes without its release -/
  failed : Bool
  /-- flags to set when it completes (R290) -/
  flags : W64
  deriving DecidableEq, Repr

inductive MoveKind where
  | mov | gath | scat | fill | movf
  deriving DecidableEq, Repr

/-- An accepted tile move (R201, R202). -/
structure Move where
  job : Job
  kind : MoveKind
  /-- element size of the transpose, 0 for none -/
  elem : Nat
  /-- the descriptor's address, and its bytes as accepted -/
  da : W64
  desc : List Byte
  /-- arrivals on the barrier that precede its issue (R178) -/
  tag : W32
  /-- rows done -/
  row : Nat
  /-- outstanding (entry, chunk) requests it waits on (R218) -/
  awaits : List (Nat × Nat)
  /-- virtual address of its tape record, and the old destination bytes of that record (R267) -/
  tape : Option Nat
  old : List Byte
  /-- cells whose fills wait for its completion (R240) -/
  fills : List Nat
  /-- its rows are over, and its record is still to be written; with the fault that ended them -/
  ending : Option (Option (BitVec 8 × W64))
  deriving DecidableEq, Repr

/-- Format source of a matrix command: entry index, snapshot address, format codes settled at acceptance (R281). -/
structure MatFmt where
  entry : Nat
  snap : Option W64
  fa : Nat
  fb : Nat
  fo : Nat
  deriving DecidableEq, Repr

/-- A matrix command with the register values read at acceptance (R287, R291 to R299). -/
inductive MatOp where
  | zero (tm : BitVec 4) (anc : Option Int) (entry : Nat)
  | mma (t : Nat) (fmt : MatFmt) (ta tb : Bool) (tri : Nat) (pa pb : W64) (qa qb : Nat) (k m n : Nat)
  | bias (t : Nat) (fmt : MatFmt) (p : W64) (m n : Nat)
  | addt (td ts : Nat) (clear : Bool)
  | out (t : Nat) (fmt : MatFmt) (cap clear tr : Bool) (row0 nr : Nat) (p : W64) (q n : Nat)
  | outRaw (t : Nat) (clear tr : Bool) (row0 nr : Nat) (p : W64) (q n : Nat)
  | loadRaw (t : Nat) (tr : Bool) (row0 nr : Nat) (p : W64) (q n : Nat)
  | nop
  | snap (entry : Nat) (p : W64)
  deriving DecidableEq, Repr

structure MatJob where
  job : Job
  op : MatOp
  /-- the format entry or snapshot as its start read it (R281), and its rows that are done (R285) -/
  src : BitVec 128
  row : Nat
  deriving DecidableEq, Repr

/-- A range command: fn of R226 and the register values. -/
structure RangeJob where
  job : Job
  fn : Nat
  x : W64
  y : W64
  z : W64
  /-- the number of its invalidation once that has started, and the intervals it covers (R220) -/
  inv : Option Nat
  ivs : List (Nat × Nat)
  deriving DecidableEq, Repr

/-- A collective command (R406 to R412): `pos` chunks have been begun, or pieces of its receive extent written. -/
structure Coll where
  job : Job
  panel : BitVec 2
  cm : BitVec 6
  /-- its number on the communicator -/
  j : Nat
  fn : Nat
  size : Nat
  rank : Nat
  k : Nat
  rt : Nat
  entry : Nat
  /-- what its chunks carry; all but FA and FO is settled as it starts -/
  dig : Digest
  send : W64
  recv : W64
  prio : Nat
  chunk : Nat
  pos : Nat
  /-- its own send extent as its chunks read it, and the chunks drained for it since it started -/
  sent : List Byte
  got : List Chunk
  /-- every chunk is sent and every rank's has arrived: what is left is the receive extent, whose bytes these are -/
  result : Option (List Byte)
  /-- the switch attempt is still allowed (R415) -/
  switch : Bool
  deriving DecidableEq, Repr

/-- What becomes of an ordered atomic: its result, with the line's scope and the releases it reads, or the cause that it takes, 0x24
for a repeated key. -/
inductive OrderedResult where
  | value (v : W64) (ext : Ext) (rels : List Carry)
  | refused (cause : BitVec 8)
  deriving DecidableEq, Repr

/-- Where an update goes. -/
inductive Target where
  /-- a scratch cell by place -/
  | cell (place : Nat)
  /-- a global doubleword by virtual address -/
  | global (va : Nat)
  /-- a doubleword of another package -/
  | away (p : BitVec 8) (pa : Nat)
  deriving DecidableEq, Repr

/-- What a bank unit is asked to do (R244, R248, R250). -/
inductive BankOp where
  | atom (op : Nat)
  | contribute (op : Nat)
  deriving DecidableEq, Repr

/-- An update on its way to its bank unit (R246). -/
structure BankMsg where
  id : Nat
  sh : ShNo
  st : Stream
  ipc : W32
  task : Option (Nat × Nat)
  target : Target
  /-- extended address, for eval -/
  ea : W64
  op : BankOp
  val : W64
  acc : Access
  know : Know
  rel : List Carry
  /-- invalidations started before its translation (R220) -/
  born : Nat
  deriving DecidableEq, Repr

/-- A held ordered contribution with its release (R250). -/
structure Held where
  id : Nat
  place : Nat
  op : Nat
  val : W64
  key : W32
  rel : List Carry
  /-- the peer package that asked, with its message's sequence number -/
  remote : Option (BitVec 8 × BitVec 48)
  deriving DecidableEq, Repr

inductive LineKind where
  | none | plain | ordered
  deriving DecidableEq, Repr

/-- Whom a bank unit acts for: the instruction's place, its access and what precedes it (R229). -/
structure Actor where
  sh : ShNo
  st : Stream
  ipc : W32
  acc : Access
  know : Know
  deriving DecidableEq, Repr

/-- A counted line (R247): `line` is its place, `flag` the place of its ready flag; `va` its virtual address when it is
global. -/
structure CLine where
  /-- its name -/
  id : Nat
  panel : BitVec 2
  line : Nat
  va : Option Nat
  n : Nat
  ext : Ext
  flag : Nat
  /-- the declarer's package, when it is another -/
  peer : Option (BitVec 8)
  recv : Nat
  kind : LineKind
  ops : Vector (Option Nat) 8
  held : List Held
  carries : List Carry
  /-- the latest contributor, in whose place the fill is made -/
  by_ : Option Actor
  task : Option Nat
  filled : Bool
  deriving DecidableEq, Repr

/-! ## Tasks and launches (R161 to R173, R331 to R349) -/

/-- A write a task has staged, oldest first (R166). -/
structure StagedWrite where
  va : Nat
  data : List Byte
  panel : BitVec 2
  deriving DecidableEq, Repr

/-- Staged writes and read set (64-byte line numbers) of a task, or of one copy of a DUAL task. -/
structure Stage where
  writes : List StagedWrite
  reads : List Nat
  deriving DecidableEq, Repr

/-- An entry of the write-interval table (R239): bytes `lo` to `hi - 1`, in the panel of its agent. -/
structure Interval where
  lo : Nat
  hi : Nat
  acc : Access
  /-- the issuing sequencer and its epoch -/
  issuer : Nat
  epoch : Nat
  /-- the move it belongs to -/
  job : Option Nat
  deriving DecidableEq, Repr

/-- A barrier of a gang task (R176), with the releases that each phase carries. -/
structure Barrier where
  phase : W32
  arr : Vector Nat 2
  del : Vector Nat 2
  pst : Vector (Option Nat) 2
  made : List W32
  brk : Bool
  carries : Vector (List Carry) 2
  passed : List (W32 × List Carry)
  deriving DecidableEq, Repr

inductive TStat where
  | pending | running | stopping | complete | committed | skipped | discarded
  deriving DecidableEq, Repr

/-- An edge to a successor (R332). -/
structure Edge where
  succ : Nat
  cond : Bool
  pol : Bool
  deriving DecidableEq, Repr

/-- A task of a launch. -/
structure Task where
  tid : Nat
  lid : Nat
  index : Nat
  ts : W64
  queue : Nat
  gang : Bool
  dual : Bool
  ordered : Bool
  share : Nat
  img : Nat
  slv : Nat
  blt : Nat
  /-- producer whose grants it carries, at Sleeve, at Bolt -/
  carry : Option (Nat × Bool × Bool)
  shape0 : Nat
  shape1 : Nat
  cond : Nat
  preds : Nat
  untaken : Bool
  edges : List Edge
  /-- its group slots, as entry numbers (R171) -/
  slots : List Nat
  stat : TStat
  args : Vector W64 4
  /-- physical shuttles by rank, or of its two copies -/
  shuttles : List ShNo
  places : List Nat
  /-- members or copies whose C has completed TEND -/
  ended : List Nat
  sbase : Nat
  bbase : Nat
  stages : Vector Stage 2
  table : List Interval
  committing : Bool
  /-- its commit has begun: its writes are performed (R335, R427) -/
  performed : Bool
  /-- it has performed an action that cannot be staged (R363) -/
  bound : Bool
  bars : Vector Barrier 4
  ckmark : Option W64
  /-- the OR of its status registers, of either copy (R79, R349) -/
  flags : Vector W64 2
  /-- signature mismatches of a DUAL task (R349) -/
  mismatches : Nat
  /-- shuttles its mismatched copies ran on -/
  avoid : List ShNo
  /-- a held commit fault: its cause and eval, and its record (R427) -/
  held : Option (BitVec 8 × W64 × Option Nat)
  /-- range entries its global accesses translated, with VB (R343), and those it has written into (R216) -/
  ranges : List (Nat × BitVec 40)
  wrote : List Nat
  /-- it started speculatively, with its share reserved (R195) -/
  reserved : Bool
  /-- its state is in a checkpoint image (R363) -/
  saved : Bool
  /-- its shape guard has been tested and passed (R343) -/
  guarded : Bool
  deriving DecidableEq, Repr

/-- A group-table entry (R170). -/
structure Group where
  members : List Nat
  oneLoom : Bool
  onePanel : Bool
  bcfg : BitVec 8
  deriving DecidableEq, Repr

/-- A launch from its packet to its report. -/
structure Launch where
  lid : Nat
  queue : Nat
  /-- its packet -/
  pid : Nat
  graph : Nat
  tsbase : W64
  argp : Nat
  gtab : Nat
  groups : List Group
  hash : BitVec 128
  /-- the place map as far as it is fixed (R336) -/
  places : List (Nat × ShNo)
  /-- shuttles out of service when it began (R372) -/
  out : List ShNo
  /-- the card it replays, and its base generations (R342) -/
  card : Option Card
  g0 : List (Nat × BitVec 16)
  /-- the Punch records it: what it has recorded so far -/
  recording : Option (List CardTask)
  /-- in a gang, how many launches of its hash began here before it (R416) -/
  ordinal : Option Nat
  /-- it has counted as a guard failure of its card (R344, R424) -/
  failed : Bool
  /-- no further task of it starts: pre-emption, destruction, KILL or an abort token -/
  stopped : Bool
  /-- the checkpoint image it goes on from; empty for none (R369) -/
  image : List Byte
  deriving DecidableEq, Repr

/-- What goes with a checkpoint image of a bound task and has no layout in it: the engine work, and how the sequencers
stood (assumption log 40). -/
structure SavedWork where
  /-- the task's key, and its name while its launch ran -/
  key : Nat
  tid : Nat
  old : List ShNo
  sbase : Nat
  bbase : Nat
  snaps : List Shuttle
  moves : List Move
  mats : List MatJob
  rangeJobs : List RangeJob
  /-- faults that a saved collective reports meanwhile, by rank -/
  late : List (Nat × AsyncFault)
  ckmark : Option W64
  flags : Vector W64 2
  ended : List Nat
  complete : Bool
  wrote : List Nat
  ranges : List (Nat × BitVec 40)
  deriving DecidableEq, Repr

/-- A staged or carried scratch grant that no task holds now (R337): the producer's index, levels and bases. -/
structure CarriedGrant where
  lid : Nat
  producer : Nat
  sleeve : Bool
  base : Nat
  len : Nat
  units : List Nat
  deriving DecidableEq, Repr

/-! ## Queues, packets and Treadle runs (R304 to R328) -/

/-- A packet of a queue that is dispatched and not reported (R316). Its name is its dispatch number. -/
structure Pkt where
  id : Nat
  /-- virtual address of its header, and its completion counter -/
  va : Nat
  sig : Nat
  /-- CIDX that its report sets -/
  cidx : Option Nat
  status : Option Nat
  /-- IB or LOOP, and it is still dispatching -/
  box : Bool
  isOpen : Bool
  /-- the IBs and LOOPs it stands in -/
  within : List Nat
  /-- TREADLE, and whether its program holds an EMIT word -/
  treadle : Option Bool
  ffence : Bool
  launch : Option Nat
  /-- when a write of its report failed its check at dispatch: whether STATUS and SIG are left out of its report (R318) -/
  omits : Option (Bool × Bool)
  /-- of a FENCE: start, limit code, and the pairs not yet seen at their targets (R319) -/
  fence : Option (Nat × Nat × List (Nat × W64))
  deriving DecidableEq, Repr

/-- A level below the ring: next unit, units left and the IB (R320); or the packets that a Treadle run has emitted (R324). -/
structure IbLevel where
  va : Nat
  left : Nat
  pid : Option Nat
  units : List Packet
  deriving DecidableEq, Repr

/-- The open loop (R322): passes still to begin, body units, its level, its first unit (a ring index at level 0, else a
virtual address), body units still to dispatch in this pass, and the LOOP. -/
structure LoopRun where
  left : Nat
  body : Nat
  level : Nat
  first : Nat
  rest : Nat
  pid : Nat
  deriving DecidableEq, Repr

/-- Where a queue's dispatch stands: ring unit, levels below it (innermost first), loop, and packets still to skip with
their level (R321). -/
structure Cursor where
  pos : Nat
  levels : List IbLevel
  loop : Option LoopRun
  skip : Nat × Nat
  deriving DecidableEq, Repr

/-- A packet read ahead, with its number (R323). -/
structure Ahead where
  num : Nat
  packet : Packet
  deriving DecidableEq, Repr

/-- What the Creel holds of a queue (R305 to R313). -/
structure Queue where
  q : Nat
  /-- its name among those that wait for residency and replies -/
  agent : Nat
  slot : Option Nat
  /-- effective priority when it was mapped -/
  eff : Nat
  widx : Nat
  ridx : Nat
  cidx : Nat
  cur : Cursor
  ahead : List Ahead
  /-- packets dispatched -/
  num : Nat
  pkts : List Pkt
  /-- clock at the change of PEND to 1, and at the end of the latest ageing period since (R312) -/
  pendAt : Nat
  ageAt : Nat
  /-- the instant at which step 3 of R310 marked it for eviction; and marked by a write of SLOTS -/
  marked : Option Nat
  slotGone : Bool
  deriving DecidableEq, Repr

/-- A Treadle run (R324). -/
structure TreadleRun where
  q : Nat
  pid : Nat
  handle : Nat
  words : List W32
  pc : Nat
  regs : Vector W64 16
  budget : Nat
  stores : List (Nat × W64)
  emits : List Packet
  deriving DecidableEq, Repr

/-- A loaded Treadle program, running packets that use it, and whether it is to be freed (R326). -/
structure Handle where
  h : Nat
  words : List W32
  users : Nat
  freed : Bool
  deriving DecidableEq, Repr

/-! ## Range unit, traps and requests -/

/-- An outstanding residency request with those that wait on it (R219). -/
structure ResReq where
  ix : Nat
  ch : Nat
  waiters : List Nat
  deriving DecidableEq, Repr

/-- How far a compaction is (R224, R225): its first invalidation runs; it copies; it copies and the block at its mark is on its
way from another package; its last write is made and its second invalidation runs. -/
inductive PressPhase where
  | opening | copying | fetching | closing
  deriving DecidableEq, Repr

/-- A compaction in progress (R224). -/
structure Press where
  job : Nat
  ix : Nat
  base : Nat
  len : Nat
  mark : Nat
  phase : PressPhase
  deriving DecidableEq, Repr

/-- The four doublewords of a range descriptor (R209). -/
structure Desc where
  d0 : W64
  d1 : W64
  d2 : W64
  d3 : W64
  deriving DecidableEq, Repr

/-- What an access is translated through: the walker alone, or first the lookaside table of a shuttle or of its tile copy
engine (R213). -/
inductive Via where
  | walker
  | shuttle (n : ShNo)
  | engine (n : ShNo)
  deriving DecidableEq, Repr

/-- An entry of a range lookaside table (R213): index, descriptor and chunks found resident, all from one walk, which came
after `born` invalidations had started. -/
structure RltEntry where
  owner : Via
  ix : Nat
  d : Desc
  ones : List Nat
  born : Nat
  deriving DecidableEq, Repr

/-- An invalidation of RIVCTL in progress (R220): its number and its interval, first byte and the byte after the last. -/
structure Riv where
  num : Nat
  lo : Nat
  hi : Nat
  deriving DecidableEq, Repr

/-- A written trap record (R356): the frozen shuttle, or the task whose commit is held. -/
structure TrapRec where
  num : Nat
  shuttle : Option ShNo
  commit : Option Nat
  task : Option Nat
  acted : Bool
  deriving DecidableEq, Repr

inductive ReqKind where
  | preempt | destroy | kill | token
  deriving DecidableEq, Repr

/-- A request that the acknowledgement collector serves (R365). -/
structure Request where
  kind : ReqKind
  queue : Nat
  lid : Option Nat
  deriving DecidableEq, Repr

/-! ## Other packages (R397 to R416) -/

/-- A message of virtual channel 0 that is not acknowledged, with the command or sequencer it serves (R399, R401). -/
structure Sent where
  peer : BitVec 8
  seq : BitVec 48
  link : Nat
  owner : Nat
  pa : Nat
  op : RemoteOp
  /-- extended address of the access -/
  ea : W64
  reply : Option Reply
  /-- of a flag's fill: the contributor in whose place it is made -/
  by_ : Option Actor
  /-- invalidations started before its translation (R220) -/
  born : Nat
  deriving DecidableEq, Repr

/-- A virtual channel to and from a peer: next sequence number to send, the numbers performed here, and of channel 0, for each agent
of the peer, how many messages were performed by its latest one. -/
structure Channel where
  peer : BitVec 8
  vc : BitVec 2
  next : BitVec 48
  performed : List (BitVec 48)
  acts : Clock
  deriving DecidableEq, Repr

/-- A counted line homed in another package that a shuttle here has declared: its flag here, and what its contributions from
this package release (R403). -/
structure AwayLine where
  peer : BitVec 8
  line : Nat
  flag : Nat
  carries : List Carry
  /-- the task that declared it -/
  task : Option Nat
  /-- its flag has been filled -/
  filled : Bool
  deriving DecidableEq, Repr

/-- What a Heddle sends to a rank, or none to a warp switch: a chunk's offset in its block and its bytes, or a fault notice
(R410, R412, R415). -/
structure CollMsg where
  cm : BitVec 6
  j : Nat
  rank : Option Nat
  dig : Digest
  chunk : Option (Nat × List Byte)
  /-- the command has `rel` at `.dm` or `.sy` (R411) -/
  rel : Bool
  deriving DecidableEq, Repr

/-- A communicator at this package (R408, R410). -/
structure Comm where
  cm : BitVec 6
  issued : Nat
  blocked : Bool
  /-- chunks that have arrived and are not used up, by landing slot -/
  landed : List (Nat × Chunk)
  /-- collectives that a fault notice ends before they are issued here -/
  noticed : List Nat
  /-- releases that have come with chunks: collective, rank, and the accesses of its package performed by then (R411) -/
  edges : List (Nat × Nat × Clock)
  deriving DecidableEq, Repr

/-- A stop kept for a launch of a hash, by ordinal (R416). -/
structure Stop where
  hash : BitVec 128
  ordinal : Nat
  deriving DecidableEq, Repr

/-- What a package sends to the other members of its gang (R416). -/
inductive GangMsg where
  | stop (hash : BitVec 128) (ordinal : Nat)
  | token (reason : BitVec 16)
  | lstep (v : W64)
  | card (c : Card)
  deriving DecidableEq, Repr

/-- Contents of a message between packages that is no memory access. -/
inductive Mail where
  | coll (m : CollMsg)
  | gang (m : GangMsg)
  deriving DecidableEq, Repr

/-- Such a message that is not acknowledged, with its link (R401). -/
structure Posted where
  tag : Tag
  link : Nat
  mail : Mail
  deriving DecidableEq, Repr

/-! ## The application cores (R387, R388, R390) -/

/-- An application core as far as the spec describes it: whether it has been started (R395), its mode and its translation (satp),
the identities pending in its supervisor-level and machine-level interrupt files, and what orders its accesses (R388): what it
comes after, the releases its loads have read since its last FENCE r,rw, and a FENCE rw,w before its next store. What it
executes beyond its accesses is the RISC-V base architecture's. -/
structure Hart where
  started : Bool
  mode : HartMode
  satp : W64
  pending : List Nat
  machinePending : List Nat
  after : Clock
  sighted : List Carry
  fenced : Bool
  /-- its latest access fault or page fault: cause and address -/
  fault : Option (Nat × Nat)
  deriving DecidableEq, Repr

/-! ## The package -/

/-- Which agent acts next (assumption log 4). -/
inductive Turn where
  /-- a fabric cycle passes -/
  | tick
  /-- a sequencer fetches ahead at a byte offset of its section (R19) -/
  | fetchAhead (sh : ShNo) (st : Stream) (off : W32)
  /-- the matrix engine does one more row of a command, and the tile copy engine of a move -/
  | matrixRow (sh : ShNo) (id : Nat)
  | moveRow (sh : ShNo) (id : Nat)
  /-- a walker fills an entry of a lookaside table with the translation of a virtual address, or one is dropped (R213) -/
  | rltFill (owner : Via) (va : Nat)
  | rltDrop (owner : Via) (ix : Nat)
  | issue (sh : ShNo) (st : Stream)
  /-- the Creel dispatches the next packet of queue `q` -/
  | creel (q : Nat)
  /-- the Treadle run of queue `q` executes a word -/
  | treadle (q : Nat)
  | event (i : Instr)
  deriving DecidableEq, Repr

/-- The state of the package. -/
structure State where
  agenda : List Turn
  cur : ShNo × Stream
  cycle : Nat
  /-- time gone by, in units of which 72,000 are a microsecond (R312, R387, R396) -/
  clock : Nat
  /-- the present instant of the Creel, and the class of its latest decision point (R310; assumption log 100) -/
  instant : Nat × Nat
  /-- rises with every step that changes more than a wait -/
  stamp : Nat
  /-- free values drawn so far, and the next new agent or record name -/
  drawn : Nat
  nextId : Nat
  sh : Vector Shuttle 256
  /-- every byte of HBM, Pockets, Sleeves and Bolts that is not zero, by place (R16, R188, R191) -/
  mem : List Host.Cell
  /-- places of the full cells (R16) -/
  full : List Nat
  /-- places of the cells that hold an uncorrectable error (R17) -/
  bad : List Nat
  /-- race tags by location (R238) -/
  tags : List (Nat × List Access)
  /-- registers of the device register space without behaviour of their own, by offset; unlisted ones are zero (R386) -/
  dev : List (Nat × W64)
  /-- a health record was dropped since the last one that entered (R352) -/
  hrLost : Bool
  /-- interrupt identities sent, oldest first (R390), and the application cores, harts 0 to 31 -/
  msis : List Nat
  harts : Vector Hart 32
  /-- releases that a synchronising load of the location may read from (R232) -/
  rels : List (Nat × List Carry)
  /-- declared scope of the counted line whose ready-flag fill a cell holds, by the cell's place (R230) -/
  flagExts : List (Nat × Ext)
  moves : List Move
  mats : List MatJob
  rangeJobs : List RangeJob
  colls : List Coll
  msgs : List BankMsg
  lines : List CLine
  /-- results of ordered atomics by contribution (R250) -/
  results : List (Nat × OrderedResult)
  tasks : List Task
  launches : List Launch
  grants : List CarriedGrant
  /-- key of the last committed task: ts, queue and index as one number (R165) -/
  lastKey : Option Nat
  resReqs : List ResReq
  /-- requests entered in RREQ, and those that wait to enter -/
  rreqs : List (Nat × Nat)
  rreqWait : List (Nat × Nat)
  /-- denied requests, by waiter (R218) -/
  denied : List (Nat × Nat × Nat)
  rivBusy : Option Riv
  /-- what the access in progress is translated through, and the lookaside tables, oldest entry first (R213) -/
  via : Via
  rlts : List RltEntry
  /-- invalidations started so far (R220) -/
  invals : Nat
  press : Option Press
  queues : List Queue
  wake : List (Nat × Bool)
  wakeLost : Bool
  runs : List TreadleRun
  /-- the queue whose Treadle run executes a word -/
  curQ : Nat
  handles : List Handle
  /-- address of the image in verification -/
  tload : Option Nat
  /-- class of the latest HINT and the clock until which it stands (R327) -/
  hint : Nat × Nat
  cards : List Card
  /-- CSBASE and CSLEN as they are in effect (R350) -/
  csBase : Nat
  csLen : Nat
  cflush : Bool
  trapRecs : List TrapRec
  /-- trap records of no frozen shuttle that wait to enter the trap ring, as doublewords -/
  heldRecs : List (List W64)
  requests : List Request
  sent : List Sent
  channels : List Channel
  /-- acknowledgements sent, with what they carry -/
  acks : List (Tag × Reply)
  comms : List Comm
  /-- messages to the gang and between Heddles that are not acknowledged -/
  posted : List Posted
  /-- chunks and fault notices sent to other domains, to warp switches and to Heddles of this package -/
  outChunks : List CollMsg
  awayLines : List AwayLine
  /-- what releases at `.dm` or `.sy` have carried from here to other packages (R400) -/
  given : List (BitVec 8 × Clock)
  stops : List Stop
  saves : List SavedWork
  /-- launches of a hash begun here as a member of a gang -/
  ganged : List (BitVec 128 × Nat)
  /-- LSTEP values frozen by a token: this package's, and those that members sent -/
  lstep : Option W64
  lsteps : List (BitVec 8 × W64)
  /-- gang members that left service -/
  gone : List (BitVec 8)
  /-- shuttles and warp links out of service, and every other unit by class and number (R371, R373) -/
  outShuttles : List ShNo
  outLinks : List Nat
  outUnits : List (Nat × Nat)
  /-- report command of the mailbox in progress -/
  report : Option Nat
  /-- firmware's measurement register (R393) -/
  measure : List Byte
  /-- bring-up has stopped at an image that failed its check (R393) -/
  bootStopped : Bool
  /-- completions signalled by commits: the task's key and the OR of its status registers (R167, R382) -/
  signals : List (Nat × W64)
  /-- requests sent to PCIe root complexes, by address (R384, R392) -/
  pcieOut : List (Nat × List Byte)
  /-- frames received by the device transport, and frames sent, by port -/
  transport : List (BitVec 4 × List Byte)
  frames : List (BitVec 4 × List Byte)
  deriving DecidableEq, Repr

/-! ## Reset (R11, R22, R76 to R79, R115, R118, R395) -/

def Know.none : Know := { own := [], learned := [] }

def Level.reset : Level := { k := 0, lim := 0, str := 1, start := 0, fin := 0, fo := false, lo := false }

def LoopUnit.reset : LoopUnit := { levels := Vector.replicate 6 Level.reset, depth := 0 }

def Section.empty : Section := { words := [], bad := [] }

/-- A sequencer at reset. -/
def Seq.reset (status : W64) (run : Run) (agent : Nat) : Seq :=
  { pc := 0, loops := LoopUnit.reset, status := status, run := run, code := Section.empty, stall := none, held := [],
    taken := none, agent := agent, know := Know.none, relFences := [], sighted := [], atAccess := Know.none, era := 0,
    dtb := 0, dtp := 0 }

def XCell.empty : XCell := { c := 0, nan := false, pinf := false, ninf := false }

def TileRow.empty : TileRow := { cells := Vector.replicate 64 XCell.empty, anchor := 0 }

def Tile.empty : Tile := { rows := Vector.replicate 64 TileRow.empty, anchor := 0 }

def Sem.reset : Sem := { count := 0, signals := [], ordered := true, last := none }

def Chan.reset : Chan := { pushed := 0, popped := 0, last := Know.none }

/-- SCA and SCB 1.0, RM RNE, every other field and slot zero (R115). -/
def FmtEntry.reset : FmtEntry := { bits := 0x3F8000003F8000000000010000000000#128, ring := Vector.replicate 12 0 }

/-- Shuttle `n` at reset: C in monitor mode at pc 0 (R22), L, X and S idle (R77). -/
def Shuttle.reset (n : Nat) : Shuttle :=
  { sregs := Vector.replicate 32 0,
    c := Seq.reset 0x8000 .running (4 * n), l := Seq.reset 0 .idle (4 * n + 1),
    x := Seq.reset 0 .idle (4 * n + 2), s := Seq.reset 0 .idle (4 * n + 3),
    monSection := Section.empty, lnk := 0, bor := 0, tvec := 0, fwTvec := 0, epc := 0, ecause := 0, eval := 0, esst := 0,
    mscratch := 0, shp := 0x7001, ftix := 0, gsel := 0, tts := 0, dseg := 0, rwin := 0, sgnt := 0, bgnt := 0,
    dpr := Vector.replicate 4 0, eaux := 0, dbgc := 0, lrpc := 0, xrpc := 0, srpc := 0, sstp := 0, bsw := 0,
    aL := Vector.replicate 16 0, aS := Vector.replicate 16 0, vregs := Vector.replicate 32 0, masks := [],
    qCL := [], qCX := [], qCS := [], qSC := [], qLX := [], qXS := [],
    tLX := [], tXS := [], tSL := [], crLX := [], crXS := [], crSL := [],
    cc := Vector.replicate 8 0, ccDone := Vector.replicate 8 [], sems := Vector.replicate 16 Sem.reset,
    fmt := Vector.replicate 64 FmtEntry.reset, tiles := Vector.replicate 4 Tile.empty,
    pending := [], frozen := false, trap := none, stepWaits := [], progress := 0, ownMonitor := false, task := none,
    chanL := Chan.reset, chanX := Chan.reset, chanS := Chan.reset, marks := [], covered := Know.none, engDone := Vector.replicate 4 [],
    markWait := none, fences := [],
    arrivals := Vector.replicate 4 [], oatoms := [], face := [], back := [], backBad := false, marked := [] }

/-- No core runs before bring-up starts hart 0 (R395); a RISC-V hart starts in machine mode without translation. -/
def Hart.reset : Hart :=
  { started := false, mode := .machine, satp := 0, pending := [], machinePending := [], after := [], sighted := [],
    fenced := false, fault := none }

/-- Device registers whose reset value is not zero: SLOTS, AGEP (R307), and firmware's PCFG, PLIM and OPPT (R389, R396,
assumption log 3). -/
def resetRegs : List (Nat × W64) :=
  [(0x10008, 32), (0x10010, 10), (0x40008, 0xFF3C3C3C3C), (0x40020, 3200), (0x40028, 0xFA00000)]

/-- The package right after reset. -/
def State.reset : State :=
  { agenda := [], cur := (0, .c), cycle := 0, clock := 0, instant := (0, 0), stamp := 0, drawn := 0, nextId := 1024,
    sh := Vector.ofFn fun i => Shuttle.reset i.val,
    mem := [], full := [], bad := [], tags := [], dev := resetRegs, hrLost := false, msis := [], harts := Vector.replicate 32 Hart.reset,
    rels := [], flagExts := [], moves := [], mats := [], rangeJobs := [], colls := [], msgs := [], lines := [], results := [],
    tasks := [], launches := [],
    grants := [], lastKey := none, resReqs := [], rreqs := [], rreqWait := [], denied := [], rivBusy := none, via := .walker,
    rlts := [], invals := 0,
    press := none, queues := [], wake := [], wakeLost := false, runs := [], curQ := 0, handles := [], tload := none, hint := (0, 0),
    cards := [], csBase := 0, csLen := 0, cflush := false, trapRecs := [], heldRecs := [], requests := [], sent := [],
    channels := [], acks := [],
    comms := [], posted := [], outChunks := [], awayLines := [], given := [], stops := [], saves := [], ganged := [], lstep := none, lsteps := [], gone := [], outShuttles := [],
    outLinks := [], outUnits := [], report := none, measure := List.replicate 48 0, bootStopped := false, signals := [], pcieOut := [], transport := [], frames := [] }

end Sys2Proof.Machine
end

