-- ==== Sys2Proof/Machine/Order.lean ====
section
/-! DEFINITION. Ordered-before: clocks, releases and acquires with their extents, and race tags (R229 to R241). -/

namespace Sys2Proof.Machine
open Sys2Proof

/-! ## Clocks -/

/-- How many accesses of `a` a clock holds. -/
def clockGet : Clock → Nat → Nat
  | [], _ => 0
  | (k, n) :: c, a => if k = a then n else clockGet c a

/-- The clock with at least `n` accesses of `a`. -/
def clockRaise (a n : Nat) : Clock → Clock
  | [] => [(a, n)]
  | (k, m) :: c => if a < k then (a, n) :: (k, m) :: c else if a = k then (a, max n m) :: c else (k, m) :: clockRaise a n c

/-- The accesses of both clocks. -/
def clockMeet (c d : Clock) : Clock := c.map fun p => (p.1, min p.2 (clockGet d p.1))

/-- The accesses of either clock. -/
def clockJoin (c d : Clock) : Clock := d.foldl (fun acc p => clockRaise p.1 p.2 acc) c

/-! ## Scopes -/

/-- The shuttles of a loom, and of a panel (R383). -/
def loomShuttles (n : ShNo) : List ShNo := (List.range 8).map fun i => BitVec.ofNat 8 (n.toNat / 8 * 8 + i)
def panelShuttles (n : ShNo) : List ShNo := (List.range 64).map fun i => BitVec.ofNat 8 (n.toNat / 64 * 64 + i)

/-- Order of the scopes beyond a set of shuttles. -/
def extRank : Ext → Nat
  | .sq _ => 0 | .set _ => 1 | .pk => 2 | .io => 3 | .dm => 4 | .sy => 5

/-- The first scope's set of agents includes the second's (R231). -/
def extCovers (a b : Ext) : Bool :=
  match a, b with
  | .sq x, .sq y => decide (x = y)
  | .set l, .set m => m.all l.contains
  | .set _, .sq _ => false
  | .sq _, .set _ => false
  | _, _ => decide (extRank b ≤ extRank a)

/-- The name under which an agent of another package acts here. -/
def remoteAgent (p : BitVec 8) (a : Nat) : Nat := 2 ^ 64 + 256 * a + p.toNat

/-- Agent `a` of shuttle `home` lies in the scope. The application cores, from 2^63 on, lie in `.io` and beyond (R388), and those
of other packages, from 2^64 on, only in `.dm` and `.sy` (R400). -/
def extHas (e : Ext) (a : Nat) (home : ShNo) : Bool :=
  match e with
  | .sq x => decide (x = a)
  | .set l => decide (a < 2 ^ 63) && l.contains home
  | .pk => decide (a < 2 ^ 63)
  | .io => decide (a < 2 ^ 64)
  | .dm | .sy => true

/-! ## What an agent knows -/

/-- The access is ordered before the point that `k` describes (R234). -/
def knows (k : Know) (agent epoch : Nat) : Bool :=
  decide (epoch ≤ clockGet k.own agent) || k.learned.any fun l => decide (epoch ≤ clockGet l.clk agent)

/-- One more edge learned; edges of equal extents are kept as one. -/
def learn (e : Learned) : List Learned → List Learned
  | [] => [e]
  | l :: ls => if l.rel = e.rel ∧ l.acq = e.acq then { l with clk := clockJoin l.clk e.clk } :: ls else l :: learn e ls

/-- Both points precede: stream order (R85). -/
def knowJoin (k j : Know) : Know :=
  { own := clockJoin k.own j.own, learned := j.learned.foldl (fun acc e => learn e acc) k.learned }

/-- The carry set of a release of extent `e` (R233). -/
def carryClock (k : Know) (e : Ext) : Clock :=
  k.learned.foldl (fun acc l => if extCovers l.rel e || extCovers l.acq e then clockJoin acc l.clk else acc) k.own

/-- A release at extent `e`. -/
def releaseOf (agent : Nat) (home : ShNo) (k : Know) (e : Ext) : Carry :=
  { agent := agent, home := home, ext := e, clk := carryClock k e }

/-- An acquire at extent `e` that reads from release `r`: an edge when each lies in the other's scope (R232). -/
def acquireInto (agent : Nat) (home : ShNo) (e : Ext) (r : Carry) (k : Know) : Know :=
  if extHas r.ext agent home && extHas e r.agent r.home then
    { k with learned := learn { rel := r.ext, acq := e, clk := r.clk } k.learned }
  else k

/-! ## Races -/

def isSync : AccKind → Bool
  | .plain => false
  | .capture => false
  | _ => true

/-- A contribution to a shadow cell or a barrier: no operation of R244. -/
def contributes : AccKind := .contribution 16

/-- The exemptions of R236, with those of R175 taken back. Commuting updates of one operation are exempt at every scope, and
those of different operations at none; contributions to one line are all exempt. -/
def exempt (a b : Access) : Bool :=
  match a.kind, b.kind with
  | .capture, .capture => true
  | .contribution _, .contribution _ => true
  | .fill, .fill => false
  | .consume, .consume => false
  | .update x, .update y => decide (x = y)
  | .update x, .contribution y => decide (x = y)
  | .contribution x, .update y => decide (x = y)
  | x, y => isSync x && isSync y && extHas a.ext b.agent b.home && extHas b.ext a.agent a.home

/-- Two accesses to one location conflict (R236). -/
def conflicts (a b : Access) : Bool := decide (a.agent ≠ b.agent) && (a.write || b.write) && !exempt a b

/-- The access races with one that the tag records. -/
def racesWith (k : Know) (a : Access) (old : List Access) : Bool :=
  old.any fun o => conflicts a o && !knows k o.agent o.epoch

/-- The tag after the access. An earlier access of the same agent is dropped where whatever races with it also races with this
one; every other access stays on record, so that no race is missed (R237, R238). -/
def tagAfter (a : Access) (old : List Access) : List Access :=
  a :: old.filter fun o => !(decide (o.agent = a.agent ∧ o.kind = a.kind ∧ o.ext = a.ext) && (a.write || !o.write))

/-! ## Locations -/

/-- Places of memory: HBM at its physical address, scratch levels above it. -/
def pocketPlace (n : ShNo) (b : Nat) : Nat := 2 ^ 60 + n.toNat * 2 ^ 20 + b
def sleevePlace (loom b : Nat) : Nat := 2 ^ 61 + loom * 2 ^ 22 + b
def boltPlace (panel b : Nat) : Nat := 2 ^ 62 + panel * 2 ^ 27 + b

/-- The tag of a scratch cell is kept at the place of its first byte. -/
def cellOf (place : Nat) : Nat := place / 8 * 8

/-- Tags of a format entry, a ring slot, a semaphore, a barrier, a vector register and a tile row of a shuttle. -/
def fmtLoc (n : ShNo) (x : Nat) : Nat := 2 ^ 64 + n.toNat * 2 ^ 16 + 16 * x + 15
def ringLoc (n : ShNo) (x y : Nat) : Nat := 2 ^ 64 + n.toNat * 2 ^ 16 + 16 * x + y
def semLoc (n : ShNo) (i : Nat) : Nat := 2 ^ 65 + n.toNat * 2 ^ 16 + i
def barLoc (n : ShNo) (b : Nat) : Nat := 2 ^ 66 + n.toNat * 2 ^ 16 + b
def vregLoc (n : ShNo) (r : Nat) : Nat := 2 ^ 67 + n.toNat * 2 ^ 16 + r
def tileLoc (n : ShNo) (t r : Nat) : Nat := 2 ^ 68 + n.toNat * 2 ^ 16 + 64 * t + r

/-- The accesses a tag records. -/
def tagOf (tags : List (Nat × List Access)) (loc : Nat) : List Access := (assocGet tags loc).getD []

/-- The tags after an access to each of the locations. -/
def tagAll (a : Access) (locs : List Nat) (tags : List (Nat × List Access)) : List (Nat × List Access) :=
  locs.foldl (fun t l => assocSet l (tagAfter a (tagOf t l)) t) tags

/-- The access is made at the locations: their tags record it, and a plain write leaves no release to read there (R232,
R238). -/
def State.note (s : State) (a : Access) (locs : List Nat) : State :=
  { s with
    tags := tagAll a locs s.tags,
    rels := if a.write && decide (a.kind = .plain) then s.rels.filter fun r => !locs.contains r.1 else s.rels }

/-- The first of the locations at which the access races. -/
def findRace (k : Know) (a : Access) (tags : List (Nat × List Access)) : List Nat → Option Nat
  | [] => none
  | l :: ls => if racesWith k a (tagOf tags l) then some l else findRace k a tags ls

end Sys2Proof.Machine
end

