-- ==== Sys2Proof/Machine/Ops.lean ====
section
/-! DEFINITION. Operations that many meanings share: reading and writing the machine by name, waiting, completing an
instruction, and taking a trap (R19, R24, R52, R81 to R84, R351 to R361). -/

namespace Sys2Proof.Machine
open Sys2Proof

/-- The outcome of every step. -/
abbrev Result := Host.Outcome State Fault Refusal

/-! ## Shuttles and sequencers -/

def State.shuttle (s : State) (n : ShNo) : Shuttle := s.sh[n.toNat]'n.isLt

def State.setShuttle (s : State) (n : ShNo) (x : Shuttle) : State := { s with sh := s.sh.set n.toNat x n.isLt }

def State.modShuttle (s : State) (n : ShNo) (f : Shuttle → Shuttle) : State := s.setShuttle n (f (s.shuttle n))

def Shuttle.seq (x : Shuttle) : Stream → Seq
  | .c => x.c | .l => x.l | .x => x.x | .s => x.s

def Shuttle.setSeq (x : Shuttle) (st : Stream) (q : Seq) : Shuttle :=
  match st with
  | .c => { x with c := q } | .l => { x with l := q } | .x => { x with x := q } | .s => { x with s := q }

def State.modSeq (s : State) (n : ShNo) (st : Stream) (f : Seq → Seq) : State :=
  s.modShuttle n fun x => x.setSeq st (f (x.seq st))

/-- The shuttle, the stream and the sequencer whose turn it is. -/
def State.here (s : State) : ShNo := s.cur.1
def State.me (s : State) : Shuttle := s.shuttle s.here
def State.stream (s : State) : Stream := s.cur.2
def State.mySeq (s : State) : Seq := s.me.seq s.stream
def State.modMe (s : State) (f : Shuttle → Shuttle) : State := s.modShuttle s.here f
def State.modMySeq (s : State) (f : Seq → Seq) : State := s.modSeq s.here s.stream f
def State.pc (s : State) : W32 := s.mySeq.pc

/-- sst.MON (R13). -/
def Shuttle.mon (x : Shuttle) : Bool := x.c.status.getLsbD 15

/-- The issuing sequencer is in task mode; L, X and S have no monitor mode (R77). -/
def State.taskMode (s : State) : Bool := !(decide (s.stream = .c) && s.me.mon)

/-- C's status with MON set to `b`. -/
def setMon (b : Bool) (w : W64) : W64 := if b then w ||| 0x8000#64 else w &&& ~~~0x8000#64

/-- Where C fetches (R163): in monitor mode from the monitor section unless the task's image has a monitor entry; in task
mode from the task's `.ctl`, or the monitor section while no task runs. -/
def Shuttle.cSection (x : Shuttle) (ownMonitor : Bool) : Section :=
  if x.task.isNone then x.monSection else if x.mon && !ownMonitor then x.monSection else x.c.code

/-! ## State that holds an uncorrectable error (R370, R379) -/

/-- Class and index of R379: 0 s, 1 a, 2 v, 3 queue, 4 mask stack, 5 format table. -/
def damage (cls ix : Nat) : Nat := 256 * cls + ix

/-- What a mark is kept under: an address register belongs to its stream. -/
def markOf (st : Stream) (code : Nat) : Stream × Nat := (if code / 256 = 1 then st else .c, code)

/-- A write mends what it overwrites. -/
def Shuttle.mend (x : Shuttle) (st : Stream) (code : Nat) : Shuttle :=
  { x with marked := x.marked.filter fun m => decide (m ≠ markOf st code) }

/-- The first of the codes that is marked. -/
def Shuttle.damaged (x : Shuttle) (st : Stream) (codes : List Nat) : Option Nat :=
  codes.find? fun c => x.marked.contains (markOf st c)

/-! ## Scalar registers, address registers and vector registers -/

/-- s[r]; s0 reads as zero (R11). -/
def State.sreg (s : State) (r : RegNo) : W64 := if r = 0 then 0 else s.me.sregs[r.toNat]'r.isLt

/-- s[r] := v; a write to s0 is discarded (R52). -/
def State.setSreg (s : State) (r : RegNo) (v : W64) : State :=
  if r = 0 then s else s.modMe fun x => { x.mend .c (damage 0 r.toNat) with sregs := x.sregs.set r.toNat v r.isLt }

/-- a[r] of the issuing L or S; numbers 16 to 31 do not decode. -/
def State.areg (s : State) (r : RegNo) : W64 :=
  let f := if s.stream = .l then s.me.aL else s.me.aS
  if h : r.toNat < 16 then f[r.toNat]'h else 0

def State.setAreg (s : State) (r : RegNo) (v : W64) : State :=
  if h : r.toNat < 16 then
    s.modMe fun x =>
      let y := x.mend s.stream (damage 1 r.toNat)
      if s.stream = .l then { y with aL := x.aL.set r.toNat v h } else { y with aS := x.aS.set r.toNat v h }
  else s

def Shuttle.vreg (x : Shuttle) (r : RegNo) : VReg := x.vregs[r.toNat]'r.isLt
def State.vreg (s : State) (r : RegNo) : VReg := s.me.vreg r
def State.setVreg (s : State) (r : RegNo) (v : VReg) : State :=
  s.modMe fun x => { x.mend .c (damage 2 r.toNat) with vregs := x.vregs.set r.toNat v r.isLt }

/-- Sets sticky bits in the status of a sequencer (R13, R78, R109). -/
def State.orStatus (s : State) (n : ShNo) (st : Stream) (bits : W64) : State :=
  s.modSeq n st fun q => { q with status := q.status ||| bits }

/-- WARN, bit 8 of a status register. -/
def warnBit : W64 := 0x100
/-- IDZ, bit 7. -/
def idzBit : W64 := 0x80

def State.warn (s : State) : State := s.orStatus s.here s.stream warnBit

/-- WARN when a fallback or a discarded write asks for it (R12, R41). -/
def State.warnIf (s : State) (b : Bool) : State := if b then s.warn else s

/-! ## Device registers -/

/-- The value of a register of the device register space (R386). -/
def State.devReg (s : State) (off : Nat) : W64 := (assocGet s.dev off).getD 0

def State.setDevReg (s : State) (off : Nat) (v : W64) : State := { s with dev := assocSet off v s.dev }

/-! ## Progress -/

/-- Something happened in shuttle `n`: waits there are worth trying again. -/
def State.bump (s : State) (n : ShNo) : State :=
  { s.modShuttle n (fun x => { x with progress := x.progress + 1 }) with stamp := s.stamp + 1 }

/-! ## Counters of tokens and credits (R82) -/

/-- T(up, me), the tokens the stream pops, and T(me, dn), those it pushes. -/
def Shuttle.tokIn (x : Shuttle) : Stream → List Know
  | .c => [] | .l => x.tSL | .x => x.tLX | .s => x.tXS
def Shuttle.tokOut (x : Shuttle) : Stream → List Know
  | .c => [] | .l => x.tLX | .x => x.tXS | .s => x.tSL
/-- Cr(me, dn), the credits the stream pops, and Cr(up, me), those it returns. -/
def Shuttle.crIn (x : Shuttle) : Stream → List Know
  | .c => [] | .l => x.crLX | .x => x.crXS | .s => x.crSL
def Shuttle.crOut (x : Shuttle) : Stream → List Know
  | .c => [] | .l => x.crSL | .x => x.crLX | .s => x.crXS

def Shuttle.setTokIn (x : Shuttle) (st : Stream) (v : List Know) : Shuttle :=
  match st with
  | .c => x | .l => { x with tSL := v } | .x => { x with tLX := v } | .s => { x with tXS := v }
def Shuttle.setTokOut (x : Shuttle) (st : Stream) (v : List Know) : Shuttle :=
  match st with
  | .c => x | .l => { x with tLX := v } | .x => { x with tXS := v } | .s => { x with tSL := v }
def Shuttle.setCrIn (x : Shuttle) (st : Stream) (v : List Know) : Shuttle :=
  match st with
  | .c => x | .l => { x with crLX := v } | .x => { x with crXS := v } | .s => { x with crSL := v }
def Shuttle.setCrOut (x : Shuttle) (st : Stream) (v : List Know) : Shuttle :=
  match st with
  | .c => x | .l => { x with crSL := v } | .x => { x with crLX := v } | .s => { x with crXS := v }

/-! ## Stopping and resuming the streams of a shuttle (R353, R354) -/

/-- An abandoned wait has no effect (R354). -/
def Seq.abandon (q : Seq) : Seq := { q with stall := none, held := [], taken := none }

/-- The token and the credit that a waiting QDROP of the stream had popped are returned to their counters (R84, R99). -/
def Shuttle.returnTokens (x : Shuttle) (st : Stream) : Shuttle :=
  match (x.seq st).taken with
  | none => x
  | some t => let y := x.setTokIn st (t.1 ++ x.tokIn st); y.setCrIn st (t.2 ++ y.crIn st)

/-- What the waiting QDROPs of L, X and S had popped is returned: entries to the heads of their queues, tokens and credits
to their counters. -/
def Shuttle.returnPops (x : Shuttle) : Shuttle :=
  (([Stream.l, .x, .s].foldl Shuttle.returnTokens x) : Shuttle) |> fun y =>
    { y with qCL := x.l.held ++ x.qCL, qCX := x.x.held ++ x.qCX, qCS := x.s.held ++ x.qCS }

/-- Every running stream of L, X and S stops at its pc, which its rpc keeps. -/
def Shuttle.freezeStreams (x : Shuttle) : Shuttle :=
  let bit (q : Seq) (i : Nat) : BitVec 3 := if q.run = .running then BitVec.ofNat 3 (2 ^ i) else 0
  { x.returnPops with
    sstp := x.sstp ||| bit x.l 0 ||| bit x.x 1 ||| bit x.s 2,
    lrpc := if x.l.run = .running ∧ !x.sstp.getLsbD 0 then x.l.pc else x.lrpc,
    xrpc := if x.x.run = .running ∧ !x.sstp.getLsbD 1 then x.x.pc else x.xrpc,
    srpc := if x.s.run = .running ∧ !x.sstp.getLsbD 2 then x.s.pc else x.srpc,
    markWait := none, c := x.c.abandon, l := x.l.abandon, x := x.x.abandon, s := x.s.abandon }

/-- The stream is stopped by a freeze. -/
def Shuttle.stopped (x : Shuttle) : Stream → Bool
  | .c => false
  | .l => x.sstp.getLsbD 0
  | .x => x.sstp.getLsbD 1
  | .s => x.sstp.getLsbD 2

/-- Stopped streams resume from their rpc: C comes to an instruction in task mode (R354). -/
def Shuttle.resumeStreams (x : Shuttle) : Shuttle :=
  if x.sstp = 0 then x else
  let go (q : Seq) (i : Nat) (rpc : W32) : Seq := if x.sstp.getLsbD i then { q with pc := rpc &&& ~~~3#32 } else q
  { x with l := go x.l 0 x.lrpc, x := go x.x 1 x.xrpc, s := go x.s 2 x.srpc, sstp := 0 }

/-! ## Traps (R24, R351 to R358) -/

/-- STR and ENG codes of eaux (R353). -/
def strCode : Stream → Nat
  | .c => 0 | .l => 1 | .x => 2 | .s => 3

def eauxOf (async : Bool) (str : Stream) (eng : Nat) (ipc : W32) : W64 :=
  BitVec.ofNat 64 ((if async then 2 ^ 63 else 0) + strCode str * 2 ^ 60 + eng * 2 ^ 56 + ipc.toNat)

/-- Base of the trap unit in the device register space (R386). -/
def trapUnit : Nat := 0x20000

/-- The handler of a trap (R351). -/
inductive Route where
  | monitor | cores | firmware
  deriving DecidableEq, Repr

/-- The route of a cause: fixed for 0x2D, 0x30 and 0x31, else its field of TROUTE0 to TROUTE3 (R352, R379). -/
def State.route (s : State) (cause : BitVec 8) : Route :=
  if cause = 0x2D ∨ cause = 0x30 then .cores
  else if cause = 0x31 then .firmware
  else
    let r := s.devReg (trapUnit + 8 * (cause.toNat / 32))
    if (r >>> (2 * (cause.toNat % 32))).setWidth 2 = 0#2 then .monitor else .cores

/-- Trap entry in C: the registers of R24 and eaux, then the handler's address. -/
def Shuttle.enterTrap (x : Shuttle) (cause : BitVec 8) (eval eaux : W64) (epc : W32) : Shuttle :=
  { x with
    epc := epc, ecause := cause.setWidth 64, eval := eval, esst := if x.mon then 1 else 0, eaux := eaux,
    c := { x.c with status := setMon true x.c.status, pc := x.tvec &&& ~~~3#32, stall := none, run := .running } }

/-- A trap taken on shuttle `n`: the streams stop; a trap of C in monitor mode halts C; else the monitor is entered or the
trap is held for the handler beyond it, with the shuttle frozen. `epc` is C's resume address. -/
def State.deliverTrap (s : State) (n : ShNo) (cause : BitVec 8) (eval eaux : W64) (epc : W32) : State :=
  let x := (s.shuttle n).freezeStreams
  let hold (halt : Bool) (x : Shuttle) : Shuttle :=
    { x with frozen := true,
             trap := some { cause := cause, eval := eval, eaux := eaux, epc := epc, halt := halt,
                            fw := decide (s.route cause = .firmware), record := none } }
  let y :=
    if x.mon then hold true { x with c := { x.c with run := .halted } }
    else match s.route cause with
      | .monitor => x.enterTrap cause eval eaux epc
      | _ => hold false x
  (s.setShuttle n y).bump n

/-- A precise trap of a sequencer: no effect of its instruction, which stands at its pc (R24, R355). -/
def State.takeTrap (s : State) (n : ShNo) (st : Stream) (cause : BitVec 8) (eval : W64) : State :=
  s.deliverTrap n cause eval (eauxOf false st 0 ((s.shuttle n).seq st).pc) (s.shuttle n).c.pc

/-- The next free value (assumption log 5). -/
def State.draw (s : State) : W64 × State := (Config.freeValue s.drawn, { s with drawn := s.drawn + 1 })

/-- The issuing instruction traps. -/
def trap (s : State) (cause : BitVec 8) (eval : W64) : Result := .next (s.takeTrap s.here s.stream cause eval)

/-- Shuttle `n`, which ran in task mode, has taken a trap other than a step trap. -/
def State.trapped (t : State) (n : ShNo) : Bool :=
  let y := t.shuttle n
  (y.mon && decide (y.ecause ≠ 0x2F)) ||
    match y.trap with
    | some h => y.frozen && decide (h.cause ≠ 0x2F)
    | none => false

/-- The word at the issuing sequencer's pc. -/
def State.curWord (s : State) : W32 :=
  let sec := if s.stream = .c then s.me.cSection s.me.ownMonitor else s.mySeq.code
  sec.words.getD (s.pc.toNat / 4) 0

/-- The issuing instruction traps with its word in eval (R21, R23). -/
def trapWord (s : State) (cause : BitVec 8) : Result := trap s cause (s.curWord.setWidth 64)

/-! ## Waiting (R81, R182) -/

/-- The instruction does not issue yet. The count of a limited wait runs from the first try that its own condition held back, not
from a wait for tokens or for the oldest task before it (assumption log 90). C has reached its instruction
in task mode, which lets stopped streams go on (R96, R354). -/
def State.stallSeq (s : State) (kind : StallKind) (limit : Nat) : State :=
  let prog := s.me.progress
  let stamp := s.stamp
  let now := s.cycle
  let s1 := s.modMySeq fun q =>
    let since := match q.stall with
      | some t => if t.limit = limit then t.since else now
      | none => now
    { q with stall := some { kind := kind, since := since, limit := limit, seen := prog, stamp := stamp } }
  if s.stream = .c ∧ s.taskMode then s1.modMe Shuttle.resumeStreams else s1

/-- Fabric cycles of a limit code (R182). -/
def limitCycles (c : Nat) : Nat := 2 ^ (2 * c + 6)

/-- The count of a wait with this limit has reached it (R182). -/
def Stall.over (w : Stall) (limit cycle : Nat) : Bool :=
  decide (limit ≠ 0 ∧ w.limit = limit ∧ w.since + limitCycles limit ≤ cycle)

/-- The issuing instruction has waited for as long as its limit allows. -/
def State.limitOver (s : State) (limit : Nat) : Bool :=
  match s.mySeq.stall with
  | some w => w.over limit s.cycle
  | none => false

/-- The condition is false: the instruction waits, or takes the wait-limit trap when its count has reached the limit
(R182). -/
def wait (s : State) (kind : StallKind) (limit : Nat := 0) : Result :=
  if s.limitOver limit then trapWord s 0x14 else .next (s.stallSeq kind limit)

/-! ## Completing an instruction (R19, R26, R354, R360, R361) -/

/-- The stepping bit of a stream in dbgc. -/
def stepBit : Stream → Nat
  | .c => 0 | .l => 1 | .x => 2 | .s => 3

/-- After the effect `s1` of the instruction that stood at `s0`'s pc: its wait ends; C in task mode lets stopped streams go
on; a stepped instruction takes the step trap, or waits for its command when DRAIN is set. -/
def finishWith (s0 s1 : State) (cmd : Option Nat) : State :=
  let n := s0.here
  let st := s0.stream
  let s2 := s1.modShuttle n fun x =>
    let q := x.seq st
    let x := x.setSeq st { q with stall := none, held := [], taken := none, era := if cmd.isNone then q.era + 1 else q.era }
    if st = .c ∧ s0.taskMode then x.resumeStreams else x
  let s3 := s2.bump n
  if s0.taskMode && (s0.me.dbgc.getLsbD (stepBit st)) then
    match cmd with
    | some id =>
      if s0.me.dbgc.getLsbD 4 then
        s3.modShuttle n fun x => { x with stepWaits := x.stepWaits ++ [{ str := st, ipc := s0.pc, cmd := id, due := false }] }
      else s3.deliverTrap n 0x2F 0 (eauxOf false st 0 s0.pc) (s3.shuttle n).c.pc
    | none => s3.deliverTrap n 0x2F 0 (eauxOf false st 0 s0.pc) (s3.shuttle n).c.pc
  else s3

/-- pc of the issuing sequencer := t. -/
def State.setPc (s : State) (t : W32) : State := s.modMySeq fun q => { q with pc := t }

/-- The one-word instruction at `s0`'s pc completes with effect `s1`: pc advances by 4 (R26). -/
def retire (s0 s1 : State) : Result := .next (finishWith s0 (s1.setPc (s0.pc + 4)) none)

/-- A command of `n` step words completes its issue. -/
def retireCommand (s0 s1 : State) (steps : Nat) (id : Nat) : Result :=
  .next (finishWith s0 (s1.setPc (s0.pc + 4 * (1 + BitVec.ofNat 32 steps))) (some id))

/-- A transfer to `t` completes (R68). -/
def retireTo (s0 s1 : State) (t : W32) : Result := .next (finishWith s0 (s1.setPc t) none)

/-! ## What an instruction of a sequencer comes to -/

/-- What a sequencer's instruction comes to at its turn. -/
inductive Eff where
  /-- completes with this state; pc goes on by 4 -/
  | done (s : State)
  /-- completes; pc goes to `t` -/
  | doneTo (s : State) (t : W32)
  /-- an engine command or tile move is accepted: its step words and its name -/
  | command (s : State) (steps : Nat) (id : Nat)
  /-- traps with no effect -/
  | trap (cause : BitVec 8) (eval : W64)
  /-- traps with no effect, the instruction word in eval -/
  | trapWord (cause : BitVec 8)
  /-- traps; `part`, which has retired (R14) or lies outside the instruction, is done to the state before it -/
  | trapAfter (part : State → State) (cause : BitVec 8) (eval : W64)
  /-- does not issue yet -/
  | wait (kind : StallKind) (limit : Nat)
  /-- waits; `part` is done to the state before the instruction: what has retired of it, or a request that it waits on -/
  | waitAfter (part : State → State) (kind : StallKind) (limit : Nat)

/-- Effects joined in order. -/
def Eff.andThen (e : Eff) (f : State → Eff) : Eff :=
  match e with
  | .done s => f s
  | e => e

/-- The instruction reads what the codes name, or takes the trap of the first that holds an uncorrectable error (R370). -/
def unlessDamaged (s : State) (codes : List Nat) (e : Eff) : Eff :=
  match s.me.damaged s.stream codes with
  | some c => .trap 0x32 (BitVec.ofNat 64 c)
  | none => e

/-! ## Token conditions, pops and pushes (R83) -/

/-- Every token condition of the word holds (R83). An instruction's effects are whole at its step, so nothing stays
reserved between steps. -/
def Shuttle.tokensReady (x : Shuttle) (st : Stream) (k : BitVec 4) : Bool :=
  (!k.getLsbD 3 || !(x.tokIn st).isEmpty) && (!k.getLsbD 1 || !(x.crIn st).isEmpty) &&
  (!k.getLsbD 2 || decide ((x.tokOut st).length < 15)) && (!k.getLsbD 0 || decide ((x.crOut st).length < 15))

/-- What is learned by a pop of stream order (R85). -/
def Seq.learnOrder (q : Seq) (k : Know) : Seq := { q with know := knowJoin q.know k }

/-- The token and the credit the word asks for, which its issue pops. -/
def Shuttle.tokensFor (x : Shuttle) (st : Stream) (k : BitVec 4) : List Know × List Know :=
  (if k.getLsbD 3 then (x.tokIn st).take 1 else [], if k.getLsbD 1 then (x.crIn st).take 1 else [])

/-- Takes a token and a credit off their counters. -/
def Shuttle.takeTokens (x : Shuttle) (st : Stream) (k : BitVec 4) : Shuttle :=
  let y := if k.getLsbD 3 then x.setTokIn st (x.tokIn st).tail else x
  if k.getLsbD 1 then y.setCrIn st (y.crIn st).tail else y

/-- What popped tokens and credits order comes before what the stream does next. -/
def Shuttle.learnTokens (x : Shuttle) (st : Stream) (t : List Know × List Know) : Shuttle :=
  x.setSeq st ((t.1 ++ t.2).foldl Seq.learnOrder (x.seq st))

/-- A new ordering epoch of the stream when the word pops or pushes a token or a credit (R239). -/
def Shuttle.newEra (x : Shuttle) (st : Stream) (k : BitVec 4) : Shuttle :=
  if k = 0 then x else x.setSeq st { x.seq st with era := (x.seq st).era + 1 }

/-- Pops the token and the credit the word asks for. -/
def Shuttle.popTokens (x : Shuttle) (st : Stream) (k : BitVec 4) : Shuttle :=
  (((x.takeTokens st k).learnTokens st (x.tokensFor st k)) : Shuttle).newEra st (k &&& 10)

/-- Pushes the token and returns the credit the word asks for. -/
def Shuttle.pushTokens (x : Shuttle) (st : Stream) (k : BitVec 4) : Shuttle :=
  let kn := (x.seq st).know
  let x1 := if k.getLsbD 2 then x.setTokOut st (x.tokOut st ++ [kn]) else x
  (if k.getLsbD 0 then x1.setCrOut st (x1.crOut st ++ [kn]) else x1).newEra st (k &&& 5)

/-- The outcome of an instruction of the current sequencer that comes to `e`, `s` being the state before it and `k` its
token bits: pops and pushes stand only when it completes (R84). -/
def Eff.run (s : State) (k : BitVec 4) (e : Eff) : Result :=
  match e with
  | .done s1 => retire s (s1.modMe (Shuttle.pushTokens · s.stream k))
  | .doneTo s1 t => retireTo s (s1.modMe (Shuttle.pushTokens · s.stream k)) t
  | .command s1 n id => retireCommand s (s1.modMe (Shuttle.pushTokens · s.stream k)) n id
  | .trap c v => Machine.trap s c v
  | .trapWord c => Machine.trapWord s c
  | .trapAfter f c v => Machine.trap (f s) c v
  | .wait kd l => Machine.wait s kd l
  | .waitAfter f kd l => Machine.wait (f s) kd l

/-- An instruction of the control stream: no token bits. -/
def runC (s : State) (e : Eff) : Result := e.run s 0

/-- An instruction of L, X or S: it issues when its token conditions hold, and its accesses follow its pops (R83, R85). A
QDROP that has issued and waits for entries has made its pops (R99). -/
def runT (s : State) (k : BitVec 4) (body : State → Eff) : Result :=
  if s.stream = .c then (body s).run s 0
  else
    match s.mySeq.taken with
    | some t => (body (s.modMe (Shuttle.learnTokens · s.stream t))).run s k
    | none =>
      if s.me.tokensReady s.stream k then (body (s.modMe (Shuttle.popTokens · s.stream k))).run s k
      else wait s .stream

/-! ## Interrupts and health records (R352, R373, R390) -/

/-- An MSI: bits 10:0 of the identity become pending in the supervisor-level file of the core that bits 15:11 name; none is sent
where they are 0 (R390). -/
def State.sendMsi (s : State) (ident : Nat) : State :=
  if ident % 2 ^ 11 = 0 then s
  else
    { s with
      msis := s.msis ++ [ident],
      harts :=
        let h : Fin 32 := ⟨ident / 2 ^ 11 % 32, Nat.mod_lt _ (by decide)⟩
        s.harts.set h.val { s.harts[h.val] with pending := insertNat (ident % 2 ^ 11) s.harts[h.val].pending } }

/-- LOG2N of a ring's configuration: 4 to 16, other values read as 4. -/
def ringLog (cfg : W64) : Nat := let n := (cfg.setWidth 5).toNat; if 4 ≤ n ∧ n ≤ 16 then n else 4

/-- A byte string stored in HBM by an agent of the yoke. -/
def State.storeHbm (s : State) (pa : Nat) (bs : List Byte) : State := { s with mem := memStore s.mem pa bs }

/-- A health record enters the health ring, or is dropped when the ring is full. -/
def State.healthRecord (s : State) (cls unit kind count : Nat) (detail : W64) : State :=
  let cfg := s.devReg (trapUnit + 0x50)
  let w := (s.devReg (trapUnit + 0x58)).toNat
  let r := (s.devReg (trapUnit + 0x60)).toNat
  let n := 2 ^ ringLog cfg
  if n ≤ (w + 2 ^ 64 - r) % 2 ^ 64 then { s with hrLost := true }
  else
    let base := (s.devReg (trapUnit + 0x48)).toNat % 2 ^ 56 / 2 ^ 12 * 2 ^ 12
    let d0 := cls % 256 + unit % 2 ^ 24 * 2 ^ 8 + kind % 256 * 2 ^ 32 + (if s.hrLost then 2 ^ 47 else 0) + count % 2 ^ 16 * 2 ^ 48
    let s1 := s.storeHbm (base + 16 * (w % n)) (leBytes 8 d0 ++ leBytes 8 detail.toNat)
    ({ s1 with hrLost := false }.setDevReg (trapUnit + 0x58) (BitVec.ofNat 64 (w + 1))).sendMsi
      ((cfg.toNat / 2 ^ 32) % 2 ^ 16)

/-! ## Access names -/

/-- The issuing sequencer's next access: its clock moves on by one. -/
def State.tickSeq (s : State) (n : ShNo) (st : Stream) : State :=
  s.modSeq n st fun q =>
    let k : Know := { q.know with own := clockRaise q.agent (clockGet q.know.own q.agent + 1) q.know.own }
    { q with know := k, atAccess := k }

/-- The access that a sequencer makes at this point. -/
def State.accessOf (s : State) (n : ShNo) (st : Stream) (write : Bool) (kind : AccKind) (ext : Ext) : Access :=
  let q := (s.shuttle n).seq st
  { agent := q.agent, home := n, epoch := clockGet q.know.own q.agent, write := write, kind := kind, ext := ext }

/-! ## Vector registers and their races (R86, R87) -/

/-- The stream of L, X and S that an agent name belongs to, coded as in eval of cause 0x0F. -/
def Shuttle.streamCode (x : Shuttle) (agent : Nat) : Nat :=
  if agent = x.l.agent then 0 else if agent = x.x.agent then 1 else 2

/-- The first register of the list at which the access races, with the code of the other sequencer. Stream order alone
decides (R85, R87). -/
def vregRace (x : Shuttle) (n : ShNo) (k : Know) (a : Access) (tags : List (Nat × List Access)) :
    List RegNo → Option (RegNo × Nat)
  | [] => none
  | r :: rs =>
    match (tagOf tags (vregLoc n r.toNat)).find? (fun o => conflicts a o && decide (clockGet k.own o.agent < o.epoch)) with
    | some o => some (r, x.streamCode o.agent)
    | none => vregRace x n k a tags rs

/-- The issuing sequencer reads and writes vector registers and then does `f`, or takes the register race. Of several raced
registers eval names the first as they are listed, sources before destinations (assumption log 93). -/
def withVregs (s : State) (reads writes : List RegNo) (f : State → Eff) : Eff :=
  let s1 := s.tickSeq s.here s.stream
  let k := s1.mySeq.know
  let ar := s1.accessOf s.here s.stream false .plain (.set [s.here])
  let aw := s1.accessOf s.here s.stream true .plain (.set [s.here])
  match vregRace s.me s.here k ar s.tags reads, vregRace s.me s.here k aw s.tags writes with
  | some (r, c), _ => .trap 0x0F (BitVec.ofNat 64 (r.toNat + 256 * c))
  | none, some (r, c) => .trap 0x0F (BitVec.ofNat 64 (r.toNat + 256 * c))
  | none, none =>
    let locs (l : List RegNo) := l.map fun r => vregLoc s.here r.toNat
    unlessDamaged s (reads.map fun r => damage 2 r.toNat) (f ((s1.note ar (locs reads)).note aw (locs writes)))

end Sys2Proof.Machine
end

