-- ==== Sys2Proof/Machine/Access.lean ====
section
/-! DEFINITION. Pocket addresses and cells, as loads, stores and synchronising accesses of a sequencer reach them (R15 to
R17, R157, R193, R236 to R238). -/

namespace Sys2Proof.Machine
open Sys2Proof

/-! ## Pocket addresses (R157) -/

/-- Shuttle `t` of the same loom is running a member of the same gang task (R193). -/
def State.sameGang (s : State) (n t : ShNo) : Bool :=
  match (s.shuttle n).task, (s.shuttle t).task with
  | some a, some b => decide (a.1 = b.1)
  | _, _ => false

/-- The shuttle at position `t` of the loom of `n`. -/
def loomMate (n : ShNo) (t : Nat) : ShNo := BitVec.ofNat 8 (n.toNat / 8 * 8 + t)

/-- The shuttle and byte that a Pocket address names, from shuttle `n`: local, or through an open window. -/
def State.pocketAddr (s : State) (n : ShNo) (ea : Int) : Option (ShNo × Nat) :=
  if ea < 0 then none
  else
    let v := ea.toNat
    if v < Config.pocketBytes then some (n, v)
    else
      let t := v / 2 ^ 20
      if 2 ^ 24 ≤ v ∨ t = 0 ∨ 8 < t ∨ Config.pocketBytes ≤ v % 2 ^ 20 then none
      else if (s.shuttle n).rwin.getLsbD (t - 1) && s.sameGang n (loomMate n (t - 1)) then
        some (loomMate n (t - 1), v % 2 ^ 20)
      else none

/-- The place of a Pocket address. -/
def State.pocketAt (s : State) (n : ShNo) (ea : Int) : Option Nat := (s.pocketAddr n ea).map fun p => pocketPlace p.1 p.2

/-- The granule of HBM at a place is lost, its stack being out of service (R385). -/
def State.granuleLost (s : State) (place : Nat) : Bool :=
  decide (place < Config.hbmBytes) && s.outUnits.contains (5, place / 2 ^ 12 % 8)

/-- The cell at a place holds an uncorrectable error (R17). A lost granule reads as one (assumption log 110). -/
def State.badCell (s : State) (place : Nat) : Bool := s.bad.contains (cellOf place) || s.granuleLost place

/-- One of the cells of `n` bytes at a place does (assumption log 110). -/
def State.badBytes (s : State) (place n : Nat) : Bool :=
  (List.range ((place % 8 + n + 7) / 8)).any fun k => s.badCell (place / 8 * 8 + 8 * k)

/-! ## Cells -/

/-- The doubleword at a place. -/
def State.dword (s : State) (place : Nat) : W64 := BitVec.ofNat 64 (leNat (memBytes s.mem place 8))

/-- Bytes written at a place. -/
def State.putBytes (s : State) (place : Nat) (bs : List Byte) : State := { s with mem := memStore s.mem place bs }

def State.putDword (s : State) (place : Nat) (v : W64) : State := s.putBytes place (leBytes 8 v.toNat)

/-- The full/empty bit of the cell at a place. -/
def State.fe (s : State) (place : Nat) : Bool := s.full.contains (cellOf place)

def State.setFe (s : State) (place : Nat) (b : Bool) : State :=
  { s with full := if b then insertNat (cellOf place) s.full else s.full.filter (· ≠ cellOf place) }

/-- Low 64 bits of a computed address, as eval holds it. -/
def evalOf (ea : Int) : W64 := BitVec.ofInt 64 ea

/-! ## Checks of a sequencer's Pocket access (R63, R156, R186, R253) -/

/-- The first failing check among the accesses of `size` bytes at the addresses, in order. -/
def State.pocketFault (s : State) (size : Nat) : List Int → Option (BitVec 8 × W64)
  | [] => none
  | ea :: r =>
    if ea % size ≠ 0 then some (0x04, evalOf ea)
    else
      match s.pocketAt s.here ea with
      | none => some (0x05, evalOf ea)
      | some p => if s.badCell p then some (0x08, evalOf ea) else s.pocketFault size r

/-- The place of an address that has passed its checks. -/
def State.placeOf (s : State) (ea : Int) : Nat := (s.pocketAt s.here ea).getD 0

/-- The issuing sequencer makes one access to each of the cells of the addresses, each at a scope of its own, or takes the race
(R237, R238). -/
def withCellsAt (s : State) (write : Bool) (kind : AccKind) (ext : Int → Ext) (eas : List Int) (f : State → Eff) : Eff :=
  let s1 := s.tickSeq s.here s.stream
  let k := s1.mySeq.know
  let a (ea : Int) := s1.accessOf s.here s.stream write kind (ext ea)
  match eas.find? (fun ea => racesWith k (a ea) (tagOf s1.tags (cellOf (s.placeOf ea)))) with
  | some ea => .trap 0x20 (evalOf (ea / 8 * 8))
  | none => f (eas.foldl (fun s2 ea => s2.note (a ea) [cellOf (s.placeOf ea)]) s1)

/-- One access to each of the cells, all at one scope. -/
def withCells (s : State) (write : Bool) (kind : AccKind) (ext : Ext) (eas : List Int) (f : State → Eff) : Eff :=
  let s1 := s.tickSeq s.here s.stream
  let k := s1.mySeq.know
  let a := s1.accessOf s.here s.stream write kind ext
  match eas.find? (fun ea => racesWith k a (tagOf s1.tags (cellOf (s.placeOf ea)))) with
  | some ea => .trap 0x20 (evalOf (ea / 8 * 8))
  | none => f (s1.note a (eas.map fun ea => cellOf (s.placeOf ea)))

/-- The scope of plain accesses, which order nothing. -/
def State.ownExt (s : State) : Ext := .set [s.here]

/-! ## Releases that a location holds (R230 to R232, R241) -/

/-- What a synchronising store of the issuing sequencer releases: at `own` when it is a release itself, and for every
earlier REL. -/
def State.releases (s : State) (own : Option Ext) : List Carry :=
  let q := s.mySeq
  (match own with
   | some e => [releaseOf q.agent s.here q.know e]
   | none => []) ++ q.relFences

/-- A store leaves its own releases at the location; an update adds them to those that stand (R232). -/
def State.setRels (s : State) (loc : Nat) (rs : List Carry) : State :=
  { s with rels := if rs.isEmpty then assocErase loc s.rels else assocSet loc rs s.rels }

def State.relsAt (s : State) (loc : Nat) : List Carry := (assocGet s.rels loc).getD []

def State.addRels (s : State) (loc : Nat) (rs : List Carry) : State := s.setRels loc (s.relsAt loc ++ rs)

/-- The sequencer acquires at `e` from each of the releases. -/
def State.acquireAll (s : State) (n : ShNo) (st : Stream) (e : Ext) (rs : List Carry) : State :=
  s.modSeq n st fun q => { q with know := rs.foldl (fun k r => acquireInto q.agent n e r k) q.know }

/-- A synchronising load of the issuing sequencer reads from these releases: a later ACQ may take them up, and it acquires
at `own` itself. -/
def State.sight (s : State) (own : Option Ext) (rs : List Carry) : State :=
  let s1 := s.modMySeq fun q => { q with sighted := q.sighted ++ rs.filter (fun r => !q.sighted.contains r) }
  match own with
  | some e => s1.acquireAll s.here s.stream e rs
  | none => s1

/-! ## Scopes of instructions (R35, R231) -/

/-- The physical shuttles of the members of a group of the task, by its entry number. -/
def Launch.groupShuttles (l : Launch) (entry : Nat) : List ShNo :=
  match l.groups[entry]? with
  | none => []
  | some g => l.places.filterMap fun p => if g.members.contains p.1 then some p.2 else none

def State.taskOf (s : State) (tid : Nat) : Option Task := s.tasks.find? fun t => t.tid = tid
def State.launchOf (s : State) (lid : Nat) : Option Launch := s.launches.find? fun l => l.lid = lid

/-- The task of a shuttle. -/
def State.taskAt (s : State) (n : ShNo) : Option Task := (s.shuttle n).task.bind fun p => s.taskOf p.1

/-- The group entry in slot `k` of the shuttle's task; none when the slot is not held (R171). -/
def State.groupSlot (s : State) (n : ShNo) (k : Nat) : Option Nat := (s.taskAt n).bind fun t => t.slots[k]?

/-- The agents of scope code `c` (R35) for shuttle `n`; none for `.gp` without its slot. -/
def State.scopeExt (s : State) (n : ShNo) (agent : Nat) (c : Nat) : Option Ext :=
  match c with
  | 0 => some (.sq agent)
  | 1 => some (.set [n])
  | 2 =>
    match s.groupSlot n (s.shuttle n).gsel.toNat, s.taskAt n with
    | some g, some t =>
      match s.launchOf t.lid with
      | some l => some (.set (l.groupShuttles g))
      | none => none
    | _, _ => none
  | 3 => some (.set (loomShuttles n))
  | 4 => some (.set (panelShuttles n))
  | 5 => some .pk
  | 6 => some .io
  | 7 => some .dm
  | _ => some .sy

end Sys2Proof.Machine
end

