-- ==== Sys2Proof/Machine/Ranges.lean ====
section
/-! DEFINITION. Range translation: descriptors, the table search, lookaside tables, residency, the domain window and the path
to another package (R209 to R219, R224, R258, R384, R398, R402). -/

namespace Sys2Proof.Machine
open Sys2Proof

/-! ## Descriptors (R209) -/

/-- Bits `lo .. lo + n - 1` of a doubleword. -/
def bitsOf (w : W64) (lo n : Nat) : Nat := w.toNat / 2 ^ lo % 2 ^ n

def Desc.gen (d : Desc) : Nat := bitsOf d.d0 48 16
def Desc.anc (d : Desc) : Int := sintOf 8 (bitsOf d.d0 40 8)
def Desc.vb (d : Desc) : Nat := bitsOf d.d0 0 40
def Desc.len (d : Desc) : Nat := bitsOf d.d1 32 32
def Desc.dfmt (d : Desc) : Nat := bitsOf d.d1 20 4
def Desc.prs (d : Desc) : Bool := d.d1.getLsbD 11
def Desc.full (d : Desc) : Bool := d.d1.getLsbD 10
def Desc.diff (d : Desc) : Bool := d.d1.getLsbD 9
def Desc.at (d : Desc) : Bool := d.d1.getLsbD 3
def Desc.wr (d : Desc) : Bool := d.d1.getLsbD 2
def Desc.rd (d : Desc) : Bool := d.d1.getLsbD 1
def Desc.v (d : Desc) : Bool := d.d1.getLsbD 0
def Desc.pb (d : Desc) : Nat := bitsOf d.d2 0 40
def Desc.shix (d : Desc) : Nat := bitsOf d.d3 32 32
def Desc.rmi (d : Desc) : Nat := bitsOf d.d3 0 32
/-- First virtual byte, and the byte after the last (R210). -/
def Desc.key (d : Desc) : Nat := d.vb * 2 ^ 16
def Desc.stop (d : Desc) : Nat := d.key + d.len * 2 ^ 16

/-- Base of the range unit's registers in the device register space is 0 (R386). -/
def State.rtBase (s : State) : Nat := bitsOf (s.devReg 0x00) 6 50 * 64
/-- N of RTCNT; a value above 2^20 is read as 2^20 (R211). -/
def State.rtCount (s : State) : Nat := min (bitsOf (s.devReg 0x08) 0 21) (2 ^ 20)
def State.rmBase (s : State) : Nat := bitsOf (s.devReg 0x10) 6 50 * 64

/-- Descriptor `j` as the table holds it. -/
def State.storedDesc (s : State) (j : Nat) : Desc :=
  let a := s.rtBase + 32 * j
  { d0 := s.dword a, d1 := s.dword (a + 8), d2 := s.dword (a + 16), d3 := s.dword (a + 24) }

/-- Descriptor `j` as a walker reads it: one that holds an uncorrectable error breaks R210 (assumption log 110). -/
def State.desc (s : State) (j : Nat) : Desc :=
  let d := s.storedDesc j
  if s.badBytes (s.rtBase + 32 * j) 32 then { d with d1 := d.d1 ||| 0xFF000000 } else d

def State.putDesc (s : State) (j : Nat) (d : Desc) : State :=
  s.putBytes (s.rtBase + 32 * j)
    (leBytes 8 d.d0.toNat ++ leBytes 8 d.d1.toNat ++ leBytes 8 d.d2.toNat ++ leBytes 8 d.d3.toNat)

/-- First byte and length of the warp-domain window (R384). -/
def windowBase : Nat := 0x40000000000
def windowBytes : Nat := 0x40000000000

/-- The physical run lies wholly in local HBM outside the card store, or in the domain window (R384, R398). -/
def State.mayMap (s : State) (pa len : Nat) : Bool :=
  (decide (pa + len ≤ Config.hbmBytes) && (decide (pa + len ≤ s.csBase) || decide (s.csBase + s.csLen ≤ pa))) ||
  (decide (windowBase ≤ pa) && decide (pa + len ≤ windowBase + windowBytes))

/-- Bytes of an element of a differentiable format. -/
def diffWidth : Nat → Nat
  | 0 => 4 | 1 => 2 | 2 => 2 | _ => 1

/-- A descriptor error of R210, with those of R258 when DIFF is 1. -/
def State.descError (s : State) (d : Desc) : Bool :=
  decide (bitsOf d.d1 24 8 ≠ 0) || decide (bitsOf d.d1 12 8 ≠ 0) || decide (bitsOf d.d1 4 5 ≠ 0) ||
  decide (bitsOf d.d2 40 24 ≠ 0) || decide (d.len = 0) || decide (2 ^ 56 < d.stop) ||
  !s.mayMap (d.pb * 2 ^ 16) (d.len * 2 ^ 16) ||
  (if d.diff then
    let sh := s.desc d.shix
    decide (s.rtCount ≤ d.shix) || decide (3 < d.dfmt) || !sh.v || sh.diff || !(sh.rd && sh.wr && sh.at) ||
      decide (sh.len * diffWidth d.dfmt < d.len * 16)
  else decide (d.anc ≠ 0) || decide (d.dfmt ≠ 0) || decide (d.shix ≠ 0))

/-! ## The search (R212) -/

/-- The binary search between `lo` and `hi`, `fuel` halvings at most. -/
def State.searchFrom (s : State) (va : Nat) : Nat → Nat → Nat → Nat
  | 0, lo, _ => lo
  | fuel + 1, lo, hi =>
    if hi - lo ≤ 1 then lo
    else
      let m := (lo + hi) / 2
      if (s.desc m).key ≤ va then s.searchFrom va fuel m hi else s.searchFrom va fuel lo m

/-- What a translation needs of its range. -/
inductive Perm where
  | read | write | atomic | any
  deriving DecidableEq, Repr

def Desc.grants (d : Desc) : Perm → Bool
  | .read => d.rd | .write => d.wr | .atomic => d.at | .any => true

/-- Why a global access is not made. -/
inductive GFault where
  /-- a cause with its eval -/
  | fault (cause : BitVec 8) (eval : W64)
  /-- chunk `ch` of entry `ix` is not resident -/
  | absent (ix ch : Nat)
  /-- the bytes lie in another package, at this address there -/
  | remote (pkn : BitVec 8) (pa : Nat)
  /-- the bytes lie in the block that the Press moves (R224) -/
  | pressed
  deriving DecidableEq, Repr

/-- Extended address of a virtual address (R196). -/
def globalEa (va : Nat) : W64 := BitVec.ofNat 64 (0x3000000000000000 + va % 2 ^ 56)

/-- What the walker finds for a virtual address: the range that covers it, or cause 0x1B or 0x1F (R210, R212). -/
def State.walk (s : State) (va : Nat) : Except (BitVec 8) (Nat × Desc) :=
  let n := s.rtCount
  if n = 0 ∨ va < (s.desc 0).key then .error 0x1B
  else
    let j := s.searchFrom va 21 0 n
    let d := s.desc j
    if !d.v then .error 0x1B
    else if s.descError d then .error 0x1F
    else if va < d.stop then .ok (j, d) else .error 0x1B

/-! ## Lookaside tables (R213) -/

/-- Entries of a lookaside table. -/
def Via.size : Via → Nat
  | .walker => 0
  | .shuttle _ => 32
  | .engine _ => 64

/-- The entry of table `o` that translates a virtual address. -/
def State.rltEntry (s : State) (o : Via) (va : Nat) : Option RltEntry :=
  s.rlts.find? fun e => decide (e.owner = o ∧ 0 < o.size ∧ e.d.key ≤ va ∧ va < e.d.stop)

/-- The range that covers a virtual address, as the access in progress translates it: by an entry of its lookaside table, or
by a walk. -/
def State.rangeOf (s : State) (va : Nat) : Except (BitVec 8) (Nat × Desc) :=
  match s.rltEntry s.via va with
  | some e => .ok (e.ix, e.d)
  | none => s.walk va

/-- `f` with its accesses translated through `o`. -/
def State.through (s : State) (o : Via) : State := { s with via := o }

/-! ## Residency and the Press (R217, R224) -/

/-- Chunk of a byte of a range. -/
def Desc.chunk (d : Desc) (va : Nat) : Nat := (va - d.key) / 2 ^ 21

/-- Bit `c` of map `m`. -/
def State.mapBit (s : State) (m c : Nat) : Bool := (memByte s.mem (s.rmBase + 64 * m + c / 8)).getLsbD (c % 8)

/-- Chunks of a range. -/
def Desc.chunks (d : Desc) : Nat := (d.len + 31) / 32

/-- The chunk is resident: the lookaside table holds a 1 bit for it, or the map does. -/
def State.resident (s : State) (j : Nat) (d : Desc) (ch : Nat) : Bool :=
  d.full || (s.rlts.any fun e => decide (e.owner = s.via ∧ 0 < s.via.size ∧ e.ix = j ∧ e.d = d) && e.ones.contains ch) ||
    s.mapBit d.rmi ch

/-- A walker fills an entry of a lookaside table; the oldest entry makes room. No entry is filled from a miss or from a
descriptor with an error. -/
def State.fillRlt (s : State) (o : Via) (va : Nat) : State :=
  match s.walk va with
  | .error _ => s
  | .ok (j, d) =>
    let mine := s.rlts.filter fun e => decide (e.owner = o ∧ e.ix ≠ j)
    let others := s.rlts.filter fun e => decide (e.owner ≠ o)
    let ones := if d.full then [] else (List.range d.chunks).filter (s.mapBit d.rmi)
    if o.size = 0 then s
    else
      { s with rlts := others ++ mine.drop (mine.length + 1 - o.size) ++
                 [{ owner := o, ix := j, d := d, ones := ones, born := s.invals }] }

/-- An entry of a lookaside table is dropped. -/
def State.dropRlt (s : State) (o : Via) (ix : Nat) : State :=
  { s with rlts := s.rlts.filter fun e => !decide (e.owner = o ∧ e.ix = ix) }

/-- Physical address of a covered byte: bytes that the Press has copied are at the new base. -/
def State.physical (s : State) (j : Nat) (d : Desc) (va : Nat) : Nat :=
  let f := va - d.key
  match s.press with
  | some p => if d.prs && decide (p.ix = j) && decide (f < p.mark) then p.base + f else d.pb * 2 ^ 16 + f
  | none => d.pb * 2 ^ 16 + f

/-- The byte lies in the block whose copy is on its way. The copy of a block in this package is one step, in which nothing can
meet it. -/
def State.pressed (s : State) (j : Nat) (d : Desc) (va : Nat) : Bool :=
  match s.press with
  | some p => d.prs && decide (p.ix = j ∧ p.phase = .fetching ∧ p.mark ≤ va - d.key ∧ va - d.key < p.mark + 4096)
  | none => false

/-! ## The domain window and paths (R397, R398, R402) -/

/-- Base of the warp and weft block in the device register space (R386). -/
def warpBlock : Nat := 0x100000

/-- This package's domain number. -/
def State.pkn (s : State) : BitVec 8 := (s.devReg warpBlock).setWidth 8

/-- A link in service that may carry traffic to package `p`, the lowest first (R401, R402). -/
def State.linkTo (s : State) (p : BitVec 8) : Option Nat :=
  if !(s.devReg warpBlock).getLsbD 8 then none
  else
    let r := s.devReg (warpBlock + 0x1000 + 8 * p.toNat)
    (List.range 24).find? fun l => r.getLsbD l && (s.devReg (warpBlock + 0x8)).getLsbD l && !s.outLinks.contains l

/-- Local HBM at a physical address, or where the domain window sends it. -/
def State.reach (s : State) (pa : Nat) (va : Nat) : Except GFault Nat :=
  if pa < windowBase then .ok pa
  else
    let seg := s.devReg (warpBlock + 0x10000 + 8 * ((pa - windowBase) / 2 ^ 30))
    let q := bitsOf seg 0 9 * 2 ^ 30 + pa % 2 ^ 30
    if !seg.getLsbD 63 then .error (.fault 0x3C (BitVec.ofNat 64 pa))
    else
      let p : BitVec 8 := BitVec.ofNat 8 (bitsOf seg 40 8)
      if p = s.pkn then
        if s.csBase ≤ q ∧ q < s.csBase + s.csLen then .error (.fault 0x3C (BitVec.ofNat 64 pa)) else .ok q
      else if (s.linkTo p).isNone then .error (.fault 0x38 (globalEa va))
      else .error (.remote p q)

/-- Where a byte lies. -/
inductive Loc where
  | home (pa : Nat)
  | away (p : BitVec 8) (pa : Nat)
  deriving DecidableEq, Repr

/-- Where a byte of global memory lies, after the search, the permission and the residency test; with the entry that maps
it. -/
def State.locate (s : State) (va : Nat) (need : Perm) : Except GFault (Loc × Nat × Desc) :=
  match s.rangeOf va with
  | .error c => .error (.fault c (globalEa va))
  | .ok (j, d) =>
    if !d.grants need then .error (.fault 0x1C (globalEa va))
    else if !s.resident j d (d.chunk va) then .error (.absent j (d.chunk va))
    else if s.pressed j d va then .error .pressed
    else
      match s.reach (s.physical j d va) va with
      | .ok pa => .ok (.home pa, j, d)
      | .error (.remote p pa) => .ok (.away p pa, j, d)
      | .error e => .error e

/-- A byte's place in local HBM, with the entry that maps it. -/
def State.translate (s : State) (va : Nat) (need : Perm) : Except GFault (Nat × Nat × Desc) :=
  match s.locate va need with
  | .ok (.home pa, j, d) => .ok (pa, j, d)
  | .ok (.away p pa, _, _) => .error (.remote p pa)
  | .error e => .error e

/-! ## Residency requests (R219) -/

/-- MSI identity of the range unit (R389). -/
def State.rangeMsi (s : State) : State := s.sendMsi (bitsOf (s.devReg 0x40010) 0 16)

/-- A request that enters RREQ, which holds 256. -/
def State.enterRreq (s : State) (ix ch : Nat) : State :=
  if s.rreqs.length < 256 then ({ s with rreqs := s.rreqs ++ [(ix, ch)] } : State).rangeMsi
  else { s with rreqWait := s.rreqWait ++ [(ix, ch)] }

/-- `who` waits on the chunk: at most one request is outstanding for it. -/
def State.requestChunk (s : State) (who ix ch : Nat) : State :=
  if s.resReqs.any fun r => decide (r.ix = ix ∧ r.ch = ch) then
    { s with resReqs := s.resReqs.map fun r =>
        if r.ix = ix ∧ r.ch = ch ∧ !r.waiters.contains who then { r with waiters := r.waiters ++ [who] } else r }
  else ({ s with resReqs := s.resReqs ++ [{ ix := ix, ch := ch, waiters := [who] }] } : State).enterRreq ix ch

/-- The chunk was denied to `who`. -/
def State.isDenied (s : State) (who ix ch : Nat) : Bool := s.denied.contains (who, ix, ch)

/-- A denial is taken up once. -/
def State.clearDenied (s : State) (who : Nat) : State :=
  { s with denied := s.denied.filter fun d => decide (d.1 ≠ who) }

/-- A residency reply (R219): waiters of a denied chunk learn of it; one that names no outstanding request is ignored. -/
def State.replyChunk (s : State) (ix ch : Nat) (deny : Bool) : State :=
  match s.resReqs.find? fun r => decide (r.ix = ix ∧ r.ch = ch) with
  | none => s
  | some r =>
    { s with resReqs := s.resReqs.filter fun r => !decide (r.ix = ix ∧ r.ch = ch),
             denied := if deny then s.denied ++ r.waiters.map (fun w => (w, ix, ch)) else s.denied,
             stamp := s.stamp + 1 }

/-- Pieces of at most 64 bytes, none across a line. -/
def linePieces : Nat → Nat → Nat → List (Nat × Nat)
  | 0, _, _ => []
  | fuel + 1, va, n =>
    if n = 0 then []
    else
      let m := min n (64 - va % 64)
      (va, m) :: linePieces fuel (va + m) (n - m)

def pieces (va n : Nat) : List (Nat × Nat) := linePieces (n / 64 + 2) va n

/-- The least of some addresses. -/
def leastNat : List Nat → Option Nat
  | [] => none
  | x :: xs =>
    match leastNat xs with
    | none => some x
    | some y => some (min x y)

/-- What residency says of an access to several spans at once (R218). -/
inductive Residency where
  /-- every chunk it touches is resident, as far as its ranges allow it -/
  | ready
  /-- the lowest byte in a chunk that was denied to it -/
  | denied (va : Nat)
  /-- the chunks it waits for -/
  | waits (chunks : List (Nat × Nat))
  deriving DecidableEq, Repr

/-- Entry, chunk and first byte of each piece of the spans, with whether the chunk is resident. -/
def State.chunksOf (s : State) (spans : List (Nat × Nat)) : List (Nat × Nat × Nat × Bool) :=
  (spans.flatMap fun p => pieces p.1 p.2).filterMap fun q =>
    match s.rangeOf q.1 with
    | .ok (j, d) => some (j, d.chunk q.1, q.1, s.resident j d (d.chunk q.1))
    | .error _ => none

/-- Residency of an access by `who` to the spans: a denial counts first, then every chunk that is not resident. -/
def State.residency (s : State) (who : Nat) (spans : List (Nat × Nat)) : Residency :=
  let cs := s.chunksOf spans
  match leastNat ((cs.filter fun c => s.isDenied who c.1 c.2.1).map fun c => c.2.2.1) with
  | some va => .denied va
  | none =>
    match (cs.filterMap fun c => if c.2.2.2 then none else some (c.1, c.2.1)).dedup with
    | [] => .ready
    | l => .waits l

/-- Some byte of the spans lies in the block that the Press moves. -/
def State.isPressed (s : State) (spans : List (Nat × Nat)) : Bool :=
  (spans.flatMap fun p => pieces p.1 p.2).any fun q =>
    match s.rangeOf q.1 with
    | .ok (j, d) => s.pressed j d q.1
    | .error _ => false

/-- A request for each of the chunks. -/
def State.requestAll (s : State) (who : Nat) (chunks : List (Nat × Nat)) : State :=
  chunks.foldl (fun s c => s.requestChunk who c.1 c.2) s

end Sys2Proof.Machine
end

