-- ==== Sys2Proof/Machine/Global.lean ====
section
/-! DEFINITION. Global memory as tasks see it: keys and the oldest task, staged writes, read sets, aborts, and writes that
are performed (R165 to R168, R195, R216, R239, R305, R399). -/

namespace Sys2Proof.Machine
open Sys2Proof

/-! ## Tasks in key order (R165, R168) -/

/-- ts : queue : index as one number. -/
def Task.key (t : Task) : Nat := t.ts.toNat * 2 ^ 32 + t.queue % 2 ^ 16 * 2 ^ 16 + t.index % 2 ^ 16

/-- The task has left the order: committed, skipped or discarded. -/
def Task.settled (t : Task) : Bool := decide (t.stat = .committed ∨ t.stat = .skipped ∨ t.stat = .discarded)

def State.modTask (s : State) (tid : Nat) (f : Task → Task) : State :=
  { s with tasks := s.tasks.map fun t => if t.tid = tid then f t else t }

def State.modLaunch (s : State) (lid : Nat) (f : Launch → Launch) : State :=
  { s with launches := s.launches.map fun l => if l.lid = lid then f l else l }

/-- No uncommitted task has a lower key; of tasks of different launches with equal keys the one named first counts as the
older (assumption log 97). -/
def State.isOldest (s : State) (tid : Nat) : Bool :=
  match s.taskOf tid with
  | none => true
  | some t =>
    s.tasks.all fun u => decide (u.tid = tid) || u.settled || decide (t.key < u.key ∨ (t.key = u.key ∧ t.tid < u.tid))

/-- The agent that acts is of no task, or its task is the oldest. -/
def State.mayPerform (s : State) (who : Option (Nat × Nat)) : Bool :=
  match who with
  | none => true
  | some p => s.isOldest p.1

/-- Which stage a member uses: the copies of a DUAL task stage apart (R349). -/
def Task.copy (t : Task) (rank : Nat) : Fin 2 := if t.dual && decide (rank = 1) then 1 else 0

def Task.stage (t : Task) (rank : Nat) : Stage := t.stages[(t.copy rank).val]

def Task.setStage (t : Task) (rank : Nat) (g : Stage) : Task :=
  { t with stages := t.stages.set (t.copy rank).val g }

/-- A command or update of the task is still on its way (R93, R167). -/
def State.busyTask (s : State) (tid : Nat) : Bool :=
  let mine (o : Option (Nat × Nat)) : Bool :=
    match o with
    | some p => decide (p.1 = tid)
    | none => false
  s.moves.any (fun m => mine m.job.task) || s.mats.any (fun m => mine m.job.task) ||
  s.rangeJobs.any (fun m => mine m.job.task) || s.colls.any (fun m => mine m.job.task) ||
  s.msgs.any (fun m => mine m.task)

/-! ## Messages to other packages (R399, R401) -/

/-- A virtual channel from and to a package. -/
def State.channel (s : State) (p : BitVec 8) (vc : BitVec 2 := 0) : Channel :=
  (s.channels.find? fun c => decide (c.peer = p ∧ c.vc = vc)).getD { peer := p, vc := vc, next := 0, performed := [], acts := [] }

def State.putChannel (s : State) (c : Channel) : State :=
  { s with channels := c :: s.channels.filter fun o => decide (o.peer ≠ c.peer ∨ o.vc ≠ c.vc) }

/-- How many messages of a package have been performed here: each is one access of its agents. -/
def State.remoteEpoch (s : State) (p : BitVec 8) : Nat := (s.channel p).performed.length

/-- What releases from here have made known to a package (R400). -/
def State.givenTo (s : State) (p : BitVec 8) : Clock := ((s.given.find? fun g => decide (g.1 = p)).map Prod.snd).getD []

/-- Releases reach a package: those at `.dm` or `.sy` carry what they carry there (R400). -/
def State.giveTo (s : State) (p : BitVec 8) (rs : List Carry) : State :=
  let c := (rs.filter fun r => decide (4 ≤ extRank r.ext)).foldl (fun c r => clockJoin c r.clk) (s.givenTo p)
  { s with given := (p, c) :: s.given.filter fun g => decide (g.1 ≠ p) }

/-- A message of virtual channel 0 to another package (R399, R401). -/
def State.sendRemote (s : State) (owner : Nat) (p : BitVec 8) (pa : Nat) (op : RemoteOp) (ea : W64)
    (by_ : Option Actor := none) : State :=
  let c := s.channel p
  { s.putChannel { c with next := c.next + 1 } with
    sent := s.sent ++
      [{ peer := p, seq := c.next, link := (s.linkTo p).getD 0, owner := owner, pa := pa, op := op, ea := ea, reply := none,
         by_ := by_, born := s.invals }] }

/-- A message that is no memory access leaves for another package, where a link leads there; it is kept until it is acknowledged
(R401). -/
def State.post (s : State) (p : BitVec 8) (vc : BitVec 2) (m : Mail) : State :=
  match s.linkTo p with
  | none => s
  | some l =>
    let c := s.channel p vc
    { s.putChannel { c with next := c.next + 1 } with
      posted := s.posted ++ [{ tag := { peer := p, vc := vc, seq := c.next }, link := l, mail := m }] }

/-- The acknowledgement of a message, with what it answers. -/
def State.acknowledge (s : State) (t : Tag) (r : Reply) : State := { s with acks := s.acks ++ [(t, r)], stamp := s.stamp + 1 }

/-- A message that is no memory access arrives: its number is acted on once, and a duplicate is acknowledged again. Without a
domain number nothing is accepted (R397, R401). -/
def State.takeMail (s : State) (t : Tag) (act : State → State) : State :=
  let c := s.channel t.peer t.vc
  if !(s.devReg warpBlock).getLsbD 8 then s
  else if c.performed.contains t.seq then s.acknowledge t (.data [])
  else act ((s.putChannel { c with performed := t.seq :: c.performed }).acknowledge t (.data []))

/-- Counted lines that the task has declared in other packages are removed there, as those declared here are (R247, R403). -/
def State.dropAwayLines (s : State) (tid : Nat) : State :=
  let mine := s.awayLines.filter fun l => decide (l.task = some tid)
  mine.foldl (fun s l => s.sendRemote 0 l.peer l.line .undeclare 0)
    { s with awayLines := s.awayLines.filter fun l => decide (l.task ≠ some tid) }

/-! ## Stopping a task (R167) -/

/-- Every sequencer of the shuttle stops; a held trap is discarded (R169). -/
def Shuttle.stopAll (x : Shuttle) : Shuttle :=
  let off (q : Seq) : Seq := { q.abandon with run := .idle }
  { x with c := off x.c, l := off x.l, x := off x.x, s := off x.s, frozen := false, trap := none, stepWaits := [],
           pending := [] }

/-- The task's sequencers stop and its staged writes are discarded. -/
def State.stopTask (s : State) (tid : Nat) : State :=
  match s.taskOf tid with
  | none => s
  | some t =>
    let s1 := t.shuttles.foldl (fun s n =>
      match (s.shuttle n).task with
      | some p => if p.1 = tid then (s.modShuttle n Shuttle.stopAll).bump n else s
      | none => s) s
    (({ s1 with lines := s1.lines.filter fun l => decide (l.task ≠ some tid) } : State).dropAwayLines tid).modTask tid fun t =>
      { t with stat := .stopping, stages := Vector.replicate 2 { writes := [], reads := [] }, table := [], flags := Vector.replicate 2 0,
               ckmark := none, ended := [], ranges := [], wrote := [],
               committing := false, performed := false, bound := false, held := none }

/-- An abort under R167, with its health record of kind 5 (R373). -/
def State.abortTask (s : State) (tid : Nat) : State :=
  match s.taskOf tid with
  | none => s
  | some t =>
    (s.stopTask tid).healthRecord 1 ((t.shuttles.headD 0).toNat) 5 1 t.ts

/-! ## Performing a write -/

/-- Lines of the bytes `va .. va + n - 1`. -/
def linesOf (va n : Nat) : List Nat := (List.range ((va + n - 1) / 64 + 1 - va / 64)).map fun i => va / 64 + i

/-- Uncommitted tasks later than the oldest, of no lower key, that have read one of the lines. -/
def State.readersOf (s : State) (key : Nat) (lines : List Nat) : List Nat :=
  (s.tasks.filter fun u =>
    !u.settled && decide (key ≤ u.key) && !s.isOldest u.tid && decide (u.stat ≠ .stopping) &&
      u.stages.toList.any fun g => g.reads.any lines.contains).map Task.tid

/-- Bytes written in memory by a task that commits them; readers of higher key are aborted (R167). -/
def State.performWrite (s : State) (key : Option Nat) (pa va : Nat) (bs : List Byte) : State :=
  let s1 := s.putBytes pa bs
  match key with
  | none => s1
  | some k => (s1.readersOf k (linesOf va bs.length)).foldl State.abortTask s1

/-- GEN of an entry advanced by 1 modulo 2^16 (R216). -/
def State.advanceGen (s : State) (ix : Nat) : State :=
  let a := s.rtBase + 32 * ix + 6
  s.putBytes a (leBytes 2 ((leNat (memBytes s.mem a 2) + 1) % 2 ^ 16))

/-! ## Staging -/

/-- The latest staged value of a byte. -/
def stagedByte (ws : List StagedWrite) (va : Nat) : Option Byte :=
  ws.foldl (fun acc w => if w.va ≤ va ∧ va < w.va + w.data.length then w.data[va - w.va]? else acc) none

/-- Lines that staged writes of a panel touch (R168, R195). -/
def Stage.linesOn (g : Stage) (panel : BitVec 2) : List Nat :=
  (g.writes.filter fun w => w.panel = panel).flatMap fun w => linesOf w.va w.data.length

/-- The member's panel has staged more than its share, or would have with some more lines. -/
def Task.overShare (t : Task) (rank : Nat) (panel : BitVec 2) (more : List Nat := []) : Bool :=
  decide (t.share * 65536 < ((t.stage rank).linesOn panel ++ more).dedup.length * 64)

/-- An access of the task has gone through entry `j`: its range guard and, for a write performed, the entry's generation take
it up (R216, R343). -/
def Task.noteRange (t : Task) (j : Nat) (d : Desc) (write : Bool) : Task :=
  let u := if t.ranges.any fun r => r.1 = j then t else { t with ranges := t.ranges ++ [(j, d.d0.setWidth 40)] }
  if write && !u.wrote.contains j then { u with wrote := u.wrote ++ [j] } else u

def State.noteRange (s : State) (who : Option (Nat × Nat)) (j : Nat) (d : Desc) (write : Bool) : State :=
  match who with
  | some p => s.modTask p.1 fun t => t.noteRange j d write
  | none => s

/-! ## Reading -/

/-- The request reads at least `n` bytes. -/
def readsAtLeast (n : Nat) : RemoteOp → Bool
  | .read k => decide (n ≤ k)
  | _ => false

/-- What a reply comes to: its bytes, or the cause of a refusal. -/
def replyBytes : Reply → Except (BitVec 8) (List Byte)
  | .data bs => .ok bs
  | .result v _ => .ok (leBytes 8 v.toNat)
  | .refused c => .error c

/-- The cause of a refusal. -/
def replyCause : Reply → Option (BitVec 8)
  | .refused c => some c
  | _ => none

/-- The reply that command `owner` holds to a read of another package's memory: the bytes, or a cause. -/
def State.replyTo (s : State) (owner : Nat) (peer : BitVec 8) (pa n : Nat) : Option (Except (BitVec 8) (List Byte)) :=
  (s.sent.find? fun m => decide (m.owner = owner ∧ m.peer = peer ∧ m.pa = pa) && readsAtLeast n m.op && m.reply.isSome).bind
    fun m => m.reply.map fun r => (replyBytes r).map (·.take n)

/-- Physical address of a virtual address, of this package or in its domain window; the eval of cause 0x3C. -/
def State.physicalOf (s : State) (va : Nat) : Nat :=
  match s.rangeOf va with
  | .ok (j, d) => s.physical j d va
  | .error _ => 0

/-- The eval that a cause sent by another package has (R418). -/
def State.remoteEval (s : State) (cause : BitVec 8) (va : Nat) : W64 :=
  if cause = 0x3C then BitVec.ofNat 64 (s.physicalOf va) else globalEa va

/-- One piece of a read: staged values of the own task first (R166). -/
def State.readPiece (s : State) (who : Option (Nat × Nat)) (owner : Nat) (va n : Nat) (need : Perm) :
    Except GFault (List Byte × State) :=
  match s.locate va need with
  | .error e => .error e
  | .ok (.away p pa, j, d) =>
    match s.replyTo owner p pa n with
    | some (.ok bs) => .ok (bs, s.noteRange who j d false)
    | some (.error c) => .error (.fault c (s.remoteEval c va))
    | none => .error (.remote p pa)
  | .ok (.home pa, j, d) =>
    let mem := memBytes s.mem pa n
    if s.badBytes pa n then .error (.fault 0x1A (globalEa va))
    else
    match who.bind fun p => (s.taskOf p.1).map fun t => (t, p.2) with
    | none => .ok (mem, s)
    | some (t, rank) =>
      let ws := (t.stage rank).writes
      let own := (List.range n).map fun i => stagedByte ws (va + i)
      let bs := (own.zip mem).map fun p => p.1.getD p.2
      let line := va / 64
      let g := t.stage rank
      let g1 := if own.all Option.isSome || g.reads.contains line then g else { g with reads := g.reads ++ [line] }
      .ok (bs, (s.modTask t.tid fun t => t.setStage rank g1).noteRange who j d false)

/-- The bytes `va .. va + n - 1` of global memory as `who` reads them. -/
def State.readGlobal (s : State) (who : Option (Nat × Nat)) (owner : Nat) (va n : Nat) (need : Perm := .read) :
    Except GFault (List Byte × State) :=
  (pieces va n).foldl (fun acc p =>
    match acc with
    | .error e => .error e
    | .ok (bs, s) =>
      match s.readPiece who owner p.1 p.2 need with
      | .error e => .error e
      | .ok (cs, s1) => .ok (bs ++ cs, s1)) (.ok ([], s))

/-! ## User queues in memory (R304, R305) -/

/-- Base of the Creel's registers (R386). -/
def creel : Nat := 0x10000

/-- Base of the queue table. -/
def State.qtBase (s : State) : Nat := bitsOf (s.devReg creel) 3 53 * 8

/-- Physical addresses of the control blocks of the queues whose entry has V = 1. -/
def State.controlBlocks (s : State) : List Nat :=
  s.mem.filterMap fun c =>
    let o := c.1 - s.qtBase
    if s.qtBase ≤ c.1 ∧ o < 8 * 65536 ∧ o % 8 = 0 ∧ c.2.getLsbD 0 then some (bitsOf (s.dword c.1) 7 49 * 128) else none

/-- The first address above `va` at which a range begins or ends. -/
def State.nextEdge (s : State) (va : Nat) : Option Nat :=
  leastNat (((List.range s.rtCount).flatMap fun j => [(s.desc j).key, (s.desc j).stop]).filter fun a => decide (va < a))

/-- The physical runs in this package of `n` virtual bytes from `va`: they break at the end of a range, at the Press's mark and
at the segments of the domain window, and pass over what no range serves. -/
def State.ringRuns (s : State) : Nat → Nat → Nat → List (Nat × Nat)
  | 0, _, _ => []
  | fuel + 1, va, n =>
    if n = 0 then []
    else
      match s.walk va with
      | .error _ =>
        (match s.nextEdge va with
         | some a => s.ringRuns fuel a (n - (a - va))
         | none => [])
      | .ok (j, d) =>
        let f := va - d.key
        let toMark := match s.press with
          | some p => if d.prs && decide (p.ix = j ∧ f < p.mark) then p.mark - f else n
          | none => n
        let toSegment := 2 ^ 30 - (d.pb * 2 ^ 16 + f) % 2 ^ 30
        let m := max 1 (min (min n (d.stop - va)) (min toMark toSegment))
        (match s.reach (s.physical j d va) va with
         | .ok pa => [(pa, m)]
         | .error _ => []) ++ s.ringRuns fuel (va + m) (n - m)

/-- A physical address lies in the ring or the control block of such a queue. -/
def State.inUserQueue (s : State) (pa : Nat) : Bool :=
  s.controlBlocks.any fun b =>
    (decide (b ≤ pa) && decide (pa < b + 128)) ||
    (s.ringRuns (2 * s.rtCount + 64) (bitsOf (s.dword b) 0 56) (64 * 2 ^ bitsOf (s.dword (b + 8)) 0 5)).any fun r =>
      decide (r.1 ≤ pa) && decide (pa < r.1 + r.2)

/-! ## Writing -/

/-- The first fault among the pieces of a write. -/
def State.writeFault (s : State) (va n : Nat) (need : Perm := .write) : Option GFault :=
  (pieces va n).findSome? fun p =>
    match s.locate p.1 need with
    | .error e => some e
    | .ok _ => none

/-- The bytes go to another package or to a user queue: they are never staged (R168, R305, R399). -/
def State.unstageable (s : State) (va n : Nat) : Bool :=
  (pieces va n).any fun p =>
    match s.locate p.1 .write with
    | .ok (.home pa, _, _) => s.inUserQueue pa
    | .ok (.away _ _, _, _) => true
    | .error _ => false

/-- The task has performed an action that cannot be staged (R363). -/
def State.bind (s : State) (who : Option (Nat × Nat)) : State :=
  match who with
  | some p => s.modTask p.1 fun t => { t with bound := true }
  | none => s

/-- The staged bytes between `lo` and `hi` are taken out of a stage. -/
def Stage.cut (g : Stage) (lo hi : Nat) : Stage :=
  { g with writes := g.writes.flatMap fun w =>
      let e := w.va + w.data.length
      if hi ≤ w.va ∨ e ≤ lo then [w]
      else
        (if w.va < lo then [{ w with data := w.data.take (lo - w.va) }] else []) ++
        (if hi < e then [{ w with va := hi, data := w.data.drop (hi - w.va) }] else []) }

/-- One piece of a write that has passed its checks: staged, or performed when the task is committing, when it has no task,
when the piece cannot be staged, and with `now`, as a collective writes: what it had staged of those bytes is over then (R166,
R168). -/
def State.writePiece (s : State) (who : Option (Nat × Nat)) (owner : Nat) (panel : BitVec 2) (va : Nat)
    (bs : List Byte) (now : Bool := false) : State :=
  match s.locate va .write with
  | .error _ => s
  | .ok (.away p pa, j, d) => ((s.noteRange who j d true).bind who).sendRemote owner p pa (.write bs) (globalEa va)
  | .ok (.home pa, j, d) =>
    match who.bind fun p => (s.taskOf p.1).map fun t => (t, p.2) with
    | none => s.performWrite none pa va bs
    | some (t, rank) =>
      if s.inUserQueue pa then ((s.noteRange who j d true).bind who).performWrite (some t.key) pa va bs
      else if t.committing then (s.noteRange who j d true).performWrite (some t.key) pa va bs
      else if now then
        ((s.noteRange who j d true).modTask t.tid fun t => t.setStage rank ((t.stage rank).cut va (va + bs.length))).performWrite
          (some t.key) pa va bs
      else
        (s.noteRange who j d false).modTask t.tid fun t =>
          let g := t.stage rank
          t.setStage rank { g with writes := g.writes ++ [{ va := va, data := bs, panel := panel }] }

/-- A write of `bs` at `va`, whose checks have passed. -/
def State.writeGlobal (s : State) (who : Option (Nat × Nat)) (owner : Nat) (panel : BitVec 2) (va : Nat)
    (bs : List Byte) : State :=
  (pieces va bs.length).foldl
    (fun s p => s.writePiece who owner panel p.1 ((bs.drop (p.1 - va)).take p.2)) s

/-- The panel of a shuttle (R383). -/
def panelOf (n : ShNo) : BitVec 2 := BitVec.ofNat 2 (n.toNat / 64)

/-! ## Committing (R168, R427) -/

/-- What the check of a task's staged writes comes to (R427). -/
inductive StageCheck where
  | pass
  /-- some bytes are in a block that the Press moves -/
  | held
  | waits (chunks : List (Nat × Nat))
  | fails (cause : BitVec 8) (eval : W64)
  deriving DecidableEq, Repr

/-- Why a staged byte cannot be performed, its chunk being resident or denied to `who`. -/
def State.stagedFault (s : State) (who va : Nat) : Option (BitVec 8) :=
  match s.rangeOf va with
  | .error c => some c
  | .ok (j, d) =>
    if !d.wr then some 0x1C
    else if s.isDenied who j (d.chunk va) then some 0x1D
    else
      match s.reach (s.physical j d va) va with
      | .error (.fault c _) => some c
      | _ => none

/-- Staged writes are checked before any of them is performed: they wait until every chunk is resident or denied, and the fault
is that of the lowest failing byte. -/
def State.checkStaged (s : State) (who : Nat) (ws : List StagedWrite) : StageCheck :=
  let ps := ws.flatMap fun w => pieces w.va w.data.length
  let absent := (s.chunksOf (ps.map fun p => (p.1, p.2))).filterMap fun c =>
    if c.2.2.2 || s.isDenied who c.1 c.2.1 then none else some (c.1, c.2.1)
  match absent.dedup with
  | [] =>
    match leastNat ((ps.filter fun p => (s.stagedFault who p.1).isSome).map Prod.fst) with
    | some va => let c := (s.stagedFault who va).getD 0; .fails c (s.remoteEval c va)
    | none => if s.isPressed ps then .held else .pass
  | l => .waits l

/-- Staged writes performed in order (R167); one that goes to another package by now is sent there, and the commit waits for
its acknowledgement (R399). -/
def State.performStaged (s : State) (t : Task) (ws : List StagedWrite) : State :=
  ws.foldl (fun s w =>
    (pieces w.va w.data.length).foldl (fun s p =>
      let bs := (w.data.drop (p.1 - w.va)).take p.2
      match s.locate p.1 .write with
      | .ok (.home pa, j, d) => (s.noteRange (some (t.tid, 0)) j d true).performWrite (some t.key) pa p.1 bs
      | .ok (.away k pa, j, d) => (s.noteRange (some (t.tid, 0)) j d true).sendRemote t.tid k pa (.write bs) (globalEa p.1)
      | .error _ => s) s) s

/-- A commit fault is held: nothing of the task is performed (R427). -/
def State.holdCommit (s : State) (tid : Nat) (cause : BitVec 8) (eval : W64) : State :=
  { s.modTask tid fun t => { t with held := some (cause, eval, none) } with stamp := s.stamp + 1 }

/-- The oldest task becomes committing: what it has staged is performed (R168). Where the check of R427 does not pass, what it
comes to, with the state that waits for it: a fault holds the commit. -/
def State.becomeCommitting (s : State) (t : Task) : Except (State → State) State :=
  let ws := (t.stage 0).writes
  if t.held.isSome then .error id
  else
    match s.checkStaged t.tid ws with
    | .pass =>
      .ok ((s.performStaged t ws).modTask t.tid fun t =>
        { t.setStage 0 { t.stage 0 with writes := [] } with committing := true })
    | .held => .error id
    | .waits l => .error fun s => s.requestAll t.tid l
    | .fails c v => .error fun s => (s.clearDenied t.tid).holdCommit t.tid c v

/-! ## What a sequencer's own global access comes to -/

/-- A global access of the issuing sequencer that is not made: a trap, a residency wait, or a wait for the reply. -/
def seqGFault (s : State) (e : GFault) : Eff :=
  match e with
  | .fault c v => .trap c v
  | .absent ix ch => .waitAfter (State.requestChunk · s.mySeq.agent ix ch) .other 0
  | .remote _ _ => .wait .other 0
  | .pressed => .wait .other 0

/-- The issuing sequencer's global spans are resident, or it waits for all of them, or a denial traps (R218). -/
def withResidency (s : State) (spans : List (Nat × Nat)) (f : Eff) : Eff :=
  let who := s.mySeq.agent
  match s.residency who spans with
  | .ready => if s.isPressed spans then .wait .other 0 else f
  | .denied va => .trapAfter (State.clearDenied · who) 0x1D (globalEa va)
  | .waits l => .waitAfter (State.requestAll · who l) .other 0

/-! ## Actions that cannot be staged (R168) -/

/-- An action that cannot be staged: in a DUAL task it traps (R349); otherwise it waits until the task is the oldest. -/
def whenOldest (s : State) (f : State → Eff) : Eff :=
  match s.taskAt s.here with
  | none => f s
  | some t =>
    if t.dual then .trapWord 0x2E
    else if s.isOldest t.tid then f (s.bind s.me.task)
    else .wait .other 0

/-- The eval of a cause that another package answers with, for an access to `ea` (R418). -/
def State.causeEval (s : State) (c : BitVec 8) (ea : W64) : W64 :=
  if c = 0x3C then BitVec.ofNat 64 (s.physicalOf (ea.toNat % 2 ^ 60)) else ea

/-- A request that a sequencer makes of another package: whom it asks, the address there, what, and its own address. -/
structure RemoteCall where
  peer : BitVec 8
  pa : Nat
  op : RemoteOp
  ea : W64
  deriving DecidableEq, Repr

/-- The message serves the call of sequencer `me`. -/
def RemoteCall.is (c : RemoteCall) (me : Nat) (m : Sent) : Bool :=
  decide (m.owner = me ∧ m.peer = c.peer ∧ m.pa = c.pa ∧ m.op = c.op)

/-- The calls are answered: their messages are forgotten. -/
def State.endCalls (s : State) (me : Nat) (cs : List RemoteCall) : State :=
  { s with sent := s.sent.filter fun m => !cs.any fun c => c.is me m }

/-- The issuing sequencer sends each call once, with `onSend`, and waits for every reply. The messages stay until `f` ends
them. -/
def remoteCalls (s : State) (cs : List RemoteCall) (limit : Nat) (f : State → Eff) (onSend : State → State := id) : Eff :=
  let me := s.mySeq.agent
  let new := cs.filter fun c => !s.sent.any (c.is me)
  if !new.isEmpty then
    .waitAfter (fun s0 => new.foldl (fun s c => s.sendRemote me c.peer c.pa c.op c.ea) (onSend (s0.bind s0.me.task))) .other
      limit
  else if s.sent.any fun m => m.reply.isNone && cs.any fun c => c.is me m then .wait .other limit
  else f s

/-- One call; `f` has its reply. -/
def remoteCall (s : State) (c : RemoteCall) (limit : Nat) (f : State → Reply → Eff) (onSend : State → State := id) : Eff :=
  let me := s.mySeq.agent
  remoteCalls s [c] limit (fun s => f (s.endCalls me [c]) ((s.sent.find? (c.is me)).bind Sent.reply |>.getD (.data []))) onSend

/-- Reads of other packages that the bytes need. -/
def State.awayReads (s : State) (va n : Nat) : List RemoteCall :=
  (pieces va n).filterMap fun p =>
    match s.locate p.1 .read with
    | .ok (.away k pa, _, _) => some { peer := k, pa := pa, op := .read p.2, ea := globalEa p.1 }
    | _ => none

/-- Writes to other packages that the bytes need. -/
def State.awayWrites (s : State) (va : Nat) (bs : List Byte) : List RemoteCall :=
  (pieces va bs.length).filterMap fun p =>
    match s.locate p.1 .write with
    | .ok (.away k pa, _, _) => some { peer := k, pa := pa, op := .write ((bs.drop (p.1 - va)).take p.2), ea := globalEa p.1 }
    | _ => none

/-- The bytes written in this package; those of other packages are noted as written. -/
def State.writeHome (s : State) (who : Option (Nat × Nat)) (owner : Nat) (panel : BitVec 2) (va : Nat) (bs : List Byte)
    (now : Bool := false) : State :=
  (pieces va bs.length).foldl (fun s p =>
    match s.locate p.1 .write with
    | .ok (.away _ _, j, d) => s.noteRange who j d true
    | _ => s.writePiece who owner panel p.1 ((bs.drop (p.1 - va)).take p.2) now) s

/-! ## The write-interval table (R239) -/

/-- The first byte at which a global access races with the task's table. -/
def tableRace (k : Know) (a : Access) (lo hi : Nat) : List Interval → Option Nat
  | [] => none
  | v :: r =>
    let rest := tableRace k a lo hi r
    if v.lo < hi ∧ lo < v.hi ∧ conflicts a v.acc ∧ !knows k v.acc.agent v.acc.epoch then
      some (match rest with
        | some b => min (max lo v.lo) b
        | none => max lo v.lo)
    else rest

/-- An interval entered: entries of one access that meet or adjoin are one. -/
def enterInterval (v : Interval) : List Interval → List Interval
  | [] => [v]
  | u :: r =>
    if u.acc = v.acc ∧ u.job = v.job ∧ u.lo ≤ v.hi ∧ v.lo ≤ u.hi then
      { u with lo := min u.lo v.lo, hi := max u.hi v.hi } :: r
    else u :: enterInterval v r

/-- Two intervals are parts of one entry: their kind, sequencer and ordering epoch are equal, and they meet or adjoin. -/
def Interval.joins (u v : Interval) : Bool :=
  decide (u.acc.write = v.acc.write ∧ u.issuer = v.issuer ∧ u.epoch = v.epoch ∧ u.lo ≤ v.hi ∧ v.lo ≤ u.hi)

/-- The intervals as entries: each takes in those that it joins. -/
def mergeIntervals (l : List Interval) : List Interval :=
  l.foldl (fun acc v =>
    let same := acc.filter v.joins
    same.foldl (fun (v : Interval) u => { v with lo := min v.lo u.lo, hi := max v.hi u.hi }) v ::
      acc.filter fun u => !v.joins u) []

/-- The entry is retired: its move has completed, and every sequencer of the task that has not ended has made an access
ordered after it. -/
def State.retired (s : State) (t : Task) (v : Interval) : Bool :=
  (match v.job with
   | some id => !s.moves.any (fun m => m.job.id = id) && !s.colls.any (fun m => m.job.id = id)
   | none => true) &&
  t.shuttles.all fun n =>
    [Stream.c, .l, .x, .s].all fun st =>
      let q := (s.shuttle n).seq st
      decide (q.run = .ended ∨ q.run = .idle) || knows q.atAccess v.acc.agent v.acc.epoch

/-- Unretired entries of a panel, with some more; accesses of other packages take no room in it. -/
def State.unretired (s : State) (t : Task) (panel : BitVec 2) (more : List Interval) : Nat :=
  (mergeIntervals ((t.table.filter fun v =>
    decide (panelOf v.acc.home = panel ∧ v.acc.agent < 2 ^ 64) && !s.retired t v) ++ more)).length

/-- Entries a panel's table holds. -/
def tableSize : Nat := 4096

end Sys2Proof.Machine
end

