-- ==== Sys2Proof/Machine/Num.lean ====
section
/-! DEFINITION. Number formats, rounding, flags and the exact accumulator cells (R102 to R114). Every finite value is a
sign, a magnitude and a power of two, so every operation is exact until its one rounding (R106). -/

namespace Sys2Proof.Machine
open Sys2Proof

/-! ## Values -/

/-- Rounding modes in the coding of mf 1 to 5 (R31, R106). -/
inductive RMode where
  | rne | rtz | rdn | rup | rna
  deriving DecidableEq, Repr

/-- The mode of a code; 0, 6 and 7 are settled as RNE where they can stand (R89, R117). -/
def rmOfCode : Nat → RMode
  | 2 => .rtz | 3 => .rdn | 4 => .rup | 5 => .rna | _ => .rne

/-- Formats in the coding of R116; code 15 is reserved. -/
inductive Fmt where
  | fp32 | fp16 | bf16 | zf8 | sp8 | int8 | nat8 | int16 | nat16 | int32 | nat32 | int64 | nat64 | xacc128 | xa64 | rsv
  deriving DecidableEq, Repr

def fmtOfCode : Nat → Fmt
  | 0 => .fp32 | 1 => .fp16 | 2 => .bf16 | 3 => .zf8 | 4 => .sp8 | 5 => .int8 | 6 => .nat8 | 7 => .int16
  | 8 => .nat16 | 9 => .int32 | 10 => .nat32 | 11 => .int64 | 12 => .nat64 | 13 => .xacc128 | 14 => .xa64 | _ => .rsv

/-- Width in bytes (R124); XACC128 and XA64 as stored (R114). -/
def Fmt.width : Fmt → Nat
  | .fp32 => 4 | .fp16 => 2 | .bf16 => 2 | .zf8 => 1 | .sp8 => 1 | .int8 => 1 | .nat8 => 1 | .int16 => 2 | .nat16 => 2
  | .int32 => 4 | .nat32 => 4 | .int64 => 8 | .nat64 => 8 | .xacc128 => 16 | .xa64 => 8 | .rsv => 4

def Fmt.isFloat : Fmt → Bool
  | .fp32 => true | .fp16 => true | .bf16 => true | .zf8 => true | _ => false

/-- Exponent bits, mantissa bits and bias of a float format (R102). -/
structure FloatShape where
  ebits : Nat
  mbits : Nat
  bias : Nat

def Fmt.shape : Fmt → FloatShape
  | .fp16 => ⟨5, 10, 15⟩ | .bf16 => ⟨8, 7, 127⟩ | .zf8 => ⟨4, 3, 7⟩ | _ => ⟨8, 23, 127⟩

/-- Flag bits of a status register (R13). -/
def fNX : W64 := 1
def fUF : W64 := 2
def fOF : W64 := 4
def fDZ : W64 := 8
def fNV : W64 := 16
def fXOV : W64 := 32

/-! ## Reading codes (R102 to R105) -/

def floatValue (f : Fmt) (code : Nat) : FVal :=
  let p := f.shape
  let neg := decide (code / 2 ^ (p.ebits + p.mbits) % 2 = 1)
  let e := code / 2 ^ p.mbits % 2 ^ p.ebits
  let m := code % 2 ^ p.mbits
  if f = .zf8 ∧ code % 256 = 0x80 then .nan false
  else if f ≠ .zf8 ∧ e = 2 ^ p.ebits - 1 then
    if m = 0 then .inf neg else .nan (decide (m < 2 ^ (p.mbits - 1)))
  else if e = 0 then .fin neg m (1 - p.bias - p.mbits)
  else .fin neg (m + 2 ^ p.mbits) ((e : Int) - p.bias - p.mbits)

/-- One term of an SP8 weight in units of 2^-7 (R104). -/
def sp8Term (t : Nat) : Int :=
  let c := t % 8
  if c = 0 then 0 else if t / 8 % 2 = 1 then -(2 ^ (c - 1) : Nat) else ((2 ^ (c - 1) : Nat) : Int)

/-- An integer in units of 2^e. -/
def valueOfInt (x : Int) (e : Int) : FVal := .fin (decide (x < 0)) x.natAbs e

/-- The value of a code; the raw accumulator formats are not read here. -/
def fmtValue (f : Fmt) (code : Nat) : FVal :=
  match f with
  | .fp32 => floatValue .fp32 code | .fp16 => floatValue .fp16 code | .bf16 => floatValue .bf16 code
  | .zf8 => floatValue .zf8 code
  | .sp8 => valueOfInt (sp8Term (code / 16 % 16) + sp8Term (code % 16)) (-7)
  | .int8 => valueOfInt (sintOf 8 code) 0 | .int16 => valueOfInt (sintOf 16 code) 0
  | .int32 => valueOfInt (sintOf 32 code) 0 | .int64 => valueOfInt (sintOf 64 code) 0
  | .nat8 => .fin false (code % 2 ^ 8) 0 | .nat16 => .fin false (code % 2 ^ 16) 0
  | .nat32 => .fin false (code % 2 ^ 32) 0 | _ => .fin false (code % 2 ^ 64) 0

/-! ## Rounding (R106) -/

/-- `m / 2^sh` rounded to an integer magnitude, and whether that is inexact. -/
def roundShift (rm : RMode) (neg : Bool) (m sh : Nat) : Nat × Bool :=
  let q := m / 2 ^ sh
  let r := m % 2 ^ sh
  let up :=
    match rm with
    | .rne => decide (2 ^ sh < 2 * r) || (decide (2 ^ sh = 2 * r) && decide (q % 2 = 1))
    | .rtz => false
    | .rdn => neg && decide (r ≠ 0)
    | .rup => !neg && decide (r ≠ 0)
    | .rna => decide (r ≠ 0) && decide (2 ^ sh ≤ 2 * r)
  (if up then q + 1 else q, decide (r ≠ 0))

/-- `m * 2^e` rounded to a multiple of `2^q`. -/
def roundAt (rm : RMode) (neg : Bool) (m : Nat) (e q : Int) : Nat × Bool :=
  if q ≤ e then (m * 2 ^ (e - q).toNat, false) else roundShift rm neg m (q - e).toNat

/-- The canonical NaN of a float format (R102). -/
def canonicalNan : Fmt → Nat
  | .fp16 => 0x7E00 | .bf16 => 0x7FC0 | .zf8 => 0x80 | _ => 0x7FC00000

/-- The code with sign, exponent field and mantissa field. -/
def packFloat (f : Fmt) (neg : Bool) (e m : Nat) : Nat :=
  let p := f.shape
  (if neg then 2 ^ (p.ebits + p.mbits) else 0) + e * 2 ^ p.mbits + m

def infCode (f : Fmt) (neg : Bool) : Nat :=
  if f = .zf8 then packFloat f neg 15 7 else packFloat f neg (2 ^ f.shape.ebits - 1) 0

def maxCode (f : Fmt) (neg : Bool) : Nat :=
  if f = .zf8 then packFloat f neg 15 7 else packFloat f neg (2 ^ f.shape.ebits - 2) (2 ^ f.shape.mbits - 1)

/-- The largest exponent of a finite value. -/
def maxExp (f : Fmt) : Int := if f = .zf8 then 8 else f.shape.bias

/-- The code of an overflow in the mode (R107). -/
def overflowCode (f : Fmt) (rm : RMode) (neg : Bool) : Nat :=
  match rm with
  | .rne => infCode f neg | .rna => infCode f neg
  | .rtz => maxCode f neg
  | .rdn => if neg then infCode f neg else maxCode f neg
  | .rup => if neg then maxCode f neg else infCode f neg

/-- A finite non-zero magnitude rounded into a float format, with its flags; tininess is judged after rounding (R107). -/
def roundFinite (f : Fmt) (rm : RMode) (neg : Bool) (m : Nat) (e : Int) : Nat × W64 :=
  let p := f.shape
  let emin : Int := 1 - p.bias
  let top : Int := bitLen m - 1 + e
  let q : Int := max (top - p.mbits) (emin - p.mbits)
  let r := roundAt rm neg m e q
  let n := r.1
  let inexact := r.2
  let newTop : Int := bitLen n - 1 + q
  if maxExp f < newTop ∧ n ≠ 0 then (overflowCode f rm neg, fOF ||| fNX)
  else
    let free := roundAt rm neg m e (top - p.mbits)
    let tiny := decide ((bitLen free.1 : Int) - 1 + (top - p.mbits) < emin)
    let flags := if inexact then (if tiny then fUF ||| fNX else fNX) else 0
    if n = 0 then (if f = .zf8 then 0 else packFloat f neg 0 0, flags)
    else if n < 2 ^ p.mbits then (packFloat f neg 0 n, flags)
    else
      let sh := bitLen n - 1 - p.mbits
      (packFloat f neg (newTop + p.bias).toNat (n / 2 ^ sh - 2 ^ p.mbits), flags)

/-- A value rounded into a float format (R107). -/
def roundFloat (f : Fmt) (rm : RMode) : FVal → Nat × W64
  | .nan sig => (canonicalNan f, if sig then fNV else 0)
  | .inf neg => (infCode f neg, if f = .zf8 then fOF else 0)
  | .fin neg m e => if m = 0 then (if f = .zf8 then 0 else packFloat f neg 0 0, 0) else roundFinite f rm neg m e

/-- Range of an integer format. -/
def Fmt.intRange : Fmt → Int × Int
  | .int8 => (-2 ^ 7, 2 ^ 7 - 1) | .int16 => (-2 ^ 15, 2 ^ 15 - 1) | .int32 => (-2 ^ 31, 2 ^ 31 - 1)
  | .int64 => (-2 ^ 63, 2 ^ 63 - 1) | .nat8 => (0, 2 ^ 8 - 1) | .nat16 => (0, 2 ^ 16 - 1) | .nat32 => (0, 2 ^ 32 - 1)
  | _ => (0, 2 ^ 64 - 1)

/-- A value rounded into an integer format (R108). -/
def roundInt (f : Fmt) (rm : RMode) (v : FVal) : Nat × W64 :=
  let r := f.intRange
  let w := 8 * f.width
  match v with
  | .nan _ => (0, fNV)
  | .inf neg => (lowBits w (if neg then r.1 else r.2), fNV)
  | .fin neg m e =>
    let q := roundAt rm neg m e 0
    let x : Int := if neg then -(q.1 : Int) else q.1
    if x < r.1 then (lowBits w r.1, fNV) else if r.2 < x then (lowBits w r.2, fNV)
    else (lowBits w x, if q.2 then fNX else 0)

/-- A value rounded into a format of elements. -/
def roundFmt (f : Fmt) (rm : RMode) (v : FVal) : Nat × W64 := if f.isFloat then roundFloat f rm v else roundInt f rm v

/-! ## Exact operations (R106, R107, R133, R134) -/

def FVal.isNan : FVal → Bool
  | .nan _ => true | _ => false
def FVal.isSnan : FVal → Bool
  | .nan s => s | _ => false
def FVal.isZero : FVal → Bool
  | .fin _ m _ => decide (m = 0) | _ => false
def FVal.neg : FVal → FVal
  | .nan s => .nan s | .inf n => .inf (!n) | .fin n m e => .fin (!n) m e
def FVal.sign : FVal → Bool
  | .nan _ => false | .inf n => n | .fin n _ _ => n
/-- Times a power of two. -/
def FVal.scale (k : Int) : FVal → FVal
  | .fin n m e => .fin n m (e + k) | v => v

/-- NV for signalling operands. -/
def snanFlags (a b : FVal) : W64 := if a.isSnan || b.isSnan then fNV else 0

/-- The integer `(-1)^neg * m * 2^(e - q)`, for `q` at most `e`. -/
def alignTo (neg : Bool) (m : Nat) (e q : Int) : Int :=
  let x : Int := m * 2 ^ (e - q).toNat
  if neg then -x else x

/-- Exact sum; the sign of an exact zero follows IEEE 754 in the mode. -/
def addVal (rm : RMode) (a b : FVal) : FVal × W64 :=
  match a, b with
  | .nan x, .nan y => (.nan false, if x || y then fNV else 0)
  | .nan x, _ => (.nan false, if x then fNV else 0)
  | _, .nan y => (.nan false, if y then fNV else 0)
  | .inf x, .inf y => if x = y then (.inf x, 0) else (.nan false, fNV)
  | .inf x, _ => (.inf x, 0)
  | _, .inf y => (.inf y, 0)
  | .fin n1 m1 e1, .fin n2 m2 e2 =>
    let q := min e1 e2
    let x := alignTo n1 m1 e1 q + alignTo n2 m2 e2 q
    if x = 0 then
      if m1 = 0 ∧ m2 = 0 ∧ n1 = n2 then (.fin n1 0 q, 0) else (.fin (decide (rm = .rdn)) 0 q, 0)
    else (.fin (decide (x < 0)) x.natAbs q, 0)

/-- Exact product. -/
def mulVal (a b : FVal) : FVal × W64 :=
  match a, b with
  | .nan x, .nan y => (.nan false, if x || y then fNV else 0)
  | .nan x, _ => (.nan false, if x then fNV else 0)
  | _, .nan y => (.nan false, if y then fNV else 0)
  | .inf x, .inf y => (.inf (xor x y), 0)
  | .inf x, .fin n m _ => if m = 0 then (.nan false, fNV) else (.inf (xor x n), 0)
  | .fin n m _, .inf y => if m = 0 then (.nan false, fNV) else (.inf (xor n y), 0)
  | .fin n1 m1 e1, .fin n2 m2 e2 => (.fin (xor n1 n2) (m1 * m2) (e1 + e2), 0)

/-- Quotient with more bits than any format keeps, its lowest bit sticky. -/
def divVal (a b : FVal) : FVal × W64 :=
  match a, b with
  | .nan x, .nan y => (.nan false, if x || y then fNV else 0)
  | .nan x, _ => (.nan false, if x then fNV else 0)
  | _, .nan y => (.nan false, if y then fNV else 0)
  | .inf _, .inf _ => (.nan false, fNV)
  | .inf x, .fin n _ _ => (.inf (xor x n), 0)
  | .fin n _ _, .inf y => (.fin (xor n y) 0 0, 0)
  | .fin n1 m1 e1, .fin n2 m2 e2 =>
    if m2 = 0 then (if m1 = 0 then (.nan false, fNV) else (.inf (xor n1 n2), fDZ))
    else
      let k := 64 + bitLen m2
      let x := m1 * 2 ^ k
      (.fin (xor n1 n2) (2 * (x / m2) + (if x % m2 = 0 then 0 else 1)) (e1 - e2 - k - 1), 0)

/-- Integer square root, one bit at a time: the largest root below `2^(i+1)` above `r`. -/
def isqrtBits (n : Nat) : Nat → Nat → Nat
  | 0, r => if (r + 1) * (r + 1) ≤ n then r + 1 else r
  | i + 1, r => isqrtBits n i (if (r + 2 ^ (i + 1)) * (r + 2 ^ (i + 1)) ≤ n then r + 2 ^ (i + 1) else r)

def isqrt (n : Nat) : Nat := isqrtBits n (bitLen n / 2 + 1) 0

/-- Square root, its lowest bit sticky (R135). -/
def sqrtVal (a : FVal) : FVal × W64 :=
  match a with
  | .nan s => (.nan false, if s then fNV else 0)
  | .inf n => if n then (.nan false, fNV) else (.inf false, 0)
  | .fin n m e =>
    if m = 0 then (.fin n 0 0, 0)
    else if n then (.nan false, fNV)
    else
      let k : Nat := if (e % 2 = 0) then 80 else 81
      let x := m * 2 ^ k
      let r := isqrt x
      (.fin false (2 * r + (if r * r = x then 0 else 1)) ((e - k) / 2 - 1), 0)

/-- Product plus addend, exact; a NaN product wins over a quiet NaN addend (R134). -/
def fmaVal (rm : RMode) (a b c : FVal) : FVal × W64 :=
  let p := mulVal a b
  let r := addVal rm p.1 c
  (r.1, p.2 ||| r.2 ||| (if c.isSnan then fNV else 0))

/-- Order of two values that are not NaN, with -0 equal to +0: less, equal or greater as -1, 0 or 1. -/
def cmpVal (a b : FVal) : Int :=
  match a, b with
  | .inf x, .inf y => if x = y then 0 else if x then -1 else 1
  | .inf x, _ => if x then -1 else 1
  | _, .inf y => if y then 1 else -1
  | .fin n1 m1 e1, .fin n2 m2 e2 =>
    let q := min e1 e2
    let x := alignTo n1 m1 e1 q - alignTo n2 m2 e2 q
    if x < 0 then -1 else if x = 0 then 0 else 1
  | _, _ => 0

/-- Order with -0 below +0 (R133, R152). -/
def totalLt (a b : FVal) : Bool :=
  let c := cmpVal a b
  decide (c < 0) || (decide (c = 0) && a.isZero && b.isZero && a.sign && !b.sign)

/-- A value rounded to an integral value in the mode (R135). -/
def rintVal (rm : RMode) (a : FVal) : FVal × W64 :=
  match a with
  | .nan s => (.nan false, if s then fNV else 0)
  | .inf n => (.inf n, 0)
  | .fin n m e => let q := roundAt rm n m e 0; (.fin n q.1 0, if q.2 then fNX else 0)

/-! ## Estimates (R136) -/

/-- A magnitude truncated to 12 significant bits: the truncation, and whether bits were lost. -/
def trunc12 (m : Nat) (e : Int) : Nat × Int × Bool :=
  let l := bitLen m
  if l ≤ 12 then (m, e, false) else (m / 2 ^ (l - 12), e + (l - 12 : Nat), decide (m % 2 ^ (l - 12) ≠ 0))

/-- An estimate's result from a magnitude of the exact value, `more` telling that the exact value has bits below it. -/
def estimate (f : Fmt) (neg : Bool) (m : Nat) (e : Int) (more : Bool) : Nat × W64 :=
  let t := trunc12 m e
  let r := roundFloat f .rtz (.fin neg t.1 t.2.1)
  (r.1, r.2 ||| (if t.2.2 || more then fNX else 0))

def recipEstimate (f : Fmt) (a : FVal) : Nat × W64 :=
  match a with
  | .nan s => (canonicalNan f, if s then fNV else 0)
  | .inf n => (packFloat f n 0 0, 0)
  | .fin n m e =>
    if m = 0 then (infCode f n, fDZ)
    else
      let k := 40 + bitLen m
      estimate f n (2 ^ k / m) (-e - k) (decide (2 ^ k % m ≠ 0))

def rsqrtEstimate (f : Fmt) (a : FVal) : Nat × W64 :=
  match a with
  | .nan s => (canonicalNan f, if s then fNV else 0)
  | .inf n => if n then (canonicalNan f, fNV) else (packFloat f false 0 0, 0)
  | .fin n m e =>
    if m = 0 then (infCode f n, fDZ)
    else if n then (canonicalNan f, fNV)
    else
      -- 1 / sqrt(m * 2^e) = sqrt(2^k / m) * 2^((-e - k) / 2), with e + k even
      let k0 := 80 + bitLen m
      let k := if (e + k0) % 2 = 0 then k0 else k0 + 1
      let x := 2 ^ k / m
      let r := isqrt x
      estimate f false r ((-e - k) / 2) (decide (r * r ≠ x) || decide (2 ^ k % m ≠ 0))

/-- Fraction bits of the fixed-point work for 2^a and log2(a) (assumption log 7). -/
def workBits : Nat := 208

/-- 2^(fraction) by the square roots of 2: `i` counts the fraction bits still to come, `c` is 2^(2^-j). -/
def exp2Bits (frac : Nat) : Nat → Nat → Nat → Nat
  | 0, _, r => r
  | i + 1, c, r =>
    let c1 := isqrt (c * 2 ^ workBits)
    exp2Bits frac i c1 (if frac / 2 ^ i % 2 = 1 then r * c1 / 2 ^ workBits else r)

def exp2Estimate (f : Fmt) (a : FVal) : Nat × W64 :=
  match a with
  | .nan s => (canonicalNan f, if s then fNV else 0)
  | .inf n => if n then (packFloat f false 0 0, 0) else (infCode f false, 0)
  | .fin n m e =>
    if 0 ≤ e then
      let x : Int := if n then -(min (m * 2 ^ (min e 20).toNat) 5000 : Nat) else (min (m * 2 ^ (min e 20).toNat) 5000 : Nat)
      estimate f false 1 x false
    else
      let d := (-e).toNat
      let x : Int := if n then -(m : Int) else m
      let whole := x / 2 ^ d
      let frac := (x % 2 ^ d).toNat
      let w : Int := max (-5000) (min 5000 whole)
      if frac = 0 then estimate f false 1 w false
      else
        let fw := if d ≤ workBits then frac * 2 ^ (workBits - d) else frac / 2 ^ (d - workBits)
        estimate f false (exp2Bits fw workBits (2 * 2 ^ workBits) (2 ^ workBits)) (w - workBits) true

/-- Bits of log2 of `x / 2^workBits`, 1 up to 2, by squaring. -/
def log2Bits : Nat → Nat → Nat → Nat
  | 0, _, acc => acc
  | i + 1, x, acc =>
    let y := x * x / 2 ^ workBits
    if 2 * 2 ^ workBits ≤ y then log2Bits i (y / 2) (2 * acc + 1) else log2Bits i y (2 * acc)

/-- Fraction bits of log2 that are worked out. -/
def logBits : Nat := 90

def log2Estimate (f : Fmt) (a : FVal) : Nat × W64 :=
  match a with
  | .nan s => (canonicalNan f, if s then fNV else 0)
  | .inf n => if n then (canonicalNan f, fNV) else (infCode f false, 0)
  | .fin n m e =>
    if m = 0 then (infCode f true, fDZ)
    else if n then (canonicalNan f, fNV)
    else
      let l := bitLen m
      let whole : Int := l - 1 + e
      if m = 2 ^ (l - 1) then estimate f (decide (whole < 0)) whole.natAbs 0 false
      else
        let frac := log2Bits logBits (m * 2 ^ workBits / 2 ^ (l - 1)) 0
        let y : Int := whole * 2 ^ logBits + frac
        if 0 ≤ y then estimate f false y.natAbs (-logBits) true
        else estimate f true (y.natAbs - 1) (-logBits) true

/-! ## Exact accumulator cells (R110 to R114) -/

/-- An accumulator cell of any width: its residue as an integer and its tags. -/
structure Acc where
  c : Int
  nan : Bool
  pinf : Bool
  ninf : Bool
  deriving DecidableEq, Repr

def Acc.empty : Acc := { c := 0, nan := false, pinf := false, ninf := false }

/-- An integer taken modulo `2^w` into the signed range. -/
def wrapInt (w : Nat) (x : Int) : Int := sintOf w (lowBits w x)

/-- A contribution, to a cell of `w` bits whose lowest bit weighs `2^lsb` (R111). -/
def contribute (w : Nat) (lsb : Int) (a : Acc) (v : FVal) (bad : W64) : Acc × W64 :=
  match v with
  | .nan s => ({ a with nan := true }, bad ||| (if s then fNV else 0))
  | .inf false => ({ a with pinf := true }, bad)
  | .inf true => ({ a with ninf := true }, bad)
  | .fin n m e =>
    let q := roundAt .rne n m e lsb
    ({ a with c := wrapInt w (a.c + (if n then -(q.1 : Int) else q.1)) }, bad ||| (if q.2 then fNX else 0))

/-- The checked value of a residue: XOV and the nearer end outside the window of `w` bits (R113). -/
def checkedResidue (w : Nat) (c : Int) : Int × W64 :=
  if c < -2 ^ (w - 1) then (-2 ^ (w - 1), fXOV) else if 2 ^ (w - 1) - 1 < c then (2 ^ (w - 1) - 1, fXOV) else (c, 0)

/-- Significand and exponent of a positive normal FP32 scale (R114). -/
def scaleParts (sc : Nat) : Nat × Int := (sc % 2 ^ 23 + 2 ^ 23, (sc / 2 ^ 23 % 256 : Nat) - 127)

/-- Scales, exponent, format and mode of an output conversion. -/
structure OutConv where
  fo : Fmt
  rm : RMode
  sca : Nat
  scb : Nat
  osx : Int
  deriving DecidableEq, Repr

def unitScale : Nat := 0x3F800000

/-- The value of R114 before OSX, exact: `c * m * 2^(a0 + ea + eb - 46)`. -/
def scaledValue (o : OutConv) (a0 : Int) (c : Int) : FVal :=
  let pa := scaleParts o.sca
  let pb := scaleParts o.scb
  valueOfInt (c * (pa.1 * pb.1 : Nat)) (a0 + pa.2 + pb.2 - 46)

/-- A zero result to a float format is +0 (R114). -/
def plusZero (f : Fmt) (c : Nat) : Nat := if f.isFloat ∧ f ≠ .zf8 ∧ c = packFloat f true 0 0 then 0 else c

/-- Output conversion of a cell whose window has `w` bits and whose lowest bit weighs `2^a0` (R113, R114). -/
def outputCell (o : OutConv) (w : Nat) (a0 : Int) (a : Acc) : Nat × W64 :=
  let raw := decide (o.fo = .xacc128 ∨ o.fo = .xa64)
  if a.nan || (a.pinf && a.ninf) then
    if raw then (lowBits w (-2 ^ (w - 1)), fNV)
    else if o.fo.isFloat then (canonicalNan o.fo, fNV) else (0, fNV)
  else if a.pinf then (if raw then (lowBits w (2 ^ (w - 1) - 1), 0) else roundFmt o.fo o.rm (.inf false))
  else if a.ninf then (if raw then (lowBits w (-2 ^ (w - 1)), 0) else roundFmt o.fo o.rm (.inf true))
  else
    let c := checkedResidue w a.c
    if raw then (lowBits w c.1, c.2)
    else
      let r :=
        match (scaledValue o a0 c.1).scale o.osx with
        | .fin n m e => if m = 0 then roundFmt o.fo o.rm (.fin false 0 e) else roundFmt o.fo o.rm (.fin n m e)
        | v => roundFmt o.fo o.rm v
      (plusZero o.fo r.1, r.2 ||| c.2)

end Sys2Proof.Machine
end

