-- ==== Sys2Proof/Machine/Diff.lean ====
section
/-! DEFINITION. Differentiable Pocket regions, shadow cells and the tape (R255 to R272). -/

namespace Sys2Proof.Machine
open Sys2Proof

/-! ## Regions (R255, R257) -/

/-- A valid Pocket region of a shuttle. -/
structure Region where
  fmt : Fmt
  base : Nat
  len : Nat
  shb : Nat
  anc : Int
  deriving DecidableEq, Repr

def Region.w (r : Region) : Nat := r.fmt.width
/-- Cells of the shadow area. -/
def Region.shadowCells (r : Region) : Nat := 16 * r.len / r.w

def regionOf (d : W64) : Option Region :=
  if d.getLsbD 51 then
    some { fmt := fmtOfCode (bitsOf d 52 4), base := bitsOf d 0 17, len := bitsOf d 17 17, shb := bitsOf d 34 17,
           anc := sintOf 8 (bitsOf d 56 8) }
  else none

/-- The region that holds byte `b` of the Pocket of shuttle `n`. -/
def State.regionAt (s : State) (n : ShNo) (b : Nat) : Option Region :=
  (s.shuttle n).dpr.toList.findSome? fun d =>
    match regionOf d with
    | some r => if 8 * r.base ≤ b ∧ b < 8 * (r.base + r.len) then some r else none
    | none => none

/-- Place of the shadow cell of the element at byte `b`. -/
def Region.shadow (r : Region) (n : ShNo) (b : Nat) : Nat :=
  pocketPlace n (8 * r.shb + 16 * ((b - 8 * r.base) / r.w))

/-- A written value of a dpr register, and whether it is refused with WARN (R257). -/
def dprValue (others : List W64) (v : W64) : W64 × Bool :=
  match regionOf v with
  | none => (v, false)
  | some r =>
    let meets (a m b n : Nat) : Bool := decide (a < b + n) && decide (b < a + m)
    let bad := decide (3 < bitsOf v 52 4) || decide (r.len = 0) || decide (98304 < r.base + r.len) ||
      decide (98304 < r.shb + r.shadowCells) || meets r.base r.len r.shb r.shadowCells ||
      others.any fun d =>
        match regionOf d with
        | some o =>
          meets r.base r.len o.base o.len || meets r.base r.len o.shb o.shadowCells ||
          meets r.shb r.shadowCells o.base o.len || meets r.shb r.shadowCells o.shb o.shadowCells
        | none => false
    if bad then (v &&& ~~~(0x8000000000000 : W64), true) else (v, false)

/-! ## Shadow cells (R259, R263, R264) -/

def accOfBytes (bs : List Byte) : Acc :=
  let t := (bs.getD 9 0)
  { c := sintOf 72 (leNat (bs.take 9)), nan := t.getLsbD 0, pinf := t.getLsbD 1, ninf := t.getLsbD 2 }

def bytesOfAcc (a : Acc) : List Byte :=
  leBytes 9 (lowBits 72 a.c) ++
    leBytes 7 ((if a.nan then 1 else 0) + (if a.pinf then 2 else 0) + (if a.ninf then 4 else 0))

/-- A value contributed to a shadow cell of bytes, at anchor `anc`. -/
def contributeBytes (anc : Int) (v : FVal) (bs : List Byte) : List Byte × W64 :=
  let r := contribute 72 (anc - 40) (accOfBytes bs) v 0
  (bytesOfAcc r.1, r.2)

/-- The conversion of every shadow cell. -/
def shadowConv (fo : Fmt) : OutConv := { fo := fo, rm := .rne, sca := unitScale, scb := unitScale, osx := 0 }

/-- The value taken from a shadow cell, with its flags. -/
def takeBytes (anc : Int) (fo : Fmt) (bs : List Byte) : Nat × W64 :=
  outputCell (shadowConv fo) 64 (anc - 40) (accOfBytes bs)

/-- The value that one shadow cell contributes to another (R263). -/
def accValue (lsb : Int) (w : Nat) (a : Acc) : FVal × W64 :=
  if a.nan || (a.pinf && a.ninf) then (.nan false, 0)
  else if a.pinf then (.inf false, 0)
  else if a.ninf then (.inf true, 0)
  else
    let c := checkedResidue w a.c
    (valueOfInt c.1 lsb, c.2)

/-- A contribution to the shadow cell at a place, its flags in the status of the issuing sequencer. -/
def State.contributeAt (s : State) (place : Nat) (anc : Int) (v : FVal) : State :=
  let r := contributeBytes anc v (memBytes s.mem place 16)
  (s.putBytes place r.1).orStatus s.here s.stream r.2

/-- The shadow cell at a place taken into a format, and left empty. -/
def State.takeAt (s : State) (place : Nat) (anc : Int) (fo : Fmt) : Nat × State :=
  let r := takeBytes anc fo (memBytes s.mem place 16)
  (r.1, (s.putBytes place (List.replicate 16 0)).orStatus s.here s.stream r.2)

/-! ## Mode (R260) -/

/-- The issuing sequencer acts in reverse mode; C in monitor mode never does. -/
def State.reversed (s : State) : Bool := s.taskMode && s.mySeq.status.getLsbD 16

/-! ## Tape records (R269, R270) -/

def Seq.tapeBase (q : Seq) : Nat := bitsOf q.dtb 6 50 * 64
def Seq.tapePtr (q : Seq) : Nat := bitsOf q.dtp 0 32
def Seq.tapeLim (q : Seq) : Nat := bitsOf q.dtp 32 32
def Seq.setTapePtr (q : Seq) (p : Nat) : Seq :=
  { q with dtp := (q.dtp &&& 0xFFFFFFFF00000000) ||| BitVec.ofNat 64 (p % 2 ^ 32) }

/-- A record header. -/
def tapeHeader (kind len : Nat) (h1 h2 h3 : W64) : List Byte :=
  leBytes 8 (kind * 2 ^ 56 + len % 2 ^ 24 * 2 ^ 32) ++ leBytes 8 h1.toNat ++ leBytes 8 h2.toNat ++ leBytes 8 h3.toNat ++
    List.replicate 32 0

/-- eval of causes 0x27 and 0x28. -/
def tapeEval (st : Stream) (len : Nat) : W64 :=
  BitVec.ofNat 64 (len * 64 % 2 ^ 32 + (match st with | .c => 0 | .l => 1 | .x => 0 | .s => 2) * 2 ^ 32)

/-- The whole extent lies in one range that grants `need`, and is resident (R214, R271). -/
def State.extentFault (s : State) (va n : Nat) (need : Perm) : Option GFault :=
  match s.rangeOf va with
  | .error c => some (.fault c (globalEa va))
  | .ok (_, d) =>
    if d.stop < va + n then some (.fault 0x1B (globalEa d.stop))
    else if !d.grants need then some (.fault 0x1C (globalEa va))
    else none

/-- The issuing sequencer enters an access to global bytes in the task's table, or takes the race (R236, R239). -/
def withIntervals (s : State) (write : Bool) (kind : AccKind) (ext : Ext) (spans : List (Nat × Nat)) (f : State → Eff) :
    Eff :=
  match s.taskAt s.here with
  | none => f s
  | some t =>
    let s1 := s.tickSeq s.here s.stream
    let a := s1.accessOf s.here s.stream write kind ext
    match spans.findSome? fun p => tableRace s1.mySeq.know a p.1 (p.1 + p.2) t.table with
    | some b => .trap 0x20 (globalEa b)
    | none =>
      f (s1.modTask t.tid fun t =>
        { t with table := spans.foldl (fun l p => enterInterval (own a p) l) t.table })
where
  /-- the interval of a span -/
  own (a : Access) (p : Nat × Nat) : Interval :=
    { lo := p.1, hi := p.1 + p.2, acc := a, issuer := a.agent, epoch := s.mySeq.era, job := none }

/-- One span of global bytes. -/
def withInterval (s : State) (write : Bool) (kind : AccKind) (ext : Ext) (va n : Nat) (f : State → Eff) : Eff :=
  withIntervals s write kind ext [(va, n)] f

/-- `s1` follows `s`, and where `past` holds of the issuing sequencer's task there, it passes its staging share: it waits until it
is the oldest, and is committing from then on (R168). -/
def withShare (s s1 : State) (past : Task → Nat → Bool) (f : State → Eff) : Eff :=
  match s.me.task.bind fun p => (s1.taskOf p.1).map fun t => (t, p.2) with
  | none => f s1
  | some (t, rank) =>
    if t.committing || !past t rank then f s1
    else if t.dual then .trapWord 0x2E
    else if !s.isOldest t.tid then .wait .other 0
    else
      match s1.becomeCommitting t with
      | .ok s2 => f s2
      | .error g => .waitAfter g .other 0

/-- The issuing sequencer has staged in `s1`, which follows `s`. -/
def seqShare (s s1 : State) (f : State → Eff) : Eff := withShare s s1 (fun t rank => t.overShare rank (panelOf s.here)) f

/-- Global bytes written by the issuing sequencer: staged, or, where they cannot be, performed by the oldest task, those of
another package once they are acknowledged there (R168, R271, R399). -/
def seqWrite (s : State) (va : Nat) (bs : List Byte) (f : State → Eff) : Eff :=
  match s.extentFault va bs.length .write with
  | some e => seqGFault s e
  | none =>
    withResidency s [(va, bs.length)] (
      match s.writeFault va bs.length with
      | some e => seqGFault s e
      | none =>
        let go (s : State) : Eff :=
          withInterval s true .plain s.ownExt va bs.length fun s =>
            let me := s.mySeq.agent
            let calls := s.awayWrites va bs
            remoteCalls s calls 0 fun s =>
              match (s.sent.filter fun m => calls.any fun c => c.is me m).findSome? fun m =>
                (m.reply.bind replyCause).map fun c => (c, s.causeEval c m.ea) with
              | some (c, v) => .trapAfter (State.endCalls · me calls) c v
              | none => seqShare s ((s.endCalls me calls).writeHome s.me.task me (panelOf s.here) va bs) f
        if s.unstageable va bs.length then whenOldest s go else go s)

/-- Global bytes read by the issuing sequencer; bytes of another package by the oldest task (R168, R399). With `keep` the replies
stay for a further read of the instruction. -/
def seqRead (s : State) (va n : Nat) (keep : Bool) (f : State → List Byte → Eff) : Eff :=
  withResidency s [(va, n)] (
    let me := s.mySeq.agent
    let calls := s.awayReads va n
    let go (s : State) : Eff :=
      withInterval s false .plain s.ownExt va n fun s =>
        remoteCalls s calls 0 fun s =>
          match s.readGlobal s.me.task me va n with
          | .error (.fault c v) => .trapAfter (State.endCalls · me calls) c v
          | .error e => seqGFault s e
          | .ok (bs, s1) => f (if keep then s1 else s1.endCalls me calls) bs
    if calls.isEmpty then go s else whenOldest s go)

/-- An earlier move of the issuing sequencer has still to write its record: tape accesses are made in program order (R272,
R273). -/
def State.tapeBusy (s : State) : Bool :=
  s.moves.any fun m => decide (m.job.sh = s.here ∧ m.job.st = s.stream) && m.tape.isSome

/-- A push of a record by the issuing sequencer (R271). -/
def pushRecord (s : State) (rec : List Byte) (f : State → Eff) : Eff :=
  let q := s.mySeq
  let len := rec.length / 64
  if q.tapeLim < q.tapePtr + len then .trap 0x27 (tapeEval s.stream len)
  else if s.tapeBusy then .wait .other 0
  else
    seqWrite s (q.tapeBase + 64 * q.tapePtr) rec fun s => f (s.modMySeq fun q => q.setTapePtr (q.tapePtr + len))

/-- A pop of a record of `len` units whose first bytes `want` (kind, length, addresses) must match (R272). Kind and length of
H0, H1, H2 and what follows the header are compared; bits 31:0 of H0, H3 and the old bytes are not. The first `head` bytes, which
hold what is compared, are read first. -/
def popRecord (s : State) (len head : Nat) (want : List Byte) (cmp : List Byte → List Byte) (f : State → List Byte → Eff) : Eff :=
  let q := s.mySeq
  if s.tapeBusy then .wait .other 0
  else if q.tapePtr < len then .trap 0x28 (tapeEval s.stream len)
  else
    let at_ := q.tapeBase + 64 * (q.tapePtr - len)
    seqRead s at_ head true fun s1 bs =>
      if cmp bs ≠ want then .trapAfter (State.endCalls · q.agent (s.awayReads at_ head)) 0x29 (BitVec.ofNat 64 at_)
      else seqRead s1 at_ (64 * len) false fun s bs => f (s.modMySeq fun q => q.setTapePtr (q.tapePtr - len)) bs

/-- The part of a scalar record that a pop compares: kind, length, H1 and H2. -/
def scalarKeyOf (bs : List Byte) : List Byte := (bs.take 24).drop 4

/-- Of a vector record: these and the addresses. -/
def vectorKeyOf (bs : List Byte) : List Byte := scalarKeyOf bs ++ (bs.drop 64).take 512

/-- Of a move record: these and the descriptor. -/
def moveKeyOf (bs : List Byte) : List Byte := scalarKeyOf bs ++ (bs.drop 64).take 64

end Sys2Proof.Machine
end

