-- ==== Sys2Proof/Machine/LoadStore.lean ====
section
/-! DEFINITION. Scalar loads and stores of the control stream, with windows, differentiable regions and races (R62 to R64,
R157, R262, R265). -/

namespace Sys2Proof.Machine
open Sys2Proof

/-- ea of a scalar access: the base as a signed number plus the displacement, not cut to width. -/
def scalarEa (s : State) (a : RegNo) (off : BitVec 13) : Int := (s.sreg a).toInt + off.toInt

/-- The bytes at a Pocket address, as a number. -/
def State.pocketNat (s : State) (ea : Int) (n : Nat) : Nat := leNat (memBytes s.mem (s.placeOf ea) n)

/-- The region of a Pocket address that has passed its checks, with the owner and the byte. -/
def State.regionOfEa (s : State) (ea : Int) : Option (Region × ShNo × Nat) :=
  (s.pocketAddr s.here ea).bind fun p => (s.regionAt p.1 p.2).map fun r => (r, p.1, p.2)

/-- The cells of a shadow cell, as locations. -/
def shadowLocs (place : Nat) : List Nat := [cellOf place, cellOf (place + 8)]

/-- Extended address of a place in this package's Pockets, as shuttle `n` names it (R196). -/
def pocketEa (n : ShNo) (place : Nat) : Int :=
  let o := (place - 2 ^ 60) / 2 ^ 20
  let b := (place - 2 ^ 60) % 2 ^ 20
  Int.ofNat (if o = n.toNat then b else (o % 8 + 1) * 2 ^ 20 + b)

/-- The issuing sequencer makes one access to each of the Pocket locations, or takes the race, or the error of a cell among
them (R17, R237). -/
def withPlaces (s : State) (write : Bool) (kind : AccKind) (locs : List Nat) (f : State → Eff) : Eff :=
  let s1 := s.tickSeq s.here s.stream
  let k := s1.mySeq.know
  let a := s1.accessOf s.here s.stream write kind s.ownExt
  match locs.find? s.badCell, findRace k a s1.tags locs with
  | some l, _ => .trap 0x08 (evalOf (pocketEa s.here l))
  | none, some l => .trap 0x20 (evalOf (pocketEa s.here l))
  | none, none => f (s1.note a locs)

/-- A load's effect after its checks. In reverse it touches the primal cell as a read, so that it races with a forward write in
flight (R275), and then the shadow cell. -/
def loadEffect (s : State) (size : Nat) (signed : Bool) (v : RegNo) (ea : Int) : Eff :=
  match s.regionOfEa ea with
  | some (r, n, b) =>
    if r.w ≠ size then .trap 0x2A (evalOf ea)
    else if s.reversed then
      let sh := r.shadow n b
      withPlaces s false .plain [cellOf (s.placeOf ea)] fun s =>
        withPlaces s true contributes (shadowLocs sh) fun s =>
          .done (s.contributeAt sh r.anc (fmtValue r.fmt (s.sreg v).toNat))
    else plain
  | none => if s.reversed then .done s else plain
where
  /-- a plain read -/
  plain : Eff :=
    withCells s false .plain s.ownExt [ea] fun s =>
      let d := s.pocketNat ea size
      .done (s.setSreg v (if signed then BitVec.ofInt 64 (sintOf (8 * size) d) else BitVec.ofNat 64 d))

/-- A scalar load of `size` bytes. -/
def scalarLoad (s : State) (size : Nat) (signed : Bool) (v a : RegNo) (off : BitVec 13) : Eff :=
  let ea := scalarEa s a off
  match s.pocketFault size [ea] with
  | some (c, e) => .trap c e
  | none => loadEffect s size signed v ea

/-- A store's effect after its checks. -/
def storeEffect (s : State) (size : Nat) (v : RegNo) (ea : Int) : Eff :=
  match s.regionOfEa ea with
  | some (r, n, b) =>
    if r.w ≠ size then .trap 0x2A (evalOf ea)
    else
      let wd := Nat.log2 size
      if s.reversed then
        popRecord s 1 64 (scalarKeyOf (tapeHeader 1 1 (evalOf ea) (BitVec.ofNat 64 wd) 0)) scalarKeyOf fun s rec =>
          let sh := r.shadow n b
          withPlaces s true .plain (shadowLocs sh ++ [cellOf (s.placeOf ea)]) fun s =>
            let t := s.takeAt sh r.anc r.fmt
            .done ((t.2.setSreg v (BitVec.ofNat 64 t.1)).putBytes (s.placeOf ea) ((rec.drop 24).take size))
      else
        withCells s true .plain s.ownExt [ea] fun s =>
          if s.taskMode then
            pushRecord s (tapeHeader 1 1 (evalOf ea) (BitVec.ofNat 64 wd) (BitVec.ofNat 64 (s.pocketNat ea size)))
              fun s => .done (s.putBytes (s.placeOf ea) (leBytes size (s.sreg v).toNat))
          else .done (s.putBytes (s.placeOf ea) (leBytes size (s.sreg v).toNat))
  | none =>
    if s.reversed then .done s
    else
      withCells s true .plain s.ownExt [ea] fun s =>
        .done (s.putBytes (s.placeOf ea) (leBytes size (s.sreg v).toNat))

/-- A scalar store of `size` bytes. -/
def scalarStore (s : State) (size : Nat) (v a : RegNo) (off : BitVec 13) : Eff :=
  let ea := scalarEa s a off
  match s.pocketFault size [ea] with
  | some (c, e) => .trap c e
  | none => storeEffect s size v ea

def execLdb (v a : RegNo) (o : BitVec 13) (s : State) : Result := runC s (scalarLoad s 1 false v a o)
def execLdh (v a : RegNo) (o : BitVec 13) (s : State) : Result := runC s (scalarLoad s 2 false v a o)
def execLdw (v a : RegNo) (o : BitVec 13) (s : State) : Result := runC s (scalarLoad s 4 false v a o)
/-- LDD; the word with sx set, which no mnemonic encodes, sets WARN (R41, R62). -/
def execLdd (v a : RegNo) (o : BitVec 13) (sx : Bool) (s : State) : Result :=
  runC s ((scalarLoad s 8 false v a o).andThen fun s => .done (s.warnIf sx))
def execLdbs (v a : RegNo) (o : BitVec 13) (s : State) : Result := runC s (scalarLoad s 1 true v a o)
def execLdhs (v a : RegNo) (o : BitVec 13) (s : State) : Result := runC s (scalarLoad s 2 true v a o)
def execLdws (v a : RegNo) (o : BitVec 13) (s : State) : Result := runC s (scalarLoad s 4 true v a o)
def execStb (v a : RegNo) (o : BitVec 13) (s : State) : Result := runC s (scalarStore s 1 v a o)
def execSth (v a : RegNo) (o : BitVec 13) (s : State) : Result := runC s (scalarStore s 2 v a o)
def execStw (v a : RegNo) (o : BitVec 13) (s : State) : Result := runC s (scalarStore s 4 v a o)
def execStd (v a : RegNo) (o : BitVec 13) (s : State) : Result := runC s (scalarStore s 8 v a o)

end Sys2Proof.Machine
end

