-- ==== Sys2Proof/Machine/Control.lean ====
section
/-! DEFINITION. Branches, jumps, calls and returns (R65 to R68), the loop units (R69 to R73, R88) and the passing over of
a flagged instruction (R72). -/

namespace Sys2Proof.Machine
open Sys2Proof

/-! ## Transfers -/

/-- The target of a word offset from pc (R29). -/
def branchTarget {n : Nat} (pc : W32) (off : BitVec n) : W32 := pc + 4 * off.signExtend 32

/-- A taken transfer writes its own address to bor (R11). -/
def State.setBor (s : State) : State := s.modMe fun x => { x with bor := s.pc }

/-- lnk := zext(pc + 4). -/
def State.setLnk (s : State) : State := s.modMe fun x => { x with lnk := (s.pc + 4).setWidth 64 }

def branchIf (s : State) (taken : Bool) (o : BitVec 13) : Result :=
  if taken then runC s (.doneTo s.setBor (branchTarget s.pc o)) else runC s (.done s)

def execBeq (a b : RegNo) (o : BitVec 13) (s : State) : Result := branchIf s (decide (s.sreg a = s.sreg b)) o
def execBne (a b : RegNo) (o : BitVec 13) (s : State) : Result := branchIf s (decide (s.sreg a ≠ s.sreg b)) o
def execBlt (a b : RegNo) (o : BitVec 13) (s : State) : Result := branchIf s ((s.sreg a).slt (s.sreg b)) o
def execBge (a b : RegNo) (o : BitVec 13) (s : State) : Result := branchIf s (!(s.sreg a).slt (s.sreg b)) o
def execBltu (a b : RegNo) (o : BitVec 13) (s : State) : Result := branchIf s ((s.sreg a).ult (s.sreg b)) o
def execBgeu (a b : RegNo) (o : BitVec 13) (s : State) : Result := branchIf s (!(s.sreg a).ult (s.sreg b)) o

def execJmp (o : BitVec 26) (s : State) : Result := runC s (.doneTo s.setBor (branchTarget s.pc o))
def execCall (o : BitVec 26) (s : State) : Result := runC s (.doneTo s.setLnk.setBor (branchTarget s.pc o))

/-- Bits 31:2 of a register target (R67). -/
def registerTarget (t : W64) : W32 := t.setWidth 32 &&& ~~~3#32

def execJr (a : RegNo) (s : State) : Result := runC s (.doneTo s.setBor (registerTarget (s.sreg a)))
def execCallr (a : RegNo) (s : State) : Result := runC s (.doneTo s.setLnk.setBor (registerTarget (s.sreg a)))
def execRet (s : State) : Result := runC s (.doneTo s.setBor (registerTarget s.me.lnk))

/-! ## Loop units -/

/-- Level `j` of a loop unit; levels 6 and 7 do not decode. -/
def LoopUnit.level (u : LoopUnit) (j : Nat) : Level := if h : j < 6 then u.levels[j]'h else Level.reset

def LoopUnit.setLevel (u : LoopUnit) (j : Nat) (v : Level) : LoopUnit :=
  if h : j < 6 then { u with levels := u.levels.set j v h } else u

/-- A level cannot be opened: cause 0x09 (R70). -/
def LoopUnit.noOpen (u : LoopUnit) (lv : Nat) : Bool := decide (u.depth = 6) || decide (lv ≠ u.depth)

/-- A level cannot be closed: cause 0x0A (R71). -/
def LoopUnit.noClose (u : LoopUnit) (lv : Nat) : Bool := decide (u.depth = 0) || decide (lv + 1 ≠ u.depth)

/-- The open of a level whose limit word is `t`: the new unit and the next pc (R70). -/
def loopOpen (u : LoopUnit) (pc : W32) (lv : Nat) (fo lo : Bool) (off : Nat) (t : W64) : LoopUnit × W32 :=
  let old := u.level lv
  let lim : W32 := t.setWidth 32
  if lim = 0 then (u.setLevel lv { old with k := 0 }, pc + BitVec.ofNat 32 (4 * off + 4))
  else
    ({ u.setLevel lv { k := 0, lim := lim, str := (t.toNat / 2 ^ 32) % 2 ^ 16 + 1, start := pc + 4,
                       fin := pc + BitVec.ofNat 32 (4 * off), fo := fo, lo := lo } with depth := u.depth + 1 }, pc + 4)

/-- The end of a body, or the way out of it when `leave`: the new unit and the next pc (R71). -/
def loopEnd (u : LoopUnit) (pc : W32) (lv : Nat) (leave : Bool) : LoopUnit × W32 :=
  if leave then ({ u with depth := u.depth - 1 }, pc + 4)
  else
    let v := u.level lv
    let n := v.k.toNat + v.str
    let u1 := u.setLevel lv { v with k := BitVec.ofNat 32 n }
    if n < v.lim.toNat then (u1, v.start) else ({ u1 with depth := u1.depth - 1 }, pc + 4)

/-- The flags of an open level pass over the instruction at pc; those of an empty body apply to nothing (R72, R88). -/
def Level.skips (v : Level) (pc : W32) : Bool :=
  decide (v.start ≠ v.fin) &&
  ((v.fo && decide (pc = v.start) && decide (v.k ≠ 0)) ||
    (v.lo && decide (pc + 4 = v.fin) && decide (v.k.toNat + v.str < v.lim.toNat)))

/-- Some open level passes over the instruction at pc. -/
def LoopUnit.skips (u : LoopUnit) (pc : W32) : Bool := (List.range u.depth).any fun j => (u.level j).skips pc

/-- A loop instruction's new unit and next pc. -/
def loopDone (s : State) (r : LoopUnit × W32) : Eff := .doneTo (s.modMySeq fun q => { q with loops := r.1 }) r.2

def execLoop (l : BitVec 3) (g f : Bool) (a : RegNo) (o : BitVec 14) (s : State) : Result :=
  let u := s.mySeq.loops
  runC s (if u.noOpen l.toNat then .trapWord 0x09 else loopDone s (loopOpen u s.pc l.toNat f g o.toNat (s.sreg a)))

def endLoop (s : State) (lv : Nat) (leave : Bool) : Eff :=
  let u := s.mySeq.loops
  if u.noClose lv then .trapWord 0x0A else loopDone s (loopEnd u s.pc lv leave)

def execEndl (l : BitVec 3) (s : State) : Result := runC s (endLoop s l.toNat false)
def execEndlX (l : BitVec 3) (s : State) : Result := runC s (endLoop s l.toNat true)

/-! ## The instruction passed over (R72) -/

/-- The section from which the issuing sequencer fetches. -/
def State.mySection (s : State) : Section :=
  if s.stream = .c then s.me.cSection s.me.ownMonitor else s.mySeq.code

/-- A later iteration of an open level stands at pc: its words come from the loop buffer (R88). -/
def LoopUnit.replays (u : LoopUnit) (pc : W32) : Bool :=
  (List.range u.depth).any fun j =>
    let v := u.level j
    decide (v.k ≠ 0 ∧ v.start ≤ pc ∧ pc ≤ v.fin)

/-- What the issuing sequencer fetches from: in a later iteration of a stream loop the loop buffer, in which no word fails
(R88). -/
def State.fetchSection (s : State) : Section :=
  if decide (s.stream ≠ .c) && s.mySeq.loops.replays s.pc then { s.mySection with bad := [] } else s.mySection

/-- pc passes the instruction by its raw length, which is that of the stored word also when its fetch fails, and 4 beyond the
section (assumption log 96). A fault of its fetch, or of a step word's, is one only fetched ahead: a health record of kind 4
(R20, R359). -/
def execSkippedInstruction (s : State) : Result :=
  let i := s.pc.toNat / 4
  let sec := s.fetchSection
  let len := rawLength s.stream (sec.words.getD i 0)
  let s1 := s.modMySeq fun q => { q with pc := s.pc + BitVec.ofNat 32 len, stall := none }
  let s2 :=
    match ((List.range (len / 4)).map (i + ·)).find? fun k => decide (sec.words.length ≤ k) || sec.bad.contains k with
    | some k => s1.healthRecord 1 s.here.toNat 4 1 (BitVec.ofNat 64 (4 * k))
    | none => s1
  .next (s2.bump s.here)

end Sys2Proof.Machine
end

