-- ==== Sys2Proof/Machine/Streams.lean ====
section
/-! DEFINITION. Queues, tokens, stream loops, completion-counter waits and the shape register (R80 to R101), and the
stream-deadlock trap (R96). -/

namespace Sys2Proof.Machine
open Sys2Proof

/-! ## Queues (R80, R81) -/

/-- The inbound scalar queue of L, X and S. -/
def Shuttle.inbound (x : Shuttle) : Stream → List QEntry
  | .l => x.qCL | .x => x.qCX | .s => x.qCS | .c => x.qSC

def Shuttle.setInbound (x : Shuttle) (st : Stream) (q : List QEntry) : Shuttle :=
  match st with
  | .l => { x with qCL := q } | .x => { x with qCX := q } | .s => { x with qCS := q } | .c => { x with qSC := q }

/-- Depth of the scalar queues and of the vector queues. -/
def scalarDepth : Nat := 16
def vectorDepth : Nat := 8

/-- The channel of L, X or S (R242). -/
def Shuttle.chan (x : Shuttle) : Stream → Chan
  | .l => x.chanL | .x => x.chanX | .s => x.chanS | .c => Chan.reset

def Shuttle.setChan (x : Shuttle) (st : Stream) (c : Chan) : Shuttle :=
  match st with
  | .l => { x with chanL := c } | .x => { x with chanX := c } | .s => { x with chanS := c } | .c => x

/-- A marker that awaits no more than `n` pops of `st` reaches the head, behind what `k` orders. -/
def Marks.popTo (m : Marks) (st : Stream) (n : Nat) (k : Know) : Marks :=
  { m with pops := m.pops.map fun p => if p.1 = st ∧ p.2.2.isNone ∧ p.2.1 ≤ n then (p.1, p.2.1, some k) else p }

/-- The stream has popped `n` more entries of C's (R242). -/
def Shuttle.notePop (x : Shuttle) (st : Stream) (n : Nat) : Shuttle :=
  let k := (x.seq st).know
  let c : Chan := { x.chan st with popped := (x.chan st).popped + n, last := k }
  { x.setChan st c with marks := x.marks.map fun m => m.popTo st c.popped k }

/-- The inbound scalar queue as a mark names it, in the order of R368: QLX, QXS, QCL, QCX, QCS, QSC. -/
def queueCode : Stream → Nat
  | .l => damage 3 2 | .x => damage 3 3 | .s => damage 3 4 | .c => damage 3 5

/-- Pops the inbound queue of the issuing sequencer, or waits for an entry. -/
def popScalar (s : State) (f : State → W64 → Eff) : Eff :=
  match s.me.inbound s.stream with
  | [] => .wait .stream 0
  | e :: r =>
    unlessDamaged s [queueCode s.stream] <|
      f (((s.modMe fun x => x.setInbound s.stream r).modMySeq fun q => q.learnOrder e.know).modMe
        fun x => x.notePop s.stream 1) e.val

/-- Pushes a value into the inbound queue of stream `dst`, or waits for room. -/
def pushScalar (s : State) (dst : Stream) (v : W64) (f : State → Eff) : Eff :=
  if (s.me.inbound dst).length < scalarDepth then
    f (s.modMe fun x =>
      (x.setInbound dst (x.inbound dst ++ [{ val := v, know := s.mySeq.know }])).setChan dst
        { x.chan dst with pushed := (x.chan dst).pushed + 1 })
  else .wait .stream 0

def execQpush (a : RegNo) (q : BitVec 5) (s : State) : Result :=
  let dst : Stream := if q = 0 then .l else if q = 1 then .x else .s
  runC s (pushScalar s dst (s.sreg a) .done)

def execQpop (d : RegNo) (s : State) : Result := runC s (popScalar s fun s v => .done (s.setSreg d v))

def execQpopa (d : RegNo) (k : BitVec 4) (s : State) : Result :=
  runT s k fun s => popScalar s fun s v => .done (s.setAreg d v)

def execQpusha (a : RegNo) (k : BitVec 4) (s : State) : Result :=
  runT s k fun s => pushScalar s .c (s.areg a) .done

def execQpushvL (v : RegNo) (k : BitVec 4) (s : State) : Result :=
  runT s k fun s =>
    if s.me.qLX.length < vectorDepth then
      withVregs s [v] [] fun s =>
        .done (s.modMe fun x => { x with qLX := x.qLX ++ [{ val := x.vreg v, know := x.l.know }] })
    else .wait .stream 0

def execQpopvX (v : RegNo) (k : BitVec 4) (s : State) : Result :=
  runT s k fun s =>
    match s.me.qLX with
    | [] => .wait .stream 0
    | e :: r =>
      unlessDamaged s [damage 3 0] <|
        withVregs ((s.modMe fun x => { x with qLX := r }).modMySeq fun q => q.learnOrder e.know) [] [v] fun s =>
          .done (s.setVreg v e.val)

def execQpushvX (v : RegNo) (k : BitVec 4) (s : State) : Result :=
  runT s k fun s =>
    if s.me.qXS.length < vectorDepth then
      withVregs s [v] [] fun s =>
        .done (s.modMe fun x => { x with qXS := x.qXS ++ [{ val := x.vreg v, know := x.x.know }] })
    else .wait .stream 0

def execQpopvS (v : RegNo) (k : BitVec 4) (s : State) : Result :=
  runT s k fun s =>
    match s.me.qXS with
    | [] => .wait .stream 0
    | e :: r =>
      unlessDamaged s [damage 3 1] <|
        withVregs ((s.modMe fun x => { x with qXS := r }).modMySeq fun q => q.learnOrder e.know) [] [v] fun s =>
          .done (s.setVreg v e.val)

/-- A QDROP that waits for more entries holds those it has popped, and the token and the credit that its issue popped. -/
def State.holdEntries (s : State) (k : BitVec 4) (got rest : List QEntry) : State :=
  let st := s.stream
  let first := s.mySeq.taken.isNone
  let t := if first then some (s.me.tokensFor st k) else s.mySeq.taken
  ((s.modMe fun x => (if first then x.takeTokens st k else x).setInbound st rest).modMySeq
    fun q => { q with held := got, taken := t }).bump s.here

/-- Pops and discards `n` entries of the inbound queue, each as it arrives (R99). -/
def dropEntries (s : State) (n : Nat) (k : BitVec 4) : Eff :=
  let held := s.mySeq.held
  let need := n - held.length
  let q := s.me.inbound s.stream
  let got := held ++ q.take need
  let s1 := s.modMe fun x => x.setInbound s.stream (q.drop need)
  unlessDamaged s [queueCode s.stream] <|
  if need ≤ q.length then
    .done ((s1.modMySeq fun p => got.foldl (fun p e => p.learnOrder e.know) { p with held := [] }).modMe
      fun x => x.notePop s.stream n)
  else if q.isEmpty then .wait .stream 0
  else .waitAfter (State.holdEntries · k got (q.drop need)) .stream 0

def execQdropX (n k : BitVec 4) (s : State) : Result := runT s k fun s => dropEntries s (n.toNat + 1) k
def execQdropLs (n : BitVec 8) (k : BitVec 4) (s : State) : Result := runT s k fun s => dropEntries s n.toNat k

def execTnopX (k : BitVec 4) (s : State) : Result := runT s k .done
def execTnopLs (k : BitVec 4) (s : State) : Result := runT s k .done

/-! ## Stream loops (R88) -/

/-- SLOOP: the nest is tested before the pop of the limit word. -/
def streamLoop (s : State) (lv : Nat) (fo lo : Bool) (off : Nat) : Eff :=
  if s.mySeq.loops.noOpen lv then .trapWord 0x09
  else popScalar s fun s t => loopDone s (loopOpen s.mySeq.loops s.pc lv fo lo off t)

def execSloopX (f : BitVec 2) (o : BitVec 8) (l k : BitVec 4) (s : State) : Result :=
  runT s k fun s => streamLoop s l.toNat (f.getLsbD 0) (f.getLsbD 1) o.toNat
def execSendlX (l k : BitVec 4) (s : State) : Result := runT s k fun s => endLoop s l.toNat false
def execSendlExitX (l k : BitVec 4) (s : State) : Result := runT s k fun s => endLoop s l.toNat true
def execSloopLs (l : BitVec 5) (g f : Bool) (o : BitVec 8) (k : BitVec 4) (s : State) : Result :=
  runT s k fun s => streamLoop s l.toNat f g o.toNat
def execSendlLs (l : BitVec 5) (k : BitVec 4) (s : State) : Result := runT s k fun s => endLoop s l.toNat false
def execSendlExitLs (l : BitVec 5) (k : BitVec 4) (s : State) : Result := runT s k fun s => endLoop s l.toNat true

/-! ## Completion counters (R91, R92) -/

/-- A count, and what the wait at 0 is ordered after. -/
def Shuttle.count (x : Shuttle) (c : BitVec 3) : Nat := x.cc[c.toNat]'c.isLt

/-- The completions that a wait at 0 orders after: those whose issue precedes the wait in stream order. -/
def Seq.learnDone (q : Seq) (done : List (Nat × Nat × Know)) : Seq :=
  done.foldl (fun q d => if d.2.1 ≤ clockGet q.know.own d.1 then q.learnOrder d.2.2 else q) q

def counterWait (s : State) (c : BitVec 3) (n : Nat) : Eff :=
  if s.me.count c ≤ n then
    if n = 0 then .done (s.modMySeq fun q => q.learnDone (s.me.ccDone[c.toNat]'c.isLt)) else .done s
  else .wait .stream 0

def execCcwait (a : RegNo) (c : BitVec 3) (s : State) : Result := runC s (counterWait s c (s.sreg a).toNat)
def execCcwaitLs (c : BitVec 5) (n : BitVec 8) (k : BitVec 4) (s : State) : Result :=
  runT s k fun s => counterWait s (c.setWidth 3) n.toNat

/-! ## The shape register (R89, R101, R125) -/

/-- `w` with its `n` bits from `lo` replaced by the low bits of `v`. -/
def putBits (w : W64) (lo n v : Nat) : W64 :=
  (w &&& ~~~(BitVec.ofNat 64 ((2 ^ n - 1) * 2 ^ lo))) ||| BitVec.ofNat 64 (v % 2 ^ n * 2 ^ lo)

/-- The `n` bits of `w` from `lo`. -/
def getBits (w : W64) (lo n : Nat) : Nat := w.toNat / 2 ^ lo % 2 ^ n

def State.setShp (s : State) (v : W64) : State := s.modMe fun x => { x with shp := v }

def execShrm (i : BitVec 8) (k : BitVec 4) (s : State) : Result :=
  runT s k fun s => .done (s.setShp (putBits s.me.shp 0 3 i.toNat))

def execShft (l : BitVec 5) (b : BitVec 6) (k : BitVec 4) (s : State) : Result :=
  runT s k fun s =>
    .done (s.setShp (putBits (putBits s.me.shp 6 6 b.toNat) 12 3 (if l.toNat = 31 then 7 else l.toNat)))

/-- The new shp that a popped word asks for, and whether WARN is set: a reserved value leaves its field. -/
def shapeFrom (shp t : W64) : W64 × Bool :=
  let rm := getBits t 0 3
  let flv := getBits t 12 3
  let vl := getBits t 24 8
  let seg := getBits t 20 4
  let badRm := decide (rm = 0 ∨ 6 ≤ rm)
  let badFlv := decide (flv = 6)
  let badVl := decide (128 < vl)
  let badSeg := decide (8 ≤ seg)
  let rsv := decide (getBits t 32 32 ≠ 0 ∨ getBits t 16 4 ≠ 0 ∨ getBits t 15 1 ≠ 0 ∨ getBits t 3 3 ≠ 0)
  let w := if badRm then shp else putBits shp 0 3 rm
  let w := putBits w 6 6 (getBits t 6 6)
  let w := if badFlv then w else putBits w 12 3 flv
  let w := if badVl then w else putBits w 24 8 vl
  let w := if badSeg then w else putBits w 20 4 seg
  (w, badRm || badFlv || badVl || badSeg || rsv)

def execShpop (k : BitVec 4) (s : State) : Result :=
  runT s k fun s => popScalar s fun s t =>
    let r := shapeFrom s.me.shp t
    .done ((s.setShp r.1).warnIf r.2)

/-! ## Stream deadlock (R96) -/

/-- The sequencer can only be released by another stalled sequencer: it waits in a stream stall, tried since the shuttle's
last progress, or C waits in TEND, or it has ended or stayed idle. -/
def Shuttle.stuck (x : Shuttle) (q : Seq) : Bool :=
  match q.run, q.stall with
  | .idle, _ => true
  | .ended, _ => true
  | .running, some t => (decide (t.kind = .stream) || decide (t.kind = .tend)) && decide (t.seen = x.progress)
  | _, _ => false

end Sys2Proof.Machine
end

