-- ==== Sys2Proof/Machine/Engine.lean ====
section
/-! DEFINITION. What engines share: extended addresses, semaphores, barriers, and commands from acceptance to completion
(R34, R35, R41, R91 to R93, R176 to R181, R196, R204, R205, R240). -/

namespace Sys2Proof.Machine
open Sys2Proof

/-! ## Extended addresses (R196) -/

/-- Level code and low 60 bits. -/
def eaLevel (ea : W64) : Nat := ea.toNat / 2 ^ 60
def eaLow (ea : W64) : Nat := ea.toNat % 2 ^ 60

/-- A reserved level, or a zero bit that is set. -/
def eaError (ea : W64) : Bool :=
  match eaLevel ea with
  | 0 => decide (2 ^ 24 ≤ eaLow ea)
  | 1 => decide (2 ^ 22 ≤ eaLow ea)
  | 2 => decide (2 ^ 27 ≤ eaLow ea)
  | 3 => decide (2 ^ 56 ≤ eaLow ea)
  | _ => true

/-- The extended address of byte `o` of a level. -/
def eaOf (lv : Nat) (o : Int) : W64 := BitVec.ofInt 64 ((lv : Int) * 2 ^ 60 + o)

/-- Byte `o` lies in a grant register's range (R194). -/
def inGrant (g : W64) (o : Nat) : Bool := decide (bitsOf g 0 32 ≤ o) && decide (o < bitsOf g 0 32 + bitsOf g 32 32)

/-- The place of byte `o` of a scratch level as shuttle `n` reaches it: in its level, grant or open window. -/
def State.scratchAt (s : State) (n : ShNo) (lv : Nat) (o : Int) : Option Nat :=
  if lv = 0 then s.pocketAt n o
  else if o < 0 then none
  else if lv = 1 then
    if o.toNat < Config.sleeveBytes ∧ inGrant (s.shuttle n).sgnt o.toNat then some (sleevePlace (n.toNat / 8) o.toNat)
    else none
  else if o.toNat < Config.boltBytes ∧ inGrant (s.shuttle n).bgnt o.toNat then some (boltPlace (n.toNat / 64) o.toNat)
  else none

/-- The extended address by which shuttle `n` names a scratch place. -/
def placeEa (n : ShNo) (place : Nat) : W64 :=
  if 2 ^ 62 ≤ place then eaOf 2 ((place - 2 ^ 62) % 2 ^ 27 : Nat)
  else if 2 ^ 61 ≤ place then eaOf 1 ((place - 2 ^ 61) % 2 ^ 22 : Nat)
  else evalOf (pocketEa n place)

/-! ## Waiting to be the oldest (R168) -/



/-- Scope codes whose accesses, releases and acquires wait for that (R168). -/
def farScope (c : Nat) : Bool := decide (c = 6) || decide (c = 8)

def whenNear (s : State) (c : Nat) (f : State → Eff) : Eff := if farScope c then whenOldest s f else f s

/-- The scope of an instruction of the current sequencer, or cause 0x16 (R171, R252). -/
def withScope (s : State) (c : Nat) (f : State → Ext → Eff) : Eff :=
  match s.scopeExt s.here s.mySeq.agent c with
  | none => .trapWord 0x16
  | some e => whenNear s c fun s => f s e

/-! ## Locations that are no memory (R237, R238) -/

/-- An access of the issuing sequencer to such a location, or the race. -/
def withTag (s : State) (loc : Nat) (eval : W64) (write : Bool) (kind : AccKind) (ext : Ext) (f : State → Eff) : Eff :=
  let s1 := s.tickSeq s.here s.stream
  let k := s1.mySeq.know
  let a := s1.accessOf s.here s.stream write kind ext
  if racesWith k a (tagOf s1.tags loc) then .trap 0x20 eval
  else f (s1.note a [loc])

/-! ## Semaphores (R181) -/

def Shuttle.sem (x : Shuttle) (i : BitVec 4) : Sem := x.sems[i.toNat]'i.isLt
def Shuttle.setSem (x : Shuttle) (i : BitVec 4) (m : Sem) : Shuttle := { x with sems := x.sems.set i.toNat m i.isLt }

/-- A signal by `a`, which knows `k` and releases `r`; its count is below 255. -/
def Sem.signal (m : Sem) (a : Access) (k : Know) (r : Carry) : Sem :=
  { count := m.count + 1, signals := m.signals ++ [r],
    ordered := m.ordered && (match m.last with
      | none => true
      | some l => knows k l.agent l.epoch),
    last := some a }

/-- A wait takes one signal, and its release when the signals are ordered. -/
def Sem.take (m : Sem) : Sem × Option Carry :=
  ({ m with count := m.count - 1, signals := m.signals.tail }, if m.ordered then m.signals.head? else none)

/-- eval of a race on a semaphore. -/
def semEval (i : BitVec 4) : W64 := 0xF200000000000000 + i.setWidth 64

/-! ## Barriers (R176 to R180) -/

def Task.bar (t : Task) (b : BitVec 2) : Barrier := t.bars[b.toNat]'b.isLt
def Task.setBar (t : Task) (b : BitVec 2) (v : Barrier) : Task := { t with bars := t.bars.set b.toNat v b.isLt }

/-- The group entry of the task's gang group. -/
def State.gangGroup (s : State) (t : Task) : Option (Nat × Group) :=
  match t.slots.head?, s.launchOf t.lid with
  | some g, some l => (l.groups[g]?).map fun e => (g, e)
  | _, _ => none

def Group.posted (g : Group) (b : BitVec 2) : Bool := g.bcfg.getLsbD (2 * b.toNat)
def Group.lead (g : Group) (b : BitVec 2) : Bool := g.bcfg.getLsbD (2 * b.toNat + 1)

/-- Counter `j` of phase `q`. -/
def phaseIx (q : W32) : Fin 2 := if q.getLsbD 0 then 1 else 0

/-- The completion test, for at most `fuel` phases (R179). -/
def Barrier.test (n : Nat) (posted : Bool) : Nat → Barrier → Barrier
  | 0, v => v
  | fuel + 1, v =>
    let j := phaseIx v.phase
    if !v.brk && decide (v.arr[j.val] = n) && (!posted || decide (v.pst[j.val] = some v.del[j.val])) then
      Barrier.test n posted fuel
        { v with arr := v.arr.set j.val 0, del := v.del.set j.val 0, pst := v.pst.set j.val none, phase := v.phase + 1,
                 carries := v.carries.set j.val [], passed := v.passed ++ [(v.phase, v.carries[j.val])] }
    else v

/-- An arrival of member `m` in phase `q`, which may be made (R177). -/
def Barrier.arrive (v : Barrier) (n m : Nat) (posted : Bool) (cnt : Option Nat) (r : Carry) : Barrier :=
  let q := v.made.getD m 0
  let j := phaseIx q
  let v1 : Barrier :=
    { v with arr := v.arr.set j.val (v.arr[j.val] + 1), made := v.made.set m (q + 1),
             carries := v.carries.set j.val (v.carries[j.val] ++ [r]) }
  let v2 : Barrier :=
    match cnt with
    | none => v1
    | some c => { v1 with pst := v1.pst.set j.val (some c), brk := v1.brk || decide (c < v1.del[j.val]) }
  Barrier.test n posted 2 v2

/-- A delivery of `b` bytes with tag `q` (R178). -/
def Barrier.deliver (v : Barrier) (n : Nat) (posted : Bool) (q : W32) (b : Nat) (r : Carry) : Barrier :=
  if q ≠ v.phase ∧ q ≠ v.phase + 1 then { v with brk := true }
  else
    let j := phaseIx q
    let d := v.del[j.val] + b
    let past := match v.pst[j.val] with
      | some c => decide (c < d)
      | none => false
    Barrier.test n posted 2
      { v with del := v.del.set j.val d, brk := v.brk || (!posted && decide (0 < b)) || past,
               carries := v.carries.set j.val (v.carries[j.val] ++ [r]) }

/-- A delivery to a barrier of a gang task. -/
def State.deliver (s : State) (tid : Nat) (b : BitVec 2) (q : W32) (bytes : Nat) (r : Carry) : State :=
  match s.taskOf tid with
  | none => s
  | some t =>
    match s.gangGroup t with
    | none => s
    | some (_, g) =>
      { s.modTask tid fun t => t.setBar b ((t.bar b).deliver g.members.length (g.posted b) q bytes r) with
        stamp := s.stamp + 1 }

/-- Arrivals on barrier `b` that precede, in stream order, a point of the shuttle that knows `k` (R178, R179). -/
def Shuttle.arrivalsBefore (x : Shuttle) (b : BitVec 2) (k : Know) : W32 :=
  BitVec.ofNat 32 ((x.arrivals[b.toNat]'b.isLt).filter fun e => decide (e ≤ clockGet k.own x.c.agent)).length

/-- eval of a race on a barrier of the shuttle's gang group. -/
def State.barEval (s : State) (n : ShNo) (b : BitVec 2) : W64 :=
  0xF300000000000000 + BitVec.ofNat 64 (4 * (s.groupSlot n 0).getD 0 + b.toNat)

/-! ## Asynchronous faults (R204, R358) -/

/-- A fault enters the list: after those found earlier, and among those of one fabric cycle in the order of issue. -/
def enterFault (f : AsyncFault) : List AsyncFault → List AsyncFault
  | [] => [f]
  | g :: r => if g.found = f.found ∧ f.cmd < g.cmd then f :: g :: r else g :: enterFault f r

def State.asyncFault (s : State) (n : ShNo) (f : AsyncFault) : State :=
  (s.modShuttle n fun x => { x with pending := enterFault { f with found := s.cycle } x.pending }).bump n

/-- A fault of what a bank unit does in the place of a contributor: it takes it, when it is of this package (R229). -/
def State.actorFault (s : State) (b : Actor) (cause : BitVec 8) (eval : W64) (cmd : Nat) : State :=
  if b.acc.agent < 2 ^ 64 then
    s.asyncFault b.sh { cause := cause, eval := eval, str := b.st, eng := 5, ipc := b.ipc, cmd := cmd, found := s.cycle }
  else s

/-- Answered messages that nobody waits for are forgotten; a refused fill is a fault of its contributor (R402, R403). -/
def State.endFills (s : State) : State :=
  let answered (m : Sent) : Bool := decide (m.owner = 0) && m.reply.isSome
  (s.sent.filter answered).foldl (fun s m =>
      match m.by_, m.reply.bind replyCause with
      | some b, some c => s.actorFault b c m.ea m.seq.toNat
      | _, _ => s)
    { s with sent := s.sent.filter fun m => !answered m }

/-- The command's task has been stopped or its shuttle runs another one: nothing of it is reported. -/
def State.orphan (s : State) (n : ShNo) (task : Option (Nat × Nat)) : Bool := decide ((s.shuttle n).task ≠ task)

/-- The task is saved in a checkpoint image, with its commands. -/
def State.isSaved (s : State) (task : Option (Nat × Nat)) : Bool :=
  match task with
  | some p => s.saves.any fun w => w.tid = p.1
  | none => false

/-- A fault of a saved task's command waits for its resume. -/
def State.lateFault (s : State) (task : Option (Nat × Nat)) (f : AsyncFault) : State :=
  match task with
  | some p => { s with saves := s.saves.map fun w => if w.tid = p.1 then { w with late := w.late ++ [(p.2, f)] } else w }
  | none => s

/-- The fault at the lowest address. -/
def leastFault : List (BitVec 8 × W64) → Option (BitVec 8 × W64)
  | [] => none
  | f :: fs =>
    match leastFault fs with
    | none => some f
    | some g => some (if g.2.toNat < f.2.toNat then g else f)

/-- A command reports a fault of engine class `eng`, once. -/
def State.jobFault (s : State) (j : Job) (eng : BitVec 4) (cause : BitVec 8) (eval : W64) : State :=
  let f : AsyncFault := { cause := cause, eval := eval, str := j.st, eng := eng, ipc := j.ipc, cmd := j.id, found := s.cycle }
  if j.failed then s
  else if s.orphan j.sh j.task then s.lateFault j.task f
  else s.asyncFault j.sh f

/-! ## Issue of a command (R34, R41, R91, R229) -/

/-- Header attributes after the fallbacks of R41: aq, rl, scope, and whether WARN is set. -/
def headerScope (aq rl : Bool) (sc : Nat) : Nat × Bool :=
  if !(aq || rl) then (1, decide (sc ≠ 0)) else if sc = 0 then (1, true) else (sc, false)

/-- Semaphore 31 is none. -/
def semField (w : BitVec 5) : Option Nat := if w = 31 then none else some w.toNat

/-- The words of the issuing instruction: in C its header with its step words (R34). -/
def State.curWords (s : State) : List W32 :=
  let w := s.curWord
  if s.stream = .c then
    w :: (((s.me.cSection s.me.ownMonitor).words.drop (s.pc.toNat / 4 + 1)).take (w.extractLsb' 23 3).toNat)
  else [w]

/-- The issuing sequencer issues a command: its counter has room, its scope is held, and a release or acquire of scope `.io`
or `.sy` waits for the oldest task. `f` makes the checks and accepts it with the state and job given. -/
def issueJob (s : State) (cc : BitVec 3) (wt sg : Option Nat) (aq rl : Bool) (sc : Nat) (f : State → Job → Eff) : Eff :=
  if 63 ≤ s.me.count cc then .wait .stream 0
  else
    let h := headerScope aq rl sc
    withScope s h.1 fun s e =>
      let s1 := (s.tickSeq s.here s.stream).warnIf h.2
      let q := s1.mySeq
      let k := if aq then q.sighted.foldl (fun k r => acquireInto q.agent s.here e r k) q.know else q.know
      f { s1 with nextId := s1.nextId + 1 }
        { id := s1.nextId, sh := s.here, st := s.stream, ipc := s.pc, issuer := q.agent,
          epoch := clockGet q.know.own q.agent, era := q.era, words := s1.curWords, task := s.me.task, cc := cc, wt := wt, sg := sg, aq := aq, rl := rl,
          ext := e, know := k, rev := s.reversed, win := s.me.rwin,
          dprs := (loomShuttles s.here).map fun n => (n, (s.shuttle n).dpr), started := false, ran := false, failed := false, flags := 0 }

/-- The command's accesses come after those that its acceptance has made by now (R201, R281). -/
def Job.seen (j : Job) (s : State) : Job := { j with know := knowJoin j.know s.mySeq.know }

/-- The job's counter rises as it is accepted. -/
def State.raiseCount (s : State) (j : Job) : State :=
  s.modShuttle j.sh fun x => { x with cc := x.cc.set j.cc.toNat (x.count j.cc + 1) j.cc.isLt }

/-! ## Start and completion (R93, R205, R240) -/

/-- The dpr registers of some shuttles set. -/
def State.setRegions (s : State) (l : List (ShNo × Vector W64 4)) : State :=
  l.foldl (fun s p => s.modShuttle p.1 fun x => { x with dpr := p.2 }) s

/-- What a command does with the windows and regions that stood at its acceptance (R193, R257), through the lookaside table of
its engine (R213, R215). -/
def State.inWindow (s : State) (j : Job) (f : State → State) : State :=
  let w := (s.shuttle j.sh).rwin
  let regions := j.dprs.map fun p => (p.1, (s.shuttle p.1).dpr)
  let t := f (((s.modShuttle j.sh fun x => { x with rwin := j.win }).setRegions j.dprs).through (.engine j.sh))
  ((t.setRegions regions).modShuttle j.sh fun x => { x with rwin := w }).through s.via

/-- The access that a command makes. A fill is at `.lm`, with rl at the command's scope (R230, R240). -/
def Job.access (j : Job) (write : Bool) (kind : AccKind) : Access :=
  { agent := j.id, home := j.sh, epoch := 1, write := write, kind := kind,
    ext := if kind = .fill then (if j.rl then j.ext else .set (loomShuttles j.sh)) else .set [j.sh] }

/-- An update that comes before the point that `k` describes is on its way: a command whose accesses come after it waits for it
(R206, R235). -/
def State.updatesAhead (s : State) (k : Know) : Bool := s.msgs.any fun m => knows k m.acc.agent m.acc.epoch

/-- What the end of a command orders: its own accesses and what precedes them. -/
def Job.after (j : Job) : Know := { j.know with own := clockRaise j.id 1 j.know.own }

/-- The release of a completion signal: at the scope of rl with the carry set of the issue point, or of the command's own
writes at the scope given. -/
def Job.release (j : Job) (narrow : Ext) : Carry :=
  if j.rl && !j.failed then { agent := j.id, home := j.sh, ext := j.ext, clk := carryClock j.after j.ext }
  else { agent := j.id, home := j.sh, ext := narrow, clk := [(j.id, 1)] }

/-- The command may start: its semaphore has a signal for it, and the updates before it are performed (R206). -/
def State.jobReady (s : State) (j : Job) : Bool :=
  !s.updatesAhead j.know &&
  match j.wt with
  | none => true
  | some i => decide (0 < ((s.shuttle j.sh).sem (BitVec.ofNat 4 i)).count)

/-- The command takes its signal and starts; on a race of waits it still starts, and the fault is reported. -/
def State.startJob (s : State) (j : Job) (eng : BitVec 4) : State × Job :=
  match j.wt with
  | none => (s, { j with started := true })
  | some i =>
    let ix : BitVec 4 := BitVec.ofNat 4 i
    let loc := semLoc j.sh i
    let a := j.access true .consume
    let m := ((s.shuttle j.sh).sem ix).take
    let k := match m.2 with
      | some r => acquireInto j.id j.sh (.set [j.sh]) r j.know
      | none => j.know
    let j1 := { j with started := true, know := k }
    let s1 := (s.modShuttle j.sh fun x => x.setSem ix m.1).bump j.sh
    if racesWith k a (tagOf s.tags loc) then (s1.jobFault j eng 0x20 (semEval ix), { j1 with failed := true })
    else (s1.note a [loc], j1)

/-- The carry set of the command's issue point at its scope is performed: no update in it is on its way (R240, R246). -/
def State.carryDone (s : State) (j : Job) : Bool :=
  let c := carryClock j.know j.ext
  s.msgs.all fun m => !decide (m.acc.epoch ≤ clockGet c m.acc.agent)

/-- The completion signal can be made: its semaphore is below 255, and with rl the carry set is performed. -/
def State.mayComplete (s : State) (j : Job) : Bool :=
  (!j.rl || j.failed || s.carryDone j) &&
  (match j.sg with
   | none => true
   | some i => decide (((s.shuttle j.sh).sem (BitVec.ofNat 4 i)).count < 255))

/-- A marker no longer awaits the command; what it covers grows (R242, R243). -/
def Shuttle.markDone (x : Shuttle) (id : Nat) (k : Know) : Shuttle :=
  if x.marks.any fun m => m.jobs.contains id then
    { x with marks := x.marks.map fun m => { m with jobs := m.jobs.filter (· ≠ id) }, covered := knowJoin x.covered k }
  else x

/-- The command has completed: a step trap that waited for it is due, or the command's fault is taken in its place (R361). -/
def State.endStep (s : State) (n : ShNo) (id : Nat) : State :=
  s.modShuttle n fun x =>
    { x with stepWaits :=
        if x.pending.any fun f => decide (f.cmd = id) then x.stepWaits.filter fun w => decide (w.cmd ≠ id)
        else x.stepWaits.map fun w => if w.cmd = id then { w with due := true } else w }

/-- Completion of a command of class `cls` (0 matrix, 1 tile move, 2 collective, 3 range command): counter, flags, markers,
semaphore, and a waiting step. -/
def State.completeJob (s : State) (j : Job) (cls : Fin 4) : State :=
  let s1 := s.modShuttle j.sh fun x =>
    if decide (x.task ≠ j.task) then x
    else
      let x1 : Shuttle :=
        { x with cc := x.cc.set j.cc.toNat (x.count j.cc - 1) j.cc.isLt,
                 ccDone := x.ccDone.set j.cc.toNat ((x.ccDone[j.cc.toNat]'j.cc.isLt) ++ [(j.issuer, j.epoch, j.after)])
                   j.cc.isLt,
                 engDone := x.engDone.set cls.val (x.engDone[cls.val] ++ [(j.issuer, j.epoch, j.after)]) }
      let x2 := x1.setSeq j.st { x1.seq j.st with status := (x1.seq j.st).status ||| j.flags }
      let x3 := x2.markDone j.id j.after
      match j.sg with
      | none => x3
      | some i =>
        let ix : BitVec 4 := BitVec.ofNat 4 i
        x3.setSem ix ((x3.sem ix).signal (j.access true .sync) j.after (j.release (.set [j.sh])))
  (s1.endStep j.sh j.id).bump j.sh

end Sys2Proof.Machine
end

