-- ==== Sys2Proof/Machine/Sync.lean ====
section
/-! DEFINITION. Task end, group information, full/empty cells, barriers and semaphores: major 0x3C (R174 to R187). -/

namespace Sys2Proof.Machine
open Sys2Proof

/-! ## TEND, GINFO, TORDER (R95, R185) -/

/-- The queues that still hold an entry, as eval of cause 0x10 (R95). -/
def Shuttle.residue (x : Shuttle) : W64 :=
  let bit (b : Bool) (i : Nat) : W64 := if b then BitVec.ofNat 64 (2 ^ i) else 0
  bit (!x.qCL.isEmpty) 0 ||| bit (!x.qCX.isEmpty) 1 ||| bit (!x.qCS.isEmpty) 2 ||| bit (!x.qSC.isEmpty) 3 |||
    bit (!x.qLX.isEmpty) 4 ||| bit (!x.qXS.isEmpty) 5

/-- The sequencer has ended or stayed idle. -/
def Seq.atRest (q : Seq) : Bool := decide (q.run = .ended) || decide (q.run = .idle)

/-- Member or copy `rank` of its task has ended: the task is complete with the last of them (R172, R185). -/
def Task.endMember (t : Task) (rank : Nat) (status : W64) : Task :=
  let ended := if t.ended.contains rank then t.ended else rank :: t.ended
  { t with ended := ended, flags := t.flags.set (t.copy rank).val (t.flags[(t.copy rank).val] ||| status), stat := if t.shuttles.length ≤ ended.length then .complete else t.stat }

/-- TEND of the control stream: the shuttle's part is complete and C issues nothing more in task mode. A stepped TEND retires
first: its step trap is taken with what follows it as C's resume pc (R360). -/
def endControl (s : State) : Result :=
  let x := s.me
  if !(x.l.atRest && x.x.atRest && x.s.atRest) then wait s .tend
  else if x.cc.toList.any (· ≠ 0) then wait s .tend
  else if x.residue ≠ 0 then trap s 0x10 x.residue
  else
    let s1 := s.modMySeq fun q => { q with run := .ended, stall := none }
    let s2 := (match x.task with
      | some p => s1.modTask p.1 fun t => t.endMember p.2 (x.c.status ||| x.l.status ||| x.x.status ||| x.s.status)
      | none => s1).bump s.here
    .next (if s.taskMode && x.dbgc.getLsbD 0 then
        (s2.setPc (s.pc + 4)).deliverTrap s.here 0x2F 0 (eauxOf false .c 0 s.pc) (s.pc + 4)
      else s2)

def execTend (k : BitVec 4) (s : State) : Result :=
  if s.stream = .c then endControl s
  else runT s k fun s => .done (s.modMySeq fun q => { q with run := .ended })

def execGinfo (d : RegNo) (g : BitVec 2) (s : State) : Result :=
  runC s (
    match s.taskAt s.here, s.me.task, s.groupSlot s.here g.toNat with
    | some t, some p, some e =>
      match (s.launchOf t.lid).bind fun l => l.groups[e]? with
      | some gr =>
        let place := t.places.getD p.2 0
        .done (s.setSreg d (BitVec.ofNat 64 (gr.members.length * 2 ^ 32 + (gr.members.filter (· < place)).length)))
      | none => .trapWord 0x16
    | _, _, _ => .trapWord 0x16)

def execTorder (l : BitVec 4) (s : State) : Result :=
  runC s (
    match s.taskAt s.here with
    | none => .done s
    | some t =>
      if t.dual then .trapWord 0x2E
      else if s.isOldest t.tid then .done (s.bind s.me.task) else .wait .other l.toNat)

/-! ## Full/empty cells (R174, R175, R186) -/

/-- Updates of the issuing sequencer that are not performed hold back its synchronising accesses (R246). -/
def State.ownUpdates (s : State) : Bool := s.msgs.any fun m => decide (m.sh = s.here ∧ m.st = s.stream)

/-- The scope at which a full/empty read acquires: the declared one of the counted line whose ready-flag fill the cell holds,
or `.lm` (R230). -/
def State.fillExt (s : State) (place : Nat) : Ext :=
  (assocGet s.flagExts (cellOf place)).getD (.set (loomShuttles s.here))

/-- The cell holds a counted line's fill of scope `e`, or one of another kind. -/
def State.setFlagExt (s : State) (place : Nat) (e : Option Ext) : State :=
  { s with flagExts := match e with
      | some e => assocSet (cellOf place) e s.flagExts
      | none => assocErase (cellOf place) s.flagExts }

/-- A consume waits for cells that are all full, the one at `place` among them: it takes that fill before a later one can land
(R174). -/
def State.consumeDue (s : State) (place : Nat) : Bool :=
  (loomShuttles s.here).any fun n =>
    let x := s.shuttle n
    !x.frozen && [Stream.c, .l, .x, .s].any fun st =>
      let q := x.seq st
      decide (q.run = .running) && !x.stopped st && (match q.stall with
        | some { kind := .consume ps, .. } => ps.contains (cellOf place) && ps.all s.fe
        | _ => false)

/-- The checks of full/empty instructions, then the wait until every cell is full (`want`) or empty; `take` for a consume. -/
def withFe (s : State) (eas : List Int) (want : Option Bool) (take : Bool) (limit : Nat) (f : State → Eff) : Eff :=
  match s.pocketFault 8 eas with
  | some (c, e) => .trap c e
  | none =>
    if s.ownUpdates then .wait .other limit
    else
      match want with
      | none => f s
      | some b =>
        if eas.all fun ea => decide (s.fe (s.placeOf ea) = b) then f s
        else .wait (if take then .consume (eas.map fun ea => cellOf (s.placeOf ea)) else .sync) limit

/-- The issuing sequencer acquires from what the cells hold. -/
def State.sightCells (s : State) (eas : List Int) : State :=
  eas.foldl (fun s ea => s.sight (some (s.fillExt (s.placeOf ea))) (s.relsAt (cellOf (s.placeOf ea)))) s

/-- An acquire or release at one of the scopes waits for the oldest task (R168). -/
def whenNearAll (s : State) (es : List Ext) (f : State → Eff) : Eff :=
  if es.any fun e => decide (e = .io ∨ e = .sy) then whenOldest s f else f s

/-- A full/empty read of the cells, a consume when `take`: each at the scope of the fill it reads (R230, R249). -/
def feRead (s : State) (eas : List Int) (take : Bool) (f : State → Eff) : Eff :=
  let ext (ea : Int) : Ext := s.fillExt (s.placeOf ea)
  whenNearAll s (eas.map ext) fun s =>
    withCellsAt (s.sightCells eas) take (if take then .consume else .sync) ext eas fun s =>
      f (if take then eas.foldl (fun s ea => s.setFe (s.placeOf ea) false) s else s)

/-- A fill of the cells: the bit, and the release at `.lm`. -/
def feFill (s : State) (eas : List Int) (f : State → Eff) : Eff :=
  let e : Ext := .set (loomShuttles s.here)
  withCells s true .fill e eas fun s =>
    f (eas.foldl (fun s ea =>
      ((s.setFe (s.placeOf ea) true).setRels (cellOf (s.placeOf ea)) (s.releases (some e))).setFlagExt (s.placeOf ea) none) s)

/-- LDF and LDFE. -/
def scalarFe (s : State) (d a : RegNo) (take : Bool) (limit : Nat) : Eff :=
  let ea := (s.sreg a).toInt
  withFe s [ea] (some true) take limit fun s =>
    let v := BitVec.ofNat 64 (s.pocketNat ea 8)
    feRead s [ea] take fun s => .done (s.setSreg d v)

def execLdf (d a : RegNo) (l : BitVec 4) (s : State) : Result := runC s (scalarFe s d a false l.toNat)
def execLdfe (d a : RegNo) (l : BitVec 4) (s : State) : Result := runC s (scalarFe s d a true l.toNat)

def execStef (d a : RegNo) (l : BitVec 4) (s : State) : Result :=
  let ea := (s.sreg a).toInt
  runC s (withFe s [ea] (some false) false l.toNat fun s =>
    feFill s [ea] fun s => .done (s.putDword (s.placeOf ea) (s.sreg d)))

/-- FESET does not wait for an empty cell, but lets a consume that waits take the fill that has landed. -/
def execFeset (a : RegNo) (s : State) : Result :=
  let ea := (s.sreg a).toInt
  runC s (withFe s [ea] none false 0 fun s =>
    if s.consumeDue (s.placeOf ea) then .wait .other 0 else feFill s [ea] .done)

def execFeclr (a : RegNo) (s : State) : Result :=
  let ea := (s.sreg a).toInt
  runC s (withFe s [ea] none false 0 fun s =>
    withCells s true .consume (.set (loomShuttles s.here)) [ea] fun s => .done (s.setFe (s.placeOf ea) false))

/-- The 64 cells from an address register. -/
def feAddrs (s : State) (a : RegNo) : List Int := (List.range 64).map fun (j : Nat) => (s.areg a).toInt + 8 * (j : Int)

def execVldfe (v a : RegNo) (l k : BitVec 4) (s : State) : Result :=
  runT s k fun s =>
    let eas := feAddrs s a
    withFe s eas (some true) true l.toNat fun s =>
      withVregs s [] [v] fun s =>
        let d := eas.map fun ea => s.pocketNat ea 8
        feRead s eas true fun s => .done (s.setVreg v (BitVec.ofNat 4096 (leNat (d.flatMap (leBytes 8)))))

def execVstef (v a : RegNo) (l k : BitVec 4) (s : State) : Result :=
  runT s k fun s =>
    let eas := feAddrs s a
    withFe s eas (some false) false l.toNat fun s =>
      withVregs s [v] [] fun s =>
        feFill s eas fun s =>
          let bs := leBytes 512 (s.vreg v).toNat
          .done ((eas.zip (List.range 64)).foldl
            (fun s p => s.putBytes (s.placeOf p.1) ((bs.drop (8 * p.2)).take 8)) s)

/-! ## Barriers (R176 to R180, R187) -/

/-- The gang task of the issuing shuttle with its rank, its gang group and the barrier; cause 0x15 without one. -/
def withBarrier (s : State) (f : Task → Nat → Group → Eff) : Eff :=
  match s.taskAt s.here, s.me.task with
  | some t, some p =>
    if !t.gang then .trapWord 0x15
    else
      match s.gangGroup t with
      | some (_, g) => f t p.2 g
      | none => .trapWord 0x15
  | _, _ => .trapWord 0x15

/-- The scope of a gang task's barriers: its members. -/
def Task.gangExt (t : Task) : Ext := .set t.shuttles

/-- eval of cause 0x13 (R180). -/
def Barrier.eval (v : Barrier) (b : BitVec 2) : W64 := BitVec.ofNat 64 (b.toNat + 2 ^ 32 * v.phase.toNat)

/-- C of member `m` arrives, or waits until it may (R177). A BARSYNC (`sync`) that would wait at a broken barrier takes the
barrier-overrun trap (R180). -/
def arrive (s : State) (b : BitVec 2) (cnt : Option Nat) (sync : Bool) (limit : Nat) (f : State → Eff) : Eff :=
  withBarrier s fun t m g =>
    let v := t.bar b
    let q := v.made.getD m 0
    let j := phaseIx q
    let posted := g.posted b
    if q = v.phase + 2 ∨ (q = v.phase + 1 ∧ !g.lead b) then
      if sync && v.brk then .trap 0x13 (v.eval b) else .wait .sync limit
    else if cnt.isSome && (!posted || v.pst[j.val].isSome) then .trapWord 0x15
    else if cnt.isNone && posted && decide (v.arr[j.val] + 1 = g.members.length) && v.pst[j.val].isNone then .trapWord 0x15
    else
      withTag s (barLoc s.here b.toNat) (s.barEval s.here b) true .plain t.gangExt fun s =>
        let c := s.me.c
        let r := releaseOf c.agent s.here c.know t.gangExt
        let s1 := s.modTask t.tid fun t => t.setBar b ((t.bar b).arrive g.members.length m posted cnt r)
        f ((s1.modMe fun x =>
          { x with arrivals := x.arrivals.set b.toNat ((x.arrivals[b.toNat]'b.isLt) ++ [clockGet c.know.own c.agent])
                     b.isLt }).bump s.here)

/-- The phase awaited has passed. -/
def Barrier.hasPassed (v : Barrier) (w : W32) : Bool := decide (0 < (v.phase - w).toInt)

/-- Bit `b` of BSW. -/
def Shuttle.setBsw (x : Shuttle) (b : BitVec 2) (on : Bool) : Shuttle :=
  let m : BitVec 4 := 1 <<< b.toNat
  { x with bsw := if on then x.bsw ||| m else x.bsw &&& ~~~m }

/-- The wait of BARWAIT and BARSYNC for the phase of the latest arrival that precedes it (R179, R180). `s0` stands when it
waits or traps. -/
def awaitPhase (s0 s : State) (b : BitVec 2) (limit : Nat) : Eff :=
  withBarrier s fun t _ _ =>
    let a := s.me.arrivalsBefore b s.mySeq.know
    let v := t.bar b
    if a = 0 then .trapWord 0x15
    else if v.brk then .trapAfter (fun _ => s0) 0x13 (v.eval b)
    else if v.hasPassed (a - 1) then
      let rs := ((v.passed.find? fun p => p.1 = a - 1).map Prod.snd).getD []
      .done ((s.acquireAll s.here s.stream t.gangExt rs).modMe fun x => x.setBsw b false)
    else .waitAfter (fun _ => s0) .sync limit

/-- Low two bits of a barrier field; 4 to 31 do not decode. -/
def barrierNo (b : BitVec 5) : BitVec 2 := b.setWidth 2

def execBararr (b : BitVec 5) (l : BitVec 4) (s : State) : Result := runC s (arrive s (barrierNo b) none false l.toNat .done)

def execBarpost (b : BitVec 5) (a : RegNo) (l : BitVec 4) (s : State) : Result :=
  runC s (arrive s (barrierNo b) (some (s.sreg a).toNat) false l.toNat .done)

/-- BARSYNC: its arrival retires apart from its wait. -/
def execBarsync (b : BitVec 5) (l : BitVec 4) (s : State) : Result :=
  let n := barrierNo b
  runC s (
    if s.me.bsw.getLsbD n.toNat then awaitPhase s s n l.toNat
    else
      arrive s n none true l.toNat fun s1 =>
        let s2 := s1.modMe fun x => x.setBsw n true
        awaitPhase s2 s2 n l.toNat)

def execBarwait (b : BitVec 5) (l k : BitVec 4) (s : State) : Result :=
  runT s k fun s1 => awaitPhase s s1 (barrierNo b) l.toNat

/-! ## Semaphores (R181) -/

/-- Low four bits of a semaphore field; 16 to 31 do not decode. -/
def semNo (i : BitVec 5) : BitVec 4 := i.setWidth 4

def execSemsig (i : BitVec 5) (k : BitVec 4) (s : State) : Result :=
  runT s k fun s =>
    let m := s.me.sem (semNo i)
    if 255 ≤ m.count then .wait .sync 0
    else
      let s1 := s.tickSeq s.here s.stream
      let q := s1.mySeq
      let e : Ext := .set [s.here]
      .done (s1.modMe fun x => x.setSem (semNo i)
        (m.signal (s1.accessOf s.here s.stream true .sync e) q.know (releaseOf q.agent s.here q.know e)))

def execSemwait (i : BitVec 5) (l k : BitVec 4) (s : State) : Result :=
  runT s k fun s =>
    let m := s.me.sem (semNo i)
    if m.count = 0 then .wait .sync l.toNat
    else
      let t := m.take
      let s1 := match t.2 with
        | some r => s.acquireAll s.here s.stream (.set [s.here]) [r]
        | none => s
      withTag s1 (semLoc s.here (semNo i).toNat) (semEval (semNo i)) true .consume (.set [s.here]) fun s =>
        .done (s.modMe fun x => x.setSem (semNo i) t.1)

end Sys2Proof.Machine
end

