-- ==== Sys2Proof/Machine/Atomic.lean ====
section
/-! DEFINITION. Synchronising loads and stores, fences, atomics, counted lines and ordered atomics: major 0x3D and the bank
units (R240 to R254, R403). -/

namespace Sys2Proof.Machine
open Sys2Proof

/-! ## LDS and STS (R253) -/

/-- The checks of LDS and STS, with their scope. -/
def syncCell (s : State) (a : RegNo) (c : BitVec 4) (f : State → Ext → Int → Eff) : Eff :=
  withScope s c.toNat fun s e =>
    let ea := (s.sreg a).toInt
    match s.pocketFault 8 [ea] with
    | some (cause, v) => .trap cause v
    | none => if s.ownUpdates then .wait .other 0 else f s e ea

def syncLoad (s : State) (d a : RegNo) (c : BitVec 4) (acq : Bool) : Eff :=
  syncCell s a c fun s e ea =>
    let s1 := s.sight (if acq then some e else none) (s.relsAt (cellOf (s.placeOf ea)))
    withCells s1 false .sync e [ea] fun s => .done (s.setSreg d (BitVec.ofNat 64 (s.pocketNat ea 8)))

def syncStore (s : State) (d a : RegNo) (c : BitVec 4) (rel : Bool) : Eff :=
  syncCell s a c fun s e ea =>
    withCells s true .sync e [ea] fun s =>
      .done ((s.putDword (s.placeOf ea) (s.sreg d)).setRels (cellOf (s.placeOf ea))
        (s.releases (if rel then some e else none)))

def execLds (d a : RegNo) (c : BitVec 4) (s : State) : Result := runC s (syncLoad s d a c false)
def execLdsAcq (d a : RegNo) (c : BitVec 4) (s : State) : Result := runC s (syncLoad s d a c true)
def execSts (d a : RegNo) (c : BitVec 4) (s : State) : Result := runC s (syncStore s d a c false)
def execStsRel (d a : RegNo) (c : BitVec 4) (s : State) : Result := runC s (syncStore s d a c true)

/-! ## Fences (R241 to R243) -/

/-- The effect of ACQ at `e`. -/
def State.acqFence (s : State) (e : Ext) : State := s.acquireAll s.here s.stream e s.mySeq.sighted

/-- The effect of REL at `e`, the carry set being that of `k`. -/
def State.relFence (s : State) (e : Ext) (k : Know) : State :=
  s.modMySeq fun q =>
    { q with relFences := releaseOf q.agent s.here k e :: q.relFences.filter fun r => decide (r.ext ≠ e) }

def execAcq (c k : BitVec 4) (s : State) : Result :=
  runT s k fun s => withScope s c.toNat fun s e => .done (s.acqFence e)
def execRel (c k : BitVec 4) (s : State) : Result :=
  runT s k fun s => withScope s c.toNat fun s e => .done (s.relFence e s.mySeq.know)

/-- All markers have reached the head. -/
def Marks.done (m : Marks) : Bool := m.jobs.isEmpty && m.pops.all fun p => p.2.2.isSome

/-- Commands, moves and updates that the channels of `mask` await (R242). -/
def State.markJobs (s : State) (mask : BitVec 8) : List Nat :=
  let mine (j : Job) : Bool := decide (j.sh = s.here ∧ j.st = .c)
  let own := s.me.c.know.own
  (if mask.getLsbD 3 then (s.mats.filter fun m => mine m.job).map (·.job.id) else []) ++
  (if mask.getLsbD 4 then
    (s.moves.filter fun m => decide (m.job.sh = s.here) &&
      (decide (m.job.st = .c) || decide (m.job.epoch ≤ clockGet own m.job.issuer))).map (·.job.id) else []) ++
  (if mask.getLsbD 5 then (s.colls.filter fun m => mine m.job).map (·.job.id) else []) ++
  (if mask.getLsbD 6 then (s.rangeJobs.filter fun m => mine m.job).map (·.job.id) else []) ++
  (if mask.getLsbD 7 then (s.msgs.filter fun m => decide (m.sh = s.here ∧ m.st = .c)).map (·.id) else [])

/-- What completed commands of the channels of `mask` order: those of C, and moves of L and S issued before in stream order
(R242, R243). -/
def State.markEnded (s : State) (mask : BitVec 8) : Know :=
  let c := s.me.c
  let take (cls : Fin 4) (others : Bool) (k : Know) : Know :=
    (s.me.engDone[cls.val]).foldl
      (fun k d => if d.1 = c.agent ∨ (others ∧ d.2.1 ≤ clockGet c.know.own d.1) then knowJoin k d.2.2 else k) k
  let k0 := if mask.getLsbD 3 then take 0 false Know.none else Know.none
  let k1 := if mask.getLsbD 4 then take 1 true k0 else k0
  let k2 := if mask.getLsbD 5 then take 2 false k1 else k1
  if mask.getLsbD 6 then take 3 false k2 else k2

/-- What a MARK waits for: that one of the earlier MARKs, by its place, has all its markers at the head. A fifth with four on
their way waits for the oldest of them, whichever is done first (R242). -/
def Shuttle.markBlock (x : Shuttle) : Option Nat :=
  match x.markWait with
  | some i => if (x.marks[i]?).all Marks.done then none else some i
  | none => if 4 ≤ (x.marks.filter fun m => !m.done).length then x.marks.findIdx? (fun m => !m.done) else none

/-- MARK with the given mask, or the wait for an earlier one. -/
def State.pushMarks (s : State) (mask : BitVec 8) : Except Nat State :=
  match s.me.markBlock with
  | some i => .error i
  | none =>
    let pop (i : Nat) (st : Stream) : List (Stream × Nat × Option Know) :=
      let ch := s.me.chan st
      if mask.getLsbD i then [(st, ch.pushed, if ch.pushed ≤ ch.popped then some ch.last else none)] else []
    let m : Marks := { pops := pop 0 .l ++ pop 1 .x ++ pop 2 .s, jobs := s.markJobs mask }
    .ok (s.modMe fun x =>
      { x with marks := x.marks ++ [m], markWait := none, covered := knowJoin x.covered (s.markEnded mask) })

/-- C waits for the MARK at place `i`. -/
def waitMark (i limit : Nat) : Eff := .waitAfter (fun s => s.modMe fun x => { x with markWait := some i }) .other limit

def execMark (m : BitVec 8) (s : State) : Result :=
  runC s (match s.pushMarks m with
    | .ok s1 => .done s1
    | .error i => waitMark i 0)

/-- The name under which a waiting OATOM or FENCE of C is kept. -/
def State.instrKey (s : State) : Nat := s.pc.toNat + (if s.me.mon then 2 ^ 32 else 0)

/-- What the finished markers cover, with what was covered before. -/
def Shuttle.coveredNow (x : Shuttle) : Know :=
  x.marks.foldl (fun k m => m.pops.foldl (fun k p => match p.2.2 with
    | some j => knowJoin k j
    | none => k) k) x.covered

/-- JOIN at `e`: it waits for every marker, then releases what they cover and acquires. C's own ACQ takes up that release: an
edge at `e`, which is no part of stream order (R85, R243; assumption log 10). `fences` still wait afterwards. -/
def join (s : State) (e : Ext) (limit : Nat) (fences : List Nat) : Eff :=
  if s.me.marks.any fun m => !m.done then .waitAfter (fun _ => s) .other limit
  else
    let cov := s.me.coveredNow
    let s1 := s.modMe fun x => { x with marks := [], covered := cov, fences := fences }
    let r := releaseOf s.me.c.agent s.here (knowJoin s1.me.c.know cov) e
    .done ((s1.relFence e (knowJoin s1.me.c.know cov)).modMySeq (fun q =>
      { q with know := { q.know with learned := learn { rel := e, acq := e, clk := r.clk } q.know.learned } }) |>.acqFence e)

def execJoin (l : BitVec 5) (c : BitVec 4) (s : State) : Result :=
  runC s (withScope s c.toNat fun s e => join s e l.toNat s.me.fences)

def execFence (l : BitVec 5) (c : BitVec 4) (s : State) : Result :=
  runC s (withScope s c.toNat fun s e =>
    let me := s.instrKey
    let others := s.me.fences.filter (· ≠ me)
    if s.me.fences.contains me then join s e l.toNat others
    else
      match s.pushMarks 0xFF with
      | .error i => waitMark i l.toNat
      | .ok s1 => join (s1.modMe fun x => { x with fences := me :: others }) e l.toNat others)

/-! ## Atomic operations (R244) -/

/-- The new value of a cell. -/
def atomFn (op : Nat) (a b : W64) : W64 :=
  match op with
  | 0 => a + b
  | 1 => if a.slt b then a else b
  | 2 => if a.slt b then b else a
  | 3 => if a.ult b then a else b
  | 4 => if a.ult b then b else a
  | 5 => a &&& b
  | 6 => a ||| b
  | 7 => a ^^^ b
  | _ => b

/-! ## Where an update goes (R245) -/

/-- The place lies in the Pocket of shuttle `n`. -/
def inPocket (n : ShNo) (place : Nat) : Bool := decide (place / 2 ^ 20 = pocketPlace n 0 / 2 ^ 20)

def State.updateTarget (s : State) (ea : W64) : Except (BitVec 8) Target :=
  if ea.toNat % 8 ≠ 0 then .error 0x04
  else if eaError ea then .error 0x18
  else if eaLevel ea = 3 then
    match s.rangeOf (eaLow ea) with
    | .error c => .error c
    | .ok (_, d) => if d.at then .ok (.global (eaLow ea)) else .error 0x1C
  else
    match s.scratchAt s.here (eaLevel ea) (eaLow ea) with
    | none => .error (if eaLevel ea = 0 then 0x05 else 0x18)
    | some p => if inPocket s.here p && s.badCell p then .error 0x08 else .ok (.cell p)

/-- The counted line that holds a place: the latest declaration. -/
def State.lineAt (s : State) (place : Nat) : Option CLine :=
  s.lines.reverse.find? fun l => decide (l.line = place / 64 * 64)

/-- The place lies in a declared line that is not complete. -/
def State.linePending (s : State) (place : Nat) : Bool :=
  match s.lineAt place with
  | some l => decide (l.recv < l.n)
  | none => false

/-- The target after translation: a place here, or a doubleword of another package. -/
def State.settle (s : State) (t : Target) : Except GFault Target :=
  match t with
  | .global va =>
    match s.translate va .atomic with
    | .ok _ => .ok t
    | .error (.remote p pa) => .ok (.away p pa)
    | .error e => .error e
  | t => .ok t

/-- The place of a target in this package. -/
def State.targetPlace (s : State) (t : Target) : Option Nat :=
  match t with
  | .cell p => some p
  | .global va =>
    match s.translate va .atomic with
    | .ok (pa, _, _) => some pa
    | .error _ => none
  | .away _ _ => none

/-- The issuing sequencer makes one access to each of the scratch places, or takes the race. -/
def withScratch (s : State) (write : Bool) (kind : AccKind) (ext : Ext) (places : List Nat) (f : State → Eff) : Eff :=
  let s1 := s.tickSeq s.here s.stream
  let k := s1.mySeq.know
  let a := s1.accessOf s.here s.stream write kind ext
  match findRace k a s1.tags (places.map cellOf) with
  | some l => .trap 0x20 (placeEa s.here l)
  | none => f (s1.note a (places.map cellOf))

/-- The checks of R245 on every address in turn, the wait for the oldest task and for residency, and the entry of global
targets in the write-interval table. -/
def withTargets (s : State) (eas : List W64) (kind : AccKind) (ext : Ext) (extra : State → Target → Option (BitVec 8))
    (f : State → List (W64 × Target) → Eff) : Eff :=
  let checked := eas.map fun ea => (ea, s.updateTarget ea)
  let bad := checked.findSome? fun p =>
    match p.2 with
    | .error c => some (c, p.1)
    | .ok t => (extra s t).map fun c => (c, p.1)
  match bad with
  | some (c, ea) => .trap c ea
  | none =>
    let ts := checked.filterMap fun p =>
      match p.2 with
      | .ok t => some (p.1, t)
      | .error _ => none
    let vas := ts.filterMap fun p =>
      match p.2 with
      | .global va => some va
      | _ => none
    if s.ownUpdates then .wait .other 0
    else if vas.isEmpty then f s ts
    else
      whenOldest s fun s =>
        withResidency s (vas.map fun va => (va, 8)) (
          match vas.findSome? fun va =>
            match s.settle (.global va) with
            | .error e => some e
            | .ok _ => none with
          | some e => seqGFault s e
          | none => withIntervals s true kind ext (vas.map fun va => (va, 8)) fun s => f s ts)

/-! ## Updates on their way (R246) -/

/-- The request that a bank operation is to another package. -/
def BankOp.remote (o : BankOp) (v : W64) : RemoteOp :=
  match o with
  | .atom op => .atomic (BitVec.ofNat 3 op) v
  | .contribute op => .contribute (BitVec.ofNat 3 op) v

/-- A contribution to a line of another package releases to that package, and to the reader of the line's flag here (R249, R400,
R403). -/
def State.awayRelease (s : State) (p : BitVec 8) (pa : Nat) (rs : List Carry) : State :=
  let s1 := s.giveTo p rs
  { s1 with awayLines := s1.awayLines.map fun l =>
      if l.peer = p ∧ l.line = pa / 64 * 64 then { l with carries := l.carries ++ rs } else l }

/-- An update of a global doubleword goes through its range; one to another package counts as a write by then (R216, R343). -/
def State.noteUpdate (s : State) (who : Option (Nat × Nat)) (va : Nat) : State :=
  match s.locate va .atomic with
  | .ok (.away _ _, j, d) => s.noteRange who j d true
  | .ok (.home _, j, d) => s.noteRange who j d false
  | .error _ => s

/-- An update leaves for its bank unit, or for another package. -/
def State.sendUpdate (s : State) (ea : W64) (t : Target) (o : BankOp) (v : W64) (kind : AccKind) (ext : Ext)
    (rel : List Carry) : State :=
  let t1 := match s.settle t with
    | .ok t => t
    | .error _ => t
  let noted := match t with
    | .global va => s.noteUpdate s.me.task va
    | _ => s
  let id := s.nextId
  let m : BankMsg :=
    { id := id, sh := s.here, st := s.stream, ipc := s.pc, task := s.me.task, target := t1, ea := ea, op := o, val := v,
      acc := s.accessOf s.here s.stream true kind ext, know := s.mySeq.know, rel := rel, born := s.invals }
  let s1 := { noted with nextId := id + 1, msgs := s.msgs ++ [m] }
  match t1 with
  | .away p pa =>
    (match o with
     | .contribute _ => s1.awayRelease p pa (releaseOf m.acc.agent m.sh m.know .dm :: rel)
     | .atom _ => s1).sendRemote id p pa (o.remote v) ea
  | _ => s1

/-- ATOM and VATOM: updates of the local Pocket are performed now, the others are sent. -/
def atomics (s : State) (ups : List (W64 × W64)) (op : Nat) (rel : Bool) (c : BitVec 4) : Eff :=
  withScope s c.toNat fun s e =>
    let pending (s : State) (t : Target) : Option (BitVec 8) :=
      match s.targetPlace t with
      | some p => if s.linePending p then some 0x25 else none
      | none => none
    withTargets s (ups.map Prod.fst) (.update op) e pending fun s ts =>
      let near := ts.filterMap fun p =>
        match p.2 with
        | .cell pl => if inPocket s.here pl then some pl else none
        | _ => none
      withScratch s true (.update op) e near fun s =>
        let r := s.releases (if rel then some e else none)
        .done ((ts.zip ups).foldl (fun s p =>
          let v := p.2.2
          match p.1.2 with
          | .cell pl =>
            if inPocket s.here pl then (s.putDword pl (atomFn op (s.dword pl) v)).addRels (cellOf pl) r
            else s.sendUpdate p.1.1 p.1.2 (.atom op) v (.update op) e r
          | t => s.sendUpdate p.1.1 t (.atom op) v (.update op) e r) s)

def execAtom (d a : RegNo) (o : BitVec 3) (c : BitVec 4) (s : State) : Result :=
  runC s (atomics s [(s.sreg a, s.sreg d)] o.toNat false c)
def execAtomRel (d a : RegNo) (o : BitVec 3) (c : BitVec 4) (s : State) : Result :=
  runC s (atomics s [(s.sreg a, s.sreg d)] o.toNat true c)

/-- The 64 updates of VATOM. -/
def vectorUpdates (s : State) (v a : RegNo) : List (W64 × W64) :=
  (List.range 64).map fun j =>
    (s.areg a + BitVec.ofNat 64 (8 * j), (s.vreg v).extractLsb' (64 * j) 64)

def vatomics (s : State) (v a : RegNo) (o : BitVec 3) (rel : Bool) (c : BitVec 4) : Eff :=
  withVregs s [v] [] fun s => atomics s (vectorUpdates s v a) o.toNat rel c

def execVatom (v a : RegNo) (o : BitVec 3) (c k : BitVec 4) (s : State) : Result :=
  runT s k fun s => vatomics s v a o false c
def execVatomRel (v a : RegNo) (o : BitVec 3) (c k : BitVec 4) (s : State) : Result :=
  runT s k fun s => vatomics s v a o true c

/-! ## Counted lines (R247, R248) -/

/-- The panel that homes a place: for HBM, that of the stack that bits 14:12 name (R385). -/
def homePanel (place : Nat) : BitVec 2 :=
  if 2 ^ 62 ≤ place then BitVec.ofNat 2 ((place - 2 ^ 62) / 2 ^ 27)
  else if 2 ^ 61 ≤ place then BitVec.ofNat 2 ((place - 2 ^ 61) / 2 ^ 22 / 8)
  else if 2 ^ 60 ≤ place then BitVec.ofNat 2 ((place - 2 ^ 60) / 2 ^ 20 / 64)
  else BitVec.ofNat 2 (place / 2 ^ 13)

/-- An entry of a count table, of name `id`. -/
def newLine (id place : Nat) (va : Option Nat) (n : Nat) (ext : Ext) (flag : Nat) (peer : Option (BitVec 8))
    (task : Option Nat) : CLine :=
  { id := id, panel := homePanel place, line := place, va := va, n := n, ext := ext, flag := flag, peer := peer, recv := 0,
    kind := .none, ops := Vector.replicate 8 none, held := [], carries := [], by_ := none, task := task, filled := false }

/-- A declaration is refused: cause 0x26. -/
def State.refusesLine (s : State) (place n : Nat) : Bool :=
  decide (n = 0) || s.linePending place ||
    decide (1024 ≤ (s.lines.filter fun l => decide (l.panel = homePanel place) && decide (l.line ≠ place)).length)

/-- The entry is made; it replaces a complete one whose flag is filled. -/
def State.declareLine (s : State) (l : CLine) : State :=
  { s with lines := (s.lines.filter fun o => !(decide (o.line = l.line) && o.filled)) ++ [l], nextId := s.nextId + 1 }

def declare (s : State) (d a : RegNo) (c : BitVec 4) : Eff :=
  let line := s.sreg a
  let n := bitsOf (s.sreg d) 0 32
  let flag := s.sreg (d ||| 1)
  withScope s c.toNat fun s e =>
    if line.toNat % 64 ≠ 0 then .trap 0x04 line
    else if flag.toNat % 8 ≠ 0 then .trap 0x04 flag
    else
      match s.updateTarget line with
      | .error c => .trap c line
      | .ok t =>
        match s.updateTarget flag with
        | .error c => .trap c flag
        | .ok (.cell fp) =>
          let task := s.me.task.map Prod.fst
          match t with
          | .cell lp =>
            if s.refusesLine lp n then .trap 0x26 line
            else .done (s.declareLine (newLine s.nextId lp none n e fp none task))
          | t =>
            withResidency s [(eaLow line, 64)] (
              match s.settle t with
              | .error er => seqGFault s er
              | .ok (.away p pa) =>
                if c ≠ 7 then .trap 0x26 line
                else
                  whenOldest s fun s =>
                    remoteCall s { peer := p, pa := pa, op := .declare (BitVec.ofNat 32 n) (BitVec.ofNat 64 fp), ea := line } 0
                      fun s r =>
                        match replyCause r with
                        | none =>
                          .done { s with awayLines := { peer := p, line := pa, flag := fp, carries := [], task := task, filled := false } ::
                                    s.awayLines.filter fun l => decide (l.peer ≠ p ∨ l.line ≠ pa) }
                        | some c => .trapAfter (fun _ => s) c (s.causeEval c line)
              | .ok t =>
                match s.targetPlace t with
                | none => .wait .other 0
                | some lp =>
                  if s.refusesLine lp n then .trap 0x26 line
                  else .done (s.declareLine (newLine s.nextId lp (some (eaLow line)) n e fp none task)))
        | .ok _ => .trap 0x18 flag

def execCldecl (d a : RegNo) (c : BitVec 4) (s : State) : Result := runC s (declare s d a c)

/-- The declared scopes of the lines here that the targets lie in. -/
def State.lineExts (s : State) (ts : List (W64 × Target)) : List Ext :=
  ts.filterMap fun p => ((s.targetPlace p.2).bind s.lineAt).map CLine.ext

def execCladd (d a : RegNo) (o : BitVec 3) (s : State) : Result :=
  let v := s.sreg d
  let kind : AccKind := .contribution o.toNat
  runC s (withTargets s [s.sreg a] kind s.ownExt (fun _ _ => none) fun s ts =>
    whenNearAll s (s.lineExts ts) fun s =>
      let s1 := s.tickSeq s.here s.stream
      .done (ts.foldl (fun s p => s.sendUpdate p.1 p.2 (.contribute o.toNat) v kind s.ownExt (s.releases none)) s1))

/-! ## What a bank unit does (R244, R248) -/

/-- `n` global bytes within a line become `f` of their old values, which the own task's staged bytes make up where it has
some; they are performed at once. `j` and `d` map them. -/
def State.updateBytes (s : State) (who : Option (Nat × Nat)) (pa va j : Nat) (d : Desc) (n : Nat) (f : List Byte → List Byte) :
    State :=
  let mem := memBytes s.mem pa n
  match who.bind fun p => (s.taskOf p.1).map fun t => (t, p.2) with
  | none => s.performWrite none pa va (f mem)
  | some (t, rank) =>
    let ws := (t.stage rank).writes
    let old := (List.range n).map fun i => (stagedByte ws (va + i)).getD (mem.getD i 0)
    ((s.modTask t.tid fun t => t.setStage rank ((t.stage rank).cut va (va + n))).noteRange who j d true).performWrite
      (some t.key) pa va (f old)

/-- The bytes at a virtual address as the own task sees them, its place in HBM being known. -/
def State.viewBytes (s : State) (who : Option (Nat × Nat)) (pa va n : Nat) : List Byte :=
  let mem := memBytes s.mem pa n
  match who.bind fun p => (s.taskOf p.1).map fun t => (t, p.2) with
  | none => mem
  | some (t, rank) => (List.range n).map fun i => (stagedByte (t.stage rank).writes (va + i)).getD (mem.getD i 0)

/-- A global doubleword becomes `f` of its old value. -/
def State.updateGlobal (s : State) (who : Option (Nat × Nat)) (pa va j : Nat) (d : Desc) (f : W64 → W64) : State × W64 :=
  let num (bs : List Byte) : W64 := BitVec.ofNat 64 (leNat bs)
  (s.updateBytes who pa va j d 8 fun bs => leBytes 8 (f (num bs)).toNat, num (s.viewBytes who pa va 8))

/-- A target's doubleword becomes `f` of its old value. -/
def State.updateAt (s : State) (who : Option (Nat × Nat)) (t : Target) (f : W64 → W64) : State × W64 :=
  match t with
  | .cell p => (s.putDword p (f (s.dword p)), s.dword p)
  | .global va =>
    match s.translate va .atomic with
    | .ok (pa, j, d) => s.updateGlobal who pa va j d f
    | .error _ => (s, 0)
  | .away _ _ => (s, 0)

/-- The number of a cell in its line. -/
def cellIx (place : Nat) : Fin 8 := ⟨place / 8 % 8, Nat.mod_lt _ (by decide)⟩

/-- A plain contribution cannot be applied to the line: its cause. -/
def contributionFault (l : Option CLine) (place op : Nat) : Option (BitVec 8) :=
  match l with
  | none => some 0x23
  | some l =>
    if l.n ≤ l.recv then some 0x23
    else if l.kind = .ordered ∨ (l.ops[(cellIx place).val].isSome ∧ l.ops[(cellIx place).val] ≠ some op) then some 0x25
    else none

def State.modLine (s : State) (l : CLine) (f : CLine → CLine) : State :=
  { s with lines := s.lines.map fun o => if o.id = l.id then f o else o }

/-- The line after a plain contribution of `op` to the cell at `place`. -/
def CLine.contributed (l : CLine) (place op : Nat) (r : List Carry) (by_ : Option Actor) : CLine :=
  { l with kind := .plain, ops := l.ops.set (cellIx place).val (some op), recv := l.recv + 1, carries := l.carries ++ r,
           by_ := by_ }

/-- A message is off its way: markers, and other waits in its shuttle. -/
def State.endUpdate (s : State) (m : BankMsg) : State :=
  ({ s with msgs := s.msgs.filter fun o => decide (o.id ≠ m.id) }.modShuttle m.sh fun x => x.markDone m.id m.know).bump m.sh

/-- A fault of an update: asynchronous, at the issuing pc. -/
def State.updateFault (s : State) (m : BankMsg) (cause : BitVec 8) : State :=
  if s.orphan m.sh m.task then s
  else s.asyncFault m.sh { cause := cause, eval := s.causeEval cause m.ea, str := m.st, eng := 5, ipc := m.ipc, cmd := m.id, found := s.cycle }

/-- An update is performed at its bank, or its fault is found. -/
def State.performUpdate (s : State) (m : BankMsg) (place : Nat) : State :=
  let scratch := decide (2 ^ 60 ≤ place)
  -- a contribution's scope is the declared one of its line (R230)
  let acc : Access := match m.op, s.lineAt place with
    | .contribute _, some l => { m.acc with ext := l.ext }
    | _, _ => m.acc
  if s.badCell place then s.updateFault m 0x1A
  else if scratch && racesWith m.know acc (tagOf s.tags (cellOf place)) then s.updateFault m 0x20
  else
    let tagged (s : State) : State := if scratch then s.note acc [cellOf place] else s
    match m.op with
    | .atom op =>
      if s.linePending place then s.updateFault m 0x25
      else ((tagged s).updateAt m.task m.target (fun a => atomFn op a m.val)).1.addRels (cellOf place) m.rel
    | .contribute op =>
      match contributionFault (s.lineAt place) place op, s.lineAt place with
      | some c, _ => s.updateFault m c
      | none, none => s
      | none, some l =>
        let r := releaseOf m.acc.agent m.sh m.know l.ext :: m.rel
        ((tagged s).updateAt m.task m.target (fun a => atomFn op a m.val)).1.modLine l
          (fun l => l.contributed place op r (some { sh := m.sh, st := m.st, ipc := m.ipc, acc := acc, know := m.know }))
          |>.addRels (cellOf place) r

/-- The bank of a place: its number within its level, which orders the messages of one sequencer (R188, R246). -/
def bankOf (place : Nat) : Nat :=
  if 2 ^ 62 ≤ place then 2 ^ 62 + place / 256 % 256
  else if 2 ^ 61 ≤ place then 2 ^ 61 + place / 64 % 32
  else if 2 ^ 60 ≤ place then (place / 2 ^ 20) * 2 ^ 20 + place % 2 ^ 20 / 8 % 48
  else place / 64

/-- A bank unit performs update `id` of shuttle `sh`, when no earlier one of its sequencer is on its way to that bank. -/
def execBankUpdate (sh : ShNo) (id : Nat) (s : State) : Result :=
  match s.msgs.find? fun m => decide (m.id = id ∧ m.sh = sh) with
  | none => .next s
  | some m =>
    match m.target with
    | .away p pa =>
      match s.sent.find? fun o => decide (o.owner = id ∧ o.peer = p ∧ o.pa = pa) with
      | some o =>
        match o.reply with
        | none => .next s
        | some r =>
          let s1 := { s with sent := s.sent.filter fun o => decide (o.owner ≠ id) }
          .next ((match replyCause r with
            | none => s1
            | some c => s1.updateFault m c).endUpdate m)
      | none => .next s
    | t =>
      match t, s.settle t with
      | .global _, .error (.absent ix ch) =>
        if s.isDenied id ix ch then .next ((s.clearDenied id).updateFault m 0x1D |>.endUpdate m)
        else .next (s.requestChunk id ix ch)
      | _, .error (.fault c _) => .next ((s.updateFault m c).endUpdate m)
      | .global va, .ok (.away p pa) =>
        .next ({ s.noteUpdate m.task va with msgs := s.msgs.map fun (o : BankMsg) => if o.id = id then { o with target := .away p pa } else o }.sendRemote id p pa
          (m.op.remote m.val) m.ea)
      | _, _ =>
        match s.targetPlace t with
        | none => .next s
        | some p =>
          let earlier := s.msgs.any fun o =>
            decide (o.sh = m.sh ∧ o.st = m.st ∧ o.id < m.id) &&
              (match s.targetPlace o.target with
               | some q => decide (bankOf q = bankOf p)
               | none => false)
          if earlier then .next s else .next ((s.performUpdate m p).endUpdate m)

/-! ## The ready flag (R249) -/

/-- The releases that a fill with access `a` leaves at the flag. -/
def CLine.fillCarries (l : CLine) (a : Access) : List Carry :=
  { agent := a.agent, home := a.home, ext := l.ext, clk := [(a.agent, a.epoch)] } :: l.carries

/-- The bank unit's access as it fills the flag: it stands in the place of the latest contributor (R229), and comes after
every contribution. -/
def CLine.fillAccess (l : CLine) (b : Actor) : Access × Know :=
  ({ b.acc with write := true, kind := .fill, ext := l.ext },
   { b.know with learned := l.carries.foldl (fun ls c => learn { rel := c.ext, acq := l.ext, clk := c.clk } ls) b.know.learned })

/-- The fill is made in the place of the latest contributor; the cell is empty. A fault of it is taken by that contributor, here if it
is of this package. -/
def State.fillFlag (s : State) (l : CLine) : State :=
  match l.by_ with
  | none => s
  | some b =>
    let f := l.fillAccess b
    let s1 := { s with stamp := s.stamp + 1 }
    if racesWith f.2 f.1 (tagOf s.tags (cellOf l.flag)) then
      s1.actorFault b 0x20 (placeEa b.sh (cellOf l.flag)) l.id
    else
      ((((s1.putDword l.flag (BitVec.ofNat 64 l.n)).setFe l.flag true).setRels (cellOf l.flag) (l.fillCarries f.1)).setFlagExt
        l.flag (some l.ext)).bump b.acc.home |>.note f.1 [cellOf l.flag]

def execClFlagFill (panel : BitVec 2) (line : Nat) (s : State) : Result :=
  match s.lines.find? fun l => decide (l.panel = panel ∧ l.line = line ∧ l.recv = l.n) && !l.filled with
  | none => .next s
  | some l =>
    let filled (s : State) : State :=
      { s with lines := s.lines.map fun o => if o = l then { o with filled := true } else o }
    match l.peer with
    | some p =>
      let ea := match l.by_ with
        | some b => placeEa b.sh l.flag
        | none => 0
      .next (filled (
        match s.linkTo p, l.by_ with
        | none, some b => s.actorFault b 0x38 ea l.id
        | _, _ => (s.giveTo p l.carries).sendRemote 0 p l.flag (.fill (BitVec.ofNat 64 l.n)) ea l.by_))
    | none => if s.fe l.flag then .next s else .next (filled (s.fillFlag l))

/-! ## Ordered atomics (R250) -/

/-- Held contributions in increasing key. -/
def sortHeld (hs : List Held) : List Held :=
  hs.foldl (fun acc h => acc.takeWhile (fun o => decide (o.key.toNat ≤ h.key.toNat)) ++ [h] ++
    acc.dropWhile (fun o => decide (o.key.toNat ≤ h.key.toNat))) []

/-- A result leaves for its contributor: to a waiting C, or to its package. -/
def State.giveResult (s : State) (h : Held) (r : OrderedResult) : State :=
  match h.remote with
  | some (p, q) =>
    s.acknowledge { peer := p, vc := 0, seq := q } (match r with
      | .value v _ rels => .result v (rels.foldl (fun c k => clockJoin c k.clk) [])
      | .refused c => .refused c)
  | none => { s with results := s.results ++ [(h.id, r)], stamp := s.stamp + 1 }

/-- Where a cell of a line stands. -/
def CLine.targetOf (l : CLine) (place : Nat) : Target :=
  match l.va with
  | some va => .global (va + place % 64)
  | none => .cell place

/-- All contributions have come: they are applied in increasing key, or refused when two keys are equal. One to a cell that holds an
uncorrectable error is not applied (R370, R385). -/
def State.applyOrdered (s : State) (l : CLine) (who : Option (Nat × Nat)) : State :=
  let keys := l.held.map Held.key
  if keys.dedup.length ≠ keys.length then
    l.held.foldl (fun s h => s.giveResult h (.refused 0x24)) { s with lines := s.lines.filter fun o => decide (o ≠ l) }
  else
    let step (s : State) (h : Held) : State :=
      if s.badCell h.place then s.giveResult h (.refused 0x1A)
      else
        let u := s.updateAt who (l.targetOf h.place) fun a => atomFn h.op a h.val
        (u.1.giveResult h (.value u.2 l.ext (s.relsAt (cellOf h.place)))).addRels (cellOf h.place) h.rel
    (sortHeld l.held).foldl step s

/-- A new contribution of C to a line of this package. -/
def contributeOrdered (s : State) (t : Target) (ea : W64) (op : Nat) (v : W64) (key : W32) (limit : Nat) : Eff :=
  match s.targetPlace t with
  | none => .wait .other limit
  | some place =>
    match s.lineAt place with
    | none => .trap 0x23 ea
    | some l =>
      if l.n ≤ l.recv then .trap 0x23 ea
      else if l.kind = .plain then .trap 0x25 ea
      else
        let go (s : State) : Eff :=
          let s0 := s.tickSeq s.here s.stream
          let q := s0.mySeq
          let id := s.nextId
          let h : Held :=
            { id := id, place := place, op := op, val := v, key := key,
              rel := releaseOf q.agent s.here q.know l.ext :: q.relFences, remote := none }
          let l1 : CLine :=
            { l with kind := .ordered, held := l.held ++ [h], recv := l.recv + 1, carries := l.carries ++ h.rel,
                     by_ := some { sh := s.here, st := .c, ipc := s.pc, acc := s0.accessOf s.here .c true (.contribution op) l.ext,
                                   know := q.know } }
          let s1 := { s0.modMe (fun x => { x with oatoms := (s.instrKey, id) :: x.oatoms }) with nextId := id + 1 }
          let s2 := s1.modLine l fun _ => l1
          .waitAfter (fun _ => (if l1.recv = l1.n then s2.applyOrdered l1 s.me.task else s2).bump s.here) .other limit
        whenNearAll s [l.ext] fun s =>
          if 2 ^ 60 ≤ place then withScratch s true (.contribution op) l.ext [place] go else go s

/-- The range of the issuing task's own contribution, which is applied by now (R216, R343). -/
def State.noteOwn (s : State) (ea : W64) : State :=
  match s.updateTarget ea with
  | .ok (.global va) =>
    match s.locate va .atomic with
    | .ok (_, j, d) => s.noteRange s.me.task j d true
    | .error _ => s
  | _ => s

/-- C acquires at `.dm` from the contributions of this package that come before the result: releases from here have carried them
to the line's package (R250, R403). -/
def State.learnAway (s : State) (p : BitVec 8) (after : Clock) : State :=
  s.modMySeq fun q =>
    { q with know := { q.know with learned := learn { rel := .dm, acq := .dm, clk := clockMeet after (s.givenTo p) } q.know.learned } }

def ordered (s : State) (d a : RegNo) (op limit : Nat) : Eff :=
  let ea := s.sreg a
  match s.me.oatoms.find? fun p => p.1 = s.instrKey with
  | some (_, id) =>
    let clear (s : State) : State :=
      { s.modMe (fun x => { x with oatoms := x.oatoms.filter fun p => decide (p.2 ≠ id) }) with
        results := assocErase id s.results }
    match s.results.find? fun p => p.1 = id with
    | none => .wait .other limit
    | some (_, .refused c) => .trapAfter (fun _ => clear s) c ea
    | some (_, .value v e rs) => .done ((((clear s).setSreg d v).acquireAll s.here .c e rs).noteOwn ea)
  | none =>
    withTargets s [ea] (.contribution op) s.ownExt (fun _ _ => none) fun s ts =>
      match ts with
      | (_, t) :: _ =>
        let v := s.sreg d
        let key : W32 := (s.sreg (d ||| 1)).setWidth 32
        match s.settle t with
        | .ok (.away p pa) =>
          let q := s.mySeq
          let rs := releaseOf q.agent s.here q.know .dm :: q.relFences
          remoteCall s { peer := p, pa := pa, op := .ordered (BitVec.ofNat 4 op) v key, ea := ea } limit (fun s r =>
            match r with
            | .refused c => .trapAfter (fun _ => s) c (s.causeEval c ea)
            | .result v after => .done (((s.setSreg d v).learnAway p after).noteOwn ea)
            | .data bs => .done ((s.setSreg d (BitVec.ofNat 64 (leNat bs))).noteOwn ea)) (State.awayRelease · p pa rs)
        | .ok t => contributeOrdered s t ea op v key limit
        | .error e => seqGFault s e
      | [] => .done s

def execOatom (d a : RegNo) (o l : BitVec 4) (s : State) : Result := runC s (ordered s d a o.toNat l.toNat)

end Sys2Proof.Machine
end

