-- ==== Sys2Proof/Machine/Moves.lean ====
section
/-! DEFINITION. Tile moves: descriptors, acceptance, the run row by row, residency, completion, and their reverse (R196 to
R208, R214, R215, R218, R239, R251, R266 to R273). -/

namespace Sys2Proof.Machine
open Sys2Proof

/-! ## Descriptors (R197, R198) -/

structure TileDesc where
  src : W64
  dst : W64
  sstr : Int
  dstr : Int
  rows : Nat
  rlen : Nat
  aux : W64
  ctl : Nat
  deriving DecidableEq, Repr

/-- The number in `n` bytes from `o`. -/
def numAt (bs : List Byte) (o n : Nat) : Nat := leNat ((bs.drop o).take n)

def tileDesc (bs : List Byte) : TileDesc :=
  { src := BitVec.ofNat 64 (numAt bs 0 8), dst := BitVec.ofNat 64 (numAt bs 8 8),
    sstr := sintOf 64 (numAt bs 0x10 8), dstr := sintOf 64 (numAt bs 0x18 8),
    rows := numAt bs 0x20 4, rlen := numAt bs 0x24 4, aux := BitVec.ofNat 64 (numAt bs 0x28 8), ctl := numAt bs 0x30 4 }

/-- What one side of a move is: level, byte 0, stride, rows, bytes of a row, and whether rows are named by index. -/
structure Operand where
  lv : Nat
  base : Int
  str : Int
  rows : Nat
  len : Nat
  indexed : Bool
  deriving DecidableEq, Repr

/-- Element size of a transpose, 1 when there is none. -/
def elemSize (elem : Nat) : Nat := if elem = 0 then 1 else elem

def TileDesc.source (d : TileDesc) (kind : MoveKind) : Operand :=
  { lv := eaLevel d.src, base := eaLow d.src, str := d.sstr, rows := d.rows, len := d.rlen,
    indexed := decide (kind = .gath) }

/-- The destination; of a transpose, over its own rows (R203). -/
def TileDesc.dest (d : TileDesc) (kind : MoveKind) (elem : Nat) : Operand :=
  { lv := eaLevel d.dst, base := eaLow d.dst, str := d.dstr,
    rows := if elem = 0 then d.rows else d.rlen / elem, len := if elem = 0 then d.rlen else d.rows * elem,
    indexed := decide (kind = .scat) }

/-- First byte, and the byte after the last, over all rows. -/
def Operand.extent (o : Operand) : Int × Int :=
  let far : Int := ((o.rows : Int) - 1) * o.str
  (o.base + min 0 far, o.base + max 0 far + o.len)

/-- The extent of R198: of an indexed operand, all of its memory (of a Pocket or a window to one, the Pocket; of a Bolt, the part
that has addresses), or the range of row 0. -/
def State.fullExtent (s : State) (o : Operand) : Int × Int :=
  if !o.indexed then o.extent
  else
    match o.lv with
    | 0 => (o.base / 2 ^ 20 * 2 ^ 20, o.base / 2 ^ 20 * 2 ^ 20 + Config.pocketBytes)
    | 1 => (0, Config.sleeveBytes)
    | 2 => (0, Config.boltBytes)
    | _ =>
      match s.rangeOf o.base.toNat with
      | .ok (_, d) => (d.key, d.stop)
      | .error _ => o.extent

/-- Two extents at one level meet. -/
def meet (a b : Int × Int) : Bool := decide (a.1 < b.2) && decide (b.1 < a.2)

/-- Source rows are named by index, or destination rows are. -/
def MoveKind.usesIndex : MoveKind → Bool
  | .gath | .scat => true
  | _ => false

/-- The levels suit the issuing major (R199). -/
def levelsSuit (st : Stream) (kind : MoveKind) (d : TileDesc) : Bool :=
  (match st with
   | .l => decide (eaLevel d.dst = 0)
   | .s => decide (kind = .fill) || decide (eaLevel d.src = 0)
   | _ => true) && !(decide (kind = .movf) && decide (eaLevel d.dst = 3))

/-- A descriptor error of R198. -/
def State.tileError (s : State) (st : Stream) (kind : MoveKind) (elem : Nat) (bs : List Byte) : Bool :=
  let d := tileDesc bs
  let fill := decide (kind = .fill)
  let src := d.source kind
  let dst := d.dest kind elem
  let list : Int × Int := (eaLow d.aux, eaLow d.aux + 4 * (d.rows : Int))
  let sx := s.fullExtent src
  let dx := s.fullExtent dst
  decide (d.rows = 0) || decide (65536 < d.rows) || decide (d.rlen < 8) || decide (1048576 < d.rlen) ||
  decide (8 ≤ d.ctl) || decide (numAt bs 0x34 8 ≠ 0) || decide (numAt bs 0x3C 4 ≠ 0) ||
  (fill && (decide (d.src ≠ 0) || decide (d.sstr ≠ 0))) || (!fill && !kind.usesIndex && decide (d.aux ≠ 0)) ||
  (!fill && eaError d.src) || eaError d.dst ||
  decide (d.src.toNat % 8 ≠ 0) || decide (d.dst.toNat % 8 ≠ 0) || decide (d.sstr % 8 ≠ 0) || decide (d.dstr % 8 ≠ 0) ||
  decide (d.rlen % 8 ≠ 0) ||
  (decide (elem = 1) && decide (d.rows % 8 ≠ 0)) || (decide (elem = 2) && decide (d.rows % 4 ≠ 0)) ||
  decide (1048576 < d.rows * elem) ||
  (kind.usesIndex && (eaError d.aux || decide (eaLevel d.aux ≠ 0) || decide (Config.pocketBytes ≤ eaLow d.aux) ||
    decide (d.aux.toNat % 4 ≠ 0))) ||
  !levelsSuit st kind d ||
  (!fill && decide (src.lv = dst.lv) && meet sx dx) ||
  (kind.usesIndex && decide (dst.lv = 0) && meet list dx)

/-! ## Range checks (R201, R214) -/

/-- The lowest byte of `o .. o + n - 1` outside its level, grant or window; cells are valid as a whole. -/
def State.firstOut (s : State) (n : ShNo) (lv : Nat) (o : Int) (len : Nat) : Option Int :=
  ((List.range ((len + 7) / 8)).find? fun k => (s.scratchAt n lv (o + 8 * (k : Int))).isNone).map fun k => o + 8 * (k : Int)

/-- The least of some addresses. -/
def leastInt : List Int → Option Int
  | [] => none
  | x :: xs =>
    match leastInt xs with
    | none => some x
    | some y => some (min x y)

/-- The first byte of a global span that the domain window leads nowhere: cause 0x3C, or 0x38 without a route (R398, R402). -/
def State.windowFault (s : State) (va n : Nat) : Option (BitVec 8 × W64) :=
  match s.rangeOf va with
  | .error _ => none
  | .ok (j, d) =>
    let pa := s.physical j d va
    (List.range (n / 2 ^ 30 + 2)).findSome? fun i =>
      let w := if i = 0 then va else va + (2 ^ 30 * i - pa % 2 ^ 30)
      if va + n ≤ w then none
      else
        match s.reach (s.physical j d w) w with
        | .error (.fault c v) => some (c, v)
        | _ => none

/-- The failing check of an operand that is not indexed, with its eval. -/
def State.operandFault (s : State) (n : ShNo) (o : Operand) (need : Perm) : Option (BitVec 8 × W64) :=
  if o.lv = 3 then
    let x := o.extent
    if x.1 < 0 then some (0x1B, eaOf 3 x.1)
    else
      match s.extentFault x.1.toNat (x.2 - x.1).toNat need with
      | some (.fault c v) => some (c, v)
      | _ => (List.range o.rows).findSome? fun i => s.windowFault (o.base + i * o.str).toNat o.len
  else
    (leastInt ((List.range o.rows).filterMap fun i => s.firstOut n o.lv (o.base + i * o.str) o.len)).map
      fun b => (0x18, eaOf o.lv b)

/-- The failing check of the index list. -/
def State.listFault (s : State) (n : ShNo) (aux : W64) (rows : Nat) : Option (BitVec 8 × W64) :=
  ((List.range rows).find? fun i =>
    (s.pocketAt n ((eaLow aux : Int) + 4 * (i : Int))).isNone ||
      decide (Config.pocketBytes ≤ eaLow aux + 4 * i)).map fun i => (0x18, eaOf 0 ((eaLow aux : Int) + 4 * (i : Int)))

/-! ## Differentiable operands (R255, R258, R267) -/

/-- The Pockets that shuttle `n` reaches, each with the byte at which its addresses begin: its own, and those of open windows. -/
def State.pocketsOf (s : State) (n : ShNo) : List (ShNo × Nat) :=
  (n, 0) :: (List.range 8).filterMap fun t => (s.pocketAddr n ((t + 1) * 2 ^ 20 : Nat)).map fun p => (p.1, (t + 1) * 2 ^ 20)

/-- The width of the first differentiable region that an operand's extent meets, by Pocket and then by number of its register
(assumption log 130). -/
def State.diffWidthOf (s : State) (n : ShNo) (o : Operand) : Option Nat :=
  let x := s.fullExtent o
  if o.lv = 0 then
    (s.pocketsOf n).findSome? fun k => (s.shuttle k.1).dpr.toList.findSome? fun d =>
      match regionOf d with
      | some r => if meet x (k.2 + 8 * r.base, k.2 + 8 * (r.base + r.len)) then some r.w else none
      | none => none
  else if o.lv = 3 then
    match s.rangeOf x.1.toNat with
    | .ok (_, d) => if d.diff then some (diffWidth d.dfmt) else none
    | .error _ => none
  else none

/-- Where a shadow cell stands. -/
inductive ShadowAt where
  | place (p : Nat)
  | virt (va : Nat)
  deriving DecidableEq, Repr

/-- The differentiable element at byte `o` of a level: format, anchor and shadow cell. -/
def State.elemAt (s : State) (n : ShNo) (lv : Nat) (o : Int) : Option (Fmt × Int × ShadowAt) :=
  if lv = 0 then
    (s.pocketAddr n o).bind fun p => (s.regionAt p.1 p.2).map fun r => (r.fmt, r.anc, .place (r.shadow p.1 p.2))
  else if lv = 3 then
    match s.rangeOf o.toNat with
    | .ok (_, d) =>
      if d.diff then
        some (fmtOfCode d.dfmt, d.anc, .virt ((s.desc d.shix).key + 16 * ((o.toNat - d.key) / diffWidth d.dfmt)))
      else none
    | .error _ => none
  else none

/-! ## Acceptance (R201) -/

def MoveKind.code : MoveKind → Nat
  | .mov => 1 | .gath => 2 | .scat => 3 | .fill => 4 | .movf => 5

/-- Destination bytes (R207). -/
def TileDesc.bytes (d : TileDesc) : Nat := d.rows * d.rlen

/-- Places of the cells of a row. -/
def State.rowCells (s : State) (n : ShNo) (lv : Nat) (o : Int) (len : Nat) : List Nat :=
  let lo := o / 8 * 8
  (List.range ((o + len - lo + 7) / 8).toNat).filterMap fun k => s.scratchAt n lv (lo + 8 * (k : Int))

/-- First bytes of an operand's rows; those of an indexed one by its indices as they stand at acceptance (assumption log 98). -/
def State.rowStarts (s : State) (n : ShNo) (aux : W64) (o : Operand) : List Int :=
  (List.range o.rows).map fun (i : Nat) =>
    let ix : Nat :=
      if o.indexed then leNat (memBytes s.mem ((s.pocketAt n ((eaLow aux : Int) + 4 * (i : Int))).getD 0) 4) else i
    o.base + (ix : Int) * o.str

/-- A command that reads cells at some places and some global spans: the counted line among them whose declared scope its acquire
covers and differs from (R251). A line homed in another package has scope `.dm` (R403). -/
def State.readMismatch (s : State) (j : Job) (cells : List Nat) (spans : List (Nat × Nat)) : Option W64 :=
  let wider (e : Ext) : Bool := j.aq && extCovers j.ext e && !extCovers e j.ext
  ((s.lines.filter fun l => wider l.ext).findSome? fun l =>
    match l.va with
    | some va => if spans.any fun p => decide (p.1 < va + 64 ∧ va < p.1 + p.2) then some (globalEa va) else none
    | none => if cells.any fun c => decide (c / 64 * 64 = l.line) then some (placeEa j.sh l.line) else none) <|>
  (if wider .dm then
    (spans.flatMap fun p => pieces p.1 p.2).findSome? fun q =>
      match s.locate q.1 .any with
      | .ok (.away k pa, _, _) =>
        if s.awayLines.any fun l => decide (l.peer = k ∧ l.line = pa / 64 * 64) && !l.filled then some (globalEa (q.1 / 64 * 64)) else none
      | _ => none
  else none)

/-- Rows of an operand that a command reads: places of its cells, or its global spans. -/
def State.rowReads (s : State) (n : ShNo) (aux : W64) (o : Operand) : List Nat × List (Nat × Nat) :=
  let starts := s.rowStarts n aux o
  if o.lv = 3 then ([], starts.map fun a => (a.toNat, o.len))
  else (starts.flatMap fun a => s.rowCells n o.lv a o.len, [])

/-- The scope mismatch of a move: over its source rows and its index list. -/
def State.moveMismatch (s : State) (j : Job) (d : TileDesc) (kind : MoveKind) : Option W64 :=
  if !j.aq then none
  else
    let reads := if kind = .fill then ([], []) else s.rowReads j.sh d.aux (d.source kind)
    let list := if kind.usesIndex then s.rowCells j.sh 0 (eaLow d.aux) (4 * d.rows) else []
    s.readMismatch j (reads.1 ++ list) reads.2

/-- A race of the job found at acceptance on a scratch operand that is not indexed (R237). -/
def State.operandRace (s : State) (j : Job) (o : Operand) (write : Bool) (kind : AccKind) : Option W64 :=
  if o.indexed ∨ o.lv = 3 then none
  else
    (List.range o.rows).findSome? fun i =>
      (findRace j.know (j.access write kind) s.tags (s.rowCells j.sh o.lv (o.base + i * o.str) o.len)).map (placeEa j.sh)

/-- The interval of an access of a job: it is entered for the issuing sequencer and its ordering epoch (R239). -/
def Job.interval (j : Job) (lo hi : Nat) (write : Bool) (kind : AccKind) : Interval :=
  { lo := lo, hi := hi, acc := j.access write kind, issuer := j.issuer, epoch := j.era, job := some j.id }

/-- The intervals of the global operands that are not indexed (R239). -/
def moveIntervals (j : Job) (ops : List (Operand × Bool × AccKind)) : List Interval :=
  ops.filterMap fun p =>
    if p.1.lv = 3 ∧ !p.1.indexed then
      some (j.interval p.1.extent.1.toNat p.1.extent.2.toNat p.2.1 p.2.2)
    else none

/-- Space on the tape for a record of the issuing sequencer that is written as the move runs (R271). -/
def reserveRecord (s : State) (len : Nat) (f : State → Nat → Eff) : Eff :=
  let q := s.mySeq
  let va := q.tapeBase + 64 * q.tapePtr
  if q.tapeLim < q.tapePtr + len then .trap 0x27 (tapeEval s.stream len)
  else
    match s.extentFault va (64 * len) .write with
    | some e => seqGFault s e
    | none =>
      withResidency s [(va, 64 * len)] (
        match s.writeFault va (64 * len) with
        | some e => seqGFault s e
        | none =>
          let go (s : State) : Eff :=
            withInterval s true .plain s.ownExt va (64 * len) fun s =>
              f (s.modMySeq fun q => q.setTapePtr (q.tapePtr + len)) va
          if s.unstageable va (64 * len) then whenOldest s go else go s)

/-- The head of a move record with its descriptor (R270). -/
def moveRecordHead (kind : MoveKind) (elem len : Nat) (desc : List Byte) : List Byte :=
  tapeHeader 3 len (BitVec.ofNat 64 (kind.code + 256 * elem)) 0 0 ++ desc

/-- Global rows of an operand that are read or written in another package, or written into a user queue (R168). -/
def State.operandFar (s : State) (n : ShNo) (aux : W64) (o : Operand) (write : Bool) : Bool :=
  decide (o.lv = 3) && (s.rowStarts n aux o).any fun a =>
    if write then s.unstageable a.toNat o.len else !(s.awayReads a.toNat o.len).isEmpty

/-- The move acts in a way that cannot be staged: such a row forward; in reverse a primal restored there, or a contribution to
global memory (R168, R268). -/
def State.moveFar (s : State) (j : Job) (d : TileDesc) (kind : MoveKind) (elem : Nat) : Bool :=
  let src := d.source kind
  let dst := d.dest kind elem
  let into := s.operandFar j.sh d.aux dst true
  if j.rev then
    (s.diffWidthOf j.sh dst).isSome &&
      (into || decide (kind ≠ .fill ∧ src.lv = 3) && (s.diffWidthOf j.sh src).isSome)
  else into || decide (kind ≠ .fill) && s.operandFar j.sh d.aux src false

/-- Lines that a forward move stages (R195). -/
def State.stagedLines (s : State) (j : Job) (d : TileDesc) (kind : MoveKind) (elem : Nat) : List Nat :=
  let dst := d.dest kind elem
  if j.rev ∨ dst.lv ≠ 3 then [] else (s.rowStarts j.sh d.aux dst).flatMap fun a => linesOf a.toNat dst.len

/-- Lines of the record of a move of `rows` destination bytes on the tape at `va`. -/
def recordLines (va bytes : Nat) : List Nat := linesOf va (64 * (2 + (bytes + 63) / 64))

/-- Lines that the accepted moves of a copy of a DUAL task are still to stage, with the records they are to write (R195, R349). -/
def State.pendingLines (s : State) (n : ShNo) : List Nat :=
  (s.moves.filter fun m => decide (m.job.sh = n ∧ m.job.task = (s.shuttle n).task) && !m.job.ran).flatMap fun m =>
    s.stagedLines m.job (tileDesc m.desc) m.kind m.elem ++
      (match m.tape with
       | some va => recordLines va (tileDesc m.desc).bytes
       | none => [])

/-- What the move brings its panel's staging to: its own lines; in a copy of a DUAL task also those of its record and of the moves
accepted before, so that the share is not passed by a move that runs (R168, R349). -/
def State.shareLines (s : State) (t : Task) (j : Job) (d : TileDesc) (kind : MoveKind) (elem : Nat) : List Nat :=
  s.stagedLines j d kind elem ++
    (if !t.dual then []
     else s.pendingLines s.here ++
       (if j.rev || (s.diffWidthOf s.here (d.dest kind elem)).isNone then []
        else recordLines (s.mySeq.tapeBase + 64 * s.mySeq.tapePtr) d.bytes))

/-- The descriptor at Pocket address `da` is read (R201). An error in it is reported at the cell that holds it (assumption log
99). -/
def moveDescriptor (s : State) (da : Nat) (f : State → List Byte → Eff) : Eff :=
  if da % 64 ≠ 0 then .trap 0x04 (BitVec.ofNat 64 da)
  else if Config.pocketBytes ≤ da then .trap 0x05 (BitVec.ofNat 64 da)
  else
    let cells := (List.range 8).map fun k => (da : Int) + 8 * (k : Int)
    match cells.find? fun c => s.badCell (s.placeOf c) with
    | some c => .trap 0x08 (evalOf c)
    | none => withCells s false .plain s.ownExt cells fun s => f s (memBytes s.mem (pocketPlace s.here da) 64)

/-- The first failing check of a move's operands (R201, R214). -/
def State.moveFault (s : State) (d : TileDesc) (kind : MoveKind) (elem : Nat) : Option (BitVec 8 × W64) :=
  let src := d.source kind
  let dst := d.dest kind elem
  (if kind = .fill ∨ src.indexed then none else s.operandFault s.here src .read) <|>
  (if dst.indexed then none else s.operandFault s.here dst .write) <|>
  (if kind.usesIndex then s.listFault s.here d.aux d.rows else none)

/-- The widths of differentiable operands do not fit together or the transpose (R267). -/
def State.widthsClash (s : State) (d : TileDesc) (kind : MoveKind) (elem : Nat) : Bool :=
  let ws := if kind = .fill then none else s.diffWidthOf s.here (d.source kind)
  let wd := s.diffWidthOf s.here (d.dest kind elem)
  let wrong (w : Option Nat) : Bool :=
    match w with
    | some w => decide (elem ≠ 0 ∧ elem ≠ w)
    | none => false
  (ws.isSome && wd.isSome && decide (ws ≠ wd)) || wrong ws || wrong wd

/-- The races found and the intervals entered at a move's acceptance (R237, R239). -/
def State.moveOperands (s : State) (j : Job) (d : TileDesc) (kind : MoveKind) (elem : Nat) (ea : W64)
    (f : List Interval → Eff) : Eff :=
  let ops : List (Operand × Bool × AccKind) :=
    -- a reverse move of no differentiable destination does nothing (R267)
    if j.rev && (s.diffWidthOf s.here (d.dest kind elem)).isNone then []
    else (if kind = .fill then [] else [(d.source kind, false, .plain)]) ++
      [(d.dest kind elem, true, if kind = .movf then .fill else .plain)]
  let new := moveIntervals j ops
  let table := ((s.taskAt s.here).map Task.table).getD []
  match (if j.wt.isSome ∨ j.rev then none else ops.findSome? fun p => s.operandRace j p.1 p.2.1 p.2.2),
      (if j.wt.isSome then none else new.findSome? fun v => tableRace j.know v.acc v.lo v.hi table) with
  | some v, _ => .trap 0x20 v
  | none, some b => .trap 0x20 (globalEa b)
  | none, none =>
    match s.taskAt s.here with
    | some t => if tableSize < s.unretired t (panelOf s.here) new then .trap 0x21 ea else f new
    | none => f new

/-- The counter is raised and the move is queued, its delivery tagged (R91, R178, R201). -/
def acceptMove (s : State) (j : Job) (kind : MoveKind) (elem : Nat) (ea : W64) (bs : List Byte) (new : List Interval)
    (tape : Option Nat) (old : List Byte) (f : State → Nat → Eff) : Eff :=
  let d := tileDesc bs
  let m : Move :=
    { job := j, kind := kind, elem := elem, da := ea, desc := bs, tag := s.me.arrivalsBefore (BitVec.ofNat 2 d.ctl) j.know,
      row := 0, awaits := [], tape := tape, old := old, fills := [], ending := none }
  let s1 := { s.raiseCount j with moves := s.moves ++ [m] }
  let s2 := match s.me.task with
    | some p => s1.modTask p.1 fun t => { t with table := new.foldl (fun l v => enterInterval v l) t.table }
    | none => s1
  if 4 ≤ d.ctl then
    withTag s2 (barLoc s.here (d.ctl % 4)) (s.barEval s.here (BitVec.ofNat 2 d.ctl)) true contributes s.ownExt
      fun s => f s j.id
  else f s2 j.id

/-- A tile move at its issue. `da` is the descriptor's address. -/
def issueMove (s : State) (kind : MoveKind) (elem : Nat) (da : Nat) (cc : BitVec 3) (wt sg : Option Nat) (aq rl : Bool)
    (sc : Nat) (extraWarn : Bool) (f : State → Nat → Eff) : Eff :=
  let ea : W64 := BitVec.ofNat 64 da
  issueJob s cc wt sg aq rl sc fun s j =>
    moveDescriptor (s.warnIf extraWarn) da fun s bs =>
      let j := j.seen s
      let d := tileDesc bs
      let dst := d.dest kind elem
      if s.tileError s.stream kind elem bs then .trap 0x17 ea
      else if 4 ≤ d.ctl ∧ ((s.taskAt s.here).map Task.gang).getD false = false then .trapWord 0x15
      else
        match s.moveFault d kind elem, s.moveMismatch j d kind with
        | some (c, v), _ => .trap c v
        | none, some v => .trap 0x22 v
        | none, none =>
          if s.widthsClash d kind elem then .trap 0x2A ea
          else
            let go (s : State) : Eff :=
              withShare s s (fun t rank => t.overShare rank (panelOf s.here) (s.shareLines t j d kind elem)) fun s =>
                s.moveOperands j d kind elem ea fun new =>
                  let len := 2 + (d.bytes + 63) / 64
                  if (s.diffWidthOf s.here dst).isNone then acceptMove s j kind elem ea bs new none [] f
                  else if j.rev then
                    popRecord s len 128 (moveKeyOf (moveRecordHead kind elem len bs)) moveKeyOf fun s rec =>
                      acceptMove s j kind elem ea bs new none ((rec.drop 128).take d.bytes) f
                  else if s.taskMode then
                    reserveRecord s len fun s va => acceptMove s j kind elem ea bs new (some va) [] f
                  else acceptMove s j kind elem ea bs new none [] f
            if s.moveFar j d kind elem then whenOldest s go else go s

/-! ## The run (R202, R203, R218, R267) -/

/-- What stops a row: a fault, or a state in which the row waits, with the chunks it waits for. -/
inductive Halt where
  | fault (cause : BitVec 8) (eval : W64)
  | park (s : State) (awaits : List (Nat × Nat))

/-- What of a row's accesses comes to first: a wait for chunks or for the block that the Press moves, or nothing; denials are
among the faults. -/
def Move.waitChunks (m : Move) (s : State) (spans : List (Nat × Nat)) : Option Halt :=
  match s.residency m.job.id spans with
  | .waits l => some (.park (s.requestAll m.job.id l) l)
  | .denied _ => none
  | .ready => if s.isPressed spans then some (.park s []) else none

/-- The fault of a denied chunk (R218). -/
def Move.deniedFault (m : Move) (s : State) (spans : List (Nat × Nat)) : List (BitVec 8 × W64) :=
  match s.residency m.job.id spans with
  | .denied va => [(0x1D, globalEa va)]
  | _ => []

/-- The first cell of local HBM with an uncorrectable error among `n` bytes (R17, R370). -/
def State.badFrom (s : State) (pa n : Nat) : Option Nat :=
  ((List.range ((n + pa % 8 + 7) / 8)).map fun k => pa / 8 * 8 + 8 * k).find? s.badCell

/-- Faults of the global bytes of a row, at most one a line: its lookup, the range that holds row 0 of an indexed operand, the
permission, the path, and of a read the data (R204, R215). -/
def Move.lineFaults (s : State) (o : Operand) (a : Int) (len : Nat) (need : Perm) : List (BitVec 8 × W64) :=
  let row0 : Option Nat := match s.rangeOf o.base.toNat with
    | .ok (j, _) => some j
    | .error _ => none
  if a < 0 then [(0x1B, eaOf 3 a)]
  else
    (pieces a.toNat len).filterMap fun p =>
      match s.rangeOf p.1 with
      | .error c => some (c, globalEa p.1)
      | .ok (j, d) =>
        if o.indexed && decide (row0 ≠ some j) then some (0x1B, globalEa p.1)
        else if !d.grants need then some (0x1C, globalEa p.1)
        else
          match s.reach (s.physical j d p.1) p.1 with
          | .error (.fault c v) => some (c, v)
          | .error _ => none
          | .ok pa =>
            if need = .write then none
            else (s.badFrom pa p.2).map fun b => (0x1A, globalEa (p.1 + (b - pa)))

/-- A cell with an error that a span of a scratch level reads. -/
def Move.cellFaults (m : Move) (s : State) (lv : Nat) (o : Int) (len : Nat) : List (BitVec 8 × W64) :=
  match (s.rowCells m.job.sh lv o len).find? s.badCell with
  | some p => [(0x1A, placeEa m.job.sh p)]
  | none => []

/-- A race of a span of a scratch level. -/
def Move.raceFaults (m : Move) (s : State) (lv : Nat) (o : Int) (len : Nat) (write : Bool) (kind : AccKind) :
    List (BitVec 8 × W64) :=
  match findRace m.job.know (m.job.access write kind) s.tags ((s.rowCells m.job.sh lv o len).map cellOf) with
  | some p => [(0x20, placeEa m.job.sh p)]
  | none => []

/-- An indexed row that leaves its level, grant or window (R202). -/
def Move.outFaults (m : Move) (s : State) (o : Operand) (a : Int) : List (BitVec 8 × W64) :=
  if !o.indexed ∨ o.lv = 3 then []
  else
    match s.firstOut m.job.sh o.lv a o.len with
    | some b => [(0x18, eaOf o.lv b)]
    | none => []

/-- An indexed global row against the write-interval table: its race, or the table is full (R239). -/
def Move.rowTable (m : Move) (s : State) (o : Operand) (a : Int) (write : Bool) : List (BitVec 8 × W64) :=
  if !o.indexed ∨ o.lv ≠ 3 then []
  else
    match m.job.task.bind fun p => s.taskOf p.1 with
    | none => []
    | some t =>
      let v := m.job.interval a.toNat (a + o.len).toNat write .plain
      (match tableRace m.job.know v.acc v.lo v.hi t.table with
       | some b => [(0x20, globalEa b)]
       | none => []) ++
      (if tableSize < s.unretired t (panelOf m.job.sh) [v] then [(0x21, m.da)] else [])

/-- Faults of reading a row of an operand. -/
def Move.readFaults (m : Move) (s : State) (o : Operand) (a : Int) (len : Nat) : List (BitVec 8 × W64) :=
  if o.lv = 3 then Move.lineFaults s o a len .read ++ m.rowTable s o a false
  else m.outFaults s o a ++ m.cellFaults s o.lv a len ++ m.raceFaults s o.lv a len false .plain

/-- Faults of writing a row of an operand; a cell that the move is to fill counts as full. -/
def Move.writeFaults (m : Move) (s : State) (o : Operand) (a : Int) (len : Nat) (kind : AccKind) : List (BitVec 8 × W64) :=
  if o.lv = 3 then Move.lineFaults s o a len .write ++ m.rowTable s o a true
  else
    let isFull (p : Nat) : Bool := s.fe p || m.fills.contains (cellOf p)
    m.outFaults s o a ++
    (match (if m.kind = .movf ∧ !m.job.rev then (s.rowCells m.job.sh o.lv a len).find? isFull else none) with
     | some p => [(0x19, placeEa m.job.sh p)]
     | none => []) ++
    m.raceFaults s o.lv a len true kind

/-- The bytes of a span: of a scratch level, or of global memory as the task sees them. -/
def Move.readSpan (m : Move) (s : State) (lv : Nat) (o : Int) (n : Nat) (need : Perm) : Except Halt (List Byte × State) :=
  if lv = 3 then
    match s.readGlobal m.job.task m.job.id o.toNat n need with
    | .ok r => .ok r
    | .error (.fault c v) => .error (.fault c v)
    | .error _ => .error (.park s [])
  else .ok (memBytes s.mem ((s.scratchAt m.job.sh lv o).getD 0) n, s)

/-- The job is to act beyond its package or in a way that cannot be staged: only the oldest task does, and a copy of a DUAL task
never (R168, R349). -/
def Job.mayAct (j : Job) (s : State) : Option Halt :=
  match j.task.bind fun p => s.taskOf p.1 with
  | none => none
  | some t =>
    if t.dual then some (.fault 0x2E ((j.words.headD 0).setWidth 64))
    else if s.isOldest t.tid then none
    else some (.park s [])

/-- The row's requests of other packages: they are sent once, by the oldest task, and it waits for every reply; a refusal is its
fault (R399, R402). -/
def Job.calls (j : Job) (s : State) (cs : List RemoteCall) : Option Halt :=
  if cs.isEmpty then none
  else
    match j.mayAct s with
    | some h => some h
    | none =>
      let new := cs.filter fun c => !s.sent.any (c.is j.id)
      if !new.isEmpty then some (.park (new.foldl (fun s c => s.sendRemote j.id c.peer c.pa c.op c.ea) (s.bind j.task)) [])
      else
        let mine := s.sent.filter fun o => cs.any fun c => c.is j.id o
        if mine.any fun o => o.reply.isNone then some (.park s [])
        else
          (leastFault (mine.filterMap fun o =>
            (o.reply.bind replyCause).map fun c => (c, s.causeEval c o.ea))).map fun f => .fault f.1 f.2

/-- The messages of the row are done with. -/
def State.endRow (s : State) (id : Nat) : State := { s with sent := s.sent.filter fun o => decide (o.owner ≠ id) }

/-- The shuttle's task has staged more than its share with the row: it waits until it is the oldest, and is committing from
then on (R168). A copy of a DUAL task never is (R349). -/
def Move.share (m : Move) (before after : State) : Except Halt State :=
  match m.job.task with
  | none => .ok after
  | some p =>
    match after.taskOf p.1 with
    | none => .ok after
    | some t =>
      if t.committing || t.stat = .stopping || !t.overShare p.2 (panelOf m.job.sh) then .ok after
      else
        match m.job.mayAct before with
        | some h => .error h
        | none =>
          match after.becomeCommitting t with
          | .ok s => .ok s
          | .error g => .error (.park (g before) [])

/-- The release of a fill by a move without rl: its own writes, at `.lm` (R240). -/
def Move.fillRelease (m : Move) : Carry := m.job.release (.set (loomShuttles m.job.sh))

/-- Cells become full, with the move's release. -/
def Move.fill (m : Move) (s : State) (cells : List Nat) : State :=
  cells.foldl (fun s c => ((s.setFe c true).setRels c [m.fillRelease]).setFlagExt c none) s

/-- Bytes of a row written, with their tags or their interval. TMOVF fills the cells; with rl the fills are completion signals
and wait for it (R240). -/
def Move.writeSpan (m : Move) (s : State) (lv : Nat) (o : Int) (bs : List Byte) (indexed : Bool) (now : Bool := false) :
    State × Move :=
  let j := m.job
  if lv = 3 then
    let va := o.toNat
    let s1 := s.writeHome j.task j.id (panelOf j.sh) va bs now
    (match j.task with
     | some p =>
       if indexed then
         s1.modTask p.1 fun t => { t with table := enterInterval (j.interval va (va + bs.length) true .plain) t.table }
       else s1
     | none => s1, m)
  else
    let cells := (s.rowCells j.sh lv o bs.length).map cellOf
    let fills := decide (m.kind = .movf)
    let s1 := s.putBytes ((s.scratchAt j.sh lv o).getD 0) bs
    let s2 := { s1 with bad := s1.bad.filter fun c => !cells.contains c }.note (j.access true (if fills then .fill else .plain)) cells
    if !fills then (s2, m)
    else if j.rl then (s2, { m with fills := m.fills ++ cells })
    else (m.fill s2 cells, m)

/-- Where a row stands: its source spans and its destination, its place in the index list, and the faults of that place. -/
structure RowPlan where
  srcs : List Int
  slen : Nat
  dst : Int
  dlen : Nat
  list : Option Int
  faults : List (BitVec 8 × W64)

def Move.source (m : Move) : Operand := (tileDesc m.desc).source m.kind
def Move.dest (m : Move) : Operand := (tileDesc m.desc).dest m.kind m.elem

/-- The Pocket as an operand of which a move reads its index list. -/
def listOperand : Operand := { lv := 0, base := 0, str := 0, rows := 1, len := 4, indexed := false }

def Move.plan (m : Move) (s : State) (i : Nat) : RowPlan :=
  let d := tileDesc m.desc
  let src := m.source
  let dst := m.dest
  let ia : Int := (eaLow d.aux : Int) + 4 * (i : Int)
  let ix : Nat := if m.kind.usesIndex then leNat (memBytes s.mem ((s.pocketAt m.job.sh ia).getD 0) 4) else i
  let sa := src.base + ((if m.kind = .gath then ix else i : Nat) : Int) * src.str
  let da := dst.base + ((if m.kind = .scat then ix else i : Nat) : Int) * dst.str
  let srcs : List Int :=
    if m.kind = .fill then []
    else if m.elem = 0 then [sa]
    else (List.range d.rows).map fun r => src.base + (r : Int) * src.str + (i : Int) * (m.elem : Int)
  { srcs := srcs, slen := if m.elem = 0 then d.rlen else m.elem, dst := da, dlen := dst.len,
    list := if m.kind.usesIndex then some ia else none,
    faults := if m.kind.usesIndex then m.readFaults s listOperand ia 4 else [] }

/-- The row's place in the index list has a fault, so that a row of an indexed operand is not known. -/
def RowPlan.stuck (p : RowPlan) (o : Operand) : Bool := o.indexed && !p.faults.isEmpty

/-- The plan without the source rows that are not known. -/
def RowPlan.known (p : RowPlan) (src : Operand) : RowPlan := if p.stuck src then { p with srcs := [] } else p

/-- Tags and table entries of what a row reads. -/
def Move.noteReads (m : Move) (s : State) (lv : Nat) (indexed : Bool) (spans : List (Int × Nat)) : State :=
  if lv = 3 then
    match m.job.task with
    | some p =>
      if indexed then
        s.modTask p.1 fun t =>
          { t with table := spans.foldl (fun l x =>
              enterInterval (m.job.interval x.1.toNat (x.1.toNat + x.2) false .plain) l) t.table }
      else s
    | none => s
  else
    spans.foldl (fun s x => s.note (m.job.access false .plain) ((s.rowCells m.job.sh lv x.1 x.2).map cellOf)) s

/-- The row's place in the index list is read (R201, R206). -/
def Move.noteList (m : Move) (s : State) (p : RowPlan) : State :=
  match p.list with
  | some ia => m.noteReads s 0 false [(ia, 4)]
  | none => s

/-- Row `i` of a forward move: it waits for its chunks, then its lowest fault ends the move, then it is read and written. -/
def Move.forwardRow (m : Move) (s : State) (i : Nat) : Except Halt (State × Move) := do
  let d := tileDesc m.desc
  let src := m.source
  let dst := m.dest
  let p := (m.plan s i).known src
  let spans := p.srcs.map fun a => (a, p.slen)
  let dsts := if p.stuck dst then [] else [(p.dst, p.dlen)]
  let global := (if src.lv = 3 then spans.map fun x => (x.1.toNat, x.2) else []) ++
    (if dst.lv = 3 then dsts.map fun x => (x.1.toNat, x.2) else [])
  if let some h := m.waitChunks s global then throw h
  let faults := p.faults ++ m.deniedFault s global ++ spans.flatMap (fun x => m.readFaults s src x.1 x.2) ++
    dsts.flatMap (fun x =>
      m.writeFaults s dst x.1 x.2 (if m.kind = .movf then .fill else .plain) ++
        (if m.tape.isNone then []
         else if dst.lv = 3 then Move.lineFaults s dst x.1 x.2 .any
         else m.cellFaults s dst.lv x.1 x.2))
  if let some f := leastFault faults then throw (.fault f.1 f.2)
  let gets := (if src.lv = 3 then spans.flatMap fun x => s.awayReads x.1.toNat x.2 else []) ++
    (if dst.lv = 3 ∧ m.tape.isSome then s.awayReads p.dst.toNat p.dlen else [])
  if let some h := m.job.calls s gets then throw h
  let r ← if m.kind = .fill then pure ((List.replicate (d.rlen / 8) (leBytes 8 d.aux.toNat)).flatten, s)
    else spans.foldlM (fun (acc : List Byte × State) x => do
      let t ← m.readSpan acc.2 src.lv x.1 x.2 .read
      pure (acc.1 ++ t.1, t.2)) ([], s)
  let old ← if m.tape.isSome then m.readSpan r.2 dst.lv p.dst p.dlen .write else pure ([], r.2)
  if dst.lv = 3 ∧ s.unstageable p.dst.toNat r.1.length then
    if let some h := m.job.mayAct s then throw h
  let puts := if dst.lv = 3 then s.awayWrites p.dst.toNat r.1 else []
  if let some h := m.job.calls s puts then throw h
  let s1 := m.noteReads (m.noteList old.2 p) src.lv src.indexed spans
  let w := m.writeSpan s1 dst.lv p.dst r.1 dst.indexed
  let s2 ← m.share s w.1
  pure (s2.endRow m.job.id, { w.2 with row := m.row + 1, old := m.old ++ old.1 })

/-! ### Reverse rows (R267, R268) -/

/-- An element of a reverse row: where its shadow and its primal stand, its anchor, the source's shadow with its anchor, its
recorded bytes, and its number in the move. -/
structure RevElem where
  shadow : ShadowAt
  anc : Int
  source : Option (ShadowAt × Int)
  primal : ShadowAt
  old : List Byte
  num : Nat

/-- An access of a reverse row. -/
structure RevAccess where
  at_ : ShadowAt
  n : Nat
  write : Bool
  kind : AccKind
  need : Perm

def RevElem.accesses (e : RevElem) : List RevAccess :=
  [{ at_ := e.shadow, n := 16, write := true, kind := .plain, need := .read },
    { at_ := e.primal, n := e.old.length, write := true, kind := .plain, need := .write }] ++
  (match e.source with
   | some u => [{ at_ := u.1, n := 16, write := true, kind := contributes, need := .atomic }]
   | none => [])

/-- Locations of a scratch access: the cells of a shadow cell, or the cell of an element. -/
def RevAccess.cells (a : RevAccess) (p : Nat) : List Nat := if a.n = 16 then shadowLocs p else [cellOf p]

/-- Its global span. -/
def RevAccess.span (a : RevAccess) : List (Nat × Nat) :=
  match a.at_ with
  | .place _ => []
  | .virt va => [(va, a.n)]

/-- Its faults: an error in a shadow cell, a race, or what its lines meet. -/
def Move.accessFaults (m : Move) (s : State) (a : RevAccess) : List (BitVec 8 × W64) :=
  let acc := m.job.access a.write a.kind
  match a.at_ with
  | .place p =>
    (match (if a.need = .write then none else (a.cells p).find? s.badCell) with
     | some l => [(0x1A, placeEa m.job.sh l)]
     | none => []) ++
    (match findRace m.job.know acc s.tags (a.cells p) with
     | some l => [(0x20, placeEa m.job.sh l)]
     | none => [])
  | .virt va =>
    Move.lineFaults s { lv := 3, base := va, str := 0, rows := 1, len := a.n, indexed := false } va a.n a.need ++
    (match m.job.task.bind fun p => s.taskOf p.1 with
     | none => []
     | some t =>
       match tableRace m.job.know acc va (va + a.n) (t.table.filter fun v => decide (v.job ≠ some m.job.id)) with
       | some b => [(0x20, globalEa b)]
       | none => [])

/-- Its tag or table entry. -/
def Move.noteAccess (m : Move) (s : State) (a : RevAccess) : State :=
  match a.at_ with
  | .place p => s.note (m.job.access a.write a.kind) (a.cells p)
  | .virt va =>
    match m.job.task with
    | some p => s.modTask p.1 fun t => { t with table := enterInterval (m.job.interval va (va + a.n) a.write a.kind) t.table }
    | none => s

/-- The elements of row `i`, which are the differentiable ones of its destination. -/
def Move.rowElems (m : Move) (s : State) (p : RowPlan) (i : Nat) : List RevElem :=
  let src := m.source
  let dst := m.dest
  (List.range p.dlen).filterMap fun (o : Nat) =>
    let t := p.dst + (o : Int)
    match s.elemAt m.job.sh dst.lv t with
    | none => none
    | some (f, anc, sh) =>
      if o % f.width ≠ 0 then none
      else
        let u : Option Int :=
          if m.kind = .fill then none
          else if m.elem = 0 then (p.srcs.head?).map fun a => a + (o : Int)
          else p.srcs[o / m.elem]?
        some { shadow := sh, anc := anc,
               source := (u.bind fun a => s.elemAt m.job.sh src.lv a).map fun e => (e.2.2, e.2.1),
               primal := if dst.lv = 3 then .virt t.toNat else .place ((s.scratchAt m.job.sh dst.lv t).getD 0),
               old := (m.old.drop (i * p.dlen + o)).take f.width, num := i * p.dlen + o }

/-- The value of a shadow cell of bytes, with its flags. -/
def shadowValue (anc : Int) (bs : List Byte) : FVal × W64 := accValue (anc - 40) 64 (accOfBytes bs)

/-- Bytes at a shadow or primal location. -/
def Move.bytesAt (m : Move) (s : State) (w : ShadowAt) (n : Nat) : Except Halt (List Byte × State) :=
  match w with
  | .place p => .ok (memBytes s.mem p n, s)
  | .virt va => m.readSpan s 3 va n .read

/-- Bytes written there: staged when they are global. -/
def Move.setBytes (m : Move) (s : State) (w : ShadowAt) (bs : List Byte) : State :=
  match w with
  | .place p => s.putBytes p bs
  | .virt va => s.writeHome m.job.task m.job.id (panelOf m.job.sh) va bs

/-- A contribution made in this package to a shadow cell, with its flags; one in global memory is performed at once. -/
def Move.contribute (m : Move) (s : State) (w : ShadowAt) (anc : Int) (v : FVal) : State × W64 :=
  match w with
  | .place p =>
    let r := contributeBytes anc v (memBytes s.mem p 16)
    (s.putBytes p r.1, r.2)
  | .virt va =>
    match s.translate va .atomic with
    | .ok (pa, j, d) =>
      ((s.bind m.job.task).updateBytes m.job.task pa va j d 16 fun bs => (contributeBytes anc v bs).1,
        (contributeBytes anc v (s.viewBytes m.job.task pa va 16)).2)
    | .error _ => (s.noteUpdate m.job.task va, 0)

/-- What another package is asked to do for an element: its contribution, the clear of its shadow, the restore of its primal. -/
def Move.elemCalls (s : State) (e : RevElem) (x : FVal) : List RemoteCall :=
  let write (w : ShadowAt) (bs : List Byte) : List RemoteCall :=
    match w with
    | .place _ => []
    | .virt va => s.awayWrites va bs
  write e.shadow (List.replicate 16 0) ++ write e.primal e.old ++
  (match e.source with
   | some (.virt va, anc) =>
     match s.locate va .atomic with
     | .ok (.away k pa, _, _) => [{ peer := k, pa := pa, op := .accumulate anc x e.num, ea := globalEa va }]
     | _ => []
   | _ => [])

/-- The flags that a remote contribution of the element has come back with. -/
def Move.remoteFlags (m : Move) (s : State) (e : RevElem) : W64 :=
  ((s.sent.filter fun o => decide (o.owner = m.job.id)).findSome? fun o =>
    match o.op, o.reply with
    | .accumulate _ _ n, some (.data bs) => if n = e.num then some (BitVec.ofNat 64 (leNat bs)) else none
    | _, _ => none).getD 0

/-- The effect of one element in this package: its adjoint is `x`. -/
def Move.reverseElem (m : Move) (e : RevElem) (x : FVal × W64) (acc : State × W64) : State × W64 :=
  let s1 := m.setBytes acc.1 e.shadow (List.replicate 16 0)
  let r := match e.source with
    | some u => m.contribute s1 u.1 u.2 x.1
    | none => (s1, 0)
  let s2 := m.setBytes r.1 e.primal e.old
  (match m.kind, e.primal with
   | .movf, .place p => s2.setFe p false
   | _, _ => s2, acc.2 ||| x.2 ||| r.2 ||| m.remoteFlags acc.1 e)

/-- Cells of the row's sources whose shadows it contributes to: it touches them as a read, so that it races with a forward write
in flight (R275). -/
def Move.sourceCells (m : Move) (s : State) (p : RowPlan) : List (Int × Nat) :=
  if m.source.lv ≠ 0 then []
  else
    (p.srcs.map fun a => (a, p.slen)).filter fun x =>
      (List.range x.2).any fun o => (s.elemAt m.job.sh 0 (x.1 + (o : Int))).isSome

/-- Row `i` of a reverse move, whole or not at all: it waits for its chunks, then its lowest fault ends the move, then other
packages do their part, then this one. -/
def Move.reverseRow (m : Move) (s : State) (i : Nat) : Except Halt (State × Move) := do
  let dst := m.dest
  if (s.diffWidthOf m.job.sh dst).isNone then return (s, { m with row := m.row + 1 })
  let p := (m.plan s i).known m.source
  let out (o : Operand) (a : Int) (n : Nat) : List (BitVec 8 × W64) :=
    if !o.indexed then [] else if o.lv = 3 then Move.lineFaults s o a n .any else m.outFaults s o a
  let outs := (p.srcs.take 1).flatMap (fun a => out m.source a p.slen) ++ (if p.stuck dst then [] else out dst p.dst p.dlen)
  let es := if p.stuck dst || !outs.isEmpty then [] else m.rowElems s p i
  let as := es.flatMap RevElem.accesses
  let global := as.flatMap RevAccess.span
  if let some h := m.waitChunks s global then throw h
  let reads := m.sourceCells s p
  let faults := p.faults ++ outs ++ m.deniedFault s global ++ as.flatMap (m.accessFaults s) ++
    reads.flatMap (fun x => m.raceFaults s 0 x.1 x.2 false .plain)
  if let some f := leastFault faults then throw (.fault f.1 f.2)
  if as.any fun a => decide (a.need = .atomic) && !a.span.isEmpty then
    if let some h := m.job.mayAct s then throw h
  if let some h := m.job.calls s (es.flatMap fun e => match e.shadow with
    | .place _ => []
    | .virt va => s.awayReads va 16) then throw h
  let xs ← es.foldlM (fun (acc : List (RevElem × FVal × W64) × State) e => do
    let b ← m.bytesAt acc.2 e.shadow 16
    pure (acc.1 ++ [(e, shadowValue e.anc b.1)], b.2)) ([], s)
  if let some h := m.job.calls s (xs.1.flatMap fun x => Move.elemCalls s x.1 x.2.1) then throw h
  let s1 := as.foldl m.noteAccess (m.noteReads (m.noteList xs.2 p) 0 false reads)
  let r := xs.1.foldl (fun acc x => m.reverseElem x.1 x.2 acc) (s1, 0)
  let s2 ← m.share s r.1
  pure (s2.endRow m.job.id, { m with row := m.row + 1, job := { m.job with flags := m.job.flags ||| r.2 } })

/-! ### All rows -/

/-- Rows of the destination. -/
def Move.rows (m : Move) : Nat := m.dest.rows

/-- What a run of rows comes to. -/
inductive RunOut where
  /-- every row is done -/
  | all (s : State) (m : Move)
  /-- the rows asked for are done, and more are left -/
  | more (s : State) (m : Move)
  | fault (s : State) (m : Move) (cause : BitVec 8) (eval : W64)
  | park (s : State) (m : Move)

/-- At most so many of the rows still to do, one after another; in reverse from the highest down. -/
def Move.runRows : Nat → State → Move → RunOut
  | 0, s, m => if m.rows ≤ m.row then .all s m else .more s m
  | fuel + 1, s, m =>
    if m.rows ≤ m.row then .all s m
    else
      let m0 := { m with awaits := [] }
      match (if m.job.rev then m0.reverseRow s (m.rows - 1 - m.row) else m0.forwardRow s m.row) with
      | .ok (s1, m1) => Move.runRows fuel s1 m1
      | .error (.fault c v) => .fault s m0 c v
      | .error (.park s1 aw) => .park s1 { m0 with awaits := aw }

/-- The bytes of a destination row as they stand; those of a line or a cell that no access reaches are zero. -/
def Move.standing (m : Move) (s : State) (p : RowPlan) : List Byte :=
  if m.dest.lv = 3 then
    if p.dst < 0 then List.replicate p.dlen 0
    else
      (pieces p.dst.toNat p.dlen).flatMap fun q =>
        match Move.lineFaults s m.dest q.1 q.2 .any, m.readSpan s 3 q.1 q.2 .any with
        | [], .ok (bs, _) => bs
        | _, _ => List.replicate q.2 0
  else
    (List.range (p.dlen / 8)).flatMap fun k =>
      match s.scratchAt m.job.sh m.dest.lv (p.dst + 8 * (k : Int)) with
      | some a => memBytes s.mem a 8
      | none => List.replicate 8 0

/-- The destination bytes of the rows from `i` on, as they stand, for a record that a fault cut short (R270). -/
def Move.restOld (m : Move) (s : State) (i : Nat) : Except Halt (List Byte) := do
  let rows := ((List.range m.rows).drop i).map fun r => m.plan s r
  let spans := if m.dest.lv ≠ 3 then []
    else (rows.filter fun p => decide (0 ≤ p.dst)).flatMap fun p =>
      (pieces p.dst.toNat p.dlen).filter fun q => (Move.lineFaults s m.dest q.1 q.2 .any).isEmpty
  if let some h := m.waitChunks s spans then throw h
  if let some h := m.job.calls s (spans.flatMap fun x => s.awayReads x.1 x.2) then
    match h with
    | .park _ _ => throw h
    | .fault _ _ => pure ()
  pure (rows.flatMap (m.standing s))

/-- The record's bytes, padded to whole units, the rows left undone holding `rest`. -/
def Move.record (m : Move) (rest : List Byte) : List Byte :=
  let n := (tileDesc m.desc).bytes
  let len := 2 + (n + 63) / 64
  moveRecordHead m.kind m.elem len m.desc ++ ((m.old ++ rest) ++ List.replicate (64 * len) 0).take (64 * (len - 2))

/-- An earlier move of the same sequencer has still to write its record (R273). -/
def Move.tapeTurn (m : Move) (s : State) : Bool :=
  !s.moves.any fun o => decide (o.job.sh = m.job.sh ∧ o.job.st = m.job.st ∧ o.job.id < m.job.id) && o.tape.isSome

/-- The tape record is written, in its sequencer's order. -/
def Move.writeRecord (m : Move) (s : State) : Except Halt State :=
  match m.tape with
  | none => .ok s
  | some va => do
    if !m.tapeTurn s then throw (.park s [])
    let rest ← if m.row < m.rows then m.restOld s m.row else pure []
    let bytes := m.record rest
    let span := [(va, bytes.length)]
    if let some h := m.waitChunks s span then throw h
    match leastFault (m.deniedFault s span ++ (pieces va bytes.length).filterMap fun p =>
      match s.locate p.1 .write with
      | .error (.fault c v) => some (c, v)
      | _ => none) with
    | some f => throw (.fault f.1 f.2)
    | none => pure ()
    if let some h := m.job.calls s (s.awayWrites va bytes) then throw h
    let s1 ← m.share s (s.writeHome m.job.task m.job.id (panelOf m.job.sh) va bytes)
    pure (s1.endRow m.job.id)

def State.putMove (s : State) (m : Move) : State :=
  { s with moves := s.moves.map fun o => if o.job.id = m.job.id then m else o }

/-- The rows of the move are over, with or without a fault: its record is written, and what is left is its completion. A fault
of the record itself is reported where the rows met none. -/
def State.finishMove (s : State) (m : Move) (fault : Option (BitVec 8 × W64)) : State :=
  let stop (s : State) (f : Option (BitVec 8 × W64)) : State :=
    let s1 := match f with
      | some f => s.jobFault m.job 1 f.1 f.2
      | none => s
    ((s1.endRow m.job.id).putMove
      { m with job := { m.job with ran := true, failed := m.job.failed || f.isSome }, tape := none, old := [], awaits := [] }).bump
      m.job.sh
  match m.writeRecord s with
  | .ok s1 => stop s1 fault
  | .error (.fault c v) => stop s (some (fault.getD (c, v)))
  | .error (.park s1 aw) => s1.putMove { m with awaits := aw, ending := some fault }

/-- A race of a move that waited for its semaphore, on its global intervals, found as it starts. -/
def State.startRace (s : State) (m : Move) : Option W64 :=
  match m.job.wt, m.job.task.bind fun p => s.taskOf p.1 with
  | some _, some t =>
    ((t.table.filter fun v => decide (v.job = some m.job.id)).findSome? fun v =>
      tableRace m.job.know v.acc v.lo v.hi (t.table.filter fun u => decide (u.job ≠ some m.job.id))).map globalEa
  | _, _ => none

/-- The task of a job has been stopped: what the job still had to do is discarded with it (R167). -/
def State.isStopped (s : State) (j : Job) : Bool :=
  match j.task.bind fun p => s.taskOf p.1 with
  | some t => decide (t.stat = .stopping)
  | none => false

/-- The move goes on from its next row, for at most `n` rows. -/
def State.advanceRows (s : State) (m : Move) (n : Nat) : State :=
  s.inWindow m.job fun s =>
    if s.isStopped m.job then { m with tape := none } |> fun m => s.finishMove m none
    else
      match m.ending with
      | some f => s.finishMove m f
      | none =>
        match Move.runRows n s m with
        | .all s1 m1 => s1.finishMove m1 none
        | .more s1 m1 => (s1.putMove m1).bump m1.job.sh
        | .fault s1 m1 c v => (s1.clearDenied m.job.id).finishMove m1 (some (c, v))
        | .park s1 m1 => s1.putMove m1

/-- The move goes on from its next row as far as it can. -/
def State.advanceMove (s : State) (m : Move) : State := s.advanceRows m (m.rows - m.row)

/-- The move of a job. -/
def State.moveOf (s : State) (sh : ShNo) (id : Nat) : Option Move :=
  s.moves.find? fun m => decide (m.job.id = id ∧ m.job.sh = sh) && !m.job.ran

/-- The tile copy engine takes up an accepted move for at most `n` rows: it starts once its semaphore allows. -/
def State.moveRun (s : State) (m : Move) (n : Nat) : State :=
  if m.awaits ≠ [] && !s.isStopped m.job then s
  else if m.job.started then s.advanceRows m n
  else if !s.jobReady m.job then s
  else
    let r := s.startJob m.job 1
    let m1 := { m with job := r.2 }
    if m1.job.failed then r.1.finishMove m1 none
    else
      match r.1.startRace m1 with
      | some v => r.1.finishMove m1 (some (0x20, v))
      | none => (r.1.putMove m1).advanceRows m1 n

/-- The tile copy engine runs an accepted move: it does as many rows as it can. -/
def execTileMoveRun (sh : ShNo) (id : Nat) (s : State) : Result :=
  match s.moveOf sh id with
  | none => .next s
  | some m => .next (s.moveRun m (m.rows - m.row))

/-- One row of a move. -/
def State.moveRow (s : State) (sh : ShNo) (id : Nat) : State :=
  match s.moveOf sh id with
  | none => s
  | some m => s.moveRun m 1

/-- A reply has come for a chunk that the move awaits: it goes on from that row, or ends with cause 0x1D. -/
def execMoveResidencyResume (sh : ShNo) (id : Nat) (s : State) : Result :=
  match s.moveOf sh id with
  | none => .next s
  | some m =>
    if m.awaits.any fun c => !s.resReqs.any fun r => decide ((r.ix, r.ch) = c) then
      .next (s.advanceMove { m with awaits := [] })
    else .next s

/-- What a completing move signals beside its counter and semaphore: the fills that rl has held back, and its delivery of the
rows it wrote (R207, R240). -/
def State.signalMove (s : State) (m : Move) : State :=
  let ctl := (tileDesc m.desc).ctl
  let s1 := m.fill s m.fills
  match m.job.task with
  | some p =>
    if 4 ≤ ctl then
      s1.deliver p.1 (BitVec.ofNat 2 ctl) m.tag (m.row * m.dest.len)
        (m.job.release (.set ((s1.taskOf p.1).map Task.shuttles |>.getD [m.job.sh])))
    else s1
  | none => s1

/-- A move that has run completes when its signals can be made. -/
def execTileMoveComplete (sh : ShNo) (id : Nat) (s : State) : Result :=
  match s.moves.find? fun m => decide (m.job.id = id ∧ m.job.sh = sh) && m.job.ran with
  | none => .next s
  | some m =>
    if !s.mayComplete m.job then .next s
    else .next ({ s.signalMove m with moves := s.moves.filter (fun o => decide (o.job.id ≠ id)) }.completeJob m.job 1)

/-! ## The instructions (R199) -/

/-- Element size that tq asks for. -/
def transposeSize (q : BitVec 2) : Nat := q.toNat

/-- Format H: the descriptor's address is in an address register. -/
def moveH (s : State) (kind : MoveKind) (t : RegNo) (c : BitVec 3) (q : BitVec 2) (a r : Bool) (sc k : BitVec 4) : Result :=
  runT s k fun s =>
    let plain := decide (kind = .mov)
    issueMove s kind (if plain then transposeSize q else 0) (s.areg t).toNat c none none a r sc.toNat
      (!plain && decide (q ≠ 0)) fun s id => .command s 0 id

def execTmov (_m : Bool) (t : RegNo) (c : BitVec 3) (q : BitVec 2) (a r : Bool) (sc k : BitVec 4) (s : State) : Result :=
  moveH s .mov t c q a r sc k
def execTgath (_m : Bool) (t : RegNo) (c : BitVec 3) (q : BitVec 2) (a r : Bool) (sc k : BitVec 4) (s : State) : Result :=
  moveH s .gath t c q a r sc k
def execTscat (_m : Bool) (t : RegNo) (c : BitVec 3) (q : BitVec 2) (a r : Bool) (sc k : BitVec 4) (s : State) : Result :=
  moveH s .scat t c q a r sc k
def execTfill (_m : Bool) (t : RegNo) (c : BitVec 3) (q : BitVec 2) (a r : Bool) (sc k : BitVec 4) (s : State) : Result :=
  moveH s .fill t c q a r sc k
def execTmovf (_m : Bool) (t : RegNo) (c : BitVec 3) (q : BitVec 2) (a r : Bool) (sc k : BitVec 4) (s : State) : Result :=
  moveH s .movf t c q a r sc k

/-- Major 0x39: the step word names the descriptor. -/
def moveE (s : State) (kind : MoveKind) (elem : Nat) (h : Hdr) (dsc : BitVec 14) : Result :=
  runC s (issueMove s kind elem (64 * dsc.toNat) h.cc (semField h.wt) (semField h.sg) h.aq h.rl h.sc.toNat false
    fun s id => .command s 1 id)

def execTcmov (h : Hdr) (tq : BitVec 2) (dsc : BitVec 14) (s : State) : Result := moveE s .mov (transposeSize tq) h dsc
def execTcgath (h : Hdr) (dsc : BitVec 14) (s : State) : Result := moveE s .gath 0 h dsc
def execTcscat (h : Hdr) (dsc : BitVec 14) (s : State) : Result := moveE s .scat 0 h dsc
def execTcfill (h : Hdr) (dsc : BitVec 14) (s : State) : Result := moveE s .fill 0 h dsc
def execTcmovf (h : Hdr) (dsc : BitVec 14) (s : State) : Result := moveE s .movf 0 h dsc

end Sys2Proof.Machine
end

