-- ==== Sys2Proof/Machine/Formats.lean ====
section
/-! DEFINITION. The format table: fields, settling of bad values, the entry an X instruction names, captures and scale
derivation (R90, R115 to R123). -/

namespace Sys2Proof.Machine
open Sys2Proof

/-! ## Fields (R115) -/

/-- The `n` bits of an entry from bit `lo`. -/
def entryField (e : BitVec 128) (lo n : Nat) : Nat := e.toNat / 2 ^ lo % 2 ^ n

/-- The entry with its `n` bits from `lo` replaced. -/
def putEntry (e : BitVec 128) (lo n v : Nat) : BitVec 128 :=
  (e &&& ~~~(BitVec.ofNat 128 ((2 ^ n - 1) * 2 ^ lo))) ||| BitVec.ofNat 128 (v % 2 ^ n * 2 ^ lo)

def entryAnc (e : BitVec 128) : Int := sintOf 8 (entryField e 56 8)
def entryOsx (e : BitVec 128) : Int := sintOf 8 (entryField e 24 8)
def entryHd (e : BitVec 128) : Nat := entryField e 36 4
def entryGen (e : BitVec 128) : Nat := entryField e 8 16

/-- GEN advances by 1 (R118). -/
def bumpGen (e : BitVec 128) : BitVec 128 := putEntry e 8 16 (entryGen e + 1)

/-! ## Settling (R117) -/

/-- A scale is usable when it is positive, normal and finite; 1.0 takes its place otherwise. -/
def settleScale (x : Nat) : Nat × Bool :=
  let e := x / 2 ^ 23 % 256
  if x / 2 ^ 31 = 0 ∧ 1 ≤ e ∧ e ≤ 254 then (x, false) else (unitScale, true)

def settleRm (c : Nat) : RMode × Bool := (rmOfCode c, decide (c = 0 ∨ 6 ≤ c))

/-- A format code in a position that takes the formats `ok`, with its default. -/
def settleFmt (c : Nat) (ok : Fmt → Bool) (default : Fmt) : Fmt × Bool :=
  let f := fmtOfCode c
  if f = .rsv then (if ok .fp32 then .fp32 else default, true) else if ok f then (f, false) else (default, true)

/-- The output fields of an entry, settled, and whether any was bad. -/
def settleOut (e : BitVec 128) (ok : Fmt → Bool) (default : Fmt) : OutConv × Bool :=
  let fo := settleFmt (entryField e 44 4) ok default
  let rm := settleRm (entryField e 40 3)
  let a := settleScale (entryField e 96 32)
  let b := settleScale (entryField e 64 32)
  ({ fo := fo.1, rm := rm.1, sca := a.1, scb := b.1, osx := entryOsx e }, fo.2 || rm.2 || a.2 || b.2)

/-! ## The entry an X instruction names (R90) -/

/-- Index by a base, a level (7 none) and a loop unit. -/
def entryIndex (base lv : Nat) (u : LoopUnit) : Nat :=
  if lv < 6 then (base + (u.level lv).k.toNat / (u.level lv).str) % 64 else base % 64

/-- fx, and whether a reserved FLV was settled (R89). -/
def Shuttle.xEntry (x : Shuttle) : Nat × Bool :=
  let flv := getBits x.shp 12 3
  (entryIndex (getBits x.shp 6 6) flv x.x.loops, decide (flv = 6))

def Shuttle.entry (x : Shuttle) (i : Nat) : FmtEntry := if h : i < 64 then x.fmt[i]'h else FmtEntry.reset
def Shuttle.setEntry (x : Shuttle) (i : Nat) (e : FmtEntry) : Shuttle :=
  if h : i < 64 then { x with fmt := x.fmt.set i e h } else x

/-! ## Accesses to the table (R123) -/

/-- eval of cause 0x20 for a table location (R237). -/
def entryEval (x y : Nat) : W64 := BitVec.ofNat 64 (0xF000000000000000 + 16 * x + y)

/-- The issuing sequencer makes an access to each table location `(entry, slot)`, slot 15 being the entry itself. -/
def withTable (s : State) (write : Bool) (kind : AccKind) (locs : List (Nat × Nat)) (f : State → Eff) : Eff :=
  let s1 := s.tickSeq s.here s.stream
  let k := s1.mySeq.know
  let a := s1.accessOf s.here s.stream write kind (.set [s.here])
  match locs.find? (fun p => racesWith k a (tagOf s1.tags (ringLoc s.here p.1 p.2))) with
  | some p => .trap 0x20 (entryEval p.1 p.2)
  | none =>
    unlessDamaged s (if write && decide (kind = .plain) then [] else locs.map fun p => damage 5 p.1)
      (f (s1.note a (locs.map fun p => ringLoc s.here p.1 p.2)))

/-! ## Rings (R121, R122) -/

def FmtEntry.slot (e : FmtEntry) (i : Nat) : W32 := if h : i < 12 then e.ring[i]'h else 0
def FmtEntry.setSlot (e : FmtEntry) (i : Nat) (v : W32) : FmtEntry :=
  if h : i < 12 then { e with ring := e.ring.set i v h } else e

/-- One capture of a non-negative FP32 magnitude into the current slot. -/
def FmtEntry.capture (e : FmtEntry) (v : Nat) : FmtEntry :=
  let h := entryHd e.bits
  if (e.slot h).toNat < v then e.setSlot h (BitVec.ofNat 32 v) else e

/-- The exponent that a format's scale aims below, for the six formats of R122. -/
def scaleTarget : Fmt → Option Int
  | .zf8 => some 8 | .fp16 => some 15 | .int8 => some 6 | .nat8 => some 7 | .int16 => some 14 | .nat16 => some 15
  | _ => none

/-- floor(log2) of a positive finite FP32 code. -/
def floorLog2 (code : Nat) : Int :=
  let e : Nat := code / 2 ^ 23 % 256
  let l : Nat := bitLen (code % 2 ^ 23)
  if e = 0 then (l : Int) - 150 else (e : Int) - 127

/-- The scale derivation: the new entry, and whether OF is set (R122). -/
def deriveScale (e : FmtEntry) (fo : Fmt) : FmtEntry × Bool :=
  let amax := e.ring.toList.foldl (fun m v => max m v.toNat) 0
  let b :=
    match scaleTarget fo with
    | none => putEntry e.bits 24 8 0
    | some t =>
      if amax = 0 ∨ amax = 0x7F800000 then e.bits
      else putEntry e.bits 24 8 (lowBits 8 (max (-128) (min 127 (t - floorLog2 amax - 1))))
  let hd := (entryHd e.bits + 1) % 12
  let e1 : FmtEntry := { e with bits := bumpGen (putEntry b 36 4 hd) }
  (e1.setSlot hd 0, (scaleTarget fo).isSome && decide (amax = 0x7F800000))

end Sys2Proof.Machine
end

