-- ==== Sys2Proof/Machine/Vec.lean ====
section
/-! DEFINITION. Conventions of the vector engine: elements, active length, masks, rounding mode and the shape of a masked
element-wise instruction (R124 to R131). -/

namespace Sys2Proof.Machine
open Sys2Proof

/-! ## Elements (R124) -/

/-- Element `i` of width `w` bytes, as a number. -/
def velem (v : VReg) (w i : Nat) : Nat := v.toNat / 2 ^ (8 * w * i) % 2 ^ (8 * w)

/-- The number of elements. -/
def velems (w : Nat) : Nat := 512 / w

/-- Elements packed, the first lowest. -/
def packNat (w : Nat) : List Nat → Nat
  | [] => 0
  | x :: xs => x % 2 ^ (8 * w) + 2 ^ (8 * w) * packNat w xs

def packElems (w : Nat) (l : List Nat) : VReg := BitVec.ofNat 4096 (packNat w l)

/-! ## Shape and masks (R125 to R128) -/

/-- VL in lanes, and whether a reserved value was settled. -/
def Shuttle.vl (x : Shuttle) : Nat × Bool :=
  let v := getBits x.shp 24 8
  if v = 0 then (128, false) else if v ≤ 128 then (v, false) else (128, true)

/-- SEG, and whether a reserved value was settled. -/
def Shuttle.segLog (x : Shuttle) : Nat × Bool :=
  let v := getBits x.shp 20 4
  if v ≤ 7 then (v, false) else (0, true)

def allOnes : Mask := BitVec.allOnes 512

/-- The effective mask. -/
def Shuttle.effMask (x : Shuttle) : Mask := x.masks.headD allOnes

/-- The parent mask. -/
def Shuttle.parentMask (x : Shuttle) : Mask := x.masks.tail.headD allOnes

def Shuttle.active (x : Shuttle) (w i : Nat) : Bool := decide ((i + 1) * w ≤ 4 * x.vl.1)

def Shuttle.enabled (x : Shuttle) (w i : Nat) : Bool := x.active w i && x.effMask.getLsbD i

/-- The instruction reads the effective mask. -/
def readsMask (s : State) (e : Eff) : Eff :=
  unlessDamaged s (if s.me.masks = [] then [] else [damage 4 (s.me.masks.length - 1)]) e

/-- A new mask on top of the stack. -/
def Shuttle.pushMask (x : Shuttle) (m : Mask) : Shuttle :=
  { x.mend .c (damage 4 x.masks.length) with masks := m :: x.masks }

/-- A masked instruction is uniformly skipped (R129). -/
def Shuttle.uniformSkip (x : Shuttle) : Bool :=
  match x.masks with
  | [] => false
  | m :: _ => decide (m = 0)

/-- The rounding mode of field mf, and whether a reserved shp.RM was settled (R31, R89). -/
def Shuttle.mode (x : Shuttle) (mf : BitVec 3) : RMode × Bool :=
  if mf = 0 then settleRm (getBits x.shp 0 3) else (rmOfCode mf.toNat, false)

/-! ## Element-wise instructions (R131) -/

/-- The register with the enabled elements of width `w` computed, the others kept, and the flags of the enabled ones. -/
def mapEnabled (x : Shuttle) (w : Nat) (old : VReg) (f : Nat → Nat × W64) : VReg × W64 :=
  let r := (List.range (velems w)).map fun i => if x.enabled w i then f i else (velem old w i, 0)
  (packElems w (r.map Prod.fst), r.foldl (fun a p => a ||| p.2) 0)

/-- An X instruction: tokens, then the skip of R129 when it is masked, then the vector registers it uses. A skipped one issues,
so that a fallback of its word, `fall`, sets WARN (R41). -/
def xInstr (s : State) (k : BitVec 4) (masked : Bool) (reads writes : List RegNo) (body : State → Eff)
    (fall : Bool := false) : Result :=
  runT s k fun s =>
    if masked then readsMask s (if s.me.uniformSkip then .done (s.warnIf fall) else withVregs s reads writes body)
    else withVregs s reads writes body

/-- Writes a register and sets flags in exst, with WARN where something was settled. -/
def State.vecResult (s : State) (d : RegNo) (r : VReg × W64) (warn : Bool) : Eff :=
  .done (((s.setVreg d r.1).orStatus s.here .x r.2).warnIf warn)

/-- An ordinary masked element-wise instruction of width `w` that reads `reads` and writes `d`; `warn` is what it settles, `fall`
a fallback of its word. -/
def elementwise (s : State) (k : BitVec 4) (reads : List RegNo) (d : RegNo) (w : Nat) (warn : State → Bool)
    (f : State → Nat → Nat × W64) (fall : Bool := false) : Result :=
  xInstr (fall := fall) s k true reads [d] fun s =>
    s.vecResult d (mapEnabled s.me w (s.vreg d) (f s)) (fall || warn s || s.me.vl.2)

/-- The element types of the float majors (R132, R135). -/
def floatType (t : Nat) : Fmt := if t = 1 then .fp16 else if t = 2 then .bf16 else .fp32

/-- Width and signedness of an integer type of mf (R31). -/
def intWidth (e : BitVec 3) : Nat := 2 ^ (e.toNat / 2)
def intSigned (e : BitVec 3) : Bool := e.getLsbD 0

/-- An element read by its integer type. -/
def intElem (e : BitVec 3) (v : VReg) (i : Nat) : Int :=
  let x := velem v (intWidth e) i
  if intSigned e then sintOf (8 * intWidth e) x else x

/-- The range of an integer type. -/
def intRange (e : BitVec 3) : Int × Int :=
  let b := 8 * intWidth e
  if intSigned e then (-2 ^ (b - 1), 2 ^ (b - 1) - 1) else (0, 2 ^ b - 1)

end Sys2Proof.Machine
end

