-- ==== Sys2Proof/Machine/VecFloat.lean ====
section
/-! DEFINITION. Float arithmetic, fused multiply-add, unary operations, estimates and compares of the vector engine (R132 to
R137). -/

namespace Sys2Proof.Machine
open Sys2Proof

/-- A two-operand float instruction that rounds (R132). -/
def floatOp (s : State) (k : BitVec 4) (t : BitVec 2) (d a b : RegNo) (r : BitVec 3)
    (f : RMode → FVal → FVal → FVal × W64) : Result :=
  let ty := floatType t.toNat
  elementwise s k [a, b] d ty.width (fun s => (s.me.mode r).2) fun s i =>
    let rm := (s.me.mode r).1
    let v := f rm (floatValue ty (velem (s.vreg a) ty.width i)) (floatValue ty (velem (s.vreg b) ty.width i))
    let c := roundFloat ty rm v.1
    (c.1, c.2 ||| v.2)

/-- A two-operand float instruction that does not round: mf other than 0 is ignored with WARN (R41). -/
def floatPick (s : State) (k : BitVec 4) (t : BitVec 2) (d a b : RegNo) (r : BitVec 3)
    (f : Fmt → Nat → Nat → Nat × W64) : Result :=
  let ty := floatType t.toNat
  elementwise (fall := decide (r ≠ 0)) s k [a, b] d ty.width (fun _ => false) fun s i =>
    f ty (velem (s.vreg a) ty.width i) (velem (s.vreg b) ty.width i)

/-- The lesser, or the greater, of two codes (R133). -/
def minMaxCode (less : Bool) (ty : Fmt) (x y : Nat) : Nat × W64 :=
  let a := floatValue ty x
  let b := floatValue ty y
  let fl := snanFlags a b
  match a.isNan, b.isNan with
  | true, true => (canonicalNan ty, fl)
  | true, false => (y, fl)
  | false, true => (x, fl)
  | false, false => (if totalLt b a = less then y else x, fl)

/-- The sign bit of a float type. -/
def signBit (ty : Fmt) : Nat := 2 ^ (8 * ty.width - 1)

def execVaddFloat (t : BitVec 2) (d a b : RegNo) (r : BitVec 3) (k : BitVec 4) (s : State) : Result :=
  floatOp s k t d a b r fun rm x y => addVal rm x y
def execVsubFloat (t : BitVec 2) (d a b : RegNo) (r : BitVec 3) (k : BitVec 4) (s : State) : Result :=
  floatOp s k t d a b r fun rm x y => addVal rm x y.neg
def execVmulFloat (t : BitVec 2) (d a b : RegNo) (r : BitVec 3) (k : BitVec 4) (s : State) : Result :=
  floatOp s k t d a b r fun _ x y => mulVal x y
def execVdivFloat (t : BitVec 2) (d a b : RegNo) (r : BitVec 3) (k : BitVec 4) (s : State) : Result :=
  floatOp s k t d a b r fun _ x y => divVal x y
def execVminFloat (t : BitVec 2) (d a b : RegNo) (r : BitVec 3) (k : BitVec 4) (s : State) : Result :=
  floatPick s k t d a b r (minMaxCode true)
def execVmaxFloat (t : BitVec 2) (d a b : RegNo) (r : BitVec 3) (k : BitVec 4) (s : State) : Result :=
  floatPick s k t d a b r (minMaxCode false)
def execVcpys (t : BitVec 2) (d a b : RegNo) (r : BitVec 3) (k : BitVec 4) (s : State) : Result :=
  floatPick s k t d a b r fun ty x y =>
    match floatValue ty x with
    | .nan sig => (canonicalNan ty, if sig then fNV else 0)
    | _ => (x % signBit ty + y / signBit ty * signBit ty, 0)

/-! ## Fused multiply-add (R134) -/

def fusedOp (s : State) (k : BitVec 4) (t : BitVec 2) (d a b : RegNo) (r : BitVec 3) (negP negC : Bool) : Result :=
  let ty := floatType t.toNat
  elementwise s k [a, b] d ty.width (fun s => (s.me.mode r).2) fun s i =>
    let rm := (s.me.mode r).1
    let rd (x : RegNo) := floatValue ty (velem (s.vreg x) ty.width i)
    let p := if negP then (rd a).neg else rd a
    let c := if negC then (rd d).neg else rd d
    let v := fmaVal rm p (rd b) c
    let o := roundFloat ty rm v.1
    (o.1, o.2 ||| v.2)

def execVfma (t : BitVec 2) (d a b : RegNo) (r : BitVec 3) (k : BitVec 4) (s : State) : Result :=
  fusedOp s k t d a b r false false
def execVfms (t : BitVec 2) (d a b : RegNo) (r : BitVec 3) (k : BitVec 4) (s : State) : Result :=
  fusedOp s k t d a b r false true
def execVfnma (t : BitVec 2) (d a b : RegNo) (r : BitVec 3) (k : BitVec 4) (s : State) : Result :=
  fusedOp s k t d a b r true false
def execVfnms (t : BitVec 2) (d a b : RegNo) (r : BitVec 3) (k : BitVec 4) (s : State) : Result :=
  fusedOp s k t d a b r true true

/-! ## Unary operations and estimates (R135, R136) -/

/-- A unary instruction on codes; `rounds` tells whether mf is used. -/
def unaryOp (s : State) (k : BitVec 4) (d a t : RegNo) (r : BitVec 3) (rounds : Bool)
    (f : Fmt → RMode → Nat → Nat × W64) : Result :=
  let ty := floatType t.toNat
  elementwise (fall := !rounds && decide (r ≠ 0)) s k [a] d ty.width (fun s => rounds && (s.me.mode r).2) fun s i =>
    f ty (s.me.mode r).1 (velem (s.vreg a) ty.width i)

/-- A rounded function of a value. -/
def roundedUnary (f : RMode → FVal → FVal × W64) (ty : Fmt) (rm : RMode) (x : Nat) : Nat × W64 :=
  let v := f rm (floatValue ty x)
  let c := roundFloat ty rm v.1
  (c.1, c.2 ||| v.2)

/-- The sign replaced or turned; a NaN gives the canonical NaN. -/
def signUnary (f : Nat → Nat → Nat) (ty : Fmt) (_rm : RMode) (x : Nat) : Nat × W64 :=
  match floatValue ty x with
  | .nan sig => (canonicalNan ty, if sig then fNV else 0)
  | _ => (f (signBit ty) x, 0)

def execVabs (d a t : BitVec 5) (r : BitVec 3) (k : BitVec 4) (s : State) : Result :=
  unaryOp s k d a t r false (signUnary fun m x => x % m)
def execVneg (d a t : BitVec 5) (r : BitVec 3) (k : BitVec 4) (s : State) : Result :=
  unaryOp s k d a t r false (signUnary fun m x => if x / m % 2 = 1 then x % m else x % m + m)
def execVsqrt (d a t : BitVec 5) (r : BitVec 3) (k : BitVec 4) (s : State) : Result :=
  unaryOp s k d a t r true (roundedUnary fun _ x => sqrtVal x)
def execVrint (d a t : BitVec 5) (r : BitVec 3) (k : BitVec 4) (s : State) : Result :=
  unaryOp s k d a t r true (roundedUnary rintVal)
def execVrcpe (d a t : BitVec 5) (r : BitVec 3) (k : BitVec 4) (s : State) : Result :=
  unaryOp s k d a t r false fun ty _ x => recipEstimate ty (floatValue ty x)
def execVrsqe (d a t : BitVec 5) (r : BitVec 3) (k : BitVec 4) (s : State) : Result :=
  unaryOp s k d a t r false fun ty _ x => rsqrtEstimate ty (floatValue ty x)
def execVex2e (d a t : BitVec 5) (r : BitVec 3) (k : BitVec 4) (s : State) : Result :=
  unaryOp s k d a t r false fun ty _ x => exp2Estimate ty (floatValue ty x)
def execVlg2e (d a t : BitVec 5) (r : BitVec 3) (k : BitVec 4) (s : State) : Result :=
  unaryOp s k d a t r false fun ty _ x => log2Estimate ty (floatValue ty x)

/-! ## Compares (R137, R138) -/

/-- A mask from the bits of a list, the first lowest. -/
def maskOf (l : List Bool) : Mask := BitVec.ofNat 512 (l.foldr (fun b n => (if b then 1 else 0) + 2 * n) 0)

/-- A full mask stack traps before the instruction does anything else, as R137 and R147 put the test first. -/
def pushing (s : State) (f : Eff) : Eff := if 16 ≤ s.me.masks.length then .trapWord 0x11 else f

/-- Pushes the mask of a compare at width `w`; flags only of enabled elements. -/
def comparePush (s : State) (k : BitVec 4) (a b : RegNo) (w : Nat) (warn : Bool) (f : State → Nat → Bool × W64) : Result :=
  runT s k fun s => pushing s <| readsMask s <| withVregs s [a, b] [] fun s =>
      let r := (List.range (velems w)).map fun i => if s.me.enabled w i then f s i else (false, 0)
      let m := maskOf (r.map Prod.fst)
      .done (((s.modMe (Shuttle.pushMask · m)).orStatus s.here .x
        (r.foldl (fun z p => z ||| p.2) 0)).warnIf (warn || s.me.vl.2))

def floatCompare (s : State) (k : BitVec 4) (t a b : BitVec 5) (r : BitVec 3) (anyNan unordered : Bool)
    (cond : Int → Bool) : Result :=
  let ty := floatType t.toNat
  comparePush s k a b ty.width (decide (r ≠ 0)) fun s i =>
    let x := floatValue ty (velem (s.vreg a) ty.width i)
    let y := floatValue ty (velem (s.vreg b) ty.width i)
    if x.isNan || y.isNan then (unordered, if anyNan || x.isSnan || y.isSnan then fNV else 0)
    else (cond (cmpVal x y), 0)

def execVceqFloat (t a b : BitVec 5) (r : BitVec 3) (k : BitVec 4) (s : State) : Result :=
  floatCompare s k t a b r false false fun c => decide (c = 0)
def execVcneFloat (t a b : BitVec 5) (r : BitVec 3) (k : BitVec 4) (s : State) : Result :=
  floatCompare s k t a b r false true fun c => decide (c ≠ 0)
def execVcltFloat (t a b : BitVec 5) (r : BitVec 3) (k : BitVec 4) (s : State) : Result :=
  floatCompare s k t a b r true false fun c => decide (c < 0)
def execVcleFloat (t a b : BitVec 5) (r : BitVec 3) (k : BitVec 4) (s : State) : Result :=
  floatCompare s k t a b r true false fun c => decide (c ≤ 0)
def execVcun (t a b : BitVec 5) (r : BitVec 3) (k : BitVec 4) (s : State) : Result :=
  floatCompare s k t a b r false true fun _ => false

end Sys2Proof.Machine
end

