-- ==== Sys2Proof/Machine/VecInt.lean ====
section
/-! DEFINITION. Integer arithmetic, compares, logic, shifts and immediates of the vector engine (R138 to R141). -/

namespace Sys2Proof.Machine
open Sys2Proof

/-- A two-operand integer instruction; results are taken modulo the element width (R139). -/
def intOp (s : State) (k : BitVec 4) (d a b : RegNo) (e : BitVec 3) (f : Int → Int → Int × W64) : Result :=
  let w := intWidth e
  elementwise s k [a, b] d w (fun _ => false) fun s i =>
    let r := f (intElem e (s.vreg a) i) (intElem e (s.vreg b) i)
    (lowBits (8 * w) r.1, r.2)

def clampTo (r : Int × Int) (x : Int) : Int := if x < r.1 then r.1 else if r.2 < x then r.2 else x

def execVaddInt (d a b : RegNo) (e : BitVec 3) (k : BitVec 4) (s : State) : Result := intOp s k d a b e fun x y => (x + y, 0)
def execVsubInt (d a b : RegNo) (e : BitVec 3) (k : BitVec 4) (s : State) : Result := intOp s k d a b e fun x y => (x - y, 0)
def execVmulInt (d a b : RegNo) (e : BitVec 3) (k : BitVec 4) (s : State) : Result := intOp s k d a b e fun x y => (x * y, 0)
def execVmulh (d a b : RegNo) (e : BitVec 3) (k : BitVec 4) (s : State) : Result :=
  intOp s k d a b e fun x y => (x * y / 2 ^ (8 * intWidth e), 0)
def execVadds (d a b : RegNo) (e : BitVec 3) (k : BitVec 4) (s : State) : Result :=
  intOp s k d a b e fun x y => (clampTo (intRange e) (x + y), 0)
def execVsubs (d a b : RegNo) (e : BitVec 3) (k : BitVec 4) (s : State) : Result :=
  intOp s k d a b e fun x y => (clampTo (intRange e) (x - y), 0)
def execVminInt (d a b : RegNo) (e : BitVec 3) (k : BitVec 4) (s : State) : Result :=
  intOp s k d a b e fun x y => (min x y, 0)
def execVmaxInt (d a b : RegNo) (e : BitVec 3) (k : BitVec 4) (s : State) : Result :=
  intOp s k d a b e fun x y => (max x y, 0)
def execVabsd (d a b : RegNo) (e : BitVec 3) (k : BitVec 4) (s : State) : Result :=
  intOp s k d a b e fun x y => ((x - y).natAbs, 0)
def execVdivInt (d a b : RegNo) (e : BitVec 3) (k : BitVec 4) (s : State) : Result :=
  intOp s k d a b e fun x y => if y = 0 then (0, idzBit) else (x.tdiv y, 0)
def execVrem (d a b : RegNo) (e : BitVec 3) (k : BitVec 4) (s : State) : Result :=
  intOp s k d a b e fun x y => if y = 0 then (x, idzBit) else (x - y * x.tdiv y, 0)

/-! ## Compares (R138) -/

def intCompare (s : State) (k : BitVec 4) (a b : RegNo) (e : BitVec 3) (f : Int → Int → Bool) : Result :=
  comparePush s k a b (intWidth e) false fun s i => (f (intElem e (s.vreg a) i) (intElem e (s.vreg b) i), 0)

def execVceqInt (a b : RegNo) (e : BitVec 3) (k : BitVec 4) (s : State) : Result :=
  intCompare s k a b e fun x y => decide (x = y)
def execVcneInt (a b : RegNo) (e : BitVec 3) (k : BitVec 4) (s : State) : Result :=
  intCompare s k a b e fun x y => decide (x ≠ y)
def execVcltInt (a b : RegNo) (e : BitVec 3) (k : BitVec 4) (s : State) : Result :=
  intCompare s k a b e fun x y => decide (x < y)
def execVcleInt (a b : RegNo) (e : BitVec 3) (k : BitVec 4) (s : State) : Result :=
  intCompare s k a b e fun x y => decide (x ≤ y)

/-! ## Logic and shifts (R140) -/

/-- A two-operand instruction on codes of the type's width. -/
def bitOp (s : State) (k : BitVec 4) (d a b : RegNo) (e : BitVec 3) (f : Nat → Nat → Nat) : Result :=
  let w := intWidth e
  elementwise s k [a, b] d w (fun _ => false) fun s i => (f (velem (s.vreg a) w i) (velem (s.vreg b) w i) % 2 ^ (8 * w), 0)

/-- All ones of an element. -/
def elemOnes (e : BitVec 3) : Nat := 2 ^ (8 * intWidth e) - 1

def execVand (d a b : RegNo) (e : BitVec 3) (k : BitVec 4) (s : State) : Result := bitOp s k d a b e fun x y => x &&& y
def execVor (d a b : RegNo) (e : BitVec 3) (k : BitVec 4) (s : State) : Result := bitOp s k d a b e fun x y => x ||| y
def execVxor (d a b : RegNo) (e : BitVec 3) (k : BitVec 4) (s : State) : Result := bitOp s k d a b e fun x y => x ^^^ y
def execVandn (d a b : RegNo) (e : BitVec 3) (k : BitVec 4) (s : State) : Result :=
  bitOp s k d a b e fun x y => x &&& (elemOnes e ^^^ y)
def execVnot (d a : RegNo) (e : BitVec 3) (k : BitVec 4) (s : State) : Result :=
  elementwise s k [a] d (intWidth e) (fun _ => false) fun s i => (elemOnes e ^^^ velem (s.vreg a) (intWidth e) i, 0)
def execVsll (d a b : RegNo) (e : BitVec 3) (k : BitVec 4) (s : State) : Result :=
  bitOp s k d a b e fun x y => x * 2 ^ (y % (8 * intWidth e))
def execVsrl (d a b : RegNo) (e : BitVec 3) (k : BitVec 4) (s : State) : Result :=
  bitOp s k d a b e fun x y => x / 2 ^ (y % (8 * intWidth e))
def execVsra (d a b : RegNo) (e : BitVec 3) (k : BitVec 4) (s : State) : Result :=
  bitOp s k d a b e fun x y =>
    lowBits (8 * intWidth e) (sintOf (8 * intWidth e) x / 2 ^ (y % (8 * intWidth e)))

/-! ## Immediates (R141) -/

/-- A masked instruction on elements of `w` bytes of one register. -/
def immOp (s : State) (k : BitVec 4) (d a : RegNo) (w : Nat) (f : Nat → Nat) : Result :=
  elementwise s k [a] d w (fun _ => false) fun s i => (f (velem (s.vreg a) w i) % 2 ^ (8 * w), 0)

def addImm (s : State) (k : BitVec 4) (d a : RegNo) (i : BitVec 8) (w : Nat) : Result :=
  immOp s k d a w fun x => lowBits (8 * w) (x + i.toInt)

def shiftRightSigned (w x n : Nat) : Nat := lowBits (8 * w) (sintOf (8 * w) x / 2 ^ n)

def execVaddiI32 (d a : RegNo) (i : BitVec 8) (k : BitVec 4) (s : State) : Result := addImm s k d a i 4
def execVaddiI16 (d a : RegNo) (i : BitVec 8) (k : BitVec 4) (s : State) : Result := addImm s k d a i 2
def execVaddiI8 (d a : RegNo) (i : BitVec 8) (k : BitVec 4) (s : State) : Result := addImm s k d a i 1
def execVslli32 (d a i : BitVec 5) (k : BitVec 4) (s : State) : Result := immOp s k d a 4 fun x => x * 2 ^ i.toNat
def execVsrli32 (d a i : BitVec 5) (k : BitVec 4) (s : State) : Result := immOp s k d a 4 fun x => x / 2 ^ i.toNat
def execVsrai32 (d a i : BitVec 5) (k : BitVec 4) (s : State) : Result :=
  immOp s k d a 4 fun x => shiftRightSigned 4 x i.toNat
def execVslli16 (d a : RegNo) (i k : BitVec 4) (s : State) : Result := immOp s k d a 2 fun x => x * 2 ^ i.toNat
def execVsrli16 (d a : RegNo) (i k : BitVec 4) (s : State) : Result := immOp s k d a 2 fun x => x / 2 ^ i.toNat
def execVsrai16 (d a : RegNo) (i k : BitVec 4) (s : State) : Result :=
  immOp s k d a 2 fun x => shiftRightSigned 2 x i.toNat

def execVmovi32 (d : RegNo) (i : BitVec 8) (k : BitVec 4) (s : State) : Result :=
  elementwise s k [] d 4 (fun _ => false) fun _ _ => (lowBits 32 i.toInt, 0)
/-- The value of a ZF8 code as FP32; no flag. -/
def execVfmoviF32 (d : RegNo) (i : BitVec 8) (k : BitVec 4) (s : State) : Result :=
  elementwise s k [] d 4 (fun _ => false) fun _ _ => ((roundFloat .fp32 .rne (floatValue .zf8 i.toNat)).1, 0)
def execVsplat32 (d a : RegNo) (i : BitVec 7) (k : BitVec 4) (s : State) : Result :=
  elementwise s k [a] d 4 (fun _ => false) fun s _ => (velem (s.vreg a) 4 i.toNat, 0)
def execVsldn32 (d a : RegNo) (i : BitVec 7) (k : BitVec 4) (s : State) : Result :=
  elementwise s k [a] d 4 (fun _ => false) fun s j =>
    (if j + i.toNat < 128 then velem (s.vreg a) 4 (j + i.toNat) else 0, 0)
def execVslup32 (d a : RegNo) (i : BitVec 7) (k : BitVec 4) (s : State) : Result :=
  elementwise s k [a] d 4 (fun _ => false) fun s j =>
    (if i.toNat ≤ j then velem (s.vreg a) 4 (j - i.toNat) else 0, 0)

end Sys2Proof.Machine
end

