-- ==== Sys2Proof/Machine/VecMove.lean ====
section
/-! DEFINITION. Conversions, packing, permutation, broadcast, select and the mask stack (R142 to R147). -/

namespace Sys2Proof.Machine
open Sys2Proof

/-! ## Conversion (R142, R143) -/

/-- Destination and source formats of a pair. -/
def cvtPair (f : BitVec 4) : Fmt × Fmt :=
  match f.toNat with
  | 1 => (.fp32, .fp16) | 2 => (.fp32, .bf16) | 3 => (.fp16, .fp32) | 4 => (.bf16, .fp32) | 5 => (.fp32, .zf8)
  | 6 => (.zf8, .fp32) | 7 => (.bf16, .zf8) | 8 => (.zf8, .bf16) | 9 => (.fp32, .int32) | 10 => (.int32, .fp32)
  | 11 => (.fp32, .nat32) | 12 => (.nat32, .fp32) | 13 => (.fp32, .int8) | 14 => (.int8, .fp32) | _ => (.fp32, .sp8)

/-- The FP32 value of a settled scale. -/
def scaleValue (sc : Nat) : FVal := let p := scaleParts sc; .fin false p.1 (p.2 - 23)

def execVcvt (d a : RegNo) (sc : Bool) (p r : BitVec 3) (f k : BitVec 4) (s : State) : Result :=
  let dst := (cvtPair f).1
  let src := (cvtPair f).2
  let widening := decide (src.width ≤ dst.width)
  let n := 512 / max dst.width src.width
  xInstr s k true [a] [d] fun s =>
    let fx := s.me.xEntry
    let e := (s.me.entry fx.1).bits
    let sca := settleScale (entryField e 96 32)
    let rm := s.me.mode r
    let body (s : State) : Eff :=
      s.vecResult d
        (mapEnabled s.me dst.width (s.vreg d) fun t =>
          let i := if widening then p.toNat * n + t else t - p.toNat * n
          let inPart := if widening then decide (t < n) else decide (p.toNat * n ≤ t ∧ t < p.toNat * n + n)
          if inPart then
            let x := fmtValue src (velem (s.vreg a) src.width i)
            let y := if !sc then (x, 0)
              else if src = .sp8 then mulVal x (scaleValue sca.1)
              else if widening then (x.scale (-entryOsx e), 0) else (x.scale (entryOsx e), 0)
            let o := roundFmt dst rm.1 y.1
            (o.1, o.2 ||| y.2)
          else (velem (s.vreg d) dst.width t, 0))
        ((rm.2 && (sc || !decide (src.width < dst.width))) || s.me.vl.2 || (sc && (fx.2 || (decide (src = .sp8) && sca.2))))
    if sc then withTable s false .plain [(fx.1, 15)] body else body s

/-! ## Pack and unpack (R144, R145) -/

def packOp (s : State) (k : BitVec 4) (d a b : RegNo) (e : BitVec 3) (f : Int → Int) : Result :=
  let w := intWidth e
  let n := velems w
  elementwise s k [a, b] d (w / 2) (fun _ => false) fun s t =>
    let x := if t < n then intElem e (s.vreg a) t else intElem e (s.vreg b) (t - n)
    (lowBits (4 * w) (f x), 0)

/-- The range of the type of half the width and the same signedness. -/
def halfRange (e : BitVec 3) : Int × Int :=
  let b := 4 * intWidth e
  if intSigned e then (-2 ^ (b - 1), 2 ^ (b - 1) - 1) else (0, 2 ^ b - 1)

def execVpacks (d a b : RegNo) (e : BitVec 3) (k : BitVec 4) (s : State) : Result :=
  packOp s k d a b e (clampTo (halfRange e))
def execVpackt (d a b : RegNo) (e : BitVec 3) (k : BitVec 4) (s : State) : Result := packOp s k d a b e fun x => x

def unpackOp (s : State) (k : BitVec 4) (d a : RegNo) (e : BitVec 3) (off : Nat) : Result :=
  let w := intWidth e
  elementwise s k [a] d (2 * w) (fun _ => false) fun s t => (lowBits (16 * w) (intElem e (s.vreg a) (off + t)), 0)

def execVunpkl (d a : RegNo) (e : BitVec 3) (k : BitVec 4) (s : State) : Result := unpackOp s k d a e 0
def execVunpkh (d a : RegNo) (e : BitVec 3) (k : BitVec 4) (s : State) : Result :=
  unpackOp s k d a e (velems (intWidth e) / 2)

def execVunsp (d a : RegNo) (k : BitVec 4) (s : State) : Result :=
  xInstr s k true [a] [d, d + 1] fun s =>
    let half (r : RegNo) (off : Nat) : VReg :=
      (mapEnabled s.me 2 (s.vreg r) fun t =>
        ((roundFloat .bf16 .rne (match fmtValue .sp8 (velem (s.vreg a) 1 (off + t)) with
          | .fin n m e => if m = 0 then .fin false 0 e else .fin n m e
          | v => v)).1, 0)).1
    .done (((s.setVreg d (half d 0)).setVreg (d + 1) (half (d + 1) 256)).warnIf s.me.vl.2)

/-! ## Permute, broadcast and slide (R146) -/

/-- The width of field mf of majors 0x26 and 0x27. -/
def permWidth (w : BitVec 3) : Nat := 2 ^ w.toNat

def permOp (s : State) (k : BitVec 4) (d : RegNo) (reads : List RegNo) (w : BitVec 3) (f : State → Nat → Nat) : Result :=
  elementwise s k reads d (permWidth w) (fun _ => false) fun s i => (f s i, 0)

def execVperm (d a b : RegNo) (w : BitVec 3) (k : BitVec 4) (s : State) : Result :=
  let n := velems (permWidth w)
  permOp s k d [a, b] w fun s i => velem (s.vreg a) (permWidth w) (velem (s.vreg b) (permWidth w) i % n)
def execVperm2 (d a b : RegNo) (w : BitVec 3) (k : BitVec 4) (s : State) : Result :=
  let n := velems (permWidth w)
  permOp s k d [a, b] w fun s i =>
    let y := velem (s.vreg d) (permWidth w) i % (2 * n)
    if y < n then velem (s.vreg a) (permWidth w) y else velem (s.vreg b) (permWidth w) (y - n)

/-- The pop comes at every issue, skipped or not (R146). -/
def execVbcq (d : RegNo) (w : BitVec 3) (k : BitVec 4) (s : State) : Result :=
  runT s k fun s => popScalar s fun s v => readsMask s <|
    if s.me.uniformSkip then .done s
    else withVregs s [] [d] fun s =>
      s.vecResult d (mapEnabled s.me (permWidth w) (s.vreg d) fun _ => (v.toNat % 2 ^ (8 * permWidth w), 0)) s.me.vl.2

/-- Elements of two halves interleaved, from element `off`. -/
def zipOp (s : State) (k : BitVec 4) (d a b : RegNo) (w : BitVec 3) (off : Nat) : Result :=
  permOp s k d [a, b] w fun s i =>
    if i % 2 = 0 then velem (s.vreg a) (permWidth w) (off + i / 2) else velem (s.vreg b) (permWidth w) (off + (i - 1) / 2)

def execVzipl (d a b : RegNo) (w : BitVec 3) (k : BitVec 4) (s : State) : Result := zipOp s k d a b w 0
def execVziph (d a b : RegNo) (w : BitVec 3) (k : BitVec 4) (s : State) : Result :=
  zipOp s k d a b w (velems (permWidth w) / 2)

/-- Every second element of two registers, from element `off` 0 or 1. -/
def unzipOp (s : State) (k : BitVec 4) (d a b : RegNo) (w : BitVec 3) (off : Nat) : Result :=
  let n := velems (permWidth w)
  permOp s k d [a, b] w fun s i =>
    if i < n / 2 then velem (s.vreg a) (permWidth w) (2 * i + off) else velem (s.vreg b) (permWidth w) (2 * i - n + off)

def execVuzpe (d a b : RegNo) (w : BitVec 3) (k : BitVec 4) (s : State) : Result := unzipOp s k d a b w 0
def execVuzpo (d a b : RegNo) (w : BitVec 3) (k : BitVec 4) (s : State) : Result := unzipOp s k d a b w 1
def execVrev (d a : RegNo) (w : BitVec 3) (k : BitVec 4) (s : State) : Result :=
  permOp s k d [a] w fun s i => velem (s.vreg a) (permWidth w) (velems (permWidth w) - 1 - i)

/-! ## Select and the mask stack (R147) -/

def execVsel (d a b : RegNo) (w : BitVec 3) (k : BitVec 4) (s : State) : Result :=
  xInstr s k false [a, b] [d] fun s => readsMask s <|
    let n := permWidth w
    let l := (List.range (velems n)).map fun i =>
      if s.me.active n i then
        (if s.me.effMask.getLsbD i then velem (s.vreg a) n i else velem (s.vreg b) n i)
      else velem (s.vreg d) n i
    s.vecResult d (packElems n l, 0) s.me.vl.2

def execMpushr (a : RegNo) (k : BitVec 4) (s : State) : Result :=
  runT s k fun s => pushing s <| readsMask s <| withVregs s [a] [] fun s =>
    .done (s.modMe fun x => x.pushMask (x.effMask &&& (s.vreg a).setWidth 512))

def execMsave (d : RegNo) (k : BitVec 4) (s : State) : Result :=
  xInstr s k false [] [d] fun s => readsMask s <| .done (s.setVreg d (s.me.effMask.setWidth 4096))

/-- act(w): the bits of the active elements of width `w`. -/
def Shuttle.actMask (x : Shuttle) (w : Nat) : Mask := maskOf ((List.range (velems w)).map (x.active w))

def execMinv (w : BitVec 3) (k : BitVec 4) (s : State) : Result :=
  runT s k fun s =>
    match s.me.masks with
    | [] => .trapWord 0x12
    | m :: r =>
      readsMask s <| unlessDamaged s (if r = [] then [] else [damage 4 (r.length - 1)]) <|
      .done ((s.modMe fun x => { x with masks := (x.parentMask &&& ~~~m &&& x.actMask (permWidth w)) :: r }).warnIf
        s.me.vl.2)

def execMpop (k : BitVec 4) (s : State) : Result :=
  runT s k fun s =>
    match s.me.masks with
    | [] => .trapWord 0x12
    | _ :: r => .done (s.modMe fun x => { x with masks := r })

def execMclr (k : BitVec 4) (s : State) : Result := runT s k fun s => .done (s.modMe fun x => { x with masks := [] })

end Sys2Proof.Machine
end

