-- ==== Sys2Proof/Machine/VecReduce.lean ====
section
/-! DEFINITION. Exact reductions and scans, captures and scale derivation (R148 to R153). -/

namespace Sys2Proof.Machine
open Sys2Proof

/-- The source type of mf in majors 0x28 and 0x29 (R148). -/
def srcType (t : BitVec 3) : Fmt :=
  match t.toNat with
  | 0 => .fp32 | 1 => .fp16 | 2 => .bf16 | 3 => .zf8 | 4 => .int32 | 5 => .int16 | 6 => .int8 | _ => .nat8

/-- The enabled elements of width `w` that lie in segment `g` of `2^seg`, in rising order. -/
def Shuttle.segment (x : Shuttle) (w seg g : Nat) : List Nat :=
  (List.range (velems w)).filter fun i => x.enabled w i && decide (i * 2 ^ seg / velems w = g)

/-- An XACC128 cell with anchor `anc` after contributions, with flags (R111). -/
def sumCell (anc : Int) (start : Acc × W64) (l : List (FVal × W64)) : Acc × W64 :=
  l.foldl (fun a v => let r := contribute 136 (anc - 96) a.1 v.1 v.2; (r.1, a.2 ||| r.2)) start

/-- Elements written from 0 at width `w`; the others keep their values. -/
def writeFirst (old : VReg) (w : Nat) (l : List Nat) : VReg :=
  packElems w ((List.range (velems w)).map fun i => (l[i]?).getD (velem old w i))

/-- VRSUM, VRSSQ, VRDOT and VRSUMA: one cell per segment, output through entry fx (R150). -/
def reduceOp (s : State) (k : BitVec 4) (d a : RegNo) (b : Option RegNo) (raw : Bool) (t : BitVec 3)
    (f : State → Nat → FVal × W64) : Result :=
  xInstr s k true (a :: b.toList) [d] fun s =>
    let fx := s.me.xEntry
    withTable s false .plain [(fx.1, 15)] fun s =>
      let e := (s.me.entry fx.1).bits
      let o := settleOut e (fun f => decide (f ≠ .sp8 ∧ f ≠ .xa64)) .fp32
      let anc := entryAnc e
      let seg := s.me.segLog
      let w := (srcType t).width
      let wo := o.1.fo.width
      let res := (List.range (2 ^ seg.1)).map fun g =>
        let c := sumCell anc (Acc.empty, 0) ((s.me.segment w seg.1 g).map (f s))
        let c := match raw, b with
          | true, some b =>
            if g < 32 then sumCell anc c [(valueOfInt (sintOf 128 (velem (s.vreg b) 16 g)) (anc - 96), 0)] else c
          | _, _ => c
        let r := outputCell o.1 128 (anc - 96) c.1
        (r.1, r.2 ||| c.2)
      s.vecResult d (writeFirst (s.vreg d) wo ((res.take (512 / wo)).map Prod.fst), res.foldl (fun z p => z ||| p.2) 0)
        (fx.2 || o.2 || seg.2 || s.me.vl.2 || decide (512 / wo < 2 ^ seg.1))

/-- Element `i` of register `a` as a value of the source type. -/
def srcValue (s : State) (t : BitVec 3) (a : RegNo) (i : Nat) : FVal :=
  fmtValue (srcType t) (velem (s.vreg a) (srcType t).width i)

def execVrsum (d a : RegNo) (t : BitVec 3) (k : BitVec 4) (s : State) : Result :=
  reduceOp s k d a none false t fun s i => (srcValue s t a i, 0)
def execVrssq (d a : RegNo) (t : BitVec 3) (k : BitVec 4) (s : State) : Result :=
  reduceOp s k d a none false t fun s i => mulVal (srcValue s t a i) (srcValue s t a i)
def execVrdot (d a b : RegNo) (t : BitVec 3) (k : BitVec 4) (s : State) : Result :=
  reduceOp s k d a (some b) false t fun s i => mulVal (srcValue s t a i) (srcValue s t b i)
def execVrsuma (d a b : RegNo) (t : BitVec 3) (k : BitVec 4) (s : State) : Result :=
  reduceOp s k d a (some b) true t fun s i => (srcValue s t a i, 0)

/-- The prefix cells of a segment in rising order of element, inclusive or exclusive. -/
def prefixCells (anc : Int) (incl : Bool) (vals : List (Nat × FVal)) : List (Nat × Acc × W64) :=
  (vals.foldl (fun acc v =>
    let next := sumCell anc acc.1 [(v.2, 0)]
    (next, acc.2 ++ [(v.1, if incl then next else acc.1)])) ((Acc.empty, (0 : W64)), [])).2

/-- VSCAN and VSCNX (R151): the output format is the source type. FO is settled as in the reductions, for WARN alone (R117,
assumption log 13). -/
def scanOp (s : State) (k : BitVec 4) (d a : RegNo) (t : BitVec 3) (incl : Bool) : Result :=
  xInstr s k true [a] [d] fun s =>
    let fx := s.me.xEntry
    withTable s false .plain [(fx.1, 15)] fun s =>
      let e := (s.me.entry fx.1).bits
      let o0 := settleOut e (fun f => decide (f ≠ .sp8 ∧ f ≠ .xa64)) .fp32
      let o := { o0.1 with fo := srcType t }
      let anc := entryAnc e
      let seg := s.me.segLog
      let w := (srcType t).width
      let outs := (List.range (2 ^ seg.1)).flatMap fun g =>
        (prefixCells anc incl ((s.me.segment w seg.1 g).map fun i => (i, srcValue s t a i))).map fun p =>
          let r := outputCell o 128 (anc - 96) p.2.1
          (p.1, r.1, r.2 ||| p.2.2)
      let v := packElems w ((List.range (velems w)).map fun i =>
        match outs.find? (fun p => decide (p.1 = i)) with
        | some p => p.2.1
        | none => velem (s.vreg d) w i)
      s.vecResult d (v, outs.foldl (fun z p => z ||| p.2.2) 0) (fx.2 || o0.2 || seg.2 || s.me.vl.2)

def execVscan (d a : RegNo) (t : BitVec 3) (k : BitVec 4) (s : State) : Result := scanOp s k d a t true
def execVscnx (d a : RegNo) (t : BitVec 3) (k : BitVec 4) (s : State) : Result := scanOp s k d a t false

/-- The greatest or least code of a list, with NV for signalling NaNs (R152). -/
def extreme (ty : Fmt) (less : Bool) (codes : List Nat) : Option Nat × W64 :=
  let nv : W64 := if codes.any fun c => (fmtValue ty c).isSnan then fNV else 0
  if codes.any fun c => (fmtValue ty c).isNan then (some (canonicalNan ty), nv)
  else
    (codes.foldl (fun best c =>
      match best with
      | none => some c
      | some b =>
        let better := if less then totalLt (fmtValue ty c) (fmtValue ty b) else totalLt (fmtValue ty b) (fmtValue ty c)
        if better then some c else some b) none, nv)

def extremeOp (s : State) (k : BitVec 4) (d a : RegNo) (t : BitVec 3) (less : Bool) : Result :=
  xInstr s k true [a] [d] fun s =>
    let ty := srcType t
    let seg := s.me.segLog
    let res := (List.range (2 ^ seg.1)).map fun g =>
      extreme ty less ((s.me.segment ty.width seg.1 g).map fun i => velem (s.vreg a) ty.width i)
    let l := (List.range (velems ty.width)).map fun i =>
      match res[i]? with
      | some (some c, _) => c
      | _ => velem (s.vreg d) ty.width i
    s.vecResult d (packElems ty.width l, res.foldl (fun z p => z ||| p.2) 0) (seg.2 || s.me.vl.2)

def execVrmax (d a : RegNo) (t : BitVec 3) (k : BitVec 4) (s : State) : Result := extremeOp s k d a t false
def execVrmin (d a : RegNo) (t : BitVec 3) (k : BitVec 4) (s : State) : Result := extremeOp s k d a t true

/-! ## Captures and scale derivation (R121, R122, R153) -/

/-- A magnitude as FP32, rounding up where it is not exact. -/
def magnitude32 (v : FVal) : Nat := (roundFloat .fp32 .rup (if v.sign then v.neg else v)).1

def execVamax (a : RegNo) (t : BitVec 3) (k : BitVec 4) (s : State) : Result :=
  xInstr s k true [a] [] fun s =>
    let fx := s.me.xEntry
    let w := (srcType t).width
    let vals := (s.me.segment w 0 0).map (srcValue s t a)
    let nums := vals.filter fun v => !v.isNan
    let fl : W64 := if vals.any FVal.isNan then fNV else 0
    let warn := fx.2 || s.me.vl.2
    if nums.isEmpty then .done ((s.orStatus s.here .x fl).warnIf warn)
    else
      withTable s false .plain [(fx.1, 15)] fun s =>
      withTable s true .capture [(fx.1, entryHd (s.me.entry fx.1).bits)] fun s =>
        let m := nums.foldl (fun z v => max z (magnitude32 v)) 0
        .done (((s.modMe fun x => x.setEntry fx.1 ((x.entry fx.1).capture m)).orStatus s.here .x fl).warnIf warn)

def execVdscale (k : BitVec 4) (s : State) : Result :=
  xInstr s k false [] [] fun s =>
    let fx := s.me.xEntry
    withTable s false .plain ((List.range 12).map fun y => (fx.1, y)) fun s =>
      let hd := (entryHd (s.me.entry fx.1).bits + 1) % 12
      withTable s true .plain [(fx.1, hd), (fx.1, 15)] fun s =>
        let e := s.me.entry fx.1
        let fo := settleFmt (entryField e.bits 44 4) (fun _ => true) .fp32
        let r := deriveScale e fo.1
        .done (((s.modMe fun x => x.setEntry fx.1 r.1).orStatus s.here .x (if r.2 then fOF else 0)).warnIf (fx.2 || fo.2))

end Sys2Proof.Machine
end

