-- ==== Sys2Proof/Machine/Matrix.lean ====
section
/-! DEFINITION. The matrix engine: operands, acceptance, start and effect row by row, completion, and the row reads of the
execute stream (R278 to R301). -/

namespace Sys2Proof.Machine
open Sys2Proof

/-! ## Tiles (R278, R292) -/

def Shuttle.tile (x : Shuttle) (t : BitVec 2) : Tile := x.tiles[t.toNat]'t.isLt
def Shuttle.setTile (x : Shuttle) (t : BitVec 2) (v : Tile) : Shuttle := { x with tiles := x.tiles.set t.toNat v t.isLt }
def Tile.row (t : Tile) (r : BitVec 6) : TileRow := t.rows[r.toNat]'r.isLt
def Tile.setRow (t : Tile) (r : BitVec 6) (v : TileRow) : Tile := { t with rows := t.rows.set r.toNat v r.isLt }
def TileRow.cell (r : TileRow) (j : Nat) : XCell := if h : j < 64 then r.cells[j]'h else XCell.empty
def TileRow.setCell (r : TileRow) (j : Nat) (v : XCell) : TileRow :=
  if h : j < 64 then { r with cells := r.cells.set j v h } else r

def XCell.acc (c : XCell) : Acc := { c := c.c.toInt, nan := c.nan, pinf := c.pinf, ninf := c.ninf }
def xcellOf (a : Acc) : XCell := { c := BitVec.ofInt 136 a.c, nan := a.nan, pinf := a.pinf, ninf := a.ninf }

/-- Weight of a cell's lowest bit, as a power of two (R110). -/
def TileRow.lsb (r : TileRow) : Int := r.anchor - 96

/-- A contribution to cell `j` of a row. -/
def TileRow.add (r : TileRow) (j : Nat) (v : FVal) (bad : W64) : TileRow × W64 :=
  let u := contribute 136 r.lsb (r.cell j).acc v bad
  (r.setCell j (xcellOf u.1), u.2)

/-- Contributions to cells of a row, in order. -/
def TileRow.addAll (r : TileRow) (l : List (Nat × FVal × W64)) : TileRow × W64 :=
  l.foldl (fun acc c => let u := acc.1.add c.1 c.2.1 c.2.2; (u.1, acc.2 ||| u.2)) (r, 0)

/-- eval of a tile row (R279). -/
def tileEval (t r : Nat) : W64 := BitVec.ofNat 64 (0xF400000000000000 + 64 * t + r)

/-! ## Pocket operands (R283) -/

/-- `outer` runs of `inner` bytes, `q` apart. -/
structure MOperand where
  p : W64
  q : Nat
  outer : Nat
  inner : Nat
  deriving DecidableEq, Repr

/-- Addresses of the cells of run `i`. -/
def MOperand.runCells (o : MOperand) (i : Nat) : List Int :=
  (List.range ((o.inner + 7) / 8)).map fun k => o.p.toInt + (i * o.q : Nat) + 8 * (k : Int)

/-- The lowest byte that is no Pocket address of the Pocket of the first byte. -/
def State.operandOut (s : State) (n : ShNo) (o : MOperand) : Option Int :=
  match s.pocketAddr n o.p.toInt with
  | none => some o.p.toInt
  | some (own, _) =>
    let ok (a : Int) : Bool := match s.pocketAddr n a with
      | some (m, _) => decide (m = own)
      | none => false
    (List.range o.outer).findSome? fun i => (o.runCells i).find? fun a => !ok a

/-- Places of run `i`'s cells. -/
def State.runPlaces (s : State) (n : ShNo) (o : MOperand) (i : Nat) : List Nat :=
  (o.runCells i).filterMap (s.pocketAt n)

/-- The number in `w` bytes at an address. -/
def State.codeAt (s : State) (n : ShNo) (a : Int) (w : Nat) : Nat := leNat (memBytes s.mem ((s.pocketAt n a).getD 0) w)

/-! ## Format sources (R281, R282) -/

/-- Formats that each position takes. -/
def okAB (f : Fmt) : Bool := decide (f ∈ [Fmt.fp16, .bf16, .zf8, .int8, .sp8])
def okBias (f : Fmt) : Bool := decide (f ∈ [Fmt.fp32, .fp16, .bf16, .zf8, .int8, .int16, .int32])
def okOut (f : Fmt) : Bool := !decide (f ∈ [Fmt.sp8, .xa64, .xacc128, .rsv])

/-- The operand pairs of MMA. -/
def pairOk (a b : Fmt) : Bool :=
  let wide (f : Fmt) := decide (f = .fp16 ∨ f = .bf16)
  let byte (f : Fmt) := decide (f = .zf8 ∨ f = .int8)
  (wide a && wide b) || (byte a && byte b) || (decide (a = .sp8) && byte b) || (byte a && decide (b = .sp8))

/-- FA and FB of MMA, settled as a pair, and whether WARN is due. -/
def settlePair (e : BitVec 128) : Fmt × Fmt × Bool :=
  let a := settleFmt (entryField e 52 4) okAB .bf16
  let b := settleFmt (entryField e 48 4) okAB .bf16
  if pairOk a.1 b.1 then (a.1, b.1, a.2 || b.2) else (.bf16, .bf16, true)

/-- The code of a format. -/
def Fmt.code (f : Fmt) : Nat := ((List.range 16).find? fun c => decide (fmtOfCode c = f)).getD 15

/-- The entry, or the snapshot at an address, as it stands. -/
def State.source (s : State) (n : ShNo) (entry : Nat) (snap : Option W64) : BitVec 128 :=
  match snap with
  | none => ((s.shuttle n).entry entry).bits
  | some p => BitVec.ofNat 128 (s.codeAt n p.toInt 16)

/-! ## Acceptance (R280, R287) -/

/-- Matrix commands of a shuttle that hold a queue entry. -/
def State.queueHeld (s : State) (n : ShNo) : Nat := (s.mats.filter fun m => decide (m.job.sh = n)).length

/-- A Pocket operand's alignment: its address, then its stride. -/
def alignFault (o : MOperand) (al : Nat) : Option (BitVec 8 × W64) :=
  if o.p.toNat % al ≠ 0 then some (0x04, o.p) else if o.q % 8 ≠ 0 then some (0x04, BitVec.ofNat 64 o.q) else none

/-- What a command reads of its format source at acceptance. -/
structure FmtUse where
  entry : Nat
  snap : Option W64
  deriving DecidableEq, Repr

/-- The issue of a matrix command. `dim` is the failing dimension's reason; `use` the format source read at acceptance; `ops`
gives the operands, each with whether the command writes it, once the codes are known; `op` the command itself, with the
WARN of settling. -/
def issueMatrix (s : State) (h : Hdr) (steps : Nat) (dim : Option Nat) (use : Option FmtUse) (pre : List (MOperand × Nat))
    (settle : BitVec 128 → MatOp × List (MOperand × Bool) × Bool) : Eff :=
  if 16 ≤ s.queueHeld s.here then .wait .stream 0
  else
    issueJob s h.cc (semField h.wt) (semField h.sg) h.aq h.rl h.sc.toNat fun s j =>
      match dim with
      | some r => .trap 0x2B (BitVec.ofNat 64 r)
      | none =>
        match pre.findSome? fun p => alignFault p.1 p.2 with
        | some (c, v) => .trap c v
        | none =>
          let snapOut := (use.bind FmtUse.snap).bind fun p => s.operandOut s.here { p := p, q := 0, outer := 1, inner := 16 }
          match snapOut with
          | some a => .trap 0x05 (evalOf a)
          | none =>
            let body (s : State) : Eff :=
              let j := j.seen s
              let src := match use with
                | some u => s.source s.here u.entry u.snap
                | none => 0
              let r := settle src
              match r.2.1.findSome? fun o => s.operandOut s.here o.1 with
              | some a => .trap 0x05 (evalOf a)
              | none =>
                let race := r.2.1.findSome? fun o => (List.range o.1.outer).findSome? fun i =>
                  (findRace j.know (j.access o.2 .plain) s.tags ((s.runPlaces s.here o.1 i).map cellOf)).map (placeEa s.here)
                let reads := (r.2.1.filter fun o => !o.2).flatMap fun o =>
                  (List.range o.1.outer).flatMap fun i => s.runPlaces s.here o.1 i
                let snap := match use.bind FmtUse.snap with
                  | some p => [p.toInt, p.toInt + 8].filterMap (s.pocketAt s.here)
                  | none => []
                let mismatch := if j.aq then s.readMismatch j (reads ++ snap) [] else none
                match (if j.wt.isNone then race else none), mismatch with
                | some v, _ => .trap 0x20 v
                | none, some v => .trap 0x22 v
                | none, none =>
                  let j1 := { j with flags := if r.2.2 then warnBit else 0 }
                  .command { s.raiseCount j with mats := s.mats ++ [{ job := j1, op := r.1, src := src, row := 0 }] } steps j.id
            match use with
            | some { entry := e, snap := none } => withTable s false .plain [(e, 15)] body
            | some { entry := _, snap := some p } =>
              withCells s false .plain s.ownExt [p.toInt, p.toInt + 8] body
            | none => body s

/-- idx of a command that names base `fx` and level `lv` (R281). -/
def State.matEntry (s : State) (fx : BitVec 6) (lv : BitVec 3) : Nat := entryIndex fx.toNat lv.toNat s.me.c.loops

/-- The format source of a command that may name a snapshot. -/
def State.fmtUse (s : State) (fx : BitVec 6) (lv : BitVec 3) (snp : Bool) (sn : RegNo) : FmtUse :=
  { entry := s.matEntry fx lv, snap := if snp then some (s.sreg sn) else none }

/-- A snapshot's place among the operands whose alignment is checked. -/
def FmtUse.operand (u : FmtUse) : List (MOperand × Nat) :=
  match u.snap with
  | some p => [({ p := p, q := 0, outer := 1, inner := 16 }, 16)]
  | none => []

def execMzero (h : Hdr) (tm : BitVec 4) (anc : BitVec 8) (as : Bool) (fx : BitVec 6) (lv : BitVec 3) (s : State) : Result :=
  runC s (issueMatrix s h 1 none none [] fun _ =>
    (.zero tm (if as then none else some anc.toInt) (s.matEntry fx lv), [], false))

/-- Row and column counts of s[sd]. -/
def dimM (d : W64) : Nat := bitsOf d 16 7
def dimN (d : W64) : Nat := bitsOf d 24 7
def badDim (n : Nat) : Bool := decide (n = 0) || decide (64 < n)

def execMma (h : Hdr) (t : BitVec 2) (fx : BitVec 6) (lv : BitVec 3) (snp ta tb _mca _mcb : Bool) (tri : BitVec 2)
    (sn sd ss sb sa : RegNo) (s : State) : Result :=
  let d := s.sreg sd
  let k := bitsOf d 0 16
  let m := dimM d
  let n := dimN d
  let qa := bitsOf (s.sreg ss) 0 32
  let qb := bitsOf (s.sreg ss) 32 32
  let u := s.fmtUse fx lv snp sn
  let opA (w : Nat) : MOperand :=
    { p := s.sreg sa, q := qa, outer := if ta then k else m, inner := (if ta then m else k) * w }
  let opB (w : Nat) : MOperand :=
    { p := s.sreg sb, q := qb, outer := if tb then n else k, inner := (if tb then k else n) * w }
  runC s (issueMatrix s h 2 (if k = 0 then some 1 else if badDim m || badDim n then some 2 else none) (some u)
    ([(opA 1, 8), (opB 1, 8)] ++ u.operand) fun e =>
      let f := settlePair e
      (.mma t.toNat { entry := u.entry, snap := u.snap, fa := f.1.code, fb := f.2.1.code, fo := 0 } ta tb tri.toNat
        (s.sreg sa) (s.sreg sb) qa qb k m n, [(opA f.1.width, false), (opB f.2.1.width, false)], f.2.2))

def execMbias (h : Hdr) (t : BitVec 2) (fx : BitVec 6) (lv : BitVec 3) (snp : Bool) (sn sd sa : RegNo) (s : State) : Result :=
  let d := s.sreg sd
  let m := dimM d
  let n := dimN d
  let u := s.fmtUse fx lv snp sn
  let op (w : Nat) : MOperand := { p := s.sreg sa, q := 0, outer := 1, inner := n * w }
  runC s (issueMatrix s h 2 (if badDim m || badDim n then some 2 else none) (some u) ([(op 1, 8)] ++ u.operand) fun e =>
    let f := settleFmt (entryField e 48 4) okBias .fp32
    (.bias t.toNat { entry := u.entry, snap := u.snap, fa := 0, fb := f.1.code, fo := 0 } (s.sreg sa) m n,
      [(op f.1.width, false)], f.2))

def execMaddt (h : Hdr) (td ts : BitVec 2) (cs : Bool) (s : State) : Result :=
  runC s (issueMatrix s h 1 none none [] fun _ => (.addt td.toNat ts.toNat cs, [], false))

/-- The Pocket side of MOUT, MOUTR and MLDR, elements of `w` bytes. -/
def rowsOperand (p : W64) (q n nr : Nat) (tr : Bool) (w : Nat) : MOperand :=
  { p := p, q := q, outer := if tr then n else nr + 1, inner := (if tr then nr + 1 else n) * w }

def execMout (h : Hdr) (t : BitVec 2) (fx : BitVec 6) (lv : BitVec 3) (snp cap clr tr : Bool) (row0 nr : BitVec 6)
    (sn ss sa : RegNo) (s : State) : Result :=
  let q := bitsOf (s.sreg ss) 0 32
  let n := bitsOf (s.sreg ss) 32 7
  let u := s.fmtUse fx lv snp sn
  let op (w : Nat) := rowsOperand (s.sreg sa) q n nr.toNat tr w
  runC s (issueMatrix s h 2 (if badDim n then some 3 else none) (some u) (u.operand ++ [(op 1, 8)]) fun e =>
    let f := settleFmt (entryField e 44 4) okOut .fp32
    (.out t.toNat { entry := u.entry, snap := u.snap, fa := 0, fb := 0, fo := f.1.code } cap clr tr row0.toNat nr.toNat
      (s.sreg sa) q n, [(op f.1.width, true)], f.2))

def execMoutr (h : Hdr) (t : BitVec 2) (clr tr : Bool) (row0 nr : BitVec 6) (ss sa : RegNo) (s : State) : Result :=
  let q := bitsOf (s.sreg ss) 0 32
  let n := bitsOf (s.sreg ss) 32 7
  let op := rowsOperand (s.sreg sa) q n nr.toNat tr 16
  runC s (issueMatrix s h 2 (if badDim n then some 3 else none) none [(op, 8)] fun _ =>
    (.outRaw t.toNat clr tr row0.toNat nr.toNat (s.sreg sa) q n, [(op, true)], false))

def execMldr (h : Hdr) (t : BitVec 2) (tr : Bool) (row0 nr : BitVec 6) (ss sa : RegNo) (s : State) : Result :=
  let q := bitsOf (s.sreg ss) 0 32
  let n := bitsOf (s.sreg ss) 32 7
  let op := rowsOperand (s.sreg sa) q n nr.toNat tr 16
  runC s (issueMatrix s h 2 (if badDim n then some 3 else none) none [(op, 8)] fun _ =>
    (.loadRaw t.toNat tr row0.toNat nr.toNat (s.sreg sa) q n, [(op, false)], false))

def execMnop (h : Hdr) (s : State) : Result := runC s (issueMatrix s h 0 none none [] fun _ => (.nop, [], false))

def execMsnap (h : Hdr) (fx : BitVec 6) (lv : BitVec 3) (sa : RegNo) (s : State) : Result :=
  let op : MOperand := { p := s.sreg sa, q := 0, outer := 1, inner := 16 }
  runC s (issueMatrix s h 1 none none [(op, 16)] fun _ => (.snap (s.matEntry fx lv) (s.sreg sa), [(op, true)], false))

/-! ## Rows that a command works on (R285) -/

/-- The cells that a triangle takes (R293). -/
def triOk (tri i j : Nat) : Bool :=
  match tri with
  | 0 => true
  | 1 => decide (j ≤ i)
  | 2 => decide (j < i)
  | _ => decide (i ≤ j)

/-- A triangle takes some cell of row `i`, of `n` columns. -/
def triRow (tri n i : Nat) : Bool := (List.range n).any (triOk tri i)

/-- The tile rows that each row of a command reads, and those that it writes. -/
def MatOp.tiles : MatOp → List (List (Nat × Nat) × List (Nat × Nat))
  | .zero tm _ _ => ((List.range 4).filter fun t => tm.getLsbD t).flatMap fun t => (List.range 64).map fun r => ([], [(t, r)])
  | .mma t _ _ _ tri _ _ _ _ _ m n => (List.range m).map fun i => ([], if triRow tri n i then [(t, i)] else [])
  | .bias t _ _ m _ => (List.range m).map fun i => ([], [(t, i)])
  | .addt td ts clear => (List.range 64).map fun r => ([(ts, r)], (td, r) :: if clear then [(ts, r)] else [])
  | .out t _ _ clear _ row0 nr _ _ _ => outTiles t clear row0 nr
  | .outRaw t clear _ row0 nr _ _ _ => outTiles t clear row0 nr
  | .loadRaw t _ row0 nr _ _ _ => (List.range (nr + 1)).map fun i => ([], [(t, row0 + i)])
  | .nop => []
  | .snap _ _ => [([], [])]
where
  /-- Rows that are output, and emptied with CLR. -/
  outTiles (t : Nat) (clear : Bool) (row0 nr : Nat) : List (List (Nat × Nat) × List (Nat × Nat)) :=
    (List.range (nr + 1)).map fun i => ([(t, row0 + i)], if clear then [(t, row0 + i)] else [])

/-- The command has still to read or write row `r` of tile `t`, or to write it. -/
def MatJob.owes (m : MatJob) (t r : Nat) : Bool :=
  !m.job.ran && (m.op.tiles.drop m.row).any fun p => p.1.contains (t, r) || p.2.contains (t, r)
def MatJob.owesWrite (m : MatJob) (t r : Nat) : Bool := !m.job.ran && (m.op.tiles.drop m.row).any fun p => p.2.contains (t, r)

/-- A row's work in Pocket: the cells it reads and those it writes; and the work itself with its flags. -/
structure RowWork where
  reads : List Nat
  writes : List Nat
  run : State → State × W64

/-- A tile row changed, with flags. -/
def State.onRow (s : State) (n : ShNo) (t r : Nat) (f : TileRow → TileRow × W64) : State × W64 :=
  let x := s.shuttle n
  let tl := x.tile (BitVec.ofNat 2 t)
  let u := f (tl.row (BitVec.ofNat 6 r))
  (s.setShuttle n (x.setTile (BitVec.ofNat 2 t) (tl.setRow (BitVec.ofNat 6 r) u.1)), u.2)

def State.tileRow (s : State) (n : ShNo) (t r : Nat) : TileRow := ((s.shuttle n).tile (BitVec.ofNat 2 t)).row (BitVec.ofNat 6 r)

def zeroRow (n : ShNo) (t : Nat) (anc : Int) (r : Nat) : RowWork :=
  { reads := [], writes := [],
    run := fun s =>
      let u := s.onRow n t r fun _ => ({ cells := Vector.replicate 64 XCell.empty, anchor := anc }, 0)
      if r = 63 then
        (u.1.modShuttle n fun x =>
          x.setTile (BitVec.ofNat 2 t) { x.tile (BitVec.ofNat 2 t) with anchor := anc }, u.2)
      else u }

/-- Row `i` of a product: element addresses of R283. Its row of A is read with it; the columns of B that any row takes are read
with the first row that has a cell (assumption log 11). -/
def mmaRow (s : State) (n : ShNo) (t fa fb : Nat) (ta tb : Bool) (tri : Nat) (pa pb : W64) (qa qb k m nn i : Nat) : RowWork :=
  let f := fmtOfCode fa
  let g := fmtOfCode fb
  let atA (kk : Nat) : Int := pa.toInt + (if ta then kk * qa + i * f.width else i * qa + kk * f.width : Nat)
  let atB (kk j : Nat) : Int := pb.toInt + (if tb then j * qb + kk * g.width else kk * qb + j * g.width : Nat)
  let first := triRow tri nn i && !(List.range i).any (triRow tri nn)
  let columns := (List.range nn).filter fun j => (List.range m).any fun i => triOk tri i j
  let cellsA := if triRow tri nn i then (List.range k).filterMap fun kk => s.pocketAt n (atA kk) else []
  let cellsB := if first then columns.flatMap fun j => (List.range k).filterMap fun kk => s.pocketAt n (atB kk j) else []
  { reads := ((cellsA ++ cellsB).map cellOf).dedup, writes := [],
    run := fun s =>
      if !triRow tri nn i then (s, 0)
      else
        s.onRow n t i fun row =>
          row.addAll ((List.range nn).filter (triOk tri i) |>.flatMap fun j =>
            (List.range k).map fun kk =>
              let p := mulVal (fmtValue f (s.codeAt n (atA kk) f.width)) (fmtValue g (s.codeAt n (atB kk j) g.width))
              (j, p.1, p.2)) }

def biasRow (s : State) (n : ShNo) (t fb : Nat) (p : W64) (nn i : Nat) : RowWork :=
  let g := fmtOfCode fb
  let op : MOperand := { p := p, q := 0, outer := 1, inner := nn * g.width }
  { reads := if i = 0 then s.runPlaces n op 0 else [], writes := [],
    run := fun s => s.onRow n t i fun row =>
      row.addAll ((List.range nn).map fun j => (j, fmtValue g (s.codeAt n (p.toInt + (j * g.width : Nat)) g.width), 0)) }

/-- Empties the cells of a row, up to column `n`. -/
def TileRow.clear (row : TileRow) (n : Nat) : TileRow := (List.range n).foldl (fun row j => row.setCell j XCell.empty) row

def addtRow (n : ShNo) (td ts : Nat) (clear : Bool) (r : Nat) : RowWork :=
  { reads := [], writes := [],
    run := fun s =>
      let src := s.tileRow n ts r
      let xs := (List.range 64).map fun j =>
        let v := accValue src.lsb 128 (src.cell j).acc
        (j, v.1, v.2)
      let u := s.onRow n td r fun row => row.addAll xs
      if clear then ((u.1.onRow n ts r fun row => (row.clear 64, 0)).1, u.2) else u }

/-- Element addresses of a row that goes to Pocket. -/
def outAddr (p : W64) (q w : Nat) (tr : Bool) (i j : Nat) : Int :=
  p.toInt + (if tr then j * q + i * w else i * q + j * w : Nat)

/-- The magnitude that MOUT captures, and its flag (R296). -/
def captured (o : OutConv) (lsb : Int) (a : Acc) : Option Nat × W64 :=
  if a.nan || (a.pinf && a.ninf) then (none, fNV)
  else if a.pinf || a.ninf then (some 0x7F800000, 0)
  else
    let v := scaledValue o lsb (checkedResidue 128 a.c).1
    (some (magnitude32 v), 0)

/-- A row written to Pocket: `conv` gives each cell's bytes as a number. -/
def pocketRow (s : State) (n : ShNo) (t : Nat) (clear tr : Bool) (row0 i : Nat) (p : W64) (q nn w : Nat)
    (conv : TileRow → Nat → Nat × W64) (also : State → TileRow → State × W64) : RowWork :=
  let r := row0 + i
  let places := (List.range nn).map fun j => (s.pocketAt n (outAddr p q w tr i j)).getD 0
  { reads := [],
    writes := (places.flatMap fun pl => if w = 16 then [cellOf pl, cellOf pl + 8] else [cellOf pl]).dedup,
    run := fun s =>
      let row := s.tileRow n t r
      let out := (places.zip (List.range nn)).foldl (fun (acc : State × W64) x =>
        let c := conv row x.2
        (acc.1.putBytes x.1 (leBytes w c.1), acc.2 ||| c.2)) (s, 0)
      let u := also out.1 row
      (if clear then (u.1.onRow n t r fun row => (row.clear nn, 0)).1 else u.1, out.2 ||| u.2) }

/-- Raw output of a cell (R114). -/
def rawConv : OutConv := { fo := .xacc128, rm := .rne, sca := unitScale, scb := unitScale, osx := 0 }
def TileRow.raw (row : TileRow) (j : Nat) : Nat × W64 := outputCell rawConv 128 row.lsb (row.cell j).acc

def loadRow (s : State) (n : ShNo) (t : Nat) (tr : Bool) (row0 i : Nat) (p : W64) (q nn : Nat) : RowWork :=
  let addr (j : Nat) := outAddr p q 16 tr i j
  { reads := (List.range nn).flatMap fun j => [addr j, addr j + 8].filterMap (s.pocketAt n), writes := [],
    run := fun s => s.onRow n t (row0 + i) fun row =>
      ((List.range nn).foldl (fun row j =>
        row.setCell j { c := BitVec.ofInt 136 (sintOf 128 (s.codeAt n (addr j) 16)), nan := false, pinf := false,
                        ninf := false }) row, 0) }

/-! ## The run (R288, R289) -/

/-- What a command reads as it starts: the entries, and the cells of its snapshot (R281). -/
def MatOp.startSources (op : MatOp) (s : State) (n : ShNo) : List Nat × List Nat :=
  match op with
  | .zero _ none e => ([e], [])
  | .out _ f _ _ _ _ _ _ _ _ =>
    match f.snap with
    | some p => ([], [p.toInt, p.toInt + 8].filterMap (s.pocketAt n))
    | none => ([f.entry], [])
  | .snap e _ => ([e], [])
  | _ => ([], [])

/-- The entry or the snapshot as it stands. -/
def MatOp.format (op : MatOp) (s : State) (n : ShNo) : BitVec 128 :=
  match op with
  | .zero _ _ e => s.source n e none
  | .out _ f _ _ _ _ _ _ _ _ => s.source n f.entry f.snap
  | .snap e _ => s.source n e none
  | _ => 0

/-- Settling what the start reads sets WARN. -/
def MatOp.startWarn (op : MatOp) (e : BitVec 128) : Bool :=
  match op with
  | .out _ _ _ _ _ _ _ _ _ _ =>
    (settleRm (entryField e 40 3)).2 || (settleScale (entryField e 96 32)).2 || (settleScale (entryField e 64 32)).2
  | _ => false

/-- The entry whose ring the rows capture into. -/
def MatOp.captures : MatOp → Option Nat
  | .out _ f true _ _ _ _ _ _ _ => some f.entry
  | _ => none

/-- Captures of a row, one for each of its cells (R296). -/
def captureRow (n : ShNo) (entry : Nat) (o : OutConv) (nn : Nat) (s : State) (row : TileRow) : State × W64 :=
  (List.range nn).foldl (fun (acc : State × W64) j =>
    let z := captured o row.lsb (row.cell j).acc
    (match z.1 with
     | some m => acc.1.modShuttle n fun x => x.setEntry entry ((x.entry entry).capture m)
     | none => acc.1, acc.2 ||| z.2)) (s, 0)

/-- The rows of a command in order, `e` being what its start read. -/
def MatOp.rows (op : MatOp) (e : BitVec 128) (s : State) (n : ShNo) : List RowWork :=
  match op with
  | .zero tm anc _ =>
    ((List.range 4).filter fun t => tm.getLsbD t).flatMap fun t => (List.range 64).map (zeroRow n t (anc.getD (entryAnc e)))
  | .mma t f ta tb tri pa pb qa qb k m nn => (List.range m).map (mmaRow s n t f.fa f.fb ta tb tri pa pb qa qb k m nn)
  | .bias t f p m nn => (List.range m).map (biasRow s n t f.fb p nn)
  | .addt td ts clear => (List.range 64).map (addtRow n td ts clear)
  | .out t f cap clear tr row0 nr p q nn =>
    let o : OutConv := { (settleOut e okOut .fp32).1 with fo := fmtOfCode f.fo }
    (List.range (nr + 1)).map fun i =>
      pocketRow s n t clear tr row0 i p q nn o.fo.width (fun row j => outputCell o 128 row.lsb (row.cell j).acc)
        (if cap then captureRow n f.entry o nn else fun s _ => (s, 0))
  | .outRaw t clear tr row0 nr p q nn =>
    (List.range (nr + 1)).map fun i =>
      pocketRow s n t clear tr row0 i p q nn 16 (fun row j => row.raw j) fun s _ => (s, 0)
  | .loadRaw t tr row0 nr p q nn => (List.range (nr + 1)).map fun i => loadRow s n t tr row0 i p q nn
  | .nop => []
  | .snap _ p =>
    [{ reads := [], writes := [p.toInt, p.toInt + 8].filterMap (s.pocketAt n),
       run := fun s => (s.putBytes ((s.pocketAt n p.toInt).getD 0) (leBytes 16 e.toNat), 0) }]

/-- Tile rows are tagged by the issuing instruction: a row read waits for the command, and is not ordered by its completion
(R286). -/
def Job.tileAccess (j : Job) (write : Bool) : Access :=
  { agent := j.issuer, home := j.sh, epoch := j.epoch, write := write, kind := .plain, ext := .set [j.sh] }

/-- Races of an engine's access to some locations, each with its eval. -/
def State.racesAt (s : State) (k : Know) (a : Access) (locs : List (Nat × W64)) : List (BitVec 8 × W64) :=
  (locs.filter fun l => racesWith k a (tagOf s.tags l.1)).map fun l => ((0x20 : BitVec 8), l.2)

/-- Cells of Pockets, and rows of tiles, each with its eval. -/
def cellLocs (n : ShNo) (l : List Nat) : List (Nat × W64) := l.map fun p => (cellOf p, placeEa n (cellOf p))
def rowLocs (n : ShNo) (l : List (Nat × Nat)) : List (Nat × W64) := l.map fun p => (tileLoc n p.1 p.2, tileEval p.1 p.2)

/-- Locations with an uncorrectable error. -/
def State.brokenAt (s : State) (locs : List (Nat × W64)) : List (BitVec 8 × W64) :=
  (locs.filter fun l => s.bad.contains l.1).map fun l => ((0x2C : BitVec 8), l.2)

/-- What a capture touches: the current slot, and the entry, which it reads (R123, R296). -/
def State.captureLocs (s : State) (n : ShNo) (c : Option Nat) : List (Nat × W64) × List (Nat × W64) :=
  match c with
  | some e =>
    let hd := entryHd ((s.shuttle n).entry e).bits
    ([(ringLoc n e hd, entryEval e hd)], [(fmtLoc n e, entryEval e 15)])
  | none => ([], [])

/-- The fault of a row: cells and tile rows with an error, and races; the lowest address is reported (R289). -/
def rowFault (s : State) (j : Job) (capture : Option Nat) (tiles : List (Nat × Nat) × List (Nat × Nat)) (w : RowWork) :
    Option (BitVec 8 × W64) :=
  let c := s.captureLocs j.sh capture
  leastFault (s.brokenAt (cellLocs j.sh w.reads) ++ s.brokenAt (rowLocs j.sh (tiles.1 ++ tiles.2)) ++
    s.racesAt j.know (j.access false .plain) (cellLocs j.sh w.reads ++ c.2) ++
    s.racesAt j.know (j.access true .plain) (cellLocs j.sh w.writes) ++ s.racesAt j.know (j.access true .capture) c.1 ++
    s.racesAt j.know (j.tileAccess false) (rowLocs j.sh tiles.1) ++
    s.racesAt j.know (j.tileAccess true) (rowLocs j.sh tiles.2))

/-- The tags of a row that is done. -/
def noteRow (s : State) (j : Job) (capture : Option Nat) (tiles : List (Nat × Nat) × List (Nat × Nat)) (w : RowWork) : State :=
  let c := s.captureLocs j.sh capture
  ((((s.note (j.access false .plain) (w.reads.map cellOf ++ c.2.map Prod.fst)).note (j.access true .plain)
    (w.writes.map cellOf)).note (j.access true .capture) (c.1.map Prod.fst)).note (j.tileAccess false)
    ((rowLocs j.sh tiles.1).map Prod.fst)).note (j.tileAccess true) ((rowLocs j.sh tiles.2).map Prod.fst)

/-- Commands of the shuttle that were issued before it. -/
def State.earlierMats (s : State) (m : MatJob) : List MatJob :=
  s.mats.filter fun o => decide (o.job.sh = m.job.sh ∧ o.job.id < m.job.id)

/-- An earlier command has still to finish one of the tile rows (R285). -/
def State.rowHeld (s : State) (m : MatJob) (tiles : List (Nat × Nat) × List (Nat × Nat)) : Bool :=
  (s.earlierMats m).any fun o => (tiles.1 ++ tiles.2).any fun p => o.owes p.1 p.2

def State.putMat (s : State) (m : MatJob) : State :=
  { s with mats := s.mats.map fun o => if o.job.id = m.job.id then m else o }

/-- The rows of the command are over, with or without a fault. -/
def State.finishMat (s : State) (m : MatJob) (fault : Option (BitVec 8 × W64)) : State :=
  let s1 := match fault with
    | some f => s.jobFault m.job 2 f.1 f.2
    | none => s
  s1.putMat { m with job := { m.job with ran := true, failed := m.job.failed || fault.isSome } }

/-- The command does these rows of it, up to one that an earlier command holds or that faults. -/
def State.matRows (s : State) (m : MatJob) : List ((List (Nat × Nat) × List (Nat × Nat)) × RowWork) → State
  | [] => if m.op.tiles.length ≤ m.row then s.finishMat m none else s.putMat m
  | (t, w) :: ws =>
    if s.rowHeld m t then s.putMat m
    else
      match rowFault s m.job m.op.captures t w with
      | some f => s.finishMat m (some f)
      | none =>
        let r := w.run (noteRow s m.job m.op.captures t w)
        r.1.matRows { m with row := m.row + 1, job := { m.job with flags := m.job.flags ||| r.2 } } ws

/-- A started command goes on from its next row, for at most `n` rows. -/
def State.advanceMat (s : State) (m : MatJob) (n : Nat) : State :=
  s.inWindow m.job fun s => s.matRows m (((m.op.tiles.zip (m.op.rows m.src s m.job.sh)).drop m.row).take n)

/-- The start's reads of the format source: their fault, or their tags with what was read. -/
def State.matSource (s : State) (m : MatJob) : Except (BitVec 8 × W64) (State × MatJob) :=
  let j := m.job
  let src := m.op.startSources s j.sh
  let entries := src.1.map fun e => (fmtLoc j.sh e, entryEval e 15)
  let cells := cellLocs j.sh src.2
  match leastFault (s.racesAt j.know (j.access false .plain) (entries ++ cells) ++ s.brokenAt cells) with
  | some f => .error f
  | none =>
    let e := m.op.format s j.sh
    .ok (s.note (j.access false .plain) ((entries ++ cells).map Prod.fst),
      { m with src := e, job := { j with flags := j.flags ||| (if m.op.startWarn e then warnBit else 0) } })

/-- The oldest command that has not started starts, once it may; a started one goes on for at most
`n` rows. -/
def State.matRun (s : State) (m : MatJob) (n : Nat) : State :=
  if m.job.started then s.advanceMat m n
  else if (s.earlierMats m).any (fun o => !o.job.started) || !s.jobReady m.job then s
  else
    let r := s.startJob m.job 2
    let m1 := { m with job := r.2 }
    if m1.job.failed then r.1.finishMat m1 none
    else
      r.1.inWindow m1.job fun s =>
        match s.matSource m1 with
        | .error f => s.finishMat m1 (some f)
        | .ok (s1, m2) => (s1.putMat m2).matRows m2 ((m2.op.tiles.zip (m2.op.rows m2.src s1 m2.job.sh)).take n)

/-- The command of a job. -/
def State.matOf (s : State) (sh : ShNo) (id : Nat) : Option MatJob :=
  s.mats.find? fun m => decide (m.job.id = id ∧ m.job.sh = sh) && !m.job.ran

/-- The matrix engine takes up a command: it starts and does as many of its rows as it can (R285, R288). -/
def execMatrixCommandStart (sh : ShNo) (id : Nat) (s : State) : Result :=
  match s.matOf sh id with
  | none => .next s
  | some m => .next ((s.matRun m m.op.tiles.length).bump sh)

/-- One row of a command. -/
def State.matrixRow (s : State) (sh : ShNo) (id : Nat) : State :=
  match s.matOf sh id with
  | none => s
  | some m => (s.matRun m 1).bump sh

/-- What MNOP's release carries with rl: the writes of every command of the shuttle issued before it (R298). -/
def State.nopKnow (s : State) (j : Job) : Know :=
  (((s.shuttle j.sh).engDone[0]).filter fun d => decide (d.1 = j.issuer ∧ d.2.1 < j.epoch)).foldl
    (fun k d => knowJoin k d.2.2) j.know

/-- A command that has run completes; MNOP waits for every earlier command first (R298). -/
def execMatrixCommandComplete (sh : ShNo) (id : Nat) (s : State) : Result :=
  match s.mats.find? fun m => decide (m.job.id = id ∧ m.job.sh = sh) && m.job.ran with
  | none => .next s
  | some m =>
    if !s.mayComplete m.job || (decide (m.op = .nop) && !(s.earlierMats m).isEmpty) then .next s
    else
      let s1 : State := { s with mats := s.mats.filter fun o => decide (o.job.id ≠ id) }
      .next (s1.completeJob (if m.op = .nop ∧ m.job.rl then { m.job with know := s.nopKnow m.job } else m.job) 0)

/-! ## Row reads (R286, R300) -/

/-- A row read: it waits for every command ordered before it that has still to write the row, or that has still to read it when
the row read itself empties it. -/
def rowRead (s : State) (k : BitVec 4) (writes : List RegNo) (l : RegNo) (t : BitVec 2) (r : BitVec 6) (clear useFmt : Bool)
    (f : State → TileRow → State × W64 × Bool) : Result :=
  runT s k fun s =>
    let kv : Nat := if l.toNat ≤ 5 then (s.me.x.loops.level l.toNat).k.toNat else 0
    let row := (r.toNat + kv) % 64
    let know := s.mySeq.know
    if s.mats.any fun m => decide (m.job.sh = s.here) && knows know m.job.issuer m.job.epoch &&
        (m.owesWrite t.toNat row || (clear && m.owes t.toNat row)) then .wait .other 0
    else
      withVregs s [] writes fun s =>
        let body (s : State) : Eff :=
          if s.bad.contains (tileLoc s.here t.toNat row) then .trap 0x2C (tileEval t.toNat row)
          else
            withTag s (tileLoc s.here t.toNat row) (tileEval t.toNat row) clear .plain (.set [s.here]) fun s =>
              let u := f s (s.tileRow s.here t.toNat row)
              let s1 := if clear then (u.1.onRow s.here t.toNat row fun x => (x.clear 64, 0)).1 else u.1
              .done ((s1.orStatus s.here .x u.2.1).warnIf u.2.2)
        if useFmt then withTable s false .plain [(s.me.xEntry.1, 15)] body else body s

/-- A row converted into v[d]. -/
def convertRow (d : RegNo) (s : State) (row : TileRow) : State × W64 × Bool :=
  let fx := s.me.xEntry
  let o := settleOut (s.me.entry fx.1).bits okOut .fp32
  let w := o.1.fo.width
  let res := (List.range 64).map fun j => outputCell o.1 128 row.lsb (row.cell j).acc
  let old := s.vreg d
  let v := packElems w ((List.range (velems w)).map fun i =>
    match res[i]? with
    | some c => c.1
    | none => velem old w i)
  (s.setVreg d v, res.foldl (fun z c => z ||| c.2) 0, o.2 || fx.2)

def execMrd (v l : RegNo) (t : BitVec 2) (r : BitVec 6) (k : BitVec 4) (s : State) : Result :=
  rowRead s k [v] l t r false true (convertRow v)
def execMrdc (v l : RegNo) (t : BitVec 2) (r : BitVec 6) (k : BitVec 4) (s : State) : Result :=
  rowRead s k [v] l t r true true (convertRow v)
def execMrdr (v l : RegNo) (t : BitVec 2) (r : BitVec 6) (k : BitVec 4) (s : State) : Result :=
  rowRead s k [v, v + 1] l t r false false fun s row =>
    let raws := (List.range 64).map row.raw
    let half (lo : Nat) : VReg := packElems 16 (((raws.drop lo).take 32).map Prod.fst)
    ((s.setVreg v (half 0)).setVreg (v + 1) (half 32), raws.foldl (fun z c => z ||| c.2) 0, false)

end Sys2Proof.Machine
end

