-- ==== Sys2Proof/Machine/RangeCmd.lean ====
section
/-! DEFINITION. Commands on ranges: invalidation, split, merge, the Press, residency replies and generations (R216, R219 to
R227). -/

namespace Sys2Proof.Machine
open Sys2Proof

/-! ## Residency maps (R217) -/

/-- Bits `0 ..` of map `m` written; bits beyond them stay. -/
def State.putMapBits (s : State) (m : Nat) (bits : List Bool) : State :=
  let old := memBytes s.mem (s.rmBase + 64 * m) ((bits.length + 7) / 8)
  s.putBytes (s.rmBase + 64 * m) ((List.range old.length).map fun i =>
    BitVec.ofNat 8 (((List.range 8).filter fun k =>
      bits.getD (8 * i + k) ((old.getD i 0).getLsbD k)).foldl (fun a k => a + 2 ^ k) 0))

/-! ## Descriptors changed by hardware (R222 to R225) -/

def setBits (w : W64) (lo n v : Nat) : W64 :=
  BitVec.ofNat 64 (w.toNat - bitsOf w lo n * 2 ^ lo + v % 2 ^ n * 2 ^ lo)

def Desc.setVb (d : Desc) (v : Nat) : Desc := { d with d0 := setBits d.d0 0 40 v }
def Desc.setGen (d : Desc) (v : Nat) : Desc := { d with d0 := setBits d.d0 48 16 v }
def Desc.setLen (d : Desc) (v : Nat) : Desc := { d with d1 := setBits d.d1 32 32 v }
def Desc.setPrs (d : Desc) (v : Nat) : Desc := { d with d1 := setBits d.d1 11 1 v }
def Desc.setFull (d : Desc) (v : Nat) : Desc := { d with d1 := setBits d.d1 10 1 v }
def Desc.setV (d : Desc) (v : Nat) : Desc := { d with d1 := setBits d.d1 0 1 v }
def Desc.setPb (d : Desc) (v : Nat) : Desc := { d with d2 := setBits d.d2 0 40 v }
def Desc.setRmi (d : Desc) (v : Nat) : Desc := { d with d3 := setBits d.d3 0 32 v }

/-! ## Why operands are unfit (R227) -/

/-- The hole or descriptor error of an entry. -/
def State.unfit (s : State) (d : Desc) : Bool := !d.v || s.descError d

/-- The reason that a range command is refused, the lowest number first. Reasons 2 to 8 are of commands that act on a descriptor;
RINVX invalidates what entry `x` covered in translations still held, whatever it is now (R220; assumption log 65). -/
def State.rangeReason (s : State) (fn x y : Nat) : Option Nat :=
  let n := s.rtCount
  let d := s.desc x
  let e := s.desc (x + 1)
  match fn with
  | 2 => if n ≤ x then some 1 else none
  | 7 => if n ≤ x then some 1 else none
  | 8 => if n ≤ x then some 1 else if s.unfit d then some 2 else none
  | 4 =>
    if n ≤ x + 1 then some 1
    else if s.unfit d then some 2
    else if e.v then some 3
    else if y % 2 ^ 21 ≠ 0 ∨ y = 0 ∨ d.len * 2 ^ 16 ≤ y then some 4
    else if d.prs then some 6 else none
  | 5 =>
    if n ≤ x + 1 then some 1
    else if s.unfit d ∨ s.unfit e then some 2
    else if d.stop ≠ e.key ∨ e.pb ≠ d.pb + d.len ∨ d.len % 32 ≠ 0 ∨ bitsOf d.d1 0 4 ≠ bitsOf e.d1 0 4 ∨
        d.diff ≠ e.diff ∨ d.anc ≠ e.anc ∨ d.dfmt ≠ e.dfmt ∨ d.shix ≠ e.shix then some 5
    else if d.prs ∨ e.prs then some 6 else none
  | 6 =>
    let len := d.len * 2 ^ 16
    let old := d.pb * 2 ^ 16
    if n ≤ x then some 1
    else if s.unfit d then some 2
    else if d.prs then some 6
    else if !d.full && !(List.range d.chunks).all (s.mapBit d.rmi) then some 7
    else if y % 2 ^ 16 ≠ 0 ∨ Config.hbmBytes < y + len ∨ (old ≤ y ∧ y < old + len) then some 8 else none
  | _ => none

/-- eval of cause 0x1E. -/
def reasonEval (x reason : Nat) : W64 := BitVec.ofNat 64 (x % 2 ^ 20 * 2 ^ 32 + reason)

/-! ## The effects -/

/-- A split of entry `i` at offset `o`, the new range's map at index `m` (R222). -/
def State.splitRange (s : State) (i o m : Nat) : State :=
  let d := s.desc i
  let k := o / 2 ^ 16
  let g := d.gen + 1
  let upper := ((((d.setVb (d.vb + k)).setLen (d.len - k)).setPb (d.pb + k)).setRmi m).setGen g
  let bits := (List.range ((d.len - k + 31) / 32)).map fun c => s.mapBit d.rmi ((o + 2 ^ 21 - 1) / 2 ^ 21 + c)
  let s1 := (s.putDesc (i + 1) upper).putDesc i ((d.setLen k).setGen g)
  if d.full then s1 else s1.putMapBits m bits

/-- A merge of entries `i` and `i + 1`, the map at index `m` (R223). -/
def State.mergeRange (s : State) (i m : Nat) : State :=
  let d := s.desc i
  let e := s.desc (i + 1)
  let full := d.full && e.full
  let bits (r : Desc) : List Bool := (List.range r.chunks).map fun c => r.full || s.mapBit r.rmi c
  let merged := (((d.setLen (d.len + e.len)).setGen (d.gen + 1)).setFull (if full then 1 else 0)).setRmi m
  let s1 := (s.putDesc i merged).putDesc (i + 1) (e.setV 0)
  if full then s1 else s1.putMapBits m (bits d ++ bits e)

/-- The Press starts on entry `i` (R224). -/
def State.startPress (s : State) (job i base : Nat) : State :=
  let d := s.desc i
  { s.putDesc i (d.setPrs 1) with
    press := some { job := job, ix := i, base := base, len := d.len * 2 ^ 16, mark := 0, phase := .opening } }

/-- The Press's last write, in one: PB, PRS and GEN; what software has lengthened the range by is zero (R225). -/
def State.endPress (s : State) (p : Press) : State :=
  let d := s.desc p.ix
  let s1 := s.putBytes (p.base + p.len) (List.replicate (d.len * 2 ^ 16 - p.len) 0)
  { s1.putDesc p.ix (((d.setPb (p.base / 2 ^ 16)).setPrs 0).setGen (d.gen + 1)) with
    press := some { p with phase := .closing } }

/-! ## Invalidations (R220) -/

/-- Widened outwards to 64 KiB; a length of 0 means all. -/
def widen (lo n : Nat) : Nat × Nat :=
  if n = 0 then (0, 2 ^ 56) else (lo / 2 ^ 16 * 2 ^ 16, (lo + n + 2 ^ 16 - 1) / 2 ^ 16 * 2 ^ 16)

/-- The intervals that a range command invalidates, the table being as before its effect. -/
def RangeJob.intervals (r : RangeJob) (s : State) : List (Nat × Nat) :=
  let x := r.x.toNat
  let d := s.desc x
  match r.fn with
  | 1 => [widen (x % 2 ^ 56) r.y.toNat]
  | 2 =>
    (if d.v then [(d.key, d.stop)] else []) ++
      (s.rlts.filter fun e => decide (e.ix = x)).map fun e => (e.d.key, e.d.stop)
  | 3 => [(0, 2 ^ 56)]
  | 5 => [(d.key, (s.desc (x + 1)).stop)]
  | _ => [(d.key, d.stop)]

/-- An address lies in one of the intervals. -/
def inSome (ivs : List (Nat × Nat)) (va : Nat) : Bool := ivs.any fun iv => decide (iv.1 ≤ va ∧ va < iv.2)

/-- Every access to the intervals that was translated before invalidation `num` started is performed, and has its reply where it
is to another package (R220). -/
def State.invalidated (s : State) (num : Nat) (ivs : List (Nat × Nat)) : Bool :=
  (s.msgs.all fun m =>
    decide (num ≤ m.born) ||
    match m.target with
    | .cell _ => true
    | .global va => !inSome ivs va
    | .away _ _ => !inSome ivs (eaLow m.ea)) &&
  s.sent.all fun m => decide (num ≤ m.born) || m.reply.isSome || !(decide (eaLevel m.ea = 3) && inSome ivs (eaLow m.ea))

/-- The invalidation completes: no lookaside table keeps a translation of the intervals filled before it started, and an MSI is
sent. -/
def State.endInvalidation (s : State) (num : Nat) (ivs : List (Nat × Nat)) : State :=
  let meets (e : RltEntry) : Bool := ivs.any fun iv => decide (iv.1 < e.d.stop ∧ e.d.key < iv.2)
  ({ s with rlts := s.rlts.filter fun e => decide (num ≤ e.born) || !meets e, stamp := s.stamp + 1 } : State).rangeMsi

/-- A command's invalidation of the intervals starts. -/
def State.startInvalidation (s : State) (r : RangeJob) (ivs : List (Nat × Nat)) : State × RangeJob :=
  ({ s with invals := s.invals + 1 }, { r with inv := some (s.invals + 1), ivs := ivs })

/-! ## Commands (R226, R227) -/

/-- Commands that write the table. -/
def onTable (fn : Nat) : Bool := decide (fn = 4 ∨ fn = 5 ∨ fn = 6 ∨ fn = 8)

def State.rangeJobOf (s : State) (sh : ShNo) (id : Nat) : Option RangeJob :=
  s.rangeJobs.find? fun r => decide (r.job.id = id ∧ r.job.sh = sh)

def State.putRangeJob (s : State) (r : RangeJob) : State :=
  { s with rangeJobs := s.rangeJobs.map fun o => if o.job.id = r.job.id then r else o }

/-- The effect of a command that has passed its waits. -/
def State.runRange (s : State) (r : RangeJob) : State :=
  let j := r.job
  let x := r.x.toNat
  match s.rangeReason r.fn x r.y.toNat with
  | some n => (s.jobFault j 3 0x1E (reasonEval x n)).putRangeJob { r with job := { j with ran := true, failed := true } }
  | none =>
    let ran : RangeJob := { r with job := { j with ran := true } }
    let invalidating (s1 : State) (r : RangeJob) : State :=
      let t := s1.startInvalidation r (r.intervals s)
      t.1.putRangeJob t.2
    match r.fn with
    | 4 => invalidating (s.splitRange x r.y.toNat (bitsOf r.z 0 32)) ran
    | 5 => invalidating (s.mergeRange x (bitsOf r.y 0 32)) ran
    | 6 => invalidating (s.startPress j.id x r.y.toNat) r
    | 7 => (s.replyChunk x r.y.toNat (r.z.getLsbD 0)).putRangeJob ran
    | 8 => (s.advanceGen x).putRangeJob ran
    | _ => invalidating s ran

/-- The command leaves and completes. -/
def State.endRange (s : State) (r : RangeJob) : State :=
  { s with rangeJobs := s.rangeJobs.filter fun o => decide (o.job.id ≠ r.job.id) }.completeJob r.job 3

/-- A command that has nothing left but its completion, its invalidation being complete, makes it; one that has not started
starts once its semaphore, the order of tasks and earlier commands on the table allow. -/
def execRangeCommandRun (sh : ShNo) (id : Nat) (s : State) : Result :=
  match s.rangeJobOf sh id with
  | none => .next s
  | some r =>
    if r.job.started then
      if r.job.ran && r.inv.isNone && s.mayComplete r.job then .next (s.endRange r) else .next s
    else if !s.jobReady r.job || !s.mayPerform r.job.task ||
        (onTable r.fn && s.rangeJobs.any fun o => o.job.started && onTable o.fn) then .next s
    else
      let t := s.startJob r.job 3
      let r1 := { r with job := t.2 }
      if r1.job.failed then .next ((t.1.putRangeJob { r1 with job := { r1.job with ran := true } }).bump sh)
      else .next (((t.1.putRangeJob r1).runRange r1).bump sh)

/-- One 4 KiB block is copied and the watermark passes it; at the range's length the Press makes its last write, and its second
invalidation starts. Bytes of another package are asked for first, again where it refuses them; accesses to the block wait
meanwhile (R224). -/
def execPressBlockCopy (s : State) : Result :=
  match s.press with
  | none => .next s
  | some p =>
    if p.phase = .opening ∨ p.phase = .closing then .next s
    else if p.len ≤ p.mark then
      match s.rangeJobs.find? fun r => r.job.id = p.job with
      | none => .next { s.endPress p with press := none }
      | some r =>
        let t := (s.endPress p).startInvalidation { r with job := { r.job with ran := true } } (r.intervals s)
        .next ((t.1.putRangeJob t.2).bump r.job.sh)
    else
      let d := s.desc p.ix
      let copied (s : State) (bs : List Byte) : State :=
        { s.putBytes (p.base + p.mark) bs with
          press := some { p with mark := p.mark + 4096, phase := .copying }, stamp := s.stamp + 1 }
      match s.reach (d.pb * 2 ^ 16 + p.mark) (d.key + p.mark) with
      | .ok pa => .next (copied s (memBytes s.mem pa 4096))
      | .error (.remote k pa) =>
        let ended : State := { s with sent := s.sent.filter fun m => decide (m.owner ≠ p.job) }
        let ask (s : State) : State :=
          ({ s with press := some { p with phase := .fetching } }).sendRemote p.job k pa (.read 4096) (globalEa (d.key + p.mark))
        match s.replyTo p.job k pa 4096 with
        | some (.ok bs) => .next (copied ended bs)
        | some (.error _) => .next (ask ended)
        | none =>
          -- what was sent to the block before is performed first
          let before := s.sent.any fun m =>
            decide (m.peer = k ∧ pa ≤ m.pa ∧ m.pa < pa + 4096 ∧ m.owner ≠ p.job) && m.reply.isNone
          if before || s.sent.any fun m => decide (m.owner = p.job) then .next s else .next (ask s)
      | .error _ => .next s

/-- The invalidation of a command completes, and the command with it; the first of the Press lets it copy. Name 0 is the
invalidation of RIVCTL. -/
def execInvalidationComplete (id : Nat) (s : State) : Result :=
  if id = 0 then
    match s.rivBusy with
    | none => .next s
    | some iv =>
      if s.invalidated iv.num [(iv.lo, iv.hi)] then
        .next ({ s with rivBusy := none }.endInvalidation iv.num [(iv.lo, iv.hi)])
      else .next s
  else
    match s.rangeJobs.find? fun r => r.job.id = id with
    | none => .next s
    | some r =>
      match r.inv with
      | none => .next s
      | some num =>
        if !s.invalidated num r.ivs then .next s
        else
          let s1 := s.endInvalidation num r.ivs
          if !r.job.ran then
            .next { s1.putRangeJob { r with inv := none } with
                    press := s.press.map fun p => if p.job = id ∧ p.phase = .opening then { p with phase := .copying } else p }
          else
            .next ({ s1.putRangeJob { r with inv := none } with
                     press := s.press.filter fun p => decide (p.job ≠ id) }.bump r.job.sh)

/-! ## Issue -/

/-- A range command issues without waiting but for its counter and scope. -/
def issueRange (s : State) (fn : Nat) (h : Hdr) (x y z : W64) : Result :=
  runC s (issueJob s h.cc (semField h.wt) (semField h.sg) h.aq h.rl h.sc.toNat fun s j =>
    .command { s.raiseCount j with rangeJobs := s.rangeJobs ++ [{ job := j, fn := fn, x := x, y := y, z := z, inv := none, ivs := [] }] } 1 j.id)

def execRinv (h : Hdr) (y x : RegNo) (s : State) : Result := issueRange s 1 h (s.sreg x) (s.sreg y) 0
def execRinvx (h : Hdr) (x : RegNo) (s : State) : Result := issueRange s 2 h (s.sreg x) 0 0
def execRinva (h : Hdr) (s : State) : Result := issueRange s 3 h 0 0 0
def execRsplit (h : Hdr) (z y x : RegNo) (s : State) : Result := issueRange s 4 h (s.sreg x) (s.sreg y) (s.sreg z)
def execRmerge (h : Hdr) (y x : RegNo) (s : State) : Result := issueRange s 5 h (s.sreg x) (s.sreg y) 0
def execRpress (h : Hdr) (y x : RegNo) (s : State) : Result := issueRange s 6 h (s.sreg x) (s.sreg y) 0
def execRres (h : Hdr) (z y x : RegNo) (s : State) : Result := issueRange s 7 h (s.sreg x) (s.sreg y) (s.sreg z)
def execRgena (h : Hdr) (x : RegNo) (s : State) : Result := issueRange s 8 h (s.sreg x) 0 0

/-! ## Registers of the range unit (R211, R216, R219, R220) -/

/-- A read of RREQ takes the oldest request; one that waits to enter then enters. -/
def execRreqRead (s : State) : Result :=
  match s.rreqs with
  | [] => .next s
  | _ :: rest =>
    match s.rreqWait with
    | [] => .next { s with rreqs := rest, stamp := s.stamp + 1 }
    | w :: ws => .next ({ s with rreqs := rest ++ [w], rreqWait := ws, stamp := s.stamp + 1 } : State).rangeMsi

/-- A residency reply. -/
def execRresume (v : W64) (s : State) : Result := .next (s.replyChunk (bitsOf v 32 20) (bitsOf v 0 32) (v.getLsbD 63))

/-- GEN of the entry named advances. -/
def execRgenreq (v : W64) (s : State) : Result :=
  if bitsOf v 0 20 < s.rtCount then .next { s.advanceGen (bitsOf v 0 20) with stamp := s.stamp + 1 } else .next s

/-- RIVCTL.GO. -/
def execRivctlGo (s : State) : Result :=
  if s.rivBusy.isSome then .next s
  else
    let iv := widen (bitsOf (s.devReg 0x18) 0 56) (s.devReg 0x20).toNat
    .next { s with rivBusy := some { num := s.invals + 1, lo := iv.1, hi := iv.2 }, invals := s.invals + 1, stamp := s.stamp + 1 }

end Sys2Proof.Machine
end

