-- ==== Sys2Proof/Machine/Queues.lean ====
section
/-! DEFINITION. User queues: control blocks, the Creel's memory accesses, slots with their priorities, and the order of
dispatch and of completion reports (R304 to R322, R329). -/

namespace Sys2Proof.Machine
open Sys2Proof

/-! ## Control blocks (R304) -/

/-- Physical address of the control block of a queue that the table names. -/
def State.cb (s : State) (q : Nat) : Option Nat :=
  let e := s.dword (s.qtBase + 8 * (q % 65536))
  if e.getLsbD 0 then some (bitsOf e 7 49 * 128) else none

def State.cbField (s : State) (q off lo n : Nat) : Nat :=
  match s.cb q with
  | some a => bitsOf (s.dword (a + off)) lo n
  | none => 0

/-- A field of the control block that the Creel writes. -/
def State.setCb (s : State) (q off lo n v : Nat) : State :=
  match s.cb q with
  | some a => s.putDword (a + off) (setBits (s.dword (a + off)) lo n v)
  | none => s

def State.qPend (s : State) (q : Nat) : Bool := decide (s.cbField q 0x28 0 1 = 1)
def State.qDead (s : State) (q : Nat) : Bool := decide (s.cbField q 0x28 2 1 = 1)
/-- The control block holds an uncorrectable error (assumption log 110). -/
def State.cbBad (s : State) (q : Nat) : Bool := (s.cb q).any fun a => s.badBytes a 128
/-- HALT; a queue whose control block cannot be read dispatches no more either. -/
def State.qHalt (s : State) (q : Nat) : Bool := decide (s.cbField q 0x28 3 1 = 1) || s.cbBad q
def State.qPre (s : State) (q : Nat) : Bool := decide (s.cbField q 0x28 4 1 = 1)
def State.qRun (s : State) (q : Nat) : Bool := decide (s.cbField q 0x08 16 1 = 1)
def State.qAge (s : State) (q : Nat) : Nat := s.cbField q 0x28 16 4
def State.qRing (s : State) (q : Nat) : Nat := s.cbField q 0x00 0 56
def State.qSize (s : State) (q : Nat) : Nat := 2 ^ s.cbField q 0x08 0 5

/-- The queue's interrupt. -/
def State.msiv (s : State) (q : Nat) : State := s.sendMsi (s.cbField q 0x08 32 16)

/-- A field marked zero is not, the ring is misaligned, LOG2N is out of range, or the block cannot be read. -/
def State.cbError (s : State) (q : Nat) : Bool :=
  s.cbBad q ||
  decide (s.cbField q 0x00 56 8 ≠ 0) || decide (s.qRing q % 4096 ≠ 0) || decide (s.cbField q 0x08 48 16 ≠ 0) ||
  decide (s.cbField q 0x08 17 15 ≠ 0) || decide (s.cbField q 0x08 11 5 ≠ 0) || decide (s.cbField q 0x08 5 3 ≠ 0) ||
  decide (s.cbField q 0x08 0 5 < 6) || decide (20 < s.cbField q 0x08 0 5) || decide (s.cbField q 0x30 0 64 ≠ 0) ||
  decide (s.cbField q 0x28 20 44 ≠ 0) || decide (s.cbField q 0x28 5 3 ≠ 0)

/-- HALT is set and MSIV is sent (R306). -/
def State.haltQueue (s : State) (q : Nat) : State := ((s.setCb q 0x28 3 1 1).msiv q)

/-! ## Queues -/

def State.queueOf (s : State) (q : Nat) : Option Queue := s.queues.find? fun x => x.q = q

/-- The records of the queues, each as its number finds it. -/
def State.records (s : State) : List Queue := s.queues.filterMap fun x => s.queueOf x.q

def State.modQueue (s : State) (q : Nat) (f : Queue → Queue) : State :=
  { s with queues := s.queues.map fun x => if x.q = q then f x else x, stamp := s.stamp + 1 }

def State.modPkt (s : State) (q id : Nat) (f : Pkt → Pkt) : State :=
  s.modQueue q fun x => { x with pkts := x.pkts.map fun p => if p.id = id then f p else p }

/-- A packet completes; its status is set once. -/
def State.setStatus (s : State) (q id n : Nat) : State :=
  s.modPkt q id fun p => if p.status.isSome then p else { p with status := some n }

/-! ## Accesses of the Creel (R318) -/

/-- What an access by the Creel comes to. -/
inductive CreelAcc where
  | ok (s : State) (bytes : List Byte)
  | fault
  | waits (s : State)

def State.creelHalt (s : State) (who va : Nat) (e : GFault) : CreelAcc :=
  match e with
  | .fault _ _ => .fault
  | .absent ix ch => if s.isDenied who ix ch then .fault else .waits (s.requestChunk who ix ch)
  | .pressed => .waits s
  | .remote p pa =>
    if s.sent.any fun m => decide (m.owner = who ∧ m.peer = p ∧ m.pa = pa) && readsAtLeast 1 m.op then .waits s
    else .waits (s.sendRemote who p pa (.read (64 - pa % 64)) (globalEa va))

/-- Reads `n` bytes at a virtual address. -/
def State.creelRead (s : State) (who va n : Nat) : CreelAcc :=
  match s.readGlobal none who va n with
  | .ok (bs, s1) => .ok s1 bs
  | .error e => s.creelHalt who va e

/-- Replies taken up by `who` are forgotten. -/
def State.dropReplies (s : State) (who : Nat) : State :=
  { s with sent := s.sent.filter fun m => decide (m.owner ≠ who ∨ m.reply.isNone) }

/-- The check of a write of `n` bytes: WR and residency. -/
def State.creelCheck (s : State) (who va n : Nat) : CreelAcc :=
  match s.writeFault va n with
  | none => .ok s []
  | some e => s.creelHalt who va e

/-- A write that has been checked. -/
def State.creelWrite (s : State) (who va : Nat) (bs : List Byte) : State := s.writeGlobal none who 0 va bs

end Sys2Proof.Machine

namespace Sys2Proof
open Sys2Proof.Machine

/-! ## Packets (R314, R315, R317) -/

def Packet.dw (p : Packet) (o : Nat) : W64 := BitVec.ofNat 64 (numAt p.bytes o 8)
def Packet.type (p : Packet) : Nat := bitsOf (p.dw 0) 0 8
def Packet.units (p : Packet) : Nat := bitsOf (p.dw 0) 8 2 + 1
def Packet.ser (p : Packet) : Bool := (p.dw 0).getLsbD 10
def Packet.sig (p : Packet) : Nat := bitsOf (p.dw 8) 0 56
/-- The fields of the body: a doubleword's offset and its bits that have a meaning. -/
def bodyFields : Nat → List (Nat × W64)
  | 0x01 => [(0x10, -1), (0x18, -1), (0x20, 0x1FF), (0x28, -1), (0x30, -1)]
  | 0x02 => [(0x10, -1), (0x18, -1)]
  | 0x04 => [(0x10, -1), (0x18, 0x1FFFFF)]
  | 0x05 => [(0x10, -1), (0x18, -1), (0x20, -1), (0x28, 0xFF03)]
  | 0x06 => [(0x10, 0xFFFFFFFF), (0x18, 0xFFFF)]
  | 0x08 => [(0x10, 3), (0x18, 0xFFFFFFFF)]
  | 0x09 => [(0x10, 0xFFFF003F), (0x18, -1), (0x20, -1), (0x28, -1), (0x30, -1)]
  | _ => []

/-- Reserved bits of a one-unit body are zero. -/
def Packet.bodyClean (p : Packet) : Bool :=
  [0x10, 0x18, 0x20, 0x28, 0x30, 0x38].all fun o =>
    let m := ((bodyFields p.type).find? fun f => f.1 = o).elim 0 Prod.snd
    decide (p.dw o &&& ~~~m = 0)

/-- The checks of header and body that need nothing but the packet. -/
def Packet.valid (p : Packet) : Bool :=
  let h := p.dw 0
  let a := p.dw 0x10
  decide (bitsOf h 24 8 = 0) && decide (bitsOf h 11 5 = 0) && decide (bitsOf (p.dw 8) 56 8 = 0) && decide (p.sig % 8 = 0) &&
  (match p.type with
   | 0x01 => decide (p.units = 1) && p.bodyClean && decide (a.toNat % 64 = 0) && decide ((p.dw 0x18).toNat % 32 = 0) &&
      decide (bitsOf (p.dw 0x20) 0 9 ≤ 256) && (decide (bitsOf (p.dw 0x20) 0 9 ≠ 0) || decide (p.dw 0x18 = 0))
   | 0x02 => decide (p.units = 1) && p.bodyClean && decide (a.toNat % 4096 = 0)
   | 0x03 =>
      let n := bitsOf a 0 4
      decide (1 ≤ n ∧ n ≤ 12) && decide (bitsOf a 4 4 = 0 ∧ bitsOf a 12 52 = 0) && decide (p.dw 0x18 = 0) &&
        decide (p.units = (32 + 16 * n + 63) / 64) && (p.bytes.drop (32 + 16 * n)).all fun b => decide (b = 0)
   | 0x04 => decide (p.units = 1) && p.bodyClean && decide (a.toNat % 64 = 0) &&
      decide (1 ≤ (p.dw 0x18).toNat ∧ (p.dw 0x18).toNat ≤ 2 ^ 20)
   | 0x05 => decide (p.units = 1) && p.bodyClean && decide (a.toNat % 8 = 0) && decide (bitsOf (p.dw 0x28) 8 8 ≠ 0)
   | 0x06 => decide (p.units = 1) && p.bodyClean && decide (a ≠ 0) && decide (p.dw 0x18 ≠ 0)
   | 0x07 => decide (p.units = 1) && p.bodyClean
   | 0x08 => decide (p.units = 1) && p.bodyClean
   | 0x09 => decide (p.units = 1) && p.bodyClean && decide (bitsOf a 16 16 ≠ 0)
   | 0x0A => true
   | _ => false)

end Sys2Proof

namespace Sys2Proof.Machine
open Sys2Proof

/-! ## The order of dispatch (R320 to R322, R329) -/

def Cursor.depth (c : Cursor) : Nat := c.levels.length

/-- The loop is open at the level where dispatch stands. -/
def Cursor.loopHere (c : Cursor) : Option LoopRun :=
  match c.loop with
  | some l => if l.level = c.depth then some l else none
  | none => none

/-- Where the next packet stands, and the units to the end of its buffer. -/
def Cursor.next (c : Cursor) (ring size : Nat) : Nat × Nat :=
  match c.levels with
  | [] => (ring + 64 * (c.pos % size), size - c.pos % size)
  | l :: _ => (l.va, l.left)

/-- On by a packet of `n` units: a packet that straddles the end of a buffer or of a loop's body ends it. Among the packets that a
Treadle run has emitted each counts as one. -/
def Cursor.skipUnits (c : Cursor) (n : Nat) : Cursor :=
  let m := match c.loopHere with
    | some l => min n l.rest
    | none => n
  let c1 : Cursor := match c.loopHere with
    | some l => { c with loop := some { l with rest := l.rest - m } }
    | none => c
  match c.levels with
  | [] => { c1 with pos := c.pos + m }
  | l :: r =>
    if l.units.isEmpty then { c1 with levels := { l with va := l.va + 64 * m, left := l.left - m } :: r }
    else { c1 with levels := { l with left := l.left - 1, units := l.units.tail } :: r }

/-- Ends of passes and of buffers, innermost first: the cursor, and the containers that have dispatched everything. -/
def Cursor.settle : Nat → Cursor → Cursor × List Nat
  | 0, c => (c, [])
  | fuel + 1, c =>
    match c.loopHere, c.levels with
    | some l, lv =>
      if l.rest ≠ 0 then (c, [])
      else if l.left = 0 then
        let r := Cursor.settle fuel { c with loop := none }
        (r.1, l.pid :: r.2)
      else
        let again := some { l with left := l.left - 1, rest := l.body }
        match lv with
        | [] => Cursor.settle fuel { c with pos := l.first, loop := again }
        | v :: vs => Cursor.settle fuel { c with levels := { v with va := l.first, left := v.left + l.body } :: vs, loop := again }
    | none, v :: vs =>
      if v.left ≠ 0 then (c, [])
      else
        let r := Cursor.settle fuel { c with levels := vs }
        (r.1, v.pid.toList ++ r.2)
    | none, [] => (c, [])

/-- Containers that a packet stands in here. -/
def Cursor.within (c : Cursor) : List Nat :=
  c.levels.filterMap IbLevel.pid ++
    (match c.loop with
     | some l => if l.level ≤ c.depth then [l.pid] else []
     | none => [])

/-- The next packet is skipped by an earlier PRED. -/
def Cursor.skipping (c : Cursor) : Bool := decide (c.skip.1 ≠ 0 ∧ c.skip.2 = c.depth)

/-- An IB or LOOP suits the place where it stands. -/
def Cursor.opens (c : Cursor) (p : Packet) (room size : Nat) : Bool :=
  match p.type with
  | 0x04 => decide (c.depth < 2)
  | 0x06 => c.loop.isNone && decide (bitsOf (p.dw 0x18) 0 16 + 1 ≤ if c.depth = 0 then size else room)
  | _ => true

/-- The packet straddles the end of its buffer or of the loop's body, or is not one that may be emitted. -/
def Cursor.misplaced (c : Cursor) (p : Packet) (room : Nat) : Bool :=
  decide (room < p.units) ||
  (match c.loopHere with
   | some l => decide (l.rest < p.units)
   | none => false) ||
  (match c.levels with
   | l :: _ => !l.units.isEmpty && (!(decide (p.type = 1 ∨ p.type = 3 ∨ p.type = 8 ∨ p.type = 10)) || decide (p.units ≠ 1))
   | [] => false)

/-- A packet has straddled the end of the buffer: nothing after it there is dispatched, in no pass of a loop in it (R320). -/
def Cursor.endBuffer (c : Cursor) : Cursor :=
  match c.levels with
  | l :: ls =>
    if l.units.isEmpty then
      { c with levels := { l with left := 0 } :: ls,
               loop := c.loop.map fun r => if r.level = c.depth then { r with left := 0, rest := 0 } else r }
    else c
  | [] => c

/-- The cursor after packet number `num`, and the containers closed. `run` says that an IB or LOOP opens; `skip` is what a
PRED sets, and 1 for a TREADLE whose program holds an EMIT word, which opens the level of its emitted packets. -/
def Cursor.after (c : Cursor) (p : Packet) (num room : Nat) (run : Bool) (skip : Nat) : Cursor × List Nat :=
  let body := bitsOf (p.dw 0x18) 0 16
  let r :=
    if c.skipping then
      let c1 := c.skipUnits (if p.type = 0x06 then p.units + body else p.units)
      { c1 with skip := (c.skip.1 - 1, c.skip.2) }
    else
      let c1 := c.skipUnits p.units
      let c2 := if room < p.units then c1.endBuffer else c1
      if run && decide (p.type = 0x04) then
        { c2 with levels := { va := (p.dw 0x10).toNat, left := (p.dw 0x18).toNat, pid := some num, units := [] } ::
            c2.levels }
      else if run && decide (p.type = 0x06) then
        { c2 with loop := some { left := (p.dw 0x10).toNat - 1, body := body, level := c2.depth, rest := body, pid := num,
                                 first := (match c2.levels with
                                   | [] => c2.pos
                                   | l :: _ => l.va) } }
      else if run && decide (p.type = 0x09 ∧ skip ≠ 0) then
        { c2 with levels := { va := 0, left := 1, pid := none, units := [] } :: c2.levels }
      else if skip ≠ 0 then { c2 with skip := (skip, c2.depth) }
      else c2
  Cursor.settle 8 r

/-! ## The next packet (R305, R314, R323) -/

/-- What stands next in a queue. -/
inductive Peek where
  /-- nothing is published -/
  | nothing
  | packet (p : Packet)
  /-- its units cannot be read -/
  | broken
  | waits (s : State)

/-- The packet at a cursor, read now. -/
def State.readPacket (s : State) (x : Queue) (c : Cursor) : Peek :=
  let at_ := c.next (s.qRing x.q) (s.qSize x.q)
  match c.levels.head?.bind fun l => l.units.head? with
  | some p => .packet p
  | none =>
    if c.depth = 0 ∧ x.widx ≤ c.pos then .nothing
    else
      match s.creelRead x.agent at_.1 64 with
      | .fault => .broken
      | .waits s1 => .waits s1
      | .ok _ bs =>
        let n := ({ va := at_.1, bytes := bs } : Packet).units
        if at_.2 < n then .packet { va := at_.1, bytes := bs }
        else if c.depth = 0 ∧ x.widx < c.pos + n then .nothing
        else
          match s.creelRead x.agent at_.1 (64 * n) with
          | .fault => .broken
          | .waits s1 => .waits s1
          | .ok _ all => .packet { va := at_.1, bytes := all }

/-- The next packet of a queue: one that a Treadle run has emitted, the copy that was read ahead, or what its units hold now. -/
def State.peek (s : State) (x : Queue) : Peek :=
  let va := (x.cur.next (s.qRing x.q) (s.qSize x.q)).1
  match x.cur.levels.head?.bind fun l => l.units.head?, x.ahead.find? fun a => decide (a.num = x.num + 1 ∧ a.packet.va = va) with
  | some p, _ => .packet p
  | none, some a => .packet a.packet
  | none, none => s.readPacket x x.cur

/-- The cursor after the packets read ahead, as far as they follow one another, and the number of the next. An FFENCE that is not
dispatched yet holds nothing back: its completion discards what stands behind it (R323, R330). -/
def State.walkAhead (s : State) (x : Queue) : Nat → Cursor → Nat → Option (Cursor × Nat)
  | 0, _, _ => none
  | fuel + 1, c, num =>
    let at_ := c.next (s.qRing x.q) (s.qSize x.q)
    match x.ahead.find? fun a => decide (a.num = num ∧ a.packet.va = at_.1) with
    | none => some (c, num)
    | some a =>
      let run := a.packet.valid && !c.misplaced a.packet at_.2 && c.opens a.packet at_.2 (s.qSize x.q)
      s.walkAhead x fuel (c.after a.packet num at_.2 run 0).1 (num + 1)

/-! ## Slots (R308 to R312) -/

/-- SLOTS and AGEP as they are read, AGEP in units of the clock. -/
def State.slotCount (s : State) : Nat :=
  let n := bitsOf (s.devReg (creel + 0x8)) 0 6
  if n = 0 ∨ 32 < n then 32 else n
def State.agePeriod (s : State) : Nat :=
  let n := bitsOf (s.devReg (creel + 0x10)) 0 16
  Config.unitsPerUs * (if n = 0 then 1 else n)

/-- RUN and PEND are set and no slot is held (R308). A destroyed queue, which R328 unmaps, stays so (assumption log 101). -/
def State.isCandidate (s : State) (x : Queue) : Bool :=
  x.slot.isNone && s.qRun x.q && s.qPend x.q && !s.qDead x.q

/-- Effective priority of a candidate. -/
def State.effPrio (s : State) (x : Queue) : Nat := min (s.cbField x.q 0x08 8 3 + s.qAge x.q) 15

/-- The first of the list under a strict order. -/
def firstBy {α : Type} (lt : α → α → Bool) : List α → Option α
  | [] => none
  | a :: r =>
    match firstBy lt r with
    | none => some a
    | some b => if lt b a then some b else some a

/-- Highest priority, then longest pending, then lowest number. -/
def State.bestCandidate (s : State) : Option Queue :=
  firstBy (fun a b =>
    decide (s.effPrio b < s.effPrio a) || (decide (s.effPrio a = s.effPrio b) &&
      (decide (a.pendAt < b.pendAt) || (decide (a.pendAt = b.pendAt) && decide (a.q < b.q)))))
    (s.records.filter s.isCandidate)

/-- Everything below WIDX is dispatched and nothing is in dispatch or to be reported. -/
def Queue.idle (x : Queue) : Bool :=
  x.cur.levels.isEmpty && x.cur.loop.isNone && decide (x.widx ≤ x.cur.pos) && x.pkts.isEmpty

/-- Lowest priority, ties to the higher number. -/
def lowestQueue (l : List Queue) : Option Queue :=
  firstBy (fun a b => decide (a.eff < b.eff) || (decide (a.eff = b.eff) && decide (b.q < a.q))) l

/-- The save area (R313). -/
def Cursor.saveArea (c : Cursor) (ring size : Nat) : List W64 :=
  let lv := (c.levels.reverse.map fun l => [BitVec.ofNat 64 l.va, BitVec.ofNat 64 l.left]).flatten
  let loop : List W64 := match c.loop with
    | some l =>
      [BitVec.ofNat 64 (l.left % 2 ^ 32 + l.body % 2 ^ 16 * 2 ^ 32 + l.level % 4 * 2 ^ 48 + 2 ^ 63),
       BitVec.ofNat 64 (if l.level = 0 then ring + 64 * (l.first % size) else l.first)]
    | none => [0, 0]
  (lv ++ [0, 0, 0, 0]).take 4 ++ loop ++ [BitVec.ofNat 64 (min c.depth 2 + c.skip.1 % 256 * 256), 0]

/-- The dispatch position that a save area restores: levels, loop and skip count as it gives them, with what the Creel's own
record alone holds (assumption log 30). -/
def Cursor.restore (c : Cursor) (ws : List W64) (ring : Nat) : Cursor :=
  let w (i : Nat) : W64 := ws.getD i 0
  let d := bitsOf (w 6) 0 2
  let own := c.levels.reverse
  let saved : List IbLevel := (List.range d).map fun k =>
    { (own.getD k { va := 0, left := 0, pid := none, units := [] }) with va := (w (2 * k)).toNat, left := (w (2 * k + 1)).toNat }
  let levels := (saved ++ (if d = 2 then own.drop 2 else [])).reverse
  let loop : Option LoopRun :=
    if !(w 4).getLsbD 63 then none
    else
      let lv := bitsOf (w 4) 48 2
      let first := (w 5).toNat
      let body := bitsOf (w 4) 32 16
      let l := c.loop.getD { left := 0, body := body, level := lv, first := 0, rest := body, pid := 0 }
      some { l with left := bitsOf (w 4) 0 32, body := body, level := lv,
                    first := if lv = 0 then (if c.loop.isSome then l.first else (first - ring) / 64) else first }
  { c with levels := levels, loop := loop, skip := (bitsOf (w 6) 8 8, if bitsOf (w 6) 8 8 = 0 then c.skip.2 else levels.length) }

/-- Mapping: the save area is restored (R311). -/
def State.mapQueue (s : State) (x : Queue) (slot : Nat) : State :=
  let e := s.effPrio x
  let cur := match s.cb x.q with
    | some a => x.cur.restore ((List.range 8).map fun i => s.dword (a + 0x40 + 8 * i)) (s.qRing x.q)
    | none => x.cur
  (((s.modQueue x.q fun x => { x with slot := some slot, eff := e, cur := cur, marked := none, slotGone := false }).setCb x.q 0x28 1 1 1)
    |>.setCb x.q 0x28 0 1 0).setCb x.q 0x28 16 4 0

/-- Unmapping (R311). -/
def State.unmapQueue (s : State) (x : Queue) : State :=
  let now := s.clock
  let s1 := s.modQueue x.q fun x =>
    { x with slot := none, marked := none, slotGone := false, ahead := [], pendAt := now, ageAt := now }
  let s2 := ((s1.setCb x.q 0x18 0 64 x.ridx).setCb x.q 0x20 0 64 x.cidx).setCb x.q 0x28 1 1 0
  let s3 := if x.idle then s2 else s2.setCb x.q 0x28 0 1 1
  match s3.cb x.q with
  | none => s3
  | some a => s3.putBytes (a + 0x40) ((x.cur.saveArea (s.qRing x.q) (s.qSize x.q)).flatMap fun w => leBytes 8 w.toNat)

/-- One step of a decision point; none when nothing applies (R310). -/
def State.decideOnce (s : State) : Option State :=
  let mapped := s.records.filter fun x => x.slot.isSome
  let free := (List.range s.slotCount).find? fun k => mapped.all fun x => decide (x.slot ≠ some k)
  match mapped.find? fun x => x.slotGone && x.idle with
  | some x => some (s.unmapQueue x)
  | none =>
    match s.bestCandidate with
    | none => none
    | some b =>
      match free with
      | some k => some (s.mapQueue b k)
      | none =>
        match lowestQueue (mapped.filter Queue.idle), lowestQueue mapped with
        | some x, _ => some (s.unmapQueue x)
        | none, some x =>
          if x.eff < s.effPrio b ∧ !mapped.any (fun y => y.marked.isSome) then
            some (s.modQueue x.q fun x => { x with marked := some s.instant.1 })
          else none
        | none, none => none

def State.decideFor : Nat → State → State
  | 0, s => s
  | fuel + 1, s =>
    match s.decideOnce with
    | none => s
    | some s1 => State.decideFor fuel s1

/-- A decision point of class `k` is taken now: at the present instant while the classes rise, else at a new one (R310). -/
def State.atInstant (s : State) (k : Nat) : State :=
  { s with instant := (if k < s.instant.2 then s.instant.1 + 1 else s.instant.1, k) }

/-- The classes of R310's order: ageing steps, kicks, completions; then boundaries by slot. -/
def ageingPoint : Nat := 0
def kickPoint : Nat := 1
def completionPoint : Nat := 2
def boundaryPoint (slot : Nat) : Nat := 4 + 2 * slot

/-- The steps of R310, repeated. -/
def State.decideNow (s : State) : State := State.decideFor (3 * s.queues.length + 40) s

/-- A decision point. -/
def State.decidePoint (s : State) (k : Nat := completionPoint) : State := (s.atInstant k).decideNow

/-! ## Ageing (R312) -/

/-- Ageing periods of a queue that are over: AGE rises with each at whose end it is a candidate, up to 15; a decision point
each. -/
def State.ageQueue (s : State) (q : Nat) : Nat → State
  | 0 => s
  | fuel + 1 =>
    match s.queueOf q with
    | none => s
    | some x =>
      if !s.qPend q || decide (s.clock < x.ageAt + s.agePeriod) then s
      else
        let s1 := s.modQueue q fun x => { x with ageAt := x.ageAt + s.agePeriod }
        (if s.isCandidate x && decide (s.qAge q < 15) then (s1.setCb q 0x28 16 4 (s.qAge q + 1)).decidePoint ageingPoint
         else s1).ageQueue q fuel

/-- Units of the clock that a fabric cycle takes at the operating point of OPPT (R396). -/
def State.cycleTime (s : State) : Nat :=
  [36, 40, 45, 60, 90].getD (bitsOf (s.devReg 0x40028) 0 4) 36

/-- A fabric cycle passes, and with it the ageing periods that end. -/
def State.passCycle (s : State) : State :=
  let s1 : State := { s with cycle := s.cycle + 1, clock := s.clock + s.cycleTime, instant := (s.instant.1 + 1, ageingPoint) }
  s1.queues.foldl (fun s x => s.ageQueue x.q 1) s1

/-! ## Completion reports (R316, R318, R329) -/

/-- The report of a packet is next in order. -/
def Queue.reportable (x : Queue) (p : Pkt) : Bool :=
  (if p.box then !p.isOpen && x.pkts.all fun o => !o.within.contains p.id else p.status.isSome) &&
  x.pkts.all fun o => decide (o.id = p.id) || decide (p.id < o.id) || p.within.contains o.id

/-- The report of a packet: STATUS, SIG, CIDX. A write that no longer translates is not made, and MSIV is sent; of a packet whose
writes failed their check at dispatch, only the one that passed it is made (R318). -/
def State.makeReport (s : State) (x : Queue) (p : Pkt) : CreelAcc :=
  let st := p.status.getD 1
  let omits := p.omits.getD (false, false)
  let sigOk := decide (p.sig ≠ 0 ∧ p.sig % 8 = 0) && !omits.2
  let one (s : State) (va n : Nat) (write : State → State) : CreelAcc :=
    match s.creelCheck x.agent va n with
    | .ok s1 _ => .ok (write s1) []
    | .fault => .ok (if p.omits.isSome then s else (s.clearDenied x.agent).msiv x.q) []
    | .waits s1 => .waits s1
  let addSig (s : State) : State :=
    match s.locate p.sig .write with
    | .ok (.home pa, _, _) => s.putDword pa (s.dword pa + 1)
    | .ok (.away k pa, _, _) => s.sendRemote x.agent k pa (.atomic 0 1) (globalEa p.sig)
    | .error _ => s
  let finish (s : State) : State :=
    let s1 := s.modQueue x.q fun x =>
      { x with pkts := x.pkts.filter fun o => decide (o.id ≠ p.id), cidx := p.cidx.getD x.cidx }
    match p.cidx with
    | some c => s1.setCb x.q 0x20 0 64 c
    | none => s1
  match (if omits.1 then .ok s [] else one s (p.va + 2) 1 fun s => s.creelWrite x.agent (p.va + 2) [BitVec.ofNat 8 st]) with
  | .ok s1 _ =>
    if sigOk then
      match one s1 p.sig 8 addSig with
      | .ok s2 _ => .ok (finish s2) []
      | r => match r with
        | .waits _ => .waits (match s.creelCheck x.agent p.sig 8 with
          | .waits s3 => s3
          | _ => s)
        | r => r
    else .ok (finish s1) []
  | r => r

/-- Reports that are due are made in order; every completion is a decision point. -/
def execPacketComplete (q id : Nat) (s : State) : Result :=
  match s.queueOf q with
  | none => .next s
  | some x =>
    match x.pkts.find? fun p => p.id = id with
    | none => .next s
    | some p =>
      if !x.reportable p then .next s
      else
        match s.makeReport x p with
        | .ok s1 _ => .next s1.decidePoint
        | .waits s1 => .next s1
        | .fault => .next s

/-! ## Dispatch (R315, R316, R318, R325) -/

/-- What starting a packet comes to. -/
inductive Begin where
  | wait (s : State)
  | format (s : State)
  /-- an address of the packet failed: status 5 -/
  | fail (s : State)
  /-- it has started: its status when it is complete already, what its record holds, and the packets a PRED skips
  (or 1 for a TREADLE that may emit) -/
  | ran (s : State) (status : Option Nat) (f : Pkt → Pkt) (skip : Nat)

/-- Every earlier packet but its containers has completed. -/
def Queue.clear (x : Queue) : Bool := x.pkts.all fun p => p.box || p.status.isSome

/-- The next packet may not be dispatched yet. -/
def Queue.held (x : Queue) (p : Packet) : Bool :=
  let skipped := x.cur.skipping
  (x.pkts.any fun o => o.ffence && o.status.isNone) ||
  (x.pkts.any fun o => decide (o.treadle = some true) && o.status.isNone) ||
  (!skipped && p.ser && !x.clear) ||
  (!skipped && decide (p.type = 0x09) && x.pkts.any fun o => o.treadle.isSome && o.status.isNone)

/-- The packet enters the queue's record, and dispatch moves past it. -/
def State.enterPkt (s : State) (x : Queue) (p : Packet) (room : Nat) (status : Option Nat) (f : Pkt → Pkt) (run : Bool)
    (skip : Nat) : State :=
  let num := x.num + 1
  let box := run && decide (p.type = 0x04 ∨ p.type = 0x06)
  let ring := decide (x.cur.depth = 0)
  let inLoop := x.cur.loopHere.isSome
  let a := x.cur.after p num room run skip
  let body := bitsOf (p.dw 0x18) 0 16
  let span := p.units + (if (box || x.cur.skipping) && decide (p.type = 0x06) then body else 0)
  let pk : Pkt :=
    f { id := num, va := p.va, sig := p.sig, cidx := if ring && !inLoop then some (x.cur.pos + span) else none,
        status := status, box := box, isOpen := box && !a.2.contains num, within := x.cur.within,
        treadle := none, ffence := false, launch := none, omits := none, fence := none }
  let seen := if ring then max x.ridx (x.cur.pos + (if x.cur.skipping then span else p.units)) else x.ridx
  let s1 := s.modQueue x.q fun x =>
    { x with
      num := num, cur := a.1, ahead := x.ahead.filter fun h => decide (num < h.num), ridx := seen,
      pkts := (x.pkts.map fun o => if a.2.contains o.id then { o with isOpen := false } else o) ++ [pk] }
  (s1.dropReplies x.agent).setCb x.q 0x18 0 64 seen

/-- SIG and the packet's own header can be written (R318). -/
def State.reportCheck (s : State) (x : Queue) (p : Packet) : CreelAcc :=
  match s.creelCheck x.agent (p.va + 2) 1 with
  | .ok s1 _ => if p.sig = 0 then .ok s1 [] else s1.creelCheck x.agent p.sig 8
  | r => r

/-- The report of a packet that fails that check: which of STATUS and SIG it omits. -/
def State.reportFails (s : State) (x : Queue) (p : Packet) : Bool × Bool :=
  let fails (va n : Nat) : Bool := match s.creelCheck x.agent va n with
    | .fault => true
    | _ => false
  (fails (p.va + 2) 1, decide (p.sig ≠ 0) && fails p.sig 8)

/-- A packet boundary of a mapped queue: it is unmapped when it was marked at an earlier instant, or by a write of SLOTS
(R310). -/
def State.boundary (s : State) (x : Queue) : Option State :=
  let s1 := s.atInstant (boundaryPoint (x.slot.getD 0))
  let due := match x.marked with
    | some m => decide (m < s1.instant.1)
    | none => false
  if due || x.slotGone then some (s1.unmapQueue x).decideNow else none

/-- A format error (R315). -/
def State.formatError (s : State) (q : Nat) : State :=
  (s.setCb q 0x28 8 8 (s.cbField q 0x28 8 8 + 1)).msiv q

/-- The Creel dispatches packet `p`, the next of queue `q`; `start` starts it. -/
def dispatchPacket (q : Nat) (p : Packet) (ty : Nat) (start : State → Queue → Nat → Nat → Begin) (s : State) : Result :=
  match s.queueOf q with
  | none => .next s
  | some x =>
    if x.slot.isNone || s.qDead q then .next s
    else
      match s.boundary x with
      | some s1 => .next s1
      | none =>
        if s.qHalt q || s.qPre q then .next s
        else match s.peek x with
        | .nothing => .next s
        | .broken => .next s
        | .waits s1 => .next s1
        | .packet r =>
          if r ≠ p ∨ p.type ≠ ty ∨ x.held p then .next s
          else
            let room := (x.cur.next (s.qRing q) (s.qSize q)).2
            let enter (s : State) (status : Option Nat) (f : Pkt → Pkt) (run : Bool) (skip : Nat) : Result :=
              .next ((s.enterPkt x p room status f run skip).decidePoint (boundaryPoint (x.slot.getD 0) + 1))
            if x.cur.skipping then enter s (some 4) id false 0
            else if !p.valid || x.cur.misplaced p room || !x.cur.opens p room (s.qSize q) then
              enter (s.formatError q) (some 2) id false 0
            else
              match s.reportCheck x p with
              | .fault => enter ((s.clearDenied x.agent).msiv q) (some 5) (fun o => { o with omits := some (s.reportFails x p) }) false 0
              | .waits s1 => .next s1
              | .ok s1 _ =>
                match start s1 x (x.num + 1) room with
                | .wait s2 => .next s2
                | .format s2 => enter (s2.formatError q) (some 2) id false 0
                | .fail s2 => enter ((s2.clearDenied x.agent).msiv q) (some 5) id false 0
                | .ran s2 st f k => enter s2 st f true k

/-- Dispatch of what no packet type names: an undefined type is a format error; units that cannot be read are one unit with
status 5. -/
def State.dispatchOdd (s : State) (q : Nat) : State :=
  match s.queueOf q with
  | none => s
  | some x =>
    let enter (s : State) (p : Packet) (status : Nat) (f : Pkt → Pkt := id) : State :=
      (s.enterPkt x p (x.cur.next (s.qRing q) (s.qSize q)).2 (some status) f false 0).decidePoint
        (boundaryPoint (x.slot.getD 0) + 1)
    if x.slot.isNone || s.qDead q then s
    else
      match s.boundary x with
      | some s1 => s1
      | none =>
        if s.qHalt q || s.qPre q then s
        else match s.peek x with
        | .nothing => s
        | .waits s1 => s1
        | .broken =>
          let p : Packet := { va := (x.cur.next (s.qRing q) (s.qSize q)).1, bytes := List.replicate 64 0 }
          if x.held p then s
          else if x.cur.skipping then enter s p 4
          else enter ((s.clearDenied x.agent).msiv q) p 5 fun o => { o with omits := some (s.reportFails x p) }
        | .packet p =>
          if p.valid || x.held p then s
          else if x.cur.skipping then enter s p 4
          else enter (s.formatError q) p 2

end Sys2Proof.Machine
end

