-- ==== Sys2Proof/Machine/Creel.lean ====
section
/-! DEFINITION. The Creel's front end: kicks, ageing, fetch-ahead, and the packets other than launches (R305 to R312, R319 to
R323, R327). -/

namespace Sys2Proof.Machine
open Sys2Proof

/-! ## Kicks (R305, R306, R308) -/

/-- A queue as the Creel first meets it: from its control block. -/
def State.newQueue (s : State) (q : Nat) : Queue :=
  let r := s.cbField q 0x18 0 64
  { q := q, agent := s.nextId, slot := none, eff := 0, widx := 0, ridx := r, cidx := s.cbField q 0x20 0 64,
    cur := { pos := r, levels := [], loop := none, skip := (0, 0) }, ahead := [], num := 0, pkts := [], pendAt := 0, ageAt := 0,
    marked := none, slotGone := false }

/-- The queue number enters WAKE, and MSIV is sent (R307, R308). -/
def State.wakeQueue (s : State) (q : Nat) : State :=
  (if s.wake.length < 256 then { s with wake := s.wake ++ [(q, s.wakeLost)], wakeLost := false }
   else { s with wakeLost := true }).msiv q

/-- A kick of queue `q`. -/
def State.kick (s : State) (q : Nat) : State :=
  if (s.cb q).isNone || s.qDead q || s.qHalt q then s
  else
    let s1 := if (s.queueOf q).isSome then s
      else { s with queues := s.queues ++ [s.newQueue q], nextId := s.nextId + 1 }
    if s1.cbError q then s1.haltQueue q
    else
      let w := s1.cbField q 0x10 0 64
      let s2 := s1.modQueue q fun x => { x with widx := w }
      if s2.qSize q < (w + 2 ^ 64 - s2.cbField q 0x20 0 64) % 2 ^ 64 then s2.haltQueue q
      else
        match s2.queueOf q with
        | none => s2
        | some x =>
          if x.slot.isSome then s2.decidePoint kickPoint
          else
            let rises := !s2.qPend q
            let now := s2.clock
            let s3 := if rises then (s2.setCb q 0x28 0 1 1).modQueue q fun x => { x with pendAt := now, ageAt := now } else s2
            let s4 := s3.decidePoint kickPoint
            if rises && s4.qPend q then s4.wakeQueue q else s4

def execKick (q : Nat) (s : State) : Result := .next (s.kick (q % 65536))

/-- A write of any value to a queue's byte of the doorbell aperture. -/
def execDoorbellWrite (q : Nat) (_v : W64) (s : State) : Result := .next (s.kick (q % 65536))

/-- A read of WAKE takes the oldest record. -/
def execWakeRead (s : State) : Result := .next { s with wake := s.wake.tail, stamp := s.stamp + 1 }

/-! ## Slots and ageing (R310, R312) -/

/-- A write of SLOTS: queues in slots at or above the new value are marked, and the marks stand. It is no decision point (R310). -/
def execSlotsWrite (v : W64) (s : State) : Result :=
  let s1 := s.setDevReg (creel + 0x8) (v &&& 0x3F)
  let n := s1.slotCount
  .next { s1 with
    stamp := s1.stamp + 1,
    queues := s1.queues.map fun x =>
      match x.slot with
      | some k => { x with slotGone := x.slotGone || decide (n ≤ k) }
      | none => x }

/-- AGE of a candidate rises every AGEP µs after its PEND rose. Periods that end as a fabric cycle passes are taken then; this step
takes one that a write of AGEP has brought forward. -/
def execAgeingStep (q : Nat) (s : State) : Result := .next (s.ageQueue q 1)

/-! ## Fetch-ahead (R323) -/

/-- The next packet that may be read ahead is read; a fault is not reported. What follows a TREADLE that may emit is not known before
its run has ended. -/
def execPacketFetch (q : Nat) (s : State) : Result :=
  match s.queueOf q with
  | none => .next s
  | some x =>
    if x.slot.isNone || decide (x.num = 0) || (x.pkts.any fun p => (p.ffence || decide (p.treadle = some true)) && p.status.isNone) then .next s
    else
      match s.walkAhead x 18 x.cur (x.num + 1) with
      | none => .next s
      | some (c, n) =>
        if x.num + 16 < n then .next s
        else
          match s.readPacket x c with
          | .packet p =>
            .next (s.modQueue q fun x => { x with ahead := (x.ahead.filter fun a => decide (a.num < n)) ++ [{ num := n, packet := p }] })
          | .nothing => .next s
          | .broken => .next s
          | .waits _ => .next s

/-! ## NOP, HINT, IB, LOOP, FFENCE -/

def execNopPacket (q : Nat) (p : Packet) (s : State) : Result :=
  dispatchPacket q p 0x0A (fun s _ _ _ => .ran s (some 1) id 0) s

def execHintPacket (q : Nat) (p : Packet) (s : State) : Result :=
  dispatchPacket q p 0x08 (fun s _ _ _ =>
    .ran { s with hint := (bitsOf (p.dw 0x10) 0 2, s.clock + Config.unitsPerUs * bitsOf (p.dw 0x18) 0 32) } (some 1) id 0) s

/-- Its units are the next level; it is reported after the last of them. -/
def execIbPacket (q : Nat) (p : Packet) (s : State) : Result :=
  dispatchPacket q p 0x04 (fun s _ _ _ => .ran s none id 0) s

def execLoopPacket (q : Nat) (p : Packet) (s : State) : Result :=
  dispatchPacket q p 0x06 (fun s _ _ _ => .ran s none id 0) s

def execFfence (q : Nat) (p : Packet) (s : State) : Result :=
  dispatchPacket q p 0x07 (fun s _ _ _ => .ran s none (fun o => { o with ffence := true }) 0) s

/-- Every earlier packet has completed: what was read ahead is discarded. -/
def execFfenceComplete (q : Nat) (s : State) : Result :=
  match s.queueOf q with
  | none => .next s
  | some x =>
    match x.pkts.find? fun p => p.ffence && p.status.isNone with
    | none => .next s
    | some p =>
      if x.pkts.all fun o => o.box || o.status.isSome || decide (p.id ≤ o.id) then
        .next ((s.setStatus q p.id 1).modQueue q fun x => { x with ahead := [] }).decidePoint
      else .next s

/-! ## PRED (R321) -/

/-- What counting packets comes to. -/
inductive Count where
  | waits (s : State)
  | all (n : Nat)

/-- The packets, at most `need`, that stand in `units` units from `va`, by their LEN fields; a LOOP counts with its body, and a
unit that cannot be read as one packet. `who` waits for a chunk or a reply that they need. -/
def State.countPackets (s : State) (who : Nat) : Nat → Nat → Nat → Nat → Count
  | 0, _, _, _ => .all 0
  | fuel + 1, need, va, units =>
    if units = 0 ∨ need = 0 then .all 0
    else
      let on (n : Nat) : Count :=
        match s.countPackets who fuel (need - 1) (va + 64 * n) (units - n) with
        | .waits s1 => .waits s1
        | .all k => .all (k + 1)
      match s.creelRead who va 64 with
      | .waits s1 => .waits s1
      | .fault => on 1
      | .ok _ bs =>
        let p : Packet := { va := va, bytes := bs }
        on (p.units + if p.type = 0x06 then bitsOf (p.dw 0x18) 0 16 else 0)

/-- Packets that follow at the PRED's level in an IB's buffer, counted up to `need`: what is left of the pass, the passes still to
come, and what follows the loop. -/
def State.packetsLeft (s : State) (who need : Nat) (c : Cursor) (units : Nat) : Count :=
  match c.levels with
  | [] => .all need
  | l :: _ =>
    let va := l.va + 64 * units
    let n := l.left - units
    match c.loopHere with
    | none => s.countPackets who n need va n
    | some r =>
      let m := r.rest - units
      match s.countPackets who m need va m with
      | .waits s1 => .waits s1
      | .all a =>
        match (if r.left = 0 then .all 0 else s.countPackets who r.body (need - a) r.first r.body) with
        | .waits s1 => .waits s1
        | .all b =>
          match s.countPackets who n (need - a - r.left * b) (va + 64 * m) (n - m) with
          | .waits s1 => .waits s1
          | .all d => .all (a + r.left * b + d)

def predHolds (op : Nat) (w v : W64) : Bool :=
  match op with
  | 0 => decide (w = v) | 1 => decide (w ≠ v) | 2 => decide (v.toNat ≤ w.toNat) | _ => decide (w.toNat < v.toNat)

def execPredPacket (q : Nat) (p : Packet) (s : State) : Result :=
  dispatchPacket q p 0x05 (fun s x _ _ =>
    match s.creelRead x.agent (p.dw 0x10).toNat 8 with
    | .fault => .fail s
    | .waits s1 => .wait s1
    | .ok s1 bs =>
      let w := BitVec.ofNat 64 (leNat bs) &&& p.dw 0x18
      let skip := bitsOf (p.dw 0x28) 8 8
      if predHolds (bitsOf (p.dw 0x28) 0 2) w (p.dw 0x20) then .ran s1 (some 1) id 0
      else
        match s1.packetsLeft x.agent skip x.cur p.units with
        | .waits s2 => .wait s2
        | .all n => if n < skip then .format s1 else .ran s1 (some 1) id skip) s

/-! ## FENCE (R319) -/

/-- Pairs of a FENCE: address and target. -/
def fencePairs (p : Packet) : List (Nat × W64) :=
  (List.range (bitsOf (p.dw 0x10) 0 4)).map fun i => ((p.dw (32 + 16 * i)).toNat, p.dw (40 + 16 * i))

def execFencePacket (q : Nat) (p : Packet) (s : State) : Result :=
  dispatchPacket q p 0x03 (fun s _ _ _ =>
    .ran s none (fun o => { o with fence := some (s.cycle, bitsOf (p.dw 0x10) 8 4, fencePairs p) }) 0) s

/-- The counters not yet seen at their targets are read. -/
def State.pollPairs (s : State) (who : Nat) : List (Nat × W64) → CreelAcc × List (Nat × W64)
  | [] => (.ok s [], [])
  | c :: r =>
    match s.creelRead who c.1 8 with
    | .fault => (.fault, c :: r)
    | .waits s1 => let t := s1.pollPairs who r
      (match t.1 with
       | .fault => (.fault, c :: r)
       | .ok s2 _ => (.waits s2, c :: t.2)
       | .waits s2 => (.waits s2, c :: t.2))
    | .ok s1 bs => let t := s1.pollPairs who r
      (t.1, if c.2.toNat ≤ leNat bs then t.2 else c :: t.2)

/-- A look at the counters of a FENCE; `expire` says that its limit has come: then it ends unless it is met. In a cycle after that
of expiry it ends whatever they hold (R319). -/
def State.lookFence (s : State) (q id : Nat) (expire : Bool) : State :=
  match s.queueOf q with
  | none => s
  | some x =>
    match x.pkts.find? fun p => decide (p.id = id) && p.status.isNone with
    | none => s
    | some p =>
      match p.fence with
      | none => s
      | some (start, lim, pairs) =>
        let ends := start + limitCycles lim
        let expired (s : State) : State := ((s.setStatus q id 7).haltQueue q).decidePoint
        if lim ≠ 0 ∧ ends < s.cycle then expired s
        else
          let r := s.pollPairs x.agent pairs
          let keep (s : State) : State := s.modPkt q id fun o => { o with fence := some (start, lim, r.2) }
          let late (s : State) : State := if expire && decide (lim ≠ 0 ∧ ends ≤ s.cycle) then expired s else s
          match r.1 with
          | .fault => (((s.clearDenied x.agent).setStatus q id 5).msiv q).decidePoint
          | .waits s1 => late (keep s1)
          | .ok s1 _ =>
            let s2 := (keep s1).dropReplies x.agent
            if r.2.isEmpty then (s2.setStatus q id 1).decidePoint else late s2

def execFencePacketMet (q id : Nat) (s : State) : Result := .next (s.lookFence q id false)
def execFenceExpiry (q id : Nat) (s : State) : Result := .next (s.lookFence q id true)

end Sys2Proof.Machine
end

