-- ==== Sys2Proof/Machine/Treadle.lean ====
section
/-! DEFINITION. The Treadle: its runs, its words and its loaded programs (R324 to R326). -/

namespace Sys2Proof.Machine
open Sys2Proof

/-! ## Runs -/

/-- What a Treadle word comes to. -/
inductive TreadleEff where
  | go (r : TreadleRun)
  | jump (r : TreadleRun) (pc : Int)
  /-- the run ends with a status; MSIV is sent or not -/
  | stop (status : Nat) (tell : Bool)
  | waits (s : State)

/-- The run of the queue whose word executes. -/
def State.curRun (s : State) : Option TreadleRun := s.runs.find? fun r => r.q = s.curQ

def TreadleRun.reg (r : TreadleRun) (i : BitVec 4) : W64 := if i = 0 then 0 else r.regs[i.toNat]'i.isLt

def TreadleRun.setReg (r : TreadleRun) (i : BitVec 4) (v : W64) : TreadleRun :=
  if i = 0 then r else { r with regs := r.regs.set i.toNat v i.isLt }

def State.putRun (s : State) (r : TreadleRun) : State :=
  { s with runs := s.runs.map fun o => if o.q = r.q then r else o, stamp := s.stamp + 1 }

/-- The level of the run's emitted packets takes them, or ends. -/
def State.closeEmits (s : State) (r : TreadleRun) (emits : List Packet) : State :=
  if r.words.all fun w => decide (bitsOf (w.setWidth 64) 24 8 ≠ 0x20) then s
  else
    s.modQueue r.q fun x =>
      match x.cur.levels with
      | [] => x
      | l :: ls =>
        let c := Cursor.settle 8 { x.cur with levels := { l with left := emits.length, units := emits } :: ls }
        { x with cur := c.1, ahead := if emits.isEmpty then x.ahead else [], pkts := x.pkts.map fun o => if c.2.contains o.id then { o with isOpen := false } else o }

/-- A program is let go; one that is to be freed is freed with its last run. -/
def State.releaseHandle (s : State) (h : Nat) : State :=
  { s with handles := (s.handles.map fun e => if e.h = h then { e with users := e.users - 1 } else e).filter fun e =>
      !(e.freed && decide (e.users = 0)) }

/-- The run ends. -/
def State.endRun (s : State) (r : TreadleRun) (status : Nat) (emits : List Packet) : State :=
  let s1 : State := { s with runs := s.runs.filter fun o => decide (o.q ≠ r.q) }
  (((s1.releaseHandle r.handle).setStatus r.q r.pid status).closeEmits r emits).decidePoint

/-- The name under which the run's queue waits. -/
def State.runAgent (s : State) (r : TreadleRun) : Nat := ((s.queueOf r.q).map Queue.agent).getD 0

/-- A word executes: it counts against the budget. -/
def treadleWord (s : State) (f : TreadleRun → TreadleEff) : Result :=
  match s.curRun with
  | none => .next s
  | some r =>
    if r.budget = 0 then .next s
    else
      match f r with
      | .go r1 =>
        .next ((s.dropReplies (s.runAgent r)).putRun { r1 with pc := r.pc + 1, budget := r.budget - 1 })
      | .jump r1 t => .next (s.putRun { r1 with pc := t.toNat, budget := r.budget - 1 })
      | .stop n tell =>
        let s1 := (if tell then s.clearDenied (s.runAgent r) else s).endRun r n []
        .next (if tell then s1.msiv r.q else s1)
      | .waits s1 => .next s1

def simm (i : BitVec 16) : W64 := i.signExtend 64

/-! ## Words -/

def treadleAlu (d a b : BitVec 4) (f : W64 → W64 → W64) (s : State) : Result :=
  treadleWord s fun r => .go (r.setReg d (f (r.reg a) (r.reg b)))

def execTreadleLi (d : BitVec 4) (i : BitVec 16) (s : State) : Result := treadleWord s fun r => .go (r.setReg d (simm i))
def execTreadleShori (d : BitVec 4) (i : BitVec 16) (s : State) : Result :=
  treadleWord s fun r => .go (r.setReg d ((r.reg d <<< 16) + i.setWidth 64))
def execTreadleAdd (d a b : BitVec 4) (s : State) : Result := treadleAlu d a b (· + ·) s
def execTreadleSub (d a b : BitVec 4) (s : State) : Result := treadleAlu d a b (· - ·) s
def execTreadleAnd (d a b : BitVec 4) (s : State) : Result := treadleAlu d a b (· &&& ·) s
def execTreadleOr (d a b : BitVec 4) (s : State) : Result := treadleAlu d a b (· ||| ·) s
def execTreadleXor (d a b : BitVec 4) (s : State) : Result := treadleAlu d a b (· ^^^ ·) s
def execTreadleShl (d a b : BitVec 4) (s : State) : Result := treadleAlu d a b (fun x y => x <<< (y.toNat % 64)) s
def execTreadleShr (d a b : BitVec 4) (s : State) : Result := treadleAlu d a b (fun x y => x >>> (y.toNat % 64)) s
def execTreadleAddi (d a : BitVec 4) (i : BitVec 16) (s : State) : Result :=
  treadleWord s fun r => .go (r.setReg d (r.reg a + simm i))

/-- A load; a buffered store to the bytes is returned after the address is checked. -/
def execTreadleLd (d a : BitVec 4) (i : BitVec 16) (s : State) : Result :=
  treadleWord s fun r =>
    let va := (r.reg a + simm i).toNat
    let who := s.runAgent r
    if va % 8 ≠ 0 then .stop 5 false
    else
      match r.stores.reverse.find? fun w => w.1 = va with
      | some w =>
        (match s.translate va .read with
         | .ok _ => .go (r.setReg d w.2)
         | .error (.remote _ _) => .go (r.setReg d w.2)
         | .error e =>
          match s.creelHalt who va e with
          | .waits s1 => .waits s1
          | _ => .stop 5 true)
      | none =>
        match s.creelRead who va 8 with
        | .fault => .stop 5 true
        | .waits s1 => .waits s1
        | .ok _ bs => .go (r.setReg d (BitVec.ofNat 64 (leNat bs)))

/-- A store is buffered. -/
def execTreadleSt (d a : BitVec 4) (i : BitVec 16) (s : State) : Result :=
  treadleWord s fun r =>
    let va := (r.reg a + simm i).toNat
    if va % 8 ≠ 0 ∨ 16 ≤ r.stores.length then .stop 5 false
    else .go { r with stores := r.stores ++ [(va, r.reg d)] }

def treadleBranch (a b : BitVec 4) (i : BitVec 16) (c : W64 → W64 → Bool) (s : State) : Result :=
  treadleWord s fun r => if c (r.reg a) (r.reg b) then .jump r (r.pc + i.toInt) else .go r

def execTreadleBeq (a b : BitVec 4) (i : BitVec 16) (s : State) : Result :=
  treadleBranch a b i (fun x y => decide (x = y)) s
def execTreadleBne (a b : BitVec 4) (i : BitVec 16) (s : State) : Result :=
  treadleBranch a b i (fun x y => decide (x ≠ y)) s
def execTreadleBltu (a b : BitVec 4) (i : BitVec 16) (s : State) : Result :=
  treadleBranch a b i (fun x y => decide (x.toNat < y.toNat)) s
def execTreadleBgeu (a b : BitVec 4) (i : BitVec 16) (s : State) : Result :=
  treadleBranch a b i (fun x y => decide (y.toNat ≤ x.toNat)) s

/-- A unit is read as a packet to dispatch at the end. -/
def execTreadleEmit (a : BitVec 4) (s : State) : Result :=
  treadleWord s fun r =>
    let va := (r.reg a).toNat
    if va % 64 ≠ 0 ∨ 4 ≤ r.emits.length then .stop 5 false
    else
      match s.creelRead (s.runAgent r) va 64 with
      | .fault => .stop 5 true
      | .waits s1 => .waits s1
      | .ok _ bs => .go { r with emits := r.emits ++ [{ va := va, bytes := bs }] }

/-- Every buffered store is translated before any is made. -/
def State.checkStores (s : State) (who : Nat) : List (Nat × W64) → CreelAcc
  | [] => .ok s []
  | w :: r =>
    match s.creelCheck who w.1 8 with
    | .ok s1 _ => s1.checkStores who r
    | e => e

/-- The end of a run: its stores are performed in program order, and its packets take their level. -/
def execTreadleEnd (s : State) : Result :=
  match s.curRun with
  | none => .next s
  | some r =>
    let who := s.runAgent r
    if r.budget = 0 then .next s
    else
      match s.checkStores who r.stores with
      | .fault => .next (((s.clearDenied who).endRun r 5 []).msiv r.q)
      | .waits s1 => .next s1
      | .ok s1 _ =>
        .next ((r.stores.foldl (fun s w => s.creelWrite who w.1 (leBytes 8 w.2.toNat)) s1).endRun r 1 r.emits)

/-- The budget is spent before END. -/
def execTreadleBudgetExpiry (q : Nat) (s : State) : Result :=
  match s.runs.find? fun r => r.q = q with
  | none => .next s
  | some r => if r.budget = 0 then .next (s.endRun r 6 []) else .next s

/-! ## TREADLE packets -/

def execTreadlePacket (q : Nat) (p : Packet) (s : State) : Result :=
  dispatchPacket q p 0x09 (fun s _ num _ =>
    match s.handles.find? fun h => decide (h.h = bitsOf (p.dw 0x10) 0 6) && !h.freed with
    | none => .format s
    | some h =>
      let emits := h.words.any fun w => decide (bitsOf (w.setWidth 64) 24 8 = 0x20)
      let run : TreadleRun :=
        { q := q, pid := num, handle := h.h, words := h.words, pc := 0,
          regs := ((((Vector.replicate 16 (0 : W64)).set 1 (p.dw 0x18)).set 2 (p.dw 0x20)).set 3 (p.dw 0x28)).set 4 (p.dw 0x30),
          budget := bitsOf (p.dw 0x10) 16 16, stores := [], emits := [] }
      .ran { s with runs := s.runs ++ [run],
                    handles := s.handles.map fun e => if e.h = h.h then { e with users := e.users + 1 } else e }
        none (fun o => { o with treadle := some emits }) (if emits then 1 else 0)) s

/-! ## Programs (R326) -/

/-- Bits of a word that its op leaves unused; none for an undefined op. -/
def treadleUnused (op : Nat) : Option W32 :=
  if op = 0x01 ∨ op = 0x02 then some 0x000F0000
  else if 0x03 ≤ op ∧ op ≤ 0x09 then some 0x0000FFF0
  else if op = 0x0A ∨ op = 0x10 ∨ op = 0x11 ∨ (0x18 ≤ op ∧ op ≤ 0x1B) then some 0
  else if op = 0x20 then some 0x00F0FFFF
  else if op = 0x3F then some 0x00FFFFFF
  else none

def treadleOp (w : W32) : Nat := w.toNat / 2 ^ 24

/-- The verifier's reason for a program of these words, 0 when it is accepted but for its handle. -/
def verifyWords (ws : List W32) : Nat :=
  if ws.any fun w => (treadleUnused (treadleOp w)).isNone then 2
  else if ws.any fun w => match treadleUnused (treadleOp w) with
      | some m => decide (w &&& m ≠ 0)
      | none => false then 3
  else if (List.range ws.length).any fun i =>
      let w := ws.getD i 0
      decide (0x18 ≤ treadleOp w ∧ treadleOp w ≤ 0x1B) &&
        (let t := (i : Int) + sintOf 16 w.toNat; decide (t < 0 ∨ (ws.length : Int) ≤ t)) then 4
  else if ws.getLast?.map treadleOp ≠ some 0x3F then 5
  else 0

def execTload (v : W64) (s : State) : Result :=
  if s.tload.isSome then .next s
  else .next ({ s with tload := some (bitsOf v 4 52 * 16), stamp := s.stamp + 1 }.setDevReg (creel + 0x48) (1 <<< 63))

/-- Handles from 0 to 63 that are not held. -/
def State.freeHandles (s : State) : List Nat := (List.range 64).filter fun h => s.handles.all fun e => decide (e.h ≠ h)

/-- The verifier's answer: TSTAT with handle and reason. Which of the free handles an image gets is a free value (R326, assumption
log 72). -/
def execTloadVerifyComplete (s : State) : Result :=
  match s.tload with
  | none => .next s
  | some a =>
    let n := leNat (memBytes s.mem (a + 4) 4)
    let header := decide (leNat (memBytes s.mem a 4) = 0x31445254 ∧ 1 ≤ n ∧ n ≤ 1024 ∧ leNat (memBytes s.mem (a + 8) 8) = 0)
    let ws : List W32 := (List.range (min n 1024)).map fun i => BitVec.ofNat 32 (leNat (memBytes s.mem (a + 16 + 4 * i) 4))
    let free := s.freeHandles
    let reason := if !header then 1 else let r := verifyWords ws; if r ≠ 0 then r else if free.isEmpty then 6 else 0
    let h := free.getD (s.draw.1.toNat % free.length) 0
    let s1 : State := if reason = 0 then
        { s.draw.2 with handles := s.handles ++ [{ h := h, words := ws, users := 0, freed := false }] }
      else s
    .next ({ s1 with tload := none, stamp := s.stamp + 1 }.setDevReg (creel + 0x48)
      (BitVec.ofNat 64 ((if reason = 0 then h * 2 ^ 56 else 0) + reason)))

/-- A handle is freed, once the runs that use it have ended. -/
def execTfree (v : W64) (s : State) : Result :=
  let h := bitsOf v 0 6
  .next { s with stamp := s.stamp + 1,
                 handles := (s.handles.map fun e => if e.h = h then { e with freed := true } else e).filter fun e =>
                   !(e.freed && decide (e.users = 0)) }

end Sys2Proof.Machine
end

