-- ==== Sys2Proof/Machine/Images.lean ====
section
/-! DEFINITION. Task images and graphs as a launch reads and checks them (R50, R51, R119, R161, R170, R331 to R333, R336,
R339). -/

namespace Sys2Proof.Machine
open Sys2Proof

/-! ## Task images (R50, R51) -/

/-- A part of an image: offset and length. -/
abbrev Part := Nat × Nat

def partAt (bs : List Byte) (o : Nat) : Part := (numAt bs o 4, numAt bs (o + 4) 4)

/-- What the header of an image says. -/
structure Image where
  bytes : List Byte
  ctl : Part
  ld : Part
  ex : Part
  st : Part
  desc : Part
  pocket : Part
  pocketAt : Nat
  monitor : Nat
  fmt : Part
  groups : Part
  data : Part
  deriving DecidableEq, Repr

def imageOf (bs : List Byte) : Image :=
  { bytes := bs, ctl := partAt bs 0x10, ld := partAt bs 0x18, ex := partAt bs 0x20, st := partAt bs 0x28,
    desc := partAt bs 0x30, pocket := partAt bs 0x38, pocketAt := numAt bs 0x40 4, monitor := numAt bs 0x44 4,
    fmt := (numAt bs 0x48 4, 32 * numAt bs 0x4C 2), groups := (numAt bs 0x50 4, 2 * numAt bs 0x4E 2),
    data := partAt bs 0x54 }

def Image.part (i : Image) (p : Part) : List Byte := (i.bytes.drop p.1).take p.2
def Image.parts (i : Image) : List Part :=
  [i.ctl, i.ld, i.ex, i.st, i.desc, i.pocket, i.fmt, i.groups, i.data]

/-- Entries of the group block. -/
def Image.slots (i : Image) : List Nat :=
  (List.range (i.groups.2 / 2)).map fun k => numAt i.bytes (i.groups.1 + 2 * k) 2

/-- Records of the format block: entry bits and index. -/
def Image.records (i : Image) : List (BitVec 128 × Nat) :=
  (List.range (i.fmt.2 / 32)).map fun k =>
    (BitVec.ofNat 128 (numAt i.bytes (i.fmt.1 + 32 * k) 16), numAt i.bytes (i.fmt.1 + 32 * k + 16) 2)

/-- A code section's words. -/
def Image.code (i : Image) (p : Part) : Section :=
  { words := (List.range (p.2 / 4)).map fun k => BitVec.ofNat 32 (numAt i.bytes (p.1 + 4 * k) 4), bad := [] }

/-- The whole format block passes R119. -/
def Image.formatOk (i : Image) : Bool :=
  let rs := i.records
  (rs.all fun r => decide (r.2 < 64) && decide (r.1 &&& 0x8FF00FFFFFF = 0)) && decide ((rs.map Prod.snd).Nodup) &&
  (List.range rs.length).all fun k => decide (numAt i.bytes (i.fmt.1 + 32 * k + 18) 14 = 0)

/-- Two parts meet. -/
def partsMeet (a b : Part) : Bool := decide (a.1 < b.1 + b.2) && decide (b.1 < a.1 + a.2)

/-- No two of the parts meet. -/
def apart : List Part → Bool
  | [] => true
  | a :: r => r.all (fun b => !partsMeet a b) && apart r

/-- The image passes R50 and R51. The Pocket's address is checked where its part is empty too, and a monitor entry may lie beyond
its section (assumption logs 102 and 103). -/
def Image.ok (i : Image) : Bool :=
  let b := i.bytes
  let live := i.parts.filter fun p => p.2 ≠ 0
  decide (96 ≤ b.length) && decide (numAt b 0 4 = 0x31444255 ∧ numAt b 4 2 = 1 ∧ numAt b 6 2 = 0 ∧ numAt b 8 4 = b.length ∧
    numAt b 0x5C 4 = 0) &&
  decide (numAt b 0x0C 4 = (crc32 (b.take 12 ++ [0, 0, 0, 0] ++ b.drop 16)).toNat) &&
  (i.parts.all fun p => decide (p.2 ≠ 0) || decide (p.1 = 0)) &&
  (live.all fun p => decide (p.1 % 64 = 0) && decide (p.1 + p.2 ≤ b.length)) && apart ((0, 96) :: live) &&
  ([i.ctl, i.ld, i.ex, i.st].all fun p => decide (p.2 % 4 = 0) && decide (p.2 ≤ 2 ^ 24)) &&
  decide (i.desc.2 = 64 ∨ i.desc.2 = 0) && decide (i.pocketAt + i.pocket.2 ≤ Config.pocketBytes) &&
  decide (i.groups.2 ≤ 8) && i.formatOk && decide (i.monitor / 2 % 2 = 0) &&
  (decide (i.monitor % 2 = 1) || decide (i.monitor = 0))

/-! ## Graphs (R331, R332) -/

/-- A task entry. -/
structure GEntry where
  img : Nat
  tsoff : Nat
  attr : Nat
  share : Nat
  slv : Nat
  blt : Nat
  npred : Nat
  nout : Nat
  first : Nat
  carry : Nat
  shape0 : Nat
  shape1 : Nat
  cond : Nat
  deriving DecidableEq, Repr

def entryAt (b : List Byte) (i : Nat) : GEntry :=
  let o := 64 * i
  { img := numAt b o 8, tsoff := numAt b (o + 8) 8, attr := numAt b (o + 0x10) 4, share := numAt b (o + 0x14) 4,
    slv := numAt b (o + 0x18) 2, blt := numAt b (o + 0x1A) 2, npred := numAt b (o + 0x1C) 2, nout := numAt b (o + 0x1E) 2,
    first := numAt b (o + 0x20) 4, carry := numAt b (o + 0x24) 4, shape0 := numAt b (o + 0x28) 8,
    shape1 := numAt b (o + 0x30) 8, cond := numAt b (o + 0x38) 8 }

/-- A graph with the bytes of its header, task table, successor array and group table. -/
structure Graph where
  header : List Byte
  table : List Byte
  succ : List Byte
  gtab : List Byte
  deriving DecidableEq, Repr

def Graph.ntask (g : Graph) : Nat := numAt g.header 6 2
def Graph.nsucc (g : Graph) : Nat := numAt g.header 8 4
def Graph.entries (g : Graph) : List GEntry := (List.range g.ntask).map (entryAt g.table)

/-- Successor entry `k`. -/
def Graph.edge (g : Graph) (k : Nat) : Edge :=
  let v := numAt g.succ (2 * k) 2
  { succ := v % 4096, cond := decide (v / 2 ^ 14 % 2 = 1), pol := decide (v / 2 ^ 15 % 2 = 1) }

def Graph.edges (g : Graph) (e : GEntry) : List Edge := (List.range e.nout).map fun k => g.edge (e.first + k)

/-- The header of a graph passes R331. -/
def headerOk (h : List Byte) : Bool :=
  decide (numAt h 0 4 = 0x31474255 ∧ numAt h 4 2 = 1 ∧ 1 ≤ numAt h 6 2 ∧ numAt h 6 2 ≤ 4096 ∧ numAt h 8 4 ≤ 65536 ∧
    numAt h 0x0C 4 = 0 ∧ numAt h 0x10 4 % 64 = 0 ∧ numAt h 0x14 4 % 2 = 0) &&
  (decide (numAt h 8 4 ≠ 0) || decide (numAt h 0x14 4 = 0)) && (h.drop 0x18).all fun b => decide (b = 0)

/-- A group-table entry (R170). -/
def groupAt (b : List Byte) (i : Nat) : Group :=
  let w := numAt b (32 * i + 30) 2
  { members := (List.range 240).filter fun p => (b.getD (32 * i + p / 8) 0).getLsbD (p % 8),
    oneLoom := decide (w / 2 ^ 8 % 2 = 1), onePanel := decide (w / 2 ^ 9 % 2 = 1), bcfg := BitVec.ofNat 8 w }

/-- Group-table checks of R170. -/
def groupsOk (b : List Byte) (gs : List Group) : Bool :=
  (gs.all fun g => !g.members.isEmpty) &&
  ((List.range gs.length).all fun i => decide (numAt b (32 * i + 30) 2 / 2 ^ 10 = 0)) &&
  (List.range 240).all fun p => decide ((gs.filter fun g => g.members.contains p).length ≤ 4)

/-- Edges that name task `i`, with their tails. -/
def Graph.into (g : Graph) (i : Nat) : List Nat :=
  ((List.range g.ntask).zip g.entries).flatMap fun p => ((g.edges p.2).filter fun e => e.succ = i).map fun _ => p.1

/-- How many entries of the successor array name task `i`, whoever owns them. -/
def Graph.named (g : Graph) (i : Nat) : Nat := ((List.range g.nsucc).filter fun k => (g.edge k).succ = i).length

/-- Every entry of the successor array keeps R332: its zero bits, and the index of a task. -/
def Graph.succOk (g : Graph) : Bool :=
  (List.range g.nsucc).all fun k => decide (numAt g.succ (2 * k) 2 / 2 ^ 12 % 4 = 0) && decide ((g.edge k).succ < g.ntask)

/-- The checks of R161 and R333 on task `i`. -/
def Graph.taskOk (g : Graph) (tsbase : Nat) (i : Nat) (e : GEntry) (im : Image) (ngrp : Nat) : Bool :=
  let es := g.entries
  let prod := e.carry % 4096
  let cs := decide (e.carry / 2 ^ 12 % 2 = 1)
  let cb := decide (e.carry / 2 ^ 13 % 2 = 1)
  let pr := es.getD prod e
  decide (e.img % 64 = 0) && decide (e.attr < 8) && decide (e.attr % 4 ≠ 3) && decide (1 ≤ e.share ∧ e.share ≤ 256) &&
  decide (e.slv ≤ 64 ∧ e.blt ≤ 1792) && decide (e.first + e.nout ≤ g.nsucc) && decide (tsbase + e.tsoff < 2 ^ 64) &&
  decide (e.shape0 % 8 = 0 ∧ e.shape1 % 8 = 0 ∧ e.cond % 8 = 0) && decide (e.carry < 2 ^ 14) &&
  ((g.edges e).all fun d => decide (i < d.succ ∧ d.succ < g.ntask) &&
    decide (e.tsoff ≤ (es.getD d.succ e).tsoff) && (!d.cond || decide (e.cond ≠ 0))) &&
  decide (e.npred = g.named i) &&
  (if cs || cb then (g.into i).contains prod && (!cs || decide (e.slv = pr.slv)) && (!cb || decide (e.blt = pr.blt))
   else decide (prod = 0)) &&
  im.ok && (im.slots.all fun k => decide (k < ngrp)) && (decide (e.attr % 2 = 0) || !im.slots.isEmpty)

/-- No producer's allocation is carried twice at one level. -/
def Graph.carriesOk (g : Graph) : Bool :=
  let lv (bit : Nat) : List Nat := (g.entries.filter fun e => e.carry / 2 ^ bit % 2 = 1).map fun e => e.carry % 4096
  decide ((lv 12).Nodup) && decide ((lv 13).Nodup)

/-! ## Shape hash (R339) -/

def Graph.hash (g : Graph) (images : List Image) (gang : Nat) : BitVec 128 :=
  BitVec.ofNat 128 (leNat ((sha384 (g.header ++ g.table ++ g.succ ++ g.gtab ++
    (images.flatMap fun i => (i.bytes.drop 0x0C).take 4) ++ leBytes 2 gang)).take 16))

/-! ## Places (R336, R372) -/

/-- Enabled shuttles: of each panel the first in service, as many as PCFG gives (R383, R389). -/
def State.enabledWithout (s : State) (out : List ShNo) : List ShNo :=
  (List.range 4).flatMap fun p =>
    (((List.range 64).map fun i => (BitVec.ofNat 8 (64 * p + i) : ShNo)).filter fun n => !out.contains n).take
      (bitsOf (s.devReg 0x40008) (8 * p) 6)

def State.enabledShuttles (s : State) : List ShNo := s.enabledWithout s.outShuttles

/-- Places joined with place set `l` by entries that keep their places together: `fuel` rounds. -/
def joinPlaces (gs : List Group) : Nat → List Nat → List Nat
  | 0, l => l
  | fuel + 1, l =>
    joinPlaces gs fuel (gs.foldl (fun l g => if g.members.any l.contains then l ++ g.members.filter (fun p => !l.contains p)
      else l) l)

/-- The sets of places that some entries keep together. -/
def placeSets (gs : List Group) : List (List Nat) :=
  (gs.map fun g => (joinPlaces gs gs.length g.members).mergeSort).dedup

/-- Looms with room for each need among its candidates; `f` goes on with the room that is left. -/
def fitLooms (room : List Nat) (f : List Nat → Bool) : List (List Nat × Nat) → Bool
  | [] => f room
  | (looms, need) :: r =>
    looms.any fun k => decide (need ≤ room.getD k 0) && fitLooms (room.set k (room.getD k 0 - need)) f r

/-- A set of places that one panel is to hold: the panels it may go to, the sets within it that one loom is to hold, each with the
loom it is bound to, and how many other places of it have no shuttle yet. -/
structure PanelSet where
  panels : List Nat
  looms : List (Option Nat × Nat)
  single : Nat

/-- Every set gets a panel, and every set within it a loom, with shuttles for the single places of each panel, and for `rest`
others anywhere. `singles` are those of each panel so far. -/
def fitPanels (rest : Nat) : List PanelSet → List Nat → List Nat → Bool
  | [], singles, room =>
    let free (p : Nat) : Nat := ((room.drop (8 * p)).take 8).sum
    ((List.range 4).all fun p => decide (singles.getD p 0 ≤ free p)) && decide (singles.sum + rest ≤ room.sum)
  | c :: cs, singles, room =>
    c.panels.any fun p =>
      fitLooms room (fitPanels rest cs (singles.set p (singles.getD p 0 + c.single)))
        (c.looms.map fun q => ((match q.1 with
          | some k => if k / 8 = p then [k] else []
          | none => (List.range 8).map (8 * p + ·)), q.2))

/-- The one value that a list holds, if it holds just one. -/
def onlyOne : List Nat → Option Nat
  | [k] => some k
  | _ => none

/-- The map `m` of some places extends to one of every place of the groups that R336 allows, over the shuttles `en`. -/
def mapExtends (gs : List Group) (en : List ShNo) (m : List (Nat × ShNo)) : Bool :=
  let at_ (p : Nat) : Option ShNo := (m.find? fun q => q.1 = p).map Prod.snd
  let units (unit : Nat) (l : List Nat) : List Nat := ((l.filterMap at_).map fun n => n.toNat / unit).dedup
  let free (l : List Nat) : List Nat := l.filter fun p => (at_ p).isNone
  let inLoom := placeSets (gs.filter Group.oneLoom)
  let inPanel := placeSets (gs.filter fun g => g.oneLoom || g.onePanel)
  let panelSet (l : List Nat) : PanelSet :=
    let mine := inLoom.filter fun k => k.any l.contains
    { panels := if (units 64 l).isEmpty then List.range 4 else (onlyOne (units 64 l)).toList,
      looms := mine.map fun k => (onlyOne (units 8 k), (free k).length),
      single := (free (l.filter fun p => !mine.any fun k => k.contains p)).length }
  let all := (gs.flatMap Group.members).dedup
  let room := (List.range 32).map fun k =>
    (en.filter fun n => decide (n.toNat / 8 = k) && !(m.map Prod.snd).contains n).length
  (inLoom.all fun l => decide ((units 8 l).length ≤ 1)) &&
  fitPanels (free (all.filter fun p => !inPanel.any fun l => l.contains p)).length (inPanel.map panelSet) [0, 0, 0, 0] room

/-- The places of the groups fit on the enabled shuttles, each of which a place names by its number at most (R336, R372). -/
def State.placesFit (s : State) (gs : List Group) : Bool :=
  let en := s.enabledShuttles
  mapExtends gs en [] && gs.all fun g => g.members.all fun p => decide (p < en.length)

/-- Size of the package's gang, 1 outside a gang (R339, R416). -/
def State.gangMembers (s : State) : List (BitVec 8) :=
  if (s.devReg (warpBlock + 0x10)).getLsbD 16 then
    ((List.range 256).filter fun p => (s.devReg (warpBlock + 0x200 + 8 * (p / 64))).getLsbD (p % 64)).map (BitVec.ofNat 8)
  else []

def State.gangSize (s : State) : Nat := max 1 s.gangMembers.length

/-! ## Communicators (R397, R404, R405, R408) -/

/-- A register of communicator `cm`. -/
def commReg (cm : BitVec 6) (off : Nat) : Nat := warpBlock + 0x2000 + 32 * cm.toNat + off

/-- The fields of CMCFG. -/
def State.cmcfg (s : State) (cm : BitVec 6) : W64 := s.devReg (commReg cm 0)
def State.commSize (s : State) (cm : BitVec 6) : Nat := bitsOf (s.cmcfg cm) 48 8 + 1
def State.commRank (s : State) (cm : BitVec 6) : Nat := bitsOf (s.cmcfg cm) 40 8
/-- Bytes of a chunk; a reserved CHK is taken as 8. -/
def State.commChunk (s : State) (cm : BitVec 6) : Nat := 4096 * 2 ^ min (bitsOf (s.cmcfg cm) 12 4) 8
/-- Its virtual channel; the reserved 0 is taken as 1. -/
def State.commVc (s : State) (cm : BitVec 6) : BitVec 2 := BitVec.ofNat 2 (max 1 (bitsOf (s.cmcfg cm) 10 2))
/-- Landing slots of a communicator: its landing area holds 4 x 2 chunks. -/
def landingSlots : Nat := 8

def State.comm (s : State) (cm : BitVec 6) : Comm :=
  (s.comms.find? fun c => c.cm = cm).getD { cm := cm, issued := 0, blocked := false, landed := [], noticed := [], edges := [] }

def State.putComm (s : State) (c : Comm) : State :=
  { s with comms := c :: s.comms.filter fun o => decide (o.cm ≠ c.cm) }

/-- The records of the rank list. -/
def State.rankList (s : State) (cm : BitVec 6) : List W32 :=
  let base := bitsOf (s.devReg (commReg cm 8)) 2 54 * 4
  (List.range (s.commSize cm)).map fun i => BitVec.ofNat 32 (leNat (memBytes s.mem (base + 4 * i) 4))

/-- Package, panel and domain of a record. -/
def rankPkn (w : W32) : BitVec 8 := w.setWidth 8
def rankPanel (w : W32) : BitVec 2 := (w >>> 8).setWidth 2
def rankDom (w : W32) : BitVec 16 := (w >>> 16).setWidth 16

/-- DOM of this package. -/
def State.dom (s : State) : BitVec 16 := (s.devReg warpBlock >>> 16).setWidth 16

end Sys2Proof.Machine
end

