-- ==== Sys2Proof/Machine/Special.lean ====
section
/-! DEFINITION. Special registers of the control sequencer and the moves that reach them (R11 to R14, R74, R79, R118, R164,
R171, R192, R193, R256, R257, R353). -/

namespace Sys2Proof.Machine
open Sys2Proof

/-- How a special register answers in a mode: cause 0x03, read only, or read and write. -/
inductive SprMode where
  | denied | readOnly | readWrite
  deriving DecidableEq, Repr

/-- Task-mode and monitor-mode access of a special-register number; none for an unassigned one. -/
def sprModes (p : Nat) : Option (SprMode × SprMode) :=
  if p = 0x00 ∨ p = 0x18 ∨ p = 0x1F ∨ p = 0x20 ∨ p = 0x22 ∨ p = 0x23 then some (.readOnly, .readOnly)
  else if p = 0x02 ∨ (0x04 ≤ p ∧ p ≤ 0x09) then some (.readOnly, .readWrite)
  else if p = 0x01 ∨ p = 0x03 ∨ p = 0x17 ∨ p = 0x1C ∨ p = 0x1D ∨ p = 0x1E ∨ p = 0x21 ∨ (0x24 ≤ p ∧ p ≤ 0x29) then
    some (.readWrite, .readWrite)
  else if (0x10 ≤ p ∧ p ≤ 0x16) ∨ (0x19 ≤ p ∧ p ≤ 0x1B) ∨ (0x2A ≤ p ∧ p ≤ 0x32) then some (.denied, .readWrite)
  else if p = 0x33 then some (.denied, .readOnly)
  else none

/-- shid (R11, R383). -/
def shidOf (n : ShNo) : W64 := BitVec.ofNat 64 (n.toNat / 8 * 256 + n.toNat)

/-- The value of a special register of shuttle `n`, but for the format table. -/
def State.readSpr (s : State) (n : ShNo) (p : Nat) : W64 :=
  let x := s.shuttle n
  match p with
  | 0x00 => x.c.pc.setWidth 64
  | 0x01 => x.lnk
  | 0x02 => x.bor.setWidth 64
  | 0x03 => x.c.status
  | 0x04 => (x.c.loops.level 0).k.setWidth 64
  | 0x05 => (x.c.loops.level 1).k.setWidth 64
  | 0x06 => (x.c.loops.level 2).k.setWidth 64
  | 0x07 => (x.c.loops.level 3).k.setWidth 64
  | 0x08 => (x.c.loops.level 4).k.setWidth 64
  | 0x09 => (x.c.loops.level 5).k.setWidth 64
  | 0x10 => x.tvec.setWidth 64
  | 0x11 => x.epc.setWidth 64
  | 0x12 => x.ecause
  | 0x13 => x.eval
  | 0x14 => x.esst
  | 0x15 => x.mscratch
  | 0x16 => x.shp
  | 0x17 => x.gsel.setWidth 64
  | 0x18 => shidOf n
  | 0x19 => x.l.status
  | 0x1A => x.x.status
  | 0x1B => x.s.status
  | 0x1C => x.ftix.setWidth 64
  | 0x1D => (x.entry x.ftix.toNat).bits.setWidth 64
  | 0x1E => ((x.entry x.ftix.toNat).bits >>> 64).setWidth 64
  | 0x1F => x.dseg
  | 0x20 => x.tts
  | 0x21 => x.rwin.setWidth 64
  | 0x22 => x.sgnt
  | 0x23 => x.bgnt
  | 0x24 => x.dpr[0]
  | 0x25 => x.dpr[1]
  | 0x26 => x.dpr[2]
  | 0x27 => x.dpr[3]
  | 0x28 => x.c.dtb
  | 0x29 => x.c.dtp
  | 0x2A => x.l.dtb
  | 0x2B => x.l.dtp
  | 0x2C => x.s.dtb
  | 0x2D => x.s.dtp
  | 0x2E => x.eaux
  | 0x2F => x.dbgc
  | 0x30 => x.lrpc.setWidth 64
  | 0x31 => x.xrpc.setWidth 64
  | 0x32 => x.srpc.setWidth 64
  | 0x33 => x.sstp.setWidth 64
  | _ => 0

/-- W1C bits of the status registers (R13, R78). -/
def w1cBits : W64 := 0x1BF

/-- The bits of shp and of eaux that are not reserved (R89, R353). -/
def shpMask : W64 := 0xFFF07FC7
def eauxMask : W64 := 0xBF000000FFFFFFFF

def clearFlags (status t : W64) : W64 := status &&& ~~~(t &&& w1cBits)

def Seq.setK (q : Seq) (j : Nat) (v : W32) : Seq :=
  { q with loops := q.loops.setLevel j { q.loops.level j with k := v } }

/-- The format entry with one half written: HD, GEN and the reserved bits stay, GEN then advances (R118). -/
def writeHalf (e : BitVec 128) (high : Bool) (v : W64) : BitVec 128 :=
  let m : BitVec 128 := if high then 0xFFFFFFFFFFFFFFFF0000000000000000 else 0xFFFFF700FF000000
  let w : BitVec 128 := if high then v.setWidth 128 <<< 64 else v.setWidth 128
  bumpGen ((e &&& ~~~m) ||| (w &&& m))

/-- The windows a write of rwin opens, and whether one is refused (R193). -/
def State.windowsFor (s : State) (n : ShNo) (v : W64) : W32 × Bool :=
  let ok (t : Nat) : Bool := decide (t ≠ n.toNat % 8) && s.sameGang n (loomMate n t)
  let want := (List.range 8).filter v.getLsbD
  (BitVec.ofNat 32 ((want.filter ok).foldl (fun a t => a + 2 ^ t) 0), !want.all ok)

def dtbMask : W64 := 0x00FFFFFFFFFFFFC0

/-- A dpr register written. -/
def State.writeDpr (s : State) (n : ShNo) (i : Fin 4) (v : W64) : State :=
  let x := s.shuttle n
  let r := dprValue ((List.range 4).filterMap fun j => if j = i.val then none else x.dpr.toList[j]?) v
  (s.modShuttle n fun x => { x with dpr := x.dpr.set i.val r.1 }).warnIf r.2

/-- The effect of a write that the mode allows, on the issuing shuttle, but for the format table. -/
def State.writeSpr (s : State) (p : Nat) (t : W64) : State :=
  let n := s.here
  let w : W32 := t.setWidth 32
  let put (f : Shuttle → Shuttle) : State := s.modShuttle n f
  match p with
  | 0x01 => put fun x => { x with lnk := t }
  | 0x02 => put fun x => { x with bor := w }
  | 0x03 => put fun x => { x with c := { x.c with status := clearFlags x.c.status t } }
  | 0x04 => put fun x => { x with c := x.c.setK 0 w }
  | 0x05 => put fun x => { x with c := x.c.setK 1 w }
  | 0x06 => put fun x => { x with c := x.c.setK 2 w }
  | 0x07 => put fun x => { x with c := x.c.setK 3 w }
  | 0x08 => put fun x => { x with c := x.c.setK 4 w }
  | 0x09 => put fun x => { x with c := x.c.setK 5 w }
  | 0x10 => put fun x => { x with tvec := w, fwTvec := if x.task.isNone then w else x.fwTvec }
  | 0x11 => put fun x => { x with epc := w }
  | 0x12 => put fun x => { x with ecause := t }
  | 0x13 => put fun x => { x with eval := t }
  | 0x14 => put fun x => { x with esst := t }
  | 0x15 => put fun x => { x with mscratch := t }
  | 0x16 => put fun x => { x with shp := t &&& shpMask }
  | 0x17 => put fun x => { x with gsel := t.setWidth 2 }
  | 0x19 => put fun x => { x with l := { x.l with status := clearFlags x.l.status t } }
  | 0x1A => put fun x => { x with x := { x.x with status := clearFlags x.x.status t } }
  | 0x1B => put fun x => { x with s := { x.s with status := clearFlags x.s.status t } }
  | 0x1C => (put fun x => { x with ftix := t.setWidth 6 }).warnIf (decide (bitsOf t 6 26 ≠ 0))
  | 0x21 => let r := s.windowsFor n t; (put fun x => { x with rwin := r.1 }).warnIf r.2
  | 0x24 => s.writeDpr n 0 t
  | 0x25 => s.writeDpr n 1 t
  | 0x26 => s.writeDpr n 2 t
  | 0x27 => s.writeDpr n 3 t
  | 0x28 => put fun x => { x with c := { x.c with dtb := t &&& dtbMask } }
  | 0x29 => put fun x => { x with c := { x.c with dtp := t } }
  | 0x2A => put fun x => { x with l := { x.l with dtb := t &&& dtbMask } }
  | 0x2B => put fun x => { x with l := { x.l with dtp := t } }
  | 0x2C => put fun x => { x with s := { x.s with dtb := t &&& dtbMask } }
  | 0x2D => put fun x => { x with s := { x.s with dtp := t } }
  | 0x2E => put fun x => { x with eaux := t &&& eauxMask }
  | 0x2F => put fun x => { x with dbgc := t &&& 0x1F }
  | 0x30 => if s.me.sstp.getLsbD 0 then put fun x => { x with lrpc := w } else s.warn
  | 0x31 => if s.me.sstp.getLsbD 1 then put fun x => { x with xrpc := w } else s.warn
  | 0x32 => if s.me.sstp.getLsbD 2 then put fun x => { x with srpc := w } else s.warn
  | _ => s

/-- A special-register move: `rd` takes the old value, `wr` gives the new one (R12, R74). -/
def sprMove (s : State) (p : Nat) (rd : Option RegNo) (wr : Option RegNo) : Eff :=
  match sprModes p with
  | none => .trapWord 0x01
  | some (tm, mm) =>
    let m := if s.taskMode then tm else mm
    if m = .denied then .trapWord 0x03
    else
      let t := wr.map s.sreg
      let v := s.readSpr s.here p
      let half := decide (p = 0x1D ∨ p = 0x1E)
      let i := s.me.ftix.toNat
      let write (s : State) : State :=
        match t with
        | none => s
        | some t =>
          if m = .readOnly then s.warn
          else if half then
            s.modMe fun x =>
              (x.mend .c (damage 5 i)).setEntry i { x.entry i with bits := writeHalf (x.entry i).bits (decide (p = 0x1E)) t }
          else s.writeSpr p t
      let read (s : State) : State :=
        match rd with
        | none => s
        | some d => s.setSreg d v
      if half then
        unlessDamaged s (if rd.isSome then [damage 5 i] else []) <|
          withTable s t.isSome .plain [(i, 15)] fun s => .done (read (write s))
      else .done (read (write s))

def execMfsr (d : RegNo) (p : BitVec 8) (s : State) : Result := runC s (sprMove s p.toNat (some d) none)
def execMtsr (a : RegNo) (p : BitVec 8) (s : State) : Result := runC s (sprMove s p.toNat none (some a))
def execMxsr (d a : RegNo) (p : BitVec 8) (s : State) : Result := runC s (sprMove s p.toNat (some d) (some a))

end Sys2Proof.Machine
end

