-- ==== Sys2Proof/Machine/Checkpoint.lean ====
section
/-! DEFINITION. The checkpoint image: where each part of a shuttle stands in its record, and how an image is read back (R367 to
R369). -/

namespace Sys2Proof.Machine
open Sys2Proof

/-! ## Fields of a shuttle record (R368) -/

/-- A field of `n` bytes at an offset of the record. -/
structure RecField where
  off : Nat
  n : Nat
  get : Shuttle → Nat
  put : Nat → Shuttle → Shuttle

def w32 (v : Nat) : W32 := BitVec.ofNat 32 v
/-- A pc: bits 1:0 are zero (R18). -/
def wpc (v : Nat) : W32 := w32 v &&& ~~~3#32
/-- A status register: its reserved bits read zero (R7, R13, R78, R260), and only sst has MON. -/
def wstatus (st : Stream) (v : Nat) : W64 :=
  BitVec.ofNat 64 v &&& (w1cBits ||| 0x10000 ||| if st = .c then 0x8000 else 0)
def w64 (v : Nat) : W64 := BitVec.ofNat 64 v

def sregFields : List RecField :=
  (List.range 32).map fun i =>
    { off := 8 * i, n := 8, get := fun x => (x.sregs.toList.getD i 0).toNat,
      put := fun v x => if h : i < 32 then { x with sregs := x.sregs.set i (w64 v) h } else x }

/-- A special register of C; grants and shuttle numbers are those of the new placement. -/
def spr (p : Nat) (get : Shuttle → Nat) (put : Nat → Shuttle → Shuttle) : RecField :=
  { off := 0x100 + 8 * p, n := 8, get := get, put := put }

def dprField (i : Nat) : RecField :=
  spr (0x24 + i) (fun x => (x.dpr.toList.getD i 0).toNat) fun v x =>
    if h : i < 4 then
      { x with dpr := x.dpr.set i (dprValue ((List.range i).filterMap fun j => x.dpr.toList[j]?) (w64 v)).1 h }
    else x

def sprFields : List RecField :=
  [spr 0x00 (fun x => x.c.pc.toNat) fun v x => { x with c := { x.c with pc := wpc v } },
   spr 0x01 (fun x => x.lnk.toNat) fun v x => { x with lnk := w64 v },
   spr 0x02 (fun x => x.bor.toNat) fun v x => { x with bor := w32 v },
   spr 0x03 (fun x => x.c.status.toNat) fun v x => { x with c := { x.c with status := wstatus .c v } },
   spr 0x10 (fun x => x.tvec.toNat) fun v x => { x with tvec := w32 v },
   spr 0x11 (fun x => x.epc.toNat) fun v x => { x with epc := w32 v },
   spr 0x12 (fun x => x.ecause.toNat) fun v x => { x with ecause := w64 v },
   spr 0x13 (fun x => x.eval.toNat) fun v x => { x with eval := w64 v },
   spr 0x14 (fun x => x.esst.toNat) fun v x => { x with esst := w64 v },
   spr 0x15 (fun x => x.mscratch.toNat) fun v x => { x with mscratch := w64 v },
   spr 0x16 (fun x => x.shp.toNat) fun v x => { x with shp := w64 v &&& shpMask },
   spr 0x17 (fun x => x.gsel.toNat) fun v x => { x with gsel := BitVec.ofNat 2 v },
   spr 0x1C (fun x => x.ftix.toNat) fun v x => { x with ftix := BitVec.ofNat 6 v },
   spr 0x1F (fun x => x.dseg.toNat) fun v x => { x with dseg := w64 v },
   spr 0x20 (fun x => x.tts.toNat) fun v x => { x with tts := w64 v },
   spr 0x21 (fun x => x.rwin.toNat) fun v x => { x with rwin := w32 v &&& 0xFF },
   spr 0x28 (fun x => x.c.dtb.toNat) fun v x => { x with c := { x.c with dtb := w64 v &&& dtbMask } },
   spr 0x29 (fun x => x.c.dtp.toNat) fun v x => { x with c := { x.c with dtp := w64 v } },
   spr 0x2E (fun x => x.eaux.toNat) fun v x => { x with eaux := w64 v &&& eauxMask },
   spr 0x2F (fun x => x.dbgc.toNat) fun v x => { x with dbgc := w64 v &&& 0x1F },
   spr 0x30 (fun x => x.lrpc.toNat) fun v x => { x with lrpc := w32 v },
   spr 0x31 (fun x => x.xrpc.toNat) fun v x => { x with xrpc := w32 v },
   spr 0x32 (fun x => x.srpc.toNat) fun v x => { x with srpc := w32 v },
   spr 0x33 (fun x => x.sstp.toNat) fun v x => { x with sstp := BitVec.ofNat 3 v }] ++ (List.range 4).map dprField

/-- Special registers that a record shows and that a restore does not take from it. -/
def State.shownSprs (s : State) (n : ShNo) : List (Nat × List Byte) :=
  ([0x04, 0x05, 0x06, 0x07, 0x08, 0x09, 0x18, 0x19, 0x1A, 0x1B, 0x1D, 0x1E, 0x22, 0x23, 0x2A, 0x2B, 0x2C, 0x2D] : List Nat).map
    fun p => (0x100 + 8 * p, leBytes 8 (s.readSpr n p).toNat)

/-- pc, status and tape registers of L, X or S. -/
def seqFields (st : Stream) (off : Nat) : List RecField :=
  let on (f : Seq → Seq) (x : Shuttle) : Shuttle := x.setSeq st (f (x.seq st))
  [{ off := off, n := 8, get := fun x => (x.seq st).pc.toNat, put := fun v => on fun q => { q with pc := wpc v } },
   { off := off + 8, n := 8, get := fun x => (x.seq st).status.toNat,
     put := fun v => on fun q => { q with status := wstatus st v } }] ++
  (if st = .x then
    [{ off := off + 16, n := 8, get := fun x => x.shp.toNat, put := fun v x => { x with shp := w64 v &&& shpMask } }]
   else
    [{ off := off + 144, n := 8, get := fun x => (x.seq st).dtb.toNat, put := fun v => on fun q => { q with dtb := w64 v &&& dtbMask } },
     { off := off + 152, n := 8, get := fun x => (x.seq st).dtp.toNat,
       put := fun v => on fun q => { q with dtp := w64 v } }])

def aregFields : List RecField :=
  (List.range 16).flatMap fun i =>
    [{ off := 0x310 + 8 * i, n := 8, get := fun x => (x.aL.toList.getD i 0).toNat,
       put := fun v x => if h : i < 16 then { x with aL := x.aL.set i (w64 v) h } else x },
     { off := 0x510 + 8 * i, n := 8, get := fun x => (x.aS.toList.getD i 0).toNat,
       put := fun v x => if h : i < 16 then { x with aS := x.aS.set i (w64 v) h } else x }]

/-- The loop unit of a stream. -/
def loopFields (st : Stream) : List RecField :=
  let base := 0x600 + 256 * strCode st
  let on (j : Nat) (f : Level → Level) (x : Shuttle) : Shuttle :=
    let q := x.seq st
    x.setSeq st { q with loops := q.loops.setLevel j (f (q.loops.level j)) }
  let lv (j : Nat) : List RecField :=
    let o := base + 32 * j
    let get (f : Level → Nat) (x : Shuttle) : Nat := f ((x.seq st).loops.level j)
    [{ off := o, n := 4, get := get fun l => l.k.toNat, put := fun v => on j fun l => { l with k := w32 v } },
     { off := o + 4, n := 4, get := get fun l => l.lim.toNat, put := fun v => on j fun l => { l with lim := w32 v } },
     { off := o + 8, n := 4, get := get fun l => l.str, put := fun v => on j fun l => { l with str := v } },
     { off := o + 12, n := 4, get := get fun l => l.start.toNat, put := fun v => on j fun l => { l with start := wpc v } },
     { off := o + 16, n := 4, get := get fun l => l.fin.toNat, put := fun v => on j fun l => { l with fin := wpc v } },
     { off := o + 20, n := 1, get := get fun l => l.fo.toNat, put := fun v => on j fun l => { l with fo := decide (v ≠ 0) } },
     { off := o + 21, n := 1, get := get fun l => l.lo.toNat, put := fun v => on j fun l => { l with lo := decide (v ≠ 0) } }]
  (List.range 6).flatMap lv ++
    [{ off := base + 192, n := 1, get := fun x => (x.seq st).loops.depth,
       put := fun v x => let q := x.seq st; x.setSeq st { q with loops := { q.loops with depth := v } } }]

/-- A counter of tokens or credits, what it orders being known to every agent of a resumed task (R366). -/
def tokenField (off : Nat) (get : Shuttle → List Know) (put : List Know → Shuttle → Shuttle) : RecField :=
  { off := off, n := 1, get := fun x => (get x).length, put := fun v => put (List.replicate v Know.none) }

def tokenFields : List RecField :=
  [tokenField 0xA00 (fun x => x.tLX) fun l x => { x with tLX := l },
   tokenField 0xA01 (fun x => x.tXS) fun l x => { x with tXS := l },
   tokenField 0xA02 (fun x => x.tSL) fun l x => { x with tSL := l },
   tokenField 0xA03 (fun x => x.crLX) fun l x => { x with crLX := l },
   tokenField 0xA04 (fun x => x.crXS) fun l x => { x with crXS := l },
   tokenField 0xA05 (fun x => x.crSL) fun l x => { x with crSL := l }]

/-- A release of a saved task's agents, which every agent of the resumed task has acquired. -/
def oldCarry : Carry := { agent := 0, home := 0, ext := .sq 0, clk := [] }

def countFields : List RecField :=
  ((List.range 8).map fun i =>
    { off := 0xA06 + i, n := 1, get := fun x => x.cc.toList.getD i 0,
      put := fun v x => if h : i < 8 then { x with cc := x.cc.set i v h } else x }) ++
  ((List.range 16).map fun i =>
    { off := 0xA0E + i, n := 1, get := fun x => (x.sem (BitVec.ofNat 4 i)).count,
      put := fun v x => x.setSem (BitVec.ofNat 4 i)
        { count := v, signals := List.replicate v oldCarry, ordered := true, last := none } }) ++
  ((List.range 4).map fun i =>
    { off := 0xA1F + i, n := 1, get := fun x => lowBits 8 (x.tiles.toList.getD i Tile.empty).anchor,
      put := fun v x => if h : i < 4 then
          { x with tiles := x.tiles.set i { (x.tiles[i]'h) with anchor := sintOf 8 v } h } else x }) ++
  [{ off := 0xA23, n := 1, get := fun x => x.bsw.toNat, put := fun v x => { x with bsw := BitVec.ofNat 4 v } }]

/-- Reserved bits of a format entry (R115). -/
def entryReserved : BitVec 128 := 0x80F000000FF

def tableFields : List RecField :=
  (List.range 64).flatMap fun i =>
    { off := 0x4400 + 16 * i, n := 16, get := fun x => (x.entry i).bits.toNat,
      put := fun v x => x.setEntry i { x.entry i with bits := BitVec.ofNat 128 v &&& ~~~entryReserved } } ::
    (List.range 12).map fun k =>
      { off := 0xD400 + 48 * i + 4 * k, n := 4, get := fun x => ((x.entry i).slot k).toNat,
        put := fun v x => x.setEntry i ((x.entry i).setSlot k (w32 v)) }

def vregFields : List RecField :=
  (List.range 32).map fun i =>
    { off := 0x9000 + 512 * i, n := 512, get := fun x => (x.vregs.toList.getD i 0).toNat,
      put := fun v x => if h : i < 32 then { x with vregs := x.vregs.set i (BitVec.ofNat 4096 v) h } else x }

/-- Cell `j` of row `r` of tile `t`: 17 bytes of its residue and one of its tags. -/
def cellCode (c : XCell) : Nat :=
  c.c.toNat + ((if c.nan then 1 else 0) + (if c.pinf then 2 else 0) + (if c.ninf then 4 else 0)) * 2 ^ 136
def cellOfCode (v : Nat) : XCell :=
  { c := BitVec.ofNat 136 v, nan := v.testBit 136, pinf := v.testBit 137, ninf := v.testBit 138 }

/-- A tile row. -/
def rowCode (r : TileRow) : Nat := r.cells.toList.foldr (fun c acc => cellCode c + 2 ^ 144 * acc) 0
def rowOfCode (v : Nat) (anchor : Int) : TileRow :=
  { cells := Vector.ofFn fun i => cellOfCode (v / 2 ^ (144 * i.val) % 2 ^ 144), anchor := anchor }

/-- Tile rows come back with their tile's anchor. -/
def tileFields : List RecField :=
  (List.range 4).flatMap fun t => (List.range 64).map fun r =>
    { off := 0x11000 + 18 * 64 * (64 * t + r), n := 18 * 64,
      get := fun x => if h : t < 4 ∧ r < 64 then rowCode ((x.tiles[t]'h.1).rows[r]'h.2) else 0,
      put := fun v x => if h : t < 4 ∧ r < 64 then
          let tl := x.tiles[t]'h.1
          { x with tiles := x.tiles.set t { tl with rows := tl.rows.set r (rowOfCode v tl.anchor) h.2 } h.1 }
        else x }

/-- Every field that is read back as it was written. -/
def recFields : List RecField :=
  sregFields ++ sprFields ++ seqFields .l 0x300 ++ seqFields .x 0x400 ++ seqFields .s 0x500 ++ aregFields ++
  loopFields .c ++ loopFields .l ++ loopFields .x ++ loopFields .s ++ tokenFields ++ countFields ++ tableFields ++
  vregFields ++ tileFields

/-! ## Queues, masks and pending faults -/

def qOf (vals : List Nat) : List QEntry := vals.map fun v => { val := w64 v, know := Know.none }
def vOf (vals : List Nat) : List VEntry := vals.map fun v => { val := BitVec.ofNat 4096 v, know := Know.none }

/-- Occupancies stand at 0xA25 in queue order; entries from 0x2000, each queue at its full depth. -/
def queueChunks (x : Shuttle) : List (Nat × List Byte) :=
  let occ : List Nat := [x.qLX.length, x.qXS.length, x.qCL.length, x.qCX.length, x.qCS.length, x.qSC.length]
  [(0xA25, occ.map (BitVec.ofNat 8)), (0x2000, x.qLX.flatMap fun e => leBytes 512 e.val.toNat),
   (0x3000, x.qXS.flatMap fun e => leBytes 512 e.val.toNat), (0x4000, x.qCL.flatMap fun e => leBytes 8 e.val.toNat),
   (0x4080, x.qCX.flatMap fun e => leBytes 8 e.val.toNat), (0x4100, x.qCS.flatMap fun e => leBytes 8 e.val.toNat),
   (0x4180, x.qSC.flatMap fun e => leBytes 8 e.val.toNat)]

/-- Masks from the bottom of the stack. -/
def maskChunks (x : Shuttle) : List (Nat × List Byte) :=
  [(0xA1E, [BitVec.ofNat 8 x.masks.length]), (0xD000, x.masks.reverse.flatMap fun m => leBytes 64 m.toNat)]

/-- Pending faults: cause, STR, ENG and IPC in the places of eaux and above IPC, then eval. -/
def faultChunks (x : Shuttle) : List (Nat × List Byte) :=
  [(0xB00, leBytes 8 x.pending.length ++ x.pending.flatMap fun f =>
    leBytes 8 (f.ipc.toNat + f.cause.toNat * 2 ^ 32 + f.eng.toNat * 2 ^ 56 + strCode f.str * 2 ^ 60) ++
      leBytes 8 f.eval.toNat)]

def streamOfCode : Nat → Stream
  | 1 => .l | 2 => .x | 3 => .s | _ => .c

/-- What the record holds in lists, read back. -/
def restoreLists (rec : List Byte) (x : Shuttle) : Shuttle :=
  let occ (i : Nat) : Nat := numAt rec (0xA25 + i) 1
  let q (i off w : Nat) : List Nat := (List.range (occ i)).map fun k => numAt rec (off + w * k) w
  { x with
    qLX := vOf (q 0 0x2000 512), qXS := vOf (q 1 0x3000 512), qCL := qOf (q 2 0x4000 8), qCX := qOf (q 3 0x4080 8),
    qCS := qOf (q 4 0x4100 8), qSC := qOf (q 5 0x4180 8),
    masks := ((List.range (numAt rec 0xA1E 1)).map fun i => BitVec.ofNat 512 (numAt rec (0xD000 + 64 * i) 64)).reverse,
    pending := (List.range (numAt rec 0xB00 8)).map fun i =>
      let w := numAt rec (0xB08 + 16 * i) 8
      { cause := BitVec.ofNat 8 (w / 2 ^ 32), eval := w64 (numAt rec (0xB10 + 16 * i) 8),
        str := streamOfCode (w / 2 ^ 60 % 4), eng := BitVec.ofNat 4 (w / 2 ^ 56), ipc := w32 w, cmd := 0, found := 0 } }

/-- A shuttle as its record has it. -/
def restoreShuttle (rec : List Byte) (x : Shuttle) : Shuttle :=
  restoreLists rec (recFields.foldl (fun x f => f.put (numAt rec f.off f.n) x) x)

/-- Bytes of a shuttle record. -/
def recordBytes : Nat := 0x119000

/-! ## Contents of cells with their full/empty bits (R367, R368) -/

/-- Full/empty bits of the cells from a place, one per cell. -/
def State.feBits (s : State) (place cells : Nat) : List Byte :=
  (List.range ((cells + 7) / 8)).map fun i =>
    BitVec.ofNat 8 (((List.range 8).filter fun k => decide (8 * i + k < cells) && s.fe (place + 8 * (8 * i + k))).foldl
      (fun a k => a + 2 ^ k) 0)

/-- Data of `len` bytes and their full/empty bits, put at a place. -/
def State.putCells (s : State) (place : Nat) (data fe : List Byte) : State :=
  let s1 := s.putBytes place data
  (List.range (data.length / 8)).foldl (fun s i =>
    if (fe.getD (i / 8) 0).getLsbD (i % 8) then s.setFe (place + 8 * i) true else s) s1

/-- Bytes of a grant of `len` bytes in an image. -/
def grantBytes (len : Nat) : Nat := len + len / 64

def alignUp (n a : Nat) : Nat := (n + a - 1) / a * a

/-! ## The image (R367, R369) -/

/-- The header of an image. -/
structure ImageHead where
  bytes : List Byte
  deriving DecidableEq, Repr

def ImageHead.ntask (h : ImageHead) : Nat := numAt h.bytes 0x14 2
def ImageHead.queue (h : ImageHead) : Nat := numAt h.bytes 0x16 2
def ImageHead.isBound (h : ImageHead) : Bool := decide (numAt h.bytes 6 2 = 1)
def ImageHead.ngrp (h : ImageHead) : Nat := numAt h.bytes 0x50 2
def ImageHead.nsh (h : ImageHead) : Nat := numAt h.bytes 0x52 2
def ImageHead.bix (h : ImageHead) : Nat := numAt h.bytes 0x54 2
def ImageHead.carOff (h : ImageHead) : Nat := numAt h.bytes 0x58 4
def ImageHead.carN (h : ImageHead) : Nat := numAt h.bytes 0x5C 4
def ImageHead.bndOff (h : ImageHead) : Nat := numAt h.bytes 0x60 8
def ImageHead.shOff (h : ImageHead) : Nat := numAt h.bytes 0x68 8
/-- State of task `i`. -/
def ImageHead.task (h : ImageHead) (i : Nat) : Nat := numAt h.bytes (0x100 + 8 * i) 8

/-- A shuttle record keeps what R368 states of it: unassigned special registers and spare bits are zero, and no count exceeds what
it counts. -/
def recordOk (rec : List Byte) : Bool :=
  let b (o : Nat) : Nat := numAt rec o 1
  let upTo (o n most : Nat) : Bool := (List.range n).all fun i => decide (b (o + i) ≤ most)
  ((List.range 64).all fun p => (sprModes p).isSome || decide (numAt rec (0x100 + 8 * p) 8 = 0)) &&
  ((List.range 4).all fun st =>
    upTo (0x600 + 256 * st + 192) 1 6 && (List.range 6).all fun j =>
      let o := 0x600 + 256 * st + 32 * j
      decide (1 ≤ numAt rec (o + 8) 4 ∧ numAt rec (o + 8) 4 ≤ 65536) && upTo (o + 20) 2 1) &&
  upTo 0xA00 6 15 && upTo 0xA06 8 63 && upTo 0xA1E 1 16 && upTo 0xA23 1 15 && upTo 0xA24 1 128 && upTo 0xA25 2 8 &&
  upTo 0xA27 4 16 && decide (numAt rec 0xB00 8 ≤ 335)

/-- A work record keeps R368: a kind that there is, flags that are 0 or 1, a counter, semaphores and a scope in range, and a pc on a
word. -/
def workOk (rec : List Byte) : Bool :=
  let b (i : Nat) : Nat := numAt rec i 1
  decide (1 ≤ b 0 % 16 ∧ b 0 % 16 ≤ 4 ∧ b 0 / 16 < 4) && decide (b 1 < 8) &&
  decide ((b 2 < 16 ∨ b 2 = 31) ∧ (b 3 < 16 ∨ b 3 = 31)) && decide (b 4 ≤ 1 ∧ b 5 ≤ 1 ∧ b 6 ≤ 8 ∧ b 7 ≤ 1) &&
  decide (numAt rec 8 4 % 4 = 0)

/-- The work records of a shuttle record; the room after the last is zero. -/
def worksOk (rec : List Byte) : Bool :=
  let n := numAt rec 0xA24 1
  ((List.range n).all fun i => workOk ((rec.drop (0x5000 + 128 * i)).take 128)) &&
  (((rec.drop (0x5000 + 128 * n)).take (0x4000 - 128 * n)).all fun b => decide (b = 0))

/-- First bytes of the sections of an image but for its header and task states. -/
def ImageHead.sections (h : ImageHead) : List Nat :=
  (if h.carN = 0 then [] else h.carOff :: (List.range h.carN).map fun i => numAt h.bytes (h.carOff + 32 * i + 8) 8) ++
  (if h.isBound then [h.bndOff, h.shOff] else [])

/-- The carried records keep R367. -/
def ImageHead.carriedOk (h : ImageHead) (len : Nat) : Bool :=
  decide (h.carN = 0 ∨ h.carOff + 32 * h.carN ≤ len) &&
  (List.range h.carN).all fun i =>
    let o := h.carOff + 32 * i
    decide (numAt h.bytes (o + 2) 1 = 1 ∨ numAt h.bytes (o + 2) 1 = 2) && decide (numAt h.bytes (o + 3) 5 = 0) &&
    decide (numAt h.bytes o 2 < h.ntask) && decide (numAt h.bytes (o + 24) 8 = 0) &&
    decide (numAt h.bytes (o + 8) 8 + numAt h.bytes (o + 16) 8 ≤ len)

/-- Where the parts of the bound section stand, for a gang of `n` members and `lines` staged lines: A, lines, Sleeve and
Bolt contents. -/
structure BoundParts where
  desc : Nat
  bars : Nat
  made : Nat
  lines : Nat
  slv : Nat
  blt : Nat
  fin : Nat

def boundParts (off n lines slv blt : Nat) : BoundParts :=
  let made := off + 64 + 256
  let ln := alignUp (made + 16 * n) 64
  let sl := alignUp (ln + 8 + 80 * lines) 64
  let bl := alignUp (sl + slv) 64
  { desc := off, bars := off + 64, made := made, lines := ln, slv := sl, blt := bl, fin := bl + blt }

/-- The bound section keeps R367: its staged lines fit before the shuttle records, each on a line of its own address, its descriptor
is the bound task's, and its barrier flags are flags. -/
def ImageHead.boundOk (h : ImageHead) : Bool :=
  let ps := boundParts h.bndOff h.nsh 0 0 0
  let n := numAt h.bytes ps.lines 8
  decide (h.bndOff < h.shOff) && decide ((boundParts h.bndOff h.nsh n 0 0).slv ≤ h.shOff) &&
  ((List.range n).all fun i => decide (numAt h.bytes (ps.lines + 8 + 80 * i) 8 % 64 = 0)) &&
  decide (numAt h.bytes (ps.desc + 0x10) 2 = h.queue ∧ numAt h.bytes (ps.desc + 0x12) 2 = h.bix) &&
  ((List.range 4).all fun b => decide (numAt h.bytes (ps.bars + 64 * b + 56) 8 ≤ 1 ∧ numAt h.bytes (ps.bars + 64 * b) 8 < 2 ^ 32))

/-- The image passes the checks of R367 and R368, and of R369 for the package. -/
def State.imageOk (s : State) (bs : List Byte) (len : Nat) : Bool :=
  let h : ImageHead := { bytes := bs }
  let bound := h.isBound
  let states := (List.range h.ntask).map h.task
  decide (numAt bs 0 4 = 0x31434255 ∧ numAt bs 4 2 = 1 ∧ numAt bs 6 2 < 2 ∧ numAt bs 8 8 = len ∧ len % 4096 = 0) &&
  decide (numAt bs 0x10 4 = (crc32 (bs.take 16 ++ [0, 0, 0, 0] ++ bs.drop 20)).toNat) &&
  decide (numAt bs 0x18 8 = if bound then (s.devReg 0x40000).toNat else 0) &&
  (((bs.drop 0x70).take 144).all fun b => decide (b = 0)) && decide (numAt bs 0x56 2 = 0) &&
  decide (0x100 + 8 * h.ntask ≤ len) &&
  (states.all fun v => decide (v / 8 % 2 ^ 13 = 0) && decide (v / 2 ^ 32 = 0)) &&
  decide ((states.filter fun v => v % 4 = 3).length = if bound then 1 else 0) &&
  (!bound || (decide (h.bix < h.ntask ∧ h.task h.bix % 4 = 3) && decide (h.shOff + recordBytes * h.nsh ≤ len) && decide (1 ≤ h.nsh) &&
    h.boundOk &&
    (List.range h.nsh).all fun i =>
      let rec_ := (bs.drop (h.shOff + recordBytes * i)).take recordBytes
      recordOk rec_ && worksOk rec_)) &&
  (h.sections.all fun o => decide (o % 4096 = 0)) &&
  decide (leastNat h.sections = none ∨ leastNat h.sections = some (alignUp (0x100 + 8 * h.ntask) 4096)) && h.carriedOk len

/-- The carried contents that an image holds for a producer at a level. -/
def carriedIn (bs : List Byte) (producer : Nat) (sleeve : Bool) : Option (List Byte) :=
  let h : ImageHead := { bytes := bs }
  (List.range h.carN).findSome? fun i =>
    let o := h.carOff + 32 * i
    if numAt bs o 2 = producer ∧ numAt bs (o + 2) 1 = (if sleeve then 1 else 2) then
      some ((bs.drop (numAt bs (o + 8) 8)).take (numAt bs (o + 16) 8))
    else none

/-- Contents of a grant put into each unit in turn, each with its full/empty bits. -/
def State.putGrant (s : State) (units : List Nat) (place : Nat → Nat → Nat) (base len : Nat) (bs : List Byte) : State :=
  if len = 0 then s
  else
    ((List.range units.length).zip units).foldl (fun s p =>
      let one := (bs.drop (p.1 * grantBytes len)).take (grantBytes len)
      s.putCells (place p.2 base) (one.take len) (one.drop len)) s

/-- Looms or panels that shuttles occupy. -/
def unitsOf (unit : Nat) (l : List ShNo) : List Nat := (l.map fun n => n.toNat / unit).dedup

/-! ## Places of a saved task (R364, R366) -/

/-- A scratch place of a saved task, where the resumed one has it: Pockets by rank, grants by unit. -/
def movePlace (old new : List ShNo) (sb sb' bb bb' : Nat) (p : Nat) : Nat :=
  let slot (l : List Nat) (k : Nat) : Nat := l.findIdx fun v => v = k
  if 2 ^ 62 ≤ p then
    let k := (p - 2 ^ 62) / 2 ^ 27
    let i := slot (old.map fun n => n.toNat / 64) k
    boltPlace ((new.map fun n => n.toNat / 64).getD i k) ((p - 2 ^ 62) % 2 ^ 27 - bb + bb')
  else if 2 ^ 61 ≤ p then
    let k := (p - 2 ^ 61) / 2 ^ 22
    let i := slot (old.map fun n => n.toNat / 8) k
    sleevePlace ((new.map fun n => n.toNat / 8).getD i k) ((p - 2 ^ 61) % 2 ^ 22 - sb + sb')
  else if 2 ^ 60 ≤ p then
    let k := (p - 2 ^ 60) / 2 ^ 20
    let i := old.findIdx fun n => n.toNat = k
    pocketPlace (new.getD i (BitVec.ofNat 8 k)) ((p - 2 ^ 60) % 2 ^ 20)
  else p

/-- Where the flags and scratch lines of a saved task's counted lines stand until it is resumed. -/
def parkedPlace (tid p : Nat) : Nat := p + (tid + 1) * 2 ^ 80

/-- A place of one of the shuttles' Pockets, or of the grants of their units. -/
def isOwnPlace (shuttles : List ShNo) (p : Nat) : Bool :=
  if 2 ^ 80 ≤ p then false
  else if 2 ^ 62 ≤ p then decide (p < 2 ^ 63) && (unitsOf 64 shuttles).contains ((p - 2 ^ 62) / 2 ^ 27)
  else if 2 ^ 61 ≤ p then (unitsOf 8 shuttles).contains ((p - 2 ^ 61) / 2 ^ 22)
  else if 2 ^ 60 ≤ p then shuttles.any fun n => decide (n.toNat = (p - 2 ^ 60) / 2 ^ 20)
  else false

/-- The count-table entries of a task, which stay on the package, moved by `f` from places that `own` names. -/
def State.moveLines (s : State) (own : Nat → Bool) (f : Nat → Nat) : State :=
  let g (p : Nat) : Nat := if own p then f p else p
  { s with
    lines := s.lines.map fun l => { l with line := if l.va.isNone then g l.line else l.line, flag := g l.flag },
    awayLines := s.awayLines.map fun l => { l with flag := g l.flag } }

/-! ## A bound task goes on (R369) -/

/-- A job of a saved task, at its new place and under its new name. -/
def State.resumeJob (s : State) (tid : Nat) (old new : List ShNo) (j : Job) : Job :=
  let rank := (j.task.map Prod.snd).getD 0
  let n := new.getD rank j.sh
  let place (k : ShNo) : ShNo := (((old.zip new).find? fun p => p.1 = k).map Prod.snd).getD k
  { j with
    sh := n, task := some (tid, rank), issuer := ((s.shuttle n).seq j.st).agent, epoch := 0, know := Know.none,
    ext := (match j.ext with
      | .set l => .set (l.map place)
      | e => e) }

/-! ### Work records (R368; assumption log 41) -/

/-- Format source and codes of a matrix command, as two numbers. -/
def MatFmt.nums (f : MatFmt) : List Nat :=
  [f.entry + (if f.snap.isSome then 2 ^ 8 else 0) + f.fa * 2 ^ 16 + f.fb * 2 ^ 20 + f.fo * 2 ^ 24, (f.snap.getD 0).toNat]
def matFmtOf (a b : Nat) : MatFmt :=
  { entry := a % 64, snap := if a.testBit 8 then some (w64 b) else none, fa := a / 2 ^ 16 % 16, fb := a / 2 ^ 20 % 16,
    fo := a / 2 ^ 24 % 16 }

/-- The values of a matrix command, and the command that values stand for. -/
def MatOp.nums : MatOp → List Nat
  | .zero tm a e => [1, tm.toNat, if a.isSome then 1 else 0, lowBits 64 (a.getD 0), e]
  | .mma t f ta tb tri pa pb qa qb k m n =>
    [2, t + 4 * ta.toNat + 8 * tb.toNat + 16 * tri] ++ f.nums ++ [pa.toNat, pb.toNat, qa, qb, k, m + 256 * n]
  | .bias t f p m n => [3, t] ++ f.nums ++ [p.toNat, m, n]
  | .addt d t c => [4, d + 4 * t + 16 * c.toNat]
  | .out t f cap clr tr r0 nr p q n =>
    [5, t + 4 * cap.toNat + 8 * clr.toNat + 16 * tr.toNat] ++ f.nums ++ [r0, nr, p.toNat, q, n]
  | .outRaw t clr tr r0 nr p q n => [6, t + 8 * clr.toNat + 16 * tr.toNat, r0, nr, p.toNat, q, n]
  | .loadRaw t tr r0 nr p q n => [7, t + 16 * tr.toNat, r0, nr, p.toNat, q, n]
  | .nop => [8]
  | .snap e p => [9, e, p.toNat]
def matOpOf : List Nat → MatOp
  | [1, tm, h, a, e] => .zero (BitVec.ofNat 4 tm) (if h = 1 then some (sintOf 64 a) else none) e
  | [2, t, f, g, pa, pb, qa, qb, k, mn] =>
    .mma (t % 4) (matFmtOf f g) (t.testBit 2) (t.testBit 3) (t / 16 % 4) (w64 pa) (w64 pb) qa qb k (mn % 256) (mn / 256)
  | [3, t, f, g, p, m, n] => .bias (t % 4) (matFmtOf f g) (w64 p) m n
  | [4, t] => .addt (t % 4) (t / 4 % 4) (t.testBit 4)
  | [5, t, f, g, r0, nr, p, q, n] =>
    .out (t % 4) (matFmtOf f g) (t.testBit 2) (t.testBit 3) (t.testBit 4) r0 nr (w64 p) q n
  | [6, t, r0, nr, p, q, n] => .outRaw (t % 4) (t.testBit 3) (t.testBit 4) r0 nr (w64 p) q n
  | [7, t, r0, nr, p, q, n] => .loadRaw (t % 4) (t.testBit 4) r0 nr (w64 p) q n
  | [9, e, p] => .snap e (w64 p)
  | _ => .nop

/-- How many numbers the values of a matrix command of a kind are. -/
def matNums : Nat → Nat
  | 1 => 5 | 2 => 10 | 3 => 7 | 4 => 2 | 5 => 9 | 6 => 7 | 7 => 7 | 9 => 3 | _ => 1

/-- The values of a collective: what it was given, its number and rank, its digest as far as it is settled, and how far it is. -/
def Coll.nums (c : Coll) : List Nat :=
  let b (v : Bool) (i : Nat) : Nat := if v then 2 ^ i else 0
  [c.k, c.send.toNat, c.recv.toNat,
   c.panel.toNat + c.cm.toNat * 2 ^ 4 + c.fn * 2 ^ 12 + c.rt * 2 ^ 16 + c.entry * 2 ^ 24 + c.dig.op * 2 ^ 32 + c.prio * 2 ^ 36 +
     c.size * 2 ^ 40 + c.rank * 2 ^ 52, c.j, c.chunk,
   c.dig.fa + c.dig.fo * 2 ^ 4 + c.dig.rm * 2 ^ 8 + b c.switch 12 + b c.job.started 13, c.job.flags.toNat,
   c.dig.sca.toNat + c.dig.scb.toNat * 2 ^ 32, lowBits 64 c.dig.anc, lowBits 64 c.dig.osx]

/-- The collective that values stand for; the chunks that had come for it are lost with its saved work. -/
def State.recordedColl (s : State) (j : Job) (pos : Nat) (num : Nat → Nat) : Coll :=
  let f (i lo n : Nat) : Nat := num i / 2 ^ lo % 2 ^ n
  let cm : BitVec 6 := BitVec.ofNat 6 (f 3 4 6)
  { job := { j with started := decide (f 6 13 1 = 1), flags := w64 (num 7) }, panel := BitVec.ofNat 2 (f 3 0 2), cm := cm,
    j := num 4, fn := f 3 12 4, size := f 3 40 12, rank := f 3 52 12, k := num 0, rt := f 3 16 8, entry := f 3 24 6,
    dig := { fn := f 3 12 4, op := f 3 32 4, k := num 0, rt := f 3 16 8, fa := f 6 0 4, fo := f 6 4 4, anc := sintOf 64 (num 9),
             rm := f 6 8 3, sca := w32 (num 8), scb := w32 (num 8 / 2 ^ 32), osx := sintOf 64 (num 10), ranks := s.rankList cm },
    send := w64 (num 1), recv := w64 (num 2), prio := f 3 36 2, chunk := num 5, pos := pos, sent := [], got := [], result := none,
    switch := decide (f 6 12 1 = 1) }

/-- A collective is taken up again: the one of its communicator and number that still stands at this package, under its new name,
or the one that its record describes. -/
def State.resumeColl (s : State) (c : Coll) : State :=
  let same (o : Coll) : Bool := decide (o.cm = c.cm ∧ o.j = c.j)
  if s.colls.any same then
    { s with colls := s.colls.map fun o =>
        if same o then { o with job := { c.job with id := o.job.id, started := o.job.started, flags := o.job.flags } } else o }
  else { s with colls := s.colls ++ [c] }

def MoveKind.ofCode : Nat → MoveKind
  | 2 => .gath | 3 => .scat | 4 => .fill | 5 => .movf | _ => .mov

/-- A command that its work record describes, on shuttle `n`, which resumes rank `rank` of task `tid`. -/
def State.recordJob (s : State) (n : ShNo) (tid rank : Nat) (rec : List Byte) : Job :=
  let b (i : Nat) : Nat := numAt rec i 1
  let st := streamOfCode (b 0 / 16)
  let q := (s.shuttle n).seq st
  { id := s.nextId, sh := n, st := st, ipc := w32 (numAt rec 8 4), issuer := q.agent, epoch := 0, era := 0,
    words := (List.range 4).map fun i => w32 (numAt rec (16 + 4 * i) 4), task := some (tid, rank), cc := BitVec.ofNat 3 (b 1),
    wt := if b 2 < 16 then some (b 2) else none, sg := if b 3 < 16 then some (b 3) else none, aq := decide (b 4 = 1),
    rl := decide (b 5 = 1), ext := (s.scopeExt n q.agent (b 6)).getD s.ownExt, know := Know.none, rev := decide (b 7 = 1),
    win := (s.shuttle n).rwin, dprs := (loomShuttles n).map fun k => (k, (s.shuttle k).dpr), started := false, ran := false,
    failed := false, flags := 0 }

/-- The command is taken up again from its record, a move from its saved row and a collective from its saved chunk. -/
def State.resumeRecord (s : State) (n : ShNo) (tid rank : Nat) (rec : List Byte) : State :=
  let j := s.recordJob n tid rank rec
  let row := numAt rec 12 4
  let num (i : Nat) : Nat := numAt rec (32 + 8 * i) 8
  let s1 : State := { s with nextId := s.nextId + 1 }
  match numAt rec 0 1 % 16 with
  | 1 =>
    { s1 with moves := s1.moves ++
        [{ job := { j with started := decide (0 < row) }, kind := MoveKind.ofCode (num 8 / 2 ^ 32 % 16), elem := num 8 / 2 ^ 40 % 8,
           da := w64 (num 9), desc := (rec.drop 32).take 64, tag := w32 (num 8), row := row, awaits := [],
           tape := if num 10 = 0 then none else some (num 10), old := [], fills := [], ending := none }] }
  | 2 =>
    { s1 with mats := s1.mats ++ [{ job := j, op := matOpOf ((List.range (matNums (num 0))).map num), src := 0, row := 0 }] }
  | 3 =>
    { s1 with rangeJobs := s1.rangeJobs ++
        [{ job := j, fn := num 3, x := w64 (num 0), y := w64 (num 1), z := w64 (num 2), inv := none, ivs := [] }] }
  | 4 => s1.resumeColl (s1.recordedColl j row num)
  | _ => s

/-- How the sequencers of a saved member stood, beyond its record. -/
def Shuttle.resumeSeqs (x snap : Shuttle) : Shuttle :=
  { x with
    c := { x.c with run := snap.c.run }, l := { x.l with run := snap.l.run }, x := { x.x with run := snap.x.run },
    s := { x.s with run := snap.s.run },
    stepWaits := snap.stepWaits, chanL := { snap.chanL with last := Know.none }, chanX := { snap.chanX with last := Know.none },
    chanS := { snap.chanS with last := Know.none },
    marks := snap.marks.map fun m => { m with pops := m.pops.map fun p => (p.1, p.2.1, p.2.2.map fun _ => Know.none) },
    covered := Know.none, engDone := Vector.replicate 4 [], fences := snap.fences, arrivals := snap.arrivals.map fun l => l.map fun _ => 0,
    oatoms := snap.oatoms }

/-- Byte `i` of a number of mask bits. -/
def maskedBytes (va : Nat) (data : List Byte) (mask : Nat) (panel : BitVec 2) : List StagedWrite :=
  ((List.range 64).filter mask.testBit).map fun i => { va := va + i, data := [data.getD i 0], panel := panel }

/-- The start state of a barrier (R176). -/
def Barrier.start (n : Nat) : Barrier :=
  { phase := 0, arr := Vector.replicate 2 0, del := Vector.replicate 2 0, pst := Vector.replicate 2 none,
    made := List.replicate n 0, brk := false, carries := Vector.replicate 2 [], passed := [] }

/-- A barrier of an image: its record, and A for each member. -/
def barrierAt (bs : List Byte) (rec made n : Nat) : Barrier :=
  let d (k : Nat) : Nat := numAt bs (rec + 8 * k) 8
  let p (k : Nat) : Option Nat := if d k = 2 ^ 64 - 1 then none else some (d k)
  { Barrier.start n with
    phase := w32 (d 0), arr := #v[d 1, d 2], del := #v[d 3, d 4], pst := #v[p 5, p 6], brk := decide (d 7 ≠ 0),
    made := (List.range n).map fun m => w32 (numAt bs (made + 4 * m) 4) }

/-- The bound task of a resumed launch, set up afresh on `shuttles`, gets what its image and its saved work hold. -/
def State.restoreTask (s : State) (l : Launch) (t : Task) (shuttles : List ShNo) (sbase bbase : Nat) : State :=
  let bs := l.image
  let h : ImageHead := { bytes := bs }
  let n := shuttles.length
  let su := unitsOf 8 shuttles
  let bu := unitsOf 64 shuttles
  let off := h.bndOff
  let lines := numAt bs (boundParts off n 0 0 0).lines 8
  let ps := boundParts off n lines (su.length * grantBytes (65536 * t.slv)) (bu.length * grantBytes (65536 * t.blt))
  let w := s.saves.find? fun w => w.key = t.key
  let panel : BitVec 2 := BitVec.ofNat 2 ((shuttles.headD 0).toNat / 64)
  let writes := (List.range lines).flatMap fun i =>
    let o := ps.lines + 8 + 80 * i
    maskedBytes (numAt bs o 8) ((bs.drop (o + 8)).take 64) (numAt bs (o + 72) 8) panel
  let s1 := (s.putGrant su sleevePlace sbase (65536 * t.slv) (bs.drop ps.slv)).putGrant bu boltPlace bbase (65536 * t.blt)
    (bs.drop ps.blt)
  let s2 := ((List.range n).zip shuttles).foldl (fun s p =>
    let rc := (bs.drop (h.shOff + recordBytes * p.1)).take recordBytes
    let late := match w with
      | some w => (w.late.filter fun f => f.1 = p.1).map Prod.snd
      | none => []
    let s1 := s.modShuttle p.2 fun x =>
      let y := restoreShuttle rc x
      let z := match w.bind fun w => w.snaps[p.1]? with
        | some snap => y.resumeSeqs snap
        | none => y
      let z := { z with pending := z.pending ++ late }
      if z.mon then z else z.resumeStreams
    s1.putCells (pocketPlace p.2 0) ((rc.drop 0x59000).take Config.pocketBytes)
      ((rc.drop 0xE000).take (Config.pocketBytes / 64))) s1
  let s3 := s2.modTask t.tid fun u =>
    { u with
      bound := true, saved := false, args := Vector.ofFn fun (i : Fin 4) => w64 (numAt bs (off + 0x20 + 8 * i.val) 8),
      bars := Vector.ofFn fun (b : Fin 4) => barrierAt bs (ps.bars + 64 * b.val) (ps.made + 4 * n * b.val) n,
      stages := u.stages.set 0 { writes := writes, reads := [] } }
  match w with
  | none =>
    ((List.range n).zip shuttles).foldl (fun s p =>
      let rc := (bs.drop (h.shOff + recordBytes * p.1)).take recordBytes
      (List.range (numAt rc 0xA24 1)).foldl (fun s i => s.resumeRecord p.2 t.tid p.1 ((rc.drop (0x5000 + 128 * i)).take 128)) s) s3
  | some w =>
    let s4 := s3.modTask t.tid fun u =>
      { u with ckmark := w.ckmark, flags := w.flags, ended := w.ended, wrote := w.wrote, ranges := w.ranges,
               stat := if w.complete then .complete else u.stat }
    let back (p : Nat) : Nat := movePlace w.old shuttles w.sbase sbase w.bbase bbase (p - (w.tid + 1) * 2 ^ 80)
    let parked (p : Nat) : Bool := decide (p / 2 ^ 80 = w.tid + 1)
    let s5 := (s4.full.filter parked).foldl (fun s p => (s.setFe p false).setFe (back p) true) s4
    let s6 := s5.moveLines parked back
    let job := s6.resumeJob t.tid w.old shuttles
    { s6 with
      lines := s6.lines.map fun l => if l.task = some w.tid then { l with task := some t.tid } else l,
      moves := s6.moves ++ w.moves.map (fun m => { m with job := job m.job }),
      mats := s6.mats ++ w.mats.map (fun m => { m with job := job m.job }),
      rangeJobs := s6.rangeJobs ++ w.rangeJobs.map (fun m => { m with job := job m.job }),
      colls := s6.colls.map fun c =>
        if c.job.task.map Prod.fst = some w.tid then { c with job := job c.job } else c,
      saves := s6.saves.map fun o => if o.key = w.key then { o with late := [] } else o }

end Sys2Proof.Machine
end

