-- ==== Sys2Proof/Machine/Cards.lean ====
section
/-! DEFINITION. The card store: what it holds, and its bytes in HBM (R340, R344, R350, R416). -/

namespace Sys2Proof.Machine
open Sys2Proof

/-! ## Bytes of a card (R340; assumption log 126) -/

/-- A step of a lane: semaphore waited on, action, shuttle, task, place in a list, operand. -/
def laneStep (action sh task aux : Nat) (operand : W64) : List Byte :=
  leBytes 2 task ++ leBytes 1 action ++ leBytes 1 sh ++ leBytes 2 task ++ leBytes 2 aux ++ leBytes 8 operand.toNat

/-- Steps of a panel's start unit for a task: grant, configure, guard, start and signal. -/
def CardTask.startSteps (k : CardTask) : List Byte :=
  let sh := (k.shuttles.headD 0).toNat
  laneStep 2 sh k.index 0 (BitVec.ofNat 64 (k.sbase + k.bbase * 2 ^ 32)) ++
  ((k.shuttles.zip k.deltas).flatMap fun p =>
    (p.2.1.flatMap fun d => laneStep 3 p.1.toNat k.index d.1 d.2) ++ laneStep 3 p.1.toNat k.index 0xFFFF (p.2.2.setWidth 64)) ++
  (k.ranges.flatMap fun r => laneStep 4 sh k.index r.1 (r.2.2.setWidth 64)) ++
  (match k.cond with
   | some b => laneStep 4 sh k.index 0xFFFF (if b then 1 else 0)
   | none => []) ++
  (k.shuttles.flatMap fun n => laneStep 0 n.toNat k.index 0 (BitVec.ofNat 64 k.order)) ++
  k.succs.flatMap fun u => laneStep 5 sh k.index u 0

/-- Steps of a tile copy engine for a task: its parts in their copy order (R338). -/
def CardTask.loadSteps (k : CardTask) : List Byte :=
  k.copies.flatMap fun i => laneStep 1 (k.shuttles.headD 0).toNat k.index i 0

/-- The lanes of a card, panel by panel: the start unit's and a copy engine's, each over the panel's tasks in start order. -/
def Card.lanes (c : Card) : List (List Byte) :=
  ((List.range 4).flatMap fun p =>
    let mine := (c.tasks.filter fun k => (unitsOf 64 k.shuttles).contains p).mergeSort fun a b => a.order ≤ b.order
    [mine.flatMap CardTask.startSteps, mine.flatMap CardTask.loadSteps]).filter fun l => !l.isEmpty

/-- Every range that the card guards, once. -/
def Card.rangeRecords (c : Card) : List (Nat × BitVec 40) :=
  (c.tasks.flatMap fun k => k.ranges.map fun r => (r.1, r.2.1)).dedup

/-- The card as it lies in the store. The lane table holds offset and length of each lane, and the lanes follow it. -/
def Card.bytes (c : Card) : List Byte :=
  let rg := Card.rangeRecords c
  let ls := Card.lanes c
  let lnOff := 64 + 16 * rg.length
  let steps := lnOff + 16 * ls.length
  let table := (List.range ls.length).flatMap fun i =>
    leBytes 4 (steps + ((ls.take i).map List.length).sum) ++ leBytes 4 (ls.getD i []).length ++ leBytes 8 0
  leBytes 16 c.hash.toNat ++ leBytes 4 c.ver.toNat ++ leBytes 2 c.tasks.length ++ leBytes 2 ls.length ++ leBytes 8 c.hep.toNat ++
  leBytes 2 rg.length ++ leBytes 1 c.nfail ++ leBytes 1 0 ++ leBytes 4 c.gang ++ leBytes 4 64 ++ leBytes 4 lnOff ++
  leBytes 4 (steps + (ls.map List.length).sum) ++ leBytes 12 0 ++
  (rg.flatMap fun r => leBytes 4 r.1 ++ leBytes 4 0 ++ leBytes 8 r.2.toNat) ++ table ++ ls.flatten ++
  c.tasks.flatMap fun k => leBytes 8 k.shape0.toNat ++ leBytes 8 k.shape1.toNat

/-- Its room in the store: whole lines. -/
def Card.room (c : Card) : Nat := ((Card.bytes c).length + 63) / 64 * 64

/-! ## The store -/

/-- The most recently launched cards that fit: at most 256, in `len` bytes. -/
def fitCards (len : Nat) : List Card → List Card
  | [] => []
  | c :: cs =>
    if (c :: cs).length ≤ 256 ∧ ((c :: cs).map Card.room).sum ≤ len then c :: cs else fitCards len cs

/-- Cards one after another from a place on. -/
def State.putCardBytes : List Card → Nat → State → State
  | [], _, s => s
  | c :: cs, a, s => State.putCardBytes cs (a + Card.room c) (s.putBytes a (Card.bytes c))

/-- The store holds those of the cards that fit, least recently launched first, and its bytes follow; the rest of it is zero. -/
def State.setCards (s : State) (cs : List Card) : State :=
  let kept := fitCards s.csLen cs
  if s.csBase + s.csLen ≤ Config.hbmBytes then
    State.putCardBytes kept s.csBase
      { s with cards := kept, mem := s.mem.filter fun c => decide (c.1 < s.csBase) || decide (s.csBase + s.csLen ≤ c.1) }
  else { s with cards := kept }

def State.cardOf (s : State) (hash : BitVec 128) : Option Card := s.cards.find? fun c => c.hash = hash

/-- A card enters the store in place of one of its hash, as the latest launched. -/
def State.putCard (s : State) (c : Card) : State := s.setCards ((s.cards.filter fun o => o.hash ≠ c.hash) ++ [c])

/-- The cards of a hash, changed. -/
def State.modCard (s : State) (hash : BitVec 128) (f : Card → Card) : State :=
  s.setCards (s.cards.map fun c => if c.hash = hash then f c else c)

/-- The fourth failure in a row drops a card (R344). -/
def State.dropFailed (s : State) : State := s.setCards (s.cards.filter fun c => decide (c.nfail < 4))

/-- The card's NFAIL rises. -/
def State.failCard (s : State) (hash : BitVec 128) : State :=
  (s.modCard hash fun c => { c with nfail := c.nfail + 1 }).dropFailed

/-! ## Launches of a gang (R416) -/

/-- Launches of a hash that have begun here as a member of a gang. -/
def State.begun (s : State) (hash : BitVec 128) : Nat := ((s.ganged.find? fun p => p.1 = hash).map Prod.snd).getD 0

/-- The package records the cards of its gang: it has the lowest PKN, or is in no gang. -/
def State.recordsCards (s : State) : Bool := decide (s.gangSize = 1) || s.gangMembers.all fun p => decide (s.pkn ≤ p)

/-- The card of its hash replaces the one held, but keeps what this member has counted of a card of the same recording. -/
def State.receiveCard (s : State) (c : Card) : State :=
  match s.cardOf c.hash with
  | some o =>
    if o.base = c.base ∧ o.own = false then s.putCard { c with own := false, nfail := o.nfail, prior := o.prior }
    else { s with stops := s.stops.filter fun p => p.hash ≠ c.hash }.putCard { c with own := false }
  | none => { s with stops := s.stops.filter fun p => p.hash ≠ c.hash }.putCard { c with own := false }

/-- The held card of this hash and version may be used, from ordinal `since` on. -/
def State.allowCard (s : State) (c : Card) (since : Nat) : State :=
  { s with stamp := s.stamp + 1 }.modCard c.hash fun k => if k.ver = c.ver then { k with usable := true, since := since } else k

end Sys2Proof.Machine
end

