-- ==== Sys2Proof/Machine/Records.lean ====
section
/-! DEFINITION. Trap records and the trap ring (R352, R356). -/

namespace Sys2Proof.Machine
open Sys2Proof

/-- What a record says beside its cause and eval. -/
structure RecFlags where
  halt : Bool
  fw : Bool
  cmt : Bool
  eaux : W64
  epc : W32
  shuttle : Option ShNo
  task : Option Task
  deriving DecidableEq, Repr

def RecFlags.none : RecFlags :=
  { halt := false, fw := false, cmt := false, eaux := 0, epc := 0, shuttle := Option.none, task := Option.none }

/-- The doublewords of a record but for its number. shid bits 15:0 as R383 gives them. -/
def recordWords (cause : BitVec 8) (eval : W64) (r : RecFlags) : List W64 :=
  let bit (b : Bool) (i : Nat) : Nat := if b then 2 ^ i else 0
  let shid := match r.shuttle with
    | some n => n.toNat / 8 * 256 + n.toNat
    | none => 0
  let queue := match r.task with
    | some t => t.queue % 65536
    | none => 0
  let d0 := cause.toNat % 128 + bit (r.eaux.getLsbD 63) 8 + bit r.halt 9 + bit r.fw 10 + bit r.task.isNone 11 +
    r.eaux.toNat / 2 ^ 60 % 4 * 2 ^ 12 + bit r.cmt 14 + r.eaux.toNat / 2 ^ 56 % 16 * 2 ^ 16 + shid * 2 ^ 32 + queue * 2 ^ 48
  let ts : W64 := match r.task with
    | some t => t.ts
    | none => 0
  let index := match r.task with
    | some t => t.index
    | none => 0
  [BitVec.ofNat 64 d0, eval, BitVec.ofNat 64 (r.epc.toNat + r.eaux.toNat % 2 ^ 32 * 2 ^ 32), ts, BitVec.ofNat 64 (index % 65536)]

/-- The trap ring has room. -/
def State.ringRoom (s : State) : Bool :=
  let w := (s.devReg (trapUnit + 0x30)).toNat
  let r := (s.devReg (trapUnit + 0x38)).toNat
  decide ((w + 2 ^ 64 - r) % 2 ^ 64 < 2 ^ ringLog (s.devReg (trapUnit + 0x28)))

/-- A record enters the ring, which has room; its MSI. -/
def State.writeRecord (s : State) (words : List W64) : State :=
  let cfg := s.devReg (trapUnit + 0x28)
  let w := s.devReg (trapUnit + 0x30)
  let base := (s.devReg (trapUnit + 0x20)).toNat % 2 ^ 56 / 2 ^ 12 * 2 ^ 12
  let bs := (words ++ [w]).flatMap fun d => leBytes 8 d.toNat
  let s1 := s.storeHbm (base + 64 * (w.toNat % 2 ^ ringLog cfg)) (bs ++ List.replicate (64 - bs.length) 0)
  (s1.setDevReg (trapUnit + 0x30) (w + 1)).sendMsi (cfg.toNat / 2 ^ 32 % 2 ^ 16)

/-- A record of no frozen shuttle, which waits for its turn and for room. -/
def State.holdRecord (s : State) (words : List W64) : State :=
  { s with heldRecs := s.heldRecs ++ [words], stamp := s.stamp + 1 }

end Sys2Proof.Machine
end

