-- ==== Sys2Proof/Machine/Tasks.lean ====
section
/-! DEFINITION. Launches and tasks: the LAUNCH packet, starts, commits, skips and the end of a launch (R162 to R172, R334 to
R349, R376, R427, R428). -/

namespace Sys2Proof.Machine
open Sys2Proof

/-- Base of the replay unit's registers (R386). -/
def replayUnit : Nat := 0x30000

def State.hepoch (s : State) : W64 := s.devReg (replayUnit + 0x18)
def State.countReg (s : State) (off : Nat) : State := s.setDevReg off (s.devReg off + 1)

/-- A message to every other member of the gang that a link leads to, on virtual channel 0 (R401, R416). -/
def State.tellGang (s : State) (m : GangMsg) : State :=
  (s.gangMembers.filter fun p => p ≠ s.pkn).foldl (fun s p => s.post p 0 (.gang m)) s

/-! ## Replays and their ends (R344, R345, R350, R416, R424) -/

/-- The flush that was asked for, once no replay runs: CSBASE and CSLEN take effect. -/
def State.tryFlush (s : State) : State :=
  if s.cflush && s.launches.all (fun l => l.card.isNone) then
    { s with cards := [], cflush := false, stamp := s.stamp + 1,
             csBase := bitsOf (s.devReg replayUnit) 16 40 * 2 ^ 16,
             csLen := (s.devReg (replayUnit + 0x8)).toNat / 2 ^ 16 * 2 ^ 16 }
  else s

/-- The launch starts no further task from its card. The places of tasks that have started stay in its map, and the Drafter
decides the others afresh. -/
def State.handOver (s : State) (lid : Nat) : State :=
  let used (p : Nat) : Bool := s.tasks.any fun t => decide (t.lid = lid) && !t.dual && t.places.contains p
  ({ s with stamp := s.stamp + 1 } : State).modLaunch lid fun l =>
    { l with card := none, places := l.places.filter fun q => used q.1 }

/-- A guard of the launch has failed, here or at another member: the Drafter takes over, and the launch counts once as a failure
of its card. -/
def State.guardFail (s : State) (lid : Nat) (own : Bool) : State :=
  match s.launchOf lid with
  | none => s
  | some l =>
    if l.failed || (own && l.card.isNone) then s
    else
      let s1 := ((s.handOver lid).modLaunch lid fun l => { l with failed := true }).failCard l.hash
      let s2 := if own then s1.countReg (replayUnit + 0x28) else s1
      let s3 := match l.ordinal, l.card with
        | some o, some c => if own && !c.own then s2.tellGang (.stop l.hash (o - c.base)) else s2
        | _, _ => s2
      s3.tryFlush

/-- The outcome of reading a task's shape words for its guard. -/
inductive Guard where
  | pass (s : State)
  | fail (s : State)
  | waits (s : State)

def State.shapeGuard (s : State) (t : Task) (k : CardTask) : Guard :=
  let one (s : State) (va : Nat) (v : W64) : Guard :=
    if va = 0 then .pass s
    else
      match s.creelRead t.tid va 8 with
      | .fault => .fail (s.clearDenied t.tid)
      | .waits s1 => .waits s1
      | .ok s1 bs => if BitVec.ofNat 64 (leNat bs) = v then .pass s1 else .fail s1
  match one s t.shape0 k.shape0 with
  | .pass s1 => one s1 t.shape1 k.shape1
  | g => g

/-- The shape guard of a task that has become ready, unless it has passed (R343). -/
def State.testShape (s : State) (tid : Nat) : Guard :=
  match s.taskOf tid with
  | none => .pass s
  | some t =>
    match ((s.launchOf t.lid).bind Launch.card).bind fun c => c.tasks.find? fun k => k.index = t.index with
    | none => .pass s
    | some k =>
      if t.guarded then .pass s
      else
        match s.shapeGuard t k with
        | .pass s1 => .pass (s1.modTask tid fun t => { t with guarded := true })
        | .fail s1 => .fail (s1.guardFail t.lid true)
        | g => g

/-- The shape guards of the tasks of a launch that are ready; one whose words are not at hand waits for its start. -/
def State.testShapes (s : State) (lid : Nat) : State :=
  (s.tasks.filter fun t => decide (t.lid = lid ∧ t.stat = .pending ∧ t.preds = 0) && !t.untaken).foldl (fun s t =>
    match s.testShape t.tid with
    | .pass s1 => s1
    | .fail s1 => s1
    | .waits s1 => s1) s

/-! ## The LAUNCH packet (R315, R317, R333) -/

/-- Reads one after another. -/
def CreelAcc.andRead (a : CreelAcc) (s : State) (f : State → List Byte → Begin) : Begin :=
  match a with
  | .ok s1 bs => f s1 bs
  | .fault => .fail s
  | .waits s1 => .wait s1

/-- The images of the tasks, in order. -/
def readImages (s0 : State) (who : Nat) : List Nat → List Image → State → (State → List Image → Begin) → Begin
  | [], ims, s, f => f s ims
  | va :: r, ims, s, f =>
    if va % 64 ≠ 0 then .format s
    else
      (s.creelRead who va 96).andRead s0 fun s1 h =>
        let n := numAt h 8 4
        if n < 96 then .format s1
        else (s1.creelRead who va n).andRead s0 fun s2 bs => readImages s0 who r (ims ++ [imageOf bs]) s2 f

/-- The graph of a packet, checked, with its images. -/
def readGraph (s : State) (who graph gtab ngrp : Nat) (tsbase : Nat) (f : State → Graph → List Image → Begin) : Begin :=
  (s.creelRead who graph 64).andRead s fun s1 h =>
    if !headerOk h then .format s1
    else
      (s1.creelRead who (graph + numAt h 0x10 4) (64 * numAt h 6 2)).andRead s fun s2 tb =>
        (s2.creelRead who (graph + numAt h 0x14 4) (2 * numAt h 8 4)).andRead s fun s3 sb =>
          (s3.creelRead who gtab (32 * ngrp)).andRead s fun s4 gb =>
            let g : Graph := { header := h, table := tb, succ := sb, gtab := gb }
            let gs := (List.range ngrp).map (groupAt gb)
            readImages s who (g.entries.map GEntry.img) [] s4 fun s5 ims =>
              let all := (List.range g.ntask).zip (g.entries.zip ims)
              if groupsOk gb gs && g.carriesOk && g.succOk && s5.placesFit gs &&
                  all.all (fun p => g.taskOk tsbase p.1 p.2.1 p.2.2 ngrp) then f s5 g ims
              else .format s5

/-- Task `i` of a graph before its start. -/
def Graph.newTask (g : Graph) (i : Nat) (e : GEntry) (im : Image) (tid lid q : Nat) (tsbase : Nat) : Task :=
  { tid := tid, lid := lid, index := i, ts := BitVec.ofNat 64 (tsbase + e.tsoff), queue := q,
    gang := e.attr.testBit 0, dual := e.attr.testBit 1, ordered := e.attr.testBit 2, share := e.share, img := e.img,
    slv := e.slv, blt := e.blt,
    carry := if e.carry / 2 ^ 12 = 0 then none else some (e.carry % 4096, e.carry.testBit 12, e.carry.testBit 13),
    shape0 := e.shape0, shape1 := e.shape1, cond := e.cond, preds := e.npred, untaken := false, edges := g.edges e,
    slots := im.slots, stat := .pending, args := Vector.replicate 4 0, shuttles := [], places := [], ended := [],
    sbase := 0, bbase := 0, stages := Vector.replicate 2 { writes := [], reads := [] }, table := [], committing := false,
    performed := false, bound := false, bars := Vector.replicate 4 (Barrier.start 0), ckmark := none, flags := Vector.replicate 2 0,
    mismatches := 0, avoid := [], held := none, ranges := [], wrote := [], reserved := false, saved := false, guarded := false }

/-- GEN of every entry of the table (R342). -/
def State.generations (s : State) : List (Nat × BitVec 16) :=
  (List.range s.rtCount).map fun j => (j, BitVec.ofNat 16 (s.desc j).gen)

/-- A launch enters the package: its card is found, or recorded, or neither. -/
def State.newLaunch (s : State) (q pid graph gtab tsbase argp : Nat) (g : Graph) (ims : List Image) : State :=
  let lid := s.nextId
  let gang := s.gangSize
  let hash := g.hash ims gang
  let gs := (List.range (g.gtab.length / 32)).map (groupAt g.gtab)
  let ordinal := if 1 < gang then some (s.begun hash) else none
  let held := s.cardOf hash
  let card := held.filter fun c => c.usable && decide (c.since ≤ ordinal.getD c.since)
  let names (p : Stop) : Bool := decide (p.hash = hash) && held.any fun c => !c.own && decide (ordinal = some (c.base + p.ordinal))
  let stopped := s.stops.any names
  let records := decide (0 < s.csLen) && held.isNone
  let l : Launch :=
    { lid := lid, queue := q, pid := pid, graph := graph, tsbase := BitVec.ofNat 64 tsbase, argp := argp, gtab := gtab,
      groups := gs, hash := hash, places := (match card with
        | some c => if stopped then [] else c.placeMap
        | none => []),
      out := s.outShuttles, card := if stopped then none else card, g0 := s.generations,
      recording := if records then some [] else none, ordinal := ordinal, failed := stopped,
      stopped := false, image := [] }
  let ts := ((List.range g.ntask).zip (g.entries.zip ims)).map fun p =>
    g.newTask p.1 p.2.1 p.2.2 (lid + 1 + p.1) lid q tsbase
  let s1 : State :=
    { s with nextId := lid + 1 + g.ntask, launches := s.launches ++ [l], tasks := s.tasks ++ ts, stamp := s.stamp + 1,
             stops := s.stops.filter fun p => !names p,
             ganged := (match ordinal with
               | some o => (hash, o + 1) :: s.ganged.filter fun p => p.1 ≠ hash
               | none => s.ganged) }
  let s2 := match held with
    | some c => s1.putCard c
    | none => s1
  let s3 := if stopped then s2.failCard hash else s2
  if card.isSome then s3.countReg (replayUnit + 0x20) else s3

/-- Every task's key is above that of the last committed task (R165). -/
def State.keysOk (s : State) (ts : List Task) : Bool :=
  match s.lastKey with
  | none => true
  | some k => ts.all fun t => decide (k < t.key)

def execLaunch (q : Nat) (p : Packet) (s : State) : Result :=
  dispatchPacket q p 0x01 (fun s x num _ =>
    let graph := (p.dw 0x10).toNat
    let gtab := (p.dw 0x18).toNat
    let tsbase := (p.dw 0x28).toNat
    readGraph s x.agent graph gtab (bitsOf (p.dw 0x20) 0 9) tsbase fun s1 g ims =>
      let lid := s1.nextId
      let s2 := s1.newLaunch q num graph gtab tsbase (p.dw 0x30).toNat g ims
      if s1.keysOk (s2.tasks.filter fun t => t.lid = lid) then .ran (s2.testShapes lid) none (fun o => { o with launch := some lid }) 0
      else .format s1) s

/-! ## Ends of tasks and launches -/

/-- The shuttle runs no task: tvec is firmware's again (R163). -/
def Shuttle.release (x : Shuttle) : Shuttle :=
  { x.stopAll with task := none, tvec := x.fwTvec, ownMonitor := false }

/-- The shuttles that still hold the task are released. -/
def State.releaseShuttles (s : State) (tid : Nat) (l : List ShNo) : State :=
  l.foldl (fun s n =>
    match (s.shuttle n).task with
    | some p => if p.1 = tid then (s.modShuttle n Shuttle.release).bump n else s
    | none => s) s

/-- The card of a launch that it recorded enters the store. In a gang it is not used before every member has it; a member that
does not record for its gang keeps its own apart until its launch turns out not to be ganged (R416, R422). -/
def State.keepCard (s : State) (l : Launch) (ts : List CardTask) : State :=
  let c : Card :=
    { hash := l.hash, ver := 1, hep := s.hepoch, gang := s.gangSize, nfail := 0, usable := decide (s.gangSize = 1), since := 0,
      base := (l.ordinal.map (· + 1)).getD 0, prior := none, own := !s.recordsCards,
      groups := l.groups.map fun (g : Group) => (g.members, g.oneLoom, g.onePanel), placeMap := l.places, tasks := ts }
  if s.recordsCards then
    let s1 := (s.putCard c).countReg (replayUnit + 0x30)
    { s1 with stops := s1.stops.filter fun p => p.hash ≠ l.hash }.tellGang (.card c)
  else if (s.cardOf l.hash).isNone then s.putCard c
  else s

/-- A launch is over: its packet gets its status; the card recorded by it enters the store; a replay without a failure clears
NFAIL, which a late stop for the launch brings back (R424). -/
def State.finishLaunch (s : State) (lid status : Nat) : State :=
  match s.launchOf lid with
  | none => s
  | some l =>
    let s1 := match l.recording with
      | some ts => if status = 1 then s.keepCard l ts else s
      | none => s
    let s2 := if decide (status = 1) && !l.failed then
        s1.modCard l.hash fun c =>
          if l.card.isSome then { c with nfail := 0, prior := l.ordinal.map fun o => (o, c.nfail) }
          else if c.own || l.ordinal.any (fun o => decide (o < c.base)) then c
          else { c with prior := l.ordinal.map fun o => (o, 0) }
      else s1
    let s3 : State := { s2 with launches := s2.launches.filter fun o => o.lid ≠ lid,
                                tasks := s2.tasks.filter fun t => t.lid ≠ lid,
                                grants := s2.grants.filter fun g => g.lid ≠ lid }
    ((s3.setStatus l.queue l.pid status).tryFlush).decidePoint

/-- Successors of a task: counts fall, and an untaken edge is noted (R335). -/
def State.meetEdges (s : State) (lid : Nat) (edges : List Edge) (untaken : Edge → Bool) : State :=
  { s with tasks := s.tasks.map fun u =>
      if u.lid ≠ lid then u
      else
        let mine := edges.filter fun e => e.succ = u.index
        { u with preds := u.preds - mine.length, untaken := u.untaken || mine.any untaken } }

/-- Tasks with an untaken edge and no predecessor left are skipped, in rising order of index. -/
def State.skipTasks (s : State) (lid : Nat) : State :=
  (s.tasks.filter fun u => u.lid = lid).foldl (fun s u =>
    match s.taskOf u.tid with
    | none => s
    | some t =>
      if decide (t.stat = .pending ∧ t.preds = 0) && t.untaken then
        let s1 := (s.modTask t.tid fun t => { t with stat := .skipped }).meetEdges lid t.edges fun _ => false
        match t.carry with
        | some c => { s1 with grants := s1.grants.filter fun g => !(decide (g.lid = lid ∧ g.producer = c.1) &&
            (if g.sleeve then c.2.1 else c.2.2)) }
        | none => s1
      else s) s

/-- The launch is done when every task has left the order (R335). -/
def State.tryFinish (s : State) (lid : Nat) : State :=
  if s.tasks.all fun t => decide (t.lid ≠ lid ∨ t.stat = .committed ∨ t.stat = .skipped) then s.finishLaunch lid 1 else s

/-- The launch is to end: no task of it starts, every started one stops, and the collector is asked (R357, R428). -/
def State.killLaunch (s : State) (lid : Nat) : State :=
  match s.launchOf lid with
  | none => s
  | some l =>
    if s.requests.any fun r => decide (r.kind = .kill ∧ r.lid = some lid) then s
    else
      let s1 := s.modLaunch lid fun l => { l with stopped := true }
      let s2 := ((s.tasks.filter fun t => decide (t.lid = lid) && !t.settled && decide (t.stat ≠ .pending)).map Task.tid).foldl
        State.stopTask s1
      { s2 with requests := s2.requests ++ [{ kind := .kill, queue := l.queue, lid := some lid }],
                stamp := s2.stamp + 1 }

/-! ## Starts (R162 to R164, R171, R172, R336 to R338) -/

/-- Grants held in unit `k` of a level: by tasks that have started, and carried. -/
def State.heldGrants (s : State) (sleeve : Bool) (k tid : Nat) : List (Nat × Nat) :=
  (s.tasks.filterMap fun t =>
    let n := 65536 * (if sleeve then t.slv else t.blt)
    if decide (t.tid ≠ tid ∧ n ≠ 0 ∧ t.stat ≠ .pending) && !t.settled &&
        (unitsOf (if sleeve then 8 else 64) t.shuttles).contains k then
      some (if sleeve then t.sbase else t.bbase, n)
    else none) ++
  (s.grants.filter fun g => g.sleeve = sleeve ∧ g.units.contains k).map fun g => (g.base, g.len)

/-- A fresh grant fits at `base` in every unit given. -/
def State.grantFits (s : State) (sleeve : Bool) (units : List Nat) (base len tid : Nat) : Bool :=
  if len = 0 then decide (base = 0)
  else
    decide (base % 65536 = 0) && decide (base + len ≤ if sleeve then Config.sleeveBytes else Config.boltBytes) &&
    units.all fun k => (s.heldGrants sleeve k tid).all fun g => decide (base + len ≤ g.1) || decide (g.1 + g.2 ≤ base)

/-- The carried grant of a task at a level; none when the producer was skipped. -/
def State.carriedOf (s : State) (t : Task) (sleeve : Bool) : Option CarriedGrant :=
  match t.carry with
  | none => none
  | some (p, cs, cb) =>
    if if sleeve then cs else cb then s.grants.find? fun g => decide (g.lid = t.lid ∧ g.producer = p ∧ g.sleeve = sleeve)
    else none

/-- 64 KiB units of a panel's staging reserve that tasks have reserved (R195). -/
def State.reservedShare (s : State) (panel tid : Nat) : Nat :=
  (s.tasks.map fun t =>
    if decide (t.tid ≠ tid ∧ t.stat ≠ .pending) && !t.settled && t.reserved && (unitsOf 64 t.shuttles).contains panel then
      t.share else 0).sum

/-- The shuttle runs no task: one whose task is complete and has nothing on its way is free. -/
def State.shuttleFree (s : State) (n : ShNo) (tid : Nat) : Bool :=
  match (s.shuttle n).task with
  | none => true
  | some p =>
    decide (p.1 = tid) ||
      (match s.taskOf p.1 with
       | some t => decide (t.stat = .complete) && !s.busyTask p.1
       | none => true)

/-- Places that a task may run on as far as it is fixed: those it has, those of its gang, or one that all its slots name; with no
slot, one of `any_`. -/
def Launch.placesFor (l : Launch) (any_ : List Nat) (t : Task) : List (List Nat) :=
  let members (e : Nat) : List Nat := (l.groups[e]?.map Group.members).getD []
  if t.stat ≠ .pending ∧ t.stat ≠ .stopping then [t.places]
  else if t.gang then [members (t.slots.headD 0)]
  else (match t.slots with
    | [] => any_
    | e :: r => (members e).filter fun p => r.all fun e => (members e).contains p).map fun p => [p]

/-- Each place of a consumer is one of its producer's, or is kept with one of them; `f` goes on with the pairs. -/
def pairPlaces (prod : List Nat) (f : List (Nat × Nat) → Bool) : List Nat → Bool
  | [] => f []
  | p :: r => if prod.contains p then pairPlaces prod f r else prod.any fun q => pairPlaces prod (fun l => f ((p, q) :: l)) r

/-- Consumers of carried grants have places for which `f` holds of the groups that then keep them with their producers. `known`
gives the places chosen so far by task, and a carry is consumer, producer, Sleeve, Bolt. -/
def fitCarries (ways : Nat → List (List Nat)) (f : List Group → Bool) :
    List (Nat × Nat × Bool × Bool) → List (Nat × List Nat) → List Group → Bool
  | [], _, gs => f gs
  | (u, p, cs, cb) :: r, known, gs =>
    let of (i : Nat) : List (List Nat) := match known.find? fun k => k.1 = i with
      | some k => [k.2]
      | none => ways i
    (of p).any fun pp => (of u).any fun uu => pairPlaces pp (fun l =>
      fitCarries ways f r ((p, pp) :: (u, uu) :: known)
        (l.map (fun q => { members := [q.1, q.2], oneLoom := cs, onePanel := cb, bcfg := 0 }) ++ gs)) uu

/-- The map `m` extends to one over the shuttles `en` by which every consumer of a carried grant can run in its producer's loom or
panel (R336). Tasks with DUAL are not in the map. -/
def State.carriesFit (s : State) (l : Launch) (en : List ShNo) (m : List (Nat × ShNo)) (t : Option (Task × List Nat)) : Bool :=
  let mine := s.tasks.filter fun u => decide (u.lid = l.lid)
  let taskAt (i : Nat) : Option Task := mine.find? fun u => u.index = i
  let any_ := (m.map Prod.fst ++ l.groups.flatMap Group.members).dedup
  let ways (i : Nat) : List (List Nat) := match taskAt i, t with
    | some u, some (t, pl) => if u.tid = t.tid then [pl] else l.placesFor any_ u
    | some u, none => l.placesFor any_ u
    | none, _ => []
  let carries := mine.filterMap fun u => u.carry.bind fun c => (taskAt c.1).bind fun p =>
    if u.dual || p.dual || u.settled || decide (p.stat = .skipped) then none else some (u.index, c)
  fitCarries ways (fun gs => mapExtends gs en m) carries [] l.groups

/-- The placement obeys R171, R336 and R349: with it the launch's map still extends to every place of its groups, and carried
grants can still be taken up, unless that is lost already. -/
def State.placementOk (s : State) (l : Launch) (t : Task) (pl : List (Nat × ShNo)) : Bool :=
  let en := (s.enabledWithout l.out).filter fun n => !s.outShuttles.contains n
  let shuttles := pl.map Prod.snd
  let known (p : Nat) : Option ShNo := ((l.places.find? fun q => q.1 = p).map Prod.snd).filter fun n =>
    !s.outShuttles.contains n
  let map := (l.places.filter fun q => !s.outShuttles.contains q.2 && !(pl.map Prod.fst).contains q.1) ++ pl
  let members (e : Nat) : List Nat := (l.groups[e]?.map Group.members).getD []
  (shuttles.all fun n => en.contains n && s.shuttleFree n t.tid) && decide shuttles.Nodup &&
  (pl.all fun q => decide (q.1 < 240) && t.slots.all fun e => (members e).contains q.1) &&
  (if t.dual then
    (match pl with
     | [a, b] => decide (a.1 = b.1 ∧ a.2.toNat / 8 ≠ b.2.toNat / 8) &&
        t.avoid.all (fun n => decide (n.toNat / 8 ≠ a.2.toNat / 8 ∧ n.toNat / 8 ≠ b.2.toNat / 8))
     | _ => false)
  else
    (if t.gang then decide (pl.map Prod.fst = members (t.slots.headD 0)) else decide (pl.length = 1)) &&
    (pl.all fun q => match known q.1 with
      | some n => decide (n = q.2)
      | none => !(l.places.any fun r => decide (r.1 ≠ q.1 ∧ r.2 = q.2))) && mapExtends l.groups en map &&
      (s.carriesFit l en map (some (t, pl.map Prod.fst)) ||
        !s.carriesFit l en (l.places.filter fun q => !s.outShuttles.contains q.2) none))

/-- The grants fit, or are those carried. -/
def State.grantsOk (s : State) (t : Task) (shuttles : List ShNo) (sbase bbase : Nat) : Bool :=
  let one (sleeve : Bool) (unit base len : Nat) : Bool :=
    let units := unitsOf unit shuttles
    match s.carriedOf t sleeve with
    | some g => decide (base = g.base) && units.all g.units.contains
    | none => s.grantFits sleeve units base len t.tid
  one true 8 sbase (65536 * t.slv) && one false 64 bbase (65536 * t.blt)

/-- A byte range of places loses its contents, its full cells, its errors, its tags and its releases. -/
def State.clearPlaces (s : State) (lo len : Nat) : State :=
  let out (a : Nat) : Bool := decide (a < lo) || decide (lo + len ≤ a)
  { s with mem := s.mem.filter fun c => out c.1, full := s.full.filter out, bad := s.bad.filter out,
           tags := s.tags.filter fun t => out t.1, rels := s.rels.filter fun t => out t.1 }

/-- Tags and releases alone. -/
def State.clearTags (s : State) (lo len : Nat) : State :=
  let out (a : Nat) : Bool := decide (a < lo) || decide (lo + len ≤ a)
  { s with tags := s.tags.filter fun t => out t.1, rels := s.rels.filter fun t => out t.1 }

/-- Tags of a shuttle's registers, format table, semaphores, barriers and tiles, and the errors of its tiles. -/
def State.clearShuttleTags (s : State) (n : ShNo) : State :=
  ([2 ^ 64, 2 ^ 65, 2 ^ 66, 2 ^ 67].foldl (fun s b => s.clearTags (b + n.toNat * 2 ^ 16) (2 ^ 16)) s).clearPlaces
    (2 ^ 68 + n.toNat * 2 ^ 16) (2 ^ 16)

/-- A shuttle as R162 leaves it for a task. -/
def Shuttle.begin (x : Shuttle) (n : ShNo) (t : Task) (rank : Nat) (im : Image) (args : Vector W64 4) (sgnt bgnt : W64)
    (agent : Nat) : Shuttle :=
  let f := Shuttle.reset n.toNat
  let seq (k : Nat) (p : Part) (run : Run) : Seq := { Seq.reset 0 run (agent + k) with code := im.code p }
  let strm (k : Nat) (p : Part) : Seq := seq k p (if p.2 = 0 then .idle else .running)
  let fmt := im.records.foldl (fun (x : Shuttle) r => x.setEntry r.2 { x.entry r.2 with bits := r.1 }) f
  let own := decide (im.monitor % 2 = 1)
  { fmt with
    sregs := (((f.sregs.set 1 args[0]).set 2 args[1]).set 3 args[2]).set 4 args[3],
    c := seq 0 im.ctl .running, l := strm 1 im.ld, x := strm 2 im.ex, s := strm 3 im.st,
    monSection := x.monSection, ownMonitor := own, fwTvec := x.fwTvec,
    tvec := if own then BitVec.ofNat 32 (im.monitor / 4 * 4) else x.fwTvec,
    epc := x.epc, ecause := x.ecause, eval := x.eval, esst := x.esst, mscratch := x.mscratch, eaux := x.eaux, dbgc := x.dbgc,
    tts := t.ts, sgnt := sgnt, bgnt := bgnt,
    dseg := if im.data.2 = 0 then 0 else BitVec.ofNat 64 (0x3000000000000000 + t.img + im.data.1),
    progress := x.progress + 1, task := some (t.tid, rank) }

/-- A grant register: BASE and LEN. -/
def grantOf (base len : Nat) : W64 := if len = 0 then 0 else BitVec.ofNat 64 (base + len * 2 ^ 32)

/-- The grants of a start: fresh ones are initialised, carried ones keep their contents (R337, R423). -/
def State.initGrants (s : State) (t : Task) (shuttles : List ShNo) (sbase bbase : Nat) : State :=
  let one (s : State) (sleeve : Bool) (unit base len : Nat) (place : Nat → Nat → Nat) : State :=
    (unitsOf unit shuttles).foldl (fun s k =>
      if (s.carriedOf t sleeve).isSome then s.clearTags (place k base) len else s.clearPlaces (place k base) len) s
  let s1 := one s true 8 sbase (65536 * t.slv) sleevePlace
  let s2 := one s1 false 64 bbase (65536 * t.blt) boltPlace
  { s2 with grants := s2.grants.filter fun g => decide ((s.carriedOf t g.sleeve) ≠ some g) }

/-- Carried contents that the image of a resumed launch holds for a task that has not started. -/
def Launch.imageCarry (l : Launch) (t : Task) (sleeve : Bool) : Option (List Byte) :=
  match t.carry with
  | none => none
  | some (p, cs, cb) => if !l.image.isEmpty && (if sleeve then cs else cb) then carriedIn l.image p sleeve else none

/-- The task holds a carried allocation when it starts. -/
def State.carries (s : State) (l : Launch) (t : Task) : Bool :=
  (s.carriedOf t true).isSome || (s.carriedOf t false).isSome || (l.imageCarry t true).isSome || (l.imageCarry t false).isSome

/-- Contents of a resumed launch that have lain in its image (R369). -/
def State.takeCarried (s : State) (l : Launch) (t : Task) (shuttles : List ShNo) (sbase bbase : Nat) : State :=
  let s1 := match l.imageCarry t true with
    | some bs => s.putGrant (unitsOf 8 shuttles) sleevePlace sbase (65536 * t.slv) bs
    | none => s
  match l.imageCarry t false with
  | some bs => s1.putGrant (unitsOf 64 shuttles) boltPlace bbase (65536 * t.blt) bs
  | none => s1

/-- The configuration that a start installs, as words with their number first: ts, queue and arguments, code sections, group slots,
grants, the rest of the descriptor and the format block (R347; assumption log 104). -/
def configWords (t : Task) (im : Image) (args : Vector W64 4) (sbase bbase : Nat) : List W64 :=
  let part (p : Part) : W64 := BitVec.ofNat 64 (p.1 + p.2 * 2 ^ 32)
  let attr : Nat := (if t.gang then 1 else 0) + (if t.dual then 2 else 0) + if t.ordered then 4 else 0
  let words : List W64 := [t.ts, BitVec.ofNat 64 t.queue] ++ args.toList ++
    [BitVec.ofNat 64 t.img, part im.ctl, part im.ld, part im.ex, part im.st] ++ t.slots.map (BitVec.ofNat 64) ++
    [grantOf sbase (65536 * t.slv), grantOf bbase (65536 * t.blt), BitVec.ofNat 64 (attr + t.share * 2 ^ 32),
     BitVec.ofNat 64 t.index] ++
    im.records.flatMap fun (r : BitVec 128 × Nat) => [r.1.setWidth 64, (r.1 >>> 64).setWidth 64, BitVec.ofNat 64 r.2]
  BitVec.ofNat 64 words.length :: words

/-- Words 1 to 6, ts, queue and arguments, are written whole at every start, and the check takes them as zero. -/
def wholeWord (i : Nat) : Bool := decide (1 ≤ i ∧ i ≤ 6)

/-- The words of a plane that a delta changes, and the plane that it makes (R347). -/
def planeDelta (face conf : List W64) : List (Nat × W64) :=
  (((List.range conf.length).zip conf).filter fun p => !wholeWord p.1 && decide (face[p.1]? ≠ some p.2))
def applyDelta (face : List W64) (d : List (Nat × W64)) : List W64 :=
  let word (i : Nat) : W64 := ((d.find? fun p => p.1 = i).map Prod.snd).getD (face.getD i 0)
  (List.range ((word 0).toNat + 1)).map word
def planeCrc (l : List W64) : W32 :=
  crc32 (((List.range l.length).zip l).flatMap fun p => leBytes 8 (if wholeWord p.1 then 0 else p.2.toNat))

/-- The effect of a start: every member's shuttle is set up before any of them issues. A bound task of a checkpoint image
goes on from it. -/
def State.startTask (s : State) (l : Launch) (t : Task) (im : Image) (args : Vector W64 4) (pl : List (Nat × ShNo))
    (sbase bbase : Nat) : State :=
  let carried := s.carries l t
  let shuttles := pl.map Prod.snd
  let oldest := s.isOldest t.tid
  let base := s.nextId
  let s1 : State := { (s.releaseShuttles t.tid t.shuttles).initGrants t shuttles sbase bbase with
                      nextId := base + 4 * pl.length }
  let s2 := ((List.range pl.length).zip shuttles).foldl (fun s p =>
    let n := p.2
    let s := (s.clearPlaces (pocketPlace n 0) Config.pocketBytes).clearShuttleTags n
    let s := s.modShuttle n fun x =>
      { x.begin n t p.1 im args (grantOf sbase (65536 * t.slv)) (grantOf bbase (65536 * t.blt)) (base + 4 * p.1) with
        face := configWords t im args sbase bbase, back := x.face }
    s.putBytes (pocketPlace n im.pocketAt) (im.part im.pocket)) s1
  let s3 := s2.modTask t.tid fun t =>
    { t with
      stat := .running, args := args, shuttles := shuttles, places := pl.map Prod.fst, ended := [], sbase := sbase,
      bbase := bbase, stages := Vector.replicate 2 { writes := [], reads := [] }, table := [], committing := false, performed := false,
      bound := carried, bars := Vector.replicate 4 (Barrier.start pl.length), ckmark := none, flags := Vector.replicate 2 0,
      held := none, ranges := [], wrote := [], reserved := !oldest, saved := false }
  let s4 := if t.dual then s3 else s3.modLaunch t.lid fun l =>
    { l with places := (l.places.filter fun q => !(pl.map Prod.fst).contains q.1) ++ pl }
  let s5 := if t.saved then s4.restoreTask l t shuttles sbase bbase else s4.takeCarried l t shuttles sbase bbase
  { s5 with
    stamp := s5.stamp + 1, mats := s5.mats.filter fun m => m.job.task.isSome || !shuttles.contains m.job.sh }

/-- Whether a task may start now, but for where (R165, R168, R335). -/
def State.mayStart (s : State) (l : Launch) (t : Task) : Bool :=
  !l.stopped && (decide (t.stat = .pending) || (decide (t.stat = .stopping) && !s.busyTask t.tid)) &&
  decide (t.preds = 0) && !t.untaken && t.held.isNone &&
  ((!t.ordered && !t.saved && !s.carries l t) || s.isOldest t.tid)

/-- Image and arguments of a start, read afresh. -/
inductive Loaded where
  | ok (s : State) (im : Image) (args : Vector W64 4)
  | fault
  | waits (s : State)

def State.loadTask (s : State) (l : Launch) (t : Task) : Loaded :=
  match s.creelRead t.tid t.img 96 with
  | .fault => .fault
  | .waits s1 => .waits s1
  | .ok s1 h =>
    match s1.creelRead t.tid t.img (numAt h 8 4) with
    | .fault => .fault
    | .waits s2 => .waits s2
    | .ok s2 bs =>
      if l.argp = 0 then .ok (s2.dropReplies t.tid) (imageOf bs) (Vector.replicate 4 0)
      else
        match s2.creelRead t.tid (l.argp + 32 * t.index) 32 with
        | .fault => .fault
        | .waits s3 => .waits s3
        | .ok s3 ab =>
          .ok (s3.dropReplies t.tid) (imageOf bs) (Vector.ofFn fun (i : Fin 4) => BitVec.ofNat 64 (numAt ab (8 * i.val) 8))

/-- The launch ends because the Creel could not read for it (R428). -/
def State.endUnread (s : State) (l : Launch) (t : Task) : State := ((s.clearDenied t.tid).killLaunch l.lid).msiv l.queue

/-- The Punch notes a start, with the values of the shape words; what it cannot read it cannot record (R340, R343). -/
def State.recordStart (s : State) (l : Launch) (t : Task) (im : Image) (args : Vector W64 4) (pl : List (Nat × ShNo))
    (sbase bbase : Nat) : State :=
  match l.recording with
  | none => s
  | some ts =>
    let word (va : Nat) : Option W64 := if va = 0 then some 0 else
      match s.readGlobal none t.tid va 8 with
      | .ok (bs, _) => some (BitVec.ofNat 64 (leNat bs))
      | .error _ => none
    let conf := configWords t im args sbase bbase
    s.modLaunch l.lid fun l =>
      { l with recording := match word t.shape0, word t.shape1 with
          | some a, some b =>
            let order := ((ts.find? fun c => c.index = t.index).map CardTask.order).getD ts.length
            some ((ts.filter fun c => c.index ≠ t.index) ++
              [{ index := t.index, order := order, places := pl.map Prod.fst, shuttles := pl.map Prod.snd, dual := t.dual,
                 carry := t.carry, succs := t.edges.map Edge.succ, slv := t.slv, blt := t.blt, sbase := sbase, bbase := bbase, shape0 := a, shape1 := b, cond := none, ranges := [],
                 copies := List.range im.parts.length,
                 deltas := pl.map fun q => (planeDelta (s.shuttle q.2).face conf, planeCrc conf) }])
          | _, _ => none }

/-- The Drafter starts a ready task on the shuttles and grants that it has chosen. -/
def execTaskStart (tid : Nat) (pl : List (Nat × ShNo)) (sbase bbase : Nat) (s : State) : Result :=
  match s.taskOf tid with
  | none => .next s
  | some t =>
    match s.launchOf t.lid with
    | none => .next s
    | some l =>
      let shuttles := pl.map Prod.snd
      let room := (unitsOf 64 shuttles).all fun p => decide (s.reservedShare p tid + t.share ≤ 256)
      if l.card.isNone && s.mayStart l t && s.placementOk l t pl && s.grantsOk t shuttles sbase bbase &&
          (room || s.isOldest tid) then
        match s.loadTask l t with
        | .fault => .next (s.endUnread l t)
        | .waits s1 => .next s1
        | .ok s1 im args => .next ((s1.recordStart l t im args pl sbase bbase).startTask l t im args pl sbase bbase)
      else .next s

/-! ## Abort tokens and fatal faults (R374 to R376) -/

/-- AGREED, once every member has sent its frozen LSTEP or left service: the least that has arrived, with an MSI. -/
def State.tryAgree (s : State) : State :=
  match s.lstep with
  | none => s
  | some v =>
    let others := s.gangMembers.filter fun p => p ≠ s.pkn
    if others.all fun p => s.gone.contains p || s.lsteps.any fun m => m.1 = p then
      let least := (s.lsteps.filter fun m => others.contains m.1).foldl (fun (a : W64) m => if m.2.toNat < a.toNat then m.2 else a) v
      ({ s with lstep := none, lsteps := [], stamp := s.stamp + 1 }.setDevReg (trapUnit + 0x70) least).sendMsi
        ((s.devReg (trapUnit + 0x28)).toNat / 2 ^ 32 % 2 ^ 16)
    else s

/-- An abort token: every launch stops, queues with a packet in dispatch halt, cause 0x30 goes to the application cores, and
LSTEP freezes; `spread` passes it to the gang. -/
def State.raiseToken (s : State) (reason : BitVec 16) (spread : Bool) : State :=
  let s1 : State := { s with launches := s.launches.map fun l => { l with stopped := true } }
  let s2 := ((s.tasks.filter fun t => !t.settled && decide (t.stat ≠ .pending)).map Task.tid).foldl State.stopTask s1
  let s3 := (s.queues.filter fun x => x.pkts.any fun p => p.status.isNone).foldl (fun s x => s.haltQueue x.q) s2
  let s4 := s3.holdRecord (recordWords 0x30 (reason.setWidth 64) RecFlags.none)
  let v := s4.lstep.getD (s4.devReg (trapUnit + 0x68))
  let s5 : State := { s4 with requests := s4.requests ++ [{ kind := .token, queue := 0, lid := none }],
                              lstep := some v }
  let s6 := if spread then s5.tellGang (.token reason) else s5
  (s6.tellGang (.lstep v)).tryAgree

/-- A fatal fault (R374): cause 0x31 through the firmware, and a token, whose reason the spec does not give. -/
def State.fatalFault (s : State) (cls : BitVec 8) (unit : BitVec 24) (kind : BitVec 8) : State :=
  let v : W64 := BitVec.ofNat 64 (cls.toNat + unit.toNat * 2 ^ 8 + kind.toNat % 256 * 2 ^ 32)
  let d := (s.holdRecord (recordWords 0x31 v { RecFlags.none with fw := true })).draw
  d.2.raiseToken (d.1.setWidth 16) true

/-! ## Commits (R167, R168, R216, R335, R343, R376, R427) -/

/-- The range guards of a replayed task hold before its writes are performed. -/
def State.rangeGuard (s : State) (l : Launch) (t : Task) : Bool :=
  match l.card with
  | none => true
  | some c =>
    match c.tasks.find? fun k => k.index = t.index with
    | none => false
    | some k => k.ranges.all fun r =>
        let d := s.desc r.1
        let g := ((l.g0.find? fun g => g.1 = r.1).map Prod.snd).getD 0
        decide (BitVec.ofNat 16 d.gen = g + r.2.2) && decide (d.vb = r.2.1.toNat)

/-- What the Punch notes at a commit. -/
def State.recordCommit (s : State) (l : Launch) (t : Task) (cond : Option Bool) : State :=
  s.modLaunch l.lid fun l =>
    { l with recording :=
        if 8 < t.ranges.length then none
        else l.recording.map fun ts => ts.map fun k =>
          if k.index ≠ t.index then k
          else { k with cond := cond, ranges := t.ranges.map fun r =>
            (r.1, r.2, BitVec.ofNat 16 (s.desc r.1).gen - ((l.g0.find? fun g => g.1 = r.1).map Prod.snd).getD 0) } }

/-- Grants that the task's consumers carry on. -/
def State.passGrants (s : State) (t : Task) : State :=
  let wants (sleeve : Bool) : Bool := s.tasks.any fun u => decide (u.lid = t.lid ∧ u.stat ≠ .skipped) &&
    (match u.carry with
     | some c => decide (c.1 = t.index) && (if sleeve then c.2.1 else c.2.2)
     | none => false)
  let one (sleeve : Bool) : List CarriedGrant :=
    let n := 65536 * (if sleeve then t.slv else t.blt)
    if n ≠ 0 && wants sleeve then
      [{ lid := t.lid, producer := t.index, sleeve := sleeve, base := if sleeve then t.sbase else t.bbase, len := n,
         units := unitsOf (if sleeve then 8 else 64) t.shuttles }]
    else []
  { s with grants := s.grants ++ one true ++ one false }

/-- The task leaves: key, flags, LSTEP, counted lines, grants and shuttles. Its completion is signalled with the OR of its status
registers (R167; assumption log 127). -/
def State.leaveTask (s : State) (t : Task) : State :=
  let s1 := t.wrote.foldl State.advanceGen s
  let lstep := s.devReg (trapUnit + 0x68)
  let s2 := match t.ckmark with
    | some v => if s.lstep.isNone ∧ lstep.toNat < v.toNat then s1.setDevReg (trapUnit + 0x68) v else s1
    | none => s1
  let s3 := (s2.passGrants t).releaseShuttles t.tid t.shuttles
  ({ s3 with lines := s3.lines.filter fun l => decide (l.task ≠ some t.tid), lastKey := some t.key,
             signals := s3.signals ++ [(t.key, t.flags[0])], stamp := s3.stamp + 1 }.dropAwayLines t.tid).modTask t.tid fun t => { t with stat := .committed }

/-- The end of a commit, its condition word read when it has one: the task leaves, the branch guard is tested, the edges are
settled, and the shape guards of the tasks that are ready then are tested (R335, R343). -/
def State.commitTask (s : State) (l : Launch) (t : Task) (word : Option W64) : State :=
  let cond := word.map fun w => decide (w ≠ 0)
  let branch := match l.card.bind fun k => k.tasks.find? fun k => k.index = t.index with
    | some k => decide (k.cond = cond)
    | none => true
  let s1 := (s.recordCommit l t cond).leaveTask t
  let s2 := if branch then s1 else s1.guardFail l.lid true
  (((s2.meetEdges l.lid t.edges fun e => e.cond && decide (some e.pol ≠ cond)).skipTasks l.lid).testShapes l.lid).tryFinish l.lid

/-- The staged writes that a commit has sent to other packages are acknowledged; a refusal holds the commit. -/
def State.commitAcks (s : State) (tid : Nat) : Except State State :=
  let isWrite (m : Sent) : Bool := match m.op with
    | .write _ => decide (m.owner = tid)
    | _ => false
  let mine := s.sent.filter isWrite
  if mine.any fun m => m.reply.isNone then .error s
  else
    let s1 : State := { s with sent := s.sent.filter fun m => !isWrite m }
    match mine.findSome? fun m => (m.reply.bind replyCause).map fun c => (c, s.causeEval c m.ea) with
    | some f => .error (s1.holdCommit tid f.1 f.2)
    | none => .ok s1

/-- A commit whose writes are performed goes on: their acknowledgements, then the condition word, then the rest. -/
def State.settleCommit (s : State) (tid : Nat) : State :=
  match s.commitAcks tid with
  | .error s1 => s1
  | .ok s1 =>
    match s1.taskOf tid, (s1.taskOf tid).bind fun t => s1.launchOf t.lid with
    | some t, some l =>
      if t.cond = 0 then s1.commitTask l t none
      else
        match s1.creelRead t.tid t.cond 8 with
        | .waits s2 => s2
        | .ok s2 bs => (s2.dropReplies t.tid).commitTask l t (some (BitVec.ofNat 64 (leNat bs)))
        | .fault => (((s1.recordCommit l t none).leaveTask t).endUnread l t)
    | _, _ => s1

/-- The stack of the first HBM cell that a staged write covers in part and that holds an uncorrectable error: the commit cannot form
it (R370, R374). -/
def State.commitLost (s : State) (t : Task) : Option Nat :=
  (t.stage 0).writes.findSome? fun w => (pieces w.va w.data.length).findSome? fun p =>
    match s.locate p.1 .write with
    | .ok (.home pa, _, _) =>
      (((List.range ((pa % 8 + p.2 + 7) / 8)).map fun k => pa / 8 * 8 + 8 * k).find? fun c =>
        (decide (c < pa) || decide (pa + p.2 < c + 8)) && s.badCell c).map fun c => c / 2 ^ 12 % 8
    | _ => none

/-- The commit of the oldest complete task: its writes are checked and performed, after the range guards have been tested, and it
goes on (R167, R335, R343, R427). -/
def State.tryCommit (s : State) (l : Launch) (t : Task) : State :=
  if t.performed then s.settleCommit t.tid
  else
    match (if t.committing then .ok s else s.becomeCommitting t), s.commitLost t with
    | .error g, _ => g s
    | .ok _, some k => s.fatalFault 5 (BitVec.ofNat 24 k) 2
    | .ok s1, none =>
      let s2 := if s.rangeGuard l t then s1 else s1.guardFail l.lid true
      (s2.modTask t.tid fun t => { t with performed := true }).settleCommit t.tid

/-- The task is complete, the oldest, and free to commit. -/
def State.mayCommit (s : State) (t : Task) : Bool :=
  decide (t.stat = .complete) && !s.busyTask t.tid && s.isOldest t.tid && t.held.isNone && !t.saved &&
  s.requests.all fun r => decide (r.kind ≠ .token)

def execTaskCommit (tid : Nat) (s : State) : Result :=
  match s.taskOf tid with
  | none => .next s
  | some t =>
    match s.launchOf t.lid with
    | none => .next s
    | some l => if s.mayCommit t && !t.dual then .next (s.tryCommit l t) else .next s

/-! ## DUAL tasks (R349) -/

/-- Staged lines of a copy in rising order: address, 64 data bytes, byte mask. -/
def Stage.lines (g : Stage) : List (Nat × List Byte × W64) :=
  let ls := ((g.writes.flatMap fun w => linesOf w.va w.data.length).foldl (fun acc a => insertNat a acc) [])
  ls.map fun a =>
    let bs := (List.range 64).map fun i => stagedByte g.writes (64 * a + i)
    (64 * a, bs.map fun b => b.getD 0,
     BitVec.ofNat 64 (((List.range 64).filter fun i => (bs.getD i none).isSome).foldl (fun m i => m + 2 ^ i) 0))

/-- The signature of a copy. -/
def Task.signature (t : Task) (c : Fin 2) : W64 :=
  crc64 (((t.stages[c.val]).lines.flatMap fun l => leBytes 8 l.1 ++ l.2.1 ++ leBytes 8 l.2.2.toNat) ++
    leBytes 8 (t.flags[c.val]).toNat)

/-- Two copies differ: they are discarded and run again on other looms; the second time a record of
cause 0x2D goes to the application cores and the launch ends. -/
def State.mismatch (s : State) (t : Task) : State :=
  if t.mismatches = 0 then
    let s1 := (s.healthRecord 1 ((t.shuttles.headD 0).toNat) 2 1 t.ts).stopTask t.tid
    s1.modTask t.tid fun t => { t with mismatches := 1, avoid := t.shuttles }
  else
    let v : W64 := BitVec.ofNat 64 (t.index % 4096 + bitsOf (t.signature 0) 0 32 * 2 ^ 32)
    (s.holdRecord (recordWords 0x2D v { RecFlags.none with task := some t }) ).killLaunch t.lid

/-- Both copies have ended: the signatures are compared, and the task commits or runs again. -/
def execDualSignatureCompare (tid : Nat) (s : State) : Result :=
  match s.taskOf tid with
  | none => .next s
  | some t =>
    match s.launchOf t.lid with
    | none => .next s
    | some l =>
      if s.mayCommit t && t.dual then
        if t.performed || decide (t.signature 0 = t.signature 1) then .next (s.tryCommit l t) else .next (s.mismatch t)
      else .next s

end Sys2Proof.Machine
end

