-- ==== Sys2Proof/Machine/Heddle.lean ====
section
/-! DEFINITION. The Heddles: communicators, collective commands, their chunks, fault notices and results (R404 to R415,
R417). -/

namespace Sys2Proof.Machine
open Sys2Proof

/-! ## Commands (R406, R407) -/

/-- fn of CAR, CRS, CRED: the commands that reduce; of CAG, CBC and CA2A: those that count bytes. -/
def reduces (fn : Nat) : Bool := decide (fn = 1 ∨ fn = 2 ∨ fn = 5)
def countsBytes (fn : Nat) : Bool := decide (fn = 3 ∨ fn = 4 ∨ fn = 6)

/-- Bytes of the send and receive extents; `wa` and `wo` are the widths of FA and FO. -/
def sendBytes (fn size rank rt k wa : Nat) : Nat :=
  match fn with
  | 1 => k * wa | 2 => size * k * wa | 3 => k | 4 => if rank = rt then k else 0 | 5 => k * wa | 6 => size * k | _ => 0
def recvBytes (fn size rank rt k wo : Nat) : Nat :=
  match fn with
  | 1 => k * wo | 2 => k * wo | 3 => size * k | 4 => k | 5 => if rank = rt then k * wo else 0 | 6 => size * k | _ => 0

/-- Formats that FO takes (R409). -/
def okCollOut (f : Fmt) : Bool := !decide (f ∈ [Fmt.sp8, .xa64, .rsv])

/-- The send bytes that go to one other rank. -/
def blockBytes (fn rank rt k wa : Nat) : Nat :=
  match fn with
  | 1 => k * wa | 2 => k * wa | 3 => k | 4 => if rank = rt then k else 0 | 5 => k * wa | 6 => k | _ => 0

/-- Bytes of a block in chunks: offset and length; an empty block is one empty chunk. -/
def chunksOf (size n : Nat) : List (Nat × Nat) :=
  if n = 0 then [(0, 0)]
  else (List.range ((n + size - 1) / size)).map fun i => (size * i, min size (n - size * i))

/-- What a chunk is made of: the ranks it goes to, where it stands in the send extent and in its block, and its length. -/
structure Piece where
  ranks : List Nat
  at_ : Nat
  off : Nat
  len : Nat
  deriving DecidableEq, Repr

/-- The chunks of a collective in order. Every rank sends at least one to every other, so that its release is known there
(R411). -/
def Coll.schedule (c : Coll) : List Piece :=
  let w := (fmtOfCode c.dig.fa).width
  let others := (List.range c.size).filter fun r => decide (r ≠ c.rank)
  let n := blockBytes c.fn c.rank c.rt c.k w
  match c.fn with
  | 2 | 6 =>
    (List.range c.size).flatMap fun r =>
      (chunksOf c.chunk n).map fun p =>
        { ranks := if r = c.rank then [] else [r], at_ := r * n + p.1, off := p.1, len := p.2 }
  | 5 =>
    ((chunksOf c.chunk n).map fun p => { ranks := if c.rank = c.rt then [] else [c.rt], at_ := p.1, off := p.1, len := p.2 }) ++
      [{ ranks := others.filter fun r => decide (r ≠ c.rt), at_ := 0, off := 0, len := 0 }]
  | _ => (chunksOf c.chunk n).map fun p => { ranks := others, at_ := p.1, off := p.1, len := p.2 }

/-- The collective as a copy, whose reads and writes are those of a tile move. -/
def Coll.asMove (c : Coll) : Move :=
  { job := c.job, kind := .mov, elem := 0, da := 0, desc := [], tag := 0, row := 0, awaits := [], tape := none, old := [],
    fills := [], ending := none }

/-- `n` bytes at an extended address, as one side of a copy. -/
def extentAt (ea : W64) (n : Nat) : Operand :=
  { lv := eaLevel ea, base := eaLow ea, str := 0, rows := 1, len := n, indexed := false }

def State.putColl (s : State) (c : Coll) : State :=
  { s with colls := s.colls.map fun o => if o.job.id = c.job.id then c else o }

/-- The rank is one of another package of this domain, which warp links reach (R404). -/
def State.overWarp (s : State) (w : W32) : Bool := decide (rankDom w = s.dom ∧ rankPkn w ≠ s.pkn)

/-- A message of a Heddle leaves for a rank: on the communicator's channel within the domain, else through a weft port or within the
package (R401, R404, R417). -/
def State.sendToRank (s : State) (w : W32) (m : CollMsg) : State :=
  if s.overWarp w then s.post (rankPkn w) (s.commVc m.cm) (.coll m) else { s with outChunks := s.outChunks ++ [m] }

/-- A chunk or notice of a collective leaves for some ranks. A release at `.dm` or `.sy` reaches the packages of the domain with it
(R400, R411). -/
def State.sendColl (s : State) (c : Coll) (ranks : List Nat) (chunk : Option (Nat × List Byte)) : State :=
  let r := c.job.release (.set [c.job.sh])
  let rel := c.job.rl && decide (4 ≤ extRank r.ext)
  ranks.foldl (fun s k =>
    let w := c.dig.ranks.getD k 0
    let s1 := if rel && chunk.isSome && s.overWarp w then s.giveTo (rankPkn w) [r] else s
    s1.sendToRank w { cm := c.cm, j := c.j, rank := some k, dig := c.dig, chunk := chunk, rel := rel }) s

/-- A chunk goes to the warp switch that reduces it; the release reaches every package with the switch's results (R415). -/
def State.sendSwitch (s : State) (c : Coll) (chunk : Nat × List Byte) : State :=
  let r := c.job.release (.set [c.job.sh])
  let rel := c.job.rl && decide (4 ≤ extRank r.ext)
  let s1 := if rel then ((List.range c.size).filter fun k => decide (k ≠ c.rank)).foldl
      (fun s k => s.giveTo (rankPkn (c.dig.ranks.getD k 0)) [r]) s else s
  { s1 with outChunks := s1.outChunks ++ [{ cm := c.cm, j := c.j, rank := none, dig := c.dig, chunk := some chunk, rel := rel }] }

/-! ## How a collective ends early (R410) -/

/-- eval of cause 0x3B. -/
def collEval (cm : BitVec 6) (j : Nat) (notice : Bool) : W64 :=
  BitVec.ofNat 64 (cm.toNat + (if notice then 256 else 0) + j * 2 ^ 32)

/-- It reports a fault and has only its completion left. -/
def State.endColl (s : State) (c : Coll) (cause : BitVec 8) (eval : W64) : State :=
  ((s.jobFault c.job 4 cause eval).putColl { c with job := { c.job with started := true, ran := true, failed := true } }).bump
    c.job.sh

/-- The communicator is blocked, and every collective accepted on it ends. -/
def State.blockComm (s : State) (cm : BitVec 6) : State :=
  let s1 := s.putComm { s.comm cm with blocked := true }
  (s1.colls.filter fun c => decide (c.cm = cm) && !c.job.ran).foldl
    (fun s c => s.endColl c 0x3B (collEval cm c.j true)) s1

/-- The other ranks of a collective. -/
def Coll.others (c : Coll) : List Nat := (List.range c.size).filter fun r => decide (r ≠ c.rank)

/-- A fault of its own: every other rank receives a notice in place of the remaining chunks. -/
def State.failColl (s : State) (c : Coll) (cause : BitVec 8) (eval : W64) : State :=
  let s1 := (s.clearDenied c.job.id).endColl c cause eval
  (s1.sendColl c c.others none).blockComm c.cm

/-- A digest differs: the collective ends here, and an empty chunk makes its own digest known to every rank. -/
def State.mismatchColl (s : State) (c : Coll) : State :=
  let s1 := s.endColl c 0x3B (collEval c.cm c.j false)
  (s1.sendColl c c.others (some (0, []))).blockComm c.cm

/-! ## Acceptance (R407) -/

/-- The package and panel of a same-domain rank that no link in service reaches (R402). -/
def State.deadRank (s : State) (ranks : List W32) : Option (BitVec 8) :=
  (ranks.find? fun w => s.overWarp w && (s.linkTo (rankPkn w)).isNone).map rankPkn

/-- A warp switch that every rank reaches (R415). -/
def State.switchLink (s : State) (ranks : List W32) : Option Nat :=
  (List.range 24).find? fun l =>
    (s.devReg (warpBlock + 0x100 + 8 * l)).getLsbD 24 && (s.devReg (warpBlock + 0x8)).getLsbD l &&
      ranks.all fun w => decide (rankDom w = s.dom) && (decide (rankPkn w = s.pkn) ||
        (s.devReg (warpBlock + 0x1000 + 8 * (rankPkn w).toNat)).getLsbD l)

/-- A collective at its issue: `k`, `send` and `recv` are the values of its registers. -/
def issueColl (s : State) (h : Hdr) (fn : Nat) (cm : BitVec 6) (op fx lv rt : Nat) (k : Nat) (send recv : W64) : Eff :=
  issueJob s h.cc (semField h.wt) (semField h.sg) h.aq h.rl h.sc.toNat fun s j =>
    let t := s.taskAt s.here
    let cfg := s.cmcfg cm
    let reason (n : Nat) : Eff := .trap 0x39 (BitVec.ofNat 64 (n + 256 * cm.toNat))
    let size := s.commSize cm
    let rank := s.commRank cm
    let comm := s.comm cm
    let ranks := s.rankList cm
    let own := ranks.getD rank 0
    let used (n : Nat) (ea : W64) : Bool := decide (n ≠ 0) &&
      (decide (eaLevel ea ≠ 2 ∧ eaLevel ea ≠ 3) || decide (ea.toNat % 8 ≠ 0))
    let entry := entryIndex fx lv s.me.c.loops
    if (t.map Task.dual).getD false then .trapWord 0x2E
    else if !cfg.getLsbD 63 then reason 1
    else if comm.blocked then reason 7
    else if t.map Task.queue ≠ some (bitsOf cfg 16 16) then .trap 0x3A (cm.setWidth 64)
    else if fn ≠ 7 && (decide (k = 0 ∨ 2 ^ 31 ≤ k) || (countsBytes fn && decide (k % 8 ≠ 0))) then reason 2
    else if used (sendBytes fn size rank rt k 1) send || used (recvBytes fn size rank rt k 1) recv then reason 3
    else if decide (size ≤ rank) || decide (rankPkn own ≠ s.pkn) || decide (rankDom own ≠ s.dom) ||
        decide (bitsOf (s.devReg 0x40008) (8 * (rankPanel own).toNat) 6 = 0) then reason 4
    else if (decide (fn = 4) || decide (fn = 5)) && decide (size ≤ rt) then reason 5
    else
      let body (s : State) : Eff :=
        let e := (s.me.entry entry).bits
        let settled (lo : Nat) (ok : Fmt → Bool) : Fmt × Bool :=
          if reduces fn then settleFmt (entryField e lo 4) ok .fp32 else (.fp32, false)
        let fa := settled 52 okBias
        let fo := settled 44 okCollOut
        let j := j.seen s
        let src := extentAt send (sendBytes fn size rank rt k fa.1.width)
        let dst := extentAt recv (recvBytes fn size rank rt k fo.1.width)
        let reads := s.rowReads j.sh 0 src
        let ops : List (Operand × Bool × AccKind) :=
          (if src.len = 0 then [] else [(src, false, .plain)]) ++ (if dst.len = 0 then [] else [(dst, true, .plain)])
        let fault := ops.findSome? fun p => s.operandFault s.here p.1 (if p.2.1 then .write else .read)
        if reduces fn && decide (op ≠ 0) && decide (fo.1 = .xacc128) then reason 6
        else
          match fault with
          | some (c, v) => .trap c v
          | none =>
            whenOldest s fun s =>
              let panel := rankPanel own
              if 16 ≤ (s.colls.filter fun c => decide (c.panel = panel)).length then .wait .other 0
              else
                let races := ops.findSome? fun p => s.operandRace j p.1 p.2.1 p.2.2
                let new := moveIntervals j ops
                let table := ((s.taskAt s.here).map Task.table).getD []
                let grace := new.findSome? fun v => tableRace j.know v.acc v.lo v.hi table
                let full := match s.taskAt s.here with
                  | some t => decide (tableSize < s.unretired t (panelOf s.here) new)
                  | none => false
                if j.wt.isNone && races.isSome then .trap 0x20 (races.getD 0)
                else if j.wt.isNone && grace.isSome then .trap 0x20 (globalEa (grace.getD 0))
                else if full then
                  -- the spec gives no eval for a collective: a free value
                  .trapAfter (fun s => s.draw.2) 0x21 s.draw.1
                else
                  match (if src.len = 0 then none else s.readMismatch j reads.1 reads.2), s.deadRank ranks with
                  | some v, _ => .trap 0x22 v
                  | none, some p => .trap 0x38 (BitVec.ofNat 64 (2 ^ 63 + p.toNat))
                  | none, none =>
                    let dig : Digest := { fn := fn, op := op, k := k, rt := rt, fa := fa.1.code, fo := fo.1.code, anc := 0,
                                          rm := 0, sca := 0, scb := 0, osx := 0, ranks := ranks }
                    let switch := (s.devReg (warpBlock + 0x18)).getLsbD 0 && cfg.getLsbD 7 && reduces fn &&
                      (s.switchLink ranks).isSome &&
                      !(decide (src.lv = dst.lv) && decide (dst.len ≠ 0) && meet src.extent dst.extent)
                    let c : Coll :=
                      { job := { j with flags := if reduces fn && (fa.2 || fo.2) then warnBit else 0 }, panel := panel,
                        cm := cm, j := comm.issued + 1, fn := fn, size := size, rank := rank, k := k, rt := rt,
                        entry := entry, dig := dig, send := send, recv := recv, prio := bitsOf cfg 8 2,
                        chunk := s.commChunk cm, pos := 0, sent := [], got := [], result := none, switch := switch }
                    let s1 := ({ s.raiseCount j with colls := s.colls ++ [c] }).putComm
                      { comm with issued := comm.issued + 1 }
                    let s2 := match s.me.task with
                      | some p => s1.modTask p.1 fun t =>
                          { t with table := new.foldl (fun l v => enterInterval v l) t.table }
                      | none => s1
                    let s3 := if comm.noticed.contains c.j then
                        (s2.endColl c 0x3B (collEval cm c.j true)).blockComm cm
                      else s2
                    .command s3 2 j.id
      if reduces fn then withTable s false .plain [(entry, 15)] body else body s

/-- Count register of a collective: its low 32 bits. -/
def State.countOf (s : State) (r : RegNo) : Nat := bitsOf (s.sreg r) 0 32

def execCar (h : Hdr) (cm : BitVec 6) (op : BitVec 4) (fx : BitVec 6) (lv : BitVec 3) (sc sb sa : RegNo) (s : State) :
    Result :=
  runC s (issueColl s h 1 cm op.toNat fx.toNat lv.toNat 0 (s.countOf sc) (s.sreg sa) (s.sreg sb))
def execCrs (h : Hdr) (cm : BitVec 6) (op : BitVec 4) (fx : BitVec 6) (lv : BitVec 3) (sc sb sa : RegNo) (s : State) :
    Result :=
  runC s (issueColl s h 2 cm op.toNat fx.toNat lv.toNat 0 (s.countOf sc) (s.sreg sa) (s.sreg sb))
def execCag (h : Hdr) (cm : BitVec 6) (sc sb sa : RegNo) (s : State) : Result :=
  runC s (issueColl s h 3 cm 0 0 7 0 (s.countOf sc) (s.sreg sa) (s.sreg sb))
def execCbc (h : Hdr) (cm : BitVec 6) (rt : BitVec 8) (sc sb sa : RegNo) (s : State) : Result :=
  runC s (issueColl s h 4 cm 0 0 7 rt.toNat (s.countOf sc) (s.sreg sa) (s.sreg sb))
def execCred (h : Hdr) (cm : BitVec 6) (op : BitVec 4) (fx : BitVec 6) (lv : BitVec 3) (rt : BitVec 8) (sc sb sa : RegNo)
    (s : State) : Result :=
  runC s (issueColl s h 5 cm op.toNat fx.toNat lv.toNat rt.toNat (s.countOf sc) (s.sreg sa) (s.sreg sb))
def execCa2a (h : Hdr) (cm : BitVec 6) (sc sb sa : RegNo) (s : State) : Result :=
  runC s (issueColl s h 6 cm 0 0 7 0 (s.countOf sc) (s.sreg sa) (s.sreg sb))
def execCbar (h : Hdr) (cm : BitVec 6) (s : State) : Result := runC s (issueColl s h 7 cm 0 0 7 0 0 0 0)

/-! ## Chunks (R410 to R414) -/

/-- A pre-emption or a token holds the collective at its chunk boundary. -/
def State.collHeld (s : State) (c : Coll) : Bool :=
  let lid := (c.job.task.bind fun p => s.taskOf p.1).map Task.lid
  s.isSaved c.job.task ||
    s.requests.any fun r => decide (r.kind = .token) || (decide (r.kind = .preempt) && decide (r.lid = lid))

/-- Its turn on the communicator has come, its semaphore has a signal, and with rl its carry set is performed. -/
def State.mayStartColl (s : State) (c : Coll) : Bool :=
  s.colls.all (fun o => decide (o.cm ≠ c.cm) || decide (c.j ≤ o.j)) && s.jobReady c.job && (!c.job.rl || s.carryDone c.job)

/-- What its next chunk reads is at hand: it waits neither for residency nor for another package. -/
def State.inputsHere (s : State) (c : Coll) : Bool :=
  !(s.resReqs.any fun r => r.waiters.contains c.job.id) &&
    !(s.sent.any fun m => decide (m.owner = c.job.id) && m.reply.isNone)

/-- A chunk of it can begin: its inputs are there, and the receivers have granted their credits (R412). -/
def State.collReady (s : State) (credits : List (BitVec 6 × Nat)) (c : Coll) : Bool :=
  !c.job.ran && !s.collHeld c && decide (c.result = none) && s.inputsHere c &&
    (match c.schedule[c.pos]? with
     | some p => c.switch || p.ranks.all fun k => credits.contains (c.cm, k)
     | none => false) &&
    (c.job.started || s.mayStartColl c)

/-- The chunks that had landed for it are drained from their slots. -/
def State.drain (s : State) (c : Coll) : State × Coll :=
  let comm := s.comm c.cm
  let mine := comm.landed.filter fun k => decide (k.2.j = c.j)
  (s.putComm { comm with landed := comm.landed.filter fun k => decide (k.2.j ≠ c.j) },
    { c with got := c.got ++ mine.map Prod.snd })

/-- A chunk that has come for the collective carries another digest. -/
def Coll.digestDiffers (c : Coll) : Bool := c.got.any fun k => decide (k.dig ≠ c.dig)

/-- The settled fields of the digest. -/
def settledDigest (d : Digest) (e : BitVec 128) : Digest × Bool :=
  let rm := settleRm (entryField e 40 3)
  let a := settleScale (entryField e 96 32)
  let b := settleScale (entryField e 64 32)
  ({ d with anc := entryAnc e, rm := if rm.2 then 1 else entryField e 40 3, sca := BitVec.ofNat 32 a.1,
            scb := BitVec.ofNat 32 b.1, osx := entryOsx e }, rm.2 || a.2 || b.2)

/-- It starts: its signal, its format entry, and the digests of what has arrived. A collective that goes on has started. -/
def State.startColl (s : State) (c : Coll) : State × Option Coll :=
  let r := s.startJob c.job 4
  let c1 := { c with job := r.2 }
  let s1 := r.1.putColl c1
  if r.2.failed then (s1.failColl c1 0x20 0, none)
  else
    let loc := ringLoc c.job.sh c.entry 15
    let a := r.2.access false .plain
    if reduces c.fn && racesWith r.2.know a (tagOf s1.tags loc) then
      (s1.failColl c1 0x20 (entryEval c.entry 15), none)
    else
      let s2 : State := if reduces c.fn then s1.note a [loc] else s1
      let e := ((s2.shuttle c.job.sh).entry c.entry).bits
      let d := if reduces c.fn then settledDigest c.dig e else (c.dig, false)
      let c2 := { c1 with dig := d.1, job := { c1.job with flags := c1.job.flags ||| (if d.2 then warnBit else 0) } }
      let t := s2.drain c2
      if t.2.digestDiffers then (t.1.mismatchColl t.2, none) else (t.1.putColl t.2, some t.2)

/-- Its next chunk is read and sent. -/
def State.sendChunk (s : State) (c : Coll) (p : Piece) : State :=
  let m := c.asMove
  let lv := eaLevel c.send
  let o : Int := (eaLow c.send + p.at_ : Nat)
  match s.deadRank (p.ranks.map fun r => c.dig.ranks.getD r 0) with
  | some pk => s.failColl c 0x38 (BitVec.ofNat 64 (2 ^ 63 + pk.toNat))
  | none =>
    let go (s : State) (bs : List Byte) : State :=
      let s1 := s.putColl { c with pos := c.pos + 1, sent := c.sent ++ bs }
      let s2 : State := { s1 with stamp := s1.stamp + 1 }
      if c.switch then s2.sendSwitch c (p.at_, bs) else s2.sendColl c p.ranks (some (p.off, bs))
    if p.len = 0 then go s []
    else
      let span := if lv = 3 then [(o.toNat, p.len)] else []
      let halt (h : Halt) : State :=
        match h with
        | .fault cause v => s.failColl c cause v
        | .park s1 _ => s1
      match m.waitChunks s span with
      | some h => halt h
      | none =>
        match leastFault (m.deniedFault s span ++ m.readFaults s (extentAt c.send p.len) o p.len) with
        | some f => s.failColl c f.1 f.2
        | none =>
          match m.job.calls s (span.flatMap fun x => s.awayReads x.1 x.2) with
          | some h => halt h
          | none =>
            match m.readSpan s lv o p.len .read with
            | .error h => halt h
            | .ok (bs, s1) => go ((m.noteReads s1 lv false [(o, p.len)]).endRow c.job.id) bs

/-- Highest PRIO, then the earliest accepted. -/
def collBefore (a b : Coll) : Bool := decide (b.prio < a.prio) || (decide (a.prio = b.prio) && decide (a.job.id < b.job.id))

/-- At a chunk boundary the Heddle begins a ready chunk (R412, R413). -/
def execHeddleChunkBegin (turn : HeddleTurn) (s : State) : Result :=
  match firstBy collBefore (s.colls.filter fun c => decide (c.panel = turn.panel) && s.collReady turn.credits c) with
  | none => .next s
  | some c =>
    let fresh := !c.job.started
    match (if fresh then s.startColl c else (s, some c)) with
    | (s1, none) => .next s1
    | (s1, some c1) =>
      match (if fresh then s1.startRace c1.asMove else none), c1.schedule[c1.pos]? with
      | some v, _ => .next (s1.failColl c1 0x20 v)
      | none, some p => .next (s1.sendChunk c1 p)
      | none, none => .next s1

/-- The collective that a chunk is for, while it can still take it. -/
def State.collOf (s : State) (cm : BitVec 6) (j : Nat) : Option Coll :=
  s.colls.find? fun o => decide (o.cm = cm ∧ o.j = j) && !o.job.ran

/-- The first free landing slot of a communicator. -/
def Comm.freeSlot (m : Comm) : Option Nat := (List.range landingSlots).find? fun i => !m.landed.any fun k => k.1 = i

/-- Such a chunk has come before. -/
def Comm.has (m : Comm) (o : Option Coll) (c : Chunk) : Bool :=
  (m.landed.map Prod.snd ++ (o.map Coll.got).getD []).any fun k =>
    decide (k.j = c.j ∧ k.src = c.src ∧ k.off = c.off ∧ k.reduced.isSome = c.reduced.isSome)

/-- A chunk is drained: into its collective when that has started, else into a slot of the landing area. -/
def State.landChunk (s : State) (c : Chunk) : State :=
  let comm := s.comm c.cm
  let w := c.dig.ranks.getD c.src 0
  let edge := if c.rel && s.overWarp w then [(c.j, c.src, (s.channel (rankPkn w)).acts)] else []
  let s1 := { s with stamp := s.stamp + 1 }.putComm { comm with edges := comm.edges ++ edge }
  match (s.collOf c.cm c.j).filter (·.job.started), comm.freeSlot with
  | some o, _ =>
    let o1 := { o with got := o.got ++ [c] }
    if c.dig ≠ o.dig then s1.mismatchColl o1 else s1.putColl o1
  | none, some i =>
    (s1.putComm { s1.comm c.cm with landed := comm.landed ++ [(i, c)] }).putBytes
      (bitsOf (s.devReg (commReg c.cm 0x10)) 12 44 * 4096 + i * s.commChunk c.cm) c.data
  | none, none => s1

/-- A chunk arrives: dropped with a notice on a blocked communicator, dropped when its collective is over, else drained. A
receiver grants credits for free slots alone, so that none comes that has no place; one that did would not be taken
(R410, R413). -/
def execChunkArrival (c : Chunk) (s : State) : Result :=
  let comm := s.comm c.cm
  let live := s.collOf c.cm c.j
  let old := (decide (c.j ≤ comm.issued) && live.isNone) || comm.has live c ||
    (c.reduced.isSome && (live.map fun o => !o.switch).getD true)
  let act (s : State) : State :=
    if comm.blocked then
      s.sendToRank (c.dig.ranks.getD c.src 0)
        { cm := c.cm, j := c.j, rank := some c.src, dig := c.dig, chunk := none, rel := false }
    else if old then s
    else s.landChunk c
  if !(s.cmcfg c.cm).getLsbD 63 then .next s
  else if !(comm.blocked || old || (live.map fun o => o.job.started).getD false || comm.freeSlot.isSome) then .next s
  else
    match c.tag with
    | some t => .next (s.takeMail t act)
    | none => .next (act s)

/-- A fault notice ends the collective that it names, also one not yet issued. -/
def execFaultNoticeArrival (tag : Option Tag) (cm : BitVec 6) (j : Nat) (s : State) : Result :=
  let act (s : State) : State :=
    let comm := s.comm cm
    match s.collOf cm j with
    | some c => (s.endColl c 0x3B (collEval cm j true)).blockComm cm
    | none => if comm.issued < j then s.putComm { comm with noticed := comm.noticed ++ [j] } else s
  if !(s.cmcfg cm).getLsbD 63 then .next s
  else
    match tag with
    | some t => .next (s.takeMail t act)
    | none => .next (act s)

/-! ## Results (R409) -/

/-- Bytes put at an offset. -/
def overlay (old : List Byte) (off : Nat) (bs : List Byte) : List Byte :=
  (old.take off ++ bs ++ old.drop (off + bs.length)).take old.length

/-- The block that rank `r` sent here. -/
def Coll.blockOf (c : Coll) (r n : Nat) : List Byte :=
  (c.got.filter fun k => decide (k.src = r) && k.reduced.isNone).foldl (fun acc k => overlay acc k.off k.data) (List.replicate n 0)

/-- Bytes of a partial result: a residue of 136 bits with its tags, or of MIN and MAX a value (R409, R415). -/
def Coll.partBytes (c : Coll) : Nat := if c.dig.op = 0 then 18 else (fmtOfCode c.dig.fa).width

/-- Bytes of partial results that a warp switch sends this rank. -/
def Coll.expectsParts (c : Coll) : Nat := if c.fn = 5 ∧ c.rank ≠ c.rt then 0 else c.k * c.partBytes

/-- Bytes that rank `r` sends to this rank. -/
def Coll.expects (c : Coll) (r : Nat) : Nat :=
  let w := (fmtOfCode c.dig.fa).width
  if c.fn = 5 ∧ c.rank ≠ c.rt then 0 else blockBytes c.fn r c.rt c.k w

/-- Every rank's chunks have arrived, and with them its release; of a switch, its partial results. -/
def Coll.allArrived (c : Coll) : Bool :=
  let whole (ks : List Chunk) (n : Nat) : Bool := !ks.isEmpty && decide (n ≤ (ks.map fun k => k.data.length).sum)
  if c.switch then whole (c.got.filter fun k => k.reduced.isSome) c.expectsParts
  else c.others.all fun r => whole (c.got.filter fun k => decide (k.src = r) && k.reduced.isNone) (c.expects r)

/-- The bytes that rank `r` gives this rank; its own come from its send extent. -/
def Coll.blockFrom (c : Coll) (r : Nat) : List Byte :=
  let n := c.expects r
  if r = c.rank then (c.sent.drop (if c.fn = 2 ∨ c.fn = 6 then r * n else 0)).take n else c.blockOf r n

/-- Output conversion of a collective. -/
def digestOut (d : Digest) : OutConv :=
  { fo := fmtOfCode d.fo, rm := rmOfCode d.rm, sca := d.sca.toNat, scb := d.scb.toNat, osx := d.osx }

/-- One element of a reduction, from the values of the ranks. -/
def reduceElem (d : Digest) (vals : List FVal) : Nat × W64 :=
  let o := digestOut d
  if d.op = 0 then
    let c := sumCell d.anc (Acc.empty, 0) (vals.map fun v => (v, 0))
    let r := outputCell o 128 (d.anc - 96) c.1
    (r.1, r.2 ||| c.2)
  else if vals.any FVal.isNan then roundFmt o.fo o.rm (.nan (vals.any FVal.isSnan))
  else
    match vals with
    | [] => (0, 0)
    | v :: vs =>
      roundFmt o.fo o.rm (vs.foldl (fun b x => if (if d.op = 1 then totalLt x b else totalLt b x) then x else b) v)

/-- The receive extent's bytes of a reduction by a switch, from its partial results, with flags (R415). -/
def Coll.switchResult (c : Coll) : List Byte × W64 :=
  let ks := c.got.filter fun k => k.reduced.isSome
  let n := c.partBytes
  let bs := ks.foldl (fun acc k => overlay acc k.off k.data) (List.replicate c.expectsParts 0)
  let fl := ks.foldl (fun z k => z ||| k.reduced.getD 0) 0
  let es := (List.range (c.expectsParts / n)).map fun e =>
    if c.dig.op = 0 then outputCell (digestOut c.dig) 128 (c.dig.anc - 96) (cellOfCode (numAt bs (e * n) n)).acc
    else reduceElem c.dig [fmtValue (fmtOfCode c.dig.fa) (numAt bs (e * n) n)]
  (es.flatMap fun e => leBytes (fmtOfCode c.dig.fo).width e.1, es.foldl (fun z e => z ||| e.2) fl)

/-- The receive extent's bytes, with flags. -/
def Coll.resultBytes (c : Coll) : List Byte × W64 :=
  let ranks := List.range c.size
  if c.switch then c.switchResult
  else if reduces c.fn then
    if c.fn = 5 ∧ c.rank ≠ c.rt then ([], 0)
    else
      let f := fmtOfCode c.dig.fa
      let wo := (fmtOfCode c.dig.fo).width
      let blocks := ranks.map c.blockFrom
      let es := (List.range c.k).map fun e =>
        reduceElem c.dig (blocks.map fun b => fmtValue f (numAt b (e * f.width) f.width))
      (es.flatMap fun e => leBytes wo e.1, es.foldl (fun z e => z ||| e.2) 0)
  else
    match c.fn with
    | 4 => (c.blockFrom c.rt, 0)
    | 7 => ([], 0)
    | _ => (ranks.flatMap c.blockFrom, 0)

/-- The receive extent written piece by piece from the next one. -/
def State.writeResult : Nat → State → Coll → List Byte → State
  | 0, s, c, _ => s.putColl { c with job := { c.job with ran := true } }
  | fuel + 1, s, c, bs =>
    let m := c.asMove
    let lv := eaLevel c.recv
    let piece := (bs.drop (c.pos * c.chunk)).take c.chunk
    let o : Int := (eaLow c.recv + c.pos * c.chunk : Nat)
    if piece.isEmpty then s.putColl { c with job := { c.job with ran := true } }
    else
      let span := if lv = 3 then [(o.toNat, piece.length)] else []
      let halt (h : Halt) : State :=
        match h with
        | .fault cause v => s.failColl c cause v
        | .park s1 _ => s1.putColl c
      match m.waitChunks s span with
      | some h => halt h
      | none =>
        match leastFault (m.deniedFault s span ++ m.writeFaults s (extentAt c.recv piece.length) o piece.length .plain) with
        | some f => s.failColl c f.1 f.2
        | none =>
          match m.job.calls s (span.flatMap fun x => s.awayWrites x.1 piece) with
          | some h => halt h
          | none =>
            State.writeResult fuel ((m.writeSpan s lv o piece false true).1.endRow c.job.id) { c with pos := c.pos + 1 } bs

/-- The releases of the other ranks, which its completion comes after (R411). -/
def Coll.edges (c : Coll) (m : Comm) : List Carry :=
  (m.edges.filter fun e => decide (e.1 = c.j)).map fun e =>
    { agent := remoteAgent (rankPkn (c.dig.ranks.getD e.2.1 0)) 0, home := 0, ext := .dm, clk := e.2.2 }

/-- A collective leaves the Heddle: CMSEQ counts it, and what had landed for it is used up. Its completion comes after the
releases of every rank. -/
def State.leaveColl (s : State) (c : Coll) : State :=
  let comm := s.comm c.cm
  let job := { c.job with know := (c.edges comm).foldl (fun k r => acquireInto c.job.id c.job.sh c.job.ext r k) c.job.know }
  let s1 := { s with colls := s.colls.filter fun o => decide (o.job.id ≠ c.job.id),
                     sent := s.sent.filter fun o => decide (o.owner ≠ c.job.id) }.putComm
    { comm with landed := comm.landed.filter (fun k => decide (k.2.j ≠ c.j)), edges := comm.edges.filter fun e => decide (e.1 ≠ c.j) }
  (s1.setDevReg (commReg c.cm 0x18) (s1.devReg (commReg c.cm 0x18) + 1)).completeJob job 2

/-- Everything has arrived: the receive bytes are written. Then the collective completes, once its signal can be made. -/
def execCollectiveComplete (sh : ShNo) (id : Nat) (s : State) : Result :=
  match s.colls.find? fun c => decide (c.job.id = id ∧ c.job.sh = sh) with
  | none => .next s
  | some c =>
    if s.isSaved c.job.task then .next s
    else if c.job.ran then
      if s.mayComplete c.job then .next (s.leaveColl c) else .next s
    else if !c.job.started || s.collHeld c then .next s
    else
      match c.result with
      | some bs => .next (State.writeResult (bs.length / c.chunk + 2) s c bs)
      | none =>
        if c.pos < c.schedule.length ∨ !c.allArrived then .next s
        else
          let r := c.resultBytes
          let c1 := { c with result := some r.1, pos := 0, job := { c.job with flags := c.job.flags ||| r.2 } }
          .next (State.writeResult (r.1.length / c.chunk + 2) s c1 r.1)

/-- A rank is late: the warp switch abandons the reduction, and the Heddle runs it again by ring (R415). -/
def execSwitchLimitExpiry (sh : ShNo) (id : Nat) (s : State) : Result :=
  match s.colls.find? fun c => decide (c.job.id = id ∧ c.job.sh = sh) with
  | none => .next s
  | some c =>
    if c.switch && c.job.started && !c.job.ran && decide (c.result = none) then
      let s1 := s.putColl { c with pos := 0, sent := [], got := c.got.filter fun k => k.reduced.isNone, switch := false }
      .next (({ s1 with stamp := s1.stamp + 1 }).healthRecord 8 ((s.switchLink c.dig.ranks).getD 0) 2 1 0)
    else .next s

/-- A write of CMCFG: ignored while a collective of the communicator is in progress; else it unblocks the communicator and
restarts its count (R397, R405, R410). -/
def execCmcfgWrite (cm : BitVec 6) (v : W64) (s : State) : Result :=
  if s.colls.any fun c => decide (c.cm = cm) then .next s
  else
    .next (({ s with stamp := s.stamp + 1 }.setDevReg (commReg cm 0) (v &&& 0x80FFFF00FFFFFF80)).putComm
      { cm := cm, issued := 0, blocked := false, landed := [], noticed := [], edges := [] })

end Sys2Proof.Machine
end

