-- ==== Sys2Proof/Machine/Replay.lean ====
section
/-! DEFINITION. Replay by the Dobby, refinement by the Punch, and cards in a gang (R341 to R348, R350, R416, R424). -/

namespace Sys2Proof.Machine
open Sys2Proof

/-- The back plane of each shuttle of a replayed start: the face with the recorded delta. Where it is broken, or its CRC-32 is not
the recorded one, it is discarded and the configuration written whole (R347). -/
def State.rollBack (s : State) (k : CardTask) : State :=
  ((List.range k.shuttles.length).zip k.shuttles).foldl (fun s p =>
    let x := s.shuttle p.2
    let good := !x.backBad && match k.deltas[p.1]? with
      | some d => decide (planeCrc (applyDelta x.face d.1) = d.2)
      | none => false
    if good then s
    else
      ((s.modShuttle p.2 fun x => { x with backBad := false }).countReg (replayUnit + 0x38)).healthRecord 1 p.2.toNat 6 1 0) s

/-- The card's tasks that a lane of one of this task's panels starts before it and that have not started (R341). -/
def State.laneBefore (s : State) (l : Launch) (c : Card) (k : CardTask) : List Task :=
  let panels := unitsOf 64 k.shuttles
  s.tasks.filter fun u => decide (u.lid = l.lid ∧ u.stat = .pending) &&
    c.tasks.any fun o => decide (o.index = u.index ∧ o.order < k.order) && (unitsOf 64 o.shuttles).any panels.contains

/-- Shuttles, grants and staging that the card names for the task are free (assumption log 105). -/
def State.cardFree (s : State) (t : Task) (k : CardTask) : Bool :=
  (k.shuttles.all fun n => s.shuttleFree n t.tid) && s.grantsOk t k.shuttles k.sbase k.bbase &&
  (s.isOldest t.tid || (unitsOf 64 k.shuttles).all fun p => decide (s.reservedShare p t.tid + t.share ≤ 256))

/-- Another task that has started holds a shuttle or a unit of the card's for this task. -/
def State.cardHeld (s : State) (t : Task) (k : CardTask) : Bool :=
  !s.cardFree t k && s.tasks.any fun u => decide (u.tid ≠ t.tid ∧ u.stat ≠ .pending) && !u.settled &&
    (unitsOf 64 u.shuttles).any (unitsOf 64 k.shuttles).contains

/-- A task cannot start now from the card. -/
def State.laneStuck (s : State) (l : Launch) (c : Card) (u : Task) : Bool :=
  !s.mayStart l u || c.tasks.any fun o => decide (o.index = u.index) && s.cardHeld u o

/-- The health guard (R343). A shuttle of the card that is not in service here fails it too (assumption log 106). -/
def State.healthGuard (s : State) (l : Launch) (c : Card) (k : CardTask) : Bool :=
  let en := (s.enabledWithout l.out).filter fun n => !s.outShuttles.contains n
  decide (s.hepoch = c.hep) && k.shuttles.all en.contains

/-- The Dobby starts the next task of a lane, once it is ready, its guards pass, and what the card names for it is free; a
guard that fails ends the replay. Where the oldest task waits for what a task of higher key holds or starts first, or the card
cannot serve the task, the Drafter takes over with no guard failure (R346; assumption logs 80 and 105). -/
def execDobbyStep (lid tid : Nat) (s : State) : Result :=
  match s.launchOf lid, s.taskOf tid with
  | some l, some t =>
    match l.card with
    | none => .next s
    | some c =>
      if t.lid ≠ lid || !s.mayStart l t then .next s
      else
        match c.tasks.find? fun k => k.index = t.index with
        | none => .next (s.handOver lid).tryFlush
        | some k =>
          if t.mismatches ≠ 0 then .next (s.handOver lid).tryFlush
          else if !(s.laneBefore l c k).isEmpty then
            .next (if s.isOldest tid && (s.laneBefore l c k).any (s.laneStuck l c) then (s.handOver lid).tryFlush else s)
          else if !s.healthGuard l c k then .next (s.guardFail lid true)
          else
            match s.testShape tid with
            | .waits s1 => .next s1
            | .fail s1 => .next s1
            | .pass s1 =>
              if s1.cardFree t k then
                match s1.loadTask l t with
                | .fault => .next (s1.endUnread l t)
                | .waits s2 => .next s2
                | .ok s2 im args => .next ((s2.rollBack k).startTask l t im args (k.places.zip k.shuttles) k.sbase k.bbase)
              else .next (if s1.isOldest tid && s1.cardHeld t k then (s1.handOver lid).tryFlush else s1)
  | _, _ => .next s

/-! ## Refinement (R348) -/

/-- The card keeps what R336, R337 and R332 require of a placement and an order. -/
def Card.placed (c : Card) : Bool :=
  let at_ (p : Nat) : Option ShNo := (c.placeMap.find? fun q => q.1 = p).map Prod.snd
  let units (unit : Nat) (l : List Nat) : List Nat := ((l.filterMap at_).map fun n => n.toNat / unit).dedup
  let grant (unit base n size : Nat) (k o : CardTask) (carried : Bool) : Bool :=
    decide (base % 65536 = 0 ∧ base + 65536 * n ≤ size) &&
    (!carried || (unitsOf unit k.shuttles).all (unitsOf unit o.shuttles).contains)
  decide ((c.placeMap.map Prod.fst).Nodup ∧ (c.placeMap.map Prod.snd).Nodup) &&
  (c.groups.all fun g => (!g.2.1 || decide ((units 8 g.1).length ≤ 1)) && (!g.2.2 || decide ((units 64 g.1).length ≤ 1))) &&
  c.tasks.all fun k =>
    let o := (k.carry.bind fun p => c.tasks.find? fun o => o.index = p.1).getD k
    let cs := (k.carry.map fun p => p.2.1).getD false
    let cb := (k.carry.map fun p => p.2.2).getD false
    (if k.dual then decide (k.shuttles.length = 2 ∧ (unitsOf 8 k.shuttles).length = 2)
     else decide (k.places.map at_ = k.shuttles.map some)) &&
    grant 8 k.sbase k.slv Config.sleeveBytes k o cs && (!cs || decide (k.sbase = o.sbase)) &&
    grant 64 k.bbase k.blt Config.boltBytes k o cb && (!cb || decide (k.bbase = o.bbase)) &&
    c.tasks.all fun u => !k.succs.contains u.index || decide (k.order < u.order)

/-- The Punch rewrites a card under a new version: start order, place map, copy orders and grant bases, and the deltas that follow
from them; its guards and whatever else it holds stay. In a gang the rewritten card is copied to every member before any
uses it. -/
def execPunchRefine (c : Card) (s : State) : Result :=
  match s.cardOf c.hash with
  | none => .next s
  | some o =>
    let kept (k : CardTask) : CardTask := { k with order := 0, shuttles := [], sbase := 0, bbase := 0, copies := [], deltas := [] }
    let orders (c : Card) : List (List Nat) := c.tasks.map fun k => k.copies.mergeSort
    if o.usable && (o.own || s.recordsCards) && decide (o.ver.toNat < c.ver.toNat ∧ c.hep = o.hep ∧ c.gang = o.gang ∧ c.groups = o.groups) &&
        decide (c.tasks.map kept = o.tasks.map kept ∧ orders c = orders o) && Card.placed c then
      let n : Card := { c with nfail := o.nfail, since := o.since, base := o.base, prior := o.prior, own := o.own,
                               usable := o.own || decide (s.gangSize = 1) }
      let s1 := ({ s with stamp := s.stamp + 1 } : State).modCard c.hash fun _ => n
      .next (if o.own then s1 else s1.tellGang (.card n))
    else .next s

/-! ## Cards in a gang (R416) -/

/-- A card or refinement arrives from the member that records, and waits. With this package's own number as the peer, at that
member: every member has the copy, and has begun fewer launches of its hash than `c.since`; it may be used here, and the
members are told so. At another member: the launch of its own card is not ganged, and that card may be used. A usable card that
arrives is the first member's word (assumption log 107). -/
def execCardCopy (tag : Tag) (c : Card) (s : State) : Result :=
  if tag.peer = s.pkn then
    match s.cards.find? fun k => decide (k.hash = c.hash ∧ k.ver = c.ver) with
    | none => .next s
    | some k =>
      let since := max c.since (s.begun c.hash)
      if k.own then .next (if k.usable then s else (s.allowCard c since).countReg (replayUnit + 0x30))
      else if s.recordsCards then .next ((s.allowCard c since).tellGang (.card { k with usable := true, since := since }))
      else .next s
  else .next (s.takeMail tag fun s =>
    if s.gangMembers.contains tag.peer && decide (0 < s.csLen) then
      if c.usable then s.allowCard c c.since else { s.receiveCard c with stamp := s.stamp + 1 }
    else s)

/-- A stop for a launch that has ended here without a failure: NFAIL is what it would be had the launch failed (R424). -/
def lateStop (ordinal : Nat) (c : Card) : Card :=
  match c.prior with
  | some p => if p.1 = c.base + ordinal then { c with nfail := p.2 + 1 + c.nfail, prior := none } else c
  | none => c

/-- A stop from another member: the launch it names starts no further task from the card, and counts as a guard failure also where
it is over; one that has not begun here is kept for it. -/
def execStopMessage (tag : Tag) (hash : BitVec 128) (ordinal : Nat) (s : State) : Result :=
  .next (s.takeMail tag fun s =>
    match (s.cardOf hash).filter fun c => !c.own && s.gangMembers.contains tag.peer with
    | none => s
    | some c =>
      match s.launches.find? fun l => decide (l.hash = hash ∧ l.ordinal = some (c.base + ordinal)) with
      | some l => s.guardFail l.lid false
      | none =>
        if c.base + ordinal < s.begun hash then (s.modCard hash (lateStop ordinal)).dropFailed
        else if s.stops.any fun p => decide (p.hash = hash ∧ p.ordinal = ordinal) then s
        else { s with stops := s.stops ++ [{ hash := hash, ordinal := ordinal }], stamp := s.stamp + 1 })

/-- Every card is to be dropped once the running replays end. -/
def execCflush (s : State) : Result := .next ({ s with cflush := true, stamp := s.stamp + 1 } : State).tryFlush

end Sys2Proof.Machine
end

