-- ==== Sys2Proof/Machine/System.lean ====
section
/-! DEFINITION. System instructions, traps beyond the monitor, asynchronous faults, faults of the part and abort tokens (R25,
R96, R182, R260, R351 to R361, R370 to R378, R427). -/

namespace Sys2Proof.Machine
open Sys2Proof

/-! ## Instructions of major 0x3E -/

def execBrk (k : BitVec 4) (s : State) : Result := runT s k fun _ => .trap 0x0C 0

def execMcall (d a : RegNo) (s : State) : Result := runC s (.trap 0x0D (BitVec.ofNat 64 (32 * d.toNat + a.toNat)))

/-- A FENCE of task mode that waits goes on only when C returns to it: its markers stay pushed for that (R243). -/
def keptFences (pc : W32) (l : List Nat) : List Nat := l.filter fun k => decide (2 ^ 32 ≤ k ∨ k = pc.toNat)

/-- Trap return (R25): the mode of esst, at epc. A C whose TEND has completed issues nothing more in task mode (R185). -/
def execTret (s : State) : Result :=
  runC s (
    if s.taskMode then .trapWord 0x03
    else
      let x := s.me
      let ended := !x.esst.getLsbD 0 && (match s.taskAt s.here, x.task with
        | some t, some p => t.ended.contains p.2
        | _, _ => false)
      let s1 := s.modMySeq fun q =>
        { q with status := setMon (x.esst.getLsbD 0) q.status, run := if ended then .ended else q.run }
      let pc := x.epc &&& ~~~3#32
      .doneTo ((s1.warnIf (decide (x.esst.toNat / 2 ≠ 0))).modMe fun y =>
        { y with fences := if x.esst.getLsbD 0 then y.fences else keptFences pc y.fences }) pc)

def execCkmark (a : RegNo) (s : State) : Result :=
  let v := s.sreg a
  runC s (.done (match s.me.task with
    | some p => s.modTask p.1 fun t => { t with ckmark := some v }
    | none => s))

/-- REV := b; WARN when the mode is held already (R261). -/
def switchMode (b : Bool) (k : BitVec 4) (s : State) : Result :=
  runT s k fun s =>
    let same := decide (s.mySeq.status.getLsbD 16 = b)
    .done ((s.modMySeq fun q =>
      { q with status := if b then q.status ||| 0x10000#64 else q.status &&& ~~~0x10000#64 }).warnIf same)

def execDfwd (k : BitVec 4) (s : State) : Result := switchMode false k s
def execDrev (k : BitVec 4) (s : State) : Result := switchMode true k s

/-! ## Abort tokens (R375, R376, R416) -/

def execAbtok (a : RegNo) (s : State) : Result :=
  let v := s.sreg a
  runC s (whenOldest s fun s => .done (s.raiseToken (v.setWidth 16) true))

def execAbtokRegister (v : W64) (s : State) : Result := .next (s.raiseToken (v.setWidth 16) true)

/-- A token of another member of the gang. -/
def execAbortTokenMessage (tag : Tag) (reason : BitVec 16) (_pkid : BitVec 8) (s : State) : Result :=
  .next (s.takeMail tag fun s => if s.gangMembers.contains tag.peer then s.raiseToken reason false else s)

/-- A member's frozen LSTEP arrives. -/
def execLstepMessage (tag : Tag) (step : W64) (s : State) : Result :=
  .next (s.takeMail tag fun s =>
    if s.gangMembers.contains tag.peer then
      ({ s with lsteps := (tag.peer, step) :: s.lsteps.filter (fun m => m.1 ≠ tag.peer), stamp := s.stamp + 1 } : State).tryAgree
    else s)

/-- Uncommitted tasks of a launch have nothing left at work: every engine has acknowledged (R364, R365). -/
def State.quiet (s : State) (lid : Nat) : Bool :=
  s.tasks.all fun t => decide (t.lid ≠ lid) || t.settled || decide (t.stat = .pending) ||
    (decide (t.stat = .stopping) && !s.busyTask t.tid)

/-- Collectives of a launch's uncommitted tasks, which a token ends at their chunk boundary (R364, R413). -/
def State.dropColls (s : State) (lid : Nat) : State :=
  let tids := (s.tasks.filter fun t => decide (t.lid = lid) && !t.settled).map Task.tid
  { s with colls := s.colls.filter fun c => match c.job.task with
      | some p => !tids.contains p.1
      | none => true }

/-- Uncommitted tasks of a launch are discarded, and it ends. -/
def State.discardLaunch (s : State) (lid status : Nat) : State :=
  ((s.tasks.filter fun t => decide (t.lid = lid) && !t.settled).foldl (fun s t =>
    { s.releaseShuttles t.tid t.shuttles with lines := s.lines.filter fun l => decide (l.task ≠ some t.tid) }.modTask t.tid
      fun t => { t with stat := .discarded }) s).finishLaunch lid status

/-- Every acknowledgement for a token is held: uncommitted tasks are discarded, packets in dispatch get status 5. -/
def execAbortTokenComplete (s : State) : Result :=
  if (s.requests.any fun r => decide (r.kind = .token)) &&
      s.launches.all fun l => !l.stopped || (s.dropColls l.lid).quiet l.lid then
    let s1 := (s.launches.filter fun l => l.stopped).foldl (fun s l => (s.dropColls l.lid).discardLaunch l.lid 5) s
    let s2 : State := { s1 with
      requests := s1.requests.filter fun r => decide (r.kind ≠ .token), runs := [],
      handles := (s1.handles.map fun h => { h with users := 0 }).filter fun h => !h.freed,
      queues := s1.queues.map fun x =>
        if x.pkts.any fun p => p.status.isNone then
          { x with pkts := x.pkts.map fun p => if p.status.isNone then { p with status := some 5, isOpen := false } else p }
        else x,
      stamp := s1.stamp + 1 }
    .next s2.decidePoint
  else .next s

/-! ## Traps beyond the monitor (R351, R356, R357, R427) -/

/-- The trap that a shuttle holds, as a record's words. -/
def State.heldWords (s : State) (n : ShNo) (h : HeldTrap) : List W64 :=
  recordWords h.cause h.eval { halt := h.halt, fw := h.fw, cmt := false, eaux := h.eaux, epc := h.epc, shuttle := some n,
                               task := s.taskAt n }

/-- The copies of a DUAL task: whether the other copy has taken the same trap, with equal cause, eval and pc of the trapping
instruction, has not ended its part yet, or differs (R351). -/
inductive Twin where
  | same | runs | differs

def State.twinOf (s : State) (t : Task) (n : ShNo) (h : HeldTrap) : Twin :=
  match t.shuttles.find? fun m => m ≠ n with
  | none => .differs
  | some m =>
    match (s.shuttle m).trap with
    | some k => if k.cause = h.cause ∧ k.eval = h.eval ∧ k.eaux.setWidth 32 = h.eaux.setWidth 32 then .same else .differs
    | none => if (s.shuttle m).c.run = .ended ∨ (s.shuttle m).task.isNone then .differs else .runs

/-- The record of a frozen shuttle's trap is written, once its task is the oldest and the ring has room. -/
def State.routeShuttle (s : State) (n : ShNo) : State :=
  match (s.shuttle n).trap with
  | none => s
  | some h =>
    if h.record.isSome then s
    else
      let write (s : State) : State :=
        if !s.ringRoom then s
        else
          let num := (s.devReg (trapUnit + 0x30)).toNat
          let s1 := (s.bind (s.shuttle n).task).modShuttle n fun x => { x with trap := some { h with record := some num } }
          { s1.writeRecord (s.heldWords n h) with
            trapRecs := s1.trapRecs ++ [{ num := num, shuttle := some n, commit := none,
                                          task := (s.shuttle n).task.map Prod.fst, acted := false }] }
      match s.taskAt n with
      | none => write s
      | some t =>
        if !s.isOldest t.tid then s
        else if t.dual then
          match s.twinOf t n h with
          | .same => write s
          | .runs => s
          | .differs => s.mismatch t
        else write s

/-- A held commit fault's record is written. -/
def State.routeCommit (s : State) (tid : Nat) : State :=
  match s.taskOf tid with
  | none => s
  | some t =>
    match t.held with
    | some (cause, eval, none) =>
      if s.ringRoom then
        let num := (s.devReg (trapUnit + 0x30)).toNat
        let s1 := s.modTask tid fun t => { t with held := some (cause, eval, some num) }
        { s1.writeRecord (recordWords cause eval { RecFlags.none with cmt := true, eaux := 1 <<< 63, task := some t }) with
          trapRecs := s1.trapRecs ++ [{ num := num, shuttle := none, commit := some tid, task := some tid, acted := false }] }
      else s
    | _ => s

/-- A trap record is written: of a shuttle, of a task's held commit, or the oldest that waits with neither. -/
def execTrapRoute (sh : Option ShNo) (tid : Nat) (s : State) : Result :=
  match sh with
  | some n => .next (s.routeShuttle n)
  | none =>
    if tid ≠ 0 then .next (s.routeCommit tid)
    else
      match s.heldRecs with
      | [] => .next s
      | w :: r => if s.ringRoom then .next ({ s with heldRecs := r, stamp := s.stamp + 1 }.writeRecord w) else .next s

/-- What a record that may still be acted on names. -/
inductive TrapTarget where
  | shuttle (n : ShNo) (h : HeldTrap)
  | commit (t : Task)
  deriving DecidableEq, Repr

def State.trapTarget (s : State) (num : Nat) : Option TrapTarget :=
  match s.trapRecs.find? fun r => decide (r.num = num) && !r.acted with
  | none => none
  | some r =>
    match r.shuttle, r.commit with
    | some n, _ =>
      (match (s.shuttle n).trap with
       | some h => if h.record = some num then some (.shuttle n h) else none
       | none => none)
    | none, some tid =>
      (match s.taskOf tid with
       | some t => if t.held.isSome ∧ !t.settled then some (.commit t) else none
       | none => none)
    | none, none => none

def State.actOn (s : State) (num : Nat) : State :=
  { s with trapRecs := s.trapRecs.map fun r => if r.num = num then { r with acted := true } else r, stamp := s.stamp + 1 }

/-- KILL: the launch of the task ends; without a task the shuttle is left idle. -/
def State.killTarget (s : State) (k : TrapTarget) : State :=
  match k with
  | .commit t => s.killLaunch t.lid
  | .shuttle n _ =>
    match s.taskAt n with
    | some t => s.killLaunch t.lid
    | none =>
      s.modShuttle n fun x =>
        let y := x.stopAll
        { y with c := { y.c with run := .halted } }

/-- The trap is over, and with it the freeze. -/
def Shuttle.unfreeze (x : Shuttle) : Shuttle := { x with frozen := false, trap := none, progress := x.progress + 1 }

/-- A pre-emption is pending for the shuttle's task: the shuttle stays frozen for it, whatever becomes of its trap (R363). -/
def State.preempting (s : State) (n : ShNo) : Bool :=
  match s.taskAt n with
  | some t => s.requests.any fun r => decide (r.kind = .preempt ∧ r.lid = some t.lid)
  | none => false

/-- DELIVER (action 0): trap entry in the shuttle's monitor. -/
def execTrcmdDeliver (n : Nat) (s : State) : Result :=
  match s.trapTarget n with
  | none => .next s
  | some (.commit t) => .next ((s.actOn n).killTarget (.commit t))
  | some (.shuttle m h) =>
    if h.halt then .next ((s.actOn n).killTarget (.shuttle m h))
    else .next ((s.actOn n).modShuttle m fun x =>
      { x.unfreeze.enterTrap h.cause h.eval h.eaux h.epc with frozen := s.preempting m })

/-- RETRY (action 1): the frozen sequencers resume; a halted C resumes in monitor mode, after its MCALL. -/
def execTrcmdRetry (n : Nat) (s : State) : Result :=
  match s.trapTarget n with
  | none => .next s
  | some (.commit t) => .next ((s.actOn n).modTask t.tid fun t => { t with held := none })
  | some (.shuttle m h) =>
    .next ((s.actOn n).modShuttle m fun x =>
      let y := { x.unfreeze with frozen := s.preempting m }
      if h.halt then { y with c := { y.c with run := .running, pc := if h.cause = 0x0D then h.epc + 4 else h.epc } }
      else if y.mon || y.frozen then y else y.resumeStreams)

/-- KILL (action 2). -/
def execTrcmdKill (n : Nat) (s : State) : Result :=
  match s.trapTarget n with
  | none => .next s
  | some k => .next ((s.actOn n).killTarget k)

/-- Every acknowledgement for a KILL is held: the launch's uncommitted tasks are discarded, its packet gets status 5. -/
def execKillComplete (q : Nat) (s : State) : Result :=
  match s.requests.find? fun r => decide (r.kind = .kill ∧ r.queue = q) && (match r.lid with
      | some lid => s.quiet lid
      | none => false) with
  | none => .next s
  | some r =>
    let s1 : State := { s with requests := s.requests.filter fun o => o ≠ r, stamp := s.stamp + 1 }
    match r.lid with
    | some lid => .next (s1.discardLaunch lid 5)
    | none => .next s1

/-! ## Faults that a sequencer takes at its boundary (R96, R182, R358) -/

/-- C takes the oldest pending fault in task mode, in place of a step trap that waits for its command (R358, R361). -/
def execAsyncFaultTake (sh : ShNo) (s : State) : Result :=
  let x := s.shuttle sh
  if x.frozen || x.mon || decide (x.c.run ≠ .running) then .next s
  else
    match x.pending with
    | [] => .next s
    | f :: r =>
      .next ((s.modShuttle sh fun x =>
          { x with pending := r, stepWaits := x.stepWaits.filter fun w => decide (w.cmd ≠ f.cmd) }).deliverTrap sh f.cause f.eval
        (eauxOf true f.str f.eng.toNat f.ipc) x.c.pc)

/-- An engine command or tile move of the shuttle is pending. -/
def State.shuttleBusy (s : State) (n : ShNo) : Bool :=
  s.moves.any (fun m => m.job.sh = n) || s.mats.any (fun m => m.job.sh = n) || s.rangeJobs.any (fun m => m.job.sh = n) ||
  s.colls.any (fun m => m.job.sh = n)

def execStreamDeadlock (sh : ShNo) (s : State) : Result :=
  let x := s.shuttle sh
  let all := [x.c, x.l, x.x, x.s]
  if !x.frozen && x.task.isSome && all.all x.stuck && (all.any fun q => decide (q.run = .running) && q.stall.isSome) &&
      !s.shuttleBusy sh then
    .next (s.takeTrap sh .c 0x0E 0)
  else .next s

/-- The word at a sequencer's pc. -/
def State.wordAt (s : State) (n : ShNo) (st : Stream) : W32 :=
  let x := s.shuttle n
  let sec := if st = .c then x.cSection x.ownMonitor else (x.seq st).code
  sec.words.getD ((x.seq st).pc.toNat / 4) 0

/-- A limited wait whose count has reached its limit, with its condition tried since anything changed, and false. -/
def execWaitLimitExpiry (sh : ShNo) (st : Stream) (s : State) : Result :=
  let x := s.shuttle sh
  match (x.seq st).stall with
  | none => .next s
  | some w =>
    if !x.frozen && !x.stopped st && decide ((x.seq st).run = .running ∧ w.limit ≠ 0 ∧ w.since + limitCycles w.limit ≤ s.cycle ∧
        w.stamp = s.stamp) then
      .next (s.takeTrap sh st 0x14 ((s.wordAt sh st).setWidth 64))
    else .next s

/-! ## Faults of the part (R370 to R374) -/

def State.raiseHepoch (s : State) : State := s.countReg (replayUnit + 0x18)

/-- PCFG: 32 bits of shuttle counts and eight bits of stacks in service. -/
def pcfg : Nat := 0x40008

/-- PCFG's counts follow the shuttles in service: at most 60 of a panel are enabled. -/
def State.refreshPcfg (s : State) : State :=
  let count (p : Nat) : Nat :=
    min 60 (((List.range 64).filter fun i => !s.outShuttles.contains (BitVec.ofNat 8 (64 * p + i))).length)
  s.setDevReg pcfg (BitVec.ofNat 64 (bitsOf (s.devReg pcfg) 32 8 * 2 ^ 32 +
    ((List.range 4).map fun p => count p * 2 ^ (8 * p)).sum))

/-- The task is bound (R363). -/
def State.isBound (s : State) (t : Task) : Bool :=
  t.bound || t.committing || s.lines.any fun l => decide (l.task = some t.tid) && !l.filled

/-- A shuttle leaves service: its task is aborted, or the fault is fatal when it is bound (R372). -/
def State.loseShuttle (s : State) (n : ShNo) (unit : BitVec 24) : State :=
  let s1 : State := if s.outShuttles.contains n then s
    else ({ s with outShuttles := s.outShuttles ++ [n] } : State).raiseHepoch.refreshPcfg
  match s.taskAt n with
  | none => s1
  | some t => if s.isBound t then s1.fatalFault 1 unit 1 else s1.abortTask t.tid

/-- A register of link `l`. -/
def linkReg (l : Nat) : Nat := warpBlock + 0x100 + 8 * l

/-- UP of LNKST and the link's bit of DMUP. -/
def State.setLink (s : State) (l : Nat) (up : Bool) : State :=
  let b : Nat := if up then 1 else 0
  (s.setDevReg (linkReg l) (setBits (s.devReg (linkReg l)) 0 1 b)).setDevReg (warpBlock + 0x8)
    (setBits (s.devReg (warpBlock + 0x8)) l 1 b)

/-- A message of a collective that no link can carry any more: the collective that it serves takes cause 0x38 (R402). -/
def State.loseMail (s : State) (m : Posted) : State :=
  match m.mail with
  | .gang _ => s
  | .coll c =>
    match s.colls.find? fun o => decide (o.cm = c.cm ∧ o.j = c.j) && !o.job.ran with
    | some o => if c.chunk.isSome then s.failColl o 0x38 (BitVec.ofNat 64 (2 ^ 63 + m.tag.peer.toNat)) else s
    | none => s

/-- Messages that the lost link had not delivered go by another link with their numbers, or take cause 0x38. -/
def State.resend (s : State) (l : Nat) : State :=
  let lost (m : Posted) : Bool := decide (m.link = l) && (s.linkTo m.tag.peer).isNone
  let s1 : State := { s with
    sent := s.sent.map (fun m =>
      if m.link = l ∧ m.reply = none then
        match s.linkTo m.peer with
        | some k => { m with link := k }
        | none => { m with reply := some (.refused 0x38) }
      else m),
    posted := (s.posted.filter fun m => !lost m).map fun m =>
      if m.link = l then { m with link := (s.linkTo m.tag.peer).getD l } else m }
  (s.posted.filter lost).foldl State.loseMail s1.endFills

/-- A warp link leaves service (R402). -/
def State.loseLink (s : State) (link : Nat) : State :=
  if 24 ≤ link ∨ s.outLinks.contains link then s
  else
    let s1 : State := { s with outLinks := s.outLinks ++ [link], stamp := s.stamp + 1 }
    ((s1.setLink link false).raiseHepoch).resend link

/-- The unit leaves service, and HEPOCH rises (R371). -/
def State.loseUnit (s : State) (cls : BitVec 8) (unit : BitVec 24) : State :=
  if cls = 1 then s.loseShuttle (unit.setWidth 8) unit
  else if cls = 8 then s.loseLink unit.toNat
  else if s.outUnits.contains (cls.toNat, unit.toNat) then s
  else
    let s1 : State := ({ s with outUnits := s.outUnits ++ [(cls.toNat, unit.toNat)] } : State).raiseHepoch
    if cls = 5 then s1.setDevReg pcfg (s1.devReg pcfg &&& ~~~(1#64 <<< (32 + unit.toNat % 8))) else s1

/-- A spare row takes the place of an HBM row, and the stack stays in service (R371; assumption log 58). -/
def CheckFail.staysIn (f : CheckFail) : Bool :=
  match f.site with
  | .cell p => decide (p < Config.hbmBytes)
  | _ => false

/-- What R370 gives for where the check fails. -/
def State.markSite (s : State) : CheckSite → State
  | .cell p => { s with bad := insertNat (if 2 ^ 63 ≤ p then p else cellOf p) s.bad }
  | .code n st mon w =>
    s.modShuttle n fun x =>
      if mon then { x with monSection := { x.monSection with bad := insertNat w x.monSection.bad } }
      else
        let q := x.seq st
        x.setSeq st { q with code := { q.code with bad := insertNat w q.code.bad } }
  | .reg n st kind ix =>
    s.modShuttle n fun x =>
      let m := markOf st (damage kind.toNat ix.toNat)
      { x with marked := if x.marked.contains m then x.marked else m :: x.marked }
  | .plane n => s.modShuttle n fun x => { x with backBad := true }
  | .card h => s.setCards (s.cards.filter fun c => c.hash ≠ h)
  | .flight => s
  | .part => s

/-- A bound task uses the Pocket bank, the Sleeve or the Bolt that has failed: a bank by its shuttle's number, the others by their
loom's and panel's (assumption log 58). -/
def State.underBound (s : State) (cls : BitVec 8) (unit : BitVec 24) : Bool :=
  s.tasks.any fun t => !t.settled && decide (t.stat ≠ .pending) && s.isBound t &&
    (if cls = 2 then t.shuttles.contains (unit.setWidth 8)
     else if cls = 3 then (unitsOf 8 t.shuttles).contains unit.toNat
     else if cls = 4 then (unitsOf 64 t.shuttles).contains unit.toNat
     else false)

/-- The kind of R374 of a lasting failure, 0 when it is not fatal: a flit is lost, a stack leaves service, a command queue or
descriptor in flight fails (assumption log 58), or a bound task's memory does; else as the check reports it. -/
def State.fatalKind (s : State) (f : CheckFail) : BitVec 8 :=
  if f.cls = 6 ∨ f.cls = 7 then 4
  else if f.cls = 5 ∧ f.site = .part then 5
  else if f.site = .flight then 1
  else if s.underBound f.cls f.unit then 1
  else f.fatal

/-- A check fails: its code corrects it, a retry passes, what was stored is lost, or the fault is lasting. -/
def execCheckFailure (f : CheckFail) (s : State) : Result :=
  let detail : W64 := match f.site with
    | .cell p => BitVec.ofNat 64 p
    | .code _ _ _ w => BitVec.ofNat 64 (4 * w)
    | _ => 0
  let record (kind : Nat) : State := ({ s with stamp := s.stamp + 1 } : State).healthRecord f.cls.toNat f.unit.toNat kind 1 detail
  match f.outcome with
  | .corrected => .next (record 1)
  | .transient =>
    -- a retry of a warp link counts in LNKST (R397)
    let l := linkReg f.unit.toNat
    let s1 := record 2
    .next (if f.cls = 8 ∧ f.unit.toNat < 24 then s1.setDevReg l (s1.devReg l + 0x100000000) else s1)
  | .uncorrectable => .next (({ s with stamp := s.stamp + 1 } : State).markSite f.site)
  | .lasting =>
    let s1 := (record 3).markSite f.site
    let s2 := if CheckFail.staysIn f then s1 else s1.loseUnit f.cls f.unit
    .next (if s.fatalKind f ≠ 0 then s2.fatalFault f.cls f.unit (s.fatalKind f) else s2)

end Sys2Proof.Machine
end

