-- ==== Sys2Proof/Machine/Preempt.lean ====
section
/-! DEFINITION. Pre-emption, checkpoint images, resumption, and the destruction of a queue (R328, R362 to R369). -/

namespace Sys2Proof.Machine
open Sys2Proof

/-! ## Requests (R362, R363) -/

def pstatReg : Nat := creel + 0x68

/-- PSTAT: BUSY, reason, and length in 4 KiB units. -/
def pstat (busy : Bool) (reason len : Nat) : W64 :=
  BitVec.ofNat 64 ((if busy then 2 ^ 63 else 0) + reason * 2 ^ 56 + len / 4096)

/-- The one launch of the queue that a request can stop: its packet is the only LAUNCH or RESUME in dispatch, and nothing
after it has started. -/
def Queue.preemptable (x : Queue) : Option Nat :=
  match x.pkts.filter fun p => p.launch.isSome && p.status.isNone with
  | [p] => if x.num = p.id then p.launch else none
  | _ => none

/-- Every sequencer stops for a pre-emption. -/
def Shuttle.freezeAll (x : Shuttle) : Shuttle := { x.freezeStreams with frozen := true }

def Task.begun (t : Task) : Bool := !t.settled && decide (t.stat ≠ .pending)

/-- A request for queue `q`: bound work freezes, the rest of the launch returns to unstarted. -/
def State.requestPreempt (s : State) (q lid : Nat) : State :=
  let mine := s.tasks.filter fun t => decide (t.lid = lid) && Task.begun t
  let s1 := (s.modLaunch lid fun l => { l with stopped := true })
  let s2 := mine.foldl (fun s t =>
    if s.isBound t then t.shuttles.foldl (fun s n => (s.modShuttle n Shuttle.freezeAll).bump n) s
    else s.stopTask t.tid) s1
  (({ s2 with requests := s2.requests ++ [{ kind := .preempt, queue := q, lid := some lid }],
              stamp := s2.stamp + 1 } : State).setDevReg pstatReg (pstat true 0 0)).setCb q 0x28 4 1 1

/-- A write of PREQ. -/
def execPreq (v : W64) (s : State) : Result :=
  let q := bitsOf v 0 16
  let busy := (s.devReg pstatReg).getLsbD 63
  let no : Result := .next ({ s with stamp := s.stamp + 1 }.setDevReg pstatReg (setBits (s.devReg pstatReg) 56 7 1))
  if busy then no
  else
    match s.queueOf q with
    | none => no
    | some x =>
      if x.slot.isNone || s.qDead q then no
      else
        match x.preemptable with
        | some lid => .next (s.requestPreempt q lid)
        | none => no

/-- A write of PREL: the queue dispatches again. -/
def execPrel (v : W64) (s : State) : Result :=
  .next ({ s with stamp := s.stamp + 1 }.setCb (bitsOf v 0 16) 0x28 4 1 0).decidePoint

/-! ## The image (R364, R367, R368) -/

/-- Bytes laid over zeros. -/
def layBytes (len : Nat) (parts : List (Nat × List Byte)) : List Byte :=
  parts.foldl (fun acc p => acc.take p.1 ++ p.2 ++ acc.drop (p.1 + p.2.length)) (List.replicate len 0)

/-- Data and full/empty bits of a grant, unit by unit. -/
def State.grantContents (s : State) (units : List Nat) (place : Nat → Nat → Nat) (base len : Nat) : List Byte :=
  units.flatMap fun k => memBytes s.mem (place k base) len ++ s.feBits (place k base) (len / 8)

/-- Contents that producers have left for consumers that have not started: producer, level and bytes. -/
def State.carriedContents (s : State) (l : Launch) : List (Nat × Nat × List Byte) :=
  let held := (s.grants.filter fun g => g.lid = l.lid).map fun g =>
    (g.producer, if g.sleeve then 1 else 2,
     s.grantContents g.units (if g.sleeve then sleevePlace else boltPlace) g.base g.len)
  let waiting := (s.tasks.filter fun t => decide (t.lid = l.lid ∧ t.stat = .pending) && !t.saved).flatMap fun t =>
    let one (sleeve : Bool) : List (Nat × Nat × List Byte) :=
      match t.carry, l.imageCarry t sleeve with
      | some c, some bs => [(c.1, if sleeve then 1 else 2, bs)]
      | _, _ => []
    one true ++ one false
  held ++ waiting

/-- Scope code of a command's extent (R35). -/
def scopeCode (n : ShNo) : Ext → Nat
  | .sq _ => 0
  | .set l => if l = [n] then 1 else if l = loomShuttles n then 3 else if l = panelShuttles n then 4 else 2
  | .pk => 5 | .io => 6 | .dm => 7 | .sy => 8

/-- An engine work record: kind, counter, wt, sg, aq, rl, sc, REV, issuing pc, resume row or chunk, header and step words,
and values (R368; its inner layout is assumption log 41). -/
def workRecord (kind : Nat) (j : Job) (row : Nat) (values : List Byte) : List Byte :=
  let b (v : Bool) : Nat := if v then 1 else 0
  let head : List Byte :=
    ([kind + 16 * strCode j.st, j.cc.toNat, j.wt.getD 31, j.sg.getD 31, b j.aq, b j.rl, scopeCode j.sh j.ext, b j.rev] : List Nat).map
      (BitVec.ofNat 8)
  layBytes 128 [(0, head), (8, leBytes 4 j.ipc.toNat), (12, leBytes 4 row), (16, (j.words.take 4).flatMap fun w => leBytes 4 w.toNat),
                (32, values.take 96)]

/-- Work records of a member, in issue order. -/
def State.workRecords (s : State) (mine : Job → Bool) : List (List Byte) :=
  let nums (l : List Nat) : List Byte := l.flatMap (leBytes 8)
  let all : List (Nat × List Byte) :=
    ((s.moves.filter fun m => mine m.job && !m.job.ran).map fun m =>
      (m.job.id, workRecord 1 m.job m.row
        (m.desc ++ nums [m.tag.toNat + m.kind.code * 2 ^ 32 + m.elem * 2 ^ 40, m.da.toNat, m.tape.getD 0]))) ++
    ((s.mats.filter fun m => mine m.job && !m.job.ran).map fun m => (m.job.id, workRecord 2 m.job 0 (nums m.op.nums))) ++
    ((s.rangeJobs.filter fun m => mine m.job && !m.job.ran).map fun m =>
      (m.job.id, workRecord 3 m.job 0 (nums [m.x.toNat, m.y.toNat, m.z.toNat, m.fn]))) ++
    ((s.colls.filter fun m => mine m.job).map fun m => (m.job.id, workRecord 4 m.job m.pos (nums m.nums)))
  (all.mergeSort fun a b => decide (a.1 ≤ b.1)).map Prod.snd

/-- A shuttle record (R368). -/
def State.shuttleRecord (s : State) (n : ShNo) (mine : Job → Bool) : List Byte :=
  let x := s.shuttle n
  let work := s.workRecords mine
  layBytes recordBytes
    ((recFields.map fun f => (f.off, leBytes f.n (f.get x))) ++ s.shownSprs n ++ queueChunks x ++ maskChunks x ++ faultChunks x ++
      [(0xA24, leBytes 1 work.length), (0x5000, work.flatten), (0xE000, s.feBits (pocketPlace n 0) (Config.pocketBytes / 8)),
       (0x59000, memBytes s.mem (pocketPlace n 0) Config.pocketBytes)])

/-- State word of a task. -/
def Task.imageWord (t : Task) (bound : Bool) : Nat :=
  (if bound then 3 else if t.stat = .committed then 1 else if t.stat = .skipped then 2 else 0) +
    (if t.untaken then 4 else 0) + t.preds % 2 ^ 16 * 2 ^ 16

/-- Descriptor of a task (R161). -/
def Task.descriptor (t : Task) : List Byte :=
  layBytes 64
    [(0, leBytes 8 t.ts.toNat),
     (8, leBytes 4 ((if t.gang then 1 else 0) + (if t.dual then 2 else 0) + (if t.ordered then 4 else 0))),
     (0x0C, leBytes 4 t.share), (0x10, leBytes 2 t.queue), (0x12, leBytes 2 t.index),
     (0x20, t.args.toList.flatMap fun a => leBytes 8 a.toNat)]

/-- A barrier record. -/
def Barrier.record (b : Barrier) : List Byte :=
  let p (o : Option Nat) : Nat := o.getD (2 ^ 64 - 1)
  ([b.phase.toNat, b.arr[0], b.arr[1], b.del[0], b.del[1], p b.pst[0], p b.pst[1], if b.brk then 1 else 0] : List Nat).flatMap
    (leBytes 8)

/-- The image of a launch with its bound task, if it has one. -/
def State.checkpoint (s : State) (l : Launch) (bound : Option Task) : List Byte :=
  let tasks := s.tasks.filter fun t => t.lid = l.lid
  let nt := tasks.length
  let first := alignUp (0x100 + 8 * nt) 4096
  let carried := s.carriedContents l
  let laid := carried.foldl (fun (acc : Nat × List (Nat × Nat × Nat × List Byte)) c =>
    (alignUp (acc.1 + c.2.2.length) 4096, acc.2 ++ [(acc.1, c)])) (alignUp (first + 32 * carried.length) 4096, [])
  let records : List (Nat × List Byte) := ((List.range laid.2.length).zip laid.2).flatMap fun p =>
    let c := p.2
    [(first + 32 * p.1, leBytes 2 c.2.1 ++ leBytes 1 c.2.2.1 ++ leBytes 5 0 ++ leBytes 8 c.1 ++ leBytes 8 c.2.2.2.length ++ leBytes 8 0),
     (c.1, c.2.2.2)]
  let states := (0x100, tasks.flatMap fun t => leBytes 8 (t.imageWord (decide ((bound.map Task.tid) = some t.tid))))
  let bnd : Nat × Nat × Nat × List (Nat × List Byte) :=
    match bound with
    | none => (0, 0, if carried.isEmpty then first else laid.1, [])
    | some t =>
      let off := if carried.isEmpty then first else laid.1
      let n := t.shuttles.length
      let lines := (t.stages[0]).lines
      let slv := s.grantContents (unitsOf 8 t.shuttles) sleevePlace t.sbase (65536 * t.slv)
      let blt := s.grantContents (unitsOf 64 t.shuttles) boltPlace t.bbase (65536 * t.blt)
      let ps := boundParts off n lines.length slv.length blt.length
      let sh := alignUp ps.fin 4096
      (off, sh, sh + recordBytes * n,
       [(ps.desc, t.descriptor), (ps.bars, t.bars.toList.flatMap Barrier.record),
        (ps.made, t.bars.toList.flatMap fun b => b.made.flatMap fun a => leBytes 4 a.toNat),
        (ps.lines, leBytes 8 lines.length ++ lines.flatMap fun w => leBytes 8 w.1 ++ w.2.1 ++ leBytes 8 w.2.2.toNat),
        (ps.slv, slv), (ps.blt, blt)] ++
       ((List.range n).zip t.shuttles).map fun p =>
         (sh + recordBytes * p.1, s.shuttleRecord p.2 fun j => decide (j.task = some (t.tid, p.1))))
  let len := bnd.2.2.1
  let head : List (Nat × List Byte) :=
    [(0x00, leBytes 4 0x31434255), (0x04, leBytes 2 1), (0x06, leBytes 2 (if bound.isSome then 1 else 0)), (0x08, leBytes 8 len),
     (0x14, leBytes 2 nt), (0x16, leBytes 2 ((tasks.head?.map Task.queue).getD l.queue)),
     (0x18, leBytes 8 (if bound.isSome then (s.devReg 0x40000).toNat else 0)), (0x20, leBytes 16 l.hash.toNat),
     (0x30, leBytes 8 l.graph), (0x38, leBytes 8 l.tsbase.toNat), (0x40, leBytes 8 l.argp), (0x48, leBytes 8 l.gtab),
     (0x50, leBytes 2 l.groups.length), (0x52, leBytes 2 ((bound.map fun t => t.shuttles.length).getD 0)),
     (0x54, leBytes 2 ((bound.map Task.index).getD 0)), (0x58, leBytes 4 first), (0x5C, leBytes 4 carried.length),
     (0x60, leBytes 8 bnd.1), (0x68, leBytes 8 bnd.2.1)]
  let body := layBytes len (head ++ [states] ++ records ++ bnd.2.2.2)
  layBytes len [(0, body), (0x10, leBytes 4 (crc32 body).toNat)]

/-! ## Acknowledgement and saving (R363 to R366) -/

/-- Engine classes of R353 whose acknowledgement for a task is missing: while they hold any work of it; or, of a task whose
state is saved, work that has started, but for moves that wait for residency and collectives, which stand at chunk
boundaries (R364). -/
def State.missingOf (s : State) (t : Task) (saved : Bool) : List Nat :=
  let mine (j : Job) : Bool := decide (j.task.map Prod.fst = some t.tid) && (!saved || j.started)
  (if s.moves.any fun m => mine m.job && !(saved && !m.job.ran && decide (m.awaits ≠ [])) then [1] else []) ++
  (if s.mats.any fun m => mine m.job then [2] else []) ++ (if s.rangeJobs.any fun m => mine m.job then [3] else []) ++
  (if !saved && s.colls.any fun m => mine m.job then [4] else []) ++
  (if s.msgs.any fun m => decide (m.task.map Prod.fst = some t.tid) then [5] else [])

/-- Classes missing for a request on tasks of queue `q`; the Creel slot is, until a Treadle run of the queue is over. -/
def State.missingFor (s : State) (q : Nat) (ts : List Task) (saves : Bool) : List Nat :=
  (ts.flatMap fun t => s.missingOf t (saves && s.isBound t)) ++ if s.runs.any fun r => r.q = q then [6] else []

/-- What a pre-emption of the launch still waits for. -/
def State.preemptMissing (s : State) (q lid : Nat) : List Nat :=
  s.missingFor q (s.tasks.filter fun t => decide (t.lid = lid) && Task.begun t) true

/-- What the destruction of queue `q` still waits for. -/
def State.destroyMissing (s : State) (q : Nat) : List Nat :=
  s.missingFor q (s.tasks.filter fun t => decide (t.queue = q) && Task.begun t) false

/-- Bits 47:32 of PSTAT and DSTAT (R362). -/
def classBits (l : List Nat) : W64 := l.foldl (fun (w : W64) c => w ||| (1#64 <<< (32 + c))) 0

/-- A shuttle as it is saved: a held trap that was asynchronous is pending again. -/
def Shuttle.toSave (x : Shuttle) : Shuttle :=
  match x.trap with
  | none => x
  | some h =>
    let y : Shuttle := { x with c := { x.c with pc := h.epc, run := .running } }
    if h.halt || !h.eaux.getLsbD 63 then { x with c := { x.c with run := .running } }
    else { y with pending := { cause := h.cause, eval := h.eval, str := streamOfCode (bitsOf h.eaux 60 2),
                               eng := h.eaux.extractLsb' 56 4, ipc := h.eaux.setWidth 32, cmd := 0, found := 0 } :: y.pending }

/-- The bound task leaves its shuttles; what its image does not lay out is kept beside it. -/
def State.saveBound (s : State) (t : Task) : State :=
  let mine (j : Job) : Bool := decide (j.task.map Prod.fst = some t.tid)
  let w : SavedWork :=
    { key := t.key, tid := t.tid, old := t.shuttles, sbase := t.sbase, bbase := t.bbase, snaps := t.shuttles.map s.shuttle,
      moves := (s.moves.filter fun m => mine m.job).map fun m => { m with awaits := [] },
      mats := s.mats.filter fun m => mine m.job, rangeJobs := s.rangeJobs.filter fun m => mine m.job, late := [],
      ckmark := t.ckmark, flags := t.flags, ended := t.ended, complete := decide (t.stat = .complete), wrote := t.wrote,
      ranges := t.ranges }
  let ids := (w.moves.map fun m => m.job.id) ++ (w.mats.map fun m => m.job.id) ++ w.rangeJobs.map fun m => m.job.id
  let s1 : State :=
    { s with moves := s.moves.filter fun m => !mine m.job, mats := s.mats.filter fun m => !mine m.job,
             rangeJobs := s.rangeJobs.filter fun m => !mine m.job,
             resReqs := s.resReqs.map fun r => { r with waiters := r.waiters.filter fun k => !ids.contains k },
             saves := (s.saves.filter fun o => decide (o.key ≠ w.key)) ++ [w],
             tags := s.tags.map fun e => (e.1, e.2.filter fun a => !t.shuttles.contains a.home) }
  let own := isOwnPlace t.shuttles
  let park := parkedPlace t.tid
  let s2 := (s1.lines.filter fun l => l.task = some t.tid).foldl (fun s l =>
    if own l.flag && s.fe l.flag then s.setFe (park l.flag) true else s) s1
  ((s2.moveLines own park).modTask t.tid fun t =>
    { t with lid := 0, stat := .pending, saved := true, shuttles := [], places := [], bound := false, committing := false,
             held := none, table := [] }).releaseShuttles t.tid t.shuttles

/-- The request of queue `q` is over. -/
def State.endPreempt (s : State) (r : Request) (reason len : Nat) : State :=
  ({ s with requests := s.requests.filter fun o => o ≠ r, stamp := s.stamp + 1 }.setDevReg pstatReg
    (pstat false reason len)).sendMsi (bitsOf (s.devReg 0x40018) 0 16)

/-- The image does not fit: the launch goes on as if no request had been made. -/
def State.refusePreempt (s : State) (r : Request) (l : Launch) (len : Nat) : State :=
  let s1 := s.modLaunch l.lid fun l => { l with stopped := false }
  let mine := s.tasks.filter fun t => decide (t.lid = l.lid ∧ t.stat ≠ .stopping) && Task.begun t
  let s2 := (mine.flatMap Task.shuttles).foldl (fun s n =>
    (s.modShuttle n fun x =>
      if x.trap.isSome then x
      else
        let y : Shuttle := { x with frozen := false }
        if y.mon then y else y.resumeStreams).bump n) s1
  ((s2.setCb r.queue 0x28 4 1 0).endPreempt r 2 len).decidePoint

/-- The image is written, the task saved, and the packet completes with status 3. -/
def State.writeImage (s : State) (r : Request) (l : Launch) (bound : Option Task) (bs : List Byte) : State :=
  let base := bitsOf (s.devReg (creel + 0x58)) 12 44 * 4096
  let s1 := if base + bs.length ≤ Config.hbmBytes then s.putBytes base bs else s
  let s2 := match bound with
    | some t => s1.saveBound t
    | none => s1
  let s3 := (s2.tasks.filter fun t => decide (t.lid = l.lid) && Task.begun t).foldl
    (fun s t => s.releaseShuttles t.tid t.shuttles) s2
  (s3.finishLaunch l.lid 3).endPreempt r 0 bs.length

/-- The acknowledgement collector holds every acknowledgement of a pre-emption. -/
def execPreemptComplete (q : Nat) (s : State) : Result :=
  match s.requests.find? fun r => decide (r.kind = .preempt ∧ r.queue = q) with
  | none => .next s
  | some r =>
    match r.lid.bind s.launchOf with
    | none => .next (s.endPreempt r 0 0)
    | some l =>
      let bound := s.tasks.find? fun t => decide (t.lid = l.lid) && Task.begun t && s.isBound t
      let frozen := bound.all fun t => t.shuttles.all fun n => (s.shuttle n).frozen
      if s.preemptMissing q l.lid ≠ [] || !frozen then .next s
      else
        let ready := match bound with
          | some t => t.shuttles.foldl (fun (s : State) n => s.modShuttle n Shuttle.toSave) s
          | none => s
        let kept := s.tasks.find? fun t => decide (t.lid = l.lid) && t.saved
        let bs := if kept.isSome then l.image else ready.checkpoint l bound
        if (s.devReg (creel + 0x60)).toNat < bs.length then .next (s.refusePreempt r l bs.length)
        else
          match kept with
          | some t => .next ((s.modTask t.tid fun t => { t with lid := 0 }).writeImage r l none bs)
          | none => .next (ready.writeImage r l bound bs)

/-! ## RESUME (R317, R369) -/

/-- A task of a resumed launch, as its image has it. -/
def ImageHead.resumeTask (h : ImageHead) (t : Task) : Task :=
  let v := h.task t.index
  { t with
    queue := h.queue, preds := v / 2 ^ 16 % 2 ^ 16, untaken := v.testBit 2,
    stat := (match v % 4 with
      | 1 => .committed
      | 2 => .skipped
      | _ => .pending),
    saved := decide (v % 4 = 3) }

def groupsOf (g : Graph) : List Group := (List.range (g.gtab.length / 32)).map (groupAt g.gtab)

/-- Shuttles that a task runs on: those of its group's places, two copies, or one. -/
def Task.width (t : Task) (groups : List Group) : Nat :=
  if t.dual then 2
  else if t.gang then ((groups[t.slots.headD 0]?.map fun (g : Group) => g.members.length)).getD 0
  else 1

/-- A resumed launch enters the package; it neither replays nor records. -/
def State.newResumed (s : State) (q pid : Nat) (h : ImageHead) (g : Graph) (ims : List Image) : State :=
  let lid := s.nextId
  let tsbase := numAt h.bytes 0x38 8
  let l : Launch :=
    { lid := lid, queue := q, pid := pid, graph := numAt h.bytes 0x30 8, tsbase := BitVec.ofNat 64 tsbase,
      argp := numAt h.bytes 0x40 8, gtab := numAt h.bytes 0x48 8,
      groups := groupsOf g, hash := g.hash ims s.gangSize, places := [],
      out := s.outShuttles, card := none, g0 := [], recording := none, ordinal := none, failed := false,
      stopped := false, image := h.bytes }
  let ts := ((List.range g.ntask).zip (g.entries.zip ims)).map fun p =>
    h.resumeTask (g.newTask p.1 p.2.1 p.2.2 (lid + 1 + p.1) lid q tsbase)
  let keys := (ts.filter Task.saved).map Task.key
  { s with nextId := lid + 1 + g.ntask, launches := s.launches ++ [l], stamp := s.stamp + 1,
           tasks := (s.tasks.filter fun t => !(t.saved && decide (t.lid = 0) && keys.contains t.key)) ++ ts }

def execResume (q : Nat) (p : Packet) (s : State) : Result :=
  dispatchPacket q p 0x02 (fun s x num _ =>
    (s.creelRead x.agent (p.dw 0x10).toNat (p.dw 0x18).toNat).andRead s fun s1 bs =>
      if !s1.imageOk bs (p.dw 0x18).toNat then .format s1
      else
        let h : ImageHead := { bytes := bs }
        readGraph s1 x.agent (numAt bs 0x30 8) (numAt bs 0x48 8) h.ngrp (numAt bs 0x38 8) fun s2 g ims =>
          let lid := s2.nextId
          let s3 := s2.newResumed q num h g ims
          if (g.hash ims s2.gangSize).toNat ≠ numAt bs 0x20 16 ∨ g.ntask ≠ h.ntask then .format s2
          else if s3.tasks.any fun t => decide (t.lid = lid) && t.saved && decide (t.width (groupsOf g) ≠ h.nsh) then .format s2
          else if !s2.keysOk (s3.tasks.filter fun t => decide (t.lid = lid ∧ t.stat = .pending)) then .format s2
          else
            let ended := s3.tasks.all fun t => decide (t.lid ≠ lid ∨ t.stat = .committed ∨ t.stat = .skipped)
            .ran (s3.tryFinish lid) (if ended then some 1 else none) (fun o => { o with launch := some lid }) 0) s

/-! ## Destruction (R328) -/

def dstatReg : Nat := creel + 0x30

/-- A write of DESTROY. -/
def execDestroy (q : Nat) (s : State) : Result :=
  let q := q % 65536
  if (s.devReg dstatReg).getLsbD 63 then .next s
  else
    let s1 := (({ s with stamp := s.stamp + 1,
                         requests := s.requests ++ [{ kind := .destroy, queue := q, lid := none }] } : State).setDevReg dstatReg
      (BitVec.ofNat 64 (2 ^ 63 + q))).setCb q 0x28 2 1 1
    let s2 := match s1.queueOf q with
      | some x => if x.slot.isSome then s1.unmapQueue x else s1
      | none => s1
    let mine := (s2.launches.filter fun l => l.queue = q).map Launch.lid
    let s3 : State :=
      { s2 with tasks := s2.tasks.map fun t =>
          if mine.contains t.lid && decide (t.stat = .pending) then { t with stat := .discarded } else t }
    let s4 := (s3.runs.filter fun r => r.q = q).foldl (fun s r => s.endRun r 3 []) s3
    let s5 := s4.modQueue q fun x =>
      { x with pkts := x.pkts.map fun p =>
          if p.box then (if p.isOpen then { p with isOpen := false, status := some 3 } else p)
          else if p.launch.isNone && p.status.isNone then { p with status := some 3 } else p }
    .next s5.decidePoint

/-- A launch of a destroyed queue ends once its started tasks have come to their boundaries; the destruction is over when nothing of
the queue is left. -/
def execDestroyComplete (q : Nat) (s : State) : Result :=
  match s.requests.find? fun r => decide (r.kind = .destroy ∧ r.queue = q) with
  | none => .next s
  | some r =>
    let mine (s : State) : List Nat := (s.launches.filter fun l => l.queue = q).map Launch.lid
    let s2 := (mine s).foldl (fun s lid =>
      if s.tasks.all fun t => decide (t.lid ≠ lid) || t.settled then s.discardLaunch lid 3 else s) s
    let left := (match s2.queueOf q with
      | some x => !x.pkts.isEmpty
      | none => false)
    if left || !(mine s2).isEmpty || decide (s2.destroyMissing q ≠ []) then .next s2
    else
      .next (({ s2 with requests := s2.requests.filter fun o => o ≠ r, queues := s2.queues.filter fun x => decide (x.q ≠ q),
                        stamp := s2.stamp + 1 }.setDevReg dstatReg (BitVec.ofNat 64 q)).msiv q).decidePoint

end Sys2Proof.Machine
end

