-- ==== Sys2Proof/Machine/Warp.lean ====
section
/-! DEFINITION. Warp links: messages of virtual channel 0 from and to other packages, acknowledgements, and links that leave
and enter service (R398 to R403, R416). -/

namespace Sys2Proof.Machine
open Sys2Proof

/-! ## Messages of other packages (R399 to R403) -/

/-- What names the message. -/
def msgTag (m : RemoteMsg) : Tag := { peer := m.peer, vc := 0, seq := m.seq }

/-- The message's number is performed, as one more access of its agent. -/
def State.performedMsg (s : State) (m : RemoteMsg) : State :=
  let c := s.channel m.peer
  s.putChannel { c with performed := m.seq :: c.performed,
                        acts := clockRaise (remoteAgent m.peer m.agent) (c.performed.length + 1) c.acts }

/-- Where the bytes at a physical address of HBM stand in virtual memory: each range that leads there. -/
def State.virtualsOf (s : State) (pa : Nat) : List Nat :=
  (List.range s.rtCount).flatMap fun j =>
    let d := s.desc j
    if !d.v then []
    else
      let bases := [d.pb * 2 ^ 16] ++ (match s.press with
        | some p => if p.ix = j then [p.base] else []
        | none => [])
      (bases.dedup.filter fun b => decide (b ≤ pa)).map (fun b => d.key + (pa - b)) |>.filter fun va =>
        decide (va < d.stop ∧ s.physical j d va = pa)

/-- The access that a message makes here in its agent's name: the accesses of a package are counted as they are performed
(R229, R400). -/
def State.remoteAccess (s : State) (m : RemoteMsg) (write : Bool) (kind : AccKind) : Access :=
  { agent := remoteAgent m.peer m.agent, home := 0, epoch := s.remoteEpoch m.peer, write := write, kind := kind, ext := .dm }

/-- It in the place of whom a bank unit acts: it comes after those accesses here that the message says it does and that releases
from here have carried to its package (R400; assumption log 109). -/
def State.remoteActor (s : State) (m : RemoteMsg) (kind : AccKind) : Actor :=
  { sh := 0, st := .c, ipc := 0, acc := s.remoteAccess m true kind, know := { own := clockMeet m.seen (s.givenTo m.peer), learned := [] } }

/-- The task's table stands for accesses of a run that may still commit. -/
def Task.live (t : Task) : Bool := decide (t.stat = .running ∨ t.stat = .complete)

/-- The access races with one that the table of a task here records (R400). -/
def State.remoteRaces (s : State) (b : Actor) (pa n : Nat) : Bool :=
  (s.virtualsOf pa).any fun va => s.tasks.any fun t => t.live && (tableRace b.know b.acc va (va + n) t.table).isSome

/-- The access is entered in the tables of the tasks here, against their later ones. -/
def State.enterRemote (s : State) (a : Access) (pa n : Nat) : State :=
  let new : List Interval := (s.virtualsOf pa).map fun va =>
    { lo := va, hi := va + n, acc := a, issuer := a.agent, epoch := a.epoch, job := none }
  { s with tasks := s.tasks.map fun t =>
      if t.live then { t with table := new.foldl (fun l v => enterInterval v l) t.table } else t }

/-- A release that a contribution from another package adds to a line. -/
def remoteCarry (l : CLine) (a : Access) : Carry := { agent := a.agent, home := 0, ext := l.ext, clk := [(a.agent, a.epoch)] }

/-- The fill of a flag here, whose line is homed in another package. -/
def State.fillAway (s : State) (m : RemoteMsg) (v : W64) : State :=
  let waits (l : AwayLine) : Bool := decide (l.peer = m.peer ∧ l.flag = m.pa) && !l.filled
  let rs := ((s.awayLines.find? waits).map AwayLine.carries).getD []
  let l : CLine := { newLine 0 m.pa none v.toNat .dm m.pa none none with carries := rs, by_ := some (s.remoteActor m .fill) }
  ({ s with awayLines := s.awayLines.map fun l => if waits l then { l with filled := true } else l } : State).fillFlag l

/-- An ordered contribution from another package; its result leaves when the line is complete. -/
def State.remoteOrdered (s : State) (m : RemoteMsg) (op : Nat) (v : W64) (key : W32) (b : Actor) (l : CLine) : State :=
  let h : Held := { id := s.nextId, place := m.pa, op := op, val := v, key := key, rel := [remoteCarry l b.acc],
                    remote := some (m.peer, m.seq) }
  let l1 : CLine :=
    { l with kind := .ordered, held := l.held ++ [h], recv := l.recv + 1, carries := l.carries ++ h.rel, by_ := some b }
  let s1 := ({ s with nextId := s.nextId + 1, stamp := s.stamp + 1 } : State).modLine l fun _ => l1
  if l1.recv = l1.n then s1.applyOrdered l1 none else s1

/-- Kind of the access that an operation makes, whether it writes, and its bytes. -/
def remoteAccessOf : RemoteOp → Option (AccKind × Bool × Nat)
  | .read n => some (.plain, false, n)
  | .write bs => some (.plain, true, bs.length)
  | .atomic op _ => some (.update op.toNat, true, 8)
  | .contribute op _ | .ordered op _ _ => some (.contribution op.toNat, true, 8)
  | .accumulate _ _ _ => some (contributes, true, 16)
  | .declare _ _ | .undeclare | .fill _ => none

/-- The operation on HBM here, its checks of the card store and of races having passed; `b` makes it. -/
def State.actRemote (s : State) (m : RemoteMsg) (b : Actor) : State :=
  match m.op with
  | .read n => s.acknowledge (msgTag m) (.data (memBytes s.mem m.pa n))
  | .write bs => (s.putBytes m.pa bs).acknowledge (msgTag m) (.data [])
  | .atomic op v =>
    if s.linePending m.pa then s.acknowledge (msgTag m) (.refused 0x25)
    else (s.putDword m.pa (atomFn op.toNat (s.dword m.pa) v)).acknowledge (msgTag m) (.data [])
  | .accumulate anc x _ =>
    let r := contributeBytes anc x (memBytes s.mem m.pa 16)
    (s.putBytes m.pa r.1).acknowledge (msgTag m) (.data (leBytes 8 r.2.toNat))
  | .declare n flag =>
    if s.refusesLine m.pa n.toNat then s.acknowledge (msgTag m) (.refused 0x26)
    else (s.declareLine (newLine s.nextId m.pa none n.toNat .dm flag.toNat (some m.peer) none)).acknowledge (msgTag m) (.data [])
  | .undeclare =>
    ({ s with lines := s.lines.filter fun l => !decide (l.line = m.pa ∧ l.peer = some m.peer) } : State).acknowledge (msgTag m) (.data [])
  | .contribute op v =>
    match contributionFault (s.lineAt m.pa) m.pa op.toNat, s.lineAt m.pa with
    | some c, _ => s.acknowledge (msgTag m) (.refused c)
    | none, none => s.acknowledge (msgTag m) (.data [])
    | none, some l =>
      ((s.putDword m.pa (atomFn op.toNat (s.dword m.pa) v)).modLine l
        fun l => l.contributed m.pa op.toNat [remoteCarry l b.acc] (some b)).addRels (cellOf m.pa) [remoteCarry l b.acc] |>.acknowledge (msgTag m) (.data [])
  | .ordered op v key =>
    match s.lineAt m.pa with
    | none => s.acknowledge (msgTag m) (.refused 0x23)
    | some l =>
      if l.n ≤ l.recv then s.acknowledge (msgTag m) (.refused 0x23)
      else if l.kind = .plain then s.acknowledge (msgTag m) (.refused 0x25)
      else s.remoteOrdered m op.toNat v key b l
  | .fill v =>
    let t := s.fillAway m v
    t.acknowledge (msgTag m) (if t.fe m.pa then .data [] else .refused 0x20)

/-- What a message does here, with its acknowledgement; none while a fill finds its cell full. The card store is not reached,
a cell that holds an uncorrectable error is not read, and an access that races with one of a task here takes cause 0x20 (R398, R400). -/
def State.performRemote (s : State) (m : RemoteMsg) : Option State :=
  let s1 := s.performedMsg m
  let store := decide (s.csBase ≤ m.pa) && decide (m.pa < s.csBase + s.csLen)
  match m.op with
  | .fill _ => if s.fe m.pa then none else some (s1.actRemote m (s1.remoteActor m .fill))
  | op =>
    if store then some (s1.acknowledge (msgTag m) (.refused 0x3C))
    else
      match remoteAccessOf op with
      | none => some (s1.actRemote m (s1.remoteActor m .plain))
      | some (kind, write, n) =>
        let a := s1.remoteAccess m write kind
        let b : Actor := { s1.remoteActor m kind with acc := a }
        let lost := decide (kind ≠ .plain ∨ !write) && (List.range ((n + 7) / 8 + 1)).any fun i =>
          decide (m.pa / 8 * 8 + 8 * i < m.pa + n) && s1.badCell (m.pa / 8 * 8 + 8 * i)
        if lost then some (s1.acknowledge (msgTag m) (.refused 0x1A))
        else if s1.remoteRaces b m.pa n then some (s1.acknowledge (msgTag m) (.refused 0x20))
        else some ((s1.enterRemote a m.pa n).actRemote m b)

/-- A message of virtual channel 0 arrives: each number is performed at most once, and a duplicate is acknowledged again. -/
def execRemoteAccessMessage (m : RemoteMsg) (s : State) : Result :=
  if !(s.devReg warpBlock).getLsbD 8 then .next s
  else if (s.channel m.peer).performed.contains m.seq then
    match s.acks.find? fun a => decide (a.1 = msgTag m) with
    | some a => .next (s.acknowledge (msgTag m) a.2)
    | none => .next s
  else .next ((s.performRemote m).getD s)

/-- An acknowledgement arrives: what the message's owner does not wait for is forgotten, but that a refused fill is a fault of the
contributor in whose place it was made. -/
def execRemoteAckMessage (peer : BitVec 8) (number : BitVec 2 × BitVec 48) (reply : Reply) (s : State) : Result :=
  let tag : Tag := { peer := peer, vc := number.1, seq := number.2 }
  let mine (m : Sent) : Bool := decide (tag.vc = 0 ∧ m.peer = tag.peer ∧ m.seq = tag.seq)
  .next (({ s with sent := s.sent.map fun m => if mine m then { m with reply := some reply } else m,
                   posted := s.posted.filter fun m => decide (m.tag ≠ tag), stamp := s.stamp + 1 } : State).endFills)

/-! ## Links (R371, R402) -/

def execLinkFailure (link : Nat) (s : State) : Result :=
  if 24 ≤ link ∨ s.outLinks.contains link then .next s
  else .next ((s.loseLink link).healthRecord 8 link 3 1 0)

/-- A warp link has been trained. -/
def execWarpLinkEntersService (l : LinkEnd) (s : State) : Result :=
  if 24 ≤ l.link ∨ (s.devReg (warpBlock + 0x8)).getLsbD l.link then .next s
  else
    let s1 : State := { s with outLinks := s.outLinks.filter fun k => decide (k ≠ l.link), stamp := s.stamp + 1 }
    let ends := setBits (setBits (s1.devReg (linkReg l.link)) 8 8 l.peer.toNat) 16 9 (l.peerLink.toNat + if l.switch then 256 else 0)
    .next (((s1.setDevReg (linkReg l.link) ends).setLink l.link true).raiseHepoch)

/-- A member of the gang has left service. -/
def execGangMemberLeavesService (peer : BitVec 8) (s : State) : Result :=
  if s.gangMembers.contains peer && !s.gone.contains peer then
    .next (({ s with gone := s.gone ++ [peer], stamp := s.stamp + 1 } : State).raiseHepoch).tryAgree
  else .next s

end Sys2Proof.Machine
end

