-- ==== Sys2Proof/Machine/Registers.lean ====
section
/-! DEFINITION. Device registers as the application cores read and write them, reset, the mailbox, operating points, weft
ports (R7, R22, R211, R307, R350, R352, R362, R384 to R397, R417). -/

namespace Sys2Proof.Machine
open Sys2Proof

/-! ## Writes (R7, R386) -/

/-- Writable bits of the range unit's registers. -/
def rangeMask : Nat → Option W64
  | 0x00 => some 0x00FFFFFFFFFFFFC0
  | 0x08 => some 0x1FFFFF
  | 0x10 => some 0x00FFFFFFFFFFFFC0
  | 0x18 => some 0x00FFFFFFFFFFFFFF
  | 0x20 => some (BitVec.allOnes 64)
  | _ => none

/-- Those of the Creel's, by offset in its block. -/
def creelMask : Nat → Option W64
  | 0x00 => some 0x00FFFFFFFFFFFFF8
  | 0x10 => some 0xFFFF
  | 0x58 => some 0x00FFFFFFFFFFF000
  | 0x60 => some (BitVec.allOnes 64)
  | _ => none

/-- Those of the trap unit's. -/
def trapMask : Nat → Option W64
  | 0x20 => some 0x00FFFFFFFFFFF000
  | 0x28 => some 0x0000FFFF0000001F
  | 0x48 => some 0x00FFFFFFFFFFF000
  | 0x50 => some 0x0000FFFF0000001F
  | o => if o ∈ [0x00, 0x08, 0x10, 0x18, 0x38, 0x60, 0x68] then some (BitVec.allOnes 64) else none

/-- Those of the replay unit's and the package's. -/
def replayMask : Nat → Option W64
  | 0x00 => some 0x00FFFFFFFFFF0000
  | 0x08 => some (BitVec.allOnes 64)
  | _ => none
def packageMask : Nat → Option W64
  | 0x10 => some 0xFFFF
  | 0x18 => some 0xFFFF
  | 0x20 => some 0xFFFF
  | _ => none

/-- Those of a weft port. -/
def weftMask : Nat → Option W64
  | 0x00 => some 0xFFFFFFFFFFFF0001
  | 0x08 => some 0x00FFFFFFFFFFF01F
  | 0x10 => some 0x00FFFFFFFFFFF01F
  | 0x20 => some 0xFFFF
  | _ => none

/-- Those of the warp block: domain, gang, routes, communicators, segments and weft ports. CMRANK and CMLAND are kept while a
collective of theirs is in progress. -/
def State.warpMask (s : State) (o : Nat) : Option W64 :=
  if o = 0x00 then some 0xFFFF01FF
  else if o = 0x10 then some 0x1FFFF
  else if o = 0x18 then some 1
  else if 0x200 ≤ o ∧ o < 0x220 then some (BitVec.allOnes 64)
  else if 0x1000 ≤ o ∧ o < 0x1800 then some 0xFFFFFF
  else if 0x2000 ≤ o ∧ o < 0x2800 then
    let busy := s.colls.any fun c => decide (c.cm = BitVec.ofNat 6 ((o - 0x2000) / 32))
    if busy then none
    else if o % 32 = 0x08 then some 0x00FFFFFFFFFFFFFC
    else if o % 32 = 0x10 then some 0x00FFFFFFFFFFF000 else none
  else if 0x10000 ≤ o ∧ o < 0x18000 then some 0x8000FF00000001FF
  else if 0x30000 ≤ o ∧ o < 0x30400 then weftMask (o % 64)
  else none

/-- The bits of a register that a plain write sets; none for an offset that no block defines, a read-only register, or one
whose write is an event of its own. -/
def State.writeMask (s : State) (off : Nat) : Option W64 :=
  if off % 8 ≠ 0 then none
  else if off < 0x10000 then rangeMask off
  else if off < 0x20000 then creelMask (off - 0x10000)
  else if off < 0x30000 then trapMask (off - 0x20000)
  else if off < 0x40000 then replayMask (off - 0x30000)
  else if off < 0x50000 then packageMask (off - 0x40000)
  else if off < 0x100000 then none
  else s.warpMask (off - 0x100000)

/-- A core writes a register that has no behaviour of its own: its writable bits take the value, the others stay. -/
def execRegisterWrite (off : Nat) (v : W64) (s : State) : Result :=
  match s.writeMask off with
  | none => .next s
  | some m => .next ({ s with stamp := s.stamp + 1 }.setDevReg off ((s.devReg off &&& ~~~m) ||| (v &&& m)))

/-! ## Reads -/

/-- What a core's load of a register returns; a load of WAKE or RREQ also pops the record (R219, R307). PLIM reads as at
least 1,000 and at most 3,200, and PWR as the sensors measure it (R389). -/
def State.readRegister (s : State) (off : Nat) : W64 :=
  let v := s.devReg off
  if off = creel + 0x08 then BitVec.ofNat 64 s.slotCount
  else if off = creel + 0x10 then BitVec.ofNat 64 (s.agePeriod / Config.unitsPerUs)
  else if off = 0x28 then (if s.rivBusy.isSome then 2 else 0)
  else if off = 0x30 then
    match s.rreqs with
    | [] => 0
    | r :: _ => BitVec.ofNat 64 (2 ^ 63 + r.1 % 2 ^ 20 * 2 ^ 32 + r.2 % 2 ^ 32)
  else if off = creel + 0x20 then
    match s.wake with
    | [] => 0
    | w :: _ => BitVec.ofNat 64 (2 ^ 63 + (if w.2 then 2 ^ 62 else 0) + w.1 % 65536)
  else if off = creel + 0x30 then if v.getLsbD 63 then v ||| classBits (s.destroyMissing (bitsOf v 0 16)) else v
  else if off = creel + 0x68 then
    match s.requests.find? fun r => decide (r.kind = .preempt) with
    | some r => v ||| classBits (s.preemptMissing r.queue (r.lid.getD 0))
    | none => v
  else if creel + 0x100 ≤ off ∧ off < creel + 0x200 then
    match s.queues.find? fun x => decide (x.slot = some ((off - creel - 0x100) / 8)) with
    | some x => BitVec.ofNat 64 (2 ^ 63 + x.q % 65536)
    | none => 0
  else if off = 0x40020 then BitVec.ofNat 64 (max 1000 (min 3200 (bitsOf v 0 16)))
  else if off = 0x40030 then (if s.clock = 0 then 0 else (Config.power s.cycle).setWidth 64)
  else v

/-- The application cores' time counter, which no device program reads (R387). -/
def State.timeCounter (s : State) : Nat := s.clock * Config.timeMhz / Config.unitsPerUs

/-! ## Reset (R22, R395) -/

/-- Reset of the whole package: every register at its reset value; what the model itself keeps of a run goes on. -/
def execReset (s : State) : Result :=
  .next { State.reset with agenda := s.agenda, cur := s.cur, cycle := s.cycle, clock := s.clock,
                            stamp := s.stamp + 1, drawn := s.drawn }

/-! ## Operating points (R396) -/

/-- Arithmetic clock of a point in MHz. -/
def pointClock : Nat → Option Nat
  | 0 => some 4000 | 1 => some 3600 | 2 => some 3200 | 3 => some 2400 | 4 => some 1600 | _ => none

def execOperatingPointChange (point : BitVec 8) (mhz : BitVec 16) (s : State) : Result :=
  if pointClock point.toNat = some mhz.toNat then
    .next (s.setDevReg 0x40028 (BitVec.ofNat 64 (point.toNat + mhz.toNat * 2 ^ 16)))
  else .next s

/-! ## Root of trust (R393, R394) -/

def mailbox : Nat := 0x50000

/-- A report is asked for: the buffer must lie in HBM. -/
def execMbcmdReport (v : W64) (s : State) : Result :=
  let stat := s.devReg (mailbox + 8)
  let buf := bitsOf v 12 44 * 4096
  if stat.getLsbD 63 then .next s
  else if v.setWidth 8 ≠ (1 : BitVec 8) then .next (s.setDevReg (mailbox + 8) (setBits stat 0 8 1))
  else if Config.hbmBytes < buf + 4096 then .next (s.setDevReg (mailbox + 8) (setBits stat 0 8 2))
  else .next { s.setDevReg (mailbox + 8) (setBits stat 63 1 1) with report := some buf }

/-- The report's bytes below its signature. -/
def State.reportBody (s : State) (nonce : List Byte) : List Byte :=
  leBytes 4 0x31414255 ++ leBytes 4 1 ++ leBytes 8 (s.devReg 0x40000).toNat ++ nonce ++ s.measure ++
    leBytes 8 (s.devReg 0x40008).toNat ++ leBytes 8 s.hepoch.toNat

/-- The report is written over its nonce. -/
def execMbReportComplete (s : State) : Result :=
  match s.report with
  | none => .next s
  | some buf =>
    let body := s.reportBody (memBytes s.mem buf 32)
    let bs := body ++ ((Config.attestationSignature body) ++ List.replicate 96 0).take 96
    let s1 := s.storeHbm buf bs
    .next { s1.setDevReg (mailbox + 8) (setBits (setBits (s1.devReg (mailbox + 8)) 63 1 0) 0 8 0) with report := none }

/-! ## Weft ports (R417) -/

def weftPort (p : BitVec 4) : Nat := warpBlock + 0x30000 + 64 * p.toNat

/-- Place of descriptor `i` of the ring that a register gives. -/
def State.weftDesc (s : State) (reg i : Nat) : Nat :=
  let r := s.devReg reg
  bitsOf r 12 44 * 4096 + 16 * (i % 2 ^ bitsOf r 0 5)

/-- Software advances the transmit index, or takes received frames. -/
def execWpidxWrite (port : BitVec 4) (v : W64) (s : State) : Result :=
  let off := weftPort port + 0x18
  .next ({ s with stamp := s.stamp + 1 }.setDevReg off ((s.devReg off &&& 0x0000FFFFFFFF0000) ||| (v &&& 0xFFFF00000000FFFF)))

/-- The oldest queued frame has been sent; one of more than 9,216 bytes is passed over (assumption log 125). -/
def execWeftTransmitDone (port : BitVec 4) (s : State) : Result :=
  let off := weftPort port + 0x18
  let idx := s.devReg off
  let done := bitsOf idx 16 16
  if bitsOf idx 0 16 = done ∨ bitsOf (s.devReg (weftPort port)) 0 2 ≠ 3 then .next s
  else
    let d := s.weftDesc (weftPort port + 8) done
    let n := bitsOf (s.dword (d + 8)) 0 16
    let frame := memBytes s.mem (bitsOf (s.dword d) 0 56) n
    .next (({ s with frames := if 9216 < n then s.frames else s.frames ++ [(port, frame)] }.setDevReg off (setBits idx 16 16 (done + 1))).sendMsi
      (bitsOf (s.devReg (weftPort port + 0x20)) 0 16))

/-- EtherType of a frame. -/
def etherType (frame : List Byte) : Nat := (frame.getD 12 0).toNat * 256 + (frame.getD 13 0).toNat

/-- A frame arrives: the device transport takes its own; any other fills the receive ring, or is lost when the ring is full. -/
def execWeftFrameReceive (port : BitVec 4) (data : List Byte) (s : State) : Result :=
  let off := weftPort port + 0x18
  let idx := s.devReg off
  let filled := bitsOf idx 32 16
  let taken := bitsOf idx 48 16
  let ring := weftPort port + 0x10
  if bitsOf (s.devReg (weftPort port)) 0 2 ≠ 3 ∨ 9216 < data.length then .next s
  else if etherType data = 0x88B5 then .next { s with transport := s.transport ++ [(port, data)] }
  else if 2 ^ bitsOf (s.devReg ring) 0 5 ≤ (filled + 65536 - taken) % 65536 then .next s
  else
    let d := s.weftDesc ring filled
    let s1 := (s.storeHbm (bitsOf (s.dword d) 0 56) data).storeHbm (d + 8) (leBytes 2 data.length)
    .next ((s1.setDevReg off (setBits idx 32 16 (filled + 1))).sendMsi (bitsOf (s.devReg (weftPort port + 0x20)) 0 16))

def execWeftPortLinkChange (port : BitVec 4) (up : Bool) (s : State) : Result :=
  .next (s.setDevReg (weftPort port) (setBits (s.devReg (weftPort port)) 1 1 (if up then 1 else 0)))

end Sys2Proof.Machine
end

