-- ==== Sys2Proof/Machine/Cores.lean ====
section
/-! DEFINITION. What the application cores, PCIe agents and the management unit do to the package: the address map, translated
accesses, interrupt files, orderings and bring-up (R384, R386 to R395). -/

namespace Sys2Proof.Machine
open Sys2Proof

/-! ## The physical address map (R384, R305) -/

inductive Reach where
  | hbm
  | register (off : Nat)
  | doorbell (q : Nat)
  | file (machine : Bool) (h : Nat) (off : Nat)
  | rom
  | pcie
  | window
  | reserved
  deriving DecidableEq, Repr

/-- What a physical address reaches. The windows of root complexes 2 and 3 would meet the domain window, which stands before them
(assumption log 124). -/
def reachOf (pa : Nat) : Reach :=
  if pa < Config.hbmBytes then .hbm
  else if 0x10000000000 ≤ pa ∧ pa < 0x10001000000 then .register (pa - 0x10000000000)
  else if 0x10001000000 ≤ pa ∧ pa < 0x10001080000 then .doorbell ((pa - 0x10001000000) / 8)
  else if 0x10010000000 ≤ pa ∧ pa < 0x10010020000 then .file true ((pa - 0x10010000000) / 4096) (pa % 4096)
  else if 0x10020000000 ≤ pa ∧ pa < 0x10020020000 then .file false ((pa - 0x10020000000) / 4096) (pa % 4096)
  else if 0x10030000000 ≤ pa ∧ pa < 0x10030010000 then .rom
  else if windowBase ≤ pa ∧ pa < 2 * windowBase then .window
  else if 0x20000000000 ≤ pa ∧ pa < windowBase then .pcie
  else .reserved

/-! ## Cores -/

def State.hart (s : State) (h : BitVec 5) : Hart := s.harts[h.toNat]'h.isLt

def State.modHart (s : State) (h : BitVec 5) (f : Hart → Hart) : State :=
  { s with harts := s.harts.set h.toNat (f (s.hart h)) h.isLt, stamp := s.stamp + 1 }

/-- A core's name among the agents: it lies in `.io` and the wider scopes (R231, R388). -/
def coreAgent (h : BitVec 5) : Nat := 2 ^ 63 + h.toNat

/-- An access fault or page fault, taken by the core itself. -/
def State.coreFault (s : State) (h : BitVec 5) (cause va : Nat) : State := s.modHart h fun x => { x with fault := some (cause, va) }

/-- Levels of the translation that satp selects: Sv39, Sv48 or Sv57 (assumption log 122). -/
def svLevels (satp : W64) : Nat :=
  match bitsOf satp 60 4 with
  | 8 => 3 | 9 => 4 | 10 => 5 | _ => 0

/-- A walk of page tables in HBM, from a table at some level down to a leaf: the physical address (assumption log 122). -/
def State.svWalk (s : State) (va : Nat) (write user : Bool) : Nat → Nat → Option Nat
  | 0, _ => none
  | l + 1, table =>
    let pte := s.dword (table + 8 * (va / 2 ^ (12 + 9 * l) % 512))
    let page := bitsOf pte 10 44
    if !pte.getLsbD 0 || (!pte.getLsbD 1 && pte.getLsbD 2) then none
    else if pte.getLsbD 1 || pte.getLsbD 3 then
      if decide (pte.getLsbD 4 = user) && pte.getLsbD (if write then 2 else 1) && pte.getLsbD 6 && (!write || pte.getLsbD 7) &&
          decide (page % 2 ^ (9 * l) = 0) then
        some (page * 4096 + va % 2 ^ (12 + 9 * l))
      else none
    else s.svWalk va write user l (page * 4096)

/-- The physical address of a core's access, or none for a page fault (R387). -/
def State.coreAddress (s : State) (h : BitVec 5) (va : Nat) (write : Bool) : Option Nat :=
  let x := s.hart h
  let n := svLevels x.satp
  if decide (x.mode = .machine) || decide (n = 0) then some va
  else if decide (va % 2 ^ 64 / 2 ^ (11 + 9 * n) = 0 ∨ va % 2 ^ 64 / 2 ^ (11 + 9 * n) = 2 ^ (53 - 9 * n) - 1) then
    s.svWalk va write (decide (x.mode = .user)) n (bitsOf x.satp 0 44 * 4096)
  else none

/-! ## Stores -/

/-- A store of the value to a device register that acts, by the offset of R211, R307, R350, R352, R362, R394, R397 and R417; a
plain register takes it (R386). -/
def execRegisterStore (off : Nat) (v : W64) (s : State) : Result :=
  let low := bitsOf v 0 16
  if off = 0x28 then (if v.getLsbD 0 then execRivctlGo s else .next s)
  else if off = 0x38 then execRresume v s
  else if off = 0x40 then execRgenreq v s
  else if off = creel + 0x08 then execSlotsWrite v s
  else if off = creel + 0x18 then execKick low s
  else if off = creel + 0x28 then execDestroy low s
  else if off = creel + 0x38 then execTload v s
  else if off = creel + 0x40 then execTfree v s
  else if off = creel + 0x50 then execPreq v s
  else if off = creel + 0x70 then execPrel v s
  else if off = trapUnit + 0x40 then
    match bitsOf v 62 2 with
    | 0 => execTrcmdDeliver (bitsOf v 0 48) s
    | 1 => execTrcmdRetry (bitsOf v 0 48) s
    | 2 => execTrcmdKill (bitsOf v 0 48) s
    | _ => .next s
  else if off = trapUnit + 0x78 then execAbtokRegister v s
  else if off = replayUnit + 0x10 then (if v.getLsbD 0 then execCflush s else .next s)
  else if off = mailbox then execMbcmdReport v s
  else if warpBlock + 0x2000 ≤ off ∧ off < warpBlock + 0x2800 ∧ off % 32 = 0 then
    execCmcfgWrite (BitVec.ofNat 6 ((off - warpBlock - 0x2000) / 32)) v s
  else if warpBlock + 0x30000 ≤ off ∧ off < warpBlock + 0x30400 ∧ off % 64 = 0x18 then
    execWpidxWrite (BitVec.ofNat 4 ((off - warpBlock - 0x30000) / 64)) v s
  else execRegisterWrite off v s

/-- A store to HBM, at once seen by every engine. Releases that the bytes held are gone, and the error of a cell written whole. -/
def State.outsideStore (s : State) (pa : Nat) (data : List Byte) : State :=
  let whole (c : Nat) : Bool := decide (pa ≤ c) && decide (c + 8 ≤ pa + data.length)
  { s.storeHbm pa data with
    rels := s.rels.filter fun r => !(decide (cellOf pa ≤ r.1) && decide (r.1 < pa + data.length)),
    bad := s.bad.filter fun c => !whole c, stamp := s.stamp + 1 }

/-- Cells that bytes touch. -/
def cellsTouched (pa n : Nat) : List Nat := (List.range ((pa % 8 + n + 7) / 8)).map fun i => cellOf pa + 8 * i

/-- A store to an interrupt file: 32 bits at offset 0 make an identity pending (R390). -/
def State.fileStore (s : State) (machine : Bool) (h off : Nat) (data : List Byte) : State :=
  let i := leNat data
  if off ≠ 0 ∨ data.length ≠ 4 ∨ i = 0 ∨ (if machine then 63 else 2047) < i then s
  else
    s.modHart (BitVec.ofNat 5 h) fun x =>
      if machine then { x with machinePending := insertNat i x.machinePending } else { x with pending := insertNat i x.pending }

/-- A core's store; after FENCE rw,w it is a release at `.io` (R384, R386, R388). -/
def execCoreStore (h : BitVec 5) (va : Nat) (data : List Byte) (s : State) : Result :=
  let x := s.hart h
  if !x.started || data.isEmpty then .next s
  else
    match s.coreAddress h va true with
    | none => .next (s.coreFault h 15 va)
    | some pa =>
      let hbm (q : Nat) : State :=
        let s1 := (s.outsideStore q data).modHart h fun x => { x with fenced := false }
        if x.fenced then
          (cellsTouched q data.length).foldl
            (fun s c => s.addRels c [{ agent := coreAgent h, home := 0, ext := .io, clk := x.after }]) s1
        else s1
      match reachOf pa with
      | .hbm => if Config.hbmBytes < pa + data.length then .next (s.coreFault h 7 va) else .next (hbm pa)
      | .register off =>
        if off % 8 = 0 ∧ data.length = 8 then execRegisterStore off (BitVec.ofNat 64 (leNat data)) s
        else .next (s.coreFault h 7 va)
      | .doorbell q => execDoorbellWrite q (BitVec.ofNat 64 (leNat data)) s
      | .file m n off => .next (s.fileStore m n off data)
      | .rom => .next (s.coreFault h 7 va)
      | .pcie => .next { s with pcieOut := s.pcieOut ++ [(pa, data)], stamp := s.stamp + 1 }
      | .window =>
        match s.reach pa va with
        | .ok q => .next (hbm q)
        | .error (.remote p q) => .next (s.sendRemote 0 p q (.write data) 0)
        | .error _ => .next (s.coreFault h 7 va)
      | .reserved => .next (s.coreFault h 7 va)

/-- A core's load: what it sees of releases waits for a FENCE r,rw; a load of WAKE or RREQ pops a record (R219, R307, R388). -/
def execCoreLoad (h : BitVec 5) (va n : Nat) (s : State) : Result :=
  if !(s.hart h).started || decide (n = 0) then .next s
  else
    match s.coreAddress h va false with
    | none => .next (s.coreFault h 13 va)
    | some pa =>
      let hbm (q : Nat) : State :=
        s.modHart h fun x => { x with sighted := x.sighted ++ (cellsTouched q n).flatMap s.relsAt }
      match reachOf pa with
      | .hbm => if Config.hbmBytes < pa + n then .next (s.coreFault h 5 va) else .next (hbm pa)
      | .register off =>
        if off % 8 ≠ 0 ∨ n ≠ 8 then .next (s.coreFault h 5 va)
        else if off = creel + 0x20 then execWakeRead s
        else if off = 0x30 then execRreqRead s
        else .next s
      | .window =>
        match s.reach pa va with
        | .ok q => .next (hbm q)
        | .error (.remote p q) => .next (s.sendRemote 0 p q (.read n) 0)
        | .error _ => .next (s.coreFault h 5 va)
      | .reserved => .next (s.coreFault h 5 va)
      | _ => .next s

/-- FENCE r,rw: the releases that the core's loads have read, as an acquire at `.io` (R388). -/
def Hart.acquire (x : Hart) (h : BitVec 5) : Hart :=
  { x with
    after := (x.sighted.filter fun r => extHas r.ext (coreAgent h) 0 && extHas .io r.agent r.home).foldl
      (fun c r => clockJoin c r.clk) x.after,
    sighted := [] }

/-! ## Bring-up (R393, R395) -/

/-- The image is checked against its signature and its measurement extends the register; one that fails is not run, and bring-up
stops with its step's number in the mailbox (assumption log 123). -/
def State.checkImage (s : State) (step : Nat) (image : List Byte) (run : State → State) : State :=
  let s1 := s.setDevReg (mailbox + 8) (setBits (s.devReg (mailbox + 8)) 8 8 step)
  if Config.imageSigned image then run { s1 with measure := sha384 (s1.measure ++ sha384 image) }
  else { s1 with bootStopped := true }

/-- The next step of bring-up: the last one reached stands in MBSTAT. -/
def State.bringUp (s : State) (image : List Byte) : State :=
  let stat := s.devReg (mailbox + 8)
  let reach (step : Nat) (s : State) : State := s.setDevReg (mailbox + 8) (setBits stat 8 8 step)
  if s.bootStopped then s
  else
    match bitsOf stat 8 8 with
    | 0 => reach 1 s
    | 1 => s.checkImage 2 image id
    | 2 =>
      reach 3 { s with
        mem := s.mem.filter fun c => decide (c.1 < 2 ^ 60), full := [],
        sh := s.sh.map fun x => { x with tvec := x.fwTvec } }
    | 3 => s.checkImage 4 image fun s => s.modHart 0 fun x => { x with started := true }
    | 4 => reach 5 s
    | _ => s

/-! ## The event -/

/-- An act of a core, a PCIe agent or the management unit. A PCIe agent reaches HBM, the doorbells, the interrupt files and the other
root complexes; any other request ends there as unsupported (R384, R391, R392). -/
def execCoreOrPcieStore (act : CoreAct) (data : List Byte) (s : State) : Result :=
  match act with
  | .store h va => execCoreStore h va data s
  | .load h va n => execCoreLoad h va n s
  | .fenceWrites h => if (s.hart h).started then .next (s.modHart h fun x => { x with fenced := true }) else .next s
  | .fenceReads h => if (s.hart h).started then .next (s.modHart h fun x => x.acquire h) else .next s
  | .enter h mode satp => if (s.hart h).started then .next (s.modHart h fun x => { x with mode := mode, satp := satp }) else .next s
  | .claim h machine i =>
    .next (s.modHart h fun x =>
      if machine then { x with machinePending := x.machinePending.filter fun k => decide (k ≠ i) }
      else { x with pending := x.pending.filter fun k => decide (k ≠ i) })
  | .pcieStore _ pa =>
    if data.isEmpty then .next s
    else
      match reachOf pa with
      | .hbm => if Config.hbmBytes < pa + data.length then .next s else .next (s.outsideStore pa data)
      | .doorbell q => execDoorbellWrite q (BitVec.ofNat 64 (leNat data)) s
      | .file m n off => .next (s.fileStore m n off data)
      | .pcie => .next { s with pcieOut := s.pcieOut ++ [(pa, data)], stamp := s.stamp + 1 }
      | _ => .next s
  | .uart => .next (s.sendMsi Config.uartIdentity.toNat)
  | .bringUp => .next { s.bringUp data with stamp := s.stamp + 1 }

end Sys2Proof.Machine
end

