-- ==== Sys2Proof/Machine/Scalar.lean ====
section
/-! DEFINITION. Register arithmetic, logic, shifts, multiplication and division, compares, immediates, bit fields, constants
and checked address arithmetic of the control stream (R52 to R61), with NOP and hints (R75). -/

namespace Sys2Proof.Machine
open Sys2Proof

/-- s[d] := v (R52). -/
def scalarResult (s : State) (d : RegNo) (v : W64) : Result := runC s (.done (s.setSreg d v))

/-- 1 or 0 as a scalar. -/
def flagValue (b : Bool) : W64 := if b then 1 else 0

/-! ## Major 0x00 (R53) -/

def countLeadingZeros (a : W64) : W64 := BitVec.ofNat 64 (64 - bitLen a.toNat)
def countTrailingZeros (a : W64) : W64 := if a = 0 then 64 else BitVec.ofNat 64 (bitLen (a &&& -a).toNat - 1)
def countOnes (a : W64) : W64 := BitVec.ofNat 64 ((List.range 64).countP fun i => a.getLsbD i)

/-- Bits 5:0 of a shift count. -/
def shiftCount (b : W64) : Nat := b.toNat % 64

def execAdd (d a b : RegNo) (s : State) : Result := scalarResult s d (s.sreg a + s.sreg b)
def execSub (d a b : RegNo) (s : State) : Result := scalarResult s d (s.sreg a - s.sreg b)
def execAnd (d a b : RegNo) (s : State) : Result := scalarResult s d (s.sreg a &&& s.sreg b)
def execOr (d a b : RegNo) (s : State) : Result := scalarResult s d (s.sreg a ||| s.sreg b)
def execXor (d a b : RegNo) (s : State) : Result := scalarResult s d (s.sreg a ^^^ s.sreg b)
def execAndn (d a b : RegNo) (s : State) : Result := scalarResult s d (s.sreg a &&& ~~~s.sreg b)
def execSll (d a b : RegNo) (s : State) : Result := scalarResult s d (s.sreg a <<< shiftCount (s.sreg b))
def execSrl (d a b : RegNo) (s : State) : Result := scalarResult s d (s.sreg a >>> shiftCount (s.sreg b))
def execSra (d a b : RegNo) (s : State) : Result := scalarResult s d ((s.sreg a).sshiftRight (shiftCount (s.sreg b)))
def execMin (d a b : RegNo) (s : State) : Result :=
  scalarResult s d (if (s.sreg a).slt (s.sreg b) then s.sreg a else s.sreg b)
def execMax (d a b : RegNo) (s : State) : Result :=
  scalarResult s d (if (s.sreg a).slt (s.sreg b) then s.sreg b else s.sreg a)
def execMinu (d a b : RegNo) (s : State) : Result :=
  scalarResult s d (if (s.sreg a).ult (s.sreg b) then s.sreg a else s.sreg b)
def execMaxu (d a b : RegNo) (s : State) : Result :=
  scalarResult s d (if (s.sreg a).ult (s.sreg b) then s.sreg b else s.sreg a)
def execClz (d a : RegNo) (s : State) : Result := scalarResult s d (countLeadingZeros (s.sreg a))
def execCtz (d a : RegNo) (s : State) : Result := scalarResult s d (countTrailingZeros (s.sreg a))
def execPop (d a : RegNo) (s : State) : Result := scalarResult s d (countOnes (s.sreg a))

/-! ## Major 0x01 (R54, R55) -/

def execMul (d a b : RegNo) (s : State) : Result := scalarResult s d (s.sreg a * s.sreg b)
def execMulh (d a b : RegNo) (s : State) : Result :=
  scalarResult s d (BitVec.ofInt 64 ((s.sreg a).toInt * (s.sreg b).toInt / 2 ^ 64))
def execMulhu (d a b : RegNo) (s : State) : Result :=
  scalarResult s d (BitVec.ofNat 64 ((s.sreg a).toNat * (s.sreg b).toNat / 2 ^ 64))

/-- A division's result, with sst.IDZ when the divisor is zero (R55). -/
def divideResult (s : State) (d : RegNo) (b v zero : W64) : Result :=
  if b = 0 then runC s (.done ((s.setSreg d zero).orStatus s.here .c idzBit)) else scalarResult s d v

def execDiv (d a b : RegNo) (s : State) : Result := divideResult s d (s.sreg b) ((s.sreg a).sdiv (s.sreg b)) 0
def execDivu (d a b : RegNo) (s : State) : Result := divideResult s d (s.sreg b) (s.sreg a / s.sreg b) 0
def execRem (d a b : RegNo) (s : State) : Result := divideResult s d (s.sreg b) ((s.sreg a).srem (s.sreg b)) (s.sreg a)
def execRemu (d a b : RegNo) (s : State) : Result := divideResult s d (s.sreg b) (s.sreg a % s.sreg b) (s.sreg a)

/-! ## Major 0x02 (R56) -/

def execSeq (d a b : RegNo) (s : State) : Result := scalarResult s d (flagValue (decide (s.sreg a = s.sreg b)))
def execSne (d a b : RegNo) (s : State) : Result := scalarResult s d (flagValue (decide (s.sreg a ≠ s.sreg b)))
def execSlt (d a b : RegNo) (s : State) : Result := scalarResult s d (flagValue ((s.sreg a).slt (s.sreg b)))
def execSltu (d a b : RegNo) (s : State) : Result := scalarResult s d (flagValue ((s.sreg a).ult (s.sreg b)))
def execSel (d a b m : RegNo) (s : State) : Result :=
  scalarResult s d (if s.sreg m ≠ 0 then s.sreg a else s.sreg b)

/-! ## Majors 0x03 to 0x06 (R57) -/

def execAddi (d a : RegNo) (i : BitVec 16) (s : State) : Result := scalarResult s d (s.sreg a + i.signExtend 64)
def execAndi (d a : RegNo) (i : BitVec 16) (s : State) : Result := scalarResult s d (s.sreg a &&& i.setWidth 64)
def execOri (d a : RegNo) (i : BitVec 16) (s : State) : Result := scalarResult s d (s.sreg a ||| i.setWidth 64)
def execXori (d a : RegNo) (i : BitVec 16) (s : State) : Result := scalarResult s d (s.sreg a ^^^ i.setWidth 64)

/-! ## Major 0x07 (R58, R59) -/

/-- The low `w` bits set. -/
def lowMask (w : Nat) : W64 := BitVec.ofNat 64 (2 ^ w - 1)

def execSlli (d a : RegNo) (p : BitVec 6) (s : State) : Result := scalarResult s d (s.sreg a <<< p.toNat)
def execSrli (d a : RegNo) (p : BitVec 6) (s : State) : Result := scalarResult s d (s.sreg a >>> p.toNat)
def execSrai (d a : RegNo) (p : BitVec 6) (s : State) : Result := scalarResult s d ((s.sreg a).sshiftRight p.toNat)
def execExtu (d a : RegNo) (p w : BitVec 6) (s : State) : Result :=
  scalarResult s d ((s.sreg a >>> p.toNat) &&& lowMask (w.toNat + 1))
def execExts (d a : RegNo) (p w : BitVec 6) (s : State) : Result :=
  scalarResult s d (BitVec.ofInt 64 (sintOf (w.toNat + 1) ((s.sreg a).sshiftRight p.toNat).toNat))
def execIns (d a : RegNo) (p w : BitVec 6) (s : State) : Result :=
  let m := lowMask (w.toNat + 1) <<< p.toNat
  scalarResult s d ((s.sreg d &&& ~~~m) ||| ((s.sreg a <<< p.toNat) &&& m))

/-! ## Major 0x08 (R60) -/

def execMovz (d : RegNo) (h : BitVec 2) (i : BitVec 16) (s : State) : Result :=
  scalarResult s d (i.setWidth 64 <<< (16 * h.toNat))
def execMovk (d : RegNo) (h : BitVec 2) (i : BitVec 16) (s : State) : Result :=
  scalarResult s d ((s.sreg d &&& ~~~((0xFFFF : W64) <<< (16 * h.toNat))) ||| (i.setWidth 64 <<< (16 * h.toNat)))

/-! ## Major 0x14 (R61) and major 0x12 (R75) -/

def execAdda (d a : RegNo) (i : BitVec 16) (s : State) : Result :=
  let e := (s.sreg a).toInt + i.toInt
  if e < 0 ∨ (Config.pocketBytes : Int) ≤ e then trap s 0x0B (BitVec.ofInt 64 e)
  else scalarResult s d (BitVec.ofInt 64 e)

def execNop (s : State) : Result := runC s (.done s)
/-- A hint has no effect on this part (R75). -/
def execHint (_h : BitVec 6) (s : State) : Result := runC s (.done s)

end Sys2Proof.Machine
end

