-- ==== Sys2Proof/Machine/VecMem.lean ====
section
/-! DEFINITION. Vector Pocket loads and stores, address-register arithmetic, and the tape and gradient instructions of major
0x37 (R155 to R160, R266, R276). -/

namespace Sys2Proof.Machine
open Sys2Proof

/-- The 64 cell addresses of a vector access: unit or transpose, strided, indexed (R156). -/
def vecAddrs (s : State) (v a : RegNo) (m : BitVec 2) (o : BitVec 8) : List Int :=
  let base : Int := (s.areg a).toInt + 64 * o.toInt
  (List.range 64).map fun (j : Nat) =>
    if m = 1 then base + (j : Int) * ((s.areg (a + 1)).setWidth 32).toInt
    else if m = 2 then base + (velem (s.vreg (v + 1)) 4 j : Nat)
    else base + 8 * (j : Int)

/-- The access mode that is made, whether xp and ai act, and whether a fallback sets WARN (R41). -/
structure VecForm where
  mode : BitVec 2
  tr : Bool
  inc : Bool
  warn : Bool

def vecForm (x i : Bool) (m : BitVec 2) : VecForm :=
  { mode := m, tr := x && decide (m = 0), inc := i && decide (m ≠ 2),
    warn := (x && decide (m ≠ 0)) || (i && decide (m = 2)) }

/-- a[aa] after the access. -/
def VecForm.advance (f : VecForm) (s : State) (a : RegNo) : State :=
  if f.inc then s.setAreg a (s.areg a + (if f.mode = 1 then 8 else 512)) else s

/-- The cells at the addresses, first lowest. -/
def State.cellsAt (s : State) (eas : List Int) : List Nat := eas.map fun ea => s.pocketNat ea 8

/-- The 512 bytes read as a 16 x 16 matrix of 16-bit elements, transposed (R158). -/
def transpose16 (v : VReg) : VReg :=
  packElems 2 ((List.range 256).map fun i => velem v 2 (16 * (i % 16) + i / 16))

/-- Element offset `p` of a cell `j`, for width `w`: which element of vd stands there (R158 for the transpose). -/
def placeInReg (tr : Bool) (w j p : Nat) : Nat :=
  let e := 8 / w * j + p
  if tr then 16 * (e % 16) + e / 16 else e

/-- The elements of a differentiable cell: shadow place, anchor, format, and the element's place in the cell. -/
def State.cellElems (s : State) (ea : Int) : List (Nat × Int × Fmt × Nat) :=
  match s.regionOfEa ea with
  | none => []
  | some (r, n, b) => (List.range (8 / r.w)).map fun p => (r.shadow n (b + p * r.w), r.anc, r.fmt, p)

/-- Some cell of the addresses is differentiable. -/
def State.anyDiff (s : State) (eas : List Int) : Bool := eas.any fun ea => (s.regionOfEa ea).isSome

/-- A transposing access meets a region whose width is not 2 (R266). -/
def State.trShape (s : State) (tr : Bool) (eas : List Int) : Bool :=
  tr && eas.any fun ea => match s.regionOfEa ea with
    | some (r, _, _) => decide (r.w ≠ 2)
    | none => false

/-- A plain vector read into `v`. -/
def vecRead (s : State) (v : RegNo) (tr : Bool) (eas : List Int) : Eff :=
  withCells s false .plain s.ownExt eas fun s =>
    let d := packElems 8 (s.cellsAt eas)
    .done (s.setVreg v (if tr then transpose16 d else d))

/-- The differentiable cells among the addresses. -/
def State.diffCells (s : State) (eas : List Int) : List Nat :=
  (eas.filter fun ea => (s.regionOfEa ea).isSome).map fun ea => cellOf (s.placeOf ea)

/-- A reverse vector load: register elements contributed to the shadows (R266). It touches the primal cells as a read, so that
it races with a forward write in flight (R275). -/
def vecContribute (s : State) (v : RegNo) (tr : Bool) (eas : List Int) : Eff :=
  let elems := (eas.zip (List.range 64)).flatMap fun p => (s.cellElems p.1).map fun e => (p.2, e)
  withPlaces s false .plain (s.diffCells eas) fun s =>
    withPlaces s true contributes (elems.flatMap fun e => shadowLocs e.2.1) fun s =>
      let reg := s.vreg v
      .done (elems.foldl (fun s e =>
        let f := e.2.2.2.1
        s.contributeAt e.2.1 e.2.2.1 (fmtValue f (velem reg f.width (placeInReg tr f.width e.1 e.2.2.2.2)))) s)

/-- The index register is read before the addresses are made of it (R87, R156). -/
def withIndex (s : State) (f : VecForm) (v : RegNo) (g : State → Eff) : Eff :=
  if f.mode = 2 then withVregs s [v + 1] [] g else g s

/-- A vector load. Races on vector registers are tested before the cells (assumption log 47). -/
def vecLoad (s : State) (f : VecForm) (v a : RegNo) (o : BitVec 8) (rev : Bool) : Eff :=
  withIndex s f v fun s =>
    let eas := vecAddrs s v a f.mode o
    let checked (s : State) (g : State → Eff) : Eff :=
      match s.pocketFault 8 eas with
      | some (c, e) => .trap c e
      | none => if s.trShape f.tr eas then .trap 0x2A (evalOf (eas.headD 0)) else g s
    let fin (s : State) : Eff := .done ((f.advance s a).warnIf f.warn)
    if rev then
      withVregs s (if s.anyDiff eas then [v] else []) [] fun s =>
        checked s fun s => (vecContribute s v f.tr eas).andThen fin
    else withVregs s [] [v] fun s => checked s fun s => (vecRead s v f.tr eas).andThen fin

def execVld (v a : RegNo) (x i : Bool) (m : BitVec 2) (o : BitVec 8) (k : BitVec 4) (s : State) : Result :=
  runT s k fun s => vecLoad s (vecForm x i m) v a o s.reversed

/-! ## Stores -/

/-- Cells written in increasing `j`, and the value each held just before its own write. -/
def vecWrite (s : State) (reg : VReg) : List (Int × Nat) → State × List Nat
  | [] => (s, [])
  | (ea, j) :: r =>
    let old := s.pocketNat ea 8
    let t := vecWrite (s.putBytes (s.placeOf ea) (leBytes 8 (velem reg 8 j))) reg r
    (t.1, old :: t.2)

/-- A vector record (R270). -/
def vectorRecord (eas : List Int) (olds : List Nat) : List Byte :=
  tapeHeader 2 17 0 0 0 ++ eas.flatMap (fun ea => leBytes 8 (evalOf ea).toNat) ++ olds.flatMap (leBytes 8)

/-- A reverse store: from `j` = 63 down, the adjoint taken into the register and the old cell restored (R266). -/
def vecRestore (s : State) (v : RegNo) (rec : List Byte) : List (Int × Nat) → State
  | [] => s
  | (ea, j) :: r =>
    let es := s.cellElems ea
    if es.isEmpty then vecRestore s v rec r
    else
      let s1 := es.foldl (fun s e =>
        let t := s.takeAt e.1 e.2.1 e.2.2.1
        let w := e.2.2.1.width
        let i := 8 / w * j + e.2.2.2
        t.2.setVreg v (packElems w ((List.range (velems w)).map fun n =>
          if n = i then t.1 else velem (s.vreg v) w n))) s
      vecRestore (s1.putBytes (s1.placeOf ea) ((rec.drop (64 + 512 + 8 * j)).take 8)) v rec r

/-- A vector store. Races on vector registers are tested before the cells (assumption log 47). -/
def vecStore (s : State) (f : VecForm) (v a : RegNo) (o : BitVec 8) : Eff :=
  withIndex s f v fun s =>
    let eas := vecAddrs s v a f.mode o
    let checked (s : State) (g : State → Eff) : Eff :=
      match s.pocketFault 8 eas with
      | some (c, e) => .trap c e
      | none => g s
    let fin (s : State) : Eff := .done ((f.advance s a).warnIf f.warn)
    let numbered := eas.zip (List.range 64)
    if s.reversed then
      if s.anyDiff eas then
        withVregs s [] [v] fun s => checked s fun s =>
          popRecord s 17 576 (vectorKeyOf (vectorRecord eas [])) vectorKeyOf fun s rec =>
            let locs := s.diffCells eas ++ eas.flatMap fun ea => (s.cellElems ea).flatMap fun e => shadowLocs e.1
            withPlaces s true .plain locs fun s => fin (vecRestore s v rec numbered.reverse)
      else checked s fin
    else
      withVregs s [v] [] fun s => checked s fun s =>
        withCells s true .plain s.ownExt eas fun s =>
          let w := vecWrite s (s.vreg v) numbered
          if s.anyDiff eas then
            pushRecord s (vectorRecord eas w.2) fun s => fin (vecWrite s (s.vreg v) numbered).1
          else fin w.1

def execVst (v a : RegNo) (i : Bool) (m : BitVec 2) (o : BitVec 8) (k : BitVec 4) (s : State) : Result :=
  runT s k fun s => vecStore s (vecForm false i m) v a o

/-! ## Address-register arithmetic (R160) -/

/-- a[d] := v. -/
def addrResult (s : State) (k : BitVec 4) (d : RegNo) (f : State → W64) : Result :=
  runT s k fun s => .done (s.setAreg d (f s))

def execAaddi (d a : RegNo) (i : BitVec 8) (k : BitVec 4) (s : State) : Result :=
  addrResult s k d fun s => s.areg a + 8 * i.signExtend 64
def execAaddv (d a : RegNo) (i : BitVec 8) (k : BitVec 4) (s : State) : Result :=
  addrResult s k d fun s => s.areg a + 512 * i.signExtend 64
def execAadd (d a : RegNo) (b k : BitVec 4) (s : State) : Result :=
  addrResult s k d fun s => s.areg a + s.areg (b.setWidth 5)
def execAsub (d a : RegNo) (b k : BitVec 4) (s : State) : Result :=
  addrResult s k d fun s => s.areg a - s.areg (b.setWidth 5)
def execAslli (d a : RegNo) (n : BitVec 6) (k : BitVec 4) (s : State) : Result :=
  addrResult s k d fun s => s.areg a <<< n.toNat

/-! ## Major 0x37 (R276) -/

/-- DTSET: the tape registers of the issuing sequencer from two entries of its inbound queue. -/
def execDtset (k : BitVec 4) (s : State) : Result :=
  runT s k fun s =>
    if (s.me.inbound s.stream).length < 2 then .wait .stream 0
    else
      popScalar s fun s b => popScalar s fun s p =>
        .done ((s.modMySeq fun q => { q with dtb := b &&& dtbBits, dtp := p }).warnIf (decide (b &&& ~~~dtbBits ≠ 0)))
where
  /-- the BASE field -/
  dtbBits : W64 := 0x00FFFFFFFFFFFFC0

def execDpld (v a : RegNo) (o : BitVec 8) (k : BitVec 4) (s : State) : Result :=
  runT s k fun s => vecLoad s (vecForm false false 0) v a o false

/-- The gradients of 128 shadow-form cells into `v`; DGLDC then empties them. -/
def gradientLoad (s : State) (v a : RegNo) (n : BitVec 8) (clear : Bool) : Eff :=
  let base := (s.areg a).toInt
  let eas := (List.range 128).map fun (i : Nat) => base + 16 * (i : Int)
  let cells := eas.flatMap fun ea => [ea, ea + 8]
  let bad := eas.findSome? fun ea =>
    if ea % 16 ≠ 0 then some (0x04, evalOf ea) else s.pocketFault 8 [ea, ea + 8]
  match bad with
  | some (c, e) => .trap c e
  | none =>
    withVregs s [] [v] fun s =>
      withCells s clear .plain s.ownExt cells fun s =>
        let rs := eas.map fun ea => takeBytes n.toInt .fp32 (memBytes s.mem (s.placeOf ea) 16)
        let s1 := (s.setVreg v (packElems 4 (rs.map Prod.fst))).orStatus s.here s.stream
          (rs.foldl (fun a r => a ||| r.2) 0)
        .done (if clear then
          eas.foldl (fun s ea => s.putBytes (s.placeOf ea) (List.replicate 16 0)) s1 else s1)

def execDgld (v a : RegNo) (n : BitVec 8) (k : BitVec 4) (s : State) : Result :=
  runT s k fun s => gradientLoad s v a n false
def execDgldc (v a : RegNo) (n : BitVec 8) (k : BitVec 4) (s : State) : Result :=
  runT s k fun s => gradientLoad s v a n true

end Sys2Proof.Machine
end

