-- ==== Sys2Proof/Machine/Dispatch.lean ====
section
/-! DEFINITION. Which meaning each instruction has: one arm per constructor. -/

namespace Sys2Proof.Machine
open Sys2Proof

def exec (i : Instr) (s : State) : Host.Outcome State Fault Refusal :=
  match i with
  | .reset => Sys2Proof.Machine.execReset s
  | .add d a b => Sys2Proof.Machine.execAdd d a b s
  | .sub d a b => Sys2Proof.Machine.execSub d a b s
  | .and d a b => Sys2Proof.Machine.execAnd d a b s
  | .or d a b => Sys2Proof.Machine.execOr d a b s
  | .xor d a b => Sys2Proof.Machine.execXor d a b s
  | .andn d a b => Sys2Proof.Machine.execAndn d a b s
  | .sll d a b => Sys2Proof.Machine.execSll d a b s
  | .srl d a b => Sys2Proof.Machine.execSrl d a b s
  | .sra d a b => Sys2Proof.Machine.execSra d a b s
  | .min d a b => Sys2Proof.Machine.execMin d a b s
  | .max d a b => Sys2Proof.Machine.execMax d a b s
  | .minu d a b => Sys2Proof.Machine.execMinu d a b s
  | .maxu d a b => Sys2Proof.Machine.execMaxu d a b s
  | .clz d a => Sys2Proof.Machine.execClz d a s
  | .ctz d a => Sys2Proof.Machine.execCtz d a s
  | .pop d a => Sys2Proof.Machine.execPop d a s
  | .mul d a b => Sys2Proof.Machine.execMul d a b s
  | .mulh d a b => Sys2Proof.Machine.execMulh d a b s
  | .mulhu d a b => Sys2Proof.Machine.execMulhu d a b s
  | .div d a b => Sys2Proof.Machine.execDiv d a b s
  | .divu d a b => Sys2Proof.Machine.execDivu d a b s
  | .rem d a b => Sys2Proof.Machine.execRem d a b s
  | .remu d a b => Sys2Proof.Machine.execRemu d a b s
  | .seq d a b => Sys2Proof.Machine.execSeq d a b s
  | .sne d a b => Sys2Proof.Machine.execSne d a b s
  | .slt d a b => Sys2Proof.Machine.execSlt d a b s
  | .sltu d a b => Sys2Proof.Machine.execSltu d a b s
  | .sel d a b m => Sys2Proof.Machine.execSel d a b m s
  | .addi d a n => Sys2Proof.Machine.execAddi d a n s
  | .andi d a n => Sys2Proof.Machine.execAndi d a n s
  | .ori d a n => Sys2Proof.Machine.execOri d a n s
  | .xori d a n => Sys2Proof.Machine.execXori d a n s
  | .slli d a p => Sys2Proof.Machine.execSlli d a p s
  | .srli d a p => Sys2Proof.Machine.execSrli d a p s
  | .srai d a p => Sys2Proof.Machine.execSrai d a p s
  | .extu d a p w => Sys2Proof.Machine.execExtu d a p w s
  | .exts d a p w => Sys2Proof.Machine.execExts d a p w s
  | .ins d a p w => Sys2Proof.Machine.execIns d a p w s
  | .movz d h n => Sys2Proof.Machine.execMovz d h n s
  | .movk d h n => Sys2Proof.Machine.execMovk d h n s
  | .ldb v a o => Sys2Proof.Machine.execLdb v a o s
  | .ldh v a o => Sys2Proof.Machine.execLdh v a o s
  | .ldw v a o => Sys2Proof.Machine.execLdw v a o s
  | .ldd v a o sx => Sys2Proof.Machine.execLdd v a o sx s
  | .ldbs v a o => Sys2Proof.Machine.execLdbs v a o s
  | .ldhs v a o => Sys2Proof.Machine.execLdhs v a o s
  | .ldws v a o => Sys2Proof.Machine.execLdws v a o s
  | .stb v a o => Sys2Proof.Machine.execStb v a o s
  | .sth v a o => Sys2Proof.Machine.execSth v a o s
  | .stw v a o => Sys2Proof.Machine.execStw v a o s
  | .std v a o => Sys2Proof.Machine.execStd v a o s
  | .beq a b o => Sys2Proof.Machine.execBeq a b o s
  | .bne a b o => Sys2Proof.Machine.execBne a b o s
  | .blt a b o => Sys2Proof.Machine.execBlt a b o s
  | .bge a b o => Sys2Proof.Machine.execBge a b o s
  | .bltu a b o => Sys2Proof.Machine.execBltu a b o s
  | .bgeu a b o => Sys2Proof.Machine.execBgeu a b o s
  | .jmp o => Sys2Proof.Machine.execJmp o s
  | .call o => Sys2Proof.Machine.execCall o s
  | .jr a => Sys2Proof.Machine.execJr a s
  | .callr a => Sys2Proof.Machine.execCallr a s
  | .ret => Sys2Proof.Machine.execRet s
  | .loop l g f a o => Sys2Proof.Machine.execLoop l g f a o s
  | .endl l => Sys2Proof.Machine.execEndl l s
  | .endlX l => Sys2Proof.Machine.execEndlX l s
  | .skippedInstruction => Sys2Proof.Machine.execSkippedInstruction s
  | .mfsr d p => Sys2Proof.Machine.execMfsr d p s
  | .mtsr a p => Sys2Proof.Machine.execMtsr a p s
  | .mxsr d a p => Sys2Proof.Machine.execMxsr d a p s
  | .nop => Sys2Proof.Machine.execNop s
  | .hint h => Sys2Proof.Machine.execHint h s
  | .qpush a q => Sys2Proof.Machine.execQpush a q s
  | .qpop d => Sys2Proof.Machine.execQpop d s
  | .ccwait a c => Sys2Proof.Machine.execCcwait a c s
  | .adda d a n => Sys2Proof.Machine.execAdda d a n s
  | .vaddFloat t d a b r k => Sys2Proof.Machine.execVaddFloat t d a b r k s
  | .vsubFloat t d a b r k => Sys2Proof.Machine.execVsubFloat t d a b r k s
  | .vmulFloat t d a b r k => Sys2Proof.Machine.execVmulFloat t d a b r k s
  | .vdivFloat t d a b r k => Sys2Proof.Machine.execVdivFloat t d a b r k s
  | .vminFloat t d a b r k => Sys2Proof.Machine.execVminFloat t d a b r k s
  | .vmaxFloat t d a b r k => Sys2Proof.Machine.execVmaxFloat t d a b r k s
  | .vcpys t d a b r k => Sys2Proof.Machine.execVcpys t d a b r k s
  | .vfma t d a b r k => Sys2Proof.Machine.execVfma t d a b r k s
  | .vfms t d a b r k => Sys2Proof.Machine.execVfms t d a b r k s
  | .vfnma t d a b r k => Sys2Proof.Machine.execVfnma t d a b r k s
  | .vfnms t d a b r k => Sys2Proof.Machine.execVfnms t d a b r k s
  | .vabs d a t r k => Sys2Proof.Machine.execVabs d a t r k s
  | .vneg d a t r k => Sys2Proof.Machine.execVneg d a t r k s
  | .vsqrt d a t r k => Sys2Proof.Machine.execVsqrt d a t r k s
  | .vrint d a t r k => Sys2Proof.Machine.execVrint d a t r k s
  | .vrcpe d a t r k => Sys2Proof.Machine.execVrcpe d a t r k s
  | .vrsqe d a t r k => Sys2Proof.Machine.execVrsqe d a t r k s
  | .vex2e d a t r k => Sys2Proof.Machine.execVex2e d a t r k s
  | .vlg2e d a t r k => Sys2Proof.Machine.execVlg2e d a t r k s
  | .vceqFloat t a b r k => Sys2Proof.Machine.execVceqFloat t a b r k s
  | .vcneFloat t a b r k => Sys2Proof.Machine.execVcneFloat t a b r k s
  | .vcltFloat t a b r k => Sys2Proof.Machine.execVcltFloat t a b r k s
  | .vcleFloat t a b r k => Sys2Proof.Machine.execVcleFloat t a b r k s
  | .vcun t a b r k => Sys2Proof.Machine.execVcun t a b r k s
  | .vaddInt d a b e k => Sys2Proof.Machine.execVaddInt d a b e k s
  | .vsubInt d a b e k => Sys2Proof.Machine.execVsubInt d a b e k s
  | .vmulInt d a b e k => Sys2Proof.Machine.execVmulInt d a b e k s
  | .vmulh d a b e k => Sys2Proof.Machine.execVmulh d a b e k s
  | .vadds d a b e k => Sys2Proof.Machine.execVadds d a b e k s
  | .vsubs d a b e k => Sys2Proof.Machine.execVsubs d a b e k s
  | .vminInt d a b e k => Sys2Proof.Machine.execVminInt d a b e k s
  | .vmaxInt d a b e k => Sys2Proof.Machine.execVmaxInt d a b e k s
  | .vabsd d a b e k => Sys2Proof.Machine.execVabsd d a b e k s
  | .vdivInt d a b e k => Sys2Proof.Machine.execVdivInt d a b e k s
  | .vrem d a b e k => Sys2Proof.Machine.execVrem d a b e k s
  | .vceqInt a b e k => Sys2Proof.Machine.execVceqInt a b e k s
  | .vcneInt a b e k => Sys2Proof.Machine.execVcneInt a b e k s
  | .vcltInt a b e k => Sys2Proof.Machine.execVcltInt a b e k s
  | .vcleInt a b e k => Sys2Proof.Machine.execVcleInt a b e k s
  | .vand d a b e k => Sys2Proof.Machine.execVand d a b e k s
  | .vor d a b e k => Sys2Proof.Machine.execVor d a b e k s
  | .vxor d a b e k => Sys2Proof.Machine.execVxor d a b e k s
  | .vandn d a b e k => Sys2Proof.Machine.execVandn d a b e k s
  | .vnot d a e k => Sys2Proof.Machine.execVnot d a e k s
  | .vsll d a b e k => Sys2Proof.Machine.execVsll d a b e k s
  | .vsrl d a b e k => Sys2Proof.Machine.execVsrl d a b e k s
  | .vsra d a b e k => Sys2Proof.Machine.execVsra d a b e k s
  | .vaddiI32 d a n k => Sys2Proof.Machine.execVaddiI32 d a n k s
  | .vaddiI16 d a n k => Sys2Proof.Machine.execVaddiI16 d a n k s
  | .vaddiI8 d a n k => Sys2Proof.Machine.execVaddiI8 d a n k s
  | .vslli32 d a n k => Sys2Proof.Machine.execVslli32 d a n k s
  | .vsrli32 d a n k => Sys2Proof.Machine.execVsrli32 d a n k s
  | .vsrai32 d a n k => Sys2Proof.Machine.execVsrai32 d a n k s
  | .vslli16 d a n k => Sys2Proof.Machine.execVslli16 d a n k s
  | .vsrli16 d a n k => Sys2Proof.Machine.execVsrli16 d a n k s
  | .vsrai16 d a n k => Sys2Proof.Machine.execVsrai16 d a n k s
  | .vmovi32 d n k => Sys2Proof.Machine.execVmovi32 d n k s
  | .vfmoviF32 d n k => Sys2Proof.Machine.execVfmoviF32 d n k s
  | .vsplat32 d a n k => Sys2Proof.Machine.execVsplat32 d a n k s
  | .vsldn32 d a n k => Sys2Proof.Machine.execVsldn32 d a n k s
  | .vslup32 d a n k => Sys2Proof.Machine.execVslup32 d a n k s
  | .vcvt d a sf p r f k => Sys2Proof.Machine.execVcvt d a sf p r f k s
  | .vpacks d a b e k => Sys2Proof.Machine.execVpacks d a b e k s
  | .vpackt d a b e k => Sys2Proof.Machine.execVpackt d a b e k s
  | .vunpkl d a e k => Sys2Proof.Machine.execVunpkl d a e k s
  | .vunpkh d a e k => Sys2Proof.Machine.execVunpkh d a e k s
  | .vunsp d a k => Sys2Proof.Machine.execVunsp d a k s
  | .vperm d a b w k => Sys2Proof.Machine.execVperm d a b w k s
  | .vperm2 d a b w k => Sys2Proof.Machine.execVperm2 d a b w k s
  | .vbcq d w k => Sys2Proof.Machine.execVbcq d w k s
  | .vzipl d a b w k => Sys2Proof.Machine.execVzipl d a b w k s
  | .vziph d a b w k => Sys2Proof.Machine.execVziph d a b w k s
  | .vuzpe d a b w k => Sys2Proof.Machine.execVuzpe d a b w k s
  | .vuzpo d a b w k => Sys2Proof.Machine.execVuzpo d a b w k s
  | .vrev d a w k => Sys2Proof.Machine.execVrev d a w k s
  | .vsel d a b w k => Sys2Proof.Machine.execVsel d a b w k s
  | .mpushr a k => Sys2Proof.Machine.execMpushr a k s
  | .msave d k => Sys2Proof.Machine.execMsave d k s
  | .minv w k => Sys2Proof.Machine.execMinv w k s
  | .mpop k => Sys2Proof.Machine.execMpop k s
  | .mclr k => Sys2Proof.Machine.execMclr k s
  | .vrsum d a t k => Sys2Proof.Machine.execVrsum d a t k s
  | .vrssq d a t k => Sys2Proof.Machine.execVrssq d a t k s
  | .vrdot d a b t k => Sys2Proof.Machine.execVrdot d a b t k s
  | .vrsuma d a b t k => Sys2Proof.Machine.execVrsuma d a b t k s
  | .vscan d a t k => Sys2Proof.Machine.execVscan d a t k s
  | .vscnx d a t k => Sys2Proof.Machine.execVscnx d a t k s
  | .vrmax d a t k => Sys2Proof.Machine.execVrmax d a t k s
  | .vrmin d a t k => Sys2Proof.Machine.execVrmin d a t k s
  | .vamax a t k => Sys2Proof.Machine.execVamax a t k s
  | .vdscale k => Sys2Proof.Machine.execVdscale k s
  | .shrm n k => Sys2Proof.Machine.execShrm n k s
  | .shft l b k => Sys2Proof.Machine.execShft l b k s
  | .shpop k => Sys2Proof.Machine.execShpop k s
  | .mrd v l t r k => Sys2Proof.Machine.execMrd v l t r k s
  | .mrdc v l t r k => Sys2Proof.Machine.execMrdc v l t r k s
  | .mrdr v l t r k => Sys2Proof.Machine.execMrdr v l t r k s
  | .qpopvX v k => Sys2Proof.Machine.execQpopvX v k s
  | .qpushvX v k => Sys2Proof.Machine.execQpushvX v k s
  | .sloopX f o l k => Sys2Proof.Machine.execSloopX f o l k s
  | .sendlX l k => Sys2Proof.Machine.execSendlX l k s
  | .sendlExitX l k => Sys2Proof.Machine.execSendlExitX l k s
  | .qdropX n k => Sys2Proof.Machine.execQdropX n k s
  | .tnopX k => Sys2Proof.Machine.execTnopX k s
  | .vld v a x n m o k => Sys2Proof.Machine.execVld v a x n m o k s
  | .vst v a n m o k => Sys2Proof.Machine.execVst v a n m o k s
  | .qpopa d k => Sys2Proof.Machine.execQpopa d k s
  | .qpusha a k => Sys2Proof.Machine.execQpusha a k s
  | .qpushvL v k => Sys2Proof.Machine.execQpushvL v k s
  | .qpopvS v k => Sys2Proof.Machine.execQpopvS v k s
  | .sloopLs l g f o k => Sys2Proof.Machine.execSloopLs l g f o k s
  | .sendlLs l k => Sys2Proof.Machine.execSendlLs l k s
  | .sendlExitLs l k => Sys2Proof.Machine.execSendlExitLs l k s
  | .ccwaitLs c n k => Sys2Proof.Machine.execCcwaitLs c n k s
  | .qdropLs n k => Sys2Proof.Machine.execQdropLs n k s
  | .tnopLs k => Sys2Proof.Machine.execTnopLs k s
  | .tmov m t c q a r sf k => Sys2Proof.Machine.execTmov m t c q a r sf k s
  | .tgath m t c q a r sf k => Sys2Proof.Machine.execTgath m t c q a r sf k s
  | .tscat m t c q a r sf k => Sys2Proof.Machine.execTscat m t c q a r sf k s
  | .tfill m t c q a r sf k => Sys2Proof.Machine.execTfill m t c q a r sf k s
  | .tmovf m t c q a r sf k => Sys2Proof.Machine.execTmovf m t c q a r sf k s
  | .aaddi d a n k => Sys2Proof.Machine.execAaddi d a n k s
  | .aaddv d a n k => Sys2Proof.Machine.execAaddv d a n k s
  | .aadd d a b k => Sys2Proof.Machine.execAadd d a b k s
  | .asub d a b k => Sys2Proof.Machine.execAsub d a b k s
  | .aslli d a n k => Sys2Proof.Machine.execAslli d a n k s
  | .dtset k => Sys2Proof.Machine.execDtset k s
  | .dpld v a o k => Sys2Proof.Machine.execDpld v a o k s
  | .dgld v a n k => Sys2Proof.Machine.execDgld v a n k s
  | .dgldc v a n k => Sys2Proof.Machine.execDgldc v a n k s
  | .mzero h tm anc as fx lv => Sys2Proof.Machine.execMzero h tm anc as fx lv s
  | .mma h t fx lv snp ta tb mca mcb tri sn sd ss sb sa => Sys2Proof.Machine.execMma h t fx lv snp ta tb mca mcb tri sn sd ss sb sa s
  | .mbias h t fx lv snp sn sd sa => Sys2Proof.Machine.execMbias h t fx lv snp sn sd sa s
  | .maddt h td ts cs => Sys2Proof.Machine.execMaddt h td ts cs s
  | .mout h t fx lv snp cap clr tr row0 nr sn ss sa => Sys2Proof.Machine.execMout h t fx lv snp cap clr tr row0 nr sn ss sa s
  | .moutr h t clr tr row0 nr ss sa => Sys2Proof.Machine.execMoutr h t clr tr row0 nr ss sa s
  | .mldr h t tr row0 nr ss sa => Sys2Proof.Machine.execMldr h t tr row0 nr ss sa s
  | .mnop h => Sys2Proof.Machine.execMnop h s
  | .msnap h fx lv sa => Sys2Proof.Machine.execMsnap h fx lv sa s
  | .matrixCommandStart sh id => Sys2Proof.Machine.execMatrixCommandStart sh id s
  | .matrixCommandComplete sh id => Sys2Proof.Machine.execMatrixCommandComplete sh id s
  | .tcmov h tq dsc => Sys2Proof.Machine.execTcmov h tq dsc s
  | .tcgath h dsc => Sys2Proof.Machine.execTcgath h dsc s
  | .tcscat h dsc => Sys2Proof.Machine.execTcscat h dsc s
  | .tcfill h dsc => Sys2Proof.Machine.execTcfill h dsc s
  | .tcmovf h dsc => Sys2Proof.Machine.execTcmovf h dsc s
  | .tileMoveRun sh id => Sys2Proof.Machine.execTileMoveRun sh id s
  | .moveResidencyResume sh id => Sys2Proof.Machine.execMoveResidencyResume sh id s
  | .tileMoveComplete sh id => Sys2Proof.Machine.execTileMoveComplete sh id s
  | .car h cm op fx lv sc sb sa => Sys2Proof.Machine.execCar h cm op fx lv sc sb sa s
  | .crs h cm op fx lv sc sb sa => Sys2Proof.Machine.execCrs h cm op fx lv sc sb sa s
  | .cag h cm sc sb sa => Sys2Proof.Machine.execCag h cm sc sb sa s
  | .cbc h cm rt sc sb sa => Sys2Proof.Machine.execCbc h cm rt sc sb sa s
  | .cred h cm op fx lv rt sc sb sa => Sys2Proof.Machine.execCred h cm op fx lv rt sc sb sa s
  | .ca2a h cm sc sb sa => Sys2Proof.Machine.execCa2a h cm sc sb sa s
  | .cbar h cm => Sys2Proof.Machine.execCbar h cm s
  | .heddleChunkBegin turn => Sys2Proof.Machine.execHeddleChunkBegin turn s
  | .chunkArrival c => Sys2Proof.Machine.execChunkArrival c s
  | .collectiveComplete sh id => Sys2Proof.Machine.execCollectiveComplete sh id s
  | .faultNoticeArrival tag cm j => Sys2Proof.Machine.execFaultNoticeArrival tag cm j s
  | .switchLimitExpiry sh id => Sys2Proof.Machine.execSwitchLimitExpiry sh id s
  | .rinv h y x => Sys2Proof.Machine.execRinv h y x s
  | .rinvx h x => Sys2Proof.Machine.execRinvx h x s
  | .rinva h => Sys2Proof.Machine.execRinva h s
  | .rsplit h z y x => Sys2Proof.Machine.execRsplit h z y x s
  | .rmerge h y x => Sys2Proof.Machine.execRmerge h y x s
  | .rpress h y x => Sys2Proof.Machine.execRpress h y x s
  | .rres h z y x => Sys2Proof.Machine.execRres h z y x s
  | .rgena h x => Sys2Proof.Machine.execRgena h x s
  | .rangeCommandRun sh id => Sys2Proof.Machine.execRangeCommandRun sh id s
  | .pressBlockCopy => Sys2Proof.Machine.execPressBlockCopy s
  | .invalidationComplete id => Sys2Proof.Machine.execInvalidationComplete id s
  | .tend k => Sys2Proof.Machine.execTend k s
  | .ginfo d g => Sys2Proof.Machine.execGinfo d g s
  | .torder l => Sys2Proof.Machine.execTorder l s
  | .ldf d a l => Sys2Proof.Machine.execLdf d a l s
  | .ldfe d a l => Sys2Proof.Machine.execLdfe d a l s
  | .stef d a l => Sys2Proof.Machine.execStef d a l s
  | .feset a => Sys2Proof.Machine.execFeset a s
  | .feclr a => Sys2Proof.Machine.execFeclr a s
  | .vldfe v a l k => Sys2Proof.Machine.execVldfe v a l k s
  | .vstef v a l k => Sys2Proof.Machine.execVstef v a l k s
  | .bararr b l => Sys2Proof.Machine.execBararr b l s
  | .barpost b a l => Sys2Proof.Machine.execBarpost b a l s
  | .barsync b l => Sys2Proof.Machine.execBarsync b l s
  | .barwait b l k => Sys2Proof.Machine.execBarwait b l k s
  | .semsig sf k => Sys2Proof.Machine.execSemsig sf k s
  | .semwait sf l k => Sys2Proof.Machine.execSemwait sf l k s
  | .waitLimitExpiry sh st => Sys2Proof.Machine.execWaitLimitExpiry sh st s
  | .lds d a c => Sys2Proof.Machine.execLds d a c s
  | .ldsAcq d a c => Sys2Proof.Machine.execLdsAcq d a c s
  | .sts d a c => Sys2Proof.Machine.execSts d a c s
  | .stsRel d a c => Sys2Proof.Machine.execStsRel d a c s
  | .acq c k => Sys2Proof.Machine.execAcq c k s
  | .rel c k => Sys2Proof.Machine.execRel c k s
  | .mark m => Sys2Proof.Machine.execMark m s
  | .join l c => Sys2Proof.Machine.execJoin l c s
  | .fence l c => Sys2Proof.Machine.execFence l c s
  | .atom d a o c => Sys2Proof.Machine.execAtom d a o c s
  | .atomRel d a o c => Sys2Proof.Machine.execAtomRel d a o c s
  | .vatom v a o c k => Sys2Proof.Machine.execVatom v a o c k s
  | .vatomRel v a o c k => Sys2Proof.Machine.execVatomRel v a o c k s
  | .cldecl d a c => Sys2Proof.Machine.execCldecl d a c s
  | .cladd d a o => Sys2Proof.Machine.execCladd d a o s
  | .oatom d a o l => Sys2Proof.Machine.execOatom d a o l s
  | .bankUpdate sh id => Sys2Proof.Machine.execBankUpdate sh id s
  | .clFlagFill panel line => Sys2Proof.Machine.execClFlagFill panel line s
  | .brk k => Sys2Proof.Machine.execBrk k s
  | .mcall n m => Sys2Proof.Machine.execMcall n m s
  | .tret => Sys2Proof.Machine.execTret s
  | .ckmark a => Sys2Proof.Machine.execCkmark a s
  | .abtok a => Sys2Proof.Machine.execAbtok a s
  | .dfwd k => Sys2Proof.Machine.execDfwd k s
  | .drev k => Sys2Proof.Machine.execDrev k s
  | .streamDeadlock sh => Sys2Proof.Machine.execStreamDeadlock sh s
  | .asyncFaultTake sh => Sys2Proof.Machine.execAsyncFaultTake sh s
  | .trapRoute sh tid => Sys2Proof.Machine.execTrapRoute sh tid s
  | .taskStart tid pl sbase bbase => Sys2Proof.Machine.execTaskStart tid pl sbase bbase s
  | .taskCommit tid => Sys2Proof.Machine.execTaskCommit tid s
  | .dualSignatureCompare tid => Sys2Proof.Machine.execDualSignatureCompare tid s
  | .dobbyStep lid tid => Sys2Proof.Machine.execDobbyStep lid tid s
  | .punchRefine c => Sys2Proof.Machine.execPunchRefine c s
  | .cardCopy tag c => Sys2Proof.Machine.execCardCopy tag c s
  | .stopMessage tag hash ordinal => Sys2Proof.Machine.execStopMessage tag hash ordinal s
  | .abortTokenMessage tag reason pkid => Sys2Proof.Machine.execAbortTokenMessage tag reason pkid s
  | .lstepMessage tag step => Sys2Proof.Machine.execLstepMessage tag step s
  | .remoteAccessMessage m => Sys2Proof.Machine.execRemoteAccessMessage m s
  | .remoteAckMessage peer number reply => Sys2Proof.Machine.execRemoteAckMessage peer number reply s
  | .linkFailure link => Sys2Proof.Machine.execLinkFailure link s
  | .checkFailure f => Sys2Proof.Machine.execCheckFailure f s
  | .operatingPointChange point mhz => Sys2Proof.Machine.execOperatingPointChange point mhz s
  | .launch q p => Sys2Proof.Machine.execLaunch q p s
  | .resume q p => Sys2Proof.Machine.execResume q p s
  | .fencePacket q p => Sys2Proof.Machine.execFencePacket q p s
  | .fencePacketMet q id => Sys2Proof.Machine.execFencePacketMet q id s
  | .fenceExpiry q id => Sys2Proof.Machine.execFenceExpiry q id s
  | .ibPacket q p => Sys2Proof.Machine.execIbPacket q p s
  | .predPacket q p => Sys2Proof.Machine.execPredPacket q p s
  | .loopPacket q p => Sys2Proof.Machine.execLoopPacket q p s
  | .ffence q p => Sys2Proof.Machine.execFfence q p s
  | .ffenceComplete q => Sys2Proof.Machine.execFfenceComplete q s
  | .hintPacket q p => Sys2Proof.Machine.execHintPacket q p s
  | .treadlePacket q p => Sys2Proof.Machine.execTreadlePacket q p s
  | .nopPacket q p => Sys2Proof.Machine.execNopPacket q p s
  | .packetFetch q => Sys2Proof.Machine.execPacketFetch q s
  | .packetComplete q id => Sys2Proof.Machine.execPacketComplete q id s
  | .ageingStep q => Sys2Proof.Machine.execAgeingStep q s
  | .treadleBudgetExpiry q => Sys2Proof.Machine.execTreadleBudgetExpiry q s
  | .treadleLi d n => Sys2Proof.Machine.execTreadleLi d n s
  | .treadleShori d n => Sys2Proof.Machine.execTreadleShori d n s
  | .treadleAdd d a b => Sys2Proof.Machine.execTreadleAdd d a b s
  | .treadleSub d a b => Sys2Proof.Machine.execTreadleSub d a b s
  | .treadleAnd d a b => Sys2Proof.Machine.execTreadleAnd d a b s
  | .treadleOr d a b => Sys2Proof.Machine.execTreadleOr d a b s
  | .treadleXor d a b => Sys2Proof.Machine.execTreadleXor d a b s
  | .treadleShl d a b => Sys2Proof.Machine.execTreadleShl d a b s
  | .treadleShr d a b => Sys2Proof.Machine.execTreadleShr d a b s
  | .treadleAddi d a n => Sys2Proof.Machine.execTreadleAddi d a n s
  | .treadleLd d a n => Sys2Proof.Machine.execTreadleLd d a n s
  | .treadleSt d a n => Sys2Proof.Machine.execTreadleSt d a n s
  | .treadleBeq a b n => Sys2Proof.Machine.execTreadleBeq a b n s
  | .treadleBne a b n => Sys2Proof.Machine.execTreadleBne a b n s
  | .treadleBltu a b n => Sys2Proof.Machine.execTreadleBltu a b n s
  | .treadleBgeu a b n => Sys2Proof.Machine.execTreadleBgeu a b n s
  | .treadleEmit a => Sys2Proof.Machine.execTreadleEmit a s
  | .treadleEnd => Sys2Proof.Machine.execTreadleEnd s
  | .kick q => Sys2Proof.Machine.execKick q s
  | .doorbellWrite q v => Sys2Proof.Machine.execDoorbellWrite q v s
  | .destroy q => Sys2Proof.Machine.execDestroy q s
  | .destroyComplete q => Sys2Proof.Machine.execDestroyComplete q s
  | .slotsWrite v => Sys2Proof.Machine.execSlotsWrite v s
  | .wakeRead => Sys2Proof.Machine.execWakeRead s
  | .tload v => Sys2Proof.Machine.execTload v s
  | .tloadVerifyComplete => Sys2Proof.Machine.execTloadVerifyComplete s
  | .tfree v => Sys2Proof.Machine.execTfree v s
  | .preq v => Sys2Proof.Machine.execPreq v s
  | .preemptComplete q => Sys2Proof.Machine.execPreemptComplete q s
  | .prel v => Sys2Proof.Machine.execPrel v s
  | .rreqRead => Sys2Proof.Machine.execRreqRead s
  | .rresume v => Sys2Proof.Machine.execRresume v s
  | .rgenreq v => Sys2Proof.Machine.execRgenreq v s
  | .rivctlGo => Sys2Proof.Machine.execRivctlGo s
  | .trcmdDeliver n => Sys2Proof.Machine.execTrcmdDeliver n s
  | .trcmdRetry n => Sys2Proof.Machine.execTrcmdRetry n s
  | .trcmdKill n => Sys2Proof.Machine.execTrcmdKill n s
  | .killComplete q => Sys2Proof.Machine.execKillComplete q s
  | .abtokRegister v => Sys2Proof.Machine.execAbtokRegister v s
  | .cflush => Sys2Proof.Machine.execCflush s
  | .mbcmdReport v => Sys2Proof.Machine.execMbcmdReport v s
  | .mbReportComplete => Sys2Proof.Machine.execMbReportComplete s
  | .cmcfgWrite cm v => Sys2Proof.Machine.execCmcfgWrite cm v s
  | .wpidxWrite port v => Sys2Proof.Machine.execWpidxWrite port v s
  | .weftFrameReceive port data => Sys2Proof.Machine.execWeftFrameReceive port data s
  | .registerWrite off v => Sys2Proof.Machine.execRegisterWrite off v s
  | .warpLinkEntersService l => Sys2Proof.Machine.execWarpLinkEntersService l s
  | .weftPortLinkChange port up => Sys2Proof.Machine.execWeftPortLinkChange port up s
  | .weftTransmitDone port => Sys2Proof.Machine.execWeftTransmitDone port s
  | .gangMemberLeavesService peer => Sys2Proof.Machine.execGangMemberLeavesService peer s
  | .coreOrPcieStore act data => Sys2Proof.Machine.execCoreOrPcieStore act data s
  | .abortTokenComplete => Sys2Proof.Machine.execAbortTokenComplete s

end Sys2Proof.Machine
end

