-- ==== Sys2Proof/Machine/Reads.lean ====
section
/-! DEFINITION. The scalar and address registers that an instruction reads, for the trap of a register that holds an
uncorrectable error (R370). -/

namespace Sys2Proof.Machine
open Sys2Proof

/-- The scalar registers that an instruction of C reads. -/
def scalarReads : Instr → List RegNo
  | .add _ a b | .sub _ a b | .and _ a b | .or _ a b | .xor _ a b | .andn _ a b | .sll _ a b | .srl _ a b | .sra _ a b
  | .min _ a b | .max _ a b | .minu _ a b | .maxu _ a b | .mul _ a b | .mulh _ a b | .mulhu _ a b | .div _ a b
  | .divu _ a b | .rem _ a b | .remu _ a b | .seq _ a b | .sne _ a b | .slt _ a b | .sltu _ a b => [a, b]
  | .beq a b _ | .bne a b _ | .blt a b _ | .bge a b _ | .bltu a b _ | .bgeu a b _ => [a, b]
  | .sel _ a b m => [a, b, m]
  | .clz _ a | .ctz _ a | .pop _ a | .jr a | .callr a | .ckmark a | .abtok a | .feset a | .feclr a => [a]
  | .addi _ a _ | .andi _ a _ | .ori _ a _ | .xori _ a _ | .adda _ a _ | .slli _ a _ | .srli _ a _ | .srai _ a _ => [a]
  | .extu _ a _ _ | .exts _ a _ _ => [a]
  | .ins d a _ _ => [d, a]
  | .movk d _ _ => [d]
  | .ldb _ a _ | .ldh _ a _ | .ldw _ a _ | .ldd _ a _ _ | .ldbs _ a _ | .ldhs _ a _ | .ldws _ a _ => [a]
  | .stb v a _ | .sth v a _ | .stw v a _ | .std v a _ => [v, a]
  | .loop _ _ _ a _ => [a]
  | .mtsr a _ | .mxsr _ a _ | .qpush a _ | .ccwait a _ | .barpost _ a _ => [a]
  | .ldf _ a _ | .ldfe _ a _ | .lds _ a _ | .ldsAcq _ a _ => [a]
  | .stef d a _ | .sts d a _ | .stsRel d a _ | .atom d a _ _ | .atomRel d a _ _ | .cladd d a _ => [d, a]
  | .cldecl d a _ | .oatom d a _ _ => [d, d ||| 1, a]
  | .mma _ _ _ _ snp _ _ _ _ _ sn sd ss sb sa => (if snp then [sn] else []) ++ [sd, ss, sb, sa]
  | .mbias _ _ _ _ snp sn sd sa => (if snp then [sn] else []) ++ [sd, sa]
  | .mout _ _ _ _ snp _ _ _ _ _ sn ss sa => (if snp then [sn] else []) ++ [ss, sa]
  | .moutr _ _ _ _ _ _ ss sa | .mldr _ _ _ _ _ ss sa => [ss, sa]
  | .msnap _ _ _ sa => [sa]
  | .car _ _ _ _ _ sc sb sa | .crs _ _ _ _ _ sc sb sa | .cag _ _ sc sb sa | .cbc _ _ _ sc sb sa | .cred _ _ _ _ _ _ sc sb sa
  | .ca2a _ _ sc sb sa => [sc, sb, sa]
  | .rinvx _ x | .rgena _ x => [x]
  | .rinv _ y x | .rmerge _ y x | .rpress _ y x => [y, x]
  | .rsplit _ z y x | .rres _ z y x => [z, y, x]
  | _ => []

/-- The address registers that an instruction of L or S reads; a strided access also reads the next one. -/
def addressReads : Instr → List RegNo
  | .vld _ a _ _ m _ _ | .vst _ a _ m _ _ => if m = 1 then [a, a + 1] else [a]
  | .dpld _ a _ _ | .dgld _ a _ _ | .dgldc _ a _ _ | .vldfe _ a _ _ | .vstef _ a _ _ | .qpusha a _ => [a]
  | .vatom _ a _ _ _ | .vatomRel _ a _ _ _ => [a]
  | .tmov _ t .. | .tgath _ t .. | .tscat _ t .. | .tfill _ t .. | .tmovf _ t .. => [t]
  | .aadd _ a b _ | .asub _ a b _ => [a, b.setWidth 5]
  | .aaddi _ a _ _ | .aaddv _ a _ _ | .aslli _ a _ _ => [a]
  | _ => []

/-- The marked scalar or address register that an instruction at its issue would read, as eval of cause 0x32 has it. -/
def State.badRead (s : State) (i : Instr) : Option Nat :=
  s.me.damaged s.stream (((scalarReads i).filter (· ≠ 0)).map (fun r => damage 0 r.toNat) ++
    (addressReads i).map fun r => damage 1 r.toNat)

end Sys2Proof.Machine
end

