-- ==== Sys2Proof/Machine/Fetch.lean ====
section
/-! DEFINITION. Fetching: which instruction the agent executes whose turn it is, from the code sections, the queues and the
Treadle programs (R18 to R23, R26, R39, R72, R77, R314, R324, R358). -/

namespace Sys2Proof.Machine
open Sys2Proof

noncomputable section

/-- What a turn comes to. -/
inductive Due where
  /-- an instruction executes -/
  | instr (i : Instr) (s : State)
  /-- C's boundary with an asynchronous fault pending: the fault is taken unless the instruction traps (R355, R358) -/
  | boundary (i : Instr) (s : State)
  /-- no instruction executes; what the turn does is done -/
  | idle (s : State)
  /-- the turn names no event -/
  | odd

/-! ## Sequencers (R18 to R23, R26, R39) -/

/-- A fetch at byte offset `off` of a section: the word, or the cause of its trap (R18, R20). -/
def Section.fetch (c : Section) (off : Nat) : Except (BitVec 8) W32 :=
  if c.words.length ≤ off / 4 then .error 0x06
  else if c.bad.contains (off / 4) then .error 0x07
  else .ok (c.words.getD (off / 4) 0)

/-- The fetch of `n` step words from `off` on, or the first in address order that fails, with its offset (R40, assumption
log 95). -/
def Section.fetchSteps (c : Section) : Nat → Nat → Except (BitVec 8 × Nat) (List W32)
  | 0, _ => .ok []
  | n + 1, off =>
    match c.fetch off with
    | .error k => .error (k, off)
    | .ok w =>
      match c.fetchSteps n (off + 4) with
      | .error e => .error e
      | .ok ws => .ok (w :: ws)

/-- The instruction at the issuing sequencer's pc, or the trap of its fetch or decoding: cause and eval. A header passes every
test of R39 before its step words are fetched (R40). -/
def State.fetchInstr (s : State) : Except (BitVec 8 × W64) Instr :=
  let sec := s.fetchSection
  let pc := s.pc.toNat
  match sec.fetch pc with
  | .error k => .error (k, BitVec.ofNat 64 pc)
  | .ok w =>
    match decodeRow s.stream w with
    | .error .illegal => .error (0x01, w.setWidth 64)
    | .error .wrongStream => .error (0x02, w.setWidth 64)
    | .ok r =>
      if r.monitorOnly && s.taskMode then .error (0x03, w.setWidth 64)
      else
        match sec.fetchSteps r.steps (pc + 4) with
        | .error e => .error (e.1, BitVec.ofNat 64 e.2)
        | .ok ws =>
          match r.instr w ws with
          | .error _ => .error (0x01, w.setWidth 64)
          | .ok i => .ok i

/-- An instruction that opens or closes a loop level, which no flag passes over (R72, R88). -/
def isLoopInstr : Instr → Bool
  | .loop .. => true
  | .endl .. => true
  | .endlX .. => true
  | .sloopX .. => true
  | .sendlX .. => true
  | .sendlExitX .. => true
  | .sloopLs .. => true
  | .sendlLs .. => true
  | .sendlExitLs .. => true
  | _ => false

/-- The stored word at pc is such an instruction. -/
def State.atLoopInstr (s : State) : Bool :=
  let w := s.curWord
  match decodeRow s.stream w with
  | .error _ => false
  | .ok r =>
    match r.instr w [] with
    | .error _ => false
    | .ok i => isLoopInstr i

/-- A flag of an open level passes over the instruction at pc (R72). -/
def State.flagged (s : State) : Bool := s.mySeq.loops.skips s.pc && !s.atLoopInstr

/-- A sequencer can issue: its shuttle is in service, it runs, no freeze holds it, and it does not wait for a stepped command, which
C does in task mode only (R361, R372). -/
def State.canIssue (s : State) (n : ShNo) (st : Stream) : Bool :=
  let x := s.shuttle n
  !s.outShuttles.contains n && !x.frozen && !x.stopped st && decide ((x.seq st).run = .running) &&
    ((decide (st = .c) && x.mon) || x.stepWaits.all fun w => decide (w.str ≠ st))

/-- The sequencer whose turn it is can issue. -/
def State.mayIssue (s : State) : Bool := s.canIssue s.here s.stream

/-- The oldest step trap that is due is taken at C's boundary (R361). -/
def State.takeStep (s : State) (w : StepWait) : State :=
  (s.modMe fun x => { x with stepWaits := x.stepWaits.filter fun v => decide (v ≠ w) }).deliverTrap s.here 0x2F 0
    (eauxOf false w.str 0 w.ipc) s.me.c.pc

/-- The turn of the sequencer at `cur`. At C's boundary in task mode a pending asynchronous fault is taken, unless what stands
there traps precisely (R355, R358). -/
def State.dueIssue (s : State) : Due :=
  let step := if decide (s.stream = .c) && s.taskMode && !s.me.frozen then s.me.stepWaits.find? (·.due) else none
  match step with
  | some w => .idle (s.takeStep w)
  | none =>
    if !s.mayIssue then .idle s
    else
      let fault := decide (s.stream = .c) && s.taskMode && !s.me.pending.isEmpty
      if s.flagged then (if fault then .instr (.asyncFaultTake s.here) s else .instr .skippedInstruction s)
      else
        match s.fetchInstr with
        | .ok i =>
          (match s.badRead i with
           | some c => .idle (s.takeTrap s.here s.stream 0x32 (BitVec.ofNat 64 c))
           | none => if fault then .boundary i s else .instr i s)
        | .error e => .idle (s.takeTrap s.here s.stream e.1 e.2)

/-- A fetch ahead has no effect but the health record of a fault that it meets (R19, R20, R359; assumption log 94). -/
def State.fetchAhead (s : State) (n : ShNo) (st : Stream) (off : W32) : State :=
  let x := s.shuttle n
  if (x.seq st).run ≠ .running then s
  else
    let sec := if st = .c then x.cSection x.ownMonitor else (x.seq st).code
    match sec.fetch off.toNat with
    | .ok _ => s
    | .error _ => s.healthRecord 1 n.toNat 4 1 (off.setWidth 64)

/-! ## Time and limited waits (R182) -/

/-- The first limited wait of the package whose count has reached its limit: its sequencer acts before the cycle ends. -/
def State.limitDue (s : State) : Option (ShNo × Stream) :=
  (List.range 256).findSome? fun i =>
    let n : ShNo := BitVec.ofNat 8 i
    [Stream.c, .l, .x, .s].findSome? fun st =>
      match ((s.shuttle n).seq st).stall with
      | some w => if w.over w.limit s.cycle && s.canIssue n st then some (n, st) else none
      | none => none

/-! ## The Creel and the Treadle -/

/-- The packet instruction of a type (R317). -/
def packetInstr (q : Nat) (p : Packet) : Option Instr :=
  match p.type with
  | 0x01 => some (.launch q p)
  | 0x02 => some (.resume q p)
  | 0x03 => some (.fencePacket q p)
  | 0x04 => some (.ibPacket q p)
  | 0x05 => some (.predPacket q p)
  | 0x06 => some (.loopPacket q p)
  | 0x07 => some (.ffence q p)
  | 0x08 => some (.hintPacket q p)
  | 0x09 => some (.treadlePacket q p)
  | 0x0A => some (.nopPacket q p)
  | _ => none

/-- The Creel's turn at queue `q`. -/
def State.dueCreel (s : State) (q : Nat) : Due :=
  match s.queueOf q with
  | none => .idle s
  | some x =>
    match s.peek x with
    | .packet p =>
      (match packetInstr q p with
       | some i => .instr i s
       | none => .idle (s.dispatchOdd q))
    | _ => .idle (s.dispatchOdd q)

/-- The turn of the Treadle run of queue `q`: its next word, or the end of its budget. -/
def State.dueTreadle (s : State) (q : Nat) : Due :=
  let s1 := { s with curQ := q }
  match s.runs.find? fun r => r.q = q with
  | none => .idle s
  | some r =>
    if r.budget = 0 then .instr (.treadleBudgetExpiry q) s1
    else
      match decodeTreadle (r.words.getD r.pc 0) with
      | some i => .instr i s1
      | none => .idle s

/-- An instruction that no agent fetches: an event. A skip is no event, since it belongs to a sequencer's turn. -/
def isEvent (i : Instr) : Bool := (encode i).isEmpty && decide (i ≠ .skippedInstruction)

/-- What an event's accesses are translated through: those of a tile move through its copy engine's table (R213). -/
def eventVia : Instr → Via
  | .tileMoveRun n _ | .moveResidencyResume n _ | .tileMoveComplete n _ => .engine n
  | _ => .walker

/-- The sequencer's turn: its accesses are translated through its shuttle's table (R213). -/
def State.turnOf (s : State) (p : ShNo × Stream) : Due := ({ s with cur := p, via := .shuttle p.1 } : State).dueIssue

/-- An event. The boundary at which a pending fault may be taken is C's turn there (R358). -/
def State.dueEvent (s : State) (i : Instr) : Due :=
  match i with
  | .asyncFaultTake n =>
    if (s.shuttle n).pending.isEmpty || (s.shuttle n).mon then .instr i (s.through (eventVia i)) else s.turnOf (n, .c)
  | i => .instr i (s.through (eventVia i))

/-- What is due: the first turn of the agenda, which it leaves, or the sequencer at `cur`. -/
def State.due (s : State) : Due :=
  match s.agenda with
  | [] => s.turnOf s.cur
  | t :: r =>
    let s1 : State := { s with agenda := r }
    match t with
    | .tick =>
      (match s.limitDue with
       | some p => s.turnOf p
       | none => .idle s1.passCycle)
    | .fetchAhead n st off => .idle (s1.fetchAhead n st off)
    | .matrixRow n id => .idle (s1.matrixRow n id)
    | .moveRow n id => .idle ((s1.through (.engine n)).moveRow n id)
    | .rltFill o va => .idle (s1.fillRlt o va)
    | .rltDrop o ix => .idle (s1.dropRlt o ix)
    | .issue n st => s1.turnOf (n, st)
    | .creel q => (s1.through .walker).dueCreel q
    | .treadle q => (s1.through .walker).dueTreadle q
    | .event i => if isEvent i then s1.dueEvent i else .odd

/-! ## Placing an instruction -/

/-- Words of a section from index `i` on. -/
def Section.place (c : Section) (i : Nat) (ws : List W32) : Section :=
  { words := (c.words ++ List.replicate (i - c.words.length) 0).take i ++ ws ++ c.words.drop (i + ws.length),
    bad := c.bad.filter fun k => decide (k < i) || decide (i + ws.length ≤ k) }

/-- The words stand at the pc of stream `st`, in the section that it fetches from, and nothing keeps it from issuing. -/
def Shuttle.place (x : Shuttle) (st : Stream) (ws : List W32) : Shuttle :=
  let q := x.seq st
  let i := q.pc.toNat / 4
  let mon := decide (st = .c) && (x.task.isNone || (x.mon && !x.ownMonitor))
  let y := if mon then { x with monSection := x.monSection.place i ws }
    else x.setSeq st { q with code := q.code.place i ws }
  let z := y.setSeq st { y.seq st with
    run := .running, loops := if q.loops.skips q.pc then { q.loops with depth := 0 } else q.loops }
  { z with frozen := false, sstp := if st = .c then z.sstp else 0, pending := if st = .c then [] else z.pending,
           stepWaits := [], marked := [] }

/-- A Treadle run of queue 0 whose next word is `w`. -/
def State.placeTreadle (s : State) (w : W32) : State :=
  let r := (s.runs.find? fun r => r.q = 0).getD
    { q := 0, pid := 0, handle := 0, words := [], pc := 0, regs := Vector.replicate 16 0, budget := 0, stores := [],
      emits := [] }
  let r1 := { r with words := (({ words := r.words, bad := [] } : Section).place r.pc [w]).words,
                     budget := if r.budget = 0 then 65535 else r.budget }
  { s with agenda := [.treadle 0], runs := r1 :: s.runs.filter fun r => decide (r.q ≠ 0) }

/-- The instruction of the opcode table's numbering, where the next step fetches: at the pc of the first of C, L, X and S of
the shuttle at `cur` whose decoder reads it, or in a Treadle run of queue 0. -/
def State.placeWord (s : State) (_nbits w : Nat) : State :=
  let ws := tableWords maxWords w
  match decodeAny ws allStreams with
  | some (st, _) => { s.modShuttle s.here (fun x => x.place st ws) with agenda := [], cur := (s.here, st) }
  | none =>
    match decodeTreadle (BitVec.ofNat 32 w) with
    | some _ => s.placeTreadle (BitVec.ofNat 32 w)
    | none => s

end

end Sys2Proof.Machine
end

