-- ==== Sys2Proof/Machine/Step.lean ====
section
/-! DEFINITION. One step of the package: the agent whose turn it is acts (R18 to R20, R39, R77, R358; assumption log 4). -/

namespace Sys2Proof.Machine
open Sys2Proof

noncomputable section

/-- What comes next is an instruction, or the state after a turn that executes none. -/
def Due.run : Due → Result
  | .instr i s => exec i s
  | .boundary i s =>
    match exec i s with
    | .next t => if t.trapped s.here then .next t else exec (.asyncFaultTake s.here) s
    | r => r
  | .idle s => .next s
  | .odd => .fault .notAnEvent

/-- One step: the first turn of the agenda, or the sequencer at `cur` when the agenda is empty. -/
def step (s : State) : Result := s.due.run

/-- `s` with the instruction stored where the next step fetches (assumption log 8). -/
def State.withFetchWord (s : State) (nbits w : Nat) : State := s.placeWord nbits w

end

end Sys2Proof.Machine
end

