-- ==== Sys2Proof/Safety.lean ====
section
/-! DEFINITION. What statements about the machine are said in: the invariant of a run, what of a state an instruction may be
seen to change, when an instruction issues and meets no unordered access, and its completion. -/

namespace Sys2Proof.Machine
open Sys2Proof

/-! ## The invariant of a run -/

/-- Memory keeps its canonical form. -/
def State.Ok (s : State) : Prop := Memory.wf s.mem = true

/-- What the part does not do: a turn of the agenda that names no event is the one fault, and nothing is refused. -/
def Safe (r : Result) : Prop := r = .fault .notAnEvent ∨ ∃ s, r = .next s

/-! ## What is seen of a state

The clocks and epochs by which the model finds races, waits that have ended, and the count of tries are left out; registers,
memory, queues, engines, tasks and everything else of the machine stay. -/

def Seq.visible (q : Seq) : Seq :=
  { q with know := Know.none, atAccess := Know.none, era := 0, stall := none, held := [], taken := none }

def QEntry.visible (e : QEntry) : QEntry := { e with know := Know.none }
def VEntry.visible (e : VEntry) : VEntry := { e with know := Know.none }
def Chan.visible (c : Chan) : Chan := { c with last := Know.none }
def Marks.visible (m : Marks) : Marks := { m with pops := m.pops.map fun p => (p.1, p.2.1, p.2.2.map fun _ => Know.none) }

def Shuttle.visible (x : Shuttle) : Shuttle :=
  { x with
    progress := 0, c := x.c.visible, l := x.l.visible, x := x.x.visible, s := x.s.visible,
    tLX := x.tLX.map fun _ => Know.none, tXS := x.tXS.map fun _ => Know.none, tSL := x.tSL.map fun _ => Know.none,
    crLX := x.crLX.map fun _ => Know.none, crXS := x.crXS.map fun _ => Know.none, crSL := x.crSL.map fun _ => Know.none,
    qCL := x.qCL.map QEntry.visible, qCX := x.qCX.map QEntry.visible, qCS := x.qCS.map QEntry.visible,
    qSC := x.qSC.map QEntry.visible, qLX := x.qLX.map VEntry.visible, qXS := x.qXS.map VEntry.visible,
    marks := x.marks.map Marks.visible, covered := Know.none,
    chanL := x.chanL.visible, chanX := x.chanX.visible, chanS := x.chanS.visible }

def State.visible (s : State) : State := { s with stamp := 0, tags := [], rels := [], sh := s.sh.map Shuttle.visible }

/-! ## Issue and completion of a sequencer's instruction -/

/-- No step trap follows the instruction (R361): the sequencer is in monitor mode, or its bit of dbgc is 0. -/
def Unstepped (s : State) : Prop := (s.taskMode && s.me.dbgc.getLsbD (stepBit s.stream)) = false

/-- Nothing that an instruction of the shuttle may read holds an uncorrectable error (R370). -/
def Unmarked (s : State) : Prop := s.me.marked = []

/-- The sequencer at `cur` can issue, and no step trap of C is due first (R39, R361). -/
def Issues (s : State) : Prop :=
  s.mayIssue = true ∧ (s.stream = .c → s.taskMode = true → ∀ w ∈ s.me.stepWaits, w.due = false)

/-- `s` at the turn of its sequencer: its accesses are translated through the shuttle's table (R213). -/
def State.turn (s : State) : State := s.through (.shuttle s.here)

/-- It is the turn of the control sequencer, unstepped. -/
def OnC (s : State) : Prop := s.stream = .c ∧ Unstepped s ∧ Unmarked s

/-- It is the turn of stream `st`, unstepped, the token conditions of the word's bits `k` hold, and none of its tokens is popped yet
(R82, R83). -/
def OnT (s : State) (st : Stream) (k : BitVec 4) : Prop :=
  s.stream = st ∧ Unstepped s ∧ Unmarked s ∧ s.me.tokensReady st k = true ∧ s.mySeq.taken = none

/-- What is left to do when the effect `e` stands and tokens are popped: tokens pushed (R82), pc moved (R26), and stopped
streams resumed by an instruction of C in task mode (R354). -/
def State.leftPopped (s e : State) (k : BitVec 4) (t : W32) : State :=
  let e1 := (e.modMe fun x => x.pushTokens s.stream k).setPc t
  if s.stream = .c ∧ s.taskMode then e1.modMe Shuttle.resumeStreams else e1

/-- The state that the instruction of the issuing sequencer leaves when its own effect on `s` is `e`, its token bits are `k`
and the sequencer goes on at `t`. -/
def State.left (s e : State) (k : BitVec 4) (t : W32) : State :=
  s.leftPopped (e.modMe fun x => x.popTokens s.stream k) k t

/-- `i` completes at `s`: exec answers a next state, in which everything is as the effect `e` leaves it. -/
def CompletesTo (i : Instr) (s e : State) (k : BitVec 4) (t : W32) : Prop :=
  ∃ u, exec i s = .next u ∧ u.visible = (s.left e k t).visible

/-- `i` of the control stream completes with effect `e`, and pc goes on by 4. -/
def Completes (i : Instr) (s e : State) : Prop := CompletesTo i s e 0 (s.pc + 4)

/-- `i` of L, X or S with token bits `k` completes with effect `e`, and pc goes on by 4. -/
def CompletesT (i : Instr) (k : BitVec 4) (s e : State) : Prop := CompletesTo i s e k (s.pc + 4)

/-- The same with an effect `e` that is said from the state after the pops. -/
def CompletesPopped (i : Instr) (k : BitVec 4) (s e : State) : Prop :=
  ∃ u, exec i s = .next u ∧ u.visible = (s.leftPopped e k (s.pc + 4)).visible

/-- `i` takes the trap `cause` precisely, with `eval`, and no other effect (R24, R355). -/
def Traps (i : Instr) (s : State) (cause : BitVec 8) (eval : W64) : Prop :=
  exec i s = .next (s.takeTrap s.here s.stream cause eval)

/-! ## Accesses (R236 to R238) -/

/-- The state in which an instruction with token bits `k` makes its accesses. -/
def State.popped (s : State) (k : BitVec 4) : State := s.modMe fun x => x.popTokens s.stream k

/-- The accesses of `op` are all made, none of them unordered with one on record, and `s1` is the state after them. -/
def Made (op : (State → Eff) → Eff) (s1 : State) : Prop := op .done = .done s1

/-- No access to the vector registers is unordered with those of an instruction that reads and writes these (R86, R87). -/
def State.vregsFree (s : State) (reads writes : List RegNo) : Prop := ∃ s1, Made (withVregs s reads writes) s1

/-- Nor an access to the cells at the addresses (R237). -/
def State.cellsFree (s : State) (write : Bool) (kind : AccKind) (ext : Ext) (eas : List Int) : Prop :=
  ∃ s1, Made (withCells s write kind ext eas) s1

/-- Nor one to each of them at a scope of its own. -/
def State.cellsFreeAt (s : State) (write : Bool) (kind : AccKind) (ext : Int → Ext) (eas : List Int) : Prop :=
  ∃ s1, Made (withCellsAt s write kind ext eas) s1

/-- Nor an access to Pocket locations. -/
def State.placesFree (s : State) (write : Bool) (kind : AccKind) (locs : List Nat) : Prop :=
  ∃ s1, Made (withPlaces s write kind locs) s1

/-- Nor an access to table entries (slot 15) and ring slots (R123). -/
def State.tableFree (s : State) (write : Bool) (kind : AccKind) (locs : List (Nat × Nat)) : Prop :=
  ∃ s1, Made (withTable s write kind locs) s1

/-! ## Shapes of instructions -/

/-- A masked vector instruction that is uniformly skipped changes nothing but WARN, which a fallback of its word, `fall`, sets
(R41); else element `j` of v[d], of `w` bytes, becomes `f j` where it is enabled and stays where not, and the flags of the enabled
elements are set in exst, with WARN also where a reserved value was settled (R78, R125 to R131). `ent` are the table entries it
reads. -/
def ElementwiseWith (fall : Bool) (i : Instr) (k : BitVec 4) (reads : List RegNo) (ent : List (Nat × Nat)) (d : RegNo) (w : Nat)
    (warn : Bool) (f : Nat → Nat × W64) (s : State) : Prop :=
  (s.me.uniformSkip = true → CompletesT i k s (s.warnIf fall)) ∧
  (s.me.uniformSkip = false →
    (∃ s1, Made (withVregs (s.popped k) reads [d]) s1 ∧ (ent ≠ [] → s1.tableFree false .plain ent)) →
    ∃ (v : VReg) (fl : W64),
      CompletesT i k s (((s.setVreg d v).orStatus s.here .x fl).warnIf (fall || warn || s.me.vl.2)) ∧
      (∀ j < 512 / w, velem v w j = if s.me.enabled w j then (f j).1 % 2 ^ (8 * w) else velem (s.vreg d) w j) ∧
      ∀ b : Nat, fl.getLsbD b = true ↔ ∃ j < 512 / w, s.me.enabled w j = true ∧ (f j).2.getLsbD b = true)

/-- The same of a word without a fallback of its own. -/
def Elementwise (i : Instr) (k : BitVec 4) (reads : List RegNo) (ent : List (Nat × Nat)) (d : RegNo) (w : Nat) (warn : Bool)
    (f : Nat → Nat × W64) (s : State) : Prop :=
  ElementwiseWith false i k reads ent d w warn f s

/-- A compare at width `w` pushes the mask of the enabled elements of which `f` holds, with their flags; with 16 masks on
the stack it takes the trap of cause 0x11 (R127, R137, R138). -/
def Compares (i : Instr) (k : BitVec 4) (a b : RegNo) (w : Nat) (warn : Bool) (f : Nat → Bool × W64) (s : State) : Prop :=
  (s.popped k).vregsFree [a, b] [] →
    (s.me.masks.length < 16 → ∃ (m : Mask) (fl : W64),
      CompletesT i k s
        (((s.modMe fun x => { x with masks := m :: x.masks }).orStatus s.here .x fl).warnIf (warn || s.me.vl.2)) ∧
      (∀ j < 512, m.getLsbD j = (decide (j < 512 / w) && s.me.enabled w j && (f j).1)) ∧
      ∀ b : Nat, fl.getLsbD b = true ↔ ∃ j < 512 / w, s.me.enabled w j = true ∧ (f j).2.getLsbD b = true) ∧
    (16 ≤ s.me.masks.length → Traps i s 0x11 (s.curWord.setWidth 64))

/-- The instruction does not issue yet: nothing changes but that it waits, and that C lets stopped streams go on (R81, R354); a
wait of limit code `limit` whose count has reached its limit takes the wait-limit trap in its place (R182). -/
def WaitsFor (i : Instr) (s : State) (limit : Nat) : Prop :=
  ∃ kind : StallKind, exec i s =
    .next (if s.limitOver limit then s.takeTrap s.here s.stream 0x14 (s.curWord.setWidth 64) else s.stallSeq kind limit)

/-- It waits as `WaitsFor` says, and what else it has left stands as `P` says. -/
def WaitsHaving (i : Instr) (s : State) (limit : Nat) (P : State → Prop) : Prop :=
  ∃ (kind : StallKind) (t : State), P t ∧ exec i s =
    .next (if t.limitOver limit then t.takeTrap t.here t.stream 0x14 (t.curWord.setWidth 64) else t.stallSeq kind limit)

/-- The instruction does not issue yet, for as long as it takes. -/
def Waits (i : Instr) (s : State) : Prop := ∃ kind : StallKind, exec i s = .next (s.stallSeq kind 0)

/-- A QDROP that has popped the entries `got`, all that stood, keeps them and waits for the next (R99). -/
def HoldsEntries (i : Instr) (s : State) (k : BitVec 4) (got : List QEntry) : Prop :=
  let h := s.holdEntries k got []
  (∃ kind : StallKind, exec i s = .next (h.stallSeq kind 0)) ∧
    h.me.inbound s.stream = [] ∧ h.mySeq.held = got ∧ h.pc = s.pc ∧ h.mem = s.mem

/-- The instruction issues and its one word is passed: that alone, and nothing of what it does. -/
def Passes (i : Instr) (s : State) : Prop := ∃ u, exec i s = .next u ∧ u.pc = s.pc + 4

/-- One entry popped from the issuing sequencer's inbound queue, of which `r` stays (R80). -/
def State.tookEntry (s : State) (r : List QEntry) : State :=
  s.modMe fun x => (x.setInbound s.stream r).notePop s.stream 1

/-- `v` pushed into the inbound queue of `dst` (R80). -/
def State.pushedEntry (s : State) (dst : Stream) (v : W64) : State :=
  s.modMe fun x =>
    (x.setInbound dst (x.inbound dst ++ [{ val := v, know := Know.none }])).setChan dst
      { x.chan dst with pushed := (x.chan dst).pushed + 1 }

/-- A scalar load of `n` bytes (R62, R63, R157, R262, R265): outside a differentiable region, or in forward mode within one
of its width, s[v] takes the value; in reverse mode the load contributes s[v] to the shadow cell, or has no effect outside a
region; its faults, each with the address in eval. -/
def Loads (i : Instr) (n : Nat) (signed : Bool) (v a : RegNo) (o : BitVec 13) (warn : Bool) (s : State) : Prop :=
  let ea : Int := (s.sreg a).toInt + o.toInt
  let d := leNat (memBytes s.mem (s.placeOf ea) n)
  let good := ea % n = 0 ∧ s.pocketAt s.here ea ≠ none ∧ s.badCell (s.placeOf ea) = false
  (good → s.cellsFree false .plain s.ownExt [ea] → s.reversed = false → (∀ r, s.regionOfEa ea = some r → r.1.w = n) →
    Completes i s ((s.setSreg v (if signed then BitVec.ofInt 64 (sintOf (8 * n) d) else BitVec.ofNat 64 d)).warnIf warn)) ∧
  (good → s.reversed = true → s.regionOfEa ea = none → Completes i s (s.warnIf warn)) ∧
  (∀ r t b, good → s.reversed = true → s.regionOfEa ea = some (r, t, b) → r.w = n →
    (∃ s1, Made (withPlaces s false .plain [cellOf (s.placeOf ea)]) s1 ∧ s1.placesFree true contributes (shadowLocs (r.shadow t b))) →
    Completes i s ((s.contributeAt (r.shadow t b) r.anc (fmtValue r.fmt (s.sreg v).toNat)).warnIf warn)) ∧
  (∀ r, good → s.regionOfEa ea = some r → r.1.w ≠ n → Traps i s 0x2A (evalOf ea)) ∧
  (ea % n ≠ 0 → Traps i s 0x04 (evalOf ea)) ∧
  (ea % n = 0 → s.pocketAt s.here ea = none → Traps i s 0x05 (evalOf ea)) ∧
  (ea % n = 0 → s.pocketAt s.here ea ≠ none → s.badCell (s.placeOf ea) = true → Traps i s 0x08 (evalOf ea))

/-- A scalar store of `n` bytes (R62, R63, R262, R265, R271), as for a load: in task mode a store into a region pushes a
record of the old value first; in reverse mode it takes the record back, restores the old value and takes the adjoint into
s[v], or has no effect outside a region. -/
def Stores (i : Instr) (n : Nat) (v a : RegNo) (o : BitVec 13) (s : State) : Prop :=
  let ea : Int := (s.sreg a).toInt + o.toInt
  let p := s.placeOf ea
  let good := ea % n = 0 ∧ s.pocketAt s.here ea ≠ none ∧ s.badCell p = false
  let put (e : State) : State := e.putBytes p (leBytes n (s.sreg v).toNat)
  let header (old : W64) := tapeHeader 1 1 (evalOf ea) (BitVec.ofNat 64 (Nat.log2 n)) old
  (good → s.cellsFree true .plain s.ownExt [ea] → s.reversed = false →
    s.regionOfEa ea = none ∨ s.taskMode = false → (∀ r, s.regionOfEa ea = some r → r.1.w = n) →
    Completes i s (put s)) ∧
  (∀ s1 s2, good → s.reversed = false → s.taskMode = true → (∃ r, s.regionOfEa ea = some r ∧ r.1.w = n) →
    Made (withCells s true .plain s.ownExt [ea]) s1 →
    Made (pushRecord s1 (header (BitVec.ofNat 64 (leNat (memBytes s.mem p n))))) s2 →
    Completes i s (s2.putBytes p (leBytes n (s.sreg v).toNat))) ∧
  (good → s.reversed = true → s.regionOfEa ea = none → Completes i s s) ∧
  (∀ r t b s1 rec, good → s.reversed = true → s.regionOfEa ea = some (r, t, b) → r.w = n →
    popRecord s 1 64 (scalarKeyOf (header 0)) scalarKeyOf (fun e bs => if bs = rec then .done e else .trap 0 0) = .done s1 →
    s1.placesFree true .plain (shadowLocs (r.shadow t b) ++ [cellOf p]) →
    let t := s1.takeAt (r.shadow t b) r.anc r.fmt
    Completes i s ((t.2.setSreg v (BitVec.ofNat 64 t.1)).putBytes p ((rec.drop 24).take n))) ∧
  (∀ r, good → s.regionOfEa ea = some r → r.1.w ≠ n → Traps i s 0x2A (evalOf ea)) ∧
  (ea % n ≠ 0 → Traps i s 0x04 (evalOf ea)) ∧
  (ea % n = 0 → s.pocketAt s.here ea = none → Traps i s 0x05 (evalOf ea)) ∧
  (ea % n = 0 → s.pocketAt s.here ea ≠ none → s.badCell p = true → Traps i s 0x08 (evalOf ea))

/-! ## Effects that also leave releases

Releases are clocks too, wherever they stand: at locations, in semaphores, barriers and lines. -/

def Seq.bare (q : Seq) : Seq := { q.visible with relFences := [], sighted := [] }

def Sem.bare (m : Sem) : Sem := { m with signals := [], ordered := true, last := none }

def Barrier.bare (v : Barrier) : Barrier := { v with carries := Vector.replicate 2 [], passed := [] }

def Shuttle.bare (x : Shuttle) : Shuttle :=
  { x.visible with
    c := x.c.bare, l := x.l.bare, x := x.x.bare, s := x.s.bare, sems := x.sems.map Sem.bare,
    arrivals := x.arrivals.map fun l => List.replicate l.length 0 }

def State.bare (s : State) : State :=
  { s with
    stamp := 0, tags := [], rels := [], flagExts := [], given := [], sh := s.sh.map Shuttle.bare,
    tasks := s.tasks.map fun t => { t with table := [], bars := t.bars.map Barrier.bare } }

/-- `i` completes with effect `e`, releases apart, and pc goes on by 4. -/
def CompletesBare (i : Instr) (k : BitVec 4) (s e : State) : Prop :=
  ∃ u, exec i s = .next u ∧ u.bare = (s.left e k (s.pc + 4)).bare

/-! ## Issue of commands (R34, R91, R201, R280, R287) -/

/-- Nothing that an access of the shuttle could be unordered with is on record, no cell holds an error, no counted line is
declared, and the sequencer acts forward. -/
def Calm (s : State) : Prop :=
  s.tags = [] ∧ s.bad = [] ∧ s.lines = [] ∧ s.awayLines = [] ∧ s.reversed = false ∧
  ∀ t, s.taskAt s.here = some t → t.table = [] ∧ t.dual = false

/-- Counter `cc` has room, and the scope that the header comes to is held and waits for no order of tasks. -/
def Roomy (s : State) (cc : BitVec 3) (aq rl : Bool) (sc : Nat) : Prop :=
  s.me.count cc < 63 ∧ (s.scopeExt s.here s.mySeq.agent (headerScope aq rl sc).1).isSome ∧
  farScope (headerScope aq rl sc).1 = false

/-- The command is accepted: it stands in its list as `P` says, its counter has risen, pc has passed its words, and nothing
it works on has changed yet. -/
def Accepted (i : Instr) (s : State) (steps : Nat) (cc : BitVec 3) (wt sg : Option Nat) (aq rl : Bool)
    (P : State → Job → Prop) : Prop :=
  ∃ u j, exec i s = .next u ∧ P u j ∧ j.sh = s.here ∧ j.st = s.stream ∧ j.ipc = s.pc ∧ j.cc = cc ∧ j.wt = wt ∧ j.sg = sg ∧
    j.aq = aq ∧ j.rl = rl ∧ j.rev = s.reversed ∧ j.started = false ∧ j.ran = false ∧ j.failed = false ∧
    u.pc = s.pc + 4 * (1 + BitVec.ofNat 32 steps) ∧ u.me.count cc = s.me.count cc + 1 ∧
    (∀ c, c ≠ cc → u.me.count c = s.me.count c) ∧ u.mem = s.mem ∧ u.me.sregs = s.me.sregs ∧ u.me.vregs = s.me.vregs ∧
    u.me.tiles = s.me.tiles ∧ u.me.fmt = s.me.fmt ∧ u.me.sems = s.me.sems

/-- The conditions of acceptance of a matrix command with format source `use` and Pocket operands `ops` (R280, R287). -/
def MatrixReady (s : State) (h : Hdr) (use : Option FmtUse) (ops : List MOperand) : Prop :=
  OnC s ∧ Calm s ∧ Roomy s h.cc h.aq h.rl h.sc.toNat ∧ s.queueHeld s.here < 16 ∧
  (∀ o ∈ ops, o.p.toNat % 8 = 0 ∧ o.q % 8 = 0 ∧ s.operandOut s.here o = none) ∧
  ∀ u p, use = some u → u.snap = some p →
    p.toNat % 16 = 0 ∧ s.operandOut s.here { p := p, q := 0, outer := 1, inner := 16 } = none

/-- Acceptance of a matrix command with header `h`. -/
def AcceptsMatrix (i : Instr) (s : State) (h : Hdr) (steps : Nat) (op : MatOp) : Prop :=
  Accepted i s steps h.cc (semField h.wt) (semField h.sg) h.aq h.rl fun u j =>
    ∃ src, u.mats = s.mats ++ [{ job := j, op := op, src := src, row := 0 }]

/-- The conditions of acceptance of a tile move whose descriptor stands at `da`, with no differentiable operand, nothing that cannot
be staged, and room in the task's staging share (R168, R198 to R201). -/
def MoveReady (s : State) (kind : MoveKind) (elem da : Nat) : Prop :=
  let bs := memBytes s.mem (pocketPlace s.here da) 64
  let d := tileDesc bs
  let src := d.source kind
  let dst := d.dest kind elem
  da % 64 = 0 ∧ da < 0xC0000 ∧ s.tileError s.stream kind elem bs = false ∧
  (4 ≤ d.ctl → ∃ t, s.taskAt s.here = some t ∧ t.gang = true) ∧
  (kind ≠ .fill → src.indexed = false → s.operandFault s.here src .read = none) ∧
  (dst.indexed = false → s.operandFault s.here dst .write = none) ∧
  (kind.usesIndex = true → s.listFault s.here d.aux d.rows = none) ∧
  s.diffWidthOf s.here src = none ∧ s.diffWidthOf s.here dst = none ∧
  s.operandFar s.here d.aux src false = false ∧ s.operandFar s.here d.aux dst true = false ∧
  ∀ t p, s.taskAt s.here = some t → s.me.task = some p →
    t.committing = true ∨ t.overShare p.2 (panelOf s.here)
      (if dst.lv = 3 then (s.rowStarts s.here d.aux dst).flatMap fun a => linesOf a.toNat dst.len else []) = false

/-- Acceptance of a tile move. -/
def AcceptsMove (i : Instr) (s : State) (steps : Nat) (cc : BitVec 3) (wt sg : Option Nat) (aq rl : Bool) (kind : MoveKind)
    (elem da : Nat) : Prop :=
  Accepted i s steps cc wt sg aq rl fun u j =>
    ∃ m, u.moves = s.moves ++ [m] ∧ m.job = j ∧ m.kind = kind ∧ m.elem = elem ∧ m.row = 0 ∧
      m.da = BitVec.ofNat 64 da ∧ m.desc = memBytes s.mem (pocketPlace s.here da) 64

/-! ## Packets and starts (R162, R164, R315 to R318) -/

/-- `p` is the next packet of the mapped queue `x`, and nothing holds it back. -/
def PacketNext (s : State) (q : Nat) (p : Packet) (x : Queue) : Prop :=
  s.queueOf q = some x ∧ x.slot.isSome = true ∧ s.qHalt q = false ∧ s.qDead q = false ∧ s.qPre q = false ∧
  x.marked = none ∧ x.slotGone = false ∧ s.peek x = .packet p ∧ x.held p = false

/-- No earlier PRED skips it, its checks pass, and its report can be made. -/
def PacketReady (s : State) (q : Nat) (p : Packet) (x : Queue) : Prop :=
  let room := (x.cur.next (s.qRing q) (s.qSize q)).2
  PacketNext s q p x ∧ x.cur.skipping = false ∧ p.valid = true ∧ x.cur.misplaced p room = false ∧
  x.cur.opens p room (s.qSize q) = true ∧ s.writeFault (p.va + 2) 1 = none ∧
  (p.sig = 0 ∨ s.writeFault p.sig 8 = none)

/-- The packet is dispatched: it stands in its queue's record under the next number, with status `st`. -/
def Dispatched (i : Instr) (s : State) (q : Nat) (p : Packet) (x : Queue) (st : Option Nat) (P : State → Queue → Pkt → Prop) :
    Prop :=
  ∃ u y o, exec i s = .next u ∧ u.queueOf q = some y ∧ y.num = x.num + 1 ∧ o ∈ y.pkts ∧ o.id = x.num + 1 ∧ o.va = p.va ∧
    o.sig = p.sig ∧ o.status = st ∧ P u y o

/-- Task `t` runs on the shuttles of `pl` in rank order: each is as R162 says, with its Pocket image loaded. -/
def Started (u : State) (t : Task) (im : Image) (args : Vector W64 4) (pl : List (Nat × ShNo)) (sbase bbase : Nat) : Prop :=
  (∃ v, u.taskOf t.tid = some v ∧ v.stat = .running ∧ v.shuttles = pl.map Prod.snd ∧ v.sbase = sbase ∧ v.bbase = bbase ∧
    v.stages = Vector.replicate 2 { writes := [], reads := [] } ∧ v.committing = false) ∧
  ∀ (r : Nat) (q : Nat × ShNo), pl[r]? = some q →
    let y := u.shuttle q.2
    y.task = some (t.tid, r) ∧ y.mon = false ∧ y.c.run = .running ∧ y.c.pc = 0 ∧ y.l.pc = 0 ∧ y.x.pc = 0 ∧ y.s.pc = 0 ∧
    y.sregs = ((((Vector.replicate 32 (0 : W64)).set 1 args[0]).set 2 args[1]).set 3 args[2]).set 4 args[3] ∧
    y.vregs = Vector.replicate 32 0 ∧ y.aL = Vector.replicate 16 0 ∧ y.aS = Vector.replicate 16 0 ∧ y.masks = [] ∧
    y.cc = Vector.replicate 8 0 ∧ y.lnk = 0 ∧ y.bor = 0 ∧ y.shp = 0x7001 ∧ y.c.loops.depth = 0 ∧ y.tts = t.ts ∧
    y.sgnt = grantOf sbase (65536 * t.slv) ∧ y.bgnt = grantOf bbase (65536 * t.blt) ∧
    y.dseg = (if im.data.2 = 0 then 0 else BitVec.ofNat 64 (0x3000000000000000 + t.img + im.data.1)) ∧
    ∀ b < Config.pocketBytes, memByte u.mem (pocketPlace q.2 b) =
      if im.pocketAt ≤ b then ((im.part im.pocket).getD (b - im.pocketAt) 0) else 0

/-! ## Values -/

/-- The number that a finite value is; 0 for the others. -/
def FVal.rat : FVal → Rat
  | .fin n m e => (if n then -1 else 1) * m * (2 : Rat) ^ e
  | _ => 0

/-- A finite value. -/
def FVal.finite : FVal → Bool
  | .fin _ _ _ => true
  | _ => false

end Sys2Proof.Machine

namespace Sys2Proof

/-- The scalar register that an instruction of the control stream writes, if it reads and writes nothing but s registers
(R53 to R61). -/
def Instr.scalarDest : Instr → Option RegNo
  | .add d _ _ => some d
  | .sub d _ _ => some d
  | .and d _ _ => some d
  | .or d _ _ => some d
  | .xor d _ _ => some d
  | .andn d _ _ => some d
  | .sll d _ _ => some d
  | .srl d _ _ => some d
  | .sra d _ _ => some d
  | .min d _ _ => some d
  | .max d _ _ => some d
  | .minu d _ _ => some d
  | .maxu d _ _ => some d
  | .clz d _ => some d
  | .ctz d _ => some d
  | .pop d _ => some d
  | .mul d _ _ => some d
  | .mulh d _ _ => some d
  | .mulhu d _ _ => some d
  | .div d _ _ => some d
  | .divu d _ _ => some d
  | .rem d _ _ => some d
  | .remu d _ _ => some d
  | .seq d _ _ => some d
  | .sne d _ _ => some d
  | .slt d _ _ => some d
  | .sltu d _ _ => some d
  | .sel d _ _ _ => some d
  | .addi d _ _ => some d
  | .andi d _ _ => some d
  | .ori d _ _ => some d
  | .xori d _ _ => some d
  | .slli d _ _ => some d
  | .srli d _ _ => some d
  | .srai d _ _ => some d
  | .extu d _ _ _ => some d
  | .exts d _ _ _ => some d
  | .ins d _ _ _ => some d
  | .movz d _ _ => some d
  | .movk d _ _ => some d
  | .adda d _ _ => some d
  | _ => none

/-- The instructions of the Treadle (R324). -/
def Instr.ofTreadle : Instr → Bool
  | .treadleLi _ _ => true
  | .treadleShori _ _ => true
  | .treadleAdd _ _ _ => true
  | .treadleSub _ _ _ => true
  | .treadleAnd _ _ _ => true
  | .treadleOr _ _ _ => true
  | .treadleXor _ _ _ => true
  | .treadleShl _ _ _ => true
  | .treadleShr _ _ _ => true
  | .treadleAddi _ _ _ => true
  | .treadleLd _ _ _ => true
  | .treadleSt _ _ _ => true
  | .treadleBeq _ _ _ => true
  | .treadleBne _ _ _ => true
  | .treadleBltu _ _ _ => true
  | .treadleBgeu _ _ _ => true
  | .treadleEmit _ => true
  | .treadleEnd => true
  | _ => false

end Sys2Proof
end

