-- ==== Sys2Proof/Certificates/Slice0/Obligations.lean ====
section
/-! DEFINITION. The statements about the model that are to be proved: how a step finds its instruction, encodings, the
invariant of a run, traps, and for every instruction what it does where it completes. -/

open Sys2Proof Sys2Proof.Machine

/-! ## Steps, fetching, decoding -/

/-- R26, R39, R77, R355, R358, R370. What stands at the pc of the sequencer whose turn it is, decoded, is what the step
executes: with the agenda empty at `cur`, or at the agenda's first turn. An instruction that would read a register with an
uncorrectable error takes cause 0x32 in its place; that this test comes before every other one of the instruction, and which of the
registers is named, is the model's choice (assumption log 108). At C's boundary in task mode with an asynchronous fault pending, that fault
is taken after the instruction has been tried, unless it trapped precisely. -/
def Obligations.StepRunsDecoded : Prop :=
  ∀ (s : State) (w : W32) (r : Row) (ws : List W32) (i : Instr),
    Issues s → s.flagged = false →
    s.fetchSection.fetch s.pc.toNat = .ok w → decodeRow s.stream w = .ok r →
    s.fetchSection.fetchSteps r.steps (s.pc.toNat + 4) = .ok ws → r.instr w ws = .ok i →
    (r.monitorOnly = true → s.taskMode = false) →
    let boundary := s.stream = .c ∧ s.taskMode = true ∧ s.me.pending ≠ []
    (s.badRead i = none → ¬boundary →
      (s.agenda = [] → step s = exec i s.turn) ∧
      ∀ rest, step { s with agenda := .issue s.here s.stream :: rest } = exec i { s.turn with agenda := rest }) ∧
    (s.agenda = [] → ∀ c, s.badRead i = some c →
      step s = .next (s.turn.takeTrap s.here s.stream 0x32 (BitVec.ofNat 64 c))) ∧
    (s.agenda = [] → s.badRead i = none → boundary → ∀ u, exec i s.turn = .next u →
      step s = if u.trapped s.here then .next u else exec (.asyncFaultTake s.here) s.turn)

/-- The agenda's other turns: an event is executed, a queue's next packet, a Treadle run's next word; a tick lets a cycle
pass, in which the candidates age (R312), unless a limited wait is over, whose sequencer then acts first (R182); a fetch ahead
leaves a health record where it faults and nothing else (R20, R359); a row of a move or a matrix command runs (R203, R285);
a lookaside table takes up or drops a translation (R213). The event of a pending fault is C's turn, at whose boundary it is taken
(R358). That an agenda stands for the order in which agents act is the model's (assumption log 4), so are the turn of a tick that
gives way to a limited wait (assumption log 90) and the turns of the lookaside tables (assumption log 22). -/
def Obligations.StepRunsEvents : Prop :=
  ∀ (s : State) (rest : List Turn),
    let s1 : State := { s with agenda := rest }
    let creel : State := s1.through .walker
    let turn (t : Turn) : Result := step { s with agenda := t :: rest }
    (∀ i, isEvent i = true →
      (∀ n, i = .asyncFaultTake n → (s.shuttle n).pending = [] ∨ (s.shuttle n).mon = true) →
      turn (.event i) = exec i (s1.through (eventVia i))) ∧
    (∀ n, (s.shuttle n).pending ≠ [] → (s.shuttle n).mon = false → turn (.event (.asyncFaultTake n)) = turn (.issue n .c)) ∧
    (∀ i, isEvent i = false → turn (.event i) = .fault .notAnEvent) ∧
    (s.limitDue = none → turn .tick = .next s1.passCycle ∧ s1.passCycle.cycle = s.cycle + 1) ∧
    (∀ p, s.limitDue = some p → turn .tick = step { s with agenda := .issue p.1 p.2 :: .tick :: rest }) ∧
    (∀ q x p i, creel.queueOf q = some x → creel.peek x = .packet p → packetInstr q p = some i →
      turn (.creel q) = exec i creel) ∧
    (∀ q r i, (s.runs.find? fun r => r.q = q) = some r → r.budget ≠ 0 →
      decodeTreadle (r.words.getD r.pc 0) = some i → turn (.treadle q) = exec i { creel with curQ := q }) ∧
    (∀ n st off, turn (.fetchAhead n st off) = .next (s1.fetchAhead n st off)) ∧
    (∀ o va, turn (.rltFill o va) = .next (s1.fillRlt o va)) ∧
    (∀ o ix, turn (.rltDrop o ix) = .next (s1.dropRlt o ix)) ∧
    (∀ n id, turn (.matrixRow n id) = .next (s1.matrixRow n id)) ∧
    (∀ n id, turn (.moveRow n id) = .next ((s1.through (.engine n)).moveRow n id))

/-- R20, R23, R39. A word that cannot be fetched, does not decode, or is of another stream takes its trap: cause 0x06 beyond
the section, 0x07 at an uncorrectable error, each with the offset in eval; 0x01 and 0x02 with the word in eval. A command only
the monitor may issue takes 0x03 in task mode, whatever stands where its step words do (R40). A word read from the loop buffer
of an L, X or S loop meets no error (R88). Of step words that fail the first in address order is reported, which is the model's
choice (assumption log 95). -/
def Obligations.FetchTraps : Prop :=
  ∀ s : State, s.agenda = [] → Issues s → s.flagged = false →
    let sec := s.fetchSection
    let traps (cause : BitVec 8) (eval : W64) : Prop := step s = .next (s.turn.takeTrap s.here s.stream cause eval)
    (s.stream ≠ .c → s.mySeq.loops.replays s.pc = true → ∀ off, sec.fetch off ≠ .error 0x07) ∧
    (sec.words.length ≤ s.pc.toNat / 4 → traps 0x06 (s.pc.setWidth 64)) ∧
    (s.pc.toNat / 4 < sec.words.length → sec.bad.contains (s.pc.toNat / 4) = true → traps 0x07 (s.pc.setWidth 64)) ∧
    (∀ w, sec.fetch s.pc.toNat = .ok w →
      (decodeRow s.stream w = .error .illegal → traps 0x01 (w.setWidth 64)) ∧
      (decodeRow s.stream w = .error .wrongStream → traps 0x02 (w.setWidth 64)) ∧
      ∀ r, decodeRow s.stream w = .ok r →
        (r.monitorOnly = true → s.taskMode = true → traps 0x03 (w.setWidth 64)) ∧
        (r.monitorOnly = false ∨ s.taskMode = false → ∀ e, sec.fetchSteps r.steps (s.pc.toNat + 4) = .error e →
          traps e.1 (BitVec.ofNat 64 e.2)))

/-- Some words written out from the encoding tables decode to what they stand for; the words of all zeros and of all ones are
illegal in every stream (R39). -/
def Obligations.DecodeWords : Prop :=
  decode .c 0x00632020#32 [] = .ok (.add 3 3 4) ∧
  decode .c 0x0C200064#32 [] = .ok (.addi 1 0 100) ∧
  decode .c 0x33FFFFFE#32 [] = .ok (.jmp (-2)) ∧
  decode .x 0x64611118#32 [] = .ok (.vfma 0 3 1 2 1 8) ∧
  decode .l 0xD044C008#32 [] = .ok (.tmov false 2 1 2 false false 0 8) ∧
  decode .c 0xF4000A50#32 [] = .ok (.fence 0 5) ∧
  ∀ (st : Stream) (ws : List W32),
    decode st 0#32 ws = .error .illegal ∧ decode st 0xFFFFFFFF#32 ws = .error .illegal

/-- R26 to R40. Encoding loses nothing: the words of a well-formed instruction of the sequencers decode, in some stream, to
that instruction, and in no stream to another. -/
def Obligations.EncodeDecode : Prop :=
  ∀ (i : Instr) (w : W32) (ws : List W32), encode i = w :: ws → i.ofTreadle = false → i.wf = true →
    (∃ st, decode st w ws = .ok i) ∧ ∀ st j, decode st w ws = .ok j → j = i

/-- R324. The same of the Treadle's words. -/
def Obligations.EncodeDecodeTreadle : Prop :=
  ∀ (i : Instr) (w : W32) (ws : List W32), encode i = w :: ws → i.ofTreadle = true → decodeTreadle w = some i

/-! ## Memory and the invariant of a run -/

/-- R3, R16. Bytes written are the bytes read, every other byte reads as before, and the canonical form is kept; memories in
that form that read alike are equal. -/
def Obligations.MemoryStore : Prop :=
  ∀ (m : List Host.Cell) (a : Nat) (bs : List Byte), Memory.wf m = true →
    Memory.wf (memStore m a bs) = true ∧ memBytes (memStore m a bs) a bs.length = bs ∧
    (∀ b, b < a ∨ a + bs.length ≤ b → memByte (memStore m a bs) b = memByte m b) ∧
    ∀ n : List Host.Cell, Memory.wf n = true → (∀ a, memByte m a = memByte n a) → m = n

/-- Every step keeps the invariant: from any state with memory in canonical form, whatever acts. -/
def Obligations.StepKeepsOk : Prop := ∀ s t : State, s.Ok → step s = .next t → t.Ok

/-- Whatever acts, a step answers a next state, or stops at a turn of the agenda that names no event: no instruction is
refused. -/
def Obligations.StepIsSafe : Prop := ∀ s : State, Safe (step s)

/-- R22. Reset leaves every control sequencer in monitor mode at pc 0, and the invariant of a run true. -/
def Obligations.ResetState : Prop :=
  State.Ok State.reset ∧ ∀ n : ShNo, (State.reset.shuttle n).mon = true ∧ (State.reset.shuttle n).c.pc = 0

/-! ## Registers -/

/-- R11, R52. s0 reads as zero and a write to it is discarded; any other register holds what was written, and the others what
they held. -/
def Obligations.ScalarRegisters : Prop :=
  ∀ (s : State) (d r : RegNo) (v : W64),
    s.sreg 0 = 0 ∧ s.setSreg 0 v = s ∧ (s.setSreg d v).sreg r = if r = d ∧ d ≠ 0 then v else s.sreg r

/-! ## Traps (R24, R25, R354 to R357) -/

/-- R24, R351. A trap in task mode whose route is the monitor: epc, ecause, eval, eaux and esst are written, C goes to monitor
mode at tvec with its low bits cleared, and nothing else of its registers changes: the scalar registers, lnk, bor, the loop units,
the flags, the other special registers, and what the engines and streams work on all stay. A trap in monitor mode halts C and goes
beyond the monitor with HALT; one whose route is the application cores or the firmware freezes the shuttle; neither writes
epc, ecause, eval or esst. No other shuttle changes. -/
def Obligations.TrapEntry : Prop :=
  ∀ (s : State) (n : ShNo) (cause : BitVec 8) (eval eaux : W64) (epc : W32),
    let x := s.shuttle n
    let t := s.deliverTrap n cause eval eaux epc
    let y := t.shuttle n
    t.mem = s.mem ∧ t.full = s.full ∧ t.dev = s.dev ∧ t.tasks = s.tasks ∧ t.mats = s.mats ∧ t.moves = s.moves ∧
    t.rangeJobs = s.rangeJobs ∧ t.colls = s.colls ∧ t.msgs = s.msgs ∧ (∀ m, m ≠ n → t.shuttle m = s.shuttle m) ∧
    y.sregs = x.sregs ∧ y.vregs = x.vregs ∧ y.aL = x.aL ∧ y.aS = x.aS ∧ y.lnk = x.lnk ∧ y.bor = x.bor ∧ y.tvec = x.tvec ∧
    y.mscratch = x.mscratch ∧ y.shp = x.shp ∧ y.ftix = x.ftix ∧ y.gsel = x.gsel ∧ y.rwin = x.rwin ∧ y.dbgc = x.dbgc ∧
    y.dpr = x.dpr ∧ y.tts = x.tts ∧ y.dseg = x.dseg ∧ y.sgnt = x.sgnt ∧ y.bgnt = x.bgnt ∧ y.masks = x.masks ∧
    y.tiles = x.tiles ∧ y.fmt = x.fmt ∧ y.cc = x.cc ∧ y.sems = x.sems ∧ y.bsw = x.bsw ∧
    (∀ st, (y.seq st).loops = (x.seq st).loops ∧ (y.seq st).dtb = (x.seq st).dtb ∧ (y.seq st).dtp = (x.seq st).dtp) ∧
    (∀ st, st ≠ .c → (y.seq st).status = (x.seq st).status ∧ (y.seq st).pc = (x.seq st).pc ∧ (y.seq st).run = (x.seq st).run) ∧
    (∀ b : Nat, b ≠ 15 → y.c.status.getLsbD b = x.c.status.getLsbD b) ∧
    (x.mon = false → s.route cause = .monitor →
      y.epc = epc ∧ y.ecause = cause.setWidth 64 ∧ y.eval = eval ∧ y.eaux = eaux ∧ y.esst = 0 ∧ y.mon = true ∧
      y.c.pc = x.tvec &&& ~~~3#32 ∧ y.frozen = x.frozen) ∧
    (x.mon = true ∨ s.route cause ≠ .monitor →
      y.frozen = true ∧
      y.trap = some { cause := cause, eval := eval, eaux := eaux, epc := epc, halt := x.mon,
                      fw := decide (s.route cause = .firmware), record := none } ∧
      (x.mon = true → y.c.run = .halted) ∧
      y.epc = x.epc ∧ y.ecause = x.ecause ∧ y.eval = x.eval ∧ y.esst = x.esst ∧ y.c.pc = x.c.pc)

/-- R354. A trap stops the running streams of L, X and S at their pcs, which their rpc registers keep; one already stopped keeps its
rpc, and one that does not run stays as it is. An instruction of C in task mode, here NOP, sends each stopped stream on from its
rpc; in monitor mode it leaves them stopped. -/
def Obligations.StreamsStopAndResume : Prop :=
  (∀ (s : State) (n : ShNo) (st : Stream) (cause : BitVec 8) (eval : W64),
    let x := s.shuttle n
    let y := (s.takeTrap n st cause eval).shuttle n
    (y.sstp.getLsbD 0 = (x.sstp.getLsbD 0 || decide (x.l.run = .running)) ∧
      y.lrpc = if x.sstp.getLsbD 0 = false ∧ x.l.run = .running then x.l.pc else x.lrpc) ∧
    (y.sstp.getLsbD 1 = (x.sstp.getLsbD 1 || decide (x.x.run = .running)) ∧
      y.xrpc = if x.sstp.getLsbD 1 = false ∧ x.x.run = .running then x.x.pc else x.xrpc) ∧
    (y.sstp.getLsbD 2 = (x.sstp.getLsbD 2 || decide (x.s.run = .running)) ∧
      y.srpc = if x.sstp.getLsbD 2 = false ∧ x.s.run = .running then x.s.pc else x.srpc)) ∧
  ∀ s : State, OnC s → ∃ u, exec .nop s = .next u ∧
    (s.taskMode = true → u.me.sstp = 0 ∧
      u.me.l.pc = (if s.me.sstp.getLsbD 0 then s.me.lrpc &&& ~~~3#32 else s.me.l.pc) ∧
      u.me.x.pc = (if s.me.sstp.getLsbD 1 then s.me.xrpc &&& ~~~3#32 else s.me.x.pc) ∧
      u.me.s.pc = (if s.me.sstp.getLsbD 2 then s.me.srpc &&& ~~~3#32 else s.me.s.pc)) ∧
    (s.taskMode = false → u.me.sstp = s.me.sstp ∧ u.me.l.pc = s.me.l.pc ∧ u.me.x.pc = s.me.x.pc ∧ u.me.s.pc = s.me.s.pc)

/-! ## The control stream: arithmetic and moves (R52 to R61, R75) -/

/-- R52, R53. Register arithmetic, logic, shifts and counts write their result to s[d]; everything else
stays. CLZ counts the bits above the highest 1 and CTZ those below the lowest, 64 of zero. -/
def Obligations.RegisterArithmetic : Prop :=
  ∀ (d a b : RegNo) (s : State), OnC s →
    let x := s.sreg a
    let y := s.sreg b
    Completes (.add d a b) s (s.setSreg d (x + y)) ∧
    Completes (.sub d a b) s (s.setSreg d (x - y)) ∧
    Completes (.and d a b) s (s.setSreg d (x &&& y)) ∧
    Completes (.or d a b) s (s.setSreg d (x ||| y)) ∧
    Completes (.xor d a b) s (s.setSreg d (x ^^^ y)) ∧
    Completes (.andn d a b) s (s.setSreg d (x &&& ~~~y)) ∧
    Completes (.sll d a b) s (s.setSreg d (x <<< (y.toNat % 64))) ∧
    Completes (.srl d a b) s (s.setSreg d (x >>> (y.toNat % 64))) ∧
    Completes (.sra d a b) s (s.setSreg d (x.sshiftRight (y.toNat % 64))) ∧
    Completes (.min d a b) s (s.setSreg d (if x.toInt < y.toInt then x else y)) ∧
    Completes (.max d a b) s (s.setSreg d (if x.toInt < y.toInt then y else x)) ∧
    Completes (.minu d a b) s (s.setSreg d (if x.toNat < y.toNat then x else y)) ∧
    Completes (.maxu d a b) s (s.setSreg d (if x.toNat < y.toNat then y else x)) ∧
    Completes (.clz d a) s (s.setSreg d (countLeadingZeros x)) ∧
    Completes (.ctz d a) s (s.setSreg d (countTrailingZeros x)) ∧
    Completes (.pop d a) s (s.setSreg d (countOnes x)) ∧
    (∀ i : Nat, i < (countLeadingZeros x).toNat → x.getLsbD (63 - i) = false) ∧
    (x ≠ 0 → x.getLsbD (63 - (countLeadingZeros x).toNat) = true) ∧
    (∀ i : Nat, i < (countTrailingZeros x).toNat → x.getLsbD i = false) ∧
    (x ≠ 0 → x.getLsbD (countTrailingZeros x).toNat = true) ∧
    (x = 0 → countLeadingZeros x = 64 ∧ countTrailingZeros x = 64) ∧
    (countOnes x).toNat = (List.range 64).countP fun i => x.getLsbD i

/-- R54, R55. Multiplication and division. Division truncates towards zero; by zero the quotient is 0, the remainder the
dividend, and IDZ is set; the most negative number by -1 gives itself and 0. -/
def Obligations.MultiplyDivide : Prop :=
  ∀ (d a b : RegNo) (s : State), OnC s →
    let x := s.sreg a
    let y := s.sreg b
    let idz (e : State) : State := e.orStatus s.here .c 0x80
    Completes (.mul d a b) s (s.setSreg d (x * y)) ∧
    Completes (.mulh d a b) s (s.setSreg d (BitVec.ofInt 64 (x.toInt * y.toInt / 2 ^ 64))) ∧
    Completes (.mulhu d a b) s (s.setSreg d (BitVec.ofNat 64 (x.toNat * y.toNat / 2 ^ 64))) ∧
    (y ≠ 0 →
      Completes (.div d a b) s (s.setSreg d (BitVec.ofInt 64 (x.toInt.tdiv y.toInt))) ∧
      Completes (.divu d a b) s (s.setSreg d (BitVec.ofNat 64 (x.toNat / y.toNat))) ∧
      Completes (.rem d a b) s (s.setSreg d (BitVec.ofInt 64 (x.toInt.tmod y.toInt))) ∧
      Completes (.remu d a b) s (s.setSreg d (BitVec.ofNat 64 (x.toNat % y.toNat)))) ∧
    (y = 0 →
      Completes (.div d a b) s (idz (s.setSreg d 0)) ∧ Completes (.divu d a b) s (idz (s.setSreg d 0)) ∧
      Completes (.rem d a b) s (idz (s.setSreg d x)) ∧ Completes (.remu d a b) s (idz (s.setSreg d x)))

/-- R56 to R60, R75. Compares, select, immediates, bit fields and constants write s[d]; NOP and hints change nothing. -/
def Obligations.ComparesImmediatesFields : Prop :=
  ∀ (d a b m : RegNo) (i : BitVec 16) (p w : BitVec 6) (h : BitVec 2) (s : State), OnC s →
    let x := s.sreg a
    let y := s.sreg b
    let flag (c : Bool) : State := s.setSreg d (if c then 1 else 0)
    let n := p.toNat
    let k := w.toNat + 1
    Completes (.seq d a b) s (flag (decide (x = y))) ∧
    Completes (.sne d a b) s (flag (decide (x ≠ y))) ∧
    Completes (.slt d a b) s (flag (decide (x.toInt < y.toInt))) ∧
    Completes (.sltu d a b) s (flag (decide (x.toNat < y.toNat))) ∧
    Completes (.sel d a b m) s (s.setSreg d (if s.sreg m ≠ 0 then x else y)) ∧
    Completes (.addi d a i) s (s.setSreg d (x + i.signExtend 64)) ∧
    Completes (.andi d a i) s (s.setSreg d (x &&& i.setWidth 64)) ∧
    Completes (.ori d a i) s (s.setSreg d (x ||| i.setWidth 64)) ∧
    Completes (.xori d a i) s (s.setSreg d (x ^^^ i.setWidth 64)) ∧
    Completes (.slli d a p) s (s.setSreg d (x <<< n)) ∧
    Completes (.srli d a p) s (s.setSreg d (x >>> n)) ∧
    Completes (.srai d a p) s (s.setSreg d (x.sshiftRight n)) ∧
    Completes (.extu d a p w) s (s.setSreg d (BitVec.ofNat 64 (x.toNat / 2 ^ n % 2 ^ k))) ∧
    Completes (.exts d a p w) s (s.setSreg d (BitVec.ofInt 64 (sintOf k (x.sshiftRight n).toNat))) ∧
    (∃ v : W64, Completes (.ins d a p w) s (s.setSreg d v) ∧
      ∀ j < 64, v.getLsbD j = if n ≤ j ∧ j < n + k then x.getLsbD (j - n) else (s.sreg d).getLsbD j) ∧
    Completes (.movz d h i) s (s.setSreg d (i.setWidth 64 <<< (16 * h.toNat))) ∧
    (∃ v : W64, Completes (.movk d h i) s (s.setSreg d v) ∧
      ∀ j < 64, v.getLsbD j = if 16 * h.toNat ≤ j ∧ j < 16 * h.toNat + 16 then i.getLsbD (j - 16 * h.toNat)
        else (s.sreg d).getLsbD j) ∧
    Completes .nop s s ∧ Completes (.hint p) s s

/-- R61. ADDA is major 0x14 in format I. It adds exactly; a sum outside the Pocket traps with cause 0x0B and the low 64 bits
of the sum in eval. -/
def Obligations.CheckedAddress : Prop :=
  ∀ (d a : RegNo) (i : BitVec 16) (s : State), decode .c (0x14#6 ++ d ++ a ++ i) [] = .ok (.adda d a i) ∧ (OnC s →
    let e : Int := (s.sreg a).toInt + i.toInt
    (0 ≤ e → e < 0xC0000 → Completes (.adda d a i) s (s.setSreg d (BitVec.ofInt 64 e))) ∧
    (e < 0 ∨ 0xC0000 ≤ e → Traps (.adda d a i) s 0x0B (BitVec.ofInt 64 e)))

/-! ## Transfers and loops (R65 to R73) -/

/-- R65 to R68. A conditional branch that is not taken goes on; every taken transfer goes to its target and leaves its own
address in bor; calls leave the next address in lnk, and RET goes there. -/
def Obligations.Transfers : Prop :=
  ∀ (a b : RegNo) (o : BitVec 13) (j : BitVec 26) (s : State), OnC s →
    let x := s.sreg a
    let y := s.sreg b
    let bor (e : State) : State := e.modMe fun z => { z with bor := s.pc }
    let lnk (e : State) : State := e.modMe fun z => { z with lnk := (s.pc + 4).setWidth 64 }
    let near : W32 := s.pc + 4 * o.signExtend 32
    let far : W32 := s.pc + 4 * j.signExtend 32
    let branch (i : Instr) (c : Prop) : Prop := (c → CompletesTo i s (bor s) 0 near) ∧ (¬c → Completes i s s)
    branch (.beq a b o) (x = y) ∧ branch (.bne a b o) (x ≠ y) ∧
    branch (.blt a b o) (x.toInt < y.toInt) ∧ branch (.bge a b o) (y.toInt ≤ x.toInt) ∧
    branch (.bltu a b o) (x.toNat < y.toNat) ∧ branch (.bgeu a b o) (y.toNat ≤ x.toNat) ∧
    CompletesTo (.jmp j) s (bor s) 0 far ∧ CompletesTo (.call j) s (bor (lnk s)) 0 far ∧
    CompletesTo (.jr a) s (bor s) 0 (x.setWidth 32 &&& ~~~3#32) ∧
    CompletesTo (.callr a) s (bor (lnk s)) 0 (x.setWidth 32 &&& ~~~3#32) ∧
    CompletesTo .ret s (bor s) 0 (s.me.lnk.setWidth 32 &&& ~~~3#32)

/-- R69 to R71. LOOP opens the next level with the limit and stride of its word, or passes the body when the limit is 0; a
level that is not the next one traps with cause 0x09. ENDL adds the stride and goes back to the start while the index is
below the limit, and else closes the level; ENDL.X closes it; one that is not the innermost level traps with cause 0x0A. -/
def Obligations.Loops : Prop :=
  ∀ (l : BitVec 3) (g f : Bool) (a : RegNo) (o : BitVec 14) (s : State), OnC s →
    let u := s.mySeq.loops
    let lv := l.toNat
    let t := s.sreg a
    let v := u.level lv
    let put (w : LoopUnit) : State := s.modMySeq fun q => { q with loops := w }
    let opened : Level :=
      { k := 0, lim := t.setWidth 32, str := t.toNat / 2 ^ 32 % 2 ^ 16 + 1, start := s.pc + 4,
        fin := s.pc + BitVec.ofNat 32 (4 * o.toNat), fo := f, lo := g }
    let n := v.k.toNat + v.str
    (lv = u.depth → lv < 6 → t.setWidth 32 ≠ (0 : W32) →
      CompletesTo (.loop l g f a o) s (put { u.setLevel lv opened with depth := u.depth + 1 }) 0 (s.pc + 4)) ∧
    (lv = u.depth → lv < 6 → t.setWidth 32 = (0 : W32) →
      CompletesTo (.loop l g f a o) s (put (u.setLevel lv { v with k := 0 })) 0 (s.pc + BitVec.ofNat 32 (4 * o.toNat + 4))) ∧
    (lv ≠ u.depth ∨ u.depth = 6 → Traps (.loop l g f a o) s 0x09 (s.curWord.setWidth 64)) ∧
    (lv + 1 = u.depth → n < v.lim.toNat →
      CompletesTo (.endl l) s (put (u.setLevel lv { v with k := BitVec.ofNat 32 n })) 0 v.start) ∧
    (lv + 1 = u.depth → v.lim.toNat ≤ n →
      Completes (.endl l) s (put { u.setLevel lv { v with k := BitVec.ofNat 32 n } with depth := lv })) ∧
    (lv + 1 = u.depth → Completes (.endlX l) s (put { u with depth := lv })) ∧
    (lv + 1 ≠ u.depth → Traps (.endl l) s 0x0A (s.curWord.setWidth 64) ∧ Traps (.endlX l) s 0x0A (s.curWord.setWidth 64))

/-- R72, R88, R359. The flags of an open level pass over the first instruction of its body in every iteration but the first (FO) and
over the last in every one but the last (LO); those of an empty body apply to nothing, and no loop instruction is passed over. What
is passed over has no effect but that pc goes on by its length; where one of its words cannot be fetched, a health record tells of
it, whose class, count and detail are the model's choice (assumption log 20), and so is the length of such a word (assumption
log 96). -/
def Obligations.SkippedInstructions : Prop :=
  ∀ s : State,
    let passes (v : Level) : Prop := v.start ≠ v.fin ∧
      ((v.fo = true ∧ s.pc = v.start ∧ v.k ≠ 0) ∨ (v.lo = true ∧ s.pc + 4 = v.fin ∧ v.k.toNat + v.str < v.lim.toNat))
    let boundary := s.stream = .c ∧ s.taskMode = true ∧ s.me.pending ≠ []
    (s.flagged = true ↔ (∃ j < s.mySeq.loops.depth, passes (s.mySeq.loops.level j)) ∧
      ∀ r i, decodeRow s.stream s.curWord = .ok r → r.instr s.curWord [] = .ok i → isLoopInstr i = false) ∧
    (Issues s → s.agenda = [] → s.flagged = true →
      step s = exec (if boundary then .asyncFaultTake s.here else .skippedInstruction) s.turn) ∧
    let i := s.pc.toNat / 4
    let sec := s.fetchSection
    let len := rawLength s.stream (sec.words.getD i 0)
    let failing (k : Nat) : Prop := sec.words.length ≤ k ∨ sec.bad.contains k = true
    ∃ u, exec .skippedInstruction s = .next u ∧
      ((∀ k, i ≤ k → k < i + len / 4 → ¬failing k) → u.visible = (s.setPc (s.pc + BitVec.ofNat 32 len)).visible) ∧
      (∀ k, i ≤ k → k < i + len / 4 → failing k → (∀ j, i ≤ j → j < k → ¬failing j) →
        u.visible =
          ((s.setPc (s.pc + BitVec.ofNat 32 len)).healthRecord 1 s.here.toNat 4 1 (BitVec.ofNat 64 (4 * k))).visible)

/-- R19, R24. An instruction that only writes a scalar register, in any mode and also where a trap follows it or takes its
place, leaves memory, the other registers, the engines' commands, the loops, flags and tape registers of the other streams and
every other shuttle as they were; of C's status only IDZ and the mode may change. -/
def Obligations.FrameRegisters : Prop :=
  ∀ (i : Instr) (d : RegNo) (s t : State), i.scalarDest = some d → s.stream = .c → exec i s = .next t →
    t.mem = s.mem ∧ t.full = s.full ∧ t.dev = s.dev ∧ t.tasks = s.tasks ∧ t.launches = s.launches ∧ t.queues = s.queues ∧
    t.mats = s.mats ∧ t.moves = s.moves ∧ t.rangeJobs = s.rangeJobs ∧ t.colls = s.colls ∧ t.msgs = s.msgs ∧
    t.lines = s.lines ∧ t.sent = s.sent ∧
    (∀ n, n ≠ s.here → t.shuttle n = s.shuttle n) ∧ (∀ r, r ≠ d → t.sreg r = s.sreg r) ∧
    t.me.ftix = s.me.ftix ∧ t.me.gsel = s.me.gsel ∧ t.me.rwin = s.me.rwin ∧ t.me.dbgc = s.me.dbgc ∧ t.me.dpr = s.me.dpr ∧
    t.me.tts = s.me.tts ∧ t.me.dseg = s.me.dseg ∧ t.me.sgnt = s.me.sgnt ∧ t.me.bgnt = s.me.bgnt ∧ t.me.bsw = s.me.bsw ∧
    (∀ st, (t.me.seq st).loops = (s.me.seq st).loops ∧ (t.me.seq st).dtb = (s.me.seq st).dtb ∧
      (t.me.seq st).dtp = (s.me.seq st).dtp ∧ (t.me.seq st).code = (s.me.seq st).code) ∧
    (∀ st, st ≠ .c → (t.me.seq st).status = (s.me.seq st).status ∧ (t.me.seq st).run = (s.me.seq st).run) ∧
    (∀ b : Nat, b ≠ 7 → b ≠ 15 → t.me.c.status.getLsbD b = s.me.c.status.getLsbD b) ∧
    t.me.vregs = s.me.vregs ∧ t.me.aL = s.me.aL ∧ t.me.aS = s.me.aS ∧ t.me.fmt = s.me.fmt ∧ t.me.tiles = s.me.tiles ∧
    t.me.masks = s.me.masks ∧ t.me.sems = s.me.sems ∧ t.me.lnk = s.me.lnk ∧ t.me.bor = s.me.bor ∧ t.me.shp = s.me.shp ∧
    t.me.tvec = s.me.tvec ∧ t.me.mscratch = s.me.mscratch ∧ t.me.cc = s.me.cc

/-! ## Special registers (R11 to R14, R74, R118, R193, R257) -/

/-- R11, R12, R74, R79, R118, R353. The assigned numbers with their access in task and in monitor mode, and what each reads as.
MFSR reads, MTSR writes, MXSR does both with the old value read, as the mode allows: a number that is not assigned takes cause
0x01, one that the mode denies cause 0x03, each with the word in eval; a write that the mode does not allow is discarded with
WARN. A write of a half of the format-table entry that ftix names keeps HD, and GEN advances by 1. -/
def Obligations.SpecialRegisterMoves : Prop :=
  ∀ (d a : RegNo) (p : BitVec 8) (s : State), OnC s →
    let n := p.toNat
    let v := s.readSpr s.here n
    let each (P : Instr → Prop) : Prop := P (.mfsr d p) ∧ P (.mtsr a p) ∧ P (.mxsr d a p)
    let x := s.me
    let r := s.readSpr s.here
    let free : List Nat := [0x01, 0x03, 0x17, 0x1C, 0x1D, 0x1E, 0x21, 0x24, 0x25, 0x26, 0x27, 0x28, 0x29]
    let shown : List Nat := [0x00, 0x18, 0x1F, 0x20, 0x22, 0x23]
    let kept : List Nat := [0x02, 0x04, 0x05, 0x06, 0x07, 0x08, 0x09]
    let hidden : List Nat := [0x10, 0x11, 0x12, 0x13, 0x14, 0x15, 0x16, 0x19, 0x1A, 0x1B, 0x2A, 0x2B, 0x2C, 0x2D, 0x2E, 0x2F, 0x30,
      0x31, 0x32]
    (∀ p, sprModes p =
      if p ∈ free then some (.readWrite, .readWrite) else if p ∈ shown then some (.readOnly, .readOnly)
      else if p ∈ kept then some (.readOnly, .readWrite) else if p ∈ hidden then some (.denied, .readWrite)
      else if p = 0x33 then some (.denied, .readOnly) else none) ∧
    (r 0x00 = s.me.c.pc.setWidth 64 ∧ r 0x01 = x.lnk ∧ r 0x02 = x.bor.setWidth 64 ∧ r 0x03 = x.c.status ∧
      ((r 0x03).getLsbD 15 = true ↔ x.mon = true) ∧ (∀ j < 6, r (4 + j) = (x.c.loops.level j).k.setWidth 64) ∧
      r 0x10 = x.tvec.setWidth 64 ∧ r 0x11 = x.epc.setWidth 64 ∧ r 0x12 = x.ecause ∧ r 0x13 = x.eval ∧ r 0x14 = x.esst ∧
      r 0x15 = x.mscratch ∧ r 0x16 = x.shp ∧ r 0x17 = x.gsel.setWidth 64 ∧
      bitsOf (r 0x18) 0 8 = s.here.toNat ∧ bitsOf (r 0x18) 8 8 = s.here.toNat / 8 ∧ bitsOf (r 0x18) 16 48 = 0 ∧
      r 0x19 = x.l.status ∧ r 0x1A = x.x.status ∧ r 0x1B = x.s.status ∧ r 0x1C = x.ftix.setWidth 64 ∧
      r 0x1F = x.dseg ∧ r 0x20 = x.tts ∧ r 0x21 = x.rwin.setWidth 64 ∧ r 0x22 = x.sgnt ∧ r 0x23 = x.bgnt ∧
      r 0x24 = x.dpr[0] ∧ r 0x25 = x.dpr[1] ∧ r 0x26 = x.dpr[2] ∧ r 0x27 = x.dpr[3] ∧ r 0x28 = x.c.dtb ∧ r 0x29 = x.c.dtp ∧
      r 0x2A = x.l.dtb ∧ r 0x2B = x.l.dtp ∧ r 0x2C = x.s.dtb ∧ r 0x2D = x.s.dtp ∧ r 0x2E = x.eaux ∧ r 0x2F = x.dbgc ∧
      r 0x30 = x.lrpc.setWidth 64 ∧ r 0x31 = x.xrpc.setWidth 64 ∧ r 0x32 = x.srpc.setWidth 64 ∧
      (∀ b : Nat, (r 0x33).getLsbD b = x.sstp.getLsbD b)) ∧
    (sprModes n = none → each fun i => Traps i s 0x01 (s.curWord.setWidth 64)) ∧
    ∀ tm mm, sprModes n = some (tm, mm) →
      let m := if s.taskMode then tm else mm
      (m = .denied → each fun i => Traps i s 0x03 (s.curWord.setWidth 64)) ∧
      (n ≠ 0x1D → n ≠ 0x1E → m ≠ .denied → Completes (.mfsr d p) s (s.setSreg d v)) ∧
      (n ≠ 0x1D → n ≠ 0x1E → m = .readWrite →
        Completes (.mtsr a p) s (s.writeSpr n (s.sreg a)) ∧
        Completes (.mxsr d a p) s ((s.writeSpr n (s.sreg a)).setSreg d v)) ∧
      (m = .readOnly → Completes (.mtsr a p) s s.warn ∧ Completes (.mxsr d a p) s (s.warn.setSreg d v)) ∧
      (n = 0x1D ∨ n = 0x1E →
        let i := s.me.ftix.toNat
        let e := s.me.entry i
        let put (s : State) (b : BitVec 128) : State := s.modMe fun x => x.setEntry i { e with bits := b }
        let high := n = 0x1E
        let half : W64 := if high then (e.bits >>> 64).setWidth 64 else e.bits.setWidth 64
        (s.tableFree false .plain [(i, 15)] → Completes (.mfsr d p) s (s.setSreg d half)) ∧
        (s.tableFree true .plain [(i, 15)] → ∃ b : BitVec 128,
          Completes (.mtsr a p) s (put s b) ∧ Completes (.mxsr d a p) s ((put s b).setSreg d half) ∧
          entryGen b = (entryGen e.bits + 1) % 2 ^ 16 ∧ entryHd b = entryHd e.bits ∧
          (high → (b >>> 64).setWidth 64 = s.sreg a) ∧ (¬high → b >>> 64 = e.bits >>> 64) ∧
          ∀ j, 24 ≤ j ∧ j < 32 ∨ 40 ≤ j ∧ j < 43 ∨ 44 ≤ j ∧ j < 64 →
            b.getLsbD j = if high then e.bits.getLsbD j else (s.sreg a).getLsbD j))

/-- R11, R13, R14, R74, R78, R89, R118, R171, R193, R256, R353, R354. What writes leave: registers of one value hold it, cut to
their width and without their reserved bits; flags are cleared by ones and set by none; each loop index is written in place; of the
positions that a write of rwin names those open that may, and no other; the rpc of a stream that a freeze has not stopped keeps its
value, with WARN. -/
def Obligations.SpecialRegisterWrites : Prop :=
  ∀ (s : State) (t : W64),
    let y (p : Nat) : Shuttle := (s.writeSpr p t).me
    (y 0x01).lnk = t ∧ (y 0x02).bor = t.setWidth 32 ∧ (y 0x10).tvec = t.setWidth 32 ∧ (y 0x11).epc = t.setWidth 32 ∧
    (y 0x12).ecause = t ∧ (y 0x13).eval = t ∧ (y 0x14).esst = t ∧ (y 0x15).mscratch = t ∧ (y 0x17).gsel = t.setWidth 2 ∧
    (y 0x1C).ftix = t.setWidth 6 ∧ (y 0x29).c.dtp = t ∧ (y 0x2B).l.dtp = t ∧ (y 0x2D).s.dtp = t ∧
    (let base := t &&& 0x00FFFFFFFFFFFFC0
     (y 0x28).c.dtb = base ∧ (y 0x2A).l.dtb = base ∧ (y 0x2C).s.dtb = base) ∧
    (y 0x2F).dbgc = t &&& 0x1F ∧ (y 0x16).shp = t &&& 0xFFF07FC7 ∧ (y 0x2E).eaux = t &&& 0xBF000000FFFFFFFF ∧
    (let cleared (old new : W64) : Prop := ∀ b : Nat,
      new.getLsbD b = (old.getLsbD b && !(t.getLsbD b && (decide (b < 6) || decide (b = 7) || decide (b = 8))))
     cleared s.me.c.status (y 0x03).c.status ∧ cleared s.me.l.status (y 0x19).l.status ∧
     cleared s.me.x.status (y 0x1A).x.status ∧ cleared s.me.s.status (y 0x1B).s.status) ∧
    (∀ j < 6, ∀ i, (y (4 + j)).c.loops.level i =
      if i = j then { s.me.c.loops.level j with k := t.setWidth 32 } else s.me.c.loops.level i) ∧
    (∀ b : Nat, (y 0x21).rwin.getLsbD b = true ↔
      b < 8 ∧ b ≠ s.here.toNat % 8 ∧ t.getLsbD b = true ∧ s.sameGang s.here (loomMate s.here b) = true) ∧
    (let warned (p : Nat) : Prop := s.stream = .c → (y p).c.status.getLsbD 8 = true
     (s.me.sstp.getLsbD 0 = true → (y 0x30).lrpc = t.setWidth 32) ∧
     (s.me.sstp.getLsbD 0 = false → (y 0x30).lrpc = s.me.lrpc ∧ warned 0x30) ∧
     (s.me.sstp.getLsbD 1 = true → (y 0x31).xrpc = t.setWidth 32) ∧
     (s.me.sstp.getLsbD 1 = false → (y 0x31).xrpc = s.me.xrpc ∧ warned 0x31) ∧
     (s.me.sstp.getLsbD 2 = true → (y 0x32).srpc = t.setWidth 32) ∧
     (s.me.sstp.getLsbD 2 = false → (y 0x32).srpc = s.me.srpc ∧ warned 0x32))

/-- R12, R74. In task mode no special-register move changes a register that only the monitor may write: tvec, mscratch, shp,
dbgc and the tape registers of L and S. -/
def Obligations.MonitorRegistersKept : Prop :=
  ∀ (d a : RegNo) (p : BitVec 8) (s t : State), s.stream = .c → s.taskMode = true →
    exec (.mtsr a p) s = .next t ∨ exec (.mxsr d a p) s = .next t →
    t.me.tvec = s.me.tvec ∧ t.me.mscratch = s.me.mscratch ∧ t.me.shp = s.me.shp ∧ t.me.dbgc = s.me.dbgc ∧
    t.me.l.dtb = s.me.l.dtb ∧ t.me.l.dtp = s.me.l.dtp ∧ t.me.s.dtb = s.me.s.dtb ∧ t.me.s.dtp = s.me.s.dtp ∧
    t.me.l.status = s.me.l.status ∧ t.me.x.status = s.me.x.status ∧ t.me.s.status = s.me.s.status

/-! ## Scalar loads and stores (R62 to R64, R157, R262, R265, R271) -/

/-- R15, R157, R193. Which byte an address names: its own Pocket's below 0xC0000; with bits 23:20 from 1 to 8, that of a
shuttle of the loom whose window is open and which runs a member of the same task; nothing else. -/
def Obligations.PocketAddresses : Prop :=
  ∀ (s : State) (n : ShNo) (ea : Int),
    (0 ≤ ea → ea < 0xC0000 → s.pocketAddr n ea = some (n, ea.toNat)) ∧
    (∀ (t : Nat) (b : Nat), t < 8 → b < 0xC0000 → (s.shuttle n).rwin.getLsbD t = true →
      s.sameGang n (loomMate n t) = true → s.pocketAddr n (0x100000 * (t + 1) + b) = some (loomMate n t, b)) ∧
    ∀ (m : ShNo) (b : Nat), s.pocketAddr n ea = some (m, b) → b < 0xC0000 ∧
      ((m = n ∧ ea = b) ∨ ∃ t : Nat, t < 8 ∧ ea = 0x100000 * (t + 1) + b ∧ m = loomMate n t ∧ (s.shuttle n).rwin.getLsbD t = true ∧
        s.sameGang n (loomMate n t) = true)

/-- R62, R63. Every scalar load. -/
def Obligations.ScalarLoads : Prop :=
  ∀ (v a : RegNo) (o : BitVec 13) (sx : Bool) (s : State), OnC s →
    Loads (.ldb v a o) 1 false v a o false s ∧ Loads (.ldh v a o) 2 false v a o false s ∧
    Loads (.ldw v a o) 4 false v a o false s ∧ Loads (.ldd v a o sx) 8 false v a o sx s ∧
    Loads (.ldbs v a o) 1 true v a o false s ∧ Loads (.ldhs v a o) 2 true v a o false s ∧
    Loads (.ldws v a o) 4 true v a o false s

/-- R62, R63. Every scalar store. -/
def Obligations.ScalarStores : Prop :=
  ∀ (v a : RegNo) (o : BitVec 13) (s : State), OnC s →
    Stores (.stb v a o) 1 v a o s ∧ Stores (.sth v a o) 2 v a o s ∧ Stores (.stw v a o) 4 v a o s ∧
    Stores (.std v a o) 8 v a o s

/-- R63. Where a scalar store outside differentiable regions may change memory: its own bytes, at the place of its address.
Loads there change none. -/
def Obligations.FrameLoadsStores : Prop :=
  ∀ (v a : RegNo) (o : BitVec 13) (sx : Bool) (s t : State), s.stream = .c → s.reversed = false →
    let ea : Int := (s.sreg a).toInt + o.toInt
    let p := s.placeOf ea
    let outside (n : Nat) : Prop := ∀ b, b < p ∨ p + n ≤ b → memByte t.mem b = memByte s.mem b
    s.regionOfEa ea = none →
    (exec (.stb v a o) s = .next t → outside 1) ∧ (exec (.sth v a o) s = .next t → outside 2) ∧
    (exec (.stw v a o) s = .next t → outside 4) ∧ (exec (.std v a o) s = .next t → outside 8) ∧
    (exec (.ldb v a o) s = .next t ∨ exec (.ldh v a o) s = .next t ∨ exec (.ldw v a o) s = .next t ∨
      exec (.ldd v a o sx) s = .next t ∨ exec (.ldbs v a o) s = .next t ∨ exec (.ldhs v a o) s = .next t ∨
      exec (.ldws v a o) s = .next t → t.mem = s.mem)

/-! ## Queues, counters and tokens (R80 to R101) -/

/-- R80, R81, R91. QPUSH waits while its queue holds 16 entries, QPOP while S,C is empty; CCWAIT waits until the counter is
at most s[a]. -/
def Obligations.ControlQueues : Prop :=
  ∀ (a d : RegNo) (c : BitVec 3) (s : State), OnC s →
    let dst (q : BitVec 5) : Stream := if q = 0 then .l else if q = 1 then .x else .s
    (∀ q : BitVec 5, (s.me.inbound (dst q)).length < 16 → Completes (.qpush a q) s (s.pushedEntry (dst q) (s.sreg a))) ∧
    (∀ q : BitVec 5, 16 ≤ (s.me.inbound (dst q)).length → Waits (.qpush a q) s) ∧
    (∀ e r, s.me.qSC = e :: r → Completes (.qpop d) s ((s.tookEntry r).setSreg d e.val)) ∧
    (s.me.qSC = [] → Waits (.qpop d) s) ∧
    (s.me.count c ≤ (s.sreg a).toNat → Completes (.ccwait a c) s s) ∧
    ((s.sreg a).toNat < s.me.count c → Waits (.ccwait a c) s)

/-- R82, R83. An instruction of L, X or S whose token conditions do not hold waits; TNOP shows it. -/
def Obligations.TokenConditions : Prop :=
  ∀ (k : BitVec 4) (s : State), s.stream ≠ .c →
    let up := s.me.tokIn s.stream
    let cr := s.me.crIn s.stream
    (s.me.tokensReady s.stream k = true ↔
      (k.getLsbD 3 = true → up ≠ []) ∧ (k.getLsbD 1 = true → cr ≠ []) ∧
      (k.getLsbD 2 = true → (s.me.tokOut s.stream).length < 15) ∧
      (k.getLsbD 0 = true → (s.me.crOut s.stream).length < 15)) ∧
    (s.mySeq.taken = none → s.me.tokensReady s.stream k = false → Waits (.tnopX k) s ∧ Waits (.tnopLs k) s) ∧
    (OnT s s.stream k → CompletesT (.tnopX k) k s s ∧ CompletesT (.tnopLs k) k s s)

/-- R76, R80, R81, R92, R99, R160, R269, R276. The instructions of L and S over queues and address registers. QDROP pops what stands,
waits for the rest, and completes when all have come. -/
def Obligations.AddressStreams : Prop :=
  ∀ (st : Stream) (d a : RegNo) (b k : BitVec 4) (i n : BitVec 8) (m : BitVec 6) (c : BitVec 5) (s : State),
    st = .l ∨ st = .s → OnT s st k →
    let q := s.me.inbound st
    (∀ e r, q = e :: r → CompletesT (.qpopa d k) k s ((s.tookEntry r).setAreg d e.val)) ∧
    (q = [] → Waits (.qpopa d k) s) ∧
    (s.me.qSC.length < 16 → CompletesT (.qpusha a k) k s (s.pushedEntry .c (s.areg a))) ∧
    (16 ≤ s.me.qSC.length → Waits (.qpusha a k) s) ∧
    (s.mySeq.held = [] → n.toNat ≤ q.length →
      CompletesT (.qdropLs n k) k s
        (s.modMe fun x => (x.setInbound st (q.drop n.toNat)).notePop st n.toNat)) ∧
    (q = [] → n ≠ 0 → s.mySeq.held = [] → Waits (.qdropLs n k) s) ∧
    (q ≠ [] → s.mySeq.held = [] → q.length < n.toNat → HoldsEntries (.qdropLs n k) s k q) ∧
    (s.me.count (c.setWidth 3) ≤ n.toNat → CompletesT (.ccwaitLs c n k) k s s) ∧
    (n.toNat < s.me.count (c.setWidth 3) → Waits (.ccwaitLs c n k) s) ∧
    CompletesT (.aaddi d a i k) k s (s.setAreg d (s.areg a + 8 * i.signExtend 64)) ∧
    CompletesT (.aaddv d a i k) k s (s.setAreg d (s.areg a + 512 * i.signExtend 64)) ∧
    CompletesT (.aadd d a b k) k s (s.setAreg d (s.areg a + s.areg (b.setWidth 5))) ∧
    CompletesT (.asub d a b k) k s (s.setAreg d (s.areg a - s.areg (b.setWidth 5))) ∧
    CompletesT (.aslli d a m k) k s (s.setAreg d (s.areg a <<< m.toNat)) ∧
    (∀ e1 e2 r, q = e1 :: e2 :: r →
      CompletesT (.dtset k) k s
        ((((s.tookEntry (e2 :: r)).tookEntry r).modMySeq fun z =>
          { z with dtb := e1.val &&& 0x00FFFFFFFFFFFFC0, dtp := e2.val }).warnIf
          (decide (e1.val &&& ~~~0x00FFFFFFFFFFFFC0 ≠ 0)))) ∧
    (q.length < 2 → Waits (.dtset k) s)

/-- R88. The loop instructions of L, X and S: a level that cannot be opened traps before the pop; the opened level takes its
limit word from the inbound queue, and the ends are those of R71. -/
def Obligations.StreamLoops : Prop :=
  ∀ (st : Stream) (l5 : BitVec 5) (l k : BitVec 4) (g f : Bool) (h : BitVec 2) (o : BitVec 8) (s : State),
    st ≠ .c → OnT s st k →
    let u := s.mySeq.loops
    let loop (i : Instr) (lv : Nat) (fo lo : Bool) : Prop :=
      (lv = u.depth → lv < 6 → ∀ e r, s.me.inbound st = e :: r →
        let n := loopOpen u s.pc lv fo lo o.toNat e.val
        CompletesTo i s ((s.tookEntry r).modMySeq fun q => { q with loops := n.1 }) k n.2) ∧
      (lv = u.depth → lv < 6 → s.me.inbound st = [] → Waits i s) ∧
      (lv ≠ u.depth ∨ u.depth = 6 → Traps i s 0x09 (s.curWord.setWidth 64))
    let close (i : Instr) (lv : Nat) (leave : Bool) : Prop :=
      (lv + 1 = u.depth →
        let n := loopEnd u s.pc lv leave
        CompletesTo i s (s.modMySeq fun q => { q with loops := n.1 }) k n.2) ∧
      (lv + 1 ≠ u.depth → Traps i s 0x0A (s.curWord.setWidth 64))
    loop (.sloopX h o l k) l.toNat (h.getLsbD 0) (h.getLsbD 1) ∧ loop (.sloopLs l5 g f o k) l5.toNat f g ∧
    close (.sendlX l k) l.toNat false ∧ close (.sendlExitX l k) l.toNat true ∧
    close (.sendlLs l5 k) l5.toNat false ∧ close (.sendlExitLs l5 k) l5.toNat true

/-- R80, R81, R99, R101, R125. The vector queues, drops and the shape register; each of them that waits waits as R81 says. -/
def Obligations.VectorQueuesAndShape : Prop :=
  ∀ (v : RegNo) (n k : BitVec 4) (i : BitVec 8) (l : BitVec 5) (b : BitVec 6) (s : State),
    (OnT s .l k →
      (s.me.qLX.length < 8 → (s.popped k).vregsFree [v] [] →
        CompletesT (.qpushvL v k) k s
          (s.modMe fun x => { x with qLX := x.qLX ++ [{ val := x.vreg v, know := Know.none }] })) ∧
      (8 ≤ s.me.qLX.length → Waits (.qpushvL v k) s)) ∧
    (OnT s .s k →
      (∀ e r, s.me.qXS = e :: r →
        (((s.popped k).modMe fun x => { x with qXS := r }).modMySeq fun q => q.learnOrder e.know).vregsFree [] [v] →
        CompletesT (.qpopvS v k) k s ((s.modMe fun x => { x with qXS := r }).setVreg v e.val)) ∧
      (s.me.qXS = [] → Waits (.qpopvS v k) s)) ∧
    (OnT s .x k →
      (s.me.qXS.length < 8 → (s.popped k).vregsFree [v] [] →
        CompletesT (.qpushvX v k) k s
          (s.modMe fun x => { x with qXS := x.qXS ++ [{ val := x.vreg v, know := Know.none }] })) ∧
      (8 ≤ s.me.qXS.length → Waits (.qpushvX v k) s) ∧
      (∀ e r, s.me.qLX = e :: r →
        (((s.popped k).modMe fun x => { x with qLX := r }).modMySeq fun q => q.learnOrder e.know).vregsFree [] [v] →
        CompletesT (.qpopvX v k) k s ((s.modMe fun x => { x with qLX := r }).setVreg v e.val)) ∧
      (s.me.qLX = [] → Waits (.qpopvX v k) s) ∧
      (s.mySeq.held = [] → n.toNat + 1 ≤ s.me.qCX.length →
        CompletesT (.qdropX n k) k s
          (s.modMe fun x => ({ x with qCX := s.me.qCX.drop (n.toNat + 1) } : Shuttle).notePop .x (n.toNat + 1))) ∧
      (s.me.qCX = [] → s.mySeq.held = [] → Waits (.qdropX n k) s) ∧
      (s.me.qCX ≠ [] → s.mySeq.held = [] → s.me.qCX.length < n.toNat + 1 → HoldsEntries (.qdropX n k) s k s.me.qCX) ∧
      (∃ w : W64, CompletesT (.shrm i k) k s (s.setShp w) ∧ getBits w 0 3 = i.toNat % 8 ∧
        ∀ j, 3 ≤ j → w.getLsbD j = s.me.shp.getLsbD j) ∧
      (∃ w : W64, CompletesT (.shft l b k) k s (s.setShp w) ∧ getBits w 6 6 = b.toNat ∧
        getBits w 12 3 = (if l.toNat = 31 then 7 else l.toNat % 8) ∧
        ∀ j, j < 6 ∨ 15 ≤ j → w.getLsbD j = s.me.shp.getLsbD j) ∧
      (s.me.qCX = [] → Waits (.shpop k) s) ∧
      (∀ e r, s.me.qCX = e :: r → ∃ (w : W64) (warn : Bool),
        CompletesT (.shpop k) k s (((s.tookEntry r).setShp w).warnIf warn) ∧
        let t (lo n : Nat) : Nat := getBits e.val lo n
        let old (lo n : Nat) : Nat := getBits s.me.shp lo n
        getBits w 0 3 = (if t 0 3 = 0 ∨ 6 ≤ t 0 3 then old 0 3 else t 0 3) ∧ getBits w 6 6 = t 6 6 ∧
        getBits w 12 3 = (if t 12 3 = 6 then old 12 3 else t 12 3) ∧
        getBits w 20 4 = (if 8 ≤ t 20 4 then old 20 4 else t 20 4) ∧
        getBits w 24 8 = (if 128 < t 24 8 then old 24 8 else t 24 8) ∧
        (warn = true ↔ t 0 3 = 0 ∨ 6 ≤ t 0 3 ∨ t 12 3 = 6 ∨ 128 < t 24 8 ∨ 8 ≤ t 20 4 ∨ t 3 3 ≠ 0 ∨ t 15 5 ≠ 0 ∨ t 32 32 ≠ 0)))

/-! ## The vector engine (R102 to R153) -/

/-- R111, R112. The value and flags that a cell of either kind comes to do not depend on the order of its contributions. -/
def Obligations.ExactSums : Prop :=
  ∀ (w : Nat) (lsb : Int) (a : Acc × W64) (l m : List (FVal × W64)), w = 136 ∨ w = 72 → l.Perm m →
    let sum (l : List (FVal × W64)) : Acc × W64 :=
      l.foldl (fun a v => let r := contribute w lsb a.1 v.1 v.2; (r.1, a.2 ||| r.2)) a
    sum l = sum m

/-- R107, R133, R134. Before they are rounded, sums, products and fused sums of finite values are exact and set no flag. -/
def Obligations.ExactArithmetic : Prop :=
  ∀ (rm : RMode) (a b c : FVal), a.finite = true → b.finite = true → c.finite = true →
    (addVal rm a b).1.finite = true ∧ (addVal rm a b).1.rat = a.rat + b.rat ∧ (addVal rm a b).2 = 0 ∧
    (mulVal a b).1.finite = true ∧ (mulVal a b).1.rat = a.rat * b.rat ∧ (mulVal a b).2 = 0 ∧
    (fmaVal rm a b c).1.rat = a.rat * b.rat + c.rat ∧ (fmaVal rm a b c).2 = 0

/-- R132 to R136. Float arithmetic, element by element: the exact result rounded to the element type in the mode of the
word or of shp, with the flags of both; unary operations and estimates likewise. The functions that VEX2E and VLG2E give are read by
inference (assumption log 7), and so is WARN of a skipped word whose mode field is not used (assumption log 12). -/
def Obligations.VectorFloat : Prop :=
  ∀ (t : BitVec 2) (t5 : BitVec 5) (d a b : RegNo) (r : BitVec 3) (k : BitVec 4) (s : State), OnT s .x k →
    let ty := floatType t.toNat
    let w := ty.width
    let rm := (s.me.mode r).1
    let settled := (s.me.mode r).2
    let unused := decide (r ≠ 0)
    let code (q : RegNo) (j : Nat) : Nat := velem (s.vreg q) w j
    let val (q : RegNo) (j : Nat) : FVal := floatValue ty (code q j)
    let rounded (v : FVal × W64) : Nat × W64 := ((roundFloat ty rm v.1).1, (roundFloat ty rm v.1).2 ||| v.2)
    let two (i : Instr) (f : Nat → FVal × W64) : Prop :=
      Elementwise i k [a, b] [] d w settled (fun j => rounded (f j)) s
    two (.vaddFloat t d a b r k) (fun j => addVal rm (val a j) (val b j)) ∧
    two (.vsubFloat t d a b r k) (fun j => addVal rm (val a j) (val b j).neg) ∧
    two (.vmulFloat t d a b r k) (fun j => mulVal (val a j) (val b j)) ∧
    two (.vdivFloat t d a b r k) (fun j => divVal (val a j) (val b j)) ∧
    two (.vfma t d a b r k) (fun j => fmaVal rm (val a j) (val b j) (val d j)) ∧
    two (.vfms t d a b r k) (fun j => fmaVal rm (val a j) (val b j) (val d j).neg) ∧
    two (.vfnma t d a b r k) (fun j => fmaVal rm (val a j).neg (val b j) (val d j)) ∧
    two (.vfnms t d a b r k) (fun j => fmaVal rm (val a j).neg (val b j) (val d j).neg) ∧
    ElementwiseWith unused (.vminFloat t d a b r k) k [a, b] [] d w false (fun j => minMaxCode true ty (code a j) (code b j)) s ∧
    ElementwiseWith unused (.vmaxFloat t d a b r k) k [a, b] [] d w false (fun j => minMaxCode false ty (code a j) (code b j)) s ∧
    ElementwiseWith unused (.vcpys t d a b r k) k [a, b] [] d w false
      (fun j => if (val a j).isNan then (canonicalNan ty, if (val a j).isSnan then fNV else 0)
        else (code a j % signBit ty + code b j / signBit ty * signBit ty, 0)) s ∧
    let ty := floatType t5.toNat
    let w := ty.width
    let val (j : Nat) : FVal := floatValue ty (velem (s.vreg a) w j)
    let rounded (v : FVal × W64) : Nat × W64 := ((roundFloat ty rm v.1).1, (roundFloat ty rm v.1).2 ||| v.2)
    let one (i : Instr) (f : Nat → Nat × W64) : Prop := Elementwise i k [a] [] d w settled f s
    let pick (i : Instr) (f : Nat → Nat × W64) : Prop := ElementwiseWith unused i k [a] [] d w false f s
    let sign (f : Nat → Nat) (j : Nat) : Nat × W64 :=
      if (val j).isNan then (canonicalNan ty, if (val j).isSnan then fNV else 0) else (f (velem (s.vreg a) w j), 0)
    pick (.vabs d a t5 r k) (sign fun x => x % signBit ty) ∧
    pick (.vneg d a t5 r k) (sign fun x => x ^^^ signBit ty) ∧
    one (.vsqrt d a t5 r k) (fun j => rounded (sqrtVal (val j))) ∧
    one (.vrint d a t5 r k) (fun j => rounded (rintVal rm (val j))) ∧
    pick (.vrcpe d a t5 r k) (fun j => recipEstimate ty (val j)) ∧
    pick (.vrsqe d a t5 r k) (fun j => rsqrtEstimate ty (val j)) ∧
    pick (.vex2e d a t5 r k) (fun j => exp2Estimate ty (val j)) ∧
    pick (.vlg2e d a t5 r k) (fun j => log2Estimate ty (val j))

/-- R137, R138. Compares push a mask. A NaN operand makes only VCNE and VCUN hold; VCLT and VCLE set NV at any NaN, the others
at a signalling one. -/
def Obligations.VectorCompares : Prop :=
  ∀ (t a b : BitVec 5) (r e : BitVec 3) (k : BitVec 4) (s : State), OnT s .x k →
    let ty := floatType t.toNat
    let w := ty.width
    let val (q : RegNo) (j : Nat) : FVal := floatValue ty (velem (s.vreg q) w j)
    let nan (j : Nat) : Bool := (val a j).isNan || (val b j).isNan
    let snan (j : Nat) : Bool := (val a j).isSnan || (val b j).isSnan
    let flt (i : Instr) (quiet unordered : Bool) (cond : Int → Prop) [DecidablePred cond] : Prop :=
      Compares i k a b w (decide (r ≠ 0)) (fun j =>
        if nan j then (unordered, if !quiet || snan j then fNV else 0)
        else (decide (cond (cmpVal (val a j) (val b j))), 0)) s
    let int (i : Instr) (cond : Int → Int → Prop) [∀ x y, Decidable (cond x y)] : Prop :=
      Compares i k a b (intWidth e) false
        (fun j => (decide (cond (intElem e (s.vreg a) j) (intElem e (s.vreg b) j)), 0)) s
    flt (.vceqFloat t a b r k) true false (fun c => c = 0) ∧ flt (.vcneFloat t a b r k) true true (fun c => c ≠ 0) ∧
    flt (.vcltFloat t a b r k) false false (fun c => c < 0) ∧ flt (.vcleFloat t a b r k) false false (fun c => c ≤ 0) ∧
    flt (.vcun t a b r k) true true (fun _ => False) ∧
    int (.vceqInt a b e k) (fun x y => x = y) ∧ int (.vcneInt a b e k) (fun x y => x ≠ y) ∧
    int (.vcltInt a b e k) (fun x y => x < y) ∧ int (.vcleInt a b e k) (fun x y => x ≤ y)

/-- R139 to R141. Integer arithmetic, logic, shifts and immediates, element by element; division by zero gives 0 or the
dividend and sets IDZ. -/
def Obligations.VectorInteger : Prop :=
  ∀ (d a b : RegNo) (e : BitVec 3) (i8 : BitVec 8) (i7 : BitVec 7) (i5 : BitVec 5) (i4 k : BitVec 4) (s : State), OnT s .x k →
    let w := intWidth e
    let bits := 8 * w
    let x (j : Nat) : Int := intElem e (s.vreg a) j
    let y (j : Nat) : Int := intElem e (s.vreg b) j
    let u (j : Nat) : Nat := velem (s.vreg a) w j
    let v (j : Nat) : Nat := velem (s.vreg b) w j
    let ones : Nat := 2 ^ bits - 1
    let lim := intRange e
    let num (i : Instr) (f : Nat → Int) : Prop :=
      Elementwise i k [a, b] [] d w false (fun j => (lowBits bits (f j), 0)) s
    let bit (i : Instr) (f : Nat → Nat) : Prop := Elementwise i k [a, b] [] d w false (fun j => (f j, 0)) s
    let div (i : Instr) (f : Nat → Int) (zero : Nat → Int) : Prop :=
      Elementwise i k [a, b] [] d w false
        (fun j => if y j = 0 then (lowBits bits (zero j), 0x80) else (lowBits bits (f j), 0)) s
    num (.vaddInt d a b e k) (fun j => x j + y j) ∧ num (.vsubInt d a b e k) (fun j => x j - y j) ∧
    num (.vmulInt d a b e k) (fun j => x j * y j) ∧ num (.vmulh d a b e k) (fun j => x j * y j / 2 ^ bits) ∧
    num (.vadds d a b e k) (fun j => max lim.1 (min lim.2 (x j + y j))) ∧
    num (.vsubs d a b e k) (fun j => max lim.1 (min lim.2 (x j - y j))) ∧
    num (.vminInt d a b e k) (fun j => min (x j) (y j)) ∧ num (.vmaxInt d a b e k) (fun j => max (x j) (y j)) ∧
    num (.vabsd d a b e k) (fun j => |x j - y j|) ∧
    div (.vdivInt d a b e k) (fun j => (x j).tdiv (y j)) (fun _ => 0) ∧
    div (.vrem d a b e k) (fun j => (x j).tmod (y j)) x ∧
    bit (.vand d a b e k) (fun j => u j &&& v j) ∧ bit (.vor d a b e k) (fun j => u j ||| v j) ∧
    bit (.vxor d a b e k) (fun j => u j ^^^ v j) ∧ bit (.vandn d a b e k) (fun j => u j &&& (ones - v j)) ∧
    Elementwise (.vnot d a e k) k [a] [] d w false (fun j => (ones - u j, 0)) s ∧
    bit (.vsll d a b e k) (fun j => u j <<< (v j % bits)) ∧ bit (.vsrl d a b e k) (fun j => u j >>> (v j % bits)) ∧
    num (.vsra d a b e k) (fun j => sintOf bits (u j) / 2 ^ (v j % bits)) ∧
    let u (w j : Nat) : Nat := velem (s.vreg a) w j
    let one (i : Instr) (w : Nat) (f : Nat → Nat) : Prop := Elementwise i k [a] [] d w false (fun j => (f j, 0)) s
    let none (i : Instr) (w : Nat) (f : Nat → Nat) : Prop := Elementwise i k [] [] d w false (fun j => (f j, 0)) s
    one (.vaddiI32 d a i8 k) 4 (fun j => lowBits 32 (u 4 j + i8.toInt)) ∧
    one (.vaddiI16 d a i8 k) 2 (fun j => lowBits 16 (u 2 j + i8.toInt)) ∧
    one (.vaddiI8 d a i8 k) 1 (fun j => lowBits 8 (u 1 j + i8.toInt)) ∧
    one (.vslli32 d a i5 k) 4 (fun j => u 4 j <<< i5.toNat) ∧ one (.vsrli32 d a i5 k) 4 (fun j => u 4 j >>> i5.toNat) ∧
    one (.vsrai32 d a i5 k) 4 (fun j => lowBits 32 (sintOf 32 (u 4 j) / 2 ^ i5.toNat)) ∧
    one (.vslli16 d a i4 k) 2 (fun j => u 2 j <<< i4.toNat) ∧ one (.vsrli16 d a i4 k) 2 (fun j => u 2 j >>> i4.toNat) ∧
    one (.vsrai16 d a i4 k) 2 (fun j => lowBits 16 (sintOf 16 (u 2 j) / 2 ^ i4.toNat)) ∧
    none (.vmovi32 d i8 k) 4 (fun _ => lowBits 32 i8.toInt) ∧
    none (.vfmoviF32 d i8 k) 4 (fun _ => (roundFloat .fp32 .rne (floatValue .zf8 i8.toNat)).1) ∧
    one (.vsplat32 d a i7 k) 4 (fun _ => u 4 i7.toNat) ∧
    one (.vsldn32 d a i7 k) 4 (fun j => if j + i7.toNat < 128 then u 4 (j + i7.toNat) else 0) ∧
    one (.vslup32 d a i7 k) 4 (fun j => if i7.toNat ≤ j then u 4 (j - i7.toNat) else 0)

/-- R142 to R146. Conversions, packing, unpacking, permutes, broadcasts and zips. -/
def Obligations.VectorMoves : Prop :=
  ∀ (d a b : RegNo) (sc : Bool) (p r e : BitVec 3) (f k : BitVec 4) (s : State), OnT s .x k →
    let fx := s.me.xEntry
    let ent := (s.me.entry fx.1).bits
    let dst := (cvtPair f).1
    let src := (cvtPair f).2
    let w := max dst.width src.width
    let part := p.toNat * (512 / w)
    let widening := decide (src.width ≤ dst.width)
    let rm := s.me.mode r
    let sca := settleScale (entryField ent 96 32)
    let scaled (x : FVal) : FVal × W64 :=
      if !sc then (x, 0) else if src = .sp8 then mulVal x (scaleValue sca.1)
      else (x.scale (if widening then -entryOsx ent else entryOsx ent), 0)
    let conv (j : Nat) : Nat × W64 :=
      let x := scaled (fmtValue src (velem (s.vreg a) src.width j))
      let o := roundFmt dst rm.1 x.1
      (o.1, o.2 ||| x.2)
    let n := 512 / intWidth e
    let half (c : Int → Int) (j : Nat) : Nat × W64 :=
      (lowBits (4 * intWidth e) (c (if j < n then intElem e (s.vreg a) j else intElem e (s.vreg b) (j - n))), 0)
    let low : Int := if intSigned e then -2 ^ (4 * intWidth e - 1) else 0
    let high : Int := if intSigned e then 2 ^ (4 * intWidth e - 1) - 1 else 2 ^ (4 * intWidth e) - 1
    let wide (off j : Nat) : Nat × W64 := (lowBits (16 * intWidth e) (intElem e (s.vreg a) (off + j)), 0)
    let pw := 2 ^ e.toNat
    let m := 512 / pw
    let el (q : RegNo) (j : Nat) : Nat := velem (s.vreg q) pw j
    let perm (i : Instr) (reads : List RegNo) (g : Nat → Nat) : Prop :=
      Elementwise i k reads [] d pw false (fun j => (g j, 0)) s
    Elementwise (.vcvt d a sc p r f k) k [a] (if sc then [(fx.1, 15)] else []) d dst.width
      ((rm.2 && (sc || decide (dst.width ≤ src.width))) || (sc && (fx.2 || (decide (src = .sp8) && sca.2))))
      (fun j =>
        if widening then (if j < 512 / w then conv (part + j) else (velem (s.vreg d) dst.width j, 0))
        else if part ≤ j ∧ j < part + 512 / w then conv (j - part) else (velem (s.vreg d) dst.width j, 0)) s ∧
    Elementwise (.vpacks d a b e k) k [a, b] [] d (intWidth e / 2) false (half fun x => max low (min high x)) s ∧
    Elementwise (.vpackt d a b e k) k [a, b] [] d (intWidth e / 2) false (half fun x => x) s ∧
    Elementwise (.vunpkl d a e k) k [a] [] d (2 * intWidth e) false (wide 0) s ∧
    Elementwise (.vunpkh d a e k) k [a] [] d (2 * intWidth e) false (wide (n / 2)) s ∧
    perm (.vperm d a b e k) [a, b] (fun j => el a (el b j % m)) ∧
    perm (.vperm2 d a b e k) [a, b]
      (fun j => if el d j % (2 * m) < m then el a (el d j % (2 * m)) else el b (el d j % (2 * m) - m)) ∧
    perm (.vzipl d a b e k) [a, b] (fun j => if j % 2 = 0 then el a (j / 2) else el b (j / 2)) ∧
    perm (.vziph d a b e k) [a, b] (fun j => if j % 2 = 0 then el a (m / 2 + j / 2) else el b (m / 2 + j / 2)) ∧
    perm (.vuzpe d a b e k) [a, b] (fun j => if j < m / 2 then el a (2 * j) else el b (2 * j - m)) ∧
    perm (.vuzpo d a b e k) [a, b] (fun j => if j < m / 2 then el a (2 * j + 1) else el b (2 * j - m + 1)) ∧
    perm (.vrev d a e k) [a] (fun j => el a (m - 1 - j))

/-- R127, R128, R144, R146, R147. VBCQ pops its queue even where it is skipped; VUNSP writes a pair; VSEL takes each active
element from a or b by the mask; and the mask stack: pushes trap when 16 masks stand, pops when none does. -/
def Obligations.BroadcastsAndMasks : Prop :=
  ∀ (d a b : RegNo) (e : BitVec 3) (k : BitVec 4) (s : State), OnT s .x k →
    let w := 2 ^ e.toNat
    let depth := s.me.masks.length
    let put (m : List Mask) : State := s.modMe fun x => { x with masks := m }
    (s.me.qCX = [] → Waits (.vbcq d e k) s) ∧
    (∀ q r, s.me.qCX = q :: r → s.me.uniformSkip = true → CompletesT (.vbcq d e k) k s (s.tookEntry r)) ∧
    (∀ q r, s.me.qCX = q :: r → s.me.uniformSkip = false →
      (∃ s1, popScalar (s.popped k) (fun z _ => withVregs z [] [d] .done) = .done s1) →
      ∃ v : VReg, CompletesT (.vbcq d e k) k s (((s.tookEntry r).setVreg d v).warnIf s.me.vl.2) ∧
        ∀ j < 512 / w, velem v w j =
          if s.me.enabled w j then q.val.toNat % 2 ^ (8 * w) else velem (s.vreg d) w j) ∧
    (s.me.uniformSkip = true → CompletesT (.vunsp d a k) k s s) ∧
    (s.me.uniformSkip = false → (s.popped k).vregsFree [a] [d, d + 1] → ∃ v0 v1 : VReg,
      CompletesT (.vunsp d a k) k s (((s.setVreg d v0).setVreg (d + 1) v1).warnIf s.me.vl.2) ∧
      ∀ j < 256,
        let val (i : Nat) : FVal := match fmtValue .sp8 (velem (s.vreg a) 1 i) with
          | .fin n m x => if m = 0 then .fin false 0 x else .fin n m x
          | v => v
        velem v0 2 j = (if s.me.enabled 2 j then (roundFloat .bf16 .rne (val j)).1 % 65536 else velem (s.vreg d) 2 j) ∧
        velem v1 2 j =
          (if s.me.enabled 2 j then (roundFloat .bf16 .rne (val (256 + j))).1 % 65536 else velem (s.vreg (d + 1)) 2 j)) ∧
    ((s.popped k).vregsFree [a, b] [d] → ∃ v : VReg,
      CompletesT (.vsel d a b e k) k s ((s.setVreg d v).warnIf s.me.vl.2) ∧
      ∀ j < 512 / w, velem v w j =
        if s.me.active w j then (if s.me.effMask.getLsbD j then velem (s.vreg a) w j else velem (s.vreg b) w j)
        else velem (s.vreg d) w j) ∧
    ((s.popped k).vregsFree [a] [] →
      (depth < 16 → CompletesT (.mpushr a k) k s (put ((s.me.effMask &&& (s.vreg a).setWidth 512) :: s.me.masks))) ∧
      (16 ≤ depth → Traps (.mpushr a k) s 0x11 (s.curWord.setWidth 64))) ∧
    ((s.popped k).vregsFree [] [d] → CompletesT (.msave d k) k s (s.setVreg d (s.me.effMask.setWidth 4096))) ∧
    (s.me.masks = [] →
      Traps (.minv e k) s 0x12 (s.curWord.setWidth 64) ∧ Traps (.mpop k) s 0x12 (s.curWord.setWidth 64)) ∧
    (∀ m r, s.me.masks = m :: r →
      CompletesT (.mpop k) k s (put r) ∧
      ∃ v : Mask, CompletesT (.minv e k) k s ((put (v :: r)).warnIf s.me.vl.2) ∧
        ∀ j < 512, v.getLsbD j =
          (decide (j < 512 / w) && s.me.active w j && (r.headD (BitVec.allOnes 512)).getLsbD j && !m.getLsbD j)) ∧
    CompletesT (.mclr k) k s (put [])

/-- R148 to R151. Reductions and scans: each segment's enabled elements go to an exact cell at the entry's anchor, whose output
conversion is written: reductions one element a segment, from element 0; scans at each enabled element, with that element
(VSCAN) or without it (VSCNX). -/
def Obligations.Reductions : Prop :=
  ∀ (d a b : RegNo) (t : BitVec 3) (k : BitVec 4) (s : State), OnT s .x k → s.me.uniformSkip = false →
    let fx := s.me.xEntry
    let ent := (s.me.entry fx.1).bits
    let anc := entryAnc ent
    let o := settleOut ent (fun f => decide (f ≠ .sp8 ∧ f ≠ .xa64)) .fp32
    let seg := s.me.segLog.1
    let w := (srcType t).width
    let wo := o.1.fo.width
    let x (q : RegNo) (i : Nat) : FVal := fmtValue (srcType t) (velem (s.vreg q) w i)
    let out (c : Acc × W64) : Nat × W64 :=
      let r := outputCell o.1 128 (anc - 96) c.1
      (r.1, r.2 ||| c.2)
    let raw (c : Acc × W64) (g : Nat) : Acc × W64 :=
      if g < 32 then sumCell anc c [(valueOfInt (sintOf 128 (velem (s.vreg b) 16 g)) (anc - 96), 0)] else c
    let free (reads : List RegNo) : Prop :=
      ∃ s1, Made (withVregs (s.popped k) reads [d]) s1 ∧ s1.tableFree false .plain [(fx.1, 15)]
    let reduce (i : Instr) (reads : List RegNo) (f : Nat → FVal × W64) (more : Acc × W64 → Nat → Acc × W64) : Prop :=
      free reads → ∃ (v : VReg) (fl : W64),
        CompletesT i k s (((s.setVreg d v).orStatus s.here .x fl).warnIf
          (fx.2 || o.2 || s.me.segLog.2 || s.me.vl.2 || decide (512 / wo < 2 ^ seg))) ∧
        let cell (g : Nat) : Nat × W64 := out (more (sumCell anc (Acc.empty, 0) ((s.me.segment w seg g).map f)) g)
        (∀ j < 512 / wo, velem v wo j = if j < 2 ^ seg then (cell j).1 % 2 ^ (8 * wo) else velem (s.vreg d) wo j) ∧
        ∀ bit : Nat, fl.getLsbD bit = true ↔ ∃ g < 2 ^ seg, (cell g).2.getLsbD bit = true
    let before (incl : Bool) (j : Nat) : Acc × W64 :=
      sumCell anc (Acc.empty, 0) (((s.me.segment w seg (j * 2 ^ seg / (512 / w))).filter fun i =>
        decide (i < j) || (incl && decide (i = j))).map fun i => (x a i, 0))
    let scan (i : Instr) (incl : Bool) : Prop :=
      free [a] → ∃ (v : VReg) (fl : W64),
        CompletesT i k s (((s.setVreg d v).orStatus s.here .x fl).warnIf (fx.2 || o.2 || s.me.segLog.2 || s.me.vl.2)) ∧
        let res (j : Nat) : Nat × W64 := outputCell { o.1 with fo := srcType t } 128 (anc - 96) (before incl j).1
        (∀ j < 512 / w, velem v w j = if s.me.enabled w j then (res j).1 % 2 ^ (8 * w) else velem (s.vreg d) w j) ∧
        ∀ bit : Nat, fl.getLsbD bit = true ↔
          ∃ j < 512 / w, s.me.enabled w j = true ∧ ((res j).2 ||| (before incl j).2).getLsbD bit = true
    reduce (.vrsum d a t k) [a] (fun i => (x a i, 0)) (fun c _ => c) ∧
    reduce (.vrssq d a t k) [a] (fun i => mulVal (x a i) (x a i)) (fun c _ => c) ∧
    reduce (.vrdot d a b t k) [a, b] (fun i => mulVal (x a i) (x b i)) (fun c _ => c) ∧
    reduce (.vrsuma d a b t k) [a, b] (fun i => (x a i, 0)) raw ∧
    scan (.vscan d a t k) true ∧ scan (.vscnx d a t k) false

/-- R121, R122, R129, R152, R153. VRMAX and VRMIN give each segment's extreme; VAMAX captures the greatest magnitude into the
current slot of the entry's ring; VDSCALE derives the scale, moves the head on and clears its slot; all but VDSCALE are skipped
with the reductions and scans when the mask is all zero. -/
def Obligations.ExtremesAndCaptures : Prop :=
  ∀ (d a b : RegNo) (t : BitVec 3) (k : BitVec 4) (s : State), OnT s .x k →
    let fx := s.me.xEntry
    let e := s.me.entry fx.1
    let seg := s.me.segLog
    let w := (srcType t).width
    let codes (g : Nat) : List Nat := (s.me.segment w seg.1 g).map fun i => velem (s.vreg a) w i
    let vals := (s.me.segment w 0 0).map (srcValue s t a)
    let nums := vals.filter fun v => !v.isNan
    let fl : W64 := if vals.any FVal.isNan then fNV else 0
    let most := nums.foldl (fun z v => max z (magnitude32 v)) 0
    let ext (i : Instr) (less : Bool) : Prop :=
      (s.popped k).vregsFree [a] [d] → ∃ (v : VReg) (f : W64),
        CompletesT i k s (((s.setVreg d v).orStatus s.here .x f).warnIf (seg.2 || s.me.vl.2)) ∧
        (∀ j < 512 / w, velem v w j = (if j < 2 ^ seg.1 then (extreme (srcType t) less (codes j)).1 else none).getD
          (velem (s.vreg d) w j)) ∧
        ∀ bit : Nat, f.getLsbD bit = true ↔ ∃ g < 2 ^ seg.1, (extreme (srcType t) less (codes g)).2.getLsbD bit = true
    (s.tags = [] → Passes (.vrmax d a t k) s ∧ Passes (.vrmin d a t k) s ∧ Passes (.vamax a t k) s ∧ Passes (.vdscale k) s) ∧
    (s.me.uniformSkip = true →
      CompletesT (.vrsum d a t k) k s s ∧ CompletesT (.vrssq d a t k) k s s ∧ CompletesT (.vrdot d a b t k) k s s ∧
      CompletesT (.vrsuma d a b t k) k s s ∧ CompletesT (.vscan d a t k) k s s ∧ CompletesT (.vscnx d a t k) k s s ∧
      CompletesT (.vrmax d a t k) k s s ∧ CompletesT (.vrmin d a t k) k s s ∧ CompletesT (.vamax a t k) k s s) ∧
    (s.me.uniformSkip = false →
      ext (.vrmax d a t k) false ∧ ext (.vrmin d a t k) true ∧
      ∀ s1 s2, Made (withVregs (s.popped k) [a] []) s1 → Made (withTable s1 false .plain [(fx.1, 15)]) s2 →
        (nums = [] → CompletesT (.vamax a t k) k s ((s.orStatus s.here .x fl).warnIf (fx.2 || s.me.vl.2))) ∧
        (nums ≠ [] → s2.tableFree true .capture [(fx.1, entryHd e.bits)] →
          CompletesT (.vamax a t k) k s
            (((s.modMe fun x => x.setEntry fx.1
                (if (e.slot (entryHd e.bits)).toNat < most then e.setSlot (entryHd e.bits) (BitVec.ofNat 32 most) else e)).orStatus
              s.here .x fl).warnIf (fx.2 || s.me.vl.2)))) ∧
    (∀ s1 s2, Made (withVregs (s.popped k) [] []) s1 →
      Made (withTable s1 false .plain ((List.range 12).map fun y => (fx.1, y))) s2 →
      s2.tableFree true .plain [(fx.1, (entryHd e.bits + 1) % 12), (fx.1, 15)] →
      let fo := settleFmt (entryField e.bits 44 4) (fun _ => true) .fp32
      ∃ n : FmtEntry,
        CompletesT (.vdscale k) k s (((s.modMe fun x => x.setEntry fx.1 n).orStatus s.here .x
          (if (deriveScale e fo.1).2 then fOF else 0)).warnIf (fx.2 || fo.2)) ∧
        entryOsx n.bits = entryOsx (deriveScale e fo.1).1.bits ∧
        entryHd n.bits = (entryHd e.bits + 1) % 12 ∧ entryGen n.bits = (entryGen e.bits + 1) % 2 ^ 16 ∧
        ∀ y < 12, n.slot y = if y = (entryHd e.bits + 1) % 12 then 0 else e.slot y)

/-- R286, R300. A row read converts the 64 cells of a tile row through the entry of shp into v[d], or as they are into a pair
of registers; MRDC then empties them. It waits for every command ordered before it that has still to write the row, MRDC also for
one that has still to read it. -/
def Obligations.RowReads : Prop :=
  ∀ (v l : RegNo) (t : BitVec 2) (r : BitVec 6) (k : BitVec 4) (s : State), OnT s .x k →
    let x := s.me
    let n : BitVec 6 := r + (if l.toNat ≤ 5 then (x.x.loops.level l.toNat).k.setWidth 6 else 0)
    let row := (x.tile t).row n
    let fx := x.xEntry
    let o := settleOut (x.entry fx.1).bits okOut .fp32
    let w := o.1.fo.width
    let loc := tileLoc s.here t.toNat n.toNat
    let cells : TileRow := { row with cells := Vector.replicate 64 XCell.empty }
    let emptied : State := s.modMe fun x => x.setTile t ((x.tile t).setRow n cells)
    let owed (m : MatJob) (clear : Bool) : Bool := m.owesWrite t.toNat n.toNat || (clear && m.owes t.toNat n.toNat)
    let idle (clear : Bool) := ∀ m ∈ s.mats, m.job.sh = s.here → owed m clear = false
    let waits (i : Instr) (clear : Bool) : Prop := (∃ m ∈ s.mats, m.job.sh = s.here ∧ owed m clear = true ∧
      knows (s.popped k).mySeq.know m.job.issuer m.job.epoch = true) → Waits i s
    let free (writes : List RegNo) (table clear : Bool) : Prop :=
      ∃ s1 s2, Made (withVregs (s.popped k) [] writes) s1 ∧
        (if table then Made (withTable s1 false .plain [(fx.1, 15)]) s2 else s2 = s1) ∧
        ∃ s3, Made (withTag s2 loc (tileEval t.toNat n.toNat) clear .plain (.set [s.here])) s3
    let conv (i : Instr) (clear : Bool) : Prop :=
      free [v] true clear → ∃ (u : VReg) (fl : W64),
        CompletesT i k s (((((if clear then emptied else s).setVreg v u).orStatus s.here .x fl)).warnIf (o.2 || fx.2)) ∧
        (∀ j < 512 / w, velem u w j =
          if j < 64 then (outputCell o.1 128 row.lsb (row.cell j).acc).1 % 2 ^ (8 * w) else velem (s.vreg v) w j) ∧
        ∀ b : Nat, fl.getLsbD b = true ↔ ∃ j < 64, (outputCell o.1 128 row.lsb (row.cell j).acc).2.getLsbD b = true
    (s.tags = [] → s.bad.contains loc = false → (idle false → Passes (.mrd v l t r k) s ∧ Passes (.mrdr v l t r k) s) ∧
      (idle true → Passes (.mrdc v l t r k) s)) ∧
    waits (.mrd v l t r k) false ∧ waits (.mrdc v l t r k) true ∧ waits (.mrdr v l t r k) false ∧
    (s.bad.contains loc = false →
      (idle false → conv (.mrd v l t r k) false) ∧ (idle true → conv (.mrdc v l t r k) true) ∧
      (idle false → free [v, v + 1] false false → ∃ (u0 u1 : VReg) (fl : W64),
        CompletesT (.mrdr v l t r k) k s ((((s.setVreg v u0).setVreg (v + 1) u1)).orStatus s.here .x fl) ∧
        (∀ b : Nat, fl.getLsbD b = true ↔ ∃ j < 64, (row.raw j).2.getLsbD b = true) ∧
        ∀ j < 32, velem u0 16 j = (row.raw j).1 % 2 ^ 128 ∧ velem u1 16 j = (row.raw (32 + j)).1 % 2 ^ 128))

/-! ## Vector memory (R155 to R160, R266, R276) -/

/-- R155 to R158, R262, R266, R276. Vector loads read 64 cells into v[d], transposed with xp; a post-increment adds what was
read; in reverse mode the load contributes to the shadows of its differentiable cells. DPLD loads plainly in either mode;
DGLD takes 128 gradients, and DGLDC empties them. -/
def Obligations.VectorLoads : Prop :=
  ∀ (v a : RegNo) (x i : Bool) (m : BitVec 2) (o n : BitVec 8) (k : BitVec 4) (s : State) (st : Stream),
    st = .l ∨ st = .s → OnT s st k →
    let f := vecForm x i m
    let eas := vecAddrs s v a m o
    let unit := vecAddrs s v a 0 o
    let step (e : State) : State :=
      (if i ∧ m ≠ 2 then e.setAreg a (e.areg a + (if m = 1 then 8 else 512)) else e).warnIf f.warn
    let idx := if m = 2 then [v + 1] else []
    let plain (j : Instr) (form : VecForm) (eas : List Int) (fin : State → State) : Prop :=
      (∃ s0 s1, Made (withIndex (s.popped k) form v) s0 ∧ Made (withVregs s0 [] [v]) s1 ∧
        s1.cellsFree false .plain s.ownExt eas) →
      ∃ d : VReg, CompletesT j k s (fin (s.setVreg v d)) ∧
        (form.tr = false → ∀ c < 64, velem d 8 c = s.pocketNat (eas.getD c 0) 8) ∧
        (form.tr = true → ∀ c < 64, ∀ q < 4, velem d 2 (16 * ((4 * c + q) % 16) + (4 * c + q) / 16) =
          s.pocketNat (eas.getD c 0) 8 / 2 ^ (16 * q) % 2 ^ 16)
    let base := (s.areg a).toInt
    let pairs : List Int := (List.range 128).map fun (j : Nat) => base + 16 * (j : Int)
    let cells := pairs.flatMap fun ea => [ea, ea + 8]
    let grads (e : State) : State := pairs.foldl (fun e ea => e.putBytes (s.placeOf ea) (List.replicate 16 0)) e
    ((s.popped k).vregsFree (idx ++ [v]) [v] →
      (∀ c e, s.pocketFault 8 eas = some (c, e) → Traps (.vld v a x i m o k) s c e) ∧
      (s.pocketFault 8 eas = none → s.trShape f.tr eas = true →
        Traps (.vld v a x i m o k) s 0x2A (evalOf (eas.headD 0)))) ∧
    (s.pocketFault 8 eas = none → s.trShape f.tr eas = false →
      (s.reversed = false → plain (.vld v a x i m o k) f eas step) ∧
      (s.reversed = true → s.anyDiff eas = false → (s.popped k).vregsFree idx [] →
        CompletesT (.vld v a x i m o k) k s (step s)) ∧
      (s.reversed = true → s.anyDiff eas = true → ∀ s0 s1 s2, Made (withIndex (s.popped k) f v) s0 →
        Made (withVregs s0 [v] []) s1 → vecContribute s1 v f.tr eas = .done s2 → CompletesPopped (.vld v a x i m o k) k s (step s2))) ∧
    (s.pocketFault 8 unit = none → plain (.dpld v a o k) (vecForm false false 0) unit id) ∧
    (base % 16 = 0 → s.pocketFault 8 cells = none →
      let took (e : State) (d : VReg) (fl : W64) : State := (e.setVreg v d).orStatus s.here s.stream fl
      let grad (j : Nat) : Nat × W64 := takeBytes n.toInt .fp32 (memBytes s.mem (s.placeOf (base + 16 * (j : Int))) 16)
      let right (d : VReg) (fl : W64) : Prop := (∀ j < 128, velem d 4 j = (grad j).1 % 2 ^ 32) ∧
        ∀ b : Nat, fl.getLsbD b = true ↔ ∃ j < 128, (grad j).2.getLsbD b = true
      ((∃ s1, Made (withVregs (s.popped k) [] [v]) s1 ∧ s1.cellsFree false .plain s.ownExt cells) →
        ∃ d fl, CompletesT (.dgld v a n k) k s (took s d fl) ∧ right d fl) ∧
      ((∃ s1, Made (withVregs (s.popped k) [] [v]) s1 ∧ s1.cellsFree true .plain s.ownExt cells) →
        ∃ d fl, CompletesT (.dgldc v a n k) k s (grads (took s d fl)) ∧ right d fl))

/-- R155, R156, R266, R270. A vector store writes its 64 cells in rising order, so that the last of cells that coincide
stands; where it meets a differentiable region it pushes a record of the old values first; in reverse mode it takes the record
back, or has no effect where it meets none. -/
def Obligations.VectorStores : Prop :=
  ∀ (v a : RegNo) (i : Bool) (m : BitVec 2) (o : BitVec 8) (k : BitVec 4) (s : State) (st : Stream),
    st = .l ∨ st = .s → OnT s st k →
    let eas := vecAddrs s v a m o
    let j : Instr := .vst v a i m o k
    let step (e : State) : State :=
      (if i ∧ m ≠ 2 then e.setAreg a (e.areg a + (if m = 1 then 8 else 512)) else e).warnIf (i && decide (m = 2))
    let idx := if m = 2 then [v + 1] else []
    let put (e : State) : State := (List.range 64).foldl
      (fun e c => e.putBytes (s.placeOf (eas.getD c 0)) (leBytes 8 (velem (s.vreg v) 8 c))) e
    ((s.popped k).vregsFree (idx ++ [v]) [v] → ∀ c e, s.pocketFault 8 eas = some (c, e) → Traps j s c e) ∧
    (s.pocketFault 8 eas = none → ∀ s0, Made (withIndex (s.popped k) (vecForm false i m) v) s0 →
      (s.reversed = false → ∀ s1 s2, Made (withVregs s0 [v] []) s1 →
        Made (withCells s1 true .plain s.ownExt eas) s2 →
        (s.anyDiff eas = false → CompletesT j k s (step (put s))) ∧
        (s.anyDiff eas = true → ∀ s3,
          Made (pushRecord s2 (vectorRecord eas (vecWrite s (s.vreg v) (eas.zip (List.range 64))).2)) s3 →
          CompletesPopped j k s (step (put s3)))) ∧
      (s.reversed = true → s.anyDiff eas = false → CompletesT j k s (step s)) ∧
      (s.reversed = true → s.anyDiff eas = true → ∀ s1 s2 rec, Made (withVregs s0 [] [v]) s1 →
        popRecord s1 17 576 (vectorKeyOf (vectorRecord eas [])) vectorKeyOf
          (fun e bs => if bs = rec then .done e else .trap 0 0) = .done s2 →
        (s2.placesFree true .plain (eas.flatMap fun ea =>
          (s.cellElems ea).flatMap (fun e => shadowLocs e.1) ++
            (if (s.regionOfEa ea).isSome then [cellOf (s.placeOf ea)] else []))) →
        CompletesPopped j k s (step (vecRestore s2 v rec (eas.zip (List.range 64)).reverse))))

/-! ## Engine commands (R34, R91 to R93, R196 to R208, R280 to R301, R406 to R415) -/

/-- R287, R291 to R299. A matrix command that passes its checks is accepted with the register values of its issue; its
dimensions must be 1 to 64, and the depth of a product at least 1, or it takes cause 0x2B; of a Pocket operand an address that is no
multiple of 8 (of a snapshot, 16) or a stride that is no multiple of 8 takes 0x04 with the first such value, the operands in the order
A, B, bias, snapshot, destination, raw source. -/
def Obligations.MatrixCommands : Prop :=
  ∀ (h : Hdr) (tm : BitVec 4) (t t2 : BitVec 2) (anc : BitVec 8) (fx row0 nr : BitVec 6) (lv : BitVec 3) (tri : BitVec 2)
    (as snp ta tb mca mcb cap clr tr cs : Bool) (sn sd ss sb sa : RegNo) (s : State), OnC s →
    let e := s.matEntry fx lv
    let u := s.fmtUse fx lv snp sn
    let ent := s.source s.here u.entry u.snap
    let d := s.sreg sd
    let p := s.sreg sa
    let pb := s.sreg sb
    let k := bitsOf d 0 16
    let m := dimM d
    let n := dimN d
    let lo := bitsOf (s.sreg ss) 0 32
    let hi := bitsOf (s.sreg ss) 32 32
    let cols := bitsOf (s.sreg ss) 32 7
    let ab := settlePair ent
    let bias := settleFmt (entryField ent 48 4) okBias .fp32
    let out := settleFmt (entryField ent 44 4) okOut .fp32
    let opA : MOperand :=
      { p := p, q := lo, outer := if ta then k else m, inner := (if ta then m else k) * ab.1.width }
    let opB : MOperand :=
      { p := pb, q := hi, outer := if tb then n else k, inner := (if tb then k else n) * ab.2.1.width }
    let rows (w : Nat) : MOperand := rowsOperand p lo cols nr.toNat tr w
    let good (x : Nat) : Prop := 1 ≤ x ∧ x ≤ 64
    let dim (i : Instr) (r : W64) : Prop := Traps i s 0x2B r
    let room := s.queueHeld s.here < 16 ∧ Roomy s h.cc h.aq h.rl h.sc.toNat
    let misaligned (i : Instr) (l : List (Nat × Nat)) : Prop :=
      ∀ x, (l.find? fun x => decide (x.1 % x.2 ≠ 0)) = some x → Traps i s 0x04 (BitVec.ofNat 64 x.1)
    let rowsAt : List (Nat × Nat) := [(p.toNat, 8), (lo, 8)]
    let snapAt : List (Nat × Nat) := if snp then [((s.sreg sn).toNat, 16)] else []
    (MatrixReady s h none [] →
      AcceptsMatrix (.mzero h tm anc as fx lv) s h 1 (.zero tm (if as then none else some anc.toInt) e) ∧
      AcceptsMatrix (.maddt h t t2 cs) s h 1 (.addt t.toNat t2.toNat cs) ∧ AcceptsMatrix (.mnop h) s h 0 .nop) ∧
    (MatrixReady s h (some u) [opA, opB] → 1 ≤ k → good m → good n →
      AcceptsMatrix (.mma h t fx lv snp ta tb mca mcb tri sn sd ss sb sa) s h 2
        (.mma t.toNat { entry := u.entry, snap := u.snap, fa := ab.1.code, fb := ab.2.1.code, fo := 0 } ta tb tri.toNat p pb
          lo hi k m n)) ∧
    (MatrixReady s h (some u) [{ p := p, q := 0, outer := 1, inner := n * bias.1.width }] → good m → good n →
      AcceptsMatrix (.mbias h t fx lv snp sn sd sa) s h 2
        (.bias t.toNat { entry := u.entry, snap := u.snap, fa := 0, fb := bias.1.code, fo := 0 } p m n)) ∧
    (MatrixReady s h (some u) [rows out.1.width] → good cols →
      AcceptsMatrix (.mout h t fx lv snp cap clr tr row0 nr sn ss sa) s h 2
        (.out t.toNat { entry := u.entry, snap := u.snap, fa := 0, fb := 0, fo := out.1.code } cap clr tr row0.toNat nr.toNat
          p lo cols)) ∧
    (MatrixReady s h none [rows 16] → good cols →
      AcceptsMatrix (.moutr h t clr tr row0 nr ss sa) s h 2 (.outRaw t.toNat clr tr row0.toNat nr.toNat p lo cols) ∧
      AcceptsMatrix (.mldr h t tr row0 nr ss sa) s h 2 (.loadRaw t.toNat tr row0.toNat nr.toNat p lo cols)) ∧
    (MatrixReady s h none [{ p := p, q := 0, outer := 1, inner := 16 }] → p.toNat % 16 = 0 →
      AcceptsMatrix (.msnap h fx lv sa) s h 1 (.snap e p)) ∧
    (room →
      (k = 0 → dim (.mma h t fx lv snp ta tb mca mcb tri sn sd ss sb sa) 1) ∧
      (k ≠ 0 → ¬(good m ∧ good n) → dim (.mma h t fx lv snp ta tb mca mcb tri sn sd ss sb sa) 2) ∧
      (¬(good m ∧ good n) → dim (.mbias h t fx lv snp sn sd sa) 2) ∧
      (¬good cols → dim (.mout h t fx lv snp cap clr tr row0 nr sn ss sa) 3 ∧ dim (.moutr h t clr tr row0 nr ss sa) 3 ∧
        dim (.mldr h t tr row0 nr ss sa) 3) ∧
      (1 ≤ k → good m → good n → misaligned (.mma h t fx lv snp ta tb mca mcb tri sn sd ss sb sa)
        ([(p.toNat, 8), (lo, 8), (pb.toNat, 8), (hi, 8)] ++ snapAt)) ∧
      (good m → good n → misaligned (.mbias h t fx lv snp sn sd sa) ((p.toNat, 8) :: snapAt)) ∧
      (good cols → misaligned (.mout h t fx lv snp cap clr tr row0 nr sn ss sa) (snapAt ++ rowsAt) ∧
        misaligned (.moutr h t clr tr row0 nr ss sa) rowsAt ∧ misaligned (.mldr h t tr row0 nr ss sa) rowsAt) ∧
      misaligned (.msnap h fx lv sa) [(p.toNat, 16)]) ∧
    (16 ≤ s.queueHeld s.here → Waits (.mnop h) s)

/-- R199, R201. A tile move that passes its checks is accepted with its descriptor's bytes: from L and S with the descriptor's
address in a register, from C with it in the step word. Of each form a misaligned descriptor takes cause 0x04, one beyond the Pocket
0x05, a descriptor error 0x17, each with the descriptor's address in eval; that of C is a multiple of 64 whatever its word. -/
def Obligations.TileMoves : Prop :=
  ∀ (mj a r : Bool) (t : RegNo) (c : BitVec 3) (q : BitVec 2) (sc k : BitVec 4) (h : Hdr) (dsc : BitVec 14) (s : State),
    let da := (s.areg t).toNat
    let dc := 64 * dsc.toNat
    let errs (i : Instr) (kind : MoveKind) (elem at_ : Nat) : Prop :=
      (at_ % 64 ≠ 0 → Traps i s 0x04 (BitVec.ofNat 64 at_)) ∧
      (at_ % 64 = 0 → 0xC0000 ≤ at_ → Traps i s 0x05 (BitVec.ofNat 64 at_)) ∧
      (at_ % 64 = 0 → at_ < 0xC0000 →
        s.tileError s.stream kind elem (memBytes s.mem (pocketPlace s.here at_) 64) = true → Traps i s 0x17 (BitVec.ofNat 64 at_))
    let acc (i : Instr) (kind : MoveKind) (elem : Nat) : Prop :=
      (MoveReady s kind elem da → AcceptsMove i s 0 c none none a r kind elem da) ∧ errs i kind elem da
    let accC (i : Instr) (kind : MoveKind) (elem : Nat) : Prop :=
      (MoveReady s kind elem dc → AcceptsMove i s 1 h.cc (semField h.wt) (semField h.sg) h.aq h.rl kind elem dc) ∧
        errs i kind elem dc
    (s.stream = .l ∨ s.stream = .s → OnT s s.stream k → Calm s → Roomy s c a r sc.toNat →
      acc (.tmov mj t c q a r sc k) .mov q.toNat ∧ acc (.tgath mj t c q a r sc k) .gath 0 ∧
      acc (.tscat mj t c q a r sc k) .scat 0 ∧ acc (.tfill mj t c q a r sc k) .fill 0 ∧
      acc (.tmovf mj t c q a r sc k) .movf 0) ∧
    (OnC s → Calm s → Roomy s h.cc h.aq h.rl h.sc.toNat →
      accC (.tcmov h q dsc) .mov q.toNat ∧ accC (.tcgath h dsc) .gath 0 ∧ accC (.tcscat h dsc) .scat 0 ∧
      accC (.tcfill h dsc) .fill 0 ∧ accC (.tcmovf h dsc) .movf 0)

/-- R226, R227. A range command issues with its registers' values and makes its checks as it runs. -/
def Obligations.RangeCommands : Prop :=
  ∀ (h : Hdr) (z y x : RegNo) (s : State), OnC s → Roomy s h.cc h.aq h.rl h.sc.toNat →
    let acc (i : Instr) (fn : Nat) (vx vy vz : W64) : Prop :=
      Accepted i s 1 h.cc (semField h.wt) (semField h.sg) h.aq h.rl fun u j =>
        u.rangeJobs = s.rangeJobs ++ [{ job := j, fn := fn, x := vx, y := vy, z := vz, inv := none, ivs := [] }]
    acc (.rinv h y x) 1 (s.sreg x) (s.sreg y) 0 ∧ acc (.rinvx h x) 2 (s.sreg x) 0 0 ∧ acc (.rinva h) 3 0 0 0 ∧
    acc (.rsplit h z y x) 4 (s.sreg x) (s.sreg y) (s.sreg z) ∧ acc (.rmerge h y x) 5 (s.sreg x) (s.sreg y) 0 ∧
    acc (.rpress h y x) 6 (s.sreg x) (s.sreg y) 0 ∧ acc (.rres h z y x) 7 (s.sreg x) (s.sreg y) (s.sreg z) ∧
    acc (.rgena h x) 8 (s.sreg x) 0 0

/-- R404 to R408. A collective whose communicator is configured, not blocked and of the task's queue is accepted as the next
one of its communicator, once its task is the oldest. -/
def Obligations.CollectiveCommands : Prop :=
  ∀ (h : Hdr) (cm : BitVec 6) (op : BitVec 4) (fx : BitVec 6) (lv : BitVec 3) (rt : BitVec 8) (sc sb sa : RegNo) (s : State)
    (t : Task), OnC s → Calm s → Roomy s h.cc h.aq h.rl h.sc.toNat →
    let cfg := s.cmcfg cm
    let size := s.commSize cm
    let rank := s.commRank cm
    let ranks := s.rankList cm
    let own := ranks.getD rank 0
    let n := s.countOf sc
    let e := entryIndex fx.toNat lv.toNat s.me.c.loops
    let ent := (s.me.entry e).bits
    let fa := settleFmt (entryField ent 52 4) okBias .fp32
    let fo := settleFmt (entryField ent 44 4) okCollOut .fp32
    let fits (ea : W64) (len : Nat) (need : Perm) : Prop := len = 0 ∨
      (eaLevel ea = 2 ∨ eaLevel ea = 3) ∧ ea.toNat % 8 = 0 ∧
      s.operandFault s.here { lv := eaLevel ea, base := eaLow ea, str := 0, rows := 1, len := len, indexed := false } need = none
    let used (ea : W64) (n : Nat) : Prop := n = 0 ∨ (eaLevel ea = 2 ∨ eaLevel ea = 3) ∧ ea.toNat % 8 = 0
    let acc (i : Instr) (fn root k : Nat) (send recv : W64) (wa wo : Nat) : Prop :=
      (fn = 7 ∨ 1 ≤ k ∧ k < 2 ^ 31 ∧ (countsBytes fn = true → k % 8 = 0)) → (fn = 4 ∨ fn = 5 → root < size) →
      (reduces fn = true → ¬(op.toNat ≠ 0 ∧ fo.1 = .xacc128)) →
      fits send (sendBytes fn size rank root k wa) .read → fits recv (recvBytes fn size rank root k wo) .write →
      used send (sendBytes fn size rank root k 1) → used recv (recvBytes fn size rank root k 1) →
      Accepted i s 2 h.cc (semField h.wt) (semField h.sg) h.aq h.rl fun u j =>
        ∃ c, u.colls = s.colls ++ [c] ∧ c.job.id = j.id ∧ c.cm = cm ∧ c.j = (s.comm cm).issued + 1 ∧ c.fn = fn ∧
          c.size = size ∧ c.rank = rank ∧ c.k = k ∧ c.rt = root ∧ c.send = send ∧ c.recv = recv ∧ c.pos = 0 ∧
          (u.comm cm).issued = (s.comm cm).issued + 1
    s.taskAt s.here = some t → s.isOldest t.tid = true → t.queue = bitsOf cfg 16 16 → cfg.getLsbD 63 = true →
    (s.comm cm).blocked = false → (s.comm cm).noticed = [] → rank < size → rankPkn own = s.pkn → rankDom own = s.dom →
    bitsOf (s.devReg 0x40008) (8 * (rankPanel own).toNat) 6 ≠ 0 → s.deadRank ranks = none →
    (s.colls.filter fun c => decide (c.panel = rankPanel own)).length < 16 →
    acc (.car h cm op fx lv sc sb sa) 1 0 n (s.sreg sa) (s.sreg sb) fa.1.width fo.1.width ∧
    acc (.crs h cm op fx lv sc sb sa) 2 0 n (s.sreg sa) (s.sreg sb) fa.1.width fo.1.width ∧
    acc (.cag h cm sc sb sa) 3 0 n (s.sreg sa) (s.sreg sb) 1 1 ∧
    acc (.cbc h cm rt sc sb sa) 4 rt.toNat n (s.sreg sa) (s.sreg sb) 1 1 ∧
    acc (.cred h cm op fx lv rt sc sb sa) 5 rt.toNat n (s.sreg sa) (s.sreg sb) fa.1.width fo.1.width ∧
    acc (.ca2a h cm sc sb sa) 6 0 n (s.sreg sa) (s.sreg sb) 1 1 ∧ acc (.cbar h cm) 7 0 0 0 0 1 1

/-- R93, R202, R218, R220, R222 to R227, R285, R289. What engines do with accepted commands: the matrix engine, on a state
without unordered accesses, clears tiles and accumulates products element by element; a completed command leaves its list and
its counter falls; a tile move between scratch levels copies its rows in order; a range command that may not be done reports
cause 0x1E with its entry and reason, and one that may has its effect on the table and starts its invalidation; the Press copies
a block; and an invalidation that completes leaves no translation of its intervals from before it in a lookaside table, and
sends its interrupt. That a command's or a move's rows and a block of the Press are one step each is the model's choice
(assumption logs 54, 25), and so are the order of a range command's reasons and RINVX's (assumption log 65). -/
def Obligations.EngineRuns : Prop :=
  ∀ (s : State) (sh : ShNo) (id : Nat),
    let dropped (u : State) (num lo hi : Nat) : Prop := ∀ e ∈ u.rlts, e.born < num → ¬(lo < e.d.stop ∧ e.d.key < hi)
    let msi := (s.sendMsi (bitsOf (s.devReg 0x40010) 0 16)).msis
    (∀ m, s.matOf sh id = some m → m.job.started = false → m.row = 0 →
      (∀ o ∈ s.earlierMats m, o.job.started = true ∧ o.job.ran = true) → m.job.wt = none → s.updatesAhead m.job.know = false →
      m.job.failed = false → s.tags = [] →
      s.bad = [] → m.job.win = (s.shuttle sh).rwin → ∃ u, exec (.matrixCommandStart sh id) s = .next u ∧
        (∃ o ∈ u.mats, o.job.id = id ∧ o.job.started = true ∧ o.job.ran = true ∧ o.job.failed = false) ∧
        (∀ tm a e, m.op = .zero tm (some a) e → u.mem = s.mem ∧ ∀ (t : BitVec 2) (r : BitVec 6),
          ((u.shuttle sh).tile t).row r = if tm.getLsbD t.toNat then { cells := Vector.replicate 64 XCell.empty, anchor := a }
            else ((s.shuttle sh).tile t).row r) ∧
        (∀ t f ta tb tri pa pb qa qb k mm n, m.op = .mma t f ta tb tri pa pb qa qb k mm n → mm ≤ 64 → u.mem = s.mem ∧
          ∀ (i : BitVec 6) (j : Nat), j < 64 →
            let fa := fmtOfCode f.fa
            let fb := fmtOfCode f.fb
            let old := ((s.shuttle sh).tile (BitVec.ofNat 2 t)).row i
            let new := ((u.shuttle sh).tile (BitVec.ofNat 2 t)).row i
            let x (kk : Nat) : FVal := fmtValue fa (s.codeAt sh
              (pa.toInt + (if ta then kk * qa + i.toNat * fa.width else i.toNat * qa + kk * fa.width : Nat)) fa.width)
            let y (kk : Nat) : FVal := fmtValue fb (s.codeAt sh
              (pb.toInt + (if tb then j * qb + kk * fb.width else kk * qb + j * fb.width : Nat)) fb.width)
            new.anchor = old.anchor ∧
            (new.cell j).acc = if i.toNat < mm ∧ j < n ∧ triOk tri i.toNat j = true then
                (List.range k).foldl
                  (fun z kk => (contribute 136 old.lsb z (mulVal (x kk) (y kk)).1 (mulVal (x kk) (y kk)).2).1) (old.cell j).acc
              else (old.cell j).acc)) ∧
    (∀ m, s.mats.find? (fun m => decide (m.job.id = id ∧ m.job.sh = sh) && m.job.ran) = some m → s.mayComplete m.job = true →
      (m.op = .nop → s.earlierMats m = []) → (s.shuttle sh).task = m.job.task →
      ∃ u, exec (.matrixCommandComplete sh id) s = .next u ∧ u.mats = s.mats.filter (fun o => decide (o.job.id ≠ id)) ∧
        (u.shuttle sh).count m.job.cc = (s.shuttle sh).count m.job.cc - 1 ∧ u.mem = s.mem) ∧
    (∀ m, s.moveOf sh id = some m → m.awaits = [] → m.ending = none → m.job.started = false → m.job.wt = none →
      s.updatesAhead m.job.know = false → m.job.failed = false → m.kind = .mov → m.elem = 0 → m.row = 0 → m.tape = none →
      m.job.rev = false → s.tags = [] →
      (∀ p, s.badCell p = false) → m.job.win = (s.shuttle sh).rwin →
      (∀ p t, m.job.task = some p → s.taskOf p.1 = some t →
        t.stat ≠ .stopping ∧ (t.committing = true ∨ t.overShare p.2 (panelOf sh) = false)) →
      let d := tileDesc m.desc
      let lv (ea : W64) : Nat := eaLevel ea
      let place (ea : W64) (str : Int) (i : Nat) : Nat := (s.scratchAt sh (lv ea) (eaLow ea + i * str)).getD 0
      lv d.src ≠ 3 → lv d.dst ≠ 3 → d.ctl < 4 →
      ∃ u, exec (.tileMoveRun sh id) s = .next u ∧
        (∃ o ∈ u.moves, o.job.id = id ∧ o.job.ran = true ∧ o.job.failed = false ∧ o.row = d.rows) ∧
        u.mem = ((List.range d.rows).foldl
          (fun e i => e.putBytes (place d.dst d.dstr i) (memBytes e.mem (place d.src d.sstr i) d.rlen)) s).mem) ∧
    (∀ m, s.moveOf sh id = some m → (m.awaits.any fun c => !s.resReqs.any fun r => decide ((r.ix, r.ch) = c)) = true →
      exec (.moveResidencyResume sh id) s = .next (s.advanceMove { m with awaits := [] })) ∧
    (∀ m, s.moves.find? (fun m => decide (m.job.id = id ∧ m.job.sh = sh) && m.job.ran) = some m →
      s.mayComplete m.job = true → (s.shuttle sh).task = m.job.task →
      ∃ u, exec (.tileMoveComplete sh id) s = .next u ∧ u.moves = s.moves.filter (fun o => decide (o.job.id ≠ id)) ∧
        (u.shuttle sh).count m.job.cc = (s.shuttle sh).count m.job.cc - 1 ∧ u.mem = s.mem) ∧
    (∀ r n, s.rangeJobOf sh id = some r → r.job.started = false → r.job.wt = none → s.updatesAhead r.job.know = false →
      r.job.failed = false → s.mayPerform r.job.task = true → (s.rangeJobs.any fun o => o.job.started && onTable o.fn) = false →
      s.rangeReason r.fn r.x.toNat r.y.toNat = some n → (s.shuttle sh).task = r.job.task →
      ∃ u, exec (.rangeCommandRun sh id) s = .next u ∧ u.mem = s.mem ∧ ∃ f ∈ (u.shuttle sh).pending,
        f.cause = 0x1E ∧ f.eval = BitVec.ofNat 64 (r.x.toNat % 2 ^ 20 * 2 ^ 32 + n) ∧ f.ipc = r.job.ipc ∧ f.cmd = r.job.id) ∧
    (∀ r, s.Ok → (∀ p, s.badCell p = false) → s.rangeJobOf sh id = some r → r.job.started = false → r.job.wt = none →
      s.updatesAhead r.job.know = false →
      r.job.failed = false → s.mayPerform r.job.task = true → (s.rangeJobs.any fun o => o.job.started && onTable o.fn) = false →
      s.rangeReason r.fn r.x.toNat r.y.toNat = none →
      let x := r.x.toNat
      let d := s.desc x
      let e := s.desc (x + 1)
      let gen (d : Desc) : Desc := d.setGen (d.gen + 1)
      let k := r.y.toNat / 2 ^ 16
      ∃ u, exec (.rangeCommandRun sh id) s = .next u ∧
        (1 ≤ r.fn → r.fn ≤ 3 → u.mem = s.mem) ∧
        (1 ≤ r.fn → r.fn ≤ 6 → u.invals = s.invals + 1 ∧
          ∃ o ∈ u.rangeJobs, o.job.id = id ∧ o.inv = some u.invals ∧ o.ivs = r.intervals s ∧ (r.fn ≠ 6 → o.job.ran = true)) ∧
        (r.fn = 4 → d.full = true → u.desc x = gen (d.setLen k) ∧
          u.desc (x + 1) = gen ((((d.setVb (d.vb + k)).setLen (d.len - k)).setPb (d.pb + k)).setRmi (bitsOf r.z 0 32))) ∧
        (r.fn = 5 → d.full = true → e.full = true → u.desc x = ((gen (d.setLen (d.len + e.len))).setFull 1).setRmi (bitsOf r.y 0 32) ∧
          u.desc (x + 1) = e.setV 0) ∧
        (r.fn = 6 → u.desc x = d.setPrs 1 ∧
          u.press = some { job := id, ix := x, base := r.y.toNat, len := d.len * 2 ^ 16, mark := 0, phase := .opening }) ∧
        (r.fn = 7 → u.mem = s.mem ∧ ∀ q ∈ u.resReqs, q.ix ≠ x ∨ q.ch ≠ r.y.toNat) ∧
        (r.fn = 8 → (u.desc x).gen = (d.gen + 1) % 2 ^ 16)) ∧
    (∀ r, s.rangeJobOf sh id = some r → r.job.started = true → r.job.ran = true → r.inv = none → s.mayComplete r.job = true →
      (s.shuttle sh).task = r.job.task →
      ∃ u, exec (.rangeCommandRun sh id) s = .next u ∧
        u.rangeJobs = s.rangeJobs.filter (fun o => decide (o.job.id ≠ id)) ∧
        (u.shuttle sh).count r.job.cc = (s.shuttle sh).count r.job.cc - 1) ∧
    (∀ p pa, s.press = some p → p.phase = .copying → p.mark < p.len →
      s.reach ((s.desc p.ix).pb * 2 ^ 16 + p.mark) ((s.desc p.ix).key + p.mark) = .ok pa →
      ∃ u, exec .pressBlockCopy s = .next u ∧ u.press = some { p with mark := p.mark + 4096 } ∧
        u.mem = memStore s.mem (p.base + p.mark) (memBytes s.mem pa 4096)) ∧
    (∀ iv, s.rivBusy = some iv → s.invalidated iv.num [(iv.lo, iv.hi)] = true →
      ∃ u, exec (.invalidationComplete 0) s = .next u ∧ u.rivBusy = none ∧ u.msis = msi ∧ u.mem = s.mem ∧
        dropped u iv.num iv.lo iv.hi) ∧
    (∀ r num, id ≠ 0 → s.rangeJobs.find? (fun r => r.job.id = id) = some r → r.inv = some num →
      s.invalidated num r.ivs = true →
      ∃ u, exec (.invalidationComplete id) s = .next u ∧
        u.rangeJobs = s.rangeJobs.map (fun o => if o.job.id = id then { r with inv := none } else o) ∧ u.msis = msi ∧
        u.mem = s.mem ∧ (∀ iv ∈ r.ivs, dropped u num iv.1 iv.2) ∧
        (r.job.ran = false → ∀ p, s.press = some p → p.job = id → p.phase = .opening →
          u.press = some { p with phase := .copying }))

/-- R405, R410 to R415. A Heddle's next chunk carries its bytes and its digest to the ranks of its schedule; a chunk that arrives is
drained into its collective once that has started, and else into a free slot of the landing area; another digest or a notice ends a
collective, a notice also one not issued yet; a collective that has run leaves and is counted in CMSEQ; a switch that waits too
long gives its reduction back; and configuring a communicator without collectives restarts it. The chunks and ranks of a schedule
are the model's choice (assumption log 31), and so is an old chunk's arrival, which changes nothing (assumption log 19). -/
def Obligations.CollectiveEvents : Prop :=
  ∀ (s : State) (panel : BitVec 2) (cm : BitVec 6) (sh : ShNo) (id : Nat) (v : W64),
    let set := (s.cmcfg cm).getLsbD 63 = true
    let ended (u : State) (cm : BitVec 6) : Prop := (u.comm cm).blocked = true ∧ ∀ o ∈ u.colls, o.cm = cm → o.job.ran = true
    (∀ credits c p, firstBy collBefore (s.colls.filter fun c => decide (c.panel = panel) && s.collReady credits c) = some c →
      c.job.started = true → c.switch = false → c.schedule[c.pos]? = some p →
      s.deadRank (p.ranks.map fun r => c.dig.ranks.getD r 0) = none → eaLevel c.send = 2 → s.tags = [] → (∀ p, s.badCell p = false) →
      ∃ u, exec (.heddleChunkBegin ⟨panel, credits⟩) s = .next u ∧ u.mem = s.mem ∧ ∀ k ∈ p.ranks,
        let sent := if p.len = 0 then [] else
          memBytes s.mem ((s.scratchAt c.job.sh 2 ((eaLow c.send + p.at_ : Nat) : Int)).getD 0) p.len
        let rel := c.job.rl && decide (4 ≤ extRank (c.job.release (.set [c.job.sh])).ext)
        let w := c.dig.ranks.getD k 0
        let m : CollMsg := { cm := c.cm, j := c.j, rank := some k, dig := c.dig, chunk := some (p.off, sent), rel := rel }
        (s.overWarp w = false → m ∈ u.outChunks) ∧
        (s.overWarp w = true → ∃ q ∈ u.posted, q.tag.peer = rankPkn w ∧ q.tag.vc = s.commVc c.cm ∧ q.mail = .coll m)) ∧
    (∀ credits, (∀ c ∈ s.colls, c.panel = panel → s.collReady credits c = false) →
      exec (.heddleChunkBegin ⟨panel, credits⟩) s = .next s) ∧
    (∀ c : Chunk, (s.cmcfg c.cm).getLsbD 63 = true → (s.comm c.cm).blocked = false → c.reduced = none →
      (s.comm c.cm).has (s.collOf c.cm c.j) c = false →
      let slot (i : Nat) (u : State) : Prop := (u.comm c.cm).landed = (s.comm c.cm).landed ++ [(i, c)] ∧ u.colls = s.colls ∧
        u.mem = memStore s.mem (bitsOf (s.devReg (commReg c.cm 0x10)) 12 44 * 4096 + i * s.commChunk c.cm) c.data
      (c.tag = none →
        (∀ i, (s.comm c.cm).freeSlot = some i →
          ((s.comm c.cm).issued < c.j ∧ s.colls = [] ∨ ∃ o, s.collOf c.cm c.j = some o ∧ o.job.started = false) →
          ∃ u, exec (.chunkArrival c) s = .next u ∧ slot i u) ∧
        (∀ o, s.collOf c.cm c.j = some o → o.job.started = true →
          (c.dig = o.dig → ∃ u, exec (.chunkArrival c) s = .next u ∧ u.mem = s.mem ∧
            u.colls = s.colls.map fun q => if q.job.id = o.job.id then { o with got := o.got ++ [c] } else q) ∧
          (c.dig ≠ o.dig → ∃ u, exec (.chunkArrival c) s = .next u ∧ ended u c.cm)) ∧
        (c.j ≤ (s.comm c.cm).issued → s.colls = [] → exec (.chunkArrival c) s = .next s)) ∧
      ∀ t, c.tag = some t → (s.comm c.cm).freeSlot.isSome = true →
        ((s.devReg warpBlock).getLsbD 8 = false → exec (.chunkArrival c) s = .next s) ∧
        ((s.devReg warpBlock).getLsbD 8 = true → (s.channel t.peer t.vc).performed.contains t.seq = true →
          exec (.chunkArrival c) s = .next (s.acknowledge t (.data [])))) ∧
    (∀ j, set → s.colls = [] → (s.comm cm).issued < j →
      ∃ u, exec (.faultNoticeArrival none cm j) s = .next u ∧ (u.comm cm).noticed = (s.comm cm).noticed ++ [j]) ∧
    (∀ j c, set → s.collOf cm j = some c → ∃ u, exec (.faultNoticeArrival none cm j) s = .next u ∧ ended u cm) ∧
    (∀ c, s.colls.find? (fun c => decide (c.job.id = id ∧ c.job.sh = sh)) = some c → s.isSaved c.job.task = false →
      c.job.ran = true → s.mayComplete c.job = true → (s.shuttle sh).task = c.job.task →
      ∃ u, exec (.collectiveComplete sh id) s = .next u ∧ u.colls = s.colls.filter (fun o => decide (o.job.id ≠ id)) ∧
        u.devReg (commReg c.cm 0x18) = s.devReg (commReg c.cm 0x18) + 1 ∧
        (u.shuttle sh).count c.job.cc = (s.shuttle sh).count c.job.cc - 1) ∧
    (∀ c, s.colls.find? (fun c => decide (c.job.id = id ∧ c.job.sh = sh)) = some c → c.switch = true → c.job.started = true →
      c.job.ran = false → c.result = none →
      ∃ u, exec (.switchLimitExpiry sh id) s = .next u ∧
        ∃ o ∈ u.colls, o.job.id = id ∧ o.switch = false ∧ o.pos = 0 ∧ o.sent = [] ∧ ∀ k ∈ o.got, k.reduced = none) ∧
    ((∀ c ∈ s.colls, c.cm ≠ cm) →
      ∃ u, exec (.cmcfgWrite cm v) s = .next u ∧ u.cmcfg cm = v &&& 0x80FFFF00FFFFFF80 ∧ (u.comm cm).blocked = false ∧
        (u.comm cm).issued = 0)

/-! ## Tasks' own synchronisation (R174 to R187) -/

/-- R174 to R182, R186, R187, R230. Full/empty cells, barriers and semaphores: what each does when it may go on, when it waits, and
the trap of a wait whose limit has passed. A full/empty read is at the scope of the fill it reads, one at `.io` or `.sy` by the oldest
task (R168). When a phase has passed is read by inference (assumption log 61), and that the event of a limit that is not reached changes
nothing is the model's choice (assumption logs 19, 90). -/
def Obligations.CellsBarriersSemaphores : Prop :=
  ∀ (d a v : RegNo) (l k : BitVec 4) (b5 i5 : BitVec 5) (s : State),
    let ea : Int := (s.sreg a).toInt
    let p := s.placeOf ea
    let ready := s.pocketFault 8 [ea] = none ∧ s.ownUpdates = false
    let loom : Ext := .set (loomShuttles s.here)
    let ext (ea : Int) : Ext := s.fillExt (s.placeOf ea)
    let near (ea : Int) : Prop := ext ea ≠ .io ∧ ext ea ≠ .sy
    let some1 : Carry := { agent := 0, home := 0, ext := .pk, clk := [] }
    (OnC s →
      (∀ c e, s.pocketFault 8 [ea] = some (c, e) → Traps (.ldf d a l) s c e ∧ Traps (.ldfe d a l) s c e ∧
        Traps (.stef d a l) s c e ∧ Traps (.feset a) s c e ∧ Traps (.feclr a) s c e) ∧
      (ready → s.fe p = true →
        let read (e : State) : Prop :=
          ((e.sightCells [ea]).cellsFreeAt false .sync ext [ea] → CompletesBare (.ldf d a l) 0 s (e.setSreg d (s.dword p))) ∧
          ((e.sightCells [ea]).cellsFreeAt true .consume ext [ea] →
            CompletesBare (.ldfe d a l) 0 s ((e.setSreg d (s.dword p)).setFe p false))
        (near ea ∨ s.taskAt s.here = none → read s) ∧
        (¬near ea → ∀ t, s.taskAt s.here = some t → t.dual = false →
          (s.isOldest t.tid = true → read (s.bind s.me.task)) ∧
          (s.isOldest t.tid = false → Waits (.ldf d a l) s ∧ Waits (.ldfe d a l) s)) ∧
        WaitsFor (.stef d a l) s l.toNat) ∧
      (ready → s.fe p = false →
        (s.cellsFree true .fill loom [ea] →
          CompletesBare (.stef d a l) 0 s ((s.putDword p (s.sreg d)).setFe p true)) ∧
        WaitsFor (.ldf d a l) s l.toNat ∧ WaitsFor (.ldfe d a l) s l.toNat) ∧
      (ready → s.consumeDue p = false → s.cellsFree true .fill loom [ea] →
        CompletesBare (.feset a) 0 s (s.setFe p true)) ∧
      (ready → s.consumeDue p = true → Waits (.feset a) s) ∧
      (ready → s.cellsFree true .consume loom [ea] → CompletesBare (.feclr a) 0 s (s.setFe p false)) ∧
      (∀ t m g gi, let b := barrierNo b5
        let q := (t.bar b).made.getD m 0
        s.taskAt s.here = some t → s.me.task = some (t.tid, m) → t.gang = true → s.gangGroup t = some (gi, g) →
        ¬(q = (t.bar b).phase + 2 ∨ (q = (t.bar b).phase + 1 ∧ g.lead b = false)) →
        (∃ s1, Made (withTag s (barLoc s.here b.toNat) (s.barEval s.here b) true .plain t.gangExt) s1) →
        let arrived (cnt : Option Nat) : State :=
          (s.modTask t.tid fun t => t.setBar b ((t.bar b).arrive g.members.length m (g.posted b) cnt some1)).modMe
            fun x => { x with arrivals := x.arrivals.set b.toNat ((x.arrivals[b.toNat]'b.isLt) ++ [0]) b.isLt }
        (g.posted b = false → CompletesBare (.bararr b5 l) 0 s (arrived none)) ∧
        (g.posted b = true → (t.bar b).pst[(phaseIx q).val] = none →
          CompletesBare (.barpost b5 a l) 0 s (arrived (some (s.sreg a).toNat))) ∧
        (g.posted b = false → Traps (.barpost b5 a l) s 0x15 (s.curWord.setWidth 64))) ∧
      (∀ t m g gi, let b := barrierNo b5
        let q := (t.bar b).made.getD m 0
        s.taskAt s.here = some t → s.me.task = some (t.tid, m) → t.gang = true → s.gangGroup t = some (gi, g) →
        (q = (t.bar b).phase + 2 ∨ (q = (t.bar b).phase + 1 ∧ g.lead b = false)) →
        WaitsFor (.bararr b5 l) s l.toNat ∧ WaitsFor (.barpost b5 a l) s l.toNat ∧
        (s.me.bsw.getLsbD b.toNat = false →
          ((t.bar b).brk = true → Traps (.barsync b5 l) s 0x13 ((t.bar b).eval b)) ∧
          ((t.bar b).brk = false → WaitsFor (.barsync b5 l) s l.toNat))) ∧
      (∀ t, let b := barrierNo b5
        let n := s.me.arrivalsBefore b s.mySeq.know
        s.taskAt s.here = some t → s.me.task.isSome = true → t.gang = true → (s.gangGroup t).isSome = true → n ≠ 0 →
        ((t.bar b).brk = false → (t.bar b).hasPassed (n - 1) = true →
          CompletesBare (.barwait b5 l k) 0 s (s.modMe fun x => x.setBsw b false) ∧
          (s.me.bsw.getLsbD b.toNat = true → CompletesBare (.barsync b5 l) 0 s (s.modMe fun x => x.setBsw b false))) ∧
        ((t.bar b).brk = false → (t.bar b).hasPassed (n - 1) = false → WaitsFor (.barwait b5 l k) s l.toNat) ∧
        ((t.bar b).brk = true → Traps (.barwait b5 l k) s 0x13 ((t.bar b).eval b)))) ∧
    (OnT s s.stream k → s.stream ≠ .c →
      let eas := feAddrs s a
      let m := s.me.sem (semNo i5)
      (s.pocketFault 8 eas = none → s.ownUpdates = false →
        ((eas.all fun e => s.fe (s.placeOf e)) = true → (∀ e ∈ eas, near e) → ∀ s1, Made (withVregs (s.popped k) [] [v]) s1 →
          (s1.sightCells eas).cellsFreeAt true .consume ext eas → ∃ u : VReg,
            CompletesBare (.vldfe v a l k) k s (eas.foldl (fun e ea => e.setFe (s.placeOf ea) false) (s.setVreg v u)) ∧
            ∀ j < 64, velem u 8 j = s.pocketNat (eas.getD j 0) 8) ∧
        ((eas.all fun e => !s.fe (s.placeOf e)) = true → ∀ s1, Made (withVregs (s.popped k) [v] []) s1 →
          s1.cellsFree true .fill loom eas →
            CompletesBare (.vstef v a l k) k s (eas.foldl (fun e ea => e.setFe (s.placeOf ea) true)
              ((List.range 64).foldl (fun e j => e.putBytes (s.placeOf (eas.getD j 0)) (leBytes 8 (velem (s.vreg v) 8 j))) s)))) ∧
      (m.count < 255 →
        CompletesBare (.semsig i5 k) k s (s.modMe fun x => x.setSem (semNo i5) { m with count := m.count + 1 })) ∧
      (255 ≤ m.count → Waits (.semsig i5 k) s) ∧ (m.count = 0 → WaitsFor (.semwait i5 l k) s l.toNat) ∧
      (0 < m.count → tagOf s.tags (semLoc s.here (semNo i5).toNat) = [] →
        CompletesBare (.semwait i5 l k) k s (s.modMe fun x => x.setSem (semNo i5) { m with count := m.count - 1 }))) ∧
    ∀ (sh : ShNo) (st : Stream) (w : Stall), let q := (s.shuttle sh).seq st
      q.stall = some w → (s.shuttle sh).frozen = false → (s.shuttle sh).stopped st = false → q.run = .running →
      w.stamp = s.stamp →
      (w.limit ≠ 0 → w.since + 2 ^ (2 * w.limit + 6) ≤ s.cycle →
        exec (.waitLimitExpiry sh st) s = .next (s.takeTrap sh st 0x14 ((s.wordAt sh st).setWidth 64))) ∧
      (w.limit = 0 ∨ s.cycle < w.since + 2 ^ (2 * w.limit + 6) → exec (.waitLimitExpiry sh st) s = .next s)

/-! ## Consistency and atomics (R240 to R254) -/

/-- R240 to R250, R253. Synchronising loads and stores, fences, atomics and counted lines where they issue, and where fences and an
OATOM wait; what a bank unit does with an update; and the fill of a ready flag. That CLADD is a message also where its cell is local
is read by inference (assumption log 50), and so is the wait for updates of one's own (assumption log 49); whose access the fill is,
is the model's choice (assumption log 55). -/
def Obligations.SynchronisationAndAtomics : Prop :=
  ∀ (d a v : RegNo) (o : BitVec 3) (o4 l : BitVec 4) (w : BitVec 5) (c k : BitVec 4) (m8 : BitVec 8) (s : State) (e : Ext),
    s.scopeExt s.here s.mySeq.agent c.toNat = some e → farScope c.toNat = false →
    let ea : Int := (s.sreg a).toInt
    let p := s.placeOf ea
    let ready := s.pocketFault 8 [ea] = none ∧ s.ownUpdates = false
    let marked := s.me.marks.all Marks.done
    let joined (l : List Nat) : State := s.modMe fun x => { x with marks := [], fences := l }
    let key := s.instrKey
    let others := s.me.fences.filter (· ≠ key)
    let behind := s.markJobs 0xFF ≠ [] ∨ s.me.chanL.popped < s.me.chanL.pushed ∨ s.me.chanX.popped < s.me.chanX.pushed ∨
      s.me.chanS.popped < s.me.chanS.pushed
    let still (t : State) : Prop := t.mem = s.mem ∧ t.me.sregs = s.me.sregs ∧ t.pc = s.pc
    (OnT s s.stream k → s.stream ≠ .c → CompletesBare (.acq c k) k s s ∧ CompletesBare (.rel c k) k s s) ∧
    (OnT s s.stream k → s.stream ≠ .c → s.ownUpdates = false →
      let at_ (j : Nat) : W64 := s.areg a + BitVec.ofNat 64 (8 * j)
      ∀ s1 pl, Made (withVregs (s.popped k) [v] []) s1 →
        (∀ j < 64, s.updateTarget (at_ j) = .ok (.cell (pl j)) ∧ inPocket s.here (pl j) = true ∧ s.linePending (pl j) = false) →
        (∃ s2, Made (withScratch s1 true (.update o.toNat) e ((List.range 64).map pl)) s2) →
        let done : State := (List.range 64).foldl
          (fun z j => z.putDword (pl j) (atomFn o.toNat (z.dword (pl j)) ((s.vreg v).extractLsb' (64 * j) 64))) s
        CompletesBare (.vatom v a o c k) k s done ∧ CompletesBare (.vatomRel v a o c k) k s done) ∧
    (OnC s →
      CompletesBare (.acq c k) 0 s s ∧ CompletesBare (.rel c k) 0 s s ∧
      (ready → s.cellsFree false .sync e [ea] → CompletesBare (.lds d a c) 0 s (s.setSreg d (s.dword p))) ∧
      (ready → (s.sight (some e) (s.relsAt (cellOf p))).cellsFree false .sync e [ea] →
        CompletesBare (.ldsAcq d a c) 0 s (s.setSreg d (s.dword p))) ∧
      (ready → s.cellsFree true .sync e [ea] →
        CompletesBare (.sts d a c) 0 s (s.putDword p (s.sreg d)) ∧
        CompletesBare (.stsRel d a c) 0 s (s.putDword p (s.sreg d))) ∧
      (s.me.markBlock = none →
        ∃ u m, exec (.mark m8) s = .next u ∧ u.me.marks = s.me.marks ++ [m] ∧ m.jobs = s.markJobs m8 ∧ u.pc = s.pc + 4 ∧
          u.mem = s.mem ∧ u.me.sregs = s.me.sregs) ∧
      (∀ i, s.me.markBlock = some i →
        exec (.mark m8) s = .next ((s.modMe fun x => { x with markWait := some i }).stallSeq .other 0)) ∧
      (marked = true → CompletesBare (.join w c) 0 s (joined s.me.fences)) ∧
      (marked = false → WaitsFor (.join w c) s w.toNat) ∧
      (s.me.fences.contains key = true →
        (marked = true → CompletesBare (.fence w c) 0 s (joined others)) ∧ (marked = false → WaitsFor (.fence w c) s w.toNat)) ∧
      (s.me.fences.contains key = false →
        (∀ i, s.me.markBlock = some i →
          WaitsHaving (.fence w c) s w.toNat fun t => t.me.markWait = some i ∧ t.me.marks = s.me.marks ∧ still t) ∧
        (s.me.markBlock = none →
          (marked = true → ¬behind →
            CompletesBare (.fence w c) 0 s ((joined others).modMe fun x => { x with markWait := none })) ∧
          (marked = false ∨ behind → WaitsHaving (.fence w c) s w.toNat fun t => still t ∧ t.me.fences = key :: others ∧
            ∃ m, t.me.marks = s.me.marks ++ [m] ∧ m.jobs = s.markJobs 0xFF))) ∧
      (∀ pl, s.ownUpdates = false → s.updateTarget (s.sreg a) = .ok (.cell pl) →
        (inPocket s.here pl = true → s.linePending pl = false → (∃ s1, Made (withScratch s true (.update o.toNat) e [pl]) s1) →
          let done := s.putDword pl (atomFn o.toNat (s.dword pl) (s.sreg d))
          CompletesBare (.atom d a o c) 0 s done ∧ CompletesBare (.atomRel d a o c) 0 s done) ∧
        (inPocket s.here pl = false → s.linePending pl = false → ∃ u m, exec (.atom d a o c) s = .next u ∧
          u.msgs = s.msgs ++ [m] ∧ m.target = .cell pl ∧ m.op = .atom o.toNat ∧ m.val = s.sreg d ∧ u.mem = s.mem) ∧
        ((∀ l, s.lineAt pl = some l → l.ext ≠ .io ∧ l.ext ≠ .sy) → ∃ u m, exec (.cladd d a o) s = .next u ∧
          u.msgs = s.msgs ++ [m] ∧ m.target = .cell pl ∧ m.op = .contribute o.toNat ∧ m.val = s.sreg d ∧ u.mem = s.mem ∧ u.pc = s.pc + 4)) ∧
      (∀ lp fp, (s.sreg a).toNat % 64 = 0 → (s.sreg (d ||| 1)).toNat % 8 = 0 → s.updateTarget (s.sreg a) = .ok (.cell lp) →
        s.updateTarget (s.sreg (d ||| 1)) = .ok (.cell fp) →
        let n := bitsOf (s.sreg d) 0 32
        (s.refusesLine lp n = false →
          CompletesBare (.cldecl d a c) 0 s (s.declareLine (newLine s.nextId lp none n e fp none (s.me.task.map Prod.fst)))) ∧
        (s.refusesLine lp n = true → Traps (.cldecl d a c) s 0x26 (s.sreg a))) ∧
      (∀ pl, s.ownUpdates = false → s.updateTarget (s.sreg a) = .ok (.cell pl) → 2 ^ 60 ≤ pl →
        s.me.oatoms.find? (fun q => q.1 = key) = none →
        (s.lineAt pl = none → Traps (.oatom d a o4 l) s 0x23 (s.sreg a)) ∧
        ∀ n, s.lineAt pl = some n →
          (n.n ≤ n.recv → Traps (.oatom d a o4 l) s 0x23 (s.sreg a)) ∧
          (n.recv < n.n → n.kind = .plain → Traps (.oatom d a o4 l) s 0x25 (s.sreg a)) ∧
          (n.recv + 1 < n.n → n.kind ≠ .plain → n.ext ≠ .io → n.ext ≠ .sy →
            (∃ s1, Made (withScratch s true (.contribution o4.toNat) n.ext [pl]) s1) →
            WaitsHaving (.oatom d a o4 l) s l.toNat fun t => still t ∧ ∃ h n1, n1 ∈ t.lines ∧ n1.line = n.line ∧
              n1.kind = .ordered ∧ n1.recv = n.recv + 1 ∧ n1.held = n.held ++ [h] ∧ h.place = pl ∧ h.op = o4.toNat ∧
              h.val = s.sreg d ∧ h.key = (s.sreg (d ||| 1)).setWidth 32 ∧ t.me.oatoms = (key, h.id) :: s.me.oatoms)) ∧
      (∀ id, s.me.oatoms.find? (fun q => q.1 = key) = some (key, id) →
        let taken : State := { s.modMe (fun y => { y with oatoms := y.oatoms.filter fun q => decide (q.2 ≠ id) }) with
          results := assocErase id s.results }
        (s.results.find? (fun q => q.1 = id) = none → WaitsFor (.oatom d a o4 l) s l.toNat) ∧
        (∀ cause, s.results.find? (fun q => q.1 = id) = some (id, .refused cause) →
          exec (.oatom d a o4 l) s = .next (taken.takeTrap s.here s.stream cause (s.sreg a))) ∧
        ∀ val x rs, s.results.find? (fun q => q.1 = id) = some (id, .value val x rs) →
          CompletesBare (.oatom d a o4 l) 0 s ((taken.setSreg d val).noteOwn (s.sreg a)))) ∧
    (∀ (sh : ShNo) (id : Nat) (m : BankMsg) (pl op : Nat),
      s.msgs.find? (fun m => decide (m.id = id ∧ m.sh = sh)) = some m → m.target = .cell pl → m.op = .atom op →
      s.badCell pl = false → tagOf s.tags (cellOf pl) = [] → s.linePending pl = false → 2 ^ 60 ≤ pl →
      (∀ q ∈ s.msgs, q.sh = m.sh → q.st = m.st → m.id ≤ q.id) →
      ∃ u, exec (.bankUpdate sh id) s = .next u ∧ u.msgs = s.msgs.filter (fun q => decide (q.id ≠ id)) ∧
        u.mem = memStore s.mem pl (leBytes 8 (atomFn op (s.dword pl) m.val).toNat)) ∧
    (∀ (panel : BitVec 2) (line : Nat) (n : CLine),
      s.lines.find? (fun n => decide (n.panel = panel ∧ n.line = line ∧ n.recv = n.n) && !n.filled) = some n → n.peer = none →
      n.by_ ≠ none →
      (s.fe n.flag = true → exec (.clFlagFill panel line) s = .next s) ∧
      (s.fe n.flag = false → tagOf s.tags (cellOf n.flag) = [] →
        ∃ u, exec (.clFlagFill panel line) s = .next u ∧ u.fe n.flag = true ∧
          u.mem = memStore s.mem n.flag (leBytes 8 (BitVec.ofNat 64 n.n).toNat)))

/-! ## System instructions and traps (R25, R95, R96, R185, R260, R351 to R361) -/

/-- R25, R95, R260, R261, R351, R376. The system instructions: breakpoints and monitor calls trap; TRET returns in the mode of
esst to epc, in monitor mode only; CKMARK, DFWD, DREV, TEND, GINFO, TORDER and ABTOK where they complete, wait or trap. -/
def Obligations.SystemInstructions : Prop :=
  ∀ (d a : RegNo) (g : BitVec 2) (l k : BitVec 4) (s : State),
    let word := s.curWord.setWidth 64
    let rev (b : Bool) (w : W64) : W64 := if b then w ||| 0x10000 else w &&& ~~~0x10000
    let mode (b : Bool) : State :=
      (s.modMySeq fun q => { q with status := rev b q.status }).warnIf (decide (s.mySeq.status.getLsbD 16 = b))
    (s.stream = .c ∨ OnT s s.stream k → Traps (.brk k) s 0x0C 0) ∧
    (OnT s s.stream k → s.stream ≠ .c →
      CompletesT (.dfwd k) k s (mode false) ∧ CompletesT (.drev k) k s (mode true) ∧
      CompletesT (.tend k) k s (s.modMySeq fun q => { q with run := .ended })) ∧
    (s.stream = .c →
      Traps (.mcall d a) s 0x0D (BitVec.ofNat 64 (32 * d.toNat + a.toNat)) ∧
      (s.taskMode = true → Traps .tret s 0x03 word) ∧
      (s.taskMode = false →
        let ended := s.me.esst.getLsbD 0 = false ∧
          ∃ t p, s.taskAt s.here = some t ∧ s.me.task = some p ∧ t.ended.contains p.2 = true
        let back (r : Run) : Prop :=
          CompletesTo .tret s (((s.modMySeq fun q => { q with status := setMon (s.me.esst.getLsbD 0) q.status, run := r }).warnIf
            (decide (s.me.esst.toNat / 2 ≠ 0))).modMe fun y =>
              { y with fences := if s.me.esst.getLsbD 0 then y.fences else keptFences (s.me.epc &&& ~~~3#32) y.fences }) 0
            (s.me.epc &&& ~~~3#32)
        (¬ended → back s.mySeq.run) ∧ (ended → back .ended))) ∧
    (OnC s →
      CompletesTo (.dfwd k) s (mode false) 0 (s.pc + 4) ∧ CompletesTo (.drev k) s (mode true) 0 (s.pc + 4) ∧
      (∀ tid r, s.me.task = some (tid, r) →
        Completes (.ckmark a) s (s.modTask tid fun t => { t with ckmark := some (s.sreg a) })) ∧
      (s.me.task = none → Completes (.ckmark a) s s ∧ Completes (.torder l) s s) ∧
      (∀ t, s.taskAt s.here = some t → t.dual = false →
        (s.isOldest t.tid = true → Completes (.torder l) s (s.bind s.me.task)) ∧
        (s.isOldest t.tid = false → WaitsFor (.torder l) s l.toNat)) ∧
      (∀ t r e gr, s.taskAt s.here = some t → s.me.task = some (t.tid, r) → s.groupSlot s.here g.toNat = some e →
        (s.launchOf t.lid).bind (fun l => l.groups[e]?) = some gr →
        Completes (.ginfo d g) s (s.setSreg d
          (BitVec.ofNat 64 (gr.members.length * 2 ^ 32 + (gr.members.filter (· < t.places.getD r 0)).length)))) ∧
      (s.groupSlot s.here g.toNat = none → Traps (.ginfo d g) s 0x16 word) ∧
      (s.me.task = none → ∃ u, exec (.abtok a) s = .next u ∧ (∀ l ∈ u.launches, l.stopped = true) ∧
        (u.requests.any fun r => decide (r.kind = .token)) = true)) ∧
    (s.stream = .c → Unstepped s →
      let rest := s.me.l.atRest && s.me.x.atRest && s.me.s.atRest
      let busy := s.me.cc.toList.any (· ≠ 0)
      (rest = false ∨ busy = true → Waits (.tend k) s) ∧
      (rest = true → busy = false → s.me.residue ≠ 0 → Traps (.tend k) s 0x10 s.me.residue) ∧
      (rest = true → busy = false → s.me.residue = 0 →
        ∃ u, exec (.tend k) s = .next u ∧ u.me.c.run = .ended ∧ u.mem = s.mem ∧ u.me.sregs = s.me.sregs ∧
          ∀ t r, s.me.task = some (t.tid, r) → s.taskOf t.tid = some t → t.ended.contains r = false →
            ∃ v, u.taskOf t.tid = some v ∧ v.ended = r :: t.ended ∧ (t.shuttles.length ≤ (r :: t.ended).length → v.stat = .complete)))

/-- R96, R351, R356 to R358, R363, R370 to R372, R374, R427. C takes the oldest asynchronous fault in task mode, at its resume
address; a shuttle whose sequencers all wait on one another takes cause 0x0E; a record that waits enters the trap ring when it has
room; and the handler's DELIVER, RETRY and KILL end a freeze, unless a pre-emption holds the shuttle frozen. A check that its code
corrects or a retry passes leaves only a health record; stored bits past correction are found by their reader; a lasting failure
takes the unit out of service and raises HEPOCH, but for a row of HBM, which a spare replaces; a fatal one raises cause 0x31 and a
token. Which failures are which, and their kinds, are read by inference (assumption log 58). -/
def Obligations.TrapEvents : Prop :=
  ∀ (s : State) (sh : ShNo) (num tid : Nat) (h : HeldTrap),
    let x := s.shuttle sh
    let next := (s.devReg 0x20030).toNat
    (x.frozen = false → x.mon = false → x.c.run = .running →
      (∀ f r, x.pending = f :: r → exec (.asyncFaultTake sh) s = .next
        ((s.modShuttle sh fun x =>
            { x with pending := r, stepWaits := x.stepWaits.filter fun w => decide (w.cmd ≠ f.cmd) }).deliverTrap sh f.cause f.eval
          (eauxOf true f.str f.eng.toNat f.ipc) x.c.pc)) ∧
      (x.pending = [] → exec (.asyncFaultTake sh) s = .next s)) ∧
    (x.mon = true ∨ x.frozen = true → exec (.asyncFaultTake sh) s = .next s) ∧
    (x.frozen = false → x.task.isSome = true → ([x.c, x.l, x.x, x.s].all x.stuck) = true →
      (x.c.run = .running ∧ x.c.stall.isSome = true) → s.shuttleBusy sh = false →
      exec (.streamDeadlock sh) s = .next (s.takeTrap sh .c 0x0E 0)) ∧
    (s.shuttleBusy sh = true → exec (.streamDeadlock sh) s = .next s) ∧
    (∀ w r, s.heldRecs = w :: r → s.ringRoom = true →
      ∃ u, exec (.trapRoute none 0) s = .next u ∧ u.heldRecs = r ∧ u.devReg 0x20030 = s.devReg 0x20030 + 1) ∧
    (s.ringRoom = false → exec (.trapRoute none tid) s = .next s) ∧
    (x.trap = none → exec (.trapRoute (some sh) tid) s = .next s) ∧
    (∀ k, x.trap = some k → k.record = none → s.ringRoom = true →
      (∀ t, s.taskAt sh = some t → s.isOldest t.tid = true ∧ t.dual = false) →
      ∃ u, exec (.trapRoute (some sh) tid) s = .next u ∧ (u.shuttle sh).trap = some { k with record := some next } ∧
        u.devReg 0x20030 = s.devReg 0x20030 + 1) ∧
    (∀ t c v, tid ≠ 0 → s.taskOf tid = some t → t.held = some (c, v, none) → s.ringRoom = true →
      ∃ u y, exec (.trapRoute none tid) s = .next u ∧ u.taskOf tid = some y ∧ y.held = some (c, v, some next) ∧
        u.devReg 0x20030 = s.devReg 0x20030 + 1) ∧
    (s.trapTarget num = some (.shuttle sh h) →
      (h.halt = false → ∃ u, exec (.trcmdDeliver num) s = .next u ∧ (u.shuttle sh).frozen = s.preempting sh ∧
        (u.shuttle sh).trap = none ∧ (u.shuttle sh).epc = h.epc ∧ (u.shuttle sh).ecause = h.cause.setWidth 64 ∧
        (u.shuttle sh).eval = h.eval ∧ (u.shuttle sh).eaux = h.eaux ∧ (u.shuttle sh).mon = true ∧
        (u.shuttle sh).c.pc = x.tvec &&& ~~~3#32) ∧
      (∃ u, exec (.trcmdRetry num) s = .next u ∧ (u.shuttle sh).frozen = s.preempting sh ∧ (u.shuttle sh).trap = none ∧
        (h.halt = true → (u.shuttle sh).c.run = .running ∧
          (u.shuttle sh).c.pc = if h.cause = 0x0D then h.epc + 4 else h.epc) ∧
        (h.halt = false → (u.shuttle sh).c.pc = x.c.pc)) ∧
      (x.task = none → ∃ u, exec (.trcmdKill num) s = .next u ∧ (u.shuttle sh).c.run = .halted) ∧
      (∀ t l, s.taskAt sh = some t → s.launchOf t.lid = some l → s.requests = [] →
        ∃ u, exec (.trcmdKill num) s = .next u ∧
          u.requests = [{ kind := .kill, queue := l.queue, lid := some t.lid }])) ∧
    (s.trapTarget num = none → exec (.trcmdDeliver num) s = .next s ∧ exec (.trcmdRetry num) s = .next s ∧
      exec (.trcmdKill num) s = .next s) ∧
    ∀ f : CheckFail, ∃ u, exec (.checkFailure f) s = .next u ∧
      (f.outcome = .corrected ∨ f.outcome = .transient → u.sh = s.sh ∧ u.outUnits = s.outUnits ∧ ∃ detail, u.mem =
        (s.healthRecord f.cls.toNat f.unit.toNat (if f.outcome = .corrected then 1 else 2) 1 detail).mem) ∧
      (f.outcome = .uncorrectable → u.hepoch = s.hepoch ∧ u.outUnits = s.outUnits ∧ u.outShuttles = s.outShuttles ∧
        ((∀ h, f.site ≠ .card h) → u.mem = s.mem)) ∧
      (f.outcome = .uncorrectable ∨ f.outcome = .lasting →
        (∀ p, f.site = .cell p → p < 2 ^ 63 → f.cls ≠ 8 → u.badCell p = true) ∧
        (∀ n st c ix, f.site = .reg n st c ix → f.outcome = .uncorrectable →
          markOf st (damage c.toNat ix.toNat) ∈ (u.shuttle n).marked)) ∧
      (f.outcome = .lasting → s.fatalKind f = 0 →
        (∀ p, f.site = .cell p → p < Config.hbmBytes → u.hepoch = s.hepoch) ∧
        ((∀ p, f.site = .cell p → Config.hbmBytes ≤ p) →
          (f.cls = 1 → f.unit.setWidth 8 ∉ s.outShuttles →
            u.hepoch = s.hepoch + 1 ∧ (f.unit.setWidth 8 : ShNo) ∈ u.outShuttles ∧
            ∀ t, s.taskAt (f.unit.setWidth 8) = some t → s.isBound t = true → ∃ r ∈ u.requests, r.kind = .token) ∧
          (f.cls ≠ 1 → f.cls ≠ 8 → (f.cls.toNat, f.unit.toNat) ∉ s.outUnits →
            u.hepoch = s.hepoch + 1 ∧ (f.cls.toNat, f.unit.toNat) ∈ u.outUnits))) ∧
      (f.outcome = .lasting → s.fatalKind f ≠ 0 → (∃ r ∈ u.requests, r.kind = .token) ∧
        recordWords 0x31 (BitVec.ofNat 64 (f.cls.toNat + f.unit.toNat * 2 ^ 8 + (s.fatalKind f).toNat * 2 ^ 32))
          { RecFlags.none with fw := true } ∈ u.heldRecs)

/-! ## Tasks and launches (R162 to R168, R335 to R349, R357, R375, R376, R416) -/

/-- R162, R164, R167, R343, R345, R348, R349, R357, R374, R376, R416, R424. Tasks start by the Drafter or the Dobby with the state
that R162 gives; a guard that fails ends the replay; a commit performs what was staged, in key order, lowers its successors'
counts and signals the status flags; copies that differ run again and, a second time, end the launch; a KILL and an abort token
end launches; cards, stops and tokens pass through a gang, each message acted on once. Choices of the model: when a lane may
start a task (assumption log 105), what holds where status is signalled (log 127), the messages by which members agree on a card
and how ordinals count (log 107), which cards fit in the store (log 126), the kind and unit of an error met at a commit (log 58). -/
def Obligations.Tasks : Prop :=
  ∀ (s : State) (tid lid : Nat) (t : Task) (l : Launch), s.taskOf tid = some t → s.launchOf lid = some l → t.lid = lid →
    (∀ pl sbase bbase e im args, s.Ok → l.card = none → t.saved = false → s.mayStart l t = true →
      s.placementOk l t pl = true → s.grantsOk t (pl.map Prod.snd) sbase bbase = true → s.isOldest tid = true →
      s.loadTask l t = .ok e im args → im.pocketAt + (im.part im.pocket).length ≤ Config.pocketBytes →
      ∃ u, exec (.taskStart tid pl sbase bbase) s = .next u ∧ Started u t im args pl sbase bbase) ∧
    (∀ c k, l.card = some c → s.mayStart l t = true → c.tasks.find? (fun k => k.index = t.index) = some k →
      t.mismatches = 0 → l.failed = false → s.laneBefore l c k = [] →
      let fails : Prop := ∃ u, exec (.dobbyStep lid tid) s = .next u ∧ ∀ o ∈ u.launches, o.lid = lid → o.card = none ∧ o.failed = true
      (s.hepoch ≠ c.hep → fails) ∧
      (s.healthGuard l c k = true →
        (∀ bs, t.guarded = false → t.shape0 ≠ 0 → s.creelRead tid t.shape0 8 = .ok s bs →
          BitVec.ofNat 64 (leNat bs) ≠ k.shape0 → fails) ∧
        ∀ s1 e im args, s.Ok → t.saved = false → (t.guarded = true ∧ s1 = s ∨ t.guarded = false ∧ t.shape0 = 0 ∧ t.shape1 = 0 ∧
            s1 = s.modTask tid fun t => { t with guarded := true }) →
          s1.cardFree t k = true → k.shuttles.Nodup → k.places.length = k.shuttles.length → s1.loadTask l t = .ok e im args →
          im.pocketAt + (im.part im.pocket).length ≤ Config.pocketBytes →
          ∃ u, exec (.dobbyStep lid tid) s = .next u ∧ Started u t im args (k.places.zip k.shuttles) k.sbase k.bbase)) ∧
    (s.mayCommit t = true → t.performed = false → t.committing = false → s.checkStaged tid (t.stages[0]).writes = .pass →
      (∀ k, s.commitLost t = some k → t.dual = false → ∃ u, exec (.taskCommit tid) s = .next u ∧
        u.mem = (s.fatalFault 5 (BitVec.ofNat 24 k) 2).mem ∧
        (∃ r ∈ u.requests, r.kind = .token) ∧
        recordWords 0x31 (BitVec.ofNat 64 (5 + k % 2 ^ 24 * 2 ^ 8 + 2 * 2 ^ 32)) { RecFlags.none with fw := true } ∈ u.heldRecs) ∧
      ((∀ m ∈ s.sent, m.owner ≠ tid) → s.commitLost t = none → t.cond = 0 → l.card = none →
      let single (w : StagedWrite) (pa j : Nat) (d : Desc) : Prop := (t.stages[0]).writes = [w] ∧ w.data ≠ [] ∧
        w.va % 64 + w.data.length ≤ 64 ∧ s.locate w.va .write = .ok (.home pa, j, d)
      (t.stages[0]).writes = [] ∨ (∃ w pa j d, single w pa j d) →
      let done (i : Instr) : Prop := ∃ u, exec i s = .next u ∧ u.lastKey = some t.key ∧
        u.signals = s.signals ++ [(t.key, t.flags[0])] ∧
        (∀ n ∈ t.shuttles, (s.shuttle n).task.map Prod.fst = some tid → (u.shuttle n).task = none) ∧
        ((∀ v ∈ s.tasks, v.untaken = false ∧ ∀ g ∈ v.stages.toList, g.reads = []) →
          (∃ v ∈ s.tasks, v.lid = lid ∧ v.tid ≠ tid ∧ v.stat = .running) → (∀ e ∈ t.edges, e.cond = false) → t.wrote = [] →
          ((t.stages[0]).writes = [] → u.mem = s.mem) ∧
          (∀ w pa j d, single w pa j d → u.mem = ((s.putBytes pa w.data).advanceGen j).mem) ∧
          ∀ v, s.taskOf v.tid = some v → v.lid = lid → v.tid ≠ tid → ∃ y, u.taskOf v.tid = some y ∧
            y.preds = v.preds - (t.edges.filter fun e => e.succ = v.index).length)
      (t.dual = false → done (.taskCommit tid)) ∧
      (t.dual = true → t.signature 0 = t.signature 1 → done (.dualSignatureCompare tid)))) ∧
    (s.mayCommit t = true → t.dual = true → t.performed = false → t.signature 0 ≠ t.signature 1 →
      (t.mismatches = 0 → ∃ u v, exec (.dualSignatureCompare tid) s = .next u ∧ u.taskOf tid = some v ∧ v.stat = .stopping ∧
        v.mismatches = 1 ∧ v.avoid = t.shuttles ∧ v.stages = Vector.replicate 2 { writes := [], reads := [] }) ∧
      (t.mismatches ≠ 0 → ∃ u, exec (.dualSignatureCompare tid) s = .next u ∧
        u.heldRecs = s.heldRecs ++ [recordWords 0x2D
          (BitVec.ofNat 64 (t.index % 4096 + bitsOf (t.signature 0) 0 32 * 2 ^ 32)) { RecFlags.none with task := some t }] ∧
        ∃ r ∈ u.requests, r.kind = .kill ∧ r.lid = some lid)) ∧
    (∀ q r, s.requests.find? (fun r => decide (r.kind = .kill ∧ r.queue = q) && (match r.lid with
        | some lid => s.quiet lid
        | none => false)) = some r → r.lid = some lid →
      ∃ u, exec (.killComplete q) s = .next u ∧ r ∉ u.requests ∧ (∀ o ∈ u.launches, o.lid ≠ lid) ∧
        (∀ o ∈ u.tasks, o.lid ≠ lid) ∧
        ∀ x p, s.queueOf l.queue = some x → p ∈ x.pkts → p.id = l.pid → p.status = none →
          ∃ y o, u.queueOf l.queue = some y ∧ o ∈ y.pkts ∧ o.id = l.pid ∧ o.status = some 5) ∧
    (∀ (c o : Card) (tag : Tag) (pkid peer : BitVec 8) (reason : BitVec 16) (n : Nat) (v : W64),
      let guards (k : CardTask) : CardTask := { k with order := 0, shuttles := [], sbase := 0, bbase := 0, copies := [], deltas := [] }
      let copies (c : Card) : List (List Nat) := c.tasks.map fun k => k.copies.mergeSort
      let token (i : Instr) (reason : BitVec 16) : Prop := ∃ u, exec i s = .next u ∧ (∀ o ∈ u.launches, o.stopped = true) ∧
        recordWords 0x30 (reason.setWidth 64) RecFlags.none ∈ u.heldRecs ∧ ∃ r ∈ u.requests, r.kind = .token
      let heard : Prop := (s.devReg 0x100000).getLsbD 8 = true ∧ (s.channel tag.peer tag.vc).performed.contains tag.seq = false
      let messages := [Instr.cardCopy tag c, .stopMessage tag c.hash n, .abortTokenMessage tag reason pkid, .lstepMessage tag v]
      let untouched (i : Instr) : Prop := ∃ u, exec i s = .next u ∧ u.launches = s.launches ∧ u.requests = s.requests ∧
        u.lsteps = s.lsteps ∧ u.stops = s.stops ∧ u.cards = s.cards ∧ u.mem = s.mem
      (s.cardOf c.hash = some o → o.usable = true → o.own = true ∨ s.recordsCards = true → c.hep = o.hep → c.gang = o.gang →
        c.groups = o.groups → c.tasks.map guards = o.tasks.map guards → copies c = copies o → Card.placed c = true →
        let m : Card := { c with nfail := o.nfail, since := o.since, base := o.base, prior := o.prior, own := o.own,
                                 usable := o.own || decide (s.gangSize = 1) }
        let all := s.cards.map fun k => if k.hash = c.hash then m else k
        (o.ver.toNat < c.ver.toNat → fitCards s.csLen all = all →
          ∃ u, exec (.punchRefine c) s = .next u ∧ u.cardOf c.hash = some m) ∧
        (c.ver.toNat ≤ o.ver.toNat → exec (.punchRefine c) s = .next s)) ∧
      (tag.peer = s.pkn → ∀ k, s.cards.find? (fun k => decide (k.hash = c.hash ∧ k.ver = c.ver)) = some k →
        (k.own = true ∧ k.usable = false ∨ k.own = false ∧ s.recordsCards = true → ∃ u, exec (.cardCopy tag c) s = .next u ∧
          ∀ q ∈ u.cards, q.hash = c.hash → q.ver = c.ver → q.usable = true ∧ q.since = max c.since (s.begun c.hash)) ∧
        (k.own = false → s.recordsCards = false → exec (.cardCopy tag c) s = .next s)) ∧
      (tag.peer ≠ s.pkn → heard → s.gangMembers.contains tag.peer = true → 0 < s.csLen →
        (c.usable = false →
          let m : Card := match s.cardOf c.hash with
            | some o => if o.base = c.base ∧ o.own = false then { c with own := false, nfail := o.nfail, prior := o.prior }
                        else { c with own := false }
            | none => { c with own := false }
          Card.room m ≤ s.csLen → ∃ u, exec (.cardCopy tag c) s = .next u ∧ u.cardOf c.hash = some m) ∧
        (c.usable = true → ∃ u, exec (.cardCopy tag c) s = .next u ∧
          ∀ k ∈ u.cards, k.hash = c.hash → k.ver = c.ver → k.usable = true ∧ k.since = c.since)) ∧
      (heard → s.gangMembers.contains tag.peer = true →
        (∀ h, s.cardOf c.hash = some h → h.own = false →
          let at_ (o : Launch) : Prop := o.hash = c.hash ∧ o.ordinal = some (h.base + n)
          (at_ l → l.failed = false → (∀ o ∈ s.launches, at_ o → o.lid = lid) →
            ∃ u, exec (.stopMessage tag c.hash n) s = .next u ∧ ∀ o, u.launchOf lid = some o → o.card = none ∧ o.failed = true) ∧
          ((∀ o ∈ s.launches, ¬at_ o) →
            (s.begun c.hash ≤ h.base + n → { hash := c.hash, ordinal := n } ∉ s.stops →
              ∃ u, exec (.stopMessage tag c.hash n) s = .next u ∧ u.stops = s.stops ++ [{ hash := c.hash, ordinal := n }]) ∧
            (∀ m, h.base + n < s.begun c.hash → h.prior = some (h.base + n, m) → (∀ k ∈ s.cards, k.hash = c.hash → k = h) →
              ∃ u, exec (.stopMessage tag c.hash n) s = .next u ∧ (4 ≤ m + 1 + h.nfail → u.cardOf c.hash = none) ∧
                ∀ k ∈ u.cards, k.hash = c.hash → k.nfail = m + 1 + h.nfail))) ∧
        ((∀ h, s.cardOf c.hash = some h → h.own = true) → untouched (.stopMessage tag c.hash n)) ∧
        token (.abortTokenMessage tag reason pkid) reason ∧
        (s.lstep = none → ∃ u, exec (.lstepMessage tag v) s = .next u ∧
          u.lsteps = (tag.peer, v) :: s.lsteps.filter fun m => m.1 ≠ tag.peer) ∧
        (∀ w, s.lstep = some w → tag.peer ≠ s.pkn → (∀ p ∈ s.gangMembers, p = s.pkn ∨ p = tag.peer) →
          ∃ u, exec (.lstepMessage tag v) s = .next u ∧ u.lstep = none ∧
            u.devReg 0x20070 = if v.toNat < w.toNat then v else w)) ∧
      (s.gangMembers.contains peer = true → s.gone.contains peer = false → s.lstep = none →
        ∃ u, exec (.gangMemberLeavesService peer) s = .next u ∧ u.gone = s.gone ++ [peer] ∧ u.hepoch = s.hepoch + 1) ∧
      (heard → s.gangMembers.contains tag.peer = false → tag.peer ≠ s.pkn → ∀ i ∈ messages, untouched i) ∧
      (tag.peer ≠ s.pkn → ∀ i ∈ messages,
        ((s.devReg 0x100000).getLsbD 8 = false → exec i s = .next s) ∧
        ((s.devReg 0x100000).getLsbD 8 = true → (s.channel tag.peer tag.vc).performed.contains tag.seq = true →
          exec i s = .next (s.acknowledge tag (.data [])))) ∧
      token (.abtokRegister v) (v.setWidth 16)) ∧
    ((∃ r ∈ s.requests, r.kind = .token) → (s.launches.all fun l => !l.stopped || (s.dropColls l.lid).quiet l.lid) = true →
      ∃ u, exec .abortTokenComplete s = .next u ∧ (∀ r ∈ u.requests, r.kind ≠ .token) ∧ u.runs = [] ∧
        (∀ o ∈ u.launches, o.stopped = false) ∧ ∀ x ∈ u.queues, ∀ p ∈ x.pkts, p.status.isSome = true) ∧
    ((∀ o ∈ s.launches, o.card = none) → ∃ u, exec .cflush s = .next u ∧ u.cards = [] ∧ u.cflush = false ∧
      u.csBase = bitsOf (s.devReg 0x30000) 16 40 * 2 ^ 16 ∧ u.csLen = (s.devReg 0x30008).toNat / 2 ^ 16 * 2 ^ 16) ∧
    (l.card.isSome = true → ∃ u, exec .cflush s = .next u ∧ u.cards = s.cards ∧ u.cflush = true)

/-! ## Packets (R304 to R327) -/

/-- R312, R315 to R323, R327. A packet that an earlier PRED skips is recorded with status 4 and one that fails its checks with
status 2, whatever its type. NOP and HINT complete at once, IB and LOOP open, PRED tests, FENCE and FFENCE wait until they are
met, LAUNCH and RESUME start a launch; completions are reported in order; a candidate ages. That a word with
an uncorrectable error fails the packet that reads it is read by inference (assumption log 110). -/
def Obligations.Packets : Prop :=
  ∀ (s : State) (q : Nat) (p : Packet) (x : Queue),
    (PacketNext s q p x → ∀ e ∈ [(Instr.launch q p, 1), (.resume q p, 2), (.fencePacket q p, 3), (.ibPacket q p, 4),
        (.predPacket q p, 5), (.loopPacket q p, 6), (.ffence q p, 7), (.hintPacket q p, 8), (.treadlePacket q p, 9),
        (.nopPacket q p, 10)], p.type = e.2 →
      (x.cur.skipping = true → Dispatched e.1 s q p x (some 4) fun u _ _ => u.tasks = s.tasks) ∧
      (x.cur.skipping = false → p.valid = false → Dispatched e.1 s q p x (some 2) fun u _ _ => u.tasks = s.tasks)) ∧
    (PacketReady s q p x →
      let num := x.num + 1
      (p.type = 10 → Dispatched (.nopPacket q p) s q p x (some 1) fun u _ _ => u.tasks = s.tasks) ∧
      (p.type = 8 → Dispatched (.hintPacket q p) s q p x (some 1) fun u _ _ =>
        u.hint = (bitsOf (p.dw 0x10) 0 2, s.clock + Config.unitsPerUs * bitsOf (p.dw 0x18) 0 32)) ∧
      (p.type = 4 → x.cur.loop = none → Dispatched (.ibPacket q p) s q p x none fun _ y o => o.box = true ∧
        y.cur.levels.head? =
          some { va := (p.dw 0x10).toNat, left := (p.dw 0x18).toNat, pid := some num, units := [] }) ∧
      (p.type = 6 → Dispatched (.loopPacket q p) s q p x none fun _ y o => o.box = true ∧ ∃ r, y.cur.loop = some r ∧
        r.left = (p.dw 0x10).toNat - 1 ∧ r.body = bitsOf (p.dw 0x18) 0 16 ∧ r.rest = r.body ∧ r.pid = num) ∧
      (p.type = 7 → Dispatched (.ffence q p) s q p x none fun _ _ o => o.ffence = true) ∧
      (p.type = 3 → Dispatched (.fencePacket q p) s q p x none fun _ _ o =>
        o.fence = some (s.cycle, bitsOf (p.dw 0x10) 8 4, fencePairs p)) ∧
      (∀ pa j d, p.type = 5 → s.translate (p.dw 0x10).toNat .read = .ok (pa, j, d) →
        let w := BitVec.ofNat 64 (leNat (memBytes s.mem pa 8)) &&& p.dw 0x18
        let holds := predHolds (bitsOf (p.dw 0x28) 0 2) w (p.dw 0x20)
        (s.badBytes pa 8 = true → Dispatched (.predPacket q p) s q p x (some 5) fun _ y _ => y.cur.skip = x.cur.skip) ∧
        (s.badBytes pa 8 = false → holds = true →
          Dispatched (.predPacket q p) s q p x (some 1) fun _ y _ => y.cur.skip = x.cur.skip) ∧
        (s.badBytes pa 8 = false → holds = false → x.cur.depth = 0 → Dispatched (.predPacket q p) s q p x (some 1) fun _ y _ =>
          y.cur.skip = (bitsOf (p.dw 0x28) 8 8, 0))) ∧
      (∀ h, p.type = 9 → s.handles.find? (fun h => decide (h.h = bitsOf (p.dw 0x10) 0 6) && !h.freed) = some h →
        Dispatched (.treadlePacket q p) s q p x none fun u _ o => o.treadle.isSome = true ∧ ∃ r, u.runs = s.runs ++ [r] ∧
          r.q = q ∧ r.pid = num ∧ r.words = h.words ∧ r.pc = 0 ∧ r.budget = bitsOf (p.dw 0x10) 16 16 ∧ r.stores = [] ∧
          r.regs = ((((Vector.replicate 16 0).set 1 (p.dw 0x18)).set 2 (p.dw 0x20)).set 3 (p.dw 0x28)).set 4 (p.dw 0x30)) ∧
      (∀ g ims, p.type = 1 →
        let graph := (p.dw 0x10).toNat
        let gtab := (p.dw 0x18).toNat
        let tsbase := (p.dw 0x28).toNat
        let n := s.newLaunch q num graph gtab tsbase (p.dw 0x30).toNat g ims
        (∀ f, readGraph s x.agent graph gtab (bitsOf (p.dw 0x20) 0 9) tsbase f = f s g ims) →
        (s.keysOk (n.tasks.filter fun t => t.lid = s.nextId) = true → Dispatched (.launch q p) s q p x none fun u _ o =>
          o.launch = some s.nextId ∧ u.tasks = (n.testShapes s.nextId).tasks ∧
          ∃ l ∈ u.launches, l.lid = s.nextId ∧ l.queue = q ∧ l.pid = num ∧ l.graph = graph ∧ l.argp = (p.dw 0x30).toNat ∧
            l.stopped = false) ∧
        (s.keysOk (n.tasks.filter fun t => t.lid = s.nextId) = false →
          Dispatched (.launch q p) s q p x (some 2) fun u _ _ => u.tasks = s.tasks)) ∧
      (∀ g ims bs, p.type = 2 → s.creelRead x.agent (p.dw 0x10).toNat (p.dw 0x18).toNat = .ok s bs →
        s.imageOk bs (p.dw 0x18).toNat = true →
        let h : ImageHead := { bytes := bs }
        let n := s.newResumed q num h g ims
        (∀ f, readGraph s x.agent (numAt bs 0x30 8) (numAt bs 0x48 8) h.ngrp (numAt bs 0x38 8) f = f s g ims) →
        (g.hash ims s.gangSize).toNat = numAt bs 0x20 16 → g.ntask = h.ntask →
        (∀ t ∈ n.tasks, t.lid = s.nextId → t.saved = true → t.width (groupsOf g) = h.nsh) →
        s.keysOk (n.tasks.filter fun t => decide (t.lid = s.nextId ∧ t.stat = .pending)) = true →
        (n.tasks.any fun t => decide (t.lid = s.nextId ∧ t.stat = .pending)) = true →
        Dispatched (.resume q p) s q p x none fun u _ o => o.launch = some s.nextId ∧ u.tasks = n.tasks ∧
          ∃ l ∈ u.launches, l.lid = s.nextId ∧ l.queue = q ∧ l.pid = num ∧ l.image = bs ∧ l.card = none)) ∧
    (∀ id o start lim pairs, s.queueOf q = some x → x.pkts.find? (fun p => decide (p.id = id) && p.status.isNone) = some o →
      o.fence = some (start, lim, pairs) →
      (∀ c ∈ pairs, c.1 % 8 = 0 ∧ ∃ pa j d, s.translate c.1 .read = .ok (pa, j, d) ∧ s.badBytes pa 8 = false) →
      let reached (c : Nat × W64) : Prop := ∀ pa j d, s.translate c.1 .read = .ok (pa, j, d) →
        c.2.toNat ≤ leNat (memBytes s.mem pa 8)
      let kept (left : List (Nat × W64)) : State :=
        (s.modPkt q id fun o => { o with fence := some (start, lim, left) }).dropReplies x.agent
      let looks := [Instr.fencePacketMet q id, .fenceExpiry q id]
      let ends := start + 2 ^ (2 * lim + 6)
      let expired (e : State) : State := ((e.setStatus q id 7).haltQueue q).decidePoint
      (lim ≠ 0 → ends < s.cycle → ∀ i ∈ looks, exec i s = .next (expired s)) ∧
      (lim = 0 ∨ s.cycle ≤ ends →
        ((∀ c ∈ pairs, reached c) → ∀ i ∈ looks, exec i s = .next ((kept []).setStatus q id 1).decidePoint) ∧
        ((∃ c ∈ pairs, ¬reached c) →
          (∃ left, left ≠ [] ∧ exec (.fencePacketMet q id) s = .next (kept left)) ∧
          (lim ≠ 0 → s.cycle = ends → ∃ left, left ≠ [] ∧ exec (.fenceExpiry q id) s = .next (expired (kept left)))))) ∧
    (∀ o, s.queueOf q = some x → x.pkts.find? (fun p => p.ffence && p.status.isNone) = some o →
      (x.pkts.all fun e => e.box || e.status.isSome || decide (o.id ≤ e.id)) = true →
      ∃ u y, exec (.ffenceComplete q) s = .next u ∧ u.queueOf q = some y ∧ y.ahead = [] ∧
        ∃ e ∈ y.pkts, e.id = o.id ∧ e.status = some 1) ∧
    (∀ c n, s.queueOf q = some x → x.slot.isSome = true → x.num ≠ 0 →
      (x.pkts.any fun p => (p.ffence || decide (p.treadle = some true)) && p.status.isNone) = false →
      s.walkAhead x 18 x.cur (x.num + 1) = some (c, n) → n ≤ x.num + 16 → s.readPacket x c = .packet p →
      ∃ u y, exec (.packetFetch q) s = .next u ∧ u.queueOf q = some y ∧ ({ num := n, packet := p } : Ahead) ∈ y.ahead ∧
        y.num = x.num ∧ y.cur = x.cur ∧ u.mem = s.mem) ∧
    (∀ o, s.queueOf q = some x → x.pkts.find? (fun p => p.id = o.id) = some o →
      (x.reportable o = false → exec (.packetComplete q o.id) s = .next s) ∧
      (x.reportable o = true → s.writeFault (o.va + 2) 1 = none →
        (o.sig = 0 ∨ o.sig % 8 = 0 ∧
          (s.writeGlobal none x.agent 0 (o.va + 2) [BitVec.ofNat 8 (o.status.getD 1)]).writeFault o.sig 8 = none) →
        ∃ u y, exec (.packetComplete q o.id) s = .next u ∧ u.queueOf q = some y ∧
          y.pkts = x.pkts.filter (fun e => decide (e.id ≠ o.id)) ∧ y.cidx = o.cidx.getD x.cidx)) ∧
    (s.queueOf q = some x →
      let due := s.qPend q = true ∧ x.ageAt + s.agePeriod ≤ s.clock
      let ages := s.isCandidate x = true ∧ s.qAge q < 15
      let counted := s.modQueue q fun x => { x with ageAt := x.ageAt + s.agePeriod }
      (due → ages → exec (.ageingStep q) s = .next ((counted.setCb q 0x28 16 4 (s.qAge q + 1)).decidePoint ageingPoint)) ∧
      (due → ¬ages → exec (.ageingStep q) s = .next counted) ∧
      (¬due → exec (.ageingStep q) s = .next s))

/-! ## Treadle programs (R324 to R326) -/

/-- R324, R325. The words of a Treadle program: each writes its register and goes on to the next word, a taken branch goes to
its target, and each counts against the budget; w0 is not written; a store is buffered and performed at END; a misaligned
access, a seventeenth store and a fifth packet end the run with status 5, a spent budget with status 6. That a load meets an
uncorrectable error as a failed address is read by inference (assumption log 110). -/
def Obligations.TreadleProgram : Prop :=
  ∀ (d a b : BitVec 4) (i : BitVec 16) (s : State) (r : TreadleRun),
    (∀ (v : W64) (n : BitVec 4), (r.setReg d v).reg n = if n = d ∧ d ≠ 0 then v else r.reg n) ∧
    (s.curRun = some r → r.budget ≠ 0 →
      let x := r.reg a
      let y := r.reg b
      let imm : W64 := i.signExtend 64
      let went (j : Instr) (r1 : TreadleRun) : Prop :=
        exec j s = .next ((s.dropReplies (s.runAgent r)).putRun { r1 with pc := r.pc + 1, budget := r.budget - 1 })
      let wrote (j : Instr) (v : W64) : Prop := went j (r.setReg d v)
      let branch (j : Instr) (c : Prop) : Prop :=
        (c → exec j s = .next (s.putRun { r with pc := (r.pc + i.toInt).toNat, budget := r.budget - 1 })) ∧ (¬c → went j r)
      let ends (j : Instr) (status : Nat) : Prop := exec j s = .next (s.endRun r status [])
      let va := (x + imm).toNat
      wrote (.treadleLi d i) imm ∧ wrote (.treadleShori d i) (r.reg d <<< 16 ||| i.setWidth 64) ∧
      wrote (.treadleAdd d a b) (x + y) ∧ wrote (.treadleSub d a b) (x - y) ∧ wrote (.treadleAnd d a b) (x &&& y) ∧
      wrote (.treadleOr d a b) (x ||| y) ∧ wrote (.treadleXor d a b) (x ^^^ y) ∧
      wrote (.treadleShl d a b) (x <<< (y.toNat % 64)) ∧ wrote (.treadleShr d a b) (x >>> (y.toNat % 64)) ∧
      wrote (.treadleAddi d a i) (x + imm) ∧
      branch (.treadleBeq a b i) (x = y) ∧ branch (.treadleBne a b i) (x ≠ y) ∧
      branch (.treadleBltu a b i) (x.toNat < y.toNat) ∧ branch (.treadleBgeu a b i) (y.toNat ≤ x.toNat) ∧
      (∀ pa j e, va % 8 = 0 → s.translate va .read = .ok (pa, j, e) →
        (r.stores.find? (fun w => w.1 = va) = none → s.badBytes pa 8 = true →
          exec (.treadleLd d a i) s = .next (((s.clearDenied (s.runAgent r)).endRun r 5 []).msiv r.q)) ∧
        (r.stores.find? (fun w => w.1 = va) = none → s.badBytes pa 8 = false →
          wrote (.treadleLd d a i) (BitVec.ofNat 64 (leNat (memBytes s.mem pa 8)))) ∧
        (∀ w, r.stores.reverse.find? (fun w => w.1 = va) = some w → wrote (.treadleLd d a i) w.2)) ∧
      (va % 8 = 0 → r.stores.length < 16 → went (.treadleSt d a i) { r with stores := r.stores ++ [(va, r.reg d)] }) ∧
      (va % 8 ≠ 0 → ends (.treadleLd d a i) 5 ∧ ends (.treadleSt d a i) 5) ∧
      (16 ≤ r.stores.length → ends (.treadleSt d a i) 5) ∧
      (∀ pa j e, x.toNat % 64 = 0 → r.emits.length < 4 → s.translate x.toNat .read = .ok (pa, j, e) → s.badBytes pa 64 = false →
        went (.treadleEmit a) { r with emits := r.emits ++ [{ va := x.toNat, bytes := memBytes s.mem pa 64 }] }) ∧
      (x.toNat % 64 ≠ 0 ∨ 4 ≤ r.emits.length → ends (.treadleEmit a) 5) ∧
      ((∀ w ∈ r.stores, s.writeFault w.1 8 = none) → exec .treadleEnd s = .next
        ((r.stores.foldl (fun e w => e.writeGlobal none (s.runAgent r) 0 w.1 (leBytes 8 w.2.toNat)) s).endRun r 1 r.emits))) ∧
    ∀ q, s.runs.find? (fun r => r.q = q) = some r →
      (r.budget = 0 → exec (.treadleBudgetExpiry q) s = .next (s.endRun r 6 [])) ∧
      (r.budget ≠ 0 → exec (.treadleBudgetExpiry q) s = .next s) ∧
      ∀ (n : Nat) (l : List Packet), ∀ o ∈ (s.endRun r n l).runs, o.q ≠ q

/-! ## Registers of the package (R22, R305 to R311, R326, R328, R362 to R366, R386 to R397, R417) -/

/-- R22, R216, R219, R220, R305, R307, R326, R328, R362, R366, R393, R396. What writes of device registers, and events of the
units behind them, leave: each where it is taken and where it is ignored. Which free handle TLOAD gives is left open. -/
def Obligations.DeviceRegisters : Prop :=
  ∀ (s : State) (q : Nat) (v : W64) (off : Nat), q < 65536 →
    (∃ u, exec .reset s = .next u ∧ u.sh = State.reset.sh ∧ u.mem = State.reset.mem ∧ u.dev = State.reset.dev ∧
      u.tasks = [] ∧ u.queues = []) ∧
    (∀ i ∈ [Instr.kick q, .doorbellWrite q v],
      let w := s.cbField q 0x10 0 64
      ((s.cb q).isNone = true ∨ s.qDead q = true ∨ s.qHalt q = true → exec i s = .next s) ∧
      ((s.cb q).isSome = true → s.qDead q = false → s.qHalt q = false → ∀ x, s.queueOf q = some x →
        (s.cbError q = true → exec i s = .next (s.haltQueue q)) ∧
        (s.cbError q = false → (w + 2 ^ 64 - s.cbField q 0x20 0 64) % 2 ^ 64 ≤ s.qSize q → x.slot.isSome = true →
          ∃ u y, exec i s = .next u ∧ u.queueOf q = some y ∧ y.widx = w))) ∧
    ((s.devReg 0x10030).getLsbD 63 = true → exec (.destroy q) s = .next s) ∧
    ((s.devReg 0x10030).getLsbD 63 = false → ∃ u, exec (.destroy q) s = .next u ∧
      u.devReg 0x10030 = BitVec.ofNat 64 (2 ^ 63 + q) ∧ (∃ r ∈ u.requests, r.kind = .destroy ∧ r.queue = q) ∧
      ∀ t ∈ u.tasks, t.stat = .pending → ∀ l ∈ u.launches, l.lid = t.lid → l.queue ≠ q) ∧
    (∀ r x, s.requests.find? (fun r => decide (r.kind = .destroy ∧ r.queue = q)) = some r → s.queueOf q = some x →
      x.pkts = [] → (∀ l ∈ s.launches, l.queue ≠ q) → s.destroyMissing q = [] →
      ∃ u, exec (.destroyComplete q) s = .next u ∧ u.queueOf q = none ∧ r ∉ u.requests ∧
        u.devReg 0x10030 = BitVec.ofNat 64 q) ∧
    (∃ u, exec (.slotsWrite v) s = .next u ∧ u.devReg 0x10008 = v &&& 0x3F) ∧
    (∃ u, exec .wakeRead s = .next u ∧ u.wake = s.wake.tail ∧ u.mem = s.mem) ∧
    (s.tload = none → ∃ u, exec (.tload v) s = .next u ∧ u.tload = some (bitsOf v 4 52 * 16) ∧
      u.devReg 0x10048 = 1 <<< 63) ∧
    (s.tload.isSome = true → exec (.tload v) s = .next s) ∧
    (∀ a, s.tload = some a →
      let n := leNat (memBytes s.mem (a + 4) 4)
      let ws : List W32 := (List.range n).map fun i => BitVec.ofNat 32 (leNat (memBytes s.mem (a + 16 + 4 * i) 4))
      let header := leNat (memBytes s.mem a 4) = 0x31445254 ∧ 1 ≤ n ∧ n ≤ 1024 ∧ leNat (memBytes s.mem (a + 8) 8) = 0
      ∃ u, exec .tloadVerifyComplete s = .next u ∧ u.tload = none ∧
        (¬header → u.handles = s.handles ∧ u.devReg 0x10048 = 1) ∧
        (header → verifyWords ws ≠ 0 → u.handles = s.handles ∧ u.devReg 0x10048 = BitVec.ofNat 64 (verifyWords ws)) ∧
        (header → verifyWords ws = 0 → (∀ h < 64, ∃ e ∈ s.handles, e.h = h) → u.handles = s.handles ∧ u.devReg 0x10048 = 6) ∧
        (header → verifyWords ws = 0 → (∃ h < 64, ∀ e ∈ s.handles, e.h ≠ h) → ∃ h < 64, (∀ e ∈ s.handles, e.h ≠ h) ∧
          u.handles = s.handles ++ [{ h := h, words := ws, users := 0, freed := false }] ∧
          u.devReg 0x10048 = BitVec.ofNat 64 (h * 2 ^ 56))) ∧
    (∃ u, exec (.tfree v) s = .next u ∧
      ((∀ e ∈ s.handles, e.h = bitsOf v 0 6 → e.users = 0) → ∀ e ∈ u.handles, e.h ≠ bitsOf v 0 6)) ∧
    ((s.devReg 0x10068).getLsbD 63 = true → ∃ u, exec (.preq v) s = .next u ∧ u.requests = s.requests ∧
      bitsOf (u.devReg 0x10068) 56 7 = 1) ∧
    (∀ x lid, (s.devReg 0x10068).getLsbD 63 = false → s.queueOf (bitsOf v 0 16) = some x → x.slot.isSome = true →
      s.qDead (bitsOf v 0 16) = false → x.preemptable = some lid →
      ∃ u, exec (.preq v) s = .next u ∧ u.devReg 0x10068 = 1 <<< 63 ∧
        (∃ r ∈ u.requests, r.kind = .preempt ∧ r.queue = bitsOf v 0 16 ∧ r.lid = some lid) ∧
        ∀ l ∈ u.launches, l.lid = lid → l.stopped = true) ∧
    (∀ r l, s.requests.find? (fun r => decide (r.kind = .preempt ∧ r.queue = q)) = some r → r.lid = some l.lid →
      s.launchOf l.lid = some l → s.preemptMissing q l.lid = [] → (∀ t ∈ s.tasks, t.lid = l.lid → t.begun = false ∧ t.saved = false) →
      let len := (s.checkpoint l none).length
      (len ≤ (s.devReg 0x10060).toNat → ∃ u, exec (.preemptComplete q) s = .next u ∧ u.devReg 0x10068 = pstat false 0 len ∧
        r ∉ u.requests ∧ ∀ o ∈ u.launches, o.lid ≠ l.lid) ∧
      ((s.devReg 0x10060).toNat < len → ∃ u, exec (.preemptComplete q) s = .next u ∧ u.devReg 0x10068 = pstat false 2 len ∧
        r ∉ u.requests ∧ ∃ o ∈ u.launches, o.lid = l.lid ∧ o.stopped = false)) ∧
    exec (.prel v) s = .next (({ s with stamp := s.stamp + 1 } : State).setCb (bitsOf v 0 16) 0x28 4 1 0).decidePoint ∧
    (∀ e rest, s.rreqs = e :: rest →
      (s.rreqWait = [] → ∃ u, exec .rreqRead s = .next u ∧ u.rreqs = rest) ∧
      (∀ w ws, s.rreqWait = w :: ws → ∃ u, exec .rreqRead s = .next u ∧ u.rreqs = rest ++ [w] ∧ u.rreqWait = ws)) ∧
    (let ix := bitsOf v 32 20
     let ch := bitsOf v 0 32
     ((∀ r ∈ s.resReqs, r.ix ≠ ix ∨ r.ch ≠ ch) → exec (.rresume v) s = .next s) ∧
     ∀ r ∈ s.resReqs, r.ix = ix → r.ch = ch → ∃ u, exec (.rresume v) s = .next u ∧
       (∀ o ∈ u.resReqs, o.ix ≠ ix ∨ o.ch ≠ ch) ∧ (v.getLsbD 63 = false → u.denied = s.denied)) ∧
    (s.Ok → (∀ p, s.badCell p = false) → bitsOf v 0 20 < s.rtCount → ∃ u, exec (.rgenreq v) s = .next u ∧
      (u.desc (bitsOf v 0 20)).gen = ((s.desc (bitsOf v 0 20)).gen + 1) % 2 ^ 16) ∧
    (s.rivBusy.isSome = true → exec .rivctlGo s = .next s) ∧
    (s.rivBusy = none → ∃ u, exec .rivctlGo s = .next u ∧
      let iv := widen (bitsOf (s.devReg 0x18) 0 56) (s.devReg 0x20).toNat
      u.rivBusy = some { num := s.invals + 1, lo := iv.1, hi := iv.2 }) ∧
    ((s.devReg 0x50008).getLsbD 63 = true → exec (.mbcmdReport v) s = .next s) ∧
    (let buf := bitsOf v 12 44 * 4096
     (s.devReg 0x50008).getLsbD 63 = false → v.setWidth 8 = (1 : BitVec 8) → buf + 4096 ≤ Config.hbmBytes →
      ∃ u, exec (.mbcmdReport v) s = .next u ∧ u.report = some buf ∧ (u.devReg 0x50008).getLsbD 63 = true) ∧
    (∀ buf, s.report = some buf → s.Ok → ∃ u, exec .mbReportComplete s = .next u ∧ u.report = none ∧
      (u.devReg 0x50008).getLsbD 63 = false ∧ memBytes u.mem buf 4 = leBytes 4 0x31414255 ∧
      memBytes u.mem (buf + 16) 32 = memBytes s.mem buf 32) ∧
    (s.writeMask off = none → exec (.registerWrite off v) s = .next s) ∧
    (∀ m, s.writeMask off = some m → ∃ u, exec (.registerWrite off v) s = .next u ∧
      u.devReg off = (s.devReg off &&& ~~~m) ||| (v &&& m) ∧ ∀ o, o ≠ off → u.devReg o = s.devReg o) ∧
    ∀ (point : BitVec 8) (mhz : BitVec 16),
      (pointClock point.toNat = some mhz.toNat → ∃ u, exec (.operatingPointChange point mhz) s = .next u ∧
        u.devReg 0x40028 = BitVec.ofNat 64 (point.toNat + mhz.toNat * 2 ^ 16)) ∧
      (pointClock point.toNat ≠ some mhz.toNat → exec (.operatingPointChange point mhz) s = .next s)

/-! ## Links, ports and cores (R371, R384, R386 to R388, R390 to R393, R395, R399 to R403, R417) -/

/-- R371, R384, R388, R393, R399 to R403, R417. Messages of other packages are performed once and acknowledged, and one that races
with an access of a task here takes cause 0x20; an acknowledgement reaches what waits for it; links leave and enter service;
frames go through the weft ports' rings (one of more than 9,216 bytes is passed over: the model's choice, assumption log 125); a
store of a core or a PCIe agent changes the bytes it names; bring-up measures its images. The causes of a core's faults are the
family's (assumption log 122), what an access of another package is tested against is read by inference (log 109), and how an
image is checked and measured is the model's choice (log 123). -/
def Obligations.LinksAndPorts : Prop :=
  ∀ (s : State) (m : RemoteMsg) (tag : Tag) (reply : Reply) (data : List Byte) (link pa : Nat) (port : BitVec 4) (v : W64),
    let store := s.csBase ≤ m.pa ∧ m.pa < s.csBase + s.csLen
    let answered (u : State) (r : Reply) : Prop := u.acks = s.acks ++ [(msgTag m, r)] ∧
      (u.channel m.peer).performed.contains m.seq = true
    let does (op : RemoteOp) (P : State → Prop) : Prop :=
      m.op = op → ∃ u, exec (.remoteAccessMessage m) s = .next u ∧ P u
    let refused (c : BitVec 8) (u : State) : Prop := answered u (.refused c) ∧ u.mem = s.mem
    ((s.devReg 0x100000).getLsbD 8 = false → exec (.remoteAccessMessage m) s = .next s) ∧
    ((s.devReg 0x100000).getLsbD 8 = true → (s.channel m.peer).performed.contains m.seq = true →
      (∀ a ∈ s.acks, a.1 = msgTag m → (∀ e ∈ s.acks, e.1 = msgTag m → e = a) →
        exec (.remoteAccessMessage m) s = .next (s.acknowledge (msgTag m) a.2)) ∧
      ((∀ a ∈ s.acks, a.1 ≠ msgTag m) → exec (.remoteAccessMessage m) s = .next s)) ∧
    ((s.devReg 0x100000).getLsbD 8 = true → (s.channel m.peer).performed.contains m.seq = false →
      (¬store → ∀ n bs op w,
        let races (kind : AccKind) (write : Bool) (len : Nat) : Prop :=
          let e := s.performedMsg m
          e.remoteRaces { e.remoteActor m kind with acc := e.remoteAccess m write kind } m.pa len = true
        let kind := AccKind.update op.toNat
        let gives := AccKind.contribution op.toNat
        (s.badCell (m.pa / 8 * 8) = true → 0 < n → does (.read n) (refused 0x1A)) ∧
        ((∀ p, s.badCell p = false) →
          (¬races .plain false n → does (.read n) fun u => answered u (.data (memBytes s.mem m.pa n)) ∧ u.mem = s.mem) ∧
          (races .plain false n → does (.read n) (refused 0x20)) ∧
          (¬races .plain true bs.length → does (.write bs) fun u => answered u (.data []) ∧ u.mem = memStore s.mem m.pa bs) ∧
          (races .plain true bs.length → does (.write bs) (refused 0x20)) ∧
          (¬races kind true 8 → s.linePending m.pa = false → does (.atomic op w) fun u => answered u (.data []) ∧
            u.mem = memStore s.mem m.pa (leBytes 8 (atomFn op.toNat (s.dword m.pa) w).toNat)) ∧
          (¬races kind true 8 → s.linePending m.pa = true → does (.atomic op w) (refused 0x25)) ∧
          (races kind true 8 → does (.atomic op w) (refused 0x20)) ∧
          (∀ c, ¬races gives true 8 → contributionFault (s.lineAt m.pa) m.pa op.toNat = some c → does (.contribute op w) (refused c)) ∧
          (races gives true 8 → does (.contribute op w) (refused 0x20)))) ∧
      (¬store → ∀ n flag, m.op = .declare n flag →
        (s.refusesLine m.pa n.toNat = true → does (.declare n flag) (refused 0x26)) ∧
        (s.refusesLine m.pa n.toNat = false → does (.declare n flag) fun u => answered u (.data []) ∧ u.mem = s.mem ∧
          ∃ l ∈ u.lines, l.line = m.pa ∧ l.n = n.toNat ∧ l.recv = 0 ∧ l.flag = flag.toNat ∧ l.peer = some m.peer)) ∧
      (store → (∀ w, m.op ≠ .fill w) → does m.op (refused 0x3C)) ∧
      ∀ w, (s.fe m.pa = true → m.op = .fill w → exec (.remoteAccessMessage m) s = .next s) ∧
        (s.fe m.pa = false → tagOf s.tags (cellOf m.pa) = [] →
          does (.fill w) fun u => answered u (.data []) ∧ u.fe m.pa = true)) ∧
    (∃ u, exec (.remoteAckMessage tag.peer (tag.vc, tag.seq) reply) s = .next u ∧ u.mem = s.mem ∧ (∀ p ∈ u.posted, p.tag ≠ tag) ∧
      (tag.vc = 0 → ∀ o ∈ s.sent, o.peer = tag.peer → o.seq = tag.seq → o.owner ≠ 0 →
        ({ o with reply := some reply } : Sent) ∈ u.sent)) ∧
    (link < 24 →
      (s.outLinks.contains link = false → ∃ u, exec (.linkFailure link) s = .next u ∧ u.outLinks = s.outLinks ++ [link] ∧
        (u.devReg 0x100008).getLsbD link = false ∧ u.hepoch = s.hepoch + 1 ∧
        ∀ o ∈ s.sent, o.link = link → o.reply = none → o.owner ≠ 0 → match u.linkTo o.peer with
          | some k => ({ o with link := k } : Sent) ∈ u.sent
          | none => ({ o with reply := some (.refused 0x38) } : Sent) ∈ u.sent) ∧
      (s.outLinks.contains link = true → exec (.linkFailure link) s = .next s) ∧
      ∀ (peer : BitVec 8) (peerLink : BitVec 5) (switch : Bool),
        ((s.devReg 0x100008).getLsbD link = false → ∃ u, exec (.warpLinkEntersService ⟨link, peer, peerLink, switch⟩) s = .next u ∧
          (u.devReg 0x100008).getLsbD link = true ∧ link ∉ u.outLinks ∧ u.hepoch = s.hepoch + 1 ∧
          let r := u.devReg (0x100100 + 8 * link)
          r.getLsbD 0 = true ∧ bitsOf r 8 8 = peer.toNat ∧ bitsOf r 16 5 = peerLink.toNat ∧ r.getLsbD 24 = switch) ∧
        ((s.devReg 0x100008).getLsbD link = true → exec (.warpLinkEntersService ⟨link, peer, peerLink, switch⟩) s = .next s)) ∧
    (let idx := s.devReg (weftPort port + 0x18)
     (∃ u, exec (.wpidxWrite port v) s = .next u ∧
       u.devReg (weftPort port + 0x18) = (idx &&& 0x0000FFFFFFFF0000) ||| (v &&& 0xFFFF00000000FFFF)) ∧
     (bitsOf idx 0 16 ≠ bitsOf idx 16 16 → bitsOf (s.devReg (weftPort port)) 0 2 = 3 →
       let d := s.weftDesc (weftPort port + 8) (bitsOf idx 16 16)
       let n := bitsOf (s.dword (d + 8)) 0 16
       ∃ u, exec (.weftTransmitDone port) s = .next u ∧
         u.frames = (if n ≤ 9216 then s.frames ++ [(port, memBytes s.mem (bitsOf (s.dword d) 0 56) n)] else s.frames) ∧
         u.devReg (weftPort port + 0x18) = setBits idx 16 16 (bitsOf idx 16 16 + 1)) ∧
     (bitsOf idx 0 16 = bitsOf idx 16 16 → exec (.weftTransmitDone port) s = .next s) ∧
     (bitsOf (s.devReg (weftPort port)) 0 2 = 3 → data.length ≤ 9216 →
       (etherType data = 0x88B5 → ∃ u, exec (.weftFrameReceive port data) s = .next u ∧
         u.transport = s.transport ++ [(port, data)] ∧ u.mem = s.mem) ∧
       (etherType data ≠ 0x88B5 → (bitsOf idx 32 16 + 65536 - bitsOf idx 48 16) % 65536 <
           2 ^ bitsOf (s.devReg (weftPort port + 0x10)) 0 5 →
         let d := s.weftDesc (weftPort port + 0x10) (bitsOf idx 32 16)
         ∃ u, exec (.weftFrameReceive port data) s = .next u ∧
           u.mem = memStore (memStore s.mem (bitsOf (s.dword d) 0 56) data) (d + 8) (leBytes 2 data.length) ∧
           u.devReg (weftPort port + 0x18) = setBits idx 32 16 (bitsOf idx 32 16 + 1))) ∧
     ∀ b : Bool, ∃ u, exec (.weftPortLinkChange port b) s = .next u ∧ (u.devReg (weftPort port)).getLsbD 1 = b) ∧
    ∀ (h : BitVec 5) (rc : BitVec 2) (va : Nat) (image : List Byte),
      let x := s.hart h
      let act (a : CoreAct) (data : List Byte) (P : State → Prop) : Prop := ∃ u, exec (.coreOrPcieStore a data) s = .next u ∧ P u
      let stored (at_ : Nat) (u : State) : Prop := u.mem = memStore s.mem at_ data ∧ u.sh = s.sh ∧ u.full = s.full
      let faults (cause : Nat) (u : State) : Prop := (u.hart h).fault = some (cause, va) ∧ u.mem = s.mem ∧ u.sh = s.sh
      (x.mode = .machine ∨ bitsOf x.satp 60 4 = 0 → s.coreAddress h va true = some va) ∧
      (data ≠ [] →
        (x.started = false → exec (.coreOrPcieStore (.store h va) data) s = .next s) ∧
        (x.started = true → s.coreAddress h va true = none → act (.store h va) data (faults 15)) ∧
        (x.started = true → s.coreAddress h va true = some pa →
          (pa + data.length ≤ Config.hbmBytes → act (.store h va) data (stored pa)) ∧
          (pa < Config.hbmBytes → Config.hbmBytes < pa + data.length → act (.store h va) data (faults 7)) ∧
          (∀ off, pa = 0x10000000000 + off → off < 2 ^ 24 → off % 8 ≠ 0 ∨ data.length ≠ 8 → act (.store h va) data (faults 7))) ∧
        (pa + data.length ≤ Config.hbmBytes → act (.pcieStore rc pa) data (stored pa)) ∧
        (pa < Config.hbmBytes → Config.hbmBytes < pa + data.length → exec (.coreOrPcieStore (.pcieStore rc pa) data) s = .next s)) ∧
      (x.started = true → ∀ mode satp,
        act (.enter h mode satp) [] (fun u => (u.hart h).mode = mode ∧ (u.hart h).satp = satp ∧ u.mem = s.mem)) ∧
      (s.bootStopped = false → ∀ step, bitsOf (s.devReg 0x50008) 8 8 = step → step = 1 ∨ step = 3 →
        act .bringUp image fun u => bitsOf (u.devReg 0x50008) 8 8 = step + 1 ∧
          if Config.imageSigned image then u.measure = sha384 (s.measure ++ sha384 image) ∧ (step = 3 → (u.hart 0).started = true)
          else u.bootStopped = true ∧ u.measure = s.measure)
end

