-- ==== Sys2Proof/Laws/Memory.lean ====
section
/-! SUPPORT. Memory: its canonical form, kept by every operation that writes it, and what bytes read after a write (R3, R16). -/

namespace Sys2Proof.Machine
open Sys2Proof

/-! ## Bytes -/

@[simp] theorem leBytes_length (n v : Nat) : (leBytes n v).length = n := by
  induction n generalizing v with
  | zero => rfl
  | succ n ih => simp [leBytes, ih]

@[simp] theorem memBytes_length (m : List Host.Cell) (a n : Nat) : (memBytes m a n).length = n := by
  induction n generalizing a with
  | zero => rfl
  | succ n ih => simp [memBytes, ih]

theorem memByte_absent (m : List Host.Cell) (a : Nat) (h : ∀ c ∈ m, c.1 ≠ a) : memByte m a = 0 := by
  induction m with
  | nil => rfl
  | cons c m ih =>
    rw [memByte, if_neg (h c (List.mem_cons_self ..)), ih fun d hd => h d (List.mem_cons_of_mem _ hd)]

theorem memBytes_absent (m : List Host.Cell) (n a : Nat) (h : ∀ c ∈ m, c.1 < a ∨ a + n ≤ c.1) :
    memBytes m a n = List.replicate n 0 := by
  induction n generalizing a with
  | zero => rfl
  | succ n ih =>
    rw [memBytes, memByte_absent m a (fun c hc => by have := h c hc; omega), ih (a + 1) (fun c hc => by have := h c hc; omega)]
    rfl

/-- Reading in a list joined from two. -/
theorem memByte_append (m n : List Host.Cell) (a : Nat) :
    memByte (m ++ n) a = if ∃ c ∈ m, c.1 = a then memByte m a else memByte n a := by
  induction m with
  | nil => simp
  | cons c m ih =>
    by_cases h : c.1 = a
    · simp [memByte, h]
    · simp [memByte, h, ih]

/-- The cells at which `p` holds read as all of them do there. -/
theorem memByte_filter (m : List Host.Cell) (p : Nat → Bool) (a : Nat) (h : p a = true) :
    memByte (m.filter fun c => p c.1) a = memByte m a := by
  induction m with
  | nil => rfl
  | cons c m ih =>
    by_cases hc : c.1 = a
    · simp [hc, h, memByte]
    · by_cases hp : p c.1 = true <;> simp [hp, memByte, hc, ih]

/-! ## The canonical form -/

/-- It says that no cell is zero and addresses rise. -/
theorem wf_iff (m : List Host.Cell) : Memory.wf m = true ↔ (∀ c ∈ m, c.2 ≠ 0) ∧ m.Pairwise fun c d => c.1 < d.1 := by
  induction m with
  | nil => simp [Memory.wf]
  | cons c m ih =>
    simp only [Memory.wf, Bool.and_eq_true, decide_eq_true_eq, List.all_eq_true, ih, List.forall_mem_cons, List.pairwise_cons]
    tauto

theorem cellsFrom_range (a : Nat) (bs : List Byte) : ∀ c ∈ cellsFrom a bs, a ≤ c.1 ∧ c.1 < a + bs.length ∧ c.2 ≠ 0 := by
  induction bs generalizing a with
  | nil => simp [cellsFrom]
  | cons b bs ih =>
    intro c hc
    unfold cellsFrom at hc
    split at hc
    · obtain ⟨h1, h2, h3⟩ := ih (a + 1) c hc
      simp only [List.length_cons]
      exact ⟨by omega, by omega, h3⟩
    · rcases List.mem_cons.mp hc with rfl | hc
      · simp only [List.length_cons]; exact ⟨le_refl _, by omega, ‹_›⟩
      · have := ih (a + 1) c hc
        simp only [List.length_cons]
        exact ⟨by omega, by omega, this.2.2⟩

theorem cellsFrom_rising (a : Nat) (bs : List Byte) : (cellsFrom a bs).Pairwise fun c d => c.1 < d.1 := by
  induction bs generalizing a with
  | nil => exact List.Pairwise.nil
  | cons b bs ih =>
    unfold cellsFrom
    split
    · exact ih (a + 1)
    · exact List.pairwise_cons.mpr ⟨fun d hd => (cellsFrom_range (a + 1) bs d hd).1, ih (a + 1)⟩

/-- A write keeps the form. -/
theorem memStore_wf {m : List Host.Cell} (h : Memory.wf m = true) (a : Nat) (bs : List Byte) :
    Memory.wf (memStore m a bs) = true := by
  rw [wf_iff] at h ⊢
  obtain ⟨hz, hp⟩ := h
  constructor
  · intro c hc
    simp only [memStore, List.mem_append, List.mem_filter] at hc
    rcases hc with (hc | hc) | hc
    · exact hz c hc.1
    · exact (cellsFrom_range a bs c hc).2.2
    · exact hz c hc.1
  · simp only [memStore, List.pairwise_append, List.mem_append, List.mem_filter, decide_eq_true_eq]
    refine ⟨⟨hp.filter _, cellsFrom_rising a bs, fun c hc d hd => ?_⟩, hp.filter _, fun c hc d hd => ?_⟩
    · have := (cellsFrom_range a bs d hd).1; omega
    · rcases hc with hc | hc
      · omega
      · have := (cellsFrom_range a bs c hc).2.1; omega

/-- Bytes outside those written read as before. -/
theorem memByte_memStore_ne (m : List Host.Cell) (a : Nat) (bs : List Byte) (b : Nat) (h : b < a ∨ a + bs.length ≤ b) :
    memByte (memStore m a bs) b = memByte m b := by
  have hc : ∀ c ∈ cellsFrom a bs, c.1 ≠ b := fun c hc => by have := cellsFrom_range a bs c hc; omega
  rw [memStore, memByte_append, memByte_append]
  rcases h with h | h
  · by_cases hx : ∃ c ∈ m.filter (fun c => decide (c.1 < a)), c.1 = b
    · obtain ⟨c, hm, hb⟩ := hx
      rw [if_pos ⟨c, List.mem_append_left _ hm, hb⟩, if_pos ⟨c, hm, hb⟩]
      exact memByte_filter m (fun k => decide (k < a)) b (by simpa using h)
    · have hn : ∀ c ∈ m, c.1 ≠ b := fun c hm hb => hx ⟨c, List.mem_filter.mpr ⟨hm, by simp [hb, h]⟩, hb⟩
      rw [memByte_absent m b hn, if_neg, memByte_absent]
      · exact fun c hm => hn c (List.mem_filter.mp hm).1
      · rintro ⟨c, hm, hb⟩
        rcases List.mem_append.mp hm with hm | hm
        · exact hx ⟨c, hm, hb⟩
        · exact hc c hm hb
  · rw [if_neg]
    · exact memByte_filter m (fun k => decide (a + bs.length ≤ k)) b (by simpa using h)
    · rintro ⟨c, hm, hb⟩
      rcases List.mem_append.mp hm with hm | hm
      · have := (List.mem_filter.mp hm).2; simp only [decide_eq_true_eq] at this; omega
      · exact hc c hm hb

theorem memBytes_memStore_ne (m : List Host.Cell) (a : Nat) (bs : List Byte) (n b : Nat) (h : b + n ≤ a ∨ a + bs.length ≤ b) :
    memBytes (memStore m a bs) b n = memBytes m b n := by
  induction n generalizing b with
  | zero => rfl
  | succ n ih => rw [memBytes, memBytes, memByte_memStore_ne m a bs b (by omega), ih (b + 1) (by omega)]

/-! ## Every operation that writes memory -/

theorem reset_ok : State.reset.Ok := by unfold State.Ok; rfl

theorem putBytes_ok {s : State} (h : s.Ok) (place : Nat) (bs : List Byte) : (s.putBytes place bs).Ok := memStore_wf h place bs

theorem putDword_ok {s : State} (h : s.Ok) (place : Nat) (v : W64) : (s.putDword place v).Ok := memStore_wf h place _

theorem storeHbm_ok {s : State} (h : s.Ok) (pa : Nat) (bs : List Byte) : (s.storeHbm pa bs).Ok := memStore_wf h pa bs

/-- Cells taken out leave the form. -/
theorem filter_wf {m : List Host.Cell} (h : Memory.wf m = true) (p : Host.Cell → Bool) : Memory.wf (m.filter p) = true := by
  rw [wf_iff] at h ⊢
  exact ⟨fun c hc => h.1 c (List.mem_filter.mp hc).1, h.2.filter _⟩

theorem clearPlaces_ok {s : State} (h : s.Ok) (lo len : Nat) : (s.clearPlaces lo len).Ok := filter_wf h _

/-! ## The card store (R340) -/

/-- Cards written to the store change memory alone, and keep its form. -/
theorem putCardBytes_mem (cs : List Card) (a : Nat) (s : State) :
    ∃ m, State.putCardBytes cs a s = { s with mem := m } ∧ (Memory.wf s.mem = true → Memory.wf m = true) := by
  induction cs generalizing a s with
  | nil => exact ⟨s.mem, rfl, id⟩
  | cons c cs ih =>
    obtain ⟨m, e, w⟩ := ih (a + Card.room c) (s.putBytes a (Card.bytes c))
    exact ⟨m, e, fun h => w (memStore_wf h a _)⟩

/-- The store's cards and memory are all that changes. -/
theorem setCards_mem (s : State) (cs : List Card) :
    ∃ m, s.setCards cs = { s with cards := fitCards s.csLen cs, mem := m } ∧ (Memory.wf s.mem = true → Memory.wf m = true) := by
  unfold State.setCards
  split
  · obtain ⟨m, e, w⟩ := putCardBytes_mem (fitCards s.csLen cs) s.csBase
      { s with cards := fitCards s.csLen cs, mem := s.mem.filter fun c => decide (c.1 < s.csBase) || decide (s.csBase + s.csLen ≤ c.1) }
    exact ⟨m, e, fun h => w (filter_wf h _)⟩
  · exact ⟨s.mem, rfl, id⟩

theorem setCards_ok {s : State} (h : s.Ok) (cs : List Card) : (s.setCards cs).Ok := by
  obtain ⟨m, e, w⟩ := setCards_mem s cs
  exact e ▸ w h

end Sys2Proof.Machine
end

