-- ==== Sys2Proof/Laws/State.lean ====
section
/-! SUPPORT. What an update of the state leaves: one lemma per field and update, and what reads after a write. -/

namespace Sys2Proof.Machine
open Sys2Proof

/-! ## setShuttle -/

section
variable (s : State) (n : ShNo) (x : Shuttle)

@[simp] theorem setShuttle_agenda : (s.setShuttle n x).agenda = s.agenda := rfl
@[simp] theorem setShuttle_cur : (s.setShuttle n x).cur = s.cur := rfl
@[simp] theorem setShuttle_cycle : (s.setShuttle n x).cycle = s.cycle := rfl
@[simp] theorem setShuttle_clock : (s.setShuttle n x).clock = s.clock := rfl
@[simp] theorem setShuttle_instant : (s.setShuttle n x).instant = s.instant := rfl
@[simp] theorem setShuttle_stamp : (s.setShuttle n x).stamp = s.stamp := rfl
@[simp] theorem setShuttle_drawn : (s.setShuttle n x).drawn = s.drawn := rfl
@[simp] theorem setShuttle_nextId : (s.setShuttle n x).nextId = s.nextId := rfl
@[simp] theorem setShuttle_mem : (s.setShuttle n x).mem = s.mem := rfl
@[simp] theorem setShuttle_full : (s.setShuttle n x).full = s.full := rfl
@[simp] theorem setShuttle_bad : (s.setShuttle n x).bad = s.bad := rfl
@[simp] theorem setShuttle_tags : (s.setShuttle n x).tags = s.tags := rfl
@[simp] theorem setShuttle_dev : (s.setShuttle n x).dev = s.dev := rfl
@[simp] theorem setShuttle_hrLost : (s.setShuttle n x).hrLost = s.hrLost := rfl
@[simp] theorem setShuttle_msis : (s.setShuttle n x).msis = s.msis := rfl
@[simp] theorem setShuttle_harts : (s.setShuttle n x).harts = s.harts := rfl
@[simp] theorem setShuttle_rels : (s.setShuttle n x).rels = s.rels := rfl
@[simp] theorem setShuttle_flagExts : (s.setShuttle n x).flagExts = s.flagExts := rfl
@[simp] theorem setShuttle_moves : (s.setShuttle n x).moves = s.moves := rfl
@[simp] theorem setShuttle_mats : (s.setShuttle n x).mats = s.mats := rfl
@[simp] theorem setShuttle_rangeJobs : (s.setShuttle n x).rangeJobs = s.rangeJobs := rfl
@[simp] theorem setShuttle_colls : (s.setShuttle n x).colls = s.colls := rfl
@[simp] theorem setShuttle_msgs : (s.setShuttle n x).msgs = s.msgs := rfl
@[simp] theorem setShuttle_lines : (s.setShuttle n x).lines = s.lines := rfl
@[simp] theorem setShuttle_results : (s.setShuttle n x).results = s.results := rfl
@[simp] theorem setShuttle_tasks : (s.setShuttle n x).tasks = s.tasks := rfl
@[simp] theorem setShuttle_launches : (s.setShuttle n x).launches = s.launches := rfl
@[simp] theorem setShuttle_grants : (s.setShuttle n x).grants = s.grants := rfl
@[simp] theorem setShuttle_lastKey : (s.setShuttle n x).lastKey = s.lastKey := rfl
@[simp] theorem setShuttle_resReqs : (s.setShuttle n x).resReqs = s.resReqs := rfl
@[simp] theorem setShuttle_rreqs : (s.setShuttle n x).rreqs = s.rreqs := rfl
@[simp] theorem setShuttle_rreqWait : (s.setShuttle n x).rreqWait = s.rreqWait := rfl
@[simp] theorem setShuttle_denied : (s.setShuttle n x).denied = s.denied := rfl
@[simp] theorem setShuttle_rivBusy : (s.setShuttle n x).rivBusy = s.rivBusy := rfl
@[simp] theorem setShuttle_via : (s.setShuttle n x).via = s.via := rfl
@[simp] theorem setShuttle_rlts : (s.setShuttle n x).rlts = s.rlts := rfl
@[simp] theorem setShuttle_invals : (s.setShuttle n x).invals = s.invals := rfl
@[simp] theorem setShuttle_press : (s.setShuttle n x).press = s.press := rfl
@[simp] theorem setShuttle_queues : (s.setShuttle n x).queues = s.queues := rfl
@[simp] theorem setShuttle_wake : (s.setShuttle n x).wake = s.wake := rfl
@[simp] theorem setShuttle_wakeLost : (s.setShuttle n x).wakeLost = s.wakeLost := rfl
@[simp] theorem setShuttle_runs : (s.setShuttle n x).runs = s.runs := rfl
@[simp] theorem setShuttle_curQ : (s.setShuttle n x).curQ = s.curQ := rfl
@[simp] theorem setShuttle_handles : (s.setShuttle n x).handles = s.handles := rfl
@[simp] theorem setShuttle_tload : (s.setShuttle n x).tload = s.tload := rfl
@[simp] theorem setShuttle_hint : (s.setShuttle n x).hint = s.hint := rfl
@[simp] theorem setShuttle_cards : (s.setShuttle n x).cards = s.cards := rfl
@[simp] theorem setShuttle_csBase : (s.setShuttle n x).csBase = s.csBase := rfl
@[simp] theorem setShuttle_csLen : (s.setShuttle n x).csLen = s.csLen := rfl
@[simp] theorem setShuttle_cflush : (s.setShuttle n x).cflush = s.cflush := rfl
@[simp] theorem setShuttle_trapRecs : (s.setShuttle n x).trapRecs = s.trapRecs := rfl
@[simp] theorem setShuttle_heldRecs : (s.setShuttle n x).heldRecs = s.heldRecs := rfl
@[simp] theorem setShuttle_requests : (s.setShuttle n x).requests = s.requests := rfl
@[simp] theorem setShuttle_sent : (s.setShuttle n x).sent = s.sent := rfl
@[simp] theorem setShuttle_channels : (s.setShuttle n x).channels = s.channels := rfl
@[simp] theorem setShuttle_acks : (s.setShuttle n x).acks = s.acks := rfl
@[simp] theorem setShuttle_comms : (s.setShuttle n x).comms = s.comms := rfl
@[simp] theorem setShuttle_outChunks : (s.setShuttle n x).outChunks = s.outChunks := rfl
@[simp] theorem setShuttle_awayLines : (s.setShuttle n x).awayLines = s.awayLines := rfl
@[simp] theorem setShuttle_given : (s.setShuttle n x).given = s.given := rfl
@[simp] theorem setShuttle_posted : (s.setShuttle n x).posted = s.posted := rfl
@[simp] theorem setShuttle_bootStopped : (s.setShuttle n x).bootStopped = s.bootStopped := rfl
@[simp] theorem setShuttle_signals : (s.setShuttle n x).signals = s.signals := rfl
@[simp] theorem setShuttle_pcieOut : (s.setShuttle n x).pcieOut = s.pcieOut := rfl
@[simp] theorem setShuttle_stops : (s.setShuttle n x).stops = s.stops := rfl
@[simp] theorem setShuttle_saves : (s.setShuttle n x).saves = s.saves := rfl
@[simp] theorem setShuttle_ganged : (s.setShuttle n x).ganged = s.ganged := rfl
@[simp] theorem setShuttle_lstep : (s.setShuttle n x).lstep = s.lstep := rfl
@[simp] theorem setShuttle_lsteps : (s.setShuttle n x).lsteps = s.lsteps := rfl
@[simp] theorem setShuttle_gone : (s.setShuttle n x).gone = s.gone := rfl
@[simp] theorem setShuttle_outShuttles : (s.setShuttle n x).outShuttles = s.outShuttles := rfl
@[simp] theorem setShuttle_outLinks : (s.setShuttle n x).outLinks = s.outLinks := rfl
@[simp] theorem setShuttle_outUnits : (s.setShuttle n x).outUnits = s.outUnits := rfl
@[simp] theorem setShuttle_report : (s.setShuttle n x).report = s.report := rfl
@[simp] theorem setShuttle_measure : (s.setShuttle n x).measure = s.measure := rfl
@[simp] theorem setShuttle_transport : (s.setShuttle n x).transport = s.transport := rfl
@[simp] theorem setShuttle_frames : (s.setShuttle n x).frames = s.frames := rfl

end

/-! ## modShuttle -/

section
variable (s : State) (n : ShNo) (f : Shuttle → Shuttle)

@[simp] theorem modShuttle_agenda : (s.modShuttle n f).agenda = s.agenda := rfl
@[simp] theorem modShuttle_cur : (s.modShuttle n f).cur = s.cur := rfl
@[simp] theorem modShuttle_cycle : (s.modShuttle n f).cycle = s.cycle := rfl
@[simp] theorem modShuttle_clock : (s.modShuttle n f).clock = s.clock := rfl
@[simp] theorem modShuttle_instant : (s.modShuttle n f).instant = s.instant := rfl
@[simp] theorem modShuttle_stamp : (s.modShuttle n f).stamp = s.stamp := rfl
@[simp] theorem modShuttle_drawn : (s.modShuttle n f).drawn = s.drawn := rfl
@[simp] theorem modShuttle_nextId : (s.modShuttle n f).nextId = s.nextId := rfl
@[simp] theorem modShuttle_mem : (s.modShuttle n f).mem = s.mem := rfl
@[simp] theorem modShuttle_full : (s.modShuttle n f).full = s.full := rfl
@[simp] theorem modShuttle_bad : (s.modShuttle n f).bad = s.bad := rfl
@[simp] theorem modShuttle_tags : (s.modShuttle n f).tags = s.tags := rfl
@[simp] theorem modShuttle_dev : (s.modShuttle n f).dev = s.dev := rfl
@[simp] theorem modShuttle_hrLost : (s.modShuttle n f).hrLost = s.hrLost := rfl
@[simp] theorem modShuttle_msis : (s.modShuttle n f).msis = s.msis := rfl
@[simp] theorem modShuttle_harts : (s.modShuttle n f).harts = s.harts := rfl
@[simp] theorem modShuttle_rels : (s.modShuttle n f).rels = s.rels := rfl
@[simp] theorem modShuttle_flagExts : (s.modShuttle n f).flagExts = s.flagExts := rfl
@[simp] theorem modShuttle_moves : (s.modShuttle n f).moves = s.moves := rfl
@[simp] theorem modShuttle_mats : (s.modShuttle n f).mats = s.mats := rfl
@[simp] theorem modShuttle_rangeJobs : (s.modShuttle n f).rangeJobs = s.rangeJobs := rfl
@[simp] theorem modShuttle_colls : (s.modShuttle n f).colls = s.colls := rfl
@[simp] theorem modShuttle_msgs : (s.modShuttle n f).msgs = s.msgs := rfl
@[simp] theorem modShuttle_lines : (s.modShuttle n f).lines = s.lines := rfl
@[simp] theorem modShuttle_results : (s.modShuttle n f).results = s.results := rfl
@[simp] theorem modShuttle_tasks : (s.modShuttle n f).tasks = s.tasks := rfl
@[simp] theorem modShuttle_launches : (s.modShuttle n f).launches = s.launches := rfl
@[simp] theorem modShuttle_grants : (s.modShuttle n f).grants = s.grants := rfl
@[simp] theorem modShuttle_lastKey : (s.modShuttle n f).lastKey = s.lastKey := rfl
@[simp] theorem modShuttle_resReqs : (s.modShuttle n f).resReqs = s.resReqs := rfl
@[simp] theorem modShuttle_rreqs : (s.modShuttle n f).rreqs = s.rreqs := rfl
@[simp] theorem modShuttle_rreqWait : (s.modShuttle n f).rreqWait = s.rreqWait := rfl
@[simp] theorem modShuttle_denied : (s.modShuttle n f).denied = s.denied := rfl
@[simp] theorem modShuttle_rivBusy : (s.modShuttle n f).rivBusy = s.rivBusy := rfl
@[simp] theorem modShuttle_via : (s.modShuttle n f).via = s.via := rfl
@[simp] theorem modShuttle_rlts : (s.modShuttle n f).rlts = s.rlts := rfl
@[simp] theorem modShuttle_invals : (s.modShuttle n f).invals = s.invals := rfl
@[simp] theorem modShuttle_press : (s.modShuttle n f).press = s.press := rfl
@[simp] theorem modShuttle_queues : (s.modShuttle n f).queues = s.queues := rfl
@[simp] theorem modShuttle_wake : (s.modShuttle n f).wake = s.wake := rfl
@[simp] theorem modShuttle_wakeLost : (s.modShuttle n f).wakeLost = s.wakeLost := rfl
@[simp] theorem modShuttle_runs : (s.modShuttle n f).runs = s.runs := rfl
@[simp] theorem modShuttle_curQ : (s.modShuttle n f).curQ = s.curQ := rfl
@[simp] theorem modShuttle_handles : (s.modShuttle n f).handles = s.handles := rfl
@[simp] theorem modShuttle_tload : (s.modShuttle n f).tload = s.tload := rfl
@[simp] theorem modShuttle_hint : (s.modShuttle n f).hint = s.hint := rfl
@[simp] theorem modShuttle_cards : (s.modShuttle n f).cards = s.cards := rfl
@[simp] theorem modShuttle_csBase : (s.modShuttle n f).csBase = s.csBase := rfl
@[simp] theorem modShuttle_csLen : (s.modShuttle n f).csLen = s.csLen := rfl
@[simp] theorem modShuttle_cflush : (s.modShuttle n f).cflush = s.cflush := rfl
@[simp] theorem modShuttle_trapRecs : (s.modShuttle n f).trapRecs = s.trapRecs := rfl
@[simp] theorem modShuttle_heldRecs : (s.modShuttle n f).heldRecs = s.heldRecs := rfl
@[simp] theorem modShuttle_requests : (s.modShuttle n f).requests = s.requests := rfl
@[simp] theorem modShuttle_sent : (s.modShuttle n f).sent = s.sent := rfl
@[simp] theorem modShuttle_channels : (s.modShuttle n f).channels = s.channels := rfl
@[simp] theorem modShuttle_acks : (s.modShuttle n f).acks = s.acks := rfl
@[simp] theorem modShuttle_comms : (s.modShuttle n f).comms = s.comms := rfl
@[simp] theorem modShuttle_outChunks : (s.modShuttle n f).outChunks = s.outChunks := rfl
@[simp] theorem modShuttle_awayLines : (s.modShuttle n f).awayLines = s.awayLines := rfl
@[simp] theorem modShuttle_given : (s.modShuttle n f).given = s.given := rfl
@[simp] theorem modShuttle_posted : (s.modShuttle n f).posted = s.posted := rfl
@[simp] theorem modShuttle_bootStopped : (s.modShuttle n f).bootStopped = s.bootStopped := rfl
@[simp] theorem modShuttle_signals : (s.modShuttle n f).signals = s.signals := rfl
@[simp] theorem modShuttle_pcieOut : (s.modShuttle n f).pcieOut = s.pcieOut := rfl
@[simp] theorem modShuttle_stops : (s.modShuttle n f).stops = s.stops := rfl
@[simp] theorem modShuttle_saves : (s.modShuttle n f).saves = s.saves := rfl
@[simp] theorem modShuttle_ganged : (s.modShuttle n f).ganged = s.ganged := rfl
@[simp] theorem modShuttle_lstep : (s.modShuttle n f).lstep = s.lstep := rfl
@[simp] theorem modShuttle_lsteps : (s.modShuttle n f).lsteps = s.lsteps := rfl
@[simp] theorem modShuttle_gone : (s.modShuttle n f).gone = s.gone := rfl
@[simp] theorem modShuttle_outShuttles : (s.modShuttle n f).outShuttles = s.outShuttles := rfl
@[simp] theorem modShuttle_outLinks : (s.modShuttle n f).outLinks = s.outLinks := rfl
@[simp] theorem modShuttle_outUnits : (s.modShuttle n f).outUnits = s.outUnits := rfl
@[simp] theorem modShuttle_report : (s.modShuttle n f).report = s.report := rfl
@[simp] theorem modShuttle_measure : (s.modShuttle n f).measure = s.measure := rfl
@[simp] theorem modShuttle_transport : (s.modShuttle n f).transport = s.transport := rfl
@[simp] theorem modShuttle_frames : (s.modShuttle n f).frames = s.frames := rfl

end

/-! ## modMe -/

section
variable (s : State) (f : Shuttle → Shuttle)

@[simp] theorem modMe_agenda : (s.modMe f).agenda = s.agenda := rfl
@[simp] theorem modMe_cur : (s.modMe f).cur = s.cur := rfl
@[simp] theorem modMe_cycle : (s.modMe f).cycle = s.cycle := rfl
@[simp] theorem modMe_clock : (s.modMe f).clock = s.clock := rfl
@[simp] theorem modMe_instant : (s.modMe f).instant = s.instant := rfl
@[simp] theorem modMe_stamp : (s.modMe f).stamp = s.stamp := rfl
@[simp] theorem modMe_drawn : (s.modMe f).drawn = s.drawn := rfl
@[simp] theorem modMe_nextId : (s.modMe f).nextId = s.nextId := rfl
@[simp] theorem modMe_mem : (s.modMe f).mem = s.mem := rfl
@[simp] theorem modMe_full : (s.modMe f).full = s.full := rfl
@[simp] theorem modMe_bad : (s.modMe f).bad = s.bad := rfl
@[simp] theorem modMe_tags : (s.modMe f).tags = s.tags := rfl
@[simp] theorem modMe_dev : (s.modMe f).dev = s.dev := rfl
@[simp] theorem modMe_hrLost : (s.modMe f).hrLost = s.hrLost := rfl
@[simp] theorem modMe_msis : (s.modMe f).msis = s.msis := rfl
@[simp] theorem modMe_harts : (s.modMe f).harts = s.harts := rfl
@[simp] theorem modMe_rels : (s.modMe f).rels = s.rels := rfl
@[simp] theorem modMe_flagExts : (s.modMe f).flagExts = s.flagExts := rfl
@[simp] theorem modMe_moves : (s.modMe f).moves = s.moves := rfl
@[simp] theorem modMe_mats : (s.modMe f).mats = s.mats := rfl
@[simp] theorem modMe_rangeJobs : (s.modMe f).rangeJobs = s.rangeJobs := rfl
@[simp] theorem modMe_colls : (s.modMe f).colls = s.colls := rfl
@[simp] theorem modMe_msgs : (s.modMe f).msgs = s.msgs := rfl
@[simp] theorem modMe_lines : (s.modMe f).lines = s.lines := rfl
@[simp] theorem modMe_results : (s.modMe f).results = s.results := rfl
@[simp] theorem modMe_tasks : (s.modMe f).tasks = s.tasks := rfl
@[simp] theorem modMe_launches : (s.modMe f).launches = s.launches := rfl
@[simp] theorem modMe_grants : (s.modMe f).grants = s.grants := rfl
@[simp] theorem modMe_lastKey : (s.modMe f).lastKey = s.lastKey := rfl
@[simp] theorem modMe_resReqs : (s.modMe f).resReqs = s.resReqs := rfl
@[simp] theorem modMe_rreqs : (s.modMe f).rreqs = s.rreqs := rfl
@[simp] theorem modMe_rreqWait : (s.modMe f).rreqWait = s.rreqWait := rfl
@[simp] theorem modMe_denied : (s.modMe f).denied = s.denied := rfl
@[simp] theorem modMe_rivBusy : (s.modMe f).rivBusy = s.rivBusy := rfl
@[simp] theorem modMe_via : (s.modMe f).via = s.via := rfl
@[simp] theorem modMe_rlts : (s.modMe f).rlts = s.rlts := rfl
@[simp] theorem modMe_invals : (s.modMe f).invals = s.invals := rfl
@[simp] theorem modMe_press : (s.modMe f).press = s.press := rfl
@[simp] theorem modMe_queues : (s.modMe f).queues = s.queues := rfl
@[simp] theorem modMe_wake : (s.modMe f).wake = s.wake := rfl
@[simp] theorem modMe_wakeLost : (s.modMe f).wakeLost = s.wakeLost := rfl
@[simp] theorem modMe_runs : (s.modMe f).runs = s.runs := rfl
@[simp] theorem modMe_curQ : (s.modMe f).curQ = s.curQ := rfl
@[simp] theorem modMe_handles : (s.modMe f).handles = s.handles := rfl
@[simp] theorem modMe_tload : (s.modMe f).tload = s.tload := rfl
@[simp] theorem modMe_hint : (s.modMe f).hint = s.hint := rfl
@[simp] theorem modMe_cards : (s.modMe f).cards = s.cards := rfl
@[simp] theorem modMe_csBase : (s.modMe f).csBase = s.csBase := rfl
@[simp] theorem modMe_csLen : (s.modMe f).csLen = s.csLen := rfl
@[simp] theorem modMe_cflush : (s.modMe f).cflush = s.cflush := rfl
@[simp] theorem modMe_trapRecs : (s.modMe f).trapRecs = s.trapRecs := rfl
@[simp] theorem modMe_heldRecs : (s.modMe f).heldRecs = s.heldRecs := rfl
@[simp] theorem modMe_requests : (s.modMe f).requests = s.requests := rfl
@[simp] theorem modMe_sent : (s.modMe f).sent = s.sent := rfl
@[simp] theorem modMe_channels : (s.modMe f).channels = s.channels := rfl
@[simp] theorem modMe_acks : (s.modMe f).acks = s.acks := rfl
@[simp] theorem modMe_comms : (s.modMe f).comms = s.comms := rfl
@[simp] theorem modMe_outChunks : (s.modMe f).outChunks = s.outChunks := rfl
@[simp] theorem modMe_awayLines : (s.modMe f).awayLines = s.awayLines := rfl
@[simp] theorem modMe_given : (s.modMe f).given = s.given := rfl
@[simp] theorem modMe_posted : (s.modMe f).posted = s.posted := rfl
@[simp] theorem modMe_bootStopped : (s.modMe f).bootStopped = s.bootStopped := rfl
@[simp] theorem modMe_signals : (s.modMe f).signals = s.signals := rfl
@[simp] theorem modMe_pcieOut : (s.modMe f).pcieOut = s.pcieOut := rfl
@[simp] theorem modMe_stops : (s.modMe f).stops = s.stops := rfl
@[simp] theorem modMe_saves : (s.modMe f).saves = s.saves := rfl
@[simp] theorem modMe_ganged : (s.modMe f).ganged = s.ganged := rfl
@[simp] theorem modMe_lstep : (s.modMe f).lstep = s.lstep := rfl
@[simp] theorem modMe_lsteps : (s.modMe f).lsteps = s.lsteps := rfl
@[simp] theorem modMe_gone : (s.modMe f).gone = s.gone := rfl
@[simp] theorem modMe_outShuttles : (s.modMe f).outShuttles = s.outShuttles := rfl
@[simp] theorem modMe_outLinks : (s.modMe f).outLinks = s.outLinks := rfl
@[simp] theorem modMe_outUnits : (s.modMe f).outUnits = s.outUnits := rfl
@[simp] theorem modMe_report : (s.modMe f).report = s.report := rfl
@[simp] theorem modMe_measure : (s.modMe f).measure = s.measure := rfl
@[simp] theorem modMe_transport : (s.modMe f).transport = s.transport := rfl
@[simp] theorem modMe_frames : (s.modMe f).frames = s.frames := rfl

end

/-! ## modSeq -/

section
variable (s : State) (n : ShNo) (st : Stream) (f : Seq → Seq)

@[simp] theorem modSeq_agenda : (s.modSeq n st f).agenda = s.agenda := rfl
@[simp] theorem modSeq_cur : (s.modSeq n st f).cur = s.cur := rfl
@[simp] theorem modSeq_cycle : (s.modSeq n st f).cycle = s.cycle := rfl
@[simp] theorem modSeq_clock : (s.modSeq n st f).clock = s.clock := rfl
@[simp] theorem modSeq_instant : (s.modSeq n st f).instant = s.instant := rfl
@[simp] theorem modSeq_stamp : (s.modSeq n st f).stamp = s.stamp := rfl
@[simp] theorem modSeq_drawn : (s.modSeq n st f).drawn = s.drawn := rfl
@[simp] theorem modSeq_nextId : (s.modSeq n st f).nextId = s.nextId := rfl
@[simp] theorem modSeq_mem : (s.modSeq n st f).mem = s.mem := rfl
@[simp] theorem modSeq_full : (s.modSeq n st f).full = s.full := rfl
@[simp] theorem modSeq_bad : (s.modSeq n st f).bad = s.bad := rfl
@[simp] theorem modSeq_tags : (s.modSeq n st f).tags = s.tags := rfl
@[simp] theorem modSeq_dev : (s.modSeq n st f).dev = s.dev := rfl
@[simp] theorem modSeq_hrLost : (s.modSeq n st f).hrLost = s.hrLost := rfl
@[simp] theorem modSeq_msis : (s.modSeq n st f).msis = s.msis := rfl
@[simp] theorem modSeq_harts : (s.modSeq n st f).harts = s.harts := rfl
@[simp] theorem modSeq_rels : (s.modSeq n st f).rels = s.rels := rfl
@[simp] theorem modSeq_flagExts : (s.modSeq n st f).flagExts = s.flagExts := rfl
@[simp] theorem modSeq_moves : (s.modSeq n st f).moves = s.moves := rfl
@[simp] theorem modSeq_mats : (s.modSeq n st f).mats = s.mats := rfl
@[simp] theorem modSeq_rangeJobs : (s.modSeq n st f).rangeJobs = s.rangeJobs := rfl
@[simp] theorem modSeq_colls : (s.modSeq n st f).colls = s.colls := rfl
@[simp] theorem modSeq_msgs : (s.modSeq n st f).msgs = s.msgs := rfl
@[simp] theorem modSeq_lines : (s.modSeq n st f).lines = s.lines := rfl
@[simp] theorem modSeq_results : (s.modSeq n st f).results = s.results := rfl
@[simp] theorem modSeq_tasks : (s.modSeq n st f).tasks = s.tasks := rfl
@[simp] theorem modSeq_launches : (s.modSeq n st f).launches = s.launches := rfl
@[simp] theorem modSeq_grants : (s.modSeq n st f).grants = s.grants := rfl
@[simp] theorem modSeq_lastKey : (s.modSeq n st f).lastKey = s.lastKey := rfl
@[simp] theorem modSeq_resReqs : (s.modSeq n st f).resReqs = s.resReqs := rfl
@[simp] theorem modSeq_rreqs : (s.modSeq n st f).rreqs = s.rreqs := rfl
@[simp] theorem modSeq_rreqWait : (s.modSeq n st f).rreqWait = s.rreqWait := rfl
@[simp] theorem modSeq_denied : (s.modSeq n st f).denied = s.denied := rfl
@[simp] theorem modSeq_rivBusy : (s.modSeq n st f).rivBusy = s.rivBusy := rfl
@[simp] theorem modSeq_via : (s.modSeq n st f).via = s.via := rfl
@[simp] theorem modSeq_rlts : (s.modSeq n st f).rlts = s.rlts := rfl
@[simp] theorem modSeq_invals : (s.modSeq n st f).invals = s.invals := rfl
@[simp] theorem modSeq_press : (s.modSeq n st f).press = s.press := rfl
@[simp] theorem modSeq_queues : (s.modSeq n st f).queues = s.queues := rfl
@[simp] theorem modSeq_wake : (s.modSeq n st f).wake = s.wake := rfl
@[simp] theorem modSeq_wakeLost : (s.modSeq n st f).wakeLost = s.wakeLost := rfl
@[simp] theorem modSeq_runs : (s.modSeq n st f).runs = s.runs := rfl
@[simp] theorem modSeq_curQ : (s.modSeq n st f).curQ = s.curQ := rfl
@[simp] theorem modSeq_handles : (s.modSeq n st f).handles = s.handles := rfl
@[simp] theorem modSeq_tload : (s.modSeq n st f).tload = s.tload := rfl
@[simp] theorem modSeq_hint : (s.modSeq n st f).hint = s.hint := rfl
@[simp] theorem modSeq_cards : (s.modSeq n st f).cards = s.cards := rfl
@[simp] theorem modSeq_csBase : (s.modSeq n st f).csBase = s.csBase := rfl
@[simp] theorem modSeq_csLen : (s.modSeq n st f).csLen = s.csLen := rfl
@[simp] theorem modSeq_cflush : (s.modSeq n st f).cflush = s.cflush := rfl
@[simp] theorem modSeq_trapRecs : (s.modSeq n st f).trapRecs = s.trapRecs := rfl
@[simp] theorem modSeq_heldRecs : (s.modSeq n st f).heldRecs = s.heldRecs := rfl
@[simp] theorem modSeq_requests : (s.modSeq n st f).requests = s.requests := rfl
@[simp] theorem modSeq_sent : (s.modSeq n st f).sent = s.sent := rfl
@[simp] theorem modSeq_channels : (s.modSeq n st f).channels = s.channels := rfl
@[simp] theorem modSeq_acks : (s.modSeq n st f).acks = s.acks := rfl
@[simp] theorem modSeq_comms : (s.modSeq n st f).comms = s.comms := rfl
@[simp] theorem modSeq_outChunks : (s.modSeq n st f).outChunks = s.outChunks := rfl
@[simp] theorem modSeq_awayLines : (s.modSeq n st f).awayLines = s.awayLines := rfl
@[simp] theorem modSeq_given : (s.modSeq n st f).given = s.given := rfl
@[simp] theorem modSeq_posted : (s.modSeq n st f).posted = s.posted := rfl
@[simp] theorem modSeq_bootStopped : (s.modSeq n st f).bootStopped = s.bootStopped := rfl
@[simp] theorem modSeq_signals : (s.modSeq n st f).signals = s.signals := rfl
@[simp] theorem modSeq_pcieOut : (s.modSeq n st f).pcieOut = s.pcieOut := rfl
@[simp] theorem modSeq_stops : (s.modSeq n st f).stops = s.stops := rfl
@[simp] theorem modSeq_saves : (s.modSeq n st f).saves = s.saves := rfl
@[simp] theorem modSeq_ganged : (s.modSeq n st f).ganged = s.ganged := rfl
@[simp] theorem modSeq_lstep : (s.modSeq n st f).lstep = s.lstep := rfl
@[simp] theorem modSeq_lsteps : (s.modSeq n st f).lsteps = s.lsteps := rfl
@[simp] theorem modSeq_gone : (s.modSeq n st f).gone = s.gone := rfl
@[simp] theorem modSeq_outShuttles : (s.modSeq n st f).outShuttles = s.outShuttles := rfl
@[simp] theorem modSeq_outLinks : (s.modSeq n st f).outLinks = s.outLinks := rfl
@[simp] theorem modSeq_outUnits : (s.modSeq n st f).outUnits = s.outUnits := rfl
@[simp] theorem modSeq_report : (s.modSeq n st f).report = s.report := rfl
@[simp] theorem modSeq_measure : (s.modSeq n st f).measure = s.measure := rfl
@[simp] theorem modSeq_transport : (s.modSeq n st f).transport = s.transport := rfl
@[simp] theorem modSeq_frames : (s.modSeq n st f).frames = s.frames := rfl

end

/-! ## modMySeq -/

section
variable (s : State) (f : Seq → Seq)

@[simp] theorem modMySeq_agenda : (s.modMySeq f).agenda = s.agenda := rfl
@[simp] theorem modMySeq_cur : (s.modMySeq f).cur = s.cur := rfl
@[simp] theorem modMySeq_cycle : (s.modMySeq f).cycle = s.cycle := rfl
@[simp] theorem modMySeq_clock : (s.modMySeq f).clock = s.clock := rfl
@[simp] theorem modMySeq_instant : (s.modMySeq f).instant = s.instant := rfl
@[simp] theorem modMySeq_stamp : (s.modMySeq f).stamp = s.stamp := rfl
@[simp] theorem modMySeq_drawn : (s.modMySeq f).drawn = s.drawn := rfl
@[simp] theorem modMySeq_nextId : (s.modMySeq f).nextId = s.nextId := rfl
@[simp] theorem modMySeq_mem : (s.modMySeq f).mem = s.mem := rfl
@[simp] theorem modMySeq_full : (s.modMySeq f).full = s.full := rfl
@[simp] theorem modMySeq_bad : (s.modMySeq f).bad = s.bad := rfl
@[simp] theorem modMySeq_tags : (s.modMySeq f).tags = s.tags := rfl
@[simp] theorem modMySeq_dev : (s.modMySeq f).dev = s.dev := rfl
@[simp] theorem modMySeq_hrLost : (s.modMySeq f).hrLost = s.hrLost := rfl
@[simp] theorem modMySeq_msis : (s.modMySeq f).msis = s.msis := rfl
@[simp] theorem modMySeq_harts : (s.modMySeq f).harts = s.harts := rfl
@[simp] theorem modMySeq_rels : (s.modMySeq f).rels = s.rels := rfl
@[simp] theorem modMySeq_flagExts : (s.modMySeq f).flagExts = s.flagExts := rfl
@[simp] theorem modMySeq_moves : (s.modMySeq f).moves = s.moves := rfl
@[simp] theorem modMySeq_mats : (s.modMySeq f).mats = s.mats := rfl
@[simp] theorem modMySeq_rangeJobs : (s.modMySeq f).rangeJobs = s.rangeJobs := rfl
@[simp] theorem modMySeq_colls : (s.modMySeq f).colls = s.colls := rfl
@[simp] theorem modMySeq_msgs : (s.modMySeq f).msgs = s.msgs := rfl
@[simp] theorem modMySeq_lines : (s.modMySeq f).lines = s.lines := rfl
@[simp] theorem modMySeq_results : (s.modMySeq f).results = s.results := rfl
@[simp] theorem modMySeq_tasks : (s.modMySeq f).tasks = s.tasks := rfl
@[simp] theorem modMySeq_launches : (s.modMySeq f).launches = s.launches := rfl
@[simp] theorem modMySeq_grants : (s.modMySeq f).grants = s.grants := rfl
@[simp] theorem modMySeq_lastKey : (s.modMySeq f).lastKey = s.lastKey := rfl
@[simp] theorem modMySeq_resReqs : (s.modMySeq f).resReqs = s.resReqs := rfl
@[simp] theorem modMySeq_rreqs : (s.modMySeq f).rreqs = s.rreqs := rfl
@[simp] theorem modMySeq_rreqWait : (s.modMySeq f).rreqWait = s.rreqWait := rfl
@[simp] theorem modMySeq_denied : (s.modMySeq f).denied = s.denied := rfl
@[simp] theorem modMySeq_rivBusy : (s.modMySeq f).rivBusy = s.rivBusy := rfl
@[simp] theorem modMySeq_via : (s.modMySeq f).via = s.via := rfl
@[simp] theorem modMySeq_rlts : (s.modMySeq f).rlts = s.rlts := rfl
@[simp] theorem modMySeq_invals : (s.modMySeq f).invals = s.invals := rfl
@[simp] theorem modMySeq_press : (s.modMySeq f).press = s.press := rfl
@[simp] theorem modMySeq_queues : (s.modMySeq f).queues = s.queues := rfl
@[simp] theorem modMySeq_wake : (s.modMySeq f).wake = s.wake := rfl
@[simp] theorem modMySeq_wakeLost : (s.modMySeq f).wakeLost = s.wakeLost := rfl
@[simp] theorem modMySeq_runs : (s.modMySeq f).runs = s.runs := rfl
@[simp] theorem modMySeq_curQ : (s.modMySeq f).curQ = s.curQ := rfl
@[simp] theorem modMySeq_handles : (s.modMySeq f).handles = s.handles := rfl
@[simp] theorem modMySeq_tload : (s.modMySeq f).tload = s.tload := rfl
@[simp] theorem modMySeq_hint : (s.modMySeq f).hint = s.hint := rfl
@[simp] theorem modMySeq_cards : (s.modMySeq f).cards = s.cards := rfl
@[simp] theorem modMySeq_csBase : (s.modMySeq f).csBase = s.csBase := rfl
@[simp] theorem modMySeq_csLen : (s.modMySeq f).csLen = s.csLen := rfl
@[simp] theorem modMySeq_cflush : (s.modMySeq f).cflush = s.cflush := rfl
@[simp] theorem modMySeq_trapRecs : (s.modMySeq f).trapRecs = s.trapRecs := rfl
@[simp] theorem modMySeq_heldRecs : (s.modMySeq f).heldRecs = s.heldRecs := rfl
@[simp] theorem modMySeq_requests : (s.modMySeq f).requests = s.requests := rfl
@[simp] theorem modMySeq_sent : (s.modMySeq f).sent = s.sent := rfl
@[simp] theorem modMySeq_channels : (s.modMySeq f).channels = s.channels := rfl
@[simp] theorem modMySeq_acks : (s.modMySeq f).acks = s.acks := rfl
@[simp] theorem modMySeq_comms : (s.modMySeq f).comms = s.comms := rfl
@[simp] theorem modMySeq_outChunks : (s.modMySeq f).outChunks = s.outChunks := rfl
@[simp] theorem modMySeq_awayLines : (s.modMySeq f).awayLines = s.awayLines := rfl
@[simp] theorem modMySeq_given : (s.modMySeq f).given = s.given := rfl
@[simp] theorem modMySeq_posted : (s.modMySeq f).posted = s.posted := rfl
@[simp] theorem modMySeq_bootStopped : (s.modMySeq f).bootStopped = s.bootStopped := rfl
@[simp] theorem modMySeq_signals : (s.modMySeq f).signals = s.signals := rfl
@[simp] theorem modMySeq_pcieOut : (s.modMySeq f).pcieOut = s.pcieOut := rfl
@[simp] theorem modMySeq_stops : (s.modMySeq f).stops = s.stops := rfl
@[simp] theorem modMySeq_saves : (s.modMySeq f).saves = s.saves := rfl
@[simp] theorem modMySeq_ganged : (s.modMySeq f).ganged = s.ganged := rfl
@[simp] theorem modMySeq_lstep : (s.modMySeq f).lstep = s.lstep := rfl
@[simp] theorem modMySeq_lsteps : (s.modMySeq f).lsteps = s.lsteps := rfl
@[simp] theorem modMySeq_gone : (s.modMySeq f).gone = s.gone := rfl
@[simp] theorem modMySeq_outShuttles : (s.modMySeq f).outShuttles = s.outShuttles := rfl
@[simp] theorem modMySeq_outLinks : (s.modMySeq f).outLinks = s.outLinks := rfl
@[simp] theorem modMySeq_outUnits : (s.modMySeq f).outUnits = s.outUnits := rfl
@[simp] theorem modMySeq_report : (s.modMySeq f).report = s.report := rfl
@[simp] theorem modMySeq_measure : (s.modMySeq f).measure = s.measure := rfl
@[simp] theorem modMySeq_transport : (s.modMySeq f).transport = s.transport := rfl
@[simp] theorem modMySeq_frames : (s.modMySeq f).frames = s.frames := rfl

end

/-! ## bump -/

section
variable (s : State) (n : ShNo)

@[simp] theorem bump_agenda : (s.bump n).agenda = s.agenda := rfl
@[simp] theorem bump_cur : (s.bump n).cur = s.cur := rfl
@[simp] theorem bump_cycle : (s.bump n).cycle = s.cycle := rfl
@[simp] theorem bump_clock : (s.bump n).clock = s.clock := rfl
@[simp] theorem bump_instant : (s.bump n).instant = s.instant := rfl
@[simp] theorem bump_drawn : (s.bump n).drawn = s.drawn := rfl
@[simp] theorem bump_nextId : (s.bump n).nextId = s.nextId := rfl
@[simp] theorem bump_mem : (s.bump n).mem = s.mem := rfl
@[simp] theorem bump_full : (s.bump n).full = s.full := rfl
@[simp] theorem bump_bad : (s.bump n).bad = s.bad := rfl
@[simp] theorem bump_tags : (s.bump n).tags = s.tags := rfl
@[simp] theorem bump_dev : (s.bump n).dev = s.dev := rfl
@[simp] theorem bump_hrLost : (s.bump n).hrLost = s.hrLost := rfl
@[simp] theorem bump_msis : (s.bump n).msis = s.msis := rfl
@[simp] theorem bump_harts : (s.bump n).harts = s.harts := rfl
@[simp] theorem bump_rels : (s.bump n).rels = s.rels := rfl
@[simp] theorem bump_flagExts : (s.bump n).flagExts = s.flagExts := rfl
@[simp] theorem bump_moves : (s.bump n).moves = s.moves := rfl
@[simp] theorem bump_mats : (s.bump n).mats = s.mats := rfl
@[simp] theorem bump_rangeJobs : (s.bump n).rangeJobs = s.rangeJobs := rfl
@[simp] theorem bump_colls : (s.bump n).colls = s.colls := rfl
@[simp] theorem bump_msgs : (s.bump n).msgs = s.msgs := rfl
@[simp] theorem bump_lines : (s.bump n).lines = s.lines := rfl
@[simp] theorem bump_results : (s.bump n).results = s.results := rfl
@[simp] theorem bump_tasks : (s.bump n).tasks = s.tasks := rfl
@[simp] theorem bump_launches : (s.bump n).launches = s.launches := rfl
@[simp] theorem bump_grants : (s.bump n).grants = s.grants := rfl
@[simp] theorem bump_lastKey : (s.bump n).lastKey = s.lastKey := rfl
@[simp] theorem bump_resReqs : (s.bump n).resReqs = s.resReqs := rfl
@[simp] theorem bump_rreqs : (s.bump n).rreqs = s.rreqs := rfl
@[simp] theorem bump_rreqWait : (s.bump n).rreqWait = s.rreqWait := rfl
@[simp] theorem bump_denied : (s.bump n).denied = s.denied := rfl
@[simp] theorem bump_rivBusy : (s.bump n).rivBusy = s.rivBusy := rfl
@[simp] theorem bump_via : (s.bump n).via = s.via := rfl
@[simp] theorem bump_rlts : (s.bump n).rlts = s.rlts := rfl
@[simp] theorem bump_invals : (s.bump n).invals = s.invals := rfl
@[simp] theorem bump_press : (s.bump n).press = s.press := rfl
@[simp] theorem bump_queues : (s.bump n).queues = s.queues := rfl
@[simp] theorem bump_wake : (s.bump n).wake = s.wake := rfl
@[simp] theorem bump_wakeLost : (s.bump n).wakeLost = s.wakeLost := rfl
@[simp] theorem bump_runs : (s.bump n).runs = s.runs := rfl
@[simp] theorem bump_curQ : (s.bump n).curQ = s.curQ := rfl
@[simp] theorem bump_handles : (s.bump n).handles = s.handles := rfl
@[simp] theorem bump_tload : (s.bump n).tload = s.tload := rfl
@[simp] theorem bump_hint : (s.bump n).hint = s.hint := rfl
@[simp] theorem bump_cards : (s.bump n).cards = s.cards := rfl
@[simp] theorem bump_csBase : (s.bump n).csBase = s.csBase := rfl
@[simp] theorem bump_csLen : (s.bump n).csLen = s.csLen := rfl
@[simp] theorem bump_cflush : (s.bump n).cflush = s.cflush := rfl
@[simp] theorem bump_trapRecs : (s.bump n).trapRecs = s.trapRecs := rfl
@[simp] theorem bump_heldRecs : (s.bump n).heldRecs = s.heldRecs := rfl
@[simp] theorem bump_requests : (s.bump n).requests = s.requests := rfl
@[simp] theorem bump_sent : (s.bump n).sent = s.sent := rfl
@[simp] theorem bump_channels : (s.bump n).channels = s.channels := rfl
@[simp] theorem bump_acks : (s.bump n).acks = s.acks := rfl
@[simp] theorem bump_comms : (s.bump n).comms = s.comms := rfl
@[simp] theorem bump_outChunks : (s.bump n).outChunks = s.outChunks := rfl
@[simp] theorem bump_awayLines : (s.bump n).awayLines = s.awayLines := rfl
@[simp] theorem bump_given : (s.bump n).given = s.given := rfl
@[simp] theorem bump_posted : (s.bump n).posted = s.posted := rfl
@[simp] theorem bump_bootStopped : (s.bump n).bootStopped = s.bootStopped := rfl
@[simp] theorem bump_signals : (s.bump n).signals = s.signals := rfl
@[simp] theorem bump_pcieOut : (s.bump n).pcieOut = s.pcieOut := rfl
@[simp] theorem bump_stops : (s.bump n).stops = s.stops := rfl
@[simp] theorem bump_saves : (s.bump n).saves = s.saves := rfl
@[simp] theorem bump_ganged : (s.bump n).ganged = s.ganged := rfl
@[simp] theorem bump_lstep : (s.bump n).lstep = s.lstep := rfl
@[simp] theorem bump_lsteps : (s.bump n).lsteps = s.lsteps := rfl
@[simp] theorem bump_gone : (s.bump n).gone = s.gone := rfl
@[simp] theorem bump_outShuttles : (s.bump n).outShuttles = s.outShuttles := rfl
@[simp] theorem bump_outLinks : (s.bump n).outLinks = s.outLinks := rfl
@[simp] theorem bump_outUnits : (s.bump n).outUnits = s.outUnits := rfl
@[simp] theorem bump_report : (s.bump n).report = s.report := rfl
@[simp] theorem bump_measure : (s.bump n).measure = s.measure := rfl
@[simp] theorem bump_transport : (s.bump n).transport = s.transport := rfl
@[simp] theorem bump_frames : (s.bump n).frames = s.frames := rfl

end

/-! ## setDevReg -/

section
variable (s : State) (off : Nat) (v : W64)

@[simp] theorem setDevReg_agenda : (s.setDevReg off v).agenda = s.agenda := rfl
@[simp] theorem setDevReg_cur : (s.setDevReg off v).cur = s.cur := rfl
@[simp] theorem setDevReg_cycle : (s.setDevReg off v).cycle = s.cycle := rfl
@[simp] theorem setDevReg_clock : (s.setDevReg off v).clock = s.clock := rfl
@[simp] theorem setDevReg_instant : (s.setDevReg off v).instant = s.instant := rfl
@[simp] theorem setDevReg_stamp : (s.setDevReg off v).stamp = s.stamp := rfl
@[simp] theorem setDevReg_drawn : (s.setDevReg off v).drawn = s.drawn := rfl
@[simp] theorem setDevReg_nextId : (s.setDevReg off v).nextId = s.nextId := rfl
@[simp] theorem setDevReg_sh : (s.setDevReg off v).sh = s.sh := rfl
@[simp] theorem setDevReg_mem : (s.setDevReg off v).mem = s.mem := rfl
@[simp] theorem setDevReg_full : (s.setDevReg off v).full = s.full := rfl
@[simp] theorem setDevReg_bad : (s.setDevReg off v).bad = s.bad := rfl
@[simp] theorem setDevReg_tags : (s.setDevReg off v).tags = s.tags := rfl
@[simp] theorem setDevReg_hrLost : (s.setDevReg off v).hrLost = s.hrLost := rfl
@[simp] theorem setDevReg_msis : (s.setDevReg off v).msis = s.msis := rfl
@[simp] theorem setDevReg_harts : (s.setDevReg off v).harts = s.harts := rfl
@[simp] theorem setDevReg_rels : (s.setDevReg off v).rels = s.rels := rfl
@[simp] theorem setDevReg_flagExts : (s.setDevReg off v).flagExts = s.flagExts := rfl
@[simp] theorem setDevReg_moves : (s.setDevReg off v).moves = s.moves := rfl
@[simp] theorem setDevReg_mats : (s.setDevReg off v).mats = s.mats := rfl
@[simp] theorem setDevReg_rangeJobs : (s.setDevReg off v).rangeJobs = s.rangeJobs := rfl
@[simp] theorem setDevReg_colls : (s.setDevReg off v).colls = s.colls := rfl
@[simp] theorem setDevReg_msgs : (s.setDevReg off v).msgs = s.msgs := rfl
@[simp] theorem setDevReg_lines : (s.setDevReg off v).lines = s.lines := rfl
@[simp] theorem setDevReg_results : (s.setDevReg off v).results = s.results := rfl
@[simp] theorem setDevReg_tasks : (s.setDevReg off v).tasks = s.tasks := rfl
@[simp] theorem setDevReg_launches : (s.setDevReg off v).launches = s.launches := rfl
@[simp] theorem setDevReg_grants : (s.setDevReg off v).grants = s.grants := rfl
@[simp] theorem setDevReg_lastKey : (s.setDevReg off v).lastKey = s.lastKey := rfl
@[simp] theorem setDevReg_resReqs : (s.setDevReg off v).resReqs = s.resReqs := rfl
@[simp] theorem setDevReg_rreqs : (s.setDevReg off v).rreqs = s.rreqs := rfl
@[simp] theorem setDevReg_rreqWait : (s.setDevReg off v).rreqWait = s.rreqWait := rfl
@[simp] theorem setDevReg_denied : (s.setDevReg off v).denied = s.denied := rfl
@[simp] theorem setDevReg_rivBusy : (s.setDevReg off v).rivBusy = s.rivBusy := rfl
@[simp] theorem setDevReg_via : (s.setDevReg off v).via = s.via := rfl
@[simp] theorem setDevReg_rlts : (s.setDevReg off v).rlts = s.rlts := rfl
@[simp] theorem setDevReg_invals : (s.setDevReg off v).invals = s.invals := rfl
@[simp] theorem setDevReg_press : (s.setDevReg off v).press = s.press := rfl
@[simp] theorem setDevReg_queues : (s.setDevReg off v).queues = s.queues := rfl
@[simp] theorem setDevReg_wake : (s.setDevReg off v).wake = s.wake := rfl
@[simp] theorem setDevReg_wakeLost : (s.setDevReg off v).wakeLost = s.wakeLost := rfl
@[simp] theorem setDevReg_runs : (s.setDevReg off v).runs = s.runs := rfl
@[simp] theorem setDevReg_curQ : (s.setDevReg off v).curQ = s.curQ := rfl
@[simp] theorem setDevReg_handles : (s.setDevReg off v).handles = s.handles := rfl
@[simp] theorem setDevReg_tload : (s.setDevReg off v).tload = s.tload := rfl
@[simp] theorem setDevReg_hint : (s.setDevReg off v).hint = s.hint := rfl
@[simp] theorem setDevReg_cards : (s.setDevReg off v).cards = s.cards := rfl
@[simp] theorem setDevReg_csBase : (s.setDevReg off v).csBase = s.csBase := rfl
@[simp] theorem setDevReg_csLen : (s.setDevReg off v).csLen = s.csLen := rfl
@[simp] theorem setDevReg_cflush : (s.setDevReg off v).cflush = s.cflush := rfl
@[simp] theorem setDevReg_trapRecs : (s.setDevReg off v).trapRecs = s.trapRecs := rfl
@[simp] theorem setDevReg_heldRecs : (s.setDevReg off v).heldRecs = s.heldRecs := rfl
@[simp] theorem setDevReg_requests : (s.setDevReg off v).requests = s.requests := rfl
@[simp] theorem setDevReg_sent : (s.setDevReg off v).sent = s.sent := rfl
@[simp] theorem setDevReg_channels : (s.setDevReg off v).channels = s.channels := rfl
@[simp] theorem setDevReg_acks : (s.setDevReg off v).acks = s.acks := rfl
@[simp] theorem setDevReg_comms : (s.setDevReg off v).comms = s.comms := rfl
@[simp] theorem setDevReg_outChunks : (s.setDevReg off v).outChunks = s.outChunks := rfl
@[simp] theorem setDevReg_awayLines : (s.setDevReg off v).awayLines = s.awayLines := rfl
@[simp] theorem setDevReg_given : (s.setDevReg off v).given = s.given := rfl
@[simp] theorem setDevReg_posted : (s.setDevReg off v).posted = s.posted := rfl
@[simp] theorem setDevReg_bootStopped : (s.setDevReg off v).bootStopped = s.bootStopped := rfl
@[simp] theorem setDevReg_signals : (s.setDevReg off v).signals = s.signals := rfl
@[simp] theorem setDevReg_pcieOut : (s.setDevReg off v).pcieOut = s.pcieOut := rfl
@[simp] theorem setDevReg_stops : (s.setDevReg off v).stops = s.stops := rfl
@[simp] theorem setDevReg_saves : (s.setDevReg off v).saves = s.saves := rfl
@[simp] theorem setDevReg_ganged : (s.setDevReg off v).ganged = s.ganged := rfl
@[simp] theorem setDevReg_lstep : (s.setDevReg off v).lstep = s.lstep := rfl
@[simp] theorem setDevReg_lsteps : (s.setDevReg off v).lsteps = s.lsteps := rfl
@[simp] theorem setDevReg_gone : (s.setDevReg off v).gone = s.gone := rfl
@[simp] theorem setDevReg_outShuttles : (s.setDevReg off v).outShuttles = s.outShuttles := rfl
@[simp] theorem setDevReg_outLinks : (s.setDevReg off v).outLinks = s.outLinks := rfl
@[simp] theorem setDevReg_outUnits : (s.setDevReg off v).outUnits = s.outUnits := rfl
@[simp] theorem setDevReg_report : (s.setDevReg off v).report = s.report := rfl
@[simp] theorem setDevReg_measure : (s.setDevReg off v).measure = s.measure := rfl
@[simp] theorem setDevReg_transport : (s.setDevReg off v).transport = s.transport := rfl
@[simp] theorem setDevReg_frames : (s.setDevReg off v).frames = s.frames := rfl

end

/-! ## putBytes -/

section
variable (s : State) (place : Nat) (bs : List Byte)

@[simp] theorem putBytes_agenda : (s.putBytes place bs).agenda = s.agenda := rfl
@[simp] theorem putBytes_cur : (s.putBytes place bs).cur = s.cur := rfl
@[simp] theorem putBytes_cycle : (s.putBytes place bs).cycle = s.cycle := rfl
@[simp] theorem putBytes_clock : (s.putBytes place bs).clock = s.clock := rfl
@[simp] theorem putBytes_instant : (s.putBytes place bs).instant = s.instant := rfl
@[simp] theorem putBytes_stamp : (s.putBytes place bs).stamp = s.stamp := rfl
@[simp] theorem putBytes_drawn : (s.putBytes place bs).drawn = s.drawn := rfl
@[simp] theorem putBytes_nextId : (s.putBytes place bs).nextId = s.nextId := rfl
@[simp] theorem putBytes_sh : (s.putBytes place bs).sh = s.sh := rfl
@[simp] theorem putBytes_full : (s.putBytes place bs).full = s.full := rfl
@[simp] theorem putBytes_bad : (s.putBytes place bs).bad = s.bad := rfl
@[simp] theorem putBytes_tags : (s.putBytes place bs).tags = s.tags := rfl
@[simp] theorem putBytes_dev : (s.putBytes place bs).dev = s.dev := rfl
@[simp] theorem putBytes_hrLost : (s.putBytes place bs).hrLost = s.hrLost := rfl
@[simp] theorem putBytes_msis : (s.putBytes place bs).msis = s.msis := rfl
@[simp] theorem putBytes_harts : (s.putBytes place bs).harts = s.harts := rfl
@[simp] theorem putBytes_rels : (s.putBytes place bs).rels = s.rels := rfl
@[simp] theorem putBytes_flagExts : (s.putBytes place bs).flagExts = s.flagExts := rfl
@[simp] theorem putBytes_moves : (s.putBytes place bs).moves = s.moves := rfl
@[simp] theorem putBytes_mats : (s.putBytes place bs).mats = s.mats := rfl
@[simp] theorem putBytes_rangeJobs : (s.putBytes place bs).rangeJobs = s.rangeJobs := rfl
@[simp] theorem putBytes_colls : (s.putBytes place bs).colls = s.colls := rfl
@[simp] theorem putBytes_msgs : (s.putBytes place bs).msgs = s.msgs := rfl
@[simp] theorem putBytes_lines : (s.putBytes place bs).lines = s.lines := rfl
@[simp] theorem putBytes_results : (s.putBytes place bs).results = s.results := rfl
@[simp] theorem putBytes_tasks : (s.putBytes place bs).tasks = s.tasks := rfl
@[simp] theorem putBytes_launches : (s.putBytes place bs).launches = s.launches := rfl
@[simp] theorem putBytes_grants : (s.putBytes place bs).grants = s.grants := rfl
@[simp] theorem putBytes_lastKey : (s.putBytes place bs).lastKey = s.lastKey := rfl
@[simp] theorem putBytes_resReqs : (s.putBytes place bs).resReqs = s.resReqs := rfl
@[simp] theorem putBytes_rreqs : (s.putBytes place bs).rreqs = s.rreqs := rfl
@[simp] theorem putBytes_rreqWait : (s.putBytes place bs).rreqWait = s.rreqWait := rfl
@[simp] theorem putBytes_denied : (s.putBytes place bs).denied = s.denied := rfl
@[simp] theorem putBytes_rivBusy : (s.putBytes place bs).rivBusy = s.rivBusy := rfl
@[simp] theorem putBytes_via : (s.putBytes place bs).via = s.via := rfl
@[simp] theorem putBytes_rlts : (s.putBytes place bs).rlts = s.rlts := rfl
@[simp] theorem putBytes_invals : (s.putBytes place bs).invals = s.invals := rfl
@[simp] theorem putBytes_press : (s.putBytes place bs).press = s.press := rfl
@[simp] theorem putBytes_queues : (s.putBytes place bs).queues = s.queues := rfl
@[simp] theorem putBytes_wake : (s.putBytes place bs).wake = s.wake := rfl
@[simp] theorem putBytes_wakeLost : (s.putBytes place bs).wakeLost = s.wakeLost := rfl
@[simp] theorem putBytes_runs : (s.putBytes place bs).runs = s.runs := rfl
@[simp] theorem putBytes_curQ : (s.putBytes place bs).curQ = s.curQ := rfl
@[simp] theorem putBytes_handles : (s.putBytes place bs).handles = s.handles := rfl
@[simp] theorem putBytes_tload : (s.putBytes place bs).tload = s.tload := rfl
@[simp] theorem putBytes_hint : (s.putBytes place bs).hint = s.hint := rfl
@[simp] theorem putBytes_cards : (s.putBytes place bs).cards = s.cards := rfl
@[simp] theorem putBytes_csBase : (s.putBytes place bs).csBase = s.csBase := rfl
@[simp] theorem putBytes_csLen : (s.putBytes place bs).csLen = s.csLen := rfl
@[simp] theorem putBytes_cflush : (s.putBytes place bs).cflush = s.cflush := rfl
@[simp] theorem putBytes_trapRecs : (s.putBytes place bs).trapRecs = s.trapRecs := rfl
@[simp] theorem putBytes_heldRecs : (s.putBytes place bs).heldRecs = s.heldRecs := rfl
@[simp] theorem putBytes_requests : (s.putBytes place bs).requests = s.requests := rfl
@[simp] theorem putBytes_sent : (s.putBytes place bs).sent = s.sent := rfl
@[simp] theorem putBytes_channels : (s.putBytes place bs).channels = s.channels := rfl
@[simp] theorem putBytes_acks : (s.putBytes place bs).acks = s.acks := rfl
@[simp] theorem putBytes_comms : (s.putBytes place bs).comms = s.comms := rfl
@[simp] theorem putBytes_outChunks : (s.putBytes place bs).outChunks = s.outChunks := rfl
@[simp] theorem putBytes_awayLines : (s.putBytes place bs).awayLines = s.awayLines := rfl
@[simp] theorem putBytes_given : (s.putBytes place bs).given = s.given := rfl
@[simp] theorem putBytes_posted : (s.putBytes place bs).posted = s.posted := rfl
@[simp] theorem putBytes_bootStopped : (s.putBytes place bs).bootStopped = s.bootStopped := rfl
@[simp] theorem putBytes_signals : (s.putBytes place bs).signals = s.signals := rfl
@[simp] theorem putBytes_pcieOut : (s.putBytes place bs).pcieOut = s.pcieOut := rfl
@[simp] theorem putBytes_stops : (s.putBytes place bs).stops = s.stops := rfl
@[simp] theorem putBytes_saves : (s.putBytes place bs).saves = s.saves := rfl
@[simp] theorem putBytes_ganged : (s.putBytes place bs).ganged = s.ganged := rfl
@[simp] theorem putBytes_lstep : (s.putBytes place bs).lstep = s.lstep := rfl
@[simp] theorem putBytes_lsteps : (s.putBytes place bs).lsteps = s.lsteps := rfl
@[simp] theorem putBytes_gone : (s.putBytes place bs).gone = s.gone := rfl
@[simp] theorem putBytes_outShuttles : (s.putBytes place bs).outShuttles = s.outShuttles := rfl
@[simp] theorem putBytes_outLinks : (s.putBytes place bs).outLinks = s.outLinks := rfl
@[simp] theorem putBytes_outUnits : (s.putBytes place bs).outUnits = s.outUnits := rfl
@[simp] theorem putBytes_report : (s.putBytes place bs).report = s.report := rfl
@[simp] theorem putBytes_measure : (s.putBytes place bs).measure = s.measure := rfl
@[simp] theorem putBytes_transport : (s.putBytes place bs).transport = s.transport := rfl
@[simp] theorem putBytes_frames : (s.putBytes place bs).frames = s.frames := rfl

end

/-! ## modTask -/

section
variable (s : State) (tid : Nat) (f : Task → Task)

@[simp] theorem modTask_agenda : (s.modTask tid f).agenda = s.agenda := rfl
@[simp] theorem modTask_cur : (s.modTask tid f).cur = s.cur := rfl
@[simp] theorem modTask_cycle : (s.modTask tid f).cycle = s.cycle := rfl
@[simp] theorem modTask_clock : (s.modTask tid f).clock = s.clock := rfl
@[simp] theorem modTask_instant : (s.modTask tid f).instant = s.instant := rfl
@[simp] theorem modTask_stamp : (s.modTask tid f).stamp = s.stamp := rfl
@[simp] theorem modTask_drawn : (s.modTask tid f).drawn = s.drawn := rfl
@[simp] theorem modTask_nextId : (s.modTask tid f).nextId = s.nextId := rfl
@[simp] theorem modTask_sh : (s.modTask tid f).sh = s.sh := rfl
@[simp] theorem modTask_mem : (s.modTask tid f).mem = s.mem := rfl
@[simp] theorem modTask_full : (s.modTask tid f).full = s.full := rfl
@[simp] theorem modTask_bad : (s.modTask tid f).bad = s.bad := rfl
@[simp] theorem modTask_tags : (s.modTask tid f).tags = s.tags := rfl
@[simp] theorem modTask_dev : (s.modTask tid f).dev = s.dev := rfl
@[simp] theorem modTask_hrLost : (s.modTask tid f).hrLost = s.hrLost := rfl
@[simp] theorem modTask_msis : (s.modTask tid f).msis = s.msis := rfl
@[simp] theorem modTask_harts : (s.modTask tid f).harts = s.harts := rfl
@[simp] theorem modTask_rels : (s.modTask tid f).rels = s.rels := rfl
@[simp] theorem modTask_flagExts : (s.modTask tid f).flagExts = s.flagExts := rfl
@[simp] theorem modTask_moves : (s.modTask tid f).moves = s.moves := rfl
@[simp] theorem modTask_mats : (s.modTask tid f).mats = s.mats := rfl
@[simp] theorem modTask_rangeJobs : (s.modTask tid f).rangeJobs = s.rangeJobs := rfl
@[simp] theorem modTask_colls : (s.modTask tid f).colls = s.colls := rfl
@[simp] theorem modTask_msgs : (s.modTask tid f).msgs = s.msgs := rfl
@[simp] theorem modTask_lines : (s.modTask tid f).lines = s.lines := rfl
@[simp] theorem modTask_results : (s.modTask tid f).results = s.results := rfl
@[simp] theorem modTask_launches : (s.modTask tid f).launches = s.launches := rfl
@[simp] theorem modTask_grants : (s.modTask tid f).grants = s.grants := rfl
@[simp] theorem modTask_lastKey : (s.modTask tid f).lastKey = s.lastKey := rfl
@[simp] theorem modTask_resReqs : (s.modTask tid f).resReqs = s.resReqs := rfl
@[simp] theorem modTask_rreqs : (s.modTask tid f).rreqs = s.rreqs := rfl
@[simp] theorem modTask_rreqWait : (s.modTask tid f).rreqWait = s.rreqWait := rfl
@[simp] theorem modTask_denied : (s.modTask tid f).denied = s.denied := rfl
@[simp] theorem modTask_rivBusy : (s.modTask tid f).rivBusy = s.rivBusy := rfl
@[simp] theorem modTask_via : (s.modTask tid f).via = s.via := rfl
@[simp] theorem modTask_rlts : (s.modTask tid f).rlts = s.rlts := rfl
@[simp] theorem modTask_invals : (s.modTask tid f).invals = s.invals := rfl
@[simp] theorem modTask_press : (s.modTask tid f).press = s.press := rfl
@[simp] theorem modTask_queues : (s.modTask tid f).queues = s.queues := rfl
@[simp] theorem modTask_wake : (s.modTask tid f).wake = s.wake := rfl
@[simp] theorem modTask_wakeLost : (s.modTask tid f).wakeLost = s.wakeLost := rfl
@[simp] theorem modTask_runs : (s.modTask tid f).runs = s.runs := rfl
@[simp] theorem modTask_curQ : (s.modTask tid f).curQ = s.curQ := rfl
@[simp] theorem modTask_handles : (s.modTask tid f).handles = s.handles := rfl
@[simp] theorem modTask_tload : (s.modTask tid f).tload = s.tload := rfl
@[simp] theorem modTask_hint : (s.modTask tid f).hint = s.hint := rfl
@[simp] theorem modTask_cards : (s.modTask tid f).cards = s.cards := rfl
@[simp] theorem modTask_csBase : (s.modTask tid f).csBase = s.csBase := rfl
@[simp] theorem modTask_csLen : (s.modTask tid f).csLen = s.csLen := rfl
@[simp] theorem modTask_cflush : (s.modTask tid f).cflush = s.cflush := rfl
@[simp] theorem modTask_trapRecs : (s.modTask tid f).trapRecs = s.trapRecs := rfl
@[simp] theorem modTask_heldRecs : (s.modTask tid f).heldRecs = s.heldRecs := rfl
@[simp] theorem modTask_requests : (s.modTask tid f).requests = s.requests := rfl
@[simp] theorem modTask_sent : (s.modTask tid f).sent = s.sent := rfl
@[simp] theorem modTask_channels : (s.modTask tid f).channels = s.channels := rfl
@[simp] theorem modTask_acks : (s.modTask tid f).acks = s.acks := rfl
@[simp] theorem modTask_comms : (s.modTask tid f).comms = s.comms := rfl
@[simp] theorem modTask_outChunks : (s.modTask tid f).outChunks = s.outChunks := rfl
@[simp] theorem modTask_awayLines : (s.modTask tid f).awayLines = s.awayLines := rfl
@[simp] theorem modTask_given : (s.modTask tid f).given = s.given := rfl
@[simp] theorem modTask_posted : (s.modTask tid f).posted = s.posted := rfl
@[simp] theorem modTask_bootStopped : (s.modTask tid f).bootStopped = s.bootStopped := rfl
@[simp] theorem modTask_signals : (s.modTask tid f).signals = s.signals := rfl
@[simp] theorem modTask_pcieOut : (s.modTask tid f).pcieOut = s.pcieOut := rfl
@[simp] theorem modTask_stops : (s.modTask tid f).stops = s.stops := rfl
@[simp] theorem modTask_saves : (s.modTask tid f).saves = s.saves := rfl
@[simp] theorem modTask_ganged : (s.modTask tid f).ganged = s.ganged := rfl
@[simp] theorem modTask_lstep : (s.modTask tid f).lstep = s.lstep := rfl
@[simp] theorem modTask_lsteps : (s.modTask tid f).lsteps = s.lsteps := rfl
@[simp] theorem modTask_gone : (s.modTask tid f).gone = s.gone := rfl
@[simp] theorem modTask_outShuttles : (s.modTask tid f).outShuttles = s.outShuttles := rfl
@[simp] theorem modTask_outLinks : (s.modTask tid f).outLinks = s.outLinks := rfl
@[simp] theorem modTask_outUnits : (s.modTask tid f).outUnits = s.outUnits := rfl
@[simp] theorem modTask_report : (s.modTask tid f).report = s.report := rfl
@[simp] theorem modTask_measure : (s.modTask tid f).measure = s.measure := rfl
@[simp] theorem modTask_transport : (s.modTask tid f).transport = s.transport := rfl
@[simp] theorem modTask_frames : (s.modTask tid f).frames = s.frames := rfl

end

/-! ## setSeq -/

section
variable (x : Shuttle) (st : Stream) (q : Seq)

@[simp] theorem setSeq_sregs : (x.setSeq st q).sregs = x.sregs := by cases st <;> rfl
@[simp] theorem setSeq_monSection : (x.setSeq st q).monSection = x.monSection := by cases st <;> rfl
@[simp] theorem setSeq_lnk : (x.setSeq st q).lnk = x.lnk := by cases st <;> rfl
@[simp] theorem setSeq_bor : (x.setSeq st q).bor = x.bor := by cases st <;> rfl
@[simp] theorem setSeq_tvec : (x.setSeq st q).tvec = x.tvec := by cases st <;> rfl
@[simp] theorem setSeq_fwTvec : (x.setSeq st q).fwTvec = x.fwTvec := by cases st <;> rfl
@[simp] theorem setSeq_epc : (x.setSeq st q).epc = x.epc := by cases st <;> rfl
@[simp] theorem setSeq_ecause : (x.setSeq st q).ecause = x.ecause := by cases st <;> rfl
@[simp] theorem setSeq_eval : (x.setSeq st q).eval = x.eval := by cases st <;> rfl
@[simp] theorem setSeq_esst : (x.setSeq st q).esst = x.esst := by cases st <;> rfl
@[simp] theorem setSeq_mscratch : (x.setSeq st q).mscratch = x.mscratch := by cases st <;> rfl
@[simp] theorem setSeq_shp : (x.setSeq st q).shp = x.shp := by cases st <;> rfl
@[simp] theorem setSeq_ftix : (x.setSeq st q).ftix = x.ftix := by cases st <;> rfl
@[simp] theorem setSeq_gsel : (x.setSeq st q).gsel = x.gsel := by cases st <;> rfl
@[simp] theorem setSeq_tts : (x.setSeq st q).tts = x.tts := by cases st <;> rfl
@[simp] theorem setSeq_dseg : (x.setSeq st q).dseg = x.dseg := by cases st <;> rfl
@[simp] theorem setSeq_rwin : (x.setSeq st q).rwin = x.rwin := by cases st <;> rfl
@[simp] theorem setSeq_sgnt : (x.setSeq st q).sgnt = x.sgnt := by cases st <;> rfl
@[simp] theorem setSeq_bgnt : (x.setSeq st q).bgnt = x.bgnt := by cases st <;> rfl
@[simp] theorem setSeq_dpr : (x.setSeq st q).dpr = x.dpr := by cases st <;> rfl
@[simp] theorem setSeq_eaux : (x.setSeq st q).eaux = x.eaux := by cases st <;> rfl
@[simp] theorem setSeq_dbgc : (x.setSeq st q).dbgc = x.dbgc := by cases st <;> rfl
@[simp] theorem setSeq_lrpc : (x.setSeq st q).lrpc = x.lrpc := by cases st <;> rfl
@[simp] theorem setSeq_xrpc : (x.setSeq st q).xrpc = x.xrpc := by cases st <;> rfl
@[simp] theorem setSeq_srpc : (x.setSeq st q).srpc = x.srpc := by cases st <;> rfl
@[simp] theorem setSeq_sstp : (x.setSeq st q).sstp = x.sstp := by cases st <;> rfl
@[simp] theorem setSeq_bsw : (x.setSeq st q).bsw = x.bsw := by cases st <;> rfl
@[simp] theorem setSeq_aL : (x.setSeq st q).aL = x.aL := by cases st <;> rfl
@[simp] theorem setSeq_aS : (x.setSeq st q).aS = x.aS := by cases st <;> rfl
@[simp] theorem setSeq_vregs : (x.setSeq st q).vregs = x.vregs := by cases st <;> rfl
@[simp] theorem setSeq_masks : (x.setSeq st q).masks = x.masks := by cases st <;> rfl
@[simp] theorem setSeq_qCL : (x.setSeq st q).qCL = x.qCL := by cases st <;> rfl
@[simp] theorem setSeq_qCX : (x.setSeq st q).qCX = x.qCX := by cases st <;> rfl
@[simp] theorem setSeq_qCS : (x.setSeq st q).qCS = x.qCS := by cases st <;> rfl
@[simp] theorem setSeq_qSC : (x.setSeq st q).qSC = x.qSC := by cases st <;> rfl
@[simp] theorem setSeq_qLX : (x.setSeq st q).qLX = x.qLX := by cases st <;> rfl
@[simp] theorem setSeq_qXS : (x.setSeq st q).qXS = x.qXS := by cases st <;> rfl
@[simp] theorem setSeq_tLX : (x.setSeq st q).tLX = x.tLX := by cases st <;> rfl
@[simp] theorem setSeq_tXS : (x.setSeq st q).tXS = x.tXS := by cases st <;> rfl
@[simp] theorem setSeq_tSL : (x.setSeq st q).tSL = x.tSL := by cases st <;> rfl
@[simp] theorem setSeq_crLX : (x.setSeq st q).crLX = x.crLX := by cases st <;> rfl
@[simp] theorem setSeq_crXS : (x.setSeq st q).crXS = x.crXS := by cases st <;> rfl
@[simp] theorem setSeq_crSL : (x.setSeq st q).crSL = x.crSL := by cases st <;> rfl
@[simp] theorem setSeq_cc : (x.setSeq st q).cc = x.cc := by cases st <;> rfl
@[simp] theorem setSeq_ccDone : (x.setSeq st q).ccDone = x.ccDone := by cases st <;> rfl
@[simp] theorem setSeq_sems : (x.setSeq st q).sems = x.sems := by cases st <;> rfl
@[simp] theorem setSeq_fmt : (x.setSeq st q).fmt = x.fmt := by cases st <;> rfl
@[simp] theorem setSeq_tiles : (x.setSeq st q).tiles = x.tiles := by cases st <;> rfl
@[simp] theorem setSeq_pending : (x.setSeq st q).pending = x.pending := by cases st <;> rfl
@[simp] theorem setSeq_frozen : (x.setSeq st q).frozen = x.frozen := by cases st <;> rfl
@[simp] theorem setSeq_trap : (x.setSeq st q).trap = x.trap := by cases st <;> rfl
@[simp] theorem setSeq_stepWaits : (x.setSeq st q).stepWaits = x.stepWaits := by cases st <;> rfl
@[simp] theorem setSeq_progress : (x.setSeq st q).progress = x.progress := by cases st <;> rfl
@[simp] theorem setSeq_ownMonitor : (x.setSeq st q).ownMonitor = x.ownMonitor := by cases st <;> rfl
@[simp] theorem setSeq_task : (x.setSeq st q).task = x.task := by cases st <;> rfl
@[simp] theorem setSeq_chanL : (x.setSeq st q).chanL = x.chanL := by cases st <;> rfl
@[simp] theorem setSeq_chanX : (x.setSeq st q).chanX = x.chanX := by cases st <;> rfl
@[simp] theorem setSeq_chanS : (x.setSeq st q).chanS = x.chanS := by cases st <;> rfl
@[simp] theorem setSeq_marks : (x.setSeq st q).marks = x.marks := by cases st <;> rfl
@[simp] theorem setSeq_covered : (x.setSeq st q).covered = x.covered := by cases st <;> rfl
@[simp] theorem setSeq_engDone : (x.setSeq st q).engDone = x.engDone := by cases st <;> rfl
@[simp] theorem setSeq_markWait : (x.setSeq st q).markWait = x.markWait := by cases st <;> rfl
@[simp] theorem setSeq_fences : (x.setSeq st q).fences = x.fences := by cases st <;> rfl
@[simp] theorem setSeq_arrivals : (x.setSeq st q).arrivals = x.arrivals := by cases st <;> rfl
@[simp] theorem setSeq_oatoms : (x.setSeq st q).oatoms = x.oatoms := by cases st <;> rfl
@[simp] theorem setSeq_face : (x.setSeq st q).face = x.face := by cases st <;> rfl
@[simp] theorem setSeq_back : (x.setSeq st q).back = x.back := by cases st <;> rfl
@[simp] theorem setSeq_backBad : (x.setSeq st q).backBad = x.backBad := by cases st <;> rfl
@[simp] theorem setSeq_marked : (x.setSeq st q).marked = x.marked := by cases st <;> rfl

@[simp] theorem seq_setSeq : (x.setSeq st q).seq st = q := by cases st <;> rfl

theorem seq_setSeq_ne {st' : Stream} (h : st' ≠ st) : (x.setSeq st q).seq st' = x.seq st' := by
  cases st <;> cases st' <;> first | rfl | exact absurd rfl h

end

/-! ## Reading after a write -/

section
variable (s : State) (n m : ShNo) (x : Shuttle) (f : Shuttle → Shuttle)

@[simp] theorem shuttle_setShuttle : (s.setShuttle n x).shuttle n = x := by simp [State.shuttle, State.setShuttle]

@[simp] theorem setShuttle_setShuttle (y : Shuttle) : (s.setShuttle n x).setShuttle n y = s.setShuttle n y := by
  simp [State.setShuttle, Vector.set_set]

/-- An updated shuttle with a try counted. -/
theorem setShuttle_bump : (s.setShuttle n x).bump n =
    { s.setShuttle n { x with progress := x.progress + 1 } with stamp := s.stamp + 1 } := by
  unfold State.bump State.modShuttle
  rw [setShuttle_setShuttle, shuttle_setShuttle]
  rfl

theorem shuttle_setShuttle_ne (h : n ≠ m) : (s.setShuttle n x).shuttle m = s.shuttle m := by
  have : n.toNat ≠ m.toNat := fun e => h (BitVec.eq_of_toNat_eq e)
  simp [State.shuttle, State.setShuttle, this]

@[simp] theorem shuttle_modShuttle : (s.modShuttle n f).shuttle n = f (s.shuttle n) := shuttle_setShuttle ..

theorem shuttle_modShuttle_ne (h : n ≠ m) : (s.modShuttle n f).shuttle m = s.shuttle m := shuttle_setShuttle_ne _ _ _ _ h

@[simp] theorem here_modMe : (s.modMe f).here = s.here := rfl
@[simp] theorem stream_modMe : (s.modMe f).stream = s.stream := rfl
@[simp] theorem me_modMe : (s.modMe f).me = f s.me := shuttle_setShuttle ..

@[simp] theorem here_modMySeq (g : Seq → Seq) : (s.modMySeq g).here = s.here := rfl
@[simp] theorem stream_modMySeq (g : Seq → Seq) : (s.modMySeq g).stream = s.stream := rfl
@[simp] theorem me_modMySeq (g : Seq → Seq) : (s.modMySeq g).me = s.me.setSeq s.stream (g s.mySeq) := shuttle_setShuttle ..

@[simp] theorem mySeq_modMySeq (g : Seq → Seq) : (s.modMySeq g).mySeq = g s.mySeq := by
  rw [State.mySeq, me_modMySeq, stream_modMySeq, seq_setSeq]

@[simp] theorem pc_setPc (t : W32) : (s.setPc t).pc = t := by rw [State.pc, State.setPc, mySeq_modMySeq]

/-- s0 stays 0, another register takes the value and the rest keep theirs (R11, R52). -/
theorem sreg_setSreg (d r : RegNo) (v : W64) : (s.setSreg d v).sreg r = if r = d ∧ d ≠ 0 then v else s.sreg r := by
  unfold State.setSreg
  by_cases h0 : d = 0
  · simp [h0]
  · rw [if_neg h0]
    unfold State.sreg
    by_cases hr : r = 0
    · have : ¬(r = d ∧ d ≠ 0) := fun h => h0 (h.1 ▸ hr)
      rw [if_pos hr, if_neg this, if_pos hr]
    · rw [if_neg hr, if_neg hr, me_modMe]
      by_cases hd : r = d
      · subst hd; rw [if_pos ⟨rfl, h0⟩]; simp
      · have : d.toNat ≠ r.toNat := fun e => hd (BitVec.eq_of_toNat_eq e.symm)
        simp [hd, this]

end

/-! ## Association lists -/

@[simp] theorem assocGet_assocSet {α : Type} (a : Nat) (v : α) (l : List (Nat × α)) : assocGet (assocSet a v l) a = some v := by
  induction l with
  | nil => simp [assocSet, assocGet]
  | cons p l ih =>
    unfold assocSet
    split
    · simp [assocGet]
    · split
      · simp [assocGet]
      · rw [assocGet, if_neg (fun h => by simp_all), ih]

theorem assocGet_assocSet_ne {α : Type} (a b : Nat) (v : α) (l : List (Nat × α)) (h : b ≠ a) :
    assocGet (assocSet a v l) b = assocGet l b := by
  induction l with
  | nil => simp [assocSet, assocGet, h.symm]
  | cons p l ih =>
    unfold assocSet
    split
    · rw [assocGet, if_neg h.symm]
    · split
      · subst_vars; rw [assocGet, if_neg h.symm, assocGet, if_neg h.symm]
      · rw [assocGet, assocGet, ih]

@[simp] theorem devReg_setDevReg (s : State) (off : Nat) (v : W64) : (s.setDevReg off v).devReg off = v := by
  simp [State.devReg, State.setDevReg]

theorem devReg_setDevReg_ne (s : State) (off o : Nat) (v : W64) (h : o ≠ off) : (s.setDevReg off v).devReg o = s.devReg o := by
  simp [State.devReg, State.setDevReg, assocGet_assocSet_ne, h]

end Sys2Proof.Machine
end

