-- ==== Sys2Proof/Laws/Ops.lean ====
section
/-! SUPPORT. What the operations that many meanings share can do: completing an instruction, trapping, waiting, and making
accesses. -/

namespace Sys2Proof.Machine
open Sys2Proof

/-! ## Completion (R26, R354, R360, R361) -/

/-- After an unstepped instruction only its wait ends, C in task mode lets stopped streams go on, and a try is counted. -/
theorem finishWith_unstepped {s0 : State} (h : Unstepped s0) (s1 : State) (cmd : Option Nat) :
    finishWith s0 s1 cmd = (s1.modShuttle s0.here fun x =>
      let q := x.seq s0.stream
      let x := x.setSeq s0.stream
        { q with stall := none, held := [], taken := none, era := if cmd.isNone then q.era + 1 else q.era }
      if s0.stream = .c ∧ s0.taskMode then x.resumeStreams else x).bump s0.here := by
  unfold Unstepped at h
  unfold finishWith
  simp [h]

/-- `t` is `s` but for shuttle `n` and the count of steps. -/
def Touched (s : State) (n : ShNo) (t : State) : Prop := ∃ y k, t = { s.setShuttle n y with stamp := k }

theorem Touched.modShuttle {s t : State} {n : ShNo} (h : Touched s n t) (f : Shuttle → Shuttle) :
    Touched s n (t.modShuttle n f) := by
  obtain ⟨y, k, rfl⟩ := h
  exact ⟨f y, k, by simp [State.modShuttle, State.setShuttle, State.shuttle]⟩

theorem Touched.bump {s t : State} {n : ShNo} (h : Touched s n t) : Touched s n (t.bump n) := by
  obtain ⟨y, _, h⟩ := h.modShuttle fun x => { x with progress := x.progress + 1 }
  exact ⟨y, t.stamp + 1, by rw [State.bump, h]⟩

theorem touched_modShuttle (s : State) (n : ShNo) (f : Shuttle → Shuttle) : Touched s n (s.modShuttle n f) :=
  ⟨_, s.stamp, rfl⟩

/-- A trap changes shuttle `n` and the count of steps; memory, other shuttles and the units stay. -/
theorem Touched.deliverTrap {s t : State} {n : ShNo} (h : Touched s n t) (cause : BitVec 8) (eval eaux : W64) (epc : W32) :
    Touched s n (t.deliverTrap n cause eval eaux epc) := by
  unfold State.deliverTrap
  exact (h.modShuttle fun _ => _).bump

theorem touched_deliverTrap (s : State) (n : ShNo) (cause : BitVec 8) (eval eaux : W64) (epc : W32) :
    Touched s n (s.deliverTrap n cause eval eaux epc) := by
  unfold State.deliverTrap
  exact (touched_modShuttle s n fun _ => _).bump

/-- What completing adds to the effect of an instruction lies in its shuttle. -/
theorem touched_finishWith (s0 s1 : State) (cmd : Option Nat) : Touched s1 s0.here (finishWith s0 s1 cmd) := by
  have key {b : Bool} {n : ShNo} {u : State} (hu : Touched s1 n u) (g : Nat → Shuttle → Shuttle) (e : W64) (p : W32) :
      Touched s1 n (if b then
        match cmd with
        | some id => if s0.me.dbgc.getLsbD 4 then u.modShuttle n (g id) else u.deliverTrap n 0x2F 0 e p
        | none => u.deliverTrap n 0x2F 0 e p
      else u) := by
    repeat' split
    all_goals first | exact hu.modShuttle _ | exact hu.deliverTrap .. | exact hu
  have h := (touched_modShuttle s1 s0.here fun x =>
    let q := x.seq s0.stream
    let x := x.setSeq s0.stream
      { q with stall := none, held := [], taken := none, era := if cmd.isNone then q.era + 1 else q.era }
    if s0.stream = .c ∧ s0.taskMode then x.resumeStreams else x).bump
  exact key h (fun id x => { x with stepWaits := x.stepWaits ++ [{ str := s0.stream, ipc := s0.pc, cmd := id, due := false }] })
    _ _

@[simp] theorem finishWith_mem (s0 s1 : State) (cmd : Option Nat) : (finishWith s0 s1 cmd).mem = s1.mem := by
  obtain ⟨_, _, h⟩ := touched_finishWith s0 s1 cmd; rw [h]; rfl

@[simp] theorem finishWith_tasks (s0 s1 : State) (cmd : Option Nat) : (finishWith s0 s1 cmd).tasks = s1.tasks := by
  obtain ⟨_, _, h⟩ := touched_finishWith s0 s1 cmd; rw [h]; rfl

@[simp] theorem finishWith_dev (s0 s1 : State) (cmd : Option Nat) : (finishWith s0 s1 cmd).dev = s1.dev := by
  obtain ⟨_, _, h⟩ := touched_finishWith s0 s1 cmd; rw [h]; rfl

/-! ## Traps and waits (R24, R81, R182, R353 to R355) -/

@[simp] theorem takeTrap_mem (s : State) (n : ShNo) (st : Stream) (cause : BitVec 8) (eval : W64) :
    (s.takeTrap n st cause eval).mem = s.mem := rfl

@[simp] theorem takeTrap_tasks (s : State) (n : ShNo) (st : Stream) (cause : BitVec 8) (eval : W64) :
    (s.takeTrap n st cause eval).tasks = s.tasks := rfl

@[simp] theorem takeTrap_dev (s : State) (n : ShNo) (st : Stream) (cause : BitVec 8) (eval : W64) :
    (s.takeTrap n st cause eval).dev = s.dev := rfl

@[simp] theorem stallSeq_mem (s : State) (kind : StallKind) (limit : Nat) : (s.stallSeq kind limit).mem = s.mem := by
  unfold State.stallSeq; dsimp only; split <;> rfl

@[simp] theorem stallSeq_tasks (s : State) (kind : StallKind) (limit : Nat) : (s.stallSeq kind limit).tasks = s.tasks := by
  unfold State.stallSeq; dsimp only; split <;> rfl

/-! ## Effects -/

/-- A wait goes on, or takes the wait-limit trap. -/
theorem wait_cases (s : State) (kind : StallKind) (limit : Nat) :
    wait s kind limit = .next (s.stallSeq kind limit) ∨
      wait s kind limit = .next (s.takeTrap s.here s.stream 0x14 (s.curWord.setWidth 64)) := by
  unfold wait; split
  · exact .inr rfl
  · exact .inl rfl

/-- A wait without a limit goes on. -/
theorem wait_unlimited (s : State) (kind : StallKind) : wait s kind = .next (s.stallSeq kind 0) := by
  have h : s.limitOver 0 = false := by unfold State.limitOver; split <;> simp [Stall.over]
  unfold wait; rw [h]; rfl

theorem wait_next (s : State) (kind : StallKind) (limit : Nat) : ∃ t, wait s kind limit = .next t := by
  rcases wait_cases s kind limit with h | h <;> exact ⟨_, h⟩

theorem wait_ok {s t : State} {kind : StallKind} {limit : Nat} (hs : s.Ok) (h : wait s kind limit = .next t) : t.Ok := by
  unfold State.Ok at *
  rcases wait_cases s kind limit with e | e <;> rw [e] at h <;> injection h with h <;> subst h
  · rwa [stallSeq_mem]
  · rwa [takeTrap_mem]

/-- What an instruction comes to is a next state, in each case: completed, trapped or waiting. -/
theorem run_next (s : State) (k : BitVec 4) (e : Eff) : ∃ t, e.run s k = .next t := by
  cases e <;> first | exact ⟨_, rfl⟩ | exact wait_next ..

theorem runC_next (s : State) (e : Eff) : ∃ t, runC s e = .next t := run_next s 0 e

theorem runT_next (s : State) (k : BitVec 4) (body : State → Eff) : ∃ t, runT s k body = .next t := by
  unfold runT; split
  · exact run_next ..
  · split
    · exact run_next ..
    · split
      · exact run_next ..
      · exact wait_next ..

/-- Memory keeps its form when it does in every state that the effect holds. -/
def Eff.Ok : Eff → Prop
  | .done s => s.Ok
  | .doneTo s _ => s.Ok
  | .command s _ _ => s.Ok
  | .trapAfter f _ _ => ∀ s : State, s.Ok → (f s).Ok
  | .waitAfter f _ _ => ∀ s : State, s.Ok → (f s).Ok
  | _ => True

theorem run_ok {s t : State} {k : BitVec 4} {e : Eff} (hs : s.Ok) (he : e.Ok) (h : e.run s k = .next t) : t.Ok := by
  have done {s1 : State} (he : s1.Ok) (f : Shuttle → Shuttle) (p : W32) (cmd : Option Nat)
      (h : .next (finishWith s ((s1.modMe f).setPc p) cmd) = (.next t : Result)) : t.Ok := by
    injection h with h; subst h; unfold State.Ok; rwa [finishWith_mem, State.setPc, modMySeq_mem, modMe_mem]
  have trapped {s1 : State} (he : s1.Ok) {c : BitVec 8} {v : W64} (h : Machine.trap s1 c v = .next t) : t.Ok := by
    injection h with h; subst h; unfold State.Ok; rwa [takeTrap_mem]
  cases e with
  | done | doneTo | command => exact done he _ _ _ h
  | trap | trapWord => exact trapped hs h
  | trapAfter => exact trapped (he _ hs) h
  | wait => exact wait_ok hs h
  | waitAfter => exact wait_ok (he _ hs) h

theorem andThen_ok {e : Eff} {f : State → Eff} (he : e.Ok) (hf : ∀ s, s.Ok → (f s).Ok) : (e.andThen f).Ok := by
  cases e <;> first | exact hf _ he | exact he

/-! ## Accesses (R86, R237) -/

/-- The clock of the issuing sequencer moves on: nothing else is seen of it. -/
theorem tickSeq_mem (s : State) (n : ShNo) (st : Stream) : (s.tickSeq n st).mem = s.mem := rfl

/-- What is read is read whole, or the trap of an uncorrectable error is taken. -/
theorem unlessDamaged_cases (s : State) (codes : List Nat) (e : Eff) :
    unlessDamaged s codes e = e ∨ ∃ v, unlessDamaged s codes e = .trap 0x32 v := by
  unfold unlessDamaged; split
  · exact .inr ⟨_, rfl⟩
  · exact .inl rfl

/-- Register accesses are made in a state that differs in clocks, tags and the releases found there, or the register race or
the trap of an uncorrectable error is taken. -/
theorem withVregs_cases (s : State) (reads writes : List RegNo) (f : State → Eff) :
    (∃ tags rels, withVregs s reads writes f = f { s.tickSeq s.here s.stream with tags := tags, rels := rels }) ∨
    ∃ c v, (c = 0x0F ∨ c = 0x32) ∧ withVregs s reads writes f = .trap c v := by
  unfold withVregs; dsimp only; split
  · exact .inr ⟨_, _, .inl rfl, rfl⟩
  · exact .inr ⟨_, _, .inl rfl, rfl⟩
  · unfold unlessDamaged; split
    · exact .inr ⟨_, _, .inr rfl, rfl⟩
    · exact .inl ⟨_, _, rfl⟩

/-- Cell accesses are made in such a state, or the data race is taken. -/
theorem withCells_cases (s : State) (write : Bool) (kind : AccKind) (ext : Ext) (eas : List Int) (f : State → Eff) :
    (∃ tags rels, withCells s write kind ext eas f = f { s.tickSeq s.here s.stream with tags := tags, rels := rels }) ∨
    ∃ v, withCells s write kind ext eas f = .trap 0x20 v := by
  unfold withCells; dsimp only; split
  · exact .inr ⟨_, rfl⟩
  · exact .inl ⟨_, _, rfl⟩

theorem withVregs_ok {s : State} (hs : s.Ok) {reads writes : List RegNo} {f : State → Eff} (hf : ∀ s, s.Ok → (f s).Ok) :
    (withVregs s reads writes f).Ok := by
  rcases withVregs_cases s reads writes f with ⟨tags, rels, h⟩ | ⟨c, v, -, h⟩ <;> rw [h]
  · exact hf _ hs
  · trivial

theorem withCells_ok {s : State} (hs : s.Ok) {write : Bool} {kind : AccKind} {ext : Ext} {eas : List Int} {f : State → Eff}
    (hf : ∀ s, s.Ok → (f s).Ok) : (withCells s write kind ext eas f).Ok := by
  rcases withCells_cases s write kind ext eas f with ⟨tags, rels, h⟩ | ⟨v, h⟩ <;> rw [h]
  · exact hf _ hs
  · trivial

end Sys2Proof.Machine
end

