-- ==== Sys2Proof/Laws/Accesses.lean ====
section
/-! SUPPORT. What the other shared accesses of a sequencer can do: tags of registers, tables and places, intervals of global
memory, scopes and the order of tasks (R123, R168, R171, R237, R252). Each makes its accesses and goes on from a state with
the same memory, or stops. -/

namespace Sys2Proof.Machine
open Sys2Proof

section
variable (s : State) (write : Bool) (kind : AccKind) (ext : Ext) (f : State → Eff)

theorem withTag_cases (loc : Nat) (eval : W64) :
    (∃ tags rels, withTag s loc eval write kind ext f = f { s.tickSeq s.here s.stream with tags := tags, rels := rels }) ∨
    withTag s loc eval write kind ext f = .trap 0x20 eval := by
  unfold withTag; dsimp only; split
  · exact .inr rfl
  · exact .inl ⟨_, _, rfl⟩

theorem withTable_cases (locs : List (Nat × Nat)) :
    (∃ tags rels, withTable s write kind locs f = f { s.tickSeq s.here s.stream with tags := tags, rels := rels }) ∨
    ∃ c v, (c = 0x20 ∨ c = 0x32) ∧ withTable s write kind locs f = .trap c v := by
  unfold withTable; dsimp only; split
  · exact .inr ⟨_, _, .inl rfl, rfl⟩
  · unfold unlessDamaged; split
    · exact .inr ⟨_, _, .inr rfl, rfl⟩
    · exact .inl ⟨_, _, rfl⟩

theorem withPlaces_cases (locs : List Nat) :
    (∃ tags rels, withPlaces s write kind locs f = f { s.tickSeq s.here s.stream with tags := tags, rels := rels }) ∨
    ∃ c v, (c = 0x08 ∨ c = 0x20) ∧ withPlaces s write kind locs f = .trap c v := by
  unfold withPlaces; dsimp only; split
  · exact .inr ⟨_, _, .inl rfl, rfl⟩
  · exact .inr ⟨_, _, .inr rfl, rfl⟩
  · exact .inl ⟨_, _, rfl⟩

theorem withScratch_cases (places : List Nat) :
    (∃ tags rels, withScratch s write kind ext places f =
      f { s.tickSeq s.here s.stream with tags := tags, rels := rels }) ∨
    ∃ v, withScratch s write kind ext places f = .trap 0x20 v := by
  unfold withScratch; dsimp only; split
  · exact .inr ⟨_, rfl⟩
  · exact .inl ⟨_, _, rfl⟩

/-- Intervals are entered in the task's table; without a task there is none to enter them in. -/
theorem withIntervals_cases (spans : List (Nat × Nat)) :
    withIntervals s write kind ext spans f = f s ∨
    (∃ tid g, withIntervals s write kind ext spans f = f ((s.tickSeq s.here s.stream).modTask tid g)) ∨
    ∃ v, withIntervals s write kind ext spans f = .trap 0x20 v := by
  unfold withIntervals; split
  · exact .inl rfl
  · dsimp only; split
    · exact .inr (.inr ⟨_, rfl⟩)
    · exact .inr (.inl ⟨_, _, rfl⟩)

theorem whenOldest_cases :
    whenOldest s f = f s ∨ whenOldest s f = f (s.bind s.me.task) ∨ whenOldest s f = .trapWord 0x2E ∨
      whenOldest s f = .wait .other 0 := by
  unfold whenOldest; split
  · exact .inl rfl
  · split
    · exact .inr (.inr (.inl rfl))
    · split
      · exact .inr (.inl rfl)
      · exact .inr (.inr (.inr rfl))

end

section
variable {s : State} {write : Bool} {kind : AccKind} {ext : Ext} {f : State → Eff}

theorem withTag_ok (hs : s.Ok) {loc : Nat} {eval : W64} (hf : ∀ s, s.Ok → (f s).Ok) :
    (withTag s loc eval write kind ext f).Ok := by
  rcases withTag_cases s write kind ext f loc eval with ⟨tags, rels, h⟩ | h <;> rw [h]
  · exact hf _ hs
  · trivial

theorem withTable_ok (hs : s.Ok) {locs : List (Nat × Nat)} (hf : ∀ s, s.Ok → (f s).Ok) : (withTable s write kind locs f).Ok := by
  rcases withTable_cases s write kind f locs with ⟨tags, rels, h⟩ | ⟨c, v, -, h⟩ <;> rw [h]
  · exact hf _ hs
  · trivial

theorem withPlaces_ok (hs : s.Ok) {locs : List Nat} (hf : ∀ s, s.Ok → (f s).Ok) : (withPlaces s write kind locs f).Ok := by
  rcases withPlaces_cases s write kind f locs with ⟨tags, rels, h⟩ | ⟨c, v, -, h⟩ <;> rw [h]
  · exact hf _ hs
  · trivial

theorem withScratch_ok (hs : s.Ok) {places : List Nat} (hf : ∀ s, s.Ok → (f s).Ok) :
    (withScratch s write kind ext places f).Ok := by
  rcases withScratch_cases s write kind ext f places with ⟨tags, rels, h⟩ | ⟨v, h⟩ <;> rw [h]
  · exact hf _ hs
  · trivial

theorem withIntervals_ok (hs : s.Ok) {spans : List (Nat × Nat)} (hf : ∀ s, s.Ok → (f s).Ok) :
    (withIntervals s write kind ext spans f).Ok := by
  rcases withIntervals_cases s write kind ext f spans with h | ⟨tid, g, h⟩ | ⟨v, h⟩ <;> rw [h]
  · exact hf _ hs
  · exact hf _ hs
  · trivial

theorem bind_mem (s : State) (o : Option (Nat × Nat)) : (s.bind o).mem = s.mem := by
  unfold State.bind; repeat' split
  all_goals rfl

theorem whenOldest_ok (hs : s.Ok) (hf : ∀ s, s.Ok → (f s).Ok) : (whenOldest s f).Ok := by
  rcases whenOldest_cases s f with h | h | h | h <;> rw [h]
  · exact hf _ hs
  · exact hf _ (by unfold State.Ok at *; rwa [bind_mem])
  · trivial
  · trivial

theorem whenNear_ok (hs : s.Ok) {c : Nat} (hf : ∀ s, s.Ok → (f s).Ok) : (whenNear s c f).Ok := by
  unfold whenNear; split
  · exact whenOldest_ok hs hf
  · exact hf _ hs

theorem withScope_ok (hs : s.Ok) {c : Nat} {g : State → Ext → Eff} (hg : ∀ s e, s.Ok → (g s e).Ok) : (withScope s c g).Ok := by
  unfold withScope; split
  · trivial
  · exact whenNear_ok hs fun s h => hg s _ h

end

end Sys2Proof.Machine
end

