-- ==== Sys2Proof/Laws/Reads.lean ====
section
/-! SUPPORT. Reads of memory by the units that belong to no task leave the state as it is (R304, R315, R370). -/

namespace Sys2Proof.Machine
open Sys2Proof

/-- Reading no task's line changes nothing. -/
theorem readPiece_none {s s1 : State} {owner va n : Nat} {need : Perm} {bs : List Byte}
    (h : s.readPiece none owner va n need = .ok (bs, s1)) : s1 = s := by
  unfold State.readPiece at h
  simp only [Option.bind_none, State.noteRange] at h
  repeat' split at h
  all_goals simp_all

theorem readGlobal_none {s s1 : State} {owner va n : Nat} {need : Perm} {bs : List Byte}
    (h : s.readGlobal none owner va n need = .ok (bs, s1)) : s1 = s := by
  unfold State.readGlobal at h
  generalize pieces va n = l at h
  have key : ∀ (l : List (Nat × Nat)) (acc : Except GFault (List Byte × State)), (∀ b t, acc = .ok (b, t) → t = s) →
      ∀ b t, l.foldl (fun acc p =>
        match acc with
        | .error e => .error e
        | .ok (bs, s) =>
          match s.readPiece none owner p.1 p.2 need with
          | .error e => .error e
          | .ok (cs, s1) => .ok (bs ++ cs, s1)) acc = .ok (b, t) → t = s := by
    intro l
    induction l with
    | nil => exact fun acc ha b t he => ha b t he
    | cons p l ih =>
      intro acc ha b t he
      refine ih _ ?_ b t he
      intro b1 t1 h1
      beta_reduce at h1
      split at h1
      · simp at h1
      · split at h1
        · simp at h1
        · have e := ha _ _ rfl
          have r := readPiece_none ‹_›
          injection h1 with h1; injection h1 with _ h1
          rw [← h1, r, e]
  exact key l _ (by rintro b t ⟨⟩; rfl) bs s1 h

/-- A read of the Creel or a Treadle run that answers leaves the state as it was. -/
theorem creelRead_ok {s s1 : State} {who va n : Nat} {bs : List Byte} (h : s.creelRead who va n = .ok s1 bs) : s1 = s := by
  unfold State.creelRead at h
  split at h
  · rename_i h1
    injection h with h _
    rw [← h, readGlobal_none h1]
  · unfold State.creelHalt at h
    repeat' split at h
    all_goals simp_all

end Sys2Proof.Machine
end

