-- ==== Sys2Proof/Tests/Slice0.lean ====
section
/-! SUPPORT. Tests: well-formedness, words of the spec, single steps with results that the spec states, and states that meet
the hypotheses of the obligations. -/

namespace Sys2Proof.Tests
open Sys2Proof Sys2Proof.Machine

noncomputable section

-- one theorem after another: checked at once, they would need more threads than there are
set_option Elab.async false

/-! ## Well-formedness -/

/-- Headers: one without a reserved value, and one with each. -/
def tHdr : Hdr := { cc := 0, wt := 31, sg := 31, aq := false, rl := false, sc := 0 }
def tHdrWt : Hdr := { tHdr with wt := 16 }
def tHdrSg : Hdr := { tHdr with sg := 30 }
def tHdrSc : Hdr := { tHdr with sc := 9 }

/-- Terms that a check of Instr.wf refuses, part 1. -/
def tIll1 : List Instr :=
  [.loop 6 false false 0 1, .loop 1 false false 0 0, .endl 6,
   .endlX 6, .hint 1, .hint 10,
   .qpush 0 3, .vaddFloat 3 0 0 0 1 0, .vaddFloat 1 0 0 0 6 0,
   .vsubFloat 3 0 0 0 1 0, .vsubFloat 1 0 0 0 6 0, .vmulFloat 3 0 0 0 1 0,
   .vmulFloat 1 0 0 0 6 0, .vdivFloat 3 0 0 0 1 0, .vdivFloat 1 0 0 0 6 0,
   .vminFloat 3 0 0 0 1 0, .vminFloat 1 0 0 0 6 0, .vmaxFloat 3 0 0 0 1 0,
   .vmaxFloat 1 0 0 0 6 0, .vcpys 3 0 0 0 1 0, .vcpys 1 0 0 0 6 0,
   .vfma 3 0 0 0 1 0, .vfma 1 0 0 0 6 0, .vfms 3 0 0 0 1 0,
   .vfms 1 0 0 0 6 0, .vfnma 3 0 0 0 1 0, .vfnma 1 0 0 0 6 0,
   .vfnms 3 0 0 0 1 0, .vfnms 1 0 0 0 6 0, .vabs 0 0 3 1 0,
   .vabs 0 0 1 6 0, .vneg 0 0 3 1 0, .vneg 0 0 1 6 0,
   .vsqrt 0 0 3 1 0, .vsqrt 0 0 1 6 0, .vrint 0 0 3 1 0,
   .vrint 0 0 1 6 0, .vrcpe 0 0 3 1 0, .vrcpe 0 0 1 6 0,
   .vrsqe 0 0 3 1 0]

/-- Terms that a check of Instr.wf refuses, part 2. -/
def tIll2 : List Instr :=
  [.vrsqe 0 0 1 6 0, .vex2e 0 0 3 1 0, .vex2e 0 0 1 6 0,
   .vlg2e 0 0 3 1 0, .vlg2e 0 0 1 6 0, .vceqFloat 3 0 0 1 0,
   .vceqFloat 1 0 0 6 0, .vcneFloat 3 0 0 1 0, .vcneFloat 1 0 0 6 0,
   .vcltFloat 3 0 0 1 0, .vcltFloat 1 0 0 6 0, .vcleFloat 3 0 0 1 0,
   .vcleFloat 1 0 0 6 0, .vcun 3 0 0 1 0, .vcun 1 0 0 6 0,
   .vcvt 0 0 false 0 6 5 0, .vcvt 0 0 false 0 1 0 0, .vcvt 0 0 false 4 1 5 0,
   .vcvt 0 0 true 0 1 1 0, .vpacks 0 0 0 1 0, .vpackt 0 0 0 1 0,
   .vunpkl 0 0 6 0, .vunpkh 0 0 6 0, .vunsp 3 0 0,
   .vperm 0 0 0 4 0, .vperm2 0 0 0 4 0, .vbcq 0 4 0,
   .vzipl 0 0 0 4 0, .vziph 0 0 0 4 0, .vuzpe 0 0 0 4 0,
   .vuzpo 0 0 0 4 0, .vrev 0 0 4 0, .vsel 0 0 0 4 0,
   .minv 4 0, .shrm 0 0, .shrm 6 0,
   .shft 6 0 0, .shft 30 0 0, .mrd 0 6 0 0 0,
   .mrd 0 30 0 0 0]

/-- Terms that a check of Instr.wf refuses, part 3. -/
def tIll3 : List Instr :=
  [.mrdc 0 6 0 0 0, .mrdc 0 30 0 0 0, .mrdr 2 6 0 0 0,
   .mrdr 2 30 0 0 0, .mrdr 3 1 0 0 0, .sloopX 0 1 6 0,
   .sloopX 0 0 1 0, .sendlX 6 0, .sendlExitX 6 0,
   .vld 2 16 false false 0 0 0, .vld 2 1 false false 3 0 0, .vld 2 15 false false 1 0 0,
   .vld 3 1 false false 2 0 0, .vst 2 16 false 0 0 0, .vst 2 1 false 3 0 0,
   .vst 2 15 false 1 0 0, .vst 3 1 false 2 0 0, .qpopa 16 0,
   .qpusha 16 0, .sloopLs 6 false false 1 0, .sloopLs 1 false false 0 0,
   .sendlLs 6 0, .sendlExitLs 6 0, .ccwaitLs 8 2 0,
   .ccwaitLs 1 64 0, .qdropLs 0 0, .qdropLs 17 0,
   .tmov false 16 0 1 false false 1 0, .tmov false 1 0 3 false false 1 0, .tmov false 1 0 1 false false 9 0,
   .tgath false 16 0 1 false false 1 0, .tgath false 1 0 3 false false 1 0, .tgath false 1 0 1 false false 9 0,
   .tscat false 16 0 1 false false 1 0, .tscat false 1 0 3 false false 1 0, .tscat false 1 0 1 false false 9 0,
   .tfill false 16 0 1 false false 1 0, .tfill false 1 0 3 false false 1 0, .tfill false 1 0 1 false false 9 0,
   .tmovf false 16 0 1 false false 1 0]

/-- Terms that a check of Instr.wf refuses, part 4. -/
def tIll4 : List Instr :=
  [.tmovf false 1 0 3 false false 1 0, .tmovf false 1 0 1 false false 9 0, .aaddi 16 1 0 0,
   .aaddi 2 16 0 0, .aaddv 16 1 0 0, .aaddv 2 16 0 0,
   .aadd 16 1 0 0, .aadd 2 16 0 0, .asub 16 1 0 0,
   .asub 2 16 0 0, .aslli 16 1 0 0, .aslli 2 16 0 0,
   .dpld 0 16 0 0, .dgld 0 16 0 0, .dgldc 0 16 0 0,
   .mzero tHdrWt 1 0 false 0 1, .mzero tHdr 0 0 false 0 1, .mzero tHdr 1 0 false 1 0,
   .mzero tHdr 1 0 false 0 1, .mzero tHdr 1 1 true 0 1, .mzero tHdr 1 0 false 0 6,
   .mma tHdrWt 0 0 1 false false false false false 0 0 0 0 0 0, .mma tHdr 0 1 0 true false false false false 0 0 0 0 0 0, .mma tHdr 0 0 1 true false false false false 0 0 0 0 0 0,
   .mma tHdr 0 0 1 false false false false false 0 1 0 0 0 0, .mma tHdr 0 0 6 false false false false false 0 0 0 0 0 0, .mbias tHdrWt 0 0 1 false 0 0 0,
   .mbias tHdr 0 1 0 true 0 0 0, .mbias tHdr 0 0 1 true 0 0 0, .mbias tHdr 0 0 1 false 1 0 0,
   .mbias tHdr 0 0 6 false 0 0 0, .maddt tHdrWt 1 2 false, .maddt tHdr 2 2 false,
   .mout tHdrWt 0 0 1 false false false false 1 1 0 0 0, .mout tHdr 0 0 1 false false false false 32 32 0 0 0, .mout tHdr 0 1 0 true false false false 1 1 0 0 0,
   .mout tHdr 0 0 1 false false false false 1 1 1 0 0, .mout tHdr 0 0 6 false false false false 1 1 0 0 0, .moutr tHdrWt 0 false false 1 1 0 0,
   .moutr tHdr 0 false false 32 32 0 0]

/-- Terms that a check of Instr.wf refuses, part 5. -/
def tIll5 : List Instr :=
  [.mldr tHdrWt 0 false 1 1 0 0, .mldr tHdr 0 false 32 32 0 0, .mnop tHdrWt,
   .mnop tHdrSg, .mnop tHdrSc, .msnap tHdrWt 0 1 0,
   .msnap tHdr 0 6 0, .tcmov tHdrWt 1 0, .tcmov tHdr 3 0,
   .tcgath tHdrWt 0, .tcscat tHdrWt 0, .tcfill tHdrWt 0,
   .tcmovf tHdrWt 0, .car tHdrWt 0 1 0 1 0 0 0, .car tHdr 0 3 0 1 0 0 0,
   .car tHdr 0 1 0 6 0 0 0, .crs tHdrWt 0 1 0 1 0 0 0, .crs tHdr 0 3 0 1 0 0 0,
   .crs tHdr 0 1 0 6 0 0 0, .cag tHdrWt 0 0 0 0, .cbc tHdrWt 0 0 0 0 0,
   .cred tHdrWt 0 1 0 1 0 0 0 0, .cred tHdr 0 3 0 1 0 0 0 0, .cred tHdr 0 1 0 6 0 0 0 0,
   .ca2a tHdrWt 0 0 0 0, .cbar tHdrWt 0, .rinv tHdrWt 0 0,
   .rinvx tHdrWt 0, .rinva tHdrWt, .rsplit tHdrWt 0 0 0,
   .rmerge tHdrWt 0 0, .rpress tHdrWt 0 0, .rres tHdrWt 0 0 0,
   .rgena tHdrWt 0, .vldfe 0 16 0 0, .vstef 0 16 0 0,
   .bararr 4 0, .barpost 4 0 0, .barsync 4 0,
   .barwait 4 0 0]

/-- Terms that a check of Instr.wf refuses, part 6. -/
def tIll6 : List Instr :=
  [.semsig 16 0, .semwait 16 0 0, .lds 0 0 9,
   .ldsAcq 0 0 9, .sts 0 0 9, .stsRel 0 0 9,
   .acq 9 0, .rel 9 0, .mark 0,
   .join 16 1, .join 1 9, .fence 16 1,
   .fence 1 9, .atom 0 0 0 9, .atomRel 0 0 0 9,
   .vatom 0 16 0 1 0, .vatom 0 1 0 9 0, .vatomRel 0 16 0 1 0,
   .vatomRel 0 1 0 9 0, .cldecl 3 0 1, .cldecl 2 0 0,
   .cldecl 2 0 8, .oatom 3 0 1 0, .oatom 2 0 9 0]

/-- Every check of well-formedness refuses a term that breaks it, in each instruction that has the check (R27, R31 to R35). -/
theorem test_wf_refuses : (tIll1 ++ tIll2 ++ tIll3 ++ tIll4 ++ tIll5 ++ tIll6).all (fun i => !i.wf) = true := by decide +kernel

/-- The same instructions with no reserved value, part 1. -/
def tWell1 : List Instr :=
  [.loop 1 false false 0 1, .endl 1, .endlX 1,
   .hint 2, .qpush 0 1, .vaddFloat 1 0 0 0 1 0,
   .vsubFloat 1 0 0 0 1 0, .vmulFloat 1 0 0 0 1 0, .vdivFloat 1 0 0 0 1 0,
   .vminFloat 1 0 0 0 1 0, .vmaxFloat 1 0 0 0 1 0, .vcpys 1 0 0 0 1 0,
   .vfma 1 0 0 0 1 0, .vfms 1 0 0 0 1 0, .vfnma 1 0 0 0 1 0,
   .vfnms 1 0 0 0 1 0, .vabs 0 0 1 1 0, .vneg 0 0 1 1 0,
   .vsqrt 0 0 1 1 0, .vrint 0 0 1 1 0, .vrcpe 0 0 1 1 0,
   .vrsqe 0 0 1 1 0, .vex2e 0 0 1 1 0, .vlg2e 0 0 1 1 0,
   .vceqFloat 1 0 0 1 0, .vcneFloat 1 0 0 1 0, .vcltFloat 1 0 0 1 0,
   .vcleFloat 1 0 0 1 0, .vcun 1 0 0 1 0, .vcvt 0 0 false 0 1 5 0,
   .vpacks 0 0 0 3 0, .vpackt 0 0 0 3 0, .vunpkl 0 0 3 0,
   .vunpkh 0 0 3 0, .vunsp 2 0 0, .vperm 0 0 0 1 0,
   .vperm2 0 0 0 1 0, .vbcq 0 1 0, .vzipl 0 0 0 1 0,
   .vziph 0 0 0 1 0]

/-- The same instructions with no reserved value, part 2. -/
def tWell2 : List Instr :=
  [.vuzpe 0 0 0 1 0, .vuzpo 0 0 0 1 0, .vrev 0 0 1 0,
   .vsel 0 0 0 1 0, .minv 1 0, .shrm 1 0,
   .shft 1 0 0, .mrd 0 1 0 0 0, .mrdc 0 1 0 0 0,
   .mrdr 2 1 0 0 0, .sloopX 0 1 1 0, .sendlX 1 0,
   .sendlExitX 1 0, .vld 2 1 false false 0 0 0, .vst 2 1 false 0 0 0,
   .qpopa 2 0, .qpusha 1 0, .sloopLs 1 false false 1 0,
   .sendlLs 1 0, .sendlExitLs 1 0, .ccwaitLs 1 2 0,
   .qdropLs 2 0, .tmov false 1 0 1 false false 1 0, .tgath false 1 0 1 false false 1 0,
   .tscat false 1 0 1 false false 1 0, .tfill false 1 0 1 false false 1 0, .tmovf false 1 0 1 false false 1 0,
   .aaddi 2 1 0 0, .aaddv 2 1 0 0, .aadd 2 1 0 0,
   .asub 2 1 0 0, .aslli 2 1 0 0, .dpld 0 1 0 0,
   .dgld 0 1 0 0, .dgldc 0 1 0 0, .mzero tHdr 1 0 false 0 0,
   .mma tHdr 0 0 0 false false false false false 0 0 0 0 0 0, .mbias tHdr 0 0 0 false 0 0 0, .maddt tHdr 1 2 false,
   .mout tHdr 0 0 0 false false false false 1 1 0 0 0]

/-- The same instructions with no reserved value, part 3. -/
def tWell3 : List Instr :=
  [.moutr tHdr 0 false false 1 1 0 0, .mldr tHdr 0 false 1 1 0 0, .mnop tHdr,
   .msnap tHdr 0 1 0, .tcmov tHdr 1 0, .tcgath tHdr 0,
   .tcscat tHdr 0, .tcfill tHdr 0, .tcmovf tHdr 0,
   .car tHdr 0 1 0 1 0 0 0, .crs tHdr 0 1 0 1 0 0 0, .cag tHdr 0 0 0 0,
   .cbc tHdr 0 0 0 0 0, .cred tHdr 0 1 0 1 0 0 0 0, .ca2a tHdr 0 0 0 0,
   .cbar tHdr 0, .rinv tHdr 0 0, .rinvx tHdr 0,
   .rinva tHdr, .rsplit tHdr 0 0 0, .rmerge tHdr 0 0,
   .rpress tHdr 0 0, .rres tHdr 0 0 0, .rgena tHdr 0,
   .vldfe 0 1 0 0, .vstef 0 1 0 0, .bararr 1 0,
   .barpost 1 0 0, .barsync 1 0, .barwait 1 0 0,
   .semsig 1 0, .semwait 1 0 0, .lds 0 0 1,
   .ldsAcq 0 0 1, .sts 0 0 1, .stsRel 0 0 1,
   .acq 1 0, .rel 1 0, .mark 1,
   .join 1 1]

/-- The same instructions with no reserved value, part 4. -/
def tWell4 : List Instr :=
  [.fence 1 1, .atom 0 0 0 1, .atomRel 0 0 0 1,
   .vatom 0 1 0 1 0, .vatomRel 0 1 0 1 0, .cldecl 2 0 1,
   .oatom 2 0 1 0]

/-- They are well formed. -/
theorem test_wf_accepts : (tWell1 ++ tWell2 ++ tWell3 ++ tWell4).all (fun i => i.wf) = true := by decide +kernel
/-! ## Words of the spec -/

/-- Words of the examples of the spec, which gives the fields of each (R26 to R40, R53 to R75). -/
theorem test_decode_control :
    decode .c 0x00632020 [] = .ok (.add 3 3 4) ∧ decode .c 0x086110A7 [] = .ok (.sel 3 1 2 7) ∧
    decode .c 0x0C200064 [] = .ok (.addi 1 0 100) ∧ decode .c 0x14410F00 [] = .ok (.ori 2 1 0xF00) ∧
    decode .c 0x33FFFFFE [] = .ok (.jmp (-2)) ∧ decode .c 0x3C184006 [] = .ok (.loop 0 true true 1 6) ∧
    decode .c 0x48000020 [] = .ok .nop ∧ decode .c 0x480000A0 [] = .ok (.hint 5) ∧
    decode .c 0x44014024 [] = .ok (.mtsr 1 0x24) ∧ decode .c 0x47C00012 [] = .ok (.mfsr 30 0x12) := by decide +kernel

/-- R103 to R160, R186, R276, R300. -/
theorem test_decode_streams :
    decode .x 0x64611118 [] = .ok (.vfma 0 3 1 2 1 8) ∧ decode .x 0xA0A20010 [] = .ok (.vrsum 5 2 0 0) ∧
    decode .x 0x90C28960 [] = .ok (.vcvt 6 2 true 1 1 6 0) ∧ decode .x 0xAC9F0110 [] = .ok (.mrd 4 31 0 1 0) ∧
    decode .l 0xD044C008 [] = .ok (.tmov false 2 1 2 false false 0 8) ∧
    decode .s 0xD4AD8008 [] = .ok (.tscat true 5 3 0 false false 0 8) ∧
    decode .l 0xDC001000 [] = .ok (.dtset 0) ∧ decode .s 0xDC4131E0 [] = .ok (.dgld 2 1 30 0) := by decide +kernel

/-- R36, R185 to R187, R241 to R253, R378. -/
theorem test_decode_system :
    decode .c 0xF0250C30 [] = .ok (.barpost 1 5 3) ∧ decode .c 0xF0670500 [] = .ok (.ldfe 3 7 0) ∧
    decode .c 0xF4000A50 [] = .ok (.fence 0 5) ∧ decode .c 0xF4830430 [] = .ok (.stsRel 4 3 3) ∧
    decode .c 0xF8050200 [] = .ok (.mcall 0 5) ∧ decode .c 0xF8000300 [] = .ok .tret ∧
    decode .c 0xF8070400 [] = .ok (.ckmark 7) := by decide +kernel

/-- Commands with their step words (R34, R226, R299, R406). -/
theorem test_decode_commands :
    decode .c 0xECA2FFC0 [0x00000C41] =
      .ok (.rsplit { cc := 2, wt := 31, sg := 31, aq := false, rl := false, sc := 0 } 3 2 1) ∧
    decode .c 0xE908FFF7 [0x0804E003, 0x00000041] =
      .ok (.car { cc := 0, wt := 31, sg := 31, aq := true, rl := true, sc := 7 } 2 0 4 7 3 2 1) ∧
    decode .c 0xE910FFF7 [0x0402E003, 0x000000A4] =
      .ok (.crs { cc := 0, wt := 31, sg := 31, aq := true, rl := true, sc := 7 } 1 0 2 7 3 5 4) ∧
    decode .c 0xE939FFF7 [0x08000000, 0] =
      .ok (.cbar { cc := 1, wt := 31, sg := 31, aq := true, rl := true, sc := 7 } 2) ∧
    decode .c 0xE922FFF7 [0x08000026, 0x00000107] =
      .ok (.cbc { cc := 2, wt := 31, sg := 31, aq := true, rl := true, sc := 7 } 2 1 6 8 7) := by decide +kernel

/-- A Treadle word (R324): LD w1, [w2+8]; and END. -/
theorem test_decode_treadle :
    decodeTreadle 0x10120008 = some (.treadleLd 1 2 8) ∧ decodeTreadle 0x3F000000 = some .treadleEnd := by decide +kernel

/-- The header of a MOUT, a word of another stream, and words that name nothing (R37, R39). -/
theorem test_decode_refuses :
    decode .c 0x64611118 [] = .error .wrongStream ∧ decode .x 0xF8000300 [] = .error .wrongStream ∧
    decode .c 0x00000000 [] = .error .illegal ∧ decode .l 0xFFFFFFFF [] = .error .illegal := by decide +kernel

/-- What is encoded decodes again (R39), here with fields at their greatest values. -/
theorem test_encode_words :
    encode (.add 3 3 4) = [0x00632020] ∧ encode (.jmp (-2)) = [0x33FFFFFE] ∧
    encode (.rsplit { cc := 2, wt := 31, sg := 31, aq := false, rl := false, sc := 0 } 3 2 1) = [0xECA2FFC0, 0x00000C41] := by
  decide +kernel

/-- decodeTableWord reads a control word, and a Treadle word where no stream reads it (assumption log 14). -/
theorem test_decode_table :
    decodeTableWord 32 0x00632020 = some (.add 3 3 4) ∧ decodeTableWord 64 (0xECA2FFC0 + 0x00000C41 * 2 ^ 32) =
      some (.rsplit { cc := 2, wt := 31, sg := 31, aq := false, rl := false, sc := 0 } 3 2 1) ∧
    decodeTableWord 32 0x3F000000 = some .treadleEnd := by decide +kernel

/-! ## Single steps

Every state is the machine after reset with a few fields set: shuttle 0's control sequencer is at pc 0 of the monitor section. -/

/-- The words stand in the monitor section, and the scalar registers hold the values named. -/
def atC (ws : List W32) (rs : List (RegNo × W64)) : State :=
  State.reset.modMe fun x =>
    { x with monSection := { words := ws, bad := [] },
             sregs := rs.foldl (fun v r => v.set r.1.toNat r.2 r.1.isLt) x.sregs }

/-- What holds of the next state. -/
def after (r : Result) (p : State → Bool) : Bool :=
  match r with
  | .next s => p s
  | _ => false

/-- Sums wrap at 64 bits, and pc goes on by one word (R52, R53). -/
theorem test_add_wraps :
    after (step (atC [0x00632020] [(3, 0xFFFFFFFFFFFFFFFF), (4, 2)])) (fun s => decide (s.sreg 3 = 1 ∧ s.pc = 4)) = true := by
  decide +kernel

/-- Division by zero gives 0 and sets IDZ, the remainder is the dividend (R55). -/
theorem test_divide_by_zero :
    after (exec (.div 3 1 2) (atC [] [(1, 7)])) (fun s => decide (s.sreg 3 = 0 ∧ s.mySeq.status.getLsbD 7 = true)) = true ∧
    after (exec (.rem 3 1 2) (atC [] [(1, 7)])) (fun s => decide (s.sreg 3 = 7)) = true := by decide +kernel

/-- The most negative number by -1 gives itself (R55). -/
theorem test_divide_overflow :
    after (exec (.div 3 1 2) (atC [] [(1, 0x8000000000000000), (2, 0xFFFFFFFFFFFFFFFF)]))
      (fun s => decide (s.sreg 3 = 0x8000000000000000)) = true := by decide +kernel

/-- SEL s3, s7, s1, s2 with s7 = 0 gives s2 (the example of R56). -/
theorem test_select :
    after (step (atC [0x086110A7] [(1, 11), (2, 22), (3, 33)])) (fun s => decide (s.sreg 3 = 22)) = true := by decide +kernel

/-- A write to s0 is discarded (R11). -/
theorem test_register_zero :
    after (exec (.addi 0 1 5) (atC [] [(1, 7)])) (fun s => decide (s.sreg 0 = 0)) = true := by decide +kernel

/-- ADDA beyond the Pocket halts with cause 0x0B in monitor mode (R24, R61). -/
theorem test_adda_traps :
    after (exec (.adda 3 1 1) (atC [] [(1, 0xBFFFF)]))
      (fun s => decide (s.me.trap.map HeldTrap.cause = some 0x0B ∧ s.me.trap.map HeldTrap.eval = some 0xC0000)) = true := by
  decide +kernel

/-- A transfer goes to its displacement in words from its own address, and leaves its address in bor (R29, R66). -/
theorem test_jump :
    after (exec (.jmp 2) (atC [] [])) (fun s => decide (s.pc = 8 ∧ s.me.bor = 0)) = true := by decide +kernel

/-- CALL leaves the next address in lnk (R66). -/
theorem test_call :
    after (exec (.call 2) (atC [] [])) (fun s => decide (s.pc = 8 ∧ s.me.lnk = 4)) = true := by decide +kernel

/-- LOOP with limit 0 passes the body (R70). -/
theorem test_loop_zero :
    after (exec (.loop 0 false false 1 6) (atC [] [])) (fun s => decide (s.pc = 28 ∧ s.mySeq.loops.depth = 0)) = true := by
  decide +kernel

/-- A store then a load of the same bytes, little-endian (R3, R62). -/
theorem test_store_load :
    after (exec (.stw 2 1 4) (atC [] [(1, 0x100), (2, 0x1122334455667788)])) (fun s =>
      decide (memByte s.mem (pocketPlace 0 0x104) = 0x88) &&
      after (exec (.ldbs 3 1 4) s) fun u => decide (u.sreg 3 = 0xFFFFFFFFFFFFFF88)) = true := by decide +kernel

/-- MCALL 5 has eval 5 (R378). -/
theorem test_mcall :
    after (step (atC [0xF8050200] [])) (fun s => decide (s.me.trap.map HeldTrap.eval = some 5)) = true := by decide +kernel

/-- TRET goes to epc in the mode of esst (R25). -/
theorem test_tret :
    after (exec .tret (State.reset.modMe fun x => { x with epc := 0x41E, esst := 1 }))
      (fun s => decide (s.pc = 0x41C ∧ s.me.mon = true)) = true := by decide +kernel

/-- In R415's example every rank receives 1.0 from 2^24, 1.0 and -2^24. -/
theorem test_exact_sum :
    (reduceElem { fn := 1, op := 0, k := 1, rt := 0, fa := Fmt.fp32.code, fo := Fmt.fp32.code, anc := 96, rm := 1,
                  sca := 0x3F800000, scb := 0x3F800000, osx := 0, ranks := [] }
      ([0x4B800000, 0x3F800000, 0xCB800000].map (fmtValue .fp32))).1 = 0x3F800000 := by decide +kernel

/-- The check values of the CRCs that R347 and R349 name, of the nine digits "123456789". -/
theorem test_crc :
    crc32 [0x31, 0x32, 0x33, 0x34, 0x35, 0x36, 0x37, 0x38, 0x39] = 0xCBF43926 ∧
    crc64 [0x31, 0x32, 0x33, 0x34, 0x35, 0x36, 0x37, 0x38, 0x39] = 0x6C40DF5F0B497347 := by decide +kernel

/-- The digest of "abc" in FIPS 180-4, which R394 names: its first and last eight bytes. -/
theorem test_sha384 :
    (sha384 [0x61, 0x62, 0x63]).take 8 = [0xcb, 0x00, 0x75, 0x3f, 0x45, 0xa3, 0x5e, 0x8b] ∧
    (sha384 [0x61, 0x62, 0x63]).drop 40 = [0x58, 0xba, 0xec, 0xa1, 0x34, 0xc8, 0x25, 0xa7] := by decide +kernel

/-! ## Witnesses

For each obligation with hypotheses, states and operands that meet them together, clause by clause, at the ends of the
ranges. -/

/-- The accesses of `op` are all made. -/
def isMade (op : (State → Eff) → Eff) : Bool :=
  match op .done with
  | .done _ => true
  | _ => false

/-- The state after them. -/
def madeOf (op : (State → Eff) → Eff) : State :=
  match op .done with
  | .done s => s
  | _ => State.reset

theorem made_of {op : (State → Eff) → Eff} (h : isMade op = true) : Made op (madeOf op) := by
  unfold isMade at h; unfold Made madeOf; split at h <;> simp_all

theorem made_ex {op : (State → Eff) → Eff} (h : isMade op = true) : ∃ s1, Made op s1 := ⟨_, made_of h⟩

theorem made_and {op : (State → Eff) → Eff} {P : State → Prop} (h : isMade op = true) (hp : P (madeOf op)) :
    ∃ s1, Made op s1 ∧ P s1 := ⟨_, made_of h, hp⟩

theorem done_ex {e : Eff} (h : isMade (fun _ => e) = true) : ∃ s1, e = .done s1 := by
  unfold isMade at h; split at h
  · exact ⟨_, ‹_›⟩
  · exact absurd h (by decide)

/-- What holds of a computed value. -/
def okIs {ε α : Type} (r : Except ε α) (p : α → Bool) : Bool :=
  match r with
  | .ok a => p a
  | .error _ => false

theorem next_ex {r : Result} (h : after r (fun _ => true) = true) : ∃ t, r = .next t := by
  unfold after at h; split at h
  · exact ⟨_, rfl⟩
  · exact absurd h (by decide)

/-- Shuttle 0 in task mode. -/
def inTask (s : State) : State := s.modMe fun x => { x with c := { x.c with status := 0 } }

/-- A sequencer that may issue, with no step trap due. -/
theorem issues_of {s : State} (h : s.mayIssue = true) (k : s.me.stepWaits = []) : Issues s := ⟨h, by simp [k]⟩

/-- Hypotheses of StepRunsDecoded: ADD s3, s3, s4 at pc 0, with its source whole and with an uncorrectable error in it, and with an
asynchronous fault pending. -/
theorem wit_StepRunsDecoded :
    let s := atC [0x00632020] []
    Issues s ∧ s.flagged = false ∧ s.agenda = [] ∧ s.badRead (.add 3 3 4) = none ∧
    okIs (s.fetchSection.fetch s.pc.toNat) (fun w => okIs (decodeRow s.stream w) fun r =>
      okIs (s.fetchSection.fetchSteps r.steps (s.pc.toNat + 4)) fun ws => okIs (r.instr w ws) fun i =>
        decide (i = .add 3 3 4)) = true ∧
    (s.modMe fun x => { x with marked := [(.c, damage 0 3)] }).badRead (.add 3 3 4) = some (damage 0 3) ∧
    (let t := (inTask s).modMe fun x => { x with pending := [{ cause := 0x1A, eval := 8, eng := 1, ipc := 0, str := .c, cmd := 1, found := 0 }] }
     Issues t ∧ t.stream = .c ∧ t.taskMode = true ∧ t.me.pending ≠ [] ∧ t.badRead (.add 3 3 4) = none ∧
     ∃ u, exec (.add 3 3 4) t.turn = .next u) :=
  ⟨issues_of (by decide +kernel) (by decide +kernel), by decide +kernel, by decide +kernel, by decide +kernel, by decide +kernel,
   by decide +kernel, issues_of (by decide +kernel) (by decide +kernel), by decide +kernel, by decide +kernel, by decide +kernel,
   by decide +kernel, next_ex (by decide +kernel)⟩

/-- Of FetchTraps: a section of no words, or of one with pc at its end; an error in its last word; a word of zeros; a word
of X. -/
theorem wit_FetchTraps :
    (∀ s ∈ [atC [] [], (atC [0] []).setPc 4, atC [0x64611118] []], s.agenda = [] ∧ Issues s ∧ s.flagged = false) ∧
    (atC [] []).fetchSection.words.length ≤ (atC [] []).pc.toNat / 4 ∧
    ((atC [0] []).setPc 4).fetchSection.words.length ≤ ((atC [0] []).setPc 4).pc.toNat / 4 ∧
    (let s := State.reset.modMe fun x => { x with monSection := { words := [0, 0], bad := [1] }, c := { x.c with pc := 4 } }
     s.pc.toNat / 4 < s.fetchSection.words.length ∧ s.fetchSection.bad.contains (s.pc.toNat / 4) = true) ∧
    okIs ((atC [0] []).fetchSection.fetch 0) (fun w => match decodeRow .c w with
      | .error .illegal => true
      | _ => false) = true ∧
    okIs ((atC [0x64611118] []).fetchSection.fetch 0) (fun w => match decodeRow .c w with
      | .error .wrongStream => true
      | _ => false) = true := by
  refine ⟨fun s h => ?_, by decide +kernel⟩
  have k : ∀ s ∈ [atC [] [], (atC [0] []).setPc 4, atC [0x64611118] []],
      s.agenda = [] ∧ s.mayIssue = true ∧ s.me.stepWaits = [] ∧ s.flagged = false := by decide +kernel
  obtain ⟨a, b, c, d⟩ := k s h
  exact ⟨a, issues_of b c, d⟩

/-- Of the same: a monitor-only command in task mode, and one of the monitor whose step words lie beyond the section. -/
theorem wit_FetchTraps_steps :
    okIs (decodeRow .c 0xECA0FFE0) (fun r => r.monitorOnly) = true ∧ (inTask (atC [0xECA0FFE0] [])).taskMode = true ∧
    (atC [0xECA0FFE0] []).taskMode = false ∧
    okIs (decodeRow .c 0xECA0FFE0) (fun r => !okIs ((atC [0xECA0FFE0] []).fetchSection.fetchSteps r.steps 4) fun _ => true) =
      true := by decide +kernel

def level (k lim : W32) (str : Nat) : Level := { Level.reset with k := k, lim := lim, str := str, start := 0x104, fin := 0x200 }

/-- Two open levels. -/
def twoLoops : LoopUnit := ⟨#v[level 3 10 2, level 9 10 1, level 0 0 1, level 0 0 1, level 0 0 1, level 0 0 1], 2⟩

/-- Of the same: L in a later iteration of its loop. -/
theorem wit_FetchTraps_loops :
    let s : State := { (State.reset.modMe fun x => { x with l := { x.l with run := .running, pc := 0x104, loops := twoLoops } }) with
      cur := (0, .l) }
    s.stream ≠ .c ∧ s.mySeq.loops.replays s.pc = true ∧ s.agenda = [] ∧ s.flagged = false ∧ Issues s :=
  ⟨by decide +kernel, by decide +kernel, by decide +kernel, by decide +kernel, issues_of (by decide +kernel) (by decide +kernel)⟩

/-- Of EncodeDecode and EncodeDecodeTreadle: an instruction of one word and one of three; a Treadle word. -/
theorem wit_EncodeDecode :
    encode (.add 31 31 0) = 0x03FF0020 :: [] ∧ Instr.ofTreadle (.add 31 31 0) = false ∧ Instr.wf (.add 31 31 0) = true ∧
    encode (.car { cc := 0, wt := 31, sg := 31, aq := true, rl := true, sc := 7 } 2 0 4 7 3 2 1) =
      0xE908FFF7 :: [0x0804E003, 0x00000041] ∧
    Instr.wf (.car { cc := 0, wt := 31, sg := 31, aq := true, rl := true, sc := 7 } 2 0 4 7 3 2 1) = true ∧
    encode .treadleEnd = 0x3F000000 :: [] ∧ Instr.ofTreadle .treadleEnd = true := by decide +kernel

/-- Of MemoryStore: memories in canonical form that read alike. -/
theorem wit_MemoryStore :
    Memory.wf [] = true ∧ Memory.wf [(0, 1), (2 ^ 60, 255)] = true ∧
    ∀ a, memByte [(0, 1), (2 ^ 60, 255)] a = memByte [(0, 1), (2 ^ 60, 255)] a :=
  ⟨by decide, by decide, fun _ => rfl⟩

/-- Of StepKeepsOk: a step from a state with memory in canonical form. -/
theorem wit_StepKeepsOk : (atC [0x00632020] []).Ok ∧ ∃ t, step (atC [0x00632020] []) = .next t :=
  ⟨by unfold State.Ok; decide +kernel, next_ex (by decide +kernel)⟩

/-- Of TrapEntry: task mode with a cause of either route, and monitor mode. -/
theorem wit_TrapEntry :
    ((inTask State.reset).shuttle 0).mon = false ∧ (inTask State.reset).route 0x0B = .monitor ∧
    (inTask State.reset).route 0x31 ≠ .monitor ∧ (State.reset.shuttle 0).mon = true := by decide +kernel

def scalarEntry (v : W64) : QEntry := { val := v, know := Know.none }

/-- A vector register of 128 elements of 32 bits. -/
def vectorOf (f : Nat → Nat) : VReg := BitVec.ofNat 4096 ((List.range 128).foldl (fun a j => a + (f j % 2 ^ 32) * 2 ^ (32 * j)) 0)

/-- Shuttle 0 with something in every queue, running streams and values in its registers. -/
def busy : State := State.reset.modMe fun x =>
  { x with
    shp := 0x7001, qCL := [scalarEntry 0x100000003, scalarEntry 7, scalarEntry 9],
    qCX := [scalarEntry 5, scalarEntry 0x2000000005], qCS := [scalarEntry 0], qSC := [scalarEntry 1],
    qLX := [{ val := 77, know := Know.none }], tLX := [Know.none], crLX := [Know.none, Know.none], tXS := [Know.none],
    crXS := [Know.none], tSL := [Know.none], crSL := [Know.none],
    aL := Vector.ofFn fun i => BitVec.ofNat 64 (64 * i.val * i.val), aS := Vector.ofFn fun i => BitVec.ofNat 64 (8 * i.val),
    vregs := Vector.ofFn fun i => vectorOf fun j => (i.val + 3) * j * 123457 + 0x3F800000, masks := [BitVec.ofNat 512 (2 ^ 300)],
    l := { x.l with run := .running, pc := 0x100, loops := twoLoops },
    x := { x.x with run := .running, pc := 0x100, loops := twoLoops },
    s := { x.s with run := .running, pc := 0x100, loops := twoLoops } }

def onL : State := { busy with cur := (0, .l) }
def onX : State := { busy with cur := (0, .x) }
def onS : State := { busy with cur := (0, .s) }

/-- A control sequencer whose step runs: what OnC asks. -/
theorem onC_of {s : State}
    (h : (decide (s.stream = .c) && (!s.taskMode || !s.me.dbgc.getLsbD (stepBit s.stream)) && s.me.marked.isEmpty) = true) :
    OnC s := by
  simp only [Bool.and_eq_true, decide_eq_true_eq, List.isEmpty_iff] at h
  obtain ⟨⟨a, b⟩, c⟩ := h
  exact ⟨a, by unfold Unstepped; revert b; cases s.taskMode <;> simp, c⟩

/-- A stream whose step runs: what OnT asks. -/
def readyOn (s : State) (st : Stream) (k : BitVec 4) : Bool :=
  decide (s.stream = st) && (!s.taskMode || !s.me.dbgc.getLsbD (stepBit s.stream)) && s.me.marked.isEmpty &&
    s.me.tokensReady st k && s.mySeq.taken.isNone

theorem onT_of {s : State} {st : Stream} {k : BitVec 4} (h : readyOn s st k = true) : OnT s st k := by
  simp only [readyOn, Bool.and_eq_true, decide_eq_true_eq, List.isEmpty_iff, Option.isNone_iff_eq_none] at h
  obtain ⟨⟨⟨⟨a, b⟩, c⟩, d⟩, e⟩ := h
  exact ⟨a, by unfold Unstepped; revert b; cases s.taskMode <;> simp, c, d, e⟩

/-- Of StreamsStopAndResume: streams that run, stopped streams, and C in either mode. -/
theorem wit_StreamsStopAndResume :
    let s := busy.modMe fun x => { x with sstp := 5 }
    busy.me.sstp = 0 ∧ busy.me.l.run = .running ∧ busy.me.x.run = .running ∧ busy.me.s.run = .running ∧ s.me.sstp.getLsbD 0 = true ∧
    s.me.sstp.getLsbD 1 = false ∧ OnC s ∧ OnC (inTask s) ∧ (inTask s).taskMode = true ∧ s.taskMode = false :=
  ⟨by decide +kernel, by decide +kernel, by decide +kernel, by decide +kernel, by decide +kernel, by decide +kernel,
   onC_of (by decide +kernel), onC_of (by decide +kernel), by decide +kernel⟩

/-- pc 0x100, two open loops, and values at the ends of their ranges. -/
def ctl : State := { (State.reset.modMe fun x =>
  { x with ftix := 5, lnk := 0x1236, c := { x.c with pc := 0x100, loops := twoLoops },
           sregs := (((((Vector.replicate 32 0).set 3 (0xFFFFFFFFFFFFFFF9 : W64)).set 4 7).set 5 0x8000000000000000).set 6
             0xC0000).set 7 0xBFFFF }) with mem := [(2 ^ 60 + 5, 7)] }

/-- Of RegisterArithmetic, MultiplyDivide, ComparesImmediatesFields and Transfers: registers of each kind, zeros among them;
branches taken and not. -/
theorem wit_control : OnC ctl ∧ OnC (inTask ctl) ∧
    ctl.sreg 3 ≠ 0 ∧ ctl.sreg 0 = 0 ∧ 0 < (countLeadingZeros (ctl.sreg 4)).toNat ∧
    (ctl.sreg 3).toInt < (ctl.sreg 4).toInt ∧ ¬(ctl.sreg 4).toInt < (ctl.sreg 4).toInt ∧
    (ctl.sreg 4).toNat < (ctl.sreg 3).toNat ∧ ¬(ctl.sreg 3).toNat < (ctl.sreg 4).toNat ∧
    ¬(ctl.sreg 4).toInt ≤ (ctl.sreg 3).toInt ∧ ¬(ctl.sreg 3).toNat ≤ (ctl.sreg 4).toNat :=
  ⟨onC_of (by decide +kernel), onC_of (by decide +kernel), by decide +kernel⟩

/-- Of CheckedAddress: sums 0 and 0xBFFFF within the Pocket, -1 and 0xC0000 outside. -/
theorem wit_CheckedAddress :
    (ctl.sreg 0).toInt + (0 : BitVec 16).toInt = 0 ∧ (ctl.sreg 7).toInt + (0 : BitVec 16).toInt = 0xBFFFF ∧
    (ctl.sreg 0).toInt + (0xFFFF : BitVec 16).toInt = -1 ∧ (ctl.sreg 7).toInt + (1 : BitVec 16).toInt = 0xC0000 := by
  decide +kernel

/-- Of Loops: the next level with a limit that is not 0 and one that is; no level left; the innermost level going on (5 of 10
with stride 2) and at its end (10 of 10); levels that are neither. -/
theorem wit_Loops :
    let u := ctl.mySeq.loops
    let deep := (ctl.modMySeq fun q => { q with loops := { twoLoops with depth := 6 } }).mySeq.loops
    let one := (ctl.modMySeq fun q => { q with loops := { twoLoops with depth := 1 } }).mySeq.loops
    u.depth = 2 ∧ (ctl.sreg 3).setWidth 32 ≠ (0 : W32) ∧ (ctl.sreg 5).setWidth 32 = (0 : W32) ∧ deep.depth = 6 ∧
    0 + 1 = one.depth ∧ (one.level 0).k.toNat + (one.level 0).str < (one.level 0).lim.toNat ∧
    1 + 1 = u.depth ∧ (u.level 1).lim.toNat ≤ (u.level 1).k.toNat + (u.level 1).str ∧ 2 + 1 ≠ u.depth ∧ 0 ≠ u.depth := by
  decide +kernel

/-- ADD, or whatever `ws` holds, at pc 0 in the body of an open level of one pass after the first. -/
def looping (v : Level) (ws : List W32) (bad : List Nat) : State := (atC ws []).modMe fun x =>
  { x with monSection := { words := ws, bad := bad },
           c := { x.c with loops := ⟨(Vector.replicate 6 (level 0 0 1)).set 0 { v with start := 0 }, 1⟩ } }

/-- Of SkippedInstructions and FrameRegisters: the first and the last instruction of a body, an empty body, a loop instruction, and
an instruction whose second word has an error; at a boundary with a fault pending and without. -/
theorem wit_SkippedInstructions :
    let first := { level 1 9 1 with fo := true, fin := 0x200 }
    let s := looping first [0x00632020] []
    let t := (inTask s).modMe fun x => { x with ownMonitor := true, pending := [{ cause := 0x1A, eval := 8, eng := 1, ipc := 0, str := .c, cmd := 1, found := 0 }] }
    s.flagged = true ∧ Issues s ∧ s.agenda = [] ∧ (looping { level 0 9 1 with lo := true, fin := 4 } [0x00632020] []).flagged = true ∧
    (looping { first with fin := 0 } [0x00632020] []).flagged = false ∧
    okIs (decodeRow .c s.curWord) (fun r => okIs (r.instr s.curWord []) fun i => !isLoopInstr i) = true ∧
    (t.stream = .c ∧ t.taskMode = true ∧ t.me.pending ≠ []) ∧
    rawLength .c 0xECA0FFE0 = 8 ∧ (looping first [0xECA0FFE0, 0] [1]).fetchSection.bad.contains 1 = true ∧
    Instr.scalarDest (.div 3 1 2) = some 3 ∧ (atC [] []).stream = .c ∧ ∃ t, exec (.div 3 1 2) (atC [] []) = .next t :=
  ⟨by decide +kernel, issues_of (by decide +kernel) (by decide +kernel), by decide +kernel, by decide +kernel, by decide +kernel,
   by decide +kernel, by decide +kernel, by decide +kernel, by decide +kernel, rfl, by decide +kernel, next_ex (by decide +kernel)⟩

/-- Of SpecialRegisterMoves: an unassigned number, one denied in task mode, one read and written, one read only, and the two
halves of the table entry. -/
theorem wit_SpecialRegisterMoves :
    OnC ctl ∧ ctl.tableFree false .plain [(ctl.me.ftix.toNat, 15)] ∧ ctl.tableFree true .plain [(ctl.me.ftix.toNat, 15)] ∧
    sprModes 0x34 = none ∧ sprModes 0x7F = none ∧
    (sprModes 0x10).map Prod.fst = some .denied ∧ (inTask ctl).taskMode = true ∧
    (sprModes 0x01).map Prod.snd = some .readWrite ∧ ctl.taskMode = false ∧ (sprModes 0x00).map Prod.snd = some .readOnly ∧
    (sprModes 0x1D).isSome = true ∧ (sprModes 0x1E).isSome = true :=
  ⟨onC_of (by decide +kernel), made_ex (by decide +kernel), made_ex (by decide +kernel), by decide +kernel⟩

/-- Of MonitorRegistersKept: MTSR to tvec in task mode is a next state, that of its trap. -/
theorem wit_MonitorRegistersKept :
    (inTask ctl).stream = .c ∧ (inTask ctl).taskMode = true ∧ ∃ t, exec (.mtsr 3 0x10) (inTask ctl) = .next t :=
  ⟨by decide +kernel, by decide +kernel, next_ex (by decide +kernel)⟩

/-- A running gang task of shuttles 0 and 1. -/
def gangTask : Task :=
  { tid := 1031, lid := 1030, index := 0, ts := 5, queue := 3, gang := true, dual := false, ordered := false, share := 1,
    img := 0x7000, slv := 1, blt := 0, carry := none, shape0 := 0, shape1 := 0, cond := 0, preds := 0, untaken := false,
    edges := [{ succ := 1, cond := false, pol := false }], slots := [0], stat := .running, args := Vector.replicate 4 0,
    shuttles := [0, 1], places := [0, 1], ended := [], sbase := 0, bbase := 0,
    stages := Vector.replicate 2 { writes := [], reads := [] }, table := [], committing := false, performed := false,
    bound := false, bars := Vector.replicate 4
      { phase := 0, arr := Vector.replicate 2 0, del := Vector.replicate 2 0, pst := Vector.replicate 2 none, made := [0, 0],
        brk := false, carries := Vector.replicate 2 [], passed := [] },
    ckmark := none, flags := Vector.replicate 2 0, mismatches := 0, avoid := [], held := none, ranges := [], wrote := [],
    reserved := false, saved := false, guarded := false }

def launchWith (groups : List Group) : Launch :=
  { lid := 1030, queue := 3, pid := 6, graph := 0, tsbase := 0, argp := 0, gtab := 0, groups := groups, hash := 5, places := [],
    out := [], card := none, g0 := [], recording := none, ordinal := none, failed := false,
    stopped := false, image := [] }

/-- Shuttles 0 and 1 run the gang task, whose group configures its barriers with `b`. -/
def inGang (b : BitVec 8) (s : State) : State :=
  { ((inTask s).modMe fun x => { x with task := some (1031, 0), rwin := 0x82 }).modShuttle 1
      (fun x => { x with task := some (1031, 1) }) with
    tasks := [gangTask], launches := [launchWith [{ members := [0, 1], oneLoom := true, onePanel := true, bcfg := b }]] }

/-- Of SpecialRegisterWrites: a stream stopped and one not; a window of another member of the gang opened. -/
theorem wit_SpecialRegisterWrites :
    let s := State.reset.modMe fun x => { x with sstp := 1 }
    s.me.sstp.getLsbD 0 = true ∧ State.reset.me.sstp.getLsbD 0 = false ∧ s.stream = .c ∧
    ((inGang 0 ctl).writeSpr 0x21 0xFF).me.rwin.getLsbD 1 = true := by decide +kernel

/-- Of PocketAddresses: the ends of the own Pocket, and the window of shuttle 1. -/
theorem wit_PocketAddresses :
    let s := inGang 0 ctl
    (s.shuttle 0).rwin.getLsbD 1 = true ∧ s.sameGang 0 (loomMate 0 1) = true ∧
    s.pocketAddr 0 0xBFFFF = some (0, 0xBFFFF) ∧ s.pocketAddr 0 0xC0000 = none ∧ s.pocketAddr 0 0x200010 = some (1, 0x10) := by decide +kernel

theorem done_and {e : Eff} {P : State → Prop} (h : isMade (fun _ => e) = true) (hp : P (madeOf fun _ => e)) :
    ∃ s1, e = .done s1 ∧ P s1 := by
  have := made_of (op := fun _ => e) h
  exact ⟨_, this, hp⟩

def memOf (l : List (Nat × Nat)) : List Host.Cell := l.foldl (fun m c => memStore m c.1 (leBytes 8 c.2)) []

def mapped (q : Nat) : Queue :=
  { q := q, agent := 1500, slot := some 2, eff := 0, widx := 40, ridx := 0, cidx := 0,
    cur := { pos := 0, levels := [], loop := none, skip := (0, 0) }, ahead := [], num := 6, pkts := [], pendAt := 0,
    ageAt := 0, marked := none, slotGone := false }

/-- The package set up: one range over memory from 0 that may be read and written, and queue 3 with its control block. -/
def world (l : List (Nat × Nat)) : State :=
  { State.reset with
    dev := [(0, 0x10000), (8, 1), (0x10000, 0x20000), (0x10008, 32), (0x10010, 10), (0x40008, 0xFF3C3C3C3C), (0x40020, 3200),
            (0x40028, 0xFA00000)],
    mem := memOf ([(0x10000, 0), (0x10008, 0x100_0000_040F), (0x10010, 0), (0x10018, 0), (0x20018, 0x21001), (0x21000, 0x30000),
                   (0x21008, 0x10006), (0x21010, 40), (0x5000, 77), (0x5008, 5)] ++ l),
    queues := [mapped 3] }

/-- A differentiable region of FP32 at bytes 0x80 to 0x9F with its shadow at 0x200, and a tape at 0x5000 with one record, of
a store to 0x80. -/
def taped (back : Bool) : State :=
  (world [(0x5040, 0x0100000100000000), (0x5048, 0x80), (0x5050, 2), (0x5058, 9)]).modMe fun x =>
    { x with dpr := x.dpr.set 0 0x0008010000080010, sregs := x.sregs.set 4 0x80,
             c := { x.c with status := if back then 0x10000 else 0, dtb := 0x5000, dtp := 0x800000002 } }

def tapeRec : List Byte := tapeHeader 1 1 0x80 2 9

/-- Of ScalarLoads and ScalarStores: the ends of the Pocket and beyond, no region, an error in a cell; a region of the width and
of another one, forwards and backwards. -/
theorem wit_ScalarLoads :
    OnC ctl ∧ OnC (taped false) ∧ OnC (taped true) ∧ ctl.cellsFree false .plain ctl.ownExt [0] ∧
    ctl.cellsFree true .plain ctl.ownExt [0xBFFF8] ∧
    (∃ s1, Made (withPlaces (taped true) false .plain [cellOf ((taped true).placeOf 0x80)]) s1 ∧
      s1.placesFree true contributes (shadowLocs (pocketPlace 0 0x200))) ∧ ctl.pocketAt 0 0 ≠ none ∧ ctl.pocketAt 0 0xBFFF8 ≠ none ∧
    ctl.pocketAt 0 (-8) = none ∧ ctl.pocketAt 0 0xC0000 = none ∧ (1 : Int) % 8 ≠ 0 ∧ ctl.badCell (ctl.placeOf 0) = false ∧
    ({ ctl with bad := [cellOf (ctl.placeOf 0)] } : State).badCell (ctl.placeOf 0) = true ∧
    ctl.reversed = false ∧
    ctl.regionOfEa 0 = none ∧ (taped true).reversed = true ∧ (taped true).regionOfEa 0x78 = none ∧
    (taped false).reversed = false ∧ ((taped false).regionOfEa 0x80).map (fun r => r.1.w) = some 4 :=
  ⟨onC_of (by decide +kernel), onC_of (by decide +kernel), onC_of (by decide +kernel), made_ex (by decide +kernel),
   made_ex (by decide +kernel), made_and (by decide +kernel) (made_ex (by decide +kernel)), by decide +kernel⟩

theorem wit_ScalarStores :
    (∃ s1, Made (withCells (taped false) true .plain (taped false).ownExt [0x80]) s1 ∧
      ∃ s2, Made (pushRecord s1 (tapeHeader 1 1 0x80 2 0)) s2) ∧
    ∃ s1, popRecord (taped true) 1 64 (scalarKeyOf (tapeHeader 1 1 0x80 2 0)) scalarKeyOf
        (fun e bs => if bs = tapeRec then .done e else .trap 0 0) = .done s1 ∧
      s1.placesFree true .plain (shadowLocs (pocketPlace 0 0x200) ++ [cellOf ((taped true).placeOf 0x80)]) :=
  ⟨made_and (by decide +kernel) (made_ex (by decide +kernel)), done_and (by decide +kernel) (made_ex (by decide +kernel))⟩

/-- Of FrameLoadsStores: a store and a load outside regions that answer next states. -/
theorem wit_FrameLoadsStores :
    ctl.stream = .c ∧ ctl.reversed = false ∧ ctl.regionOfEa 0 = none ∧ (∃ t, exec (.std 3 0 0) ctl = .next t) ∧
    ∃ t, exec (.ldd 3 0 0 false) ctl = .next t :=
  ⟨by decide +kernel, by decide +kernel, by decide +kernel, next_ex (by decide +kernel), next_ex (by decide +kernel)⟩

/-- Of ControlQueues: queues with room (15 entries) and full (16), S,C with an entry and empty, and a counter at and above
the register's value. -/
theorem wit_ControlQueues :
    OnC busy ∧ (busy.me.inbound .l).length < 16 ∧
    16 ≤ ((busy.modMe fun x => { x with qCL := List.replicate 16 (scalarEntry 0) }).me.inbound .l).length ∧
    ((busy.modMe fun x => { x with qCL := List.replicate 15 (scalarEntry 0) }).me.inbound .l).length < 16 ∧
    busy.me.qSC = scalarEntry 1 :: [] ∧ State.reset.me.qSC = [] ∧ State.reset.me.count 1 ≤ (State.reset.sreg 0).toNat ∧
    (State.reset.sreg 0).toNat < (busy.modMe fun x => { x with cc := x.cc.set 1 1 }).me.count 1 :=
  ⟨onC_of (by decide +kernel), by decide +kernel⟩

/-- Of TokenConditions: a stream whose conditions hold, with every bit of the word and with none, and one whose do not. -/
theorem wit_TokenConditions :
    onL.stream ≠ .c ∧ onL.me.tokensReady .l 15 = true ∧ onX.me.tokensReady .x 0 = true ∧
    ({ State.reset with cur := (0, .x) } : State).stream = .x ∧ ({ State.reset with cur := (0, .x) } : State).mySeq.taken = none ∧
    State.reset.me.tokensReady .x 8 = false ∧ OnT onL onL.stream 15 :=
  ⟨by decide +kernel, by decide +kernel, by decide +kernel, by decide +kernel, by decide +kernel, by decide +kernel,
   onT_of (by decide +kernel)⟩

/-- Of AddressStreams and StreamLoops: entries in the inbound queue and none, room in S,C and none, a counter at and above the
number, the next level, one that is not, and all levels open. -/
theorem wit_AddressStreams :
    OnT onL .l 15 ∧ OnT onS .s 10 ∧ onL.me.inbound .l = scalarEntry 0x100000003 :: scalarEntry 7 :: [scalarEntry 9] ∧
    State.reset.me.inbound .l = [] ∧ onL.me.qSC.length < 16 ∧
    16 ≤ (onL.modMe fun x => { x with qSC := List.replicate 16 (scalarEntry 0) }).me.qSC.length ∧ onL.mySeq.held = [] ∧
    (3 : BitVec 8).toNat ≤ (onL.me.inbound .l).length ∧ onL.me.count ((2 : BitVec 5).setWidth 3) ≤ (0 : BitVec 8).toNat ∧
    (0 : BitVec 8).toNat < (onL.modMe fun x => { x with cc := x.cc.set 2 1 }).me.count ((2 : BitVec 5).setWidth 3) ∧
    (onS.me.inbound .s).length < 2 ∧ (onL.me.inbound .l).length < (5 : BitVec 8).toNat :=
  ⟨onT_of (by decide +kernel),
   onT_of (by decide +kernel), by decide +kernel⟩

theorem wit_StreamLoops :
    OnT onX .x 15 ∧ (2 : BitVec 4).toNat = onX.mySeq.loops.depth ∧ onX.me.inbound .x = scalarEntry 5 :: [scalarEntry 0x2000000005] ∧
    State.reset.me.inbound .x = [] ∧ (1 : BitVec 4).toNat ≠ onX.mySeq.loops.depth ∧
    (onX.modMySeq fun q => { q with loops := { twoLoops with depth := 6 } }).mySeq.loops.depth = 6 ∧
    (1 : BitVec 4).toNat + 1 = onX.mySeq.loops.depth ∧ (2 : BitVec 4).toNat + 1 ≠ onX.mySeq.loops.depth :=
  ⟨onT_of (by decide +kernel), by decide +kernel⟩

/-- Of VectorQueuesAndShape: queues with room, full, with an entry and empty. -/
theorem wit_VectorQueuesAndShape :
    let e : VEntry := { val := 77, know := Know.none }
    OnT onL .l 0 ∧ OnT onX .x 9 ∧ OnT onS .s 15 ∧ onL.me.qLX.length < 8 ∧
    8 ≤ (onL.modMe fun x => { x with qLX := List.replicate 8 e, qXS := List.replicate 8 e }).me.qLX.length ∧
    (onL.popped 0).vregsFree [3] [] ∧ onX.me.qLX = e :: [] ∧
    (((onX.popped 9).modMe fun x => { x with qLX := [] }).modMySeq fun q => q.learnOrder e.know).vregsFree [] [3] ∧
    onS.me.qXS = [] ∧ onX.mySeq.held = [] ∧ (1 : BitVec 4).toNat + 1 ≤ onX.me.qCX.length ∧
    onX.me.qCX = scalarEntry 5 :: [scalarEntry 0x2000000005] ∧ State.reset.me.qCX = [] ∧
    onX.me.qCX.length < (2 : BitVec 4).toNat + 1 ∧ (let s := onS.modMe fun x => { x with qXS := [e] }
     s.me.qXS = e :: [] ∧
     (((s.popped 15).modMe fun x => { x with qXS := [] }).modMySeq fun q => q.learnOrder e.know).vregsFree [] [3]) :=
  ⟨onT_of (by decide +kernel),
   onT_of (by decide +kernel),
   onT_of (by decide +kernel), by decide +kernel, by decide +kernel,
   made_ex (by decide +kernel), by decide +kernel, made_ex (by decide +kernel), by decide +kernel, by decide +kernel,
   by decide +kernel, by decide +kernel, by decide +kernel, by decide +kernel, by decide +kernel, made_ex (by decide +kernel)⟩

/-- Of ExactSums and ExactArithmetic: two orders of contributions; finite values, the least and greatest of FP32 among them. -/
theorem wit_ExactSums :
    [((.fin false 1 0 : FVal), (0 : W64)), (.nan true, 0)].Perm [(.nan true, 0), (.fin false 1 0, 0)] ∧
    (floatValue .fp32 0).finite = true ∧ (floatValue .fp32 0xFF7FFFFF).finite = true ∧ (floatValue .fp32 1).finite = true :=
  ⟨List.Perm.swap _ _ _, by decide, by decide, by decide⟩

/-- X with no mask on its stack and with one that is all zeros, and 16 masks. -/
def noMask : State := onX.modMe fun x => { x with masks := [] }
def zeroMask : State := onX.modMe fun x => { x with masks := [0] }
def fullMasks : State := onX.modMe fun x => { x with masks := List.replicate 16 1 }

/-- Of VectorFloat, VectorCompares, VectorInteger and VectorMoves: a skipped instruction, and one with enabled elements whose
accesses are free; room for a mask and none. -/
theorem wit_vectors :
    OnT onX .x 0 ∧ OnT zeroMask .x 9 ∧ OnT noMask .x 15 ∧ OnT fullMasks .x 0 ∧ zeroMask.me.uniformSkip = true ∧
    noMask.me.uniformSkip = false ∧ onX.me.uniformSkip = false ∧ (noMask.popped 15).vregsFree [4, 5] [3] ∧
    (∃ s1, Made (withVregs (noMask.popped 0) [4] [3]) s1 ∧ s1.tableFree false .plain [(noMask.me.xEntry.1, 15)]) ∧
    fullMasks.me.masks.length = 16 ∧ onX.me.masks.length < 16 ∧ (fullMasks.popped 0).vregsFree [4, 5] [] :=
  ⟨onT_of (by decide +kernel),
   onT_of (by decide +kernel),
   onT_of (by decide +kernel),
   onT_of (by decide +kernel), by decide +kernel, by decide +kernel, by decide +kernel,
   made_ex (by decide +kernel), made_and (by decide +kernel) (made_ex (by decide +kernel)), by decide +kernel,
   by decide +kernel, made_ex (by decide +kernel)⟩

/-- Of BroadcastsAndMasks. -/
theorem wit_BroadcastsAndMasks :
    OnT noMask .x 0 ∧ State.reset.me.qCX = [] ∧ zeroMask.me.qCX = scalarEntry 5 :: [scalarEntry 0x2000000005] ∧
    zeroMask.me.uniformSkip = true ∧ noMask.me.uniformSkip = false ∧
    (∃ s1, popScalar (noMask.popped 0) (fun z _ => withVregs z [] [3] .done) = .done s1) ∧
    (noMask.popped 0).vregsFree [4] [3, 4] ∧ (noMask.popped 0).vregsFree [4, 5] [3] ∧ (noMask.popped 0).vregsFree [4] [] ∧
    (noMask.popped 0).vregsFree [] [3] ∧ noMask.me.masks = [] ∧ zeroMask.me.masks = 0 :: [] ∧
    fullMasks.me.masks.length = 16 ∧ (fullMasks.popped 0).vregsFree [4] [] :=
  ⟨onT_of (by decide +kernel), by decide +kernel, by decide +kernel, by decide +kernel,
   by decide +kernel, done_ex (by decide +kernel), made_ex (by decide +kernel), made_ex (by decide +kernel),
   made_ex (by decide +kernel), made_ex (by decide +kernel), by decide +kernel, by decide +kernel, by decide +kernel,
   made_ex (by decide +kernel)⟩

/-- Of Reductions and ExtremesAndCaptures: numbers in v4 and none in v31, which holds NaNs; a table that may be read and its
ring written. -/
theorem wit_Reductions :
    let s := noMask.modMe fun x => { x with vregs := x.vregs.set 31 (vectorOf fun _ => 0x7FC00000) }
    let fx := s.me.xEntry.1
    OnT s .x 0 ∧ s.me.uniformSkip = false ∧ zeroMask.me.uniformSkip = true ∧
    (∃ s1, Made (withVregs (s.popped 0) [4, 5] [3]) s1 ∧ s1.tableFree false .plain [(fx, 15)]) ∧
    ((s.me.segment 4 0 0).map (srcValue s 0 31)).filter (fun v => !v.isNan) = [] ∧
    ((s.me.segment 4 0 0).map (srcValue s 0 4)).filter (fun v => !v.isNan) ≠ [] ∧
    (∃ s1, Made (withVregs (s.popped 0) [4] []) s1 ∧
      s1.tableFree true .capture [(fx, entryHd (s.me.entry fx).bits)]) ∧
    ∃ s1, Made (withVregs (s.popped 0) [] []) s1 ∧
      ∃ s2, Made (withTable s1 false .plain ((List.range 12).map fun y => (fx, y))) s2 ∧
        s2.tableFree true .plain [(fx, (entryHd (s.me.entry fx).bits + 1) % 12), (fx, 15)] :=
  ⟨onT_of (by decide +kernel), by decide +kernel, by decide +kernel,
   made_and (by decide +kernel) (made_ex (by decide +kernel)), by decide +kernel, by decide +kernel,
   made_and (by decide +kernel) (made_ex (by decide +kernel)),
   made_and (by decide +kernel) (made_and (by decide +kernel) (made_ex (by decide +kernel)))⟩

/-- Of RowReads: row 63 with nothing on record. -/
theorem wit_RowReads :
    let loc := tileLoc 0 3 63
    OnT noMask .x 0 ∧ noMask.bad.contains loc = false ∧ noMask.mats = [] ∧
    (∃ s1, Made (withVregs (noMask.popped 0) [] [31]) s1 ∧
      ∃ s2, Made (withTable s1 false .plain [(noMask.me.xEntry.1, 15)]) s2 ∧
        ∃ s3, Made (withTag s2 loc (tileEval 3 63) true .plain (.set [0])) s3) ∧
    ∃ s1, Made (withVregs (noMask.popped 0) [] [31, 0]) s1 ∧
      ∃ s3, Made (withTag s1 loc (tileEval 3 63) false .plain (.set [0])) s3 :=
  ⟨onT_of (by decide +kernel), by decide +kernel, by decide +kernel,
   made_and (by decide +kernel) (made_and (by decide +kernel) (made_ex (by decide +kernel))),
   made_and (by decide +kernel) (made_ex (by decide +kernel))⟩

/-- Stream L in a differentiable region of FP32 at bytes 0 to 7 with its shadow at 0x2000, its tape at 0x40000, and
there one record of a store by indexes of 0. -/
def tapedL (back : Bool) : State :=
  let s := { (world []).modMe (fun x =>
    { x with dpr := x.dpr.set 0 (BitVec.ofNat 64 (2 ^ 17 + 0x400 * 2 ^ 34 + 2 ^ 51)),
             c := { x.c with status := 0 },
             l := { x.l with run := .running, status := if back then 0x10000 else 0, dtb := 0x40000,
                             dtp := if back then 0x4000000011 else 0x4000000000 } }) with cur := (0, .l) }
  let bs := vectorRecord (vecAddrs s 4 3 2 0) (List.replicate 64 0)
  if back then
    { s with mem := s.mem ++ ((bs.zip (List.range 1088)).map fun p => (0x40000 + p.2, p.1)).filter fun c => c.2 ≠ 0 }
  else s

/-- Of VectorLoads and VectorStores: an access within the Pocket, one that leaves it and one transposed in a region of another
width; forwards and backwards, with a region and without. -/
theorem wit_VectorLoads :
    let s := tapedL false
    let b := tapedL true
    let eas := vecAddrs onL 4 3 0 2
    let wild := vecAddrs onL 4 3 0 0x83
    let in_ := vecAddrs s 4 3 0 0
    OnT onL .l 0 ∧ OnT s .l 0 ∧ OnT b .l 0 ∧
    (∃ s0, Made (withIndex (onL.popped 0) (vecForm true true 0) 4) s0 ∧
      ∃ s1, Made (withVregs s0 [] [4]) s1 ∧ s1.cellsFree false .plain onL.ownExt eas) ∧
    (onL.popped 0).vregsFree [5, 4] [4] ∧ (s.popped 0).vregsFree [4] [4] ∧ (b.popped 0).vregsFree [] [] ∧
    (∃ s0, Made (withIndex (b.popped 0) (vecForm false false 0) 4) s0 ∧ ∃ s1, Made (withVregs s0 [4] []) s1 ∧ ∃ s2, vecContribute s1 4 false (vecAddrs b 4 3 0 0) = .done s2) ∧
    onL.pocketFault 8 eas = none ∧ onL.pocketFault 8 wild ≠ none ∧
    s.pocketFault 8 in_ = none ∧ s.trShape true in_ = true ∧ s.trShape false in_ = false ∧ onL.reversed = false ∧
    b.reversed = true ∧ b.anyDiff (vecAddrs b 4 3 0 0) = true ∧ b.anyDiff (vecAddrs b 4 3 0 4) = false :=
  ⟨onT_of (by decide +kernel), onT_of (by decide +kernel), onT_of (by decide +kernel),
   made_and (by decide +kernel) (made_and (by decide +kernel) (made_ex (by decide +kernel))),
   made_ex (by decide +kernel), made_ex (by decide +kernel), made_ex (by decide +kernel),
   made_and (by decide +kernel) (made_and (by decide +kernel) (done_ex (by decide +kernel))), by decide +kernel⟩

/-- Of the gradient loads: an aligned address with 128 cells in the Pocket. -/
theorem wit_VectorLoads_gradients :
    let base := (onL.areg 3).toInt
    let cells := ((List.range 128).map fun (j : Nat) => base + 16 * (j : Int)).flatMap fun ea => [ea, ea + 8]
    base % 16 = 0 ∧ onL.pocketFault 8 cells = none ∧
    (∃ s1, Made (withVregs (onL.popped 0) [] [4]) s1 ∧ s1.cellsFree false .plain onL.ownExt cells) ∧
    ∃ s1, Made (withVregs (onL.popped 0) [] [4]) s1 ∧ s1.cellsFree true .plain onL.ownExt cells :=
  ⟨by decide +kernel, by decide +kernel, made_and (by decide +kernel) (made_ex (by decide +kernel)),
   made_and (by decide +kernel) (made_ex (by decide +kernel))⟩

/-- The record that the store makes, with no old values. -/
def storeRec (olds : List Nat) : List Byte := vectorRecord (vecAddrs (tapedL true) 4 3 2 0) olds

theorem wit_VectorStores :
    let s := tapedL false
    let eas := vecAddrs s 4 3 0 0
    s.anyDiff eas = true ∧
    ∃ s0, Made (withIndex (s.popped 0) (vecForm false false 0) 4) s0 ∧
      ∃ s1, Made (withVregs s0 [4] []) s1 ∧ ∃ s2, Made (withCells s1 true .plain s.ownExt eas) s2 ∧
      ∃ s3, Made (pushRecord s2 (vectorRecord eas (vecWrite s (s.vreg 4) (eas.zip (List.range 64))).2)) s3 := by
  refine ⟨by decide +kernel, ?_⟩
  refine made_and (by decide +kernel) ?_
  refine made_and (by decide +kernel) ?_
  refine made_and (by decide +kernel) ?_
  exact made_ex (by decide +kernel)

/-- The locations that the store writes backwards. -/
def storeLocs : List Nat :=
  (vecAddrs (tapedL true) 4 3 2 0).flatMap fun ea =>
    ((tapedL true).cellElems ea).flatMap (fun e => shadowLocs e.1) ++
      (if ((tapedL true).regionOfEa ea).isSome then [cellOf ((tapedL true).placeOf ea)] else [])

def takesBack (s1 : State) : Eff :=
  popRecord s1 17 576 (vectorKeyOf (storeRec [])) vectorKeyOf fun e bs => if bs = storeRec (List.replicate 64 0) then .done e else .trap 0 0

theorem chain_of {e : Eff} {w : Bool} {k : AccKind} {l : List Nat}
    (h : (match e with
      | .done s => isMade (withPlaces s w k l)
      | _ => false) = true) : ∃ s, e = .done s ∧ s.placesFree w k l := by
  split at h
  · exact ⟨_, rfl, made_ex h⟩
  · exact absurd h (by decide)

theorem wit_VectorStores_back :
    let eas := vecAddrs (tapedL true) 4 3 2 0
    (tapedL true).pocketFault 8 eas = none ∧ (tapedL true).anyDiff eas = true ∧
    ∃ s0, Made (withIndex ((tapedL true).popped 0) (vecForm false false 2) 4) s0 ∧
      ∃ s1, Made (withVregs s0 [] [4]) s1 ∧ ∃ s2, takesBack s1 = .done s2 ∧ s2.placesFree true .plain storeLocs :=
  ⟨by decide +kernel, by decide +kernel, made_and (by decide +kernel) (made_and (by decide +kernel) (chain_of (by decide +kernel)))⟩

theorem calm_of {s : State} (h : s.tags = [] ∧ s.bad = [] ∧ s.lines = [] ∧ s.awayLines = [] ∧ s.reversed = false)
    (t : (s.taskAt s.here).all (fun t => decide (t.table = []) && !t.dual) = true) : Calm s := by
  refine ⟨h.1, h.2.1, h.2.2.1, h.2.2.2.1, h.2.2.2.2, fun u hu => ?_⟩
  simp [hu] at t
  exact t

theorem matReady_of {s : State} {h : Hdr} {use : Option FmtUse} {ops : List MOperand} (c : OnC s) (k : Calm s)
    (r : Roomy s h.cc h.aq h.rl h.sc.toNat) (q : s.queueHeld s.here < 16)
    (o : ops.all (fun o => decide (o.p.toNat % 8 = 0 ∧ o.q % 8 = 0) && (s.operandOut s.here o).isNone) = true)
    (n : use.all (fun u => u.snap.all fun p => decide (p.toNat % 16 = 0) &&
      (s.operandOut s.here { p := p, q := 0, outer := 1, inner := 16 }).isNone) = true) : MatrixReady s h use ops := by
  refine ⟨c, k, r, q, fun x hx => ?_, fun u p hu hp => ?_⟩
  · simp [List.all_eq_true] at o
    exact ⟨(o x hx).1.1, (o x hx).1.2, (o x hx).2⟩
  · simpa [hu, hp] using n

/-- Operands of matrix commands: dimensions 5, 3 and 4, the strides 64, and dimensions that are refused. -/
def mat : State := busy.modMe fun x =>
  { x with sregs := (((((Vector.ofFn fun i => BitVec.ofNat 64 (64 * i.val)).set 8 0x0000004000000040).set 9 0x03050004).set 10
      0x01010001).set 11 0x40400000).set 12 0x41414001 |>.set 13 0x0000004100000040 }

def hdr : Hdr := { cc := 2, wt := 3, sg := 31, aq := true, rl := false, sc := 5 }

theorem onC_mat : OnC mat := onC_of (by decide +kernel)
theorem calm_mat : Calm mat := calm_of (by decide +kernel) (by decide +kernel)
theorem roomy_mat : Roomy mat hdr.cc hdr.aq hdr.rl hdr.sc.toNat := ⟨by decide +kernel, by decide +kernel, by decide +kernel⟩

/-- Of MatrixCommands. The least dimensions are 1 and the greatest 64; 0 and 65 are refused. -/
theorem wit_MatrixCommands :
    let u := mat.fmtUse 3 0 true 0
    let ab := settlePair (mat.source 0 u.entry u.snap)
    MatrixReady mat hdr none [] ∧
    MatrixReady mat hdr (some u)
      [{ p := mat.sreg 5, q := 64, outer := 5, inner := 4 * ab.1.width },
       { p := mat.sreg 4, q := 64, outer := 4, inner := 3 * ab.2.1.width }] ∧
    MatrixReady mat hdr none [rowsOperand (mat.sreg 5) 64 64 3 true 16] ∧
    bitsOf (mat.sreg 9) 0 16 = 4 ∧ dimM (mat.sreg 9) = 5 ∧ dimN (mat.sreg 9) = 3 ∧
    bitsOf (mat.sreg 10) 0 16 = 1 ∧ dimM (mat.sreg 10) = 1 ∧ dimN (mat.sreg 10) = 1 ∧
    bitsOf (mat.sreg 11) 0 16 = 0 ∧ dimM (mat.sreg 11) = 64 ∧ dimN (mat.sreg 11) = 64 ∧
    bitsOf (mat.sreg 12) 0 16 ≠ 0 ∧ dimM (mat.sreg 12) = 65 ∧ dimN (mat.sreg 12) = 65 ∧
    ([((mat.sreg 5).toNat, 8), (0x41, 8)].find? fun x => decide (x.1 % x.2 ≠ 0)) = some (0x41, 8) ∧ 1 ≤ bitsOf (mat.sreg 8) 32 7 ∧ bitsOf (mat.sreg 8) 32 7 ≤ 64 ∧ ¬bitsOf (mat.sreg 13) 32 7 ≤ 64 ∧
    (mat.sreg 5).toNat % 16 = 0 ∧ (mat.sreg 9).toNat % 16 ≠ 0 ∧ mat.queueHeld 0 < 16 :=
  ⟨matReady_of onC_mat calm_mat roomy_mat (by decide +kernel) (by decide +kernel) (by decide +kernel),
   matReady_of onC_mat calm_mat roomy_mat (by decide +kernel) (by decide +kernel) (by decide +kernel),
   matReady_of onC_mat calm_mat roomy_mat (by decide +kernel) (by decide +kernel) (by decide +kernel), by decide +kernel⟩

/-- Bytes of a Pocket word. -/
def inPlace (a v n : Nat) : List Host.Cell :=
  (((leBytes n v).zip (List.range n)).map fun p => (2 ^ 60 + a + p.2, p.1)).filter fun c => c.2 ≠ 0

/-- A tile descriptor at Pocket address 0x1000. -/
def descAt (src dst sstr dstr rows rlen aux : Nat) : List Host.Cell :=
  inPlace 0x1000 src 8 ++ inPlace 0x1008 dst 8 ++ inPlace 0x1010 sstr 8 ++ inPlace 0x1018 dstr 8 ++ inPlace 0x1020 rows 4 ++
    inPlace 0x1024 rlen 4 ++ inPlace 0x1028 aux 8

/-- With the descriptor's address in a4 of L, and addresses that are misaligned or outside. -/
def moving (m : List Host.Cell) : State :=
  { mat.modMe (fun x => { x with sgnt := grantOf 0x10000 0x10000, aL := ((x.aL.set 4 0x1000).set 5 0x1008).set 6 0xC0000 }) with
    mem := m }

theorem moveReady_of {s : State} {kind : MoveKind} {elem da : Nat}
    (h : (let bs := memBytes s.mem (pocketPlace s.here da) 64
          let d := tileDesc bs
          let src := d.source kind
          let dst := d.dest kind elem
          decide (da % 64 = 0) && decide (da < 0xC0000) && (s.tileError s.stream kind elem bs == false) && decide (d.ctl < 4) &&
          (decide (kind = .fill) || src.indexed || (s.operandFault s.here src .read).isNone) &&
          (dst.indexed || (s.operandFault s.here dst .write).isNone) &&
          (!kind.usesIndex || (s.listFault s.here d.aux d.rows).isNone) && (s.diffWidthOf s.here src).isNone &&
          (s.diffWidthOf s.here dst).isNone && !s.operandFar s.here d.aux src false && !s.operandFar s.here d.aux dst true &&
          (s.taskAt s.here).isNone) = true) :
    MoveReady s kind elem da := by
  simp only [Bool.and_eq_true, Bool.or_eq_true, decide_eq_true_eq, beq_iff_eq, Bool.not_eq_true', Option.isNone_iff_eq_none] at h
  obtain ⟨⟨⟨⟨⟨⟨⟨⟨⟨⟨⟨h1, h2⟩, h3⟩, h4⟩, h5⟩, h6⟩, h7⟩, h8⟩, h9⟩, h10⟩, h11⟩, h12⟩ := h
  refine ⟨h1, h2, h3, fun hc => absurd h4 (by omega), fun hk hs => ?_, fun hd => ?_, fun hu => ?_, h8, h9, h10, h11,
    by simp [h12]⟩
  · rcases h5 with (h | h) | h
    · exact absurd h hk
    · simp_all
    · exact h
  · rcases h6 with h | h
    · simp_all
    · exact h
  · rcases h7 with h | h
    · simp_all
    · exact h

/-- Of TileMoves: moves between Pocket and Pocket from L, between Pocket and sleeve from C; a gather with its list, a fill;
and what is refused. -/
theorem wit_TileMoves :
    let l := { moving (descAt 0x2000 0x3000 16 32 8 16 0) with cur := (0, .l) }
    let c := moving (descAt 0x2000 0x1000000000010000 16 32 8 16 0)
    OnT l .l 0 ∧ Calm l ∧ Roomy l 2 true false 5 ∧ OnC c ∧ Calm c ∧ Roomy c hdr.cc hdr.aq hdr.rl hdr.sc.toNat ∧
    MoveReady c .mov 0 0x1000 ∧ MoveReady c .movf 0 0x1000 ∧
    MoveReady (moving (descAt 0x2000 0x1000000000010000 16 32 8 16 0x4000)) .gath 0 0x1000 ∧
    MoveReady (moving (descAt 0 0x3000 0 32 8 16 0)) .fill 0 0x1000 ∧ (l.areg 5).toNat % 64 ≠ 0 ∧
    (l.areg 6).toNat % 64 = 0 ∧ 0xC0000 ≤ (l.areg 6).toNat ∧ (l.areg 4).toNat % 64 = 0 ∧ (l.areg 4).toNat < 0xC0000 ∧ 0xC0000 ≤ 64 * (0x3000 : BitVec 14).toNat ∧
    (let e := { moving (descAt 0x2000 0x3000 16 32 8 0 0) with cur := (0, .l) }
     [MoveKind.mov, .gath, .scat, .fill, .movf].all fun k => e.tileError .l k 0 (memBytes e.mem (pocketPlace 0 0x1000) 64) &&
       e.tileError .c k 0 (memBytes e.mem (pocketPlace 0 0x1000) 64)) :=
  ⟨onT_of (by decide +kernel), calm_of (by decide +kernel) (by decide +kernel),
   ⟨by decide +kernel, by decide +kernel, by decide +kernel⟩, onC_of (by decide +kernel),
   calm_of (by decide +kernel) (by decide +kernel), ⟨by decide +kernel, by decide +kernel, by decide +kernel⟩,
   moveReady_of (by decide +kernel), moveReady_of (by decide +kernel), moveReady_of (by decide +kernel),
   moveReady_of (by decide +kernel), by decide +kernel⟩

/-- What an instruction leaves. -/
def left (r : Result) : State :=
  match r with
  | .next s => s
  | _ => State.reset

/-- Of RangeCommands. -/
theorem wit_RangeCommands : OnC mat ∧ Roomy mat hdr.cc hdr.aq hdr.rl hdr.sc.toNat := ⟨onC_mat, roomy_mat⟩

def putDev (a : Nat) (v : W64) (s : State) : State := { s with dev := assocSet a v s.dev }

/-- Communicator 0 of two ranks, this package's panel 0 and panel 1, for queue 3; shuttle 0 runs the oldest task of that
queue, which holds a grant of its bolt. -/
def talking : State :=
  let s := inGang 0 (world [(0x50000, 0x0000010200000002)])
  putDev 0x100000 0x102 (putDev 0x102008 0x50000 (putDev 0x102000 0x8001000000030000
    (s.modMe fun x => { x with bgnt := grantOf 0 0x10000,
                               sregs := (((Vector.replicate 32 0).set 1 0x2000000000000000).set 2 0x2000000000001000).set 3 64 })))

def plainHdr : Hdr := { cc := 2, wt := 31, sg := 31, aq := false, rl := false, sc := 5 }

/-- Of CollectiveCommands, with the least count (1, or 8 where bytes are counted) and a greatest root. -/
theorem wit_CollectiveCommands :
    let s := talking
    let own := (s.rankList 0).getD (s.commRank 0) 0
    let fits (ea : W64) (len : Nat) (need : Perm) : Prop := eaLevel ea = 2 ∧ ea.toNat % 8 = 0 ∧
      s.operandFault 0 { lv := eaLevel ea, base := eaLow ea, str := 0, rows := 1, len := len, indexed := false } need = none
    OnC s ∧ Calm s ∧ Roomy s plainHdr.cc plainHdr.aq plainHdr.rl plainHdr.sc.toNat ∧ s.taskAt 0 = some gangTask ∧
    s.isOldest 1031 = true ∧ gangTask.queue = bitsOf (s.cmcfg 0) 16 16 ∧ (s.cmcfg 0).getLsbD 63 = true ∧
    (s.comm 0).blocked = false ∧ (s.comm 0).noticed = [] ∧ s.commRank 0 < s.commSize 0 ∧ s.commSize 0 = 2 ∧
    rankPkn own = s.pkn ∧ rankDom own = s.dom ∧ bitsOf (s.devReg 0x40008) (8 * (rankPanel own).toNat) 6 ≠ 0 ∧
    s.deadRank (s.rankList 0) = none ∧ s.colls = [] ∧ s.countOf 3 = 64 ∧ fits (s.sreg 1) 256 .read ∧ fits (s.sreg 2) 256 .write ∧
    sendBytes 1 2 0 0 1 4 = 4 ∧ recvBytes 3 2 0 0 8 1 = 16 :=
  ⟨onC_of (by decide +kernel), calm_of (by decide +kernel) (by decide +kernel),
   ⟨by decide +kernel, by decide +kernel, by decide +kernel⟩, by decide +kernel⟩

/-- A list of one element that meets `p`. -/
def only {α : Type} (l : List α) (p : α → Bool) : Bool :=
  match l with
  | [a] => p a
  | _ => false

/-- MZERO accepted, and then worked on; MMA accepted, with nothing left on record. -/
def zeroing : State := left (exec (.mzero plainHdr 15 10 false 3 0) (inTask mat))
def zeroed : State := left (exec (.matrixCommandStart 0 1024) zeroing)
def multiplying : State := { left (exec (.mma plainHdr 1 0 0 false true false false false 1 0 9 8 4 5) mat) with tags := [] }

/-- A tile move accepted, and then run; one that awaits a chunk that nobody asks for. -/
def copying : State :=
  { left (exec (.tcmov plainHdr 0 0x40) (moving (descAt 0x2000 0x1000000000010000 16 32 8 16 0))) with tags := [] }

def splitting : State := left (exec (.rsplit plainHdr 3 2 1) (ctl.modMe fun x => { x with sregs := x.sregs.set 1 0xFFFFF }))
def invalidating : State := left (exec (.rinva plainHdr) ctl)
def invalidated : State := left (exec (.rangeCommandRun 0 1024) invalidating)

/-- Two ranges: 2 MiB at 0, and at entry 1 what `l` holds; s1 names entry 0, s2 is an offset or a new base, s3 an index. -/
def ranging (i : Instr) (s2 : W64) (l : List (Nat × Nat)) : State :=
  left (exec i ((putDev 8 2 (world ((0x10008, 0x40_0000_040F) :: l))).modMe fun x =>
    { x with sregs := (x.sregs.set 2 s2).set 3 5 }))

/-- An accepted range command that may be done. -/
def rangeGoes (s : State) : Bool :=
  Memory.wf s.mem && decide (s.bad = [] ∧ s.outUnits = [] ∧ s.msgs = []) && only s.rangeJobs fun r =>
    decide (s.rangeJobOf 0 1024 = some r ∧ r.job.started = false ∧ r.job.wt = none ∧ r.job.failed = false) &&
    s.mayPerform r.job.task && !(s.rangeJobs.any fun o => o.job.started && onTable o.fn) &&
    decide (s.rangeReason r.fn r.x.toNat r.y.toNat = none)

/-- Of EngineRuns. -/
theorem wit_EngineRuns :
    (∀ s ∈ [zeroing, multiplying], only s.mats (fun m =>
      decide (s.matOf 0 1024 = some m ∧ m.job.started = false ∧ m.row = 0 ∧ s.earlierMats m = []) &&
      decide (m.job.wt = none ∧ m.job.failed = false) && !s.updatesAhead m.job.know &&
      decide (s.tags = [] ∧ s.bad = []) && decide (m.job.win = (s.shuttle 0).rwin) && match m.op with
        | .zero _ a _ => a == some 10
        | .mma _ _ _ _ _ _ _ _ _ _ mm _ => decide (mm ≤ 64)
        | _ => false) = true) ∧
    only zeroed.mats (fun m => m.job.ran && zeroed.mayComplete m.job && decide (m.op ≠ .nop) &&
      decide ((zeroed.shuttle 0).task = m.job.task)) = true ∧
    only copying.moves (fun m =>
      decide (copying.moveOf 0 1024 = some m ∧ m.job.started = false ∧ m.job.wt = none ∧ m.job.failed = false) &&
      decide (m.kind = .mov ∧ m.elem = 0 ∧ m.row = 0 ∧ m.tape = none ∧ m.job.rev = false ∧ m.awaits = [] ∧ m.ending = none) &&
      !copying.updatesAhead m.job.know && decide (copying.tags = [] ∧ copying.bad = [] ∧ copying.outUnits = [] ∧ m.job.task = none) && decide (m.job.win = (copying.shuttle 0).rwin) &&
      decide (eaLevel (tileDesc m.desc).src ≠ 3 ∧ eaLevel (tileDesc m.desc).dst ≠ 3 ∧ (tileDesc m.desc).ctl < 4)) = true ∧
    (let s : State := { copying with moves := copying.moves.map fun m => { m with awaits := [(0, 0)] } }
     only s.moves (fun m => m.awaits.any fun c => !s.resReqs.any fun r => decide ((r.ix, r.ch) = c)) = true) ∧
    (let s := left (exec (.tileMoveRun 0 1024) copying)
     only s.moves (fun m => m.job.ran && s.mayComplete m.job && decide ((s.shuttle 0).task = m.job.task)) = true) ∧
    only splitting.rangeJobs (fun r =>
      decide (splitting.rangeJobOf 0 1024 = some r ∧ r.job.started = false ∧ r.job.wt = none ∧ r.job.failed = false) &&
      !splitting.updatesAhead r.job.know && !(splitting.rangeJobs.any fun o => o.job.started && onTable o.fn) && splitting.mayPerform r.job.task && decide (splitting.rangeReason r.fn r.x.toNat r.y.toNat = some 1 ∧
        (splitting.shuttle 0).task = r.job.task)) = true ∧
    (∀ s ∈ [ranging (.rinv plainHdr 2 1) 0x1000 [], ranging (.rinvx plainHdr 1) 0 [], ranging (.rinva plainHdr) 0 [],
        ranging (.rsplit plainHdr 3 2 1) 0x200000 [], ranging (.rmerge plainHdr 2 1) 9 [(0x10020, 0x40), (0x10028, 0x20_0000_040F),
          (0x10030, 0x40)], ranging (.rpress plainHdr 2 1) 0x1000000 [], ranging (.rres plainHdr 3 2 1) 1 [],
        ranging (.rgena plainHdr 1) 0 []], rangeGoes s = true) ∧
    (let p : Press := { job := 0, ix := 0, base := 0x200000, len := 8192, mark := 4096, phase := .copying }
     let s : State := { world [] with press := some p }
     p.mark < p.len ∧ okIs (s.reach ((s.desc p.ix).pb * 2 ^ 16 + p.mark) ((s.desc p.ix).key + p.mark)) (fun _ => true) = true) ∧
    ({ State.reset with rivBusy := some ⟨1, 0, 4096⟩ } : State).invalidated 1 [(0, 4096)] = true ∧
    only invalidated.rangeJobs (fun r => decide (r.job.id = 1024 ∧ r.inv.isSome = true) &&
      invalidated.invalidated (r.inv.getD 0) r.ivs) = true ∧
    (let s := left (exec (.invalidationComplete 1024) invalidated)
     only s.rangeJobs (fun r => decide (s.rangeJobOf 0 1024 = some r ∧ r.job.started = true ∧ r.job.ran = true ∧ r.inv = none ∧
       (s.shuttle 0).task = r.job.task) && s.mayComplete r.job) = true) ∧
    (let s := left (exec (.rangeCommandRun 0 1024) (ranging (.rpress plainHdr 2 1) 0x1000000 []))
     only s.rangeJobs (fun r => decide (r.job.ran = false ∧ r.inv.isSome = true) && s.invalidated (r.inv.getD 0) r.ivs &&
       s.press.any fun p => decide (p.job = 1024 ∧ p.phase = .opening)) = true) := by decide +kernel

/-- Of RowReads: X is ordered after an accepted MZERO that has still to write row 63. -/
theorem wit_RowReads_waits :
    (let s : State := { zeroing with cur := (0, .x), mats := zeroing.mats.map fun m => { m with job := { m.job with epoch := 0 } } }
     noMask.tags = [] ∧ s.mats.any (fun m => decide (m.job.sh = 0) && m.owesWrite 3 63 &&
       knows (s.popped 0).mySeq.know m.job.issuer m.job.epoch) = true) := by decide +kernel

/-- A collective of 64 elements accepted. -/
def gathering : State := left (exec (.cag plainHdr 0 3 2 1) talking)
def begun : State := { gathering with colls := gathering.colls.map fun c => { c with job := { c.job with started := true } } }

/-- A chunk of rank 1 for it, whose digest is its own when `k` is 0. -/
def chunkOf (k : Nat) (tag : Option Tag) : Chunk :=
  { tag := tag, reduced := none, panel := 0, cm := 0, j := 1, src := 1, off := 0, data := [1, 2], rel := false,
    dig := ((gathering.colls.head?).map fun c => { c.dig with k := c.dig.k + k }).getD
      { fn := 0, op := 0, k := 0, rt := 0, fa := 0, fo := 0, anc := 0, rm := 0, sca := 0, scb := 0, osx := 0, ranks := [] } }

/-- Of CollectiveEvents. -/
theorem wit_CollectiveEvents :
    only begun.colls (fun c => begun.collReady [(0, 1)] c && !begun.collReady [] c && decide (c.panel = 0 ∧ eaLevel c.send = 2 ∧ c.switch = false) &&
      (c.schedule[c.pos]?).any fun p => !p.ranks.isEmpty && (begun.deadRank (p.ranks.map fun r => c.dig.ranks.getD r 0)).isNone &&
        p.ranks.all fun k => !begun.overWarp (c.dig.ranks.getD k 0)) = true ∧
    begun.overWarp 0x102 = false ∧ begun.overWarp 0x100 = true ∧
    begun.tags = [] ∧ begun.bad = [] ∧ begun.outUnits = [] ∧
    only begun.colls (fun o => decide (o.cm = 0 ∧ o.j = 1) && !o.job.ran && decide (o.job.started = true)) = true ∧
    (talking.devReg warpBlock).getLsbD 8 = true ∧ (talking.cmcfg 0).getLsbD 63 = true ∧ (talking.comm 0).blocked = false ∧
    (talking.comm 0).freeSlot = some 0 ∧ (talking.comm 0).issued < (chunkOf 0 none).j ∧ talking.colls = [] ∧
    (∀ s ∈ [talking, gathering, begun, { gathering with colls := [] }], (s.cmcfg (chunkOf 0 none).cm).getLsbD 63 = true ∧
      (s.comm 0).blocked = false ∧ (s.comm 0).has (s.collOf 0 1) (chunkOf 0 none) = false) ∧
    (gathering.collOf 0 1).any (fun o => decide (o.job.started = false)) = true ∧
    (begun.collOf 0 1).any (fun o => decide (o.job.started = true ∧ (chunkOf 0 none).dig = o.dig ∧ (chunkOf 1 none).dig ≠ o.dig)) = true ∧
    (chunkOf 0 none).j ≤ (({ gathering with colls := [] } : State).comm 0).issued ∧
    (chunkOf 0 (some { peer := 7, vc := 1, seq := 5 })).tag = some { peer := 7, vc := 1, seq := 5 } ∧
    (talking.channel 7 1).performed.contains 5 = false ∧
    (let s := talking.putChannel { peer := 7, vc := 1, next := 0, performed := [5], acts := [] }
     (s.channel 7 1).performed.contains 5 = true) ∧
    ({ gathering with colls := [] } : State).comm 0 = { cm := 0, issued := 1, blocked := false, landed := [], noticed := [], edges := [] } ∧
    (let s : State := { begun with colls := begun.colls.map fun c => { c with job := { c.job with ran := true } } }
     only s.colls (fun c => s.mayComplete c.job && !s.isSaved c.job.task && decide ((s.shuttle 0).task = c.job.task)) =
       true) ∧
    (let s : State := { begun with colls := begun.colls.map fun c => { c with switch := true } }
     only s.colls (fun c => c.switch && c.job.started && !c.job.ran && c.result.isNone) = true) := by decide +kernel

/-- Cell 0x100 is full and 0x140 empty; semaphore 3 is at its limit, 4 at 2 and 5 at 0. -/
def cells : State :=
  { (busy.modMe fun x =>
      { x with sregs := Vector.ofFn fun i => BitVec.ofNat 64 (64 * i.val),
               aL := Vector.replicate 16 0x100,
               sems := (x.sems.set 3 { Sem.reset with count := 255 }).set 4 { Sem.reset with count := 2 } }) with
    mem := [(2 ^ 60 + 0x100, 7)], full := [2 ^ 60 + 0x100] }

/-- The same with all 64 cells from 0x1000 full, for L. -/
def cellsL (full : Bool) : State :=
  { (cells.modMe fun x => { x with aL := Vector.replicate 16 0x1000 }) with
    cur := (0, .l), full := if full then (List.range 64).map fun j => 2 ^ 60 + 0x1000 + 8 * j else [] }

/-- A gang whose members have arrived at barrier 0 once and passed. -/
def passed (b : BitVec 8) : State :=
  { ((inGang b cells).modMe fun x => { x with arrivals := Vector.replicate 4 [0], bsw := 1 }) with
    tasks := [{ gangTask with bars := Vector.replicate 4 { gangTask.bars[0] with phase := 1, passed := [(0, [])] } }] }

/-- C of shuttle 0 waits since cycle 0 with limit 2, whose cycles end at 1024. -/
def waiting (limit cycle : Nat) : State :=
  { (State.reset.modMe fun x =>
      { x with c := { x.c with stall := some { kind := .other, since := 0, limit := limit, seen := 0, stamp := 0 } } }) with
    cycle := cycle }

/-- Of CellsBarriersSemaphores. -/
theorem wit_CellsBarriersSemaphores :
    let g := inGang 0 cells
    let loom : Ext := .set (loomShuttles 0)
    let ext (ea : Int) : Ext := cells.fillExt (cells.placeOf ea)
    let far : State := { g with flagExts := [(2 ^ 60 + 0x100, .io)] }
    OnC cells ∧ OnC g ∧ OnT (cellsL true) .l 0 ∧ (cells.sightCells [0x100]).cellsFreeAt false .sync ext [0x100] ∧
    (cells.sightCells [0x100]).cellsFreeAt true .consume ext [0x100] ∧ OnC far ∧ cells.cellsFree true .fill loom [0x140] ∧
    cells.cellsFree true .consume loom [0x100] ∧
    (∃ s1, Made (withTag g (barLoc 0 0) (g.barEval 0 0) true .plain gangTask.gangExt) s1) ∧
    (∃ s1, Made (withVregs ((cellsL true).popped 0) [] [5]) s1 ∧
      (s1.sightCells (feAddrs (cellsL true) 4)).cellsFreeAt true .consume (fun ea => (cellsL true).fillExt ((cellsL true).placeOf ea)) (feAddrs (cellsL true) 4)) ∧
    (∃ s1, Made (withVregs ((cellsL false).popped 0) [5] []) s1 ∧ s1.cellsFree true .fill loom (feAddrs (cellsL false) 4)) ∧
    (ext 0x100 = loom ∧ far.fillExt (far.placeOf 0x100) = .io ∧ far.fe (far.placeOf 0x100) = true ∧ far.isOldest gangTask.tid = true) ∧
    far.taskAt 0 = some gangTask ∧ ({ far with tasks := [{ gangTask with tid := 1000, ts := 4 }, gangTask] } : State).isOldest gangTask.tid = false ∧
    cells.pocketFault 8 [0x100] = none ∧ cells.pocketFault 8 [0x104] ≠ none ∧ cells.ownUpdates = false ∧
    (cells.sreg 4).toInt = 0x100 ∧ cells.fe (cells.placeOf 0x100) = true ∧ cells.fe (cells.placeOf 0x140) = false ∧
    cells.consumeDue (cells.placeOf 0x140) = false ∧
    (let t : Stall := { kind := .consume [cells.placeOf 0x100], since := 0, limit := 0, seen := 0, stamp := 0 }
     let w := cells.modShuttle 1 fun x => { x with c := { x.c with run := .running, stall := some t } }
     w.consumeDue (w.placeOf 0x100) = true) ∧ g.taskAt 0 = some gangTask ∧ g.me.task = some (1031, 0) ∧ (g.gangGroup gangTask).isSome = true ∧
    ((inGang 0xFF cells).gangGroup gangTask).any (fun p => p.2.posted 0) = true ∧
    (g.gangGroup gangTask).any (fun p => !p.2.posted 0) = true ∧ (gangTask.bar 0).phase = 0 ∧
    (passed 0).me.arrivalsBefore 0 (passed 0).mySeq.know = 1 ∧ (passed 0).me.bsw.getLsbD 0 = true ∧
    ((passed 0).taskAt 0).any (fun t => (t.bar 0).hasPassed 0 && !(t.bar 0).hasPassed 1 && !(t.bar 0).brk) = true ∧
    ((passed 0).taskAt 0).any (fun t => decide ((t.bar 0).made.getD 0 0 = (t.bar 0).phase + 2)) = false ∧
    (let ahead : Barrier := { (gangTask.bar 0) with made := [2, 0], brk := true }
     ahead.made.getD 0 0 = ahead.phase + 2) ∧ (cellsL true).pocketFault 8 (feAddrs (cellsL true) 4) = none ∧ (cellsL true).ownUpdates = false ∧
    ((feAddrs (cellsL true) 4).all fun e => (cellsL true).fe ((cellsL true).placeOf e)) = true ∧
    ((feAddrs (cellsL false) 4).all fun e => !(cellsL false).fe ((cellsL false).placeOf e)) = true ∧
    (cells.me.sem 4).count < 255 ∧ 255 ≤ (cells.me.sem 3).count ∧ (cells.me.sem 5).count = 0 ∧ 0 < (cells.me.sem 4).count ∧
    tagOf cells.tags (semLoc 0 4) = [] :=
  ⟨onC_of (by decide +kernel), onC_of (by decide +kernel), onT_of (by decide +kernel), made_ex (by decide +kernel),
   made_ex (by decide +kernel), onC_of (by decide +kernel), made_ex (by decide +kernel), made_ex (by decide +kernel),
   made_ex (by decide +kernel), made_and (by decide +kernel) (made_ex (by decide +kernel)), made_and (by decide +kernel) (made_ex (by decide +kernel)),
   by decide +kernel⟩

/-- Its expiry: at the last cycle of the wait, at the cycle after it, and with no limit. -/
theorem wit_WaitExpiry :
    ∀ s ∈ [waiting 2 1024, waiting 2 1023, waiting 0 9999],
      (s.shuttle 0).frozen = false ∧ (s.shuttle 0).stopped .c = false ∧ (s.shuttle 0).c.run = .running ∧
      ((s.shuttle 0).c.stall.any fun w => decide (w.stamp = s.stamp)) = true := by decide +kernel

/-- The actor of a contribution. -/
def anActor : Actor :=
  { sh := 0, st := .c, ipc := 0, know := Know.none,
    acc := { agent := 1, home := 0, epoch := 1, write := true, kind := .contribution 3, ext := .pk } }

/-- A line declared at 0x2000 of the Pocket whose one contribution has come, with its flag at 0x2040. -/
def counted : CLine :=
  { id := 7, panel := 0, line := 1, va := none, n := 1, ext := .pk, flag := 2 ^ 60 + 0x2040, peer := none, recv := 1, kind := .none,
    ops := Vector.replicate 8 none, held := [], carries := [], by_ := some anActor, task := none, filled := false }

/-- Of SynchronisationAndAtomics. -/
theorem wit_SynchronisationAndAtomics :
    let l : State := { cells with cur := (0, .l) }
    let at_ (j : Nat) : Nat := 2 ^ 60 + 0x100 + 8 * j
    OnC cells ∧ OnT l .l 0 ∧
    (∃ s1, Made (withVregs (l.popped 0) [6] []) s1 ∧
      ∃ s2, Made (withScratch s1 true (.update 3) .pk ((List.range 64).map at_)) s2) ∧
    cells.cellsFree false .sync .pk [0x100] ∧
    (cells.sight (some .pk) (cells.relsAt (cellOf (cells.placeOf 0x100)))).cellsFree false .sync .pk [0x100] ∧
    cells.cellsFree true .sync .pk [0x100] ∧
    (∃ s1, Made (withScratch cells true (.update 3) .pk [2 ^ 60 + 0x100]) s1) ∧
    cells.scopeExt 0 cells.mySeq.agent 5 = some .pk ∧ farScope 5 = false ∧
    l.ownUpdates = false ∧ ((List.range 64).all fun j => (l.updateTarget (l.areg 3 + BitVec.ofNat 64 (8 * j)) |> (okIs ·
      (fun t => decide (t = .cell (at_ j))))) && inPocket 0 (at_ j) && !l.linePending (at_ j)) = true ∧
    cells.me.markBlock = none ∧ cells.me.marks = [] ∧
    (let m : Marks := { pops := [], jobs := [9] }
     let full := cells.modMe fun x => { x with marks := [m, m, m, m] }
     full.me.markBlock = some 0 ∧ full.me.fences.contains full.instrKey = false ∧ full.me.marks.all Marks.done = false) ∧
    cells.me.marks.all Marks.done = true ∧ cells.me.fences.contains cells.instrKey = false ∧
    (cells.modMe fun x => { x with fences := [cells.instrKey] }).me.fences.contains cells.instrKey = true ∧
    multiplying.markJobs 0xFF ≠ [] ∧ multiplying.me.markBlock = none ∧ cells.markJobs 0xFF = [] ∧ cells.me.chanX.pushed ≤ cells.me.chanX.popped ∧
    cells.me.chanS.pushed ≤ cells.me.chanS.popped ∧ cells.me.chanL.pushed ≤ cells.me.chanL.popped ∧
    okIs (cells.updateTarget 0x100) (fun t => decide (t = .cell (2 ^ 60 + 0x100))) = true ∧ inPocket 0 (2 ^ 60 + 0x100) = true ∧
    (cells.sreg 4).toNat % 64 = 0 ∧ (cells.sreg (4 ||| 1)).toNat % 8 = 0 ∧
    cells.refusesLine (2 ^ 60 + 0x100) 1 = false ∧ cells.refusesLine (2 ^ 60 + 0x100) 0 = true ∧
    (cells.me.oatoms.find? (fun q => q.1 = cells.instrKey)) = none ∧ cells.lineAt (2 ^ 60 + 0x100) = none ∧
    (∀ n ∈ [counted, { counted with recv := 0, kind := .plain }, { counted with recv := 0, n := 3 }],
      ({ cells with lines := [{ n with line := 2 ^ 60 + 0x100 }] } : State).lineAt (2 ^ 60 + 0x100) =
        some { n with line := 2 ^ 60 + 0x100 }) := 
  ⟨onC_of (by decide +kernel), onT_of (by decide +kernel), made_and (by decide +kernel) (made_ex (by decide +kernel)),
   made_ex (by decide +kernel), made_ex (by decide +kernel), made_ex (by decide +kernel), made_ex (by decide +kernel),
   by decide +kernel⟩

/-- Of the same: the access of an ordered contribution to a line declared there. -/
theorem wit_OrderedAtomics :
    ∃ s1, Made (withScratch { cells with lines := [{ counted with line := 2 ^ 60 + 0x100, recv := 0, n := 3 }] } true (.contribution 3) .pk
      [2 ^ 60 + 0x100]) s1 := made_ex (by decide +kernel)

/-- An atomic sent to the bolt; an atomic that has answered; a counted line that is complete; markers that cover work. -/
def sentAtomic : State :=
  left (exec (.atom 4 5 3 5) (cells.modMe fun x => { x with sregs := x.sregs.set 5 0x1000000000010000, sgnt := grantOf 0x10000 0x10000 }))
def answered : State :=
  { (cells.modMe fun x => { x with oatoms := [(cells.instrKey, 9)] }) with results := [(9, .value 5 .pk [])] }

theorem wit_BankUnits :
    okIs ((cells.modMe fun x => { x with sgnt := grantOf 0x10000 0x10000 }).updateTarget 0x1000000000010000)
      (fun t => match t with
        | .cell p => !inPocket 0 p
        | _ => false) = true ∧
    only sentAtomic.msgs (fun m => decide (m.sh = 0 ∧ m.op = .atom 3) && match m.target with
      | .cell p => !sentAtomic.badCell p && decide (tagOf sentAtomic.tags (cellOf p) = [] ∧ 2 ^ 60 ≤ p) && !sentAtomic.linePending p
      | _ => false) = true ∧
    answered.me.oatoms.find? (fun q => q.1 = answered.instrKey) = some (answered.instrKey, 9) ∧
    answered.results.find? (fun q => q.1 = 9) = some (9, .value 5 .pk []) ∧
    ({ answered with results := [(9, .refused 0x24)] } : State).results.find? (fun q => q.1 = 9) = some (9, .refused 0x24) ∧
    (let s : State := { State.reset with lines := [counted] }
     only s.lines (fun n => decide (n.recv = n.n ∧ n.peer = none ∧ n.by_ ≠ none) && !n.filled && !s.fe n.flag) = true) ∧
    ({ State.reset with lines := [counted], full := [2 ^ 60 + 0x2040] } : State).fe (2 ^ 60 + 0x2040) = true := by
  decide +kernel

/-- A packet of queue 3 at 0x30000. -/
def pack (l : List Nat) : Packet := { va := 0x30000, bytes := l.flatMap fun v => leBytes 8 v }

def packed (l : List Nat) : State :=
  world ((l.zip (List.range l.length)).map fun p => (0x30000 + 8 * p.2, p.1))

def nop : List Nat := [0x0A, 0x6000, 0, 0, 0, 0, 0, 0]

/-- What stands next in queue `x`. -/
def peeks (s : State) (x : Queue) (p : Packet) : Bool :=
  match s.peek x with
  | .packet o => decide (o = p)
  | _ => false

theorem peek_of {s : State} {x : Queue} {p : Packet} (h : peeks s x p = true) : s.peek x = .packet p := by
  unfold peeks at h; split at h
  · rw [‹s.peek x = _›, of_decide_eq_true h]
  · exact absurd h (by decide)

def openPkt : Pkt :=
  { id := 6, va := 0x30000, sig := 0x6000, cidx := some 4, status := none, box := false, isOpen := false, within := [],
    treadle := none, ffence := false, launch := none, omits := none, fence := none }

/-- A Treadle run in its third word, LD or what `words` hold, with registers in a page that is mapped. -/
def program : TreadleRun :=
  { q := 3, pid := 6, handle := 0, words := List.replicate 4 0x10120008, pc := 2,
    regs := Vector.ofFn fun i => BitVec.ofNat 64 (if i.val = 0 then 0 else if i.val = 7 then 0x30000 else i.val * 8 + 0x5000),
    budget := 5, stores := [], emits := [] }

def weaving (r : TreadleRun) : State :=
  { packed nop with queues := [{ mapped 3 with pkts := [{ openPkt with treadle := some false }] }], runs := [r], curQ := 3 }

/-- Of StepRunsEvents. -/
theorem wit_StepRunsEvents :
    isEvent .reset = true ∧ isEvent .nop = false ∧ (packed nop).queueOf 3 = some (mapped 3) ∧
    (packed nop).peek (mapped 3) = .packet (pack nop) ∧ packetInstr 3 (pack nop) = some (.nopPacket 3 (pack nop)) ∧
    (weaving program).runs.find? (fun r => r.q = 3) = some program ∧ program.budget ≠ 0 ∧
    (decodeTreadle (program.words.getD program.pc 0)).isSome = true ∧ (waiting 2 1023).limitDue = none ∧
    (waiting 2 1024).limitDue = some (0, .c) :=
  ⟨by decide +kernel, by decide +kernel, by decide +kernel, peek_of (by decide +kernel), by decide +kernel⟩

/-- L, X and S at rest with their queues empty. -/
def resting : State := cells.modMe fun x =>
  { x with
    qCL := [], qCX := [], qCS := [], qSC := [], qLX := [], tLX := [], crLX := [], tXS := [], crXS := [], tSL := [], crSL := [],
    masks := [], l := { x.l with run := .idle }, x := { x.x with run := .idle }, s := { x.s with run := .idle } }

def alone (s : State) : State := { s with tasks := s.tasks.map fun t => { t with gang := false, shuttles := [0], places := [0] } }

/-- Of SystemInstructions: each sequencer; no task and a task, the oldest and not; a group and none; work left, a
queue entry left and none. -/
theorem wit_SystemInstructions :
    OnT onX onX.stream 0 ∧ OnC cells ∧ OnC (inGang 0 cells) ∧ Unstepped resting ∧ onX.stream = .x ∧ cells.taskMode = false ∧ (inTask cells).taskMode = true ∧
    cells.me.task = none ∧ (inGang 0 cells).me.task = some (1031, 0) ∧ cells.me.esst.getLsbD 0 = false ∧
    (inGang 0 cells).taskAt (inGang 0 cells).here = some gangTask ∧ gangTask.dual = false ∧
    (inGang 0 cells).isOldest gangTask.tid = true ∧
    ({ inGang 0 cells with tasks := [{ gangTask with tid := 1000, ts := 4 }, gangTask] } : State).isOldest gangTask.tid = false ∧
    (inGang 0 cells).groupSlot 0 0 = some 0 ∧ (inGang 0 cells).groupSlot 0 1 = none ∧
    ((inGang 0 cells).launchOf gangTask.lid).isSome = true ∧
    (cells.me.l.atRest && cells.me.x.atRest && cells.me.s.atRest) = false ∧
    (resting.me.l.atRest && resting.me.x.atRest && resting.me.s.atRest) = true ∧
    (resting.me.cc.toList.any (· ≠ 0)) = false ∧ resting.me.residue = 0 ∧
    (resting.modMe fun x => { x with qCL := [scalarEntry 0] }).me.residue ≠ 0 ∧
    (resting.modMe fun x => { x with cc := x.cc.set 3 1 }).me.cc.toList.any (· ≠ 0) = true :=
  ⟨onT_of (by decide +kernel), onC_of (by decide +kernel), onC_of (by decide +kernel), by unfold Unstepped; decide +kernel,
   by decide +kernel⟩

def held (halt : Bool) : HeldTrap :=
  { cause := 0x0D, eval := 5, eaux := 6, epc := 0x200, halt := halt, fw := false, record := some 9 }

/-- Shuttle 0 frozen by trap record 9, with a record waiting for the ring. -/
def frozen (halt : Bool) (s : State) : State :=
  { (s.modMe fun x => { x with frozen := true, trap := some (held halt), tvec := 0x4002,
                               c := { x.c with run := if halt then .halted else .running } }) with
    trapRecs := [{ num := 9, shuttle := some 0, commit := none, task := some 1031, acted := false }],
    heldRecs := [[1, 2, 3]] }

def faulted : State := (inGang 0 cells).modMe fun x =>
  { x with pending := [{ cause := 0x1A, eval := 3, str := .l, eng := 1, cmd := 0, ipc := 4, found := 0 }] }

/-- Every sequencer of shuttle 0 waits, in a task. -/
def deadlocked : State := (inGang 0 resting).modMe fun x =>
  { x with c := { x.c with stall := some { kind := .stream, since := 0, limit := 0, seen := x.progress, stamp := 0 } } }

/-- Of TrapEvents. -/
theorem wit_TrapEvents :
    ((faulted.shuttle 0).frozen = false ∧ (faulted.shuttle 0).mon = false ∧ (faulted.shuttle 0).c.run = .running ∧
      (faulted.shuttle 0).pending ≠ []) ∧
    ((inGang 0 cells).shuttle 0).pending = [] ∧ (cells.shuttle 0).mon = true ∧
    ((deadlocked.shuttle 0).frozen = false ∧ (deadlocked.shuttle 0).task.isSome = true ∧
      ((let x := deadlocked.shuttle 0; [x.c, x.l, x.x, x.s].all x.stuck) = true) ∧ (deadlocked.shuttle 0).c.run = .running ∧
      (deadlocked.shuttle 0).c.stall.isSome = true ∧ deadlocked.shuttleBusy 0 = false) ∧
    multiplying.shuttleBusy 0 = true ∧ (frozen false (packed nop)).heldRecs = [1, 2, 3] :: [] ∧
    (frozen false (packed nop)).ringRoom = true ∧ (putDev 0x20030 (2 ^ 63) (frozen false (packed nop))).ringRoom = false ∧
    (∀ b ∈ [true, false], (frozen b cells).trapTarget 9 = some (.shuttle 0 (held b)) ∧ (held b).halt = b ∧
      ((frozen b cells).shuttle 0).task = none ∧ ((frozen b cells).shuttle 0).frozen = true) ∧
    (frozen false (inGang 0 cells)).taskAt 0 = some gangTask ∧
    ((frozen false (inGang 0 cells)).launchOf gangTask.lid).isSome = true ∧
    (frozen false (inGang 0 cells)).requests = [] ∧ cells.trapTarget 9 = none := by decide +kernel

/-- Of the records of a held trap, of the oldest task and of none, and of a held commit; of check failures of each kind. -/
theorem wit_TrapEvents_records :
    (∀ s ∈ [packed nop, inGang 0 (world [])],
      let u := s.modMe fun x => { x with frozen := true, trap := some { held false with record := none } }
      u.ringRoom = true ∧ (u.taskAt 0).all (fun t => u.isOldest t.tid && !t.dual) = true) ∧
    (inGang 0 (world [])).taskAt 0 = some gangTask ∧
    (let s : State := { inGang 0 (world []) with tasks := [{ gangTask with held := some (0x1C, 7, none) }] }
     (1031 ≠ 0 ∧ s.ringRoom = true) ∧ (s.taskOf 1031).any (fun t => decide (t.held = some (0x1C, 7, none))) = true) ∧
    (let f : CheckFail := { cls := 5, unit := 3, outcome := .lasting, fatal := 0, site := .cell 0x5000 }
     let s := cells
     let held : State := { inGang 0 cells with tasks := [{ gangTask with bound := true }] }
     s.fatalKind f = 0 ∧ 0x5000 < Config.hbmBytes ∧ s.fatalKind { f with cls := 4, site := .cell (2 ^ 62) } = 0 ∧
       Config.hbmBytes ≤ 2 ^ 62 ∧ s.fatalKind { f with cls := 1, site := .reg 0 .c 2 31 } = 0 ∧ (3 : ShNo) ∉ s.outShuttles ∧
       s.fatalKind { f with cls := 9, site := .part } = 0 ∧ (9, 3) ∉ s.outUnits ∧ s.fatalKind { f with site := .part } = 5 ∧
       s.fatalKind { f with cls := 7, site := .part } = 4 ∧ s.fatalKind { f with cls := 9, site := .flight } = 1 ∧
       held.fatalKind { f with cls := 1, unit := 0, site := .part } = 0 ∧ (held.taskAt 0).any (fun t => held.isBound t) = true ∧
       held.fatalKind { f with cls := 3, unit := 0, site := .part } = 1) ∧
    (let r : Request := { kind := .preempt, queue := 3, lid := some 1030 }
     let s : State := { frozen true (inGang 0 cells) with requests := [r] }
     s.preempting 0 = true ∧ s.trapTarget 9 = some (.shuttle 0 (held true))) := by decide +kernel

theorem graph_of {s : State} {who graph gtab ngrp tsbase va : Nat} {h tb sb gb hd bs : List Byte}
    (h1 : s.creelRead who graph 64 = .ok s h) (h2 : headerOk h = true)
    (h3 : s.creelRead who (graph + numAt h 0x10 4) (64 * numAt h 6 2) = .ok s tb)
    (h4 : s.creelRead who (graph + numAt h 0x14 4) (2 * numAt h 8 4) = .ok s sb)
    (h5 : s.creelRead who gtab (32 * ngrp) = .ok s gb)
    (h6 : Graph.entries { header := h, table := tb, succ := sb, gtab := gb } |>.map GEntry.img |> (· = [va]))
    (h7 : va % 64 = 0) (h8 : s.creelRead who va 96 = .ok s hd) (h9 : ¬numAt hd 8 4 < 96)
    (h10 : s.creelRead who va (numAt hd 8 4) = .ok s bs)
    (h11 : (let g : Graph := { header := h, table := tb, succ := sb, gtab := gb }
      let gs := (List.range ngrp).map (groupAt gb)
      groupsOk gb gs && g.carriesOk && g.succOk && s.placesFit gs &&
        ((List.range g.ntask).zip (g.entries.zip [imageOf bs])).all fun p => g.taskOk tsbase p.1 p.2.1 p.2.2 ngrp) = true) :
    ∀ f, readGraph s who graph gtab ngrp tsbase f = f s { header := h, table := tb, succ := sb, gtab := gb } [imageOf bs] := by
  intro f
  simp only at h6 h11
  simp only [readGraph, h1, h2, h3, h4, h5, h6, CreelAcc.andRead, Bool.not_true, Bool.false_eq_true, if_false, readImages, h7,
    ne_eq, not_true_eq_false, h8, h9, h10, List.nil_append, h11, if_true]

/-- A read that answers `bs`. -/
def gives (s : State) (who va n : Nat) (bs : List Byte) : Bool :=
  match s.creelRead who va n with
  | .ok _ b => decide (b = bs)
  | _ => false

theorem gives_of {s : State} {who va n : Nat} {bs : List Byte} (h : gives s who va n bs = true) :
    s.creelRead who va n = .ok s bs := by
  unfold gives at h; split at h
  · rename_i s1 b h1
    rw [h1, creelRead_ok h1, of_decide_eq_true h]
  · exact absurd h (by decide)

/-- A graph at 0x40000 of one task, whose image at 0x7000 holds its header only. -/
def graphHead : List Byte := leBytes 8 0x0001000131474255 ++ leBytes 8 0 ++ leBytes 8 0x40 ++ List.replicate 40 0
def graphTable : List Byte :=
  leBytes 8 0x7000 ++ leBytes 8 0 ++ leBytes 8 0x100000000 ++ List.replicate 40 0
def plainImage : List Byte := leBytes 8 0x0000000131444255 ++ leBytes 8 0x8da276b400000060 ++ List.replicate 80 0
def oneTask : Graph := { header := graphHead, table := graphTable, succ := [], gtab := [] }

/-- A CRC goes over one part after another, each time with its value computed first. -/
def overParts (c : W32) : List (List Byte) → W32
  | [] => c
  | b :: r => if c = 0 then overParts (b.foldl crc32Byte c) r else overParts (b.foldl crc32Byte c) r

theorem crc_parts (l : List (List Byte)) (c : W32) : l.flatten.foldl crc32Byte c = overParts c l := by
  induction l generalizing c with
  | nil => rfl
  | cons b l ih => rw [List.flatten_cons, List.foldl_append, ih]; simp [overParts]

theorem crc_of {bs : List Byte} {v : W32} (l : List (List Byte)) (h : l.flatten = bs) (e : ~~~(overParts 0xFFFFFFFF l) = v) :
    crc32 bs = v := by rw [← h, crc32, crc_parts, e]

def zeros16 : List Byte := List.replicate 16 0

theorem plainImage_ok : (imageOf plainImage).ok = true := by
  have c : crc32 (plainImage.take 12 ++ [0, 0, 0, 0] ++ plainImage.drop 16) = 0x8DA276B4 :=
    crc_of ((plainImage.take 12 ++ [0, 0, 0, 0]) :: List.replicate 5 zeros16) (by decide +kernel) (by decide +kernel)
  have b : (imageOf plainImage).bytes = plainImage := rfl
  simp only [Image.ok, b, c]
  decide +kernel

/-- A checkpoint at 0x50000 of a launch of that graph whose task is pending: its parts of 16 bytes. -/
def checkpointHead : List (List Byte) :=
  [leBytes 8 0x0000000131434255 ++ leBytes 8 4096, leBytes 8 0x3000174c43ef4 ++ leBytes 8 0,
   leBytes 16 0xd663526f87c22c66a05174d1d46fe46b, leBytes 8 0x40000 ++ leBytes 8 0, leBytes 8 0x6400 ++ leBytes 8 0]
def checkpointImage : List Byte := checkpointHead.flatten ++ List.replicate 4016 0

theorem checkpoint_ok (s : State) : s.imageOk checkpointImage 4096 = true := by
  have z : List.replicate 4016 (0 : Byte) = (List.replicate 251 zeros16).flatten :=
    (List.flatten_replicate_replicate (n := 251) (m := 16) (a := 0)).symm
  have c : crc32 (checkpointImage.take 16 ++ [0, 0, 0, 0] ++ checkpointImage.drop 20) = 0x74C43EF4 := by
    refine crc_of ((checkpointHead.set 1 (leBytes 8 0x0003000100000000 ++ leBytes 8 0)) ++ List.replicate 251 zeros16) ?_
      (by decide +kernel)
    rw [List.flatten_append, ← z, checkpointImage, List.take_append_of_le_length (by decide),
      List.drop_append_of_le_length (by decide), ← List.append_assoc]
    exact congrArg (· ++ _) (by decide +kernel)
  have b : ({ bytes := checkpointImage } : ImageHead).isBound = false := by decide +kernel
  simp only [State.imageOk, c, b, Bool.false_eq_true, if_false]
  decide +kernel

def resumePkt : List Nat := [0x02, 0x6000, 0x50000, 4096, 0, 0, 0, 0]
def launchPkt : List Nat := [0x01, 0x6000, 0x40000, 0, 0, 0, 0x6400, 0]

def graphed (l : List Nat) : State :=
  let s := packed l
  { s with mem := memStore (memStore (memStore s.mem 0x40000 (graphHead ++ graphTable)) 0x7000 plainImage) 0x50000
                    checkpointHead.flatten }

theorem fold_parts {s : State} {owner : Nat} {need : Perm} (ps : List (Nat × Nat × List Byte))
    (h : ∀ p ∈ ps, s.readPiece none owner p.1 p.2.1 need = .ok (p.2.2, s)) (acc : List Byte) :
    (ps.map fun p => (p.1, p.2.1)).foldl (fun acc p =>
      match acc with
      | .error e => .error e
      | .ok (bs, s) =>
        match s.readPiece none owner p.1 p.2 need with
        | .error e => .error e
        | .ok (cs, s1) => .ok (bs ++ cs, s1)) (Except.ok (acc, s) : Except GFault (List Byte × State)) =
      .ok (acc ++ (ps.map fun p => p.2.2).flatten, s) := by
  induction ps generalizing acc with
  | nil => simp
  | cons p ps ih =>
    simp only [List.map_cons, List.foldl_cons, h p (List.mem_cons_self ..)]
    rw [ih fun q hq => h q (List.mem_cons_of_mem _ hq)]
    simp

/-- A piece that reads as `bs`. -/
def pieceIs (s : State) (owner : Nat) (p : Nat × Nat × List Byte) : Bool :=
  match s.readPiece none owner p.1 p.2.1 .read with
  | .ok (b, _) => decide (b = p.2.2)
  | .error _ => false

theorem piece_of {s : State} {owner : Nat} {p : Nat × Nat × List Byte} (h : pieceIs s owner p = true) :
    s.readPiece none owner p.1 p.2.1 .read = .ok (p.2.2, s) := by
  unfold pieceIs at h; split at h
  · rename_i b t e
    rw [e, of_decide_eq_true h, readPiece_none e]
  · exact absurd h (by decide)

/-- A piece where nothing is listed. -/
def absentAt (s : State) (va n : Nat) : Bool :=
  match s.locate va .read with
  | .ok (.home pa, _, _) => (s.mem.all fun c => decide (c.1 < pa ∨ pa + n ≤ c.1)) && !s.badBytes pa n
  | _ => false

theorem absent_of {s : State} {owner va n : Nat} (h : absentAt s va n = true) :
    s.readPiece none owner va n .read = .ok (List.replicate n 0, s) := by
  unfold absentAt at h; split at h
  · rename_i pa j d e
    simp only [Bool.and_eq_true, Bool.not_eq_true'] at h
    have z := memBytes_absent s.mem n pa fun c hc => of_decide_eq_true (List.all_eq_true.mp h.1 c hc)
    simp [State.readPiece, e, h.2, z]
  · exact absurd h (by decide)

theorem read_parts {s : State} {who va n : Nat} (ps : List (Nat × Nat × List Byte))
    (hp : pieces va n = ps.map fun p => (p.1, p.2.1))
    (h : ∀ p ∈ ps, s.readPiece none who p.1 p.2.1 .read = .ok (p.2.2, s)) :
    s.creelRead who va n = .ok s (ps.map fun p => p.2.2).flatten := by
  have r : s.readGlobal none who va n = .ok ((ps.map fun p => p.2.2).flatten, s) := by
    unfold State.readGlobal
    rw [hp]
    exact fold_parts ps h []
  rw [State.creelRead, r]

/-- The 64-byte pieces of the checkpoint. -/
def checkpointPieces : List (Nat × Nat × List Byte) :=
  (0x50000, 64, (checkpointHead.take 4).flatten) :: (0x50040, 64, (checkpointHead.drop 4).flatten ++ List.replicate 48 0) ::
    (List.range 62).map fun k => (0x50080 + 64 * k, 64, List.replicate 64 0)

theorem checkpoint_read : (graphed resumePkt).creelRead 1500 0x50000 4096 = .ok (graphed resumePkt) checkpointImage := by
  have a : ((List.range 62).all fun k => absentAt (graphed resumePkt) (0x50080 + 64 * k) 64) = true := by decide +kernel
  have h := read_parts (s := graphed resumePkt) (who := 1500) (va := 0x50000) (n := 4096) checkpointPieces (by decide +kernel)
    (List.forall_mem_cons.mpr ⟨piece_of (by decide +kernel), List.forall_mem_cons.mpr ⟨piece_of (by decide +kernel),
      List.forall_mem_map.mpr fun k hk => absent_of (List.all_eq_true.mp a k hk)⟩⟩)
  have z : List.replicate 4016 (0 : Byte) = List.replicate 48 0 ++ (List.replicate 62 (List.replicate 64 0)).flatten := by
    rw [List.flatten_replicate_replicate, List.replicate_append_replicate]
  have m : ((List.range 62).map fun k => (0x50080 + 64 * k, 64, List.replicate 64 (0 : Byte))).map (fun p => p.2.2) =
    List.replicate 62 (List.replicate 64 0) := by decide +kernel
  have f : checkpointHead.flatten = (checkpointHead.take 4).flatten ++ (checkpointHead.drop 4).flatten := by
    rw [← List.flatten_append, List.take_append_drop]
  rw [h, checkpointImage, z, f, checkpointPieces, List.map_cons, List.map_cons, m]
  simp only [List.flatten_cons, List.append_assoc]

theorem graph_read {s : State} (h : (gives s 1500 0x40000 64 graphHead && gives s 1500 0x40040 64 graphTable
      && gives s 1500 0x7000 96 plainImage && s.placesFit []) = true) :
    ∀ f, readGraph s 1500 0x40000 0 0 0 f = f s oneTask [imageOf plainImage] := by
  simp only [Bool.and_eq_true] at h
  obtain ⟨⟨⟨a, b⟩, c⟩, d⟩ := h
  have z (v : Nat) : s.creelRead 1500 v 0 = .ok s [] := rfl
  refine graph_of (va := 0x7000) (hd := plainImage) (gives_of a) (by decide +kernel) (gives_of b) (z _) (z _) (by decide +kernel)
    (by decide) (gives_of c) (by decide +kernel) (gives_of c) ?_
  have e : ((List.range (Graph.ntask oneTask)).zip (oneTask.entries.zip [imageOf plainImage])) =
    [(0, entryAt graphTable 0, imageOf plainImage)] := by decide +kernel
  simp only [List.range_zero, List.map_nil, d]
  rw [show ({ header := graphHead, table := graphTable, succ := [], gtab := [] } : Machine.Graph) = oneTask from rfl, e]
  simp only [List.all_cons, List.all_nil, Graph.taskOk, plainImage_ok]
  decide +kernel

theorem next_of {s : State} {q : Nat} {p : Packet} {x : Queue} (h : peeks s x p = true)
    (g : s.queueOf q = some x ∧ x.slot.isSome = true ∧ s.qHalt q = false ∧ s.qDead q = false ∧ s.qPre q = false ∧
      x.marked = none ∧ x.slotGone = false ∧ x.held p = false) : PacketNext s q p x :=
  ⟨g.1, g.2.1, g.2.2.1, g.2.2.2.1, g.2.2.2.2.1, g.2.2.2.2.2.1, g.2.2.2.2.2.2.1, peek_of h, g.2.2.2.2.2.2.2⟩

theorem ready_of {s : State} {q : Nat} {p : Packet} {x : Queue} (h : PacketNext s q p x)
    (g : let room := (x.cur.next (s.qRing q) (s.qSize q)).2
      x.cur.skipping = false ∧ p.valid = true ∧ x.cur.misplaced p room = false ∧
      x.cur.opens p room (s.qSize q) = true ∧ s.writeFault (p.va + 2) 1 = none ∧
      (p.sig = 0 ∨ s.writeFault p.sig 8 = none)) : PacketReady s q p x := ⟨h, g⟩

/-- The next packet of queue 3, at 0x30000 in memory, may be dispatched. -/
def isReady (s : State) (p : Packet) (x : Queue) : Bool :=
  let room := (x.cur.next (s.qRing 3) (s.qSize 3)).2
  peeks s x p &&
    decide (s.queueOf 3 = some x ∧ x.slot.isSome = true ∧ s.qHalt 3 = false ∧ s.qDead 3 = false ∧ s.qPre 3 = false ∧
      x.marked = none ∧ x.slotGone = false ∧ x.held p = false) &&
    decide (x.cur.skipping = false ∧ p.valid = true ∧ x.cur.misplaced p room = false ∧
      x.cur.opens p room (s.qSize 3) = true ∧ s.writeFault (p.va + 2) 1 = none ∧ (p.sig = 0 ∨ s.writeFault p.sig 8 = none))

theorem ready {s : State} {p : Packet} {x : Queue} (h : isReady s p x = true) : PacketReady s 3 p x := by
  simp only [isReady, Bool.and_eq_true, decide_eq_true_eq] at h
  exact ready_of (next_of h.1.1 h.1.2) h.2

def hint : List Nat := [0x08, 0x6000, 2, 100, 0, 0, 0, 0]
def ib : List Nat := [0x04, 0x6000, 0x30400, 3, 0, 0, 0, 0]
def loop : List Nat := [0x06, 0x6000, 5, 2, 0, 0, 0, 0]
def fence : List Nat := [0x03, 0x6000, 0x202, 0, 0x5000, 77, 0x5008, 6]
def pred (op : Nat) : List Nat := [0x05, 0x6000, 0x5000, 0xFF, 77, 0x200 + op, 0, 0]
def ffence : List Nat := [0x07, 0, 0, 0, 0, 0, 0, 0]
def treadle : List Nat := [0x09, 0, 0x50000, 1, 2, 3, 4, 0]
def badNop : List Nat := [0x0700000A, 0, 0, 0, 0, 0, 0, 0]

def skippingQueue : Queue := { mapped 3 with cur := { (mapped 3).cur with skip := (2, 0) } }

/-- Of Packets, before an action of a packet: one that is skipped, one that fails its checks, and one of each type. -/
theorem wit_Packets_dispatch :
    PacketNext { packed nop with queues := [skippingQueue] } 3 (pack nop) skippingQueue ∧ skippingQueue.cur.skipping = true ∧
    PacketNext (packed badNop) 3 (pack badNop) (mapped 3) ∧ (mapped 3).cur.skipping = false ∧ (pack badNop).valid = false ∧
    (pack badNop).type = 10 ∧ (mapped 3).cur.loop = none ∧
    ∀ e ∈ [(nop, 10), (hint, 8), (ib, 4), (loop, 6), (ffence, 7), (fence, 3)],
      PacketReady (packed e.1) 3 (pack e.1) (mapped 3) ∧ (pack e.1).type = e.2 := by
  refine ⟨next_of (by decide +kernel) (by decide +kernel), by decide +kernel, next_of (by decide +kernel) (by decide +kernel),
    by decide +kernel, by decide +kernel, by decide +kernel, by decide +kernel, fun e h => ?_⟩
  have k : ∀ e ∈ [(nop, 10), (hint, 8), (ib, 4), (loop, 6), (ffence, 7), (fence, 3)],
      isReady (packed e.1) (pack e.1) (mapped 3) = true ∧ (pack e.1).type = e.2 := by decide +kernel
  exact ⟨ready (k e h).1, (k e h).2⟩

/-- The tests of a PRED packet that hold and that do not, and a Treadle program loaded. -/
theorem wit_Packets_pred :
    PacketReady (packed (pred 0)) 3 (pack (pred 0)) (mapped 3) ∧ PacketReady (packed (pred 1)) 3 (pack (pred 1)) (mapped 3) ∧
    (let s : State := { packed (pred 0) with bad := [0x5000] }
     (isReady s (pack (pred 0)) (mapped 3) && s.badBytes 0x5000 8) = true) ∧ (packed (pred 0)).badBytes 0x5000 8 = false ∧
    (∀ op ∈ [0, 1], (pack (pred op)).type = 5 ∧ okIs ((packed (pred op)).translate ((pack (pred op)).dw 0x10).toNat .read)
      (fun t => predHolds (bitsOf ((pack (pred op)).dw 0x28) 0 2)
        (BitVec.ofNat 64 (leNat (memBytes (packed (pred op)).mem t.1 8)) &&& (pack (pred op)).dw 0x18)
        ((pack (pred op)).dw 0x20) == decide (op = 0)) = true) ∧ (mapped 3).cur.depth = 0 ∧
    (let s : State := { packed treadle with handles := [{ h := 0, words := [0x10120008], users := 0, freed := false }] }
     PacketReady s 3 (pack treadle) (mapped 3) ∧ (pack treadle).type = 9 ∧
       (s.handles.find? fun h => decide (h.h = bitsOf ((pack treadle).dw 0x10) 0 6) && !h.freed).isSome = true) :=
  ⟨ready (by decide +kernel),
   ready (by decide +kernel), by decide +kernel, by decide +kernel, by decide +kernel, by decide +kernel,
   ready (by decide +kernel), by decide +kernel⟩

/-- A LAUNCH of the graph, whose keys are above the last committed one and are not; a RESUME of its checkpoint. -/
theorem wit_Packets_launch :
    (let s := graphed launchPkt
     let n := s.newLaunch 3 7 0x40000 0 0 0x6400 oneTask [imageOf plainImage]
     let late : State := { s with lastKey := some (2 ^ 200) }
     PacketReady s 3 (pack launchPkt) (mapped 3) ∧ PacketReady late 3 (pack launchPkt) (mapped 3) ∧ (pack launchPkt).type = 1 ∧
     (∀ f, readGraph s 1500 0x40000 0 0 0 f = f s oneTask [imageOf plainImage]) ∧
     (∀ f, readGraph late 1500 0x40000 0 0 0 f = f late oneTask [imageOf plainImage]) ∧
     s.keysOk (n.tasks.filter fun t => t.lid = s.nextId) = true ∧
     late.keysOk ((late.newLaunch 3 7 0x40000 0 0 0x6400 oneTask [imageOf plainImage]).tasks.filter fun t =>
       t.lid = late.nextId) = false) ∧
    (let s := graphed resumePkt
     let h : ImageHead := { bytes := checkpointImage }
     let n := s.newResumed 3 7 h oneTask [imageOf plainImage]
     PacketReady s 3 (pack resumePkt) (mapped 3) ∧ (pack resumePkt).type = 2 ∧
     s.creelRead 1500 0x50000 4096 = .ok s checkpointImage ∧
     (∀ f, readGraph s 1500 0x40000 0 0 0 f = f s oneTask [imageOf plainImage]) ∧
     (oneTask.hash [imageOf plainImage] s.gangSize).toNat = numAt checkpointImage 0x20 16 ∧ oneTask.ntask = h.ntask ∧
     (∀ t ∈ n.tasks, t.lid = s.nextId → t.saved = true → t.width (groupsOf oneTask) = h.nsh) ∧
     s.keysOk (n.tasks.filter fun t => decide (t.lid = s.nextId ∧ t.stat = .pending)) = true ∧
     (n.tasks.any fun t => decide (t.lid = s.nextId ∧ t.stat = .pending)) = true) :=
  ⟨⟨ready (by decide +kernel),
    ready (by decide +kernel), by decide +kernel, graph_read (by decide +kernel),
    graph_read (by decide +kernel), by decide +kernel, by decide +kernel⟩,
   ready (by decide +kernel), by decide +kernel, checkpoint_read,
   graph_read (by decide +kernel), by decide +kernel, by decide +kernel, by decide +kernel⟩

/-- A FENCE packet that waits for two cells since cycle 0, with limit code 2 (1024 cycles). -/
def fenced (pairs : List (Nat × W64)) (cycle : Nat) : State :=
  { packed nop with cycle := cycle, queues := [{ mapped 3 with pkts := [{ openPkt with fence := some (0, 2, pairs) }] }] }

/-- Of Packets, after dispatch: a FENCE that is met, that is not, and that expires; an FFENCE that is the oldest; a packet to
be read ahead; a report whose turn has come and one that must wait; a candidate whose age rises and one that does not. -/
theorem wit_Packets_events :
    (∀ s ∈ [fenced [(0x5000, 77), (0x5008, 5)] 1024, fenced [(0x5000, 78), (0x5008, 5)] 1024],
      (s.queueOf 3).isSome = true ∧ [0x5000, 0x5008].all fun va =>
        okIs (s.translate va .read) fun t => va % 8 == 0 && !s.badBytes t.1 8) ∧
    okIs ((fenced [] 0).translate 0x5000 .read) (fun t => leNat (memBytes (fenced [] 0).mem t.1 8) == 77) = true ∧
    (fenced [] 1024).cycle = 0 + 2 ^ (2 * 2 + 6) ∧ 0 + 2 ^ (2 * 2 + 6) < (fenced [] 1025).cycle ∧
    okIs ((fenced [] 0).translate 0x5000 .read) (fun t => decide (leNat (memBytes (fenced [] 0).mem t.1 8) < 78)) = true ∧
    (let o := { openPkt with ffence := true }
     let x := { mapped 3 with pkts := [o] }
     ({ packed nop with queues := [x] } : State).queueOf 3 = some x ∧
       x.pkts.find? (fun p => p.ffence && p.status.isNone) = some o ∧
       (x.pkts.all fun e => e.box || e.status.isSome || decide (o.id ≤ e.id)) = true) ∧
    ((mapped 3).slot.isSome = true ∧ (mapped 3).num ≠ 0 ∧
      ((mapped 3).pkts.any fun p => (p.ffence || decide (p.treadle = some true)) && p.status.isNone) = false ∧
      (packed nop).walkAhead (mapped 3) 18 (mapped 3).cur ((mapped 3).num + 1) = some ((mapped 3).cur, 7) ∧ 7 ≤ (mapped 3).num + 16) ∧
    (let o := { openPkt with status := some 1 }
     let x := { mapped 3 with pkts := [o] }
     let s : State := { packed nop with queues := [x] }
     x.reportable o = true ∧ s.writeFault (o.va + 2) 1 = none ∧ o.sig % 8 = 0 ∧
       (s.writeGlobal none x.agent 0 (o.va + 2) [1]).writeFault o.sig 8 = none) ∧
    ({ mapped 3 with pkts := [openPkt] } : Queue).reportable openPkt = false ∧
    (let x := { mapped 3 with slot := none }
     let e : State := { packed nop with queues := [x], clock := 10 ^ 9 }
     let s : State := { e with mem := memStore e.mem 0x21028 (leBytes 8 1) }
     s.queueOf 3 = some x ∧ s.isCandidate x = true ∧ s.qAge 3 < 15 ∧ s.qPend 3 = true ∧ x.ageAt + s.agePeriod ≤ s.clock ∧
       ({ s with mem := memStore s.mem 0x21028 (leBytes 8 0xF0001) } : State).qAge 3 = 15 ∧
       s.agePeriod ≠ 0 ∧ ({ s with clock := 0 } : State).clock < x.ageAt + s.agePeriod) := by decide +kernel

/-- Its packet read ahead. -/
theorem wit_Packets_ahead : (packed nop).readPacket (mapped 3) (mapped 3).cur = .packet (pack nop) :=
  peek_of (s := packed nop) (x := mapped 3) (by decide +kernel)

/-- Of TreadleProgram: a run with its budget and one without; addresses aligned (w1) and not (w1 + 2) of words stored by the
run, stored twice, and not stored; 15 stores and 16; 3 packets and 4; registers equal and not. -/
theorem wit_TreadleProgram :
    let twice := { program with stores := [(0x5008, 9), (0x5008, 10)] }
    (weaving program).curRun = some program ∧ program.budget ≠ 0 ∧ program.reg 1 = 0x5008 ∧
    program.reg 2 ≠ program.reg 1 ∧ (program.reg 1).toNat < (program.reg 2).toNat ∧
    ((program.reg 1 + 0).toNat % 8 = 0 ∧ okIs ((weaving program).translate 0x5008 .read) (fun _ => true) = true ∧
      program.stores.find? (fun w => w.1 = 0x5008) = none) ∧
    ((weaving twice).curRun = some twice ∧ twice.stores.reverse.find? (fun w => w.1 = 0x5008) = some (0x5008, 10)) ∧
    (program.reg 1 + 2).toNat % 8 ≠ 0 ∧ (List.replicate 15 ((0x5100, 7) : Nat × W64)).length < 16 ∧
    (weaving { program with stores := List.replicate 16 (0x5100, 7) }).curRun.isSome = true ∧
    (program.reg 7).toNat % 64 = 0 ∧ okIs ((weaving program).translate 0x30000 .read) (fun _ => true) = true ∧
    ((weaving program).badBytes 0x30000 64 = false ∧ (weaving program).badBytes 0x5008 8 = false ∧
      ({ weaving program with bad := [0x5008] } : State).badBytes 0x5008 8 = true) ∧
    program.emits.length < 4 ∧ (program.reg 1).toNat % 64 ≠ 0 ∧
    (weaving { program with emits := List.replicate 4 (pack nop) }).curRun.isSome = true ∧
    (∀ w ∈ twice.stores, (weaving twice).writeFault w.1 8 = none) ∧
    (weaving { program with budget := 0 }).runs.find? (fun r => r.q = 3) = some { program with budget := 0 } := by
  decide +kernel

def waitingLaunch : Launch := launchWith []

/-- Queue 3 with a launch; queue 4 to be destroyed; wake and residency entries. -/
def attended : State :=
  { packed nop with
    launches := [waitingLaunch], queues := [{ mapped 3 with pkts := [{ openPkt with launch := some 1030 }] }],
    requests := [{ kind := .destroy, queue := 4, lid := none }], wake := [(3, true), (4, false)], rreqs := [(0, 1), (0, 2)],
    rreqWait := [(0, 3)], resReqs := [{ ix := 0, ch := 1, waiters := [1500] }] }

/-- A destruction of queue 3 under way, a translation flush, a Treadle load at 0x7000 of `n` words and a report. -/
def destroying (n w : Nat) : State :=
  putDev 0x10030 0x8000000000000003 (putDev 0x50008 0x8000000000000000
    { attended with
      queues := [mapped 3], launches := [], requests := [{ kind := .destroy, queue := 3, lid := none }], rreqWait := [],
      rivBusy := some ⟨1, 0, 9⟩, tload := some 0x7000, report := some 0x8000,
      mem := memStore attended.mem 0x7000 (leBytes 4 0x31445254 ++ leBytes 4 n ++ leBytes 8 0 ++ leBytes 4 w) })

/-- A preemption of the launch under way, with room for `len` bytes. -/
def preempting (len : W64) : State :=
  putDev 0x10068 0x8000000000000000 (putDev 0x10060 len
    { attended with
      requests := [{ kind := .preempt, queue := 3, lid := some 1030 }], launches := [{ waitingLaunch with stopped := true }] })

/-- Of DeviceRegisters: doorbells of a queue in order, with an error in its control block, with more published than it holds,
absent and halted. -/
theorem wit_DeviceRegisters_doorbells :
    (attended.cb 4).isNone = true ∧ (attended.cb 3).isSome = true ∧ attended.qDead 3 = false ∧ attended.qHalt 3 = false ∧
    (attended.queueOf 3).any (fun x => x.slot.isSome) = true ∧ attended.cbError 3 = false ∧
    (attended.cbField 3 0x10 0 64 + 2 ^ 64 - attended.cbField 3 0x20 0 64) % 2 ^ 64 ≤ attended.qSize 3 ∧
    ({ attended with mem := memStore attended.mem 0x21030 [1] } : State).cbError 3 = true ∧
    ({ attended with mem := memStore attended.mem 0x21028 [8] } : State).qHalt 3 = true ∧
    ({ attended with mem := memStore attended.mem 0x21028 [4] } : State).qDead 3 = true := by decide +kernel

/-- Each handle given, with no user. -/
def allTaken : List Handle := (List.range 64).map fun h => { h := h, words := [], users := 0, freed := false }

/-- Of it: destruction asked for, refused and complete; programs loaded, being loaded, with their header wrong, with a word
that is refused, and well. -/
theorem wit_DeviceRegisters_commands :
    (attended.devReg 0x10030).getLsbD 63 = false ∧ ((destroying 1 0).devReg 0x10030).getLsbD 63 = true ∧
    (destroying 1 0).requests.find? (fun r => decide (r.kind = .destroy ∧ r.queue = 3)) =
      some { kind := .destroy, queue := 3, lid := none } ∧
    (destroying 1 0).queueOf 3 = some (mapped 3) ∧ (mapped 3).pkts = [] ∧ (destroying 1 0).launches = [] ∧
    (destroying 1 0).destroyMissing 3 = [] ∧ attended.tload = none ∧ (destroying 1 0).tload = some 0x7000 ∧
    (destroying 1 0).handles = [] ∧ (∃ h < 64, ∀ e ∈ (destroying 1 0).handles, e.h ≠ h) ∧
    (∀ h < 64, ∃ e ∈ allTaken, e.h = h) ∧ (∀ e ∈ allTaken, e.h = bitsOf (3 : W64) 0 6 → e.users = 0) ∧
    (∀ p ∈ [(0, 0), (1, 0x46000000), (1, 0x70000000), (1, 0x3F000000)],
      leNat (memBytes (destroying p.1 p.2).mem 0x7004 4) = p.1 ∧ leNat (memBytes (destroying p.1 p.2).mem 0x7000 4) = 0x31445254 ∧
      leNat (memBytes (destroying p.1 p.2).mem 0x7008 8) = 0 ∧ leNat (memBytes (destroying p.1 p.2).mem 0x7010 4) = p.2) ∧
    verifyWords [0x70000000] ≠ 0 ∧ verifyWords [0x3F000000] = 0 := by decide +kernel

/-- Of it: preemption while one is under way, of a launch, and complete with room and without. -/
theorem wit_DeviceRegisters_preemption :
    ((preempting 0x10).devReg 0x10068).getLsbD 63 = true ∧ (attended.devReg 0x10068).getLsbD 63 = false ∧
    (attended.queueOf 3).any (fun x => x.slot.isSome && x.preemptable == some 1030) = true ∧
    attended.qDead (bitsOf 3 0 16) = false ∧
    (let s := preempting 0x10
     s.requests.find? (fun r => decide (r.kind = .preempt ∧ r.queue = 3)) = some { kind := .preempt, queue := 3, lid := some 1030 } ∧
     s.launchOf 1030 = some { waitingLaunch with stopped := true } ∧ s.preemptMissing 3 1030 = [] ∧ s.tasks = [] ∧
     (s.devReg 0x10060).toNat = 0x10 ∧ ((preempting 0x1000).devReg 0x10060).toNat = 0x1000) := by decide +kernel

theorem layBytes_length (len : Nat) (ps : List (Nat × List Byte)) (h : ∀ p ∈ ps, p.1 + p.2.length ≤ len) :
    (layBytes len ps).length = len := by
  unfold layBytes
  suffices ∀ acc : List Byte, acc.length = len →
      (ps.foldl (fun acc p => acc.take p.1 ++ p.2 ++ acc.drop (p.1 + p.2.length)) acc).length = len from
    this _ List.length_replicate
  induction ps with
  | nil => exact fun _ ha => ha
  | cons p ps ih =>
    intro acc ha
    refine ih (fun q hq => h q (List.mem_cons_of_mem _ hq)) _ ?_
    have := h p (List.mem_cons_self ..)
    simp only [List.length_append, List.length_take, List.length_drop, ha]
    omega

/-- Its checkpoint takes 4096 bytes. -/
theorem wit_DeviceRegisters_checkpoint (len : W64) :
    ((preempting len).checkpoint { waitingLaunch with stopped := true } none).length = 4096 := by
  have t : (preempting len).tasks = [] := rfl
  have c : (preempting len).carriedContents { waitingLaunch with stopped := true } = [] := rfl
  have e : alignUp 256 4096 = 4096 := by decide
  simp only [State.checkpoint, t, c, List.filter_nil, List.length_nil, Nat.mul_zero, Nat.add_zero, e, List.isEmpty_nil, if_true]
  have inner := fun ps h => layBytes_length 4096 ps h
  rw [layBytes_length]
  simp only [List.forall_mem_cons]
  refine ⟨?_, ?_, fun _ h => absurd h (List.not_mem_nil)⟩
  · rw [inner]
    simp [leBytes_length]
  · simp [leBytes_length]

/-- No cell reads as damaged where none is and no stack is lost. -/
theorem sound_of {s : State} (h : s.bad = [] ∧ s.outUnits = []) (p : Nat) : s.badCell p = false := by
  simp [State.badCell, State.granuleLost, h.1, h.2]

/-- Of it: residency, with entries that wait and none, a request that waits and none; translation flushes and reports; a
register that software writes and one it does not; an operating point and none. -/
theorem wit_DeviceRegisters_rest :
    (∀ p, attended.badCell p = false) ∧ attended.rreqs = (0, 1) :: [(0, 2)] ∧ (destroying 1 0).rreqWait = [] ∧ attended.rreqWait = (0, 3) :: [] ∧
    (attended.resReqs.any fun r => decide (r.ix = bitsOf (1 : W64) 32 20 ∧ r.ch = bitsOf (1 : W64) 0 32)) = true ∧
    (attended.resReqs.all fun r => decide (r.ix ≠ bitsOf (2 : W64) 32 20 ∨ r.ch ≠ bitsOf (2 : W64) 0 32)) = true ∧
    Memory.wf attended.mem = true ∧ bitsOf (0 : W64) 0 20 < attended.rtCount ∧ (destroying 1 0).rivBusy.isSome = true ∧
    attended.rivBusy = none ∧ ((destroying 1 0).devReg 0x50008).getLsbD 63 = true ∧
    (attended.devReg 0x50008).getLsbD 63 = false ∧ (0x8001 : W64).setWidth 8 = (1 : BitVec 8) ∧
    bitsOf (0x8001 : W64) 12 44 * 4096 + 4096 ≤ Config.hbmBytes ∧ (destroying 1 0).report = some 0x8000 ∧
    Memory.wf (destroying 1 0).mem = true ∧ attended.writeMask 0x10011 = none ∧ (attended.writeMask 0x40018).isSome = true ∧
    pointClock 0 = some 4000 ∧ pointClock 200 = none := ⟨sound_of (by decide +kernel), by decide +kernel⟩

/-- The package on the fabric, links 1 and 2 in service. -/
def linked (s : State) : State := putDev 0x100000 0x100000102 (putDev 0x100008 6 s)

def message (op : RemoteOp) : RemoteMsg := { peer := 2, seq := 9, agent := 7, seen := [], pa := 0x5008, op := op }

/-- Message 9 of peer 2 performed, cell 0x5008 full, link 3 out of service. -/
def performed : State :=
  { linked (packed nop) with
    full := [0x5008], channels := [{ peer := 2, vc := 0, next := 0, performed := [9], acts := [] }],
    acks := [({ peer := 2, vc := 0, seq := 9 }, .data [5])], outLinks := [3] }

/-- The card store at 0x5000 and a request of command 4. -/
def stored : State :=
  { linked (packed nop) with
    csBase := 0x5000, csLen := 0x1000,
    sent := [{ peer := 2, seq := 9, link := 1, owner := 4, pa := 0, op := .read 8, ea := 0, reply := none, by_ := none,
               born := 0 }] }

/-- Weft port 0 in use with a frame to send and a buffer to receive into. -/
def weft : State :=
  putDev 0x130018 0x0000000500010003 (putDev 0x130000 3 (putDev 0x130008 0x8005 (putDev 0x130010 0x9005
    { linked (packed nop) with mem := memOf [(0x8010, 0xA000), (0x8018, 4), (0xA000, 0x0123456789ABCDEF), (0x9050, 0xB000)] })))

/-- A task here has written the cell at 0x5008. -/
def raced : State :=
  { linked (packed nop) with
    tasks := [{ gangTask with
      table := [{ lo := 0x5008, hi := 0x5010, issuer := 5, epoch := 1, job := none,
                  acc := { agent := 5, home := 0, epoch := 1, write := true, kind := .plain, ext := .dm } }] }] }

/-- The message races in `s` with what the task recorded. -/
def msgRaces (s : State) (op : RemoteOp) (kind : AccKind) (write : Bool) (n : Nat) : Bool :=
  let m := message op
  let e := s.performedMsg m
  e.remoteRaces { e.remoteActor m kind with acc := e.remoteAccess m write kind } m.pa n

/-- Of LinksAndPorts: messages that race with a task's access and that do not. -/
theorem wit_LinksAndPorts_races :
    (∀ p, raced.badCell p = false) ∧ (∀ p, (linked (packed nop)).badCell p = false) ∧
    msgRaces raced (.read 8) .plain false 8 = true ∧ msgRaces (linked (packed nop)) (.read 8) .plain false 8 = false ∧
    msgRaces raced (.write [1]) .plain true 1 = true ∧ msgRaces (linked (packed nop)) (.write [1]) .plain true 1 = false ∧
    msgRaces raced (.atomic 0 1) (.update 0) true 8 = true ∧
    msgRaces (linked (packed nop)) (.atomic 0 1) (.update 0) true 8 = false ∧
    msgRaces raced (.contribute 0 1) (.contribution 0) true 8 = true ∧
    msgRaces (linked (packed nop)) (.contribute 0 1) (.contribution 0) true 8 = false ∧
    contributionFault ((linked (packed nop)).lineAt 0x5008) 0x5008 0 = some 0x23 ∧
    (linked (packed nop)).refusesLine 0x5008 3 = false ∧ (linked (packed nop)).refusesLine 0x5008 0 = true ∧
    ({ linked (packed nop) with bad := [0x5008] } : State).badCell (0x5008 / 8 * 8) = true ∧
    (raced.channel 2).performed = [] :=
  ⟨sound_of (by decide +kernel), sound_of (by decide +kernel), by decide +kernel⟩

/-- Of LinksAndPorts: the package off the fabric and on it; a message performed before and a new one, in the card store and
outside it; lines declared at its place and none; a full cell and an empty one; an acknowledgement that is waited for; links
in and out of service; the weft port's rings with something to do and nothing, and frames of both kinds; a store. -/
theorem wit_LinksAndPorts :
    let m := message (.read 8)
    ((packed nop).devReg 0x100000).getLsbD 8 = false ∧ ((linked (packed nop)).devReg 0x100000).getLsbD 8 = true ∧
    (performed.devReg 0x100000).getLsbD 8 = true ∧ (performed.channel m.peer).performed.contains m.seq = true ∧
    performed.acks = [(msgTag m, .data [5])] ∧ stored.acks = [] ∧ ((linked (packed nop)).channel m.peer).performed.contains m.seq = false ∧
    ¬((linked (packed nop)).csBase ≤ m.pa ∧ m.pa < (linked (packed nop)).csBase + (linked (packed nop)).csLen) ∧
    (stored.csBase ≤ m.pa ∧ m.pa < stored.csBase + stored.csLen) ∧ (stored.channel m.peer).performed.contains m.seq = false ∧
    (linked (packed nop)).linePending m.pa = false ∧
    (let n := { counted with line := 0x5000, flag := 0x5048, recv := 0, panel := panelOf m.pa }
     { linked (packed nop) with lines := [n] : State }.linePending m.pa = true) ∧
    performed.fe m.pa = true ∧ (linked (packed nop)).fe m.pa = false ∧ tagOf (linked (packed nop)).tags (cellOf m.pa) = [] ∧
    (∃ o ∈ stored.sent, o.peer = m.peer ∧ o.seq = m.seq ∧ o.owner ≠ 0) ∧
    performed.outLinks.contains 2 = false ∧ performed.outLinks.contains 3 = true ∧
    (performed.devReg 0x100008).getLsbD 3 = false ∧ (performed.devReg 0x100008).getLsbD 1 = true ∧
    (let idx := weft.devReg (weftPort 0 + 0x18)
     bitsOf idx 0 16 ≠ bitsOf idx 16 16 ∧ bitsOf (weft.devReg (weftPort 0)) 0 2 = 3 ∧
       (bitsOf idx 32 16 + 65536 - bitsOf idx 48 16) % 65536 < 2 ^ bitsOf (weft.devReg (weftPort 0 + 0x10)) 0 5) ∧
    (let idx := (packed nop).devReg (weftPort 0 + 0x18)
     bitsOf idx 0 16 = bitsOf idx 16 16) ∧
    etherType (List.replicate 12 1 ++ [0x88, 0xB5, 3]) = 0x88B5 ∧ etherType (List.replicate 12 1 ++ [0x88, 0xB6, 3]) ≠ 0x88B5 ∧
    (List.replicate 12 (1 : Byte) ++ [0x88, 0xB5, 3]).length ≤ 9216 ∧ 0x6001 + [1, 2, 3].length ≤ Config.hbmBytes := by
  decide +kernel

/-- Core 4 runs in a mode, with this value in satp. -/
def cored (mode : HartMode) (satp : W64) : State :=
  (packed nop).modHart 4 fun x => { x with started := true, mode := mode, satp := satp }

/-- Of it: a core that has not started, one that no translation holds, and one whose page is not mapped; bring-up at the steps
that measure an image. -/
theorem wit_LinksAndPorts_cores :
    (packed nop).hart 4 = Hart.reset ∧ ((cored .machine 0).hart 4).started = true ∧ ((cored .machine 0).hart 4).mode = .machine ∧
    bitsOf ((cored .user 0).hart 4).satp 60 4 = 0 ∧ ((cored .user (8 <<< 60)).hart 4).started = true ∧
    (cored .user (8 <<< 60)).coreAddress 4 0x6000 true = none ∧ (cored .user 0).coreAddress 4 0x6000 true = some 0x6000 ∧
    Config.hbmBytes - 1 < Config.hbmBytes ∧ Config.hbmBytes < Config.hbmBytes - 1 + [1, 2].length ∧
    (packed nop).bootStopped = false ∧
    ∀ k ∈ [1, 3], bitsOf ((putDev 0x50008 (BitVec.ofNat 64 (256 * k)) (packed nop)).devReg 0x50008) 8 8 = k := by decide +kernel

/-- A task's image and arguments that have been read. -/
def loads (s : State) (l : Launch) (t : Task) : Bool :=
  match s.loadTask l t with
  | .ok _ im _ => decide (im.pocketAt + (im.part im.pocket).length ≤ Config.pocketBytes)
  | _ => false

theorem loads_ex {s : State} {l : Launch} {t : Task} (h : loads s l t = true) :
    ∃ e im args, s.loadTask l t = .ok e im args ∧ im.pocketAt + (im.part im.pocket).length ≤ Config.pocketBytes := by
  unfold loads at h; split at h
  · exact ⟨_, _, _, ‹_›, of_decide_eq_true h⟩
  · exact absurd h (by decide)

/-- A task that may start, with its image at 0x7000. -/
def freshTask : Task :=
  { gangTask with gang := false, slots := [], stat := .pending, shuttles := [], places := [], slv := 1,
                  bars := Vector.replicate 4 { gangTask.bars[0] with made := [] } }

def tasked (card : Option Card) (ts : List Task) : State :=
  { world [(0x7000, 0x131444255), (0x7008, 0xA0), (0x7010, 0x400000060), (0x7038, 0x1000000080), (0x7040, 0x200), (0x7050, 0),
           (0x7054, 0x800000090), (0x7060, 0x48000020), (0x7080, 0x1122334455667788), (0x7088, 0x99), (0x7090, 0x77),
           (0x6400, 1), (0x6408, 2), (0x6410, 3), (0x6418, 4)] with
    launches := [{ waitingLaunch with argp := 0x6400, card := card }], tasks := ts,
    queues := [{ mapped 3 with pkts := [{ openPkt with launch := some 1030 }] }] }

def startOf (card : Option Card) : Launch := { waitingLaunch with argp := 0x6400, card := card }

def cardTask : CardTask :=
  { index := 0, order := 4, places := [3], shuttles := [9], dual := false, carry := none, succs := [], slv := 1, blt := 0,
    sbase := 0x10000, bbase := 0, shape0 := 0, shape1 := 0, cond := none, ranges := [], copies := [1, 0], deltas := [] }

def card (ver : BitVec 32) (hep : W64) : Card :=
  { hash := 5, ver := ver, hep := hep, gang := 1, nfail := 2, usable := true, since := 0, base := 1, prior := some (2, 1), own := false,
    groups := [], placeMap := [(3, 9)], tasks := [cardTask] }

/-- Of Tasks: a start by the Drafter and by the Dobby, and a shape that has changed. -/
theorem wit_Tasks_starts :
    (let s := tasked none [freshTask]
     s.taskOf 1031 = some freshTask ∧ s.launchOf 1030 = some (startOf none) ∧ Memory.wf s.mem = true ∧
       freshTask.saved = false ∧ s.mayStart (startOf none) freshTask = true ∧
       s.placementOk (startOf none) freshTask [(3, 9)] = true ∧ s.grantsOk freshTask [9] 0x10000 0 = true ∧
       s.isOldest 1031 = true) ∧
    (∃ e im args, (tasked none [freshTask]).loadTask (startOf none) freshTask = .ok e im args ∧
      im.pocketAt + (im.part im.pocket).length ≤ Config.pocketBytes) ∧
    (let s := tasked (some (card 1 0)) [freshTask]
     let l := startOf (some (card 1 0))
     s.launchOf 1030 = some l ∧ Memory.wf s.mem = true ∧ s.mayStart l freshTask = true ∧
       (card 1 0).tasks.find? (fun k => k.index = freshTask.index) = some cardTask ∧
       s.laneBefore l (card 1 0) cardTask = [] ∧ l.failed = false ∧ freshTask.guarded = false ∧
       s.hepoch = (card 1 0).hep ∧ s.hepoch ≠ (card 1 7).hep ∧
       freshTask.shape0 = 0 ∧ freshTask.shape1 = 0 ∧ freshTask.mismatches = 0 ∧
       s.healthGuard l (card 1 0) cardTask = true ∧ cardTask.shuttles.Nodup ∧
       cardTask.places.length = cardTask.shuttles.length ∧
       (s.modTask 1031 fun t => { t with guarded := true }).cardFree freshTask cardTask = true) ∧
    (∃ e im args, (tasked (some (card 1 0)) [freshTask]).loadTask (startOf (some (card 1 0))) freshTask = .ok e im args ∧
      im.pocketAt + (im.part im.pocket).length ≤ Config.pocketBytes) ∧
    (tasked (some (card 1 0)) [{ freshTask with shape0 := 0x6400 }]).creelRead 1031 0x6400 8 =
      .ok (tasked (some (card 1 0)) [{ freshTask with shape0 := 0x6400 }]) (leBytes 8 1) ∧
    BitVec.ofNat 64 (leNat (leBytes 8 1)) ≠ cardTask.shape0 :=
  ⟨by decide +kernel, loads_ex (by decide +kernel), by decide +kernel, loads_ex (by decide +kernel),
   gives_of (by decide +kernel), by decide +kernel⟩

/-- A complete task with one staged write, and its running successor. -/
def doneTask : Task :=
  { freshTask with stat := .complete, shuttles := [9], places := [3], ended := [0],
                   stages := Vector.replicate 2 { writes := [{ va := 0x5010, data := [1, 2, 3, 4], panel := 0 }], reads := [] } }
def successor : Task := { freshTask with tid := 1032, index := 1, preds := 2, stat := .running, shuttles := [10] }

/-- Two copies that differ in their flags. -/
def differing (n : Nat) : Task :=
  { doneTask with
    dual := true, mismatches := n, shuttles := [9, 20], places := [3, 3], ended := [0, 1], flags := #v[0, 1],
    stages := Vector.replicate 2 { writes := [], reads := [] } }

/-- Of it: commits of one task, of equal copies and of copies that differ, the first time and a later one, and of a write to part of
a cell that is damaged. -/
theorem wit_Tasks_commits :
    (∀ t ∈ [doneTask, { doneTask with dual := true }],
      let s := tasked none [t, successor]
      s.taskOf 1031 = some t ∧ s.mayCommit t = true ∧ t.performed = false ∧ t.committing = false ∧
      s.checkStaged 1031 (t.stages[0]).writes = .pass ∧ s.sent = [] ∧ s.commitLost t = none ∧
      ({ s with bad := [0x5010] } : State).commitLost t = some 5 ∧
      ({ s with bad := [0x5010] } : State).checkStaged 1031 (t.stages[0]).writes = .pass ∧ t.cond = 0 ∧ (startOf none).card = none ∧
      (∀ v ∈ s.tasks, v.untaken = false ∧ ∀ g ∈ v.stages.toList, g.reads = []) ∧
      (∃ v ∈ s.tasks, v.lid = 1030 ∧ v.tid ≠ 1031 ∧ v.stat = .running) ∧ (∀ e ∈ t.edges, e.cond = false) ∧ t.wrote = [] ∧
      s.taskOf successor.tid = some successor ∧ successor.lid = 1030) ∧
    okIs ((tasked none [doneTask]).locate 0x5010 .write) (fun d => match d.1 with
      | .home _ => true
      | _ => false) = true ∧ 0x5010 % 64 + 4 ≤ 64 ∧
    ({ doneTask with dual := true } : Task).signature 0 = ({ doneTask with dual := true } : Task).signature 1 ∧
    ∀ n ∈ [0, 1], (tasked none [differing n]).taskOf 1031 = some (differing n) ∧
      (tasked none [differing n]).mayCommit (differing n) = true ∧ (differing n).dual = true ∧ (differing n).performed = false ∧
      (differing n).signature 0 ≠ (differing n).signature 1 ∧ (differing n).mismatches = n :=
  ⟨by decide +kernel, by decide +kernel, by decide, rfl, by decide +kernel⟩

/-- Packages 0 and 5 form the gang of this one, 0, or 5. -/
def gang (s : State) (pkn : W64 := 0) : State := putDev 0x100000 (0x100 + pkn) (putDev 0x100010 0x10000 (putDev 0x100200 0x21 s))

/-- A launch of the card's hash that is the second of its gang. -/
def secondLaunch : State :=
  let s := gang (tasked none [freshTask])
  { s with launches := [{ startOf none with ordinal := some 2 }], cards := [card 3 0], csLen := 0x10000, ganged := [(5, 6)] }

/-- A message of package 5, and of one outside the gang. -/
def told (peer : BitVec 8) : Tag := { peer := peer, vc := 0, seq := 7 }

/-- Of it: a KILL and a token that can be completed; cards of a higher version and not, held by a member that records and by one that
does not; members of the gang and not; messages that are new and repeated; stops of a launch that is here, of one to come and of
one that has ended; the steps of the gang. -/
theorem wit_Tasks_launches :
    (let r : Request := { kind := .kill, queue := 3, lid := some 1030 }
     let s : State := { tasked none [freshTask] with requests := [r] }
     s.requests.find? (fun r => decide (r.kind = .kill ∧ r.queue = 3) && (match r.lid with
       | some lid => s.quiet lid
       | none => false)) = some r ∧ (s.queueOf 3).any (fun x => x.pkts.any fun p => decide (p.id = 6) && p.status.isNone) = true) ∧
    (let s : State := { tasked none [freshTask] with cards := [card 3 0], csLen := 0x10000 }
     let m : Card := { card 4 0 with usable := true }
     s.cardOf (card 4 0).hash = some (card 3 0) ∧ (card 3 0).usable = true ∧ s.recordsCards = true ∧ s.gangSize = 1 ∧
       (card 4 0).hep = (card 3 0).hep ∧ (card 3 0).ver.toNat < (card 4 0).ver.toNat ∧ Card.placed (card 4 0) = true ∧
       fitCards s.csLen [m] = [m]) ∧
    (let s := secondLaunch
     let twice : State := { s with channels := [{ peer := 5, vc := 0, next := 0, performed := [7], acts := [] }] }
     s.pkn = 0 ∧ s.recordsCards = true ∧ (gang s 5).pkn = 5 ∧ (gang s 5).recordsCards = false ∧ (card 3 0).own = false ∧
       (s.devReg 0x100000).getLsbD 8 = true ∧ (s.channel 5 0).performed.contains 7 = false ∧
       (twice.channel (told 5).peer (told 5).vc).performed.contains (told 5).seq = true ∧
       s.gangMembers.contains (told 5).peer = true ∧ s.gangMembers.contains (told 6).peer = false ∧ (told 5).peer ≠ s.pkn ∧
       (told 6).peer ≠ s.pkn ∧ 0 < s.csLen ∧ s.cardOf (card 1 0).hash = some (card 3 0) ∧
       Card.room { card 4 0 with usable := false, own := false, nfail := 2, prior := some (2, 1) } ≤ s.csLen ∧
       (∃ l ∈ s.launches, l.hash = 5 ∧ l.ordinal = some ((card 3 0).base + 1) ∧ l.failed = false) ∧
       (∀ o ∈ s.launches, o.ordinal ≠ some ((card 3 0).base + 7)) ∧ s.begun 5 ≤ (card 3 0).base + 7 ∧ s.stops = [] ∧
       (card 3 0).base + 1 < s.begun 5 ∧ (card 3 0).prior = some ((card 3 0).base + 1, 1) ∧ 4 ≤ 1 + 1 + (card 3 0).nfail ∧
       (∀ k ∈ s.cards, k.hash = 5 → k = card 3 0) ∧ ({ s with launches := [] } : State).launches = [] ∧
       s.lstep = none ∧ ({ s with lstep := some 9 } : State).lstep = some 9 ∧
       (∀ p ∈ s.gangMembers, p = s.pkn ∨ p = 5) ∧ s.gone.contains 5 = false) ∧
    (let s : State := { tasked none [freshTask] with requests := [{ kind := .token, queue := 3, lid := none }] }
     (∃ r ∈ s.requests, r.kind = .token) ∧
       (s.launches.all fun l => !l.stopped || (s.dropColls l.lid).quiet l.lid) = true) ∧
    (∀ o ∈ (tasked none [freshTask]).launches, o.card = none) ∧ (startOf (some (card 1 0))).card.isSome = true := by
  decide +kernel

end

end Sys2Proof.Tests
end

section
namespace Sys2Proof.Machine
open Sys2Proof

/-! # O7: memory holds the bytes written -/

/-! ## What a write leaves where it wrote -/

/-- A list with no cell at an address does not hide the cells joined after it. -/
theorem memByte_append_of_absent_left {m n : List Host.Cell} {a : Nat} (h : ∀ c ∈ m, c.1 ≠ a) :
    memByte (m ++ n) a = memByte n a := by
  rw [memByte_append, if_neg fun ⟨c, hc, e⟩ => h c hc e]

/-- A list with no cell at an address adds nothing after other cells. -/
theorem memByte_append_of_absent_right {m n : List Host.Cell} {a : Nat} (h : ∀ c ∈ n, c.1 ≠ a) :
    memByte (m ++ n) a = memByte m a := by
  rw [memByte_append]
  split
  · rfl
  · rw [memByte_absent n a h, memByte_absent m a fun c hc e => ‹¬ ∃ c ∈ m, c.1 = a› ⟨c, hc, e⟩]

/-- Inside the range written only the new cells count. -/
theorem memByte_memStore_inside (m : List Host.Cell) {a b : Nat} {bs : List Byte} (h : a ≤ b ∧ b < a + bs.length) :
    memByte (memStore m a bs) b = memByte (cellsFrom a bs) b := by
  have below : ∀ c ∈ m.filter fun c => decide (c.1 < a), c.1 ≠ b := fun c hc => by
    have : c.1 < a := by simpa using (List.mem_filter.mp hc).2
    omega
  have above : ∀ c ∈ m.filter fun c => decide (a + bs.length ≤ c.1), c.1 ≠ b := fun c hc => by
    have : a + bs.length ≤ c.1 := by simpa using (List.mem_filter.mp hc).2
    omega
  rw [memStore, memByte_append_of_absent_right above, memByte_append_of_absent_left below]

/-- The first byte the cells were made of; a zero byte makes no cell and reads as zero. -/
theorem memByte_cellsFrom_cons_self (a : Nat) (b : Byte) (bs : List Byte) : memByte (cellsFrom a (b :: bs)) a = b := by
  unfold cellsFrom
  split
  · rw [‹b = 0›]
    exact memByte_absent _ a fun c hc => by have := cellsFrom_range (a + 1) bs c hc; omega
  · simp [memByte]

/-- Above the first byte the cells read as those of the rest. -/
theorem memByte_cellsFrom_cons_above {a x : Nat} (h : a < x) (b : Byte) (bs : List Byte) :
    memByte (cellsFrom a (b :: bs)) x = memByte (cellsFrom (a + 1) bs) x := by
  rw [cellsFrom]
  split
  · rfl
  · rw [memByte, if_neg (by omega)]

/-- Memories that read alike at each address of a range hold the same bytes there. -/
theorem memBytes_congr {m n : List Host.Cell} {a k : Nat} (h : ∀ x, a ≤ x → x < a + k → memByte m x = memByte n x) :
    memBytes m a k = memBytes n a k := by
  induction k generalizing a with
  | zero => rfl
  | succ k ih => rw [memBytes, memBytes, h a (by omega) (by omega), ih fun x h1 h2 => h x (by omega) (by omega)]

theorem memBytes_cellsFrom (a : Nat) (bs : List Byte) : memBytes (cellsFrom a bs) a bs.length = bs := by
  induction bs generalizing a with
  | nil => rfl
  | cons b bs ih =>
    have rest : memBytes (cellsFrom a (b :: bs)) (a + 1) bs.length = memBytes (cellsFrom (a + 1) bs) (a + 1) bs.length :=
      memBytes_congr fun x hx _ => memByte_cellsFrom_cons_above hx b bs
    rw [List.length_cons, memBytes, memByte_cellsFrom_cons_self, rest, ih]

/-- Bytes written are the bytes read. -/
theorem memBytes_memStore_same (m : List Host.Cell) (a : Nat) (bs : List Byte) :
    memBytes (memStore m a bs) a bs.length = bs := by
  rw [memBytes_congr fun x h1 h2 => memByte_memStore_inside m ⟨h1, h2⟩, memBytes_cellsFrom]

/-! ## Memories in canonical form are what they read as -/

/-- The first cell holds the lowest address that does not read as zero. -/
theorem memByte_cons_of_wf {c : Host.Cell} {m : List Host.Cell} (h : Memory.wf (c :: m) = true) :
    memByte (c :: m) c.1 ≠ 0 ∧ (∀ a < c.1, memByte (c :: m) a = 0) ∧ memByte m c.1 = 0 ∧ Memory.wf m = true := by
  obtain ⟨hz, hp⟩ := (wf_iff _).mp h
  obtain ⟨rising, hp⟩ := List.pairwise_cons.mp hp
  obtain ⟨hc, hz⟩ := List.forall_mem_cons.mp hz
  refine ⟨by simpa [memByte] using hc, fun a ha => memByte_absent _ a ?_, memByte_absent _ _ fun d hd => ?_, (wf_iff m).mpr ⟨hz, hp⟩⟩
  · refine List.forall_mem_cons.mpr ⟨by omega, fun d hd => ?_⟩
    have := rising d hd
    omega
  · have := rising d hd
    omega

/-- Two memories in canonical form that read alike are the same list of cells: both begin with the lowest address that reads
as other than zero. -/
theorem eq_of_wf_of_memByte_eq {m n : List Host.Cell} (hm : Memory.wf m = true) (hn : Memory.wf n = true)
    (h : ∀ a, memByte m a = memByte n a) : m = n := by
  induction m generalizing n with
  | nil =>
    cases n with
    | nil => rfl
    | cons d n => exact absurd (h d.1).symm (memByte_cons_of_wf hn).1
  | cons c m ih =>
    obtain ⟨hc, lowc, restc, hm⟩ := memByte_cons_of_wf hm
    cases n with
    | nil => exact absurd (h c.1) hc
    | cons d n =>
      obtain ⟨hd, lowd, restd, hn⟩ := memByte_cons_of_wf hn
      have addr : c.1 = d.1 := by
        rcases Nat.lt_trichotomy c.1 d.1 with hlt | heq | hgt
        · exact absurd ((h c.1).trans (lowd _ hlt)) hc
        · exact heq
        · exact absurd ((h d.1).symm.trans (lowc _ hgt)) hd
      have val : c.2 = d.2 := by simpa [memByte, addr] using h c.1
      have tails : ∀ a, memByte m a = memByte n a := fun a => by
        by_cases ha : c.1 = a
        · rw [← ha, restc, addr, restd]
        · simpa [memByte, ha, ← addr] using h a
      rw [Prod.ext addr val, ih hm hn tails]

/-- Settles O7: a write keeps the other cells by a filter and lays its own between them. -/
theorem memoryStore : Obligations.MemoryStore := by
  intro m a bs hm
  exact ⟨memStore_wf hm a bs, memBytes_memStore_same m a bs, memByte_memStore_ne m a bs, fun n hn => eq_of_wf_of_memByte_eq hm hn⟩

end Sys2Proof.Machine
end

section
namespace Sys2Proof.Machine
open Sys2Proof

/-!
# O8: every step keeps the canonical form of memory

Memory changes only where a function writes bytes (`memStore`) or drops cells by a filter (R3, R16). So there is one lemma
for each function a step is made of, from the operations on the state up to `exec` and `step`, in the order of the model's
files: from a state in canonical form the function leaves one in canonical form. Each proof follows the branches of its
definition and cites the lemmas of what it calls. A result that holds a state in some of its cases is `Ok` when that state is.
-/

/-! ## When a result keeps the form -/

def Result.Ok : Result → Prop
  | .next s => s.Ok
  | _ => True

def Guard.Ok : Guard → Prop
  | .pass s | .fail s | .waits s => s.Ok

def CreelAcc.Ok : CreelAcc → Prop
  | .ok s _ | .waits s => s.Ok
  | .fault => True

def Loaded.Ok : Loaded → Prop
  | .ok s _ _ | .waits s => s.Ok
  | .fault => True

def Begin.Ok : Begin → Prop
  | .ran s _ _ _ | .wait s | .fail s | .format s => s.Ok

def RunOut.Ok : RunOut → Prop
  | .all s _ | .more s _ | .fault s _ _ _ | .park s _ => s.Ok

def Halt.Ok : Halt → Prop
  | .park s _ => s.Ok
  | _ => True

def Count.Ok : Count → Prop
  | .waits s => s.Ok
  | _ => True

def TreadleEff.Ok : TreadleEff → Prop
  | .waits s => s.Ok
  | _ => True

def Peek.Ok : Peek → Prop
  | .waits s => s.Ok
  | _ => True

def Due.Ok : Due → Prop
  | .instr _ s | .boundary _ s | .idle s => s.Ok
  | .odd => True

/-- A row of a move answers what satisfies `P`, or stops in canonical form. -/
def RowOk {α : Type} (P : α → Prop) : Except Halt α → Prop
  | .ok a => P a
  | .error h => h.Ok

/-! ## The state in a result: what a case of a `match` gives -/

section
variable {s : State}

theorem CreelAcc.Ok.ok {a : CreelAcc} {bs : List Byte} (ha : a.Ok) (h : a = .ok s bs) : s.Ok := by
  subst h; exact ha

theorem CreelAcc.Ok.waits {a : CreelAcc} (ha : a.Ok) (h : a = .waits s) : s.Ok := by
  subst h; exact ha

theorem Guard.Ok.pass {a : Guard} (ha : a.Ok) (h : a = .pass s) : s.Ok := by
  subst h; exact ha

theorem Guard.Ok.fail {a : Guard} (ha : a.Ok) (h : a = .fail s) : s.Ok := by
  subst h; exact ha

theorem Guard.Ok.waits {a : Guard} (ha : a.Ok) (h : a = .waits s) : s.Ok := by
  subst h; exact ha

theorem Loaded.Ok.ok {a : Loaded} {i : Image} {v : Vector W64 4} (ha : a.Ok) (h : a = .ok s i v) : s.Ok := by
  subst h; exact ha

theorem Loaded.Ok.waits {a : Loaded} (ha : a.Ok) (h : a = .waits s) : s.Ok := by
  subst h; exact ha

theorem Count.Ok.waits {a : Count} (ha : a.Ok) (h : a = .waits s) : s.Ok := by
  subst h; exact ha

theorem TreadleEff.Ok.waits {a : TreadleEff} (ha : a.Ok) (h : a = .waits s) : s.Ok := by
  subst h; exact ha

theorem Peek.Ok.waits {a : Peek} (ha : a.Ok) (h : a = .waits s) : s.Ok := by
  subst h; exact ha

theorem Begin.Ok.wait {a : Begin} (ha : a.Ok) (h : a = .wait s) : s.Ok := by
  subst h; exact ha

theorem Begin.Ok.format {a : Begin} (ha : a.Ok) (h : a = .format s) : s.Ok := by
  subst h; exact ha

theorem Begin.Ok.fail {a : Begin} (ha : a.Ok) (h : a = .fail s) : s.Ok := by
  subst h; exact ha

theorem Begin.Ok.ran {a : Begin} {st : Option Nat} {f : Pkt → Pkt} {k : Nat} (ha : a.Ok) (h : a = .ran s st f k) : s.Ok := by
  subst h; exact ha

theorem RunOut.Ok.all {a : RunOut} {m : Move} (ha : a.Ok) (h : a = .all s m) : s.Ok := by
  subst h; exact ha

theorem RunOut.Ok.more {a : RunOut} {m : Move} (ha : a.Ok) (h : a = .more s m) : s.Ok := by
  subst h; exact ha

theorem RunOut.Ok.fault {a : RunOut} {m : Move} {c : BitVec 8} {v : W64} (ha : a.Ok) (h : a = .fault s m c v) : s.Ok := by
  subst h; exact ha

theorem RunOut.Ok.park {a : RunOut} {m : Move} (ha : a.Ok) (h : a = .park s m) : s.Ok := by
  subst h; exact ha

theorem Halt.Ok.park {l : List (Nat × Nat)} (h : (Halt.park s l).Ok) : s.Ok := h

theorem fst_ok {α : Type} {p : State × α} {a : α} (hp : p.1.Ok) (h : p = (s, a)) : s.Ok := by
  subst h; exact hp

end

theorem Result.ok_iff {r : Result} : Result.Ok r ↔ ∀ t, r = .next t → t.Ok := by
  cases r with
  | next s => exact ⟨fun h t e => by injection e with e; subst e; exact h, fun h => h s rfl⟩
  | fault => exact ⟨fun _ _ e => by simp at e, fun _ => trivial⟩
  | refused => exact ⟨fun _ _ e => by simp at e, fun _ => trivial⟩

/-! ## The rules of `Except Halt` -/

section
variable {α β : Type} {P : α → Prop} {Q : β → Prop} {r : Except Halt α} {a : α}

theorem RowOk.ok (hr : RowOk P r) (h : r = .ok a) : P a := by
  subst h; exact hr

theorem RowOk.error {e : Halt} (hr : RowOk P r) (h : r = .error e) : e.Ok := by
  subst h; exact hr

theorem RowOk.pure (h : P a) : RowOk P (pure a) := h

theorem RowOk.bind {f : α → Except Halt β} (hr : RowOk P r) (hf : ∀ a, P a → RowOk Q (f a)) : RowOk Q (r >>= f) := by
  cases r with
  | ok a => exact hf a hr
  | error e => exact hr

theorem RowOk.foldlM {f : α → β → Except Halt α} {l : List β} (ha : P a) (hf : ∀ a b, P a → RowOk P (f a b)) :
    RowOk P (l.foldlM f a) := by
  induction l generalizing a with
  | nil => exact ha
  | cons b l ih => exact (hf a b ha).bind fun _ => ih

end

/-! ## Shapes that every function is written in -/

/-- An update of fields other than memory. -/
theorem State.Ok.update {s t : State} (hs : s.Ok) (h : t.mem = s.mem) : t.Ok := by
  unfold State.Ok at *; rwa [h]

theorem ite_ok {α : Type} {P : α → Prop} {c : Prop} [Decidable c] {a b : α} (ha : P a) (hb : P b) :
    P (if c then a else b) := by
  split
  · exact ha
  · exact hb

theorem foldl_ok {α : Type} {f : State → α → State} {s : State} {l : List α} (hs : s.Ok)
    (hf : ∀ s a, s.Ok → (f s a).Ok) : (l.foldl f s).Ok := by
  induction l generalizing s with
  | nil => exact hs
  | cons a l ih => exact ih (hf s a hs)

/-- A fold over a state and what it gathers. -/
theorem foldl_fst_ok {α β : Type} {f : State × α → β → State × α} {x : State × α} {l : List β} (hx : x.1.Ok)
    (hf : ∀ x b, x.1.Ok → (f x b).1.Ok) : (l.foldl f x).1.Ok := by
  induction l generalizing x with
  | nil => exact hx
  | cons b l ih => exact ih (hf x b hx)

section
variable {s : State}

theorem wait_resOk (hs : s.Ok) {kind : StallKind} {limit : Nat} : Result.Ok (wait s kind limit) :=
  Result.ok_iff.mpr fun _ h => wait_ok hs h

theorem Eff.run_ok {k : BitVec 4} {e : Eff} (hs : s.Ok) (he : e.Ok) : Result.Ok (e.run s k) :=
  Result.ok_iff.mpr fun _ h => Machine.run_ok hs he h

/-! ## Order: accesses noted -/

theorem note_ok {a : Access} {locs : List Nat} (hs : s.Ok) : (s.note a locs).Ok := hs

/-! ## Operations: registers, traps, stalls -/

theorem setShuttle_ok {n : ShNo} {x : Shuttle} (hs : s.Ok) : (s.setShuttle n x).Ok := hs

theorem modShuttle_ok {n : ShNo} {f : Shuttle → Shuttle} (hs : s.Ok) : (s.modShuttle n f).Ok := setShuttle_ok hs

theorem modSeq_ok {n : ShNo} {st : Stream} {f : Seq → Seq} (hs : s.Ok) : (s.modSeq n st f).Ok := modShuttle_ok hs

theorem modMe_ok {f : Shuttle → Shuttle} (hs : s.Ok) : (s.modMe f).Ok := modShuttle_ok hs

theorem modMySeq_ok {f : Seq → Seq} (hs : s.Ok) : (s.modMySeq f).Ok := modSeq_ok hs

theorem setSreg_ok {r : RegNo} {v : W64} (hs : s.Ok) : (s.setSreg r v).Ok := ite_ok hs (modMe_ok hs)

theorem setAreg_ok {r : RegNo} {v : W64} (hs : s.Ok) : (s.setAreg r v).Ok := by
  unfold State.setAreg
  split
  · exact modMe_ok hs
  · exact hs

theorem setVreg_ok {r : RegNo} {v : VReg} (hs : s.Ok) : (s.setVreg r v).Ok := modMe_ok hs

theorem orStatus_ok {n : ShNo} {st : Stream} {bits : W64} (hs : s.Ok) : (s.orStatus n st bits).Ok := modSeq_ok hs

theorem warn_ok (hs : s.Ok) : s.warn.Ok := orStatus_ok hs

theorem warnIf_ok {b : Bool} (hs : s.Ok) : (s.warnIf b).Ok := ite_ok (warn_ok hs) hs

theorem setDevReg_ok {off : Nat} {v : W64} (hs : s.Ok) : (s.setDevReg off v).Ok := hs

theorem bump_ok {n : ShNo} (hs : s.Ok) : (s.bump n).Ok := hs

theorem deliverTrap_ok {n : ShNo} {cause : BitVec 8} {eval eaux : W64} {epc : W32} (hs : s.Ok) :
    (s.deliverTrap n cause eval eaux epc).Ok := hs

theorem takeTrap_ok {n : ShNo} {st : Stream} {cause : BitVec 8} {eval : W64} (hs : s.Ok) : (s.takeTrap n st cause eval).Ok :=
  deliverTrap_ok hs

theorem draw_ok (hs : s.Ok) : (s.draw).2.Ok := hs

theorem trap_ok {cause : BitVec 8} {eval : W64} (hs : s.Ok) : Result.Ok (trap s cause eval) := takeTrap_ok hs

theorem setPc_ok {t : W32} (hs : s.Ok) : (s.setPc t).Ok := modMySeq_ok hs

theorem unlessDamaged_ok {codes : List Nat} {e : Eff} (he : e.Ok) : (unlessDamaged s codes e).Ok := by
  unfold unlessDamaged
  split
  · exact trivial
  · exact he

theorem runC_ok {e : Eff} (hs : s.Ok) (he : e.Ok) : Result.Ok (runC s e) := Eff.run_ok hs he

theorem runT_ok {k : BitVec 4} {body : State → Eff} (hs : s.Ok) (hbody : ∀ t, t.Ok → (body t).Ok) :
    Result.Ok (runT s k body) := by
  unfold runT
  split
  · exact Eff.run_ok hs (hbody _ hs)
  · split
    · exact Eff.run_ok hs (hbody _ (modMe_ok hs))
    · exact ite_ok (Eff.run_ok hs (hbody _ (modMe_ok hs))) (wait_resOk hs)

theorem sendMsi_ok {ident : Nat} (hs : s.Ok) : (s.sendMsi ident).Ok := ite_ok hs hs

theorem healthRecord_ok {cls unit kind count : Nat} {detail : W64} (hs : s.Ok) : (s.healthRecord cls unit kind count detail).Ok :=
  ite_ok hs (sendMsi_ok (setDevReg_ok (storeHbm_ok hs _ _)))

theorem tickSeq_ok {n : ShNo} {st : Stream} (hs : s.Ok) : (s.tickSeq n st).Ok := modSeq_ok hs

/-! ## Access: flags, relations and cells -/

theorem setFe_ok {place : Nat} {b : Bool} (hs : s.Ok) : (s.setFe place b).Ok := hs

theorem withCellsAt_ok {write : Bool} {kind : AccKind} {ext : Int → Ext} {eas : List Int} {f : State → Eff} (hs : s.Ok)
    (hf : ∀ t, t.Ok → (f t).Ok) : (withCellsAt s write kind ext eas f).Ok := by
  unfold withCellsAt
  extract_lets s1 k a
  have hs1 : s1.Ok := tickSeq_ok hs
  split
  · exact trivial
  · exact hf _ (foldl_ok hs1 (fun _ _ h => note_ok h))

theorem setRels_ok {loc : Nat} {rs : List Carry} (hs : s.Ok) : (s.setRels loc rs).Ok := hs

theorem addRels_ok {loc : Nat} {rs : List Carry} (hs : s.Ok) : (s.addRels loc rs).Ok := setRels_ok hs

theorem acquireAll_ok {n : ShNo} {st : Stream} {e : Ext} {rs : List Carry} (hs : s.Ok) : (s.acquireAll n st e rs).Ok :=
  modSeq_ok hs

theorem sight_ok {own : Option Ext} {rs : List Carry} (hs : s.Ok) : (s.sight own rs).Ok := by
  unfold State.sight
  extract_lets s1
  have hs1 : s1.Ok := modMySeq_ok hs
  split
  · exact acquireAll_ok hs1
  · exact hs1

/-! ## Ranges: descriptors and requests -/

theorem putDesc_ok {j : Nat} {d : Desc} (hs : s.Ok) : (s.putDesc j d).Ok := putBytes_ok hs _ _

theorem through_ok {o : Via} (hs : s.Ok) : (s.through o).Ok := hs

theorem fillRlt_ok {o : Via} {va : Nat} (hs : s.Ok) : (s.fillRlt o va).Ok := by
  unfold State.fillRlt
  split
  · exact hs
  · extract_lets mine others ones
    exact ite_ok hs hs

theorem dropRlt_ok {o : Via} {ix : Nat} (hs : s.Ok) : (s.dropRlt o ix).Ok := hs

theorem rangeMsi_ok (hs : s.Ok) : s.rangeMsi.Ok := sendMsi_ok hs

theorem enterRreq_ok {ix ch : Nat} (hs : s.Ok) : (s.enterRreq ix ch).Ok := ite_ok (rangeMsi_ok hs) hs

theorem requestChunk_ok {who ix ch : Nat} (hs : s.Ok) : (s.requestChunk who ix ch).Ok := ite_ok hs (enterRreq_ok hs)

theorem clearDenied_ok {who : Nat} (hs : s.Ok) : (s.clearDenied who).Ok := hs

theorem replyChunk_ok {ix ch : Nat} {deny : Bool} (hs : s.Ok) : (s.replyChunk ix ch deny).Ok := by
  unfold State.replyChunk
  split <;> exact hs

theorem requestAll_ok {who : Nat} {chunks : List (Nat × Nat)} (hs : s.Ok) : (s.requestAll who chunks).Ok :=
  foldl_ok hs (fun _ _ h => requestChunk_ok h)

/-! ## Global: tasks, remote calls and staged writes -/

theorem modTask_ok {tid : Nat} {f : Task → Task} (hs : s.Ok) : (s.modTask tid f).Ok := hs

theorem modLaunch_ok {lid : Nat} {f : Launch → Launch} (hs : s.Ok) : (s.modLaunch lid f).Ok := hs

theorem putChannel_ok {c : Channel} (hs : s.Ok) : (s.putChannel c).Ok := hs

theorem giveTo_ok {p : BitVec 8} {rs : List Carry} (hs : s.Ok) : (s.giveTo p rs).Ok := hs

theorem sendRemote_ok {owner : Nat} {p : BitVec 8} {pa : Nat} {op : RemoteOp} {ea : W64} {by_ : Option Actor} (hs : s.Ok) :
    (s.sendRemote owner p pa op ea by_).Ok := hs

theorem post_ok {p : BitVec 8} {vc : BitVec 2} {m : Mail} (hs : s.Ok) : (s.post p vc m).Ok := by
  unfold State.post
  split
  · exact hs
  · extract_lets c base
    have hbase : base.Ok := putChannel_ok hs
    exact hbase

theorem acknowledge_ok {t : Tag} {r : Reply} (hs : s.Ok) : (s.acknowledge t r).Ok := hs

theorem takeMail_ok {t : Tag} {act : State → State} (hs : s.Ok) (hact : ∀ t, t.Ok → (act t).Ok) : (s.takeMail t act).Ok :=
  ite_ok hs (ite_ok (acknowledge_ok hs) (hact _ (acknowledge_ok (putChannel_ok hs))))

theorem dropAwayLines_ok {tid : Nat} (hs : s.Ok) : (s.dropAwayLines tid).Ok := foldl_ok hs (fun _ _ h => sendRemote_ok h)

theorem stopTask_ok {tid : Nat} (hs : s.Ok) : (s.stopTask tid).Ok := by
  unfold State.stopTask
  split
  · exact hs
  · extract_lets s1
    have hs1 : s1.Ok := by
      unfold s1
      refine foldl_ok hs (fun s a h => ?_)
      split
      · exact ite_ok (bump_ok (modShuttle_ok h)) h
      · exact h
    exact modTask_ok (dropAwayLines_ok hs1)

theorem abortTask_ok {tid : Nat} (hs : s.Ok) : (s.abortTask tid).Ok := by
  unfold State.abortTask
  split
  · exact hs
  · exact healthRecord_ok (stopTask_ok hs)

theorem performWrite_ok {key : Option Nat} {pa va : Nat} {bs : List Byte} (hs : s.Ok) : (s.performWrite key pa va bs).Ok := by
  unfold State.performWrite
  extract_lets s1
  have hs1 : s1.Ok := putBytes_ok hs _ _
  split
  · exact hs1
  · exact foldl_ok hs1 (fun _ _ h => abortTask_ok h)

theorem advanceGen_ok {ix : Nat} (hs : s.Ok) : (s.advanceGen ix).Ok := putBytes_ok hs _ _

theorem noteRange_ok {who : Option (Nat × Nat)} {j : Nat} {d : Desc} {write : Bool} (hs : s.Ok) :
    (s.noteRange who j d write).Ok := by
  unfold State.noteRange
  split
  · exact modTask_ok hs
  · exact hs

theorem readPiece_ok {s t : State} {who : Option (Nat × Nat)} {owner va n : Nat} {need : Perm} {bs : List Byte} (hs : s.Ok)
    (h : s.readPiece who owner va n need = .ok (bs, t)) : t.Ok := by
  unfold State.readPiece at h
  dsimp only at h
  repeat' split at h
  all_goals cases h
  · exact noteRange_ok hs
  · exact hs
  · exact noteRange_ok (modTask_ok hs)
  · exact noteRange_ok (modTask_ok hs)

/-- What a fold of reads answers keeps the form when each read does. -/
theorem readGlobal_ok {s t : State} {who : Option (Nat × Nat)} {owner va n : Nat} {need : Perm} {bs : List Byte} (hs : s.Ok)
    (h : s.readGlobal who owner va n need = .ok (bs, t)) : t.Ok := by
  unfold State.readGlobal at h
  refine List.foldlRecOn (motive := fun r : Except GFault (List Byte × State) => ∀ bs t, r = .ok (bs, t) → t.Ok) _ _
    (by rintro _ _ ⟨⟩; exact hs) (fun acc ih p _ bs t e => ?_) bs t h
  split at e
  · cases e
  · split at e
    · cases e
    · cases e
      exact readPiece_ok (ih _ _ rfl) ‹_›

theorem bind_ok {who : Option (Nat × Nat)} (hs : s.Ok) : (s.bind who).Ok := by
  unfold State.bind
  split
  · exact modTask_ok hs
  · exact hs

theorem writePiece_ok {who : Option (Nat × Nat)} {owner : Nat} {panel : BitVec 2} {va : Nat} {bs : List Byte} {now : Bool}
    (hs : s.Ok) : (s.writePiece who owner panel va bs now).Ok := by
  unfold State.writePiece
  split
  · exact hs
  · exact sendRemote_ok (bind_ok (noteRange_ok hs))
  · split
    · exact performWrite_ok hs
    · split
      · exact performWrite_ok (bind_ok (noteRange_ok hs))
      · split
        · exact performWrite_ok (noteRange_ok hs)
        · exact ite_ok (performWrite_ok (modTask_ok (noteRange_ok hs))) (modTask_ok (noteRange_ok hs))

theorem writeGlobal_ok {who : Option (Nat × Nat)} {owner : Nat} {panel : BitVec 2} {va : Nat} {bs : List Byte} (hs : s.Ok) :
    (s.writeGlobal who owner panel va bs).Ok := foldl_ok hs (fun _ _ h => writePiece_ok h)

theorem performStaged_ok {t : Task} {ws : List StagedWrite} (hs : s.Ok) : (s.performStaged t ws).Ok := by
  unfold State.performStaged
  refine foldl_ok hs (fun s a h => foldl_ok h (fun s a h => ?_))
  extract_lets bs
  split
  · exact performWrite_ok (noteRange_ok h)
  · exact sendRemote_ok (noteRange_ok h)
  · exact h

theorem holdCommit_ok {tid : Nat} {cause : BitVec 8} {eval : W64} (hs : s.Ok) : (s.holdCommit tid cause eval).Ok := hs

theorem becomeCommitting_ok {s t : State} {x : Task} (hs : s.Ok) (h : s.becomeCommitting x = .ok t) : t.Ok := by
  unfold State.becomeCommitting at h
  dsimp only at h
  repeat' split at h
  all_goals cases h
  exact modTask_ok (performStaged_ok hs)

theorem becomeCommitting_errorOk {s t : State} {x : Task} {g : State → State} (h : s.becomeCommitting x = .error g) (ht : t.Ok) :
    (g t).Ok := by
  unfold State.becomeCommitting at h
  dsimp only at h
  repeat' split at h
  all_goals cases h
  · exact ht
  · exact ht
  · exact requestAll_ok ht
  · exact holdCommit_ok (clearDenied_ok ht)

theorem seqGFault_ok {e : GFault} : (seqGFault s e).Ok := by
  unfold seqGFault
  split
  · exact trivial
  · exact fun _ h => requestChunk_ok h
  · exact trivial
  · exact trivial

theorem withResidency_ok {spans : List (Nat × Nat)} {f : Eff} (hf : f.Ok) : (withResidency s spans f).Ok := by
  unfold withResidency
  extract_lets who
  split
  · exact ite_ok trivial hf
  · exact fun _ h => clearDenied_ok h
  · exact fun _ h => requestAll_ok h

theorem endCalls_ok {me : Nat} {cs : List RemoteCall} (hs : s.Ok) : (s.endCalls me cs).Ok := hs

theorem remoteCalls_ok {cs : List RemoteCall} {limit : Nat} {f : State → Eff} {onSend : State → State} (hs : s.Ok)
    (hf : ∀ t, t.Ok → (f t).Ok) (honSend : ∀ t, t.Ok → (onSend t).Ok) : (remoteCalls s cs limit f onSend).Ok := by
  unfold remoteCalls
  extract_lets me new
  split
  · exact fun _ h => foldl_ok (honSend _ (bind_ok h)) (fun _ _ h => sendRemote_ok h)
  · exact ite_ok trivial (hf _ hs)

theorem remoteCall_ok {c : RemoteCall} {limit : Nat} {f : State → Reply → Eff} {onSend : State → State} (hs : s.Ok)
    (hf : ∀ t x1, t.Ok → (f t x1).Ok) (honSend : ∀ t, t.Ok → (onSend t).Ok) : (remoteCall s c limit f onSend).Ok :=
  remoteCalls_ok hs (fun _ h => hf _ _ (endCalls_ok h)) honSend

theorem writeHome_ok {who : Option (Nat × Nat)} {owner : Nat} {panel : BitVec 2} {va : Nat} {bs : List Byte} {now : Bool}
    (hs : s.Ok) : (s.writeHome who owner panel va bs now).Ok := by
  unfold State.writeHome
  refine foldl_ok hs (fun s a h => ?_)
  split
  · exact noteRange_ok h
  · exact writePiece_ok h

/-! ## Diff: contributions -/

theorem contributeAt_ok {place : Nat} {anc : Int} {v : FVal} (hs : s.Ok) : (s.contributeAt place anc v).Ok :=
  orStatus_ok (putBytes_ok hs _ _)

theorem takeAt_ok {place : Nat} {anc : Int} {fo : Fmt} (hs : s.Ok) : (s.takeAt place anc fo).2.Ok :=
  orStatus_ok (putBytes_ok hs _ _)

theorem withInterval_ok {write : Bool} {kind : AccKind} {ext : Ext} {va n : Nat} {f : State → Eff} (hs : s.Ok)
    (hf : ∀ t, t.Ok → (f t).Ok) : (withInterval s write kind ext va n f).Ok := withIntervals_ok hs hf

theorem withShare_ok {s1 : State} {past : Task → Nat → Bool} {f : State → Eff} (hs1 : s1.Ok) (hf : ∀ t, t.Ok → (f t).Ok) :
    (withShare s s1 past f).Ok := by
  unfold withShare
  split
  · exact hf _ hs1
  · split
    · exact hf _ hs1
    · split
      · exact trivial
      · split
        · exact trivial
        · split
          · exact hf _ (becomeCommitting_ok hs1 ‹_›)
          · exact fun _ h => becomeCommitting_errorOk ‹_› h

theorem seqShare_ok {s1 : State} {f : State → Eff} (hs1 : s1.Ok) (hf : ∀ t, t.Ok → (f t).Ok) : (seqShare s s1 f).Ok :=
  withShare_ok hs1 hf

theorem seqWrite_ok {va : Nat} {bs : List Byte} {f : State → Eff} (hs : s.Ok) (hf : ∀ t, t.Ok → (f t).Ok) :
    (seqWrite s va bs f).Ok := by
  unfold seqWrite
  split
  · exact seqGFault_ok
  · refine withResidency_ok ?_
    split
    · exact seqGFault_ok
    · extract_lets go
      have hgo : ∀ s, s.Ok → (go s).Ok := by
        intro s hs
        unfold go
        refine withInterval_ok hs (fun t h => ?_)
        extract_lets me calls
        refine remoteCalls_ok h (fun t h => ?_) (fun _ h => h)
        split
        · exact fun _ h => endCalls_ok h
        · exact seqShare_ok (writeHome_ok (endCalls_ok h)) hf
      exact ite_ok (whenOldest_ok hs hgo) (hgo _ hs)

theorem seqRead_ok {va n : Nat} {keep : Bool} {f : State → List Byte → Eff} (hs : s.Ok) (hf : ∀ t x1, t.Ok → (f t x1).Ok) :
    (seqRead s va n keep f).Ok := by
  unfold seqRead
  refine withResidency_ok ?_
  extract_lets me calls go
  have hgo : ∀ s, s.Ok → (go s).Ok := by
    intro s hs
    unfold go
    refine withInterval_ok hs (fun t h => remoteCalls_ok h (fun t h => ?_) (fun _ h => h))
    split
    · exact fun _ h => endCalls_ok h
    · exact seqGFault_ok
    · exact hf _ _ (ite_ok (readGlobal_ok h ‹_›) (endCalls_ok (readGlobal_ok h ‹_›)))
  exact ite_ok (hgo _ hs) (whenOldest_ok hs hgo)

theorem pushRecord_ok {rec : List Byte} {f : State → Eff} (hs : s.Ok) (hf : ∀ t, t.Ok → (f t).Ok) : (pushRecord s rec f).Ok :=
  ite_ok trivial (ite_ok trivial (seqWrite_ok hs (fun _ h => hf _ (modMySeq_ok h))))

theorem popRecord_ok {len head : Nat} {want : List Byte} {cmp : List Byte → List Byte} {f : State → List Byte → Eff} (hs : s.Ok)
    (hf : ∀ t x1, t.Ok → (f t x1).Ok) : (popRecord s len head want cmp f).Ok := by
  unfold popRecord
  extract_lets q at_
  split
  · exact trivial
  · split
    · exact trivial
    · exact seqRead_ok hs (fun _ _ h => ite_ok (fun _ h => endCalls_ok h) (seqRead_ok h (fun _ _ h => hf _ _ (modMySeq_ok h))))

/-! ## LoadStore: scalar loads and stores -/

theorem loadEffect.plain_ok {size : Nat} {signed : Bool} {v : RegNo} {ea : Int} (hs : s.Ok) :
    (loadEffect.plain s size signed v ea).Ok := by
  unfold loadEffect.plain
  refine withCells_ok hs (fun s h => ?_)
  extract_lets d
  exact setSreg_ok h

theorem loadEffect_ok {size : Nat} {signed : Bool} {v : RegNo} {ea : Int} (hs : s.Ok) : (loadEffect s size signed v ea).Ok := by
  unfold loadEffect
  split
  · split
    · exact trivial
    · split
      · extract_lets sh
        exact withPlaces_ok hs (fun _ h => withPlaces_ok h (fun _ h => contributeAt_ok h))
      · exact loadEffect.plain_ok hs
  · exact ite_ok hs (loadEffect.plain_ok hs)

theorem scalarLoad_ok {size : Nat} {signed : Bool} {v a : RegNo} {off : BitVec 13} (hs : s.Ok) :
    (scalarLoad s size signed v a off).Ok := by
  unfold scalarLoad
  extract_lets ea
  split
  · exact trivial
  · exact loadEffect_ok hs

theorem storeEffect_ok {size : Nat} {v : RegNo} {ea : Int} (hs : s.Ok) : (storeEffect s size v ea).Ok := by
  unfold storeEffect
  split
  · split
    · exact trivial
    · extract_lets wd sh
      split
      · refine popRecord_ok hs (fun t x1 h => withPlaces_ok h (fun s h => ?_))
        extract_lets t'
        have ht' : t'.2.Ok := takeAt_ok h
        exact putBytes_ok (setSreg_ok ht') _ _
      · exact withCells_ok hs (fun _ h => ite_ok (pushRecord_ok h (fun _ h => putBytes_ok h _ _)) (putBytes_ok h _ _))
  · exact ite_ok hs (withCells_ok hs (fun _ h => putBytes_ok h _ _))

theorem scalarStore_ok {size : Nat} {v a : RegNo} {off : BitVec 13} (hs : s.Ok) : (scalarStore s size v a off).Ok := by
  unfold scalarStore
  extract_lets ea
  split
  · exact trivial
  · exact storeEffect_ok hs

/-! ## Control: branches and loops -/

theorem setBor_ok (hs : s.Ok) : s.setBor.Ok := modMe_ok hs

theorem setLnk_ok (hs : s.Ok) : s.setLnk.Ok := modMe_ok hs

theorem branchIf_ok {taken : Bool} {o : BitVec 13} (hs : s.Ok) : Result.Ok (branchIf s taken o) :=
  ite_ok (runC_ok hs (setBor_ok hs)) (runC_ok hs hs)

theorem loopDone_ok {r : LoopUnit × W32} (hs : s.Ok) : (loopDone s r).Ok := modMySeq_ok hs

theorem execLoop_ok {l : BitVec 3} {g f : Bool} {a : RegNo} {o : BitVec 14} (hs : s.Ok) : Result.Ok (execLoop l g f a o s) :=
  runC_ok hs (ite_ok trivial (loopDone_ok hs))

theorem endLoop_ok {lv : Nat} {leave : Bool} (hs : s.Ok) : (endLoop s lv leave).Ok := ite_ok trivial (loopDone_ok hs)

theorem execSkippedInstruction_ok (hs : s.Ok) : Result.Ok (execSkippedInstruction s) := by
  unfold execSkippedInstruction
  extract_lets i sec len s1 s2
  have hs1 : s1.Ok := modMySeq_ok hs
  have hs2 : s2.Ok := by
    unfold s2
    split
    · exact healthRecord_ok hs1
    · exact hs1
  exact bump_ok hs2

/-! ## Streams: queues and stream loops -/

theorem popScalar_ok {f : State → W64 → Eff} (hs : s.Ok) (hf : ∀ t x1, t.Ok → (f t x1).Ok) : (popScalar s f).Ok := by
  unfold popScalar
  split
  · exact trivial
  · exact unlessDamaged_ok (hf _ _ (modMe_ok (modMySeq_ok (modMe_ok hs))))

theorem pushScalar_ok {dst : Stream} {v : W64} {f : State → Eff} (hs : s.Ok) (hf : ∀ t, t.Ok → (f t).Ok) :
    (pushScalar s dst v f).Ok := ite_ok (hf _ (modMe_ok hs)) trivial

theorem execQpush_ok {a : RegNo} {q : BitVec 5} (hs : s.Ok) : Result.Ok (execQpush a q s) :=
  runC_ok hs (pushScalar_ok hs (fun _ h => h))

theorem execQpopvX_ok {v : RegNo} {k : BitVec 4} (hs : s.Ok) : Result.Ok (execQpopvX v k s) := by
  unfold execQpopvX
  refine runT_ok hs (fun t h => ?_)
  split
  · exact trivial
  · exact unlessDamaged_ok (withVregs_ok (modMySeq_ok (modMe_ok h)) (fun _ h => setVreg_ok h))

theorem execQpopvS_ok {v : RegNo} {k : BitVec 4} (hs : s.Ok) : Result.Ok (execQpopvS v k s) := by
  unfold execQpopvS
  refine runT_ok hs (fun t h => ?_)
  split
  · exact trivial
  · exact unlessDamaged_ok (withVregs_ok (modMySeq_ok (modMe_ok h)) (fun _ h => setVreg_ok h))

theorem holdEntries_ok {k : BitVec 4} {got rest : List QEntry} (hs : s.Ok) : (s.holdEntries k got rest).Ok := hs

theorem dropEntries_ok {n : Nat} {k : BitVec 4} (hs : s.Ok) : (dropEntries s n k).Ok :=
  unlessDamaged_ok (ite_ok (modMe_ok (modMySeq_ok (modMe_ok hs))) (ite_ok trivial (fun _ h => holdEntries_ok h)))

theorem streamLoop_ok {lv : Nat} {fo lo : Bool} {off : Nat} (hs : s.Ok) : (streamLoop s lv fo lo off).Ok :=
  ite_ok trivial (popScalar_ok hs (fun _ _ h => loopDone_ok h))

theorem counterWait_ok {c : BitVec 3} {n : Nat} (hs : s.Ok) : (counterWait s c n).Ok :=
  ite_ok (ite_ok (modMySeq_ok hs) hs) trivial

theorem setShp_ok {v : W64} (hs : s.Ok) : (s.setShp v).Ok := modMe_ok hs

theorem execShpop_ok {k : BitVec 4} (hs : s.Ok) : Result.Ok (execShpop k s) := by
  unfold execShpop
  refine runT_ok hs (fun t h => popScalar_ok h (fun t x1 h => ?_))
  extract_lets r
  exact warnIf_ok (setShp_ok h)

/-! ## Engine: jobs and their faults -/

theorem deliver_ok {tid : Nat} {b : BitVec 2} {q : W32} {bytes : Nat} {r : Carry} (hs : s.Ok) :
    (s.deliver tid b q bytes r).Ok := by
  unfold State.deliver
  split
  · exact hs
  · split <;> exact hs

theorem asyncFault_ok {n : ShNo} {f : AsyncFault} (hs : s.Ok) : (s.asyncFault n f).Ok := bump_ok (modShuttle_ok hs)

theorem actorFault_ok {b : Actor} {cause : BitVec 8} {eval : W64} {cmd : Nat} (hs : s.Ok) : (s.actorFault b cause eval cmd).Ok :=
  ite_ok (asyncFault_ok hs) hs

theorem endFills_ok (hs : s.Ok) : s.endFills.Ok := by
  unfold State.endFills
  extract_lets answered
  refine foldl_ok hs (fun s a h => ?_)
  split
  · exact actorFault_ok h
  · exact h

theorem lateFault_ok {task : Option (Nat × Nat)} {f : AsyncFault} (hs : s.Ok) : (s.lateFault task f).Ok := by
  unfold State.lateFault
  split <;> exact hs

theorem jobFault_ok {j : Job} {eng : BitVec 4} {cause : BitVec 8} {eval : W64} (hs : s.Ok) : (s.jobFault j eng cause eval).Ok :=
  ite_ok hs (ite_ok (lateFault_ok hs) (asyncFault_ok hs))

theorem issueJob_ok {cc : BitVec 3} {wt sg : Option Nat} {aq rl : Bool} {sc : Nat} {f : State → Job → Eff} (hs : s.Ok)
    (hf : ∀ t x1, t.Ok → (f t x1).Ok) : (issueJob s cc wt sg aq rl sc f).Ok := by
  unfold issueJob
  split
  · exact trivial
  · extract_lets h
    refine withScope_ok hs (fun s e h => ?_)
    extract_lets s1 q k
    have hs1 : s1.Ok := warnIf_ok (tickSeq_ok h)
    exact hf _ _ hs1

theorem raiseCount_ok {j : Job} (hs : s.Ok) : (s.raiseCount j).Ok := modShuttle_ok hs

theorem setRegions_ok {l : List (ShNo × Vector W64 4)} (hs : s.Ok) : (s.setRegions l).Ok :=
  foldl_ok hs (fun _ _ h => modShuttle_ok h)

theorem inWindow_ok {j : Job} {f : State → State} (hs : s.Ok) (hf : ∀ t, t.Ok → (f t).Ok) : (s.inWindow j f).Ok :=
  through_ok (modShuttle_ok (setRegions_ok (hf _ (through_ok (setRegions_ok (modShuttle_ok hs))))))

theorem startJob_ok {j : Job} {eng : BitVec 4} (hs : s.Ok) : (s.startJob j eng).1.Ok := by
  unfold State.startJob
  split
  · exact hs
  · extract_lets ix loc a m k j1 s1
    have hs1 : s1.Ok := bump_ok (modShuttle_ok hs)
    split
    · exact jobFault_ok hs1
    · exact note_ok hs1

theorem completeJob_ok {j : Job} {cls : Fin 4} (hs : s.Ok) : (s.completeJob j cls).Ok := hs

/-! ## Sync: barriers, semaphores and marks -/

theorem endControl_ok (hs : s.Ok) : Result.Ok (endControl s) := by
  unfold endControl
  extract_lets x s1 s2
  have hs1 : s1.Ok := modMySeq_ok hs
  have hs2 : s2.Ok := by
    unfold s2
    refine bump_ok ?_
    split
    · exact modTask_ok hs1
    · exact hs1
  split
  · exact wait_resOk hs
  · exact ite_ok (wait_resOk hs) (ite_ok (trap_ok hs) (ite_ok (deliverTrap_ok (setPc_ok hs2)) hs2))

theorem execGinfo_ok {d : RegNo} {g : BitVec 2} (hs : s.Ok) : Result.Ok (execGinfo d g s) := by
  unfold execGinfo
  refine runC_ok hs ?_
  split
  · split
    · extract_lets place
      exact setSreg_ok hs
    · exact trivial
  · exact trivial

theorem execTorder_ok {l : BitVec 4} (hs : s.Ok) : Result.Ok (execTorder l s) := by
  unfold execTorder
  refine runC_ok hs ?_
  split
  · exact hs
  · exact ite_ok trivial (ite_ok (bind_ok hs) trivial)

theorem setFlagExt_ok {place : Nat} {e : Option Ext} (hs : s.Ok) : (s.setFlagExt place e).Ok := hs

theorem withFe_ok {eas : List Int} {want : Option Bool} {take : Bool} {limit : Nat} {f : State → Eff} (hs : s.Ok)
    (hf : ∀ t, t.Ok → (f t).Ok) : (withFe s eas want take limit f).Ok := by
  unfold withFe
  split
  · exact trivial
  · split
    · exact trivial
    · split
      · exact hf _ hs
      · exact ite_ok (hf _ hs) trivial

theorem sightCells_ok {eas : List Int} (hs : s.Ok) : (s.sightCells eas).Ok := foldl_ok hs (fun _ _ h => sight_ok h)

theorem whenNearAll_ok {es : List Ext} {f : State → Eff} (hs : s.Ok) (hf : ∀ t, t.Ok → (f t).Ok) : (whenNearAll s es f).Ok :=
  ite_ok (whenOldest_ok hs hf) (hf _ hs)

theorem feRead_ok {eas : List Int} {take : Bool} {f : State → Eff} (hs : s.Ok) (hf : ∀ t, t.Ok → (f t).Ok) :
    (feRead s eas take f).Ok :=
  whenNearAll_ok hs
    (fun _ h => withCellsAt_ok (sightCells_ok h) (fun _ h => hf _ (ite_ok (foldl_ok h (fun _ _ h => setFe_ok h)) h)))

theorem feFill_ok {eas : List Int} {f : State → Eff} (hs : s.Ok) (hf : ∀ t, t.Ok → (f t).Ok) : (feFill s eas f).Ok := by
  unfold feFill
  extract_lets e
  exact withCells_ok hs (fun _ h => hf _ (foldl_ok h (fun _ _ h => setFlagExt_ok (setRels_ok (setFe_ok h)))))

theorem scalarFe_ok {d a : RegNo} {take : Bool} {limit : Nat} (hs : s.Ok) : (scalarFe s d a take limit).Ok := by
  unfold scalarFe
  extract_lets ea
  refine withFe_ok hs (fun t h => ?_)
  extract_lets v
  exact feRead_ok h (fun _ h => setSreg_ok h)

theorem execStef_ok {d a : RegNo} {l : BitVec 4} (hs : s.Ok) : Result.Ok (execStef d a l s) :=
  runC_ok hs (withFe_ok hs (fun _ h => feFill_ok h (fun _ h => putDword_ok h _ _)))

theorem execFeset_ok {a : RegNo} (hs : s.Ok) : Result.Ok (execFeset a s) :=
  runC_ok hs (withFe_ok hs (fun _ h => ite_ok trivial (feFill_ok h (fun _ h => h))))

theorem execFeclr_ok {a : RegNo} (hs : s.Ok) : Result.Ok (execFeclr a s) :=
  runC_ok hs (withFe_ok hs (fun _ h => withCells_ok h (fun _ h => setFe_ok h)))

theorem execVldfe_ok {v a : RegNo} {l k : BitVec 4} (hs : s.Ok) : Result.Ok (execVldfe v a l k s) := by
  unfold execVldfe
  refine runT_ok hs (fun t h => ?_)
  extract_lets eas
  refine withFe_ok h (fun t h => withVregs_ok h (fun s h => ?_))
  extract_lets d
  exact feRead_ok h (fun _ h => setVreg_ok h)

theorem execVstef_ok {v a : RegNo} {l k : BitVec 4} (hs : s.Ok) : Result.Ok (execVstef v a l k s) := by
  unfold execVstef
  refine runT_ok hs (fun t h => ?_)
  extract_lets eas
  refine withFe_ok h (fun t h => withVregs_ok h (fun s h => feFill_ok h (fun t h => ?_)))
  extract_lets bs
  exact foldl_ok h (fun _ _ h => putBytes_ok h _ _)

theorem withBarrier_ok {f : Task → Nat → Group → Eff} (hf : ∀ x0 x1 x2, (f x0 x1 x2).Ok) : (withBarrier s f).Ok := by
  unfold withBarrier
  split
  · split
    · exact trivial
    · split
      · exact hf _ _ _
      · exact trivial
  · exact trivial

theorem arrive_ok {b : BitVec 2} {cnt : Option Nat} {sync : Bool} {limit : Nat} {f : State → Eff} (hs : s.Ok)
    (hf : ∀ t, t.Ok → (f t).Ok) : (arrive s b cnt sync limit f).Ok := by
  unfold arrive
  refine withBarrier_ok (fun x0 x1 x2 => ?_)
  extract_lets v q j posted
  split
  · exact ite_ok trivial trivial
  · split
    · exact trivial
    · split
      · exact trivial
      · refine withTag_ok hs (fun s h => ?_)
        extract_lets c r s1
        have hs1 : s1.Ok := modTask_ok h
        exact hf _ (bump_ok (modMe_ok hs1))

theorem awaitPhase_ok {s0 : State} {b : BitVec 2} {limit : Nat} (hs : s.Ok) (hs0 : s0.Ok) : (awaitPhase s0 s b limit).Ok := by
  unfold awaitPhase
  refine withBarrier_ok (fun x0 x1 x2 => ?_)
  extract_lets a v rs
  exact ite_ok trivial (ite_ok (fun _ h => hs0) (ite_ok (modMe_ok (acquireAll_ok hs)) (fun _ h => hs0)))

theorem execBarsync_ok {b : BitVec 5} {l : BitVec 4} (hs : s.Ok) : Result.Ok (execBarsync b l s) := by
  unfold execBarsync
  extract_lets n
  refine runC_ok hs ?_
  split
  · exact awaitPhase_ok hs hs
  · refine arrive_ok hs (fun t h => ?_)
    extract_lets s2
    have hs2 : s2.Ok := modMe_ok h
    exact awaitPhase_ok hs2 hs2

theorem execSemsig_ok {i : BitVec 5} {k : BitVec 4} (hs : s.Ok) : Result.Ok (execSemsig i k s) := by
  unfold execSemsig
  refine runT_ok hs (fun t h => ?_)
  extract_lets m s1 q e
  have hs1 : s1.Ok := tickSeq_ok h
  exact ite_ok trivial (modMe_ok hs1)

theorem execSemwait_ok {i : BitVec 5} {l k : BitVec 4} (hs : s.Ok) : Result.Ok (execSemwait i l k s) := by
  unfold execSemwait
  refine runT_ok hs (fun t h => ?_)
  extract_lets m t' s1
  have hs1 : s1.Ok := by
    unfold s1
    split
    · exact acquireAll_ok h
    · exact h
  exact ite_ok trivial (withTag_ok hs1 (fun _ h => modMe_ok h))

/-! ## Atomic: synchronising accesses and atomics -/

theorem syncCell_ok {a : RegNo} {c : BitVec 4} {f : State → Ext → Int → Eff} (hs : s.Ok) (hf : ∀ t x1 x2, t.Ok → (f t x1 x2).Ok) :
    (syncCell s a c f).Ok := by
  unfold syncCell
  refine withScope_ok hs (fun s e h => ?_)
  extract_lets ea
  split
  · exact trivial
  · exact ite_ok trivial (hf _ _ _ h)

theorem syncLoad_ok {d a : RegNo} {c : BitVec 4} {acq : Bool} (hs : s.Ok) : (syncLoad s d a c acq).Ok := by
  unfold syncLoad
  refine syncCell_ok hs (fun t x1 x2 h => ?_)
  extract_lets s1
  have hs1 : s1.Ok := sight_ok h
  exact withCells_ok hs1 (fun _ h => setSreg_ok h)

theorem syncStore_ok {d a : RegNo} {c : BitVec 4} {rel : Bool} (hs : s.Ok) : (syncStore s d a c rel).Ok :=
  syncCell_ok hs (fun _ _ _ h => withCells_ok h (fun _ h => setRels_ok (putDword_ok h _ _)))

theorem acqFence_ok {e : Ext} (hs : s.Ok) : (s.acqFence e).Ok := acquireAll_ok hs

theorem relFence_ok {e : Ext} {k : Know} (hs : s.Ok) : (s.relFence e k).Ok := modMySeq_ok hs

theorem pushMarks_ok {s t : State} {mask : BitVec 8} (hs : s.Ok) (h : s.pushMarks mask = .ok t) : t.Ok := by
  unfold State.pushMarks at h
  split at h
  · cases h
  · injection h with h; subst h; exact modMe_ok hs

theorem waitMark_ok {i limit : Nat} : (waitMark i limit).Ok := fun _ h => modMe_ok h

theorem execMark_ok {m : BitVec 8} (hs : s.Ok) : Result.Ok (execMark m s) := by
  unfold execMark
  refine runC_ok hs ?_
  split
  · exact pushMarks_ok hs ‹_›
  · exact waitMark_ok

theorem join_ok {e : Ext} {limit : Nat} {fences : List Nat} (hs : s.Ok) : (join s e limit fences).Ok := by
  unfold join
  split
  · exact fun _ h => hs
  · extract_lets cov s1 r
    have hs1 : s1.Ok := modMe_ok hs
    exact acqFence_ok (modMySeq_ok (relFence_ok hs1))

theorem execFence_ok {l : BitVec 5} {c : BitVec 4} (hs : s.Ok) : Result.Ok (execFence l c s) := by
  unfold execFence
  refine runC_ok hs (withScope_ok hs (fun s e h => ?_))
  extract_lets me others
  split
  · exact join_ok h
  · split
    · exact waitMark_ok
    · exact join_ok (modMe_ok (pushMarks_ok h ‹_›))

theorem withTargets_ok {eas : List W64} {kind : AccKind} {ext : Ext} {extra : State → Target → Option (BitVec 8)}
    {f : State → List (W64 × Target) → Eff} (hs : s.Ok) (hf : ∀ t x1, t.Ok → (f t x1).Ok) :
    (withTargets s eas kind ext extra f).Ok := by
  unfold withTargets
  extract_lets checked bad ts vas
  clear_value bad
  split
  · exact trivial
  · split
    · exact trivial
    · split
      · exact hf _ _ hs
      · refine whenOldest_ok hs (fun s h => withResidency_ok ?_)
        split
        · exact seqGFault_ok
        · exact withIntervals_ok h (fun _ h => hf _ _ h)

theorem awayRelease_ok {p : BitVec 8} {pa : Nat} {rs : List Carry} (hs : s.Ok) : (s.awayRelease p pa rs).Ok := hs

theorem noteUpdate_ok {who : Option (Nat × Nat)} {va : Nat} (hs : s.Ok) : (s.noteUpdate who va).Ok := by
  unfold State.noteUpdate
  split
  · exact noteRange_ok hs
  · exact noteRange_ok hs
  · exact hs

theorem sendUpdate_ok {ea : W64} {t : Target} {o : BankOp} {v : W64} {kind : AccKind} {ext : Ext} {rel : List Carry} (hs : s.Ok) :
    (s.sendUpdate ea t o v kind ext rel).Ok := by
  unfold State.sendUpdate
  extract_lets t1 noted id m s1
  have hnoted : noted.Ok := by
    unfold noted
    split
    · exact noteUpdate_ok hs
    · exact hs
  have hs1 : s1.Ok := hnoted
  clear_value t1
  split
  · refine sendRemote_ok ?_
    split
    · exact awayRelease_ok hs1
    · exact hs1
  · exact hs1

theorem atomics_ok {ups : List (W64 × W64)} {op : Nat} {rel : Bool} {c : BitVec 4} (hs : s.Ok) : (atomics s ups op rel c).Ok := by
  unfold atomics
  refine withScope_ok hs (fun s e h => ?_)
  extract_lets pending
  refine withTargets_ok h (fun t x1 h => ?_)
  extract_lets near
  refine withScratch_ok h (fun s h => ?_)
  extract_lets r
  refine foldl_ok h (fun s a h => ?_)
  extract_lets v
  split
  · exact ite_ok (addRels_ok (putDword_ok h _ _)) (sendUpdate_ok h)
  · exact sendUpdate_ok h

theorem vatomics_ok {v a : RegNo} {o : BitVec 3} {rel : Bool} {c : BitVec 4} (hs : s.Ok) : (vatomics s v a o rel c).Ok :=
  withVregs_ok hs (fun _ h => atomics_ok h)

theorem declareLine_ok {l : CLine} (hs : s.Ok) : (s.declareLine l).Ok := hs

theorem declare_ok {d a : RegNo} {c : BitVec 4} (hs : s.Ok) : (declare s d a c).Ok := by
  unfold declare
  extract_lets line n flag
  refine withScope_ok hs (fun s e h => ?_)
  split
  · exact trivial
  · split
    · exact trivial
    · split
      · exact trivial
      · split
        · exact trivial
        · extract_lets task
          split
          · exact ite_ok trivial (declareLine_ok h)
          · refine withResidency_ok ?_
            split
            · exact seqGFault_ok
            · split
              · exact trivial
              · refine whenOldest_ok h (fun s h => remoteCall_ok h (fun t x1 h => ?_) (fun _ h => h))
                split
                · exact h
                · exact fun _ h => ‹_›
            · split
              · exact trivial
              · exact ite_ok trivial (declareLine_ok h)
        · exact trivial

theorem execCladd_ok {d a : RegNo} {o : BitVec 3} (hs : s.Ok) : Result.Ok (execCladd d a o s) := by
  unfold execCladd
  extract_lets v kind
  refine runC_ok hs (withTargets_ok hs (fun t x1 h => whenNearAll_ok h (fun t h => ?_)))
  extract_lets s1
  have hs1 : s1.Ok := tickSeq_ok h
  exact foldl_ok hs1 (fun _ _ h => sendUpdate_ok h)

theorem updateBytes_ok {who : Option (Nat × Nat)} {pa va j : Nat} {d : Desc} {n : Nat} {f : List Byte → List Byte} (hs : s.Ok) :
    (s.updateBytes who pa va j d n f).Ok := by
  unfold State.updateBytes
  extract_lets mem
  split
  · exact performWrite_ok hs
  · extract_lets ws old
    exact performWrite_ok (noteRange_ok (modTask_ok hs))

theorem updateGlobal_ok {who : Option (Nat × Nat)} {pa va j : Nat} {d : Desc} {f : W64 → W64} (hs : s.Ok) :
    (s.updateGlobal who pa va j d f).1.Ok := updateBytes_ok hs

theorem updateAt_ok {who : Option (Nat × Nat)} {t : Target} {f : W64 → W64} (hs : s.Ok) : (s.updateAt who t f).1.Ok := by
  unfold State.updateAt
  split
  · exact putDword_ok hs _ _
  · split
    · exact updateGlobal_ok hs
    · exact hs
  · exact hs

theorem modLine_ok {l : CLine} {f : CLine → CLine} (hs : s.Ok) : (s.modLine l f).Ok := hs

theorem endUpdate_ok {m : BankMsg} (hs : s.Ok) : (s.endUpdate m).Ok := bump_ok (modShuttle_ok hs)

theorem updateFault_ok {m : BankMsg} {cause : BitVec 8} (hs : s.Ok) : (s.updateFault m cause).Ok := ite_ok hs (asyncFault_ok hs)

theorem performUpdate_ok {m : BankMsg} {place : Nat} (hs : s.Ok) : (s.performUpdate m place).Ok := by
  unfold State.performUpdate
  extract_lets scratch base acc tagged
  have htagged : ∀ s, s.Ok → (tagged s).Ok := fun s hs => ite_ok (note_ok hs) hs
  split
  · exact updateFault_ok hs
  · split
    · exact updateFault_ok hs
    · split
      · exact ite_ok (updateFault_ok hs) (addRels_ok (updateAt_ok (htagged _ hs)))
      · split
        · exact updateFault_ok hs
        · exact hs
        · extract_lets r
          exact addRels_ok (modLine_ok (updateAt_ok (htagged _ hs)))

theorem execBankUpdate_ok {sh : ShNo} {id : Nat} (hs : s.Ok) : Result.Ok (execBankUpdate sh id s) := by
  unfold execBankUpdate
  split
  · exact hs
  · split
    · split
      · split
        · exact hs
        · extract_lets s1
          have hs1 : s1.Ok := hs
          refine endUpdate_ok ?_
          split
          · exact hs1
          · exact updateFault_ok hs1
      · exact hs
    · split
      · exact ite_ok (endUpdate_ok (updateFault_ok (clearDenied_ok hs))) (requestChunk_ok hs)
      · exact endUpdate_ok (updateFault_ok hs)
      · refine sendRemote_ok ?_
        exact (noteUpdate_ok hs).update rfl
      · split
        · exact hs
        · extract_lets earlier
          exact ite_ok hs (endUpdate_ok (performUpdate_ok hs))

theorem fillFlag_ok {l : CLine} (hs : s.Ok) : (s.fillFlag l).Ok := by
  unfold State.fillFlag
  split
  · exact hs
  · extract_lets f s1
    have hs1 : s1.Ok := hs
    exact ite_ok (actorFault_ok hs1) (note_ok (bump_ok (setFlagExt_ok (setRels_ok (setFe_ok (putDword_ok hs1 _ _))))))

theorem execClFlagFill_ok {panel : BitVec 2} {line : Nat} (hs : s.Ok) : Result.Ok (execClFlagFill panel line s) := by
  unfold execClFlagFill
  split
  · exact hs
  · extract_lets filled ea
    have hfilled : ∀ s, s.Ok → (filled s).Ok := fun s hs => hs
    split
    · refine hfilled _ ?_
      split
      · exact actorFault_ok hs
      · exact sendRemote_ok (giveTo_ok hs)
    · exact ite_ok hs (hfilled _ (fillFlag_ok hs))

theorem giveResult_ok {h : Held} {r : OrderedResult} (hs : s.Ok) : (s.giveResult h r).Ok := by
  unfold State.giveResult
  split
  · exact acknowledge_ok hs
  · exact hs

theorem applyOrdered_ok {l : CLine} {who : Option (Nat × Nat)} (hs : s.Ok) : (s.applyOrdered l who).Ok := by
  unfold State.applyOrdered
  extract_lets keys step
  have hstep : ∀ s h, s.Ok → (step s h).Ok := by
    intro s h hs
    unfold step
    split
    · exact giveResult_ok hs
    · extract_lets u
      have hu : u.1.Ok := updateAt_ok hs
      exact addRels_ok (giveResult_ok hu)
  exact ite_ok (foldl_ok hs (fun _ _ h => giveResult_ok h)) (foldl_ok hs hstep)

theorem contributeOrdered_ok {t : Target} {ea : W64} {op : Nat} {v : W64} {key : W32} {limit : Nat} (hs : s.Ok) :
    (contributeOrdered s t ea op v key limit).Ok := by
  unfold contributeOrdered
  split
  · exact trivial
  · split
    · exact trivial
    · split
      · exact trivial
      · split
        · exact trivial
        · extract_lets go
          have hgo : ∀ s, s.Ok → (go s).Ok := by
            intro s hs
            unfold go
            extract_lets s0 q id h l1 base s1 s2
            have hs0 : s0.Ok := tickSeq_ok hs
            have hbase : base.Ok := modMe_ok hs0
            have hs1 : s1.Ok := hbase
            have hs2 : s2.Ok := modLine_ok hs1
            exact fun _ h => bump_ok (ite_ok (applyOrdered_ok hs2) hs2)
          exact whenNearAll_ok hs (fun _ h => ite_ok (withScratch_ok h hgo) (hgo _ h))

theorem noteOwn_ok {ea : W64} (hs : s.Ok) : (s.noteOwn ea).Ok := by
  unfold State.noteOwn
  split
  · split
    · exact noteRange_ok hs
    · exact hs
  · exact hs

theorem learnAway_ok {p : BitVec 8} {after : Clock} (hs : s.Ok) : (s.learnAway p after).Ok := modMySeq_ok hs

theorem ordered_ok {d a : RegNo} {op limit : Nat} (hs : s.Ok) : (ordered s d a op limit).Ok := by
  unfold ordered
  extract_lets ea
  split
  · extract_lets clear
    have hclear : ∀ s, s.Ok → (clear s).Ok := fun s hs => hs
    split
    · exact trivial
    · exact fun _ h => hclear _ hs
    · exact noteOwn_ok (acquireAll_ok (setSreg_ok (hclear _ hs)))
  · refine withTargets_ok hs (fun t x1 h => ?_)
    split
    · extract_lets v key q rs
      split
      · refine remoteCall_ok h (fun t x1 h => ?_) (fun _ h => awayRelease_ok h)
        split
        · exact fun _ h => ‹_›
        · exact noteOwn_ok (learnAway_ok (setSreg_ok h))
        · exact noteOwn_ok (setSreg_ok h)
      · exact contributeOrdered_ok h
      · exact seqGFault_ok
    · exact h

/-! ## Moves: tile moves, row by row -/

theorem reserveRecord_ok {len : Nat} {f : State → Nat → Eff} (hs : s.Ok) (hf : ∀ t x1, t.Ok → (f t x1).Ok) :
    (reserveRecord s len f).Ok := by
  unfold reserveRecord
  extract_lets q va go
  have hgo : ∀ s, s.Ok → (go s).Ok := fun s hs => withInterval_ok hs (fun _ h => hf _ _ (modMySeq_ok h))
  split
  · exact trivial
  · split
    · exact seqGFault_ok
    · refine withResidency_ok ?_
      split
      · exact seqGFault_ok
      · exact ite_ok (whenOldest_ok hs hgo) (hgo _ hs)

theorem moveDescriptor_ok {da : Nat} {f : State → List Byte → Eff} (hs : s.Ok) (hf : ∀ t x1, t.Ok → (f t x1).Ok) :
    (moveDescriptor s da f).Ok := by
  unfold moveDescriptor
  split
  · exact trivial
  · split
    · exact trivial
    · extract_lets cells
      split
      · exact trivial
      · exact withCells_ok hs (fun _ h => hf _ _ h)

theorem moveOperands_ok {j : Job} {d : TileDesc} {kind : MoveKind} {elem : Nat} {ea : W64} {f : List Interval → Eff}
    (hf : ∀ x0, (f x0).Ok) : (s.moveOperands j d kind elem ea f).Ok := by
  unfold State.moveOperands
  extract_lets ops new table
  split
  · exact trivial
  · exact trivial
  · split
    · exact ite_ok trivial (hf _)
    · exact hf _

theorem acceptMove_ok {j : Job} {kind : MoveKind} {elem : Nat} {ea : W64} {bs : List Byte} {new : List Interval}
    {tape : Option Nat} {old : List Byte} {f : State → Nat → Eff} (hs : s.Ok) (hf : ∀ t x1, t.Ok → (f t x1).Ok) :
    (acceptMove s j kind elem ea bs new tape old f).Ok := by
  unfold acceptMove
  extract_lets d m base s1 s2
  have hbase : base.Ok := raiseCount_ok hs
  have hs1 : s1.Ok := hbase
  have hs2 : s2.Ok := by
    unfold s2
    split
    · exact modTask_ok hs1
    · exact hs1
  exact ite_ok (withTag_ok hs2 (fun _ h => hf _ _ h)) (hf _ _ hs2)

theorem issueMove_ok {kind : MoveKind} {elem da : Nat} {cc : BitVec 3} {wt sg : Option Nat} {aq rl : Bool} {sc : Nat}
    {extraWarn : Bool} {f : State → Nat → Eff} (hs : s.Ok) (hf : ∀ t x1, t.Ok → (f t x1).Ok) :
    (issueMove s kind elem da cc wt sg aq rl sc extraWarn f).Ok := by
  unfold issueMove
  extract_lets ea
  refine issueJob_ok hs (fun t x1 h => moveDescriptor_ok (warnIf_ok h) (fun t x1 h => ?_))
  extract_lets j d dst len go
  have hgo : ∀ s, s.Ok → (go s).Ok := by
    intro s hs
    unfold go
    refine withShare_ok hs (fun t h => moveOperands_ok (fun x0 => ?_))
    split
    · exact acceptMove_ok h hf
    · split
      · exact popRecord_ok h (fun _ _ h => acceptMove_ok h hf)
      · split
        · exact reserveRecord_ok h (fun _ _ h => acceptMove_ok h hf)
        · exact acceptMove_ok h hf
  split
  · exact trivial
  · split
    · exact trivial
    · split
      · exact trivial
      · exact trivial
      · exact ite_ok trivial (ite_ok (whenOldest_ok h hgo) (hgo _ h))

theorem Move.waitChunks_ok {m : Move} {spans : List (Nat × Nat)} {e : Halt} (hs : s.Ok) (h : m.waitChunks s spans = some e) :
    e.Ok := by
  unfold Move.waitChunks at h
  split at h
  · cases h
    exact requestAll_ok hs
  · cases h
  · split at h
    · cases h
      exact hs
    · cases h

theorem Move.readSpan_ok {m : Move} {lv n : Nat} {o : Int} {need : Perm} (hs : s.Ok) :
    RowOk (fun r => r.2.Ok) (m.readSpan s lv o n need) := by
  unfold Move.readSpan
  split
  · split
    · exact readGlobal_ok hs ‹_›
    · exact trivial
    · exact hs
  · exact hs

theorem Job.mayAct_ok {j : Job} {e : Halt} (hs : s.Ok) (h : j.mayAct s = some e) : e.Ok := by
  unfold Job.mayAct at h
  split at h
  · cases h
  · repeat' split at h
    all_goals cases h
    · exact trivial
    · exact hs

theorem Job.calls_ok {j : Job} {cs : List RemoteCall} {e : Halt} (hs : s.Ok) (h : j.calls s cs = some e) : e.Ok := by
  unfold Job.calls at h
  split at h
  · cases h
  · split at h
    · cases h
      exact Job.mayAct_ok hs ‹_›
    · extract_lets new mine at h
      split at h
      · cases h
        exact foldl_ok (bind_ok hs) fun _ _ h => sendRemote_ok h
      · split at h
        · cases h
          exact hs
        · obtain ⟨_, _, rfl⟩ := Option.map_eq_some_iff.mp h
          exact trivial

theorem endRow_ok {id : Nat} (hs : s.Ok) : (s.endRow id).Ok := hs

theorem Move.share_ok {m : Move} {before after : State} (hb : before.Ok) (ha : after.Ok) :
    RowOk State.Ok (m.share before after) := by
  unfold Move.share
  split
  · exact ha
  · split
    · exact ha
    · split
      · exact ha
      · split
        · exact Job.mayAct_ok hb ‹_›
        · split
          · exact becomeCommitting_ok ha ‹_›
          · exact becomeCommitting_errorOk ‹_› hb

theorem Move.fill_ok {m : Move} {cells : List Nat} (hs : s.Ok) : (Move.fill m s cells).Ok :=
  foldl_ok hs (fun _ _ h => setFlagExt_ok (setRels_ok (setFe_ok h)))

theorem Move.writeSpan_ok {m : Move} {lv : Nat} {o : Int} {bs : List Byte} {indexed now : Bool} (hs : s.Ok) :
    (Move.writeSpan m s lv o bs indexed now).1.Ok := by
  unfold Move.writeSpan
  extract_lets j va s1 cells fills s1' s2
  have hs1 : s1.Ok := writeHome_ok hs
  have hs1' : s1'.Ok := putBytes_ok hs _ _
  have hs2 : s2.Ok := note_ok hs1'
  split
  · split
    · exact ite_ok (modTask_ok hs1) hs1
    · exact hs1
  · split
    · exact hs2
    · split
      · exact hs2
      · exact Move.fill_ok hs2

theorem Move.noteReads_ok {m : Move} {lv : Nat} {indexed : Bool} {spans : List (Int × Nat)} (hs : s.Ok) :
    (Move.noteReads m s lv indexed spans).Ok := by
  unfold Move.noteReads
  split
  · split
    · exact ite_ok (modTask_ok hs) hs
    · exact hs
  · exact foldl_ok hs (fun _ _ h => note_ok h)

theorem Move.noteList_ok {m : Move} {p : RowPlan} (hs : s.Ok) : (Move.noteList m s p).Ok := by
  unfold Move.noteList
  split
  · exact Move.noteReads_ok hs
  · exact hs

theorem Move.forwardRow_ok {m : Move} {i : Nat} (hs : s.Ok) : RowOk (fun r => r.1.Ok) (m.forwardRow s i) := by
  unfold Move.forwardRow
  extract_lets d src dst p spans dsts global faults gets write read callReads checkFaults
  have hwrite : ∀ r, r.2.Ok → RowOk (fun r => r.1.Ok) (write r) := by
    intro r hr
    unfold write
    extract_lets puts put
    have hput : ∀ old, old.2.Ok → RowOk (fun r => r.1.Ok) (put old) := by
      intro old ho
      unfold put
      extract_lets s1 w base finish callWrites
      have hfinish : RowOk (fun r => r.1.Ok) (finish ⟨⟩) :=
        RowOk.bind (Move.share_ok hs (Move.writeSpan_ok (Move.noteReads_ok (Move.noteList_ok ho)))) fun _ h =>
          RowOk.pure h
      have hcalls : RowOk (fun r => r.1.Ok) (callWrites ⟨⟩) := by
        unfold callWrites
        split
        · exact Job.calls_ok hs ‹_›
        · exact hfinish
      split
      · split
        · exact Job.mayAct_ok hs ‹_›
        · exact hcalls
      · exact hcalls
    split
    · exact RowOk.bind (Move.readSpan_ok hr) hput
    · exact hput _ hr
  have hread : RowOk (fun r => r.1.Ok) (read ⟨⟩) := by
    unfold read
    split
    · exact hwrite _ hs
    · exact RowOk.bind (RowOk.foldlM (P := fun r => r.2.Ok) hs fun _ _ h => (Move.readSpan_ok h).bind fun _ h => .pure h)
        hwrite
  have hcalls : RowOk (fun r => r.1.Ok) (callReads ⟨⟩) := by
    unfold callReads
    split
    · exact Job.calls_ok hs ‹_›
    · exact hread
  split
  · exact Move.waitChunks_ok hs ‹_›
  · unfold checkFaults
    split
    · exact trivial
    · exact hcalls

theorem Move.noteAccess_ok {m : Move} {a : RevAccess} (hs : s.Ok) : (Move.noteAccess m s a).Ok := by
  unfold Move.noteAccess
  split
  · exact note_ok hs
  · split
    · exact modTask_ok hs
    · exact hs

theorem Move.bytesAt_ok {m : Move} {w : ShadowAt} {n : Nat} (hs : s.Ok) : RowOk (fun r => r.2.Ok) (m.bytesAt s w n) := by
  unfold Move.bytesAt
  split
  · exact hs
  · exact Move.readSpan_ok hs

theorem Move.setBytes_ok {m : Move} {w : ShadowAt} {bs : List Byte} (hs : s.Ok) : (Move.setBytes m s w bs).Ok := by
  unfold Move.setBytes
  split
  · exact putBytes_ok hs _ _
  · exact writeHome_ok hs

theorem Move.contribute_ok {m : Move} {w : ShadowAt} {anc : Int} {v : FVal} (hs : s.Ok) : (Move.contribute m s w anc v).1.Ok := by
  unfold Move.contribute
  split
  · extract_lets r
    exact putBytes_ok hs _ _
  · split
    · exact updateBytes_ok (bind_ok hs)
    · exact noteUpdate_ok hs

theorem Move.reverseElem_ok {m : Move} {e : RevElem} {x : FVal × W64} {acc : State × W64} (ha : acc.1.Ok) :
    (m.reverseElem e x acc).1.Ok := by
  unfold Move.reverseElem
  extract_lets s1 r s2
  have hs1 : s1.Ok := Move.setBytes_ok ha
  have hr : r.1.Ok := by
    unfold r
    split
    · exact Move.contribute_ok hs1
    · exact hs1
  have hs2 : s2.Ok := Move.setBytes_ok hr
  split
  · exact setFe_ok hs2
  · exact hs2

/-- The elements of a row, one after the other. -/
theorem Move.reverseElems_ok {m : Move} {xs : List (RevElem × FVal × W64)} {acc : State × W64} (ha : acc.1.Ok) :
    (xs.foldl (fun acc x => m.reverseElem x.1 x.2 acc) acc).1.Ok := by
  induction xs generalizing acc with
  | nil => exact ha
  | cons x xs ih => exact ih (Move.reverseElem_ok ha)

theorem Move.reverseRow_ok {m : Move} {i : Nat} (hs : s.Ok) : RowOk (fun r => r.1.Ok) (m.reverseRow s i) := by
  unfold Move.reverseRow
  extract_lets dst p out outs es as global reads faults job perform callReads mayAct checkFaults
  have hperform : RowOk (fun r => r.1.Ok) (perform ⟨⟩) := by
    unfold perform
    refine RowOk.bind (P := fun r : _ × State => r.2.Ok) (RowOk.foldlM hs fun _ _ h => ?_) fun xs hx => ?_
    · exact RowOk.bind (Move.bytesAt_ok h) fun _ h => .pure h
    · extract_lets finish
      split
      · exact Job.calls_ok hs ‹_›
      · exact RowOk.bind (Move.share_ok hs
          (Move.reverseElems_ok (foldl_ok (Move.noteReads_ok (Move.noteList_ok hx)) fun _ _ h => Move.noteAccess_ok h)))
          fun _ h => .pure h
  have hcalls : RowOk (fun r => r.1.Ok) (callReads ⟨⟩) := by
    unfold callReads
    split
    · exact Job.calls_ok hs ‹_›
    · exact hperform
  have hmay : RowOk (fun r => r.1.Ok) (mayAct ⟨⟩) := by
    unfold mayAct
    split
    · split
      · exact Job.mayAct_ok hs ‹_›
      · exact hcalls
    · exact hcalls
  split
  · exact hs
  · split
    · exact Move.waitChunks_ok hs ‹_›
    · unfold checkFaults
      split
      · exact trivial
      · exact hmay

theorem Move.runRows_ok {fuel : Nat} {m : Move} (hs : s.Ok) : (Move.runRows fuel s m).Ok := by
  induction fuel generalizing s m with
  | zero =>
    unfold Move.runRows
    exact ite_ok hs hs
  | succ fuel ih =>
    unfold Move.runRows
    split
    · exact hs
    · extract_lets m0
      have hrow : RowOk (fun r => r.1.Ok) (if m.job.rev then m0.reverseRow s (m.rows - 1 - m.row) else m0.forwardRow s m.row) :=
        ite_ok (Move.reverseRow_ok hs) (Move.forwardRow_ok hs)
      split
      · exact ih (hrow.ok ‹_›)
      · exact hs
      · exact Halt.Ok.park (hrow.error ‹_›)

theorem Move.restOld_ok {m : Move} {i : Nat} (hs : s.Ok) : RowOk (fun _ => True) (m.restOld s i) := by
  unfold Move.restOld
  extract_lets rows spans finish callReads
  split
  · exact Move.waitChunks_ok hs ‹_›
  · unfold callReads
    split
    · split
      · exact Job.calls_ok hs ‹_›
      · exact trivial
    · exact trivial

theorem Move.writeRecord_ok {m : Move} (hs : s.Ok) : RowOk State.Ok (m.writeRecord s) := by
  unfold Move.writeRecord
  split
  · exact hs
  · rename_i va _
    extract_lets write rest
    have hwrite : ∀ old, RowOk State.Ok (write old) := by
      intro old
      unfold write
      extract_lets bytes span finish callWrites checkFaults
      split
      · exact Move.waitChunks_ok hs ‹_›
      · unfold checkFaults
        split
        · exact trivial
        · unfold callWrites
          split
          · exact Job.calls_ok hs ‹_›
          · exact RowOk.bind (Move.share_ok hs (writeHome_ok hs)) fun _ h => .pure h
    split
    · exact hs
    · unfold rest
      split
      · exact RowOk.bind (Move.restOld_ok hs) fun old _ => hwrite old
      · exact RowOk.bind (P := fun _ => True) (RowOk.pure trivial) fun old _ => hwrite old

theorem putMove_ok {m : Move} (hs : s.Ok) : (s.putMove m).Ok := hs

theorem finishMove_ok {m : Move} {fault : Option (BitVec 8 × W64)} (hs : s.Ok) : (s.finishMove m fault).Ok := by
  unfold State.finishMove
  extract_lets base stop
  have hstop : ∀ s f, s.Ok → (stop s f).Ok := by
    intro s f hs
    unfold stop
    extract_lets s1
    have hs1 : s1.Ok := by
      unfold s1
      split
      · exact jobFault_ok hs
      · exact hs
    exact bump_ok (putMove_ok (endRow_ok hs1))
  split
  next s1 h => exact hstop s1 fault ((Move.writeRecord_ok hs).ok h)
  next c v _ => exact hstop s (some (fault.getD (c, v))) hs
  next s1 aw h => exact putMove_ok (Halt.Ok.park ((Move.writeRecord_ok hs).error h))

theorem advanceRows_ok {m : Move} {n : Nat} (hs : s.Ok) : (s.advanceRows m n).Ok := by
  unfold State.advanceRows
  refine inWindow_ok hs (fun t h => ?_)
  split
  · exact finishMove_ok h
  · split
    · exact finishMove_ok h
    · split
      · exact finishMove_ok ((Move.runRows_ok h).all ‹_›)
      · exact bump_ok (putMove_ok ((Move.runRows_ok h).more ‹_›))
      · exact finishMove_ok (clearDenied_ok ((Move.runRows_ok h).fault ‹_›))
      · exact putMove_ok ((Move.runRows_ok h).park ‹_›)

theorem advanceMove_ok {m : Move} (hs : s.Ok) : (s.advanceMove m).Ok := advanceRows_ok hs

theorem moveRun_ok {m : Move} {n : Nat} (hs : s.Ok) : (s.moveRun m n).Ok := by
  unfold State.moveRun
  split
  · exact hs
  · split
    · exact advanceRows_ok hs
    · split
      · exact hs
      · extract_lets r m1
        have hr : r.1.Ok := startJob_ok hs
        split
        · exact finishMove_ok hr
        · split
          · exact finishMove_ok hr
          · exact advanceRows_ok (putMove_ok hr)

theorem execTileMoveRun_ok {sh : ShNo} {id : Nat} (hs : s.Ok) : Result.Ok (execTileMoveRun sh id s) := by
  unfold execTileMoveRun
  split
  · exact hs
  · exact moveRun_ok hs

theorem moveRow_ok {sh : ShNo} {id : Nat} (hs : s.Ok) : (s.moveRow sh id).Ok := by
  unfold State.moveRow
  split
  · exact hs
  · exact moveRun_ok hs

theorem execMoveResidencyResume_ok {sh : ShNo} {id : Nat} (hs : s.Ok) : Result.Ok (execMoveResidencyResume sh id s) := by
  unfold execMoveResidencyResume
  split
  · exact hs
  · exact ite_ok (advanceMove_ok hs) hs

theorem signalMove_ok {m : Move} (hs : s.Ok) : (s.signalMove m).Ok := by
  unfold State.signalMove
  extract_lets ctl s1
  have hs1 : s1.Ok := Move.fill_ok hs
  split
  · exact ite_ok (deliver_ok hs1) hs1
  · exact hs1

theorem execTileMoveComplete_ok {sh : ShNo} {id : Nat} (hs : s.Ok) : Result.Ok (execTileMoveComplete sh id s) := by
  unfold execTileMoveComplete
  split
  · exact hs
  · split
    · exact hs
    · refine completeJob_ok ?_
      exact (signalMove_ok hs).update rfl

theorem moveH_ok {kind : MoveKind} {t : RegNo} {c : BitVec 3} {q : BitVec 2} {a r : Bool} {sc k : BitVec 4} (hs : s.Ok) :
    Result.Ok (moveH s kind t c q a r sc k) := by
  unfold moveH
  refine runT_ok hs (fun t h => ?_)
  extract_lets plain
  exact issueMove_ok h (fun _ _ h => h)

theorem moveE_ok {kind : MoveKind} {elem : Nat} {h : Hdr} {dsc : BitVec 14} (hs : s.Ok) : Result.Ok (moveE s kind elem h dsc) :=
  runC_ok hs (issueMove_ok hs (fun _ _ h => h))

/-! ## Vec: elementwise forms -/

theorem readsMask_ok {e : Eff} (he : e.Ok) : (readsMask s e).Ok := unlessDamaged_ok he

theorem xInstr_ok {k : BitVec 4} {masked : Bool} {reads writes : List RegNo} {body : State → Eff} {fall : Bool} (hs : s.Ok)
    (hbody : ∀ t, t.Ok → (body t).Ok) : Result.Ok (xInstr s k masked reads writes body fall) := by
  unfold xInstr
  refine runT_ok hs (fun t h => ?_)
  split
  · exact readsMask_ok (ite_ok (warnIf_ok h) (withVregs_ok h hbody))
  · exact withVregs_ok h hbody

theorem vecResult_ok {d : RegNo} {r : VReg × W64} {warn : Bool} (hs : s.Ok) : (s.vecResult d r warn).Ok :=
  warnIf_ok (orStatus_ok (setVreg_ok hs))

theorem elementwise_ok {k : BitVec 4} {reads : List RegNo} {d : RegNo} {w : Nat} {warn : State → Bool}
    {f : State → Nat → Nat × W64} {fall : Bool} (hs : s.Ok) : Result.Ok (elementwise s k reads d w warn f fall) :=
  xInstr_ok hs (fun _ h => vecResult_ok h)

/-! ## VecFloat: float forms -/

theorem floatOp_ok {k : BitVec 4} {t : BitVec 2} {d a b : RegNo} {r : BitVec 3} {f : RMode → FVal → FVal → FVal × W64}
    (hs : s.Ok) : Result.Ok (floatOp s k t d a b r f) := elementwise_ok hs

theorem floatPick_ok {k : BitVec 4} {t : BitVec 2} {d a b : RegNo} {r : BitVec 3} {f : Fmt → Nat → Nat → Nat × W64} (hs : s.Ok) :
    Result.Ok (floatPick s k t d a b r f) := elementwise_ok hs

theorem fusedOp_ok {k : BitVec 4} {t : BitVec 2} {d a b : RegNo} {r : BitVec 3} {negP negC : Bool} (hs : s.Ok) :
    Result.Ok (fusedOp s k t d a b r negP negC) := elementwise_ok hs

theorem unaryOp_ok {k : BitVec 4} {d a t : RegNo} {r : BitVec 3} {rounds : Bool} {f : Fmt → RMode → Nat → Nat × W64} (hs : s.Ok) :
    Result.Ok (unaryOp s k d a t r rounds f) := elementwise_ok hs

theorem pushing_ok {f : Eff} (hf : f.Ok) : (pushing s f).Ok := ite_ok trivial hf

theorem comparePush_ok {k : BitVec 4} {a b : RegNo} {w : Nat} {warn : Bool} {f : State → Nat → Bool × W64} (hs : s.Ok) :
    Result.Ok (comparePush s k a b w warn f) := by
  unfold comparePush
  refine runT_ok hs (fun t h => pushing_ok (readsMask_ok (withVregs_ok h (fun s h => ?_))))
  extract_lets r m
  exact warnIf_ok (orStatus_ok (modMe_ok h))

theorem floatCompare_ok {k : BitVec 4} {t a b : BitVec 5} {r : BitVec 3} {anyNan unordered : Bool} {cond : Int → Bool}
    (hs : s.Ok) : Result.Ok (floatCompare s k t a b r anyNan unordered cond) := comparePush_ok hs

/-! ## VecInt: integer forms -/

theorem intOp_ok {k : BitVec 4} {d a b : RegNo} {e : BitVec 3} {f : Int → Int → Int × W64} (hs : s.Ok) :
    Result.Ok (intOp s k d a b e f) := elementwise_ok hs

theorem intCompare_ok {k : BitVec 4} {a b : RegNo} {e : BitVec 3} {f : Int → Int → Bool} (hs : s.Ok) :
    Result.Ok (intCompare s k a b e f) := comparePush_ok hs

theorem bitOp_ok {k : BitVec 4} {d a b : RegNo} {e : BitVec 3} {f : Nat → Nat → Nat} (hs : s.Ok) :
    Result.Ok (bitOp s k d a b e f) := elementwise_ok hs

theorem immOp_ok {k : BitVec 4} {d a : RegNo} {w : Nat} {f : Nat → Nat} (hs : s.Ok) : Result.Ok (immOp s k d a w f) :=
  elementwise_ok hs

theorem addImm_ok {k : BitVec 4} {d a : RegNo} {i : BitVec 8} {w : Nat} (hs : s.Ok) : Result.Ok (addImm s k d a i w) :=
  immOp_ok hs

/-! ## VecMove: permutes, packs and the mask stack -/

theorem execVcvt_ok {d a : RegNo} {sc : Bool} {p r : BitVec 3} {f k : BitVec 4} (hs : s.Ok) :
    Result.Ok (execVcvt d a sc p r f k s) := by
  unfold execVcvt
  extract_lets dst src widening n
  refine xInstr_ok hs (fun t h => ?_)
  extract_lets fx e sca rm body
  have hbody : ∀ s, s.Ok → (body s).Ok := fun s hs => vecResult_ok hs
  exact ite_ok (withTable_ok h hbody) (hbody _ h)

theorem packOp_ok {k : BitVec 4} {d a b : RegNo} {e : BitVec 3} {f : Int → Int} (hs : s.Ok) : Result.Ok (packOp s k d a b e f) :=
  elementwise_ok hs

theorem unpackOp_ok {k : BitVec 4} {d a : RegNo} {e : BitVec 3} {off : Nat} (hs : s.Ok) : Result.Ok (unpackOp s k d a e off) :=
  elementwise_ok hs

theorem execVunsp_ok {d a : RegNo} {k : BitVec 4} (hs : s.Ok) : Result.Ok (execVunsp d a k s) := by
  unfold execVunsp
  refine xInstr_ok hs (fun t h => ?_)
  extract_lets half
  exact warnIf_ok (setVreg_ok (setVreg_ok h))

theorem permOp_ok {k : BitVec 4} {d : RegNo} {reads : List RegNo} {w : BitVec 3} {f : State → Nat → Nat} (hs : s.Ok) :
    Result.Ok (permOp s k d reads w f) := elementwise_ok hs

theorem execVperm_ok {d a b : RegNo} {w : BitVec 3} {k : BitVec 4} (hs : s.Ok) : Result.Ok (execVperm d a b w k s) := permOp_ok hs

theorem execVperm2_ok {d a b : RegNo} {w : BitVec 3} {k : BitVec 4} (hs : s.Ok) : Result.Ok (execVperm2 d a b w k s) :=
  permOp_ok hs

theorem execVbcq_ok {d : RegNo} {w : BitVec 3} {k : BitVec 4} (hs : s.Ok) : Result.Ok (execVbcq d w k s) :=
  runT_ok hs (fun _ h => popScalar_ok h (fun _ _ h => readsMask_ok (ite_ok h (withVregs_ok h (fun _ h => vecResult_ok h)))))

theorem zipOp_ok {k : BitVec 4} {d a b : RegNo} {w : BitVec 3} {off : Nat} (hs : s.Ok) : Result.Ok (zipOp s k d a b w off) :=
  permOp_ok hs

theorem unzipOp_ok {k : BitVec 4} {d a b : RegNo} {w : BitVec 3} {off : Nat} (hs : s.Ok) : Result.Ok (unzipOp s k d a b w off) :=
  permOp_ok hs

theorem execVsel_ok {d a b : RegNo} {w : BitVec 3} {k : BitVec 4} (hs : s.Ok) : Result.Ok (execVsel d a b w k s) := by
  unfold execVsel
  refine xInstr_ok hs (fun t h => readsMask_ok ?_)
  extract_lets n l
  exact vecResult_ok h

theorem execMinv_ok {w : BitVec 3} {k : BitVec 4} (hs : s.Ok) : Result.Ok (execMinv w k s) := by
  unfold execMinv
  refine runT_ok hs (fun t h => ?_)
  split
  · exact trivial
  · exact readsMask_ok (unlessDamaged_ok (warnIf_ok (modMe_ok h)))

theorem execMpop_ok {k : BitVec 4} (hs : s.Ok) : Result.Ok (execMpop k s) := by
  unfold execMpop
  refine runT_ok hs (fun t h => ?_)
  split
  · exact trivial
  · exact modMe_ok h

/-! ## VecReduce: reductions and extremes -/

theorem reduceOp_ok {k : BitVec 4} {d a : RegNo} {b : Option RegNo} {raw : Bool} {t : BitVec 3} {f : State → Nat → FVal × W64}
    (hs : s.Ok) : Result.Ok (reduceOp s k d a b raw t f) := by
  unfold reduceOp
  refine xInstr_ok hs (fun t h => ?_)
  extract_lets fx w
  refine withTable_ok h (fun s h => ?_)
  extract_lets e o anc seg wo res
  exact vecResult_ok h

theorem scanOp_ok {k : BitVec 4} {d a : RegNo} {t : BitVec 3} {incl : Bool} (hs : s.Ok) : Result.Ok (scanOp s k d a t incl) := by
  unfold scanOp
  refine xInstr_ok hs (fun t h => ?_)
  extract_lets fx w
  refine withTable_ok h (fun s h => ?_)
  extract_lets e o0 base o anc seg outs v
  exact vecResult_ok h

theorem extremeOp_ok {k : BitVec 4} {d a : RegNo} {t : BitVec 3} {less : Bool} (hs : s.Ok) :
    Result.Ok (extremeOp s k d a t less) := by
  unfold extremeOp
  refine xInstr_ok hs (fun t h => ?_)
  extract_lets ty seg res l
  exact vecResult_ok h

theorem execVamax_ok {a : RegNo} {t : BitVec 3} {k : BitVec 4} (hs : s.Ok) : Result.Ok (execVamax a t k s) := by
  unfold execVamax
  refine xInstr_ok hs (fun t h => ?_)
  extract_lets fx w vals nums fl warn m
  split
  · exact warnIf_ok (orStatus_ok h)
  · exact withTable_ok h (fun _ h => withTable_ok h (fun _ h => warnIf_ok (orStatus_ok (modMe_ok h))))

theorem execVdscale_ok {k : BitVec 4} (hs : s.Ok) : Result.Ok (execVdscale k s) := by
  unfold execVdscale
  refine xInstr_ok hs (fun t h => ?_)
  extract_lets fx
  refine withTable_ok h (fun s h => ?_)
  extract_lets hd
  refine withTable_ok h (fun s h => ?_)
  extract_lets e fo r
  exact warnIf_ok (orStatus_ok (modMe_ok h))

/-! ## Matrix: matrix commands -/

theorem issueMatrix_ok {h : Hdr} {steps : Nat} {dim : Option Nat} {use : Option FmtUse} {pre : List (MOperand × Nat)}
    {settle : BitVec 128 → MatOp × List (MOperand × Bool) × Bool} (hs : s.Ok) :
    (issueMatrix s h steps dim use pre settle).Ok := by
  unfold issueMatrix
  split
  · exact trivial
  · refine issueJob_ok hs (fun t x1 h => ?_)
    split
    · exact trivial
    · split
      · exact trivial
      · extract_lets snapOut body
        have hbody : ∀ s, s.Ok → (body s).Ok := by
          intro s hs
          unfold body
          extract_lets j src r race reads snap mismatch j1 base
          have hbase : base.Ok := raiseCount_ok hs
          split
          · exact trivial
          · clear_value mismatch
            split
            · exact trivial
            · exact trivial
            · exact hbase
        clear_value snapOut
        split
        · exact trivial
        · split
          · exact withTable_ok h hbody
          · exact withCells_ok h hbody
          · exact hbody _ h

theorem execMma_ok {h : Hdr} {t : BitVec 2} {fx : BitVec 6} {lv : BitVec 3} {snp ta tb mca mcb : Bool} {tri : BitVec 2}
    {sn sd ss sb sa : RegNo} (hs : s.Ok) : Result.Ok (execMma h t fx lv snp ta tb mca mcb tri sn sd ss sb sa s) :=
  runC_ok hs (issueMatrix_ok hs)

theorem execMbias_ok {h : Hdr} {t : BitVec 2} {fx : BitVec 6} {lv : BitVec 3} {snp : Bool} {sn sd sa : RegNo} (hs : s.Ok) :
    Result.Ok (execMbias h t fx lv snp sn sd sa s) := runC_ok hs (issueMatrix_ok hs)

theorem execMout_ok {h : Hdr} {t : BitVec 2} {fx : BitVec 6} {lv : BitVec 3} {snp cap clr tr : Bool} {row0 nr : BitVec 6}
    {sn ss sa : RegNo} (hs : s.Ok) : Result.Ok (execMout h t fx lv snp cap clr tr row0 nr sn ss sa s) :=
  runC_ok hs (issueMatrix_ok hs)

theorem execMoutr_ok {h : Hdr} {t : BitVec 2} {clr tr : Bool} {row0 nr : BitVec 6} {ss sa : RegNo} (hs : s.Ok) :
    Result.Ok (execMoutr h t clr tr row0 nr ss sa s) := runC_ok hs (issueMatrix_ok hs)

theorem execMldr_ok {h : Hdr} {t : BitVec 2} {tr : Bool} {row0 nr : BitVec 6} {ss sa : RegNo} (hs : s.Ok) :
    Result.Ok (execMldr h t tr row0 nr ss sa s) := runC_ok hs (issueMatrix_ok hs)

theorem execMsnap_ok {h : Hdr} {fx : BitVec 6} {lv : BitVec 3} {sa : RegNo} (hs : s.Ok) : Result.Ok (execMsnap h fx lv sa s) :=
  runC_ok hs (issueMatrix_ok hs)

/-- The work of a row keeps the form. -/
def RowWork.Ok (w : RowWork) : Prop := ∀ s : State, s.Ok → (w.run s).1.Ok

theorem onRow_ok {n : ShNo} {t r : Nat} {f : TileRow → TileRow × W64} (hs : s.Ok) : (s.onRow n t r f).1.Ok := hs

theorem zeroRow_ok {n : ShNo} {t r : Nat} {anc : Int} : (zeroRow n t anc r).Ok := by
  intro s hs
  exact ite_ok (P := fun u : State × W64 => u.1.Ok) (modShuttle_ok (onRow_ok hs)) (onRow_ok hs)

theorem mmaRow_ok {n : ShNo} {t fa fb tri qa qb k m nn i : Nat} {ta tb : Bool} {pa pb : W64} :
    (mmaRow s n t fa fb ta tb tri pa pb qa qb k m nn i).Ok := by
  intro s hs
  exact ite_ok (P := fun u : State × W64 => u.1.Ok) hs (onRow_ok hs)

theorem biasRow_ok {n : ShNo} {t fb nn i : Nat} {p : W64} : (biasRow s n t fb p nn i).Ok := fun _ hs => onRow_ok hs

theorem addtRow_ok {n : ShNo} {td ts r : Nat} {clear : Bool} : (addtRow n td ts clear r).Ok := by
  intro s hs
  dsimp only [addtRow]
  split
  · dsimp only
    exact onRow_ok (onRow_ok hs)
  · exact onRow_ok hs

theorem pocketRow_ok {n : ShNo} {t row0 i q nn w : Nat} {clear tr : Bool} {p : W64} {conv : TileRow → Nat → Nat × W64}
    {also : State → TileRow → State × W64} (ha : ∀ s row, s.Ok → (also s row).1.Ok) :
    (pocketRow s n t clear tr row0 i p q nn w conv also).Ok := by
  intro s hs
  dsimp only [pocketRow]
  refine ite_ok (onRow_ok ?_) ?_ <;> exact ha _ _ (foldl_fst_ok hs fun acc x h => putBytes_ok h _ _)

theorem loadRow_ok {n : ShNo} {t row0 i q nn : Nat} {tr : Bool} {p : W64} : (loadRow s n t tr row0 i p q nn).Ok :=
  fun _ hs => onRow_ok hs

theorem captureRow_ok {n : ShNo} {entry nn : Nat} {o : OutConv} {row : TileRow} (hs : s.Ok) :
    (captureRow n entry o nn s row).1.Ok := by
  refine foldl_fst_ok hs fun acc j h => ?_
  dsimp only
  split
  · exact modShuttle_ok h
  · exact h

theorem MatOp.rows_ok {op : MatOp} {e : BitVec 128} {n : ShNo} : ∀ w ∈ op.rows e s n, w.Ok := by
  unfold MatOp.rows
  cases op with
  | zero =>
    intro w hw
    obtain ⟨t, -, hw⟩ := List.mem_flatMap.mp hw
    obtain ⟨r, -, rfl⟩ := List.mem_map.mp hw
    exact zeroRow_ok
  | mma => exact List.forall_mem_map.mpr fun _ _ => mmaRow_ok
  | bias => exact List.forall_mem_map.mpr fun _ _ => biasRow_ok
  | addt => exact List.forall_mem_map.mpr fun _ _ => addtRow_ok
  | out =>
    refine List.forall_mem_map.mpr fun _ _ => pocketRow_ok fun s row hs => ?_
    split
    · exact captureRow_ok hs
    · exact hs
  | outRaw => exact List.forall_mem_map.mpr fun _ _ => pocketRow_ok fun _ _ hs => hs
  | loadRaw => exact List.forall_mem_map.mpr fun _ _ => loadRow_ok
  | nop => exact List.forall_mem_nil _
  | snap => exact List.forall_mem_singleton.mpr fun _ hs => putBytes_ok hs _ _

/-- The rows still to run, each with the tiles it touches. -/
theorem zipRows_ok {op : MatOp} {e : BitVec 128} {n : ShNo} {ts : List (List (Nat × Nat) × List (Nat × Nat))} :
    ∀ x ∈ ts.zip (op.rows e s n), x.2.Ok :=
  fun _ hx => MatOp.rows_ok _ (List.of_mem_zip hx).2

theorem noteRow_ok {j : Job} {capture : Option Nat} {tiles : List (Nat × Nat) × List (Nat × Nat)} {w : RowWork} (hs : s.Ok) :
    (noteRow s j capture tiles w).Ok := note_ok (note_ok (note_ok (note_ok (note_ok hs))))

theorem putMat_ok {m : MatJob} (hs : s.Ok) : (s.putMat m).Ok := hs

theorem finishMat_ok {m : MatJob} {fault : Option (BitVec 8 × W64)} (hs : s.Ok) : (s.finishMat m fault).Ok := by
  unfold State.finishMat
  extract_lets s1 base
  have hs1 : s1.Ok := by
    unfold s1
    split
    · exact jobFault_ok hs
    · exact hs
  exact putMat_ok hs1

theorem matRows_ok {m : MatJob} {ws : List ((List (Nat × Nat) × List (Nat × Nat)) × RowWork)} (hs : s.Ok)
    (hw : ∀ x ∈ ws, x.2.Ok) : (s.matRows m ws).Ok := by
  induction ws generalizing s m with
  | nil =>
    unfold State.matRows
    exact ite_ok (finishMat_ok hs) (putMat_ok hs)
  | cons x ws ih =>
    obtain ⟨hx, hws⟩ := List.forall_mem_cons.mp hw
    unfold State.matRows
    split
    · exact putMat_ok hs
    · split
      · exact finishMat_ok hs
      · exact ih (hx _ (noteRow_ok hs)) hws

theorem advanceMat_ok {m : MatJob} {n : Nat} (hs : s.Ok) : (s.advanceMat m n).Ok :=
  inWindow_ok hs fun _ h => matRows_ok h fun x hx => zipRows_ok x (List.mem_of_mem_drop (List.mem_of_mem_take hx))

theorem matSource_ok {t : State} {m m' : MatJob} (hs : s.Ok) (h : s.matSource m = .ok (t, m')) : t.Ok := by
  unfold State.matSource at h
  extract_lets j src entries cells at h
  split at h
  · cases h
  · cases h
    exact note_ok hs

theorem matRun_ok {m : MatJob} {n : Nat} (hs : s.Ok) : (s.matRun m n).Ok := by
  unfold State.matRun
  split
  · exact advanceMat_ok hs
  · split
    · exact hs
    · extract_lets r m1
      have hr : r.1.Ok := startJob_ok hs
      split
      · exact finishMat_ok hr
      · refine inWindow_ok hr fun t h => ?_
        split
        · exact finishMat_ok h
        · exact matRows_ok (putMat_ok (matSource_ok h ‹_›)) fun x hx => zipRows_ok x (List.mem_of_mem_take hx)

theorem execMatrixCommandStart_ok {sh : ShNo} {id : Nat} (hs : s.Ok) : Result.Ok (execMatrixCommandStart sh id s) := by
  unfold execMatrixCommandStart
  split
  · exact hs
  · exact bump_ok (matRun_ok hs)

theorem matrixRow_ok {sh : ShNo} {id : Nat} (hs : s.Ok) : (s.matrixRow sh id).Ok := by
  unfold State.matrixRow
  split
  · exact hs
  · exact bump_ok (matRun_ok hs)

theorem execMatrixCommandComplete_ok {sh : ShNo} {id : Nat} (hs : s.Ok) : Result.Ok (execMatrixCommandComplete sh id s) := by
  unfold execMatrixCommandComplete
  split
  · exact hs
  · split
    · exact hs
    · extract_lets s1 base
      have hs1 : s1.Ok := hs
      exact completeJob_ok hs1

theorem rowRead_ok {k : BitVec 4} {writes : List RegNo} {l : RegNo} {t : BitVec 2} {r : BitVec 6} {clear useFmt : Bool}
    {f : State → TileRow → State × W64 × Bool} (hs : s.Ok) (hf : ∀ t x1, t.Ok → (f t x1).1.Ok) :
    Result.Ok (rowRead s k writes l t r clear useFmt f) := by
  unfold rowRead
  refine runT_ok hs (fun t h => ?_)
  extract_lets kv row know body
  have hbody : ∀ s, s.Ok → (body s).Ok := by
    intro s hs
    unfold body
    split
    · exact trivial
    · refine withTag_ok hs (fun s h => ?_)
      extract_lets u s1
      have hu : u.1.Ok := hf _ _ h
      have hs1 : s1.Ok := ite_ok (onRow_ok hu) hu
      exact warnIf_ok (orStatus_ok hs1)
  exact ite_ok trivial (withVregs_ok h (fun _ h => ite_ok (withTable_ok h hbody) (hbody _ h)))

theorem convertRow_ok {d : RegNo} {row : TileRow} (hs : s.Ok) : (convertRow d s row).1.Ok := hs

theorem execMrdr_ok {v l : RegNo} {t : BitVec 2} {r : BitVec 6} {k : BitVec 4} (hs : s.Ok) :
    Result.Ok (execMrdr v l t r k s) := by
  unfold execMrdr
  refine rowRead_ok hs (fun t x1 h => ?_)
  extract_lets raws half
  exact setVreg_ok (setVreg_ok h)

/-! ## RangeCmd: range commands -/

theorem putMapBits_ok {m : Nat} {bits : List Bool} (hs : s.Ok) : (s.putMapBits m bits).Ok := putBytes_ok hs _ _

theorem splitRange_ok {i o m : Nat} (hs : s.Ok) : (s.splitRange i o m).Ok :=
  ite_ok (putDesc_ok (putDesc_ok hs)) (putMapBits_ok (putDesc_ok (putDesc_ok hs)))

theorem mergeRange_ok {i m : Nat} (hs : s.Ok) : (s.mergeRange i m).Ok :=
  ite_ok (putDesc_ok (putDesc_ok hs)) (putMapBits_ok (putDesc_ok (putDesc_ok hs)))

theorem startPress_ok {job i base : Nat} (hs : s.Ok) : (s.startPress job i base).Ok := putDesc_ok hs

theorem endPress_ok {p : Press} (hs : s.Ok) : (s.endPress p).Ok := State.Ok.update (putDesc_ok (putBytes_ok hs _ _)) rfl

theorem endInvalidation_ok {num : Nat} {ivs : List (Nat × Nat)} (hs : s.Ok) : (s.endInvalidation num ivs).Ok := rangeMsi_ok hs

theorem startInvalidation_ok {r : RangeJob} {ivs : List (Nat × Nat)} (hs : s.Ok) : (s.startInvalidation r ivs).1.Ok := hs

theorem putRangeJob_ok {r : RangeJob} (hs : s.Ok) : (s.putRangeJob r).Ok := hs

theorem runRange_ok {r : RangeJob} (hs : s.Ok) : (s.runRange r).Ok := by
  unfold State.runRange
  extract_lets j x ran invalidating
  have hinvalidating : ∀ s1 r, s1.Ok → (invalidating s1 r).Ok := by
    intro s1 r hs
    unfold invalidating
    extract_lets t
    have ht : t.1.Ok := startInvalidation_ok hs
    exact putRangeJob_ok ht
  split
  · exact putRangeJob_ok (jobFault_ok hs)
  · split
    · exact hinvalidating _ _ (splitRange_ok hs)
    · exact hinvalidating _ _ (mergeRange_ok hs)
    · exact hinvalidating _ _ (startPress_ok hs)
    · exact putRangeJob_ok (replyChunk_ok hs)
    · exact putRangeJob_ok (advanceGen_ok hs)
    · exact hinvalidating _ _ hs

theorem endRange_ok {r : RangeJob} (hs : s.Ok) : (s.endRange r).Ok := completeJob_ok hs

theorem execRangeCommandRun_ok {sh : ShNo} {id : Nat} (hs : s.Ok) : Result.Ok (execRangeCommandRun sh id s) := by
  unfold execRangeCommandRun
  split
  · exact hs
  · split
    · exact ite_ok (endRange_ok hs) hs
    · split
      · exact hs
      · extract_lets t r1 base
        have ht : t.1.Ok := startJob_ok hs
        exact ite_ok (bump_ok (putRangeJob_ok ht)) (bump_ok (runRange_ok (putRangeJob_ok ht)))

theorem execPressBlockCopy_ok (hs : s.Ok) : Result.Ok (execPressBlockCopy s) := by
  unfold execPressBlockCopy
  split
  · exact hs
  · split
    · exact hs
    · split
      · split
        · extract_lets base
          have hbase : base.Ok := endPress_ok hs
          exact hbase.update rfl
        · extract_lets base t
          have ht : t.1.Ok := startInvalidation_ok (endPress_ok hs)
          exact bump_ok (putRangeJob_ok ht)
      · extract_lets d copied ended
        have hcopied : ∀ s bs, s.Ok → (copied s bs).Ok := fun s bs hs => (putBytes_ok hs _ _).update rfl
        have hended : ended.Ok := hs.update rfl
        split
        · exact hcopied _ _ hs
        · extract_lets ask before
          have hask : ∀ s, s.Ok → (ask s).Ok := fun s hs => sendRemote_ok hs
          split
          · exact hcopied _ _ hended
          · exact hask _ hended
          · exact ite_ok hs (hask _ hs)
        · exact hs

theorem execInvalidationComplete_ok {id : Nat} (hs : s.Ok) : Result.Ok (execInvalidationComplete id s) := by
  unfold execInvalidationComplete
  split
  · split
    · exact hs
    · exact ite_ok (endInvalidation_ok hs) hs
  · split
    · exact hs
    · split
      · exact hs
      · split
        · exact hs
        · extract_lets s1 base
          have hs1 : s1.Ok := endInvalidation_ok hs
          have hbase : base.Ok := putRangeJob_ok hs1
          exact ite_ok hbase (bump_ok hbase)

theorem issueRange_ok {fn : Nat} {h : Hdr} {x y z : W64} (hs : s.Ok) : Result.Ok (issueRange s fn h x y z) :=
  runC_ok hs (issueJob_ok hs (fun _ _ h => h))

theorem execRreqRead_ok (hs : s.Ok) : Result.Ok (execRreqRead s) := by
  unfold execRreqRead
  split
  · exact hs
  · split
    · exact hs
    · exact rangeMsi_ok hs

theorem execRresume_ok {v : W64} (hs : s.Ok) : Result.Ok (execRresume v s) := replyChunk_ok hs

theorem execRgenreq_ok {v : W64} (hs : s.Ok) : Result.Ok (execRgenreq v s) := by
  unfold execRgenreq
  split
  · exact (advanceGen_ok hs).update rfl
  · exact hs

theorem execRivctlGo_ok (hs : s.Ok) : Result.Ok (execRivctlGo s) := by
  unfold execRivctlGo
  split
  · exact hs
  · extract_lets iv
    exact hs

/-! ## Queues: packets and their reports -/

theorem setCb_ok {q off lo n v : Nat} (hs : s.Ok) : (s.setCb q off lo n v).Ok := by
  unfold State.setCb
  split
  · exact putDword_ok hs _ _
  · exact hs

theorem msiv_ok {q : Nat} (hs : s.Ok) : (s.msiv q).Ok := sendMsi_ok hs

theorem haltQueue_ok {q : Nat} (hs : s.Ok) : (s.haltQueue q).Ok := msiv_ok (setCb_ok hs)

theorem modQueue_ok {q : Nat} {f : Queue → Queue} (hs : s.Ok) : (s.modQueue q f).Ok := hs

theorem modPkt_ok {q id : Nat} {f : Pkt → Pkt} (hs : s.Ok) : (s.modPkt q id f).Ok := modQueue_ok hs

theorem setStatus_ok {q id n : Nat} (hs : s.Ok) : (s.setStatus q id n).Ok := modPkt_ok hs

theorem creelHalt_ok {who va : Nat} {e : GFault} (hs : s.Ok) : (s.creelHalt who va e).Ok := by
  unfold State.creelHalt
  split
  · exact trivial
  · exact ite_ok trivial (requestChunk_ok hs)
  · exact hs
  · exact ite_ok hs (sendRemote_ok hs)

theorem creelRead_accOk {s : State} {who va n : Nat} (hs : s.Ok) : (s.creelRead who va n).Ok := by
  unfold State.creelRead
  split
  · exact readGlobal_ok hs ‹_›
  · exact creelHalt_ok hs

theorem dropReplies_ok {who : Nat} (hs : s.Ok) : (s.dropReplies who).Ok := hs

theorem creelCheck_ok {who va n : Nat} (hs : s.Ok) : (s.creelCheck who va n).Ok := by
  unfold State.creelCheck
  split
  · exact hs
  · exact creelHalt_ok hs

theorem creelWrite_ok {who va : Nat} {bs : List Byte} (hs : s.Ok) : (s.creelWrite who va bs).Ok := writeGlobal_ok hs

theorem readPacket_ok {x : Queue} {c : Cursor} (hs : s.Ok) : (s.readPacket x c).Ok := by
  unfold State.readPacket
  extract_lets at_
  split
  · exact trivial
  · split
    · exact trivial
    · split
      · exact trivial
      · exact (creelRead_accOk hs).waits ‹_›
      · extract_lets n
        split
        · exact trivial
        · split
          · exact trivial
          · split
            · exact trivial
            · exact (creelRead_accOk hs).waits ‹_›
            · exact trivial

theorem peek_ok {x : Queue} (hs : s.Ok) : (s.peek x).Ok := by
  unfold State.peek
  extract_lets va
  split
  · exact trivial
  · exact trivial
  · exact readPacket_ok hs

theorem mapQueue_ok {x : Queue} {slot : Nat} (hs : s.Ok) : (s.mapQueue x slot).Ok :=
  setCb_ok (setCb_ok (setCb_ok (modQueue_ok hs)))

theorem unmapQueue_ok {x : Queue} (hs : s.Ok) : (s.unmapQueue x).Ok := by
  unfold State.unmapQueue
  extract_lets now s1 s2 s3
  have hs1 : s1.Ok := modQueue_ok hs
  have hs2 : s2.Ok := setCb_ok (setCb_ok (setCb_ok hs1))
  have hs3 : s3.Ok := ite_ok hs2 (setCb_ok hs2)
  split
  · exact hs3
  · exact putBytes_ok hs3 _ _

theorem decideOnce_ok {t : State} (hs : s.Ok) (h : s.decideOnce = some t) : t.Ok := by
  unfold State.decideOnce at h
  extract_lets mapped free at h
  clear_value free mapped
  repeat' split at h
  all_goals cases h
  · exact unmapQueue_ok hs
  · exact mapQueue_ok hs
  · exact unmapQueue_ok hs
  · exact modQueue_ok hs

theorem decideFor_ok {fuel : Nat} (hs : s.Ok) : (State.decideFor fuel s).Ok := by
  induction fuel generalizing s with
  | zero => exact hs
  | succ fuel ih =>
    unfold State.decideFor
    split
    · exact hs
    · exact ih (decideOnce_ok hs ‹_›)

theorem atInstant_ok {k : Nat} (hs : s.Ok) : (s.atInstant k).Ok := hs

theorem decideNow_ok (hs : s.Ok) : s.decideNow.Ok := decideFor_ok hs

theorem decidePoint_ok {k : Nat} (hs : s.Ok) : (s.decidePoint k).Ok := decideNow_ok (atInstant_ok hs)

theorem ageQueue_ok {q fuel : Nat} (hs : s.Ok) : (s.ageQueue q fuel).Ok := by
  induction fuel generalizing s with
  | zero => exact hs
  | succ fuel ih =>
    unfold State.ageQueue
    split
    · exact hs
    · split
      · exact hs
      · exact ih (ite_ok (decidePoint_ok (setCb_ok (modQueue_ok hs))) (modQueue_ok hs))

theorem passCycle_ok (hs : s.Ok) : s.passCycle.Ok := foldl_ok hs (fun _ _ h => ageQueue_ok h)

theorem makeReport_ok {x : Queue} {p : Pkt} (hs : s.Ok) : (s.makeReport x p).Ok := by
  unfold State.makeReport
  extract_lets st omits sigOk one addSig finish
  have hone : ∀ s va n write, s.Ok → (∀ s, s.Ok → (write s).Ok) → (one s va n write).Ok := by
    intro s va n write hs hw
    unfold one
    split
    · exact hw _ ((creelCheck_ok hs).ok ‹_›)
    · exact ite_ok (P := State.Ok) hs (msiv_ok (clearDenied_ok hs))
    · exact (creelCheck_ok hs).waits ‹_›
  have haddSig : ∀ s, s.Ok → (addSig s).Ok := by
    intro s hs
    unfold addSig
    split
    · exact putDword_ok hs _ _
    · exact sendRemote_ok hs
    · exact hs
  have hfinish : ∀ s, s.Ok → (finish s).Ok := by
    intro s hs
    unfold finish
    extract_lets s1
    have hs1 : s1.Ok := modQueue_ok hs
    split
    · exact setCb_ok hs1
    · exact hs1
  have hstatus : (if omits.1 then .ok s [] else one s (p.va + 2) 1 fun s =>
    s.creelWrite x.agent (p.va + 2) [BitVec.ofNat 8 st]).Ok :=
    ite_ok (P := CreelAcc.Ok) hs (hone _ _ _ _ hs fun _ h => creelWrite_ok h)
  split
  · have hsig := hone _ p.sig 8 addSig (hstatus.ok ‹_›) haddSig
    split
    · split
      · exact hfinish _ (hsig.ok ‹_›)
      · split
        · dsimp only [CreelAcc.Ok]
          split
          · exact (creelCheck_ok hs).waits ‹_›
          · exact hs
        · exact hsig
    · exact hfinish _ (hstatus.ok ‹_›)
  · exact hstatus

theorem execPacketComplete_ok {q id : Nat} (hs : s.Ok) : Result.Ok (execPacketComplete q id s) := by
  unfold execPacketComplete
  split
  · exact hs
  · split
    · exact hs
    · split
      · exact hs
      · split
        · exact decidePoint_ok ((makeReport_ok hs).ok ‹_›)
        · exact (makeReport_ok hs).waits ‹_›
        · exact hs

theorem enterPkt_ok {x : Queue} {p : Packet} {room : Nat} {status : Option Nat} {f : Pkt → Pkt} {run : Bool} {skip : Nat}
    (hs : s.Ok) : (s.enterPkt x p room status f run skip).Ok := setCb_ok (dropReplies_ok (modQueue_ok hs))

theorem reportCheck_ok {x : Queue} {p : Packet} (hs : s.Ok) : (s.reportCheck x p).Ok := by
  unfold State.reportCheck
  split
  · exact ite_ok ((creelCheck_ok hs).ok ‹_›) (creelCheck_ok ((creelCheck_ok hs).ok ‹_›))
  · exact creelCheck_ok hs

theorem boundary_ok {t : State} {x : Queue} (hs : s.Ok) (h : s.boundary x = some t) : t.Ok := by
  unfold State.boundary at h
  extract_lets s1 due at h
  split at h
  · cases h
    exact decideNow_ok (unmapQueue_ok (atInstant_ok hs))
  · cases h

theorem formatError_ok {q : Nat} (hs : s.Ok) : (s.formatError q).Ok := msiv_ok (setCb_ok hs)

theorem dispatchPacket_ok {q : Nat} {p : Packet} {ty : Nat} {start : State → Queue → Nat → Nat → Begin} (hs : s.Ok)
    (hstart : ∀ t x1 x2 x3, t.Ok → (start t x1 x2 x3).Ok) : Result.Ok (dispatchPacket q p ty start s) := by
  unfold dispatchPacket
  split
  · exact hs
  · split
    · exact hs
    · split
      · exact boundary_ok hs ‹_›
      · split
        · exact hs
        · split
          · exact hs
          · exact hs
          · exact (peek_ok hs).waits ‹_›
          · split
            · exact hs
            · extract_lets room enter
              have henter : ∀ s status f run skip, s.Ok → (enter s status f run skip).Ok :=
                fun s status f run skip hs => decidePoint_ok (enterPkt_ok hs)
              split
              · exact henter _ _ _ _ _ hs
              · split
                · exact henter _ _ _ _ _ (formatError_ok hs)
                · split
                  · exact henter _ _ _ _ _ (msiv_ok (clearDenied_ok hs))
                  · exact (reportCheck_ok hs).waits ‹_›
                  · split
                    · exact (hstart _ _ _ _ ((reportCheck_ok hs).ok ‹_›)).wait ‹_›
                    · exact henter _ _ _ _ _ (formatError_ok ((hstart _ _ _ _ ((reportCheck_ok hs).ok ‹_›)).format ‹_›))
                    · exact henter _ _ _ _ _ (msiv_ok (clearDenied_ok ((hstart _ _ _ _ ((reportCheck_ok hs).ok ‹_›)).fail ‹_›)))
                    · exact henter _ _ _ _ _ ((hstart _ _ _ _ ((reportCheck_ok hs).ok ‹_›)).ran ‹_›)

theorem dispatchOdd_ok {q : Nat} (hs : s.Ok) : (s.dispatchOdd q).Ok := by
  unfold State.dispatchOdd
  split
  · exact hs
  · extract_lets enter p
    have henter : ∀ s p status f, s.Ok → (enter s p status f).Ok := fun s p status f hs => decidePoint_ok (enterPkt_ok hs)
    split
    · exact hs
    · split
      · exact boundary_ok hs ‹_›
      · split
        · exact hs
        · split
          · exact hs
          · exact (peek_ok hs).waits ‹_›
          · exact ite_ok hs (ite_ok (henter _ _ _ _ hs) (henter _ _ _ _ (msiv_ok (clearDenied_ok hs))))
          · exact ite_ok hs (ite_ok (henter _ _ _ _ hs) (henter _ _ _ _ (formatError_ok hs)))

/-! ## Creel: packets that wait -/

theorem wakeQueue_ok {q : Nat} (hs : s.Ok) : (s.wakeQueue q).Ok := msiv_ok (ite_ok hs hs)

theorem kick_ok {q : Nat} (hs : s.Ok) : (s.kick q).Ok := by
  unfold State.kick
  split
  · exact hs
  · extract_lets s1 w s2 rises now s3 s4
    have hs1 : s1.Ok := ite_ok hs hs
    have hs2 : s2.Ok := modQueue_ok hs1
    have hs3 : s3.Ok := ite_ok (modQueue_ok (setCb_ok hs2)) hs2
    have hs4 : s4.Ok := decidePoint_ok hs3
    split
    · exact haltQueue_ok hs1
    · split
      · exact haltQueue_ok hs2
      · split
        · exact hs2
        · exact ite_ok (decidePoint_ok hs2) (ite_ok (wakeQueue_ok hs4) hs4)

theorem execKick_ok {q : Nat} (hs : s.Ok) : Result.Ok (execKick q s) := kick_ok hs

theorem execDoorbellWrite_ok {q : Nat} {v : W64} (hs : s.Ok) : Result.Ok (execDoorbellWrite q v s) := kick_ok hs

theorem execWakeRead_ok (hs : s.Ok) : Result.Ok (execWakeRead s) := hs

theorem execSlotsWrite_ok {v : W64} (hs : s.Ok) : Result.Ok (execSlotsWrite v s) := hs

theorem execPacketFetch_ok {q : Nat} (hs : s.Ok) : Result.Ok (execPacketFetch q s) := by
  unfold execPacketFetch
  split
  · exact hs
  · split
    · exact hs
    · split
      · exact hs
      · split
        · exact hs
        · split
          · exact modQueue_ok hs
          · exact hs
          · exact hs
          · exact hs

theorem execFfenceComplete_ok {q : Nat} (hs : s.Ok) : Result.Ok (execFfenceComplete q s) := by
  unfold execFfenceComplete
  split
  · exact hs
  · split
    · exact hs
    · exact ite_ok (decidePoint_ok (modQueue_ok (setStatus_ok hs))) hs

theorem countPackets_ok {who fuel need va units : Nat} (hs : s.Ok) : (s.countPackets who fuel need va units).Ok := by
  induction fuel generalizing need va units with
  | zero => exact trivial
  | succ fuel ih =>
    unfold State.countPackets
    split
    · exact trivial
    · extract_lets on
      have hon : ∀ n, (on n).Ok := by
        intro n
        unfold on
        split
        · exact ih.waits ‹_›
        · exact trivial
      split
      · exact (creelRead_accOk hs).waits ‹_›
      · exact hon _
      · exact hon _

theorem packetsLeft_ok {who need : Nat} {c : Cursor} {units : Nat} (hs : s.Ok) : (s.packetsLeft who need c units).Ok := by
  unfold State.packetsLeft
  split
  · exact trivial
  · extract_lets va n
    split
    · exact countPackets_ok hs
    · extract_lets m
      split
      · exact (countPackets_ok hs).waits ‹_›
      · split
        next h =>
          split at h
          · cases h
          · exact (countPackets_ok hs).waits h
        next =>
          split
          · exact (countPackets_ok hs).waits ‹_›
          · exact trivial

theorem execPredPacket_ok {q : Nat} {p : Packet} (hs : s.Ok) : Result.Ok (execPredPacket q p s) := by
  unfold execPredPacket
  refine dispatchPacket_ok hs (fun t x1 x2 x3 h => ?_)
  split
  · exact h
  · exact (creelRead_accOk h).waits ‹_›
  · extract_lets w skip
    split
    · exact (creelRead_accOk h).ok ‹_›
    · split
      · exact (packetsLeft_ok ((creelRead_accOk h).ok ‹_›)).waits ‹_›
      · exact ite_ok ((creelRead_accOk h).ok ‹_›) ((creelRead_accOk h).ok ‹_›)

theorem pollPairs_ok {who : Nat} {pairs : List (Nat × W64)} (hs : s.Ok) : (s.pollPairs who pairs).1.Ok := by
  induction pairs generalizing s with
  | nil => exact hs
  | cons c pairs ih =>
    unfold State.pollPairs
    split
    · exact trivial
    · extract_lets t
      have ht : t.1.Ok := ih ((creelRead_accOk hs).waits ‹_›)
      split
      · exact trivial
      · exact ht.ok ‹_›
      · exact ht.waits ‹_›
    · exact ih ((creelRead_accOk hs).ok ‹_›)

theorem lookFence_ok {q id : Nat} {expire : Bool} (hs : s.Ok) : (s.lookFence q id expire).Ok := by
  unfold State.lookFence
  split
  · exact hs
  · split
    · exact hs
    · split
      · exact hs
      · extract_lets ends expired r keep late
        have hexpired : ∀ s, s.Ok → (expired s).Ok := fun s hs => decidePoint_ok (haltQueue_ok (setStatus_ok hs))
        have hr : r.1.Ok := pollPairs_ok hs
        have hkeep : ∀ s, s.Ok → (keep s).Ok := fun s hs => modPkt_ok hs
        have hlate : ∀ s, s.Ok → (late s).Ok := fun s hs => ite_ok (hexpired _ hs) hs
        split
        · exact hexpired _ hs
        · split
          · exact decidePoint_ok (msiv_ok (setStatus_ok (clearDenied_ok hs)))
          · exact hlate _ (hkeep _ (hr.waits ‹_›))
          · extract_lets s2
            have hs2 : s2.Ok := dropReplies_ok (hkeep _ (hr.ok ‹_›))
            exact ite_ok (decidePoint_ok (setStatus_ok hs2)) (hlate _ hs2)

/-! ## Treadle: runs of the Treadle -/

theorem putRun_ok {r : TreadleRun} (hs : s.Ok) : (s.putRun r).Ok := hs

theorem closeEmits_ok {r : TreadleRun} {emits : List Packet} (hs : s.Ok) : (s.closeEmits r emits).Ok := ite_ok hs (modQueue_ok hs)

theorem releaseHandle_ok {h : Nat} (hs : s.Ok) : (s.releaseHandle h).Ok := hs

theorem endRun_ok {r : TreadleRun} {status : Nat} {emits : List Packet} (hs : s.Ok) : (s.endRun r status emits).Ok :=
  decidePoint_ok (closeEmits_ok (setStatus_ok (releaseHandle_ok hs)))

theorem treadleWord_ok {f : TreadleRun → TreadleEff} (hs : s.Ok) (hf : ∀ x0, (f x0).Ok) : Result.Ok (treadleWord s f) := by
  unfold treadleWord
  split
  · exact hs
  · split
    · exact hs
    · split
      · exact putRun_ok (dropReplies_ok hs)
      · exact putRun_ok hs
      · extract_lets s1
        have hs1 : s1.Ok := endRun_ok (ite_ok (clearDenied_ok hs) hs)
        exact ite_ok (msiv_ok hs1) hs1
      · exact (hf _).waits ‹_›

theorem treadleAlu_ok {d a b : BitVec 4} {f : W64 → W64 → W64} (hs : s.Ok) : Result.Ok (treadleAlu d a b f s) :=
  treadleWord_ok hs (fun _ => trivial)

theorem execTreadleLd_ok {d a : BitVec 4} {i : BitVec 16} (hs : s.Ok) : Result.Ok (execTreadleLd d a i s) := by
  unfold execTreadleLd
  refine treadleWord_ok hs (fun x0 => ?_)
  extract_lets va who
  split
  · exact trivial
  · split
    · split
      · exact trivial
      · exact trivial
      · split
        · exact (creelHalt_ok hs).waits ‹_›
        · exact trivial
    · split
      · exact trivial
      · exact (creelRead_accOk hs).waits ‹_›
      · exact trivial

theorem execTreadleSt_ok {d a : BitVec 4} {i : BitVec 16} (hs : s.Ok) : Result.Ok (execTreadleSt d a i s) := by
  unfold execTreadleSt
  refine treadleWord_ok hs (fun x0 => ?_)
  extract_lets va
  exact ite_ok trivial trivial

theorem treadleBranch_ok {a b : BitVec 4} {i : BitVec 16} {c : W64 → W64 → Bool} (hs : s.Ok) :
    Result.Ok (treadleBranch a b i c s) := treadleWord_ok hs (fun _ => ite_ok trivial trivial)

theorem execTreadleEmit_ok {a : BitVec 4} (hs : s.Ok) : Result.Ok (execTreadleEmit a s) := by
  unfold execTreadleEmit
  refine treadleWord_ok hs (fun x0 => ?_)
  extract_lets va
  split
  · exact trivial
  · split
    · exact trivial
    · exact (creelRead_accOk hs).waits ‹_›
    · exact trivial

theorem checkStores_ok {who : Nat} {ws : List (Nat × W64)} (hs : s.Ok) : (s.checkStores who ws).Ok := by
  induction ws generalizing s with
  | nil => exact hs
  | cons w ws ih =>
    unfold State.checkStores
    split
    · exact ih ((creelCheck_ok hs).ok ‹_›)
    · exact creelCheck_ok hs

theorem execTreadleEnd_ok (hs : s.Ok) : Result.Ok (execTreadleEnd s) := by
  unfold execTreadleEnd
  split
  · exact hs
  · extract_lets who
    split
    · exact hs
    · split
      · exact msiv_ok (endRun_ok (clearDenied_ok hs))
      · exact (checkStores_ok hs).waits ‹_›
      · exact endRun_ok (foldl_ok ((checkStores_ok hs).ok ‹_›) (fun _ _ h => creelWrite_ok h))

theorem execTreadleBudgetExpiry_ok {q : Nat} (hs : s.Ok) : Result.Ok (execTreadleBudgetExpiry q s) := by
  unfold execTreadleBudgetExpiry
  split
  · exact hs
  · exact ite_ok (endRun_ok hs) hs

theorem execTreadlePacket_ok {q : Nat} {p : Packet} (hs : s.Ok) : Result.Ok (execTreadlePacket q p s) := by
  unfold execTreadlePacket
  refine dispatchPacket_ok hs (fun t x1 x2 x3 h => ?_)
  split
  · exact h
  · extract_lets emits run
    exact h

theorem execTload_ok {v : W64} (hs : s.Ok) : Result.Ok (execTload v s) := ite_ok hs (setDevReg_ok hs)

theorem execTloadVerifyComplete_ok (hs : s.Ok) : Result.Ok (execTloadVerifyComplete s) := by
  unfold execTloadVerifyComplete
  split
  · exact hs
  · extract_lets n header ws free r reason h base s1
    have hs1 : s1.Ok := ite_ok ((draw_ok hs).update rfl) hs
    exact setDevReg_ok (s := { s1 with tload := none, stamp := s.stamp + 1 }) (hs1.update rfl)

theorem execTfree_ok {v : W64} (hs : s.Ok) : Result.Ok (execTfree v s) := hs

/-! ## Images: images and handles -/

theorem putComm_ok {c : Comm} (hs : s.Ok) : (s.putComm c).Ok := hs

/-! ## Special: special registers -/

theorem writeDpr_ok {n : ShNo} {i : Fin 4} {v : W64} (hs : s.Ok) : (s.writeDpr n i v).Ok := warnIf_ok (modShuttle_ok hs)

theorem writeSpr_ok {p : Nat} {t : W64} (hs : s.Ok) : (s.writeSpr p t).Ok := by
  unfold State.writeSpr
  extract_lets n w put r
  have hput : ∀ f, (put f).Ok := fun f => modShuttle_ok hs
  split
  case h_21 | h_22 => exact warnIf_ok (hput _)
  case h_23 | h_24 | h_25 | h_26 => exact writeDpr_ok hs
  case h_35 | h_36 | h_37 => exact ite_ok (hput _) (warn_ok hs)
  case h_38 => exact hs
  all_goals exact hput _

theorem sprMove_ok {p : Nat} {rd wr : Option RegNo} (hs : s.Ok) : (sprMove s p rd wr).Ok := by
  unfold sprMove
  split
  · exact trivial
  · extract_lets m t v half i write read
    have hwrite : ∀ s, s.Ok → (write s).Ok := by
      intro s hs
      unfold write
      clear_value t
      split
      · exact hs
      · exact ite_ok (warn_ok hs) (ite_ok (modMe_ok hs) (writeSpr_ok hs))
    have hread : ∀ s, s.Ok → (read s).Ok := by
      intro s hs
      unfold read
      split
      · exact hs
      · exact setSreg_ok hs
    split
    · exact trivial
    · exact ite_ok (unlessDamaged_ok (withTable_ok hs (fun _ h => hread _ (hwrite _ h)))) (hread _ (hwrite _ hs))

/-! ## Checkpoint: saved state -/

theorem putCells_ok {place : Nat} {data fe : List Byte} (hs : s.Ok) : (s.putCells place data fe).Ok :=
  foldl_ok (putBytes_ok hs _ _) (fun _ _ h => ite_ok (setFe_ok h) h)

theorem putGrant_ok {units : List Nat} {place : Nat → Nat → Nat} {base len : Nat} {bs : List Byte} (hs : s.Ok) :
    (s.putGrant units place base len bs).Ok := by
  unfold State.putGrant
  split
  · exact hs
  · refine foldl_ok hs (fun s a h => ?_)
    extract_lets one
    exact putCells_ok h

theorem moveLines_ok {own : Nat → Bool} {f : Nat → Nat} (hs : s.Ok) : (s.moveLines own f).Ok := hs

theorem resumeColl_ok {c : Coll} (hs : s.Ok) : (s.resumeColl c).Ok := ite_ok hs hs

theorem resumeRecord_ok {n : ShNo} {tid rank : Nat} {rec : List Byte} (hs : s.Ok) : (s.resumeRecord n tid rank rec).Ok := by
  unfold State.resumeRecord
  extract_lets j row num s1
  have hs1 : s1.Ok := hs
  split
  · exact hs1
  · exact hs1
  · exact hs1
  · exact resumeColl_ok hs1
  · exact hs

theorem restoreTask_ok {l : Launch} {t : Task} {shuttles : List ShNo} {sbase bbase : Nat} (hs : s.Ok) :
    (s.restoreTask l t shuttles sbase bbase).Ok := by
  unfold State.restoreTask
  extract_lets bs h n su bu off lines ps w panel writes s1 s2 s3
  have hs1 : s1.Ok := putGrant_ok (putGrant_ok hs)
  have hs2 : s2.Ok := by
    unfold s2
    refine foldl_ok hs1 (fun s a h => ?_)
    extract_lets rc late s1'
    have hs1' : s1'.Ok := modShuttle_ok h
    exact putCells_ok hs1'
  have hs3 : s3.Ok := modTask_ok hs2
  clear_value w
  split
  · refine foldl_ok hs3 (fun s a h => ?_)
    extract_lets rc
    exact foldl_ok h (fun _ _ h => resumeRecord_ok h)
  · extract_lets s4 back parked s5 s6 job
    have hs4 : s4.Ok := modTask_ok hs3
    have hs5 : s5.Ok := foldl_ok hs4 (fun _ _ h => setFe_ok (setFe_ok h))
    have hs6 : s6.Ok := moveLines_ok hs5
    exact hs6

/-! ## Cards: the card store -/

theorem putCard_ok {c : Card} (hs : s.Ok) : (s.putCard c).Ok := setCards_ok hs _

theorem modCard_ok {hash : BitVec 128} {f : Card → Card} (hs : s.Ok) : (s.modCard hash f).Ok := setCards_ok hs _

theorem dropFailed_ok (hs : s.Ok) : s.dropFailed.Ok := setCards_ok hs _

theorem failCard_ok {hash : BitVec 128} (hs : s.Ok) : (s.failCard hash).Ok := dropFailed_ok (modCard_ok hs)

theorem receiveCard_ok {c : Card} (hs : s.Ok) : (s.receiveCard c).Ok := by
  unfold State.receiveCard
  split
  · exact ite_ok (putCard_ok hs) (putCard_ok hs)
  · exact putCard_ok hs

theorem allowCard_ok {c : Card} {since : Nat} (hs : s.Ok) : (s.allowCard c since).Ok := modCard_ok hs

/-! ## Records: trap and held records -/

theorem writeRecord_ok {words : List W64} (hs : s.Ok) : (s.writeRecord words).Ok := sendMsi_ok (setDevReg_ok (storeHbm_ok hs _ _))

theorem holdRecord_ok {words : List W64} (hs : s.Ok) : (s.holdRecord words).Ok := hs

/-! ## Tasks: launch, commit and end -/

theorem countReg_ok {off : Nat} (hs : s.Ok) : (s.countReg off).Ok := setDevReg_ok hs

theorem tellGang_ok {m : GangMsg} (hs : s.Ok) : (s.tellGang m).Ok := foldl_ok hs (fun _ _ h => post_ok h)

theorem tryFlush_ok (hs : s.Ok) : s.tryFlush.Ok := ite_ok hs hs

theorem handOver_ok {lid : Nat} (hs : s.Ok) : (s.handOver lid).Ok := hs

theorem guardFail_ok {lid : Nat} {own : Bool} (hs : s.Ok) : (s.guardFail lid own).Ok := by
  unfold State.guardFail
  split
  · exact hs
  · split
    · exact hs
    · extract_lets s1 s2 s3
      have hs1 : s1.Ok := failCard_ok (modLaunch_ok (handOver_ok hs))
      have hs2 : s2.Ok := ite_ok (countReg_ok hs1) hs1
      have hs3 : s3.Ok := by
        unfold s3
        split
        · exact ite_ok (tellGang_ok hs2) hs2
        · exact hs2
      exact tryFlush_ok hs3

theorem shapeGuard_ok {t : Task} {k : CardTask} (hs : s.Ok) : (s.shapeGuard t k).Ok := by
  unfold State.shapeGuard
  extract_lets one
  have hone : ∀ s va v, s.Ok → (one s va v).Ok := by
    intro s va v hs
    unfold one
    split
    · exact hs
    · split
      · exact clearDenied_ok hs
      · exact (creelRead_accOk hs).waits ‹_›
      · exact ite_ok ((creelRead_accOk hs).ok ‹_›) ((creelRead_accOk hs).ok ‹_›)
  split
  · exact hone _ _ _ ((hone _ _ _ hs).pass ‹_›)
  · exact hone _ _ _ hs

theorem testShape_ok {tid : Nat} (hs : s.Ok) : (s.testShape tid).Ok := by
  unfold State.testShape
  split
  · exact hs
  · split
    · exact hs
    · split
      · exact hs
      · split
        · exact modTask_ok ((shapeGuard_ok hs).pass ‹_›)
        · exact guardFail_ok ((shapeGuard_ok hs).fail ‹_›)
        · exact shapeGuard_ok hs

theorem testShapes_ok {lid : Nat} (hs : s.Ok) : (s.testShapes lid).Ok := by
  unfold State.testShapes
  refine foldl_ok hs (fun s a h => ?_)
  split
  · exact (testShape_ok h).pass ‹_›
  · exact (testShape_ok h).fail ‹_›
  · exact (testShape_ok h).waits ‹_›

theorem CreelAcc.andRead_ok {a : CreelAcc} {f : State → List Byte → Begin} (hs : s.Ok) (ha : a.Ok)
    (hf : ∀ t bs, t.Ok → (f t bs).Ok) : (a.andRead s f).Ok := by
  cases a with
  | ok t bs => exact hf t bs ha
  | fault => exact hs
  | waits t => exact ha

theorem readImages_ok {s0 : State} {who : Nat} {vas : List Nat} {ims : List Image} {f : State → List Image → Begin} (hs0 : s0.Ok)
    (hs : s.Ok) (hf : ∀ t l, t.Ok → (f t l).Ok) : (readImages s0 who vas ims s f).Ok := by
  induction vas generalizing s ims with
  | nil => exact hf _ _ hs
  | cons va vas ih =>
    unfold readImages
    split
    · exact hs
    · refine CreelAcc.andRead_ok hs0 (creelRead_accOk hs) fun t bs h => ?_
      extract_lets n
      split
      · exact h
      · exact CreelAcc.andRead_ok hs0 (creelRead_accOk h) fun _ _ h => ih h

theorem readGraph_ok {who graph gtab ngrp tsbase : Nat} {f : State → Graph → List Image → Begin} (hs : s.Ok)
    (hf : ∀ t x1 x2, t.Ok → (f t x1 x2).Ok) : (readGraph s who graph gtab ngrp tsbase f).Ok := by
  unfold readGraph
  refine CreelAcc.andRead_ok hs (creelRead_accOk hs) (fun t bs h => ?_)
  split
  · exact h
  · refine CreelAcc.andRead_ok hs (creelRead_accOk h)
      (fun t bs h => CreelAcc.andRead_ok hs (creelRead_accOk h)
      (fun t bs h => CreelAcc.andRead_ok hs (creelRead_accOk h) (fun t bs h => ?_)))
    extract_lets g gs
    refine readImages_ok hs h (fun t l h => ?_)
    extract_lets all
    exact ite_ok (hf _ _ _ h) h

theorem newLaunch_ok {q pid graph gtab tsbase argp : Nat} {g : Graph} {ims : List Image} (hs : s.Ok) :
    (s.newLaunch q pid graph gtab tsbase argp g ims).Ok := by
  unfold State.newLaunch
  extract_lets lid gang hash gs ordinal held card names stopped records l ts s1 s2 s3
  have hs1 : s1.Ok := hs
  have hs2 : s2.Ok := by
    unfold s2
    clear_value held
    split
    · exact putCard_ok hs1
    · exact hs1
  have hs3 : s3.Ok := ite_ok (failCard_ok hs2) hs2
  exact ite_ok (countReg_ok hs3) hs3

theorem execLaunch_ok {q : Nat} {p : Packet} (hs : s.Ok) : Result.Ok (execLaunch q p s) := by
  unfold execLaunch
  refine dispatchPacket_ok hs (fun t x1 x2 x3 h => ?_)
  extract_lets graph gtab tsbase
  refine readGraph_ok h (fun t x1 x2 h => ?_)
  extract_lets lid s2
  have hs2 : s2.Ok := newLaunch_ok h
  exact ite_ok (testShapes_ok hs2) h

theorem releaseShuttles_ok {tid : Nat} {l : List ShNo} (hs : s.Ok) : (s.releaseShuttles tid l).Ok := by
  unfold State.releaseShuttles
  refine foldl_ok hs (fun s a h => ?_)
  split
  · exact ite_ok (bump_ok (modShuttle_ok h)) h
  · exact h

theorem keepCard_ok {l : Launch} {ts : List CardTask} (hs : s.Ok) : (s.keepCard l ts).Ok := by
  unfold State.keepCard
  extract_lets c s1
  have hs1 : s1.Ok := countReg_ok (putCard_ok hs)
  exact ite_ok (tellGang_ok hs1) (ite_ok (putCard_ok hs) hs)

theorem finishLaunch_ok {lid status : Nat} (hs : s.Ok) : (s.finishLaunch lid status).Ok := by
  unfold State.finishLaunch
  split
  · exact hs
  · extract_lets s1 s2 s3
    have hs1 : s1.Ok := by
      unfold s1
      split
      · exact ite_ok (keepCard_ok hs) hs
      · exact hs
    have hs2 : s2.Ok := ite_ok (modCard_ok hs1) hs1
    have hs3 : s3.Ok := hs2
    exact decidePoint_ok (tryFlush_ok (setStatus_ok hs3))

theorem meetEdges_ok {lid : Nat} {edges : List Edge} {untaken : Edge → Bool} (hs : s.Ok) : (s.meetEdges lid edges untaken).Ok :=
  hs

theorem skipTasks_ok {lid : Nat} (hs : s.Ok) : (s.skipTasks lid).Ok := by
  unfold State.skipTasks
  refine foldl_ok hs (fun s a h => ?_)
  split
  · exact h
  · split
    · extract_lets s1
      have hs1 : s1.Ok := meetEdges_ok (modTask_ok h)
      split <;> exact hs1
    · exact h

theorem tryFinish_ok {lid : Nat} (hs : s.Ok) : (s.tryFinish lid).Ok := ite_ok (finishLaunch_ok hs) hs

theorem killLaunch_ok {lid : Nat} (hs : s.Ok) : (s.killLaunch lid).Ok := by
  unfold State.killLaunch
  split
  · exact hs
  · split
    · exact hs
    · extract_lets s1 s2
      have hs1 : s1.Ok := modLaunch_ok hs
      have hs2 : s2.Ok := foldl_ok hs1 (fun _ _ h => stopTask_ok h)
      exact hs2

theorem clearTags_ok {lo len : Nat} (hs : s.Ok) : (s.clearTags lo len).Ok := hs

theorem clearShuttleTags_ok {n : ShNo} (hs : s.Ok) : (s.clearShuttleTags n).Ok :=
  clearPlaces_ok (foldl_ok hs (fun _ _ h => clearTags_ok h)) _ _

theorem initGrants_ok {t : Task} {shuttles : List ShNo} {sbase bbase : Nat} (hs : s.Ok) :
    (s.initGrants t shuttles sbase bbase).Ok := by
  unfold State.initGrants
  extract_lets one s1 s2
  have hone : ∀ s sleeve unit base len place, s.Ok → (one s sleeve unit base len place).Ok :=
    fun s sleeve unit base len place hs => foldl_ok hs (fun _ _ h => ite_ok (clearTags_ok h) (clearPlaces_ok h _ _))
  have hs1 : s1.Ok := hone _ _ _ _ _ _ hs
  have hs2 : s2.Ok := hone _ _ _ _ _ _ hs1
  exact hs2

theorem takeCarried_ok {l : Launch} {t : Task} {shuttles : List ShNo} {sbase bbase : Nat} (hs : s.Ok) :
    (s.takeCarried l t shuttles sbase bbase).Ok := by
  unfold State.takeCarried
  extract_lets s1
  have hs1 : s1.Ok := by
    unfold s1
    split
    · exact putGrant_ok hs
    · exact hs
  split
  · exact putGrant_ok hs1
  · exact hs1

theorem startTask_ok {l : Launch} {t : Task} {im : Image} {args : Vector W64 4} {pl : List (Nat × ShNo)} {sbase bbase : Nat}
    (hs : s.Ok) : (s.startTask l t im args pl sbase bbase).Ok := by
  unfold State.startTask
  extract_lets carried shuttles oldest base base' s1 s2 s3 s4 s5
  have hbase' : base'.Ok := initGrants_ok (releaseShuttles_ok hs)
  have hs1 : s1.Ok := hbase'
  have hs2 : s2.Ok := by
    unfold s2
    refine foldl_ok hs1 (fun s a h => ?_)
    extract_lets n s' s'2
    have hs' : s'.Ok := clearShuttleTags_ok (clearPlaces_ok h _ _)
    have hs'2 : s'2.Ok := modShuttle_ok hs'
    exact putBytes_ok hs'2 _ _
  have hs3 : s3.Ok := modTask_ok hs2
  have hs4 : s4.Ok := ite_ok hs3 (modLaunch_ok hs3)
  have hs5 : s5.Ok := ite_ok (restoreTask_ok hs4) (takeCarried_ok hs4)
  exact hs5

theorem loadTask_ok {l : Launch} {t : Task} (hs : s.Ok) : (s.loadTask l t).Ok := by
  unfold State.loadTask
  split
  · exact trivial
  · exact (creelRead_accOk hs).waits ‹_›
  · split
    · exact trivial
    · exact (creelRead_accOk ((creelRead_accOk hs).ok ‹_›)).waits ‹_›
    · split
      · exact dropReplies_ok ((creelRead_accOk ((creelRead_accOk hs).ok ‹_›)).ok ‹_›)
      · split
        · exact trivial
        · exact (creelRead_accOk ((creelRead_accOk ((creelRead_accOk hs).ok ‹_›)).ok ‹_›)).waits ‹_›
        · exact dropReplies_ok ((creelRead_accOk ((creelRead_accOk ((creelRead_accOk hs).ok ‹_›)).ok ‹_›)).ok ‹_›)

theorem endUnread_ok {l : Launch} {t : Task} (hs : s.Ok) : (s.endUnread l t).Ok := msiv_ok (killLaunch_ok (clearDenied_ok hs))

theorem recordStart_ok {l : Launch} {t : Task} {im : Image} {args : Vector W64 4} {pl : List (Nat × ShNo)} {sbase bbase : Nat}
    (hs : s.Ok) : (s.recordStart l t im args pl sbase bbase).Ok := by
  unfold State.recordStart
  split
  · exact hs
  · extract_lets word conf order
    exact modLaunch_ok hs

theorem execTaskStart_ok {tid : Nat} {pl : List (Nat × ShNo)} {sbase bbase : Nat} (hs : s.Ok) :
    Result.Ok (execTaskStart tid pl sbase bbase s) := by
  unfold execTaskStart
  split
  · exact hs
  · split
    · exact hs
    · extract_lets shuttles room
      split
      · split
        · exact endUnread_ok hs
        · exact (loadTask_ok hs).waits ‹_›
        · exact startTask_ok (recordStart_ok ((loadTask_ok hs).ok ‹_›))
      · exact hs

theorem tryAgree_ok (hs : s.Ok) : s.tryAgree.Ok := by
  unfold State.tryAgree
  split
  · exact hs
  · extract_lets others least
    exact ite_ok (sendMsi_ok (setDevReg_ok hs)) hs

theorem raiseToken_ok {reason : BitVec 16} {spread : Bool} (hs : s.Ok) : (s.raiseToken reason spread).Ok := by
  unfold State.raiseToken
  extract_lets s1 s2 s3 s4 v s5 s6
  have hs1 : s1.Ok := hs
  have hs2 : s2.Ok := foldl_ok hs1 (fun _ _ h => stopTask_ok h)
  have hs3 : s3.Ok := foldl_ok hs2 (fun _ _ h => haltQueue_ok h)
  have hs4 : s4.Ok := holdRecord_ok hs3
  have hs5 : s5.Ok := hs4
  have hs6 : s6.Ok := ite_ok (tellGang_ok hs5) hs5
  exact tryAgree_ok (tellGang_ok hs6)

theorem fatalFault_ok {cls : BitVec 8} {unit : BitVec 24} {kind : BitVec 8} (hs : s.Ok) : (s.fatalFault cls unit kind).Ok :=
  raiseToken_ok (draw_ok (holdRecord_ok hs))

theorem recordCommit_ok {l : Launch} {t : Task} {cond : Option Bool} (hs : s.Ok) : (s.recordCommit l t cond).Ok := modLaunch_ok hs

theorem passGrants_ok {t : Task} (hs : s.Ok) : (s.passGrants t).Ok := hs

theorem leaveTask_ok {t : Task} (hs : s.Ok) : (s.leaveTask t).Ok := by
  unfold State.leaveTask
  extract_lets s1 lstep s2 s3
  have hs1 : s1.Ok := foldl_ok hs (fun _ _ h => advanceGen_ok h)
  have hs2 : s2.Ok := by
    unfold s2
    split
    · exact ite_ok (setDevReg_ok hs1) hs1
    · exact hs1
  have hs3 : s3.Ok := releaseShuttles_ok (passGrants_ok hs2)
  exact modTask_ok (dropAwayLines_ok hs3)

theorem commitTask_ok {l : Launch} {t : Task} {word : Option W64} (hs : s.Ok) : (s.commitTask l t word).Ok := by
  unfold State.commitTask
  extract_lets cond branch s1 s2
  have hs1 : s1.Ok := leaveTask_ok (recordCommit_ok hs)
  have hs2 : s2.Ok := ite_ok hs1 (guardFail_ok hs1)
  exact tryFinish_ok (testShapes_ok (skipTasks_ok (meetEdges_ok hs2)))

theorem commitAcks_ok {t : State} {tid : Nat} (hs : s.Ok) (h : s.commitAcks tid = .ok t) : t.Ok := by
  unfold State.commitAcks at h
  extract_lets isWrite mine s1 at h
  have hs1 : s1.Ok := hs
  clear_value s1
  repeat' split at h
  all_goals cases h
  exact hs1

theorem commitAcks_errorOk {t : State} {tid : Nat} (hs : s.Ok) (h : s.commitAcks tid = .error t) : t.Ok := by
  unfold State.commitAcks at h
  extract_lets isWrite mine s1 at h
  have hs1 : s1.Ok := hs
  clear_value s1
  repeat' split at h
  all_goals cases h
  · exact hs
  · exact holdCommit_ok hs1

theorem settleCommit_ok {tid : Nat} (hs : s.Ok) : (s.settleCommit tid).Ok := by
  unfold State.settleCommit
  split
  · exact commitAcks_errorOk hs ‹_›
  · split
    · split
      · exact commitTask_ok (commitAcks_ok hs ‹_›)
      · split
        · exact (creelRead_accOk (commitAcks_ok hs ‹_›)).waits ‹_›
        · exact commitTask_ok (dropReplies_ok ((creelRead_accOk (commitAcks_ok hs ‹_›)).ok ‹_›))
        · exact endUnread_ok (leaveTask_ok (recordCommit_ok (commitAcks_ok hs ‹_›)))
    · exact commitAcks_ok hs ‹_›

theorem tryCommit_ok {l : Launch} {t : Task} (hs : s.Ok) : (s.tryCommit l t).Ok := by
  unfold State.tryCommit
  split
  · exact settleCommit_ok hs
  · split
    next g h =>
      split at h
      · cases h
      · exact becomeCommitting_errorOk h hs
    next => exact fatalFault_ok hs
    next s1 h _ =>
      have hs1 : s1.Ok := by
        split at h
        · cases h
          exact hs
        · exact becomeCommitting_ok hs h
      exact settleCommit_ok (modTask_ok (ite_ok hs1 (guardFail_ok hs1)))

theorem execTaskCommit_ok {tid : Nat} (hs : s.Ok) : Result.Ok (execTaskCommit tid s) := by
  unfold execTaskCommit
  split
  · exact hs
  · split
    · exact hs
    · exact ite_ok (tryCommit_ok hs) hs

theorem mismatch_ok {t : Task} (hs : s.Ok) : (s.mismatch t).Ok := by
  unfold State.mismatch
  split
  · extract_lets s1
    have hs1 : s1.Ok := stopTask_ok (healthRecord_ok hs)
    exact modTask_ok hs1
  · extract_lets v base
    exact killLaunch_ok (holdRecord_ok hs)

theorem execDualSignatureCompare_ok {tid : Nat} (hs : s.Ok) : Result.Ok (execDualSignatureCompare tid s) := by
  unfold execDualSignatureCompare
  split
  · exact hs
  · split
    · exact hs
    · exact ite_ok (ite_ok (tryCommit_ok hs) (mismatch_ok hs)) hs

/-! ## Heddle: collectives -/

theorem putColl_ok {c : Coll} (hs : s.Ok) : (s.putColl c).Ok := hs

theorem sendToRank_ok {w : W32} {m : CollMsg} (hs : s.Ok) : (s.sendToRank w m).Ok := ite_ok (post_ok hs) hs

theorem sendColl_ok {c : Coll} {ranks : List Nat} {chunk : Option (Nat × List Byte)} (hs : s.Ok) :
    (s.sendColl c ranks chunk).Ok := by
  unfold State.sendColl
  extract_lets r rel
  refine foldl_ok hs (fun s a h => ?_)
  extract_lets w s1
  have hs1 : s1.Ok := ite_ok (giveTo_ok h) h
  exact sendToRank_ok hs1

theorem sendSwitch_ok {c : Coll} {chunk : Nat × List Byte} (hs : s.Ok) : (s.sendSwitch c chunk).Ok :=
  ite_ok (foldl_ok hs (fun _ _ h => giveTo_ok h)) hs

theorem endColl_ok {c : Coll} {cause : BitVec 8} {eval : W64} (hs : s.Ok) : (s.endColl c cause eval).Ok :=
  bump_ok (putColl_ok (jobFault_ok hs))

theorem blockComm_ok {cm : BitVec 6} (hs : s.Ok) : (s.blockComm cm).Ok := foldl_ok (putComm_ok hs) (fun _ _ h => endColl_ok h)

theorem failColl_ok {c : Coll} {cause : BitVec 8} {eval : W64} (hs : s.Ok) : (s.failColl c cause eval).Ok :=
  blockComm_ok (sendColl_ok (endColl_ok (clearDenied_ok hs)))

theorem mismatchColl_ok {c : Coll} (hs : s.Ok) : (s.mismatchColl c).Ok := blockComm_ok (sendColl_ok (endColl_ok hs))

theorem issueColl_ok {h : Hdr} {fn : Nat} {cm : BitVec 6} {op fx lv rt k : Nat} {send recv : W64} (hs : s.Ok) :
    (issueColl s h fn cm op fx lv rt k send recv).Ok := by
  unfold issueColl
  refine issueJob_ok hs (fun t x1 h => ?_)
  extract_lets t' cfg reason size rank comm ranks own used entry panel body
  have hreason : ∀ n, (reason n).Ok := by
    intro n
    unfold reason
    exact trivial
  have hbody : ∀ s, s.Ok → (body s).Ok := by
    intro s hs
    unfold body
    extract_lets e settled fa fo j src dst reads ops fault new dig
    split
    · exact hreason _
    · clear_value fault
      split
      · exact trivial
      · refine whenOldest_ok hs (fun s h => ?_)
        split
        · exact trivial
        · extract_lets races table grace full switch c base s1 s2 s3
          have hbase : base.Ok := raiseCount_ok h
          have hs1 : s1.Ok := putComm_ok hbase
          have hs2 : s2.Ok := by
            unfold s2
            split
            · exact modTask_ok hs1
            · exact hs1
          have hs3 : s3.Ok := ite_ok (blockComm_ok (endColl_ok hs2)) hs2
          split
          · exact trivial
          · split
            · exact trivial
            · split
              · exact fun _ h => draw_ok h
              · split
                · exact trivial
                · exact trivial
                · exact hs3
  split
  · exact trivial
  · split
    · exact hreason _
    · split
      · exact hreason _
      · split
        · exact trivial
        · split
          · exact hreason _
          · split
            · exact hreason _
            · exact ite_ok (hreason _) (ite_ok (hreason _) (ite_ok (withTable_ok h hbody) (hbody _ h)))

theorem drain_ok {c : Coll} (hs : s.Ok) : (s.drain c).1.Ok := hs

theorem startColl_ok {c : Coll} (hs : s.Ok) : (s.startColl c).1.Ok := by
  unfold State.startColl
  extract_lets r c1 s1 loc a s2 e d base c2 t
  have hr : r.1.Ok := startJob_ok hs
  have hs1 : s1.Ok := putColl_ok hr
  have hs2 : s2.Ok := ite_ok (note_ok hs1) hs1
  have ht : t.1.Ok := drain_ok hs2
  split
  · exact failColl_ok hs1
  · split
    · exact failColl_ok hs1
    · split
      · exact mismatchColl_ok ht
      · exact putColl_ok ht

theorem sendChunk_ok {c : Coll} {p : Piece} (hs : s.Ok) : (s.sendChunk c p).Ok := by
  unfold State.sendChunk
  extract_lets m lv o go span halt
  have hgo : ∀ s bs, s.Ok → (go s bs).Ok := by
    intro s bs hs
    unfold go
    extract_lets s1 s2
    have hs2 : s2.Ok := hs
    exact ite_ok (sendSwitch_ok hs2) (sendColl_ok hs2)
  have hhalt : ∀ h, h.Ok → (halt h).Ok := by
    intro h hh
    unfold halt
    split
    · exact failColl_ok hs
    · exact hh
  split
  · exact failColl_ok hs
  · split
    · exact hgo _ _ hs
    · split
      · exact hhalt _ (Move.waitChunks_ok hs ‹_›)
      · split
        · exact failColl_ok hs
        · split
          · exact hhalt _ (Job.calls_ok hs ‹_›)
          · split
            next h e => exact hhalt h ((Move.readSpan_ok hs).error e)
            next bs s1 e => exact hgo _ bs (endRow_ok (Move.noteReads_ok ((Move.readSpan_ok hs).ok e)))

theorem execHeddleChunkBegin_ok {turn : HeddleTurn} (hs : s.Ok) : Result.Ok (execHeddleChunkBegin turn s) := by
  unfold execHeddleChunkBegin
  split
  · exact hs
  · extract_lets fresh
    split
    · refine fst_ok ?_ ‹_›
      split
      · exact startColl_ok hs
      · exact hs
    · split
      · refine failColl_ok (fst_ok ?_ ‹_›)
        split
        · exact startColl_ok hs
        · exact hs
      · refine sendChunk_ok (fst_ok ?_ ‹_›)
        split
        · exact startColl_ok hs
        · exact hs
      · refine fst_ok ?_ ‹_›
        split
        · exact startColl_ok hs
        · exact hs

theorem landChunk_ok {c : Chunk} (hs : s.Ok) : (s.landChunk c).Ok := by
  unfold State.landChunk
  extract_lets comm w edge s1 base
  have hs1 : s1.Ok := putComm_ok hs
  split
  · extract_lets o1
    exact ite_ok (mismatchColl_ok hs1) (putColl_ok hs1)
  · exact putBytes_ok (putComm_ok hs1) _ _
  · exact hs1

theorem execChunkArrival_ok {c : Chunk} (hs : s.Ok) : Result.Ok (execChunkArrival c s) := by
  unfold execChunkArrival
  extract_lets comm live old act
  have hact : ∀ s, s.Ok → (act s).Ok := fun s hs => ite_ok (sendToRank_ok hs) (ite_ok hs (landChunk_ok hs))
  split
  · exact hs
  · split
    · exact hs
    · split
      · exact takeMail_ok hs hact
      · exact hact _ hs

theorem execFaultNoticeArrival_ok {tag : Option Tag} {cm : BitVec 6} {j : Nat} (hs : s.Ok) :
    Result.Ok (execFaultNoticeArrival tag cm j s) := by
  unfold execFaultNoticeArrival
  extract_lets act
  have hact : ∀ s, s.Ok → (act s).Ok := by
    intro s hs
    unfold act
    extract_lets comm
    split
    · exact blockComm_ok (endColl_ok hs)
    · exact ite_ok (putComm_ok hs) hs
  split
  · exact hs
  · split
    · exact takeMail_ok hs hact
    · exact hact _ hs

theorem writeResult_ok {fuel : Nat} {c : Coll} {bs : List Byte} (hs : s.Ok) : (State.writeResult fuel s c bs).Ok := by
  induction fuel generalizing s c with
  | zero => exact putColl_ok hs
  | succ fuel ih =>
    unfold State.writeResult
    extract_lets m lv piece o base span halt
    have hhalt : ∀ h, h.Ok → (halt h).Ok := by
      intro h hh
      unfold halt
      split
      · exact failColl_ok hs
      · exact putColl_ok hh
    split
    · exact putColl_ok hs
    · split
      · exact hhalt _ (Move.waitChunks_ok hs ‹_›)
      · split
        · exact failColl_ok hs
        · split
          · exact hhalt _ (Job.calls_ok hs ‹_›)
          · exact ih (endRow_ok (Move.writeSpan_ok hs))

theorem leaveColl_ok {c : Coll} (hs : s.Ok) : (s.leaveColl c).Ok := completeJob_ok (setDevReg_ok (putComm_ok hs))

theorem execCollectiveComplete_ok {sh : ShNo} {id : Nat} (hs : s.Ok) : Result.Ok (execCollectiveComplete sh id s) := by
  unfold execCollectiveComplete
  split
  · exact hs
  · split
    · exact hs
    · split
      · exact ite_ok (leaveColl_ok hs) hs
      · split
        · exact hs
        · split
          · exact writeResult_ok hs
          · split
            · exact hs
            · extract_lets r base c1
              exact writeResult_ok hs

theorem execSwitchLimitExpiry_ok {sh : ShNo} {id : Nat} (hs : s.Ok) : Result.Ok (execSwitchLimitExpiry sh id s) := by
  unfold execSwitchLimitExpiry
  split
  · exact hs
  · split
    · extract_lets s1
      have hs1 : s1.Ok := putColl_ok hs
      exact healthRecord_ok hs1
    · exact hs

theorem execCmcfgWrite_ok {cm : BitVec 6} {v : W64} (hs : s.Ok) : Result.Ok (execCmcfgWrite cm v s) :=
  ite_ok hs (putComm_ok (setDevReg_ok hs))

/-! ## Replay: replay and dual runs -/

theorem rollBack_ok {k : CardTask} (hs : s.Ok) : (s.rollBack k).Ok := by
  unfold State.rollBack
  refine foldl_ok hs (fun s a h => ?_)
  extract_lets x good
  exact ite_ok h (healthRecord_ok (countReg_ok (modShuttle_ok h)))

theorem execDobbyStep_ok {lid tid : Nat} (hs : s.Ok) : Result.Ok (execDobbyStep lid tid s) := by
  unfold execDobbyStep
  split
  · split
    · exact hs
    · split
      · exact hs
      · split
        · exact tryFlush_ok (handOver_ok hs)
        · split
          · exact tryFlush_ok (handOver_ok hs)
          · split
            · exact ite_ok (tryFlush_ok (handOver_ok hs)) hs
            · split
              · exact guardFail_ok hs
              · split
                · exact (testShape_ok hs).waits ‹_›
                · exact (testShape_ok hs).fail ‹_›
                · split
                  · split
                    · exact endUnread_ok ((testShape_ok hs).pass ‹_›)
                    · exact (loadTask_ok ((testShape_ok hs).pass ‹_›)).waits ‹_›
                    · exact startTask_ok (rollBack_ok ((loadTask_ok ((testShape_ok hs).pass ‹_›)).ok ‹_›))
                  · split
                    · exact tryFlush_ok (handOver_ok ((testShape_ok hs).pass ‹_›))
                    · exact (testShape_ok hs).pass ‹_›
  · exact hs

theorem execPunchRefine_ok {c : Card} (hs : s.Ok) : Result.Ok (execPunchRefine c s) := by
  unfold execPunchRefine
  split
  · exact hs
  · extract_lets kept orders n s1
    have hs1 : s1.Ok := modCard_ok hs
    exact ite_ok (ite_ok hs1 (tellGang_ok hs1)) hs

theorem execCardCopy_ok {tag : Tag} {c : Card} (hs : s.Ok) : Result.Ok (execCardCopy tag c s) := by
  unfold execCardCopy
  split
  · split
    · exact hs
    · extract_lets since
      exact ite_ok (ite_ok hs (countReg_ok (allowCard_ok hs))) (ite_ok (tellGang_ok (allowCard_ok hs)) hs)
  · refine takeMail_ok hs (fun t h => ?_)
    split
    · split
      · exact allowCard_ok h
      · exact (receiveCard_ok h).update rfl
    · exact h

theorem execStopMessage_ok {tag : Tag} {hash : BitVec 128} {ordinal : Nat} (hs : s.Ok) :
    Result.Ok (execStopMessage tag hash ordinal s) := by
  unfold execStopMessage
  refine takeMail_ok hs (fun t h => ?_)
  split
  · exact h
  · split
    · exact guardFail_ok h
    · exact ite_ok (dropFailed_ok (modCard_ok h)) (ite_ok h h)

theorem execCflush_ok (hs : s.Ok) : Result.Ok (execCflush s) := tryFlush_ok hs

/-! ## System: controls and events -/

theorem execTret_ok (hs : s.Ok) : Result.Ok (execTret s) := by
  unfold execTret
  refine runC_ok hs ?_
  split
  · exact trivial
  · extract_lets x ended s1 pc
    have hs1 : s1.Ok := modMySeq_ok hs
    exact modMe_ok (warnIf_ok hs1)

theorem execCkmark_ok {a : RegNo} (hs : s.Ok) : Result.Ok (execCkmark a s) := by
  unfold execCkmark
  extract_lets v
  refine runC_ok hs ?_
  split
  · exact modTask_ok hs
  · exact hs

theorem switchMode_ok {b : Bool} {k : BitVec 4} (hs : s.Ok) : Result.Ok (switchMode b k s) := by
  unfold switchMode
  refine runT_ok hs (fun t h => ?_)
  extract_lets same
  exact warnIf_ok (modMySeq_ok h)

theorem execAbtok_ok {a : RegNo} (hs : s.Ok) : Result.Ok (execAbtok a s) :=
  runC_ok hs (whenOldest_ok hs (fun _ h => raiseToken_ok h))

theorem execAbtokRegister_ok {v : W64} (hs : s.Ok) : Result.Ok (execAbtokRegister v s) := raiseToken_ok hs

theorem dropColls_ok {lid : Nat} (hs : s.Ok) : (s.dropColls lid).Ok := hs

theorem discardLaunch_ok {lid status : Nat} (hs : s.Ok) : (s.discardLaunch lid status).Ok := by
  unfold State.discardLaunch
  refine finishLaunch_ok (foldl_ok hs (fun s a h => modTask_ok ?_))
  exact (releaseShuttles_ok h).update rfl

theorem execAbortTokenComplete_ok (hs : s.Ok) : Result.Ok (execAbortTokenComplete s) := by
  unfold execAbortTokenComplete
  split
  · extract_lets s1 s2
    have hs1 : s1.Ok := foldl_ok hs (fun _ _ h => discardLaunch_ok (dropColls_ok h))
    have hs2 : s2.Ok := hs1
    exact decidePoint_ok hs2
  · exact hs

theorem routeShuttle_ok {n : ShNo} (hs : s.Ok) : (s.routeShuttle n).Ok := by
  unfold State.routeShuttle
  split
  · exact hs
  · split
    · exact hs
    · extract_lets write
      have hwrite : ∀ s, s.Ok → (write s).Ok := by
        intro s hs
        unfold write
        split
        · exact hs
        · extract_lets num s1 base
          have hs1 : s1.Ok := modShuttle_ok (bind_ok hs)
          have hbase : base.Ok := writeRecord_ok hs1
          exact hbase
      split
      · exact hwrite _ hs
      · split
        · exact hs
        · split
          · split
            · exact hwrite _ hs
            · exact hs
            · exact mismatch_ok hs
          · exact hwrite _ hs

theorem routeCommit_ok {tid : Nat} (hs : s.Ok) : (s.routeCommit tid).Ok := by
  unfold State.routeCommit
  split
  · exact hs
  · split
    · split
      · extract_lets num s1 base base'
        have hs1 : s1.Ok := modTask_ok hs
        have hbase' : base'.Ok := writeRecord_ok hs1
        exact hbase'
      · exact hs
    · exact hs

theorem execTrapRoute_ok {sh : Option ShNo} {tid : Nat} (hs : s.Ok) : Result.Ok (execTrapRoute sh tid s) := by
  unfold execTrapRoute
  split
  · exact routeShuttle_ok hs
  · split
    · exact routeCommit_ok hs
    · split
      · exact hs
      · exact ite_ok (writeRecord_ok hs) hs

theorem actOn_ok {num : Nat} (hs : s.Ok) : (s.actOn num).Ok := hs

theorem killTarget_ok {k : TrapTarget} (hs : s.Ok) : (s.killTarget k).Ok := by
  unfold State.killTarget
  split
  · exact killLaunch_ok hs
  · split
    · exact killLaunch_ok hs
    · exact modShuttle_ok hs

theorem execTrcmdDeliver_ok {n : Nat} (hs : s.Ok) : Result.Ok (execTrcmdDeliver n s) := by
  unfold execTrcmdDeliver
  split
  · exact hs
  · exact killTarget_ok (actOn_ok hs)
  · exact ite_ok (killTarget_ok (actOn_ok hs)) (modShuttle_ok (actOn_ok hs))

theorem execTrcmdRetry_ok {n : Nat} (hs : s.Ok) : Result.Ok (execTrcmdRetry n s) := by
  unfold execTrcmdRetry
  split
  · exact hs
  · exact modTask_ok (actOn_ok hs)
  · exact modShuttle_ok (actOn_ok hs)

theorem execTrcmdKill_ok {n : Nat} (hs : s.Ok) : Result.Ok (execTrcmdKill n s) := by
  unfold execTrcmdKill
  split
  · exact hs
  · exact killTarget_ok (actOn_ok hs)

theorem execKillComplete_ok {q : Nat} (hs : s.Ok) : Result.Ok (execKillComplete q s) := by
  unfold execKillComplete
  split
  · exact hs
  · extract_lets s1
    have hs1 : s1.Ok := hs
    split
    · exact discardLaunch_ok hs1
    · exact hs1

theorem execAsyncFaultTake_ok {sh : ShNo} (hs : s.Ok) : Result.Ok (execAsyncFaultTake sh s) := by
  unfold execAsyncFaultTake
  extract_lets x
  split
  · exact hs
  · split
    · exact hs
    · exact deliverTrap_ok (modShuttle_ok hs)

theorem execStreamDeadlock_ok {sh : ShNo} (hs : s.Ok) : Result.Ok (execStreamDeadlock sh s) := ite_ok (takeTrap_ok hs) hs

theorem execWaitLimitExpiry_ok {sh : ShNo} {st : Stream} (hs : s.Ok) : Result.Ok (execWaitLimitExpiry sh st s) := by
  unfold execWaitLimitExpiry
  extract_lets x
  split
  · exact hs
  · exact ite_ok (takeTrap_ok hs) hs

theorem raiseHepoch_ok (hs : s.Ok) : s.raiseHepoch.Ok := countReg_ok hs

theorem refreshPcfg_ok (hs : s.Ok) : s.refreshPcfg.Ok := hs

theorem loseShuttle_ok {n : ShNo} {unit : BitVec 24} (hs : s.Ok) : (s.loseShuttle n unit).Ok := by
  unfold State.loseShuttle
  extract_lets s1
  have hs1 : s1.Ok := ite_ok hs (refreshPcfg_ok (raiseHepoch_ok hs))
  split
  · exact hs1
  · exact ite_ok (fatalFault_ok hs1) (abortTask_ok hs1)

theorem setLink_ok {l : Nat} {up : Bool} (hs : s.Ok) : (s.setLink l up).Ok := hs

theorem loseMail_ok {m : Posted} (hs : s.Ok) : (s.loseMail m).Ok := by
  unfold State.loseMail
  split
  · exact hs
  · split
    · exact ite_ok (failColl_ok hs) hs
    · exact hs

theorem resend_ok {l : Nat} (hs : s.Ok) : (s.resend l).Ok := foldl_ok (endFills_ok hs) (fun _ _ h => loseMail_ok h)

theorem loseLink_ok {link : Nat} (hs : s.Ok) : (s.loseLink link).Ok := by
  unfold State.loseLink
  split
  · exact hs
  · extract_lets s1
    have hs1 : s1.Ok := hs
    exact resend_ok (raiseHepoch_ok (setLink_ok hs1))

theorem loseUnit_ok {cls : BitVec 8} {unit : BitVec 24} (hs : s.Ok) : (s.loseUnit cls unit).Ok := by
  unfold State.loseUnit
  split
  · exact loseShuttle_ok hs
  · split
    · exact loseLink_ok hs
    · split
      · exact hs
      · extract_lets s1
        have hs1 : s1.Ok := raiseHepoch_ok hs
        exact ite_ok (setDevReg_ok hs1) hs1

theorem markSite_ok {c : CheckSite} (hs : s.Ok) : (s.markSite c).Ok := by
  unfold State.markSite
  split
  · exact hs
  · exact modShuttle_ok hs
  · exact modShuttle_ok hs
  · exact modShuttle_ok hs
  · exact setCards_ok hs _
  · exact hs
  · exact hs

theorem execCheckFailure_ok {f : CheckFail} (hs : s.Ok) : Result.Ok (execCheckFailure f s) := by
  unfold execCheckFailure
  extract_lets detail record l s1 s1' s2
  have hrecord : ∀ kind, (record kind).Ok := fun kind => healthRecord_ok hs
  have hs1 : s1.Ok := hrecord _
  have hs1' : s1'.Ok := markSite_ok (hrecord _)
  have hs2 : s2.Ok := ite_ok hs1' (loseUnit_ok hs1')
  split
  · exact hrecord _
  · exact ite_ok (setDevReg_ok hs1) hs1
  · exact markSite_ok hs
  · exact ite_ok (fatalFault_ok hs2) hs2

/-! ## Preempt: preemption and kills -/

theorem requestPreempt_ok {q lid : Nat} (hs : s.Ok) : (s.requestPreempt q lid).Ok :=
  setCb_ok
    (setDevReg_ok
    (foldl_ok (modLaunch_ok hs) (fun _ _ h => ite_ok (foldl_ok h (fun _ _ h => bump_ok (modShuttle_ok h))) (stopTask_ok h))))

theorem execPreq_ok {v : W64} (hs : s.Ok) : Result.Ok (execPreq v s) := by
  unfold execPreq
  extract_lets q busy no
  have hno : no.Ok := setDevReg_ok hs
  split
  · exact hno
  · split
    · exact hno
    · split
      · exact hno
      · split
        · exact requestPreempt_ok hs
        · exact hno

theorem execPrel_ok {v : W64} (hs : s.Ok) : Result.Ok (execPrel v s) := decidePoint_ok (setCb_ok hs)

theorem saveBound_ok {t : Task} (hs : s.Ok) : (s.saveBound t).Ok :=
  releaseShuttles_ok (modTask_ok (moveLines_ok (foldl_ok hs (fun _ _ h => ite_ok (setFe_ok h) h))))

theorem endPreempt_ok {r : Request} {reason len : Nat} (hs : s.Ok) : (s.endPreempt r reason len).Ok :=
  sendMsi_ok (setDevReg_ok hs)

theorem refusePreempt_ok {r : Request} {l : Launch} {len : Nat} (hs : s.Ok) : (s.refusePreempt r l len).Ok :=
  decidePoint_ok (endPreempt_ok (setCb_ok (foldl_ok (modLaunch_ok hs) (fun _ _ h => bump_ok (modShuttle_ok h)))))

theorem writeImage_ok {r : Request} {l : Launch} {bound : Option Task} {bs : List Byte} (hs : s.Ok) :
    (s.writeImage r l bound bs).Ok := by
  unfold State.writeImage
  extract_lets base s1 s2 s3
  have hs1 : s1.Ok := ite_ok (putBytes_ok hs _ _) hs
  have hs2 : s2.Ok := by
    unfold s2
    split
    · exact saveBound_ok hs1
    · exact hs1
  have hs3 : s3.Ok := foldl_ok hs2 (fun _ _ h => releaseShuttles_ok h)
  exact endPreempt_ok (finishLaunch_ok hs3)

theorem execPreemptComplete_ok {q : Nat} (hs : s.Ok) : Result.Ok (execPreemptComplete q s) := by
  unfold execPreemptComplete
  split
  · exact hs
  · split
    · exact endPreempt_ok hs
    · extract_lets bound frozen ready kept bs
      have hready : ready.Ok := by
        unfold ready
        clear_value bound
        split
        · exact foldl_ok hs (fun _ _ h => modShuttle_ok h)
        · exact hs
      split
      · exact hs
      · split
        · exact refusePreempt_ok hs
        · clear_value kept
          split
          · exact writeImage_ok (modTask_ok hs)
          · exact writeImage_ok hready

theorem newResumed_ok {q pid : Nat} {h : ImageHead} {g : Graph} {ims : List Image} (hs : s.Ok) :
    (s.newResumed q pid h g ims).Ok := hs

theorem execResume_ok {q : Nat} {p : Packet} (hs : s.Ok) : Result.Ok (execResume q p s) := by
  unfold execResume
  refine dispatchPacket_ok hs (fun t x1 x2 x3 h => CreelAcc.andRead_ok h (creelRead_accOk h) (fun t bs h => ?_))
  split
  · exact h
  · extract_lets h'
    refine readGraph_ok h (fun t x1 x2 h => ?_)
    extract_lets lid s3 ended
    have hs3 : s3.Ok := newResumed_ok h
    exact ite_ok h (ite_ok h (ite_ok h (tryFinish_ok hs3)))

theorem execDestroy_ok {q : Nat} (hs : s.Ok) : Result.Ok (execDestroy q s) := by
  unfold execDestroy
  extract_lets q' s1 s2 mine s3 s4 s5
  have hs1 : s1.Ok := setCb_ok (setDevReg_ok hs)
  have hs2 : s2.Ok := by
    unfold s2
    split
    · exact ite_ok (unmapQueue_ok hs1) hs1
    · exact hs1
  have hs3 : s3.Ok := hs2
  have hs4 : s4.Ok := foldl_ok hs3 (fun _ _ h => endRun_ok h)
  have hs5 : s5.Ok := modQueue_ok hs4
  exact ite_ok hs (decidePoint_ok hs5)

theorem execDestroyComplete_ok {q : Nat} (hs : s.Ok) : Result.Ok (execDestroyComplete q s) := by
  unfold execDestroyComplete
  split
  · exact hs
  · extract_lets mine s2 left
    have hs2 : s2.Ok := foldl_ok hs (fun _ _ h => ite_ok (discardLaunch_ok h) h)
    exact ite_ok hs2 (decidePoint_ok (msiv_ok (setDevReg_ok hs2)))

/-! ## Warp: remote messages and links -/

theorem performedMsg_ok {m : RemoteMsg} (hs : s.Ok) : (s.performedMsg m).Ok := hs

theorem enterRemote_ok {a : Access} {pa n : Nat} (hs : s.Ok) : (s.enterRemote a pa n).Ok := hs

theorem fillAway_ok {m : RemoteMsg} {v : W64} (hs : s.Ok) : (s.fillAway m v).Ok := fillFlag_ok hs

theorem remoteOrdered_ok {m : RemoteMsg} {op : Nat} {v : W64} {key : W32} {b : Actor} {l : CLine} (hs : s.Ok) :
    (s.remoteOrdered m op v key b l).Ok := ite_ok (applyOrdered_ok (modLine_ok hs)) (modLine_ok hs)

theorem actRemote_ok {m : RemoteMsg} {b : Actor} (hs : s.Ok) : (s.actRemote m b).Ok := by
  unfold State.actRemote
  split
  · exact acknowledge_ok hs
  · exact acknowledge_ok (putBytes_ok hs _ _)
  · exact ite_ok (acknowledge_ok hs) (acknowledge_ok (putDword_ok hs _ _))
  · extract_lets r
    exact acknowledge_ok (putBytes_ok hs _ _)
  · exact ite_ok (acknowledge_ok hs) (acknowledge_ok (declareLine_ok hs))
  · exact acknowledge_ok hs
  · split
    · exact acknowledge_ok hs
    · exact acknowledge_ok hs
    · exact acknowledge_ok (addRels_ok (modLine_ok (putDword_ok hs _ _)))
  · split
    · exact acknowledge_ok hs
    · exact ite_ok (acknowledge_ok hs) (ite_ok (acknowledge_ok hs) (remoteOrdered_ok hs))
  · extract_lets t
    have ht : t.Ok := fillAway_ok hs
    exact acknowledge_ok ht

theorem performRemote_ok {t : State} {m : RemoteMsg} (hs : s.Ok) (h : s.performRemote m = some t) : t.Ok := by
  unfold State.performRemote at h
  extract_lets s1 store at h
  have hs1 : s1.Ok := performedMsg_ok hs
  split at h
  · split at h
    · cases h
    · cases h
      exact actRemote_ok hs1
  · split at h
    · cases h
      exact acknowledge_ok hs1
    · split at h
      · cases h
        exact actRemote_ok hs1
      · extract_lets a b lost at h
        repeat' split at h
        all_goals cases h
        · exact acknowledge_ok hs1
        · exact acknowledge_ok hs1
        · exact actRemote_ok (enterRemote_ok hs1)

theorem execRemoteAccessMessage_ok {m : RemoteMsg} (hs : s.Ok) : Result.Ok (execRemoteAccessMessage m s) := by
  unfold execRemoteAccessMessage
  split
  · exact hs
  · split
    · split
      · exact acknowledge_ok hs
      · exact hs
    · cases h : s.performRemote m with
      | none => exact hs
      | some t => exact performRemote_ok hs h

theorem execRemoteAckMessage_ok {peer : BitVec 8} {number : BitVec 2 × BitVec 48} {reply : Reply} (hs : s.Ok) :
    Result.Ok (execRemoteAckMessage peer number reply s) := endFills_ok hs

theorem execWarpLinkEntersService_ok {l : LinkEnd} (hs : s.Ok) : Result.Ok (execWarpLinkEntersService l s) := by
  unfold execWarpLinkEntersService
  split
  · exact hs
  · extract_lets s1 ends
    have hs1 : s1.Ok := hs
    exact raiseHepoch_ok (setLink_ok (setDevReg_ok hs1))

/-! ## Registers: registers from outside -/

theorem execRegisterWrite_ok {off : Nat} {v : W64} (hs : s.Ok) : Result.Ok (execRegisterWrite off v s) := by
  unfold execRegisterWrite
  split
  · exact hs
  · exact setDevReg_ok hs

theorem execReset_ok : Result.Ok (execReset s) := reset_ok

theorem execMbcmdReport_ok {v : W64} (hs : s.Ok) : Result.Ok (execMbcmdReport v s) := by
  unfold execMbcmdReport
  extract_lets stat buf base
  have hbase : base.Ok := setDevReg_ok hs
  generalize Config.hbmBytes = n
  split
  · exact hs
  · split
    · exact setDevReg_ok hs
    · split
      · exact setDevReg_ok hs
      · exact hbase

theorem execMbReportComplete_ok (hs : s.Ok) : Result.Ok (execMbReportComplete s) := by
  unfold execMbReportComplete
  split
  · exact hs
  · extract_lets body bs s1 base
    have hs1 : s1.Ok := storeHbm_ok hs _ _
    have hbase : base.Ok := setDevReg_ok hs1
    exact hbase

theorem execWpidxWrite_ok {port : BitVec 4} {v : W64} (hs : s.Ok) : Result.Ok (execWpidxWrite port v s) := hs

theorem execWeftTransmitDone_ok {port : BitVec 4} (hs : s.Ok) : Result.Ok (execWeftTransmitDone port s) :=
  ite_ok hs (sendMsi_ok (setDevReg_ok hs))

theorem execWeftFrameReceive_ok {port : BitVec 4} {data : List Byte} (hs : s.Ok) : Result.Ok (execWeftFrameReceive port data s) :=
  ite_ok hs (ite_ok hs (ite_ok hs (sendMsi_ok (setDevReg_ok (storeHbm_ok (storeHbm_ok hs _ _) _ _)))))

/-! ## Cores: stores of cores and of PCIe -/

theorem modHart_ok {h : BitVec 5} {f : Hart → Hart} (hs : s.Ok) : (s.modHart h f).Ok := hs

theorem coreFault_ok {h : BitVec 5} {cause va : Nat} (hs : s.Ok) : (s.coreFault h cause va).Ok := modHart_ok hs

theorem execRegisterStore_ok {off : Nat} {v : W64} (hs : s.Ok) : Result.Ok (execRegisterStore off v s) := by
  unfold execRegisterStore
  refine ite_ok (ite_ok (execRivctlGo_ok hs) hs) <| ite_ok (execRresume_ok hs) <| ite_ok (execRgenreq_ok hs) <|
    ite_ok (execSlotsWrite_ok hs) <| ite_ok (execKick_ok hs) <| ite_ok (execDestroy_ok hs) <| ite_ok (execTload_ok hs) <|
    ite_ok (execTfree_ok hs) <| ite_ok (execPreq_ok hs) <| ite_ok (execPrel_ok hs) <| ite_ok ?_ <|
    ite_ok (execAbtokRegister_ok hs) <| ite_ok (ite_ok (execCflush_ok hs) hs) <| ite_ok (execMbcmdReport_ok hs) <|
    ite_ok (execCmcfgWrite_ok hs) <| ite_ok (execWpidxWrite_ok hs) (execRegisterWrite_ok hs)
  split
  · exact execTrcmdDeliver_ok hs
  · exact execTrcmdRetry_ok hs
  · exact execTrcmdKill_ok hs
  · exact hs

theorem outsideStore_ok {pa : Nat} {data : List Byte} (hs : s.Ok) : (s.outsideStore pa data).Ok := storeHbm_ok hs _ _

theorem fileStore_ok {machine : Bool} {h off : Nat} {data : List Byte} (hs : s.Ok) : (s.fileStore machine h off data).Ok :=
  ite_ok hs (modHart_ok hs)

theorem execCoreStore_ok {h : BitVec 5} {va : Nat} {data : List Byte} (hs : s.Ok) : Result.Ok (execCoreStore h va data s) := by
  unfold execCoreStore
  extract_lets x hbm
  have hhbm : ∀ q, (hbm q).Ok := by
    intro q
    unfold hbm
    extract_lets s1
    have hs1 : s1.Ok := modHart_ok (outsideStore_ok hs)
    exact ite_ok (foldl_ok hs1 (fun _ _ h => addRels_ok h)) hs1
  split
  · exact hs
  · split
    · exact coreFault_ok hs
    · split
      · exact ite_ok (coreFault_ok hs) (hhbm _)
      · exact ite_ok (execRegisterStore_ok hs) (coreFault_ok hs)
      · exact execDoorbellWrite_ok hs
      · exact fileStore_ok hs
      · exact coreFault_ok hs
      · exact hs
      · split
        · exact hhbm _
        · exact sendRemote_ok hs
        · exact coreFault_ok hs
      · exact coreFault_ok hs

theorem execCoreLoad_ok {h : BitVec 5} {va n : Nat} (hs : s.Ok) : Result.Ok (execCoreLoad h va n s) := by
  unfold execCoreLoad
  split
  · exact hs
  · split
    · exact coreFault_ok hs
    · extract_lets hbm
      have hhbm : ∀ q, (hbm q).Ok := fun q => modHart_ok hs
      split
      · exact ite_ok (coreFault_ok hs) (hhbm _)
      · exact ite_ok (coreFault_ok hs) (ite_ok (execWakeRead_ok hs) (ite_ok (execRreqRead_ok hs) hs))
      · split
        · exact hhbm _
        · exact sendRemote_ok hs
        · exact coreFault_ok hs
      · exact coreFault_ok hs
      · exact hs

theorem checkImage_ok {step : Nat} {image : List Byte} {run : State → State} (hs : s.Ok) (hrun : ∀ t, t.Ok → (run t).Ok) :
    (s.checkImage step image run).Ok := by
  unfold State.checkImage
  extract_lets s1
  have hs1 : s1.Ok := setDevReg_ok hs
  exact ite_ok (hrun _ hs1) hs1

theorem bringUp_ok {image : List Byte} (hs : s.Ok) : (s.bringUp image).Ok := by
  unfold State.bringUp
  extract_lets stat reach
  have hreach : ∀ step s, s.Ok → (reach step s).Ok := fun step s hs => setDevReg_ok hs
  split
  · exact hs
  · split
    · exact hreach _ _ hs
    · exact checkImage_ok hs (fun _ h => h)
    · exact hreach _ _ (filter_wf hs _)
    · exact checkImage_ok hs (fun _ h => modHart_ok h)
    · exact hreach _ _ hs
    · exact hs

theorem execCoreOrPcieStore_ok {act : CoreAct} {data : List Byte} (hs : s.Ok) : Result.Ok (execCoreOrPcieStore act data s) := by
  unfold execCoreOrPcieStore
  split
  · exact execCoreStore_ok hs
  · exact execCoreLoad_ok hs
  · exact ite_ok (modHart_ok hs) hs
  · exact ite_ok (modHart_ok hs) hs
  · exact ite_ok (modHart_ok hs) hs
  · exact modHart_ok hs
  · split
    · exact hs
    · split
      · exact ite_ok hs (outsideStore_ok hs)
      · exact execDoorbellWrite_ok hs
      · exact fileStore_ok hs
      · exact hs
      · exact hs
  · exact sendMsi_ok hs
  · exact (bringUp_ok hs).update rfl

/-! ## Scalar: scalar instructions -/

theorem scalarResult_ok {d : RegNo} {v : W64} (hs : s.Ok) : Result.Ok (scalarResult s d v) := runC_ok hs (setSreg_ok hs)

theorem divideResult_ok {d : RegNo} {b v zero : W64} (hs : s.Ok) : Result.Ok (divideResult s d b v zero) :=
  ite_ok (runC_ok hs (orStatus_ok (setSreg_ok hs))) (scalarResult_ok hs)

theorem execIns_ok {d a : RegNo} {p w : BitVec 6} (hs : s.Ok) : Result.Ok (execIns d a p w s) := scalarResult_ok hs

theorem execAdda_ok {d a : RegNo} {i : BitVec 16} (hs : s.Ok) : Result.Ok (execAdda d a i s) :=
  ite_ok (trap_ok hs) (scalarResult_ok hs)

/-! ## VecMem: vector loads and stores -/

theorem VecForm.advance_ok {f : VecForm} {a : RegNo} (hs : s.Ok) : (VecForm.advance f s a).Ok := ite_ok (setAreg_ok hs) hs

theorem vecRead_ok {v : RegNo} {tr : Bool} {eas : List Int} (hs : s.Ok) : (vecRead s v tr eas).Ok := by
  unfold vecRead
  refine withCells_ok hs (fun s h => ?_)
  extract_lets d
  exact setVreg_ok h

theorem vecContribute_ok {v : RegNo} {tr : Bool} {eas : List Int} (hs : s.Ok) : (vecContribute s v tr eas).Ok := by
  unfold vecContribute
  extract_lets elems
  refine withPlaces_ok hs (fun s h => withPlaces_ok h (fun s h => ?_))
  extract_lets reg
  refine foldl_ok h (fun s a h => ?_)
  extract_lets f
  exact contributeAt_ok h

theorem withIndex_ok {f : VecForm} {v : RegNo} {g : State → Eff} (hs : s.Ok) (hg : ∀ t, t.Ok → (g t).Ok) :
    (withIndex s f v g).Ok := ite_ok (withVregs_ok hs hg) (hg _ hs)

theorem vecLoad_ok {f : VecForm} {v a : RegNo} {o : BitVec 8} {rev : Bool} (hs : s.Ok) : (vecLoad s f v a o rev).Ok := by
  unfold vecLoad
  refine withIndex_ok hs (fun t h => ?_)
  extract_lets eas checked fin
  have hchecked : ∀ s g, s.Ok → (∀ s, s.Ok → (g s).Ok) → (checked s g).Ok := by
    intro s g hs hg
    unfold checked
    split
    · exact trivial
    · exact ite_ok trivial (hg _ hs)
  have hfin : ∀ s, s.Ok → (fin s).Ok := fun s hs => warnIf_ok (VecForm.advance_ok hs)
  split
  · exact withVregs_ok h (fun _ h => hchecked _ _ h (fun _ h => andThen_ok (vecContribute_ok h) hfin))
  · exact withVregs_ok h (fun _ h => hchecked _ _ h (fun _ h => andThen_ok (vecRead_ok h) hfin))

theorem vecWrite_ok {reg : VReg} {cells : List (Int × Nat)} (hs : s.Ok) : (vecWrite s reg cells).1.Ok := by
  induction cells generalizing s with
  | nil => exact hs
  | cons c cells ih => exact ih (putBytes_ok hs _ _)

theorem vecRestore_ok {v : RegNo} {rec : List Byte} {cells : List (Int × Nat)} (hs : s.Ok) : (vecRestore s v rec cells).Ok := by
  induction cells generalizing s with
  | nil => exact hs
  | cons c cells ih =>
    unfold vecRestore
    extract_lets es s1
    split
    · exact ih hs
    · exact ih (putBytes_ok (foldl_ok hs fun _ _ h => setVreg_ok (takeAt_ok h)) _ _)

theorem vecStore_ok {f : VecForm} {v a : RegNo} {o : BitVec 8} (hs : s.Ok) : (vecStore s f v a o).Ok := by
  unfold vecStore
  refine withIndex_ok hs (fun t h => ?_)
  extract_lets eas checked fin numbered
  have hchecked : ∀ s g, s.Ok → (∀ s, s.Ok → (g s).Ok) → (checked s g).Ok := by
    intro s g hs hg
    unfold checked
    split
    · exact trivial
    · exact hg _ hs
  have hfin : ∀ s, s.Ok → (fin s).Ok := fun s hs => warnIf_ok (VecForm.advance_ok hs)
  split
  · split
    · refine withVregs_ok h (fun s h => hchecked _ _ h (fun x h => popRecord_ok h (fun t x1 h => ?_)))
      extract_lets locs
      exact withPlaces_ok h (fun _ h => hfin _ (vecRestore_ok h))
    · exact hchecked _ _ h hfin
  · refine withVregs_ok h (fun s h => hchecked _ _ h (fun x h => withCells_ok h (fun s h => ?_)))
    extract_lets w
    have hw : w.1.Ok := vecWrite_ok h
    exact ite_ok (pushRecord_ok h (fun _ h => hfin _ (vecWrite_ok h))) (hfin _ hw)

theorem addrResult_ok {k : BitVec 4} {d : RegNo} {f : State → W64} (hs : s.Ok) : Result.Ok (addrResult s k d f) :=
  runT_ok hs (fun _ h => setAreg_ok h)

theorem execDtset_ok {k : BitVec 4} (hs : s.Ok) : Result.Ok (execDtset k s) :=
  runT_ok hs (fun _ h => ite_ok trivial (popScalar_ok h (fun _ _ h => popScalar_ok h (fun _ _ h => warnIf_ok (modMySeq_ok h)))))

theorem gradientLoad_ok {v a : RegNo} {n : BitVec 8} {clear : Bool} (hs : s.Ok) : (gradientLoad s v a n clear).Ok := by
  unfold gradientLoad
  extract_lets base eas cells bad
  clear_value bad
  split
  · exact trivial
  · refine withVregs_ok hs (fun s h => withCells_ok h (fun s h => ?_))
    extract_lets rs s1
    have hs1 : s1.Ok := orStatus_ok (setVreg_ok h)
    exact ite_ok (foldl_ok hs1 (fun _ _ h => putBytes_ok h _ _)) hs1

/-! ## Fetch: what is due -/

theorem takeStep_ok {w : StepWait} (hs : s.Ok) : (s.takeStep w).Ok := deliverTrap_ok (modMe_ok hs)

theorem dueIssue_ok (hs : s.Ok) : s.dueIssue.Ok := by
  unfold State.dueIssue
  extract_lets step fault
  clear_value step
  split
  · exact takeStep_ok hs
  · split
    · exact hs
    · split
      · exact ite_ok hs hs
      · split
        · split
          · exact takeTrap_ok hs
          · exact ite_ok hs hs
        · exact takeTrap_ok hs

theorem fetchAhead_ok {n : ShNo} {st : Stream} {off : W32} (hs : s.Ok) : (s.fetchAhead n st off).Ok := by
  unfold State.fetchAhead
  extract_lets x sec
  split
  · exact hs
  · split
    · exact hs
    · exact healthRecord_ok hs

theorem dueCreel_ok {q : Nat} (hs : s.Ok) : (s.dueCreel q).Ok := by
  unfold State.dueCreel
  split
  · exact hs
  · split
    · split
      · exact hs
      · exact dispatchOdd_ok hs
    · exact dispatchOdd_ok hs

theorem dueTreadle_ok {q : Nat} (hs : s.Ok) : (s.dueTreadle q).Ok := by
  unfold State.dueTreadle
  extract_lets s1
  have hs1 : s1.Ok := hs
  split
  · exact hs
  · split
    · exact hs1
    · split
      · exact hs1
      · exact hs

theorem turnOf_ok {p : ShNo × Stream} (hs : s.Ok) : (s.turnOf p).Ok := dueIssue_ok hs

theorem dueEvent_ok {i : Instr} (hs : s.Ok) : (s.dueEvent i).Ok := by
  unfold State.dueEvent
  split
  · exact ite_ok (through_ok hs) (turnOf_ok hs)
  · exact through_ok hs

theorem due_ok (hs : s.Ok) : s.due.Ok := by
  unfold State.due
  split
  · exact turnOf_ok hs
  · extract_lets s1
    have hs1 : s1.Ok := hs
    split
    · split
      · exact turnOf_ok hs
      · exact passCycle_ok hs1
    · exact fetchAhead_ok hs1
    · exact matrixRow_ok hs1
    · exact moveRow_ok (through_ok hs1)
    · exact fillRlt_ok hs1
    · exact dropRlt_ok hs1
    · exact turnOf_ok hs1
    · exact dueCreel_ok (through_ok hs1)
    · exact dueTreadle_ok (through_ok hs1)
    · exact ite_ok (dueEvent_ok hs1) trivial

/-! ## A step -/

/-- Every instruction keeps the form. -/
theorem exec_ok {i : Instr} (hs : s.Ok) : Result.Ok (exec i s) := by
  cases i with dsimp only [exec]
  | reset => exact execReset_ok
  | add | sub | and | or | xor | andn | sll | srl | sra | min | max | minu | maxu | clz | ctz | pop | mul | mulh |
    mulhu | seq | sne | slt | sltu | sel | addi | andi | ori | xori | slli | srli | srai | extu | exts | movz | movk =>
    exact scalarResult_ok hs
  | div | divu | rem | remu => exact divideResult_ok hs
  | ins => exact execIns_ok hs
  | ldb | ldh | ldw | ldbs | ldhs | ldws => exact runC_ok hs (scalarLoad_ok hs)
  | ldd => exact runC_ok hs (andThen_ok (scalarLoad_ok hs) (fun _ h => warnIf_ok h))
  | stb | sth | stw | std => exact runC_ok hs (scalarStore_ok hs)
  | beq | bne | blt | bge | bltu | bgeu => exact branchIf_ok hs
  | jmp | jr | ret => exact runC_ok hs (setBor_ok hs)
  | call | callr => exact runC_ok hs (setBor_ok (setLnk_ok hs))
  | loop => exact execLoop_ok hs
  | endl | endlX => exact runC_ok hs (endLoop_ok hs)
  | skippedInstruction => exact execSkippedInstruction_ok hs
  | mfsr | mtsr | mxsr => exact runC_ok hs (sprMove_ok hs)
  | nop | hint => exact runC_ok hs hs
  | qpush => exact execQpush_ok hs
  | qpop => exact runC_ok hs (popScalar_ok hs (fun _ _ h => setSreg_ok h))
  | ccwait => exact runC_ok hs (counterWait_ok hs)
  | adda => exact execAdda_ok hs
  | vaddFloat | vsubFloat | vmulFloat | vdivFloat => exact floatOp_ok hs
  | vminFloat | vmaxFloat | vcpys => exact floatPick_ok hs
  | vfma | vfms | vfnma | vfnms => exact fusedOp_ok hs
  | vabs | vneg | vsqrt | vrint | vrcpe | vrsqe | vex2e | vlg2e => exact unaryOp_ok hs
  | vceqFloat | vcneFloat | vcltFloat | vcleFloat | vcun => exact floatCompare_ok hs
  | vaddInt | vsubInt | vmulInt | vmulh | vadds | vsubs | vminInt | vmaxInt | vabsd | vdivInt | vrem => exact intOp_ok hs
  | vceqInt | vcneInt | vcltInt | vcleInt => exact intCompare_ok hs
  | vand | vor | vxor | vandn | vsll | vsrl | vsra => exact bitOp_ok hs
  | vnot | vmovi32 | vfmoviF32 | vsplat32 | vsldn32 | vslup32 => exact elementwise_ok hs
  | vaddiI32 | vaddiI16 | vaddiI8 => exact addImm_ok hs
  | vslli32 | vsrli32 | vsrai32 | vslli16 | vsrli16 | vsrai16 => exact immOp_ok hs
  | vcvt => exact execVcvt_ok hs
  | vpacks | vpackt => exact packOp_ok hs
  | vunpkl | vunpkh => exact unpackOp_ok hs
  | vunsp => exact execVunsp_ok hs
  | vperm => exact execVperm_ok hs
  | vperm2 => exact execVperm2_ok hs
  | vbcq => exact execVbcq_ok hs
  | vzipl | vziph => exact zipOp_ok hs
  | vuzpe | vuzpo => exact unzipOp_ok hs
  | vrev => exact permOp_ok hs
  | vsel => exact execVsel_ok hs
  | mpushr => exact runT_ok hs (fun _ h => pushing_ok (readsMask_ok (withVregs_ok h (fun _ h => modMe_ok h))))
  | msave => exact xInstr_ok hs (fun _ h => readsMask_ok (setVreg_ok h))
  | minv => exact execMinv_ok hs
  | mpop => exact execMpop_ok hs
  | mclr => exact runT_ok hs (fun _ h => modMe_ok h)
  | vrsum | vrssq | vrdot | vrsuma => exact reduceOp_ok hs
  | vscan | vscnx => exact scanOp_ok hs
  | vrmax | vrmin => exact extremeOp_ok hs
  | vamax => exact execVamax_ok hs
  | vdscale => exact execVdscale_ok hs
  | shrm | shft => exact runT_ok hs (fun _ h => setShp_ok h)
  | shpop => exact execShpop_ok hs
  | mrd | mrdc => exact rowRead_ok hs (fun _ _ h => convertRow_ok h)
  | mrdr => exact execMrdr_ok hs
  | qpopvX => exact execQpopvX_ok hs
  | qpushvX | qpushvL => exact runT_ok hs (fun _ h => ite_ok (withVregs_ok h (fun _ h => modMe_ok h)) trivial)
  | sloopX | sloopLs => exact runT_ok hs (fun _ h => streamLoop_ok h)
  | sendlX | sendlExitX | sendlLs | sendlExitLs => exact runT_ok hs (fun _ h => endLoop_ok h)
  | qdropX | qdropLs => exact runT_ok hs (fun _ h => dropEntries_ok h)
  | tnopX | tnopLs => exact runT_ok hs (fun _ h => h)
  | vld | dpld => exact runT_ok hs (fun _ h => vecLoad_ok h)
  | vst => exact runT_ok hs (fun _ h => vecStore_ok h)
  | qpopa => exact runT_ok hs (fun _ h => popScalar_ok h (fun _ _ h => setAreg_ok h))
  | qpusha => exact runT_ok hs (fun _ h => pushScalar_ok h (fun _ h => h))
  | qpopvS => exact execQpopvS_ok hs
  | ccwaitLs => exact runT_ok hs (fun _ h => counterWait_ok h)
  | tmov | tgath | tscat | tfill | tmovf => exact moveH_ok hs
  | aaddi | aaddv | aadd | asub | aslli => exact addrResult_ok hs
  | dtset => exact execDtset_ok hs
  | dgld | dgldc => exact runT_ok hs (fun _ h => gradientLoad_ok h)
  | mzero | maddt | mnop => exact runC_ok hs (issueMatrix_ok hs)
  | mma _ _ _ _ _ _ _ mca mcb => exact execMma_ok (mca := mca) (mcb := mcb) hs
  | mbias => exact execMbias_ok hs
  | mout => exact execMout_ok hs
  | moutr => exact execMoutr_ok hs
  | mldr => exact execMldr_ok hs
  | msnap => exact execMsnap_ok hs
  | matrixCommandStart => exact execMatrixCommandStart_ok hs
  | matrixCommandComplete => exact execMatrixCommandComplete_ok hs
  | tcmov | tcgath | tcscat | tcfill | tcmovf => exact moveE_ok hs
  | tileMoveRun => exact execTileMoveRun_ok hs
  | moveResidencyResume => exact execMoveResidencyResume_ok hs
  | tileMoveComplete => exact execTileMoveComplete_ok hs
  | car | crs | cag | cbc | cred | ca2a | cbar => exact runC_ok hs (issueColl_ok hs)
  | heddleChunkBegin => exact execHeddleChunkBegin_ok hs
  | chunkArrival => exact execChunkArrival_ok hs
  | collectiveComplete => exact execCollectiveComplete_ok hs
  | faultNoticeArrival => exact execFaultNoticeArrival_ok hs
  | switchLimitExpiry => exact execSwitchLimitExpiry_ok hs
  | rinv | rinvx | rinva | rsplit | rmerge | rpress | rres | rgena => exact issueRange_ok hs
  | rangeCommandRun => exact execRangeCommandRun_ok hs
  | pressBlockCopy => exact execPressBlockCopy_ok hs
  | invalidationComplete => exact execInvalidationComplete_ok hs
  | tend => exact ite_ok (endControl_ok hs) (runT_ok hs (fun _ h => modMySeq_ok h))
  | ginfo => exact execGinfo_ok hs
  | torder => exact execTorder_ok hs
  | ldf | ldfe => exact runC_ok hs (scalarFe_ok hs)
  | stef => exact execStef_ok hs
  | feset => exact execFeset_ok hs
  | feclr => exact execFeclr_ok hs
  | vldfe => exact execVldfe_ok hs
  | vstef => exact execVstef_ok hs
  | bararr | barpost => exact runC_ok hs (arrive_ok hs (fun _ h => h))
  | barsync => exact execBarsync_ok hs
  | barwait => exact runT_ok hs (fun _ h => awaitPhase_ok h hs)
  | semsig => exact execSemsig_ok hs
  | semwait => exact execSemwait_ok hs
  | waitLimitExpiry => exact execWaitLimitExpiry_ok hs
  | lds | ldsAcq => exact runC_ok hs (syncLoad_ok hs)
  | sts | stsRel => exact runC_ok hs (syncStore_ok hs)
  | acq => exact runT_ok hs (fun _ h => withScope_ok h (fun _ _ h => acqFence_ok h))
  | rel => exact runT_ok hs (fun _ h => withScope_ok h (fun _ _ h => relFence_ok h))
  | mark => exact execMark_ok hs
  | join => exact runC_ok hs (withScope_ok hs (fun _ _ h => join_ok h))
  | fence => exact execFence_ok hs
  | atom | atomRel => exact runC_ok hs (atomics_ok hs)
  | vatom | vatomRel => exact runT_ok hs (fun _ h => vatomics_ok h)
  | cldecl => exact runC_ok hs (declare_ok hs)
  | cladd => exact execCladd_ok hs
  | oatom => exact runC_ok hs (ordered_ok hs)
  | bankUpdate => exact execBankUpdate_ok hs
  | clFlagFill => exact execClFlagFill_ok hs
  | brk => exact runT_ok hs (fun _ h => trivial)
  | mcall => exact runC_ok hs trivial
  | tret => exact execTret_ok hs
  | ckmark => exact execCkmark_ok hs
  | abtok => exact execAbtok_ok hs
  | dfwd | drev => exact switchMode_ok hs
  | streamDeadlock => exact execStreamDeadlock_ok hs
  | asyncFaultTake => exact execAsyncFaultTake_ok hs
  | trapRoute => exact execTrapRoute_ok hs
  | taskStart => exact execTaskStart_ok hs
  | taskCommit => exact execTaskCommit_ok hs
  | dualSignatureCompare => exact execDualSignatureCompare_ok hs
  | dobbyStep => exact execDobbyStep_ok hs
  | punchRefine => exact execPunchRefine_ok hs
  | cardCopy => exact execCardCopy_ok hs
  | stopMessage => exact execStopMessage_ok hs
  | abortTokenMessage => exact takeMail_ok hs (fun _ h => ite_ok (raiseToken_ok h) h)
  | lstepMessage => exact takeMail_ok hs (fun _ h => ite_ok (tryAgree_ok h) h)
  | remoteAccessMessage => exact execRemoteAccessMessage_ok hs
  | remoteAckMessage => exact execRemoteAckMessage_ok hs
  | linkFailure => exact ite_ok hs (healthRecord_ok (loseLink_ok hs))
  | checkFailure => exact execCheckFailure_ok hs
  | operatingPointChange => exact ite_ok (setDevReg_ok hs) hs
  | launch => exact execLaunch_ok hs
  | resume => exact execResume_ok hs
  | fencePacket | ibPacket | loopPacket | ffence | hintPacket | nopPacket => exact dispatchPacket_ok hs (fun _ _ _ _ h => h)
  | fencePacketMet | fenceExpiry => exact lookFence_ok hs
  | predPacket => exact execPredPacket_ok hs
  | ffenceComplete => exact execFfenceComplete_ok hs
  | treadlePacket => exact execTreadlePacket_ok hs
  | packetFetch => exact execPacketFetch_ok hs
  | packetComplete => exact execPacketComplete_ok hs
  | ageingStep => exact ageQueue_ok hs
  | treadleBudgetExpiry => exact execTreadleBudgetExpiry_ok hs
  | treadleLi | treadleShori | treadleAddi => exact treadleWord_ok hs (fun _ => trivial)
  | treadleAdd | treadleSub | treadleAnd | treadleOr | treadleXor | treadleShl | treadleShr => exact treadleAlu_ok hs
  | treadleLd => exact execTreadleLd_ok hs
  | treadleSt => exact execTreadleSt_ok hs
  | treadleBeq | treadleBne | treadleBltu | treadleBgeu => exact treadleBranch_ok hs
  | treadleEmit => exact execTreadleEmit_ok hs
  | treadleEnd => exact execTreadleEnd_ok hs
  | kick => exact execKick_ok hs
  | doorbellWrite _ v => exact execDoorbellWrite_ok (v := v) hs
  | destroy => exact execDestroy_ok hs
  | destroyComplete => exact execDestroyComplete_ok hs
  | slotsWrite => exact execSlotsWrite_ok hs
  | wakeRead => exact execWakeRead_ok hs
  | tload => exact execTload_ok hs
  | tloadVerifyComplete => exact execTloadVerifyComplete_ok hs
  | tfree => exact execTfree_ok hs
  | preq => exact execPreq_ok hs
  | preemptComplete => exact execPreemptComplete_ok hs
  | prel => exact execPrel_ok hs
  | rreqRead => exact execRreqRead_ok hs
  | rresume => exact execRresume_ok hs
  | rgenreq => exact execRgenreq_ok hs
  | rivctlGo => exact execRivctlGo_ok hs
  | trcmdDeliver => exact execTrcmdDeliver_ok hs
  | trcmdRetry => exact execTrcmdRetry_ok hs
  | trcmdKill => exact execTrcmdKill_ok hs
  | killComplete => exact execKillComplete_ok hs
  | abtokRegister => exact execAbtokRegister_ok hs
  | cflush => exact execCflush_ok hs
  | mbcmdReport => exact execMbcmdReport_ok hs
  | mbReportComplete => exact execMbReportComplete_ok hs
  | cmcfgWrite => exact execCmcfgWrite_ok hs
  | wpidxWrite => exact execWpidxWrite_ok hs
  | weftFrameReceive => exact execWeftFrameReceive_ok hs
  | registerWrite => exact execRegisterWrite_ok hs
  | warpLinkEntersService => exact execWarpLinkEntersService_ok hs
  | weftPortLinkChange => exact setDevReg_ok hs
  | weftTransmitDone => exact execWeftTransmitDone_ok hs
  | gangMemberLeavesService => exact ite_ok (tryAgree_ok (raiseHepoch_ok hs)) hs
  | coreOrPcieStore => exact execCoreOrPcieStore_ok hs
  | abortTokenComplete => exact execAbortTokenComplete_ok hs

/-- What is due is done from a state in canonical form. -/
theorem Due.run_ok {d : Due} (hd : d.Ok) : Result.Ok d.run := by
  cases d with
  | instr i s => exact exec_ok hd
  | boundary i s =>
    have hi : Result.Ok (exec i s) := exec_ok hd
    rw [Due.run]
    split
    next t h => exact ite_ok (Result.ok_iff.mp hi t h) (exec_ok hd)
    next => exact hi
  | idle s => exact hd
  | odd => exact trivial

theorem step_ok (hs : s.Ok) : Result.Ok (step s) := Due.run_ok (due_ok hs)

end

/-- Settles O8: each function a step is made of keeps the form, since it writes memory by `memStore` or drops cells. -/
theorem stepKeepsOk : Obligations.StepKeepsOk := fun _ t hs => Result.ok_iff.mp (step_ok hs) t

end Sys2Proof.Machine
end

section
namespace Sys2Proof.Machine
open Sys2Proof

/-! # Registers that traps and completions leave (R19, R24, R354) -/

/-- The registers of a shuttle that no trap, wait or completion changes: of the sequencers' those that take no part in their
control, and C's status but for the mode. -/
def Shuttle.registers (x : Shuttle) :=
  (((x.sregs, x.vregs, x.aL, x.aS, x.masks, x.tiles, x.fmt, x.cc, x.sems, x.bsw),
    (x.lnk, x.bor, x.tvec, x.mscratch, x.shp, x.ftix, x.gsel, x.rwin, x.dbgc, x.dpr, x.tts, x.dseg, x.sgnt, x.bgnt)),
   ((fun st => ((x.seq st).loops, (x.seq st).dtb, (x.seq st).dtp, (x.seq st).code)),
    (x.l.status, x.x.status, x.s.status, x.l.run, x.x.run, x.s.run), fun b : Nat => decide (b ≠ 15) && x.c.status.getLsbD b))

/-- What a waiting QDROP gives back are tokens and credits. -/
theorem returnTokens_eq (x : Shuttle) (st : Stream) :
    ∃ tLX tXS tSL crLX crXS crSL, x.returnTokens st =
      { x with tLX := tLX, tXS := tXS, tSL := tSL, crLX := crLX, crXS := crXS, crSL := crSL } := by
  unfold Shuttle.returnTokens
  split
  · exact ⟨_, _, _, _, _, _, rfl⟩
  · cases st <;> exact ⟨_, _, _, _, _, _, rfl⟩

/-- A freeze empties waits, fills rpc registers and returns what was popped. -/
theorem freezeStreams_eq (x : Shuttle) :
    ∃ sstp lrpc xrpc srpc qCL qCX qCS tLX tXS tSL crLX crXS crSL, x.freezeStreams =
      { x with
        sstp := sstp, lrpc := lrpc, xrpc := xrpc, srpc := srpc, qCL := qCL, qCX := qCX, qCS := qCS, tLX := tLX, tXS := tXS,
        tSL := tSL, crLX := crLX, crXS := crXS, crSL := crSL, markWait := none, c := x.c.abandon, l := x.l.abandon,
        x := x.x.abandon, s := x.s.abandon } := by
  unfold Shuttle.freezeStreams Shuttle.returnPops
  simp only [List.foldl_cons, List.foldl_nil]
  obtain ⟨_, _, _, _, _, _, h⟩ := returnTokens_eq x .l
  rw [h]
  obtain ⟨_, _, _, _, _, _, h⟩ := returnTokens_eq _ .x
  rw [h]
  obtain ⟨_, _, _, _, _, _, h⟩ := returnTokens_eq _ .s
  rw [h]
  exact ⟨_, _, _, _, _, _, _, _, _, _, _, _, _, rfl⟩

@[simp] theorem registers_freezeStreams (x : Shuttle) : x.freezeStreams.registers = x.registers := by
  obtain ⟨_, _, _, _, _, _, _, _, _, _, _, _, _, h⟩ := freezeStreams_eq x
  simp only [h, Shuttle.registers, Prod.mk.injEq, true_and]
  exact ⟨funext fun st => by cases st <;> rfl, by trivial, rfl⟩

/-- MON is bit 15 of the status, and `setMon` writes that bit alone. -/
theorem setMon_getLsbD (b : Bool) (w : W64) (i : Nat) : (setMon b w).getLsbD i = if i = 15 then b else w.getLsbD i := by
  have h (j : Nat) : (0x8000#64).getLsbD j = decide (j = 15) := by
    rw [show (0x8000#64) = BitVec.twoPow 64 15 from rfl, BitVec.getLsbD_twoPow]
    simp [eq_comm]
  have hi : i < 64 ∨ i ≠ 15 ∧ w.getLsbD i = false := by
    rcases Nat.lt_or_ge i 64 with hi | hi
    · exact .inl hi
    · exact .inr ⟨by omega, BitVec.getLsbD_of_ge _ _ hi⟩
  unfold setMon
  split <;> simp only [BitVec.getLsbD_or, BitVec.getLsbD_and, BitVec.getLsbD_not, h] <;> grind

@[simp] theorem registers_enterTrap (x : Shuttle) (cause : BitVec 8) (eval eaux : W64) (epc : W32) :
    (x.enterTrap cause eval eaux epc).registers = x.registers := by
  simp only [Shuttle.enterTrap, Shuttle.registers, Prod.mk.injEq, true_and]
  refine ⟨funext fun st => by cases st <;> rfl, funext fun b => ?_⟩
  by_cases hb : b = 15 <;> simp [hb, setMon_getLsbD]

/-- A trap held for a handler beyond the monitor: the shuttle is frozen, and C halts with HALT. -/
def Shuttle.holdTrap (x : Shuttle) (h : HeldTrap) : Shuttle :=
  { x with c := { x.c with run := if h.halt then .halted else x.c.run }, frozen := true, trap := some h }

@[simp] theorem registers_holdTrap (x : Shuttle) (h : HeldTrap) : (x.holdTrap h).registers = x.registers := by
  simp only [Shuttle.holdTrap, Shuttle.registers, Prod.mk.injEq, true_and, and_true]
  exact funext fun st => by cases st <;> rfl

/-- One more try is worth while in the shuttle. -/
def Shuttle.bumped (x : Shuttle) : Shuttle := { x with progress := x.progress + 1 }

@[simp] theorem shuttle_bump (s : State) (n : ShNo) : (s.bump n).shuttle n = (s.shuttle n).bumped :=
  shuttle_modShuttle s n Shuttle.bumped

@[simp] theorem registers_bumped (x : Shuttle) : x.bumped.registers = x.registers := rfl

@[simp] theorem mon_freezeStreams (x : Shuttle) : x.freezeStreams.mon = x.mon := rfl

/-- A trap in task mode whose route is the monitor enters it (R24). -/
theorem shuttle_deliverTrap_monitor {s : State} {n : ShNo} {cause : BitVec 8} (hm : (s.shuttle n).mon = false)
    (hr : s.route cause = .monitor) (eval eaux : W64) (epc : W32) :
    (s.deliverTrap n cause eval eaux epc).shuttle n =
      ((s.shuttle n).freezeStreams.enterTrap cause eval eaux epc).bumped := by
  unfold State.deliverTrap
  dsimp only
  rw [shuttle_bump, shuttle_setShuttle, mon_freezeStreams, if_neg (by simp [hm]), hr]

/-- Every other trap is held for the handler beyond the monitor, and one of monitor mode halts C (R24, R351). -/
theorem shuttle_deliverTrap_beyond {s : State} {n : ShNo} {cause : BitVec 8}
    (h : (s.shuttle n).mon = true ∨ s.route cause ≠ .monitor) (eval eaux : W64) (epc : W32) :
    (s.deliverTrap n cause eval eaux epc).shuttle n =
      (((s.shuttle n).freezeStreams.holdTrap
        { cause := cause, eval := eval, eaux := eaux, epc := epc, halt := (s.shuttle n).mon,
          fw := decide (s.route cause = .firmware), record := none }) : Shuttle).bumped := by
  unfold State.deliverTrap
  dsimp only
  rw [shuttle_bump, shuttle_setShuttle, mon_freezeStreams]
  rcases hm : (s.shuttle n).mon with _ | _
  · rcases hr : s.route cause with _ | _ | _
    · simp [hm, hr] at h
    · rfl
    · rfl
  · rfl

/-- No trap changes a register. -/
@[simp] theorem registers_deliverTrap (s : State) (n : ShNo) (cause : BitVec 8) (eval eaux : W64) (epc : W32) :
    ((s.deliverTrap n cause eval eaux epc).shuttle n).registers = (s.shuttle n).registers := by
  by_cases h : (s.shuttle n).mon = true ∨ s.route cause ≠ .monitor
  · simp [shuttle_deliverTrap_beyond h]
  · rw [not_or, not_not, Bool.not_eq_true] at h
    simp [shuttle_deliverTrap_monitor h.1 h.2]

/-- A trap ends the waits of L, X and S and leaves the rest of them as it was. -/
theorem seq_deliverTrap (s : State) (n : ShNo) (cause : BitVec 8) (eval eaux : W64) (epc : W32) {st : Stream} (h : st ≠ .c) :
    ((s.deliverTrap n cause eval eaux epc).shuttle n).seq st = ((s.shuttle n).seq st).abandon := by
  obtain ⟨_, _, _, _, _, _, _, _, _, _, _, _, _, e⟩ := freezeStreams_eq (s.shuttle n)
  by_cases hb : (s.shuttle n).mon = true ∨ s.route cause ≠ .monitor
  · rw [shuttle_deliverTrap_beyond hb, e]
    cases st with
    | c => exact absurd rfl h
    | l | x | s => rfl
  · rw [not_or, not_not, Bool.not_eq_true] at hb
    rw [shuttle_deliverTrap_monitor hb.1 hb.2, e]
    cases st with
    | c => exact absurd rfl h
    | l | x | s => rfl

/-- No trap changes another shuttle. -/
theorem Touched.shuttle_ne {s t : State} {n m : ShNo} (h : Touched s n t) (hm : m ≠ n) : t.shuttle m = s.shuttle m := by
  obtain ⟨y, k, rfl⟩ := h
  exact shuttle_setShuttle_ne s n m y hm.symm

/-- Settles O12: the registers are kept together, and each of the two routes writes its own fields. -/
theorem trapEntry : Obligations.TrapEntry := by
  intro s n cause eval eaux epc
  dsimp only
  have hregs := registers_deliverTrap s n cause eval eaux epc
  simp only [Shuttle.registers, Prod.mk.injEq] at hregs
  obtain ⟨⟨⟨hsregs, hvregs, haL, haS, hmasks, htiles, hfmt, hcc, hsems, hbsw⟩,
    hlnk, hbor, htvec, hmscratch, hshp, hftix, hgsel, hrwin, hdbgc, hdpr, htts, hdseg, hsgnt, hbgnt⟩, hseqs, -, hstatus⟩ := hregs
  obtain ⟨_, _, _, _, _, _, _, _, _, _, _, _, _, e⟩ := freezeStreams_eq (s.shuttle n)
  refine ⟨rfl, rfl, rfl, rfl, rfl, rfl, rfl, rfl, rfl, fun m hm => (touched_deliverTrap ..).shuttle_ne hm, hsregs, hvregs, haL,
    haS, hlnk, hbor, htvec, hmscratch, hshp, hftix, hgsel, hrwin, hdbgc, hdpr, htts, hdseg, hsgnt, hbgnt, hmasks, htiles, hfmt,
    hcc, hsems, hbsw, fun st => ?_, fun st hst => ?_, fun b hb => ?_, fun hm hr => ?_, fun h => ?_⟩
  · have h := congrFun hseqs st
    simp only [Prod.mk.injEq] at h
    exact ⟨h.1, h.2.1, h.2.2.1⟩
  · rw [seq_deliverTrap _ _ _ _ _ _ hst]
    exact ⟨rfl, rfl, rfl⟩
  · simpa [hb] using congrFun hstatus b
  · rw [shuttle_deliverTrap_monitor hm hr, e]
    exact ⟨rfl, rfl, rfl, rfl, if_neg (Bool.not_eq_true _ ▸ hm), setMon_getLsbD _ _ 15, rfl, rfl⟩
  · rw [shuttle_deliverTrap_beyond h, e]
    exact ⟨rfl, rfl, fun hm => if_pos hm, rfl, rfl, rfl, rfl, rfl⟩
end Sys2Proof.Machine
end

section
namespace Sys2Proof.Machine
open Sys2Proof

/-! ## Completions -/

/-- What `registers` holds of a sequencer. -/
def Seq.registers (q : Seq) := ((q.loops, q.dtb, q.dtp, q.code), q.status, q.run)

theorem registers_setSeq {x : Shuttle} {st : Stream} {q : Seq} (h : q.registers = (x.seq st).registers) :
    (x.setSeq st q).registers = x.registers := by
  simp only [Seq.registers, Prod.mk.injEq] at h
  obtain ⟨⟨hloops, hdtb, hdtp, hcode⟩, hstatus, hrun⟩ := h
  have hseqs : (fun st' => (((x.setSeq st q).seq st').loops, ((x.setSeq st q).seq st').dtb, ((x.setSeq st q).seq st').dtp,
      ((x.setSeq st q).seq st').code)) = fun st' => ((x.seq st').loops, (x.seq st').dtb, (x.seq st').dtp, (x.seq st').code) := by
    funext st'
    by_cases e : st' = st
    · rw [e, seq_setSeq, hloops, hdtb, hdtp, hcode]
    · rw [seq_setSeq_ne _ _ _ e]
  rw [Shuttle.registers, hseqs]
  cases st <;> simp only [Shuttle.seq] at hstatus hrun <;>
    simp only [Shuttle.registers, Shuttle.setSeq, hstatus, hrun]

@[simp] theorem registers_resumeStreams (x : Shuttle) : x.resumeStreams.registers = x.registers := by
  unfold Shuttle.resumeStreams
  split
  · rfl
  · have go (q : Seq) (c : Bool) (p : W32) : (if c then { q with pc := p } else q).registers = q.registers := by
      cases c <;> rfl
    calc _ = (((x.setSeq .l _).setSeq .x _).setSeq .s _).registers := rfl
      _ = ((x.setSeq .l _).setSeq .x _).registers := registers_setSeq (go ..)
      _ = (x.setSeq .l _).registers := registers_setSeq (go ..)
      _ = x.registers := registers_setSeq (go ..)

/-- What completing the instruction at `s0` does in its shuttle: its wait ends, and C in task mode lets stopped streams go on. -/
def Shuttle.completed (s0 : State) (cmd : Option Nat) (x : Shuttle) : Shuttle :=
  let q := x.seq s0.stream
  let x := x.setSeq s0.stream { q with stall := none, held := [], taken := none, era := if cmd.isNone then q.era + 1 else q.era }
  if s0.stream = .c ∧ s0.taskMode then x.resumeStreams else x

@[simp] theorem registers_completed (s0 : State) (cmd : Option Nat) (x : Shuttle) : (x.completed s0 cmd).registers = x.registers := by
  unfold Shuttle.completed
  dsimp only
  split
  · exact (registers_resumeStreams _).trans (registers_setSeq rfl)
  · exact registers_setSeq rfl

/-- A completed instruction is followed by its step trap, by a wait for the trap of its command, or by nothing (R361). -/
theorem finishWith_cases (s0 s1 : State) (cmd : Option Nat) :
    let u := (s1.modShuttle s0.here (Shuttle.completed s0 cmd)).bump s0.here
    finishWith s0 s1 cmd = u ∨ (∃ eaux epc, finishWith s0 s1 cmd = u.deliverTrap s0.here 0x2F 0 eaux epc) ∨
      ∃ w, finishWith s0 s1 cmd = u.modShuttle s0.here fun x => { x with stepWaits := x.stepWaits ++ [w] } := by
  by_cases hstep : (s0.taskMode && s0.me.dbgc.getLsbD (stepBit s0.stream)) = true
  · rcases cmd with _ | id
    · exact .inr (.inl ⟨_, _, if_pos hstep⟩)
    · by_cases hdrain : s0.me.dbgc.getLsbD 4 = true
      · exact .inr (.inr ⟨_, (if_pos hstep).trans (if_pos hdrain)⟩)
      · exact .inr (.inl ⟨_, _, (if_pos hstep).trans (if_neg hdrain)⟩)
  · exact .inl (if_neg hstep)

/-- A completion changes no register of its own. -/
@[simp] theorem registers_finishWith (s0 s1 : State) (cmd : Option Nat) :
    ((finishWith s0 s1 cmd).shuttle s0.here).registers = (s1.shuttle s0.here).registers := by
  have hu : (((s1.modShuttle s0.here (Shuttle.completed s0 cmd)).bump s0.here).shuttle s0.here).registers =
      (s1.shuttle s0.here).registers := by simp
  rcases finishWith_cases s0 s1 cmd with h | ⟨eaux, epc, h⟩ | ⟨w, h⟩ <;> rw [h]
  · exact hu
  · rw [registers_deliverTrap, hu]
  · rw [shuttle_modShuttle]
    exact hu

theorem Touched.trans {s t u : State} {n : ShNo} (h : Touched s n t) (g : Touched t n u) : Touched s n u := by
  obtain ⟨y, k, rfl⟩ := h
  obtain ⟨z, m, rfl⟩ := g
  refine ⟨z, m, ?_⟩
  rw [show ({ s.setShuttle n y with stamp := k } : State).setShuttle n z = { (s.setShuttle n y).setShuttle n z with stamp := k }
    from rfl, setShuttle_setShuttle]

theorem Touched.here {s t : State} {n : ShNo} (h : Touched s n t) : t.here = s.here := by
  obtain ⟨y, k, rfl⟩ := h
  rfl

/-! ## O21: the instructions that write one scalar register -/

@[simp] theorem setShuttle_shuttle (s : State) (n : ShNo) : s.setShuttle n (s.shuttle n) = s := by
  simp [State.setShuttle, State.shuttle]

theorem touched_refl (s : State) (n : ShNo) : Touched s n s := ⟨s.shuttle n, s.stamp, by rw [setShuttle_shuttle]⟩

/-- No token bits, no token. -/
@[simp] theorem modMe_pushTokens_zero (s : State) (st : Stream) : s.modMe (Shuttle.pushTokens · st 0) = s :=
  setShuttle_shuttle s s.here

@[simp] theorem modMe_popTokens_zero (s : State) (st : Stream) : s.modMe (Shuttle.popTokens · st 0) = s := by
  cases st <;> exact setShuttle_shuttle s s.here

/-- `e` is `s` with register `d` written, a mark mended, and the flag IDZ set or not. -/
def WritesScalar (s : State) (d : RegNo) (e : State) : Prop :=
  (∀ r, r ≠ d → e.sreg r = s.sreg r) ∧ Touched s s.here e ∧
    ∃ sregs marked status, e.me = { s.me with sregs := sregs, marked := marked, c := { s.me.c with status := status } } ∧
      ∀ b : Nat, b ≠ 7 → status.getLsbD b = s.me.c.status.getLsbD b

theorem writesScalar_self (s : State) (d : RegNo) : WritesScalar s d s :=
  ⟨fun _ _ => rfl, touched_refl .., s.me.sregs, s.me.marked, s.me.c.status, rfl, fun _ _ => rfl⟩

theorem writesScalar_setSreg (s : State) (d : RegNo) (v : W64) : WritesScalar s d (s.setSreg d v) := by
  by_cases h : d = 0
  · subst h
    exact writesScalar_self s 0
  · refine ⟨fun r hr => ?_, ?_, ?_⟩
    · rw [sreg_setSreg, if_neg fun h => hr h.1]
    · rw [State.setSreg, if_neg h]
      exact touched_modShuttle ..
    · rw [State.setSreg, if_neg h, me_modMe]
      exact ⟨_, _, s.me.c.status, rfl, fun _ _ => rfl⟩

/-- Only bit 7 of C's status is the flag IDZ. -/
theorem writesScalar_orStatus {s e : State} {d : RegNo} (h : WritesScalar s d e) :
    WritesScalar s d (e.orStatus s.here .c idzBit) := by
  obtain ⟨hregs, htouched, sregs, marked, status, hme, hstatus⟩ := h
  have hme' : (e.orStatus s.here .c idzBit).me = e.me.setSeq .c { e.me.c with status := e.me.c.status ||| idzBit } := by
    rw [← htouched.here]
    exact shuttle_modShuttle ..
  refine ⟨fun r hr => ?_, htouched.modShuttle fun x => x.setSeq .c { x.c with status := x.c.status ||| idzBit }, sregs, marked, status ||| idzBit, ?_, fun b hb => ?_⟩
  · rw [← hregs r hr, State.sreg, hme', setSeq_sregs, State.sreg]
  · rw [hme', hme]
    rfl
  · rw [BitVec.getLsbD_or, hstatus b hb, show idzBit = BitVec.twoPow 64 7 from rfl, BitVec.getLsbD_twoPow]
    simp [Ne.symm hb]

/-- What an instruction of that shape comes to. -/
theorem exec_scalarDest {i : Instr} {d : RegNo} (h : i.scalarDest = some d) (s : State) :
    (∃ e, WritesScalar s d e ∧ exec i s = runC s (.done e)) ∨ ∃ c v, exec i s = trap s c v := by
  have hset (v : W64) : ∃ e, WritesScalar s d e ∧ scalarResult s d v = runC s (.done e) :=
    ⟨_, writesScalar_setSreg s d v, rfl⟩
  have hdiv (b v z : W64) : ∃ e, WritesScalar s d e ∧ divideResult s d b v z = runC s (.done e) := by
    unfold divideResult
    split
    · exact ⟨_, writesScalar_orStatus (writesScalar_setSreg s d z), rfl⟩
    · exact hset v
  cases i with
  | adda _ a i =>
    obtain rfl := Option.some.inj h
    exact (ite_ok (P := fun r => (∃ e, WritesScalar s _ e ∧ r = runC s (.done e)) ∨ ∃ c v, r = trap s c v)
      (.inr ⟨_, _, rfl⟩) (.inl (hset _)))
  | div | divu | rem | remu =>
    obtain rfl := Option.some.inj h
    exact .inl (hdiv ..)
  | add | sub | and | or | xor | andn | sll | srl | sra | min | max | minu | maxu | clz | ctz | pop | mul | mulh | mulhu | seq |
    sne | slt | sltu | sel | addi | andi | ori | xori | slli | srli | srai | extu | exts | ins | movz | movk =>
    obtain rfl := Option.some.inj h
    exact .inl (hset _)
  | _ => nomatch h

@[simp] theorem registers_setPc (s : State) (t : W32) : (s.setPc t).me.registers = s.me.registers := by
  rw [State.setPc, me_modMySeq]
  exact registers_setSeq rfl

theorem touched_setPc (s : State) (t : W32) : Touched s s.here (s.setPc t) :=
  touched_modShuttle s s.here fun x => x.setSeq s.stream { x.seq s.stream with pc := t }

/-- A completed instruction of C leaves the shuttle's registers as its effect has them. -/
theorem runC_done_frame {s e t : State} (he : e.here = s.here) (h : runC s (.done e) = .next t) :
    Touched e s.here t ∧ t.me.registers = e.me.registers := by
  obtain rfl : finishWith s ((e.modMe (Shuttle.pushTokens · s.stream 0)).setPc (s.pc + 4)) none = t := Host.Outcome.next.inj h
  rw [modMe_pushTokens_zero]
  have hdone := touched_finishWith s (e.setPc (s.pc + 4)) none
  have hpc : Touched e s.here (e.setPc (s.pc + 4)) := he ▸ touched_setPc e _
  refine ⟨hpc.trans hdone, ?_⟩
  rw [State.me, hdone.here, hpc.here, he, registers_finishWith, ← he]
  exact registers_setPc ..

/-- Settles O21: the effect writes one register, and neither its completion nor a trap changes another. -/
theorem frameRegisters : Obligations.FrameRegisters := by
  intro i d s t hi _ h
  obtain ⟨e, ⟨hsregs, htouched, sregs, marked, status, hme, hstatus⟩, hte, hregs⟩ :
      ∃ e, WritesScalar s d e ∧ Touched e s.here t ∧ t.me.registers = e.me.registers := by
    rcases exec_scalarDest hi s with ⟨e, he, hx⟩ | ⟨c, v, hx⟩
    · exact ⟨e, he, runC_done_frame he.2.1.here (hx ▸ h)⟩
    · obtain rfl : s.takeTrap s.here s.stream c v = t := Host.Outcome.next.inj (hx ▸ h)
      exact ⟨s, writesScalar_self s d, touched_deliverTrap .., registers_deliverTrap ..⟩
  obtain ⟨y, k, rfl⟩ := htouched.trans hte
  have hst := htouched.trans hte
  rw [hme] at hregs
  simp only [Shuttle.registers, Prod.mk.injEq] at hregs
  obtain ⟨⟨⟨hsregs', hvregs, haL, haS, hmasks, htiles, hfmt, hcc, hsems, hbsw⟩,
    hlnk, hbor, htvec, hmscratch, hshp, hftix, hgsel, hrwin, hdbgc, hdpr, htts, hdseg, hsgnt, hbgnt⟩, hseqs, hlxs, hcstatus⟩ := hregs
  refine ⟨rfl, rfl, rfl, rfl, rfl, rfl, rfl, rfl, rfl, rfl, rfl, rfl, rfl, fun m hm => hst.shuttle_ne hm, fun r hr => ?_, hftix,
    hgsel, hrwin, hdbgc, hdpr, htts, hdseg, hsgnt, hbgnt, hbsw, fun st => ?_, fun st hst => ?_, fun b h7 h15 => ?_, hvregs, haL,
    haS, hfmt, htiles, hmasks, hsems, hlnk, hbor, hshp, htvec, hmscratch, hcc⟩
  · rw [← hsregs r hr, State.sreg, State.sreg, hsregs', hme]
  · have h := congrFun hseqs st
    simp only [Prod.mk.injEq] at h
    cases st <;> exact h
  · obtain ⟨hl, hx, hs, hlrun, hxrun, hsrun⟩ := hlxs
    cases st with
    | c => exact absurd rfl hst
    | l => exact ⟨hl, hlrun⟩
    | x => exact ⟨hx, hxrun⟩
    | s => exact ⟨hs, hsrun⟩
  · rw [← hstatus b h7]
    simpa [h15] using congrFun hcstatus b

end Sys2Proof.Machine
end

section
namespace Sys2Proof.Machine
open Sys2Proof

/-! # O25: Pocket addresses -/

/-- An address of the own Pocket. -/
theorem pocketAddr_own {s : State} {n : ShNo} {ea : Int} (h0 : 0 ≤ ea) (h : ea < 0xC0000) :
    s.pocketAddr n ea = some (n, ea.toNat) := by
  unfold State.pocketAddr
  rw [if_neg (by omega)]
  exact if_pos (show ea.toNat < 0xC0000 by omega)

/-- An address in the window of position `t` of the loom. -/
theorem pocketAddr_window {s : State} {n : ShNo} {t b : Nat} (ht : t < 8) (hb : b < 0xC0000) :
    s.pocketAddr n ((0x100000 * (t + 1) + b : Nat) : Int) =
      if (s.shuttle n).rwin.getLsbD t && s.sameGang n (loomMate n t) then some (loomMate n t, b) else none := by
  have hdiv : (0x100000 * (t + 1) + b) / 2 ^ 20 = t + 1 := by omega
  have hmod : (0x100000 * (t + 1) + b) % 2 ^ 20 = b := by omega
  unfold State.pocketAddr Config.pocketBytes
  dsimp only
  rw [if_neg (by omega), Int.toNat_natCast, if_neg (by omega), hdiv, hmod, if_neg (by omega), Nat.add_sub_cancel]

/-- Every address that names a byte is of one of these two forms. -/
theorem pocketAddr_cases {s : State} {n : ShNo} {ea : Int} {p : ShNo × Nat} (h : s.pocketAddr n ea = some p) :
    (0 ≤ ea ∧ ea < 0xC0000) ∨ ∃ t b : Nat, t < 8 ∧ b < 0xC0000 ∧ ea = (0x100000 * (t + 1) + b : Nat) := by
  unfold State.pocketAddr Config.pocketBytes at h
  dsimp only at h
  split at h
  · cases h
  · split at h
    · exact .inl ⟨by omega, by omega⟩
    · split at h
      · cases h
      · exact .inr ⟨ea.toNat / 2 ^ 20 - 1, ea.toNat % 2 ^ 20, by omega, by omega, by omega⟩

/-- Settles O25: an address is of the own Pocket or of a window, and each form is computed. -/
theorem pocketAddresses : Obligations.PocketAddresses := by
  intro s n ea
  refine ⟨pocketAddr_own, fun t b ht hb hwin hgang => ?_, fun m b h => ?_⟩
  · have e := pocketAddr_window (s := s) (n := n) ht hb
    rw [hwin, hgang] at e
    exact_mod_cast e
  · rcases pocketAddr_cases h with ⟨h0, hlt⟩ | ⟨t, c, ht, hc, rfl⟩
    · rw [pocketAddr_own h0 hlt] at h
      cases h
      exact ⟨by omega, .inl ⟨rfl, by omega⟩⟩
    · rw [pocketAddr_window ht hc] at h
      split at h
      · rename_i hopen
        rw [Bool.and_eq_true] at hopen
        cases h
        exact ⟨hc, .inr ⟨t, ht, by push_cast; ring, rfl, hopen.1, hopen.2⟩⟩
      · cases h

end Sys2Proof.Machine
end

section
namespace Sys2Proof.Machine
open Sys2Proof

/-! # Special-register moves -/

/-- A half of the format-table entry that ftix names (R118). -/
def isHalf (p : Nat) : Bool := decide (p = 0x1D ∨ p = 0x1E)

/-- The write of a move that the mode `m` allows or discards, done to `u`; `i` is the entry that ftix names. -/
def State.moveWrites (u : State) (p : Nat) (m : SprMode) (i : Nat) (t : Option W64) : State :=
  match t with
  | none => u
  | some t =>
    if m = .readOnly then u.warn
    else if isHalf p then
      u.modMe fun x =>
        (x.mend .c (damage 5 i)).setEntry i { x.entry i with bits := writeHalf (x.entry i).bits (decide (p = 0x1E)) t }
    else u.writeSpr p t

/-- The read of a move. -/
def State.moveReads (u : State) (rd : Option RegNo) (v : W64) : State :=
  match rd with
  | none => u
  | some d => u.setSreg d v

/-- The access of mode `tm` in task mode and `mm` in monitor mode. -/
def State.sprMode (s : State) (m : SprMode × SprMode) : SprMode := if s.taskMode then m.1 else m.2

theorem sprMove_unassigned {s : State} {p : Nat} (h : sprModes p = none) (rd wr : Option RegNo) :
    sprMove s p rd wr = .trapWord 0x01 := by
  unfold sprMove
  rw [h]

theorem sprMove_denied {s : State} {p : Nat} {m : SprMode × SprMode} (h : sprModes p = some m) (hm : s.sprMode m = .denied)
    (rd wr : Option RegNo) : sprMove s p rd wr = .trapWord 0x03 := by
  unfold sprMove
  rw [h]
  exact if_pos hm

/-- A move of a register that is no half of a table entry completes. -/
theorem sprMove_register {s : State} {p : Nat} {m : SprMode × SprMode} (h : sprModes p = some m) (hm : s.sprMode m ≠ .denied)
    (hp : isHalf p = false) (rd wr : Option RegNo) :
    sprMove s p rd wr = .done ((s.moveWrites p (s.sprMode m) s.me.ftix.toNat (wr.map s.sreg)).moveReads rd
      (s.readSpr s.here p)) := by
  unfold sprMove
  rw [h]
  refine (if_neg hm).trans ((if_neg ?_).trans rfl)
  simpa [isHalf] using hp

/-- A move of a half makes its access to the table first (R123). -/
theorem sprMove_half {s : State} {p : Nat} {m : SprMode × SprMode} (h : sprModes p = some m) (hm : s.sprMode m ≠ .denied)
    (hp : isHalf p = true) (rd wr : Option RegNo) :
    sprMove s p rd wr = unlessDamaged s (if rd.isSome then [damage 5 s.me.ftix.toNat] else [])
      (withTable s (wr.map s.sreg).isSome .plain [(s.me.ftix.toNat, 15)] fun u =>
        .done ((u.moveWrites p (s.sprMode m) s.me.ftix.toNat (wr.map s.sreg)).moveReads rd (s.readSpr s.here p))) := by
  unfold sprMove
  rw [h]
  exact (if_neg hm).trans ((if_pos hp).trans rfl)

/-- What a move comes to: a trap, or its write and its read in a state that differs from `s` in clocks, tags and releases. -/
theorem sprMove_cases (s : State) (p : Nat) (rd wr : Option RegNo) :
    (∃ c, sprMove s p rd wr = .trapWord c) ∨ (∃ c v, sprMove s p rd wr = .trap c v) ∨
    ∃ m u, sprModes p = some m ∧ s.sprMode m ≠ .denied ∧
      (u = s ∨ ∃ tags rels, u = { s.tickSeq s.here s.stream with tags := tags, rels := rels }) ∧
      sprMove s p rd wr = .done ((u.moveWrites p (s.sprMode m) s.me.ftix.toNat (wr.map s.sreg)).moveReads rd
        (s.readSpr s.here p)) := by
  rcases h : sprModes p with _ | m
  · exact .inl ⟨_, sprMove_unassigned h rd wr⟩
  · by_cases hm : s.sprMode m = .denied
    · exact .inl ⟨_, sprMove_denied h hm rd wr⟩
    · refine .inr ?_
      rcases hp : isHalf p with _ | _
      · exact .inr ⟨m, s, rfl, hm, .inl rfl, sprMove_register h hm hp rd wr⟩
      · rw [sprMove_half h hm hp]
        rcases unlessDamaged_cases s (if rd.isSome then [damage 5 s.me.ftix.toNat] else []) _ with e | ⟨v, e⟩
        · rw [e]
          rcases withTable_cases s _ .plain _ [(s.me.ftix.toNat, 15)] with ⟨tags, rels, e⟩ | ⟨c, v, -, e⟩
          · exact .inr ⟨m, _, rfl, hm, .inr ⟨tags, rels, rfl⟩, e⟩
          · exact .inl ⟨c, v, e⟩
        · exact .inl ⟨_, v, e⟩

/-! ## O24: what only the monitor may write -/

/-- The registers that only the monitor writes, and the flags of L, X and S (R12, R74). -/
def Shuttle.monitorOwned (x : Shuttle) :=
  ((x.tvec, x.mscratch, x.shp, x.dbgc), (x.l.dtb, x.l.dtp, x.s.dtb, x.s.dtp), x.l.status, x.x.status, x.s.status)

theorem monitorOwned_of_registers {x y : Shuttle} (h : y.registers = x.registers) : y.monitorOwned = x.monitorOwned := by
  simp only [Shuttle.registers, Prod.mk.injEq] at h
  obtain ⟨⟨_, _, _, htvec, hmscratch, hshp, _, _, _, hdbgc, _⟩, hseqs, ⟨hl, hx, hs, _⟩, _⟩ := h
  have hL := congrFun hseqs .l
  have hS := congrFun hseqs .s
  simp only [Prod.mk.injEq, Shuttle.seq] at hL hS
  simp only [Shuttle.monitorOwned, htvec, hmscratch, hshp, hdbgc, hl, hx, hs, hL.2.1, hL.2.2.1, hS.2.1, hS.2.2.1]

/-- An access moves a clock on and writes no register. -/
theorem registers_tickSeq (s : State) : (s.tickSeq s.here s.stream).me.registers = s.me.registers := by
  have h : (s.tickSeq s.here s.stream).me = _ := shuttle_modShuttle ..
  rw [h]
  exact registers_setSeq rfl

/-- `e` is the issuing shuttle's state `s` but for what task mode may write. -/
def OwnedKept (s e : State) : Prop := e.cur = s.cur ∧ e.me.monitorOwned = s.me.monitorOwned

theorem OwnedKept.modMe {s e : State} (h : OwnedKept s e) {f : Shuttle → Shuttle} (hf : ∀ x, (f x).monitorOwned = x.monitorOwned) :
    OwnedKept s (e.modMe f) := ⟨h.1, by rw [me_modMe, hf, h.2]⟩

theorem OwnedKept.warn {s e : State} (h : OwnedKept s e) (hc : s.stream = .c) : OwnedKept s e.warn := by
  have he : e.stream = .c := (congrArg Prod.snd h.1).trans hc
  exact h.modMe (f := fun x => x.setSeq e.stream { x.seq e.stream with status := (x.seq e.stream).status ||| warnBit })
    fun x => by rw [he]; rfl

theorem OwnedKept.warnIf {s e : State} (h : OwnedKept s e) (hc : s.stream = .c) (b : Bool) : OwnedKept s (e.warnIf b) := by
  cases b
  · exact h
  · exact h.warn hc

theorem OwnedKept.setSreg {s e : State} (h : OwnedKept s e) (d : RegNo) (v : W64) : OwnedKept s (e.setSreg d v) :=
  ite_ok h (h.modMe fun _ => rfl)

/-- The numbers that a move in task mode writes. -/
theorem sprModes_taskWrites {p : Nat} {m : SprMode} (h : sprModes p = some (.readWrite, m)) :
    p ∈ [0x01, 0x03, 0x17, 0x1C, 0x1D, 0x1E, 0x21, 0x24, 0x25, 0x26, 0x27, 0x28, 0x29] := by
  unfold sprModes at h
  split at h
  · simp at h
  · split at h
    · simp at h
    · split at h
      · simp only [List.mem_cons, List.not_mem_nil, or_false]
        omega
      · split at h
        · simp at h
        · split at h <;> simp at h

theorem OwnedKept.writeSpr {s u : State} (h : OwnedKept s u) (hc : s.stream = .c) {p : Nat} {m : SprMode}
    (hp : sprModes p = some (.readWrite, m)) (t : W64) : OwnedKept s (u.writeSpr p t) := by
  have hmem := sprModes_taskWrites hp
  simp only [List.mem_cons, List.not_mem_nil, or_false] at hmem
  have hdpr (d : Shuttle → Vector W64 4) (b : Bool) : OwnedKept s ((u.modMe fun x => { x with dpr := d x }).warnIf b) :=
    (h.modMe (f := fun x => { x with dpr := d x }) fun _ => rfl).warnIf hc b
  rcases hmem with rfl | rfl | rfl | rfl | rfl | rfl | rfl | rfl | rfl | rfl | rfl | rfl | rfl
  · exact h.modMe fun _ => rfl
  · exact h.modMe fun _ => rfl
  · exact h.modMe fun _ => rfl
  · exact (h.modMe (f := fun x => { x with ftix := t.setWidth 6 }) fun _ => rfl).warnIf hc _
  · exact h
  · exact h
  · exact (h.modMe (f := fun x => { x with rwin := (u.windowsFor u.here t).1 }) fun _ => rfl).warnIf hc _
  · exact hdpr _ _
  · exact hdpr _ _
  · exact hdpr _ _
  · exact hdpr _ _
  · exact h.modMe fun _ => rfl
  · exact h.modMe fun _ => rfl

theorem monitorOwned_setEntry (x : Shuttle) (i : Nat) (e : FmtEntry) : (x.setEntry i e).monitorOwned = x.monitorOwned := by
  unfold Shuttle.setEntry
  split <;> rfl

theorem OwnedKept.moveWrites {s u : State} (h : OwnedKept s u) (hc : s.stream = .c) {p : Nat} {m : SprMode × SprMode}
    (hp : sprModes p = some m) (hm : m.1 ≠ .denied) (i : Nat) (t : Option W64) : OwnedKept s (u.moveWrites p m.1 i t) := by
  unfold State.moveWrites
  split
  · exact h
  · split
    · exact h.warn hc
    · split
      · exact h.modMe fun _ => monitorOwned_setEntry ..
      · rcases m with ⟨tm, mm⟩
        cases tm with
        | denied => exact absurd rfl hm
        | readOnly => contradiction
        | readWrite => exact h.writeSpr hc hp _

theorem OwnedKept.moveReads {s u : State} (h : OwnedKept s u) (rd : Option RegNo) (v : W64) : OwnedKept s (u.moveReads rd v) := by
  cases rd
  · exact h
  · exact h.setSreg _ _

/-- No move in task mode changes them. -/
theorem monitorOwned_sprMove {s t : State} (hc : s.stream = .c) (ht : s.taskMode = true) {p : Nat} {rd wr : Option RegNo}
    (h : runC s (sprMove s p rd wr) = .next t) : t.me.monitorOwned = s.me.monitorOwned := by
  have trapped {c : BitVec 8} {v : W64} (h : trap s c v = .next t) : t.me.monitorOwned = s.me.monitorOwned := by
    obtain rfl : s.takeTrap s.here s.stream c v = t := Host.Outcome.next.inj h
    exact monitorOwned_of_registers (registers_deliverTrap ..)
  rcases sprMove_cases s p rd wr with ⟨c, e⟩ | ⟨c, v, e⟩ | ⟨m, u, hp, hm, hu, e⟩ <;> rw [e] at h
  · exact trapped h
  · exact trapped h
  · have hmode : s.sprMode m = m.1 := if_pos ht
    have hkept : OwnedKept s u := by
      rcases hu with rfl | ⟨tags, rels, rfl⟩
      · exact ⟨rfl, rfl⟩
      · exact ⟨rfl, monitorOwned_of_registers (registers_tickSeq s)⟩
    have heff := (hkept.moveWrites hc hp (hmode ▸ hm) s.me.ftix.toNat (wr.map s.sreg)).moveReads rd (s.readSpr s.here p)
    rw [hmode] at h
    obtain ⟨-, hregs⟩ := runC_done_frame (congrArg Prod.fst heff.1) h
    rw [monitorOwned_of_registers hregs, heff.2]

/-- Settles O24. -/
theorem monitorRegistersKept : Obligations.MonitorRegistersKept := by
  intro d a p s t hc ht h
  have hkept : t.me.monitorOwned = s.me.monitorOwned := by
    rcases h with h | h <;> exact monitorOwned_sprMove hc ht h
  simp only [Shuttle.monitorOwned, Prod.mk.injEq] at hkept
  obtain ⟨⟨htvec, hmscratch, hshp, hdbgc⟩, ⟨hldtb, hldtp, hsdtb, hsdtp⟩, hl, hx, hs⟩ := hkept
  exact ⟨htvec, hmscratch, hshp, hdbgc, hldtb, hldtp, hsdtb, hsdtp, hl, hx, hs⟩

end Sys2Proof.Machine
end

section
namespace Sys2Proof.Machine
open Sys2Proof

/-! # O10 and O11: reset and scalar registers -/

theorem shuttle_reset (n : ShNo) : State.reset.shuttle n = Shuttle.reset n.toNat := by
  simp [State.shuttle, State.reset]

/-- C of a shuttle at reset stands in monitor mode (R22). -/
theorem mon_reset (n : Nat) : (Shuttle.reset n).mon = true := by
  simp [Shuttle.mon, Shuttle.reset, Seq.reset]

/-- Settles O10: memory is empty, and every shuttle is the shuttle at reset. -/
theorem resetState : Obligations.ResetState :=
  ⟨reset_ok, fun n => ⟨by rw [shuttle_reset, mon_reset], by rw [shuttle_reset]; rfl⟩⟩

/-- Settles O11 by what a scalar register reads after a write. -/
theorem scalarRegisters : Obligations.ScalarRegisters :=
  fun s d r v => ⟨rfl, rfl, sreg_setSreg s d r v⟩

end Sys2Proof.Machine
end

section
namespace Sys2Proof.Machine
open Sys2Proof

/-! # O3: fetch and decode traps -/

/-- The turn of a sequencer that issues, passes nothing over and finds no instruction takes the trap of its fetch. -/
theorem dueIssue_of_fetch_error {s : State} (hi : Issues s) (hf : s.flagged = false) {e : BitVec 8 × W64}
    (he : s.fetchInstr = .error e) : s.dueIssue = .idle (s.takeTrap s.here s.stream e.1 e.2) := by
  have hstep : (if decide (s.stream = .c) && s.taskMode && !s.me.frozen then s.me.stepWaits.find? (·.due) else none) = none := by
    split
    · rename_i h
      simp only [Bool.and_eq_true, decide_eq_true_eq] at h
      exact List.find?_eq_none.mpr fun w hw => by simp [hi.2 h.1.1 h.1.2 w hw]
    · rfl
  unfold State.dueIssue
  rw [hstep, he]
  simp [hi.1, hf]

/-- With the agenda empty that turn is the step. -/
theorem step_of_fetch_error {s : State} (ha : s.agenda = []) (hi : Issues s) (hf : s.flagged = false) {e : BitVec 8 × W64}
    (he : s.fetchInstr = .error e) : step s = .next (s.turn.takeTrap s.here s.stream e.1 e.2) := by
  have hdue : s.due = s.turn.dueIssue := by
    unfold State.due
    rw [ha]
    rfl
  rw [step, hdue, dueIssue_of_fetch_error (s := s.turn) hi hf he]
  rfl

/-! ## Where a fetch fails -/

theorem fetch_beyond {c : Section} {off : Nat} (h : c.words.length ≤ off / 4) : c.fetch off = .error 0x06 := if_pos h

theorem fetch_bad {c : Section} {off : Nat} (h : off / 4 < c.words.length) (hb : c.bad.contains (off / 4) = true) :
    c.fetch off = .error 0x07 := (if_neg (Nat.not_le.mpr h)).trans (if_pos hb)

/-- A section without errors in its words is fetched from without error 0x07. -/
theorem fetch_ne_bad {c : Section} (h : c.bad = []) (off : Nat) : c.fetch off ≠ .error 0x07 := by
  unfold Section.fetch
  rw [h]
  split
  · simp
  · simp

/-- In a later iteration of a stream's loop words come from the loop buffer (R88). -/
theorem fetchSection_bad {s : State} (hst : s.stream ≠ .c) (hr : s.mySeq.loops.replays s.pc = true) : s.fetchSection.bad = [] := by
  unfold State.fetchSection
  rw [if_pos (by simp [hst, hr])]

section
variable {s : State}

theorem fetchInstr_of_error {c : BitVec 8} (h : s.fetchSection.fetch s.pc.toNat = .error c) :
    s.fetchInstr = .error (c, s.pc.setWidth 64) := by
  unfold State.fetchInstr
  simp only [h, BitVec.ofNat_toNat]

variable {w : W32} (hw : s.fetchSection.fetch s.pc.toNat = .ok w)
include hw

theorem fetchInstr_illegal (h : decodeRow s.stream w = .error .illegal) : s.fetchInstr = .error (0x01, w.setWidth 64) := by
  unfold State.fetchInstr
  simp only [hw, h]

theorem fetchInstr_wrongStream (h : decodeRow s.stream w = .error .wrongStream) :
    s.fetchInstr = .error (0x02, w.setWidth 64) := by
  unfold State.fetchInstr
  simp only [hw, h]

theorem fetchInstr_monitorOnly {r : Row} (h : decodeRow s.stream w = .ok r) (hm : r.monitorOnly = true)
    (ht : s.taskMode = true) : s.fetchInstr = .error (0x03, w.setWidth 64) := by
  unfold State.fetchInstr
  simp only [hw, h]
  exact if_pos (by simp [hm, ht])

theorem fetchInstr_steps {r : Row} (h : decodeRow s.stream w = .ok r) (hm : r.monitorOnly = false ∨ s.taskMode = false)
    {e : BitVec 8 × Nat} (he : s.fetchSection.fetchSteps r.steps (s.pc.toNat + 4) = .error e) :
    s.fetchInstr = .error (e.1, BitVec.ofNat 64 e.2) := by
  unfold State.fetchInstr
  simp only [hw, h]
  exact (if_neg (by rcases hm with h | h <;> simp [h])).trans (by rw [he])

end

/-- Settles O3: each of the outcomes of a fetch is one error of `fetchInstr`, which the step traps. -/
theorem fetchTraps : Obligations.FetchTraps := by
  intro s ha hi hf
  have traps {c : BitVec 8} {v : W64} (h : s.fetchInstr = .error (c, v)) := step_of_fetch_error ha hi hf h
  refine ⟨fun hst hr => fetch_ne_bad (fetchSection_bad hst hr), fun h => traps (fetchInstr_of_error (fetch_beyond h)),
    fun h hb => traps (fetchInstr_of_error (fetch_bad h hb)), fun w hw => ⟨fun h => traps (fetchInstr_illegal hw h),
    fun h => traps (fetchInstr_wrongStream hw h), fun r hr => ⟨fun hm ht => traps (fetchInstr_monitorOnly hw hr hm ht),
    fun hm e he => traps (fetchInstr_steps hw hr hm he)⟩⟩⟩

end Sys2Proof.Machine
end

section
namespace Sys2Proof.Machine
open Sys2Proof

/-! # O23: what writes of special registers leave -/

theorem me_warn (s : State) : s.warn.me = s.me.setSeq s.stream { s.mySeq with status := s.mySeq.status ||| warnBit } :=
  me_modMySeq s fun q => { q with status := q.status ||| warnBit }

/-- WARN is a flag of the issuing sequencer: what no sequencer holds stays (R12). -/
theorem me_warnIf_of_setSeq {α : Type} {f : Shuttle → α} (hf : ∀ x st q, f (x.setSeq st q) = f x) (s : State) (b : Bool) :
    f (s.warnIf b).me = f s.me := by
  cases b
  · rfl
  · exact (congrArg f (me_warn s)).trans (hf ..)

/-- The bits of R13 and R78 that a 1 clears. -/
theorem w1cBits_getLsbD (b : Nat) : w1cBits.getLsbD b = (decide (b < 6) || decide (b = 7) || decide (b = 8)) := by
  rcases Nat.lt_or_ge b 64 with h | h
  · exact (by decide : ∀ b < 64, w1cBits.getLsbD b = (decide (b < 6) || decide (b = 7) || decide (b = 8))) b h
  · rw [BitVec.getLsbD_of_ge _ _ h, eq_comm, decide_eq_false (by omega), decide_eq_false (by omega), decide_eq_false (by omega)]
    rfl

theorem clearFlags_getLsbD (status t : W64) (b : Nat) : (clearFlags status t).getLsbD b =
    (status.getLsbD b && !(t.getLsbD b && (decide (b < 6) || decide (b = 7) || decide (b = 8)))) := by
  have hb : b < 64 ∨ status.getLsbD b = false := (Nat.lt_or_ge b 64).imp_right (BitVec.getLsbD_of_ge _ _)
  rw [← w1cBits_getLsbD, clearFlags, BitVec.getLsbD_and, BitVec.getLsbD_not, BitVec.getLsbD_and]
  rcases hb with h | h <;> simp [h]

/-- A write of a loop index (R11). -/
theorem writeSpr_index (s : State) {j : Nat} (hj : j < 6) (t : W64) :
    s.writeSpr (4 + j) t = s.modMe fun x => { x with c := x.c.setK j (t.setWidth 32) } := by
  interval_cases j <;> rfl

theorem level_setLevel (u : LoopUnit) {j : Nat} (hj : j < 6) (l : Level) (i : Nat) :
    (u.setLevel j l).level i = if i = j then l else u.level i := by
  unfold LoopUnit.setLevel LoopUnit.level
  rw [dif_pos hj]
  by_cases hi : i < 6
  · simp only [dif_pos hi, Vector.getElem_set, eq_comm]
  · have : i ≠ j := by omega
    simp [hi, this]

/-- Distinct powers of 2 add up to the number whose bits they are. -/
theorem sum_two_pow_testBit (p : Nat → Bool) (n : Nat) :
    let v := ((List.range n).filter p).foldl (fun a t => a + 2 ^ t) 0
    v < 2 ^ n ∧ ∀ b, v.testBit b = (decide (b < n) && p b) := by
  induction n with
  | zero => simp
  | succ n ih =>
    obtain ⟨hlt, hbit⟩ := ih
    dsimp only
    rw [List.range_succ, List.filter_append, List.foldl_append]
    generalize ((List.range n).filter p).foldl (fun a t => a + 2 ^ t) 0 = v at *
    have hpow : 2 ^ (n + 1) = 2 ^ n + 2 ^ n := by ring
    rcases hp : p n with _ | _
    · simp only [List.filter_cons, hp, List.filter_nil, List.foldl_nil, Bool.false_eq_true, if_false]
      refine ⟨by omega, fun b => ?_⟩
      by_cases hb : b = n
      · simp [hbit, hb, hp]
      · simp [hbit, show b < n + 1 ↔ b < n by omega]
    · simp only [List.filter_cons, hp, List.filter_nil, List.foldl_cons, List.foldl_nil, if_true]
      refine ⟨by omega, fun b => ?_⟩
      rw [Nat.add_comm]
      rcases Nat.lt_trichotomy b n with hb | rfl | hb
      · rw [Nat.testBit_two_pow_add_gt hb, hbit, decide_eq_true hb, decide_eq_true (by omega)]
      · rw [Nat.testBit_two_pow_add_eq, hbit]
        simp [hp]
      · rw [Nat.testBit_lt_two_pow (Nat.lt_of_lt_of_le (by omega : 2 ^ n + v < 2 ^ (n + 1)) (Nat.pow_le_pow_right (by omega) hb))]
        simp; omega

/-- The windows open after a write of rwin (R193). -/
theorem windowsFor_getLsbD (s : State) (n : ShNo) (t : W64) (b : Nat) : (s.windowsFor n t).1.getLsbD b = true ↔
    b < 8 ∧ b ≠ n.toNat % 8 ∧ t.getLsbD b = true ∧ s.sameGang n (loomMate n b) = true := by
  unfold State.windowsFor
  dsimp only
  obtain ⟨-, hbit⟩ := sum_two_pow_testBit
    (fun k => (decide (k ≠ n.toNat % 8) && s.sameGang n (loomMate n k)) && t.getLsbD k) 8
  rw [List.filter_filter, BitVec.getLsbD_ofNat, hbit]
  simp only [Bool.and_eq_true, decide_eq_true_eq]
  constructor
  · tauto
  · rintro ⟨h8, hne, ht, hg⟩
    exact ⟨by omega, h8, ⟨hne, hg⟩, ht⟩

/-- WARN stands after a write that is discarded. -/
theorem warn_status {s : State} (h : s.stream = .c) : s.warn.me.c.status.getLsbD 8 = true := by
  rw [me_warn, h]
  show (s.mySeq.status ||| warnBit).getLsbD 8 = true
  simp [warnBit]

/-- Settles O23, register by register: `writeSpr` is the update that the statement names. -/
theorem specialRegisterWrites : Obligations.SpecialRegisterWrites := by
  intro s t
  have put {α : Type} (g : Shuttle → α) {p : Nat} {f : Shuttle → Shuttle} {v : α} (h : s.writeSpr p t = s.modMe f)
      (hv : g (f s.me) = v) : g (s.writeSpr p t).me = v := by rw [h, me_modMe, hv]
  have hrpc {p : Nat} {b : Bool} {f : Shuttle → Shuttle} (g : Shuttle → W32)
      (h : s.writeSpr p t = if b then s.modMe f else s.warn) (hg : ∀ x st q, g (x.setSeq st q) = g x) :
      (b = true → g (s.writeSpr p t).me = g (f s.me)) ∧
        (b = false → g (s.writeSpr p t).me = g s.me ∧ (s.stream = .c → (s.writeSpr p t).me.c.status.getLsbD 8 = true)) := by
    refine ⟨fun hb => ?_, fun hb => ?_⟩
    · rw [h, if_pos hb, me_modMe]
    · rw [h, hb]
      exact ⟨me_warnIf_of_setSeq hg s true, warn_status⟩
  have hftix : (s.writeSpr 0x1C t).me.ftix = t.setWidth 6 :=
    (me_warnIf_of_setSeq (f := Shuttle.ftix) setSeq_ftix _ _).trans (congrArg Shuttle.ftix (me_modMe ..))
  have hrwin : (s.writeSpr 0x21 t).me.rwin = (s.windowsFor s.here t).1 :=
    (me_warnIf_of_setSeq (f := Shuttle.rwin) setSeq_rwin _ _).trans (congrArg Shuttle.rwin (me_modMe ..))
  have cleared {g : Shuttle → W64} {p : Nat} {f : Shuttle → Shuttle} (h : s.writeSpr p t = s.modMe f)
      (hf : g (f s.me) = clearFlags (g s.me) t) (b : Nat) : (g (s.writeSpr p t).me).getLsbD b =
        ((g s.me).getLsbD b && !(t.getLsbD b && (decide (b < 6) || decide (b = 7) || decide (b = 8)))) := by
    rw [put g h hf, clearFlags_getLsbD]
  refine ⟨put (·.lnk) rfl rfl, put (·.bor) rfl rfl, put (·.tvec) rfl rfl, put (·.epc) rfl rfl, put (·.ecause) rfl rfl,
    put (·.eval) rfl rfl, put (·.esst) rfl rfl, put (·.mscratch) rfl rfl, put (·.gsel) rfl rfl, hftix, put (·.c.dtp) rfl rfl,
    put (·.l.dtp) rfl rfl, put (·.s.dtp) rfl rfl,
    ⟨put (·.c.dtb) rfl rfl, put (·.l.dtb) rfl rfl, put (·.s.dtb) rfl rfl⟩, put (·.dbgc) rfl rfl, put (·.shp) rfl rfl,
    put (·.eaux) rfl rfl,
    ⟨cleared (g := (·.c.status)) rfl rfl, cleared (g := (·.l.status)) rfl rfl, cleared (g := (·.x.status)) rfl rfl,
      cleared (g := (·.s.status)) rfl rfl⟩, fun j hj i => ?_, fun b => ?_, ?_⟩
  · exact put (·.c.loops.level i) (writeSpr_index s hj t) (level_setLevel _ hj _ i)
  · rw [hrwin]
    exact windowsFor_getLsbD s s.here t b
  · have hl := hrpc (p := 0x30) (·.lrpc) rfl setSeq_lrpc
    have hx := hrpc (p := 0x31) (·.xrpc) rfl setSeq_xrpc
    have hs := hrpc (p := 0x32) (·.srpc) rfl setSeq_srpc
    exact ⟨hl.1, hl.2, hx.1, hx.2, hs.1, hs.2⟩

end Sys2Proof.Machine
end

section
namespace Sys2Proof.Machine
open Sys2Proof

/-! # What is seen of a completion (R26, R82, R354) -/

/-! ## Shuttles -/

section
variable (x : Shuttle) (st : Stream)

theorem visible_seq : (x.seq st).visible = x.visible.seq st := by cases st <;> rfl

theorem visible_setSeq (q : Seq) : (x.setSeq st q).visible = x.visible.setSeq st q.visible := by cases st <;> rfl

@[simp] theorem setSeq_seq : x.setSeq st (x.seq st) = x := by cases st <;> rfl

/-- What a sequencer knows, its epoch and its wait are not seen. -/
theorem visible_setSeq_of_visible {q : Seq} (h : q.visible = (x.seq st).visible) : (x.setSeq st q).visible = x.visible := by
  rw [visible_setSeq, h, visible_seq, setSeq_seq]

theorem visible_newEra (k : BitVec 4) : (x.newEra st k).visible = x.visible := by
  unfold Shuttle.newEra
  split
  · rfl
  · exact visible_setSeq_of_visible x st rfl

theorem visible_learnTokens (t : List Know × List Know) : (x.learnTokens st t).visible = x.visible := by
  have hfold (l : List Know) (q : Seq) : (l.foldl Seq.learnOrder q).visible = q.visible := by
    induction l generalizing q with
    | nil => rfl
    | cons k l ih => exact ih _
  exact visible_setSeq_of_visible x st (hfold ..)

/-- Sequencers resume alike whatever of them is not seen. -/
theorem visible_resumeStreams : x.resumeStreams.visible = x.visible.resumeStreams := by
  have go (q : Seq) (b : Bool) (p : W32) : (if b then { q with pc := p } else q : Seq).visible =
      if b then { q.visible with pc := p } else q.visible := by cases b <;> rfl
  unfold Shuttle.resumeStreams
  rw [show x.visible.sstp = x.sstp from rfl]
  split
  · rfl
  · have h (l m n : Seq) : ({ x with l := l, x := m, s := n, sstp := 0 } : Shuttle).visible =
        { x.visible with l := l.visible, x := m.visible, s := n.visible, sstp := 0 } := rfl
    dsimp only
    rw [h, go, go, go]
    rfl

end

/-- What is seen of the tokens and credits that a word pushes. -/
def Shuttle.pushSeen (x : Shuttle) (st : Stream) (k : BitVec 4) : Shuttle :=
  let y := if k.getLsbD 2 then x.setTokOut st (x.tokOut st ++ [Know.none]) else x
  if k.getLsbD 0 then y.setCrOut st (y.crOut st ++ [Know.none]) else y

theorem visible_pushTokens (x : Shuttle) (st : Stream) (k : BitVec 4) :
    (x.pushTokens st k).visible = x.visible.pushSeen st k := by
  have htok (y : Shuttle) (v : Know) : (y.setTokOut st (y.tokOut st ++ [v])).visible =
      y.visible.setTokOut st (y.visible.tokOut st ++ [Know.none]) := by cases st <;> simp [Shuttle.setTokOut, Shuttle.tokOut, Shuttle.visible]
  have hcr (y : Shuttle) (v : Know) : (y.setCrOut st (y.crOut st ++ [v])).visible =
      y.visible.setCrOut st (y.visible.crOut st ++ [Know.none]) := by cases st <;> simp [Shuttle.setCrOut, Shuttle.crOut, Shuttle.visible]
  unfold Shuttle.pushTokens Shuttle.pushSeen
  dsimp only
  rw [visible_newEra, apply_ite Shuttle.visible, hcr]
  rw [apply_ite Shuttle.visible, htok]

/-- Popping tokens takes them off their counters; what is learned by it is not seen. -/
theorem visible_popTokens (x : Shuttle) (st : Stream) (k : BitVec 4) :
    (x.popTokens st k).visible = (x.takeTokens st k).visible := by
  unfold Shuttle.popTokens
  rw [visible_newEra, visible_learnTokens]

/-- Tokens are no part of a sequencer. -/
theorem takeTokens_setSeq (x : Shuttle) (st st' : Stream) (k : BitVec 4) (q : Seq) :
    (x.setSeq st' q).takeTokens st k = (x.takeTokens st k).setSeq st' q := by
  unfold Shuttle.takeTokens
  rcases k.getLsbD 3 with _ | _ <;> rcases k.getLsbD 1 with _ | _ <;> cases st <;> cases st' <;> rfl

/-! ## States -/

theorem shuttle_visible (s : State) (n : ShNo) : s.visible.shuttle n = (s.shuttle n).visible := by
  simp [State.shuttle, State.visible]

theorem visible_setShuttle (s : State) (n : ShNo) (x : Shuttle) :
    (s.setShuttle n x).visible = s.visible.setShuttle n x.visible := by
  have h : (s.sh.set n.toNat x n.isLt).map Shuttle.visible = (s.sh.map Shuttle.visible).set n.toNat x.visible n.isLt := by
    ext1 i hi
    simp only [Vector.getElem_map, Vector.getElem_set]
    split <;> rfl
  unfold State.setShuttle State.visible
  dsimp only
  rw [h]

/-- Shuttles seen alike, changed to what is seen alike. -/
theorem visible_modShuttle_congr {s t : State} (h : s.visible = t.visible) (n : ShNo) {f g : Shuttle → Shuttle}
    (hfg : ∀ x y, x.visible = y.visible → (f x).visible = (g y).visible) :
    (s.modShuttle n f).visible = (t.modShuttle n g).visible := by
  have hn : (s.shuttle n).visible = (t.shuttle n).visible := by rw [← shuttle_visible, h, shuttle_visible]
  rw [State.modShuttle, visible_setShuttle, State.modShuttle, visible_setShuttle, h, hfg _ _ hn]

/-- A change that is not seen. -/
theorem visible_modShuttle_self {s : State} {n : ShNo} {f : Shuttle → Shuttle} (hf : ∀ x, (f x).visible = x.visible) :
    (s.modShuttle n f).visible = s.visible := by
  rw [State.modShuttle, visible_setShuttle, hf, ← shuttle_visible, setShuttle_shuttle]

theorem visible_bump (s : State) (n : ShNo) : (s.bump n).visible = s.visible :=
  (visible_modShuttle_self (s := s) (n := n) (f := Shuttle.bumped) fun _ => rfl :)

theorem here_of_visible {s t : State} (h : s.visible = t.visible) : s.here = t.here := congrArg (·.cur.1) h

theorem stream_of_visible {s t : State} (h : s.visible = t.visible) : s.stream = t.stream := congrArg (·.cur.2) h

theorem visible_setPc_congr {s t : State} (h : s.visible = t.visible) (p : W32) : (s.setPc p).visible = (t.setPc p).visible := by
  unfold State.setPc State.modMySeq State.modSeq
  rw [here_of_visible h, stream_of_visible h]
  refine visible_modShuttle_congr h _ fun x y hxy => ?_
  have hq : ({ x.seq t.stream with pc := p } : Seq).visible = ({ y.seq t.stream with pc := p } : Seq).visible := by
    have hv : (x.seq t.stream).visible = (y.seq t.stream).visible := by rw [visible_seq, hxy, visible_seq]
    exact congrArg (fun q : Seq => { q with pc := p }) hv
  rw [visible_setSeq, visible_setSeq, hxy, hq]

theorem visible_pushTokens_congr {s t : State} (h : s.visible = t.visible) (st : Stream) (k : BitVec 4) :
    (s.modMe (Shuttle.pushTokens · st k)).visible = (t.modMe (Shuttle.pushTokens · st k)).visible := by
  unfold State.modMe
  rw [here_of_visible h]
  exact visible_modShuttle_congr h _ fun x y hxy => by rw [visible_pushTokens, hxy, visible_pushTokens]

/-- What is seen of a completion, after its tokens are pushed and pc has moved. -/
theorem visible_completed (s0 : State) (cmd : Option Nat) (x : Shuttle) :
    (x.completed s0 cmd).visible = (if s0.stream = .c ∧ s0.taskMode then x.resumeStreams else x).visible := by
  unfold Shuttle.completed
  dsimp only
  split
  · rw [visible_resumeStreams, visible_resumeStreams]
    exact congrArg _ (visible_setSeq_of_visible x _ rfl)
  · exact visible_setSeq_of_visible x _ rfl

/-- An unstepped instruction whose effect is seen as `e` leaves what `leftPopped` says. -/
theorem visible_finishWith {s e e' : State} (hu : Unstepped s) (hhere : e.here = s.here) (hv : e'.visible = e.visible)
    (k : BitVec 4) (t : W32) (cmd : Option Nat) :
    (finishWith s ((e'.modMe (Shuttle.pushTokens · s.stream k)).setPc t) cmd).visible = (s.leftPopped e k t).visible := by
  rw [finishWith_unstepped hu, visible_bump]
  have hpc := visible_setPc_congr (visible_pushTokens_congr hv s.stream k) t
  have hcompleted := visible_modShuttle_congr hpc s.here (f := Shuttle.completed s cmd)
    (g := fun x => if s.stream = .c ∧ s.taskMode then x.resumeStreams else x) fun x y hxy => by
      rw [visible_completed]
      split
      · rw [visible_resumeStreams, hxy, visible_resumeStreams]
      · exact hxy
  refine hcompleted.trans ?_
  unfold State.leftPopped
  dsimp only
  split
  · rw [← hhere]
    rfl
  · exact visible_modShuttle_self fun _ => rfl

/-- An instruction of C completes with effect `e` when what it does is seen as `e`. -/
theorem completesTo_of_visible {i : Instr} {s e e' : State} {t : W32} (hu : Unstepped s) (hx : exec i s = runC s (.doneTo e' t))
    (hv : e'.visible = e.visible) (hhere : e.here = s.here) : CompletesTo i s e 0 t := by
  refine ⟨_, hx, (visible_finishWith hu hhere hv 0 t none).trans ?_⟩
  rw [State.left, modMe_popTokens_zero]

theorem completes_of_visible {i : Instr} {s e e' : State} (hu : Unstepped s) (hx : exec i s = runC s (.done e'))
    (hv : e'.visible = e.visible) (hhere : e.here = s.here) : Completes i s e :=
  completesTo_of_visible hu hx hv hhere

/-- The same of an instruction of L, X or S, after whose pops the effect stands. -/
theorem completesT_of_visible {i : Instr} {s e e' : State} {st : Stream} {k : BitVec 4} {body : State → Eff} (hs : OnT s st k)
    (hc : s.stream ≠ .c) (hx : exec i s = runT s k body) (hbody : body (s.popped k) = .done e')
    (hv : e'.visible = (e.modMe (Shuttle.popTokens · s.stream k)).visible) (hhere : e.here = s.here) : CompletesT i k s e := by
  obtain ⟨rfl, hu, -, hready, htaken⟩ := hs
  refine ⟨_, hx.trans ?_, visible_finishWith hu (e := e.modMe (Shuttle.popTokens · s.stream k)) hhere hv k (s.pc + 4) none⟩
  unfold runT
  rw [if_neg hc, htaken]
  dsimp only
  rw [if_pos hready]
  exact congrArg (Eff.run s k) hbody

end Sys2Proof.Machine
end

section
namespace Sys2Proof.Machine
open Sys2Proof

/-! # O22: special-register moves -/

/-! ## Bits of a format-table entry (R115, R118) -/

theorem entryField_testBit (e : BitVec 128) (lo n j : Nat) :
    (entryField e lo n).testBit j = (decide (j < n) && e.getLsbD (lo + j)) := by
  rw [entryField, Nat.testBit_mod_two_pow, ← Nat.shiftRight_eq_div_pow, Nat.testBit_shiftRight]
  rfl

theorem putEntry_getLsbD (e : BitVec 128) (lo n v : Nat) {j : Nat} (hj : j < 128) : (putEntry e lo n v).getLsbD j =
    if lo ≤ j ∧ j < lo + n then v.testBit (j - lo) else e.getLsbD j := by
  unfold putEntry
  rw [BitVec.getLsbD_or, BitVec.getLsbD_and, BitVec.getLsbD_not, BitVec.getLsbD_ofNat, BitVec.getLsbD_ofNat,
    Nat.testBit_mul_two_pow, Nat.testBit_mul_two_pow, Nat.testBit_two_pow_sub_one, Nat.testBit_mod_two_pow]
  by_cases h1 : lo ≤ j <;> by_cases h2 : j < lo + n
  · simp [hj, h1, h2, show j - lo < n by omega]
  · simp [hj, h1, h2, show ¬ j - lo < n by omega]
  · simp [hj, h1]
  · simp [hj, h1]

/-- The bits that a write of a half takes from the value written: all of the high half, and of the low one those that are
neither HD nor GEN nor reserved. -/
def halfBit (high : Bool) (j : Nat) : Bool :=
  if high then decide (64 ≤ j) else decide (24 ≤ j ∧ j < 32 ∨ 40 ≤ j ∧ j < 43 ∨ 44 ≤ j ∧ j < 64)

/-- The entry between the write of a half and the advance of GEN. -/
def halfWritten (e : BitVec 128) (high : Bool) (v : W64) : BitVec 128 :=
  let m : BitVec 128 := if high then 0xFFFFFFFFFFFFFFFF0000000000000000 else 0xFFFFF700FF000000
  let w : BitVec 128 := if high then v.setWidth 128 <<< 64 else v.setWidth 128
  (e &&& ~~~m) ||| (w &&& m)

theorem halfWritten_getLsbD (e : BitVec 128) (high : Bool) (v : W64) {j : Nat} (hj : j < 128) :
    (halfWritten e high v).getLsbD j = if halfBit high j then v.getLsbD (if high then j - 64 else j) else e.getLsbD j := by
  have hmask : (if high then 0xFFFFFFFFFFFFFFFF0000000000000000 else 0xFFFFF700FF000000 : BitVec 128).getLsbD j = halfBit high j := by
    cases high
    · exact (by decide : ∀ j < 128, (0xFFFFF700FF000000#128).getLsbD j = halfBit false j) j hj
    · exact (by decide : ∀ j < 128, (0xFFFFFFFFFFFFFFFF0000000000000000#128).getLsbD j = halfBit true j) j hj
  have hvalue (h : halfBit high j = true) : (if high then v.setWidth 128 <<< 64 else v.setWidth 128 : BitVec 128).getLsbD j =
      v.getLsbD (if high then j - 64 else j) := by
    cases high
    · simp [hj]
    · have : 64 ≤ j := of_decide_eq_true h
      simp [hj, show ¬ j < 64 by omega]
  unfold halfWritten
  dsimp only
  rw [BitVec.getLsbD_or, BitVec.getLsbD_and, BitVec.getLsbD_and, BitVec.getLsbD_not, hmask]
  rcases h : halfBit high j with _ | _
  · simp [hj]
  · simp [hvalue h]

/-- The write takes no bit of GEN. -/
theorem entryGen_halfWritten (e : BitVec 128) (high : Bool) (v : W64) : entryGen (halfWritten e high v) = entryGen e := by
  refine Nat.eq_of_testBit_eq fun j => ?_
  rw [entryGen, entryGen, entryField_testBit, entryField_testBit]
  by_cases hj : j < 16
  · rw [halfWritten_getLsbD _ _ _ (by omega), if_neg]
    cases high <;> simp [halfBit] <;> omega
  · simp [hj]

theorem writeHalf_getLsbD (e : BitVec 128) (high : Bool) (v : W64) {j : Nat} (hj : j < 128) :
    (writeHalf e high v).getLsbD j =
      if 8 ≤ j ∧ j < 24 then (entryGen e + 1).testBit (j - 8)
      else if halfBit high j then v.getLsbD (if high then j - 64 else j) else e.getLsbD j := by
  rw [show writeHalf e high v = putEntry (halfWritten e high v) 8 16 (entryGen (halfWritten e high v) + 1) from rfl,
    putEntry_getLsbD _ _ _ _ hj, entryGen_halfWritten, halfWritten_getLsbD _ _ _ hj]

/-- GEN advances by 1 (R118). -/
theorem entryGen_writeHalf (e : BitVec 128) (high : Bool) (v : W64) :
    entryGen (writeHalf e high v) = (entryGen e + 1) % 2 ^ 16 := by
  refine Nat.eq_of_testBit_eq fun j => ?_
  rw [entryGen, entryField_testBit, Nat.testBit_mod_two_pow]
  by_cases hj : j < 16
  · rw [writeHalf_getLsbD _ _ _ (by omega), if_pos (by omega), Nat.add_sub_cancel_left]
  · simp [hj]

/-- HD stays (R118). -/
theorem entryHd_writeHalf (e : BitVec 128) (high : Bool) (v : W64) : entryHd (writeHalf e high v) = entryHd e := by
  refine Nat.eq_of_testBit_eq fun j => ?_
  rw [entryHd, entryHd, entryField_testBit, entryField_testBit]
  by_cases hj : j < 4
  · rw [writeHalf_getLsbD _ _ _ (by omega), if_neg (by omega), if_neg]
    cases high <;> simp [halfBit] <;> omega
  · simp [hj]

/-- A write of the high half writes it whole. -/
theorem high_writeHalf (e : BitVec 128) (v : W64) : (writeHalf e true v >>> 64).setWidth 64 = v := by
  refine BitVec.eq_of_getLsbD_eq fun j hj => ?_
  rw [BitVec.getLsbD_setWidth, BitVec.getLsbD_ushiftRight, writeHalf_getLsbD _ _ _ (by omega), if_neg (by omega),
    if_pos (by simp [halfBit])]
  simp [hj]

/-- A write of the low half leaves the high one. -/
theorem low_writeHalf_high (e : BitVec 128) (v : W64) : writeHalf e false v >>> 64 = e >>> 64 := by
  refine BitVec.eq_of_getLsbD_eq fun j _ => ?_
  rw [BitVec.getLsbD_ushiftRight, BitVec.getLsbD_ushiftRight]
  by_cases h : 64 + j < 128
  · rw [writeHalf_getLsbD _ _ _ h, if_neg (by omega), if_neg (by simp [halfBit]; omega)]
  · rw [BitVec.getLsbD_of_ge _ _ (by omega), BitVec.getLsbD_of_ge _ _ (by omega)]

/-- The fields of the low half take the value's bits where it is written, and stay where not. -/
theorem writeHalf_fields (e : BitVec 128) (high : Bool) (v : W64) {j : Nat}
    (hj : 24 ≤ j ∧ j < 32 ∨ 40 ≤ j ∧ j < 43 ∨ 44 ≤ j ∧ j < 64) :
    (writeHalf e high v).getLsbD j = if high then e.getLsbD j else v.getLsbD j := by
  rw [writeHalf_getLsbD _ _ _ (by omega), if_neg (by omega)]
  cases high
  · simp [halfBit, hj]
  · simp [halfBit, show ¬ 64 ≤ j by omega]

end Sys2Proof.Machine
end

section
namespace Sys2Proof.Machine
open Sys2Proof

/-! ## What the table says -/

/-- The numbers beyond the table are not assigned. -/
theorem sprModes_beyond {p : Nat} (h : 0x34 ≤ p) : sprModes p = none := by
  unfold sprModes
  rw [if_neg (by omega), if_neg (by omega), if_neg (by omega), if_neg (by omega), if_neg (by omega)]

/-- The halves of the entry are read and written in both modes. -/
theorem sprModes_half {p : Nat} (h : isHalf p = true) : sprModes p = some (.readWrite, .readWrite) := by
  rcases (of_decide_eq_true h : p = 0x1D ∨ p = 0x1E) with rfl | rfl <;> rfl

/-- shid holds the shuttle's number and its loom (R11, R383). -/
theorem bitsOf_shidOf (n : ShNo) :
    bitsOf (shidOf n) 0 8 = n.toNat ∧ bitsOf (shidOf n) 8 8 = n.toNat / 8 ∧ bitsOf (shidOf n) 16 48 = 0 := by
  have hn : n.toNat < 256 := n.isLt
  have hv : (shidOf n).toNat = n.toNat / 8 * 256 + n.toNat := by
    rw [shidOf, BitVec.toNat_ofNat, Nat.mod_eq_of_lt (by omega)]
  unfold bitsOf
  rw [hv]
  exact ⟨by omega, by omega, by rw [Nat.div_eq_of_lt (by omega)]; rfl⟩

/-! ## Moves in an unmarked shuttle -/

section
variable {s : State}

theorem unlessDamaged_of_unmarked (hs : Unmarked s) (codes : List Nat) (e : Eff) : unlessDamaged s codes e = e := by
  have h : s.me.damaged s.stream codes = none := by
    unfold Shuttle.damaged
    rw [hs]
    simp
  unfold unlessDamaged
  rw [h]

/-- An access moves a clock on, which is not seen. -/
theorem visible_tickSeq (s : State) (n : ShNo) (st : Stream) : (s.tickSeq n st).visible = s.visible :=
  visible_modShuttle_self fun x => visible_setSeq_of_visible x st rfl

/-- An access to the table that is made leaves a state seen as before. -/
theorem withTable_of_made (hs : Unmarked s) {write : Bool} {kind : AccKind} {locs : List (Nat × Nat)} {s1 : State}
    (h : Made (withTable s write kind locs) s1) :
    (∀ f, withTable s write kind locs f = f s1) ∧ s1.visible = s.visible := by
  unfold Made withTable at h
  dsimp only at h
  split at h
  · cases h
  next hrace =>
    rw [unlessDamaged_of_unmarked hs] at h
    obtain rfl := Eff.done.inj h
    refine ⟨fun f => ?_, visible_tickSeq s s.here s.stream⟩
    unfold withTable
    dsimp only
    rw [hrace]
    exact unlessDamaged_of_unmarked hs _ _

/-- Registers seen alike, written alike. -/
theorem visible_setSreg_congr {t : State} (h : s.visible = t.visible) (d : RegNo) (v : W64) :
    (s.setSreg d v).visible = (t.setSreg d v).visible := by
  unfold State.setSreg
  split
  · exact h
  · unfold State.modMe
    rw [here_of_visible h]
    exact visible_modShuttle_congr h _ fun x y hxy =>
      congrArg (fun x : Shuttle => { x.mend .c (damage 0 d.toNat) with sregs := x.sregs.set d.toNat v d.isLt }) hxy

theorem here_setSreg (d : RegNo) (v : W64) : (s.setSreg d v).here = s.here := by
  unfold State.setSreg
  split <;> rfl

theorem here_warnIf (b : Bool) : (s.warnIf b).here = s.here := by cases b <;> rfl

theorem here_writeSpr (p : Nat) (t : W64) : (s.writeSpr p t).here = s.here := by
  unfold State.writeSpr State.writeDpr State.warnIf
  dsimp only
  repeat' split
  all_goals rfl

end

/-- A shuttle without marks has none to mend. -/
theorem mend_of_unmarked {x : Shuttle} (h : x.marked = []) (st : Stream) (code : Nat) : x.mend st code = x := by
  have : x.marked.filter (fun m => decide (m ≠ markOf st code)) = x.marked := by rw [h]; rfl
  unfold Shuttle.mend
  rw [this]

theorem visible_setEntry (x : Shuttle) (i : Nat) (e : FmtEntry) : (x.setEntry i e).visible = x.visible.setEntry i e := by
  unfold Shuttle.setEntry
  split <;> rfl

theorem entry_visible (x : Shuttle) (i : Nat) : x.visible.entry i = x.entry i := rfl

/-- The entry that ftix names, with these bits. -/
def State.putHalf (s : State) (b : BitVec 128) : State :=
  s.modMe fun x => x.setEntry s.me.ftix.toNat { s.me.entry s.me.ftix.toNat with bits := b }

/-- What is seen of the write of a half. -/
theorem visible_moveWrites_half {s u : State} (hs : Unmarked s) (hu : u.visible = s.visible) {p : Nat} (hp : isHalf p = true)
    (t : W64) : (u.moveWrites p .readWrite s.me.ftix.toNat (some t)).visible =
      (s.putHalf (writeHalf (s.me.entry s.me.ftix.toNat).bits (decide (p = 0x1E)) t)).visible := by
  have hme : u.me.visible = s.me.visible := by
    rw [State.me, ← shuttle_visible, hu, here_of_visible hu, shuttle_visible]
    rfl
  have hmarked : u.me.marked = [] := (congrArg Shuttle.marked hme).trans hs
  have hentry : u.me.entry s.me.ftix.toNat = s.me.entry s.me.ftix.toNat := by
    rw [← entry_visible u.me, hme, entry_visible]
  unfold State.moveWrites State.putHalf
  dsimp only
  rw [if_neg (by decide), if_pos hp]
  rw [State.modMe, State.modShuttle, visible_setShuttle, ← State.me, mend_of_unmarked hmarked, hentry, visible_setEntry, hme, hu,
    here_of_visible hu, State.modMe, State.modShuttle, visible_setShuttle, visible_setEntry]
  rfl

/-- What a move of a half reads: that half of the entry (R118). -/
theorem readSpr_half (s : State) {p : Nat} (hp : isHalf p = true) : s.readSpr s.here p =
    if p = 0x1E then ((s.me.entry s.me.ftix.toNat).bits >>> 64).setWidth 64 else (s.me.entry s.me.ftix.toNat).bits.setWidth 64 := by
  rcases (of_decide_eq_true hp : p = 0x1D ∨ p = 0x1E) with rfl | rfl <;> rfl

/-- Moves of a half that makes its access. -/
theorem runC_sprMove_half {s s1 : State} (hs : Unmarked s) {p : Nat} (hp : isHalf p = true) (rd wr : Option RegNo)
    (h : Made (withTable s (wr.map s.sreg).isSome .plain [(s.me.ftix.toNat, 15)]) s1) :
    runC s (sprMove s p rd wr) = runC s (.done ((s1.moveWrites p .readWrite s.me.ftix.toNat (wr.map s.sreg)).moveReads rd
      (s.readSpr s.here p))) := by
  have hmode : s.sprMode (.readWrite, .readWrite) = .readWrite := by unfold State.sprMode; split <;> rfl
  rw [sprMove_half (sprModes_half hp) (by rw [hmode]; decide) hp, unlessDamaged_of_unmarked hs, (withTable_of_made hs h).1, hmode]

/-- Moves of the other registers. -/
theorem runC_sprMove_register {s : State} {p : Nat} {m : SprMode × SprMode} (h : sprModes p = some m)
    (hm : s.sprMode m ≠ .denied) (hp : isHalf p = false) (rd wr : Option RegNo) :
    runC s (sprMove s p rd wr) = runC s (.done ((s.moveWrites p (s.sprMode m) s.me.ftix.toNat (wr.map s.sreg)).moveReads rd
      (s.readSpr s.here p))) := by
  rw [sprMove_register h hm hp]

/-- A write that the mode discards leaves WARN (R12). -/
theorem moveWrites_readOnly (u : State) (p i : Nat) (t : W64) : u.moveWrites p .readOnly i (some t) = u.warn := rfl

theorem moveWrites_register (u : State) {p : Nat} (hp : isHalf p = false) (i : Nat) (t : W64) :
    u.moveWrites p .readWrite i (some t) = u.writeSpr p t := by
  simp [State.moveWrites, hp]

/-- Settles O22: the table, what each number reads as, and each move through what `sprMove` comes to. -/
theorem specialRegisterMoves : Obligations.SpecialRegisterMoves := by
  intro d a p s hs
  obtain ⟨hc, hu, hmarks⟩ := hs
  dsimp only
  refine ⟨fun p => ?_, ⟨rfl, rfl, rfl, rfl, Iff.rfl, fun j hj => ?_, rfl, rfl, rfl, rfl, rfl, rfl, rfl, rfl, (bitsOf_shidOf _).1,
    (bitsOf_shidOf _).2.1, (bitsOf_shidOf _).2.2, rfl, rfl, rfl, rfl, rfl, rfl, rfl, rfl, rfl, rfl, rfl, rfl, rfl, rfl, rfl,
    rfl, rfl, rfl, rfl, rfl, rfl, rfl, rfl, rfl, fun b => ?_⟩, fun h => ?_, fun tm mm h => ⟨fun hm => ?_, fun hp hp' hm => ?_,
      fun hp hp' hm => ?_, fun hm => ?_, fun hp => ⟨fun hfree => ?_, fun hfree => ?_⟩⟩⟩
  · rcases Nat.lt_or_ge p 0x34 with hlt | hge
    · interval_cases p <;> rfl
    · have hnot (l : List Nat) (hl : ∀ q ∈ l, q < 0x34) : p ∉ l := fun hmem => absurd (hl p hmem) (by omega)
      rw [sprModes_beyond hge, if_neg (hnot _ (by decide)), if_neg (hnot _ (by decide)), if_neg (hnot _ (by decide)),
        if_neg (hnot _ (by decide)), if_neg (by omega)]
  · interval_cases j <;> rfl
  · show (s.me.sstp.setWidth 64).getLsbD b = _
    rw [BitVec.getLsbD_setWidth]
    rcases Nat.lt_or_ge b 64 with hb | hb
    · simp [hb]
    · rw [BitVec.getLsbD_of_ge _ _ (by omega)]; simp
  · have htrap (rd wr : Option RegNo) : runC s (sprMove s p.toNat rd wr) = trapWord s 0x01 := by
      rw [sprMove_unassigned h]; rfl
    exact ⟨htrap _ _, htrap _ _, htrap _ _⟩
  · have htrap (rd wr : Option RegNo) : runC s (sprMove s p.toNat rd wr) = trapWord s 0x03 := by
      rw [sprMove_denied h hm]; rfl
    exact ⟨htrap _ _, htrap _ _, htrap _ _⟩
  · have hhalf : isHalf p.toNat = false := decide_eq_false (by omega)
    exact completes_of_visible hu (runC_sprMove_register h hm hhalf _ _) rfl (here_setSreg ..)
  · have hhalf : isHalf p.toNat = false := decide_eq_false (by omega)
    have hmode : s.sprMode (tm, mm) = .readWrite := hm
    have hmove (rd : Option RegNo) := runC_sprMove_register h (by rw [hmode]; decide) hhalf rd (some a)
    simp only [hmode, Option.map_some, moveWrites_register s hhalf] at hmove
    exact ⟨completes_of_visible hu (hmove none) rfl (here_writeSpr ..),
      completes_of_visible hu (hmove (some d)) rfl ((here_setSreg ..).trans (here_writeSpr ..))⟩
  · have hhalf : isHalf p.toNat = false := by
      rcases hp : isHalf p.toNat with _ | _
      · rfl
      · rw [sprModes_half hp] at h
        cases h
        split at hm <;> cases hm
    have hmode : s.sprMode (tm, mm) = .readOnly := hm
    have hmove (rd : Option RegNo) := runC_sprMove_register h (by rw [hmode]; decide) hhalf rd (some a)
    simp only [hmode, Option.map_some, moveWrites_readOnly] at hmove
    exact ⟨completes_of_visible hu (hmove none) rfl (here_warnIf (s := s) true),
      completes_of_visible hu (hmove (some d)) rfl ((here_setSreg ..).trans (here_warnIf (s := s) true))⟩
  · obtain ⟨s1, hmade⟩ := hfree
    have hhalf : isHalf p.toNat = true := decide_eq_true hp
    have hmove := runC_sprMove_half hmarks hhalf (some d) none hmade
    rw [readSpr_half s hhalf] at hmove
    exact completes_of_visible hu hmove (visible_setSreg_congr (withTable_of_made hmarks hmade).2 d _) (here_setSreg ..)
  · obtain ⟨s1, hmade⟩ := hfree
    have hhalf : isHalf p.toNat = true := decide_eq_true hp
    have hmove (rd : Option RegNo) := runC_sprMove_half hmarks hhalf rd (some a) hmade
    simp only [readSpr_half s hhalf, Option.map_some] at hmove
    have hwrite := visible_moveWrites_half hmarks (withTable_of_made hmarks hmade).2 hhalf (s.sreg a)
    refine ⟨writeHalf (s.me.entry s.me.ftix.toNat).bits (decide (p.toNat = 0x1E)) (s.sreg a),
      completes_of_visible hu (hmove none) hwrite rfl,
      completes_of_visible hu (hmove (some d)) (visible_setSreg_congr hwrite d _) (here_setSreg ..),
      entryGen_writeHalf .., entryHd_writeHalf .., fun hhigh => ?_, fun hlow => ?_, fun j hj => ?_⟩
    · rw [decide_eq_true hhigh, high_writeHalf]
    · rw [decide_eq_false hlow, low_writeHalf_high]
    · rw [writeHalf_fields _ _ _ hj]
      simp only [decide_eq_true_eq]

end Sys2Proof.Machine
end

section
namespace Sys2Proof.Machine
open Sys2Proof

/-! # System instructions (R25, R95, R182, R260, R351, R376) -/

/-! ## What operations of the yoke leave alone -/

/-- What every step of a fold keeps, the fold keeps. -/
theorem foldl_kept {α β γ : Type} {π : α → γ} {f : α → β → α} (h : ∀ a b, π (f a b) = π a) (l : List β) (a : α) :
    π (l.foldl f a) = π a :=
  List.foldlRecOn (motive := fun b => π b = π a) l f rfl fun b hb x _ => (h b x).trans hb

section
variable (s : State)

/-- A message signalled to a core changes what is signalled alone. -/
theorem sendMsi_eq (ident : Nat) : ∃ m h, s.sendMsi ident = { s with msis := m, harts := h } := by
  unfold State.sendMsi
  split
  · exact ⟨s.msis, s.harts, rfl⟩
  · exact ⟨_, _, rfl⟩

/-- A control block's field lies in memory. -/
theorem setCb_eq (q off lo n v : Nat) : ∃ m, s.setCb q off lo n v = { s with mem := m } := by
  unfold State.setCb
  split
  · exact ⟨_, rfl⟩
  · exact ⟨s.mem, rfl⟩

theorem msiv_eq (q : Nat) : ∃ m h, s.msiv q = { s with msis := m, harts := h } := sendMsi_eq s _

theorem haltQueue_eq (q : Nat) : ∃ mem m h, s.haltQueue q = { s with mem := mem, msis := m, harts := h } := by
  obtain ⟨mem, hmem⟩ := setCb_eq s q 0x28 3 1 1
  obtain ⟨m, h, hmsi⟩ := msiv_eq { s with mem := mem } q
  exact ⟨mem, m, h, by rw [State.haltQueue, hmem, hmsi]⟩

/-- A message to another package waits to be sent. -/
theorem post_eq (p : BitVec 8) (vc : BitVec 2) (m : Mail) :
    ∃ c l, s.post p vc m = { s with channels := c, posted := l } := by
  unfold State.post
  split
  · exact ⟨s.channels, s.posted, rfl⟩
  · exact ⟨_, _, rfl⟩

end

/-! ## Abort tokens -/

/-- The launches and the requests to the yoke. -/
def State.asked (s : State) : List Launch × List Request := (s.launches, s.requests)

section
variable (s : State)

theorem Touched.asked {s t : State} {n : ShNo} (h : Touched s n t) : t.asked = s.asked := by
  obtain ⟨y, k, rfl⟩ := h
  rfl

theorem asked_dropAwayLines (tid : Nat) : (s.dropAwayLines tid).asked = s.asked := by
  unfold State.dropAwayLines
  exact (foldl_kept (π := State.asked) (by intros; rfl) _ _).trans rfl

/-- Stopping a task touches its shuttles, its lines and itself. -/
theorem asked_stopTask (tid : Nat) : (s.stopTask tid).asked = s.asked := by
  unfold State.stopTask
  split
  · rfl
  next t _ =>
    refine (asked_dropAwayLines _ tid).trans ?_
    refine Eq.trans rfl (foldl_kept (π := State.asked) (fun u n => ?_) t.shuttles s)
    repeat' split
    all_goals rfl

theorem asked_haltQueue (q : Nat) : (s.haltQueue q).asked = s.asked := by
  obtain ⟨mem, m, h, heq⟩ := haltQueue_eq s q
  rw [heq]
  rfl

theorem asked_tellGang (m : GangMsg) : (s.tellGang m).asked = s.asked := by
  unfold State.tellGang
  refine foldl_kept (π := State.asked) (fun u p => ?_) _ _
  obtain ⟨c, l, heq⟩ := post_eq u p 0 (.gang m)
  rw [heq]
  rfl

theorem asked_tryAgree : s.tryAgree.asked = s.asked := by
  unfold State.tryAgree
  split
  · rfl
  · dsimp only
    split
    · obtain ⟨m, h, heq⟩ := sendMsi_eq _ _
      rw [heq]
      rfl
    · rfl

theorem asked_stopTasks (l : List Nat) : (l.foldl State.stopTask s).asked = s.asked :=
  foldl_kept (π := State.asked) asked_stopTask l s

theorem asked_haltQueues (l : List Queue) : (l.foldl (fun s x => s.haltQueue x.q) s).asked = s.asked := by
  refine foldl_kept (π := State.asked) (fun v x => ?_) l s
  exact asked_haltQueue v x.q

/-- An abort token stops every launch, and asks for the end of them (R376). -/
theorem asked_raiseToken (reason : BitVec 16) (spread : Bool) : (s.raiseToken reason spread).asked =
    (s.launches.map fun l => { l with stopped := true }, s.requests ++ [{ kind := .token, queue := 0, lid := none }]) := by
  unfold State.raiseToken
  dsimp only
  rw [asked_tryAgree, asked_tellGang]
  generalize hu : List.foldl (fun (s : State) (x : Queue) => s.haltQueue x.q) _ _ = u
  have hkept : State.asked u = (s.launches.map fun l => { l with stopped := true }, s.requests) := by
    rw [← hu, asked_haltQueues, asked_stopTasks]
    rfl
  obtain ⟨hl, hr⟩ := Prod.mk.inj hkept
  split
  · rw [asked_tellGang, ← hl, ← hr]
    rfl
  · rw [← hl, ← hr]
    rfl

end

/-! ## Changes of the issuing sequencer -/

theorem modMySeq_congr {s : State} {f g : Seq → Seq} (h : f s.mySeq = g s.mySeq) : s.modMySeq f = s.modMySeq g :=
   congrArg (fun q => s.setShuttle s.here ((s.shuttle s.here).setSeq s.stream q)) h

/-- Pops leave of the sequencer all that is seen. -/
theorem visible_seq_popTokens (x : Shuttle) (st : Stream) (k : BitVec 4) :
    ((x.popTokens st k).seq st).visible = (x.seq st).visible := by
  have htake : (x.takeTokens st k).seq st = x.seq st := by
    unfold Shuttle.takeTokens
    rcases k.getLsbD 3 with _ | _ <;> rcases k.getLsbD 1 with _ | _ <;> cases st <;> rfl
  rw [visible_seq, visible_popTokens, ← visible_seq, htake]

/-- A change of the sequencer after the pops is seen as one before them. -/
theorem visible_modMySeq_popped (s : State) (k : BitVec 4) {f : Seq → Seq}
    (hf : ∀ q r : Seq, q.visible = r.visible → (f q).visible = (f r).visible) :
    ((s.popped k).modMySeq f).visible = ((s.modMySeq f).modMe (Shuttle.popTokens · s.stream k)).visible := by
  have hboth (f g : Shuttle → Shuttle) : (s.modShuttle s.here f).modShuttle s.here g = s.modShuttle s.here (g ∘ f) := by
    simp [State.modShuttle, State.setShuttle, State.shuttle]
  have hseen (x : Shuttle) : ((x.popTokens s.stream k).setSeq s.stream (f ((x.popTokens s.stream k).seq s.stream))).visible =
      ((x.setSeq s.stream (f (x.seq s.stream))).popTokens s.stream k).visible := by
    rw [visible_setSeq, visible_popTokens, visible_popTokens, takeTokens_setSeq, visible_setSeq, hf _ _ (visible_seq_popTokens x _ k)]
  refine ((congrArg State.visible (hboth (Shuttle.popTokens · s.stream k) _)).trans ?_).trans
    (congrArg State.visible (hboth (fun x => x.setSeq s.stream (f (x.seq s.stream))) _)).symm
  rw [State.modShuttle, State.modShuttle, visible_setShuttle, visible_setShuttle]
  exact congrArg (s.visible.setShuttle s.here) (hseen _)

/-- WARN after the pops is seen as WARN before them. -/
theorem visible_warnIf_popped (s : State) (k : BitVec 4) (b : Bool) :
    ((s.popped k).warnIf b).visible = ((s.warnIf b).modMe (Shuttle.popTokens · s.stream k)).visible := by
  cases b
  · rfl
  · exact visible_modMySeq_popped s k (f := fun q => { q with status := q.status ||| warnBit }) fun q r h =>
      congrArg (fun q : Seq => { q with status := q.status ||| warnBit }) h

theorem visible_warnIf_congr {s t : State} (h : s.visible = t.visible) (b : Bool) : (s.warnIf b).visible = (t.warnIf b).visible := by
  cases b
  · exact h
  · unfold State.warnIf State.warn State.orStatus State.modSeq
    rw [if_pos rfl, if_pos rfl, here_of_visible h, stream_of_visible h]
    refine visible_modShuttle_congr h _ fun x y hxy => ?_
    have hq : (x.seq t.stream).visible = (y.seq t.stream).visible := by rw [visible_seq, hxy, visible_seq]
    rw [visible_setSeq, visible_setSeq, hxy]
    exact congrArg (fun q : Seq => y.visible.setSeq t.stream { q with status := q.status ||| warnBit }) hq

/-! ## Breakpoints, modes and ends of streams -/

section
variable {s : State} {k : BitVec 4}

/-- The trap of an instruction whose tokens are ready is taken before its pops. -/
theorem runT_trap {cause : BitVec 8} {eval : W64} (h : s.stream = .c ∨ OnT s s.stream k) :
    runT s k (fun _ => .trap cause eval) = trap s cause eval := by
  unfold runT
  split
  · rfl
  next hc =>
    obtain ⟨-, -, -, hready, htaken⟩ := h.resolve_left hc
    rw [htaken]
    exact if_pos hready

/-- An instruction of L, X or S that changes its sequencer alone, and may set WARN by its status. -/
theorem completesT_modMySeq {i : Instr} {f : Seq → Seq} {b : W64 → Bool} (hs : OnT s s.stream k) (hc : s.stream ≠ .c)
    (hx : exec i s = runT s k fun s => .done ((s.modMySeq f).warnIf (b s.mySeq.status)))
    (hf : ∀ q r : Seq, q.visible = r.visible → (f q).visible = (f r).visible) :
    CompletesT i k s ((s.modMySeq f).warnIf (b s.mySeq.status)) := by
  refine completesT_of_visible hs hc hx rfl ?_ (here_warnIf _)
  have hstatus : (s.popped k).mySeq.status = s.mySeq.status := by
    have hseq : (s.popped k).mySeq = (s.me.popTokens s.stream k).seq s.stream := by simp [State.popped, State.mySeq, State.stream]
    rw [hseq]
    have hseen := congrArg Seq.status (visible_seq_popTokens s.me s.stream k)
    exact hseen
  rw [hstatus]
  exact (visible_warnIf_congr (visible_modMySeq_popped s k hf) _).trans (visible_warnIf_popped (s.modMySeq f) k _)

/-- What DFWD and DREV leave (R261). -/
def State.switched (s : State) (b : Bool) : State :=
  (s.modMySeq fun q => { q with status := if b then q.status ||| 0x10000 else q.status &&& ~~~0x10000 }).warnIf
    (decide (s.mySeq.status.getLsbD 16 = b))

theorem switchMode_completesT {i : Instr} {b : Bool} (hx : exec i s = switchMode b k s) (hs : OnT s s.stream k)
    (hc : s.stream ≠ .c) : CompletesT i k s (s.switched b) :=
  completesT_modMySeq (f := fun q => { q with status := if b then q.status ||| 0x10000 else q.status &&& ~~~0x10000 })
    (b := fun w => decide (w.getLsbD 16 = b)) hs hc hx fun _ _ h =>
      congrArg (fun q : Seq => { q with status := if b then q.status ||| 0x10000 else q.status &&& ~~~0x10000 }) h

theorem switchMode_completes {i : Instr} {b : Bool} (hx : exec i s = switchMode b k s) (hs : OnC s) :
    Completes i s (s.switched b) := by
  obtain ⟨hc, hu, -⟩ := hs
  refine completes_of_visible hu (hx.trans ?_) rfl (here_warnIf _)
  unfold switchMode runT
  exact if_pos hc

theorem tend_completesT (hs : OnT s s.stream k) (hc : s.stream ≠ .c) :
    CompletesT (.tend k) k s (s.modMySeq fun q => { q with run := .ended }) :=
  completesT_modMySeq (f := fun q => { q with run := .ended }) (b := fun _ => false) hs hc (if_neg hc) fun _ _ h =>
    congrArg (fun q : Seq => { q with run := .ended }) h

/-! ## Returns of the monitor -/

/-- In monitor mode no instruction of C is stepped. -/
theorem unstepped_of_monitor (h : s.taskMode = false) : Unstepped s := by
  unfold Unstepped
  rw [h]
  rfl

/-- C's part of its task is complete, and it would go back to it (R185). -/
def State.endedAbove (s : State) : Prop :=
  s.me.esst.getLsbD 0 = false ∧ ∃ t p, s.taskAt s.here = some t ∧ s.me.task = some p ∧ t.ended.contains p.2 = true

/-- What TRET leaves, with what the sequencer does then (R25). -/
def State.returned (s : State) (r : Run) : State :=
  ((s.modMySeq fun q => { q with status := setMon (s.me.esst.getLsbD 0) q.status, run := r }).warnIf
    (decide (s.me.esst.toNat / 2 ≠ 0))).modMe fun y =>
      { y with fences := if s.me.esst.getLsbD 0 then y.fences else keptFences (s.me.epc &&& ~~~3#32) y.fences }

theorem endedAbove_iff : (!s.me.esst.getLsbD 0 && (match s.taskAt s.here, s.me.task with
      | some t, some p => t.ended.contains p.2
      | _, _ => false)) = true ↔ s.endedAbove := by
  unfold State.endedAbove
  cases s.me.esst.getLsbD 0 <;> cases s.taskAt s.here <;> cases s.me.task <;> simp

theorem tret_completes (hm : s.taskMode = false) :
    (¬s.endedAbove → CompletesTo .tret s (s.returned s.mySeq.run) 0 (s.me.epc &&& ~~~3#32)) ∧
    (s.endedAbove → CompletesTo .tret s (s.returned .ended) 0 (s.me.epc &&& ~~~3#32)) := by
  have hback (r : Run) (hr : (if (!s.me.esst.getLsbD 0 && (match s.taskAt s.here, s.me.task with
      | some t, some p => t.ended.contains p.2
      | _, _ => false)) then .ended else s.mySeq.run) = r) :
      CompletesTo .tret s (s.returned r) 0 (s.me.epc &&& ~~~3#32) := by
    refine completesTo_of_visible (unstepped_of_monitor hm) ?_ rfl (here_warnIf _)
    dsimp only [exec]
    unfold execTret
    rw [hm]
    dsimp only
    rw [if_neg Bool.false_ne_true]
    unfold State.returned
    rw [modMySeq_congr (g := fun q => { q with status := setMon (s.me.esst.getLsbD 0) q.status, run := r })]
    exact congrArg (fun r => ({ s.mySeq with status := setMon (s.me.esst.getLsbD 0) s.mySeq.status, run := r } : Seq)) hr
  exact ⟨fun h => hback _ (if_neg (mt endedAbove_iff.1 h)), fun h => hback _ (if_pos (endedAbove_iff.2 h))⟩

end

/-! ## Instructions of C -/

section
variable {s : State}

theorem ckmark_completes (hs : OnC s) (a : RegNo) :
    (∀ tid r, s.me.task = some (tid, r) →
      Completes (.ckmark a) s (s.modTask tid fun t => { t with ckmark := some (s.sreg a) })) ∧
    (s.me.task = none → Completes (.ckmark a) s s) := by
  obtain ⟨-, hu, -⟩ := hs
  refine ⟨fun tid r h => completes_of_visible hu ?_ rfl rfl, fun h => completes_of_visible hu ?_ rfl rfl⟩ <;>
  · dsimp only [exec]
    unfold execCkmark
    rw [h]

theorem taskAt_idle (h : s.me.task = none) : s.taskAt s.here = none := by
  unfold State.taskAt
  rw [show (s.shuttle s.here).task = none from h]
  rfl

theorem torder_idle (hs : OnC s) (l : BitVec 4) (h : s.me.task = none) : Completes (.torder l) s s := by
  obtain ⟨-, hu, -⟩ := hs
  refine completes_of_visible hu ?_ rfl rfl
  dsimp only [exec]
  unfold execTorder
  rw [taskAt_idle h]

/-- TORDER goes on when the task is the oldest, and binds it (R185, R363). -/
theorem torder_oldest (hs : OnC s) (l : BitVec 4) {t : Task} (ht : s.taskAt s.here = some t) (hd : t.dual = false) :
    (s.isOldest t.tid = true → Completes (.torder l) s (s.bind s.me.task)) ∧
    (s.isOldest t.tid = false → WaitsFor (.torder l) s l.toNat) := by
  obtain ⟨-, hu, -⟩ := hs
  have hexec : exec (.torder l) s = runC s (if s.isOldest t.tid then .done (s.bind s.me.task) else .wait .other l.toNat) := by
    dsimp only [exec]
    unfold execTorder
    rw [ht]
    dsimp only
    rw [hd, if_neg Bool.false_ne_true]
  have hhere : (s.bind s.me.task).here = s.here := by
    unfold State.bind
    split <;> rfl
  refine ⟨fun ho => completes_of_visible hu (hexec.trans (by rw [if_pos ho])) rfl hhere, fun ho => ⟨.other, hexec.trans ?_⟩⟩
  rw [ho, if_neg Bool.false_ne_true]
  change wait s .other l.toNat = _
  unfold wait
  split <;> rfl

/-- GINFO counts the members of the group, and those that stand before it (R171). -/
theorem ginfo_completes (hs : OnC s) (d : RegNo) (g : BitVec 2) {t : Task} {r e : Nat} {gr : Group}
    (ht : s.taskAt s.here = some t) (hr : s.me.task = some (t.tid, r)) (he : s.groupSlot s.here g.toNat = some e)
    (hg : (s.launchOf t.lid).bind (fun l => l.groups[e]?) = some gr) :
    Completes (.ginfo d g) s (s.setSreg d
      (BitVec.ofNat 64 (gr.members.length * 2 ^ 32 + (gr.members.filter (· < t.places.getD r 0)).length))) := by
  obtain ⟨-, hu, -⟩ := hs
  refine completes_of_visible hu ?_ rfl (here_setSreg d _)
  dsimp only [exec]
  unfold execGinfo
  rw [ht, hr, he]
  dsimp only
  rw [hg]

theorem ginfo_traps (d : RegNo) (g : BitVec 2) (h : s.groupSlot s.here g.toNat = none) :
    Traps (.ginfo d g) s 0x16 (s.curWord.setWidth 64) := by
  unfold Traps
  dsimp only [exec]
  unfold execGinfo
  rw [h]
  cases s.taskAt s.here <;> cases s.me.task <;> rfl

theorem abtok_idle (a : RegNo) (h : s.me.task = none) : ∃ u, exec (.abtok a) s = .next u ∧
    (∀ l ∈ u.launches, l.stopped = true) ∧ (u.requests.any fun r => decide (r.kind = .token)) = true := by
  have hexec : exec (.abtok a) s = runC s (.done (s.raiseToken ((s.sreg a).setWidth 16) true)) := by
    dsimp only [exec]
    unfold execAbtok whenOldest
    rw [taskAt_idle h]
  refine ⟨_, hexec, ?_⟩
  have hasked := asked_raiseToken s ((s.sreg a).setWidth 16) true
  generalize s.raiseToken ((s.sreg a).setWidth 16) true = e at hasked
  obtain ⟨hl, hr⟩ := Prod.mk.inj ((touched_finishWith s
    ((e.modMe (Shuttle.pushTokens · s.stream 0)).setPc (s.pc + 4)) none).asked.trans hasked)
  refine ⟨fun l hmem => ?_, ?_⟩
  · rw [hl] at hmem
    obtain ⟨l', -, rfl⟩ := List.mem_map.1 hmem
    rfl
  · rw [hr, List.any_append]
    exact Bool.or_true _

/-! ### The end of C's stream (R185) -/

theorem taskOf_tid {tid : Nat} {t : Task} (h : s.taskOf tid = some t) : t.tid = tid := of_decide_eq_true (List.find?_some h :)

/-- A task that is changed and keeps its name is found as before. -/
theorem taskOf_modTask (s : State) (tid : Nat) {f : Task → Task} (hf : ∀ t, (f t).tid = t.tid) :
    (s.modTask tid f).taskOf tid = (s.taskOf tid).map f := by
  unfold State.modTask State.taskOf
  rw [List.find?_map]
  have hcomp : (fun t : Task => decide (t.tid = tid)) ∘ (fun t => if t.tid = tid then f t else t) = fun t => decide (t.tid = tid) := by
    funext t
    rw [Function.comp_apply]
    split
    · rw [hf]
    · rfl
  rw [hcomp]
  cases h : s.tasks.find? fun t => decide (t.tid = tid) with
  | none => rfl
  | some t => exact congrArg some (if_pos (taskOf_tid h))

theorem endMember_ended {t : Task} {r : Nat} (h : t.ended.contains r = false) (status : W64) :
    (t.endMember r status).ended = r :: t.ended ∧
      (t.shuttles.length ≤ (r :: t.ended).length → (t.endMember r status).stat = .complete) := by
  unfold Task.endMember
  rw [h]
  exact ⟨rfl, fun hle => if_pos hle⟩

theorem tend_control (k : BitVec 4) (hc : s.stream = .c) : exec (.tend k) s = endControl s := if_pos hc

theorem tend_waits (k : BitVec 4) (hc : s.stream = .c)
    (h : (s.me.l.atRest && s.me.x.atRest && s.me.s.atRest) = false ∨ s.me.cc.toList.any (· ≠ 0) = true) : Waits (.tend k) s := by
  refine ⟨.tend, (tend_control k hc).trans ?_⟩
  rw [← wait_unlimited]
  unfold endControl
  dsimp only
  by_cases hr : (s.me.l.atRest && s.me.x.atRest && s.me.s.atRest) = false
  · rw [hr]
    rfl
  · rw [Bool.eq_true_of_not_eq_false hr, h.resolve_left hr]
    rfl

theorem tend_traps (k : BitVec 4) (hc : s.stream = .c) (hrest : (s.me.l.atRest && s.me.x.atRest && s.me.s.atRest) = true)
    (hcc : s.me.cc.toList.any (· ≠ 0) = false) (hres : s.me.residue ≠ 0) : Traps (.tend k) s 0x10 s.me.residue := by
  refine (tend_control k hc).trans ?_
  unfold endControl
  dsimp only
  rw [hrest, hcc, if_pos hres]
  rfl

/-- The state that a TEND of C leaves, unstepped. -/
def State.memberEnded (s : State) : State :=
  let x := s.me
  let s1 := s.modMySeq fun q => { q with run := .ended, stall := none }
  (match x.task with
    | some p => s1.modTask p.1 fun t => t.endMember p.2 (x.c.status ||| x.l.status ||| x.x.status ||| x.s.status)
    | none => s1).bump s.here

theorem tend_ends (k : BitVec 4) (hc : s.stream = .c) (hu : Unstepped s)
    (hrest : (s.me.l.atRest && s.me.x.atRest && s.me.s.atRest) = true) (hcc : s.me.cc.toList.any (· ≠ 0) = false)
    (hres : s.me.residue = 0) : exec (.tend k) s = .next s.memberEnded := by
  refine (tend_control k hc).trans ?_
  have hstep : (s.taskMode && s.me.dbgc.getLsbD 0) = false := by
    rw [Unstepped, hc] at hu
    exact hu
  unfold endControl
  dsimp only
  rw [hrest, hcc, hres, hstep]
  rfl

theorem memberEnded_me (hc : s.stream = .c) : s.memberEnded.me.c.run = .ended ∧ s.memberEnded.me.sregs = s.me.sregs := by
  unfold State.memberEnded
  dsimp only
  have hme (u : State) (hu : u.me = (s.modMySeq fun q => { q with run := .ended, stall := none }).me) (hh : u.here = s.here) :
      (u.bump s.here).me.c.run = .ended ∧ (u.bump s.here).me.sregs = s.me.sregs := by
    rw [← hh, State.me, show (u.bump u.here).here = u.here from rfl, shuttle_bump, ← State.me, hu, me_modMySeq, hc]
    exact ⟨rfl, rfl⟩
  split <;> exact hme _ rfl rfl

/-- The member's task counts it as ended, and is complete with the last (R172, R185). -/
theorem memberEnded_task {t : Task} {r : Nat} (hr : s.me.task = some (t.tid, r)) (ht : s.taskOf t.tid = some t)
    (hnew : t.ended.contains r = false) : ∃ v, s.memberEnded.taskOf t.tid = some v ∧ v.ended = r :: t.ended ∧
      (t.shuttles.length ≤ (r :: t.ended).length → v.stat = .complete) := by
  let status := s.me.c.status ||| s.me.l.status ||| s.me.x.status ||| s.me.s.status
  refine ⟨t.endMember r status, ?_, endMember_ended hnew status⟩
  have htask : s.memberEnded.taskOf t.tid =
      ((s.modMySeq fun q => { q with run := .ended, stall := none }).modTask t.tid fun t => t.endMember r status).taskOf t.tid := by
    unfold State.memberEnded
    dsimp only
    rw [hr]
    rfl
  rw [htask, taskOf_modTask]
  · exact congrArg (Option.map _) ht
  · exact fun _ => rfl

theorem memberEnded_mem : s.memberEnded.mem = s.mem := by
  unfold State.memberEnded
  dsimp only
  split <;> rfl

end

/-! ## The obligation -/

/-- Settles O54: each instruction's outcome is read off its definition at the turn it is given, an effect on the issuing sequencer
being seen after its pops as it is before them; an abort token keeps the list of launches and of requests but for its own. -/
theorem systemInstructions : Obligations.SystemInstructions := by
  unfold Obligations.SystemInstructions
  intro d a g l k s
  dsimp only
  refine ⟨fun h => runT_trap h, fun hs hc => ?_, fun hc => ?_, fun hs => ?_, fun hc hu => ?_⟩
  · exact ⟨switchMode_completesT rfl hs hc, switchMode_completesT rfl hs hc, tend_completesT hs hc⟩
  · exact ⟨rfl, fun hm => congrArg (runC s) (if_pos hm), fun hm => tret_completes hm⟩
  · obtain ⟨hmark, hnomark⟩ := ckmark_completes hs a
    exact ⟨switchMode_completes rfl hs, switchMode_completes rfl hs, hmark, fun h => ⟨hnomark h, torder_idle hs l h⟩,
      fun t ht hd => torder_oldest hs l ht hd, fun t r e gr ht hr he hg => ginfo_completes hs d g ht hr he hg,
      fun h => ginfo_traps d g h, fun h => abtok_idle a h⟩
  · refine ⟨fun h => tend_waits k hc h, fun hrest hcc hres => tend_traps k hc hrest hcc hres, fun hrest hcc hres => ?_⟩
    obtain ⟨hrun, hsregs⟩ := memberEnded_me hc
    exact ⟨_, tend_ends k hc hu hrest hcc hres, hrun, memberEnded_mem, hsregs, fun t r hr ht hnew => memberEnded_task hr ht hnew⟩

end Sys2Proof.Machine
end

section
namespace Sys2Proof.Machine
open Sys2Proof

/-! # No step is refused (R21, R23) -/

/-! ## Operations that many instructions share -/

section
variable {s : State}

theorem ite_next {c : Prop} [Decidable c] {x y : Result} (hx : ∃ t, x = .next t) (hy : ∃ t, y = .next t) :
    ∃ t, (if c then x else y) = .next t := by
  split
  · exact hx
  · exact hy

theorem divideResult_next {d : RegNo} {b v zero : W64} : ∃ t, divideResult s d b v zero = .next t := by
  unfold divideResult
  split <;> exact runC_next _ _

theorem branchIf_next {taken : Bool} {o : BitVec 13} : ∃ t, branchIf s taken o = .next t := by
  unfold branchIf
  split <;> exact runC_next _ _

theorem execAdda_next {d a : RegNo} {i : BitVec 16} : ∃ t, execAdda d a i s = .next t := by
  unfold execAdda
  dsimp only
  split
  · exact ⟨_, rfl⟩
  · exact runC_next _ _

theorem execTend_next {k : BitVec 4} : ∃ t, execTend k s = .next t := by
  unfold execTend
  split
  · unfold endControl
    dsimp only
    split
    · exact wait_next _ _ _
    · split
      · exact wait_next _ _ _
      · split <;> exact ⟨_, rfl⟩
  · exact runT_next _ _ _

variable {k : BitVec 4} {d a b : RegNo}

theorem xInstr_next {masked fall : Bool} {reads writes : List RegNo} {body : State → Eff} :
    ∃ t, xInstr s k masked reads writes body fall = .next t := runT_next _ _ _

theorem elementwise_next {reads : List RegNo} {w : Nat} {warn : State → Bool} {f : State → Nat → Nat × W64} {fall : Bool} :
    ∃ t, elementwise s k reads d w warn f fall = .next t := xInstr_next

theorem floatOp_next {t : BitVec 2} {r : BitVec 3} {f : RMode → FVal → FVal → FVal × W64} :
    ∃ u, floatOp s k t d a b r f = .next u := elementwise_next

theorem floatPick_next {t : BitVec 2} {r : BitVec 3} {f : Fmt → Nat → Nat → Nat × W64} :
    ∃ u, floatPick s k t d a b r f = .next u := elementwise_next

theorem fusedOp_next {t : BitVec 2} {r : BitVec 3} {negP negC : Bool} : ∃ u, fusedOp s k t d a b r negP negC = .next u :=
  elementwise_next

theorem unaryOp_next {t : RegNo} {r : BitVec 3} {rounds : Bool} {f : Fmt → RMode → Nat → Nat × W64} :
    ∃ u, unaryOp s k d a t r rounds f = .next u := elementwise_next

theorem intOp_next {e : BitVec 3} {f : Int → Int → Int × W64} : ∃ u, intOp s k d a b e f = .next u := elementwise_next

theorem bitOp_next {e : BitVec 3} {f : Nat → Nat → Nat} : ∃ u, bitOp s k d a b e f = .next u := elementwise_next

theorem immOp_next {w : Nat} {f : Nat → Nat} : ∃ u, immOp s k d a w f = .next u := elementwise_next

theorem addImm_next {i : BitVec 8} {w : Nat} : ∃ u, addImm s k d a i w = .next u := immOp_next

theorem comparePush_next {w : Nat} {warn : Bool} {f : State → Nat → Bool × W64} :
    ∃ u, comparePush s k a b w warn f = .next u := runT_next _ _ _

theorem floatCompare_next {t : BitVec 5} {r : BitVec 3} {anyNan unordered : Bool} {cond : Int → Bool} :
    ∃ u, floatCompare s k t a b r anyNan unordered cond = .next u := comparePush_next

theorem intCompare_next {e : BitVec 3} {f : Int → Int → Bool} : ∃ u, intCompare s k a b e f = .next u := comparePush_next

theorem packOp_next {e : BitVec 3} {f : Int → Int} : ∃ u, packOp s k d a b e f = .next u := elementwise_next

theorem unpackOp_next {e : BitVec 3} {off : Nat} : ∃ u, unpackOp s k d a e off = .next u := elementwise_next

theorem permOp_next {reads : List RegNo} {w : BitVec 3} {f : State → Nat → Nat} : ∃ u, permOp s k d reads w f = .next u :=
  elementwise_next

theorem zipOp_next {w : BitVec 3} {off : Nat} : ∃ u, zipOp s k d a b w off = .next u := permOp_next

theorem unzipOp_next {w : BitVec 3} {off : Nat} : ∃ u, unzipOp s k d a b w off = .next u := permOp_next

theorem reduceOp_next {o : Option RegNo} {raw : Bool} {t : BitVec 3} {f : State → Nat → FVal × W64} :
    ∃ u, reduceOp s k d a o raw t f = .next u := xInstr_next

theorem scanOp_next {t : BitVec 3} {incl : Bool} : ∃ u, scanOp s k d a t incl = .next u := xInstr_next

theorem extremeOp_next {t : BitVec 3} {less : Bool} : ∃ u, extremeOp s k d a t less = .next u := xInstr_next

theorem rowRead_next {writes : List RegNo} {t : BitVec 2} {r : BitVec 6} {clear useFmt : Bool}
    {f : State → TileRow → State × W64 × Bool} : ∃ u, rowRead s k writes a t r clear useFmt f = .next u := runT_next _ _ _

theorem moveH_next {kind : MoveKind} {c : BitVec 3} {q : BitVec 2} {aq rl : Bool} {sc : BitVec 4} :
    ∃ u, moveH s kind d c q aq rl sc k = .next u := runT_next _ _ _

theorem addrResult_next {f : State → W64} : ∃ u, addrResult s k d f = .next u := runT_next _ _ _

theorem switchMode_next {b : Bool} : ∃ u, switchMode b k s = .next u := runT_next _ _ _

/-! ## Packets and Treadle words -/

/-- A packet starts, waits, or is found at fault. -/
theorem dispatchPacket_next {q : Nat} {p : Packet} {ty : Nat} {start : State → Queue → Nat → Nat → Begin} :
    ∃ t, dispatchPacket q p ty start s = .next t := by
  unfold dispatchPacket
  dsimp only
  repeat' split
  all_goals exact ⟨_, rfl⟩

/-- A Treadle word goes on, jumps, or ends the run. -/
theorem treadleWord_next {f : TreadleRun → TreadleEff} : ∃ t, treadleWord s f = .next t := by
  unfold treadleWord
  dsimp only
  repeat' split
  all_goals exact ⟨_, rfl⟩

theorem treadleAlu_next {d a b : BitVec 4} {f : W64 → W64 → W64} : ∃ t, treadleAlu d a b f s = .next t := treadleWord_next

theorem treadleBranch_next {a b : BitVec 4} {i : BitVec 16} {c : W64 → W64 → Bool} : ∃ t, treadleBranch a b i c s = .next t :=
  treadleWord_next

end

/-! ## Instructions and steps -/

/-- The act of a core, of a PCIe agent or of the management unit, which may be a write of a register. -/
def isOutside : Instr → Bool
  | .coreOrPcieStore .. => true
  | _ => false

/-- What acts within the part answers a next state: an instruction of a sequencer completes, waits or traps, and each branch of an
event ends in one. -/
theorem exec_next_of_within {i : Instr} (hi : isOutside i = false) (s : State) : ∃ t, exec i s = .next t := by
  cases i with dsimp only [exec]
  | coreOrPcieStore => cases hi
  | reset | add | sub | and | or | xor | andn | sll | srl | sra | min | max | minu | maxu | clz | ctz | pop | mul | mulh | mulhu
    | seq | sne | slt | sltu | sel | addi | andi | ori | xori | slli | srli | srai | extu | exts | ins | movz | movk | jmp |
    call | jr | callr | ret | skippedInstruction | nop | hint | mcall | ckmark | stopMessage | abortTokenMessage | lstepMessage
    | remoteAckMessage | fencePacketMet | fenceExpiry | ageingStep | kick | doorbellWrite | slotsWrite | wakeRead | tfree | prel
    | rresume | abtokRegister | cflush | wpidxWrite | weftPortLinkChange => exact ⟨_, rfl⟩
  | ldb | ldh | ldw | ldd | ldbs | ldhs | ldws | stb | sth | stw | std | loop | endl | endlX | mfsr | mtsr | mxsr | qpush | qpop
    | ccwait | mzero | mma | mbias | maddt | mout | moutr | mldr | mnop | msnap | tcmov | tcgath | tcscat | tcfill | tcmovf |
    car | crs | cag | cbc | cred | ca2a | cbar | rinv | rinvx | rinva | rsplit | rmerge | rpress | rres | rgena | ginfo | torder
    | ldf | ldfe | stef | feset | feclr | bararr | barpost | barsync | lds | ldsAcq | sts | stsRel | mark | join | fence | atom
    | atomRel | cldecl | cladd | oatom | tret | abtok => exact runC_next _ _
  | vbcq | mpushr | minv | mpop | mclr | shrm | shft | shpop | qpopvX | qpushvX | sloopX | sendlX | sendlExitX | qdropX | tnopX
    | vld | vst | qpopa | qpusha | qpushvL | qpopvS | sloopLs | sendlLs | sendlExitLs | ccwaitLs | qdropLs | tnopLs | dtset |
    dpld | dgld | dgldc | vldfe | vstef | barwait | semsig | semwait | acq | rel | vatom | vatomRel | brk =>
    exact runT_next _ _ _
  | div | divu | rem | remu => exact divideResult_next
  | beq | bne | blt | bge | bltu | bgeu => exact branchIf_next
  | adda => exact execAdda_next
  | tend => exact execTend_next
  | vcvt | vunsp | vsel | msave | vamax | vdscale => exact xInstr_next
  | vnot | vmovi32 | vfmoviF32 | vsplat32 | vsldn32 | vslup32 => exact elementwise_next
  | vaddFloat | vsubFloat | vmulFloat | vdivFloat => exact floatOp_next
  | vminFloat | vmaxFloat | vcpys => exact floatPick_next
  | vfma | vfms | vfnma | vfnms => exact fusedOp_next
  | vabs | vneg | vsqrt | vrint | vrcpe | vrsqe | vex2e | vlg2e => exact unaryOp_next
  | vceqFloat | vcneFloat | vcltFloat | vcleFloat | vcun => exact floatCompare_next
  | vaddInt | vsubInt | vmulInt | vmulh | vadds | vsubs | vminInt | vmaxInt | vabsd | vdivInt | vrem => exact intOp_next
  | vceqInt | vcneInt | vcltInt | vcleInt => exact intCompare_next
  | vand | vor | vxor | vandn | vsll | vsrl | vsra => exact bitOp_next
  | vaddiI32 | vaddiI16 | vaddiI8 => exact addImm_next
  | vslli32 | vsrli32 | vsrai32 | vslli16 | vsrli16 | vsrai16 => exact immOp_next
  | vpacks | vpackt => exact packOp_next
  | vunpkl | vunpkh => exact unpackOp_next
  | vperm | vperm2 | vrev => exact permOp_next
  | vzipl | vziph => exact zipOp_next
  | vuzpe | vuzpo => exact unzipOp_next
  | vrsum | vrssq | vrdot | vrsuma => exact reduceOp_next
  | vscan | vscnx => exact scanOp_next
  | vrmax | vrmin => exact extremeOp_next
  | mrd | mrdc | mrdr => exact rowRead_next
  | tmov | tgath | tscat | tfill | tmovf => exact moveH_next
  | aaddi | aaddv | aadd | asub | aslli => exact addrResult_next
  | dfwd | drev => exact switchMode_next
  | launch | resume | fencePacket | ibPacket | loopPacket | predPacket | ffence | hintPacket | treadlePacket | nopPacket =>
    exact dispatchPacket_next
  | treadleLi | treadleShori | treadleAddi | treadleLd | treadleSt | treadleEmit => exact treadleWord_next
  | treadleAdd | treadleSub | treadleAnd | treadleOr | treadleXor | treadleShl | treadleShr => exact treadleAlu_next
  | treadleBeq | treadleBne | treadleBltu | treadleBgeu => exact treadleBranch_next
  | matrixCommandStart | matrixCommandComplete | tileMoveRun | moveResidencyResume | tileMoveComplete | heddleChunkBegin |
    chunkArrival | collectiveComplete | faultNoticeArrival | switchLimitExpiry | rangeCommandRun | pressBlockCopy |
    invalidationComplete | waitLimitExpiry | bankUpdate | clFlagFill | streamDeadlock | asyncFaultTake | trapRoute | taskStart |
    taskCommit | dualSignatureCompare | dobbyStep | punchRefine | cardCopy | remoteAccessMessage | linkFailure | checkFailure |
    operatingPointChange | ffenceComplete | packetFetch | packetComplete | treadleBudgetExpiry | treadleEnd | destroy |
    destroyComplete | tload | tloadVerifyComplete | preq | preemptComplete | rreqRead | rgenreq | rivctlGo | trcmdDeliver |
    trcmdRetry | trcmdKill | killComplete | mbcmdReport | mbReportComplete | cmcfgWrite | weftFrameReceive | registerWrite |
    warpLinkEntersService | weftTransmitDone | gangMemberLeavesService | abortTokenComplete =>
    dsimp only [execMatrixCommandStart, execMatrixCommandComplete, execTileMoveRun, execMoveResidencyResume,
      execTileMoveComplete, execHeddleChunkBegin, execChunkArrival, execCollectiveComplete, execFaultNoticeArrival,
      execSwitchLimitExpiry, execRangeCommandRun, execPressBlockCopy, execInvalidationComplete, execWaitLimitExpiry,
      execBankUpdate, execClFlagFill, execStreamDeadlock, execAsyncFaultTake, execTrapRoute, execTaskStart, execTaskCommit,
      execDualSignatureCompare, execDobbyStep, execPunchRefine, execCardCopy, execRemoteAccessMessage, execLinkFailure,
      execCheckFailure, execOperatingPointChange, execFfenceComplete, execPacketFetch, execPacketComplete,
      execTreadleBudgetExpiry, execTreadleEnd, execDestroy, execDestroyComplete, execTload, execTloadVerifyComplete,
      execPreq, execPreemptComplete, execRreqRead, execRgenreq, execRivctlGo, execTrcmdDeliver, execTrcmdRetry,
      execTrcmdKill, execKillComplete, execMbcmdReport, execMbReportComplete, execCmcfgWrite, execWeftFrameReceive,
      execRegisterWrite, execWarpLinkEntersService, execWeftTransmitDone, execGangMemberLeavesService,
      execAbortTokenComplete]
    repeat' split
    all_goals exact ⟨_, rfl⟩

section
variable {s : State}

/-- A write of a device register is what its event does. -/
theorem execRegisterStore_next {off : Nat} {v : W64} : ∃ t, execRegisterStore off v s = .next t := by
  unfold execRegisterStore
  extract_lets low
  have h (i : Instr) (hi : isOutside i = false) : ∃ t, exec i s = .next t := exec_next_of_within hi s
  refine ite_next (ite_next (h .rivctlGo rfl) ⟨_, rfl⟩) <| ite_next ⟨_, rfl⟩ <| ite_next (h (.rgenreq v) rfl) <|
    ite_next ⟨_, rfl⟩ <| ite_next ⟨_, rfl⟩ <| ite_next (h (.destroy low) rfl) <| ite_next (h (.tload v) rfl) <|
    ite_next ⟨_, rfl⟩ <| ite_next (h (.preq v) rfl) <| ite_next ⟨_, rfl⟩ <| ite_next ?_ <| ite_next ⟨_, rfl⟩ <|
    ite_next (ite_next ⟨_, rfl⟩ ⟨_, rfl⟩) <| ite_next (h (.mbcmdReport v) rfl) <| ite_next (h (.cmcfgWrite _ v) rfl) <|
    ite_next ⟨_, rfl⟩ (h (.registerWrite off v) rfl)
  split
  · exact h (.trcmdDeliver _) rfl
  · exact h (.trcmdRetry _) rfl
  · exact h (.trcmdKill _) rfl
  · exact ⟨_, rfl⟩

theorem execCoreStore_next {h : BitVec 5} {va : Nat} {data : List Byte} : ∃ t, execCoreStore h va data s = .next t := by
  unfold execCoreStore
  dsimp only
  split
  · exact ⟨_, rfl⟩
  split
  · exact ⟨_, rfl⟩
  next pa _ =>
    cases reachOf pa with
    | register off =>
      dsimp only
      split
      · exact execRegisterStore_next
      · exact ⟨_, rfl⟩
    | hbm | window =>
      dsimp only
      split <;> exact ⟨_, rfl⟩
    | doorbell | file | rom | pcie | reserved => exact ⟨_, rfl⟩

theorem execCoreLoad_next {h : BitVec 5} {va n : Nat} : ∃ t, execCoreLoad h va n s = .next t := by
  dsimp only [execCoreLoad, execRreqRead]
  repeat' split
  all_goals exact ⟨_, rfl⟩

/-- What a core, a PCIe agent or the management unit does. -/
theorem execCoreOrPcieStore_next {act : CoreAct} {data : List Byte} : ∃ t, execCoreOrPcieStore act data s = .next t := by
  cases act with
  | store => exact execCoreStore_next
  | load => exact execCoreLoad_next
  | fenceWrites | fenceReads | enter =>
    dsimp only [execCoreOrPcieStore]
    split <;> exact ⟨_, rfl⟩
  | claim | uart | bringUp => exact ⟨_, rfl⟩
  | pcieStore =>
    dsimp only [execCoreOrPcieStore]
    repeat' split
    all_goals exact ⟨_, rfl⟩

end

theorem exec_next (i : Instr) (s : State) : ∃ t, exec i s = .next t := by
  by_cases hi : isOutside i = false
  · exact exec_next_of_within hi s
  · cases i with
    | coreOrPcieStore => exact execCoreOrPcieStore_next
    | _ => exact absurd rfl hi

/-- A turn stops only when it names no event. -/
theorem due_run_safe (d : Due) : Safe d.run := by
  cases d with
  | instr i s => exact .inr (exec_next i s)
  | boundary i s =>
    obtain ⟨t, ht⟩ := exec_next i s
    refine .inr ?_
    dsimp only [Due.run]
    rw [ht]
    dsimp only
    split
    · exact ⟨_, rfl⟩
    · exact exec_next _ s
  | idle s => exact .inr ⟨s, rfl⟩
  | odd => exact .inl rfl

/-- Settles O9: no instruction is refused, so a turn of the agenda that names no event alone stops a step. -/
theorem stepIsSafe : Obligations.StepIsSafe := fun s => due_run_safe s.due

end Sys2Proof.Machine
end

section
namespace Sys2Proof.Machine
open Sys2Proof

/-! # What the Creel's work leaves alone (R310, R311, R326) -/

/-- The Creel has worked: only memory, queues, runs and programs of the Treadle, interrupts, the instant and the stamp may differ. -/
def Creeled (s t : State) : Prop :=
  ∃ mem queues runs handles msis harts instant stamp,
    t = { s with mem := mem, queues := queues, runs := runs, handles := handles, msis := msis, harts := harts, instant := instant,
                 stamp := stamp }

section
variable (s : State)

theorem creeled_refl : Creeled s s := ⟨s.mem, s.queues, s.runs, s.handles, s.msis, s.harts, s.instant, s.stamp, rfl⟩

variable {s}

theorem Creeled.trans {t u : State} (h : Creeled s t) (g : Creeled t u) : Creeled s u := by
  obtain ⟨_, _, _, _, _, _, _, _, rfl⟩ := h
  obtain ⟨_, _, _, _, _, _, _, _, rfl⟩ := g
  exact ⟨_, _, _, _, _, _, _, _, rfl⟩

variable {t : State} (h : Creeled s t)
include h

theorem Creeled.dev : t.dev = s.dev := by obtain ⟨_, _, _, _, _, _, _, _, rfl⟩ := h; rfl
theorem Creeled.requests : t.requests = s.requests := by obtain ⟨_, _, _, _, _, _, _, _, rfl⟩ := h; rfl
theorem Creeled.tasks : t.tasks = s.tasks := by obtain ⟨_, _, _, _, _, _, _, _, rfl⟩ := h; rfl
theorem Creeled.launches : t.launches = s.launches := by obtain ⟨_, _, _, _, _, _, _, _, rfl⟩ := h; rfl
theorem Creeled.devReg (off : Nat) : t.devReg off = s.devReg off := by unfold State.devReg; rw [h.dev]

end

section
variable (s : State)

theorem creeled_modQueue (q : Nat) (f : Queue → Queue) : Creeled s (s.modQueue q f) := ⟨_, _, _, _, _, _, _, _, rfl⟩

theorem creeled_setCb (q off lo n v : Nat) : Creeled s (s.setCb q off lo n v) := by
  obtain ⟨mem, h⟩ := setCb_eq s q off lo n v
  exact ⟨mem, s.queues, s.runs, s.handles, s.msis, s.harts, s.instant, s.stamp, h⟩

theorem creeled_sendMsi (ident : Nat) : Creeled s (s.sendMsi ident) := by
  obtain ⟨m, k, h⟩ := sendMsi_eq s ident
  exact ⟨s.mem, s.queues, s.runs, s.handles, m, k, s.instant, s.stamp, h⟩

theorem creeled_putBytes (place : Nat) (bs : List Byte) : Creeled s (s.putBytes place bs) := ⟨_, _, _, _, _, _, _, _, rfl⟩

theorem creeled_mapQueue (x : Queue) (slot : Nat) : Creeled s (s.mapQueue x slot) :=
  (((creeled_modQueue s ..).trans (creeled_setCb ..)).trans (creeled_setCb ..)).trans (creeled_setCb ..)

theorem creeled_unmapQueue (x : Queue) : Creeled s (s.unmapQueue x) := by
  unfold State.unmapQueue
  extract_lets now s1 s2 s3
  have h1 : Creeled s s1 := creeled_modQueue s ..
  have h2 : Creeled s s2 := ((h1.trans (creeled_setCb ..)).trans (creeled_setCb ..)).trans (creeled_setCb ..)
  have h3 : Creeled s s3 := by
    unfold s3
    split
    · exact h2
    · exact h2.trans (creeled_setCb ..)
  split
  · exact h3
  · exact h3.trans (creeled_putBytes ..)

end

/-! ## Decision points (R310) -/

/-- A step of a decision point unmaps a queue, maps one, or marks one. -/
theorem decideOnce_cases {s t : State} (h : s.decideOnce = some t) : (∃ x, t = s.unmapQueue x) ∨ (∃ x k, t = s.mapQueue x k) ∨
    ∃ (x : Queue) (i : Nat), t = s.modQueue x.q fun x => { x with marked := some i } := by
  unfold State.decideOnce at h
  dsimp only at h
  split at h
  · exact .inl ⟨_, (Option.some.inj h).symm⟩
  · split at h
    · cases h
    · split at h
      · exact .inr (.inl ⟨_, _, (Option.some.inj h).symm⟩)
      · split at h
        · exact .inl ⟨_, (Option.some.inj h).symm⟩
        · split at h
          · exact .inr (.inr ⟨_, _, (Option.some.inj h).symm⟩)
          · cases h
        · cases h

/-- What each step of a decision point keeps, the whole of it keeps. -/
theorem decidePoint_induction {P : State → Prop} (hstep : ∀ s t, P s → s.decideOnce = some t → P t) {s : State} {k : Nat}
    (h : P (s.atInstant k)) : P (s.decidePoint k) := by
  have hfor (n : Nat) (u : State) (hu : P u) : P (State.decideFor n u) := by
    induction n generalizing u with
    | zero => exact hu
    | succ n ih =>
      unfold State.decideFor
      split
      · exact hu
      next v hv => exact ih v (hstep u v hu hv)
  exact hfor _ _ h

theorem creeled_decidePoint (s : State) (k : Nat) : Creeled s (s.decidePoint k) := by
  refine decidePoint_induction (P := Creeled s) (fun u v hu hv => hu.trans ?_) ⟨_, _, _, _, _, _, _, _, rfl⟩
  obtain ⟨x, rfl⟩ | ⟨x, k, rfl⟩ | ⟨x, i, rfl⟩ := decideOnce_cases hv
  · exact creeled_unmapQueue u x
  · exact creeled_mapQueue u x k
  · exact creeled_modQueue u ..

/-! ## Runs of the Treadle -/

theorem creeled_endRun (s : State) (r : TreadleRun) (status : Nat) (emits : List Packet) : Creeled s (s.endRun r status emits) := by
  have hclose (u : State) : Creeled u (u.closeEmits r emits) := by
    unfold State.closeEmits
    split
    · exact creeled_refl u
    · exact creeled_modQueue u ..
  have hrelease : Creeled s (({ s with runs := s.runs.filter fun o => decide (o.q ≠ r.q) } : State).releaseHandle r.handle) :=
    ⟨_, _, _, _, _, _, _, _, rfl⟩
  exact ((hrelease.trans (creeled_modQueue ..)).trans (hclose _)).trans (creeled_decidePoint ..)

/-! ## Which queues there are, and what is published in them -/

/-- WIDX of a queue. -/
def State.published (s : State) (q : Nat) : Option Nat := (s.queueOf q).map Queue.widx

section
variable {s : State} {q : Nat}

theorem published_congr {t : State} (h : t.queues = s.queues) : t.published q = s.published q := by
  unfold State.published State.queueOf
  rw [h]

theorem queueOf_modQueue (r : Nat) {f : Queue → Queue} (hq : ∀ x, (f x).q = x.q) :
    (s.modQueue r f).queueOf q = (s.queueOf q).map fun x => if x.q = r then f x else x := by
  unfold State.modQueue State.queueOf
  dsimp only
  rw [List.find?_map]
  have hcomp : (fun x : Queue => decide (x.q = q)) ∘ (fun x => if x.q = r then f x else x) = fun x => decide (x.q = q) := by
    funext x
    rw [Function.comp_apply]
    split
    · rw [hq]
    · rfl
  rw [hcomp]

theorem queueOf_modQueue_self {f : Queue → Queue} {x : Queue} (hq : ∀ x, (f x).q = x.q) (hx : s.queueOf q = some x) :
    (s.modQueue q f).queueOf q = some (f x) := by
  rw [queueOf_modQueue q hq, hx]
  exact congrArg some (if_pos (of_decide_eq_true (List.find?_some hx :)))

theorem published_modQueue (r : Nat) {f : Queue → Queue} (hq : ∀ x, (f x).q = x.q) (hw : ∀ x, (f x).widx = x.widx) :
    (s.modQueue r f).published q = s.published q := by
  unfold State.published
  rw [queueOf_modQueue r hq, Option.map_map]
  refine congrArg (Option.map · _) (funext fun x => ?_)
  rw [Function.comp_apply]
  split
  · exact hw x
  · rfl

theorem published_setCb (r off lo n v : Nat) : (s.setCb r off lo n v).published q = s.published q := by
  obtain ⟨mem, h⟩ := setCb_eq s r off lo n v
  rw [h]
  rfl

theorem published_mapQueue (x : Queue) (slot : Nat) : (s.mapQueue x slot).published q = s.published q := by
  unfold State.mapQueue
  dsimp only
  rw [published_setCb, published_setCb, published_setCb]
  exact published_modQueue x.q (fun _ => rfl) fun _ => rfl

theorem published_unmapQueue (x : Queue) : (s.unmapQueue x).published q = s.published q := by
  unfold State.unmapQueue
  extract_lets now s1 s2 s3
  have h1 : s1.published q = s.published q := published_modQueue x.q (fun _ => rfl) fun _ => rfl
  have h2 : s2.published q = s.published q := by
    unfold s2
    rw [published_setCb, published_setCb, published_setCb, h1]
  have h3 : s3.published q = s.published q := by
    unfold s3
    split
    · exact h2
    · rw [published_setCb, h2]
  split
  · exact h3
  · exact (published_congr rfl).trans h3

/-- A decision point neither adds nor drops a queue, and publishes nothing. -/
theorem published_decidePoint (k : Nat) : (s.decidePoint k).published q = s.published q := by
  refine decidePoint_induction (P := fun u => u.published q = s.published q) (fun u v hu hv => Eq.trans ?_ hu) rfl
  obtain ⟨x, rfl⟩ | ⟨x, k, rfl⟩ | ⟨x, i, rfl⟩ := decideOnce_cases hv
  · exact published_unmapQueue x
  · exact published_mapQueue x k
  · exact published_modQueue x.q (fun _ => rfl) fun _ => rfl

end

end Sys2Proof.Machine
end

section
namespace Sys2Proof.Machine
open Sys2Proof

/-! # Registers of the Creel (R305, R307, R328) -/

/-! ## Kicks (R305, R306) -/

section
variable {s : State} {q : Nat}

theorem published_eq {w : Nat} (h : s.published q = some w) : ∃ y, s.queueOf q = some y ∧ y.widx = w := Option.map_eq_some_iff.1 h

theorem kick_ignored (h : (s.cb q).isNone = true ∨ s.qDead q = true ∨ s.qHalt q = true) : s.kick q = s := by
  unfold State.kick
  refine if_pos ?_
  rcases h with h | h | h <;> simp [h]

/-- A kick of a queue that is known reads its control block. -/
theorem kick_known {x : Queue} (hcb : (s.cb q).isSome = true) (hdead : s.qDead q = false) (hhalt : s.qHalt q = false)
    (hx : s.queueOf q = some x) :
    (s.cbError q = true → s.kick q = s.haltQueue q) ∧
    (s.cbError q = false → (s.cbField q 0x10 0 64 + 2 ^ 64 - s.cbField q 0x20 0 64) % 2 ^ 64 ≤ s.qSize q → x.slot.isSome = true →
      s.kick q = (s.modQueue q fun x => { x with widx := s.cbField q 0x10 0 64 }).decidePoint kickPoint) := by
  have hreads : ¬((s.cb q).isNone || s.qDead q || s.qHalt q) = true := by
    rw [hdead, hhalt, Option.isNone_eq_false_iff.2 hcb]
    exact Bool.false_ne_true
  have hknown : (s.queueOf q).isSome = true := by rw [hx]; rfl
  unfold State.kick
  rw [if_neg hreads]
  dsimp only
  rw [if_pos hknown]
  refine ⟨fun he => if_pos he, fun he hroom hslot => ?_⟩
  have hqueue : (s.modQueue q fun x => { x with widx := s.cbField q 0x10 0 64 }).queueOf q =
      some { x with widx := s.cbField q 0x10 0 64 } := queueOf_modQueue_self (fun _ => rfl) hx
  rw [he, if_neg Bool.false_ne_true]
  refine (if_neg (Nat.not_lt.2 hroom)).trans ?_
  rw [hqueue]
  exact if_pos hslot

theorem kick_publishes {x : Queue} (hcb : (s.cb q).isSome = true) (hdead : s.qDead q = false) (hhalt : s.qHalt q = false)
    (hx : s.queueOf q = some x) (he : s.cbError q = false)
    (hroom : (s.cbField q 0x10 0 64 + 2 ^ 64 - s.cbField q 0x20 0 64) % 2 ^ 64 ≤ s.qSize q) (hslot : x.slot.isSome = true) :
    ∃ y, (s.kick q).queueOf q = some y ∧ y.widx = s.cbField q 0x10 0 64 := by
  refine published_eq ?_
  rw [(kick_known hcb hdead hhalt hx).2 he hroom hslot, published_decidePoint]
  exact congrArg (Option.map Queue.widx)
    (queueOf_modQueue_self (f := fun x => { x with widx := s.cbField q 0x10 0 64 }) (fun _ => rfl) hx)

/-- A doorbell is a kick of its queue (R305). -/
theorem exec_kick (hq : q < 65536) (v : W64) :
    ∀ i ∈ [Instr.kick q, .doorbellWrite q v], exec i s = .next (s.kick q) := by
  intro i hi
  have hmod : q % 65536 = q := Nat.mod_eq_of_lt hq
  rcases List.mem_pair.1 hi with rfl | rfl
  · dsimp only [exec, execKick]
    rw [hmod]
  · dsimp only [exec, execDoorbellWrite]
    rw [hmod]

/-! ## Destruction (R328) -/

/-- The tasks of a launch that the queue has, and which have not started, are discarded. -/
def State.discardPending (s : State) (q : Nat) : State :=
  let mine := (s.launches.filter fun l => l.queue = q).map Launch.lid
  { s with tasks := s.tasks.map fun t =>
      if mine.contains t.lid && decide (t.stat = .pending) then { t with stat := .discarded } else t }

theorem discardPending_pending : ∀ t ∈ (s.discardPending q).tasks, t.stat = .pending → ∀ l ∈ s.launches, l.lid = t.lid →
    l.queue ≠ q := by
  intro t ht hpending l hl hlid hq
  obtain ⟨u, -, rfl⟩ := List.mem_map.1 ht
  split at hpending
  · cases hpending
  next hkept =>
    rw [if_neg hkept] at hlid
    refine hkept ?_
    rw [Bool.and_eq_true, List.contains_iff_mem]
    exact ⟨List.mem_map.2 ⟨l, List.mem_filter.2 ⟨hl, decide_eq_true hq⟩, hlid⟩, decide_eq_true hpending⟩

/-- DESTROY is taken: DSTAT and the request stand, and nothing of the queue will start (R328). -/
theorem execDestroy_taken (hq : q < 65536) (hbusy : (s.devReg 0x10030).getLsbD 63 = false) :
    ∃ u, execDestroy q s = .next u ∧ u.devReg 0x10030 = BitVec.ofNat 64 (2 ^ 63 + q) ∧
      (∃ r ∈ u.requests, r.kind = .destroy ∧ r.queue = q) ∧
      ∀ t ∈ u.tasks, t.stat = .pending → ∀ l ∈ u.launches, l.lid = t.lid → l.queue ≠ q := by
  unfold execDestroy
  rw [Nat.mod_eq_of_lt hq]
  extract_lets q' s1 s2 mine s3 s4 s5
  rw [if_neg (by rw [show s.devReg dstatReg = s.devReg 0x10030 from rfl, hbusy]; exact Bool.false_ne_true)]
  refine ⟨_, rfl, ?_⟩
  have h1 : Creeled (({ s with stamp := s.stamp + 1,
                               requests := s.requests ++ [{ kind := .destroy, queue := q, lid := none }] } : State).setDevReg
      dstatReg (BitVec.ofNat 64 (2 ^ 63 + q))) s1 := creeled_setCb ..
  have h2 : Creeled s1 s2 := by
    unfold s2
    repeat' split
    · exact creeled_unmapQueue ..
    · exact creeled_refl _
    · exact creeled_refl _
  have h4 : Creeled s3 s4 := List.foldlRecOn (motive := Creeled s3) _ _ (creeled_refl _) fun u hu r _ =>
    hu.trans (creeled_endRun u r 3 [])
  have h5 : Creeled s3 s5.decidePoint := (h4.trans (creeled_modQueue ..)).trans (creeled_decidePoint ..)
  refine ⟨?_, ?_, ?_⟩
  · rw [h5.devReg, show s3.devReg 0x10030 = s2.devReg 0x10030 from rfl, (h1.trans h2).devReg]
    exact devReg_setDevReg ..
  · rw [h5.requests, show s3.requests = s2.requests from rfl, (h1.trans h2).requests]
    exact ⟨_, List.mem_append_right _ (List.mem_singleton_self _), rfl, rfl⟩
  · rw [h5.tasks, h5.launches]
    exact discardPending_pending (s := s2)

theorem execDestroyComplete_ends {r : Request} {x : Queue}
    (hr : s.requests.find? (fun r => decide (r.kind = .destroy ∧ r.queue = q)) = some r) (hx : s.queueOf q = some x)
    (hpkts : x.pkts = []) (hlaunches : ∀ l ∈ s.launches, l.queue ≠ q) (hmissing : s.destroyMissing q = []) :
    ∃ u, execDestroyComplete q s = .next u ∧ u.queueOf q = none ∧ r ∉ u.requests ∧ u.devReg 0x10030 = BitVec.ofNat 64 q := by
  have hmine : (s.launches.filter fun l => l.queue = q).map Launch.lid = [] := by
    rw [List.map_eq_nil_iff, List.filter_eq_nil_iff]
    exact fun l hl => by simpa using hlaunches l hl
  let ended : State :=
    { s with requests := s.requests.filter fun o => o ≠ r, queues := s.queues.filter fun x => decide (x.q ≠ q),
             stamp := s.stamp + 1 }.setDevReg dstatReg (BitVec.ofNat 64 q)
  have hexec : execDestroyComplete q s = .next (ended.msiv q).decidePoint := by
    unfold execDestroyComplete
    rw [hr]
    extract_lets mine s2 left
    have hs2 : s2 = s := by
      unfold s2 mine
      rw [hmine]
      rfl
    have hleft : left = false := by
      unfold left
      rw [hs2, hx]
      exact congrArg (fun l : List Pkt => !l.isEmpty) hpkts
    clear_value left s2
    subst hs2
    refine if_neg ?_
    rw [hleft, show mine s2 = [] from hmine, hmissing]
    exact Bool.false_ne_true
  obtain ⟨m, h, hmsi⟩ := msiv_eq ended q
  have hdone : Creeled ended (ended.msiv q).decidePoint := (creeled_sendMsi ..).trans (creeled_decidePoint ..)
  refine ⟨_, hexec, ?_, ?_, ?_⟩
  · have hnone : ended.published q = none := by
      refine congrArg (Option.map Queue.widx) (List.find?_eq_none.2 fun y hy => ?_)
      simpa using (List.mem_filter.1 hy).2
    rw [← Option.map_eq_none_iff (f := Queue.widx)]
    refine (published_decidePoint _).trans ?_
    rw [hmsi]
    exact hnone
  · rw [hdone.requests]
    intro hmem
    simpa using (List.mem_filter.1 hmem).2
  · rw [hdone.devReg]
    exact devReg_setDevReg ..

end

end Sys2Proof.Machine
end

section
namespace Sys2Proof.Machine
open Sys2Proof

/-! # Requests to pre-empt (R362 to R366) -/

section
variable {s : State}

/-! ## A write of PREQ -/

/-- PSTAT with its reason set to 1. -/
theorem bitsOf_setBits_reason (w : W64) : bitsOf (setBits w 56 7 1) 56 7 = 1 := by
  have hw := w.isLt
  unfold setBits bitsOf
  rw [BitVec.toNat_ofNat]
  omega

theorem execPreq_busy {v : W64} (hbusy : (s.devReg 0x10068).getLsbD 63 = true) :
    ∃ u, execPreq v s = .next u ∧ u.requests = s.requests ∧ bitsOf (u.devReg 0x10068) 56 7 = 1 := by
  refine ⟨_, if_pos hbusy, rfl, ?_⟩
  refine (congrArg (bitsOf · 56 7) (devReg_setDevReg ..)).trans ?_
  exact bitsOf_setBits_reason _

/-- Freezing or stopping the tasks of a launch keeps the launches and the requests. -/
theorem asked_freeze (t : Task) (u : State) :
    (if u.isBound t then t.shuttles.foldl (fun s n => (s.modShuttle n Shuttle.freezeAll).bump n) u else u.stopTask t.tid).asked =
      u.asked := by
  split
  · refine foldl_kept (π := State.asked) (fun v n => ?_) _ _
    rfl
  · exact asked_stopTask u t.tid

/-- A request stands, PSTAT says BUSY, and the launch starts nothing more (R362, R363). -/
theorem requestPreempt_asks (q lid : Nat) : (s.requestPreempt q lid).devReg 0x10068 = 1 <<< 63 ∧
    (∃ r ∈ (s.requestPreempt q lid).requests, r.kind = .preempt ∧ r.queue = q ∧ r.lid = some lid) ∧
    ∀ l ∈ (s.requestPreempt q lid).launches, l.lid = lid → l.stopped = true := by
  unfold State.requestPreempt
  extract_lets mine s1 s2
  have h2 : s2.asked = s1.asked := foldl_kept (π := State.asked) (fun u t => asked_freeze t u) mine s1
  obtain ⟨hlaunches, -⟩ := Prod.mk.inj h2
  have hcb := creeled_setCb (({ s2 with requests := s2.requests ++ [{ kind := .preempt, queue := q, lid := some lid }],
                                        stamp := s2.stamp + 1 } : State).setDevReg pstatReg (pstat true 0 0)) q 0x28 4 1 1
  refine ⟨?_, ?_, ?_⟩
  · rw [hcb.devReg]
    exact devReg_setDevReg ..
  · rw [hcb.requests]
    exact ⟨_, List.mem_append_right _ (List.mem_singleton_self _), rfl, rfl, rfl⟩
  · rw [hcb.launches]
    intro l hl hlid
    replace hl : l ∈ s1.launches := hlaunches ▸ hl
    obtain ⟨l', -, rfl⟩ := List.mem_map.1 hl
    split at hlid
    next h => rw [if_pos h]
    next h => exact absurd hlid h

theorem execPreq_taken {v : W64} {x : Queue} {lid : Nat} (hfree : (s.devReg 0x10068).getLsbD 63 = false)
    (hx : s.queueOf (bitsOf v 0 16) = some x) (hslot : x.slot.isSome = true) (hdead : s.qDead (bitsOf v 0 16) = false)
    (hlid : x.preemptable = some lid) : execPreq v s = .next (s.requestPreempt (bitsOf v 0 16) lid) := by
  unfold execPreq
  extract_lets q busy no
  have hbusy : ¬busy = true := by
    rw [show busy = false from hfree]
    exact Bool.false_ne_true
  rw [if_neg hbusy, hx]
  dsimp only
  rw [show s.qDead q = false from hdead, Option.isNone_eq_false_iff.2 hslot, hlid]
  rfl

/-! ## The end of a request (R363 to R366) -/

/-- The request is gone and PSTAT says why; nothing else that is asked of the part changes. -/
theorem endPreempt_ends (r : Request) (reason len : Nat) : (s.endPreempt r reason len).devReg 0x10068 = pstat false reason len ∧
    r ∉ (s.endPreempt r reason len).requests ∧ (s.endPreempt r reason len).launches = s.launches := by
  unfold State.endPreempt
  have hmsi := creeled_sendMsi (({ s with requests := s.requests.filter fun o => o ≠ r, stamp := s.stamp + 1 } : State).setDevReg
    pstatReg (pstat false reason len)) (bitsOf (s.devReg 0x40018) 0 16)
  refine ⟨?_, ?_, hmsi.launches⟩
  · rw [hmsi.devReg]
    exact devReg_setDevReg ..
  · rw [hmsi.requests]
    intro hmem
    simpa using (List.mem_filter.1 hmem).2

/-- A request that is refused lets its launch go on. -/
theorem refusePreempt_ends {r : Request} {l : Launch} {len : Nat} (hl : l ∈ s.launches) :
    (s.refusePreempt r l len).devReg 0x10068 = pstat false 2 len ∧ r ∉ (s.refusePreempt r l len).requests ∧
      ∃ o ∈ (s.refusePreempt r l len).launches, o.lid = l.lid ∧ o.stopped = false := by
  unfold State.refusePreempt
  extract_lets s1 mine s2
  have h2 : s2.asked = s1.asked := by
    refine foldl_kept (π := State.asked) (fun v n => ?_) _ s1
    rfl
  obtain ⟨hlaunches, -⟩ := Prod.mk.inj h2
  have hpoint := creeled_decidePoint ((s2.setCb r.queue 0x28 4 1 0).endPreempt r 2 len) completionPoint
  obtain ⟨hdev, hreq, hkept⟩ := endPreempt_ends (s := s2.setCb r.queue 0x28 4 1 0) r 2 len
  refine ⟨hpoint.devReg _ ▸ hdev, hpoint.requests ▸ hreq, ?_⟩
  rw [hpoint.launches, hkept, (creeled_setCb s2 ..).launches, hlaunches]
  exact ⟨_, List.mem_map_of_mem hl, by rw [if_pos rfl], by rw [if_pos rfl]⟩

/-- A launch that ends is no longer there. -/
theorem finishLaunch_gone (lid status : Nat) : ∀ o ∈ (s.finishLaunch lid status).launches, o.lid ≠ lid := by
  unfold State.finishLaunch
  split
  next hnone =>
    intro o ho hlid
    exact List.find?_eq_none.1 hnone o ho (decide_eq_true hlid)
  next l _ =>
    extract_lets s1 s2 s3
    have htry (u : State) : u.tryFlush.launches = u.launches := by
      unfold State.tryFlush
      split <;> rfl
    rw [(creeled_decidePoint ..).launches, htry]
    intro o ho
    exact of_decide_eq_true (List.mem_filter.1 ho).2

/-- With its image written, the launch is over. -/
theorem writeImage_ends (r : Request) (l : Launch) (bs : List Byte) :
    (s.writeImage r l none bs).devReg 0x10068 = pstat false 0 bs.length ∧ r ∉ (s.writeImage r l none bs).requests ∧
      ∀ o ∈ (s.writeImage r l none bs).launches, o.lid ≠ l.lid := by
  unfold State.writeImage
  extract_lets base s1 s2 s3
  obtain ⟨hdev, hreq, hkept⟩ := endPreempt_ends (s := s3.finishLaunch l.lid 3) r 0 bs.length
  exact ⟨hdev, hreq, hkept ▸ finishLaunch_gone _ _⟩

/-- With nothing missing and no task of the launch begun or saved, its image is made, and fits or is refused (R364 to R366). -/
theorem execPreemptComplete_idle {q : Nat} {r : Request} {l : Launch}
    (hr : s.requests.find? (fun r => decide (r.kind = .preempt ∧ r.queue = q)) = some r) (hlid : r.lid = some l.lid)
    (hl : s.launchOf l.lid = some l) (hmissing : s.preemptMissing q l.lid = [])
    (hidle : ∀ t ∈ s.tasks, t.lid = l.lid → t.begun = false ∧ t.saved = false) :
    execPreemptComplete q s = .next (if (s.devReg 0x10060).toNat < (s.checkpoint l none).length
      then s.refusePreempt r l (s.checkpoint l none).length else s.writeImage r l none (s.checkpoint l none)) := by
  have hnone : s.tasks.find? (fun t => decide (t.lid = l.lid) && Task.begun t && s.isBound t) = none := by
    refine List.find?_eq_none.2 fun t ht h => ?_
    simp only [Bool.and_eq_true, decide_eq_true_eq] at h
    obtain ⟨⟨hmine, hbegun⟩, -⟩ := h
    exact Bool.false_ne_true ((hidle t ht hmine).1.symm.trans hbegun)
  have hsaved : s.tasks.find? (fun t => decide (t.lid = l.lid) && t.saved) = none := by
    refine List.find?_eq_none.2 fun t ht h => ?_
    simp only [Bool.and_eq_true, decide_eq_true_eq] at h
    exact Bool.false_ne_true ((hidle t ht h.1).2.symm.trans h.2)
  unfold execPreemptComplete
  rw [hr]
  dsimp only
  rw [hlid, Option.bind_some, hl]
  dsimp only
  rw [hnone, hsaved, hmissing, if_neg (by simp)]
  simp only [Option.isSome_none, Bool.false_eq_true, if_false]
  rw [show creel + 0x60 = 0x10060 from rfl]
  split <;> rfl

end

end Sys2Proof.Machine
end

section
namespace Sys2Proof.Machine
open Sys2Proof

/-! # Programs of the Treadle, the range unit, the mailbox and plain registers (R216, R220, R326, R386 to R396) -/

section
variable {s : State}

/-! ## Programs of the Treadle (R326) -/

/-- What is loaded has a header of the Treadle's, of 1 to 1,024 words. -/
def State.tloadHeader (s : State) (a : Nat) : Prop :=
  leNat (memBytes s.mem a 4) = 0x31445254 ∧ 1 ≤ leNat (memBytes s.mem (a + 4) 4) ∧ leNat (memBytes s.mem (a + 4) 4) ≤ 1024 ∧
    leNat (memBytes s.mem (a + 8) 8) = 0

/-- The words that its header counts. -/
def State.tloadWords (s : State) (a : Nat) : List W32 :=
  (List.range (leNat (memBytes s.mem (a + 4) 4))).map fun i => BitVec.ofNat 32 (leNat (memBytes s.mem (a + 16 + 4 * i) 4))

theorem mem_freeHandles {h : Nat} : h ∈ s.freeHandles ↔ h < 64 ∧ ∀ e ∈ s.handles, e.h ≠ h := by
  unfold State.freeHandles
  rw [List.mem_filter, List.mem_range, List.all_eq_true]
  simp

theorem execTload_starts (v : W64) (h : s.tload = none) : ∃ u, execTload v s = .next u ∧ u.tload = some (bitsOf v 4 52 * 16) ∧
    u.devReg 0x10048 = 1 <<< 63 := by
  unfold execTload
  rw [h, if_neg (by simp)]
  exact ⟨_, rfl, rfl, devReg_setDevReg ..⟩

/-- The verifier's answer, of a program, of one at fault, and of one for which no handle is free (R326). -/
theorem execTloadVerifyComplete_answers {a : Nat} (ha : s.tload = some a) :
    ∃ u, execTloadVerifyComplete s = .next u ∧ u.tload = none ∧
      (¬s.tloadHeader a → u.handles = s.handles ∧ u.devReg 0x10048 = 1) ∧
      (s.tloadHeader a → verifyWords (s.tloadWords a) ≠ 0 →
        u.handles = s.handles ∧ u.devReg 0x10048 = BitVec.ofNat 64 (verifyWords (s.tloadWords a))) ∧
      (s.tloadHeader a → verifyWords (s.tloadWords a) = 0 → (∀ h < 64, ∃ e ∈ s.handles, e.h = h) →
        u.handles = s.handles ∧ u.devReg 0x10048 = 6) ∧
      (s.tloadHeader a → verifyWords (s.tloadWords a) = 0 → (∃ h < 64, ∀ e ∈ s.handles, e.h ≠ h) →
        ∃ h < 64, (∀ e ∈ s.handles, e.h ≠ h) ∧
          u.handles = s.handles ++ [{ h := h, words := s.tloadWords a, users := 0, freed := false }] ∧
          u.devReg 0x10048 = BitVec.ofNat 64 (h * 2 ^ 56)) := by
  unfold execTloadVerifyComplete
  rw [ha]
  dsimp -zeta only
  extract_lets n header ws free r reason h drawn s1
  have hheader (hh : s.tloadHeader a) : header = true := by
    unfold header
    exact decide_eq_true hh
  have hws : s.tloadHeader a → ws = s.tloadWords a := fun ⟨_, _, hn, _⟩ => by
    unfold ws State.tloadWords
    rw [show min n 1024 = n from Nat.min_eq_left hn]
  have hgrown (hr : reason = 0) : s1.handles = s.handles ++ [{ h := h, words := ws, users := 0, freed := false }] :=
    congrArg State.handles (if_pos hr)
  have hkept (hr : reason ≠ 0) : s1.handles = s.handles := congrArg State.handles (if_neg hr)
  have hstat (hr : reason ≠ 0) : BitVec.ofNat 64 ((if reason = 0 then h * 2 ^ 56 else 0) + reason) = BitVec.ofNat 64 reason := by
    rw [if_neg hr, Nat.zero_add]
  have hbadReason (hbad : ¬s.tloadHeader a) : reason = 1 := by
    have hheader : header = false := by
      unfold header
      exact decide_eq_false hbad
    unfold reason
    rw [hheader]
    rfl
  have hfaultReason (hh : s.tloadHeader a) (hv : verifyWords (s.tloadWords a) ≠ 0) : reason = verifyWords (s.tloadWords a) := by
    unfold reason r
    rw [hheader hh, hws hh]
    exact if_pos hv
  have hfullReason (hh : s.tloadHeader a) (hv : verifyWords (s.tloadWords a) = 0) : reason = if free.isEmpty then 6 else 0 := by
    unfold reason r
    rw [hheader hh, hws hh, hv]
    rfl
  have hgiven (hne : free ≠ []) : h ∈ free := by
    have hlt := Nat.mod_lt s.draw.1.toNat (List.length_pos_of_ne_nil hne)
    unfold h
    rw [List.getD_eq_getElem _ _ hlt]
    exact List.getElem_mem hlt
  have hread (x : State) (w : W64) : (x.setDevReg (creel + 0x48) w).devReg 0x10048 = w := devReg_setDevReg ..
  clear_value s1 h reason ws
  refine ⟨_, rfl, rfl, fun hbad => ?_, fun hh hv => ?_, fun hh hv hfull => ?_, fun hh hv hroom => ?_⟩
  · have hreason := hbadReason hbad
    have hne : reason ≠ 0 := by rw [hreason]; decide
    refine ⟨hkept hne, ?_⟩
    rw [hread, hstat hne, hreason]
    rfl
  · have hreason := hfaultReason hh hv
    have hne : reason ≠ 0 := hreason ▸ hv
    refine ⟨hkept hne, ?_⟩
    rw [hread, hstat hne, hreason]
  · have hfree : free = [] := List.eq_nil_iff_forall_not_mem.2 fun k hk => by
      obtain ⟨hlt, hnone⟩ := mem_freeHandles.1 hk
      obtain ⟨e, he, hek⟩ := hfull k hlt
      exact hnone e he hek
    have hreason : reason = 6 := (hfullReason hh hv).trans (by rw [hfree]; rfl)
    have hne : reason ≠ 0 := by rw [hreason]; decide
    refine ⟨hkept hne, ?_⟩
    rw [hread, hstat hne, hreason]
    rfl
  · obtain ⟨k, hk, hunheld⟩ := hroom
    have hne : free ≠ [] := List.ne_nil_of_mem (mem_freeHandles.2 ⟨hk, hunheld⟩)
    have hreason : reason = 0 := (hfullReason hh hv).trans (by rw [List.isEmpty_eq_false_iff.2 hne]; rfl)
    obtain ⟨hlt, hnone⟩ := mem_freeHandles.1 (hgiven hne)
    refine ⟨h, hlt, hnone, hws hh ▸ hgrown hreason, ?_⟩
    rw [hread, if_pos hreason, hreason, Nat.add_zero]

/-- A program is freed at once where no run uses it. -/
theorem execTfree_frees (v : W64) : ∃ u, execTfree v s = .next u ∧
    ((∀ e ∈ s.handles, e.h = bitsOf v 0 6 → e.users = 0) → ∀ e ∈ u.handles, e.h ≠ bitsOf v 0 6) := by
  refine ⟨_, rfl, fun hidle e he hh => ?_⟩
  obtain ⟨hmem, hkept⟩ := List.mem_filter.1 he
  obtain ⟨o, ho, rfl⟩ := List.mem_map.1 hmem
  split at hh
  next h =>
    rw [if_pos h] at hkept
    simp [hidle o ho h] at hkept
  next h => exact h hh

/-! ## The range unit (R216, R219, R220) -/

theorem execRreqRead_takes {e : Nat × Nat} {rest : List (Nat × Nat)} (h : s.rreqs = e :: rest) :
    (s.rreqWait = [] → ∃ u, execRreqRead s = .next u ∧ u.rreqs = rest) ∧
    (∀ w ws, s.rreqWait = w :: ws → ∃ u, execRreqRead s = .next u ∧ u.rreqs = rest ++ [w] ∧ u.rreqWait = ws) := by
  unfold execRreqRead
  rw [h]
  refine ⟨fun hw => ?_, fun w ws hw => ?_⟩
  · rw [hw]
    exact ⟨_, rfl, rfl⟩
  · rw [hw]
    refine ⟨_, rfl, ?_⟩
    obtain ⟨m, k, hmsi⟩ := sendMsi_eq ({ s with rreqs := rest ++ [w], rreqWait := ws, stamp := s.stamp + 1 } : State)
      (bitsOf (s.devReg 0x40010) 0 16)
    exact ⟨congrArg State.rreqs hmsi, congrArg State.rreqWait hmsi⟩

theorem execRivctlGo_starts (h : s.rivBusy = none) : ∃ u, execRivctlGo s = .next u ∧ u.rivBusy =
    some { num := s.invals + 1, lo := (widen (bitsOf (s.devReg 0x18) 0 56) (s.devReg 0x20).toNat).1,
           hi := (widen (bitsOf (s.devReg 0x18) 0 56) (s.devReg 0x20).toNat).2 } := by
  unfold execRivctlGo
  rw [h, if_neg (by simp)]
  exact ⟨_, rfl, rfl⟩

/-- A residency reply answers the requests of its chunk, and no other. -/
theorem replyChunk_answers (ix ch : Nat) (deny : Bool) :
    ((∀ r ∈ s.resReqs, r.ix ≠ ix ∨ r.ch ≠ ch) → s.replyChunk ix ch deny = s) ∧
    ∀ r ∈ s.resReqs, r.ix = ix → r.ch = ch → (∀ o ∈ (s.replyChunk ix ch deny).resReqs, o.ix ≠ ix ∨ o.ch ≠ ch) ∧
      (deny = false → (s.replyChunk ix ch deny).denied = s.denied) := by
  unfold State.replyChunk
  refine ⟨fun hnone => ?_, fun r hr hix hch => ?_⟩
  · rw [List.find?_eq_none.2 fun r hr h => ?_]
    obtain ⟨hix, hch⟩ := of_decide_eq_true h
    exact (hnone r hr).elim (· hix) (· hch)
  · cases hfind : s.resReqs.find? fun r => decide (r.ix = ix ∧ r.ch = ch) with
    | none => exact absurd (decide_eq_true ⟨hix, hch⟩) (List.find?_eq_none.1 hfind r hr)
    | some o =>
      refine ⟨fun o ho => ?_, fun hd => if_neg (hd ▸ Bool.false_ne_true)⟩
      have hkept := (List.mem_filter.1 ho).2
      simpa only [Bool.not_eq_true', decide_eq_false_iff_not, not_and_or] using hkept

theorem leNat_append (l m : List Byte) : leNat (l ++ m) = leNat l + 256 ^ l.length * leNat m := by
  induction l with
  | nil => simp [leNat]
  | cons b l ih =>
    rw [List.cons_append, leNat, leNat, ih, List.length_cons, Nat.pow_succ]
    ring

theorem leNat_lt (l : List Byte) : leNat l < 256 ^ l.length := by
  induction l with
  | nil => exact Nat.one_pos
  | cons b l ih =>
    have hb := b.isLt
    rw [leNat, List.length_cons, Nat.pow_succ]
    omega

theorem memBytes_add (m : List Host.Cell) (a k n : Nat) : memBytes m a (k + n) = memBytes m a k ++ memBytes m (a + k) n := by
  induction k generalizing a with
  | zero => rw [Nat.zero_add]; rfl
  | succ k ih => rw [Nat.succ_add, memBytes, memBytes, ih, List.cons_append, Nat.add_assoc, Nat.add_comm 1 k]

theorem leNat_leBytes (n v : Nat) : leNat (leBytes n v) = v % 256 ^ n := by
  induction n generalizing v with
  | zero => simp [leBytes, leNat, Nat.mod_one]
  | succ n ih =>
    rw [leBytes, leNat, ih, BitVec.toNat_ofNat, show (2 : Nat) ^ 8 = 256 from rfl, Nat.pow_succ', Nat.mod_mul]

/-- GEN stands in the last two bytes of the descriptor's first doubleword (R210). -/
theorem storedDesc_gen (ix : Nat) : (s.storedDesc ix).gen = leNat (memBytes s.mem (s.rtBase + 32 * ix + 6) 2) := by
  have hlow := leNat_lt (memBytes s.mem (s.rtBase + 32 * ix) 6)
  have hhigh := leNat_lt (memBytes s.mem (s.rtBase + 32 * ix + 6) 2)
  rw [memBytes_length] at hlow hhigh
  have hword : leNat (memBytes s.mem (s.rtBase + 32 * ix) 8) =
      leNat (memBytes s.mem (s.rtBase + 32 * ix) 6) + 256 ^ 6 * leNat (memBytes s.mem (s.rtBase + 32 * ix + 6) 2) := by
    rw [memBytes_add s.mem _ 6 2, leNat_append, memBytes_length]
  unfold State.storedDesc Desc.gen State.dword bitsOf
  rw [BitVec.toNat_ofNat, hword]
  omega

theorem desc_sound (hs : ∀ p, s.badCell p = false) (ix : Nat) : s.desc ix = s.storedDesc ix := by
  unfold State.desc
  refine if_neg ?_
  unfold State.badBytes
  simp [hs]

/-- RGENREQ advances GEN modulo 2^16 (R216). -/
theorem execRgenreq_advances {v : W64} (hs : ∀ p, s.badCell p = false) (hix : bitsOf v 0 20 < s.rtCount) :
    ∃ u, execRgenreq v s = .next u ∧ (u.desc (bitsOf v 0 20)).gen = ((s.desc (bitsOf v 0 20)).gen + 1) % 2 ^ 16 := by
  refine ⟨_, if_pos hix, ?_⟩
  generalize bitsOf v 0 20 = ix
  have hu : ∀ p, State.badCell { s.advanceGen ix with stamp := s.stamp + 1 } p = false := hs
  rw [desc_sound hu, desc_sound hs, storedDesc_gen, storedDesc_gen]
  have hread := memBytes_memStore_same s.mem (s.rtBase + 32 * ix + 6)
    (leBytes 2 ((leNat (memBytes s.mem (s.rtBase + 32 * ix + 6) 2) + 1) % 2 ^ 16))
  rw [leBytes_length] at hread
  refine (congrArg leNat hread).trans ?_
  rw [leNat_leBytes]
  omega

/-! ## The mailbox (R393, R394) -/

/-- Bytes in the midst of what is stored read back. -/
theorem memBytes_memStore_mid (m : List Host.Cell) (a : Nat) (x y z : List Byte) :
    memBytes (memStore m a (x ++ (y ++ z))) (a + x.length) y.length = y := by
  have hall := memBytes_memStore_same m a (x ++ (y ++ z))
  rw [List.length_append, List.length_append, memBytes_add, memBytes_add] at hall
  obtain ⟨-, hrest⟩ := List.append_inj hall (memBytes_length ..)
  exact (List.append_inj hrest (memBytes_length ..)).1

/-- Bit 63 of the status with BUSY set, and with BUSY and the result cleared. -/
theorem busy_setBits (w : W64) :
    (setBits w 63 1 1).getLsbD 63 = true ∧ (setBits (setBits w 63 1 0) 0 8 0).getLsbD 63 = false := by
  have hw := w.isLt
  have hbit (x : W64) : x.getLsbD 63 = decide (x.toNat / 2 ^ 63 % 2 = 1) := Nat.testBit_eq_decide_div_mod_eq
  unfold setBits bitsOf
  simp only [hbit, BitVec.toNat_ofNat, decide_eq_true_eq, decide_eq_false_iff_not]
  constructor <;> omega

theorem execMbcmdReport_asks {v : W64} (hfree : (s.devReg 0x50008).getLsbD 63 = false) (hcmd : v.setWidth 8 = (1 : BitVec 8))
    (hbuf : bitsOf v 12 44 * 4096 + 4096 ≤ Config.hbmBytes) : ∃ u, execMbcmdReport v s = .next u ∧
      u.report = some (bitsOf v 12 44 * 4096) ∧ (u.devReg 0x50008).getLsbD 63 = true := by
  unfold execMbcmdReport
  extract_lets stat buf
  rw [if_neg (by rw [show stat = s.devReg 0x50008 from rfl, hfree]; exact Bool.false_ne_true), if_neg (not_not_intro hcmd),
    if_neg (Nat.not_lt.2 hbuf)]
  refine ⟨_, rfl, rfl, ?_⟩
  refine (congrArg (BitVec.getLsbD · 63) (devReg_setDevReg s (mailbox + 8) _)).trans ?_
  exact (busy_setBits _).1

/-- The report stands in its buffer, with the nonce that stood there (R394). -/
theorem execMbReportComplete_reports {buf : Nat} (h : s.report = some buf) : ∃ u, execMbReportComplete s = .next u ∧
    u.report = none ∧ (u.devReg 0x50008).getLsbD 63 = false ∧ memBytes u.mem buf 4 = leBytes 4 0x31414255 ∧
    memBytes u.mem (buf + 16) 32 = memBytes s.mem buf 32 := by
  unfold execMbReportComplete
  rw [h]
  dsimp -zeta only
  extract_lets body bs s1
  have hhead : ∃ rest, bs = [] ++ (leBytes 4 0x31414255 ++ rest) := by
    unfold bs body State.reportBody
    simp only [List.append_assoc, List.nil_append]
    exact ⟨_, rfl⟩
  have hnonce : ∃ x rest, x.length = 16 ∧ bs = x ++ (memBytes s.mem buf 32 ++ rest) := by
    unfold bs body State.reportBody
    refine ⟨leBytes 4 0x31414255 ++ (leBytes 4 1 ++ leBytes 8 (s.devReg 0x40000).toNat), ?_⟩
    simp only [List.append_assoc, List.length_append, leBytes_length]
    exact ⟨_, trivial, rfl⟩
  have hmem : s1.mem = memStore s.mem buf bs := rfl
  clear_value bs s1
  refine ⟨_, rfl, rfl, ?_, ?_, ?_⟩
  · refine (congrArg (BitVec.getLsbD · 63) (devReg_setDevReg s1 (mailbox + 8) _)).trans ?_
    exact (busy_setBits _).2
  · obtain ⟨rest, hrest⟩ := hhead
    have hread := memBytes_memStore_mid s.mem buf [] (leBytes 4 0x31414255) rest
    rw [← hrest, ← hmem, leBytes_length] at hread
    exact hread
  · obtain ⟨x, rest, hx, hrest⟩ := hnonce
    have hread := memBytes_memStore_mid s.mem buf x (memBytes s.mem buf 32) rest
    rw [← hrest, ← hmem, memBytes_length, hx] at hread
    exact hread

/-! ## Plain registers and operating points (R386, R396) -/

theorem execRegisterWrite_writes {off : Nat} {v m : W64} (h : s.writeMask off = some m) :
    ∃ u, execRegisterWrite off v s = .next u ∧ u.devReg off = (s.devReg off &&& ~~~m) ||| (v &&& m) ∧
      ∀ o, o ≠ off → u.devReg o = s.devReg o := by
  unfold execRegisterWrite
  rw [h]
  exact ⟨_, rfl, devReg_setDevReg .., fun o ho => devReg_setDevReg_ne _ off o _ ho⟩

theorem execRegisterWrite_ignored {off : Nat} {v : W64} (h : s.writeMask off = none) : execRegisterWrite off v s = .next s := by
  unfold execRegisterWrite
  rw [h]

theorem execSlotsWrite_writes (v : W64) : ∃ u, execSlotsWrite v s = .next u ∧ u.devReg 0x10008 = v &&& 0x3F :=
  ⟨_, rfl, devReg_setDevReg s (creel + 0x8) _⟩

theorem execOperatingPointChange_takes (point : BitVec 8) (mhz : BitVec 16) :
    (pointClock point.toNat = some mhz.toNat → ∃ u, execOperatingPointChange point mhz s = .next u ∧
      u.devReg 0x40028 = BitVec.ofNat 64 (point.toNat + mhz.toNat * 2 ^ 16)) ∧
    (pointClock point.toNat ≠ some mhz.toNat → execOperatingPointChange point mhz s = .next s) :=
  ⟨fun h => ⟨_, if_pos h, devReg_setDevReg ..⟩, fun h => if_neg h⟩

/-- Reset sets every unit back. -/
theorem execReset_resets : ∃ u, execReset s = .next u ∧ u.sh = State.reset.sh ∧ u.mem = State.reset.mem ∧
    u.dev = State.reset.dev ∧ u.tasks = [] ∧ u.queues = [] := ⟨_, rfl, rfl, rfl, rfl, rfl, rfl⟩

end

/-! ## The obligation -/

/-- Settles O59: each write and event is read off its definition; what the Creel does besides (mapping, ends of runs, interrupts)
leaves registers, requests, tasks and launches alone. -/
theorem deviceRegisters : Obligations.DeviceRegisters := by
  unfold Obligations.DeviceRegisters
  intro s q v off hq
  have hkick := exec_kick (s := s) hq v
  refine ⟨execReset_resets, fun i hi => ⟨fun h => ?_, fun hcb hdead hhalt x hx => ⟨fun he => ?_, fun he hroom hslot => ?_⟩⟩,
    fun hbusy => if_pos hbusy, fun hfree => execDestroy_taken hq hfree,
    fun r x hr hx hpkts hlaunches hmissing => execDestroyComplete_ends hr hx hpkts hlaunches hmissing, execSlotsWrite_writes v,
    ⟨_, rfl, rfl, rfl⟩, execTload_starts v, fun hbusy => if_pos hbusy, fun a ha => execTloadVerifyComplete_answers ha,
    execTfree_frees v, fun hbusy => execPreq_busy hbusy, fun x lid hfree hx hslot hdead hlid => ?_,
    fun r l hr hlid hl hmissing hidle => ?_, rfl, fun e rest h => execRreqRead_takes h, ?_,
    fun _ hs hix => execRgenreq_advances hs hix, fun hbusy => if_pos hbusy, execRivctlGo_starts, fun hbusy => if_pos hbusy,
    fun hfree hcmd hbuf => execMbcmdReport_asks hfree hcmd hbuf, fun buf h _ => execMbReportComplete_reports h,
    execRegisterWrite_ignored, fun m h => execRegisterWrite_writes h, execOperatingPointChange_takes⟩
  · rw [hkick i hi, kick_ignored h]
  · rw [hkick i hi, (kick_known hcb hdead hhalt hx).1 he]
  · obtain ⟨y, hy, hw⟩ := kick_publishes hcb hdead hhalt hx he hroom hslot
    exact ⟨s.kick q, y, hkick i hi, hy, hw⟩
  · exact ⟨_, execPreq_taken hfree hx hslot hdead hlid, requestPreempt_asks _ _⟩
  · have hmem : l ∈ s.launches := List.mem_of_find?_eq_some hl
    have hexec := execPreemptComplete_idle hr hlid hl hmissing hidle
    refine ⟨fun hfits => ⟨_, hexec.trans (by rw [if_neg (Nat.not_lt.2 hfits)]), writeImage_ends ..⟩,
      fun hlong => ⟨_, hexec.trans (by rw [if_pos hlong]), refusePreempt_ends hmem⟩⟩
  · obtain ⟨hnone, hsome⟩ := replyChunk_answers (s := s) (bitsOf v 32 20) (bitsOf v 0 32) (v.getLsbD 63)
    exact ⟨fun h => congrArg Host.Outcome.next (hnone h), fun r hr hix hch => ⟨_, rfl, hsome r hr hix hch⟩⟩

end Sys2Proof.Machine
end

section
namespace Sys2Proof

/-! # O5: what the encoder lays out, the decoder reads -/

/-! ## Fields of a word (R27 to R36) -/

/-- A field of a word: `n` bits from bit `lo` on, or the one bit `lo`. -/
inductive WordField where
  | bits (lo n : Nat)
  | bit (lo : Nat)

namespace WordField

abbrev lo : WordField → Nat
  | .bits lo _ => lo
  | .bit lo => lo

abbrev len : WordField → Nat
  | .bits _ n => n
  | .bit _ => 1

/-- What a field holds, as the constructors of `Instr` take it. -/
abbrev Val : WordField → Type
  | .bits _ n => BitVec n
  | .bit _ => Bool

/-- A field as the decoder reads it. -/
def get : (s : WordField) → W32 → s.Val
  | .bits lo n, w => w.extractLsb' lo n
  | .bit lo, w => w.getLsbD lo

/-- A field as the encoder writes it. -/
def put : (s : WordField) → s.Val → W32
  | .bits lo _, x => putField x lo
  | .bit lo, b => putBit b lo

/-- The bits of a value, and the value of these bits. -/
def toBits : (s : WordField) → s.Val → BitVec s.len
  | .bits _ _, x => x
  | .bit _, b => BitVec.ofBool b

def ofBits : (s : WordField) → BitVec s.len → s.Val
  | .bits _ _, x => x
  | .bit _, x => x.getLsbD 0

/-- The field lies in the word, and `w` has none of its bits set. -/
abbrev FreeIn (s : WordField) (w : W32) : Prop := s.lo + s.len ≤ 32 ∧ w.extractLsb' s.lo s.len = 0#s.len

/-- The fields share no bit. -/
abbrev Apart (s t : WordField) : Prop := s.lo + s.len ≤ t.lo ∨ t.lo + t.len ≤ s.lo

variable {s t : WordField} {w : W32}

theorem ofBits_toBits (x : s.Val) : s.ofBits (s.toBits x) = x := by
  cases s with
  | bits => rfl
  | bit => exact BitVec.getLsbD_ofBool x 0 |>.trans (by simp)

theorem put_eq (x : s.Val) : s.put x = putField (s.toBits x) s.lo := by
  cases s <;> rfl

theorem get_eq (w : W32) : s.get w = s.ofBits (w.extractLsb' s.lo s.len) := by
  cases s with
  | bits => rfl
  | bit lo =>
    change w.getLsbD lo = (w.extractLsb' lo 1).getLsbD 0
    rw [BitVec.getLsbD_extractLsb']
    rfl

end WordField

theorem getLsbD_putField {n : Nat} (x : BitVec n) (lo j : Nat) :
    (putField x lo).getLsbD j = (decide (j < 32) && decide (lo ≤ j) && x.getLsbD (j - lo)) := by
  unfold putField
  rw [BitVec.getLsbD_shiftLeft, BitVec.getLsbD_setWidth]
  by_cases hj : j < 32
  · simp only [hj, Nat.lt_of_le_of_lt (Nat.sub_le j lo) hj, decide_true, Bool.true_and, ← decide_not, Nat.not_lt]
  · simp [hj]

/-- A value is read back from its own bits. -/
theorem extractLsb'_putField_same {n lo : Nat} (x : BitVec n) (h : lo + n ≤ 32) : (putField x lo).extractLsb' lo n = x := by
  apply BitVec.eq_of_getLsbD_eq
  intro i hi
  rw [BitVec.getLsbD_extractLsb', getLsbD_putField]
  simp [hi, show lo + i < 32 by omega]

/-- No other bit is set. -/
theorem extractLsb'_putField_apart {n lo k m : Nat} (x : BitVec n) (h : k + m ≤ lo ∨ lo + n ≤ k) :
    (putField x lo).extractLsb' k m = 0#m := by
  apply BitVec.eq_of_getLsbD_eq
  intro i hi
  rw [BitVec.getLsbD_extractLsb', getLsbD_putField]
  rcases h with h | h
  · simp [show ¬ lo ≤ k + i by omega]
  · simp [BitVec.getLsbD_of_ge x (k + i - lo) (by omega)]

/-- A mask that leaves the bits out removes the value. -/
theorem putField_and_eq_zero {n lo : Nat} (x : BitVec n) {m : W32} (h : m.extractLsb' lo n = 0#n) :
    putField x lo &&& m = 0#32 := by
  apply BitVec.eq_of_getLsbD_eq
  intro j hj
  rw [BitVec.getLsbD_and, getLsbD_putField]
  by_cases hin : lo ≤ j ∧ j - lo < n
  · have hm := congrArg (BitVec.getLsbD · (j - lo)) h
    simp only [BitVec.getLsbD_extractLsb', hin.2, decide_true, Bool.true_and, Nat.add_sub_cancel' hin.1] at hm
    simp [hm]
  · by_cases hlo : lo ≤ j
    · simp [BitVec.getLsbD_of_ge x (j - lo) (by omega)]
    · simp [hlo]

/-- Bits that a mask keeps are those of the masked word. -/
theorem extractLsb'_of_and_eq {w m v : W32} {lo n : Nat} (h : w &&& m = v) (hm : m.extractLsb' lo n = BitVec.allOnes n) :
    w.extractLsb' lo n = v.extractLsb' lo n := by
  rw [← h, BitVec.extractLsb'_and, hm, BitVec.and_allOnes]

theorem getLsbD_of_and_eq {w m v : W32} {j : Nat} (h : w &&& m = v) (hm : m.getLsbD j = true) : w.getLsbD j = v.getLsbD j := by
  rw [← h, BitVec.getLsbD_and, hm, Bool.and_true]

/-- What a mask keeps of a word, a smaller mask keeps of the masked word. -/
theorem and_of_and_eq {w m k v : W32} (h : w &&& m = v) (hk : k &&& m = k) : w &&& k = v &&& k := by
  rw [← h, BitVec.and_assoc, BitVec.and_comm m, hk]

namespace WordField

variable {s t : WordField} {w : W32}

theorem get_or_put_same (h : s.FreeIn w) (x : s.Val) : s.get (w ||| s.put x) = x := by
  rw [get_eq, put_eq, BitVec.extractLsb'_or, h.2, extractLsb'_putField_same _ h.1, BitVec.zero_or, ofBits_toBits]

theorem get_or_put_apart (h : s.Apart t) (x : t.Val) : s.get (w ||| t.put x) = s.get w := by
  rw [get_eq, get_eq, put_eq, BitVec.extractLsb'_or, extractLsb'_putField_apart _ h, BitVec.or_zero]

theorem FreeIn.or_put (hw : s.FreeIn w) (h : s.Apart t) (x : t.Val) : s.FreeIn (w ||| t.put x) :=
  ⟨hw.1, by rw [put_eq, BitVec.extractLsb'_or, hw.2, extractLsb'_putField_apart _ h, BitVec.or_zero]⟩

theorem put_and_eq_zero {m : W32} (h : s.FreeIn m) (x : s.Val) : s.put x &&& m = 0#32 := by
  rw [put_eq, putField_and_eq_zero _ h.2]

theorem FreeIn.of_or_left {v m : W32} (h : s.FreeIn (v ||| m)) : s.FreeIn v := by
  have h0 := h.2
  rw [BitVec.extractLsb'_or, BitVec.or_eq_zero_iff] at h0
  exact ⟨h.1, h0.1⟩

theorem FreeIn.of_or_right {v m : W32} (h : s.FreeIn (v ||| m)) : s.FreeIn m :=
  FreeIn.of_or_left (by rwa [BitVec.or_comm])

end WordField

/-! ## Layouts: the fields of a word in the order of the instruction's arguments -/

abbrev Layout := List WordField

namespace Layout

/-- A function of the values of the fields, one by one. -/
def Fun : Layout → Type → Type
  | [], β => β
  | s :: L, β => s.Val → Fun L β

/-- A value for each field. -/
def Vals : Layout → Type
  | [] => Unit
  | s :: L => s.Val × Vals L

def apply {β : Type} : (L : Layout) → L.Fun β → L.Vals → β
  | [], f, _ => f
  | _ :: L, f, (x, xs) => apply L (f x) xs

/-- `f` of the fields as they stand in a word. -/
def read {β : Type} : (L : Layout) → L.Fun β → W32 → β
  | [], f, _ => f
  | s :: L, f, w => read L (f (s.get w)) w

/-- The word `w` with the fields put into it. -/
def fill : (L : Layout) → W32 → L.Vals → W32
  | [], w, _ => w
  | s :: L, w, (x, xs) => fill L (w ||| s.put x) xs

/-- A word of the fields alone. -/
def word : (L : Layout) → L.Vals → W32
  | [], _ => 0#32
  | s :: L, (x, xs) => fill L (s.put x) xs

/-- The fields share no bit with one another, and none with `w`. -/
def Fits (L : Layout) (w : W32) : Prop := L.Pairwise WordField.Apart ∧ ∀ s ∈ L, s.FreeIn w

/-- The same, computed. -/
def fits (L : Layout) (w : W32) : Bool := decide (L.Pairwise WordField.Apart) && decide (∀ s ∈ L, s.FreeIn w)

theorem fits_iff {L : Layout} {w : W32} : L.fits w = true ↔ L.Fits w := by
  rw [fits, Fits, Bool.and_eq_true, decide_eq_true_iff, decide_eq_true_iff]

theorem word_eq (L : Layout) (xs : L.Vals) : L.word xs = L.fill 0#32 xs := by
  cases L with
  | nil => rfl
  | cons s L => exact congrArg (fill L · xs.2) BitVec.zero_or.symm

/-- A field apart from those of a layout keeps what it holds. -/
theorem get_fill {s : WordField} (L : Layout) (h : ∀ t ∈ L, s.Apart t) (w : W32) (xs : L.Vals) :
    s.get (L.fill w xs) = s.get w := by
  induction L generalizing w with
  | nil => rfl
  | cons t L ih =>
    obtain ⟨x, xs⟩ := xs
    obtain ⟨ht, hL⟩ := List.forall_mem_cons.mp h
    exact (ih hL (w ||| t.put x) xs).trans (WordField.get_or_put_apart ht x)

/-- Fields put into a word are read back from it. -/
theorem read_fill {β : Type} (L : Layout) {w : W32} (h : L.Fits w) (f : L.Fun β) (xs : L.Vals) :
    L.read f (L.fill w xs) = L.apply f xs := by
  induction L generalizing w with
  | nil => rfl
  | cons s L ih =>
    obtain ⟨x, xs⟩ := xs
    obtain ⟨hs, hL⟩ := List.pairwise_cons.mp h.1
    obtain ⟨hsw, hLw⟩ := List.forall_mem_cons.mp h.2
    have hget : s.get (fill L (w ||| s.put x) xs) = x := (get_fill L hs _ xs).trans (WordField.get_or_put_same hsw x)
    have hfits : Fits L (w ||| s.put x) := ⟨hL, fun t ht => (hLw t ht).or_put (hs t ht).symm x⟩
    change read L (f (s.get (fill L (w ||| s.put x) xs))) (fill L (w ||| s.put x) xs) = apply L (f x) xs
    rw [hget]
    exact ih hfits (f x) xs

/-- Fields outside a mask do not show in it. -/
theorem fill_and (L : Layout) {m : W32} (h : ∀ s ∈ L, s.FreeIn m) (w : W32) (xs : L.Vals) : L.fill w xs &&& m = w &&& m := by
  induction L generalizing w with
  | nil => rfl
  | cons s L ih =>
    obtain ⟨x, xs⟩ := xs
    obtain ⟨hs, hL⟩ := List.forall_mem_cons.mp h
    refine (ih hL (w ||| s.put x) xs).trans ?_
    rw [BitVec.and_or_distrib_right, WordField.put_and_eq_zero hs, BitVec.or_zero]

theorem Fits.left {L : Layout} {v m : W32} (h : L.Fits (v ||| m)) : L.Fits v := ⟨h.1, fun s hs => (h.2 s hs).of_or_left⟩

theorem Fits.right {L : Layout} {v m : W32} (h : L.Fits (v ||| m)) : L.Fits m := ⟨h.1, fun s hs => (h.2 s hs).of_or_right⟩

end Layout

/-! ## The row that a word selects (R37, R38) -/

namespace Row

/-- Every bit that tells the row from the others or is fixed in it. -/
def fixed (r : Row) : W32 := r.sel ||| r.mask

theorem sel_and_fixed (r : Row) : r.sel &&& r.fixed = r.sel := by
  ext i
  simp +contextual [fixed]

theorem mask_and_fixed (r : Row) : r.mask &&& r.fixed = r.mask := by
  ext i
  simp +contextual [fixed]

/-- No word is selected by both rows. -/
abbrev Apart (q r : Row) : Prop := q.val &&& (q.sel &&& r.sel) ≠ r.val &&& (q.sel &&& r.sel)

/-- What holds of each row of the opcode map: its fixed bits cover the major, are those of neither illegal word, and no value
is given to another bit. -/
abbrev WellMade (r : Row) : Prop :=
  r.mask.extractLsb' 26 6 = BitVec.allOnes 6 ∧ r.val ≠ 0#32 ∧ r.val ≠ r.fixed ∧ r.val &&& r.mask = r.val

end Row

theorem rowsOf_wellMade (op : BitVec 6) : ∀ r ∈ rowsOf op, r.WellMade := by
  have h : ∀ n < 64, ∀ r ∈ rowsOf (BitVec.ofNat 6 n), r.WellMade := by decide +kernel
  have hop := h op.toNat op.isLt
  rwa [BitVec.ofNat_toNat, BitVec.setWidth_eq] at hop

/-- The rows of a major are told apart by their minors; NOP alone is one value of the field of HINT. -/
theorem rowsOf_apart (op : BitVec 6) (h : op ≠ 0x12) : (rowsOf op).Pairwise Row.Apart := by
  have key : ∀ n < 64, n ≠ 0x12 → (rowsOf (BitVec.ofNat 6 n)).Pairwise Row.Apart := by decide +kernel
  have hop := key op.toNat op.isLt fun e => h (BitVec.eq_of_toNat_eq e)
  rwa [BitVec.ofNat_toNat, BitVec.setWidth_eq] at hop

/-- The row whose minor a word has. -/
noncomputable def selectedRow (w : W32) : Option Row :=
  (rowsOf (majorOf w)).find? fun r => decide (w &&& r.sel = r.val &&& r.sel)

/-- Among rows that are told apart, a word selects the one whose minor it has. -/
theorem find?_selected {rows : List Row} {r : Row} {w : W32} (ha : rows.Pairwise Row.Apart) (hr : r ∈ rows)
    (hw : w &&& r.sel = r.val &&& r.sel) : rows.find? (fun r => decide (w &&& r.sel = r.val &&& r.sel)) = some r := by
  induction rows with
  | nil => cases hr
  | cons q rows ih =>
    obtain ⟨hq, ha⟩ := List.pairwise_cons.mp ha
    rcases List.mem_cons.mp hr with rfl | hr
    · exact List.find?_cons_of_pos (decide_eq_true hw)
    · have hneq : ¬ w &&& q.sel = q.val &&& q.sel := fun hwq => hq r hr <|
        calc q.val &&& (q.sel &&& r.sel)
          _ = w &&& q.sel &&& r.sel := by rw [← BitVec.and_assoc, ← hwq]
          _ = w &&& r.sel &&& q.sel := by rw [BitVec.and_assoc, BitVec.and_comm q.sel, ← BitVec.and_assoc]
          _ = r.val &&& (q.sel &&& r.sel) := by rw [hw, BitVec.and_assoc, BitVec.and_comm q.sel]
      rw [List.find?_cons_of_neg (by rwa [decide_eq_true_eq]), ih ha hr]

/-- The row whose fixed bits are `v`. -/
noncomputable def rowAt (v : W32) : Option Row := (rowsOf (majorOf v)).find? fun r => decide (r.val = v)

/-- What is tested of a word after its reserved fields (R39). -/
def Row.Accepts (r : Row) (st : Stream) (w : W32) : Prop :=
  (∃ b, r.build = .word b ∧ (b w).wfIn st = true) ∨ ∃ n m b, r.build = .command n m b ∧ (hdrOf w).wf = true

section
variable {r : Row} {v w : W32} {st : Stream}

theorem mem_of_rowAt (h : rowAt v = some r) : r ∈ rowsOf (majorOf v) ∧ r.val = v :=
  ⟨List.mem_of_find?_eq_some h, of_decide_eq_true (List.find?_some (p := fun r : Row => decide (r.val = v)) h)⟩

theorem majorOf_of_fixed (hr : rowAt v = some r) (hw : w &&& r.fixed = v) : majorOf w = majorOf v := by
  obtain ⟨hmem, -⟩ := mem_of_rowAt hr
  obtain ⟨hmajor, -⟩ := rowsOf_wellMade _ r hmem
  exact extractLsb'_of_and_eq hw (by rw [Row.fixed, BitVec.extractLsb'_or, hmajor, BitVec.or_allOnes])

/-- The rows of a major are told apart by their minors, but for NOP and HINT. -/
theorem selectedRow_of_fixed (hr : rowAt v = some r) (hw : w &&& r.fixed = v) (hv : majorOf v ≠ 0x12) :
    selectedRow w = some r := by
  rw [selectedRow, majorOf_of_fixed hr hw]
  obtain ⟨hmem, rfl⟩ := mem_of_rowAt hr
  exact find?_selected (rowsOf_apart _ hv) hmem (and_of_and_eq hw r.sel_and_fixed)

/-- A word with the fixed bits of the row that it selects decodes by this row where its stream and fields allow. -/
theorem decodeRow_of_selected (hr : rowAt v = some r) (hw : w &&& r.fixed = v) (hsel : selectedRow w = some r)
    (hst : st ∈ r.streams) (ha : r.Accepts st w) : decodeRow st w = .ok r := by
  obtain ⟨hmem, hval⟩ := mem_of_rowAt hr
  obtain ⟨-, hzero, hones, hmask⟩ := rowsOf_wellMade _ r hmem
  rw [hval] at hzero hones hmask
  rw [← majorOf_of_fixed hr hw] at hmem
  have hm : w &&& r.mask = v := by
    rw [and_of_and_eq hw r.mask_and_fixed, hmask]
  have hw0 : ¬(w = 0#32 ∨ w = 0xFFFFFFFF#32) := by
    rintro (rfl | rfl)
    · exact hzero (by rw [← hw, BitVec.zero_and])
    · exact hones (by rw [← hw]; exact BitVec.allOnes_and)
  have hne : (rowsOf (majorOf w)).isEmpty = false := List.isEmpty_eq_false_iff.mpr (List.ne_nil_of_mem hmem)
  have hany : (rowsOf (majorOf w)).any (fun r => r.streams.contains st) = true :=
    List.any_eq_true.mpr ⟨r, hmem, List.contains_iff_mem.mpr hst⟩
  rw [selectedRow] at hsel
  unfold decodeRow
  rw [if_neg hw0]
  dsimp only
  rw [if_neg (by rw [hne]; exact Bool.false_ne_true), if_neg (by rw [hany]; exact Bool.false_ne_true), hsel]
  dsimp only
  rw [if_neg (by simp [hst]), if_neg (by simp [hm, hval])]
  rcases ha with ⟨b, hb, hwf⟩ | ⟨n, m, b, hb, hwf⟩
  · rw [hb]; exact if_pos hwf
  · rw [hb]; exact if_pos hwf

/-- A word that decodes does so by the row that it selects, whatever the stream. -/
theorem selectedRow_of_decodeRow (h : decodeRow st w = .ok r) : selectedRow w = some r := by
  rw [selectedRow]
  unfold decodeRow at h
  split at h
  · cases h
  dsimp only at h
  split at h
  · cases h
  split at h
  · cases h
  split at h
  · cases h
  next q hq =>
    rw [hq]
    split at h
    · cases h
    split at h
    · cases h
    split at h
    all_goals
      split at h
      · exact congrArg some (Except.ok.inj h)
      · cases h

end

/-- The streams that read an instruction from the same words read the same one. -/
theorem decode_ok_unique {st st' : Stream} {w : W32} {ws : List W32} {i j : Instr} (hi : decode st w ws = .ok i)
    (hj : decode st' w ws = .ok j) : j = i := by
  have row {st : Stream} {i : Instr} (h : decode st w ws = .ok i) : ∃ r, selectedRow w = some r ∧ r.instr w ws = .ok i := by
    unfold decode at h
    split at h
    · cases h
    · next r hr => exact ⟨r, selectedRow_of_decodeRow hr, h⟩
  obtain ⟨r, hr, hi⟩ := row hi
  obtain ⟨q, hq, hj⟩ := row hj
  obtain rfl := Option.some.inj (hr.symm.trans hq)
  exact Except.ok.inj (hj.symm.trans hi)

/-! ## What is encoded is read back -/

/-- The first word of the instruction and the words after it decode, in some stream, to it. -/
def Instr.ReadsBack (i : Instr) : Prop :=
  ∀ w ws, encode i = w :: ws → ∃ st, decode st w ws = .ok i

section
variable {i : Instr} {v w : W32} {r : Row}

/-- Some stream of the row issues the instruction: one that has token bits, or C where these are 0 (R33). -/
def Row.mayIssue (r : Row) (i : Instr) : Bool :=
  r.streams.any (fun st => decide (st ≠ .c)) || (r.streams.contains .c && decide (i.tok = 0))

theorem exists_stream (h : r.mayIssue i = true) (hwf : i.wf = true) : ∃ st ∈ r.streams, i.wfIn st = true := by
  rcases Bool.or_eq_true_iff.mp h with h | h
  · obtain ⟨st, hst, hc⟩ := List.any_eq_true.mp h
    exact ⟨st, hst, by rw [Instr.wfIn, hwf, hc]; rfl⟩
  · obtain ⟨hc, ht⟩ := Bool.and_eq_true_iff.mp h
    exact ⟨.c, List.contains_iff_mem.mp hc, by rw [Instr.wfIn, hwf, ht]; rfl⟩

/-- A word that is read as the instruction by the row that it selects. -/
theorem readsBack_of_selected (hwf : i.wf = true) {b : W32 → Instr} (henc : encode i = [w]) (hr : rowAt v = some r)
    (hb : r.build = .word b) (hw : w &&& r.fixed = v) (hsel : selectedRow w = some r) (hread : b w = i)
    (hst : r.mayIssue i = true) : i.ReadsBack := by
  intro w' ws' h
  obtain ⟨rfl, rfl⟩ := List.cons.inj (henc.symm.trans h)
  obtain ⟨st, hst, hi⟩ := exists_stream hst hwf
  have ha : r.Accepts st w := .inl ⟨b, hb, by rwa [hread]⟩
  refine ⟨st, ?_⟩
  unfold decode
  rw [decodeRow_of_selected hr hw hsel hst ha]
  dsimp only [Row.instr]
  rw [hb, ← hread]

/-- What is computed of a row, the constant bits `v` of its words and their layout: the row is none of NOP's major, and the fields
share no bit with what it fixes or with one another. -/
def Row.laysOut (r : Row) (v : W32) (L : Layout) : Bool :=
  decide (majorOf v ≠ 0x12) && decide (v &&& r.fixed = v) && L.fits (v ||| r.fixed)

theorem Row.laysOut_iff {L : Layout} :
    r.laysOut v L = true ↔ majorOf v ≠ 0x12 ∧ v &&& r.fixed = v ∧ L.Fits (v ||| r.fixed) := by
  simp only [laysOut, Bool.and_eq_true, decide_eq_true_eq, Layout.fits_iff, and_assoc]

/-- A word whose fields are laid out as its row reads them, given the bits that the row fixes. -/
theorem readsBack_of_fixed (hwf : i.wf = true) (L : Layout) (xs : L.Vals) {f : L.Fun Instr} {b : W32 → Instr}
    (hi : L.apply f xs = i) (henc : encode i = [L.fill v xs]) (hr : rowAt v = some r) (hb : r.build = .word b)
    (hread : ∀ w, w &&& r.fixed = v → b w = L.read f w) (hL : (r.laysOut v L && r.mayIssue i) = true) : i.ReadsBack := by
  obtain ⟨hL, hst⟩ := Bool.and_eq_true_iff.mp hL
  obtain ⟨hmajor, hval, hL⟩ := Row.laysOut_iff.mp hL
  have hw : L.fill v xs &&& r.fixed = v := (L.fill_and hL.right.2 v xs).trans hval
  refine readsBack_of_selected hwf henc hr hb hw (selectedRow_of_fixed hr hw hmajor) ?_ hst
  rw [hread _ hw, L.read_fill hL.left, hi]

/-- A word whose fields are laid out as its row reads them. -/
theorem readsBack_word (hwf : i.wf = true) (L : Layout) (xs : L.Vals) {f : L.Fun Instr} (hi : L.apply f xs = i)
    (henc : encode i = [L.fill v xs]) (hr : rowAt v = some r) (hb : r.build = .word (L.read f))
    (hL : (r.laysOut v L && r.mayIssue i) = true) : i.ReadsBack :=
  readsBack_of_fixed hwf L xs hi henc hr hb (fun _ _ => rfl) hL

end

/-! ## Engine commands (R34) -/

/-- The fields of a header besides its count and command code. -/
abbrev hdrLayout : Layout := [.bits 16 3, .bits 11 5, .bits 6 5, .bit 5, .bit 4, .bits 0 4]

def Hdr.vals (h : Hdr) : hdrLayout.Vals := (h.cc, h.wt, h.sg, h.aq, h.rl, h.sc, ())

theorem encodeHdr_eq (v : W32) (h : Hdr) : encodeHdr v h = hdrLayout.fill v h.vals := rfl

theorem hdrOf_encodeHdr {v : W32} (hv : hdrLayout.Fits v) (h : Hdr) : hdrOf (encodeHdr v h) = h := by
  rw [encodeHdr_eq]
  exact hdrLayout.read_fill hv Hdr.mk h.vals

/-- A step word holds its fields, and 0 in the bits of a mask that leaves them out. -/
theorem Layout.word_reads {β : Type} (L : Layout) {m : W32} (h : L.fits m = true) (f : L.Fun β) (xs : L.Vals) :
    L.word xs &&& m = 0 ∧ L.read f (L.word xs) = L.apply f xs := by
  have hm := fits_iff.mp h
  have h0 : L.Fits 0#32 := Fits.left (m := m) (by rwa [BitVec.zero_or])
  rw [L.word_eq, L.fill_and hm.2, L.read_fill h0]
  exact ⟨BitVec.zero_and, rfl⟩

/-- What a row makes of a step word whose reserved bits it finds 0, and of two of them. -/
theorem stepWord_reads (L : Layout) {f : L.Fun Instr} {i : Instr} (xs : L.Vals) (hi : L.apply f xs = i) {m : W32}
    (h : L.fits m = true) : (if L.word xs &&& m = 0 then some (L.read f (L.word xs)) else none) = some i := by
  obtain ⟨h0, hread⟩ := L.word_reads h f xs
  rw [if_pos h0, hread, hi]

theorem stepWords_read (K L : Layout) {f : K.Fun (L.Fun Instr)} {i : Instr} (xs : K.Vals) (ys : L.Vals)
    (hi : L.apply (K.apply f xs) ys = i) {m n : W32} (h : (K.fits m && L.fits n) = true) :
    (if K.word xs &&& m = 0 ∧ L.word ys &&& n = 0 then some (L.read (K.read f (K.word xs)) (L.word ys)) else none) =
      some i := by
  obtain ⟨hm, hn⟩ := Bool.and_eq_true_iff.mp h
  obtain ⟨hk0, hkread⟩ := K.word_reads hm f xs
  obtain ⟨hl0, hlread⟩ := L.word_reads hn (K.apply f xs) ys
  rw [if_pos ⟨hk0, hl0⟩, hkread, hlread, hi]

section
variable {i : Instr} {v : W32} {ws : List W32} {r : Row} {h : Hdr}

/-- The tests of a command begin with its header's. -/
theorem wf_of_tests {a : Bool} {tests : List Bool} (h : tests.foldl and a = true) : a = true := by
  induction tests generalizing a with
  | nil => exact h
  | cons t tests ih => exact (Bool.and_eq_true_iff.mp (ih h)).1

/-- A command whose step words are read as its row reads them; `tests` are those of its fields after its header's. -/
theorem readsBack_command (hwf : i.wf = true) {n : Nat} {m : Bool} {b : Hdr → List W32 → Option Instr}
    (henc : encode i = encodeHdr v h :: ws) (hr : rowAt v = some r) (hb : r.build = .command n m b) (hsteps : b h ws = some i)
    (hL : (r.laysOut v hdrLayout && r.streams.contains .c) = true) (tests : List Bool) (hh : tests.foldl and h.wf = i.wf) :
    i.ReadsBack := by
  intro w' ws' he
  obtain ⟨rfl, rfl⟩ := List.cons.inj (henc.symm.trans he)
  obtain ⟨hL, hst⟩ := Bool.and_eq_true_iff.mp hL
  obtain ⟨hmajor, hval, hL⟩ := Row.laysOut_iff.mp hL
  have hhdr : hdrOf (encodeHdr v h) = h := hdrOf_encodeHdr hL.left h
  have hw : encodeHdr v h &&& r.fixed = v := by
    rw [encodeHdr_eq, hdrLayout.fill_and hL.right.2]
    exact hval
  have ha : r.Accepts .c (encodeHdr v h) := .inr ⟨n, m, b, hb, by rw [hhdr]; exact wf_of_tests (hh.trans hwf)⟩
  refine ⟨.c, ?_⟩
  unfold decode
  rw [decodeRow_of_selected hr hw (selectedRow_of_fixed hr hw hmajor) (List.contains_iff_mem.mp hst) ha]
  dsimp only [Row.instr]
  rw [hb]
  dsimp only
  rw [hhdr, hsteps]
  exact if_pos hwf

end

/-! ## Words with a field that tells rows apart -/

/-- The types of a float word, each with a major of its own (R31, R132). -/
theorem float_type_cases {t : BitVec 2} {b : Bool} (h : (decide (t.toNat ≤ 2) && b) = true) : t = 0 ∨ t = 1 ∨ t = 2 := by
  have ht := of_decide_eq_true (Bool.and_eq_true_iff.mp h).1
  clear h
  revert t
  decide

/-- Of the words of their major, NOP's row takes its own and HINT's all others (R74). -/
theorem readsBack_hint {h : BitVec 6} (hwf : (Instr.hint h).wf = true) : (Instr.hint h).ReadsBack := by
  have hL : Layout.Fits [.bits 5 6] (0x48000000#32 ||| rowHint.fixed) := Layout.fits_iff.mp rfl
  have hread : (0x48000000#32 ||| putField h 5).extractLsb' 5 6 = h := Layout.read_fill [.bits 5 6] hL.left id (h, ())
  have hw : (0x48000000#32 ||| putField h 5) &&& rowHint.fixed = 0x48000000#32 :=
    Layout.fill_and [.bits 5 6] hL.right.2 0x48000000#32 (h, ())
  have hnop : ¬ (0x48000000#32 ||| putField h 5) &&& rowNop.sel = rowNop.val &&& rowNop.sel := fun e => by
    obtain rfl : h = 1 := hread.symm.trans (extractLsb'_of_and_eq e rfl)
    exact absurd hwf (by decide)
  have hsel : selectedRow (0x48000000#32 ||| putField h 5) = some rowHint := by
    rw [selectedRow, majorOf_of_fixed (v := 0x48000000#32) (r := rowHint) rfl hw]
    refine (List.find?_cons_of_neg (l := [rowHint]) (a := rowNop) (by rwa [decide_eq_true_eq])).trans ?_
    exact List.find?_cons_of_pos (decide_eq_true (and_of_and_eq hw rowHint.sel_and_fixed))
  exact readsBack_of_selected hwf rfl rfl rfl hw hsel (congrArg Instr.hint hread) rfl

/-- Operation 8 of OATOM has a row of its own. -/
theorem readsBack_oatom {d a : BitVec 5} {o l : BitVec 4} (hwf : (Instr.oatom d a o l).wf = true) :
    (Instr.oatom d a o l).ReadsBack := by
  let w : W32 := 0xF4004000#32 ||| putField d 21 ||| putField a 16 ||| putField o 8 ||| putField l 4
  have hread : Instr.oatom (w.extractLsb' 21 5) (w.extractLsb' 16 5) (w.extractLsb' 8 4) (w.extractLsb' 4 4) = .oatom d a o l :=
    Layout.read_fill [.bits 21 5, .bits 16 5, .bits 8 4, .bits 4 4] (w := 0xF4004000#32) (Layout.fits_iff.mp rfl) Instr.oatom
      (d, a, o, l, ())
  have hfixed {m : W32} (hda : Layout.fits [.bits 21 5, .bits 16 5] m = true) (hl : Layout.fits [.bits 4 4] m = true) :
      w &&& m = (0xF4004000#32 ||| putField o 8) &&& m := by
    calc w &&& m
      _ = (0xF4004000#32 ||| putField d 21 ||| putField a 16 ||| putField o 8) &&& m :=
        Layout.fill_and [.bits 4 4] (Layout.fits_iff.mp hl).2 _ (l, ())
      _ = (0xF4004000#32 ||| putField d 21 ||| putField a 16) &&& m ||| putField o 8 &&& m := BitVec.and_or_distrib_right
      _ = 0xF4004000#32 &&& m ||| putField o 8 &&& m :=
        congrArg (· ||| putField o 8 &&& m) (Layout.fill_and [.bits 21 5, .bits 16 5] (Layout.fits_iff.mp hda).2 _ (d, a, ()))
      _ = (0xF4004000#32 ||| putField o 8) &&& m := BitVec.and_or_distrib_right.symm
  have hlow : ∀ o : BitVec 4, o.toNat < 8 → (0xF4004000#32 ||| putField o 8) &&& rowOatom.fixed = 0xF4004000#32 := by decide
  have ho : o.toNat ≤ 8 := of_decide_eq_true (Bool.and_eq_true_iff.mp hwf).2
  obtain rfl | ho : o = 8 ∨ o.toNat < 8 := by bv_omega
  · have hw : w &&& rowOatom48.fixed = 0xF4004800#32 := hfixed rfl rfl
    exact readsBack_of_selected hwf rfl rfl rfl hw (selectedRow_of_fixed rfl hw (by decide)) hread rfl
  · have hw : w &&& rowOatom.fixed = 0xF4004000#32 := (hfixed rfl rfl).trans (hlow o ho)
    exact readsBack_of_selected hwf rfl rfl rfl hw (selectedRow_of_fixed rfl hw (by decide)) hread rfl

/-! ## Each instruction -/

/-- Each case gives the layout of the instruction's words, its fields in the order in which the encoder puts them; that the
encoder's arm and the row of the opcode map are of that layout is computed. -/
theorem readsBack {i : Instr} (hwf : i.wf = true) (ht : i.ofTreadle = false) : i.ReadsBack := by
  cases i with
  | add d a b | sub d a b | and d a b | or d a b | xor d a b | andn d a b | sll d a b | srl d a b | sra d a b | min d a b
    | max d a b | minu d a b | maxu d a b | mul d a b | mulh d a b | mulhu d a b | div d a b | divu d a b | rem d a b
    | remu d a b | seq d a b | sne d a b | slt d a b | sltu d a b =>
    exact readsBack_word hwf [.bits 21 _, .bits 16 _, .bits 11 _] (d, a, b, ()) rfl rfl rfl rfl rfl
  | clz d a | ctz d a | pop d a | mcall d a =>
    exact readsBack_word hwf [.bits 21 _, .bits 16 _] (d, a, ()) rfl rfl rfl rfl rfl
  | sel d a b m =>
    exact readsBack_word hwf [.bits 21 _, .bits 16 _, .bits 11 _, .bits 0 _] (d, a, b, m, ()) rfl rfl rfl rfl rfl
  | addi d a i | andi d a i | ori d a i | xori d a i | ldb d a i | ldh d a i | ldw d a i | ldbs d a i | ldhs d a i
    | ldws d a i | stb d a i | sth d a i | stw d a i | std d a i | beq d a i | bne d a i | blt d a i | bge d a i | bltu d a i
    | bgeu d a i | mxsr d a i | adda d a i | vunsp d a i =>
    exact readsBack_word hwf [.bits 21 _, .bits 16 _, .bits 0 _] (d, a, i, ()) rfl rfl rfl rfl rfl
  | slli d a p | srli d a p | srai d a p =>
    exact readsBack_word hwf [.bits 21 _, .bits 16 _, .bits 10 _] (d, a, p, ()) rfl rfl rfl rfl rfl
  | extu d a p w | exts d a p w | ins d a p w =>
    exact readsBack_word hwf [.bits 21 _, .bits 16 _, .bits 10 _, .bits 4 _] (d, a, p, w, ()) rfl rfl rfl rfl rfl
  | movz d h i | movk d h i =>
    exact readsBack_word hwf [.bits 21 _, .bits 19 _, .bits 0 _] (d, h, i, ()) rfl rfl rfl rfl rfl
  | ldd v a o sx =>
    exact readsBack_word hwf [.bits 21 _, .bits 16 _, .bits 0 _, .bit 13] (v, a, o, sx, ()) rfl rfl rfl rfl rfl
  | jmp x | call x | mpop x | mclr x | vdscale x | shpop x | tnopX x | tnopLs x | dtset x | tend x | brk x | dfwd x | drev x =>
    exact readsBack_word hwf [.bits 0 _] (x, ()) rfl rfl rfl rfl rfl
  | jr a | callr a | feset a | feclr a | mark a | ckmark a | abtok a =>
    exact readsBack_word hwf [.bits 16 _] (a, ()) rfl rfl rfl rfl rfl
  | ret | tret =>
    exact readsBack_word hwf [] () rfl rfl rfl rfl rfl
  | loop l g f a o =>
    exact readsBack_word hwf [.bits 23 _, .bit 20, .bit 19, .bits 14 _, .bits 0 _] (l, g, f, a, o, ()) rfl rfl rfl rfl rfl
  | endl l | endlX l =>
    exact readsBack_word hwf [.bits 23 _] (l, ()) rfl rfl rfl rfl rfl
  | mfsr d x | msave d x | qpopvX d x | qpopa d x | qpushvL d x | qpopvS d x | sendlLs d x | sendlExitLs d x | semsig d x =>
    exact readsBack_word hwf [.bits 21 _, .bits 0 _] (d, x, ()) rfl rfl rfl rfl rfl
  | mtsr a x | qpush a x | ccwait a x | mpushr a x | qpushvX a x | qpusha a x =>
    exact readsBack_word hwf [.bits 16 _, .bits 0 _] (a, x, ()) rfl rfl rfl rfl rfl
  | qpop d =>
    exact readsBack_word hwf [.bits 21 _] (d, ()) rfl rfl rfl rfl rfl
  | vabs d a b e k | vneg d a b e k | vsqrt d a b e k | vrint d a b e k | vrcpe d a b e k | vrsqe d a b e k | vex2e d a b e k
    | vlg2e d a b e k | vceqFloat d a b e k | vcneFloat d a b e k | vcltFloat d a b e k | vcleFloat d a b e k
    | vcun d a b e k | vaddInt d a b e k | vsubInt d a b e k | vmulInt d a b e k | vmulh d a b e k | vadds d a b e k
    | vsubs d a b e k | vminInt d a b e k | vmaxInt d a b e k | vabsd d a b e k | vdivInt d a b e k | vrem d a b e k
    | vand d a b e k | vor d a b e k | vxor d a b e k | vandn d a b e k | vsll d a b e k | vsrl d a b e k | vsra d a b e k
    | vpacks d a b e k | vpackt d a b e k | vperm d a b e k | vperm2 d a b e k | vzipl d a b e k | vziph d a b e k
    | vuzpe d a b e k | vuzpo d a b e k | vsel d a b e k | vrdot d a b e k | vrsuma d a b e k =>
    exact readsBack_word hwf [.bits 21 _, .bits 16 _, .bits 11 _, .bits 8 _, .bits 0 _] (d, a, b, e, k, ()) rfl rfl rfl rfl
      rfl
  | vceqInt a b e k | vcneInt a b e k | vcltInt a b e k | vcleInt a b e k =>
    exact readsBack_word hwf [.bits 16 _, .bits 11 _, .bits 8 _, .bits 0 _] (a, b, e, k, ()) rfl rfl rfl rfl rfl
  | vnot d a e k | vaddiI32 d a e k | vaddiI16 d a e k | vaddiI8 d a e k | vslli32 d a e k | vsrli32 d a e k
    | vsrai32 d a e k | vslli16 d a e k | vsrli16 d a e k | vsrai16 d a e k | vsplat32 d a e k | vsldn32 d a e k
    | vslup32 d a e k | vunpkl d a e k | vunpkh d a e k | vrev d a e k | vrsum d a e k | vrssq d a e k | vscan d a e k
    | vscnx d a e k | vrmax d a e k | vrmin d a e k =>
    exact readsBack_word hwf [.bits 21 _, .bits 16 _, .bits 8 _, .bits 0 _] (d, a, e, k, ()) rfl rfl rfl rfl rfl
  | vmovi32 d i k | vfmoviF32 d i k | vbcq d i k | shft d i k =>
    exact readsBack_word hwf [.bits 21 _, .bits 8 _, .bits 0 _] (d, i, k, ()) rfl rfl rfl rfl rfl
  | vcvt d a s p r f k =>
    exact readsBack_word hwf [.bits 21 _, .bits 16 _, .bit 15, .bits 11 _, .bits 8 _, .bits 4 _, .bits 0 _]
      (d, a, s, p, r, f, k, ()) rfl rfl rfl rfl rfl
  | minv w k | shrm w k =>
    exact readsBack_word hwf [.bits 8 _, .bits 0 _] (w, k, ()) rfl rfl rfl rfl rfl
  | vamax a t k =>
    exact readsBack_word hwf [.bits 16 _, .bits 8 _, .bits 0 _] (a, t, k, ()) rfl rfl rfl rfl rfl
  | mrd v l t r k | mrdc v l t r k | mrdr v l t r k =>
    exact readsBack_word hwf [.bits 21 _, .bits 16 _, .bits 14 _, .bits 8 _, .bits 0 _] (v, l, t, r, k, ()) rfl rfl rfl rfl
      rfl
  | sloopX f o l k =>
    exact readsBack_word hwf [.bits 24 _, .bits 16 _, .bits 4 _, .bits 0 _] (f, o, l, k, ()) rfl rfl rfl rfl rfl
  | sendlX x k | sendlExitX x k | qdropX x k | qdropLs x k | acq x k | rel x k =>
    exact readsBack_word hwf [.bits 4 _, .bits 0 _] (x, k, ()) rfl rfl rfl rfl rfl
  | vld v a x i m o k =>
    exact readsBack_word hwf [.bits 21 _, .bits 16 _, .bit 15, .bit 14, .bits 12 _, .bits 4 _, .bits 0 _]
      (v, a, x, i, m, o, k, ()) rfl rfl rfl rfl rfl
  | vst v a i m o k =>
    exact readsBack_word hwf [.bits 21 _, .bits 16 _, .bit 14, .bits 12 _, .bits 4 _, .bits 0 _] (v, a, i, m, o, k, ()) rfl
      rfl rfl rfl rfl
  | sloopLs l g f o k =>
    exact readsBack_word hwf [.bits 21 _, .bit 17, .bit 16, .bits 4 _, .bits 0 _] (l, g, f, o, k, ()) rfl rfl rfl rfl rfl
  | ccwaitLs c n k | barwait c n k | semwait c n k =>
    exact readsBack_word hwf [.bits 21 _, .bits 4 _, .bits 0 _] (c, n, k, ()) rfl rfl rfl rfl rfl
  | aaddi d a i k | aaddv d a i k | aadd d a i k | asub d a i k | aslli d a i k | dpld d a i k | dgld d a i k | dgldc d a i k
    | vldfe d a i k | vstef d a i k =>
    exact readsBack_word hwf [.bits 21 _, .bits 16 _, .bits 4 _, .bits 0 _] (d, a, i, k, ()) rfl rfl rfl rfl rfl
  | ginfo d g | bararr d g | barsync d g =>
    exact readsBack_word hwf [.bits 21 _, .bits 4 _] (d, g, ()) rfl rfl rfl rfl rfl
  | torder l =>
    exact readsBack_word hwf [.bits 4 _] (l, ()) rfl rfl rfl rfl rfl
  | ldf d a l | ldfe d a l | stef d a l | barpost d a l | lds d a l | ldsAcq d a l | sts d a l | stsRel d a l | cldecl d a l =>
    exact readsBack_word hwf [.bits 21 _, .bits 16 _, .bits 4 _] (d, a, l, ()) rfl rfl rfl rfl rfl
  | join l c | fence l c =>
    exact readsBack_word hwf [.bits 16 _, .bits 4 _] (l, c, ()) rfl rfl rfl rfl rfl
  | atom d a o c | atomRel d a o c =>
    exact readsBack_word hwf [.bits 21 _, .bits 16 _, .bits 8 _, .bits 4 _] (d, a, o, c, ()) rfl rfl rfl rfl rfl
  | vatom v a o c k | vatomRel v a o c k =>
    exact readsBack_word hwf [.bits 21 _, .bits 16 _, .bits 8 _, .bits 4 _, .bits 0 _] (v, a, o, c, k, ()) rfl rfl rfl rfl rfl
  | cladd d a o =>
    exact readsBack_word hwf [.bits 21 _, .bits 16 _, .bits 8 _] (d, a, o, ()) rfl rfl rfl rfl rfl
  | mzero h tm anc as fx lv =>
    exact readsBack_command hwf rfl rfl rfl (stepWord_reads [.bits 28 _, .bits 20 _, .bit 19, .bits 13 _, .bits 10 _]
      (tm, anc, as, fx, lv, ()) rfl rfl) rfl [_, _, _, _] rfl
  | mma h t fx lv snp ta tb mca mcb tri sn sd ss sb sa =>
    exact readsBack_command hwf rfl rfl rfl
      (stepWords_read [.bits 30 _, .bits 24 _, .bits 21 _, .bit 20, .bit 19, .bit 18, .bit 17, .bit 16, .bits 14 _]
      [.bits 20 _, .bits 15 _, .bits 10 _, .bits 5 _, .bits 0 _] (t, fx, lv, snp, ta, tb, mca, mcb, tri, ())
      (sn, sd, ss, sb, sa, ()) rfl rfl) rfl [_, _, _] rfl
  | mbias h t fx lv snp sn sd sa =>
    exact readsBack_command hwf rfl rfl rfl (stepWords_read [.bits 30 _, .bits 24 _, .bits 21 _, .bit 20]
      [.bits 20 _, .bits 15 _, .bits 0 _] (t, fx, lv, snp, ()) (sn, sd, sa, ()) rfl rfl) rfl [_, _, _] rfl
  | maddt h td ts cs =>
    exact readsBack_command hwf rfl rfl rfl (stepWord_reads [.bits 30 _, .bits 28 _, .bit 27] (td, ts, cs, ()) rfl rfl)
      rfl [_] rfl
  | mout h t fx lv snp cap clr tr row0 nr sn ss sa =>
    exact readsBack_command hwf rfl rfl rfl
      (stepWords_read [.bits 30 _, .bits 24 _, .bits 21 _, .bit 20, .bit 19, .bit 18, .bit 17, .bits 11 _, .bits 5 _]
      [.bits 10 _, .bits 5 _, .bits 0 _] (t, fx, lv, snp, cap, clr, tr, row0, nr, ()) (sn, ss, sa, ()) rfl rfl)
      rfl [_, _, _, _] rfl
  | moutr h t clr tr row0 nr ss sa =>
    exact readsBack_command hwf rfl rfl rfl (stepWords_read [.bits 30 _, .bit 18, .bit 17, .bits 11 _, .bits 5 _]
      [.bits 5 _, .bits 0 _] (t, clr, tr, row0, nr, ()) (ss, sa, ()) rfl rfl) rfl [_] rfl
  | mldr h t tr row0 nr ss sa =>
    exact readsBack_command hwf rfl rfl rfl (stepWords_read [.bits 30 _, .bit 17, .bits 11 _, .bits 5 _]
      [.bits 5 _, .bits 0 _] (t, tr, row0, nr, ()) (ss, sa, ()) rfl rfl) rfl [_] rfl
  | mnop h =>
    exact readsBack_command hwf rfl rfl rfl rfl rfl [] rfl
  | msnap h fx lv sa =>
    exact readsBack_command hwf rfl rfl rfl (stepWord_reads [.bits 24 _, .bits 21 _, .bits 0 _] (fx, lv, sa, ()) rfl rfl)
      rfl [_] rfl
  | tcmov h tq dsc =>
    exact readsBack_command hwf rfl rfl rfl (stepWord_reads [.bits 14 _, .bits 0 _] (tq, dsc, ()) rfl rfl) rfl [_] rfl
  | tcgath h dsc | tcscat h dsc | tcfill h dsc | tcmovf h dsc | rinvx h dsc | rgena h dsc =>
    exact readsBack_command hwf rfl rfl rfl (stepWord_reads [.bits 0 _] (dsc, ()) rfl rfl) rfl [] rfl
  | car h cm op fx lv sc sb sa | crs h cm op fx lv sc sb sa =>
    exact readsBack_command hwf rfl rfl rfl (stepWords_read [.bits 26 _, .bits 22 _, .bits 16 _, .bits 13 _, .bits 0 _]
      [.bits 5 _, .bits 0 _] (cm, op, fx, lv, sc, ()) (sb, sa, ()) rfl rfl) rfl [_, _] rfl
  | cag h cm sc sb sa | ca2a h cm sc sb sa =>
    exact readsBack_command hwf rfl rfl rfl (stepWords_read [.bits 26 _, .bits 0 _] [.bits 5 _, .bits 0 _] (cm, sc, ())
      (sb, sa, ()) rfl rfl) rfl [] rfl
  | cbc h cm rt sc sb sa =>
    exact readsBack_command hwf rfl rfl rfl (stepWords_read [.bits 26 _, .bits 5 _, .bits 0 _] [.bits 5 _, .bits 0 _]
      (cm, rt, sc, ()) (sb, sa, ()) rfl rfl) rfl [] rfl
  | cred h cm op fx lv rt sc sb sa =>
    exact readsBack_command hwf rfl rfl rfl
      (stepWords_read [.bits 26 _, .bits 22 _, .bits 16 _, .bits 13 _, .bits 5 _, .bits 0 _] [.bits 5 _, .bits 0 _]
      (cm, op, fx, lv, rt, sc, ()) (sb, sa, ()) rfl rfl) rfl [_, _] rfl
  | cbar h cm =>
    exact readsBack_command hwf rfl rfl rfl (stepWords_read [.bits 26 _] [] (cm, ()) () rfl rfl) rfl [] rfl
  | rinv h y x | rmerge h y x | rpress h y x =>
    exact readsBack_command hwf rfl rfl rfl (stepWord_reads [.bits 5 _, .bits 0 _] (y, x, ()) rfl rfl) rfl [] rfl
  | rinva h =>
    exact readsBack_command hwf rfl rfl rfl (stepWord_reads [] () rfl rfl) rfl [] rfl
  | rsplit h z y x | rres h z y x =>
    exact readsBack_command hwf rfl rfl rfl (stepWord_reads [.bits 10 _, .bits 5 _, .bits 0 _] (z, y, x, ()) rfl rfl)
      rfl [] rfl
  | vaddFloat t d a b r k | vsubFloat t d a b r k | vmulFloat t d a b r k | vdivFloat t d a b r k | vminFloat t d a b r k
    | vmaxFloat t d a b r k | vcpys t d a b r k | vfma t d a b r k | vfms t d a b r k | vfnma t d a b r k | vfnms t d a b r k =>
    obtain rfl | rfl | rfl := float_type_cases hwf
    all_goals
      refine readsBack_of_fixed hwf [.bits 21 _, .bits 16 _, .bits 11 _, .bits 8 _, .bits 0 _] (d, a, b, r, k, ()) rfl rfl rfl
        rfl (fun w hw => ?_) rfl
      rw [extractLsb'_of_and_eq (lo := 27) (n := 2) hw rfl]
      rfl
  | tmov m t c q a r s k | tgath m t c q a r s k | tscat m t c q a r s k | tfill m t c q a r s k | tmovf m t c q a r s k =>
    cases m
    all_goals
      refine readsBack_of_fixed hwf [.bits 21 _, .bits 18 _, .bits 13 _, .bit 12, .bit 11, .bits 7 _, .bits 0 _]
        (t, c, q, a, r, s, k, ()) rfl rfl rfl rfl (fun w hw => ?_) rfl
      rw [getLsbD_of_and_eq (j := 26) hw rfl]
      rfl
  | hint => exact readsBack_hint hwf
  | oatom => exact readsBack_oatom hwf
  | nop => exact readsBack_of_selected hwf (r := rowNop) rfl rfl rfl rfl rfl rfl rfl
  | treadleLi | treadleShori | treadleAdd | treadleSub | treadleAnd | treadleOr | treadleXor | treadleShl | treadleShr
    | treadleAddi | treadleLd | treadleSt | treadleBeq | treadleBne | treadleBltu | treadleBgeu | treadleEmit | treadleEnd =>
    cases ht
  | _ => exact fun _ _ h => nomatch h

/-- Settles O5: the encoder lays fields that share no bit into the fixed bits of a row, which the word selects, so that the row
reads them again; and which row a word selects does not depend on the stream. -/
theorem encodeDecode : Obligations.EncodeDecode := by
  intro i w ws henc ht hwf
  obtain ⟨st, hi⟩ := readsBack hwf ht w ws henc
  exact ⟨⟨st, hi⟩, fun _ _ hj => decode_ok_unique hi hj⟩

end Sys2Proof
end

section
namespace Sys2Proof

/-! # O4: words of the encoding tables -/

/-- A word of zeros or of ones is illegal before any other test (R39). -/
theorem decode_illegal {w : W32} (h : w = 0#32 ∨ w = 0xFFFFFFFF#32) (st : Stream) (ws : List W32) :
    decode st w ws = .error .illegal := by
  unfold decode decodeRow
  rw [if_pos h]

/-- Settles O4: each word is decoded by evaluation, and no stream comes to a row for the two illegal words. -/
theorem decodeWords : Obligations.DecodeWords :=
  ⟨rfl, rfl, rfl, rfl, rfl, rfl, fun st ws => ⟨decode_illegal (.inl rfl) st ws, decode_illegal (.inr rfl) st ws⟩⟩

end Sys2Proof
end

section
namespace Sys2Proof.Machine
open Sys2Proof

/-! # O1: a step executes what is decoded at the pc -/

section
variable {s : State} {i : Instr}

/-- A word that is fetched, decodes and may be issued is, with its step words, the instruction at the pc. -/
theorem fetchInstr_ok {w : W32} {r : Row} {ws : List W32} (hw : s.fetchSection.fetch s.pc.toNat = .ok w)
    (hr : decodeRow s.stream w = .ok r) (hm : r.monitorOnly = true → s.taskMode = false)
    (hws : s.fetchSection.fetchSteps r.steps (s.pc.toNat + 4) = .ok ws) (hi : r.instr w ws = .ok i) :
    s.fetchInstr = .ok i := by
  have hmode : ¬ (r.monitorOnly && s.taskMode) = true := fun h => by
    obtain ⟨hmon, htask⟩ := Bool.and_eq_true_iff.mp h
    exact Bool.false_ne_true ((hm hmon).symm.trans htask)
  unfold State.fetchInstr
  simp only [hw, hr]
  rw [if_neg hmode, hws]
  dsimp only
  rw [hi]

/-- C stands at a boundary at which a pending fault is taken (R358). -/
def State.atBoundary (s : State) : Bool := decide (s.stream = .c) && s.taskMode && !s.me.pending.isEmpty

theorem atBoundary_iff : s.atBoundary = true ↔ s.stream = .c ∧ s.taskMode = true ∧ s.me.pending ≠ [] := by
  simp [State.atBoundary, and_assoc]

/-- No step trap comes before a sequencer that issues (R361). -/
theorem find_due_none (hi : Issues s) :
    (if decide (s.stream = .c) && s.taskMode && !s.me.frozen then s.me.stepWaits.find? (·.due) else none) = none := by
  split
  · next h =>
    simp only [Bool.and_eq_true, decide_eq_true_eq] at h
    exact List.find?_eq_none.mpr fun w hw => by simp [hi.2 h.1.1 h.1.2 w hw]
  · rfl

section
variable (hi : Issues s) (hf : s.flagged = false) (he : s.fetchInstr = .ok i)
include hi hf he

/-- The turn of a sequencer that issues and passes nothing over, by what it reads and where it stands: the instruction runs. -/
theorem dueIssue_instr (hbad : s.badRead i = none) (hb : s.atBoundary = false) : s.dueIssue = .instr i s := by
  unfold State.dueIssue
  rw [find_due_none hi, he]
  simp only [hi.1, hf, hbad, Bool.not_true, Bool.false_eq_true, if_false]
  exact if_neg (Bool.eq_false_iff.mp hb)

/-- It is tried at a boundary with a fault pending (R358). -/
theorem dueIssue_boundary (hbad : s.badRead i = none) (hb : s.atBoundary = true) : s.dueIssue = .boundary i s := by
  unfold State.dueIssue
  rw [find_due_none hi, he]
  simp only [hi.1, hf, hbad, Bool.not_true, Bool.false_eq_true, if_false]
  exact if_pos hb

/-- A register that it would read holds an uncorrectable error (R370). -/
theorem dueIssue_badRead {c : Nat} (hbad : s.badRead i = some c) :
    s.dueIssue = .idle (s.takeTrap s.here s.stream 0x32 (BitVec.ofNat 64 c)) := by
  unfold State.dueIssue
  rw [find_due_none hi, he]
  simp only [hi.1, hf, hbad, Bool.not_true, Bool.false_eq_true, if_false]

end

/-- With the agenda empty a step is the turn of the sequencer at `cur`. -/
theorem step_of_agenda_nil (ha : s.agenda = []) : step s = s.turn.dueIssue.run := by
  unfold step State.due
  rw [ha]
  rfl

/-- So it is when that turn stands first in the agenda, which it leaves. -/
theorem step_issue (rest : List Turn) :
    step { s with agenda := .issue s.here s.stream :: rest } = ({ s.turn with agenda := rest } : State).dueIssue.run := rfl

/-- At a boundary the fault is taken in the place of an instruction that has not trapped (R358). -/
theorem run_boundary {u : State} (h : exec i s = .next u) :
    (Due.boundary i s).run = if u.trapped s.here then .next u else exec (.asyncFaultTake s.here) s := by
  unfold Due.run
  dsimp only
  rw [h]

end

/-- Settles O1: the fetch finds the instruction, and the turn of its sequencer, which neither the lookaside table nor the agenda
enters, runs it, traps the bad register, or tries it at the boundary. -/
theorem stepRunsDecoded : Obligations.StepRunsDecoded := by
  intro s w r ws i hi hf hw hr hws hinstr hm boundary
  have he : s.fetchInstr = .ok i := fetchInstr_ok hw hr hm hws hinstr
  refine ⟨fun hbad hnot => ?_, fun ha c hbad => ?_, fun ha hbad hat u hu => ?_⟩
  · have hb : s.atBoundary = false := Bool.eq_false_iff.mpr fun h => hnot (atBoundary_iff.mp h)
    refine ⟨fun ha => ?_, fun rest => ?_⟩
    · rw [step_of_agenda_nil ha, dueIssue_instr (s := s.turn) hi hf he hbad hb]
      rfl
    · rw [step_issue, dueIssue_instr (s := { s.turn with agenda := rest }) hi hf he hbad hb]
      rfl
  · rw [step_of_agenda_nil ha, dueIssue_badRead (s := s.turn) hi hf he hbad]
    rfl
  · rw [step_of_agenda_nil ha, dueIssue_boundary (s := s.turn) hi hf he hbad (atBoundary_iff.mpr hat), run_boundary hu]
    rfl

end Sys2Proof.Machine
end

section
namespace Sys2Proof.Machine
open Sys2Proof

/-! # Results of the control stream in a scalar register (R52 to R61) -/

section
variable {i : Instr} {s : State} {d : RegNo} {v w : W64}

/-- An instruction whose result is `v` completes with s[d] = `v`. -/
theorem completes_scalarResult (hs : OnC s) (hx : exec i s = scalarResult s d v) : Completes i s (s.setSreg d v) :=
  completes_of_visible hs.2.1 hx rfl (here_setSreg d v)

/-- The same of a result that is computed in another way. -/
theorem completes_scalarResult_of_eq (hs : OnC s) (hx : exec i s = scalarResult s d v) (hv : v = w) :
    Completes i s (s.setSreg d w) :=
  hv ▸ completes_scalarResult hs hx

end

/-! ## Counts (R53) -/

/-- No bit at or above the length of a number is 1. -/
theorem testBit_of_bitLen_le {x i : Nat} (h : bitLen x ≤ i) : x.testBit i = false := by
  refine Nat.testBit_lt_two_pow ?_
  unfold bitLen at h
  split at h
  · subst x; exact Nat.two_pow_pos i
  · exact Nat.lt_log2_self.trans_le (Nat.pow_le_pow_right (by decide) h)

/-- The highest bit is 1. -/
theorem testBit_bitLen_sub_one {x : Nat} (h : x ≠ 0) : x.testBit (bitLen x - 1) = true := by
  rw [bitLen, if_neg h, Nat.add_sub_cancel]
  exact Nat.testBit_log2 h

theorem bitLen_le {x n : Nat} (h : x < 2 ^ n) : bitLen x ≤ n := by
  unfold bitLen
  split
  · exact Nat.zero_le n
  · next hx => exact (Nat.log2_lt hx).mpr h

theorem bitLen_pos {x : Nat} (h : x ≠ 0) : 0 < bitLen x := by
  rw [bitLen, if_neg h]
  exact Nat.succ_pos _

section
variable (x : W64)

theorem toNat_countLeadingZeros : (countLeadingZeros x).toNat = 64 - bitLen x.toNat := by
  rw [countLeadingZeros, BitVec.toNat_ofNat, Nat.mod_eq_of_lt (by omega)]

/-- The bits that CLZ counts are 0. -/
theorem getLsbD_of_lt_countLeadingZeros {i : Nat} (h : i < (countLeadingZeros x).toNat) : x.getLsbD (63 - i) = false := by
  rw [toNat_countLeadingZeros] at h
  exact testBit_of_bitLen_le (by omega)

/-- The bit below them is 1. -/
theorem getLsbD_countLeadingZeros (h : x ≠ 0) : x.getLsbD (63 - (countLeadingZeros x).toNat) = true := by
  have hx : x.toNat ≠ 0 := fun e => h (BitVec.eq_of_toNat_eq e)
  have hpos := bitLen_pos hx
  have hle := bitLen_le x.isLt
  rw [toNat_countLeadingZeros, show 63 - (64 - bitLen x.toNat) = bitLen x.toNat - 1 by omega]
  exact testBit_bitLen_sub_one hx

end

/-- A word with its negation keeps its lowest 1 alone. -/
theorem and_neg_eq_twoPow {x : W64} {k : Nat} (hk : x.getLsbD k = true) (hlow : ∀ j < k, x.getLsbD j = false) :
    x &&& -x = BitVec.twoPow 64 k := by
  refine BitVec.eq_of_getLsbD_eq fun i hi => ?_
  rw [BitVec.getLsbD_and, BitVec.getLsbD_neg, BitVec.getLsbD_twoPow, decide_eq_true hi,
    decide_eq_true (BitVec.lt_of_getLsbD hk)]
  rcases Nat.lt_trichotomy i k with hlt | rfl | hgt
  · rw [hlow i hlt, decide_eq_false (by omega : ¬k = i)]
    rfl
  · have hnone : ¬∃ j < i, x.getLsbD j = true := fun ⟨j, hj, h⟩ => Bool.false_ne_true ((hlow j hj).symm.trans h)
    rw [hk, decide_eq_false hnone, decide_eq_true rfl]
    rfl
  · rw [decide_eq_true (⟨k, hgt, hk⟩ : ∃ j < i, x.getLsbD j = true), decide_eq_false (by omega : ¬k = i)]
    cases x.getLsbD i <;> rfl

/-- CTZ is the position of the lowest 1. -/
theorem toNat_countTrailingZeros {x : W64} {k : Nat} (hk : x.getLsbD k = true) (hlow : ∀ j < k, x.getLsbD j = false) :
    (countTrailingZeros x).toNat = k := by
  have hlt : k < 64 := BitVec.lt_of_getLsbD hk
  have hx : x ≠ 0 := fun e => Bool.false_ne_true (by rw [← hk, e]; exact BitVec.getLsbD_zero.symm)
  rw [countTrailingZeros, if_neg hx, and_neg_eq_twoPow hk hlow, BitVec.toNat_twoPow,
    Nat.mod_eq_of_lt (Nat.pow_lt_pow_right (by decide) hlt), bitLen, if_neg (Nat.two_pow_pos k).ne', Nat.log2_two_pow,
    Nat.add_sub_cancel, BitVec.toNat_ofNat, Nat.mod_eq_of_lt (by omega)]

/-- A word that is not 0 has a lowest 1. -/
theorem exists_lowest_one {x : W64} (h : x ≠ 0) : ∃ k, x.getLsbD k = true ∧ ∀ j < k, x.getLsbD j = false := by
  have hone : ∃ k, x.getLsbD k = true := by
    by_contra hnone
    exact h (BitVec.eq_of_getLsbD_eq fun i _ => by
      rw [Bool.eq_false_iff.mpr fun hi => hnone ⟨i, hi⟩]; exact BitVec.getLsbD_zero.symm)
  exact ⟨Nat.find hone, Nat.find_spec hone, fun j hj => Bool.eq_false_iff.mpr (Nat.find_min hone hj)⟩

/-- The bits that CTZ counts are 0, and the bit above them is 1. -/
theorem getLsbD_countTrailingZeros (x : W64) :
    (∀ i : Nat, i < (countTrailingZeros x).toNat → x.getLsbD i = false) ∧
      (x ≠ 0 → x.getLsbD (countTrailingZeros x).toNat = true) := by
  by_cases h : x = 0
  · subst h
    exact ⟨fun i _ => BitVec.getLsbD_zero, fun h => absurd rfl h⟩
  · obtain ⟨k, hk, hlow⟩ := exists_lowest_one h
    rw [toNat_countTrailingZeros hk hlow]
    exact ⟨hlow, fun _ => hk⟩

theorem counts_zero : countLeadingZeros 0 = 64 ∧ countTrailingZeros 0 = 64 := ⟨rfl, rfl⟩

theorem toNat_countOnes (x : W64) : (countOnes x).toNat = (List.range 64).countP fun i => x.getLsbD i := by
  have hle : (List.range 64).countP (fun i => x.getLsbD i) ≤ 64 := List.countP_le_length.trans_eq List.length_range
  rw [countOnes, BitVec.toNat_ofNat, Nat.mod_eq_of_lt (by omega)]

/-! ## Comparisons as conditions -/

theorem slt_iff (x y : W64) : x.slt y = true ↔ x.toInt < y.toInt := by
  rw [BitVec.slt_eq_decide, decide_eq_true_eq]

theorem ult_iff (x y : W64) : x.ult y = true ↔ x.toNat < y.toNat := by
  rw [BitVec.ult_eq_decide, decide_eq_true_eq]

/-- Settles O14: each instruction's result is the statement's, the counts are those of the bits, and the minima and maxima compare
as the integers do. -/
theorem registerArithmetic : Obligations.RegisterArithmetic := by
  intro d a b s hs x y
  exact ⟨completes_scalarResult hs rfl, completes_scalarResult hs rfl, completes_scalarResult hs rfl,
    completes_scalarResult hs rfl, completes_scalarResult hs rfl, completes_scalarResult hs rfl, completes_scalarResult hs rfl,
    completes_scalarResult hs rfl, completes_scalarResult hs rfl,
    completes_scalarResult_of_eq hs rfl (if_congr (slt_iff ..) rfl rfl),
    completes_scalarResult_of_eq hs rfl (if_congr (slt_iff ..) rfl rfl),
    completes_scalarResult_of_eq hs rfl (if_congr (ult_iff ..) rfl rfl),
    completes_scalarResult_of_eq hs rfl (if_congr (ult_iff ..) rfl rfl),
    completes_scalarResult hs rfl, completes_scalarResult hs rfl, completes_scalarResult hs rfl,
    fun _ => getLsbD_of_lt_countLeadingZeros x, getLsbD_countLeadingZeros x, (getLsbD_countTrailingZeros x).1,
    (getLsbD_countTrailingZeros x).2, fun h => h ▸ counts_zero, toNat_countOnes x⟩

/-! # Multiplication and division (R54, R55) -/

section
variable (x y : W64)

theorem sdiv_eq_ofInt : x.sdiv y = BitVec.ofInt 64 (x.toInt.tdiv y.toInt) :=
  BitVec.eq_of_toInt_eq (by rw [BitVec.toInt_sdiv, BitVec.toInt_ofInt])

theorem srem_eq_ofInt : x.srem y = BitVec.ofInt 64 (x.toInt.tmod y.toInt) := by
  rw [← BitVec.toInt_srem, BitVec.ofInt_toInt]

end

section
variable {i : Instr} {s : State} {d : RegNo} {b v z w : W64} (hs : OnC s) (hx : exec i s = divideResult s d b v z)
include hs hx

/-- A division by another number than 0. -/
theorem completes_divideResult (hb : b ≠ 0) (hv : v = w) : Completes i s (s.setSreg d w) :=
  completes_scalarResult_of_eq hs (hx.trans (if_neg hb)) hv

/-- A division by 0 gives `z` and sets IDZ. -/
theorem completes_divideResult_zero (hb : b = 0) : Completes i s ((s.setSreg d z).orStatus s.here .c 0x80) :=
  completes_of_visible hs.2.1 (hx.trans (if_pos hb)) rfl (here_setSreg d z)

end

/-- Settles O15: the words' division is that of the integers, cut to their width. -/
theorem multiplyDivide : Obligations.MultiplyDivide := by
  intro d a b s hs x y idz
  refine ⟨completes_scalarResult hs rfl, completes_scalarResult hs rfl, completes_scalarResult hs rfl, fun hy => ?_, fun hy => ?_⟩
  · exact ⟨completes_divideResult hs rfl hy (sdiv_eq_ofInt x y), completes_divideResult hs rfl hy BitVec.udiv_def,
      completes_divideResult hs rfl hy (srem_eq_ofInt x y), completes_divideResult hs rfl hy BitVec.umod_def⟩
  · exact ⟨completes_divideResult_zero hs rfl hy, completes_divideResult_zero hs rfl hy, completes_divideResult_zero hs rfl hy,
      completes_divideResult_zero hs rfl hy⟩

end Sys2Proof.Machine
end

section
namespace Sys2Proof.Machine
open Sys2Proof

/-! # Compares, immediates, bit fields and constants (R56 to R60, R75) -/

/-- The `k` bits from bit `n` on. -/
theorem getLsbD_lowMask_shiftLeft (k n j : Nat) :
    (lowMask k <<< n).getLsbD j = (decide (j < 64) && decide (n ≤ j ∧ j < n + k)) := by
  rw [BitVec.getLsbD_shiftLeft, lowMask, BitVec.getLsbD_ofNat, Nat.testBit_two_pow_sub_one, Bool.eq_iff_iff]
  simp only [Bool.and_eq_true, Bool.not_eq_true', decide_eq_true_eq, decide_eq_false_iff_not]
  omega

/-- EXTU's result is the field as a number. -/
theorem and_lowMask (x : W64) {k : Nat} (hk : k ≤ 64) : x &&& lowMask k = BitVec.ofNat 64 (x.toNat % 2 ^ k) := by
  have hpow : 2 ^ k ≤ 2 ^ 64 := Nat.pow_le_pow_right (by decide) hk
  have hpos : 0 < 2 ^ k := Nat.two_pow_pos k
  refine BitVec.eq_of_toNat_eq ?_
  rw [BitVec.toNat_and, lowMask, BitVec.toNat_ofNat, BitVec.toNat_ofNat, Nat.mod_eq_of_lt (by omega),
    Nat.and_two_pow_sub_one_eq_mod, Nat.mod_eq_of_lt ((Nat.mod_lt _ hpos).trans_le hpow)]

/-- A word `x` of which the bits that the mask selects are those of `z`. -/
theorem getLsbD_masked (x z : W64) (k n : Nat) {j : Nat} (hj : j < 64) :
    (x &&& ~~~(lowMask k <<< n) ||| z &&& (lowMask k <<< n)).getLsbD j =
      if n ≤ j ∧ j < n + k then z.getLsbD j else x.getLsbD j := by
  rw [BitVec.getLsbD_or, BitVec.getLsbD_and, BitVec.getLsbD_and, BitVec.getLsbD_not, getLsbD_lowMask_shiftLeft]
  by_cases h : n ≤ j ∧ j < n + k <;> simp [h, hj]

theorem getLsbD_shiftLeft_of_le (x : W64) {n j : Nat} (hn : n ≤ j) (hj : j < 64) : (x <<< n).getLsbD j = x.getLsbD (j - n) := by
  rw [BitVec.getLsbD_shiftLeft, decide_eq_true hj, decide_eq_false (by omega)]
  rfl

/-- INS lays the low bits of `x` into `z`. -/
theorem getLsbD_ins (z x : W64) (n k : Nat) {j : Nat} (hj : j < 64) :
    (z &&& ~~~(lowMask k <<< n) ||| (x <<< n) &&& (lowMask k <<< n)).getLsbD j =
      if n ≤ j ∧ j < n + k then x.getLsbD (j - n) else z.getLsbD j := by
  rw [getLsbD_masked _ _ _ _ hj]
  split
  · next h => exact getLsbD_shiftLeft_of_le x h.1 hj
  · rfl

/-- A constant of 16 bits at bit `n` lies within the mask of its bits. -/
theorem shiftLeft_and_lowMask (i : BitVec 16) (n : Nat) :
    (i.setWidth 64 <<< n) &&& (lowMask 16 <<< n) = (i.setWidth 64 <<< n : W64) := by
  refine BitVec.eq_of_getLsbD_eq fun j hj => ?_
  rw [BitVec.getLsbD_and, getLsbD_lowMask_shiftLeft, BitVec.getLsbD_shiftLeft, BitVec.getLsbD_setWidth]
  by_cases h : n ≤ j ∧ j < n + 16
  · simp [h, hj]
  · have hout : j < n ∨ i.getLsbD (j - n) = false := by
      rcases Nat.lt_or_ge j n with hlt | hge
      · exact .inl hlt
      · exact .inr (BitVec.getLsbD_of_ge _ _ (by omega))
    rcases hout with hlt | hzero
    · simp [hlt]
    · simp [hzero]

/-- MOVK lays its constant into `z`. -/
theorem getLsbD_movk (z : W64) (i : BitVec 16) (n : Nat) {j : Nat} (hj : j < 64) :
    (z &&& ~~~((0xFFFF : W64) <<< n) ||| (i.setWidth 64 <<< n)).getLsbD j =
      if n ≤ j ∧ j < n + 16 then i.getLsbD (j - n) else z.getLsbD j := by
  rw [← shiftLeft_and_lowMask, show (0xFFFF : W64) = lowMask 16 from rfl, getLsbD_ins z (i.setWidth 64) n 16 hj]
  split
  · rw [BitVec.getLsbD_setWidth, decide_eq_true (by omega), Bool.true_and]
  · rfl

/-- EXTU's result. -/
theorem shiftRight_and_lowMask (x : W64) (n : Nat) (w : BitVec 6) :
    (x >>> n) &&& lowMask (w.toNat + 1) = BitVec.ofNat 64 (x.toNat / 2 ^ n % 2 ^ (w.toNat + 1)) := by
  rw [and_lowMask _ (by have := w.isLt; omega), BitVec.toNat_ushiftRight, Nat.shiftRight_eq_div_pow]

/-- Settles O16: the results of bit fields are shown bit by bit, those of the others are the statement's. -/
theorem comparesImmediatesFields : Obligations.ComparesImmediatesFields := by
  intro d a b m i p w h s hs x y flag n k
  exact ⟨completes_scalarResult hs rfl, completes_scalarResult hs rfl,
    completes_scalarResult_of_eq hs rfl (congrArg flagValue BitVec.slt_eq_decide),
    completes_scalarResult_of_eq hs rfl (congrArg flagValue BitVec.ult_eq_decide),
    completes_scalarResult hs rfl, completes_scalarResult hs rfl, completes_scalarResult hs rfl, completes_scalarResult hs rfl,
    completes_scalarResult hs rfl, completes_scalarResult hs rfl, completes_scalarResult hs rfl, completes_scalarResult hs rfl,
    completes_scalarResult_of_eq hs rfl (shiftRight_and_lowMask x n w), completes_scalarResult hs rfl,
    ⟨_, completes_scalarResult hs rfl, fun _ => getLsbD_ins (s.sreg d) x n k⟩, completes_scalarResult hs rfl,
    ⟨_, completes_scalarResult hs rfl, fun _ => getLsbD_movk (s.sreg d) i (16 * h.toNat)⟩,
    completes_of_visible hs.2.1 rfl rfl rfl, completes_of_visible hs.2.1 rfl rfl rfl⟩

/-! # Checked address arithmetic (R61) -/

theorem getLsbD_putField {n : Nat} (x : BitVec n) (lo : Nat) {j : Nat} (hj : j < 32) :
    (putField x lo).getLsbD j = (decide (lo ≤ j) && x.getLsbD (j - lo)) := by
  have hlo : decide (j - lo < 32) = true := decide_eq_true (by omega)
  rw [putField, BitVec.getLsbD_shiftLeft, BitVec.getLsbD_setWidth, decide_eq_true hj, hlo, Bool.true_and, Bool.true_and,
    ← decide_not]
  exact congrArg (· && _) (decide_eq_decide.mpr Nat.not_lt)

/-- A word of format I, as the encoder puts its fields. -/
theorem formatI_eq (op : BitVec 6) (d a : RegNo) (i : BitVec 16) :
    (op ++ d ++ a ++ i : W32) = putField op 26 ||| putField d 21 ||| putField a 16 ||| putField i 0 := by
  refine BitVec.eq_of_getLsbD_eq fun j hj => ?_
  simp only [BitVec.getLsbD_or, getLsbD_putField _ _ hj, BitVec.getLsbD_append]
  rcases Nat.lt_or_ge j 16 with h | h16
  · rw [if_pos h]
    simp [show ¬16 ≤ j by omega, show ¬21 ≤ j by omega, show ¬26 ≤ j by omega]
  rcases Nat.lt_or_ge j 21 with h | h21
  · rw [if_neg (by omega), if_pos (by omega), BitVec.getLsbD_of_ge i _ (by omega)]
    simp [h16, show ¬21 ≤ j by omega, show ¬26 ≤ j by omega]
  rcases Nat.lt_or_ge j 26 with h | h26
  · rw [if_neg (by omega), if_neg (by omega), if_pos (by omega), BitVec.getLsbD_of_ge i _ (by omega),
      BitVec.getLsbD_of_ge a _ (by omega), show j - 16 - 5 = j - 21 by omega]
    simp [h21, show ¬26 ≤ j by omega]
  · rw [if_neg (by omega), if_neg (by omega), if_neg (by omega), BitVec.getLsbD_of_ge i _ (by omega),
      BitVec.getLsbD_of_ge a _ (by omega), BitVec.getLsbD_of_ge d _ (by omega), show j - 16 - 5 - 5 = j - 26 by omega]
    simp [h26]

/-- The word of ADDA, which lays its fields into those of format I (R61). -/
theorem decode_adda (d a : RegNo) (i : BitVec 16) : decode .c (0x14#6 ++ d ++ a ++ i) [] = .ok (.adda d a i) := by
  have hL : Layout.Fits [.bits 21 5, .bits 16 5, .bits 0 16] (0x50000000#32 ||| rowAdda.fixed) := Layout.fits_iff.mp rfl
  have hword : (0x14#6 ++ d ++ a ++ i : W32) = Layout.fill [.bits 21 5, .bits 16 5, .bits 0 16] 0x50000000#32 (d, a, i, ()) :=
    formatI_eq 0x14#6 d a i
  have hread := Layout.read_fill [.bits 21 5, .bits 16 5, .bits 0 16] hL.left Instr.adda (d, a, i, ())
  have hfixed := Layout.fill_and [.bits 21 5, .bits 16 5, .bits 0 16] hL.right.2 0x50000000#32 (d, a, i, ())
  rw [← hword] at hread hfixed
  have hrow : decodeRow .c (0x14#6 ++ d ++ a ++ i) = .ok rowAdda :=
    decodeRow_of_selected rfl hfixed (selectedRow_of_fixed rfl hfixed (by decide)) (List.mem_singleton.mpr rfl)
      (.inl ⟨_, rfl, by rfl⟩)
  unfold decode
  rw [hrow]
  exact congrArg Except.ok hread

/-- Settles O17: the word decodes by its layout, and the sum is checked before it is cut. -/
theorem checkedAddress : Obligations.CheckedAddress := by
  intro d a i s
  refine ⟨decode_adda d a i, fun hs => ?_⟩
  intro e
  refine ⟨fun h0 hlt => completes_scalarResult hs ?_, fun hout => ?_⟩
  · exact if_neg (not_or.mpr ⟨not_lt.mpr h0, not_le.mpr hlt⟩)
  · exact if_pos hout

end Sys2Proof.Machine
end

section
namespace Sys2Proof.Machine
open Sys2Proof

/-! # Transfers (R65 to R68) -/

section
variable {i : Instr} {s : State} {taken : Bool} {c : Prop} {o : BitVec 13}

/-- A conditional branch goes to its target where its condition holds, and on where it does not. -/
theorem branchIf_completes (hs : OnC s) (hx : exec i s = branchIf s taken o) (hc : taken = true ↔ c) :
    (c → CompletesTo i s s.setBor 0 (branchTarget s.pc o)) ∧ (¬c → Completes i s s) :=
  ⟨fun h => completesTo_of_visible hs.2.1 (hx.trans (if_pos (hc.mpr h))) rfl rfl,
    fun h => completes_of_visible hs.2.1 (hx.trans (if_neg fun ht => h (hc.mp ht))) rfl rfl⟩

end

theorem not_slt_iff (x y : W64) : (!x.slt y) = true ↔ y.toInt ≤ x.toInt := by
  rw [Bool.not_eq_true', ← Bool.not_eq_true, slt_iff, not_lt]

theorem not_ult_iff (x y : W64) : (!x.ult y) = true ↔ y.toNat ≤ x.toNat := by
  rw [Bool.not_eq_true', ← Bool.not_eq_true, ult_iff, not_lt]

/-- A call leaves its own address in bor, which its write of lnk does not move. -/
theorem setBor_setLnk (s : State) : s.setLnk.setBor = s.setLnk.modMe fun x => { x with bor := s.pc } := by
  have hpc : s.setLnk.pc = s.pc := by
    have hseq (x : Shuttle) (v : W64) (st : Stream) : ({ x with lnk := v } : Shuttle).seq st = x.seq st := by cases st <;> rfl
    rw [State.pc, State.mySeq, State.setLnk, me_modMe]
    exact congrArg Seq.pc (hseq ..)
  rw [State.setBor, hpc]

/-- Settles O18: a branch is `branchIf`, and every other transfer goes to its target. -/
theorem transfers : Obligations.Transfers := by
  intro a b o j s hs
  have hjump {i : Instr} {t : W32} (hx : exec i s = runC s (.doneTo s.setBor t)) : CompletesTo i s s.setBor 0 t :=
    completesTo_of_visible hs.2.1 hx rfl rfl
  have hcall {i : Instr} {t : W32} (hx : exec i s = runC s (.doneTo s.setLnk.setBor t)) :
      CompletesTo i s (s.setLnk.modMe fun x => { x with bor := s.pc }) 0 t :=
    completesTo_of_visible hs.2.1 (setBor_setLnk s ▸ hx) rfl rfl
  exact ⟨branchIf_completes hs rfl decide_eq_true_iff, branchIf_completes hs rfl decide_eq_true_iff,
    branchIf_completes hs rfl (slt_iff ..), branchIf_completes hs rfl (not_slt_iff ..), branchIf_completes hs rfl (ult_iff ..),
    branchIf_completes hs rfl (not_ult_iff ..), hjump rfl, hcall rfl, hjump rfl, hcall rfl, hjump rfl⟩

/-! # Loops of the control stream (R69 to R71) -/

/-! ## The unit -/

section
variable {u : LoopUnit} {lv : Nat}

theorem depth_setLevel (v : Level) : (u.setLevel lv v).depth = u.depth := by
  unfold LoopUnit.setLevel
  split <;> rfl

theorem noOpen_iff : u.noOpen lv = true ↔ lv ≠ u.depth ∨ u.depth = 6 := by
  rw [LoopUnit.noOpen, Bool.or_eq_true, decide_eq_true_eq, decide_eq_true_eq, or_comm]

theorem noClose_iff : u.noClose lv = true ↔ lv + 1 ≠ u.depth := by
  rw [LoopUnit.noClose, Bool.or_eq_true, decide_eq_true_eq, decide_eq_true_eq]
  omega

variable (u lv) in
/-- A level that is opened with limit 0 passes its body (R70). -/
theorem loopOpen_of_zero (pc : W32) (fo lo : Bool) (off : Nat) {t : W64} (h : t.setWidth 32 = (0 : W32)) :
    loopOpen u pc lv fo lo off t = (u.setLevel lv { u.level lv with k := 0 }, pc + BitVec.ofNat 32 (4 * off + 4)) := if_pos h

variable (u lv) in
theorem loopOpen_of_ne_zero (pc : W32) (fo lo : Bool) (off : Nat) {t : W64} (h : t.setWidth 32 ≠ (0 : W32)) :
    loopOpen u pc lv fo lo off t =
      ({ u.setLevel lv { k := 0, lim := t.setWidth 32, str := (t.toNat / 2 ^ 32) % 2 ^ 16 + 1, start := pc + 4,
                         fin := pc + BitVec.ofNat 32 (4 * off), fo := fo, lo := lo } with depth := u.depth + 1 }, pc + 4) :=
  if_neg h

/-- The index of level `lv` moved on by its stride. -/
def LoopUnit.advanced (u : LoopUnit) (lv : Nat) : LoopUnit :=
  u.setLevel lv { u.level lv with k := BitVec.ofNat 32 ((u.level lv).k.toNat + (u.level lv).str) }

/-- The body is run again below the limit (R71). -/
theorem loopEnd_below (pc : W32) (h : (u.level lv).k.toNat + (u.level lv).str < (u.level lv).lim.toNat) :
    loopEnd u pc lv false = (u.advanced lv, (u.level lv).start) := if_pos h

/-- The innermost level closes at its limit (R71). -/
theorem loopEnd_reached (pc : W32) (h : (u.level lv).lim.toNat ≤ (u.level lv).k.toNat + (u.level lv).str)
    (hlv : lv + 1 = u.depth) : loopEnd u pc lv false = ({ u.advanced lv with depth := lv }, pc + 4) := by
  refine (if_neg (not_lt.mpr h)).trans ?_
  rw [depth_setLevel, ← hlv]
  rfl

theorem loopEnd_leave (pc : W32) (hlv : lv + 1 = u.depth) : loopEnd u pc lv true = ({ u with depth := lv }, pc + 4) := by
  refine (if_pos rfl).trans ?_
  rw [← hlv]
  rfl

end

/-! ## The instructions -/

section
variable {i : Instr} {s : State} {no : Bool} {cause : BitVec 8} {r : LoopUnit × W32}

/-- A loop instruction that the unit allows leaves the new unit, and goes on where it says. -/
theorem loop_completes (hs : OnC s) (hx : exec i s = runC s (if no then .trapWord cause else loopDone s r)) (hno : no = false)
    {u : LoopUnit} {t : W32} (hr : r = (u, t)) : CompletesTo i s (s.modMySeq fun q => { q with loops := u }) 0 t := by
  subst hno hr
  exact completesTo_of_visible hs.2.1 hx rfl rfl

/-- One that it does not allow traps. -/
theorem loop_traps (hx : exec i s = runC s (if no then .trapWord cause else loopDone s r)) (hno : no = true) :
    Traps i s cause (s.curWord.setWidth 64) := by
  subst hno
  exact hx

end

/-- Settles O19: whether a level opens or closes is its place against the depth, and what it leaves is `loopOpen` or `loopEnd`. -/
theorem loops : Obligations.Loops := by
  intro l g f a o s hs u lv t v put opened n
  have hopens (h : lv = u.depth) (hlt : lv < 6) : u.noOpen lv = false :=
    Bool.eq_false_iff.mpr fun hno => by have := noOpen_iff.mp hno; omega
  have hcloses (h : lv + 1 = u.depth) : u.noClose lv = false := Bool.eq_false_iff.mpr fun hno => noClose_iff.mp hno h
  exact ⟨fun h hlt hlim => loop_completes hs rfl (hopens h hlt) (loopOpen_of_ne_zero u lv s.pc f g o.toNat hlim),
    fun h hlt hlim => loop_completes hs rfl (hopens h hlt) (loopOpen_of_zero u lv s.pc f g o.toNat hlim),
    fun h => loop_traps rfl (noOpen_iff.mpr h),
    fun h hn => loop_completes hs rfl (hcloses h) (loopEnd_below s.pc hn),
    fun h hn => loop_completes hs rfl (hcloses h) (loopEnd_reached s.pc hn h),
    fun h => loop_completes hs rfl (hcloses h) (loopEnd_leave s.pc h),
    fun h => ⟨loop_traps rfl (noClose_iff.mpr h), loop_traps rfl (noClose_iff.mpr h)⟩⟩

end Sys2Proof.Machine
end

section
namespace Sys2Proof.Machine
open Sys2Proof

/-! # Instructions that loop flags pass over (R72, R88, R359) -/

/-! ## When an instruction is passed over -/

theorem skips_level_iff (v : Level) (pc : W32) : v.skips pc = true ↔ v.start ≠ v.fin ∧
    ((v.fo = true ∧ pc = v.start ∧ v.k ≠ 0) ∨ (v.lo = true ∧ pc + 4 = v.fin ∧ v.k.toNat + v.str < v.lim.toNat)) := by
  simp only [Level.skips, Bool.and_eq_true, Bool.or_eq_true, decide_eq_true_eq, and_assoc]

theorem skips_unit_iff (u : LoopUnit) (pc : W32) : u.skips pc = true ↔ ∃ j < u.depth, (u.level j).skips pc = true := by
  simp only [LoopUnit.skips, List.any_eq_true, List.mem_range]

/-- The stored word at pc is no loop instruction, if it is any. -/
theorem atLoopInstr_eq_false_iff (s : State) : s.atLoopInstr = false ↔
    ∀ r i, decodeRow s.stream s.curWord = .ok r → r.instr s.curWord [] = .ok i → isLoopInstr i = false := by
  unfold State.atLoopInstr
  dsimp only
  split
  · next e he => exact ⟨fun _ r i hr => (nomatch he.symm.trans hr), fun _ => rfl⟩
  · next r hr =>
    split
    · next e he =>
      refine ⟨fun _ r' i hr' hi => ?_, fun _ => rfl⟩
      cases hr.symm.trans hr'
      exact nomatch he.symm.trans hi
    · next i hi =>
      refine ⟨fun h r' i' hr' hi' => ?_, fun h => h r i hr hi⟩
      cases hr.symm.trans hr'
      cases hi.symm.trans hi'
      exact h

theorem flagged_iff (s : State) : s.flagged = true ↔ s.mySeq.loops.skips s.pc = true ∧ s.atLoopInstr = false := by
  rw [State.flagged, Bool.and_eq_true, Bool.not_eq_true']

/-- At the turn of a sequencer that issues, a flagged instruction is passed over, but for a fault pending at C's boundary. -/
theorem dueIssue_flagged {s : State} (hi : Issues s) (hf : s.flagged = true) :
    s.dueIssue = .instr (if s.atBoundary = true then .asyncFaultTake s.here else .skippedInstruction) s := by
  unfold State.dueIssue
  rw [find_due_none hi]
  simp only [hi.1, hf, Bool.not_true, Bool.false_eq_true, if_false, if_true]
  exact (apply_ite (Due.instr · s) _ _ _).symm

/-! ## What passing over leaves -/

theorem visible_healthRecord (s : State) (cls unit kind count : Nat) (detail : W64) :
    (s.healthRecord cls unit kind count detail).visible = s.visible.healthRecord cls unit kind count detail := by
  have hmsi (u : State) (ident : Nat) : (u.sendMsi ident).visible = u.visible.sendMsi ident := by
    unfold State.sendMsi
    split <;> rfl
  unfold State.healthRecord
  dsimp only
  rw [apply_ite State.visible, hmsi]
  rfl

/-- The first word of the skipped instruction, of those from word `i` on, that cannot be fetched. -/
def Section.firstFailing (c : Section) (i n : Nat) : Option Nat :=
  ((List.range n).map (i + ·)).find? fun k => decide (c.words.length ≤ k) || c.bad.contains k

section
variable {c : Section} {i n k : Nat}

theorem firstFailing_eq_none (h : ∀ k, i ≤ k → k < i + n → ¬(c.words.length ≤ k ∨ c.bad.contains k = true)) :
    c.firstFailing i n = none := by
  refine List.find?_eq_none.mpr fun k hk => ?_
  obtain ⟨j, hj, rfl⟩ := List.mem_map.mp hk
  rw [Bool.or_eq_true, decide_eq_true_eq]
  exact h (i + j) (Nat.le_add_right ..) (Nat.add_lt_add_left (List.mem_range.mp hj) i)

theorem firstFailing_eq_some (hle : i ≤ k) (hlt : k < i + n) (hk : c.words.length ≤ k ∨ c.bad.contains k = true)
    (h : ∀ j, i ≤ j → j < k → ¬(c.words.length ≤ j ∨ c.bad.contains j = true)) : c.firstFailing i n = some k := by
  obtain ⟨m, rfl⟩ := Nat.exists_eq_add_of_le hle
  refine (List.find?_map ..).trans ?_
  have hfirst : (List.range n).find? ((fun k => decide (c.words.length ≤ k) || c.bad.contains k) ∘ (i + ·)) = some m :=
    List.find?_range_eq_some.mpr ⟨by simpa using hk, List.mem_range.mpr (by omega), fun j hj => by
      simpa using h (i + j) (Nat.le_add_right ..) (Nat.add_lt_add_left hj i)⟩
  rw [hfirst]
  rfl

end

/-- The state after the pass: pc has gone on by the raw length, and a word that cannot be fetched has left its record. -/
def State.skippedTo (s : State) (bad : Option Nat) : State :=
  let s1 := s.modMySeq fun q =>
    { q with pc := s.pc + BitVec.ofNat 32 (rawLength s.stream (s.fetchSection.words.getD (s.pc.toNat / 4) 0)), stall := none }
  match bad with
  | some k => s1.healthRecord 1 s.here.toNat 4 1 (BitVec.ofNat 64 (4 * k))
  | none => s1

theorem exec_skippedInstruction (s : State) : exec .skippedInstruction s = .next ((s.skippedTo (s.fetchSection.firstFailing
    (s.pc.toNat / 4) (rawLength s.stream (s.fetchSection.words.getD (s.pc.toNat / 4) 0) / 4))).bump s.here) := rfl

/-- The wait that a pass ends is not seen. -/
theorem visible_modMySeq_stall (s : State) (t : W32) :
    (s.modMySeq fun q => { q with pc := t, stall := none }).visible = (s.setPc t).visible :=
  visible_modShuttle_congr rfl s.here fun x y hxy => by
    rw [visible_setSeq, visible_setSeq, hxy]
    exact congrArg (fun q : Seq => y.visible.setSeq s.stream { q with pc := t })
      (by rw [visible_seq, hxy, visible_seq] : (x.seq s.stream).visible = (y.seq s.stream).visible)

/-- Settles O20: the flags of each level are read off `Level.skips`, the turn is `dueIssue`'s, and the first word that cannot be
fetched decides which of the two states the pass leaves. -/
theorem skippedInstructions : Obligations.SkippedInstructions := by
  intro s passes boundary
  refine ⟨?_, fun hi ha hf => ?_, ?_⟩
  · rw [flagged_iff, skips_unit_iff, atLoopInstr_eq_false_iff]
    simp only [skips_level_iff]
    exact Iff.rfl
  · rw [step_of_agenda_nil ha, dueIssue_flagged (s := s.turn) hi hf]
    exact congrArg (exec · s.turn) (if_congr (atBoundary_iff (s := s)) rfl rfl)
  · intro i sec len failing
    refine ⟨_, exec_skippedInstruction s, fun hnone => ?_, fun k hle hlt hk hfirst => ?_⟩
    · rw [visible_bump, firstFailing_eq_none hnone]
      exact visible_modMySeq_stall s _
    · rw [visible_bump, firstFailing_eq_some hle hlt hk hfirst]
      unfold State.skippedTo
      dsimp only
      rw [visible_healthRecord, visible_healthRecord, visible_modMySeq_stall]

end Sys2Proof.Machine
end

section
namespace Sys2Proof.Machine
open Sys2Proof

/-! # Accesses that are made (R85, R237) -/

/-- An access does not turn on what follows it: it is made, and whatever follows goes on from one answer, of which `P` holds, or it
comes to an end that is no completion. -/
def Goes {α : Type} (P : α → Prop) (op : (α → Eff) → Eff) : Prop :=
  (∃ a, P a ∧ ∀ f, op f = f a) ∨ ∃ e, (∀ s1, e ≠ .done s1) ∧ ∀ f, op f = e

section
variable {α β : Type} {P : α → Prop} {Q : β → Prop}

theorem goes_on {a : α} (h : P a) : Goes P fun f => f a := .inl ⟨a, h, fun _ => rfl⟩

theorem goes_end {e : Eff} (h : ∀ s1, e ≠ .done s1) : Goes P fun _ => e := .inr ⟨e, h, fun _ => rfl⟩

theorem Goes.mono {P' : α → Prop} {op : (α → Eff) → Eff} (h : Goes P op) (hP : ∀ a, P a → P' a) : Goes P' op :=
  h.imp_left fun ⟨a, ha, hgo⟩ => ⟨a, hP a ha, hgo⟩

theorem goes_ite {c : Prop} [Decidable c] {op op' : (α → Eff) → Eff} (h : Goes P op) (h' : Goes P op') :
    Goes P fun f => if c then op f else op' f := by
  by_cases hc : c
  · simpa only [if_pos hc] using h
  · simpa only [if_neg hc] using h'

/-- One access after another. -/
theorem Goes.andThen {op : (α → Eff) → Eff} {op' : α → (β → Eff) → Eff} (h : Goes P op) (h' : ∀ a, P a → Goes Q (op' a)) :
    Goes Q fun f => op fun a => op' a f := by
  obtain ⟨a, ha, hgo⟩ | ⟨e, hne, hend⟩ := h
  · exact (funext fun f => hgo _ : (fun f => op fun a => op' a f) = op' a) ▸ h' a ha
  · exact .inr ⟨e, hne, fun f => hend _⟩

/-- An access that is made goes on from the state after it. -/
theorem Goes.of_made {R : State → Prop} {op : (State → Eff) → Eff} {s1 : State} (h : Goes R op) (hmade : Made op s1) :
    R s1 ∧ ∀ f, op f = f s1 := by
  unfold Made at hmade
  obtain ⟨s2, hR, hgo⟩ | ⟨e, hne, hend⟩ := h
  · cases (hgo .done).symm.trans hmade
    exact ⟨hR, hgo⟩
  · exact absurd ((hend .done).symm.trans hmade) (hne s1)

end

/-! ## Accesses that are not seen themselves -/

section
variable {s : State} {write : Bool} {kind : AccKind} {ext : Ext}

theorem goes_withCells (eas : List Int) : Goes (fun t => t.visible = s.visible) (withCells s write kind ext eas) := by
  unfold withCells
  dsimp only
  split
  · exact goes_end fun _ => nofun
  · exact goes_on (visible_tickSeq s s.here s.stream)

theorem goes_withPlaces (locs : List Nat) : Goes (fun t => t.visible = s.visible) (withPlaces s write kind locs) := by
  unfold withPlaces
  dsimp only
  split
  · exact goes_end fun _ => nofun
  · exact goes_end fun _ => nofun
  · exact goes_on (visible_tickSeq s s.here s.stream)

end

/-! ## What global accesses leave alone (R168, R271) -/

/-- What the operands of a scalar access and the place of its address are read from: whose turn it is, the scalar registers, and
the tasks and windows of the shuttles. -/
def State.operands (s : State) := (s.cur, fun n => ((s.shuttle n).sregs, (s.shuttle n).task, (s.shuttle n).rwin))

section
variable {s t : State} (h : t.operands = s.operands)
include h

theorem here_of_operands : t.here = s.here := congrArg (·.1.1) h

theorem shuttle_of_operands (n : ShNo) : (t.shuttle n).sregs = (s.shuttle n).sregs ∧ (t.shuttle n).task = (s.shuttle n).task ∧
    (t.shuttle n).rwin = (s.shuttle n).rwin := by
  have hn := congrFun (congrArg Prod.snd h) n
  simpa only [State.operands, Prod.mk.injEq] using hn

theorem sreg_of_operands (r : RegNo) : t.sreg r = s.sreg r := by
  unfold State.sreg State.me
  rw [here_of_operands h, (shuttle_of_operands h _).1]

theorem placeOf_of_operands (ea : Int) : t.placeOf ea = s.placeOf ea := by
  have hgang (n m : ShNo) : t.sameGang n m = s.sameGang n m := by
    unfold State.sameGang
    rw [(shuttle_of_operands h n).2.1, (shuttle_of_operands h m).2.1]
  unfold State.placeOf State.pocketAt State.pocketAddr
  dsimp only
  rw [here_of_operands h, (shuttle_of_operands h _).2.2, hgang]

end

theorem operands_of_visible {s t : State} (h : t.visible = s.visible) : t.operands = s.operands := by
  have hshuttle (n : ShNo) : (t.shuttle n).visible = (s.shuttle n).visible := by rw [← shuttle_visible, h, shuttle_visible]
  refine Prod.ext (congrArg State.cur h :) (funext fun n => ?_)
  exact (congrArg (fun x : Shuttle => (x.sregs, x.task, x.rwin)) (hshuttle n) :)

section
variable (s : State)

theorem operands_modShuttle (n : ShNo) {f : Shuttle → Shuttle}
    (hf : ∀ x, ((f x).sregs, (f x).task, (f x).rwin) = (x.sregs, x.task, x.rwin)) : (s.modShuttle n f).operands = s.operands := by
  refine Prod.ext rfl (funext fun m => ?_)
  dsimp only [State.operands]
  by_cases hm : n = m
  · subst hm
    rw [shuttle_modShuttle, hf]
  · rw [shuttle_modShuttle_ne _ _ _ _ hm]

theorem operands_modMySeq (f : Seq → Seq) : (s.modMySeq f).operands = s.operands :=
  operands_modShuttle s s.here fun x => by rw [setSeq_sregs, setSeq_task, setSeq_rwin]

theorem operands_bind (who : Option (Nat × Nat)) : (s.bind who).operands = s.operands := by
  unfold State.bind
  split <;> rfl

theorem operands_noteRange (who : Option (Nat × Nat)) (j : Nat) (d : Desc) (write : Bool) :
    (s.noteRange who j d write).operands = s.operands := by
  unfold State.noteRange
  split <;> rfl

theorem operands_healthRecord (cls unit kind count : Nat) (detail : W64) :
    (s.healthRecord cls unit kind count detail).operands = s.operands := by
  unfold State.healthRecord
  dsimp only
  split
  · rfl
  · obtain ⟨m, h, heq⟩ := sendMsi_eq _ _
    rw [heq]
    rfl

/-- A task that stops keeps its shuttles, with their registers and windows. -/
theorem operands_stopTask (tid : Nat) : (s.stopTask tid).operands = s.operands := by
  unfold State.stopTask
  split
  · rfl
  · next t _ =>
    dsimp only
    have hstop (u : State) (n : ShNo) :
        ((u.modShuttle n Shuttle.stopAll).bump n).operands = u.operands :=
      (operands_modShuttle _ n (f := Shuttle.bumped) fun _ => rfl).trans (operands_modShuttle u n (f := Shuttle.stopAll) fun _ => rfl)
    have hdrop (u : State) : (u.dropAwayLines tid).operands = u.operands := by
      unfold State.dropAwayLines
      exact (foldl_kept (π := State.operands) (by intros; rfl) _ _).trans rfl
    refine (hdrop _).trans ?_
    refine Eq.trans rfl (foldl_kept (π := State.operands) (fun u n => ?_) t.shuttles s)
    split
    · exact (apply_ite State.operands _ _ _).trans (by rw [hstop, ite_self])
    · rfl

theorem operands_abortTask (tid : Nat) : (s.abortTask tid).operands = s.operands := by
  unfold State.abortTask
  split
  · rfl
  · exact (operands_healthRecord ..).trans (operands_stopTask s tid)

/-- A write performed aborts other tasks at most. -/
theorem operands_performWrite (key : Option Nat) (pa va : Nat) (bs : List Byte) :
    (s.performWrite key pa va bs).operands = s.operands := by
  unfold State.performWrite
  dsimp only
  split
  · rfl
  · exact foldl_kept (π := State.operands) operands_abortTask _ _

theorem operands_modTask (tid : Nat) (f : Task → Task) : (s.modTask tid f).operands = s.operands := rfl

theorem operands_sendRemote (owner : Nat) (p : BitVec 8) (pa : Nat) (op : RemoteOp) (ea : W64) (by_ : Option Actor) :
    (s.sendRemote owner p pa op ea by_).operands = s.operands := rfl

theorem operands_writePiece (who : Option (Nat × Nat)) (owner : Nat) (panel : BitVec 2) (va : Nat) (bs : List Byte) (now : Bool) :
    (s.writePiece who owner panel va bs now).operands = s.operands := by
  have hnote := operands_noteRange s who
  unfold State.writePiece
  split
  · rfl
  · next j d _ => exact (operands_sendRemote ..).trans ((operands_bind _ who).trans (hnote j d true))
  · next j d _ =>
    split
    · exact operands_performWrite ..
    · split
      · exact (operands_performWrite ..).trans ((operands_bind _ who).trans (hnote j d true))
      · split
        · exact (operands_performWrite ..).trans (hnote j d true)
        · split
          · exact (operands_performWrite ..).trans ((operands_modTask ..).trans (hnote j d true))
          · exact (operands_modTask ..).trans (hnote j d false)

theorem operands_writeHome (who : Option (Nat × Nat)) (owner : Nat) (panel : BitVec 2) (va : Nat) (bs : List Byte) :
    (s.writeHome who owner panel va bs).operands = s.operands := by
  unfold State.writeHome
  refine foldl_kept (π := State.operands) (fun u p => ?_) _ s
  split
  · exact operands_noteRange ..
  · exact operands_writePiece ..

theorem operands_performStaged (t : Task) (ws : List StagedWrite) : (s.performStaged t ws).operands = s.operands := by
  unfold State.performStaged
  refine foldl_kept (π := State.operands) (fun u w => foldl_kept (π := State.operands) (fun u p => ?_) _ u) ws s
  dsimp only
  split
  · exact (operands_performWrite ..).trans (operands_noteRange ..)
  · exact (operands_sendRemote ..).trans (operands_noteRange ..)
  · rfl

end

theorem operands_becomeCommitting {s u : State} {t : Task} (h : s.becomeCommitting t = .ok u) : u.operands = s.operands := by
  unfold State.becomeCommitting at h
  dsimp only at h
  split at h
  · cases h
  · split at h
    · cases h
      exact operands_performStaged s t _
    all_goals cases h

theorem operands_readPiece {s u : State} {who : Option (Nat × Nat)} {owner va n : Nat} {need : Perm} {bs : List Byte}
    (h : s.readPiece who owner va n need = .ok (bs, u)) : u.operands = s.operands := by
  unfold State.readPiece at h
  dsimp only at h
  split at h
  · cases h
  · split at h
    · cases h
      exact operands_noteRange ..
    · cases h
    · cases h
  · split at h
    · cases h
    · split at h
      · cases h
        rfl
      · cases h
        exact operands_noteRange ..

theorem operands_readGlobal {s u : State} {who : Option (Nat × Nat)} {owner va n : Nat} {need : Perm} {bs : List Byte}
    (h : s.readGlobal who owner va n need = .ok (bs, u)) : u.operands = s.operands := by
  refine List.foldlRecOn (pieces va n) _ (motive := fun acc : Except GFault (List Byte × State) =>
    ∀ bs u, acc = .ok (bs, u) → u.operands = s.operands) ?_ ?_ bs u h
  · rintro bs u ⟨⟩
    rfl
  · intro acc ih p _ bs u h
    split at h
    · cases h
    · split at h
      · cases h
      · next hpiece =>
        cases h
        exact (operands_readPiece hpiece).trans (ih _ _ rfl)

/-! ## Records of the tape -/

section
variable {s : State}

theorem goes_withIntervals (write : Bool) (kind : AccKind) (ext : Ext) (spans : List (Nat × Nat)) :
    Goes (fun t => t.operands = s.operands) (withIntervals s write kind ext spans) := by
  unfold withIntervals
  split
  · exact goes_on rfl
  · dsimp only
    split
    · exact goes_end fun _ => nofun
    · have htick := operands_of_visible (visible_tickSeq s s.here s.stream)
      exact goes_on htick

theorem goes_whenOldest : Goes (fun t => t.operands = s.operands) (whenOldest s) := by
  unfold whenOldest
  split
  · exact goes_on rfl
  · split
    · exact goes_end fun _ => nofun
    · exact goes_ite (goes_on (operands_bind ..)) (goes_end fun _ => nofun)

theorem goes_remoteCalls (cs : List RemoteCall) (limit : Nat) : Goes (fun t => t = s) fun f => remoteCalls s cs limit f :=
  goes_ite (goes_end fun _ => nofun) (goes_ite (goes_end fun _ => nofun) (goes_on rfl))

theorem goes_withShare (s1 : State) (past : Task → Nat → Bool) :
    Goes (fun t => t.operands = s1.operands) (withShare s s1 past) := by
  unfold withShare
  split
  · exact goes_on rfl
  · refine goes_ite (goes_on rfl) (goes_ite (goes_end fun _ => nofun) (goes_ite (goes_end fun _ => nofun) ?_))
    split
    · exact goes_on (operands_becomeCommitting ‹_›)
    · exact goes_end fun _ => nofun

theorem seqGFault_ne_done (g : GFault) (s1 : State) : seqGFault s g ≠ .done s1 := by cases g <;> nofun

theorem goes_withResidency {α : Type} {P : α → Prop} {op : (α → Eff) → Eff} (spans : List (Nat × Nat)) (h : Goes P op) :
    Goes P fun f => withResidency s spans (op f) := by
  unfold withResidency
  dsimp only
  split
  · exact goes_ite (goes_end fun _ => nofun) h
  · exact goes_end fun _ => nofun
  · exact goes_end fun _ => nofun

section
variable {α : Type} {P : α → Prop} {go : (α → Eff) → State → Eff} (h : ∀ u, u.operands = s.operands → Goes P fun f => go f u)
include h

/-- What cannot be staged waits until the task is the oldest (R168). -/
theorem goes_ite_whenOldest (c : Prop) [Decidable c] : Goes P fun f => if c then whenOldest s (go f) else go f s :=
  goes_ite (Goes.andThen goes_whenOldest h) (h s rfl)

theorem goes_ite_not_whenOldest (c : Prop) [Decidable c] : Goes P fun f => if c then go f s else whenOldest s (go f) :=
  goes_ite (h s rfl) (Goes.andThen goes_whenOldest h)

end

theorem goes_seqWrite (va : Nat) (bs : List Byte) : Goes (fun t => t.operands = s.operands) (seqWrite s va bs) := by
  unfold seqWrite
  split
  · exact goes_end (seqGFault_ne_done _)
  · refine goes_withResidency _ ?_
    split
    · exact goes_end (seqGFault_ne_done _)
    · refine goes_ite_whenOldest (fun u hu => ?_) _
      refine Goes.andThen (goes_withIntervals true .plain u.ownExt _) fun v hv => Goes.andThen (goes_remoteCalls _ 0) ?_
      rintro _ rfl
      split
      · exact goes_end fun _ => nofun
      · exact (goes_withShare _ _).mono fun t ht => ht.trans ((operands_writeHome ..).trans (hv.trans hu))

theorem goes_seqRead (va n : Nat) (keep : Bool) :
    Goes (fun p : State × List Byte => p.1.operands = s.operands) fun f => seqRead s va n keep fun t bs => f (t, bs) := by
  refine goes_withResidency _ (goes_ite_not_whenOldest (fun u hu => ?_) _)
  refine Goes.andThen (goes_withIntervals false .plain u.ownExt _) fun v hv => Goes.andThen (goes_remoteCalls _ 0) ?_
  rintro _ rfl
  split
  · exact goes_end fun _ => nofun
  · exact goes_end (seqGFault_ne_done _)
  · next hread =>
    refine goes_on (a := (_, _)) ?_
    exact (apply_ite State.operands _ _ _).trans (ite_self _ ▸ (operands_readGlobal hread).trans (hv.trans hu))

/-- What follows a read of global bytes. -/
theorem goes_seqRead_andThen {α : Type} {P : α → Prop} {op : State → List Byte → (α → Eff) → Eff} (va n : Nat) (keep : Bool)
    (h : ∀ t bs, t.operands = s.operands → Goes P (op t bs)) : Goes P fun f => seqRead s va n keep fun t bs => op t bs f := by
  have hread := Goes.andThen (op' := fun p => op p.1 p.2) (goes_seqRead (s := s) va n keep) fun p hp => h p.1 p.2 hp
  exact hread

theorem goes_pushRecord (rec : List Byte) : Goes (fun t => t.operands = s.operands) (pushRecord s rec) :=
  goes_ite (goes_end fun _ => nofun) (goes_ite (goes_end fun _ => nofun)
    (Goes.andThen (goes_seqWrite _ rec) fun u hu => goes_on ((operands_modMySeq u _).trans hu)))

end

end Sys2Proof.Machine
end

section
namespace Sys2Proof.Machine
open Sys2Proof

/-! # Scalar loads and stores (R62, R63, R157, R262, R265, R271) -/

/-! ## What is seen alike is written alike -/

section
variable {s t : State} (h : s.visible = t.visible)
include h

theorem mem_of_visible : s.mem = t.mem := (congrArg State.mem h :)

theorem taskMode_of_visible : s.taskMode = t.taskMode := by
  have hmon : s.me.mon = t.me.mon := by
    have hme : s.me.visible = t.me.visible := by
      rw [State.me, ← shuttle_visible, h, here_of_visible h, shuttle_visible]
      rfl
    exact (congrArg Shuttle.mon hme :)
  rw [State.taskMode, stream_of_visible h, hmon]
  rfl

theorem pocketNat_of_visible (ea : Int) (n : Nat) : s.pocketNat ea n = t.pocketNat ea n := by
  rw [State.pocketNat, mem_of_visible h, placeOf_of_operands (operands_of_visible h)]
  rfl

theorem visible_putBytes_congr (place : Nat) (bs : List Byte) : (s.putBytes place bs).visible = (t.putBytes place bs).visible :=
  congrArg (State.putBytes · place bs) h

theorem visible_orStatus_congr (n : ShNo) (st : Stream) (bits : W64) :
    (s.orStatus n st bits).visible = (t.orStatus n st bits).visible :=
  visible_modShuttle_congr h n fun x y hxy => by
    rw [visible_setSeq, visible_setSeq, hxy]
    exact congrArg (fun q : Seq => y.visible.setSeq st { q with status := q.status ||| bits })
      (by rw [visible_seq, hxy, visible_seq] : (x.seq st).visible = (y.seq st).visible)

theorem visible_contributeAt_congr (place : Nat) (anc : Int) (v : FVal) :
    (s.contributeAt place anc v).visible = (t.contributeAt place anc v).visible := by
  unfold State.contributeAt
  rw [mem_of_visible h, here_of_visible h, stream_of_visible h]
  exact visible_orStatus_congr (visible_putBytes_congr h ..) ..

theorem visible_takeAt_congr (place : Nat) (anc : Int) (fo : Fmt) :
    (s.takeAt place anc fo).1 = (t.takeAt place anc fo).1 ∧ (s.takeAt place anc fo).2.visible = (t.takeAt place anc fo).2.visible := by
  unfold State.takeAt
  rw [mem_of_visible h, here_of_visible h, stream_of_visible h]
  exact ⟨rfl, visible_orStatus_congr (visible_putBytes_congr h ..) ..⟩

end

/-! ## The checks of an address (R63) -/

/-- An aligned address in the Pocket whose cell holds no error. -/
def State.Reaches (s : State) (size : Nat) (ea : Int) : Prop :=
  ea % size = 0 ∧ s.pocketAt s.here ea ≠ none ∧ s.badCell (s.placeOf ea) = false

section
variable {s : State} {size : Nat} {ea : Int}

theorem pocketFault_misaligned (h : ea % size ≠ 0) : s.pocketFault size [ea] = some (0x04, evalOf ea) := if_pos h

theorem pocketFault_outside (h : ea % size = 0) (hp : s.pocketAt s.here ea = none) :
    s.pocketFault size [ea] = some (0x05, evalOf ea) := by
  unfold State.pocketFault
  rw [if_neg (not_not.mpr h), hp]

/-- The checks of an aligned address in the Pocket are that of its cell. -/
theorem pocketFault_inside (h : ea % size = 0) (hp : s.pocketAt s.here ea ≠ none) :
    s.pocketFault size [ea] = if s.badCell (s.placeOf ea) then some (0x08, evalOf ea) else none := by
  obtain ⟨p, hp⟩ := Option.ne_none_iff_exists'.mp hp
  have hplace : s.placeOf ea = p := by rw [State.placeOf, hp]; rfl
  unfold State.pocketFault
  rw [if_neg (not_not.mpr h), hp, hplace]
  rfl

theorem pocketFault_of_reaches (h : s.Reaches size ea) : s.pocketFault size [ea] = none := by
  obtain ⟨halign, hpocket, hcell⟩ := h
  rw [pocketFault_inside halign hpocket, hcell]
  rfl

theorem pocketFault_badCell (h : ea % size = 0) (hp : s.pocketAt s.here ea ≠ none) (hb : s.badCell (s.placeOf ea) = true) :
    s.pocketFault size [ea] = some (0x08, evalOf ea) := by
  rw [pocketFault_inside h hp, hb]
  rfl

end

/-! ## Loads -/

section
variable {s : State} {size : Nat} {signed : Bool} {v a : RegNo} {o : BitVec 13} {ea : Int}

theorem scalarLoad_of_fault {c : BitVec 8} {e : W64} (h : s.pocketFault size [scalarEa s a o] = some (c, e)) :
    scalarLoad s size signed v a o = .trap c e := by
  unfold scalarLoad
  dsimp only
  rw [h]

theorem scalarLoad_of_no_fault (h : s.pocketFault size [scalarEa s a o] = none) :
    scalarLoad s size signed v a o = loadEffect s size signed v (scalarEa s a o) := by
  unfold scalarLoad
  dsimp only
  rw [h]

theorem scalarLoad_of_reaches (h : s.Reaches size (scalarEa s a o)) :
    scalarLoad s size signed v a o = loadEffect s size signed v (scalarEa s a o) := scalarLoad_of_no_fault (pocketFault_of_reaches h)

theorem loadEffect_width {r : Region × ShNo × Nat} (h : s.regionOfEa ea = some r) (hw : r.1.w ≠ size) :
    loadEffect s size signed v ea = .trap 0x2A (evalOf ea) := by
  unfold loadEffect
  rw [h]
  exact if_pos hw

/-- Forwards the load reads, in a region of its width and outside of any. -/
theorem loadEffect_forward (hr : s.reversed = false) (hw : ∀ r, s.regionOfEa ea = some r → r.1.w = size) :
    loadEffect s size signed v ea = loadEffect.plain s size signed v ea := by
  unfold loadEffect
  split
  · next r n b h => rw [if_neg (not_not.mpr (hw _ h)), hr, if_neg Bool.false_ne_true]
  · rw [hr, if_neg Bool.false_ne_true]

theorem loadEffect_back_outside (hr : s.reversed = true) (h : s.regionOfEa ea = none) :
    loadEffect s size signed v ea = .done s := by
  unfold loadEffect
  rw [h]
  exact if_pos hr

/-- In reverse the load contributes to the shadow cell (R262, R275). -/
theorem loadEffect_back {r : Region} {n : ShNo} {b : Nat} (hr : s.reversed = true) (h : s.regionOfEa ea = some (r, n, b))
    (hw : r.w = size) : loadEffect s size signed v ea =
      withPlaces s false .plain [cellOf (s.placeOf ea)] fun s =>
        withPlaces s true contributes (shadowLocs (r.shadow n b)) fun s =>
          .done (s.contributeAt (r.shadow n b) r.anc (fmtValue r.fmt (s.sreg v).toNat)) := by
  unfold loadEffect
  rw [h]
  exact (if_neg (not_not.mpr hw)).trans (if_pos hr)

end

/-- What a load of `size` bytes writes. -/
def loadedValue (size : Nat) (signed : Bool) (d : Nat) : W64 :=
  if signed then BitVec.ofInt 64 (sintOf (8 * size) d) else BitVec.ofNat 64 d

section
variable {s s1 : State} {size : Nat} {v : RegNo} {ea : Int}

theorem plain_of_made (signed : Bool) (h : Made (withCells s false .plain s.ownExt [ea]) s1) :
    ∃ e, loadEffect.plain s size signed v ea = .done e ∧
      e.visible = (s.setSreg v (loadedValue size signed (s.pocketNat ea size))).visible := by
  obtain ⟨hseen, hgo⟩ := (goes_withCells [ea]).of_made h
  refine ⟨_, hgo _, ?_⟩
  rw [pocketNat_of_visible hseen]
  exact visible_setSreg_congr hseen v _

theorem contribution_of_made {s2 : State} {locs locs' : List Nat} {place : Nat} {r : Region}
    (h : Made (withPlaces s false .plain locs) s1) (h' : Made (withPlaces s1 true contributes locs') s2) :
    ∃ e, (withPlaces s false .plain locs fun s => withPlaces s true contributes locs' fun s =>
        .done (s.contributeAt place r.anc (fmtValue r.fmt (s.sreg v).toNat))) = .done e ∧
      e.visible = (s.contributeAt place r.anc (fmtValue r.fmt (s.sreg v).toNat)).visible := by
  obtain ⟨hseen, hgo⟩ := (goes_withPlaces locs).of_made h
  obtain ⟨hseen', hgo'⟩ := (goes_withPlaces locs').of_made h'
  have hall := hseen'.trans hseen
  refine ⟨_, (hgo _).trans (hgo' _), ?_⟩
  rw [sreg_of_operands (operands_of_visible hall)]
  exact visible_contributeAt_congr hall ..

end

/-- A load that is `scalarLoad`, with WARN where its word asks for it, is what `Loads` says. -/
theorem loads_of_exec {i : Instr} {n : Nat} {signed : Bool} {v a : RegNo} {o : BitVec 13} {warn : Bool} {s : State} (hs : OnC s)
    (hx : exec i s = runC s ((scalarLoad s n signed v a o).andThen fun s => .done (s.warnIf warn))) :
    Loads i n signed v a o warn s := by
  have htrap {c : BitVec 8} {e : W64} (h : scalarLoad s n signed v a o = .trap c e) : Traps i s c e := by
    rw [Traps, hx, h]
    rfl
  have hdone {e e' : State} (h : scalarLoad s n signed v a o = .done e') (hseen : e'.visible = e.visible) (he : e.here = s.here) :
      Completes i s (e.warnIf warn) := by
    rw [h] at hx
    exact completes_of_visible hs.2.1 hx (visible_warnIf_congr hseen warn) ((here_warnIf warn).trans he)
  unfold Loads
  intro ea d good
  refine ⟨fun hg hfree hr hw => ?_, fun hg hr hnone => ?_, fun r t b hg hr hreg hw hfree => ?_, fun r hg hreg hw => ?_, fun h => ?_,
    fun h hp => ?_, fun h hp hb => ?_⟩
  · obtain ⟨s1, hmade⟩ := hfree
    obtain ⟨e, he, hseen⟩ := plain_of_made (size := n) (v := v) signed hmade
    exact hdone ((scalarLoad_of_reaches hg).trans ((loadEffect_forward hr hw).trans he)) hseen (here_setSreg ..)
  · exact hdone ((scalarLoad_of_reaches hg).trans (loadEffect_back_outside hr hnone)) rfl rfl
  · obtain ⟨s1, hmade, s2, hmade'⟩ := hfree
    obtain ⟨e, he, hseen⟩ := contribution_of_made (v := v) (place := r.shadow t b) (r := r) hmade hmade'
    exact hdone ((scalarLoad_of_reaches hg).trans ((loadEffect_back hr hreg hw).trans he)) hseen rfl
  · exact htrap ((scalarLoad_of_reaches hg).trans (loadEffect_width hreg hw))
  · exact htrap (scalarLoad_of_fault (pocketFault_misaligned h))
  · exact htrap (scalarLoad_of_fault (pocketFault_outside h hp))
  · exact htrap (scalarLoad_of_fault (pocketFault_badCell h hp hb))

theorem andThen_done (e : Eff) : e.andThen .done = e := by cases e <;> rfl

/-- Settles O26: every scalar load is `scalarLoad` at its size, LDD's WARN apart. -/
theorem scalarLoads : Obligations.ScalarLoads := by
  intro v a o sx s hs
  have hplain {i : Instr} {n : Nat} {signed : Bool} (hx : exec i s = runC s (scalarLoad s n signed v a o)) :
      Loads i n signed v a o false s := loads_of_exec hs (hx.trans (congrArg (runC s) (andThen_done _).symm))
  exact ⟨hplain rfl, hplain rfl, hplain rfl, loads_of_exec hs rfl, hplain rfl, hplain rfl, hplain rfl⟩

/-! ## Stores -/

section
variable {s : State} {size : Nat} {v a : RegNo} {o : BitVec 13} {ea : Int}

theorem scalarStore_of_fault {c : BitVec 8} {e : W64} (h : s.pocketFault size [scalarEa s a o] = some (c, e)) :
    scalarStore s size v a o = .trap c e := by
  unfold scalarStore
  dsimp only
  rw [h]

theorem scalarStore_of_no_fault (h : s.pocketFault size [scalarEa s a o] = none) :
    scalarStore s size v a o = storeEffect s size v (scalarEa s a o) := by
  unfold scalarStore
  dsimp only
  rw [h]

theorem scalarStore_of_reaches (h : s.Reaches size (scalarEa s a o)) :
    scalarStore s size v a o = storeEffect s size v (scalarEa s a o) := scalarStore_of_no_fault (pocketFault_of_reaches h)

/-- The bytes of s[v] at the place of the address. -/
def State.stored (s : State) (size : Nat) (v : RegNo) (ea : Int) : State :=
  s.putBytes (s.placeOf ea) (leBytes size (s.sreg v).toNat)

theorem storeEffect_width {r : Region × ShNo × Nat} (h : s.regionOfEa ea = some r) (hw : r.1.w ≠ size) :
    storeEffect s size v ea = .trap 0x2A (evalOf ea) := by
  unfold storeEffect
  rw [h]
  exact if_pos hw

theorem storeEffect_outside (h : s.regionOfEa ea = none) : storeEffect s size v ea =
    if s.reversed then .done s else withCells s true .plain s.ownExt [ea] fun s => .done (s.stored size v ea) := by
  unfold storeEffect
  rw [h]
  rfl

/-- Forwards a store into a region pushes its record first, in task mode (R265, R271). -/
theorem storeEffect_region {r : Region × ShNo × Nat} (hr : s.reversed = false) (h : s.regionOfEa ea = some r) (hw : r.1.w = size) :
    storeEffect s size v ea =
      withCells s true .plain s.ownExt [ea] fun s =>
        if s.taskMode then
          pushRecord s (tapeHeader 1 1 (evalOf ea) (BitVec.ofNat 64 (Nat.log2 size)) (BitVec.ofNat 64 (s.pocketNat ea size)))
            fun s => .done (s.stored size v ea)
        else .done (s.stored size v ea) := by
  unfold storeEffect
  rw [h]
  exact (if_neg (not_not.mpr hw)).trans (if_neg (by rw [hr]; exact Bool.false_ne_true))

/-- In reverse it takes the record back (R262, R272). -/
theorem storeEffect_back {r : Region} {n : ShNo} {b : Nat} (hr : s.reversed = true) (h : s.regionOfEa ea = some (r, n, b))
    (hw : r.w = size) : storeEffect s size v ea =
      popRecord s 1 64 (scalarKeyOf (tapeHeader 1 1 (evalOf ea) (BitVec.ofNat 64 (Nat.log2 size)) 0)) scalarKeyOf fun s rec =>
        withPlaces s true .plain (shadowLocs (r.shadow n b) ++ [cellOf (s.placeOf ea)]) fun s =>
          let t := s.takeAt (r.shadow n b) r.anc r.fmt
          .done ((t.2.setSreg v (BitVec.ofNat 64 t.1)).putBytes (s.placeOf ea) ((rec.drop 24).take size)) := by
  unfold storeEffect
  rw [h]
  exact (if_neg (not_not.mpr hw)).trans (if_pos hr)

end

theorem goes_popRecord {s : State} (len head : Nat) (want : List Byte) (cmp : List Byte → List Byte) :
    Goes (fun p : State × List Byte => p.1.operands = s.operands) fun f => popRecord s len head want cmp fun t bs => f (t, bs) := by
  refine goes_ite (goes_end fun _ => nofun) (goes_ite (goes_end fun _ => nofun) ?_)
  refine goes_seqRead_andThen _ head true fun t bs ht => goes_ite (goes_end fun _ => nofun) ?_
  refine goes_seqRead_andThen _ _ false fun u rec hu => ?_
  exact goes_on (a := (_, rec)) ((operands_modMySeq u _).trans (hu.trans ht))

/-- A pop that gives `rec` to one continuation gives it to all. -/
theorem popRecord_of_done {s s1 : State} {len head : Nat} {want rec : List Byte} {cmp : List Byte → List Byte}
    (h : popRecord s len head want cmp (fun e bs => if bs = rec then .done e else .trap 0 0) = .done s1) :
    s1.operands = s.operands ∧ ∀ f, popRecord s len head want cmp f = f s1 rec := by
  obtain ⟨⟨t, bs⟩, hops, hgo⟩ | ⟨e, hne, hend⟩ := goes_popRecord (s := s) len head want cmp
  · have hk := (hgo fun p => if p.2 = rec then .done p.1 else .trap 0 0).symm.trans h
    dsimp only at hk
    split at hk
    · next hbs =>
      cases hk
      exact ⟨hops, fun f => hbs ▸ hgo fun p => f p.1 p.2⟩
    · cases hk
  · exact absurd ((hend fun p => if p.2 = rec then .done p.1 else .trap 0 0).symm.trans h) (hne s1)

section
variable {s s1 : State} {size : Nat} {v : RegNo} {ea : Int}

theorem stored_of_operands (h : s1.operands = s.operands) :
    s1.stored size v ea = s1.putBytes (s.placeOf ea) (leBytes size (s.sreg v).toNat) := by
  rw [State.stored, placeOf_of_operands h, sreg_of_operands h]

theorem visible_stored (h : s1.visible = s.visible) : (s1.stored size v ea).visible = (s.stored size v ea).visible := by
  rw [stored_of_operands (operands_of_visible h)]
  exact visible_putBytes_congr h ..

/-- A store without a record. -/
theorem store_of_made {r : Option (Region × ShNo × Nat)} (hr : s.reversed = false) (hreg : s.regionOfEa ea = r)
    (hmode : r = none ∨ s.taskMode = false) (hw : ∀ q, r = some q → q.1.w = size)
    (h : Made (withCells s true .plain s.ownExt [ea]) s1) : storeEffect s size v ea = .done (s1.stored size v ea) := by
  obtain ⟨hseen, hgo⟩ := (goes_withCells [ea]).of_made h
  cases r with
  | none => rw [storeEffect_outside hreg, hr, if_neg Bool.false_ne_true, hgo]
  | some q =>
    have hmode : s1.taskMode = false := (taskMode_of_visible hseen).trans (hmode.resolve_left nofun)
    rw [storeEffect_region hr hreg (hw q rfl), hgo, hmode, if_neg Bool.false_ne_true]

/-- A store with its record. -/
theorem recorded_of_made {s2 : State} {r : Region × ShNo × Nat} (hr : s.reversed = false) (hm : s.taskMode = true)
    (hreg : s.regionOfEa ea = some r) (hw : r.1.w = size) (h : Made (withCells s true .plain s.ownExt [ea]) s1)
    (h' : Made (pushRecord s1 (tapeHeader 1 1 (evalOf ea) (BitVec.ofNat 64 (Nat.log2 size)) (BitVec.ofNat 64 (s.pocketNat ea size))))
      s2) : storeEffect s size v ea = .done (s2.putBytes (s.placeOf ea) (leBytes size (s.sreg v).toNat)) ∧ s2.here = s.here := by
  obtain ⟨hseen, hgo⟩ := (goes_withCells [ea]).of_made h
  obtain ⟨hops, hgo'⟩ := (goes_pushRecord _).of_made h'
  have hall := hops.trans (operands_of_visible hseen)
  refine ⟨?_, here_of_operands hall⟩
  rw [storeEffect_region hr hreg hw, hgo, taskMode_of_visible hseen, hm, if_pos rfl, pocketNat_of_visible hseen, hgo',
    stored_of_operands hall]

/-- A store taken back. -/
theorem takenBack_of_made {r : Region} {n : ShNo} {b : Nat} {rec : List Byte} (hr : s.reversed = true)
    (hreg : s.regionOfEa ea = some (r, n, b)) (hw : r.w = size)
    (h : popRecord s 1 64 (scalarKeyOf (tapeHeader 1 1 (evalOf ea) (BitVec.ofNat 64 (Nat.log2 size)) 0)) scalarKeyOf
      (fun e bs => if bs = rec then .done e else .trap 0 0) = .done s1)
    (h' : s1.placesFree true .plain (shadowLocs (r.shadow n b) ++ [cellOf (s.placeOf ea)])) :
    ∃ e, storeEffect s size v ea = .done e ∧ s1.here = s.here ∧
      let t := s1.takeAt (r.shadow n b) r.anc r.fmt
      e.visible = ((t.2.setSreg v (BitVec.ofNat 64 t.1)).putBytes (s.placeOf ea) ((rec.drop 24).take size)).visible := by
  obtain ⟨hops, hgo⟩ := popRecord_of_done h
  obtain ⟨s2, hmade⟩ := h'
  obtain ⟨hseen, hgo'⟩ := (goes_withPlaces _).of_made hmade
  have hdone := (storeEffect_back (v := v) hr hreg hw).trans (hgo _)
  rw [placeOf_of_operands hops, hgo'] at hdone
  refine ⟨_, hdone, here_of_operands hops, ?_⟩
  obtain ⟨hvalue, hstate⟩ := visible_takeAt_congr hseen (r.shadow n b) r.anc r.fmt
  dsimp only
  rw [hvalue, placeOf_of_operands ((operands_of_visible hseen).trans hops)]
  exact visible_putBytes_congr (visible_setSreg_congr hstate v _) ..

end

/-- A store that is `scalarStore` is what `Stores` says. -/
theorem stores_of_exec {i : Instr} {n : Nat} {v a : RegNo} {o : BitVec 13} {s : State} (hs : OnC s)
    (hx : exec i s = runC s (scalarStore s n v a o)) : Stores i n v a o s := by
  have htrap {c : BitVec 8} {e : W64} (h : scalarStore s n v a o = .trap c e) : Traps i s c e := by
    rw [Traps, hx, h]
    rfl
  have hdone {e e' : State} (h : scalarStore s n v a o = .done e') (hseen : e'.visible = e.visible) (he : e.here = s.here) :
      Completes i s e := by
    rw [h] at hx
    exact completes_of_visible hs.2.1 hx hseen he
  unfold Stores
  intro ea p good put header
  refine ⟨fun hg hfree hr hmode hw => ?_, fun s1 s2 hg hr hm hreg hmade hpush => ?_, fun hg hr hnone => ?_,
    fun r t b s1 rec hg hr hreg hw hpop hfree => ?_, fun r hg hreg hw => ?_, fun h => ?_, fun h hp => ?_, fun h hp hb => ?_⟩
  · obtain ⟨s1, hmade⟩ := hfree
    exact hdone ((scalarStore_of_reaches hg).trans (store_of_made hr rfl hmode hw hmade))
      (visible_stored ((goes_withCells [ea]).of_made hmade).1) rfl
  · obtain ⟨r, hreg, hw⟩ := hreg
    obtain ⟨he, hhere⟩ := recorded_of_made (v := v) hr hm hreg hw hmade hpush
    exact hdone ((scalarStore_of_reaches hg).trans he) rfl hhere
  · refine hdone ((scalarStore_of_reaches hg).trans ((storeEffect_outside hnone).trans (if_pos hr))) rfl rfl
  · obtain ⟨e, he, hhere, hseen⟩ := takenBack_of_made (v := v) hr hreg hw hpop hfree
    exact hdone ((scalarStore_of_reaches hg).trans he) hseen ((here_setSreg v _).trans hhere)
  · exact htrap ((scalarStore_of_reaches hg).trans (storeEffect_width hreg hw))
  · exact htrap (scalarStore_of_fault (pocketFault_misaligned h))
  · exact htrap (scalarStore_of_fault (pocketFault_outside h hp))
  · exact htrap (scalarStore_of_fault (pocketFault_badCell h hp hb))

/-- Settles O27: every scalar store is `scalarStore` at its size. -/
theorem scalarStores : Obligations.ScalarStores := fun _ _ _ _ hs =>
  ⟨stores_of_exec hs rfl, stores_of_exec hs rfl, stores_of_exec hs rfl, stores_of_exec hs rfl⟩

end Sys2Proof.Machine
end

section
namespace Sys2Proof.Machine
open Sys2Proof

/-! # The memory frame of scalar loads and stores (R63) -/

theorem mem_of_runC_done {s e t : State} (h : runC s (.done e) = .next t) : t.mem = e.mem := by
  obtain rfl : finishWith s ((e.modMe (Shuttle.pushTokens · s.stream 0)).setPc (s.pc + 4)) none = t := Host.Outcome.next.inj h
  exact finishWith_mem ..

theorem mem_of_runC_trap {s t : State} {c : BitVec 8} {v : W64} (h : runC s (.trap c v) = .next t) : t.mem = s.mem := by
  obtain rfl : s.takeTrap s.here s.stream c v = t := Host.Outcome.next.inj h
  exact takeTrap_mem ..

theorem mem_setSreg (s : State) (d : RegNo) (v : W64) : (s.setSreg d v).mem = s.mem := by
  unfold State.setSreg
  split <;> rfl

/-- The instruction completes with memory `m`, or traps. -/
def Eff.Writes (m : List Host.Cell) (e : Eff) : Prop := (∃ s, e = .done s ∧ s.mem = m) ∨ ∃ c v, e = .trap c v

section
variable {s t : State} {m : List Host.Cell} {e : Eff}

/-- Then memory is as before, or `m`. -/
theorem Eff.Writes.mem_cases (h : e.Writes m) (hrun : runC s e = .next t) : t.mem = m ∨ t.mem = s.mem := by
  obtain ⟨u, rfl, rfl⟩ | ⟨c, v, rfl⟩ := h
  · exact .inl (mem_of_runC_done hrun)
  · exact .inr (mem_of_runC_trap hrun)

theorem Eff.Writes.warnIf (h : e.Writes m) (b : Bool) : (e.andThen fun s => .done (s.warnIf b)).Writes m := by
  obtain ⟨u, rfl, rfl⟩ | ⟨c, v, rfl⟩ := h
  · exact .inl ⟨_, rfl, by cases b <;> rfl⟩
  · exact .inr ⟨c, v, rfl⟩

end

section
variable {s : State} {size : Nat} {signed : Bool} {v a : RegNo} {o : BitVec 13}

/-- What follows an access to cells writes what it would write without it. -/
theorem withCells_writes {write : Bool} {kind : AccKind} {ext : Ext} {eas : List Int} {f : State → Eff} {m : List Host.Cell}
    (h : ∀ t, t.visible = s.visible → (f t).Writes m) : (withCells s write kind ext eas f).Writes m := by
  rcases withCells_cases s write kind ext eas f with ⟨tags, rels, heq⟩ | ⟨e, heq⟩ <;> rw [heq]
  · exact h _ (visible_tickSeq s s.here s.stream)
  · exact .inr ⟨_, _, rfl⟩

/-- Forwards and outside of regions a load writes nothing. -/
theorem scalarLoad_writes (hr : s.reversed = false) (h : s.regionOfEa (scalarEa s a o) = none) :
    (scalarLoad s size signed v a o).Writes s.mem := by
  rcases hf : s.pocketFault size [scalarEa s a o] with _ | ⟨c, e⟩
  · rw [scalarLoad_of_no_fault hf, loadEffect_forward hr fun r hreg => nomatch h.symm.trans hreg]
    exact withCells_writes fun t ht => .inl ⟨_, rfl, (mem_setSreg ..).trans (mem_of_visible ht)⟩
  · rw [scalarLoad_of_fault hf]
    exact .inr ⟨c, e, rfl⟩

/-- There a store writes its bytes at the place of its address. -/
theorem scalarStore_writes (hr : s.reversed = false) (h : s.regionOfEa (scalarEa s a o) = none) :
    (scalarStore s size v a o).Writes (s.stored size v (scalarEa s a o)).mem := by
  rcases hf : s.pocketFault size [scalarEa s a o] with _ | ⟨c, e⟩
  · rw [scalarStore_of_no_fault hf, storeEffect_outside h, hr, if_neg Bool.false_ne_true]
    exact withCells_writes fun t ht => .inl ⟨_, rfl, mem_of_visible (visible_stored ht)⟩
  · rw [scalarStore_of_fault hf]
    exact .inr ⟨c, e, rfl⟩

/-- Bytes outside those stored are as before. -/
theorem memByte_stored_ne (ea : Int) {b : Nat} (hb : b < s.placeOf ea ∨ s.placeOf ea + size ≤ b) :
    memByte (s.stored size v ea).mem b = memByte s.mem b :=
  memByte_memStore_ne _ _ _ _ (by rwa [leBytes_length])

end

/-- Settles O28: a load or store is `scalarLoad` or `scalarStore`, which traps or writes at the place of its address. -/
theorem frameLoadsStores : Obligations.FrameLoadsStores := by
  intro v a o sx s t _ hr ea p outside hreg
  have hstore {n : Nat} {i : Instr} (hx : exec i s = runC s (scalarStore s n v a o)) (ht : exec i s = .next t) : outside n := by
    intro b hb
    rcases (scalarStore_writes hr hreg).mem_cases (hx.symm.trans ht) with hm | hm <;> rw [hm]
    exact memByte_stored_ne ea hb
  have hload {n : Nat} {signed : Bool} {i : Instr} (hx : exec i s = runC s (scalarLoad s n signed v a o))
      (ht : exec i s = .next t) : t.mem = s.mem :=
    or_self_iff.mp ((scalarLoad_writes hr hreg).mem_cases (hx.symm.trans ht))
  have hldd (ht : exec (.ldd v a o sx) s = .next t) : t.mem = s.mem :=
    or_self_iff.mp (((scalarLoad_writes hr hreg).warnIf sx).mem_cases ht)
  refine ⟨hstore rfl, hstore rfl, hstore rfl, hstore rfl, ?_⟩
  rintro (ht | ht | ht | ht | ht | ht | ht)
  exacts [hload rfl ht, hload rfl ht, hload rfl ht, hldd ht, hload rfl ht, hload rfl ht, hload rfl ht]

end Sys2Proof.Machine
end

section
namespace Sys2Proof.Machine
open Sys2Proof

/-! # Effects of the streams' instructions, after and before their pops (R82 to R85) -/

/-! ## Tokens and credits apart from the rest of a shuttle -/

section
variable (x : Shuttle) (st : Stream) (k : BitVec 4)

/-- The counters of tokens and credits (R82). -/
structure TokenCounters where
  tLX : List Know
  tXS : List Know
  tSL : List Know
  crLX : List Know
  crXS : List Know
  crSL : List Know

def Shuttle.counters : TokenCounters := ⟨x.tLX, x.tXS, x.tSL, x.crLX, x.crXS, x.crSL⟩

def Shuttle.withCounters (t : TokenCounters) : Shuttle :=
  { x with tLX := t.tLX, tXS := t.tXS, tSL := t.tSL, crLX := t.crLX, crXS := t.crXS, crSL := t.crSL }

/-- A pop changes nothing but the counters. -/
theorem takeTokens_eq : x.takeTokens st k = x.withCounters (x.takeTokens st k).counters := by
  unfold Shuttle.takeTokens
  rcases k.getLsbD 3 with _ | _ <;> rcases k.getLsbD 1 with _ | _ <;> cases st <;> rfl

/-- What it leaves of them does not depend on the rest of the shuttle. -/
theorem counters_takeTokens_withCounters (t : TokenCounters) (y : Shuttle) :
    ((x.withCounters t).takeTokens st k).counters = ((y.withCounters t).takeTokens st k).counters := by
  unfold Shuttle.takeTokens
  rcases k.getLsbD 3 with _ | _ <;> rcases k.getLsbD 1 with _ | _ <;> cases st <;> rfl

end

/-- A change of a shuttle that is seen alike where the shuttle is, and has no part in tokens and credits. -/
structure Beside (g : Shuttle → Shuttle) : Prop where
  seen : ∀ x y, x.visible = y.visible → (g x).visible = (g y).visible
  tokens : ∀ x t, g (x.withCounters t) = (g x).withCounters t

section
variable {g h : Shuttle → Shuttle}

theorem Beside.takeTokens (hg : Beside g) (x : Shuttle) (st : Stream) (k : BitVec 4) :
    g (x.takeTokens st k) = (g x).takeTokens st k := by
  have hkept : g x = (g x).withCounters x.counters := hg.tokens x x.counters
  have hsame : (x.takeTokens st k).counters = ((g x).takeTokens st k).counters := by
    rw [hkept]
    exact counters_takeTokens_withCounters x st k x.counters (g x)
  rw [takeTokens_eq x, hg.tokens, hsame, ← takeTokens_eq]

/-- Done after the pops it is seen as when it is done before them. -/
theorem Beside.popTokens (hg : Beside g) (x : Shuttle) (st : Stream) (k : BitVec 4) :
    (g (x.popTokens st k)).visible = ((g x).popTokens st k).visible := by
  rw [visible_popTokens, ← hg.takeTokens]
  exact hg.seen _ _ (visible_popTokens x st k)

theorem Beside.comp (hg : Beside g) (hh : Beside h) : Beside fun x => g (h x) :=
  ⟨fun x y hxy => hg.seen _ _ (hh.seen x y hxy), fun x t => by rw [hh.tokens, hg.tokens]⟩

end

/-! ## The changes that queue instructions make -/

theorem visible_popTo (m : Marks) (st : Stream) (n : Nat) (k : Know) :
    (m.popTo st n k).visible = m.visible.popTo st n Know.none := by
  unfold Marks.popTo Marks.visible
  dsimp only
  rw [List.map_map, List.map_map]
  congr 1
  refine List.map_congr_left fun p _ => ?_
  simp only [Function.comp_apply, Option.isNone_map]
  split <;> rfl

theorem visible_notePop (x : Shuttle) (st : Stream) (n : Nat) : (x.notePop st n).visible = x.visible.notePop st n := by
  have hmarks (c : Nat) (k : Know) : (x.marks.map fun m => m.popTo st c k).map Marks.visible =
      (x.marks.map Marks.visible).map fun m => m.popTo st c Know.none := by
    simp [List.map_map, Function.comp_def, visible_popTo]
  have hnote (y : Shuttle) (m : List Marks) (c : Chan) : ({ y.setChan st c with marks := m } : Shuttle).visible =
      { y.visible.setChan st c.visible with marks := m.map Marks.visible } := by cases st <;> rfl
  unfold Shuttle.notePop
  dsimp only
  rw [hnote, hmarks]
  cases st <;> rfl

theorem beside_setInbound (st : Stream) (r : List QEntry) : Beside (Shuttle.setInbound · st r) where
  seen x y hxy := by
    have hset (x : Shuttle) : (x.setInbound st r).visible = x.visible.setInbound st (r.map QEntry.visible) := by cases st <;> rfl
    rw [hset, hset, hxy]
  tokens x t := by cases st <;> rfl

theorem beside_notePop (st : Stream) (n : Nat) : Beside (Shuttle.notePop · st n) where
  seen x y hxy := by rw [visible_notePop, visible_notePop, hxy]
  tokens x t := by cases st <;> rfl

theorem beside_setSeq {f : Seq → Seq} (hf : ∀ q r : Seq, q.visible = r.visible → (f q).visible = (f r).visible) (st : Stream) :
    Beside fun x => x.setSeq st (f (x.seq st)) where
  seen x y hxy := by
    have hq : (x.seq st).visible = (y.seq st).visible := by rw [visible_seq, hxy, visible_seq]
    rw [visible_setSeq, visible_setSeq, hxy, hf _ _ hq]
  tokens x t := by cases st <;> rfl


/-! ## What a pop leaves as it was -/

/-- A pop changes the counters, and what the sequencer knows. -/
theorem popTokens_eq (x : Shuttle) (st : Stream) (k : BitVec 4) : ∃ t kn era,
    x.popTokens st k = (x.withCounters t).setSeq st { x.seq st with know := kn, era := era } := by
  have hlearn (l : List Know) (q : Seq) : ∃ kn, l.foldl Seq.learnOrder q = { q with know := kn } := by
    induction l generalizing q with
    | nil => exact ⟨q.know, rfl⟩
    | cons k l ih => exact ih (q.learnOrder k)
  obtain ⟨kn, hkn⟩ := hlearn ((x.tokensFor st k).1 ++ (x.tokensFor st k).2) (x.seq st)
  refine ⟨(x.takeTokens st k).counters, kn, if k &&& 10 = 0 then (x.seq st).era else (x.seq st).era + 1, ?_⟩
  have hseq (t : TokenCounters) : (x.withCounters t).seq st = x.seq st := by cases st <;> rfl
  unfold Shuttle.popTokens Shuttle.learnTokens Shuttle.newEra
  rw [takeTokens_eq, hseq, hkn]
  split <;> cases st <;> rfl

section
variable (s : State) (k : BitVec 4)

theorem me_popped : (s.popped k).me = s.me.popTokens s.stream k := by
  simp [State.popped, State.me, State.modMe, State.modShuttle, State.shuttle, State.setShuttle, State.here]

/-- What is read of a shuttle beside its counters and sequencers is as before the pops. -/
theorem read_popped {α : Type} (π : Shuttle → α) (h : ∀ (x : Shuttle) t st q, π ((x.withCounters t).setSeq st q) = π x) :
    π (s.popped k).me = π s.me := by
  obtain ⟨t, kn, era, hpop⟩ := popTokens_eq s.me s.stream k
  rw [me_popped, hpop, h]

/-- The issuing sequencer has learned what its tokens order, and is as before in everything else. -/
theorem mySeq_popped : ∃ kn era, (s.popped k).mySeq = { s.mySeq with know := kn, era := era } := by
  obtain ⟨t, kn, era, hpop⟩ := popTokens_eq s.me s.stream k
  refine ⟨kn, era, ?_⟩
  change ((s.popped k).me).seq s.stream = _
  rw [me_popped, hpop]
  unfold State.mySeq
  cases s.stream <;> rfl

@[simp] theorem stream_popped : (s.popped k).stream = s.stream := rfl
@[simp] theorem here_popped : (s.popped k).here = s.here := rfl

@[simp] theorem inbound_popped (st : Stream) : (s.popped k).me.inbound st = s.me.inbound st :=
  read_popped s k (Shuttle.inbound · st) fun _ _ st' _ => by cases st' <;> rfl

@[simp] theorem qLX_popped : (s.popped k).me.qLX = s.me.qLX := read_popped s k Shuttle.qLX fun _ _ st _ => by cases st <;> rfl
@[simp] theorem qXS_popped : (s.popped k).me.qXS = s.me.qXS := read_popped s k Shuttle.qXS fun _ _ st _ => by cases st <;> rfl
@[simp] theorem shp_popped : (s.popped k).me.shp = s.me.shp := read_popped s k Shuttle.shp fun _ _ st _ => by cases st <;> rfl

@[simp] theorem count_popped (c : BitVec 3) : (s.popped k).me.count c = s.me.count c :=
  read_popped s k (Shuttle.count · c) fun _ _ st _ => by cases st <;> rfl

@[simp] theorem areg_popped (r : RegNo) : (s.popped k).areg r = s.areg r :=
  read_popped s k (fun x => let f := if s.stream = .l then x.aL else x.aS; if h : r.toNat < 16 then f[r.toNat]'h else 0)
    fun _ _ st _ => by cases st <;> rfl

theorem unmarked_popped (hs : Unmarked s) : Unmarked (s.popped k) :=
  (read_popped s k Shuttle.marked fun _ _ st _ => by cases st <;> rfl).trans hs

@[simp] theorem held_popped : (s.popped k).mySeq.held = s.mySeq.held := by obtain ⟨_, _, h⟩ := mySeq_popped s k; rw [h]
@[simp] theorem loops_popped : (s.popped k).mySeq.loops = s.mySeq.loops := by obtain ⟨_, _, h⟩ := mySeq_popped s k; rw [h]
@[simp] theorem pc_popped : (s.popped k).pc = s.pc := by
  obtain ⟨_, _, h⟩ := mySeq_popped s k
  unfold State.pc
  rw [h]

end

/-! ## Changes of the issuing shuttle -/

/-- The change is one of the issuing shuttle beside its tokens, which may turn on the stream. -/
def OnShuttle (F : State → State) : Prop :=
  ∃ G : Stream → Shuttle → Shuttle, (∀ st, Beside (G st)) ∧ ∀ s, F s = s.modMe (G s.stream)

section
variable {F H : State → State}

theorem modMe_modMe (s : State) (f g : Shuttle → Shuttle) : (s.modMe f).modMe g = s.modMe (g ∘ f) := by
  simp [State.modMe, State.modShuttle, State.setShuttle, State.shuttle, State.here]

theorem onShuttle_id : OnShuttle fun s => s :=
  ⟨fun _ x => x, fun _ => ⟨fun _ _ h => h, fun _ _ => rfl⟩, fun s => (setShuttle_shuttle s s.here).symm⟩

theorem onShuttle_modMe {g : Shuttle → Shuttle} (hg : Beside g) : OnShuttle (State.modMe · g) :=
  ⟨fun _ => g, fun _ => hg, fun _ => rfl⟩

theorem OnShuttle.comp (hF : OnShuttle F) (hH : OnShuttle H) : OnShuttle fun s => F (H s) := by
  obtain ⟨G, hG, hFG⟩ := hF
  obtain ⟨K, hK, hHK⟩ := hH
  exact ⟨fun st x => G st (K st x), fun st => (hG st).comp (hK st), fun s => by dsimp only; rw [hHK, hFG, modMe_modMe]; rfl⟩

theorem OnShuttle.here (hF : OnShuttle F) (s : State) : (F s).here = s.here := by obtain ⟨G, -, h⟩ := hF; rw [h]; rfl

theorem OnShuttle.seen (hF : OnShuttle F) {s t : State} (h : s.visible = t.visible) : (F s).visible = (F t).visible := by
  obtain ⟨G, hG, hFG⟩ := hF
  rw [hFG, hFG, stream_of_visible h, State.modMe, State.modMe, here_of_visible h]
  exact visible_modShuttle_congr h _ fun x y => (hG _).seen x y

/-- Done after the pops it is seen as when it is done before them. -/
theorem OnShuttle.popped (hF : OnShuttle F) (s : State) (k : BitVec 4) :
    (F (s.popped k)).visible = ((F s).modMe (Shuttle.popTokens · s.stream k)).visible := by
  obtain ⟨G, hG, hFG⟩ := hF
  have hmod (f : Shuttle → Shuttle) : (s.modMe f).visible = s.visible.setShuttle s.here (f s.me).visible := visible_setShuttle ..
  rw [hFG, hFG, State.popped, modMe_modMe, modMe_modMe, hmod, hmod]
  exact congrArg (s.visible.setShuttle s.here) ((hG s.stream).popTokens _ s.stream k)

theorem onShuttle_modMySeq {f : Seq → Seq} (hf : ∀ q r : Seq, q.visible = r.visible → (f q).visible = (f r).visible) :
    OnShuttle (State.modMySeq · f) :=
  ⟨fun st x => x.setSeq st (f (x.seq st)), fun st => beside_setSeq hf st, fun _ => rfl⟩

theorem onShuttle_tookEntry (r : List QEntry) : OnShuttle (State.tookEntry · r) :=
  ⟨fun st x => (x.setInbound st r).notePop st 1, fun st => (beside_notePop st 1).comp (beside_setInbound st r), fun _ => rfl⟩

theorem onShuttle_setAreg (d : RegNo) (v : W64) : OnShuttle (State.setAreg · d v) := by
  by_cases h : d.toNat < 16
  · refine ⟨fun st x => let y := x.mend st (damage 1 d.toNat)
      if st = .l then { y with aL := x.aL.set d.toNat v h } else { y with aS := x.aS.set d.toNat v h }, fun st => ⟨?_, ?_⟩,
      fun s => dif_pos h⟩
    · intro x y hxy
      by_cases hl : st = .l
      · subst hl
        exact congrArg (fun x : Shuttle => { x.mend .l (damage 1 d.toNat) with aL := x.aL.set d.toNat v h }) hxy
      · simp only [if_neg hl]
        exact congrArg (fun x : Shuttle => { x.mend st (damage 1 d.toNat) with aS := x.aS.set d.toNat v h }) hxy
    · intro x t
      cases st <;> rfl
  · obtain ⟨G, hG, hid⟩ := onShuttle_id
    exact ⟨G, hG, fun s => (dif_neg h).trans (hid s)⟩

theorem onShuttle_setVreg (d : RegNo) (v : VReg) : OnShuttle (State.setVreg · d v) :=
  onShuttle_modMe ⟨fun _ _ h =>
      congrArg (fun x : Shuttle => { x.mend .c (damage 2 d.toNat) with vregs := x.vregs.set d.toNat v d.isLt }) h,
    fun _ _ => rfl⟩

theorem onShuttle_setShp (v : W64) : OnShuttle (State.setShp · v) :=
  onShuttle_modMe ⟨fun _ _ h => congrArg (fun x : Shuttle => { x with shp := v }) h, fun _ _ => rfl⟩

theorem onShuttle_warnIf (b : Bool) : OnShuttle (State.warnIf · b) := by
  cases b
  · exact onShuttle_id
  · exact onShuttle_modMySeq (f := fun q => { q with status := q.status ||| warnBit }) fun _ _ h =>
      congrArg (fun q : Seq => { q with status := q.status ||| warnBit }) h

/-- What is seen of a push. -/
theorem visible_push (x : Shuttle) (dst : Stream) (v : W64) (kn : Know) :
    ((x.setInbound dst (x.inbound dst ++ [{ val := v, know := kn }])).setChan dst
      { x.chan dst with pushed := (x.chan dst).pushed + 1 }).visible =
    (x.visible.setInbound dst (x.visible.inbound dst ++ [{ val := v, know := Know.none }])).setChan dst
      { x.visible.chan dst with pushed := (x.visible.chan dst).pushed + 1 } := by
  cases dst <;> simp [Shuttle.setInbound, Shuttle.inbound, Shuttle.setChan, Shuttle.chan,
    Shuttle.visible, QEntry.visible, Chan.visible]

theorem onShuttle_pushedEntry (dst : Stream) (v : W64) : OnShuttle (State.pushedEntry · dst v) :=
  onShuttle_modMe ⟨fun x y hxy => by rw [visible_push, visible_push, hxy], fun x t => by cases dst <;> rfl⟩

end


/-! ## Completions and waits -/

section
variable {i : Instr} {s : State} {k : BitVec 4} {st : Stream} {body : State → Eff} {F : State → State}

/-- An instruction of L, X or S whose tokens are ready comes to what its body comes to after the pops. -/
theorem exec_of_ready (hs : OnT s st k) (hc : st ≠ .c) (hx : exec i s = runT s k body) :
    exec i s = (body (s.popped k)).run s k := by
  obtain ⟨rfl, -, -, hready, htaken⟩ := hs
  rw [hx]
  unfold runT
  rw [if_neg hc, htaken]
  dsimp only
  rw [if_pos hready]
  rfl

theorem completesTo_of_popped (hF : OnShuttle F) (hs : OnT s st k) (hc : st ≠ .c) (hx : exec i s = runT s k body)
    {e : State} {t : W32}
    (hbody : body (s.popped k) = .doneTo e t) (hv : e.visible = (F (s.popped k)).visible) : CompletesTo i s (F s) k t := by
  refine ⟨_, (exec_of_ready hs hc hx).trans (congrArg (Eff.run s k) hbody), ?_⟩
  exact visible_finishWith hs.2.1 (e := (F s).modMe (Shuttle.popTokens · s.stream k)) (hF.here s)
    (hv.trans (hF.popped s k)) k t none

theorem completesT_of_popped (hF : OnShuttle F) (hs : OnT s st k) (hc : st ≠ .c) (hx : exec i s = runT s k body) {e : State}
    (hbody : body (s.popped k) = .done e) (hv : e.visible = (F (s.popped k)).visible) :
    CompletesT i k s (F s) := by
  refine ⟨_, (exec_of_ready hs hc hx).trans (congrArg (Eff.run s k) hbody), ?_⟩
  exact visible_finishWith hs.2.1 (e := (F s).modMe (Shuttle.popTokens · s.stream k)) (hF.here s)
    (hv.trans (hF.popped s k)) k (s.pc + 4) none

theorem waits_of_popped (hs : OnT s st k) (hc : st ≠ .c) (hx : exec i s = runT s k body)
    (hbody : body (s.popped k) = .wait .stream 0) : Waits i s :=
  ⟨.stream, (exec_of_ready hs hc hx).trans ((congrArg (Eff.run s k) hbody).trans (wait_unlimited s _))⟩

theorem waits_of_runC {e : Eff} (hx : exec i s = runC s e) (he : e = .wait .stream 0) : Waits i s :=
  ⟨.stream, hx.trans ((congrArg (runC s) he).trans (wait_unlimited s _))⟩

end

/-! ## Pops and pushes of the scalar queues (R80, R81) -/

section
variable {s : State} {f : State → W64 → Eff}

/-- The state after a pop of an entry that orders what `kn` holds, `r` being what stays. -/
def State.taken (s : State) (r : List QEntry) (kn : Know) : State :=
  ((s.modMe (Shuttle.setInbound · s.stream r)).modMySeq (Seq.learnOrder · kn)).modMe (Shuttle.notePop · s.stream 1)

/-- What is learned by a pop is not seen. -/
theorem visible_learnOrder (s : State) (kn : Know) : (s.modMySeq (Seq.learnOrder · kn)).visible = s.visible :=
  visible_modShuttle_self fun x => visible_setSeq_of_visible x _ rfl

theorem visible_taken (s : State) (r : List QEntry) (kn : Know) : (s.taken r kn).visible = (s.tookEntry r).visible := by
  have hnote := (onShuttle_modMe (beside_notePop s.stream 1)).seen
    (visible_learnOrder (s.modMe (Shuttle.setInbound · s.stream r)) kn)
  rw [modMe_modMe] at hnote
  exact hnote

section
variable (s) (r : List QEntry) (kn : Know)

theorem me_taken : (s.taken r kn).me = ((s.me.setInbound s.stream r).setSeq s.stream
    (((s.me.setInbound s.stream r).seq s.stream).learnOrder kn)).notePop s.stream 1 := by
  simp [State.taken, State.me, State.modMe, State.modMySeq, State.modSeq, State.modShuttle, State.shuttle,
    State.setShuttle, State.here,
    State.stream]

@[simp] theorem inbound_taken : (s.taken r kn).me.inbound s.stream = r := by rw [me_taken]; cases s.stream <;> rfl
@[simp] theorem shp_taken : (s.taken r kn).me.shp = s.me.shp := by rw [me_taken]; cases s.stream <;> rfl
@[simp] theorem stream_taken : (s.taken r kn).stream = s.stream := rfl

theorem mySeq_taken : (s.taken r kn).mySeq = s.mySeq.learnOrder kn := by
  change ((s.taken r kn).me).seq s.stream = (s.me.seq s.stream).learnOrder kn
  rw [me_taken]
  cases s.stream <;> rfl

@[simp] theorem loops_taken : (s.taken r kn).mySeq.loops = s.mySeq.loops := by rw [mySeq_taken]; rfl
@[simp] theorem pc_taken : (s.taken r kn).pc = s.pc := (congrArg Seq.pc (mySeq_taken s r kn) :)

theorem unmarked_taken (hs : Unmarked s) : Unmarked (s.taken r kn) := by
  unfold Unmarked at *
  rw [me_taken, ← hs]
  cases s.stream <;> rfl

end

theorem popScalar_of_nil (h : s.me.inbound s.stream = []) : popScalar s f = .wait .stream 0 := by
  unfold popScalar
  rw [h]

theorem popScalar_of_cons (hs : Unmarked s) {e : QEntry} {r : List QEntry} (h : s.me.inbound s.stream = e :: r) :
    popScalar s f = f (s.taken r e.know) e.val := by
  unfold popScalar
  rw [h]
  exact unlessDamaged_of_unmarked hs _ _

theorem pushScalar_of_full {dst : Stream} {v : W64} {f : State → Eff} (h : 16 ≤ (s.me.inbound dst).length) :
    pushScalar s dst v f = .wait .stream 0 := if_neg (not_lt.mpr h)

theorem pushScalar_of_room {dst : Stream} {v : W64} {f : State → Eff} (h : (s.me.inbound dst).length < 16) :
    ∃ t, t.visible = (s.pushedEntry dst v).visible ∧ pushScalar s dst v f = f t := by
  refine ⟨_, ?_, if_pos h⟩
  unfold State.pushedEntry
  exact visible_modShuttle_congr rfl _ fun x y hxy => by rw [visible_push, visible_push, hxy]

end


/-! ## Completion counters (R91, R92) -/

section
variable {s : State} {c : BitVec 3} {n : Nat}

theorem visible_learnDone (q : Seq) (done : List (Nat × Nat × Know)) : (q.learnDone done).visible = q.visible := by
  unfold Seq.learnDone
  induction done generalizing q with
  | nil => rfl
  | cons d done ih =>
    rw [List.foldl_cons, ih]
    split <;> rfl

/-- A counter wait goes on when its count is low enough; what a wait at 0 learns is not seen. -/
theorem counterWait_of_le (h : s.me.count c ≤ n) : ∃ t, t.visible = s.visible ∧ counterWait s c n = .done t := by
  unfold counterWait
  rw [if_pos h]
  split
  · exact ⟨_, visible_modShuttle_self fun x => visible_setSeq_of_visible x _ (visible_learnDone ..), rfl⟩
  · exact ⟨s, rfl, rfl⟩

theorem counterWait_of_gt (h : n < s.me.count c) : counterWait s c n = .wait .stream 0 := if_neg (not_le.mpr h)

end

/-- Settles O29: a push waits for room, a pop for an entry, and a counter wait for its count. -/
theorem controlQueues : Obligations.ControlQueues := by
  intro a d c s hs dst
  obtain ⟨hc, hu, hm⟩ := hs
  refine ⟨fun q hq => ?_, fun q hq => waits_of_runC rfl (pushScalar_of_full hq), fun e r hq => ?_, fun hq => ?_, fun hle => ?_,
    fun hlt => waits_of_runC rfl (counterWait_of_gt hlt)⟩
  · obtain ⟨t, ht, hpush⟩ := pushScalar_of_room (v := s.sreg a) (f := Eff.done) hq
    exact completes_of_visible hu (congrArg (runC s) hpush) ht rfl
  · have hin : s.me.inbound s.stream = e :: r := by rw [hc]; exact hq
    exact completes_of_visible hu (congrArg (runC s) (popScalar_of_cons hm hin))
      (visible_setSreg_congr (visible_taken s r e.know) d e.val)
      (here_setSreg d e.val)
  · have hin : s.me.inbound s.stream = [] := by rw [hc]; exact hq
    exact waits_of_runC rfl (popScalar_of_nil hin)
  · obtain ⟨t, ht, hwait⟩ := counterWait_of_le hle
    exact completes_of_visible hu (congrArg (runC s) hwait) ht rfl


/-! ## Token conditions (R82, R83) -/

theorem tokensReady_iff (x : Shuttle) (st : Stream) (k : BitVec 4) : x.tokensReady st k = true ↔
    (k.getLsbD 3 = true → x.tokIn st ≠ []) ∧ (k.getLsbD 1 = true → x.crIn st ≠ []) ∧
    (k.getLsbD 2 = true → (x.tokOut st).length < 15) ∧ (k.getLsbD 0 = true → (x.crOut st).length < 15) := by
  have himp (b c : Bool) : (!b || c) = true ↔ (b = true → c = true) := by cases b <;> simp
  have hheld (l : List Know) : (!l.isEmpty) = true ↔ l ≠ [] := by cases l <;> simp
  unfold Shuttle.tokensReady
  rw [Bool.and_eq_true, Bool.and_eq_true, Bool.and_eq_true, himp, himp, himp, himp,
    hheld, hheld, decide_eq_true_eq, decide_eq_true_eq,
    and_assoc, and_assoc]

theorem waits_of_not_ready {i : Instr} {s : State} {k : BitVec 4} {body : State → Eff}
    (hc : s.stream ≠ .c) (htaken : s.mySeq.taken = none)
    (hready : s.me.tokensReady s.stream k = false) (hx : exec i s = runT s k body) : Waits i s := by
  refine ⟨.stream, hx.trans ?_⟩
  unfold runT
  rw [if_neg hc, htaken]
  dsimp only
  rw [if_neg (Bool.eq_false_iff.mp hready), wait_unlimited]

/-- Settles O30: the conditions are those of `tokensReady`, which an instruction that has not issued is tried by. -/
theorem tokenConditions : Obligations.TokenConditions := by
  intro k s hc up cr
  exact ⟨tokensReady_iff s.me s.stream k,
    fun htaken hready => ⟨waits_of_not_ready hc htaken hready rfl, waits_of_not_ready hc htaken hready rfl⟩,
    fun hs => ⟨completesT_of_popped onShuttle_id hs hc rfl rfl rfl, completesT_of_popped onShuttle_id hs hc rfl rfl rfl⟩⟩

/-! ## QDROP (R99) -/

section
variable {s : State} {k : BitVec 4} {n : Nat}

theorem visible_learnEntries (q : Seq) (l : List QEntry) :
    (l.foldl (fun (p : Seq) e => p.learnOrder e.know) { q with held := [] }).visible = q.visible := by
  induction l generalizing q with
  | nil => rfl
  | cons e l ih => exact ih (q.learnOrder e.know)

/-- The entries are all there: they are dropped. -/
theorem dropEntries_of_le (hs : Unmarked s) (hheld : s.mySeq.held = []) (hn : n ≤ (s.me.inbound s.stream).length) :
    ∃ t, t.visible = (s.modMe fun x => (x.setInbound s.stream ((s.me.inbound s.stream).drop n)).notePop s.stream n).visible ∧
      dropEntries s n k = .done t := by
  have hlearn (u : State) (f : Seq → Seq) (hf : ∀ q, (f q).visible = q.visible) : (u.modMySeq f).visible = u.visible :=
    visible_modShuttle_self fun x => visible_setSeq_of_visible x _ (hf _)
  unfold dropEntries
  dsimp only
  rw [unlessDamaged_of_unmarked hs, hheld, List.length_nil, Nat.sub_zero, if_pos hn]
  refine ⟨_, ?_, rfl⟩
  refine ((onShuttle_modMe (beside_notePop s.stream n)).seen (hlearn _ _ fun q => visible_learnEntries q _)).trans ?_
  rw [modMe_modMe]
  rfl

theorem dropEntries_of_nil (hs : Unmarked s) (hheld : s.mySeq.held = []) (hn : n ≠ 0) (hq : s.me.inbound s.stream = []) :
    dropEntries s n k = .wait .stream 0 := by
  unfold dropEntries
  dsimp only
  rw [unlessDamaged_of_unmarked hs, hheld, hq]
  simp [hn]

/-- Some are there: they are held. -/
theorem dropEntries_of_lt (hs : Unmarked s) (hheld : s.mySeq.held = []) (hq : s.me.inbound s.stream ≠ [])
    (hn : (s.me.inbound s.stream).length < n) :
    dropEntries s n k = .waitAfter (State.holdEntries · k (s.me.inbound s.stream) []) .stream 0 := by
  unfold dropEntries
  dsimp only
  rw [unlessDamaged_of_unmarked hs, hheld, if_neg (by simpa using hn), if_neg (by simpa using hq),
    List.nil_append, List.length_nil, Nat.sub_zero,
    List.take_of_length_le hn.le, List.drop_of_length_le hn.le]

/-- The issuing shuttle with the tokens of a drop that goes on waiting: they are taken once. -/
def State.withTokens (s : State) (k : BitVec 4) : Shuttle :=
  if s.mySeq.taken.isNone then s.me.takeTokens s.stream k else s.me

theorem seq_withTokens (s : State) (k : BitVec 4) : (s.withTokens k).seq s.stream = s.mySeq := by
  unfold State.withTokens
  split
  · rw [takeTokens_eq]
    unfold State.mySeq
    cases s.stream <;> rfl
  · rfl

/-- The sequencer as a wait for more entries leaves it. -/
def State.waitingSeq (s : State) (k : BitVec 4) (got : List QEntry) : Seq :=
  { s.mySeq with held := got, taken := if s.mySeq.taken.isNone then some (s.me.tokensFor s.stream k) else s.mySeq.taken }

theorem me_holdEntries (s : State) (k : BitVec 4) (got : List QEntry) : (s.holdEntries k got []).me =
    (((s.withTokens k).setInbound s.stream []).setSeq s.stream (s.waitingSeq k got)).bumped := by
  have hseq : ((s.withTokens k).setInbound s.stream []).seq s.stream = s.mySeq := by
    rw [← seq_withTokens s k]
    cases s.stream <;> rfl
  have hme : (s.holdEntries k got []).me = (((s.withTokens k).setInbound s.stream []).setSeq s.stream
      { ((s.withTokens k).setInbound s.stream []).seq s.stream with
        held := got, taken := if s.mySeq.taken.isNone then some (s.me.tokensFor s.stream k) else s.mySeq.taken }).bumped := by
    simp [State.withTokens, State.holdEntries, State.me, State.modMe, State.modMySeq, State.modSeq, State.modShuttle,
      State.shuttle, State.setShuttle, State.here, State.stream, State.bump, Shuttle.bumped]
  rw [hme, hseq]
  rfl

/-- What a wait for more entries holds. -/
theorem holdEntries_leaves (s : State) (k : BitVec 4) (got : List QEntry) :
    let h := s.holdEntries k got []
    h.me.inbound s.stream = [] ∧ h.mySeq.held = got ∧ h.pc = s.pc ∧ h.mem = s.mem := by
  have hmySeq : (s.holdEntries k got []).mySeq = s.waitingSeq k got := by
    change ((s.holdEntries k got []).me).seq s.stream = _
    rw [me_holdEntries]
    cases s.stream <;> rfl
  refine ⟨?_, by rw [hmySeq]; rfl, (congrArg Seq.pc hmySeq :), rfl⟩
  rw [me_holdEntries]
  cases s.stream <;> rfl

theorem qdrop_holds {i : Instr} {st : Stream} (hs : OnT s st k) (hc : st ≠ .c) (hx : exec i s = runT s k fun s => dropEntries s n k)
    (hheld : s.mySeq.held = []) (hq : s.me.inbound st ≠ []) (hn : (s.me.inbound st).length < n) :
    HoldsEntries i s k (s.me.inbound st) := by
  refine ⟨⟨.stream, (exec_of_ready hs hc hx).trans ?_⟩, holdEntries_leaves s k _⟩
  obtain ⟨rfl, -, hm, -⟩ := hs
  have hdrop := dropEntries_of_lt (s := s.popped k) (k := k) (n := n) (unmarked_popped s k hm)
    (by simpa using hheld) (by simpa using hq)
    (by simpa using hn)
  rw [hdrop, inbound_popped]
  exact wait_unlimited _ _

end

/-! ## Address registers and the tape's registers (R160, R276) -/

section
variable {i : Instr} {s : State} {k : BitVec 4} {st : Stream}

/-- An instruction that pops one entry and has effect `F` of its value. -/
theorem completesT_popScalar {body : State → W64 → Eff} {F : State → State}
    (hF : OnShuttle F) (hs : OnT s st k) (hc : st ≠ .c)
    (hx : exec i s = runT s k fun s => popScalar s body) {e : QEntry} {r : List QEntry} (hq : s.me.inbound st = e :: r)
    (hbody : body ((s.popped k).taken r e.know) e.val = .done (F ((s.popped k).taken r e.know))) :
    CompletesT i k s (F (s.tookEntry r)) := by
  obtain rfl := hs.1
  refine completesT_of_popped (hF.comp (onShuttle_tookEntry r)) hs hc hx
    ((popScalar_of_cons (unmarked_popped s k hs.2.2.1) ?_).trans hbody)
    (hF.seen (visible_taken ..))
  simpa using hq

theorem waits_popScalar {body : State → W64 → Eff} (hs : OnT s st k) (hc : st ≠ .c)
    (hx : exec i s = runT s k fun s => popScalar s body)
    (hq : s.me.inbound st = []) : Waits i s :=
  waits_of_popped hs hc hx (popScalar_of_nil (by obtain ⟨rfl, -⟩ := hs; simpa using hq))

theorem completesT_addrResult {d : RegNo} {f : State → W64} (hs : OnT s st k) (hc : st ≠ .c) (hx : exec i s = addrResult s k d f)
    (hf : f (s.popped k) = f s) : CompletesT i k s (s.setAreg d (f s)) :=
  completesT_of_popped (onShuttle_setAreg d (f s)) hs hc hx (congrArg (fun v => Eff.done ((s.popped k).setAreg d v)) hf) rfl

theorem exec_qpusha (a : RegNo) : exec (.qpusha a k) s = runT s k fun s => pushScalar s .c (s.areg a) .done := rfl

theorem exec_qdropLs (n : BitVec 8) : exec (.qdropLs n k) s = runT s k fun s => dropEntries s n.toNat k := rfl

theorem exec_ccwaitLs (c : BitVec 5) (n : BitVec 8) :
    exec (.ccwaitLs c n k) s = runT s k fun s => counterWait s (c.setWidth 3) n.toNat := rfl

theorem exec_dtset : exec (.dtset k) s = runT s k fun s =>
    if (s.me.inbound s.stream).length < 2 then .wait .stream 0
    else
      popScalar s fun s b => popScalar s fun s p =>
        .done ((s.modMySeq fun z => { z with dtb := b &&& 0x00FFFFFFFFFFFFC0, dtp := p }).warnIf
          (decide (b &&& ~~~0x00FFFFFFFFFFFFC0 ≠ 0))) := rfl

theorem dtset_completes (hs : OnT s st k) (hc : st ≠ .c) {e1 e2 : QEntry} {r : List QEntry} (hq : s.me.inbound st = e1 :: e2 :: r) :
    CompletesT (.dtset k) k s ((((s.tookEntry (e2 :: r)).tookEntry r).modMySeq fun z =>
      { z with dtb := e1.val &&& 0x00FFFFFFFFFFFFC0, dtp := e2.val }).warnIf
      (decide (e1.val &&& ~~~0x00FFFFFFFFFFFFC0 ≠ 0))) := by
  obtain rfl := hs.1
  have hin : (s.popped k).me.inbound (s.popped k).stream = e1 :: e2 :: r := by simpa using hq
  have hm' := unmarked_popped s k hs.2.2.1
  have hset : OnShuttle (State.modMySeq · fun z => { z with dtb := e1.val &&& 0x00FFFFFFFFFFFFC0, dtp := e2.val }) :=
    onShuttle_modMySeq fun _ _ h => congrArg (fun z : Seq => { z with dtb := e1.val &&& 0x00FFFFFFFFFFFFC0, dtp := e2.val }) h
  have hF := (onShuttle_warnIf (decide (e1.val &&& ~~~0x00FFFFFFFFFFFFC0 ≠ 0))).comp hset
  refine completesT_of_popped (hF.comp ((onShuttle_tookEntry r).comp (onShuttle_tookEntry (e2 :: r)))) hs hc exec_dtset
    (e := ((((s.popped k).taken (e2 :: r) e1.know).taken r e2.know).modMySeq fun z =>
      { z with dtb := e1.val &&& 0x00FFFFFFFFFFFFC0, dtp := e2.val }).warnIf _) ?_
    (hF.seen ((visible_taken ..).trans ((onShuttle_tookEntry r).seen (visible_taken ..))))
  have hlen : ¬((s.popped k).me.inbound (s.popped k).stream).length < 2 := by rw [hin]; simp
  refine (if_neg hlen).trans ?_
  rw [popScalar_of_cons hm' hin, popScalar_of_cons (unmarked_taken _ _ _ hm') (inbound_taken ..)]

end

/-- Settles O31: each instruction is a pop, a push, a wait or a result in an address register, after the pops of its tokens. -/
theorem addressStreams : Obligations.AddressStreams := by
  intro st d a b k i n m c s hst hs q
  have hc : st ≠ .c := by rcases hst with rfl | rfl <;> exact nofun
  have hm := unmarked_popped s k hs.2.2.1
  have hq : (s.popped k).me.inbound (s.popped k).stream = q := (inbound_popped s k _).trans (congrArg s.me.inbound hs.1)
  have hroom : ((s.popped k).me.inbound .c).length = s.me.qSC.length := congrArg List.length (inbound_popped s k .c)
  refine ⟨?_, ?_, ?_, ?_, ?_, ?_, ?_, ?_, ?_, ?_, ?_, ?_, ?_, ?_, ?_, ?_⟩
  · exact fun e r h => completesT_popScalar (onShuttle_setAreg d e.val) hs hc rfl h rfl
  · exact waits_popScalar hs hc rfl
  · intro h
    rw [← hroom] at h
    obtain ⟨t, ht, hpush⟩ := pushScalar_of_room (v := (s.popped k).areg a) (f := Eff.done) h
    rw [areg_popped] at ht
    exact completesT_of_popped (onShuttle_pushedEntry .c (s.areg a)) hs hc (exec_qpusha a) hpush ht
  · intro h
    rw [← hroom] at h
    exact waits_of_popped hs hc (exec_qpusha a) (pushScalar_of_full h)
  · intro hheld h
    rw [← hq] at h
    obtain ⟨t, ht, hdrop⟩ := dropEntries_of_le (k := k) hm ((held_popped s k).trans hheld) h
    rw [hq, stream_popped, hs.1] at ht
    exact completesT_of_popped (onShuttle_modMe ((beside_notePop st n.toNat).comp (beside_setInbound st (q.drop n.toNat)))) hs hc
      (exec_qdropLs n) hdrop ht
  · intro h hn hheld
    exact waits_of_popped hs hc (exec_qdropLs n)
      (dropEntries_of_nil hm ((held_popped s k).trans hheld) (by simpa [BitVec.toNat_eq] using hn) (hq.trans h))
  · exact fun h hheld hn => qdrop_holds hs hc (exec_qdropLs n) hheld h hn
  · intro h
    rw [← count_popped s k] at h
    obtain ⟨t, ht, hwait⟩ := counterWait_of_le h
    exact completesT_of_popped onShuttle_id hs hc (exec_ccwaitLs c n) hwait ht
  · intro h
    rw [← count_popped s k] at h
    exact waits_of_popped hs hc (exec_ccwaitLs c n) (counterWait_of_gt h)
  · exact completesT_addrResult (f := fun s => s.areg a + 8 * i.signExtend 64) hs hc rfl (by simp)
  · exact completesT_addrResult (f := fun s => s.areg a + 512 * i.signExtend 64) hs hc rfl (by simp)
  · exact completesT_addrResult (f := fun s => s.areg a + s.areg (b.setWidth 5)) hs hc rfl (by simp)
  · exact completesT_addrResult (f := fun s => s.areg a - s.areg (b.setWidth 5)) hs hc rfl (by simp)
  · exact completesT_addrResult (f := fun s => s.areg a <<< m.toNat) hs hc rfl (by simp)
  · exact fun e1 e2 r h => dtset_completes hs hc h
  · exact fun h => waits_of_popped hs hc exec_dtset (if_pos (by rw [hq]; exact h))


end Sys2Proof.Machine
end

section
namespace Sys2Proof.Machine
open Sys2Proof

/-! # Loops of the streams (R88) -/

section
variable {i : Instr} {s : State} {k : BitVec 4} {st : Stream} {lv : Nat} {fo lo leave : Bool} {off : Nat}

/-- An instruction of L, X or S that traps after its pops takes the trap from before them. -/
theorem traps_of_popped {body : State → Eff} {c : BitVec 8} (hs : OnT s st k) (hc : st ≠ .c) (hx : exec i s = runT s k body)
    (hbody : body (s.popped k) = .trapWord c) : Traps i s c (s.curWord.setWidth 64) :=
  (exec_of_ready hs hc hx).trans (congrArg (Eff.run s k) hbody)

theorem onShuttle_setLoops (u : LoopUnit) : OnShuttle (State.modMySeq · fun q => { q with loops := u }) :=
  onShuttle_modMySeq fun _ _ h => congrArg (fun q : Seq => { q with loops := u }) h

theorem sloop_completes (hs : OnT s st k) (hc : st ≠ .c) (hx : exec i s = runT s k fun s => streamLoop s lv fo lo off)
    (hlv : lv = s.mySeq.loops.depth) (hlt : lv < 6) {e : QEntry} {r : List QEntry} (hq : s.me.inbound st = e :: r) :
    let n := loopOpen s.mySeq.loops s.pc lv fo lo off e.val
    CompletesTo i s ((s.tookEntry r).modMySeq fun q => { q with loops := n.1 }) k n.2 := by
  obtain rfl := hs.1
  intro n
  have hopen : (s.popped k).mySeq.loops.noOpen lv = false := by
    rw [loops_popped]
    exact Bool.eq_false_iff.mpr fun hno => by have := noOpen_iff.mp hno; omega
  have hin : (s.popped k).me.inbound (s.popped k).stream = e :: r := (inbound_popped s k _).trans hq
  refine completesTo_of_popped ((onShuttle_setLoops n.1).comp (onShuttle_tookEntry r)) hs hc hx
    (e := ((s.popped k).taken r e.know).modMySeq fun q => { q with loops := n.1 }) ?_
    ((onShuttle_setLoops n.1).seen (visible_taken ..))
  unfold streamLoop
  rw [hopen, if_neg Bool.false_ne_true, popScalar_of_cons (unmarked_popped s k hs.2.2.1) hin,
    loops_taken, pc_taken, loops_popped, pc_popped]
  rfl

theorem sloop_waits (hs : OnT s st k) (hc : st ≠ .c) (hx : exec i s = runT s k fun s => streamLoop s lv fo lo off)
    (hlv : lv = s.mySeq.loops.depth) (hlt : lv < 6) (hq : s.me.inbound st = []) : Waits i s := by
  obtain rfl := hs.1
  have hopen : (s.popped k).mySeq.loops.noOpen lv = false := by
    rw [loops_popped]
    exact Bool.eq_false_iff.mpr fun hno => by have := noOpen_iff.mp hno; omega
  refine waits_of_popped hs hc hx ((if_neg (Bool.eq_false_iff.mp hopen)).trans (popScalar_of_nil ?_))
  exact (inbound_popped s k _).trans hq

theorem sloop_traps (hs : OnT s st k) (hc : st ≠ .c) (hx : exec i s = runT s k fun s => streamLoop s lv fo lo off)
    (hno : lv ≠ s.mySeq.loops.depth ∨ s.mySeq.loops.depth = 6) : Traps i s 0x09 (s.curWord.setWidth 64) :=
  traps_of_popped hs hc hx (if_pos (by rw [loops_popped]; exact noOpen_iff.mpr hno))

theorem sendl_completes (hs : OnT s st k) (hc : st ≠ .c) (hx : exec i s = runT s k fun s => endLoop s lv leave)
    (hlv : lv + 1 = s.mySeq.loops.depth) :
    let n := loopEnd s.mySeq.loops s.pc lv leave
    CompletesTo i s (s.modMySeq fun q => { q with loops := n.1 }) k n.2 := by
  intro n
  have hclose : ¬(s.mySeq.loops.noClose lv = true) := fun hno => noClose_iff.mp hno hlv
  refine completesTo_of_popped (onShuttle_setLoops n.1) hs hc hx ?_ rfl
  unfold endLoop
  dsimp only
  rw [loops_popped, pc_popped, if_neg hclose]
  rfl

theorem sendl_traps (hs : OnT s st k) (hc : st ≠ .c) (hx : exec i s = runT s k fun s => endLoop s lv leave)
    (hno : lv + 1 ≠ s.mySeq.loops.depth) : Traps i s 0x0A (s.curWord.setWidth 64) :=
  traps_of_popped hs hc hx (if_pos (by rw [loops_popped]; exact noClose_iff.mpr hno))

end

/-- Settles O32: SLOOP is `streamLoop`, which tests the nest before its pop, and SENDL and SENDLX are `endLoop`. -/
theorem streamLoops : Obligations.StreamLoops := by
  intro st l5 l k g f h o s hc hs u loop close
  have hloop {i : Instr} {lv : Nat} {fo lo : Bool} (hx : exec i s = runT s k fun s => streamLoop s lv fo lo o.toNat) :
      loop i lv fo lo :=
    ⟨fun hlv hlt e r hq => sloop_completes hs hc hx hlv hlt hq, sloop_waits hs hc hx, sloop_traps hs hc hx⟩
  have hclose {i : Instr} {lv : Nat} {leave : Bool} (hx : exec i s = runT s k fun s => endLoop s lv leave) : close i lv leave :=
    ⟨sendl_completes hs hc hx, sendl_traps hs hc hx⟩
  exact ⟨hloop rfl, hloop rfl, hclose rfl, hclose rfl, hclose rfl, hclose rfl⟩

end Sys2Proof.Machine
end

section
namespace Sys2Proof.Machine
open Sys2Proof

/-! # Vector queues and the shape register (R80, R99, R101, R125) -/

/-! ## Vector queues -/

section
variable {s : State}

/-- Accesses to vector registers that are made leave a state that is seen as before. -/
theorem goes_withVregs (reads writes : List RegNo) : Goes (fun t => t.visible = s.visible) (withVregs s reads writes) := by
  unfold withVregs
  dsimp only
  split
  · exact goes_end fun _ => nofun
  · exact goes_end fun _ => nofun
  · unfold unlessDamaged
    split
    · exact goes_end fun _ => nofun
    · exact goes_on (visible_tickSeq s s.here s.stream)

variable {i : Instr} {k : BitVec 4} {st : Stream}

/-- An instruction that makes its accesses to vector registers and has effect `F` of what the registers then hold. -/
theorem completesT_withVregs {F : State → State} (hF : OnShuttle F) (hs : OnT s st k) (hc : st ≠ .c) {body : State → Eff}
    (hx : exec i s = runT s k body) {t : State} {reads writes : List RegNo} {f : State → Eff}
    (hbody : body (s.popped k) = withVregs t reads writes f) (hfree : t.vregsFree reads writes)
    (hf : ∀ u, u.visible = t.visible → ∃ e, f u = .done e ∧ e.visible = (F (s.popped k)).visible) :
    CompletesT i k s (F s) := by
  obtain ⟨u, hmade⟩ := hfree
  obtain ⟨hu, hgo⟩ := (goes_withVregs reads writes).of_made hmade
  obtain ⟨e, he, hv⟩ := hf u hu
  exact completesT_of_popped hF hs hc hx (hbody.trans ((hgo f).trans he)) hv

/-- Entries of L's queue to X, and of X's to S, put or taken in the issuing shuttle. -/
theorem onShuttle_qLX (r : List VEntry) : OnShuttle (State.modMe · fun x => { x with qLX := r }) :=
  onShuttle_modMe ⟨fun _ _ h => congrArg (fun x : Shuttle => { x with qLX := r.map VEntry.visible }) h, fun _ _ => rfl⟩

theorem onShuttle_qXS (r : List VEntry) : OnShuttle (State.modMe · fun x => { x with qXS := r }) :=
  onShuttle_modMe ⟨fun _ _ h => congrArg (fun x : Shuttle => { x with qXS := r.map VEntry.visible }) h, fun _ _ => rfl⟩

theorem visible_pushLX (x : Shuttle) (v : RegNo) (kn : Know) :
    ({ x with qLX := x.qLX ++ [{ val := x.vreg v, know := kn }] } : Shuttle).visible =
      { x.visible with qLX := x.visible.qLX ++ [{ val := x.visible.vreg v, know := Know.none }] } := by
  simp [Shuttle.visible, VEntry.visible, Shuttle.vreg]

theorem visible_pushXS (x : Shuttle) (v : RegNo) (kn : Know) :
    ({ x with qXS := x.qXS ++ [{ val := x.vreg v, know := kn }] } : Shuttle).visible =
      { x.visible with qXS := x.visible.qXS ++ [{ val := x.visible.vreg v, know := Know.none }] } := by
  simp [Shuttle.visible, VEntry.visible, Shuttle.vreg]

theorem onShuttle_pushLX (v : RegNo) :
    OnShuttle (State.modMe · fun x => { x with qLX := x.qLX ++ [{ val := x.vreg v, know := Know.none }] }) :=
  onShuttle_modMe ⟨fun x y h => by rw [visible_pushLX, visible_pushLX, h], fun _ _ => rfl⟩

theorem onShuttle_pushXS (v : RegNo) :
    OnShuttle (State.modMe · fun x => { x with qXS := x.qXS ++ [{ val := x.vreg v, know := Know.none }] }) :=
  onShuttle_modMe ⟨fun x y h => by rw [visible_pushXS, visible_pushXS, h], fun _ _ => rfl⟩

theorem visible_modMe_congr {s t : State} (h : s.visible = t.visible) {f g : Shuttle → Shuttle}
    (hfg : ∀ x y, x.visible = y.visible → (f x).visible = (g y).visible) : (s.modMe f).visible = (t.modMe g).visible := by
  unfold State.modMe
  rw [here_of_visible h]
  exact visible_modShuttle_congr h _ hfg

variable {v : RegNo}

theorem exec_qpushvL : exec (.qpushvL v k) s = runT s k fun s =>
    if s.me.qLX.length < 8 then
      withVregs s [v] [] fun s => .done (s.modMe fun x => { x with qLX := x.qLX ++ [{ val := x.vreg v, know := x.l.know }] })
    else .wait .stream 0 := rfl

theorem exec_qpushvX : exec (.qpushvX v k) s = runT s k fun s =>
    if s.me.qXS.length < 8 then
      withVregs s [v] [] fun s => .done (s.modMe fun x => { x with qXS := x.qXS ++ [{ val := x.vreg v, know := x.x.know }] })
    else .wait .stream 0 := rfl

theorem qpushvL_completes (hs : OnT s st k) (hc : st ≠ .c) (hroom : s.me.qLX.length < 8) (hfree : (s.popped k).vregsFree [v] []) :
    CompletesT (.qpushvL v k) k s (s.modMe fun x => { x with qLX := x.qLX ++ [{ val := x.vreg v, know := Know.none }] }) := by
  rw [← qLX_popped s k] at hroom
  exact completesT_withVregs (onShuttle_pushLX v) hs hc exec_qpushvL (if_pos hroom) hfree fun _ hu =>
    ⟨_, rfl, visible_modMe_congr hu fun x y h => by rw [visible_pushLX, visible_pushLX, h]⟩

theorem qpushvX_completes (hs : OnT s st k) (hc : st ≠ .c) (hroom : s.me.qXS.length < 8) (hfree : (s.popped k).vregsFree [v] []) :
    CompletesT (.qpushvX v k) k s (s.modMe fun x => { x with qXS := x.qXS ++ [{ val := x.vreg v, know := Know.none }] }) := by
  rw [← qXS_popped s k] at hroom
  exact completesT_withVregs (onShuttle_pushXS v) hs hc exec_qpushvX (if_pos hroom) hfree fun _ hu =>
    ⟨_, rfl, visible_modMe_congr hu fun x y h => by rw [visible_pushXS, visible_pushXS, h]⟩

/-- The body of QPOPV with vector queue `q`, which `pop` leaves as its argument, and `mark` its mark. -/
def popVector (q : List VEntry) (pop : List VEntry → State) (mark : Nat) (s : State) (v : RegNo) : Eff :=
  match q with
  | [] => .wait .stream 0
  | e :: r =>
    unlessDamaged s [mark] <| withVregs ((pop r).modMySeq (Seq.learnOrder · e.know)) [] [v] fun s => .done (s.setVreg v e.val)

theorem exec_qpopvS : exec (.qpopvS v k) s = runT s k fun s =>
    popVector s.me.qXS (fun r => s.modMe fun x => { x with qXS := r }) (damage 3 1) s v := rfl

theorem exec_qpopvX : exec (.qpopvX v k) s = runT s k fun s =>
    popVector s.me.qLX (fun r => s.modMe fun x => { x with qLX := r }) (damage 3 0) s v := rfl

/-- An entry that is there is popped into the register. -/
theorem qpopv_completes {q : State → List VEntry} {pop : List VEntry → State → State} {mark : Nat}
    (hs : OnT s st k) (hc : st ≠ .c)
    (hx : exec i s = runT s k fun s => popVector (q s) (fun r => pop r s) mark s v) {e : VEntry} {r : List VEntry}
    (hpop : OnShuttle (pop r))
    (hq : q (s.popped k) = e :: r) (hfree : ((pop r (s.popped k)).modMySeq fun p => p.learnOrder e.know).vregsFree [] [v]) :
    CompletesT i k s ((pop r s).setVreg v e.val) := by
  have hF : OnShuttle fun s => (pop r s).setVreg v e.val := (onShuttle_setVreg v e.val).comp hpop
  have hbody : popVector (q (s.popped k)) (fun r => pop r (s.popped k)) mark (s.popped k) v =
      withVregs ((pop r (s.popped k)).modMySeq fun p => p.learnOrder e.know) [] [v] fun s => .done (s.setVreg v e.val) := by
    rw [hq]
    exact unlessDamaged_of_unmarked (unmarked_popped s k hs.2.2.1) _ _
  have hseen {u : State} (hu : u.visible = ((pop r (s.popped k)).modMySeq fun p => p.learnOrder e.know).visible) :
      (u.setVreg v e.val).visible = ((pop r (s.popped k)).setVreg v e.val).visible :=
    (onShuttle_setVreg v e.val).seen (hu.trans (visible_learnOrder ..))
  exact (completesT_withVregs hF hs hc hx hbody hfree fun u hu => ⟨u.setVreg v e.val, rfl, hseen hu⟩ :)

theorem qpopv_waits {q : State → List VEntry} {pop : List VEntry → State → State} {mark : Nat}
    (hs : OnT s st k) (hc : st ≠ .c)
    (hx : exec i s = runT s k fun s => popVector (q s) (fun r => pop r s) mark s v) (hq : q (s.popped k) = []) : Waits i s := by
  refine waits_of_popped hs hc hx ?_
  rw [hq]
  rfl

end

/-! ## Fields of the shape register -/

section
variable (w : W64) (lo n v : Nat)

theorem getBits_testBit (j : Nat) : (getBits w lo n).testBit j = (decide (j < n) && w.getLsbD (lo + j)) := by
  rw [getBits, Nat.testBit_mod_two_pow, ← Nat.shiftRight_eq_div_pow, Nat.testBit_shiftRight]
  rfl

theorem putBits_getLsbD {j : Nat} (hj : j < 64) : (putBits w lo n v).getLsbD j =
    if lo ≤ j ∧ j < lo + n then v.testBit (j - lo) else w.getLsbD j := by
  unfold putBits
  rw [BitVec.getLsbD_or, BitVec.getLsbD_and, BitVec.getLsbD_not, BitVec.getLsbD_ofNat, BitVec.getLsbD_ofNat,
    Nat.testBit_mul_two_pow, Nat.testBit_mul_two_pow, Nat.testBit_two_pow_sub_one, Nat.testBit_mod_two_pow]
  rcases Nat.lt_or_ge j lo with h1 | h1
  · simp [hj, show ¬lo ≤ j by omega]
  · rcases Nat.lt_or_ge j (lo + n) with h2 | h2
    · simp [hj, h1, h2, show j - lo < n by omega]
    · simp [hj, h1, show ¬j < lo + n by omega, show ¬j - lo < n by omega]

/-- A field put is read back, cut to its width. -/
theorem getBits_putBits_same (h : lo + n ≤ 64) : getBits (putBits w lo n v) lo n = v % 2 ^ n := by
  refine Nat.eq_of_testBit_eq fun j => ?_
  rw [getBits_testBit, Nat.testBit_mod_two_pow]
  rcases Nat.lt_or_ge j n with hj | hj
  · rw [putBits_getLsbD _ _ _ _ (by omega), if_pos (by omega), Nat.add_sub_cancel_left]
  · rw [decide_eq_false (by omega)]
    rfl

/-- Bits outside a field put are as before. -/
theorem putBits_getLsbD_apart {j : Nat} (h : j < lo ∨ lo + n ≤ j) : (putBits w lo n v).getLsbD j = w.getLsbD j := by
  rcases Nat.lt_or_ge j 64 with hj | hj
  · rw [putBits_getLsbD _ _ _ _ hj, if_neg (by omega)]
  · rw [BitVec.getLsbD_of_ge _ _ hj, BitVec.getLsbD_of_ge _ _ hj]

theorem getBits_putBits_apart {lo' n' : Nat} (h : lo' + n' ≤ lo ∨ lo + n ≤ lo') :
    getBits (putBits w lo n v) lo' n' = getBits w lo' n' := by
  refine Nat.eq_of_testBit_eq fun j => ?_
  rw [getBits_testBit, getBits_testBit]
  rcases Nat.lt_or_ge j n' with hj | hj
  · rw [putBits_getLsbD_apart _ _ _ _ (by omega)]
  · rw [decide_eq_false (by omega)]
    rfl

/-- A field that a reserved value leaves. -/
theorem getBits_settled_apart (bad : Bool) {lo' n' : Nat} (h : lo' + n' ≤ lo ∨ lo + n ≤ lo') :
    getBits (if bad then w else putBits w lo n v) lo' n' = getBits w lo' n' := by
  cases bad
  · exact getBits_putBits_apart w lo n v h
  · rfl

theorem getBits_lt : getBits w lo n < 2 ^ n := Nat.mod_lt _ (Nat.two_pow_pos n)

/-- A field is the value asked for where that is none of the reserved ones. -/
theorem getBits_settled_same (bad : Bool) (h : lo + n ≤ 64) (hv : v < 2 ^ n) :
    getBits (if bad then w else putBits w lo n v) lo n = if bad then getBits w lo n else v := by
  cases bad
  · exact (getBits_putBits_same w lo n v h).trans (Nat.mod_eq_of_lt hv)
  · rfl

end

/-- What SHPOP makes of `t` (R101). -/
theorem shapeFrom_fields (shp t : W64) :
    let w := (shapeFrom shp t).1
    getBits w 0 3 = (if getBits t 0 3 = 0 ∨ 6 ≤ getBits t 0 3 then getBits shp 0 3 else getBits t 0 3) ∧
    getBits w 6 6 = getBits t 6 6 ∧
    getBits w 12 3 = (if getBits t 12 3 = 6 then getBits shp 12 3 else getBits t 12 3) ∧
    getBits w 20 4 = (if 8 ≤ getBits t 20 4 then getBits shp 20 4 else getBits t 20 4) ∧
    getBits w 24 8 = (if 128 < getBits t 24 8 then getBits shp 24 8 else getBits t 24 8) := by
  unfold shapeFrom
  dsimp only
  refine ⟨?_, ?_, ?_, ?_, ?_⟩
  · rw [getBits_settled_apart _ _ _ _ _ (by decide), getBits_settled_apart _ _ _ _ _ (by decide),
      getBits_settled_apart _ _ _ _ _ (by decide),
      getBits_putBits_apart _ _ _ _ (by decide), getBits_settled_same _ _ _ _ _ (by decide) (getBits_lt ..)]
    simp only [decide_eq_true_eq]
  · rw [getBits_settled_apart _ _ _ _ _ (by decide), getBits_settled_apart _ _ _ _ _ (by decide),
      getBits_settled_apart _ _ _ _ _ (by decide),
      getBits_putBits_same _ _ _ _ (by decide), Nat.mod_eq_of_lt (getBits_lt ..)]
  · rw [getBits_settled_apart _ _ _ _ _ (by decide), getBits_settled_apart _ _ _ _ _ (by decide),
      getBits_settled_same _ _ _ _ _ (by decide) (getBits_lt ..), getBits_putBits_apart _ _ _ _ (by decide),
      getBits_settled_apart _ _ _ _ _ (by decide)]
    simp only [decide_eq_true_eq]
  · rw [getBits_settled_same _ _ _ _ _ (by decide) (getBits_lt ..), getBits_settled_apart _ _ _ _ _ (by decide),
      getBits_settled_apart _ _ _ _ _ (by decide), getBits_putBits_apart _ _ _ _ (by decide),
      getBits_settled_apart _ _ _ _ _ (by decide)]
    simp only [decide_eq_true_eq]
  · rw [getBits_settled_apart _ _ _ _ _ (by decide), getBits_settled_same _ _ _ _ _ (by decide) (getBits_lt ..),
      getBits_settled_apart _ _ _ _ _ (by decide), getBits_putBits_apart _ _ _ _ (by decide),
      getBits_settled_apart _ _ _ _ _ (by decide)]
    simp only [decide_eq_true_eq]

theorem shapeFrom_warn (shp t : W64) : (shapeFrom shp t).2 = true ↔
    getBits t 0 3 = 0 ∨ 6 ≤ getBits t 0 3 ∨ getBits t 12 3 = 6 ∨ 128 < getBits t 24 8 ∨ 8 ≤ getBits t 20 4 ∨
      getBits t 3 3 ≠ 0 ∨
      getBits t 15 5 ≠ 0 ∨ getBits t 32 32 ≠ 0 := by
  have hsplit : getBits t 15 5 = 0 ↔ getBits t 15 1 = 0 ∧ getBits t 16 4 = 0 := by unfold getBits; omega
  unfold shapeFrom
  simp only [Bool.or_eq_true, decide_eq_true_eq]
  rw [ne_eq (getBits t 15 5), hsplit]
  omega

section
variable {s : State} {k : BitVec 4}

theorem exec_qdropX (n : BitVec 4) : exec (.qdropX n k) s = runT s k fun s => dropEntries s (n.toNat + 1) k := rfl

theorem exec_shrm (i : BitVec 8) : exec (.shrm i k) s = runT s k fun s => .done (s.setShp (putBits s.me.shp 0 3 i.toNat)) := rfl

theorem exec_shft (l : BitVec 5) (b : BitVec 6) : exec (.shft l b k) s = runT s k fun s =>
    .done (s.setShp (putBits (putBits s.me.shp 6 6 b.toNat) 12 3 (if l.toNat = 31 then 7 else l.toNat))) := rfl

theorem exec_shpop : exec (.shpop k) s = runT s k fun s => popScalar s fun s t =>
    .done ((s.setShp (shapeFrom s.me.shp t).1).warnIf (shapeFrom s.me.shp t).2) := rfl

theorem shrm_completes (hs : OnT s .x k) (i : BitVec 8) : ∃ w : W64, CompletesT (.shrm i k) k s (s.setShp w) ∧
    getBits w 0 3 = i.toNat % 8 ∧ ∀ j, 3 ≤ j → w.getLsbD j = s.me.shp.getLsbD j := by
  refine ⟨putBits s.me.shp 0 3 i.toNat, completesT_of_popped (onShuttle_setShp _) hs nofun (exec_shrm i) rfl ?_,
    getBits_putBits_same _ _ _ _ (by decide), fun j hj => putBits_getLsbD_apart _ _ _ _ (.inr hj)⟩
  rw [shp_popped]

theorem shft_completes (hs : OnT s .x k) (l : BitVec 5) (b : BitVec 6) : ∃ w : W64, CompletesT (.shft l b k) k s (s.setShp w) ∧
    getBits w 6 6 = b.toNat ∧ getBits w 12 3 = (if l.toNat = 31 then 7 else l.toNat % 8) ∧
    ∀ j, j < 6 ∨ 15 ≤ j → w.getLsbD j = s.me.shp.getLsbD j := by
  refine ⟨putBits (putBits s.me.shp 6 6 b.toNat) 12 3 (if l.toNat = 31 then 7 else l.toNat),
    completesT_of_popped (onShuttle_setShp _) hs nofun (exec_shft l b) rfl ?_, ?_, ?_, fun j hj => ?_⟩
  · rw [shp_popped]
  · rw [getBits_putBits_apart _ _ _ _ (by decide), getBits_putBits_same _ _ _ _ (by decide), Nat.mod_eq_of_lt b.isLt]
  · rw [getBits_putBits_same _ _ _ _ (by decide)]
    split <;> rfl
  · rw [putBits_getLsbD_apart _ _ _ _ (by omega), putBits_getLsbD_apart _ _ _ _ (by omega)]

theorem shpop_completes (hs : OnT s .x k) {e : QEntry} {r : List QEntry} (hq : s.me.inbound .x = e :: r) :
    CompletesT (.shpop k) k s (((s.tookEntry r).setShp (shapeFrom s.me.shp e.val).1).warnIf (shapeFrom s.me.shp e.val).2) := by
  refine completesT_popScalar ((onShuttle_warnIf _).comp (onShuttle_setShp _)) hs nofun exec_shpop hq ?_
  rw [shp_taken, shp_popped]

end

/-- Settles O33: a vector push or pop makes its register accesses after its pops; SHRM, SHFT and SHPOP put fields of shp. -/
theorem vectorQueuesAndShape : Obligations.VectorQueuesAndShape := by
  intro v n k i l b s
  refine ⟨fun hs => ⟨qpushvL_completes hs nofun, fun h => waits_of_popped hs nofun exec_qpushvL (if_neg ?_)⟩,
    fun hs => ⟨fun e r hq hfree => ?_, fun hq => ?_⟩, fun hs => ?_⟩
  · rw [qLX_popped]
    exact not_lt.mpr h
  · exact qpopv_completes hs nofun exec_qpopvS (q := fun s => s.me.qXS) (pop := fun r s => s.modMe fun x => { x with qXS := r })
      (onShuttle_qXS r) ((qXS_popped s k).trans hq) hfree
  · exact qpopv_waits hs nofun exec_qpopvS (q := fun s => s.me.qXS) (pop := fun r s => s.modMe fun x => { x with qXS := r })
      ((qXS_popped s k).trans hq)
  have hm := unmarked_popped s k hs.2.2.1
  have hin : (s.popped k).me.inbound (s.popped k).stream = s.me.qCX := (inbound_popped s k _).trans (congrArg s.me.inbound hs.1)
  refine ⟨qpushvX_completes hs nofun, ?_, ?_, ?_, ?_, ?_, ?_, shrm_completes hs i, shft_completes hs l b,
    waits_popScalar hs nofun exec_shpop, ?_⟩
  · intro h
    rw [← qXS_popped s k] at h
    exact waits_of_popped hs nofun exec_qpushvX (if_neg (not_lt.mpr h))
  · intro e r hq hfree
    exact qpopv_completes hs nofun exec_qpopvX (q := fun s => s.me.qLX) (pop := fun r s => s.modMe fun x => { x with qLX := r })
      (onShuttle_qLX r) ((qLX_popped s k).trans hq) hfree
  · intro hq
    exact qpopv_waits hs nofun exec_qpopvX (q := fun s => s.me.qLX) (pop := fun r s => s.modMe fun x => { x with qLX := r })
      ((qLX_popped s k).trans hq)
  · intro hheld h
    rw [← hin] at h
    obtain ⟨t, ht, hdrop⟩ := dropEntries_of_le (k := k) hm ((held_popped s k).trans hheld) h
    rw [hin, stream_popped, hs.1] at ht
    exact completesT_of_popped
      (onShuttle_modMe ((beside_notePop .x (n.toNat + 1)).comp (beside_setInbound .x (s.me.qCX.drop (n.toNat + 1))))) hs nofun
      (exec_qdropX n) hdrop ht
  · intro h hheld
    exact waits_of_popped hs nofun (exec_qdropX n)
      (dropEntries_of_nil hm ((held_popped s k).trans hheld) (Nat.succ_ne_zero _) (hin.trans h))
  · exact fun h hheld hn => qdrop_holds (st := .x) hs nofun (exec_qdropX n) hheld h hn
  · intro e r hq
    obtain ⟨hrm, hbase, hflv, hseg, hvl⟩ := shapeFrom_fields s.me.shp e.val
    exact ⟨_, _, shpop_completes hs hq, hrm, hbase, hflv, hseg, hvl, shapeFrom_warn ..⟩

end Sys2Proof.Machine
end

section
namespace Sys2Proof.Machine
open Sys2Proof

/-! # Faults that C takes, and their records (R96, R356 to R358) -/

section
variable {s : State} {sh : ShNo} {num tid : Nat}

/-! ## Asynchronous faults and deadlock -/

theorem asyncFaultTake_takes (hf : (s.shuttle sh).frozen = false) (hm : (s.shuttle sh).mon = false)
    (hr : (s.shuttle sh).c.run = .running) :
    (∀ f r, (s.shuttle sh).pending = f :: r → exec (.asyncFaultTake sh) s = .next
      ((s.modShuttle sh fun x =>
          { x with pending := r, stepWaits := x.stepWaits.filter fun w => decide (w.cmd ≠ f.cmd) }).deliverTrap sh f.cause f.eval
        (eauxOf true f.str f.eng.toNat f.ipc) (s.shuttle sh).c.pc)) ∧
    ((s.shuttle sh).pending = [] → exec (.asyncFaultTake sh) s = .next s) := by
  have hmay : ((s.shuttle sh).frozen || (s.shuttle sh).mon || decide ((s.shuttle sh).c.run ≠ .running)) = false := by
    simp [hf, hm, hr]
  dsimp only [exec]
  unfold execAsyncFaultTake
  dsimp only
  rw [hmay]
  exact ⟨fun f r hp => by rw [hp]; rfl, fun hp => by rw [hp]; rfl⟩

theorem asyncFaultTake_waits (h : (s.shuttle sh).mon = true ∨ (s.shuttle sh).frozen = true) :
    exec (.asyncFaultTake sh) s = .next s := by
  have hmay : ((s.shuttle sh).frozen || (s.shuttle sh).mon || decide ((s.shuttle sh).c.run ≠ .running)) = true := by
    rcases h with h | h <;> simp [h]
  exact if_pos hmay

theorem streamDeadlock_traps (hf : (s.shuttle sh).frozen = false) (ht : (s.shuttle sh).task.isSome = true)
    (hstuck : ([(s.shuttle sh).c, (s.shuttle sh).l, (s.shuttle sh).x, (s.shuttle sh).s].all (s.shuttle sh).stuck) = true)
    (hc : (s.shuttle sh).c.run = .running ∧ (s.shuttle sh).c.stall.isSome = true) (hbusy : s.shuttleBusy sh = false) :
    exec (.streamDeadlock sh) s = .next (s.takeTrap sh .c 0x0E 0) := by
  refine if_pos ?_
  rw [hf, ht, hstuck, hbusy, List.any_cons, hc.1, hc.2]
  rfl

theorem streamDeadlock_waits (hbusy : s.shuttleBusy sh = true) : exec (.streamDeadlock sh) s = .next s := by
  refine if_neg ?_
  rw [hbusy]
  simp

/-! ## The trap ring -/

/-- A record that enters the ring counts in its write index, and lies in memory. -/
theorem writeRecord_eq (words : List W64) : ∃ m ms hs, s.writeRecord words =
    { s with mem := m, dev := assocSet 0x20030 (s.devReg 0x20030 + 1) s.dev, msis := ms, harts := hs } := by
  unfold State.writeRecord
  dsimp only
  obtain ⟨ms, hs, heq⟩ := sendMsi_eq (State.setDevReg (s.storeHbm _ _) (trapUnit + 0x30) (s.devReg (trapUnit + 0x30) + 1)) _
  rw [heq]
  exact ⟨_, _, _, rfl⟩

theorem trapRoute_held {w : List W64} {r : List (List W64)} (hw : s.heldRecs = w :: r) (hroom : s.ringRoom = true) :
    ∃ u, exec (.trapRoute none 0) s = .next u ∧ u.heldRecs = r ∧ u.devReg 0x20030 = s.devReg 0x20030 + 1 := by
  obtain ⟨m, ms, hs, heq⟩ := writeRecord_eq (s := { s with heldRecs := r, stamp := s.stamp + 1 }) w
  refine ⟨({ s with heldRecs := r, stamp := s.stamp + 1 } : State).writeRecord w, ?_, ?_, ?_⟩
  · dsimp only [exec]
    unfold execTrapRoute
    rw [hw, hroom]
    rfl
  · rw [heq]
  · rw [heq]
    exact devReg_setDevReg s 0x20030 _

theorem routeCommit_full (hroom : s.ringRoom = false) : s.routeCommit tid = s := by
  unfold State.routeCommit
  split
  · rfl
  · split
    · exact if_neg (by simp [hroom])
    · rfl

/-- Without room no record enters the ring. -/
theorem trapRoute_full (hroom : s.ringRoom = false) : exec (.trapRoute none tid) s = .next s := by
  by_cases htid : tid ≠ 0
  · exact (if_pos htid).trans (congrArg Host.Outcome.next (routeCommit_full hroom))
  · refine (if_neg htid).trans ?_
    split
    · rfl
    · exact if_neg (by simp [hroom])

theorem trapRoute_idle (h : (s.shuttle sh).trap = none) : exec (.trapRoute (some sh) tid) s = .next s := by
  have hroute : s.routeShuttle sh = s := by
    unfold State.routeShuttle
    rw [h]
  exact congrArg Host.Outcome.next hroute

theorem bind_eq (who : Option (Nat × Nat)) : ∃ ts, s.bind who = { s with tasks := ts } := by
  cases who
  · exact ⟨s.tasks, rfl⟩
  · exact ⟨_, rfl⟩

/-- A record enters the ring, and its handler may act on it. -/
def State.fileRecord (s : State) (words : List W64) (r : TrapRec) : State :=
  { s.writeRecord words with trapRecs := s.trapRecs ++ [r] }

theorem fileRecord_eq (words : List W64) (r : TrapRec) : ∃ m ms hs, s.fileRecord words r =
    { s with mem := m, dev := assocSet 0x20030 (s.devReg 0x20030 + 1) s.dev, msis := ms, harts := hs,
             trapRecs := s.trapRecs ++ [r] } := by
  obtain ⟨m, ms, hs, heq⟩ := writeRecord_eq (s := s) words
  exact ⟨m, ms, hs, by rw [State.fileRecord, heq]⟩

/-- The trap of a shuttle with its record's number. -/
def State.nameRecord (s : State) (n : ShNo) (k : HeldTrap) : State :=
  (s.bind (s.shuttle n).task).modShuttle n fun x => { x with trap := some { k with record := some (s.devReg 0x20030).toNat } }

theorem routeShuttle_files {k : HeldTrap} (hk : (s.shuttle sh).trap = some k) (hrec : k.record = none) (hroom : s.ringRoom = true)
    (ht : ∀ t, s.taskAt sh = some t → s.isOldest t.tid = true ∧ t.dual = false) :
    s.routeShuttle sh = (s.nameRecord sh k).fileRecord (s.heldWords sh k)
      { num := (s.devReg 0x20030).toNat, shuttle := some sh, commit := none, task := (s.shuttle sh).task.map Prod.fst,
        acted := false } := by
  unfold State.routeShuttle
  rw [hk]
  dsimp only
  rw [hrec, hroom]
  dsimp only [Option.isSome_none, Bool.not_true]
  rw [if_neg Bool.false_ne_true]
  split
  · rfl
  next t hat =>
    obtain ⟨hold, hdual⟩ := ht t hat
    rw [hold, hdual]
    rfl

/-- A shuttle's record is written, and its trap names it. -/
theorem trapRoute_shuttle {k : HeldTrap} (hk : (s.shuttle sh).trap = some k) (hrec : k.record = none) (hroom : s.ringRoom = true)
    (ht : ∀ t, s.taskAt sh = some t → s.isOldest t.tid = true ∧ t.dual = false) :
    ∃ u, exec (.trapRoute (some sh) tid) s = .next u ∧
      (u.shuttle sh).trap = some { k with record := some (s.devReg 0x20030).toNat } ∧ u.devReg 0x20030 = s.devReg 0x20030 + 1 := by
  obtain ⟨ts, hbind⟩ := bind_eq (s := s) (s.shuttle sh).task
  obtain ⟨m, ms, hs, heq⟩ := fileRecord_eq (s := s.nameRecord sh k) (s.heldWords sh k)
    { num := (s.devReg 0x20030).toNat, shuttle := some sh, commit := none, task := (s.shuttle sh).task.map Prod.fst,
      acted := false }
  refine ⟨_, congrArg Host.Outcome.next ((routeShuttle_files hk hrec hroom ht).trans heq), ?_, ?_⟩
  · show ((s.nameRecord sh k).shuttle sh).trap = _
    rw [State.nameRecord, shuttle_modShuttle]
  · refine (devReg_setDevReg (s.nameRecord sh k) 0x20030 _).trans ?_
    rw [State.nameRecord, hbind]
    rfl

/-- The held commit fault of a task with its record's number. -/
def State.nameCommit (s : State) (tid : Nat) (c : BitVec 8) (v : W64) : State :=
  s.modTask tid fun t => { t with held := some (c, v, some (s.devReg 0x20030).toNat) }

theorem routeCommit_files {t : Task} {c : BitVec 8} {v : W64} (ht : s.taskOf tid = some t)
    (hheld : t.held = some (c, v, none)) (hroom : s.ringRoom = true) : s.routeCommit tid =
      (s.nameCommit tid c v).fileRecord (recordWords c v { RecFlags.none with cmt := true, eaux := 1 <<< 63, task := some t })
        { num := (s.devReg 0x20030).toNat, shuttle := none, commit := some tid, task := some tid, acted := false } := by
  unfold State.routeCommit
  rw [ht]
  dsimp only
  rw [hheld, hroom]
  rfl

/-- A held commit fault's record is written, and the task names it. -/
theorem trapRoute_commit {t : Task} {c : BitVec 8} {v : W64} (htid : tid ≠ 0) (ht : s.taskOf tid = some t)
    (hheld : t.held = some (c, v, none)) (hroom : s.ringRoom = true) :
    ∃ u y, exec (.trapRoute none tid) s = .next u ∧ u.taskOf tid = some y ∧
      y.held = some (c, v, some (s.devReg 0x20030).toNat) ∧ u.devReg 0x20030 = s.devReg 0x20030 + 1 := by
  obtain ⟨m, ms, hs, heq⟩ := fileRecord_eq (s := s.nameCommit tid c v)
    (recordWords c v { RecFlags.none with cmt := true, eaux := 1 <<< 63, task := some t })
    { num := (s.devReg 0x20030).toNat, shuttle := none, commit := some tid, task := some tid, acted := false }
  refine ⟨_, { t with held := some (c, v, some (s.devReg 0x20030).toNat) },
    (if_pos htid).trans (congrArg Host.Outcome.next ((routeCommit_files ht hheld hroom).trans heq)), ?_, rfl, ?_⟩
  · show (s.nameCommit tid c v).taskOf tid = _
    rw [State.nameCommit, taskOf_modTask, ht]
    · rfl
    · exact fun _ => rfl
  · exact devReg_setDevReg (s.nameCommit tid c v) 0x20030 _

end

/-! ## The handler's commands (R357) -/

section
variable {s : State} {sh : ShNo} {num : Nat} {h : HeldTrap} (ht : s.trapTarget num = some (.shuttle sh h))
include ht

theorem trcmdDeliver_enters (hh : h.halt = false) : exec (.trcmdDeliver num) s = .next ((s.actOn num).modShuttle sh fun x =>
    { x.unfreeze.enterTrap h.cause h.eval h.eaux h.epc with frozen := s.preempting sh }) := by
  dsimp only [exec]
  unfold execTrcmdDeliver
  rw [ht]
  dsimp only
  rw [hh]
  rfl

theorem trcmdRetry_resumes : exec (.trcmdRetry num) s = .next ((s.actOn num).modShuttle sh fun x =>
    let y := { x.unfreeze with frozen := s.preempting sh }
    if h.halt then { y with c := { y.c with run := .running, pc := if h.cause = 0x0D then h.epc + 4 else h.epc } }
    else if y.mon || y.frozen then y else y.resumeStreams) := by
  dsimp only [exec]
  unfold execTrcmdRetry
  rw [ht]

theorem trcmdKill_kills : exec (.trcmdKill num) s = .next ((s.actOn num).killTarget (.shuttle sh h)) := by
  dsimp only [exec]
  unfold execTrcmdKill
  rw [ht]

end

theorem resumeStreams_eq (x : Shuttle) : ∃ l xs ss m, x.resumeStreams = { x with l := l, x := xs, s := ss, sstp := m } := by
  unfold Shuttle.resumeStreams
  split
  · exact ⟨_, _, _, _, rfl⟩
  · exact ⟨_, _, _, _, rfl⟩

section
variable {s : State} {sh : ShNo} {num : Nat} {h : HeldTrap} (ht : s.trapTarget num = some (.shuttle sh h))
include ht

theorem trcmdRetry_thaws : ∃ u, exec (.trcmdRetry num) s = .next u ∧ (u.shuttle sh).frozen = s.preempting sh ∧
    (u.shuttle sh).trap = none ∧
    (h.halt = true → (u.shuttle sh).c.run = .running ∧ (u.shuttle sh).c.pc = if h.cause = 0x0D then h.epc + 4 else h.epc) ∧
    (h.halt = false → (u.shuttle sh).c.pc = (s.shuttle sh).c.pc) := by
  refine ⟨_, trcmdRetry_resumes ht, ?_⟩
  rw [shuttle_modShuttle]
  dsimp only
  cases hh : h.halt
  · split
    · contradiction
    split
    · exact ⟨rfl, rfl, nofun, fun _ => rfl⟩
    · obtain ⟨l, xs, ss, m, heq⟩ := resumeStreams_eq { (s.shuttle sh).unfreeze with frozen := s.preempting sh }
      show (Shuttle.resumeStreams { (s.shuttle sh).unfreeze with frozen := s.preempting sh }).frozen = _ ∧
        (Shuttle.resumeStreams { (s.shuttle sh).unfreeze with frozen := s.preempting sh }).trap = _ ∧ _ ∧
        (_ → (Shuttle.resumeStreams { (s.shuttle sh).unfreeze with frozen := s.preempting sh }).c.pc = _)
      rw [heq]
      exact ⟨rfl, rfl, nofun, fun _ => rfl⟩
  · exact ⟨rfl, rfl, fun _ => ⟨rfl, rfl⟩, nofun⟩

theorem trcmdKill_idles (hidle : (s.shuttle sh).task = none) :
    ∃ u, exec (.trcmdKill num) s = .next u ∧ (u.shuttle sh).c.run = .halted := by
  refine ⟨_, trcmdKill_kills ht, ?_⟩
  have hat : (s.actOn num).taskAt sh = none := by
    unfold State.taskAt
    rw [show ((s.actOn num).shuttle sh).task = none from hidle]
    rfl
  unfold State.killTarget
  dsimp only
  rw [hat]
  dsimp only
  rw [shuttle_modShuttle]

theorem trcmdKill_requests {t : Task} {l : Launch} (hat : s.taskAt sh = some t) (hl : s.launchOf t.lid = some l)
    (hreq : s.requests = []) : ∃ u, exec (.trcmdKill num) s = .next u ∧
      u.requests = [{ kind := .kill, queue := l.queue, lid := some t.lid }] := by
  refine ⟨_, trcmdKill_kills ht, ?_⟩
  unfold State.killTarget
  dsimp only
  rw [show (s.actOn num).taskAt sh = some t from hat]
  unfold State.killLaunch
  dsimp only
  rw [show (s.actOn num).launchOf t.lid = some l from hl, show (s.actOn num).requests = [] from hreq]
  have hstop (v : State) (ts : List Nat) : (ts.foldl State.stopTask v).requests = v.requests :=
    congrArg Prod.snd (asked_stopTasks v ts)
  dsimp only [List.any_nil, Bool.false_eq_true, if_false]
  rw [hstop]
  show s.requests ++ _ = _
  rw [hreq]
  rfl

end

theorem trcmd_untargeted {s : State} {num : Nat} (h : s.trapTarget num = none) : exec (.trcmdDeliver num) s = .next s ∧
    exec (.trcmdRetry num) s = .next s ∧ exec (.trcmdKill num) s = .next s := by
  dsimp only [exec]
  unfold execTrcmdDeliver execTrcmdRetry execTrcmdKill
  rw [h]
  exact ⟨rfl, rfl, rfl⟩

/-! ## Numbers in a rising list -/

theorem mem_insertNat (a : Nat) (l : List Nat) : a ∈ insertNat a l := by
  induction l with
  | nil => exact List.mem_singleton_self a
  | cons b bs ih =>
    unfold insertNat
    split
    · exact List.mem_cons_self
    split
    next h => exact h ▸ List.mem_cons_self
    · exact List.mem_cons_of_mem b ih

/-! ## Faults of the part (R370 to R374)

What is marked, what has left service and what waits for the firmware: `State.health`. A task that stops, a queue that halts and a
message to the gang leave it, and so do a record in the health ring and an abort but for what waits. -/

/-- What is marked and what has left service. -/
def State.service (s : State) : List Nat × List ShNo × List (Nat × Nat) × W64 := (s.bad, s.outShuttles, s.outUnits, s.hepoch)

/-- What is marked, what has left service and the records that wait. -/
def State.health (s : State) : (List Nat × List ShNo × List (Nat × Nat) × W64) × List (List W64) := (s.service, s.heldRecs)

section
variable (s : State)

theorem health_dropAwayLines (tid : Nat) : (s.dropAwayLines tid).health = s.health := by
  unfold State.dropAwayLines
  exact (foldl_kept (π := State.health) (by intros; rfl) _ _).trans rfl

theorem health_stopTask (tid : Nat) : (s.stopTask tid).health = s.health := by
  unfold State.stopTask
  split
  · rfl
  next t _ =>
    refine (health_dropAwayLines _ tid).trans ?_
    refine Eq.trans rfl (foldl_kept (π := State.health) (fun u n => ?_) t.shuttles s)
    repeat' split
    all_goals rfl

theorem health_haltQueue (q : Nat) : (s.haltQueue q).health = s.health := by
  obtain ⟨mem, m, h, heq⟩ := haltQueue_eq s q
  rw [heq]
  rfl

theorem health_stopTasks (l : List Nat) : (l.foldl State.stopTask s).health = s.health :=
  foldl_kept (π := State.health) health_stopTask l s

theorem health_haltQueues (l : List Queue) : (l.foldl (fun s x => s.haltQueue x.q) s).health = s.health := by
  refine foldl_kept (π := State.health) (fun v x => ?_) l s
  exact health_haltQueue v x.q

theorem health_tellGang (m : GangMsg) : (s.tellGang m).health = s.health := by
  unfold State.tellGang
  refine foldl_kept (π := State.health) (fun u p => ?_) _ _
  obtain ⟨c, l, heq⟩ := post_eq u p 0 (.gang m)
  rw [heq]
  rfl

theorem health_setDevReg {off : Nat} (v : W64) (h : off ≠ 0x30018) : (s.setDevReg off v).health = s.health := by
  have hhep : (s.setDevReg off v).hepoch = s.hepoch := devReg_setDevReg_ne s off 0x30018 v h.symm
  unfold State.health State.service
  rw [hhep]
  rfl

theorem health_sendMsi (ident : Nat) : (s.sendMsi ident).health = s.health := by
  obtain ⟨m, h, heq⟩ := sendMsi_eq s ident
  rw [heq]
  rfl

theorem health_tryAgree : s.tryAgree.health = s.health := by
  unfold State.tryAgree
  split
  · rfl
  · dsimp only
    split
    · exact (health_sendMsi _ _).trans (health_setDevReg _ _ (by decide))
    · rfl

theorem health_healthRecord (cls unit kind count : Nat) (detail : W64) :
    (s.healthRecord cls unit kind count detail).health = s.health := by
  unfold State.healthRecord
  dsimp only
  split
  · rfl
  · exact (health_sendMsi _ _).trans (health_setDevReg _ _ (by decide))

theorem service_abortTask (tid : Nat) : (s.abortTask tid).service = s.service := by
  unfold State.abortTask
  split
  · rfl
  · exact congrArg Prod.fst ((health_healthRecord _ _ _ _ _ _).trans (health_stopTask s tid))

/-- An abort token leaves a record of cause 0x30. -/
theorem health_raiseToken (reason : BitVec 16) (spread : Bool) : (s.raiseToken reason spread).health =
    (s.service, s.heldRecs ++ [recordWords 0x30 (reason.setWidth 64) RecFlags.none]) := by
  unfold State.raiseToken
  dsimp only
  rw [health_tryAgree, health_tellGang]
  generalize hu : List.foldl (fun (s : State) (x : Queue) => s.haltQueue x.q) _ _ = u
  have hkept : State.health u = s.health := by
    rw [← hu, health_haltQueues, health_stopTasks]
    rfl
  obtain ⟨hs, hr⟩ := Prod.mk.inj hkept
  split
  · rw [health_tellGang, ← hs, ← hr]
    rfl
  · rw [← hs, ← hr]
    rfl

theorem heldRecs_raiseToken (reason : BitVec 16) (spread : Bool) : (s.raiseToken reason spread).heldRecs =
    s.heldRecs ++ [recordWords 0x30 (reason.setWidth 64) RecFlags.none] := congrArg Prod.snd (health_raiseToken s reason spread)

theorem requests_raiseToken (reason : BitVec 16) (spread : Bool) : (s.raiseToken reason spread).requests =
    s.requests ++ [{ kind := .token, queue := 0, lid := none }] := congrArg Prod.snd (asked_raiseToken s reason spread)

theorem service_fatalFault (cls : BitVec 8) (unit : BitVec 24) (kind : BitVec 8) :
    (s.fatalFault cls unit kind).service = s.service := by
  unfold State.fatalFault
  exact congrArg Prod.fst (health_raiseToken _ _ _)

/-- A fatal fault asks for a token. -/
theorem token_of_fatalFault (cls : BitVec 8) (unit : BitVec 24) (kind : BitVec 8) :
    ∃ r ∈ (s.fatalFault cls unit kind).requests, r.kind = .token := by
  unfold State.fatalFault
  dsimp only
  rw [requests_raiseToken]
  exact ⟨_, List.mem_append_right _ (List.mem_singleton_self _), rfl⟩

/-- A fatal fault leaves a record of cause 0x31 for the firmware. -/
theorem record_of_fatalFault (cls : BitVec 8) (unit : BitVec 24) (kind : BitVec 8) :
    recordWords 0x31 (BitVec.ofNat 64 (cls.toNat + unit.toNat * 2 ^ 8 + kind.toNat * 2 ^ 32)) { RecFlags.none with fw := true } ∈
      (s.fatalFault cls unit kind).heldRecs := by
  have hmod : kind.toNat % 256 = kind.toNat := Nat.mod_eq_of_lt kind.isLt
  unfold State.fatalFault
  dsimp only
  rw [heldRecs_raiseToken, hmod]
  exact List.mem_append_left _ (List.mem_append_right _ (List.mem_singleton_self _))

end

/-! ## Records and marks -/

/-- What a record in the health ring and a mark leave: what is out of service, the tasks, and where they run. -/
structure SamePlant (s t : State) : Prop where
  shuttles : t.outShuttles = s.outShuttles
  units : t.outUnits = s.outUnits
  hepoch : t.hepoch = s.hepoch
  tasks : t.tasks = s.tasks
  lines : t.lines = s.lines
  runs : ∀ n, (t.shuttle n).task = (s.shuttle n).task

theorem SamePlant.trans {s t u : State} (h : SamePlant s t) (g : SamePlant t u) : SamePlant s u :=
  ⟨g.shuttles.trans h.shuttles, g.units.trans h.units, g.hepoch.trans h.hepoch, g.tasks.trans h.tasks, g.lines.trans h.lines,
    fun n => (g.runs n).trans (h.runs n)⟩

theorem SamePlant.taskAt {s t : State} (h : SamePlant s t) (n : ShNo) : t.taskAt n = s.taskAt n := by
  unfold State.taskAt State.taskOf
  rw [h.runs, h.tasks]

theorem SamePlant.isBound {s t : State} (h : SamePlant s t) (k : Task) : t.isBound k = s.isBound k := by
  unfold State.isBound
  rw [h.lines]

section
variable (s : State)

/-- A health record changes memory, the ring's registers and what is signalled. -/
theorem healthRecord_eq (cls unit kind count : Nat) (detail : W64) : ∃ m d l ms hs,
    s.healthRecord cls unit kind count detail = { s with mem := m, dev := d, hrLost := l, msis := ms, harts := hs } := by
  unfold State.healthRecord
  dsimp only
  split
  · exact ⟨s.mem, s.dev, true, s.msis, s.harts, rfl⟩
  · obtain ⟨ms, hs, heq⟩ := sendMsi_eq (State.setDevReg { s.storeHbm _ _ with hrLost := false } _ _) _
    rw [heq]
    exact ⟨_, _, _, _, _, rfl⟩

/-- A record as a check's failure leaves it. -/
def State.noted (f : CheckFail) (kind : Nat) (detail : W64) : State :=
  ({ s with stamp := s.stamp + 1 } : State).healthRecord f.cls.toNat f.unit.toNat kind 1 detail

theorem noted_samePlant (f : CheckFail) (kind : Nat) (detail : W64) : SamePlant s (s.noted f kind detail) := by
  have hkept := congrArg Prod.fst
    (health_healthRecord { s with stamp := s.stamp + 1 } f.cls.toNat f.unit.toNat kind 1 detail)
  obtain ⟨m, d, l, ms, hs, heq⟩ := healthRecord_eq { s with stamp := s.stamp + 1 } f.cls.toNat f.unit.toNat kind 1 detail
  unfold State.noted
  rw [heq] at hkept ⊢
  exact ⟨rfl, rfl, congrArg (fun p => p.2.2.2) hkept, rfl, rfl, fun _ => rfl⟩

theorem noted_sh (f : CheckFail) (kind : Nat) (detail : W64) : (s.noted f kind detail).sh = s.sh := by
  obtain ⟨m, d, l, ms, hs, heq⟩ := healthRecord_eq { s with stamp := s.stamp + 1 } f.cls.toNat f.unit.toNat kind 1 detail
  unfold State.noted
  rw [heq]

/-- The count of changes plays no part in what is recorded. -/
theorem noted_mem (f : CheckFail) (kind : Nat) (detail : W64) :
    (s.noted f kind detail).mem = (s.healthRecord f.cls.toNat f.unit.toNat kind 1 detail).mem := by
  have hmsi (t : State) (ident : Nat) : (t.sendMsi ident).mem = t.mem := by
    obtain ⟨m, h, heq⟩ := sendMsi_eq t ident
    rw [heq]
  unfold State.noted State.healthRecord
  dsimp only
  split
  next h =>
    refine Eq.symm ((congrArg State.mem (if_pos ?_)).trans rfl)
    exact h
  next h =>
    refine (hmsi _ _).trans (Eq.symm ((congrArg State.mem (if_neg ?_)).trans (hmsi _ _)))
    exact h

theorem markSite_samePlant (site : CheckSite) : SamePlant s (s.markSite site) := by
  have hmod (n : ShNo) (f : Shuttle → Shuttle) (hf : ∀ x, (f x).task = x.task) : SamePlant s (s.modShuttle n f) := by
    refine ⟨rfl, rfl, rfl, rfl, rfl, fun m => ?_⟩
    rcases eq_or_ne n m with rfl | hne
    · rw [shuttle_modShuttle, hf]
    · rw [shuttle_modShuttle_ne _ _ _ _ hne]
  cases site with
  | cell p => exact ⟨rfl, rfl, rfl, rfl, rfl, fun _ => rfl⟩
  | code n st mon w =>
    unfold State.markSite
    refine hmod n _ fun x => ?_
    dsimp only
    split
    · rfl
    · cases st <;> rfl
  | reg n st kind ix =>
    unfold State.markSite
    exact hmod n _ fun _ => rfl
  | plane n =>
    unfold State.markSite
    exact hmod n _ fun _ => rfl
  | card h =>
    obtain ⟨m, heq, -⟩ := setCards_mem s (s.cards.filter fun c => c.hash ≠ h)
    show SamePlant s (s.setCards _)
    rw [heq]
    exact ⟨rfl, rfl, rfl, rfl, rfl, fun _ => rfl⟩
  | flight => exact ⟨rfl, rfl, rfl, rfl, rfl, fun _ => rfl⟩
  | part => exact ⟨rfl, rfl, rfl, rfl, rfl, fun _ => rfl⟩

theorem markSite_mem {site : CheckSite} (h : ∀ k, site ≠ .card k) : (s.markSite site).mem = s.mem := by
  cases site
  case card k => exact absurd rfl (h k)
  all_goals rfl

theorem badCell_of_mem {p : Nat} (h : cellOf p ∈ s.bad) : s.badCell p = true := by
  unfold State.badCell
  rw [List.contains_iff_mem.mpr h]
  rfl

theorem markSite_bad {p : Nat} (hp : p < 2 ^ 63) : cellOf p ∈ (s.markSite (.cell p)).bad := by
  show cellOf p ∈ insertNat (if 2 ^ 63 ≤ p then p else cellOf p) s.bad
  rw [if_neg (by omega)]
  exact mem_insertNat _ _

theorem markSite_marked (n : ShNo) (st : Stream) (c ix : BitVec 8) :
    markOf st (damage c.toNat ix.toNat) ∈ ((s.markSite (.reg n st c ix)).shuttle n).marked := by
  show _ ∈ ((s.modShuttle n _).shuttle n).marked
  rw [shuttle_modShuttle]
  dsimp only
  split
  next h => exact List.contains_iff_mem.mp h
  · exact List.mem_cons_self

/-! ## Units that leave service -/

theorem hepoch_raiseHepoch : s.raiseHepoch.hepoch = s.hepoch + 1 := devReg_setDevReg s 0x30018 _

theorem service_refreshPcfg : s.refreshPcfg.service = s.service := congrArg Prod.fst (health_setDevReg s _ (by decide))

/-- The state in which a shuttle has left service. -/
def State.withoutShuttle (n : ShNo) : State :=
  ({ s with outShuttles := s.outShuttles ++ [n] } : State).raiseHepoch.refreshPcfg

theorem service_withoutShuttle (n : ShNo) :
    (s.withoutShuttle n).service = (s.bad, s.outShuttles ++ [n], s.outUnits, s.hepoch + 1) := by
  refine (service_refreshPcfg _).trans ?_
  unfold State.service
  rw [hepoch_raiseHepoch]
  rfl

theorem loseShuttle_bad (n : ShNo) (unit : BitVec 24) : (s.loseShuttle n unit).bad = s.bad := by
  unfold State.loseShuttle
  have hleft : (if s.outShuttles.contains n then s else s.withoutShuttle n).bad = s.bad := by
    split
    · rfl
    · exact congrArg Prod.fst (service_withoutShuttle s n)
  dsimp only
  split
  · exact hleft
  · split
    · exact (congrArg Prod.fst (service_fatalFault _ _ _ _)).trans hleft
    · exact (congrArg Prod.fst (service_abortTask _ _)).trans hleft

/-- A shuttle in service leaves it, and what was marked stays so. -/
theorem service_loseShuttle {n : ShNo} (unit : BitVec 24) (h : n ∉ s.outShuttles) :
    (s.loseShuttle n unit).service = (s.bad, s.outShuttles ++ [n], s.outUnits, s.hepoch + 1) := by
  unfold State.loseShuttle
  rw [if_neg (by simpa using h)]
  split
  · exact service_withoutShuttle s n
  · split
    · exact (service_fatalFault _ _ _ _).trans (service_withoutShuttle s n)
    · exact (service_abortTask _ _).trans (service_withoutShuttle s n)

/-- A fault of a bound task's shuttle is fatal. -/
theorem token_of_loseShuttle {n : ShNo} (unit : BitVec 24) {t : Task} (ht : s.taskAt n = some t) (hb : s.isBound t = true) :
    ∃ r ∈ (s.loseShuttle n unit).requests, r.kind = .token := by
  unfold State.loseShuttle
  rw [ht]
  dsimp only
  rw [hb, if_pos rfl]
  exact token_of_fatalFault _ _ _ _

/-- A unit that is neither a shuttle nor a link leaves service, and HEPOCH rises. -/
theorem service_loseUnit {cls : BitVec 8} {unit : BitVec 24} (h1 : cls ≠ 1) (h8 : cls ≠ 8)
    (h : (cls.toNat, unit.toNat) ∉ s.outUnits) : (s.loseUnit cls unit).service =
      (s.bad, s.outShuttles, s.outUnits ++ [(cls.toNat, unit.toNat)], s.hepoch + 1) := by
  have hraised : (({ s with outUnits := s.outUnits ++ [(cls.toNat, unit.toNat)] } : State).raiseHepoch).service =
      (s.bad, s.outShuttles, s.outUnits ++ [(cls.toNat, unit.toNat)], s.hepoch + 1) := by
    unfold State.service
    rw [hepoch_raiseHepoch]
    rfl
  unfold State.loseUnit
  rw [if_neg h1, if_neg h8, if_neg (by simpa using h)]
  dsimp only
  split
  · exact (congrArg Prod.fst (health_setDevReg _ _ (by decide))).trans hraised
  · exact hraised

/-- A unit that is no link takes nothing away from what is marked. -/
theorem loseUnit_bad {cls : BitVec 8} (unit : BitVec 24) (h8 : cls ≠ 8) : (s.loseUnit cls unit).bad = s.bad := by
  by_cases h1 : cls = 1
  · unfold State.loseUnit
    rw [if_pos h1]
    exact loseShuttle_bad s _ _
  by_cases hout : (cls.toNat, unit.toNat) ∈ s.outUnits
  · unfold State.loseUnit
    rw [if_neg h1, if_neg h8, if_pos (by simpa using hout)]
  · exact congrArg Prod.fst (service_loseUnit s h1 h8 hout)

end

/-! ## Checks that fail -/

/-- What a check's failure says of where it is. -/
def failDetail (f : CheckFail) : W64 :=
  match f.site with
  | .cell p => BitVec.ofNat 64 p
  | .code _ _ _ w => BitVec.ofNat 64 (4 * w)
  | _ => 0

section
variable (s : State) (f : CheckFail)

/-- The state in which a lasting failure is recorded and marked. -/
def State.notedLasting : State := (s.noted f 3 (failDetail f)).markSite f.site

/-- The state in which the unit of a lasting failure has left service, unless a spare takes its place. -/
def State.afterLoss : State :=
  if CheckFail.staysIn f then s.notedLasting f else (s.notedLasting f).loseUnit f.cls f.unit

theorem notedLasting_samePlant : SamePlant s (s.notedLasting f) :=
  (noted_samePlant s f 3 (failDetail f)).trans (markSite_samePlant _ f.site)

theorem checkFailure_corrected (h : f.outcome = .corrected) : exec (.checkFailure f) s = .next (s.noted f 1 (failDetail f)) := by
  dsimp only [exec]
  unfold execCheckFailure
  rw [h]
  rfl

/-- A retry of a warp link counts in a register of its own. -/
theorem checkFailure_transient (h : f.outcome = .transient) : ∃ u, exec (.checkFailure f) s = .next u ∧ u.sh = s.sh ∧
    u.outUnits = s.outUnits ∧ u.mem = (s.noted f 2 (failDetail f)).mem := by
  refine ⟨if f.cls = 8 ∧ f.unit.toNat < 24 then (s.noted f 2 (failDetail f)).setDevReg (linkReg f.unit.toNat)
    ((s.noted f 2 (failDetail f)).devReg (linkReg f.unit.toNat) + 0x100000000) else s.noted f 2 (failDetail f), ?_, ?_⟩
  · dsimp only [exec]
    unfold execCheckFailure
    rw [h]
    rfl
  · have hsh := noted_sh s f 2 (failDetail f)
    have hunits := (noted_samePlant s f 2 (failDetail f)).units
    split
    · exact ⟨hsh, hunits, rfl⟩
    · exact ⟨hsh, hunits, rfl⟩

theorem checkFailure_uncorrectable (h : f.outcome = .uncorrectable) :
    exec (.checkFailure f) s = .next (({ s with stamp := s.stamp + 1 } : State).markSite f.site) := by
  dsimp only [exec]
  unfold execCheckFailure
  rw [h]

/-- The state in which a lasting failure is settled. -/
def State.afterLasting : State :=
  if s.fatalKind f ≠ 0 then (s.afterLoss f).fatalFault f.cls f.unit (s.fatalKind f) else s.afterLoss f

theorem checkFailure_lasting (h : f.outcome = .lasting) : exec (.checkFailure f) s = .next (s.afterLasting f) := by
  dsimp only [exec]
  unfold execCheckFailure
  rw [h]
  rfl

variable {s f}

/-- What a lasting failure marks stays marked when its unit leaves service and when it is fatal. -/
theorem afterLasting_bad (h8 : f.cls ≠ 8) : (s.afterLasting f).bad = (s.notedLasting f).bad := by
  have hloss : (s.afterLoss f).bad = (s.notedLasting f).bad := by
    unfold State.afterLoss
    split
    · rfl
    · exact loseUnit_bad _ _ h8
  unfold State.afterLasting
  split
  · exact (congrArg Prod.fst (service_fatalFault _ _ _ _)).trans hloss
  · exact hloss

theorem afterLasting_badCell {p : Nat} (hs : f.site = .cell p) (hp : p < 2 ^ 63) (h8 : f.cls ≠ 8) :
    (s.afterLasting f).badCell p = true := by
  refine badCell_of_mem _ ?_
  rw [afterLasting_bad h8, State.notedLasting, hs]
  exact markSite_bad _ hp

/-- A spare row of HBM takes the place of one that fails. -/
theorem afterLasting_spared {p : Nat} (hk : s.fatalKind f = 0) (hs : f.site = .cell p) (hp : p < Config.hbmBytes) :
    (s.afterLasting f).hepoch = s.hepoch := by
  have hstays : CheckFail.staysIn f = true := by
    unfold CheckFail.staysIn
    rw [hs]
    exact decide_eq_true hp
  have hsame : s.afterLasting f = s.notedLasting f := (if_neg (not_not_intro hk)).trans (if_pos hstays)
  rw [hsame]
  exact (notedLasting_samePlant s f).hepoch

/-- Any other unit leaves service. -/
theorem afterLasting_loses (hk : s.fatalKind f = 0) (hs : ∀ p, f.site = .cell p → Config.hbmBytes ≤ p) :
    s.afterLasting f = (s.notedLasting f).loseUnit f.cls f.unit := by
  have hstays : CheckFail.staysIn f = false := by
    unfold CheckFail.staysIn
    split
    next p hp => exact decide_eq_false (Nat.not_lt.mpr (hs p hp))
    · rfl
  exact (if_neg (not_not_intro hk)).trans (if_neg (by rw [hstays]; exact Bool.false_ne_true))

theorem afterLasting_shuttle (hk : s.fatalKind f = 0) (hs : ∀ p, f.site = .cell p → Config.hbmBytes ≤ p) (h1 : f.cls = 1)
    (hin : f.unit.setWidth 8 ∉ s.outShuttles) : (s.afterLasting f).hepoch = s.hepoch + 1 ∧
      (f.unit.setWidth 8 : ShNo) ∈ (s.afterLasting f).outShuttles ∧
      ∀ t, s.taskAt (f.unit.setWidth 8) = some t → s.isBound t = true →
        ∃ r ∈ (s.afterLasting f).requests, r.kind = .token := by
  have hsame := notedLasting_samePlant s f
  have hlost : s.afterLasting f = (s.notedLasting f).loseShuttle (f.unit.setWidth 8) f.unit :=
    (afterLasting_loses hk hs).trans (if_pos h1)
  have hservice := service_loseShuttle (s.notedLasting f) f.unit (n := f.unit.setWidth 8) (by rwa [hsame.shuttles])
  rw [hlost]
  refine ⟨(congrArg (fun v => v.2.2.2) hservice).trans (by rw [hsame.hepoch]), ?_, fun t ht hb => ?_⟩
  · rw [show State.outShuttles _ = _ from congrArg (fun v => v.2.1) hservice]
    exact List.mem_append_right _ (List.mem_singleton_self _)
  · exact token_of_loseShuttle _ f.unit ((hsame.taskAt _).trans ht) ((hsame.isBound t).trans hb)

theorem afterLasting_unit (hk : s.fatalKind f = 0) (hs : ∀ p, f.site = .cell p → Config.hbmBytes ≤ p) (h1 : f.cls ≠ 1)
    (h8 : f.cls ≠ 8) (hin : (f.cls.toNat, f.unit.toNat) ∉ s.outUnits) :
    (s.afterLasting f).hepoch = s.hepoch + 1 ∧ (f.cls.toNat, f.unit.toNat) ∈ (s.afterLasting f).outUnits := by
  have hsame := notedLasting_samePlant s f
  have hservice := service_loseUnit (s.notedLasting f) h1 h8 (by rwa [hsame.units])
  rw [afterLasting_loses hk hs]
  refine ⟨(congrArg (fun v => v.2.2.2) hservice).trans (by rw [hsame.hepoch]), ?_⟩
  rw [show State.outUnits _ = _ from congrArg (fun v => v.2.2.1) hservice]
  exact List.mem_append_right _ (List.mem_singleton_self _)

/-- A fatal failure raises cause 0x31 and a token. -/
theorem afterLasting_fatal (hk : s.fatalKind f ≠ 0) : (∃ r ∈ (s.afterLasting f).requests, r.kind = .token) ∧
    recordWords 0x31 (BitVec.ofNat 64 (f.cls.toNat + f.unit.toNat * 2 ^ 8 + (s.fatalKind f).toNat * 2 ^ 32))
      { RecFlags.none with fw := true } ∈ (s.afterLasting f).heldRecs := by
  rw [State.afterLasting, if_pos hk]
  exact ⟨token_of_fatalFault _ _ _ _, record_of_fatalFault _ _ _ _⟩

end

/-- Settles O55: C's faults, the trap ring and the handler's commands answer as the model's rules for each say, and each outcome of
a failed check is one of a record, a mark and a loss, of which none takes away what another has put down. -/
theorem trapEvents : Obligations.TrapEvents := by
  unfold Obligations.TrapEvents
  intro s sh num tid h
  refine ⟨asyncFaultTake_takes, asyncFaultTake_waits, streamDeadlock_traps, streamDeadlock_waits, fun w r => trapRoute_held,
    trapRoute_full, trapRoute_idle, fun k => trapRoute_shuttle, fun t c v => trapRoute_commit, fun ht => ?_, trcmd_untargeted,
    fun f => ?_⟩
  · refine ⟨fun hh => ⟨_, trcmdDeliver_enters ht hh, ?_⟩, trcmdRetry_thaws ht, trcmdKill_idles ht,
      fun t l => trcmdKill_requests ht⟩
    rw [shuttle_modShuttle]
    exact ⟨rfl, rfl, rfl, rfl, rfl, rfl, (setMon_getLsbD _ _ _).trans (if_pos rfl), rfl⟩
  · rcases ho : f.outcome
    case corrected =>
      exact ⟨_, checkFailure_corrected s f ho, fun _ => ⟨noted_sh .., (noted_samePlant ..).units, failDetail f, noted_mem ..⟩,
        nofun, nofun, nofun, nofun⟩
    case transient =>
      obtain ⟨u, hu, hsh, hunits, hmem⟩ := checkFailure_transient s f ho
      exact ⟨u, hu, fun _ => ⟨hsh, hunits, failDetail f, hmem.trans (noted_mem ..)⟩, nofun, nofun, nofun, nofun⟩
    case uncorrectable =>
      have hsame := markSite_samePlant { s with stamp := s.stamp + 1 } f.site
      refine ⟨_, checkFailure_uncorrectable s f ho, nofun, fun _ => ⟨hsame.hepoch, hsame.units, hsame.shuttles, markSite_mem _⟩,
        fun _ => ⟨fun p hp hlt _ => ?_, fun n st c ix hs _ => ?_⟩, nofun, nofun⟩
      · rw [hp]
        exact badCell_of_mem _ (markSite_bad _ hlt)
      · rw [hs]
        exact markSite_marked ..
    case lasting =>
      exact ⟨_, checkFailure_lasting s f ho, nofun, nofun,
        fun _ => ⟨fun p => afterLasting_badCell, fun _ _ _ _ _ => nofun⟩,
        fun _ hk => ⟨fun p => afterLasting_spared hk, fun hs => ⟨afterLasting_shuttle hk hs, afterLasting_unit hk hs⟩⟩,
        fun _ => afterLasting_fatal⟩

end Sys2Proof.Machine
end

section
namespace Sys2Proof.Machine
open Sys2Proof

/-! # A matrix command that races with its own start (R202, R285)

A command's read of its format entry is an access of the command itself, and its rows of tiles are accesses of its issuer
(`Job.tileAccess`). The number of the entry is any natural number, and that of one beyond the file is that of a location which is
no entry's: of a tile's row, whose write then races with the read. -/

/-- An entry number whose location is that of row 15 of tile 0. -/
def strayEntry : Nat := 2 ^ 64 - 2 ^ 60

/-- An MOUT of that row, which it empties, by an entry that the file does not have. -/
def strayOut : MatJob :=
  { job := { id := 1, sh := 0, st := .c, ipc := 0, issuer := 0, epoch := 1, era := 0, words := [], task := none,
             cc := 0, wt := none, sg := none, aq := false, rl := false, ext := .set [0], know := Know.none, rev := false,
             win := 0, dprs := [], started := false, ran := false, failed := false, flags := 0 },
    op := .out 0 { entry := strayEntry, snap := none, fa := 0, fb := 0, fo := 0 } false true false 15 0 0 0 0,
    src := 0, row := 0 }

/-- The read of the entry and the write of the row are of one location. -/
theorem fmtLoc_strayEntry : fmtLoc 0 strayEntry = tileLoc 0 0 15 := by decide

/-- The machine at rest, with that command. -/
def strayed : State := { State.reset with mats := [strayOut] }

theorem strayed_matOf : strayed.matOf 0 1 = some strayOut := by decide

theorem exec_matrixCommandStart {s : State} {sh : ShNo} {id : Nat} {m : MatJob} (h : s.matOf sh id = some m) :
    exec (.matrixCommandStart sh id) s = .next ((s.matRun m m.op.tiles.length).bump sh) := by
  dsimp only [exec]
  unfold execMatrixCommandStart
  rw [h]

/-- The row's race ends the command, which has failed. -/
theorem strayed_fails : (((strayed.matRun strayOut strayOut.op.tiles.length).bump 0).mats.all fun o => o.job.failed) = true := by
  decide +kernel

/-- Refutes O50: a matrix command on a state without unordered accesses fails when the entry that it names lies so far beyond the
format table that its location is that of a tile row which the command writes. Nothing in the statement bounds that number; the
commands that the machine accepts name entries of the table. -/
theorem not_engineRuns : ¬ Obligations.EngineRuns := by
  unfold Obligations.EngineRuns
  intro h
  obtain ⟨hstart, -⟩ := h strayed 0 1
  obtain ⟨u, hu, ⟨o, ho, -, -, -, hfailed⟩, -⟩ :=
    hstart strayOut strayed_matOf rfl rfl (by decide) rfl rfl rfl rfl rfl (by decide +kernel)
  obtain rfl := Host.Outcome.next.inj ((exec_matrixCommandStart strayed_matOf).symm.trans hu)
  have hfails : o.job.failed = true := List.all_eq_true.mp strayed_fails o ho
  rw [hfailed] at hfails
  cases hfails

end Sys2Proof.Machine
end

section
namespace Sys2Proof.Machine
open Sys2Proof

/-! # Exact cells and exact values (R107, R111, R112, R133, R134) -/

/-! ## The order of contributions to a cell -/

/-- A residue wraps as a balanced remainder. -/
theorem wrapInt_eq_bmod {w : Nat} (hw : 0 < w) (x : Int) : wrapInt w x = x.bmod (2 ^ w) := by
  have hpow : (2 : Int) ^ w = 2 * 2 ^ (w - 1) := by rw [← pow_succ', Nat.sub_add_cancel hw]
  have hpos : (0 : Int) < 2 ^ (w - 1) := by positivity
  have hlow : ((lowBits w x % 2 ^ w : Nat) : Int) = x % 2 ^ w := by
    rw [Int.natCast_mod, lowBits, Int.toNat_of_nonneg (Int.emod_nonneg _ (by omega))]
    exact_mod_cast Int.emod_emod_of_dvd x dvd_rfl
  have hlt : lowBits w x % 2 ^ w < 2 ^ (w - 1) ↔ x % 2 ^ w < 2 ^ (w - 1) := by rw [← hlow]; norm_cast
  have hhalf : ((2 : Int) ^ w + 1) / 2 = 2 ^ (w - 1) := by omega
  unfold wrapInt sintOf
  dsimp only
  rw [hlow, Int.bmod_def]
  push_cast
  rw [hhalf]
  exact if_congr hlt rfl rfl

/-- What a value adds to the residue of a cell; NaNs and infinities add nothing. -/
def addedTo (lsb : Int) : FVal → Int
  | .fin n m e => let q := roundAt .rne n m e lsb; if n then -(q.1 : Int) else q.1
  | _ => 0

/-- A finite contribution wraps the sum, and sets no tag; each of the others sets its own. -/
theorem contribute_acc (w : Nat) (lsb : Int) (a : Acc) (v : FVal) (bad : W64) : (contribute w lsb a v bad).1 =
    { c := if v.finite then wrapInt w (a.c + addedTo lsb v) else a.c
      nan := a.nan || v.isNan
      pinf := a.pinf || decide (v = .inf false)
      ninf := a.ninf || decide (v = .inf true) } := by
  rcases v with _ | neg | _
  · simp [contribute, FVal.isNan, FVal.finite]
  · cases neg <;> simp [contribute, FVal.isNan, FVal.finite]
  · simp [contribute, FVal.isNan, FVal.finite, addedTo]

/-- The flags of a contribution are its own. -/
theorem contribute_flags (w : Nat) (lsb : Int) (a b : Acc) (v : FVal) (bad : W64) :
    (contribute w lsb a v bad).2 = (contribute w lsb b v bad).2 := by
  rcases v with _ | neg | _
  · rfl
  · cases neg <;> rfl
  · rfl

/-- Two contributions leave the same cell in either order. -/
theorem contribute_comm {w : Nat} (hw : 0 < w) (lsb : Int) (a : Acc) (u v : FVal) (x y : W64) :
    (contribute w lsb (contribute w lsb a u x).1 v y).1 = (contribute w lsb (contribute w lsb a v y).1 u x).1 := by
  have hc : wrapInt w (wrapInt w (a.c + addedTo lsb u) + addedTo lsb v) =
      wrapInt w (wrapInt w (a.c + addedTo lsb v) + addedTo lsb u) := by
    simp only [wrapInt_eq_bmod hw, Int.bmod_add_bmod]
    rw [add_right_comm]
  simp only [contribute_acc, Acc.mk.injEq]
  refine ⟨?_, Bool.or_right_comm .., Bool.or_right_comm .., Bool.or_right_comm ..⟩
  rcases u.finite with _ | _ <;> rcases v.finite with _ | _
  · rfl
  · rfl
  · rfl
  · exact hc

/-- Settles O34: two contributions next to each other may change places, in value and in flags. -/
theorem exactSums : Obligations.ExactSums := by
  intro w lsb a l m hw hperm
  have hpos : 0 < w := by omega
  refine hperm.foldl_eq' (fun u _ v _ z => ?_) a
  refine Prod.ext (contribute_comm hpos lsb z.1 v.1 u.1 v.2 u.2).symm ?_
  dsimp only
  rw [contribute_flags w lsb (contribute w lsb z.1 u.1 u.2).1 z.1, contribute_flags w lsb (contribute w lsb z.1 v.1 v.2).1 z.1,
    BitVec.or_assoc, BitVec.or_assoc, BitVec.or_comm (contribute w lsb z.1 u.1 u.2).2]

/-! ## Exact sums and products -/

/-- A finite value is its aligned integer in units of the position it is aligned to. -/
theorem rat_fin_eq_alignTo (n : Bool) (m : Nat) {e q : Int} (h : q ≤ e) :
    (FVal.fin n m e).rat = alignTo n m e q * (2 : Rat) ^ q := by
  have hpow : (2 : Rat) ^ e = 2 ^ (e - q).toNat * 2 ^ q := by
    rw [← zpow_natCast, ← zpow_add₀ two_ne_zero, Int.toNat_of_nonneg (by omega), sub_add_cancel]
  unfold FVal.rat alignTo
  cases n
  · simp [hpow, mul_assoc]
  · simp [hpow, mul_assoc]

/-- An integer split in sign and magnitude is a value of as much. -/
theorem rat_fin_natAbs (x : Int) (q : Int) : (FVal.fin (decide (x < 0)) x.natAbs q).rat = x * (2 : Rat) ^ q := by
  rcases lt_or_ge x 0 with h | h
  · have habs : (x.natAbs : Rat) = -x := by rw [Nat.cast_natAbs, abs_of_neg h, Int.cast_neg]
    simp [FVal.rat, h, habs]
  · have habs : (x.natAbs : Rat) = x := by rw [Nat.cast_natAbs, abs_of_nonneg h]
    simp [FVal.rat, not_lt.mpr h, habs]

theorem rat_fin_zero (n : Bool) (q : Int) : (FVal.fin n 0 q).rat = 0 := by simp [FVal.rat]

theorem finite_iff (v : FVal) : v.finite = true ↔ ∃ n m e, v = .fin n m e := by
  cases v <;> simp [FVal.finite]

/-- The sum of finite values is exact; the branches of a zero sum differ in its sign alone. -/
theorem addVal_exact (rm : RMode) {a b : FVal} (ha : a.finite = true) (hb : b.finite = true) :
    (addVal rm a b).1.finite = true ∧ (addVal rm a b).1.rat = a.rat + b.rat ∧ (addVal rm a b).2 = 0 := by
  obtain ⟨n1, m1, e1, rfl⟩ := (finite_iff a).mp ha
  obtain ⟨n2, m2, e2, rfl⟩ := (finite_iff b).mp hb
  rw [rat_fin_eq_alignTo n1 m1 (min_le_left e1 e2), rat_fin_eq_alignTo n2 m2 (min_le_right e1 e2), ← add_mul, ← Int.cast_add]
  unfold addVal
  dsimp only
  split
  next h =>
    rw [h, Int.cast_zero, zero_mul]
    split <;> exact ⟨rfl, rat_fin_zero .., rfl⟩
  next => exact ⟨rfl, rat_fin_natAbs .., rfl⟩

theorem mulVal_exact {a b : FVal} (ha : a.finite = true) (hb : b.finite = true) :
    (mulVal a b).1.finite = true ∧ (mulVal a b).1.rat = a.rat * b.rat ∧ (mulVal a b).2 = 0 := by
  obtain ⟨n1, m1, e1, rfl⟩ := (finite_iff a).mp ha
  obtain ⟨n2, m2, e2, rfl⟩ := (finite_iff b).mp hb
  refine ⟨rfl, ?_, rfl⟩
  have hsign : (if xor n1 n2 then -1 else 1 : Rat) = (if n1 then -1 else 1) * (if n2 then -1 else 1) := by
    cases n1 <;> cases n2 <;> simp
  unfold mulVal FVal.rat
  dsimp only
  rw [hsign, zpow_add₀ two_ne_zero]
  push_cast
  ring

theorem isSnan_of_finite {v : FVal} (h : v.finite = true) : v.isSnan = false := by
  obtain ⟨n, m, e, rfl⟩ := (finite_iff v).mp h
  rfl

/-- Settles O35: sums align both values to the lower exponent, products add exponents, and a fused sum is a sum after a product. -/
theorem exactArithmetic : Obligations.ExactArithmetic := by
  intro rm a b c ha hb hc
  obtain ⟨sumFinite, sumRat, sumFlags⟩ := addVal_exact rm ha hb
  obtain ⟨mulFinite, mulRat, mulFlags⟩ := mulVal_exact ha hb
  obtain ⟨-, fmaRat, fmaFlags⟩ := addVal_exact rm mulFinite hc
  refine ⟨sumFinite, sumRat, sumFlags, mulFinite, mulRat, mulFlags, ?_, ?_⟩
  · exact fmaRat.trans (by rw [mulRat])
  · unfold fmaVal
    dsimp only
    rw [mulFlags, fmaFlags, isSnan_of_finite hc]
    rfl

end Sys2Proof.Machine
end

section
namespace Sys2Proof.Machine
open Sys2Proof

/-! # Instructions of the vector engine (R124 to R131) -/

/-! ## States seen alike -/

section
variable {s t : State} (h : s.visible = t.visible)
include h

theorem me_of_visible : s.me.visible = t.me.visible := by
  rw [State.me, ← shuttle_visible, h, here_of_visible h, shuttle_visible]
  rfl

theorem pc_of_visible : s.pc = t.pc := by
  have hpc (v : State) : v.pc = (v.me.visible.seq v.stream).pc := by rw [← visible_seq]; rfl
  rw [hpc s, hpc t, me_of_visible h, stream_of_visible h]

theorem unmarked_of_visible (ht : Unmarked t) : Unmarked s := (congrArg Shuttle.marked (me_of_visible h)).trans ht

end

/-! ## Accesses where nobody else has made one (R86, R123, R237) -/

/-- Every access on record is the issuing sequencer's own. -/
def Solo (s : State) : Prop := ∀ loc, ∀ o ∈ tagOf s.tags loc, o.agent = s.mySeq.agent

section
variable {s : State}

theorem solo_of_tags_nil (h : s.tags = []) : Solo s := fun loc o ho => by
  rw [h] at ho
  cases ho

/-- An agent does not conflict with itself. -/
theorem conflicts_own {a o : Access} (h : o.agent = a.agent) : conflicts a o = false := by
  unfold conflicts
  rw [h]
  simp

theorem racesWith_own {k : Know} {a : Access} {old : List Access} (h : ∀ o ∈ old, o.agent = a.agent) :
    racesWith k a old = false :=
  List.any_eq_false.mpr fun o ho => by simp [conflicts_own (h o ho)]

theorem vregRace_own {x : Shuttle} {n : ShNo} {k : Know} {a : Access} {tags : List (Nat × List Access)}
    (h : ∀ loc, ∀ o ∈ tagOf tags loc, o.agent = a.agent) (l : List RegNo) : vregRace x n k a tags l = none := by
  induction l with
  | nil => rfl
  | cons r rs ih =>
    have hnone : (tagOf tags (vregLoc n r.toNat)).find? (fun o => conflicts a o && decide (clockGet k.own o.agent < o.epoch)) =
        none := List.find?_eq_none.mpr fun o ho => by simp [conflicts_own (h _ o ho)]
    unfold vregRace
    rw [hnone]
    exact ih

/-- What stands on record after an access stood there before, or is the access. -/
theorem mem_tagOf_tagAll {a o : Access} {locs : List Nat} {tags : List (Nat × List Access)} {loc : Nat}
    (h : o ∈ tagOf (tagAll a locs tags) loc) : o = a ∨ o ∈ tagOf tags loc := by
  induction locs generalizing tags with
  | nil => exact .inr h
  | cons l ls ih =>
    obtain rfl | h := ih h
    · exact .inl rfl
    by_cases hl : loc = l
    · subst hl
      rw [tagOf, assocGet_assocSet, Option.getD_some] at h
      obtain rfl | h := List.mem_cons.mp h
      · exact .inl rfl
      · exact .inr (List.mem_filter.mp h).1
    · rw [tagOf, assocGet_assocSet_ne _ _ _ _ hl] at h
      exact .inr h

theorem agent_tickSeq : (s.tickSeq s.here s.stream).mySeq.agent = s.mySeq.agent := by
  change (s.modMySeq _).mySeq.agent = _
  rw [mySeq_modMySeq]

theorem Solo.tickSeq (h : Solo s) : Solo (s.tickSeq s.here s.stream) := fun loc o ho => (h loc o ho).trans agent_tickSeq.symm

theorem Solo.note (h : Solo s) {a : Access} (ha : a.agent = s.mySeq.agent) (locs : List Nat) : Solo (s.note a locs) := by
  intro loc o ho
  obtain rfl | ho := mem_tagOf_tagAll ho
  · exact ha
  · exact h loc o ho

/-- Accesses to vector registers are made where nobody else has made one. -/
theorem made_withVregs_of_solo (hm : Unmarked s) (h : Solo s) (reads writes : List RegNo) :
    ∃ s1, Made (withVregs s reads writes) s1 ∧ Solo s1 ∧ Unmarked s1 := by
  refine ⟨_, ?_, (h.tickSeq.note (a := (s.tickSeq s.here s.stream).accessOf s.here s.stream false .plain (.set [s.here])) rfl
    (reads.map fun r => vregLoc s.here r.toNat)).note
    (a := (s.tickSeq s.here s.stream).accessOf s.here s.stream true .plain (.set [s.here])) rfl
    (writes.map fun r => vregLoc s.here r.toNat), unmarked_of_visible (visible_tickSeq s s.here s.stream) hm⟩
  have hnone (write : Bool) (l : List RegNo) : vregRace s.me s.here (s.tickSeq s.here s.stream).mySeq.know
      ((s.tickSeq s.here s.stream).accessOf s.here s.stream write .plain (.set [s.here])) s.tags l = none :=
    vregRace_own (fun loc => h.tickSeq loc) l
  unfold Made withVregs
  dsimp only
  rw [hnone, hnone]
  exact unlessDamaged_of_unmarked hm _ _

theorem made_withTable_of_solo (hm : Unmarked s) (h : Solo s) (write : Bool) (kind : AccKind) (locs : List (Nat × Nat)) :
    ∃ s1, Made (withTable s write kind locs) s1 ∧ Solo s1 ∧ Unmarked s1 := by
  refine ⟨_, ?_, h.tickSeq.note (a := (s.tickSeq s.here s.stream).accessOf s.here s.stream write kind (.set [s.here])) rfl
    (locs.map fun p => ringLoc s.here p.1 p.2), unmarked_of_visible (visible_tickSeq s s.here s.stream) hm⟩
  have hnone : locs.find? (fun p => racesWith (s.tickSeq s.here s.stream).mySeq.know
      ((s.tickSeq s.here s.stream).accessOf s.here s.stream write kind (.set [s.here]))
      (tagOf (s.tickSeq s.here s.stream).tags (ringLoc s.here p.1 p.2))) = none :=
    List.find?_eq_none.mpr fun p _ => by rw [racesWith_own (h.tickSeq _)]; nofun
  unfold Made withTable
  dsimp only
  rw [hnone]
  exact unlessDamaged_of_unmarked hm _ _

end

/-! ## What is read after the pops and accesses -/

/-- What `π` reads of a shuttle has no part in clocks, tokens or credits. -/
def Untimed {α : Type} (π : Shuttle → α) : Prop := (∀ x, π x.visible = π x) ∧ ∀ x t, π (x.withCounters t) = π x

theorem untimed_uniformSkip : Untimed Shuttle.uniformSkip := ⟨fun _ => rfl, fun _ _ => rfl⟩

theorem read_seen {s u : State} {k : BitVec 4} (h : u.visible = (s.popped k).visible) {α : Type} {π : Shuttle → α}
    (hπ : Untimed π) : π u.me = π s.me := by
  rw [← hπ.1 u.me, me_of_visible h, me_popped, visible_popTokens, hπ.1, takeTokens_eq, hπ.2]

/-! ## Completion of an X instruction -/

theorem onShuttle_orStatus (bits : W64) : OnShuttle fun s => s.orStatus s.here .x bits :=
  ⟨fun _ x => x.setSeq .x { x.seq .x with status := (x.seq .x).status ||| bits },
    fun _ => beside_setSeq (f := fun q => { q with status := q.status ||| bits })
      (fun _ _ h => congrArg (fun q : Seq => { q with status := q.status ||| bits }) h) .x,
    fun _ => rfl⟩

theorem onShuttle_setEntry (i : Nat) (e : FmtEntry) : OnShuttle (State.modMe · fun x => x.setEntry i e) :=
  onShuttle_modMe ⟨fun x y h => by rw [visible_setEntry, visible_setEntry, h], fun x t => by
    unfold Shuttle.setEntry
    split <;> rfl⟩

section
variable {s s1 : State} {i : Instr} {k : BitVec 4} {masked fall : Bool} {reads writes : List RegNo} {body : State → Eff}

/-- A masked instruction whose effective mask is all zero does nothing but set WARN for a fallback of its word (R129). -/
theorem xInstr_skipped (hs : OnT s .x k) (hx : exec i s = xInstr s k true reads writes body fall)
    (hskip : s.me.uniformSkip = true) : CompletesT i k s (s.warnIf fall) := by
  refine completesT_of_popped (F := (State.warnIf · fall)) (onShuttle_warnIf fall) hs nofun hx ?_ rfl
  have hskip' : (s.popped k).me.uniformSkip = true := (read_seen rfl untimed_uniformSkip).trans hskip
  rw [if_pos rfl, readsMask, unlessDamaged_of_unmarked (unmarked_popped s k hs.2.2.1), if_pos hskip']

/-- One that is not skipped makes its register accesses and has the effect that its body then comes to. -/
theorem xInstr_completes (hs : OnT s .x k) (hx : exec i s = xInstr s k masked reads writes body fall)
    (hrun : masked = true → s.me.uniformSkip = false) (hmade : Made (withVregs (s.popped k) reads writes) s1)
    {F : State → State} (hF : OnShuttle F) (hbody : s1.visible = (s.popped k).visible → ∃ u, body s1 = .done (F u) ∧ u.visible = s1.visible) :
    CompletesT i k s (F s) := by
  obtain ⟨hseen, hgo⟩ := (goes_withVregs reads writes).of_made hmade
  obtain ⟨u, hdone, hu⟩ := hbody hseen
  refine completesT_of_popped hF hs nofun hx ?_ (hF.seen (hu.trans hseen))
  rw [← hdone, ← hgo body]
  cases masked
  · rfl
  · have hrun' : (s.popped k).me.uniformSkip = false := (read_seen rfl untimed_uniformSkip).trans (hrun rfl)
    rw [if_pos rfl, readsMask, unlessDamaged_of_unmarked (unmarked_popped s k hs.2.2.1), if_neg (by simp [hrun'])]

/-- The result of a masked instruction that reads nothing timed is written with its flags (R131). -/
theorem vecResult_completes (hs : OnT s .x k) {d : RegNo} {r : Shuttle → VReg × W64} {w : Shuttle → Bool}
    (hx : exec i s = xInstr s k true reads [d] (fun s => s.vecResult d (r s.me) (w s.me)) fall)
    (hrun : s.me.uniformSkip = false) (hfree : (s.popped k).vregsFree reads [d]) (hr : Untimed r) (hw : Untimed w) :
    CompletesT i k s (((s.setVreg d (r s.me).1).orStatus s.here .x (r s.me).2).warnIf (w s.me)) := by
  obtain ⟨s1, hmade⟩ := hfree
  refine xInstr_completes hs hx (fun _ => hrun) hmade
    ((onShuttle_warnIf _).comp ((onShuttle_orStatus _).comp (onShuttle_setVreg d _))) fun hseen => ⟨s1, ?_, rfl⟩
  rw [read_seen hseen hr, read_seen hseen hw]
  rfl

/-- An instruction of X that completes passes its word. -/
theorem passes_of_completesT (hs : OnT s .x k) {e : State} (h : CompletesT i k s e) : Passes i s := by
  obtain ⟨u, hexec, hu⟩ := h
  refine ⟨u, hexec, (pc_of_visible hu).trans ?_⟩
  unfold State.left State.leftPopped
  rw [if_neg (by rw [hs.1]; nofun), pc_setPc]

end

/-! ## Elements of a register (R124) -/

theorem packNat_lt (w : Nat) (l : List Nat) : packNat w l < 2 ^ (8 * w * l.length) := by
  induction l with
  | nil => simp [packNat]
  | cons x xs ih =>
    calc x % 2 ^ (8 * w) + 2 ^ (8 * w) * packNat w xs
        < 2 ^ (8 * w) + 2 ^ (8 * w) * packNat w xs := Nat.add_lt_add_right (Nat.mod_lt _ (Nat.two_pow_pos _)) _
      _ = 2 ^ (8 * w) * (packNat w xs + 1) := by rw [Nat.mul_succ, Nat.add_comm]
      _ ≤ 2 ^ (8 * w) * 2 ^ (8 * w * xs.length) := Nat.mul_le_mul_left _ ih
      _ = 2 ^ (8 * w * (x :: xs).length) := by rw [← pow_add, List.length_cons, Nat.mul_succ, Nat.add_comm]

theorem packNat_elem (w : Nat) {l : List Nat} {j : Nat} (h : j < l.length) :
    packNat w l / 2 ^ (8 * w * j) % 2 ^ (8 * w) = l[j] % 2 ^ (8 * w) := by
  induction l generalizing j with
  | nil => cases h
  | cons x xs ih =>
    cases j with
    | zero => simp [packNat]
    | succ j =>
      have hdiv : packNat w (x :: xs) / 2 ^ (8 * w) = packNat w xs := by
        rw [packNat, Nat.add_mul_div_left _ _ (Nat.two_pow_pos _), Nat.div_eq_of_lt (Nat.mod_lt _ (Nat.two_pow_pos _)),
          Nat.zero_add]
      rw [Nat.mul_succ, Nat.add_comm, pow_add, ← Nat.div_div_eq_div_mul, hdiv, ih (Nat.lt_of_succ_lt_succ h),
        List.getElem_cons_succ]

/-- An element packed into a register is read back, cut to its width. -/
theorem velem_packElems {w : Nat} {l : List Nat} (hl : w * l.length ≤ 512) {j : Nat} (h : j < l.length) :
    velem (packElems w l) w j = l[j] % 2 ^ (8 * w) := by
  have hle : 8 * w * l.length ≤ 4096 := by rw [Nat.mul_assoc]; omega
  have hlt := Nat.lt_of_lt_of_le (packNat_lt w l) (Nat.pow_le_pow_right Nat.two_pos hle)
  rw [velem, packElems, BitVec.toNat_ofNat, Nat.mod_eq_of_lt hlt, packNat_elem w h]

theorem velem_packElems_range (w : Nat) (f : Nat → Nat) {j : Nat} (h : j < 512 / w) :
    velem (packElems w ((List.range (velems w)).map f)) w j = f j % 2 ^ (8 * w) := by
  have hlen : ((List.range (velems w)).map f).length = 512 / w := by simp [velems]
  rw [velem_packElems (by rw [hlen]; exact Nat.mul_div_le 512 w) (hlen ▸ h)]
  simp

theorem velem_lt (v : VReg) (w j : Nat) : velem v w j < 2 ^ (8 * w) := Nat.mod_lt _ (Nat.two_pow_pos _)

/-- Flags gathered over a list are those of its members. -/
theorem foldl_or_getLsbD {α : Type} (l : List (α × W64)) (z : W64) (b : Nat) :
    (l.foldl (fun z p => z ||| p.2) z).getLsbD b = true ↔ z.getLsbD b = true ∨ ∃ p ∈ l, p.2.getLsbD b = true := by
  induction l generalizing z with
  | nil => simp
  | cons p l ih => rw [List.foldl_cons, ih, BitVec.getLsbD_or, Bool.or_eq_true, List.exists_mem_cons_iff, or_assoc]

end Sys2Proof.Machine
end

section
namespace Sys2Proof.Machine
open Sys2Proof

/-! # Extremes, captures and scales (R121, R122, R152, R153) -/

/-! ## Extremes of the segments -/

/-- A NaN has a code of its format's width as its canonical form; the integer formats have none. -/
theorem canonicalNan_lt {ty : Fmt} {c : Nat} (h : (fmtValue ty c).isNan = true) : canonicalNan ty < 2 ^ (8 * ty.width) := by
  cases ty
  case fp32 | fp16 | bf16 | zf8 => decide
  all_goals cases h

/-- One more code beside the best so far (R152). -/
def betterCode (ty : Fmt) (less : Bool) (best : Option Nat) (c : Nat) : Option Nat :=
  match best with
  | none => some c
  | some b =>
    let better := if less then totalLt (fmtValue ty c) (fmtValue ty b) else totalLt (fmtValue ty b) (fmtValue ty c)
    if better then some c else some b

theorem betterCode_cases (ty : Fmt) (less : Bool) (best : Option Nat) (c : Nat) :
    betterCode ty less best c = some c ∨ betterCode ty less best c = best := by
  cases best with
  | none => exact .inl rfl
  | some b => exact ite_eq_or_eq _ (some c) (some b)

theorem mem_of_foldl_betterCode {ty : Fmt} {less : Bool} {l : List Nat} {best : Option Nat} {c : Nat}
    (h : l.foldl (betterCode ty less) best = some c) : c ∈ l ∨ best = some c := by
  induction l generalizing best with
  | nil => exact .inr h
  | cons x l ih =>
    obtain hmem | hbest := ih h
    · exact .inl (List.mem_cons_of_mem x hmem)
    · obtain hx | hkept := betterCode_cases ty less best x
      · exact .inl (Option.some.inj (hx.symm.trans hbest) ▸ List.mem_cons_self)
      · exact .inr (hkept.symm.trans hbest)

/-- The extreme is one of the codes, or the canonical NaN where one of them is a NaN. -/
theorem extreme_cases {ty : Fmt} {less : Bool} {codes : List Nat} {c : Nat} (h : (extreme ty less codes).1 = some c) :
    c ∈ codes ∨ c = canonicalNan ty ∧ ∃ x ∈ codes, (fmtValue ty x).isNan = true := by
  unfold extreme at h
  dsimp only at h
  split at h
  next hany => exact .inr ⟨(Option.some.inj h).symm, List.any_eq_true.mp hany⟩
  next => exact .inl ((mem_of_foldl_betterCode h).resolve_right nofun)

/-- It is a code of the elements' width. -/
theorem extreme_lt {ty : Fmt} {less : Bool} {codes : List Nat} (hcodes : ∀ c ∈ codes, c < 2 ^ (8 * ty.width)) {c : Nat}
    (h : (extreme ty less codes).1 = some c) : c < 2 ^ (8 * ty.width) := by
  obtain hmem | ⟨rfl, x, -, hnan⟩ := extreme_cases h
  · exact hcodes c hmem
  · exact canonicalNan_lt hnan

/-- The codes of register `a` in segment `g`. -/
def Shuttle.segmentCodes (x : Shuttle) (a : RegNo) (ty : Fmt) (g : Nat) : List Nat :=
  (x.segment ty.width x.segLog.1 g).map fun i => velem (x.vreg a) ty.width i

/-- The extreme of each segment. -/
def Shuttle.segmentExtremes (x : Shuttle) (a : RegNo) (ty : Fmt) (less : Bool) : List (Option Nat × W64) :=
  (List.range (2 ^ x.segLog.1)).map fun g => extreme ty less (x.segmentCodes a ty g)

/-- The register and the flags that VRMAX and VRMIN come to. -/
def Shuttle.extremes (x : Shuttle) (d a : RegNo) (ty : Fmt) (less : Bool) : VReg × W64 :=
  (packElems ty.width ((List.range (velems ty.width)).map fun i =>
    match (x.segmentExtremes a ty less)[i]? with
    | some (some c, _) => c
    | _ => velem (x.vreg d) ty.width i), (x.segmentExtremes a ty less).foldl (fun z p => z ||| p.2) 0)

section
variable (x : Shuttle) (d a : RegNo) (ty : Fmt) (less : Bool)

/-- Element `j` is the extreme of segment `j`, where there is one. -/
theorem velem_extremes {j : Nat} (hj : j < 512 / ty.width) : velem (x.extremes d a ty less).1 ty.width j =
    (if j < 2 ^ x.segLog.1 then (extreme ty less (x.segmentCodes a ty j)).1 else none).getD (velem (x.vreg d) ty.width j) := by
  have hold : velem (x.vreg d) ty.width j % 2 ^ (8 * ty.width) = velem (x.vreg d) ty.width j := Nat.mod_eq_of_lt (velem_lt ..)
  have hcodes : ∀ c ∈ x.segmentCodes a ty j, c < 2 ^ (8 * ty.width) := fun c hc => by
    obtain ⟨i, -, rfl⟩ := List.mem_map.mp hc
    exact velem_lt ..
  rw [Shuttle.extremes, velem_packElems_range _ _ hj, Shuttle.segmentExtremes, List.getElem?_map]
  by_cases hseg : j < 2 ^ x.segLog.1
  · rw [if_pos hseg, List.getElem?_range hseg, Option.map_some]
    rcases hex : extreme ty less (x.segmentCodes a ty j) with ⟨_ | c, fl⟩
    · exact hold
    · exact Nat.mod_eq_of_lt (extreme_lt hcodes (congrArg Prod.fst hex))
  · rw [if_neg hseg, List.getElem?_eq_none (by simpa using hseg)]
    exact hold

theorem extremes_flags (b : Nat) : (x.extremes d a ty less).2.getLsbD b = true ↔
    ∃ g < 2 ^ x.segLog.1, (extreme ty less (x.segmentCodes a ty g)).2.getLsbD b = true := by
  rw [Shuttle.extremes, foldl_or_getLsbD, Shuttle.segmentExtremes]
  simp

theorem untimed_extremes : Untimed (Shuttle.extremes · d a ty less) := ⟨fun _ => rfl, fun _ _ => rfl⟩

end

section
variable {s : State} {d a : RegNo} {t : BitVec 3} {k : BitVec 4}

/-- What VRMAX and VRMIN settle. -/
def Shuttle.shapeSettled (x : Shuttle) : Bool := x.segLog.2 || x.vl.2

theorem extremeOp_eq (less : Bool) : extremeOp s k d a t less = xInstr s k true [a] [d] fun s =>
    s.vecResult d (s.me.extremes d a (srcType t) less) s.me.shapeSettled := by
  unfold extremeOp Shuttle.extremes Shuttle.segmentExtremes Shuttle.segmentCodes Shuttle.shapeSettled
  rfl

theorem extremeOp_completes {i : Instr} {less : Bool} (hs : OnT s .x k) (hx : exec i s = extremeOp s k d a t less)
    (hrun : s.me.uniformSkip = false) (hfree : (s.popped k).vregsFree [a] [d]) :
    CompletesT i k s (((s.setVreg d (s.me.extremes d a (srcType t) less).1).orStatus s.here .x
      (s.me.extremes d a (srcType t) less).2).warnIf s.me.shapeSettled) :=
  vecResult_completes (r := (Shuttle.extremes · d a (srcType t) less)) (w := Shuttle.shapeSettled) hs
    (hx.trans (extremeOp_eq less)) hrun hfree (untimed_extremes d a (srcType t) less) ⟨fun _ => rfl, fun _ _ => rfl⟩

end

/-! ## Captures -/

/-- The values of the enabled elements of register `a`. -/
def Shuttle.elemValues (x : Shuttle) (a : RegNo) (ty : Fmt) : List FVal :=
  (x.segment ty.width 0 0).map fun i => fmtValue ty (velem (x.vreg a) ty.width i)

/-- Those that are numbers. -/
def Shuttle.elemNumbers (x : Shuttle) (a : RegNo) (ty : Fmt) : List FVal := (x.elemValues a ty).filter fun v => !v.isNan

/-- Their greatest magnitude as FP32. -/
def Shuttle.greatest (x : Shuttle) (a : RegNo) (ty : Fmt) : Nat :=
  (x.elemNumbers a ty).foldl (fun z v => max z (magnitude32 v)) 0

/-- NV where an element is a NaN. -/
def Shuttle.nanFlag (x : Shuttle) (a : RegNo) (ty : Fmt) : W64 := if (x.elemValues a ty).any FVal.isNan then fNV else 0

/-- What VAMAX settles. -/
def Shuttle.entrySettled (x : Shuttle) : Bool := x.xEntry.2 || x.vl.2

section
variable (a : RegNo) (ty : Fmt)

theorem untimed_elemNumbers : Untimed (Shuttle.elemNumbers · a ty) := ⟨fun _ => rfl, fun _ _ => rfl⟩
theorem untimed_greatest : Untimed (Shuttle.greatest · a ty) := ⟨fun _ => rfl, fun _ _ => rfl⟩
theorem untimed_nanFlag : Untimed (Shuttle.nanFlag · a ty) := ⟨fun _ => rfl, fun _ _ => rfl⟩
theorem untimed_entrySettled : Untimed Shuttle.entrySettled := ⟨fun _ => rfl, fun _ _ => rfl⟩
theorem untimed_xEntry : Untimed Shuttle.xEntry := ⟨fun _ => rfl, fun _ _ => rfl⟩
theorem untimed_entry (i : Nat) : Untimed (Shuttle.entry · i) := ⟨fun _ => rfl, fun _ _ => rfl⟩

end

/-- Flags in exst, and WARN. -/
def State.withFlags (s : State) (fl : W64) (warn : Bool) : State := (s.orStatus s.here .x fl).warnIf warn

/-- Entry `i` of the issuing shuttle's table, with flags in exst, and WARN. -/
def State.withEntry (s : State) (i : Nat) (e : FmtEntry) (fl : W64) (warn : Bool) : State :=
  (s.modMe fun x => x.setEntry i e).withFlags fl warn

theorem onShuttle_withFlags (fl : W64) (warn : Bool) : OnShuttle (State.withFlags · fl warn) :=
  (onShuttle_warnIf warn).comp (onShuttle_orStatus fl)

theorem onShuttle_withEntry (i : Nat) (e : FmtEntry) (fl : W64) (warn : Bool) : OnShuttle (State.withEntry · i e fl warn) :=
  (onShuttle_withFlags fl warn).comp (onShuttle_setEntry i e)

section
variable {s s1 s2 : State} {a : RegNo} {t : BitVec 3} {k : BitVec 4}

theorem exec_vamax : exec (.vamax a t k) s = xInstr s k true [a] [] fun s =>
    if (s.me.elemNumbers a (srcType t)).isEmpty then .done (s.withFlags (s.me.nanFlag a (srcType t)) s.me.entrySettled)
    else
      withTable s false .plain [(s.me.xEntry.1, 15)] fun u =>
      withTable u true .capture [(s.me.xEntry.1, entryHd (u.me.entry s.me.xEntry.1).bits)] fun u =>
        .done (u.withEntry s.me.xEntry.1 ((u.me.entry s.me.xEntry.1).capture (s.me.greatest a (srcType t)))
          (s.me.nanFlag a (srcType t)) s.me.entrySettled) := by
  change execVamax a t k s = _
  unfold execVamax
  rfl

/-- Without a number among the enabled elements nothing is captured (R153). -/
theorem vamax_completes_nil (hs : OnT s .x k) (hrun : s.me.uniformSkip = false)
    (hmade : Made (withVregs (s.popped k) [a] []) s1) (hnil : s.me.elemNumbers a (srcType t) = []) :
    CompletesT (.vamax a t k) k s (s.withFlags (s.me.nanFlag a (srcType t)) s.me.entrySettled) := by
  refine xInstr_completes hs exec_vamax (fun _ => hrun) hmade (onShuttle_withFlags _ _) fun hseen => ⟨s1, ?_, rfl⟩
  rw [read_seen hseen (untimed_elemNumbers ..), hnil, if_pos List.isEmpty_nil,
    read_seen hseen (untimed_nanFlag ..),
    read_seen hseen untimed_entrySettled]

/-- The greatest magnitude is captured into the slot that the entry's head names (R121, R153). -/
theorem vamax_completes (hs : OnT s .x k) (hrun : s.me.uniformSkip = false)
    (hmade : Made (withVregs (s.popped k) [a] []) s1) (hentry : Made (withTable s1 false .plain [(s.me.xEntry.1, 15)]) s2)
    (hnums : s.me.elemNumbers a (srcType t) ≠ [])
    (hfree : s2.tableFree true .capture [(s.me.xEntry.1, entryHd (s.me.entry s.me.xEntry.1).bits)]) :
    CompletesT (.vamax a t k) k s (s.withEntry s.me.xEntry.1 ((s.me.entry s.me.xEntry.1).capture (s.me.greatest a (srcType t)))
      (s.me.nanFlag a (srcType t)) s.me.entrySettled) := by
  obtain ⟨s3, hslot⟩ := hfree
  refine xInstr_completes hs exec_vamax (fun _ => hrun) hmade (onShuttle_withEntry _ _ _ _) fun hseen => ?_
  have hm := unmarked_popped s k hs.2.2.1
  obtain ⟨hgo2, hsame2⟩ := withTable_of_made (unmarked_of_visible hseen hm) hentry
  obtain ⟨hgo3, hsame3⟩ := withTable_of_made (unmarked_of_visible (hsame2.trans hseen) hm) hslot
  refine ⟨s3, ?_, hsame3.trans hsame2⟩
  rw [read_seen hseen (untimed_elemNumbers ..),
    if_neg (by rwa [List.isEmpty_iff]),
    read_seen hseen (untimed_nanFlag ..),
    read_seen hseen (untimed_greatest ..),
    read_seen hseen untimed_entrySettled,
    read_seen hseen untimed_xEntry, hgo2,
    read_seen (hsame2.trans hseen) (untimed_entry _), hgo3,
    read_seen (hsame3.trans (hsame2.trans hseen)) (untimed_entry _)]

end

/-! ## Scales -/

section
variable (e : BitVec 128) (lo n v : Nat)

/-- A field put is read back, cut to its width. -/
theorem entryField_putEntry_same (h : lo + n ≤ 128) : entryField (putEntry e lo n v) lo n = v % 2 ^ n := by
  refine Nat.eq_of_testBit_eq fun j => ?_
  rw [entryField_testBit, Nat.testBit_mod_two_pow]
  rcases Nat.lt_or_ge j n with hj | hj
  · rw [putEntry_getLsbD _ _ _ _ (by omega), if_pos (by omega), Nat.add_sub_cancel_left]
  · rw [decide_eq_false (by omega)]
    rfl

/-- Fields beside it are as before. -/
theorem entryField_putEntry_apart {lo' n' : Nat} (h : lo' + n' ≤ lo ∨ lo + n ≤ lo') (h' : lo' + n' ≤ 128) :
    entryField (putEntry e lo n v) lo' n' = entryField e lo' n' := by
  refine Nat.eq_of_testBit_eq fun j => ?_
  rw [entryField_testBit, entryField_testBit]
  rcases Nat.lt_or_ge j n' with hj | hj
  · rw [putEntry_getLsbD _ _ _ _ (by omega), if_neg (by omega)]
  · rw [decide_eq_false (by omega)]
    rfl

end

theorem slot_setSlot (e : FmtEntry) {i : Nat} (hi : i < 12) (v : W32) {y : Nat} (hy : y < 12) :
    (e.setSlot i v).slot y = if y = i then v else e.slot y := by
  unfold FmtEntry.setSlot FmtEntry.slot
  rw [dif_pos hi, dif_pos hy, dif_pos hy]
  dsimp only
  rw [Vector.getElem_set]
  exact if_congr eq_comm rfl rfl

theorem bits_setSlot (e : FmtEntry) (i : Nat) (v : W32) : (e.setSlot i v).bits = e.bits := by
  unfold FmtEntry.setSlot
  split <;> rfl

/-- A derivation puts OSX alone, moves the head on, counts a generation and clears the slot at the head (R122). -/
theorem deriveScale_eq (e : FmtEntry) (fo : Fmt) : ∃ b : BitVec 128, entryGen b = entryGen e.bits ∧
    (deriveScale e fo).1 =
      ({ e with bits := bumpGen (putEntry b 36 4 ((entryHd e.bits + 1) % 12)) } : FmtEntry).setSlot ((entryHd e.bits + 1) % 12) 0 := by
  refine ⟨_, ?_, rfl⟩
  have hosx (v : Nat) : entryGen (putEntry e.bits 24 8 v) = entryGen e.bits :=
    entryField_putEntry_apart _ _ _ _ (by decide) (by decide)
  repeat' split
  · exact hosx _
  · rfl
  · exact hosx _

section
variable (e : FmtEntry) (fo : Fmt)

theorem entryHd_deriveScale : entryHd (deriveScale e fo).1.bits = (entryHd e.bits + 1) % 12 := by
  obtain ⟨b, -, h⟩ := deriveScale_eq e fo
  rw [h, bits_setSlot, entryHd, bumpGen, entryField_putEntry_apart _ _ _ _ (by decide) (by decide),
    entryField_putEntry_same _ _ _ _ (by decide)]
  omega

theorem entryGen_deriveScale : entryGen (deriveScale e fo).1.bits = (entryGen e.bits + 1) % 2 ^ 16 := by
  obtain ⟨b, hgen, h⟩ := deriveScale_eq e fo
  rw [h, bits_setSlot, entryGen, bumpGen, entryField_putEntry_same _ _ _ _ (by decide), entryGen,
    entryField_putEntry_apart _ _ _ _ (by decide) (by decide), ← hgen]
  rfl

theorem slot_deriveScale {y : Nat} (hy : y < 12) :
    (deriveScale e fo).1.slot y = if y = (entryHd e.bits + 1) % 12 then 0 else e.slot y := by
  obtain ⟨b, -, h⟩ := deriveScale_eq e fo
  rw [h, slot_setSlot _ (Nat.mod_lt _ (by decide)) _ hy]
  rfl

end

/-- The format whose scale is derived, and whether it was settled. -/
def FmtEntry.scaledFmt (e : FmtEntry) : Fmt × Bool := settleFmt (entryField e.bits 44 4) (fun _ => true) .fp32

/-- Entry `i` after the derivation from `e`, with its flag and WARN. -/
def State.rescaled (s : State) (i : Nat) (e : FmtEntry) (warn : Bool) : State :=
  s.withEntry i (deriveScale e e.scaledFmt.1).1 (if (deriveScale e e.scaledFmt.1).2 then fOF else 0) (warn || e.scaledFmt.2)

section
variable {s s1 s2 : State} {k : BitVec 4}

theorem exec_vdscale : exec (.vdscale k) s = xInstr s k false [] [] fun s =>
    withTable s false .plain ((List.range 12).map fun y => (s.me.xEntry.1, y)) fun u =>
    withTable u true .plain [(s.me.xEntry.1, (entryHd (u.me.entry s.me.xEntry.1).bits + 1) % 12), (s.me.xEntry.1, 15)] fun u =>
      .done (u.rescaled s.me.xEntry.1 (u.me.entry s.me.xEntry.1) s.me.xEntry.2) := by
  change execVdscale k s = _
  unfold execVdscale
  rfl

theorem vdscale_completes (hs : OnT s .x k) (hmade : Made (withVregs (s.popped k) [] []) s1)
    (hring : Made (withTable s1 false .plain ((List.range 12).map fun y => (s.me.xEntry.1, y))) s2)
    (hfree : s2.tableFree true .plain
      [(s.me.xEntry.1, (entryHd (s.me.entry s.me.xEntry.1).bits + 1) % 12), (s.me.xEntry.1, 15)]) :
    CompletesT (.vdscale k) k s (s.rescaled s.me.xEntry.1 (s.me.entry s.me.xEntry.1) s.me.xEntry.2) := by
  obtain ⟨s3, hput⟩ := hfree
  refine xInstr_completes (F := (State.rescaled · s.me.xEntry.1 (s.me.entry s.me.xEntry.1) s.me.xEntry.2)) hs exec_vdscale nofun
    hmade (onShuttle_withEntry _ _ _ _) fun hseen => ?_
  have hm := unmarked_popped s k hs.2.2.1
  obtain ⟨hgo2, hsame2⟩ := withTable_of_made (unmarked_of_visible hseen hm) hring
  obtain ⟨hgo3, hsame3⟩ := withTable_of_made (unmarked_of_visible (hsame2.trans hseen) hm) hput
  refine ⟨s3, ?_, hsame3.trans hsame2⟩
  rw [read_seen hseen untimed_xEntry, hgo2,
    read_seen (hsame2.trans hseen) (untimed_entry _), hgo3,
    read_seen (hsame3.trans (hsame2.trans hseen)) (untimed_entry _)]

end

/-! ## The statement -/

section
variable {s : State} {d a : RegNo} {t : BitVec 3} {k : BitVec 4}

/-- With nothing on record, VRMAX and VRMIN pass their words, skipped or not. -/
theorem passes_extremeOp (hs : OnT s .x k) (htags : s.tags = []) {i : Instr} {less : Bool}
    (hx : exec i s = extremeOp s k d a t less) : Passes i s := by
  cases hskip : s.me.uniformSkip
  case true => exact passes_of_completesT hs (xInstr_skipped hs hx hskip)
  case false =>
    obtain ⟨s1, hmade, -, -⟩ := made_withVregs_of_solo (unmarked_popped s k hs.2.2.1) (solo_of_tags_nil htags) [a] [d]
    exact passes_of_completesT hs (extremeOp_completes hs hx hskip ⟨s1, hmade⟩)

theorem passes_vamax (hs : OnT s .x k) (htags : s.tags = []) : Passes (.vamax a t k) s := by
  cases hskip : s.me.uniformSkip
  case true => exact passes_of_completesT hs (xInstr_skipped hs exec_vamax hskip)
  case false =>
    obtain ⟨s1, hmade, hsolo1, hm1⟩ := made_withVregs_of_solo (unmarked_popped s k hs.2.2.1) (solo_of_tags_nil htags) [a] []
    obtain ⟨s2, hentry, hsolo2, hm2⟩ := made_withTable_of_solo hm1 hsolo1 false .plain [(s.me.xEntry.1, 15)]
    obtain ⟨s3, hslot, -, -⟩ := made_withTable_of_solo hm2 hsolo2 true .capture
      [(s.me.xEntry.1, entryHd (s.me.entry s.me.xEntry.1).bits)]
    by_cases hnums : s.me.elemNumbers a (srcType t) = []
    · exact passes_of_completesT hs (vamax_completes_nil hs hskip hmade hnums)
    · exact passes_of_completesT hs (vamax_completes hs hskip hmade hentry hnums ⟨s3, hslot⟩)

theorem passes_vdscale (hs : OnT s .x k) (htags : s.tags = []) : Passes (.vdscale k) s := by
  obtain ⟨s1, hmade, hsolo1, hm1⟩ := made_withVregs_of_solo (unmarked_popped s k hs.2.2.1) (solo_of_tags_nil htags) [] []
  obtain ⟨s2, hring, hsolo2, hm2⟩ := made_withTable_of_solo hm1 hsolo1 false .plain
    ((List.range 12).map fun y => (s.me.xEntry.1, y))
  obtain ⟨s3, hput, -, -⟩ := made_withTable_of_solo hm2 hsolo2 true .plain
    [(s.me.xEntry.1, (entryHd (s.me.entry s.me.xEntry.1).bits + 1) % 12), (s.me.xEntry.1, 15)]
  exact passes_of_completesT hs (vdscale_completes hs hmade hring ⟨s3, hput⟩)

end

/-- Settles O42: a masked word that is not skipped makes its accesses, and the register or entry that it then writes is the one
the statement names. -/
theorem extremesAndCaptures : Obligations.ExtremesAndCaptures := by
  intro d a b t k s hs fx e seg w codes vals nums fl most ext
  have extremes {i : Instr} {less : Bool} (hx : exec i s = extremeOp s k d a t less) (hrun : s.me.uniformSkip = false) :
      ext i less := fun hfree =>
    ⟨_, _, extremeOp_completes hs hx hrun hfree, fun _ hj => velem_extremes _ _ _ _ _ hj, extremes_flags _ _ _ _ _⟩
  have skips {i : Instr} {reads writes : List RegNo} {body : State → Eff} (hx : exec i s = xInstr s k true reads writes body)
      (hskip : s.me.uniformSkip = true) : CompletesT i k s s := xInstr_skipped hs hx hskip
  refine ⟨fun htags => ⟨passes_extremeOp (less := false) hs htags rfl, passes_extremeOp (less := true) hs htags rfl,
    passes_vamax hs htags, passes_vdscale hs htags⟩,
    fun h => ⟨skips rfl h, skips rfl h, skips rfl h, skips rfl h, skips rfl h, skips rfl h, skips rfl h, skips rfl h,
      skips exec_vamax h⟩,
    fun hrun => ⟨extremes rfl hrun, extremes rfl hrun, fun s1 s2 hmade hentry => ⟨vamax_completes_nil hs hrun hmade,
      vamax_completes hs hrun hmade hentry⟩⟩,
    fun s1 s2 hmade hring hfree => ⟨_, vdscale_completes hs hmade hring hfree, rfl, entryHd_deriveScale ..,
      entryGen_deriveScale .., fun _ hy => slot_deriveScale _ _ hy⟩⟩

end Sys2Proof.Machine
end

section
namespace Sys2Proof.Machine
open Sys2Proof

/-! # Element-wise instructions of the vector engine (R124 to R131) -/

/-! ## The elements that a masked instruction computes -/

section
variable (x : Shuttle) (w : Nat) (old : VReg) (f : Nat → Nat × W64)

/-- An enabled element is computed, and the others are kept. -/
theorem velem_mapEnabled {j : Nat} (hj : j < 512 / w) : velem (mapEnabled x w old f).1 w j =
    if x.enabled w j then (f j).1 % 2 ^ (8 * w) else velem old w j := by
  rw [mapEnabled, List.map_map, velem_packElems_range _ _ hj, Function.comp_apply]
  split
  · rfl
  · exact Nat.mod_eq_of_lt (velem_lt ..)

/-- The flags are those of the enabled elements. -/
theorem mapEnabled_flags (b : Nat) : (mapEnabled x w old f).2.getLsbD b = true ↔
    ∃ j < 512 / w, x.enabled w j = true ∧ (f j).2.getLsbD b = true := by
  rw [mapEnabled, foldl_or_getLsbD]
  have hzero (v : W64) (c : Bool) : (if c then v else 0#64).getLsbD b = true ↔ c = true ∧ v.getLsbD b = true := by cases c <;> simp
  simp [velems, apply_ite Prod.snd, hzero]

end

/-- A result in a register, its flags in exst, and WARN. -/
def State.withResult (s : State) (d : RegNo) (r : VReg × W64) (warn : Bool) : State :=
  ((s.setVreg d r.1).orStatus s.here .x r.2).warnIf warn

theorem onShuttle_withResult (d : RegNo) (r : VReg × W64) (warn : Bool) : OnShuttle (State.withResult · d r warn) :=
  (onShuttle_warnIf warn).comp ((onShuttle_orStatus r.2).comp (onShuttle_setVreg d r.1))

section
variable {s : State} {i : Instr} {k : BitVec 4} {reads : List RegNo} {ent : List (Nat × Nat)} {d : RegNo} {w : Nat}
  {fall warn : Bool} {f g : Nat → Nat × W64}

/-- An instruction is element-wise by `f` when it is skipped with the mask all zero, and puts elements `g` that come to those of
`f` where it is not. -/
theorem elementwiseWith_of_completes (hskip : s.me.uniformSkip = true → CompletesT i k s (s.warnIf fall))
    (hrun : s.me.uniformSkip = false →
      (∃ s1, Made (withVregs (s.popped k) reads [d]) s1 ∧ (ent ≠ [] → s1.tableFree false .plain ent)) →
      CompletesT i k s (s.withResult d (mapEnabled s.me w (s.vreg d) g) (fall || warn || s.me.vl.2)))
    (hval : ∀ j < 512 / w, (g j).1 % 2 ^ (8 * w) = (f j).1 % 2 ^ (8 * w)) (hfl : ∀ j < 512 / w, (g j).2 = (f j).2) :
    ElementwiseWith fall i k reads ent d w warn f s := by
  refine ⟨hskip, fun h hfree => ⟨_, _, hrun h hfree, fun j hj => ?_, fun b => ?_⟩⟩
  · rw [velem_mapEnabled _ _ _ _ hj, hval j hj]
  · rw [mapEnabled_flags]
    exact exists_congr fun j => and_congr_right fun hj => by rw [hfl j hj]

end

/-- What is read of a shuttle by way of something untimed. -/
theorem Untimed.with {α β : Type} {r : Shuttle → β} (hr : Untimed r) {g : β → Shuttle → α} (hg : ∀ c, Untimed (g c)) :
    Untimed fun x => g (r x) x :=
  ⟨fun x => (congrArg (g · x.visible) (hr.1 x)).trans ((hg _).1 x),
    fun x t => (congrArg (g · (x.withCounters t)) (hr.2 x t)).trans ((hg _).2 x t)⟩

section
variable {s : State} {i : Instr} {k : BitVec 4} {reads : List RegNo} {d : RegNo} {w : Nat} {fall : Bool}
  {warn : Shuttle → Bool} {r : Shuttle → Nat → Nat × W64} {f : Nat → Nat × W64}

/-- An instruction that is `elementwise`, of what it reads in the shuttle, does by element what is said of it. -/
theorem elementwiseWith_of_exec (hs : OnT s .x k)
    (hx : exec i s = elementwise s k reads d w (fun s => warn s.me) (fun s => r s.me) fall) (hr : Untimed r) (hw : Untimed warn)
    (hval : ∀ j < 512 / w, (r s.me j).1 % 2 ^ (8 * w) = (f j).1 % 2 ^ (8 * w)) (hfl : ∀ j < 512 / w, (r s.me j).2 = (f j).2) :
    ElementwiseWith fall i k reads [] d w (warn s.me) f s := by
  refine elementwiseWith_of_completes (xInstr_skipped hs hx) (fun hrun hfree => ?_) hval hfl
  obtain ⟨s1, hmade, -⟩ := hfree
  exact vecResult_completes (r := fun x => mapEnabled x w (x.vreg d) (r x)) (w := fun x => fall || warn x || x.vl.2) hs hx hrun
    ⟨s1, hmade⟩ (hr.with (g := fun f x => mapEnabled x w (x.vreg d) f) fun _ => ⟨fun _ => rfl, fun _ _ => rfl⟩)
    (hw.with (g := fun b x => fall || b || x.vl.2) fun _ => ⟨fun _ => rfl, fun _ _ => rfl⟩)

end

end Sys2Proof.Machine
end

section
namespace Sys2Proof.Machine
open Sys2Proof

/-! # Float arithmetic of the vector engine (R132 to R136) -/

/-- A bit above a number is set by turning it. -/
theorem two_pow_add_eq_xor {n y : Nat} (hy : y < 2 ^ n) : 2 ^ n + y = 2 ^ n ^^^ y := by
  refine Nat.eq_of_testBit_eq fun j => ?_
  have hadd := Nat.testBit_two_pow_mul_add 1 hy j
  rw [Nat.mul_one] at hadd
  rw [hadd, Nat.testBit_xor, Nat.testBit_two_pow]
  rcases Nat.lt_or_ge j n with hj | hj
  · rw [if_pos hj, decide_eq_false (by omega), Bool.false_xor]
  · rw [if_neg (by omega), Nat.testBit_lt_two_pow (Nat.lt_of_lt_of_le hy (Nat.pow_le_pow_right Nat.two_pos hj)), Bool.xor_false,
      ← Nat.pow_zero 2, Nat.testBit_two_pow]
    exact decide_eq_decide.mpr (by omega)

/-- Turning the highest of `n + 1` bits. -/
theorem turnTop_eq_xor {n x : Nat} (hx : x < 2 ^ (n + 1)) :
    (if x / 2 ^ n % 2 = 1 then x % 2 ^ n else x % 2 ^ n + 2 ^ n) = x ^^^ 2 ^ n := by
  have hlow : x % 2 ^ n < 2 ^ n := Nat.mod_lt _ (Nat.two_pow_pos n)
  have hsplit : 2 ^ n * (x / 2 ^ n) + x % 2 ^ n = x := Nat.div_add_mod x (2 ^ n)
  have htop : x / 2 ^ n < 2 := Nat.div_lt_of_lt_mul hx
  obtain hc | hc := Nat.le_one_iff_eq_zero_or_eq_one.mp (Nat.lt_succ_iff.mp htop)
  · rw [hc, Nat.mul_zero, Nat.zero_add] at hsplit
    rw [hc, if_neg (by decide), Nat.add_comm, two_pow_add_eq_xor hlow, hsplit, Nat.xor_comm]
  · rw [hc, Nat.mul_one, two_pow_add_eq_xor hlow] at hsplit
    rw [hc, if_pos (by decide)]
    nth_rw 2 [← hsplit]
    rw [Nat.xor_comm, Nat.xor_xor_cancel_left]

theorem floatType_width_pos (t : Nat) : 0 < (floatType t).width := by
  unfold floatType
  repeat' split
  all_goals decide

/-- VNEG on codes of the type's width turns the sign bit. -/
theorem turnSign_eq_xor (t : Nat) {x : Nat} (hx : x < 2 ^ (8 * (floatType t).width)) :
    (if x / signBit (floatType t) % 2 = 1 then x % signBit (floatType t)
      else x % signBit (floatType t) + signBit (floatType t)) = x ^^^ signBit (floatType t) := by
  have hpos := floatType_width_pos t
  exact turnTop_eq_xor (by rwa [Nat.sub_add_cancel (by omega)])

/-- The canonical NaN for a NaN, with NV for a signalling one, and `c` for other codes. -/
def nanOr (ty : Fmt) (x c : Nat) : Nat × W64 :=
  if (floatValue ty x).isNan then (canonicalNan ty, if (floatValue ty x).isSnan then fNV else 0) else (c, 0)

theorem exec_vcpys (s : State) (t : BitVec 2) (d a b : RegNo) (r : BitVec 3) (k : BitVec 4) :
    exec (.vcpys t d a b r k) s =
      floatPick s k t d a b r fun ty x y => nanOr ty x (x % signBit ty + y / signBit ty * signBit ty) := by
  change execVcpys t d a b r k s = _
  unfold execVcpys
  congr 1 with ty x y : 3
  unfold nanOr
  cases floatValue ty x <;> rfl

theorem signUnary_eq (f : Nat → Nat → Nat) (ty : Fmt) (rm : RMode) (x : Nat) :
    signUnary f ty rm x = nanOr ty x (f (signBit ty) x) := by
  unfold signUnary nanOr
  cases floatValue ty x <;> rfl

section
variable {s : State} {i : Instr} {k : BitVec 4} {d a b : RegNo} {t : BitVec 2} {r : BitVec 3}

theorem floatOp_elementwise (hs : OnT s .x k) {f : RMode → FVal → FVal → FVal × W64} (hx : exec i s = floatOp s k t d a b r f) :
    let ty := floatType t.toNat
    Elementwise i k [a, b] [] d ty.width (s.me.mode r).2 (fun j =>
      let v := f (s.me.mode r).1 (floatValue ty (velem (s.vreg a) ty.width j)) (floatValue ty (velem (s.vreg b) ty.width j))
      ((roundFloat ty (s.me.mode r).1 v.1).1, (roundFloat ty (s.me.mode r).1 v.1).2 ||| v.2)) s :=
  elementwiseWith_of_exec (warn := fun x => (x.mode r).2) (r := fun x j =>
      let ty := floatType t.toNat
      let v := f (x.mode r).1 (floatValue ty (velem (x.vreg a) ty.width j)) (floatValue ty (velem (x.vreg b) ty.width j))
      ((roundFloat ty (x.mode r).1 v.1).1, (roundFloat ty (x.mode r).1 v.1).2 ||| v.2))
    hs hx ⟨fun _ => rfl, fun _ _ => rfl⟩ ⟨fun _ => rfl, fun _ _ => rfl⟩ (fun _ _ => rfl) (fun _ _ => rfl)

theorem floatPick_elementwise (hs : OnT s .x k) {f : Fmt → Nat → Nat → Nat × W64} (hx : exec i s = floatPick s k t d a b r f) :
    let ty := floatType t.toNat
    ElementwiseWith (decide (r ≠ 0)) i k [a, b] [] d ty.width false
      (fun j => f ty (velem (s.vreg a) ty.width j) (velem (s.vreg b) ty.width j)) s :=
  elementwiseWith_of_exec (warn := fun _ => false) (r := fun x j =>
      let ty := floatType t.toNat
      f ty (velem (x.vreg a) ty.width j) (velem (x.vreg b) ty.width j))
    hs hx ⟨fun _ => rfl, fun _ _ => rfl⟩ ⟨fun _ => rfl, fun _ _ => rfl⟩ (fun _ _ => rfl) (fun _ _ => rfl)

theorem fusedOp_elementwise (hs : OnT s .x k) {negP negC : Bool} (hx : exec i s = fusedOp s k t d a b r negP negC) :
    let ty := floatType t.toNat
    let val (q : RegNo) (j : Nat) : FVal := floatValue ty (velem (s.vreg q) ty.width j)
    Elementwise i k [a, b] [] d ty.width (s.me.mode r).2 (fun j =>
      let v := fmaVal (s.me.mode r).1 (if negP then (val a j).neg else val a j) (val b j) (if negC then (val d j).neg else val d j)
      ((roundFloat ty (s.me.mode r).1 v.1).1, (roundFloat ty (s.me.mode r).1 v.1).2 ||| v.2)) s :=
  elementwiseWith_of_exec (warn := fun x => (x.mode r).2) (r := fun x j =>
      let ty := floatType t.toNat
      let val (q : RegNo) : FVal := floatValue ty (velem (x.vreg q) ty.width j)
      let v := fmaVal (x.mode r).1 (if negP then (val a).neg else val a) (val b) (if negC then (val d).neg else val d)
      ((roundFloat ty (x.mode r).1 v.1).1, (roundFloat ty (x.mode r).1 v.1).2 ||| v.2))
    hs hx ⟨fun _ => rfl, fun _ _ => rfl⟩ ⟨fun _ => rfl, fun _ _ => rfl⟩ (fun _ _ => rfl) (fun _ _ => rfl)

variable {t : RegNo} {f : Fmt → RMode → Nat → Nat × W64}

/-- A unary instruction that rounds. -/
theorem unaryOp_rounds (hs : OnT s .x k) (hx : exec i s = unaryOp s k d a t r true f) :
    let ty := floatType t.toNat
    Elementwise i k [a] [] d ty.width (s.me.mode r).2 (fun j => f ty (s.me.mode r).1 (velem (s.vreg a) ty.width j)) s :=
  elementwiseWith_of_exec (warn := fun x => (x.mode r).2) (r := fun x j =>
      let ty := floatType t.toNat
      f ty (x.mode r).1 (velem (x.vreg a) ty.width j))
    hs hx ⟨fun _ => rfl, fun _ _ => rfl⟩ ⟨fun _ => rfl, fun _ _ => rfl⟩ (fun _ _ => rfl) (fun _ _ => rfl)

/-- One that does not, and comes to `g` on codes of the type's width. -/
theorem unaryOp_picks (hs : OnT s .x k) (hx : exec i s = unaryOp s k d a t r false f) {g : Fmt → Nat → Nat × W64}
    (hg : ∀ rm x, x < 2 ^ (8 * (floatType t.toNat).width) → f (floatType t.toNat) rm x = g (floatType t.toNat) x) :
    let ty := floatType t.toNat
    ElementwiseWith (decide (r ≠ 0)) i k [a] [] d ty.width false (fun j => g ty (velem (s.vreg a) ty.width j)) s :=
  elementwiseWith_of_exec (warn := fun _ => false) (r := fun x j =>
      let ty := floatType t.toNat
      f ty (x.mode r).1 (velem (x.vreg a) ty.width j))
    hs hx ⟨fun _ => rfl, fun _ _ => rfl⟩ ⟨fun _ => rfl, fun _ _ => rfl⟩
    (fun _ _ => congrArg (fun p : Nat × W64 => p.1 % _) (hg _ _ (velem_lt ..)))
    (fun _ _ => congrArg Prod.snd (hg _ _ (velem_lt ..)))

/-- An estimate of the value of a code. -/
theorem estimate_picks (hs : OnT s .x k) {g : Fmt → FVal → Nat × W64}
    (hx : exec i s = unaryOp s k d a t r false fun ty _ x => g ty (floatValue ty x)) :
    let ty := floatType t.toNat
    ElementwiseWith (decide (r ≠ 0)) i k [a] [] d ty.width false (fun j => g ty (floatValue ty (velem (s.vreg a) ty.width j))) s :=
  unaryOp_picks (g := fun ty x => g ty (floatValue ty x)) hs hx fun _ _ _ => rfl

end

/-- Settles O36: every instruction is one of four element-wise shapes; VCPYS, VABS and VNEG are said on codes. -/
theorem vectorFloat : Obligations.VectorFloat := by
  intro t t5 d a b r k s hs
  refine ⟨floatOp_elementwise (f := fun rm x y => addVal rm x y) hs rfl,
    floatOp_elementwise (f := fun rm x y => addVal rm x y.neg) hs rfl,
    floatOp_elementwise (f := fun _ x y => mulVal x y) hs rfl, floatOp_elementwise (f := fun _ x y => divVal x y) hs rfl,
    fusedOp_elementwise (negP := false) (negC := false) hs rfl, fusedOp_elementwise (negP := false) (negC := true) hs rfl,
    fusedOp_elementwise (negP := true) (negC := false) hs rfl, fusedOp_elementwise (negP := true) (negC := true) hs rfl,
    floatPick_elementwise (f := minMaxCode true) hs rfl, floatPick_elementwise (f := minMaxCode false) hs rfl, ?_, ?_⟩
  · exact floatPick_elementwise hs (exec_vcpys ..)
  refine ⟨unaryOp_picks (f := signUnary fun m x => x % m) (g := fun ty x => nanOr ty x (x % signBit ty)) hs rfl fun _ _ _ => signUnary_eq ..,
    unaryOp_picks (f := signUnary fun m x => if x / m % 2 = 1 then x % m else x % m + m) (g := fun ty x => nanOr ty x (x ^^^ signBit ty))
      hs rfl fun rm x hx => ?_,
    unaryOp_rounds (f := roundedUnary fun _ x => sqrtVal x) hs rfl, unaryOp_rounds (f := roundedUnary rintVal) hs rfl,
    estimate_picks (g := recipEstimate) hs rfl, estimate_picks (g := rsqrtEstimate) hs rfl,
    estimate_picks (g := exp2Estimate) hs rfl, estimate_picks (g := log2Estimate) hs rfl⟩
  rw [signUnary_eq, turnSign_eq_xor _ hx]

end Sys2Proof.Machine
end

section
namespace Sys2Proof.Machine
open Sys2Proof

/-! # Compares of the vector engine (R127, R137, R138) -/

/-! ## Masks -/

theorem foldr_bits_testBit (l : List Bool) (j : Nat) :
    (l.foldr (fun b n => (if b = true then 1 else 0) + 2 * n) 0).testBit j = l.getD j false := by
  induction l generalizing j with
  | nil => simp
  | cons b l ih =>
    rw [List.foldr_cons]
    cases j with
    | zero => cases b <;> simp [Nat.testBit_zero]
    | succ j => cases b <;> simp [Nat.testBit_succ, ih, Nat.add_mul_div_left]

/-- The bits of a mask are those of its list. -/
theorem maskOf_getLsbD (l : List Bool) {j : Nat} (hj : j < 512) : (maskOf l).getLsbD j = l.getD j false := by
  rw [maskOf, BitVec.getLsbD_ofNat, foldr_bits_testBit, decide_eq_true hj, Bool.true_and]

theorem maskOf_range_getLsbD (w : Nat) (f : Nat → Bool) {j : Nat} (hj : j < 512) :
    (maskOf ((List.range (velems w)).map f)).getLsbD j = (decide (j < 512 / w) && f j) := by
  rw [maskOf_getLsbD _ hj, velems, List.getD_eq_getElem?_getD, List.getElem?_map]
  by_cases h : j < 512 / w
  · simp [h]
  · simp [h]

/-- The mask of a compare, and its flags. -/
def Shuttle.compared (x : Shuttle) (w : Nat) (f : Nat → Bool × W64) : Mask × W64 :=
  let r := (List.range (velems w)).map fun i => if x.enabled w i then f i else (false, 0)
  (maskOf (r.map Prod.fst), r.foldl (fun z p => z ||| p.2) 0)

section
variable (x : Shuttle) (w : Nat) (f : Nat → Bool × W64)

theorem compared_getLsbD {j : Nat} (hj : j < 512) :
    (x.compared w f).1.getLsbD j = (decide (j < 512 / w) && x.enabled w j && (f j).1) := by
  rw [Shuttle.compared, List.map_map, maskOf_range_getLsbD _ _ hj, Function.comp_apply, Bool.and_assoc]
  cases x.enabled w j <;> rfl

theorem compared_flags (b : Nat) : (x.compared w f).2.getLsbD b = true ↔
    ∃ j < 512 / w, x.enabled w j = true ∧ (f j).2.getLsbD b = true := by
  have hzero (v : W64) (c : Bool) : (if c then v else 0#64).getLsbD b = true ↔ c = true ∧ v.getLsbD b = true := by cases c <;> simp
  rw [Shuttle.compared, foldl_or_getLsbD]
  simp [velems, apply_ite Prod.snd, hzero]

end

/-! ## What a compare does -/

theorem pushMask_of_unmarked {x : Shuttle} (h : x.marked = []) (m : Mask) : x.pushMask m = { x with masks := m :: x.masks } := by
  unfold Shuttle.pushMask Shuttle.mend
  rw [h, List.filter_nil, ← h]

/-- A mask pushed by the issuing sequencer (R127). -/
def State.withMask (s : State) (m : Mask) : State := s.modMe fun x => { x with masks := m :: x.masks }

theorem modMe_pushMask {s : State} (hs : Unmarked s) (m : Mask) : s.modMe (Shuttle.pushMask · m) = s.withMask m :=
  congrArg (s.setShuttle s.here) (pushMask_of_unmarked hs m)

theorem onShuttle_masks (f : List Mask → List Mask) : OnShuttle (State.modMe · fun x => { x with masks := f x.masks }) :=
  onShuttle_modMe ⟨fun _ _ h => congrArg (fun x : Shuttle => { x with masks := f x.masks }) h, fun _ _ => rfl⟩

theorem untimed_masks : Untimed Shuttle.masks := ⟨fun _ => rfl, fun _ _ => rfl⟩

section
variable {s : State} {i : Instr} {k : BitVec 4}

theorem pushing_of_full {e : Eff} (h : 16 ≤ s.me.masks.length) : pushing (s.popped k) e = .trapWord 0x11 := by
  unfold pushing
  rw [read_seen rfl untimed_masks, if_pos h]

theorem pushing_of_room {e : Eff} (h : s.me.masks.length < 16) : pushing (s.popped k) e = e := by
  unfold pushing
  rw [read_seen rfl untimed_masks, if_neg (by omega)]

theorem readsMask_of_unmarked (hs : Unmarked s) (e : Eff) : readsMask s e = e := unlessDamaged_of_unmarked hs _ _

variable {a b : RegNo} {w : Nat} {warn : Bool} {r : Shuttle → Nat → Bool × W64}

/-- The body of a compare of what it reads in the shuttle. -/
def compareBody (a b : RegNo) (w : Nat) (warn : Bool) (r : Shuttle → Nat → Bool × W64) (s : State) : Eff :=
  pushing s <| readsMask s <| withVregs s [a, b] [] fun s =>
    .done (((s.modMe (Shuttle.pushMask · (s.me.compared w (r s.me)).1)).orStatus s.here .x (s.me.compared w (r s.me)).2).warnIf
      (warn || s.me.vl.2))

/-- An instruction that is `comparePush` pushes the mask of what is said of each element. -/
theorem compares_of_exec (hs : OnT s .x k) (hx : exec i s = comparePush s k a b w warn fun s => r s.me) (hr : Untimed r)
    {f : Nat → Bool × W64} (hf : ∀ j, r s.me j = f j) : Compares i k a b w warn f s := by
  obtain rfl : r s.me = f := funext hf
  have hx : exec i s = runT s k (compareBody a b w warn r) := hx
  have hm := unmarked_popped s k hs.2.2.1
  refine fun hfree => ⟨fun hroom => ⟨(s.me.compared w (r s.me)).1, (s.me.compared w (r s.me)).2, ?_,
    fun j hj => compared_getLsbD _ _ _ hj, compared_flags _ _ _⟩, fun hfull => ?_⟩
  · have hF : OnShuttle fun u => ((u.withMask (s.me.compared w (r s.me)).1).orStatus u.here .x
        (s.me.compared w (r s.me)).2).warnIf (warn || s.me.vl.2) :=
      (onShuttle_warnIf _).comp ((onShuttle_orStatus _).comp (onShuttle_masks _))
    refine completesT_withVregs hF hs nofun hx ((pushing_of_room hroom).trans (readsMask_of_unmarked hm _)) hfree fun u hu =>
      ⟨_, rfl, ?_⟩
    have hcompared : u.me.compared w (r u.me) = s.me.compared w (r s.me) :=
      read_seen (π := fun x => x.compared w (r x)) hu
        (hr.with (g := fun f x => x.compared w f) fun _ => ⟨fun _ => rfl, fun _ _ => rfl⟩)
    have hvl : u.me.vl = s.me.vl := read_seen hu ⟨fun _ => rfl, fun _ _ => rfl⟩
    rw [hcompared, hvl, modMe_pushMask (unmarked_of_visible hu hm)]
    exact hF.seen hu
  · exact traps_of_popped hs nofun hx (pushing_of_full hfull)

end

section
variable {s : State} {i : Instr} {k : BitVec 4} {t a b : RegNo} {r e : BitVec 3}

/-- A float compare: whether NaNs that are quiet set NV, whether it holds of NaNs, and of which order it holds. -/
theorem floatCompare_compares (hs : OnT s .x k) {anyNan unordered : Bool} {cond : Int → Bool}
    (hx : exec i s = floatCompare s k t a b r anyNan unordered cond) :
    let ty := floatType t.toNat
    let val (q : RegNo) (j : Nat) : FVal := floatValue ty (velem (s.vreg q) ty.width j)
    Compares i k a b ty.width (decide (r ≠ 0)) (fun j =>
      if (val a j).isNan || (val b j).isNan then
        (unordered, if anyNan || ((val a j).isSnan || (val b j).isSnan) then fNV else 0)
      else (cond (cmpVal (val a j) (val b j)), 0)) s :=
  compares_of_exec (r := fun x j =>
      let ty := floatType t.toNat
      let y := floatValue ty (velem (x.vreg a) ty.width j)
      let z := floatValue ty (velem (x.vreg b) ty.width j)
      if y.isNan || z.isNan then (unordered, if anyNan || y.isSnan || z.isSnan then fNV else 0) else (cond (cmpVal y z), 0))
    hs hx ⟨fun _ => rfl, fun _ _ => rfl⟩ fun j => by rw [← Bool.or_assoc]; rfl

theorem intCompare_compares (hs : OnT s .x k) {f : Int → Int → Bool} (hx : exec i s = intCompare s k a b e f) :
    Compares i k a b (intWidth e) false (fun j => (f (intElem e (s.vreg a) j) (intElem e (s.vreg b) j), 0)) s :=
  compares_of_exec (r := fun x j => (f (intElem e (x.vreg a) j) (intElem e (x.vreg b) j), 0))
    hs hx ⟨fun _ => rfl, fun _ _ => rfl⟩ fun _ => rfl

end

/-- Settles O37: every compare is a float compare or an integer compare. -/
theorem vectorCompares : Obligations.VectorCompares := by
  intro t a b r e k s hs
  exact ⟨floatCompare_compares (anyNan := false) (unordered := false) (cond := fun c => decide (c = 0)) hs rfl,
    floatCompare_compares (anyNan := false) (unordered := true) (cond := fun c => decide (c ≠ 0)) hs rfl,
    floatCompare_compares (anyNan := true) (unordered := false) (cond := fun c => decide (c < 0)) hs rfl,
    floatCompare_compares (anyNan := true) (unordered := false) (cond := fun c => decide (c ≤ 0)) hs rfl,
    floatCompare_compares (anyNan := false) (unordered := true) (cond := fun _ => false) hs rfl,
    intCompare_compares (f := fun x y => decide (x = y)) hs rfl, intCompare_compares (f := fun x y => decide (x ≠ y)) hs rfl,
    intCompare_compares (f := fun x y => decide (x < y)) hs rfl, intCompare_compares (f := fun x y => decide (x ≤ y)) hs rfl⟩

end Sys2Proof.Machine
end

section
namespace Sys2Proof.Machine
open Sys2Proof

/-! # Integer arithmetic, logic and shifts of the vector engine (R139 to R141) -/

/-- All bits turned. -/
theorem ones_xor_eq_sub {n y : Nat} (hy : y < 2 ^ n) : (2 ^ n - 1) ^^^ y = 2 ^ n - 1 - y := by
  refine Nat.eq_of_testBit_eq fun j => ?_
  rw [Nat.sub_sub, Nat.add_comm 1, Nat.testBit_two_pow_sub_succ hy, Nat.testBit_xor, Nat.testBit_two_pow_sub_one]
  rcases Nat.lt_or_ge j n with hj | hj
  · rw [decide_eq_true hj, Bool.true_xor, Bool.true_and]
  · rw [decide_eq_false (by omega), Nat.testBit_lt_two_pow (Nat.lt_of_lt_of_le hy (Nat.pow_le_pow_right Nat.two_pos hj))]
    rfl

theorem clampTo_eq {lo hi : Int} (h : lo ≤ hi) (x : Int) : clampTo (lo, hi) x = max lo (min hi x) := by
  unfold clampTo
  dsimp only
  split
  · omega
  · split <;> omega

theorem intRange_le (e : BitVec 3) : (intRange e).1 ≤ (intRange e).2 := by
  have hpow (n : Nat) : (0 : Int) < 2 ^ n := by positivity
  have hb := hpow (8 * intWidth e - 1)
  have hu := hpow (8 * intWidth e)
  unfold intRange
  dsimp only
  split <;> dsimp only <;> omega

section
variable {s : State} {i : Instr} {k : BitVec 4} {d a b : RegNo} {e : BitVec 3}

/-- An integer instruction does what its function comes to on the elements, narrowed to their width. -/
theorem intOp_elementwise (hs : OnT s .x k) {f : Int → Int → Int × W64} (hx : exec i s = intOp s k d a b e f)
    {g : Nat → Nat × W64} (hg : ∀ j, (lowBits (8 * intWidth e) (f (intElem e (s.vreg a) j) (intElem e (s.vreg b) j)).1,
      (f (intElem e (s.vreg a) j) (intElem e (s.vreg b) j)).2) = g j) :
    Elementwise i k [a, b] [] d (intWidth e) false g s := by
  obtain rfl := funext hg
  exact elementwiseWith_of_exec (warn := fun _ => false) (r := fun x j =>
      let r := f (intElem e (x.vreg a) j) (intElem e (x.vreg b) j)
      (lowBits (8 * intWidth e) r.1, r.2))
    hs hx ⟨fun _ => rfl, fun _ _ => rfl⟩ ⟨fun _ => rfl, fun _ _ => rfl⟩ (fun _ _ => rfl) (fun _ _ => rfl)

/-- One without flags. -/
theorem intOp_computes (hs : OnT s .x k) {f g : Int → Int → Int} (hx : exec i s = intOp s k d a b e fun x y => (f x y, 0))
    (hg : ∀ x y, f x y = g x y) :
    Elementwise i k [a, b] [] d (intWidth e) false
      (fun j => (lowBits (8 * intWidth e) (g (intElem e (s.vreg a) j) (intElem e (s.vreg b) j)), 0)) s :=
  intOp_elementwise hs hx fun j => by rw [hg]

/-- A division: `zero` of the dividend, and IDZ, where the divisor is zero. -/
theorem intOp_divides (hs : OnT s .x k) {f g : Int → Int → Int} {zero : Int → Int}
    (hx : exec i s = intOp s k d a b e fun x y => if y = 0 then (zero x, idzBit) else (f x y, 0)) (hg : ∀ x y, f x y = g x y) :
    let x (j : Nat) := intElem e (s.vreg a) j
    let y (j : Nat) := intElem e (s.vreg b) j
    Elementwise i k [a, b] [] d (intWidth e) false (fun j =>
      if y j = 0 then (lowBits (8 * intWidth e) (zero (x j)), 0x80) else (lowBits (8 * intWidth e) (g (x j) (y j)), 0)) s :=
  intOp_elementwise hs hx fun j => by
    dsimp only
    split
    · rfl
    · rw [hg]

/-- An instruction on codes does what its function comes to on codes of the elements' width. -/
theorem bitOp_elementwise (hs : OnT s .x k) {f g : Nat → Nat → Nat} (hx : exec i s = bitOp s k d a b e f)
    (hg : ∀ x y, y < 2 ^ (8 * intWidth e) → f x y = g x y) :
    Elementwise i k [a, b] [] d (intWidth e) false
      (fun j => (g (velem (s.vreg a) (intWidth e) j) (velem (s.vreg b) (intWidth e) j), 0)) s :=
  elementwiseWith_of_exec (warn := fun _ => false)
    (r := fun x j => (f (velem (x.vreg a) (intWidth e) j) (velem (x.vreg b) (intWidth e) j) % 2 ^ (8 * intWidth e), 0))
    hs hx ⟨fun _ => rfl, fun _ _ => rfl⟩ ⟨fun _ => rfl, fun _ _ => rfl⟩
    (fun _ _ => (Nat.mod_mod ..).trans (congrArg (· % _) (hg _ _ (velem_lt ..)))) (fun _ _ => rfl)

/-- One with an immediate. -/
theorem immOp_elementwise (hs : OnT s .x k) {w : Nat} {f g : Nat → Nat} (hx : exec i s = immOp s k d a w f) (hg : ∀ x, f x = g x) :
    Elementwise i k [a] [] d w false (fun j => (g (velem (s.vreg a) w j), 0)) s :=
  elementwiseWith_of_exec (warn := fun _ => false) (r := fun x j => (f (velem (x.vreg a) w j) % 2 ^ (8 * w), 0))
    hs hx ⟨fun _ => rfl, fun _ _ => rfl⟩ ⟨fun _ => rfl, fun _ _ => rfl⟩
    (fun _ _ => (Nat.mod_mod ..).trans (congrArg (· % _) (hg _))) (fun _ _ => rfl)

/-- An instruction whose elements are read off the register `a`. -/
theorem codes_elementwise (hs : OnT s .x k) {reads : List RegNo} {w : Nat} {g : VReg → Nat → Nat}
    (hx : exec i s = elementwise s k reads d w (fun _ => false) fun s j => (g (s.vreg a) j, 0)) :
    Elementwise i k reads [] d w false (fun j => (g (s.vreg a) j, 0)) s :=
  elementwiseWith_of_exec (warn := fun _ => false) (r := fun x j => (g (x.vreg a) j, 0))
    hs hx ⟨fun _ => rfl, fun _ _ => rfl⟩ ⟨fun _ => rfl, fun _ _ => rfl⟩ (fun _ _ => rfl) (fun _ _ => rfl)

end

/-- Settles O38: every instruction is one of a few element-wise shapes, whose function is that of the statement on elements. -/
theorem vectorInteger : Obligations.VectorInteger := by
  intro d a b e i8 i7 i5 i4 k s hs
  have clamps := clampTo_eq (intRange_le e)
  refine ⟨intOp_computes (f := fun x y => x + y) hs rfl fun _ _ => rfl, intOp_computes (f := fun x y => x - y) hs rfl fun _ _ => rfl,
    intOp_computes (f := fun x y => x * y) hs rfl fun _ _ => rfl,
    intOp_computes (f := fun x y => x * y / 2 ^ (8 * intWidth e)) hs rfl fun _ _ => rfl,
    intOp_computes (f := fun x y => clampTo (intRange e) (x + y)) hs rfl fun _ _ => clamps _,
    intOp_computes (f := fun x y => clampTo (intRange e) (x - y)) hs rfl fun _ _ => clamps _,
    intOp_computes (f := fun x y => min x y) hs rfl fun _ _ => rfl, intOp_computes (f := fun x y => max x y) hs rfl fun _ _ => rfl,
    intOp_computes (f := fun x y => (x - y).natAbs) hs rfl fun _ _ => (Int.abs_eq_natAbs _).symm,
    intOp_divides (f := Int.tdiv) (zero := fun _ => 0) hs rfl fun _ _ => rfl,
    intOp_divides (f := fun x y => x - y * x.tdiv y) (zero := fun x => x) hs rfl fun x y => (Int.tmod_def x y).symm,
    bitOp_elementwise (f := fun x y => x &&& y) hs rfl fun _ _ _ => rfl,
    bitOp_elementwise (f := fun x y => x ||| y) hs rfl fun _ _ _ => rfl,
    bitOp_elementwise (f := fun x y => x ^^^ y) hs rfl fun _ _ _ => rfl,
    bitOp_elementwise (f := fun x y => x &&& (elemOnes e ^^^ y)) hs rfl fun x y hy => congrArg (x &&& ·) (ones_xor_eq_sub hy),
    ?_,
    bitOp_elementwise (f := fun x y => x * 2 ^ (y % (8 * intWidth e))) hs rfl fun _ _ _ => (Nat.shiftLeft_eq ..).symm,
    bitOp_elementwise (f := fun x y => x / 2 ^ (y % (8 * intWidth e))) hs rfl fun _ _ _ => (Nat.shiftRight_eq_div_pow ..).symm,
    bitOp_elementwise (f := fun x y => lowBits (8 * intWidth e) (sintOf (8 * intWidth e) x / 2 ^ (y % (8 * intWidth e))))
      hs rfl fun _ _ _ => rfl,
    immOp_elementwise (w := 4) (f := fun x => lowBits (8 * 4) (x + i8.toInt)) hs rfl fun _ => rfl,
    immOp_elementwise (w := 2) (f := fun x => lowBits (8 * 2) (x + i8.toInt)) hs rfl fun _ => rfl,
    immOp_elementwise (w := 1) (f := fun x => lowBits (8 * 1) (x + i8.toInt)) hs rfl fun _ => rfl,
    immOp_elementwise (f := fun x => x * 2 ^ i5.toNat) hs rfl fun _ => (Nat.shiftLeft_eq ..).symm,
    immOp_elementwise (f := fun x => x / 2 ^ i5.toNat) hs rfl fun _ => (Nat.shiftRight_eq_div_pow ..).symm,
    immOp_elementwise (f := fun x => shiftRightSigned 4 x i5.toNat) hs rfl fun _ => rfl,
    immOp_elementwise (f := fun x => x * 2 ^ i4.toNat) hs rfl fun _ => (Nat.shiftLeft_eq ..).symm,
    immOp_elementwise (f := fun x => x / 2 ^ i4.toNat) hs rfl fun _ => (Nat.shiftRight_eq_div_pow ..).symm,
    immOp_elementwise (f := fun x => shiftRightSigned 2 x i4.toNat) hs rfl fun _ => rfl,
    codes_elementwise (a := a) (g := fun _ _ => lowBits 32 i8.toInt) hs rfl,
    codes_elementwise (a := a) (g := fun _ _ => (roundFloat .fp32 .rne (floatValue .zf8 i8.toNat)).1) hs rfl,
    codes_elementwise (g := fun v _ => velem v 4 i7.toNat) hs rfl,
    codes_elementwise (g := fun v j => if j + i7.toNat < 128 then velem v 4 (j + i7.toNat) else 0) hs rfl,
    codes_elementwise (g := fun v j => if i7.toNat ≤ j then velem v 4 (j - i7.toNat) else 0) hs rfl⟩
  have hones (j : Nat) := ones_xor_eq_sub (velem_lt (s.vreg a) (intWidth e) j)
  have hnot := codes_elementwise (g := fun v j => elemOnes e ^^^ velem v (intWidth e) j) hs (rfl : exec (.vnot d a e k) s = _)
  simpa only [elemOnes, hones] using hnot

end Sys2Proof.Machine
end

section
namespace Sys2Proof.Machine
open Sys2Proof

/-! # Conversions, packs and permutes of the vector engine (R142 to R146) -/

/-! ## Conversion -/

/-- A conversion does not narrow (R142). -/
def widens (dst src : Fmt) : Bool := decide (src.width ≤ dst.width)

/-- What a conversion makes of element `j` of `v`, with the scale of `ent` where `sc` asks for it (R142, R143). -/
def convertElem (dst src : Fmt) (sc : Bool) (rm : RMode) (ent : BitVec 128) (v : VReg) (j : Nat) : Nat × W64 :=
  let x := fmtValue src (velem v src.width j)
  let y : FVal × W64 :=
    if !sc then (x, 0) else if src = .sp8 then mulVal x (scaleValue (settleScale (entryField ent 96 32)).1)
    else (x.scale (if widens dst src then -entryOsx ent else entryOsx ent), 0)
  let o := roundFmt dst rm y.1
  (o.1, o.2 ||| y.2)

/-- Where the converted elements of part `p` come to stand in a register that held `old` (R142). -/
def convertPart (dst src : Fmt) (p : Nat) (conv : Nat → Nat × W64) (old : VReg) (t : Nat) : Nat × W64 :=
  let n := 512 / max dst.width src.width
  if widens dst src then (if t < n then conv (p * n + t) else (velem old dst.width t, 0))
  else if p * n ≤ t ∧ t < p * n + n then conv (t - p * n) else (velem old dst.width t, 0)

/-- What a conversion of these formats settles. -/
def Shuttle.cvtSettled (x : Shuttle) (sc : Bool) (dst src : Fmt) (r : BitVec 3) : Bool :=
  ((x.mode r).2 && (sc || decide (dst.width ≤ src.width))) ||
    (sc && (x.xEntry.2 || (decide (src = .sp8) && (settleScale (entryField (x.entry x.xEntry.1).bits 96 32)).2)))

/-- The elements of a conversion, of the modes and the entry in `x` and the registers in `y`. -/
def cvtElems (d a : RegNo) (sc : Bool) (p r : BitVec 3) (f : BitVec 4) (x y : Shuttle) : Nat → Nat × W64 :=
  convertPart (cvtPair f).1 (cvtPair f).2 p.toNat
    (convertElem (cvtPair f).1 (cvtPair f).2 sc (x.mode r).1 (x.entry x.xEntry.1).bits (y.vreg a)) (y.vreg d)

/-- The end of a conversion, whose modes and entry were read in `x`. -/
def cvtResult (d a : RegNo) (sc : Bool) (p r : BitVec 3) (f : BitVec 4) (x : Shuttle) (u : State) : Eff :=
  u.vecResult d (mapEnabled u.me (cvtPair f).1.width (u.vreg d) (cvtElems d a sc p r f x u.me))
    (x.cvtSettled sc (cvtPair f).1 (cvtPair f).2 r || u.me.vl.2)

section
variable {s : State} {d a : RegNo} {sc : Bool} {p r : BitVec 3} {f k : BitVec 4}

theorem exec_vcvt : exec (.vcvt d a sc p r f k) s = xInstr s k true [a] [d] fun u =>
    if sc then withTable u false .plain [(u.me.xEntry.1, 15)] (cvtResult d a sc p r f u.me) else cvtResult d a sc p r f u.me u := by
  change execVcvt d a sc p r f k s = _
  unfold execVcvt
  dsimp only
  congr 1 with u : 2
  refine if_congr Iff.rfl (congrArg _ (funext fun t => ?_)) ?_
  all_goals
    refine congrArg₂ (State.vecResult _ d) (congrArg (mapEnabled _ _ _) (funext fun j => ?_)) ?_
    · unfold cvtElems convertPart convertElem widens
      cases decide ((cvtPair f).2.width ≤ (cvtPair f).1.width)
      · simp only [Bool.false_eq_true, if_false, decide_eq_true_eq]
        rfl
      · simp only [if_true, decide_eq_true_eq]
        rfl
    · rw [Shuttle.cvtSettled, Bool.or_right_comm, ← decide_not, decide_eq_decide.mpr not_lt]

/-- The elements that a conversion puts, and what it settles, are not of the clocks and tokens. -/
theorem cvtResult_seen {u1 u2 : State} (h1 : u1.visible = (s.popped k).visible) (h2 : u2.visible = (s.popped k).visible) :
    cvtResult d a sc p r f u1.me u2 = .done (u2.withResult d
      (mapEnabled s.me (cvtPair f).1.width (s.vreg d) (cvtElems d a sc p r f s.me s.me))
      (s.me.cvtSettled sc (cvtPair f).1 (cvtPair f).2 r || s.me.vl.2)) := by
  have helems : cvtElems d a sc p r f u1.me = cvtElems d a sc p r f s.me := read_seen h1 ⟨fun _ => rfl, fun _ _ => rfl⟩
  have hsettled : u1.me.cvtSettled sc (cvtPair f).1 (cvtPair f).2 r = s.me.cvtSettled sc (cvtPair f).1 (cvtPair f).2 r :=
    read_seen (π := fun x => x.cvtSettled sc (cvtPair f).1 (cvtPair f).2 r) h1 ⟨fun _ => rfl, fun _ _ => rfl⟩
  have hvl : u2.me.vl = s.me.vl := read_seen h2 ⟨fun _ => rfl, fun _ _ => rfl⟩
  have hmap : mapEnabled u2.me (cvtPair f).1.width (u2.vreg d) (cvtElems d a sc p r f s.me u2.me) =
      mapEnabled s.me (cvtPair f).1.width (s.vreg d) (cvtElems d a sc p r f s.me s.me) :=
    read_seen (π := fun x => mapEnabled x (cvtPair f).1.width (x.vreg d) (cvtElems d a sc p r f s.me x)) h2
      ⟨fun _ => rfl, fun _ _ => rfl⟩
  rw [cvtResult, helems, hsettled, hvl, hmap]
  rfl

theorem vcvt_elementwise (hs : OnT s .x k) :
    Elementwise (.vcvt d a sc p r f k) k [a] (if sc then [(s.me.xEntry.1, 15)] else []) d (cvtPair f).1.width
      (s.me.cvtSettled sc (cvtPair f).1 (cvtPair f).2 r) (cvtElems d a sc p r f s.me s.me) s := by
  refine elementwiseWith_of_completes (xInstr_skipped hs exec_vcvt) (fun hrun hfree => ?_) (fun _ _ => rfl) (fun _ _ => rfl)
  obtain ⟨s1, hmade, htable⟩ := hfree
  refine xInstr_completes hs exec_vcvt (fun _ => hrun) hmade (onShuttle_withResult d _ _) fun hseen => ?_
  cases sc with
  | false => exact ⟨s1, cvtResult_seen hseen hseen, rfl⟩
  | true =>
    obtain ⟨s2, hentry⟩ := htable (List.cons_ne_nil _ _)
    obtain ⟨hgo, hsame⟩ := withTable_of_made (unmarked_of_visible hseen (unmarked_popped s k hs.2.2.1)) hentry
    refine ⟨s2, ?_, hsame⟩
    rw [if_pos rfl, read_seen hseen untimed_xEntry]
    exact (hgo _).trans (cvtResult_seen hseen (hsame.trans hseen))

end

/-! ## Packs, unpacks and permutes -/

section
variable {s : State} {i : Instr} {k : BitVec 4} {d a b : RegNo} {e : BitVec 3}

/-- Narrowing to the type of half the width saturates. -/
theorem clampTo_halfRange (e : BitVec 3) (x : Int) : clampTo (halfRange e) x =
    max (if intSigned e then -2 ^ (4 * intWidth e - 1) else 0)
      (min (if intSigned e then 2 ^ (4 * intWidth e - 1) - 1 else 2 ^ (4 * intWidth e) - 1) x) := by
  have hpow (n : Nat) : (0 : Int) < 2 ^ n := by positivity
  unfold halfRange
  cases intSigned e
  · exact clampTo_eq (Int.le_sub_one_of_lt (hpow _)) x
  · exact clampTo_eq (by have := hpow (4 * intWidth e - 1); omega) x

/-- A pack of elements narrowed by `g`. -/
theorem packOp_elementwise (hs : OnT s .x k) {f g : Int → Int} (hx : exec i s = packOp s k d a b e f) (hg : ∀ x, f x = g x) :
    let n := 512 / intWidth e
    Elementwise i k [a, b] [] d (intWidth e / 2) false (fun j =>
      (lowBits (4 * intWidth e) (g (if j < n then intElem e (s.vreg a) j else intElem e (s.vreg b) (j - n))), 0)) s := by
  obtain rfl : f = g := funext hg
  exact elementwiseWith_of_exec (warn := fun _ => false) (r := fun x j => (lowBits (4 * intWidth e)
      (f (if j < 512 / intWidth e then intElem e (x.vreg a) j else intElem e (x.vreg b) (j - 512 / intWidth e))), 0))
    hs hx ⟨fun _ => rfl, fun _ _ => rfl⟩ ⟨fun _ => rfl, fun _ _ => rfl⟩ (fun _ _ => rfl) (fun _ _ => rfl)

theorem unpackOp_elementwise (hs : OnT s .x k) {off : Nat} (hx : exec i s = unpackOp s k d a e off) :
    Elementwise i k [a] [] d (2 * intWidth e) false
      (fun j => (lowBits (16 * intWidth e) (intElem e (s.vreg a) (off + j)), 0)) s :=
  elementwiseWith_of_exec (warn := fun _ => false)
    (r := fun x j => (lowBits (16 * intWidth e) (intElem e (x.vreg a) (off + j)), 0))
    hs hx ⟨fun _ => rfl, fun _ _ => rfl⟩ ⟨fun _ => rfl, fun _ _ => rfl⟩ (fun _ _ => rfl) (fun _ _ => rfl)

/-- A permute puts what it reads in the shuttle for each element. -/
theorem permOp_elementwise (hs : OnT s .x k) {reads : List RegNo} {f : Shuttle → Nat → Nat}
    (hx : exec i s = permOp s k d reads e fun s => f s.me) (hf : Untimed f) {g : Nat → Nat} (hg : ∀ j, f s.me j = g j) :
    Elementwise i k reads [] d (2 ^ e.toNat) false (fun j => (g j, 0)) s := by
  obtain rfl := funext hg
  exact elementwiseWith_of_exec (warn := fun _ => false) (r := fun x j => (f x j, 0)) hs hx
    (hf.with (g := fun c _ j => (c j, (0 : W64))) fun _ => ⟨fun _ => rfl, fun _ _ => rfl⟩)
    ⟨fun _ => rfl, fun _ _ => rfl⟩ (fun _ _ => rfl) (fun _ _ => rfl)

theorem zipOp_elementwise (hs : OnT s .x k) {off : Nat} (hx : exec i s = zipOp s k d a b e off) {g : Nat → Nat}
    (hg : ∀ j, g j = if j % 2 = 0 then velem (s.vreg a) (2 ^ e.toNat) (off + j / 2)
      else velem (s.vreg b) (2 ^ e.toNat) (off + j / 2)) :
    Elementwise i k [a, b] [] d (2 ^ e.toNat) false (fun j => (g j, 0)) s :=
  permOp_elementwise (f := fun x j => if j % 2 = 0 then velem (x.vreg a) (2 ^ e.toNat) (off + j / 2)
      else velem (x.vreg b) (2 ^ e.toNat) (off + (j - 1) / 2))
    hs hx ⟨fun _ => rfl, fun _ _ => rfl⟩ fun j => by
      rw [hg]
      split
      · rfl
      · rw [show (j - 1) / 2 = j / 2 by omega]
        rfl

theorem unzipOp_elementwise (hs : OnT s .x k) {off : Nat} (hx : exec i s = unzipOp s k d a b e off) :
    let n := 512 / 2 ^ e.toNat
    Elementwise i k [a, b] [] d (2 ^ e.toNat) false (fun j =>
      (if j < n / 2 then velem (s.vreg a) (2 ^ e.toNat) (2 * j + off) else velem (s.vreg b) (2 ^ e.toNat) (2 * j - n + off), 0)) s :=
  permOp_elementwise (f := fun x j => if j < 512 / 2 ^ e.toNat / 2 then velem (x.vreg a) (2 ^ e.toNat) (2 * j + off)
      else velem (x.vreg b) (2 ^ e.toNat) (2 * j - 512 / 2 ^ e.toNat + off))
    hs hx ⟨fun _ => rfl, fun _ _ => rfl⟩ fun _ => rfl

end

/-- Settles O39: a conversion after its accesses to the registers and the entry; packs and permutes element by element. -/
theorem vectorMoves : Obligations.VectorMoves := by
  intro d a b sc p r e f k s hs
  refine ⟨vcvt_elementwise hs, packOp_elementwise (f := clampTo (halfRange e)) hs rfl (clampTo_halfRange e),
    packOp_elementwise (f := fun x => x) hs rfl fun _ => rfl, unpackOp_elementwise (off := 0) hs rfl, unpackOp_elementwise (off := velems (intWidth e) / 2) hs rfl,
    permOp_elementwise (f := fun x j => velem (x.vreg a) (2 ^ e.toNat) (velem (x.vreg b) (2 ^ e.toNat) j % velems (2 ^ e.toNat)))
      hs rfl ⟨fun _ => rfl, fun _ _ => rfl⟩ fun _ => rfl,
    permOp_elementwise (f := fun x j =>
        let y := velem (x.vreg d) (2 ^ e.toNat) j % (2 * velems (2 ^ e.toNat))
        if y < velems (2 ^ e.toNat) then velem (x.vreg a) (2 ^ e.toNat) y
        else velem (x.vreg b) (2 ^ e.toNat) (y - velems (2 ^ e.toNat)))
      hs rfl ⟨fun _ => rfl, fun _ _ => rfl⟩ fun _ => rfl,
    zipOp_elementwise (off := 0) hs rfl fun j => by rw [Nat.zero_add],
    zipOp_elementwise (off := velems (2 ^ e.toNat) / 2) hs rfl fun _ => rfl,
    unzipOp_elementwise (off := 0) hs rfl, unzipOp_elementwise (off := 1) hs rfl,
    permOp_elementwise (f := fun x j => velem (x.vreg a) (2 ^ e.toNat) (velems (2 ^ e.toNat) - 1 - j))
      hs rfl ⟨fun _ => rfl, fun _ _ => rfl⟩ fun _ => rfl⟩

end Sys2Proof.Machine
end

section
namespace Sys2Proof.Machine
open Sys2Proof

/-! # Broadcasts from the queue, wide unpacks, select and the mask stack (R127, R128, R144, R146, R147) -/

section
variable (s : State)

/-- No flag set leaves a status as it is. -/
@[simp] theorem orStatus_zero (n : ShNo) (st : Stream) : s.orStatus n st 0 = s := by
  have hor : (fun q : Seq => { q with status := q.status ||| 0 }) = fun q => q :=
    funext fun q => congrArg (fun w => { q with status := w }) BitVec.or_zero
  unfold State.orStatus State.modSeq State.modShuttle
  rw [hor]
  dsimp only
  rw [setSeq_seq, setShuttle_shuttle]

theorem withResult_zero (d : RegNo) (v : VReg) (warn : Bool) : s.withResult d (v, 0) warn = (s.setVreg d v).warnIf warn := by
  rw [State.withResult, orStatus_zero]

end

/-- Elements without flags set none. -/
theorem mapEnabled_noFlags (x : Shuttle) (w : Nat) (old : VReg) (f : Nat → Nat) :
    mapEnabled x w old (fun j => (f j, 0)) = ((mapEnabled x w old fun j => (f j, 0)).1, 0) :=
  Prod.ext rfl (BitVec.eq_of_getLsbD_eq fun b _ => Bool.eq_iff_iff.mpr ((mapEnabled_flags ..).trans (by simp)))

/-! ## VBCQ -/

/-- What a masked instruction is skipped and computed by. -/
def Shuttle.vectors (x : Shuttle) : List Mask × W64 × Vector VReg 32 := (x.masks, x.shp, x.vregs)

section
variable {x y : Shuttle} (h : x.vectors = y.vectors)
include h

theorem masks_of_vectors : x.masks = y.masks := congrArg Prod.fst h
theorem shp_of_vectors : x.shp = y.shp := congrArg (·.2.1) h
theorem vregs_of_vectors : x.vregs = y.vregs := congrArg (·.2.2) h

theorem uniformSkip_of_vectors : x.uniformSkip = y.uniformSkip := by
  unfold Shuttle.uniformSkip
  rw [masks_of_vectors h]

theorem vl_of_vectors : x.vl = y.vl := by
  unfold Shuttle.vl
  rw [shp_of_vectors h]

theorem mapEnabled_of_vectors (w : Nat) (d : RegNo) (f : Nat → Nat × W64) :
    mapEnabled x w (x.vreg d) f = mapEnabled y w (y.vreg d) f := by
  have hvreg : x.vreg d = y.vreg d := by
    unfold Shuttle.vreg
    rw [vregs_of_vectors h]
  have henabled : x.enabled w = y.enabled w := by
    unfold Shuttle.enabled Shuttle.active Shuttle.effMask
    rw [vl_of_vectors h, masks_of_vectors h]
  rw [hvreg, mapEnabled, mapEnabled, henabled]

end

theorem untimed_vectors : Untimed Shuttle.vectors := ⟨fun _ => rfl, fun _ _ => rfl⟩

section
variable {s : State} {k : BitVec 4} {d : RegNo} {e : BitVec 3} {q : QEntry} {r : List QEntry}

theorem vectors_taken (kn : Know) : (s.taken r kn).me.vectors = s.me.vectors := by
  rw [me_taken]
  cases s.stream <;> rfl

/-- The end of VBCQ, with the value that it popped. -/
def broadcast (d : RegNo) (w : Nat) (v : W64) (s : State) : Eff :=
  s.vecResult d (mapEnabled s.me w (s.vreg d) fun _ => (v.toNat % 2 ^ (8 * w), 0)) s.me.vl.2

/-- It puts the value in the enabled elements, of which it may be read in any shuttle with the same masks, shape and registers. -/
theorem broadcast_of_vectors {u : State} {y : Shuttle} (h : u.me.vectors = y.vectors) (w : Nat) (v : W64) :
    broadcast d w v u =
      .done ((u.setVreg d (mapEnabled y w (y.vreg d) fun _ => (v.toNat % 2 ^ (8 * w), 0)).1).warnIf y.vl.2) := by
  have hresult : broadcast d w v u =
      .done (u.withResult d (mapEnabled u.me w (u.me.vreg d) fun _ => (v.toNat % 2 ^ (8 * w), 0)) u.me.vl.2) := rfl
  rw [hresult, mapEnabled_of_vectors h, vl_of_vectors h, mapEnabled_noFlags y w (y.vreg d) fun _ => v.toNat % 2 ^ (8 * w),
    withResult_zero]

theorem exec_vbcq : exec (.vbcq d e k) s = runT s k fun s => popScalar s fun s v => readsMask s <|
    if s.me.uniformSkip then .done s else withVregs s [] [d] (broadcast d (permWidth e) v) := rfl

/-- After its pop VBCQ is a masked instruction, skipped with the mask all zero. -/
theorem vbcq_body (hs : OnT s .x k) (hq : s.me.inbound .x = q :: r) :
    (popScalar (s.popped k) fun s v => readsMask s <|
      if s.me.uniformSkip then .done s else withVregs s [] [d] (broadcast d (permWidth e) v)) =
    if s.me.uniformSkip then .done ((s.popped k).taken r q.know)
    else withVregs ((s.popped k).taken r q.know) [] [d] (broadcast d (permWidth e) q.val) := by
  have hm := unmarked_popped s k hs.2.2.1
  have hskip : ((s.popped k).taken r q.know).me.uniformSkip = s.me.uniformSkip :=
    uniformSkip_of_vectors ((vectors_taken _).trans (read_seen rfl untimed_vectors))
  have hin : (s.popped k).me.inbound (s.popped k).stream = q :: r := by rw [stream_popped, hs.1, inbound_popped, hq]
  rw [popScalar_of_cons hm hin, readsMask_of_unmarked (unmarked_taken _ _ _ hm), hskip]

theorem vbcq_skipped (hs : OnT s .x k) (hq : s.me.inbound .x = q :: r) (hskip : s.me.uniformSkip = true) :
    CompletesT (.vbcq d e k) k s (s.tookEntry r) :=
  completesT_of_popped (onShuttle_tookEntry r) hs nofun exec_vbcq ((vbcq_body hs hq).trans (if_pos hskip)) (visible_taken ..)

theorem vbcq_completes (hs : OnT s .x k) (hq : s.me.inbound .x = q :: r) (hrun : s.me.uniformSkip = false)
    (hfree : ∃ s1, popScalar (s.popped k) (fun z _ => withVregs z [] [d] .done) = .done s1) :
    CompletesT (.vbcq d e k) k s (((s.tookEntry r).setVreg d (mapEnabled s.me (permWidth e) (s.vreg d)
      fun _ => (q.val.toNat % 2 ^ (8 * permWidth e), 0)).1).warnIf s.me.vl.2) := by
  obtain ⟨s1, hmade⟩ := hfree
  have hin : (s.popped k).me.inbound (s.popped k).stream = q :: r := by rw [stream_popped, hs.1, inbound_popped, hq]
  rw [popScalar_of_cons (unmarked_popped s k hs.2.2.1) hin] at hmade
  have hput := (onShuttle_warnIf s.me.vl.2).comp (onShuttle_setVreg d
    (mapEnabled s.me (permWidth e) (s.vreg d) fun _ => (q.val.toNat % 2 ^ (8 * permWidth e), 0)).1)
  refine completesT_withVregs (hput.comp (onShuttle_tookEntry r)) hs nofun exec_vbcq
    ((vbcq_body hs hq).trans (if_neg (Bool.eq_false_iff.mp hrun))) ⟨s1, hmade⟩ fun u hu =>
    ⟨_, broadcast_of_vectors ?_ _ _, hput.seen (hu.trans (visible_taken ..))⟩
  rw [← untimed_vectors.1, me_of_visible hu, untimed_vectors.1, vectors_taken]
  exact read_seen rfl untimed_vectors

end

/-! ## VUNSP and VSEL -/

/-- The value of an SP8 code, whose zero has no sign (R144). -/
def unsignedZero : FVal → FVal
  | .fin n m x => if m = 0 then .fin false 0 x else .fin n m x
  | v => v

/-- The BF16 elements of half of an SP8 register, from element `off`, in the enabled elements of `old`. -/
def unpackHalf (x : Shuttle) (v : VReg) (old : VReg) (off : Nat) : VReg :=
  (mapEnabled x 2 old fun j => ((roundFloat .bf16 .rne (unsignedZero (fmtValue .sp8 (velem v 1 (off + j))))).1, 0)).1

/-- Each active element of `a` or `b` by the mask, and the others of `d` (R147). -/
def Shuttle.selected (x : Shuttle) (d a b : RegNo) (w : Nat) : VReg :=
  packElems w ((List.range (velems w)).map fun j =>
    if x.active w j then (if x.effMask.getLsbD j then velem (x.vreg a) w j else velem (x.vreg b) w j) else velem (x.vreg d) w j)

theorem velem_selected (x : Shuttle) (d a b : RegNo) (w : Nat) {j : Nat} (hj : j < 512 / w) :
    velem (x.selected d a b w) w j =
      if x.active w j then (if x.effMask.getLsbD j then velem (x.vreg a) w j else velem (x.vreg b) w j)
      else velem (x.vreg d) w j := by
  rw [Shuttle.selected, velem_packElems_range _ _ hj]
  refine Nat.mod_eq_of_lt ?_
  repeat' split
  all_goals exact velem_lt ..

section
variable {s : State} {k : BitVec 4} {d a b : RegNo} {e : BitVec 3}

theorem exec_vunsp : exec (.vunsp d a k) s = xInstr s k true [a] [d, d + 1] fun s =>
    .done (((s.setVreg d (unpackHalf s.me (s.vreg a) (s.vreg d) 0)).setVreg (d + 1)
      (unpackHalf s.me (s.vreg a) (s.vreg (d + 1)) 256)).warnIf s.me.vl.2) := rfl

theorem vunsp_completes (hs : OnT s .x k) (hrun : s.me.uniformSkip = false) (hfree : (s.popped k).vregsFree [a] [d, d + 1]) :
    CompletesT (.vunsp d a k) k s (((s.setVreg d (unpackHalf s.me (s.vreg a) (s.vreg d) 0)).setVreg (d + 1)
      (unpackHalf s.me (s.vreg a) (s.vreg (d + 1)) 256)).warnIf s.me.vl.2) := by
  obtain ⟨s1, hmade⟩ := hfree
  refine xInstr_completes hs exec_vunsp (fun _ => hrun) hmade
    ((onShuttle_warnIf _).comp ((onShuttle_setVreg _ _).comp (onShuttle_setVreg d _))) fun hseen => ⟨s1, ?_, rfl⟩
  have hhalf (r : RegNo) (off : Nat) : unpackHalf s1.me (s1.vreg a) (s1.vreg r) off = unpackHalf s.me (s.vreg a) (s.vreg r) off :=
    read_seen (π := fun x => unpackHalf x (x.vreg a) (x.vreg r) off) hseen ⟨fun _ => rfl, fun _ _ => rfl⟩
  rw [hhalf, hhalf, read_seen (π := Shuttle.vl) hseen ⟨fun _ => rfl, fun _ _ => rfl⟩]

theorem velem_unpackHalf (x : Shuttle) (v old : VReg) (off : Nat) {j : Nat} (hj : j < 256) :
    velem (unpackHalf x v old off) 2 j = if x.enabled 2 j then
      (roundFloat .bf16 .rne (unsignedZero (fmtValue .sp8 (velem v 1 (off + j))))).1 % 65536 else velem old 2 j :=
  velem_mapEnabled _ _ _ _ hj

theorem exec_vsel : exec (.vsel d a b e k) s = xInstr s k false [a, b] [d] fun s => readsMask s <|
    s.vecResult d (s.me.selected d a b (permWidth e), 0) s.me.vl.2 := rfl

theorem vsel_completes (hs : OnT s .x k) (hfree : (s.popped k).vregsFree [a, b] [d]) :
    CompletesT (.vsel d a b e k) k s ((s.setVreg d (s.me.selected d a b (permWidth e))).warnIf s.me.vl.2) := by
  obtain ⟨s1, hmade⟩ := hfree
  refine xInstr_completes hs exec_vsel nofun hmade ((onShuttle_warnIf _).comp (onShuttle_setVreg d _)) fun hseen => ⟨s1, ?_, rfl⟩
  have hselected : s1.me.selected d a b (permWidth e) = s.me.selected d a b (permWidth e) :=
    read_seen (π := fun x => x.selected d a b (permWidth e)) hseen ⟨fun _ => rfl, fun _ _ => rfl⟩
  rw [readsMask_of_unmarked (unmarked_of_visible hseen (unmarked_popped s k hs.2.2.1)), hselected,
    read_seen (π := Shuttle.vl) hseen ⟨fun _ => rfl, fun _ _ => rfl⟩, ← withResult_zero]
  rfl

end

/-! ## The mask stack -/

section
variable {s : State} {k : BitVec 4} {d a : RegNo} {e : BitVec 3}

theorem exec_mpushr : exec (.mpushr a k) s = runT s k fun s => pushing s <| readsMask s <| withVregs s [a] [] fun s =>
    .done (s.modMe fun x => x.pushMask (x.effMask &&& (s.vreg a).setWidth 512)) := rfl

theorem mpushr_completes (hs : OnT s .x k) (hfree : (s.popped k).vregsFree [a] []) (hroom : s.me.masks.length < 16) :
    CompletesT (.mpushr a k) k s (s.withMask (s.me.effMask &&& (s.vreg a).setWidth 512)) := by
  have hm := unmarked_popped s k hs.2.2.1
  refine completesT_withVregs (onShuttle_masks _) hs nofun exec_mpushr
    ((pushing_of_room hroom).trans (readsMask_of_unmarked hm _)) hfree fun u hu => ⟨_, rfl, ?_⟩
  have hmask : u.me.effMask &&& (u.vreg a).setWidth 512 = s.me.effMask &&& (s.vreg a).setWidth 512 :=
    read_seen (π := fun x => x.effMask &&& (x.vreg a).setWidth 512) hu ⟨fun _ => rfl, fun _ _ => rfl⟩
  have hput : (u.modMe fun x => x.pushMask (x.effMask &&& (u.vreg a).setWidth 512)) =
      u.modMe (Shuttle.pushMask · (u.me.effMask &&& (u.vreg a).setWidth 512)) := rfl
  rw [hput, hmask, modMe_pushMask (unmarked_of_visible hu hm)]
  exact (onShuttle_masks _).seen hu

theorem exec_msave : exec (.msave d k) s = xInstr s k false [] [d] fun s => readsMask s <|
    .done (s.setVreg d (s.me.effMask.setWidth 4096)) := rfl

theorem msave_completes (hs : OnT s .x k) (hfree : (s.popped k).vregsFree [] [d]) :
    CompletesT (.msave d k) k s (s.setVreg d (s.me.effMask.setWidth 4096)) := by
  obtain ⟨s1, hmade⟩ := hfree
  refine xInstr_completes hs exec_msave nofun hmade (onShuttle_setVreg d _) fun hseen => ⟨s1, ?_, rfl⟩
  rw [readsMask_of_unmarked (unmarked_of_visible hseen (unmarked_popped s k hs.2.2.1)),
    read_seen (π := Shuttle.effMask) hseen ⟨fun _ => rfl, fun _ _ => rfl⟩]

/-- An instruction that takes the mask on top, or traps where none stands (R147). -/
def popMask (s : State) (f : Mask → List Mask → Eff) : Eff :=
  match s.me.masks with
  | [] => .trapWord 0x12
  | m :: r => f m r

theorem popMask_of_nil {f : Mask → List Mask → Eff} (h : s.me.masks = []) : popMask (s.popped k) f = .trapWord 0x12 := by
  rw [popMask, read_seen rfl untimed_masks, h]

theorem popMask_of_cons {f : Mask → List Mask → Eff} {m : Mask} {r : List Mask} (h : s.me.masks = m :: r) :
    popMask (s.popped k) f = f m r := by
  rw [popMask, read_seen rfl untimed_masks, h]

theorem exec_mpop : exec (.mpop k) s = runT s k fun s => popMask s fun _ r => .done (s.modMe fun x => { x with masks := r }) := rfl

theorem exec_minv : exec (.minv e k) s = runT s k fun s => popMask s fun m r =>
    readsMask s <| unlessDamaged s (if r = [] then [] else [damage 4 (r.length - 1)]) <|
    .done ((s.modMe fun x => { x with masks := (x.parentMask &&& ~~~m &&& x.actMask (permWidth e)) :: r }).warnIf s.me.vl.2) := rfl

theorem exec_mclr : exec (.mclr k) s = runT s k fun s => .done (s.modMe fun x => { x with masks := [] }) := rfl

/-- The mask that MINV puts in place of `m`, which stood on the stack `r`. -/
def Shuttle.inverted (x : Shuttle) (w : Nat) (m : Mask) (r : List Mask) : Mask := r.headD allOnes &&& ~~~m &&& x.actMask w

theorem inverted_getLsbD (x : Shuttle) (w : Nat) (m : Mask) (r : List Mask) {j : Nat} (hj : j < 512) :
    (x.inverted w m r).getLsbD j =
      (decide (j < 512 / w) && x.active w j && (r.headD (BitVec.allOnes 512)).getLsbD j && !m.getLsbD j) := by
  rw [Shuttle.inverted, BitVec.getLsbD_and, BitVec.getLsbD_and, BitVec.getLsbD_not, Shuttle.actMask,
    maskOf_range_getLsbD _ _ hj, decide_eq_true hj, Bool.true_and, Bool.and_comm, Bool.and_assoc _ _ (!_)]
  rfl

section
variable {m : Mask} {r : List Mask}

theorem mpop_completes (hs : OnT s .x k) (hmasks : s.me.masks = m :: r) :
    CompletesT (.mpop k) k s (s.modMe fun x => { x with masks := r }) :=
  completesT_of_popped (onShuttle_masks fun _ => r) hs nofun exec_mpop (popMask_of_cons hmasks) rfl

theorem minv_completes (hs : OnT s .x k) (hmasks : s.me.masks = m :: r) :
    CompletesT (.minv e k) k s ((s.modMe fun x => { x with masks := s.me.inverted (permWidth e) m r :: r }).warnIf s.me.vl.2) := by
  have hm := unmarked_popped s k hs.2.2.1
  have hmasks' : (s.popped k).me.masks = m :: r := (read_seen rfl untimed_masks).trans hmasks
  have hact : (s.popped k).me.actMask (permWidth e) = s.me.actMask (permWidth e) :=
    read_seen (π := fun x => x.actMask (permWidth e)) rfl ⟨fun _ => rfl, fun _ _ => rfl⟩
  have hvl : (s.popped k).me.vl = s.me.vl := read_seen rfl ⟨fun _ => rfl, fun _ _ => rfl⟩
  have hinverted : (s.popped k).me.parentMask &&& ~~~m &&& (s.popped k).me.actMask (permWidth e) = s.me.inverted (permWidth e) m r := by
    rw [Shuttle.parentMask, hmasks', List.tail_cons, hact]
    rfl
  refine completesT_of_popped ((onShuttle_warnIf _).comp (onShuttle_masks fun _ => s.me.inverted (permWidth e) m r :: r)) hs nofun
    exec_minv ((popMask_of_cons hmasks).trans ((readsMask_of_unmarked hm _).trans (unlessDamaged_of_unmarked hm _ _))) ?_
  have hput : ((s.popped k).modMe fun x => { x with masks := (x.parentMask &&& ~~~m &&& x.actMask (permWidth e)) :: r }) =
      (s.popped k).modMe fun x =>
        { x with masks := ((s.popped k).me.parentMask &&& ~~~m &&& (s.popped k).me.actMask (permWidth e)) :: r } := rfl
  rw [hput, hinverted, hvl]

end

end

/-- Settles O40: after its pop of the queue VBCQ is a masked instruction; the others are their results, masks and traps. -/
theorem broadcastsAndMasks : Obligations.BroadcastsAndMasks := by
  intro d a b e k s hs
  refine ⟨waits_popScalar hs nofun exec_vbcq, fun q r hq hskip => vbcq_skipped hs hq hskip,
    fun q r hq hrun hfree => ⟨_, vbcq_completes hs hq hrun hfree, fun j hj => ?_⟩,
    fun hskip => (xInstr_skipped hs exec_vunsp hskip :), fun hrun hfree => ⟨_, _, vunsp_completes hs hrun hfree, fun j hj => ?_⟩,
    fun hfree => ⟨_, vsel_completes hs hfree, fun j hj => velem_selected _ _ _ _ _ hj⟩,
    fun hfree => ⟨mpushr_completes hs hfree, fun hfull => traps_of_popped hs nofun exec_mpushr (pushing_of_full hfull)⟩,
    msave_completes hs,
    fun hnil => ⟨traps_of_popped hs nofun exec_minv (popMask_of_nil hnil), traps_of_popped hs nofun exec_mpop (popMask_of_nil hnil)⟩,
    fun m r hmasks => ⟨mpop_completes hs hmasks, _, minv_completes hs hmasks, fun j hj => inverted_getLsbD _ _ _ _ hj⟩,
    completesT_of_popped (onShuttle_masks fun _ => []) hs nofun exec_mclr rfl rfl⟩
  · refine (velem_mapEnabled _ (permWidth e) _ _ hj).trans ?_
    rw [Nat.mod_mod]
    rfl
  · have hzero := velem_unpackHalf s.me (s.vreg a) (s.vreg d) 0 hj
    rw [Nat.zero_add] at hzero
    exact ⟨hzero, velem_unpackHalf s.me (s.vreg a) (s.vreg (d + 1)) 256 hj⟩

end Sys2Proof.Machine
end

section
namespace Sys2Proof.Machine
open Sys2Proof

/-! # Reductions and scans (R148 to R151) -/

/-! ## Results through the entry of the shape register -/

section
variable {s : State} {i : Instr} {k : BitVec 4} {reads : List RegNo} {d : RegNo}
  {r : Nat × Bool → Shuttle → VReg × W64} {w : Nat × Bool → Shuttle → Bool}

/-- A masked instruction that reads its entry after its registers, and then writes its result. -/
theorem entryResult_completes (hs : OnT s .x k)
    (hx : exec i s = xInstr s k true reads [d] fun u => withTable u false .plain [(u.me.xEntry.1, 15)] fun t =>
      t.vecResult d (r u.me.xEntry t.me) (w u.me.xEntry t.me))
    (hrun : s.me.uniformSkip = false) (hr : ∀ fx, Untimed (r fx)) (hw : ∀ fx, Untimed (w fx))
    (hfree : ∃ s1, Made (withVregs (s.popped k) reads [d]) s1 ∧ s1.tableFree false .plain [(s.me.xEntry.1, 15)]) :
    CompletesT i k s (s.withResult d (r s.me.xEntry s.me) (w s.me.xEntry s.me)) := by
  obtain ⟨s1, hmade, s2, hentry⟩ := hfree
  refine xInstr_completes hs hx (fun _ => hrun) hmade (onShuttle_withResult d _ _) fun hseen => ?_
  obtain ⟨hgo, hsame⟩ := withTable_of_made (unmarked_of_visible hseen (unmarked_popped s k hs.2.2.1)) hentry
  refine ⟨s2, ?_, hsame⟩
  rw [read_seen hseen untimed_xEntry, hgo, read_seen (hsame.trans hseen) (hr _), read_seen (hsame.trans hseen) (hw _)]
  rfl

end

/-! ## Reductions -/

/-- The results of `n` segments written from element 0 at width `w`, with the flags of all. -/
def writeCells (old : VReg) (w n : Nat) (cell : Nat → Nat × W64) : VReg × W64 :=
  let res := (List.range n).map cell
  (writeFirst old w ((res.take (512 / w)).map Prod.fst), res.foldl (fun z p => z ||| p.2) 0)

section
variable (old : VReg) (w n : Nat) (cell : Nat → Nat × W64)

theorem velem_writeCells {j : Nat} (hj : j < 512 / w) : velem (writeCells old w n cell).1 w j =
    if j < n then (cell j).1 % 2 ^ (8 * w) else velem old w j := by
  rw [writeCells, writeFirst, velem_packElems_range _ _ hj]
  by_cases hn : j < n
  · simp [hn, hj]
  · simpa [hn] using Nat.mod_eq_of_lt (velem_lt old w j)

theorem writeCells_flags (b : Nat) :
    (writeCells old w n cell).2.getLsbD b = true ↔ ∃ g < n, (cell g).2.getLsbD b = true := by
  rw [writeCells, foldl_or_getLsbD]
  simp

end

/-- The output conversion of an entry for reductions (R117, R149). -/
def FmtEntry.reduceOut (e : FmtEntry) : OutConv × Bool := settleOut e.bits (fun f => decide (f ≠ .sp8 ∧ f ≠ .xa64)) .fp32

/-- A cell at the anchor of the entry converted for its output, with its own flags (R149). -/
def FmtEntry.outCell (e : FmtEntry) (o : OutConv) (c : Acc × W64) : Nat × W64 :=
  let r := outputCell o 128 (entryAnc e.bits - 96) c.1
  (r.1, r.2 ||| c.2)

/-- The cell of the contributions `f` of a segment's elements. -/
def Shuttle.segmentCell (x : Shuttle) (e : FmtEntry) (ty : Fmt) (f : Nat → FVal × W64) (g : Nat) : Acc × W64 :=
  sumCell (entryAnc e.bits) (Acc.empty, 0) ((x.segment ty.width x.segLog.1 g).map f)

/-- The raw cell `g` of `v` added (R150). -/
def rawCell (v : VReg) (anc : Int) (c : Acc × W64) (g : Nat) : Acc × W64 :=
  if g < 32 then sumCell anc c [(valueOfInt (sintOf 128 (velem v 16 g)) (anc - 96), 0)] else c

/-- The register and flags that a reduction comes to, of the contributions `f` and what `more` adds to each cell. -/
def Shuttle.reduced (x : Shuttle) (d : RegNo) (e : FmtEntry) (ty : Fmt) (f : Nat → FVal × W64)
    (more : Acc × W64 → Nat → Acc × W64) : VReg × W64 :=
  writeCells (x.vreg d) e.reduceOut.1.fo.width (2 ^ x.segLog.1) fun g =>
    e.outCell e.reduceOut.1 (more (x.segmentCell e ty f g) g)

/-- What a reduction settles, or cannot write. -/
def Shuttle.reduceSettled (x : Shuttle) (fx : Nat × Bool) : Bool :=
  let e := x.entry fx.1
  fx.2 || e.reduceOut.2 || x.segLog.2 || x.vl.2 || decide (512 / e.reduceOut.1.fo.width < 2 ^ x.segLog.1)

section
variable {s : State} {i : Instr} {k : BitVec 4} {d a b : RegNo} {t : BitVec 3} {reads : List RegNo}

/-- An instruction is a reduction, of contributions and additions that it reads in the shuttle. -/
def Reduces (i : Instr) (k : BitVec 4) (s : State) (reads : List RegNo) (d : RegNo) (ty : Fmt) (f : Shuttle → Nat → FVal × W64)
    (more : Shuttle → Int → Acc × W64 → Nat → Acc × W64) : Prop :=
  exec i s = xInstr s k true reads [d] fun u => withTable u false .plain [(u.me.xEntry.1, 15)] fun t =>
    let e := t.me.entry u.me.xEntry.1
    t.vecResult d (t.me.reduced d e ty (f t.me) (more t.me (entryAnc e.bits))) (t.me.reduceSettled u.me.xEntry)

theorem reduces_vrsum : Reduces (.vrsum d a t k) k s [a] d (srcType t)
    (fun x i => (fmtValue (srcType t) (velem (x.vreg a) (srcType t).width i), 0)) fun _ _ c _ => c := rfl

theorem reduces_vrssq : Reduces (.vrssq d a t k) k s [a] d (srcType t)
    (fun x i => mulVal (fmtValue (srcType t) (velem (x.vreg a) (srcType t).width i))
      (fmtValue (srcType t) (velem (x.vreg a) (srcType t).width i))) fun _ _ c _ => c := rfl

theorem reduces_vrdot : Reduces (.vrdot d a b t k) k s [a, b] d (srcType t)
    (fun x i => mulVal (fmtValue (srcType t) (velem (x.vreg a) (srcType t).width i))
      (fmtValue (srcType t) (velem (x.vreg b) (srcType t).width i))) fun _ _ c _ => c := rfl

theorem reduces_vrsuma : Reduces (.vrsuma d a b t k) k s [a, b] d (srcType t)
    (fun x i => (fmtValue (srcType t) (velem (x.vreg a) (srcType t).width i), 0)) fun x anc => rawCell (x.vreg b) anc := rfl

theorem reduces_completes {ty : Fmt} {f : Shuttle → Nat → FVal × W64} {more : Shuttle → Int → Acc × W64 → Nat → Acc × W64}
    (hs : OnT s .x k) (hx : Reduces i k s reads d ty f more) (hrun : s.me.uniformSkip = false)
    (hf : Untimed f) (hmore : Untimed more)
    (hfree : ∃ s1, Made (withVregs (s.popped k) reads [d]) s1 ∧ s1.tableFree false .plain [(s.me.xEntry.1, 15)]) :
    let e := s.me.entry s.me.xEntry.1
    CompletesT i k s (s.withResult d (s.me.reduced d e ty (f s.me) (more s.me (entryAnc e.bits)))
      (s.me.reduceSettled s.me.xEntry)) :=
  entryResult_completes (r := fun fx x =>
      x.reduced d (x.entry fx.1) ty (f x) (more x (entryAnc (x.entry fx.1).bits))) (w := fun fx x => x.reduceSettled fx) hs hx hrun
    (fun fx => hf.with (g := fun f x => x.reduced d (x.entry fx.1) ty f (more x (entryAnc (x.entry fx.1).bits))) fun _ =>
      hmore.with (g := fun more x => x.reduced d (x.entry fx.1) ty _ (more (entryAnc (x.entry fx.1).bits))) fun _ =>
        ⟨fun _ => rfl, fun _ _ => rfl⟩)
    (fun _ => ⟨fun _ => rfl, fun _ _ => rfl⟩) hfree

end

/-! ## Scans -/

theorem sumCell_append (anc : Int) (c : Acc × W64) (l m : List (FVal × W64)) :
    sumCell anc c (l ++ m) = sumCell anc (sumCell anc c l) m := List.foldl_append

/-- The cell of the elements of `l` before `j`, with it or without it (R151). -/
def prefixCell (anc : Int) (incl : Bool) (v : Nat → FVal) (l : List Nat) (j : Nat) : Acc × W64 :=
  sumCell anc (Acc.empty, 0) ((l.filter fun i => decide (i < j) || (incl && decide (i = j))).map fun i => (v i, 0))

/-- One more element of a scan. -/
def prefixStep (anc : Int) (incl : Bool) (acc : (Acc × W64) × List (Nat × Acc × W64)) (v : Nat × FVal) :
    (Acc × W64) × List (Nat × Acc × W64) :=
  let next := sumCell anc acc.1 [(v.2, 0)]
  (next, acc.2 ++ [(v.1, if incl then next else acc.1)])

/-- Scanned in rising order, each element comes to the cell of those before it. -/
theorem foldl_prefixStep (anc : Int) (incl : Bool) (v : Nat → FVal) (l : List Nat) (hl : l.Pairwise (· < ·)) :
    (l.map fun i => (i, v i)).foldl (prefixStep anc incl) ((Acc.empty, 0), []) =
      (sumCell anc (Acc.empty, 0) (l.map fun i => (v i, 0)), l.map fun i => (i, prefixCell anc incl v l i)) := by
  induction l using List.reverseRecOn with
  | nil => rfl
  | append_singleton l j ih =>
    obtain ⟨hl, -, hlast⟩ := List.pairwise_append.mp hl
    have hlt : ∀ i ∈ l, i < j := fun i hi => hlast i hi j (List.mem_singleton_self j)
    have hkept (i : Nat) (hi : i ∈ l) : prefixCell anc incl v (l ++ [j]) i = prefixCell anc incl v l i := by
      have := hlt i hi
      unfold prefixCell
      rw [List.filter_append, List.filter_singleton, decide_eq_false (by omega), decide_eq_false (by omega)]
      simp
    have hall : l.filter (fun i => decide (i < j) || (incl && decide (i = j))) = l :=
      List.filter_eq_self.mpr fun i hi => by rw [decide_eq_true (hlt i hi), Bool.true_or]
    have hnew : prefixCell anc incl v (l ++ [j]) j =
        if incl then sumCell anc (sumCell anc (Acc.empty, 0) (l.map fun i => (v i, 0))) [(v j, 0)]
        else sumCell anc (Acc.empty, 0) (l.map fun i => (v i, 0)) := by
      unfold prefixCell
      rw [List.filter_append, hall, List.map_append]
      cases incl
      · simp
      · simp [sumCell_append]
    rw [List.map_append, List.foldl_append, ih hl]
    refine Prod.ext ?_ ?_
    · rw [List.map_append, sumCell_append]
      rfl
    · dsimp only
      rw [List.map_append, List.map_congr_left fun i hi => congrArg (Prod.mk i) (hkept i hi), List.map_singleton, List.map_singleton,
        hnew]
      rfl

theorem prefixCells_eq (anc : Int) (incl : Bool) (v : Nat → FVal) (l : List Nat) (hl : l.Pairwise (· < ·)) :
    prefixCells anc incl (l.map fun i => (i, v i)) = l.map fun i => (i, prefixCell anc incl v l i) :=
  congrArg Prod.snd (foldl_prefixStep anc incl v l hl)

theorem mem_segment {x : Shuttle} {w seg g j : Nat} :
    j ∈ x.segment w seg g ↔ j < 512 / w ∧ x.enabled w j = true ∧ j * 2 ^ seg / (512 / w) = g := by
  rw [Shuttle.segment, List.mem_filter, List.mem_range, Bool.and_eq_true, decide_eq_true_eq]
  rfl

theorem segment_pairwise (x : Shuttle) (w seg g : Nat) : (x.segment w seg g).Pairwise (· < ·) :=
  List.pairwise_lt_range.filter _

/-- Every element lies in one of the segments. -/
theorem segment_of_elem_lt {n seg j : Nat} (hj : j < n) : j * 2 ^ seg / n < 2 ^ seg :=
  Nat.div_lt_of_lt_mul ((Nat.mul_lt_mul_right (Nat.two_pow_pos seg)).mpr hj)

/-- The output conversion of a scan: the source's type is delivered (R151). -/
def FmtEntry.scanOut (e : FmtEntry) (ty : Fmt) : OutConv := { e.reduceOut.1 with fo := ty }

/-- The result of element `j` of a scan, from its own segment. -/
def Shuttle.scanCell (x : Shuttle) (e : FmtEntry) (ty : Fmt) (incl : Bool) (v : Nat → FVal) (j : Nat) : Nat × W64 :=
  e.outCell (e.scanOut ty) (prefixCell (entryAnc e.bits) incl v
    (x.segment ty.width x.segLog.1 (j * 2 ^ x.segLog.1 / (512 / ty.width))) j)

/-- The results of a scan, each with its element. -/
def Shuttle.scanOuts (x : Shuttle) (e : FmtEntry) (ty : Fmt) (incl : Bool) (v : Nat → FVal) : List (Nat × Nat × W64) :=
  (List.range (2 ^ x.segLog.1)).flatMap fun g =>
    (prefixCells (entryAnc e.bits) incl ((x.segment ty.width x.segLog.1 g).map fun i => (i, v i))).map fun p =>
      (p.1, e.outCell (e.scanOut ty) p.2)

section
variable {x : Shuttle} {e : FmtEntry} {ty : Fmt} {incl : Bool} {v : Nat → FVal}

theorem mem_scanOuts {p : Nat × Nat × W64} : p ∈ x.scanOuts e ty incl v ↔
    p.1 < 512 / ty.width ∧ x.enabled ty.width p.1 = true ∧ p.2 = x.scanCell e ty incl v p.1 := by
  unfold Shuttle.scanOuts
  simp only [List.mem_flatMap, List.mem_range, prefixCells_eq _ _ _ _ (segment_pairwise ..), List.map_map, List.mem_map,
    Function.comp_apply, mem_segment]
  constructor
  · rintro ⟨g, -, j, ⟨hj, hen, rfl⟩, rfl⟩
    exact ⟨hj, hen, rfl⟩
  · rintro ⟨hj, hen, hc⟩
    exact ⟨_, segment_of_elem_lt hj, p.1, ⟨hj, hen, rfl⟩, Prod.ext rfl hc.symm⟩

theorem find_scanOuts {j : Nat} (hj : j < 512 / ty.width) : (x.scanOuts e ty incl v).find? (fun p => decide (p.1 = j)) =
    if x.enabled ty.width j then some (j, x.scanCell e ty incl v j) else none := by
  rcases hfind : (x.scanOuts e ty incl v).find? (fun p => decide (p.1 = j)) with _ | ⟨i, c⟩
  · have hnot (hen : x.enabled ty.width j = true) : False :=
      List.find?_eq_none.mp hfind (j, x.scanCell e ty incl v j) (mem_scanOuts.mpr ⟨hj, hen, rfl⟩) (decide_eq_true rfl)
    rw [if_neg hnot]
    exact hfind
  · obtain rfl : i = j := by simpa using List.find?_some hfind
    obtain ⟨-, hen, hc⟩ := mem_scanOuts.mp (List.mem_of_find?_eq_some hfind)
    rw [if_pos hen]
    exact hfind.trans (congrArg (fun c => some (i, c)) hc)

end

/-- The register and flags that a scan comes to. -/
def Shuttle.scanned (x : Shuttle) (d : RegNo) (e : FmtEntry) (ty : Fmt) (incl : Bool) (v : Nat → FVal) : VReg × W64 :=
  let outs := x.scanOuts e ty incl v
  (packElems ty.width ((List.range (velems ty.width)).map fun i =>
    match outs.find? (fun p => decide (p.1 = i)) with
    | some p => p.2.1
    | none => velem (x.vreg d) ty.width i), outs.foldl (fun z p => z ||| p.2.2) 0)

section
variable (x : Shuttle) (d : RegNo) (e : FmtEntry) (ty : Fmt) (incl : Bool) (v : Nat → FVal)

theorem velem_scanned {j : Nat} (hj : j < 512 / ty.width) : velem (x.scanned d e ty incl v).1 ty.width j =
    if x.enabled ty.width j then (x.scanCell e ty incl v j).1 % 2 ^ (8 * ty.width) else velem (x.vreg d) ty.width j := by
  rw [Shuttle.scanned, velem_packElems_range _ _ hj, find_scanOuts hj]
  cases x.enabled ty.width j
  · exact Nat.mod_eq_of_lt (velem_lt ..)
  · rfl

theorem scanned_flags (b : Nat) : (x.scanned d e ty incl v).2.getLsbD b = true ↔
    ∃ j < 512 / ty.width, x.enabled ty.width j = true ∧ (x.scanCell e ty incl v j).2.getLsbD b = true := by
  have hfold : (x.scanned d e ty incl v).2 = ((x.scanOuts e ty incl v).map Prod.snd).foldl (fun z p => z ||| p.2) 0 := by
    rw [List.foldl_map]
    rfl
  rw [hfold, foldl_or_getLsbD]
  constructor
  · rintro (h | ⟨q, hq, hb⟩)
    · simp at h
    · obtain ⟨p, hp, rfl⟩ := List.mem_map.mp hq
      obtain ⟨hj, hen, hc⟩ := mem_scanOuts.mp hp
      exact ⟨p.1, hj, hen, hc ▸ hb⟩
  · rintro ⟨j, hj, hen, hb⟩
    exact .inr ⟨_, List.mem_map.mpr ⟨(j, x.scanCell e ty incl v j), mem_scanOuts.mpr ⟨hj, hen, rfl⟩, rfl⟩, hb⟩

end

/-- What a scan settles. -/
def Shuttle.scanSettled (x : Shuttle) (fx : Nat × Bool) : Bool :=
  fx.2 || (x.entry fx.1).reduceOut.2 || x.segLog.2 || x.vl.2

section
variable {s : State} {i : Instr} {k : BitVec 4} {d a : RegNo} {t : BitVec 3} {incl : Bool}

theorem scanOp_eq : scanOp s k d a t incl = xInstr s k true [a] [d] fun u => withTable u false .plain [(u.me.xEntry.1, 15)] fun v =>
    v.vecResult d (v.me.scanned d (v.me.entry u.me.xEntry.1) (srcType t) incl
      fun i => fmtValue (srcType t) (velem (v.me.vreg a) (srcType t).width i)) (v.me.scanSettled u.me.xEntry) := rfl

theorem scanOp_completes (hs : OnT s .x k) (hx : exec i s = scanOp s k d a t incl) (hrun : s.me.uniformSkip = false)
    (hfree : ∃ s1, Made (withVregs (s.popped k) [a] [d]) s1 ∧ s1.tableFree false .plain [(s.me.xEntry.1, 15)]) :
    CompletesT i k s (s.withResult d (s.me.scanned d (s.me.entry s.me.xEntry.1) (srcType t) incl
      fun i => fmtValue (srcType t) (velem (s.me.vreg a) (srcType t).width i)) (s.me.scanSettled s.me.xEntry)) :=
  entryResult_completes (r := fun fx x => x.scanned d (x.entry fx.1) (srcType t) incl
      fun i => fmtValue (srcType t) (velem (x.vreg a) (srcType t).width i)) (w := fun fx x => x.scanSettled fx)
    hs (hx.trans scanOp_eq) hrun (fun _ => ⟨fun _ => rfl, fun _ _ => rfl⟩) (fun _ => ⟨fun _ => rfl, fun _ _ => rfl⟩) hfree

end

/-- Settles O41: a reduction writes the cells of its segments, and a scan that of each enabled element, through the entry that
the shape register names. -/
theorem reductions : Obligations.Reductions := by
  intro d a b t k s hs hrun fx ent anc o seg w wo x out raw free reduce before scan
  have hreduce {i : Instr} {reads : List RegNo} {f : Shuttle → Nat → FVal × W64}
      {more : Shuttle → Int → Acc × W64 → Nat → Acc × W64} (hx : Reduces i k s reads d (srcType t) f more) (hf : Untimed f)
      (hmore : Untimed more) : reduce i reads (f s.me) (more s.me anc) := fun hfree =>
    ⟨_, _, reduces_completes hs hx hrun hf hmore hfree, fun j hj => velem_writeCells _ _ _ _ hj, writeCells_flags _ _ _ _⟩
  have hscan {i : Instr} {incl : Bool} (hx : exec i s = scanOp s k d a t incl) : scan i incl := fun hfree =>
    ⟨_, _, scanOp_completes hs hx hrun hfree, fun j hj => velem_scanned _ _ _ _ _ _ hj, scanned_flags _ _ _ _ _ _⟩
  exact ⟨hreduce reduces_vrsum ⟨fun _ => rfl, fun _ _ => rfl⟩ ⟨fun _ => rfl, fun _ _ => rfl⟩,
    hreduce reduces_vrssq ⟨fun _ => rfl, fun _ _ => rfl⟩ ⟨fun _ => rfl, fun _ _ => rfl⟩,
    hreduce reduces_vrdot ⟨fun _ => rfl, fun _ _ => rfl⟩ ⟨fun _ => rfl, fun _ _ => rfl⟩,
    hreduce reduces_vrsuma ⟨fun _ => rfl, fun _ _ => rfl⟩ ⟨fun _ => rfl, fun _ _ => rfl⟩, hscan rfl, hscan rfl⟩

end Sys2Proof.Machine
end

section
namespace Sys2Proof.Machine
open Sys2Proof

/-! # Vector loads and gradient loads (R155 to R158, R262, R266, R276) -/

/-! ## Register accesses made in parts (R86, R87) -/

theorem clockGet_clockRaise_ne {a b : Nat} (h : b ≠ a) (n : Nat) (c : Clock) : clockGet (clockRaise a n c) b = clockGet c b := by
  induction c with
  | nil => simp [clockRaise, clockGet, h.symm]
  | cons p c ih =>
    unfold clockRaise
    split
    · simp [clockGet, h.symm]
    · split
      · next hp => simp [clockGet, h.symm, ← hp]
      · simp [clockGet, ih]

/-- A plain access conflicts with those of other agents, where one of the two writes. -/
theorem conflicts_plain {a : Access} (h : a.kind = .plain) (o : Access) :
    conflicts a o = (decide (a.agent ≠ o.agent) && (a.write || o.write)) := by
  have hexempt : exempt a o = false := by
    unfold exempt
    rw [h]
    cases o.kind <;> rfl
  rw [conflicts, hexempt, Bool.not_false, Bool.and_true]

theorem vregRace_eq_none {x : Shuttle} {n : ShNo} {k : Know} {a : Access} {tags : List (Nat × List Access)} {l : List RegNo} :
    vregRace x n k a tags l = none ↔
      ∀ r ∈ l, ∀ o ∈ tagOf tags (vregLoc n r.toNat), conflicts a o = true → o.epoch ≤ clockGet k.own o.agent := by
  induction l with
  | nil => simp [vregRace]
  | cons r l ih =>
    rw [List.forall_mem_cons, ← ih, vregRace]
    rcases hfind : (tagOf tags (vregLoc n r.toNat)).find?
      (fun o => conflicts a o && decide (clockGet k.own o.agent < o.epoch)) with _ | o
    · have hnone := List.find?_eq_none.mp hfind
      simp only [Bool.and_eq_true, decide_eq_true_eq, not_and, not_lt] at hnone
      exact (and_iff_right hnone).symm
    · have hsome := List.find?_some hfind
      rw [Bool.and_eq_true, decide_eq_true_eq] at hsome
      exact iff_of_false nofun fun h => absurd (h.1 o (List.mem_of_find?_eq_some hfind) hsome.1) (not_le.mpr hsome.2)

/-- What others have on record at the registers is ordered before the issuing sequencer's accesses. -/
def State.vregsOrdered (s : State) (write : Bool) (l : List RegNo) : Prop :=
  ∀ r ∈ l, ∀ o ∈ tagOf s.tags (vregLoc s.here r.toNat), o.agent ≠ s.mySeq.agent → (write || o.write) = true →
    o.epoch ≤ clockGet s.mySeq.know.own o.agent

theorem State.vregsOrdered.mono {s : State} {write : Bool} {l m : List RegNo} (h : s.vregsOrdered write l) (hm : m ⊆ l) :
    s.vregsOrdered write m := fun r hr => h r (hm hr)

section
variable {s : State}

theorem clock_tickSeq {b : Nat} (h : b ≠ s.mySeq.agent) :
    clockGet (s.tickSeq s.here s.stream).mySeq.know.own b = clockGet s.mySeq.know.own b := by
  change clockGet (s.modMySeq _).mySeq.know.own b = _
  rw [mySeq_modMySeq]
  exact clockGet_clockRaise_ne h _ _

/-- No race is found among registers whose accesses are ordered. -/
theorem vregRace_iff (write : Bool) (l : List RegNo) :
    vregRace s.me s.here (s.tickSeq s.here s.stream).mySeq.know
      ((s.tickSeq s.here s.stream).accessOf s.here s.stream write .plain (.set [s.here])) s.tags l = none ↔
    s.vregsOrdered write l := by
  rw [vregRace_eq_none]
  refine forall₂_congr fun r _ => forall₂_congr fun o _ => ?_
  have hagent : ((s.tickSeq s.here s.stream).accessOf s.here s.stream write .plain (.set [s.here])).agent = s.mySeq.agent :=
    agent_tickSeq
  rw [conflicts_plain rfl, hagent, Bool.and_eq_true, decide_eq_true_eq, and_imp]
  refine ⟨fun h hne hw => ?_, fun h hne hw => ?_⟩
  · rw [← clock_tickSeq hne]
    exact h (Ne.symm hne) hw
  · rw [clock_tickSeq (Ne.symm hne)]
    exact h (Ne.symm hne) hw

theorem vregsFree_iff (hm : Unmarked s) (reads writes : List RegNo) :
    s.vregsFree reads writes ↔ s.vregsOrdered false reads ∧ s.vregsOrdered true writes := by
  rw [← vregRace_iff, ← vregRace_iff]
  unfold State.vregsFree Made withVregs
  dsimp only
  constructor
  · rintro ⟨s1, h⟩
    split at h
    · cases h
    · cases h
    · next hr hw => exact ⟨hr, hw⟩
  · rintro ⟨hr, hw⟩
    rw [hr, hw]
    exact ⟨_, unlessDamaged_of_unmarked hm _ _⟩

/-- Accesses made by the issuing sequencer leave those of others ordered as they were. -/
theorem vregsOrdered_of_made {s1 : State} {reads writes : List RegNo} (hm : Unmarked s) (h : Made (withVregs s reads writes) s1)
    {write : Bool} {l : List RegNo} (hl : s.vregsOrdered write l) : s1.vregsOrdered write l := by
  obtain ⟨hr, hw⟩ := (vregsFree_iff hm reads writes).mp ⟨s1, h⟩
  unfold Made withVregs at h
  dsimp only at h
  rw [(vregRace_iff _ _).mpr hr, (vregRace_iff _ _).mpr hw, unlessDamaged_of_unmarked hm] at h
  obtain rfl := Eff.done.inj h
  intro r hr o ho hne hw
  have hne : o.agent ≠ s.mySeq.agent := fun heq => hne (heq.trans agent_tickSeq.symm)
  refine (hl r hr o ?_ hne hw).trans (clock_tickSeq hne).ge
  have hold {a : Access} (ha : a.agent = s.mySeq.agent) {locs : List Nat} {tags : List (Nat × List Access)}
      (ho : o ∈ tagOf (tagAll a locs tags) (vregLoc s.here r.toNat)) : o ∈ tagOf tags (vregLoc s.here r.toNat) :=
    (mem_tagOf_tagAll ho).resolve_left fun heq => hne (heq ▸ ha)
  exact hold agent_tickSeq (hold agent_tickSeq ho)

/-- What follows accesses that are made, in every state that is seen as before them. -/
theorem withVregs_of_free {reads writes : List RegNo} {g : State → Eff} {r : Eff} (h : s.vregsFree reads writes)
    (hg : ∀ t, t.visible = s.visible → g t = r) : withVregs s reads writes g = r := by
  obtain ⟨t, hmade⟩ := h
  obtain ⟨hseen, hgo⟩ := (goes_withVregs reads writes).of_made hmade
  exact (hgo g).trans (hg t hseen)

/-! ## The index register -/

section
variable {f : VecForm} {v : RegNo}

theorem goes_withIndex : Goes (fun t => t.visible = s.visible) (withIndex s f v) :=
  goes_ite (goes_withVregs _ _) (goes_on rfl)

/-- The registers that the addresses are made of (R156). -/
def VecForm.index (f : VecForm) (v : RegNo) : List RegNo := if f.mode = 2 then [v + 1] else []

/-- Where the accesses to the index register and to `v` are ordered, the index is read, and then `v` may be accessed. -/
theorem index_of_free (hm : Unmarked s) (h : s.vregsFree (f.index v ++ [v]) [v]) : ∃ s0, Made (withIndex s f v) s0 ∧
    s0.visible = s.visible ∧ ∀ reads writes, reads ⊆ [v] → writes ⊆ [v] → s0.vregsFree reads writes := by
  obtain ⟨hread, hwrite⟩ := (vregsFree_iff hm _ _).mp h
  have hv : s.vregsOrdered false [v] := hread.mono (List.subset_append_right ..)
  unfold withIndex
  by_cases hmode : f.mode = 2
  · have hi : s.vregsOrdered false [v + 1] := hread.mono (by simp [VecForm.index, hmode])
    obtain ⟨s0, hmade⟩ := (vregsFree_iff hm [v + 1] []).mpr ⟨hi, nofun⟩
    have hseen := ((goes_withVregs _ _).of_made hmade).1
    simp only [if_pos hmode]
    exact ⟨s0, hmade, hseen, fun reads writes hr hw => (vregsFree_iff (unmarked_of_visible hseen hm) _ _).mpr
      ⟨(vregsOrdered_of_made hm hmade hv).mono hr, (vregsOrdered_of_made hm hmade hwrite).mono hw⟩⟩
  · simp only [if_neg hmode]
    exact ⟨s, rfl, rfl, fun reads writes hr hw => (vregsFree_iff hm _ _).mpr ⟨hv.mono hr, hwrite.mono hw⟩⟩

end

end

/-! ## What the addresses and the checks of a vector access are read from -/

/-- Registers, regions, windows and tasks of a shuttle. -/
def Shuttle.bearings (x : Shuttle) :=
  (x.vregs, x.aL, x.aS, x.dpr, x.rwin, x.task)

/-- Whose turn it is, and the bearings of the shuttles. -/
def State.bearings (s : State) := (s.cur, fun n => (s.shuttle n).bearings)

section
variable {s t : State}

theorem bearings_of_visible (h : s.visible = t.visible) : s.bearings = t.bearings := by
  have hshuttle (n : ShNo) : (s.shuttle n).visible = (t.shuttle n).visible := by rw [← shuttle_visible, h, shuttle_visible]
  exact Prod.ext (congrArg State.cur h :) (funext fun n => (congrArg Shuttle.bearings (hshuttle n) :))

theorem bearings_popped (s : State) (k : BitVec 4) : (s.popped k).bearings = s.bearings := by
  refine Prod.ext rfl (funext fun n => ?_)
  by_cases hn : s.here = n
  · subst hn
    exact read_popped s k Shuttle.bearings fun _ _ st _ => by cases st <;> rfl
  · exact congrArg Shuttle.bearings (shuttle_modShuttle_ne _ _ _ _ hn)

section
variable (h : s.bearings = t.bearings)
include h

theorem here_of_bearings : s.here = t.here := congrArg (·.1.1) h
theorem stream_of_bearings : s.stream = t.stream := congrArg (·.1.2) h

theorem shuttle_of_bearings (n : ShNo) : (s.shuttle n).bearings = (t.shuttle n).bearings := congrFun (congrArg Prod.snd h) n

theorem me_of_bearings : s.me.bearings = t.me.bearings := by
  rw [State.me, here_of_bearings h]
  exact shuttle_of_bearings h _

theorem vreg_of_bearings (r : RegNo) : s.vreg r = t.vreg r := by
  have hregs : s.me.vregs = t.me.vregs := congrArg (·.1) (me_of_bearings h)
  unfold State.vreg Shuttle.vreg
  rw [hregs]

theorem areg_of_bearings (r : RegNo) : s.areg r = t.areg r := by
  have hl : s.me.aL = t.me.aL := congrArg (·.2.1) (me_of_bearings h)
  have hs : s.me.aS = t.me.aS := congrArg (·.2.2.1) (me_of_bearings h)
  unfold State.areg
  rw [stream_of_bearings h, hl, hs]

theorem vecAddrs_of_bearings (v a : RegNo) (m : BitVec 2) (o : BitVec 8) : vecAddrs s v a m o = vecAddrs t v a m o := by
  unfold vecAddrs
  simp only [areg_of_bearings h, vreg_of_bearings h]

theorem pocketAddr_of_bearings (n : ShNo) (ea : Int) : s.pocketAddr n ea = t.pocketAddr n ea := by
  have htask (n : ShNo) : (s.shuttle n).task = (t.shuttle n).task := congrArg (·.2.2.2.2.2) (shuttle_of_bearings h n)
  have hrwin : (s.shuttle n).rwin = (t.shuttle n).rwin := congrArg (·.2.2.2.2.1) (shuttle_of_bearings h n)
  unfold State.pocketAddr State.sameGang
  simp only [htask, hrwin]

theorem placeOf_of_bearings (ea : Int) : s.placeOf ea = t.placeOf ea := by
  unfold State.placeOf State.pocketAt
  rw [here_of_bearings h, pocketAddr_of_bearings h]

theorem regionOfEa_of_bearings (ea : Int) : s.regionOfEa ea = t.regionOfEa ea := by
  have hdpr (n : ShNo) : (s.shuttle n).dpr = (t.shuttle n).dpr := congrArg (·.2.2.2.1) (shuttle_of_bearings h n)
  unfold State.regionOfEa State.regionAt
  simp only [here_of_bearings h, pocketAddr_of_bearings h, hdpr]

theorem anyDiff_of_bearings (eas : List Int) : s.anyDiff eas = t.anyDiff eas := by
  unfold State.anyDiff
  simp only [regionOfEa_of_bearings h]

theorem cellElems_of_bearings (ea : Int) : s.cellElems ea = t.cellElems ea := by
  unfold State.cellElems
  rw [regionOfEa_of_bearings h]

theorem trShape_of_bearings (tr : Bool) (eas : List Int) : s.trShape tr eas = t.trShape tr eas := by
  unfold State.trShape
  simp only [regionOfEa_of_bearings h]

theorem pocketFault_of_bearings (hbad : s.bad = t.bad) (hout : s.outUnits = t.outUnits) (size : Nat) (eas : List Int) :
    s.pocketFault size eas = t.pocketFault size eas := by
  have hcell (p : Nat) : s.badCell p = t.badCell p := by
    unfold State.badCell State.granuleLost
    rw [hbad, hout]
  induction eas with
  | nil => rfl
  | cons ea eas ih =>
    unfold State.pocketFault State.pocketAt
    simp only [here_of_bearings h, pocketAddr_of_bearings h, hcell, ih]

end

/-- What a vector access of `s` turns on after its pops and accesses. -/
theorem bearings_seen {u : State} {k : BitVec 4} (h : u.visible = (s.popped k).visible) : u.bearings = s.bearings :=
  (bearings_of_visible h).trans (bearings_popped s k)

theorem pocketFault_seen {u : State} {k : BitVec 4} (h : u.visible = (s.popped k).visible) (size : Nat) (eas : List Int) :
    u.pocketFault size eas = s.pocketFault size eas :=
  pocketFault_of_bearings (bearings_seen h) (congrArg State.bad h :) (congrArg State.outUnits h :) size eas

theorem pocketNat_seen {u : State} {k : BitVec 4} (h : u.visible = (s.popped k).visible) (ea : Int) (n : Nat) :
    u.pocketNat ea n = s.pocketNat ea n := by
  rw [State.pocketNat, State.pocketNat, placeOf_of_bearings (bearings_seen h), mem_of_visible h]
  rfl

theorem ownExt_seen {u : State} {k : BitVec 4} (h : u.visible = (s.popped k).visible) : u.ownExt = s.ownExt :=
  congrArg (fun n => Ext.set [n]) (here_of_bearings (bearings_seen h))

/-- L, X and S act backwards when their status says so (R260). -/
theorem reversed_of_stream (hc : s.stream ≠ .c) : s.reversed = s.mySeq.status.getLsbD 16 := by
  rw [State.reversed, State.taskMode, decide_eq_false hc]
  rfl

theorem reversed_seen {u : State} {k : BitVec 4} (hc : s.stream ≠ .c) (h : u.visible = (s.popped k).visible) :
    u.reversed = s.reversed := by
  obtain ⟨kn, era, hseq⟩ := mySeq_popped s k
  have hu : u.stream = s.stream := (stream_of_visible h).trans (stream_popped s k)
  have hstatus : u.mySeq.status = (s.popped k).mySeq.status := by
    have hvis : u.mySeq.visible = (s.popped k).mySeq.visible := by
      rw [State.mySeq, visible_seq, me_of_visible h, hu, ← visible_seq]
      rfl
    exact (congrArg Seq.status hvis :)
  rw [reversed_of_stream hc, reversed_of_stream (hu ▸ hc), hstatus, hseq]

end

/-! ## Effects done around the pops -/

/-- A change that is seen alike where the state is, and may as well be made before the pops. -/
structure AroundPops (F : State → State) : Prop where
  seen : ∀ s t : State, s.visible = t.visible → (F s).visible = (F t).visible
  popped : ∀ s k, (F (s.popped k)).visible = ((F s).popped k).visible
  cur : ∀ s, (F s).cur = s.cur

section
variable {F G : State → State}

theorem OnShuttle.aroundPops (hF : OnShuttle F) : AroundPops F where
  seen _ _ := hF.seen
  cur s := by
    obtain ⟨g, -, h⟩ := hF
    rw [h]
    rfl
  popped s k := by
    refine (hF.popped s k).trans ?_
    obtain ⟨g, -, h⟩ := hF
    rw [h]
    rfl

theorem AroundPops.comp (hF : AroundPops F) (hG : AroundPops G) : AroundPops fun s => F (G s) :=
  ⟨fun s t h => hF.seen _ _ (hG.seen s t h), fun s k => (hF.seen _ _ (hG.popped s k)).trans (hF.popped _ k),
    fun s => (hF.cur _).trans (hG.cur s)⟩

theorem AroundPops.here (hF : AroundPops F) (s : State) : (F s).here = s.here := congrArg Prod.fst (hF.cur s)

/-- Bytes put at places that are given. -/
theorem aroundPops_putBytes (place : Nat) (bs : List Byte) : AroundPops (State.putBytes · place bs) :=
  ⟨fun _ _ h => visible_putBytes_congr h place bs, fun _ _ => rfl, fun _ => rfl⟩

theorem aroundPops_foldl {β : Type} {F : State → β → State} (hF : ∀ b, AroundPops (F · b)) (l : List β) :
    AroundPops fun s => l.foldl F s := by
  induction l with
  | nil => exact onShuttle_id.aroundPops
  | cons b l ih => exact ih.comp (hF b)

theorem completesT_of_aroundPops {i : Instr} {s : State} {k : BitVec 4} {st : Stream} {body : State → Eff} (hF : AroundPops F)
    (hs : OnT s st k) (hc : st ≠ .c) (hx : exec i s = runT s k body) {e : State} (hbody : body (s.popped k) = .done e)
    (hv : e.visible = (F (s.popped k)).visible) : CompletesT i k s (F s) := by
  obtain rfl := hs.1
  have hstream : (F s).stream = s.stream := congrArg Prod.snd (hF.cur s)
  refine completesT_of_visible hs hc hx hbody ((hv.trans (hF.popped s k)).trans ?_) (hF.here s)
  rw [State.popped, hstream]

/-- An instruction of L, X or S whose effect after the pops is `e`. -/
theorem completesPopped_of_popped {i : Instr} {s : State} {k : BitVec 4} {st : Stream} {body : State → Eff}
    (hs : OnT s st k) (hc : st ≠ .c) (hx : exec i s = runT s k body) {e e' : State} (hbody : body (s.popped k) = .done e')
    (hv : e'.visible = e.visible) (hhere : e.here = s.here) : CompletesPopped i k s e :=
  ⟨_, (exec_of_ready hs hc hx).trans (congrArg (Eff.run s k) hbody), visible_finishWith hs.2.1 hhere hv k (s.pc + 4) none⟩

/-- A trap that the body comes to after the pops is the instruction's. -/
theorem trapsAt_of_popped {i : Instr} {s : State} {k : BitVec 4} {st : Stream} {body : State → Eff} (hs : OnT s st k) (hc : st ≠ .c)
    (hx : exec i s = runT s k body) {c : BitVec 8} {e : W64} (hbody : body (s.popped k) = .trap c e) : Traps i s c e :=
  (exec_of_ready hs hc hx).trans (congrArg (Eff.run s k) hbody)

/-- `c` added to an address register of the issuing sequencer. -/
theorem onShuttle_addAreg (a : RegNo) (c : W64) : OnShuttle fun s => s.setAreg a (s.areg a + c) := by
  by_cases h : a.toNat < 16
  · refine ⟨fun st x => let y := x.mend st (damage 1 a.toNat)
      if st = .l then { y with aL := x.aL.set a.toNat (x.aL[a.toNat] + c) h }
      else { y with aS := x.aS.set a.toNat (x.aS[a.toNat] + c) h }, fun st => ⟨?_, ?_⟩, fun s => ?_⟩
    · intro x y hxy
      by_cases hl : st = .l
      · subst hl
        exact congrArg (fun x : Shuttle =>
          { x.mend .l (damage 1 a.toNat) with aL := x.aL.set a.toNat (x.aL[a.toNat] + c) h }) hxy
      · simp only [if_neg hl]
        exact congrArg (fun x : Shuttle =>
          { x.mend st (damage 1 a.toNat) with aS := x.aS.set a.toNat (x.aS[a.toNat] + c) h }) hxy
    · intro x t
      cases st <;> rfl
    · refine (dif_pos h).trans (congrArg (s.setShuttle s.here) ?_)
      unfold State.areg
      simp only [dif_pos h]
      by_cases hl : s.stream = .l
      · simp only [if_pos hl]
        rfl
      · simp only [if_neg hl]
        rfl
  · obtain ⟨G, hG, hid⟩ := onShuttle_id
    exact ⟨G, hG, fun s => (dif_neg h).trans (hid s)⟩

/-- What follows a vector access: the post-increment, and WARN for a fallback of its word. -/
def VecForm.finish (f : VecForm) (a : RegNo) (s : State) : State := (f.advance s a).warnIf f.warn

theorem onShuttle_finish (f : VecForm) (a : RegNo) : OnShuttle (f.finish a) := by
  refine (onShuttle_warnIf f.warn).comp ?_
  unfold VecForm.advance
  cases f.inc
  · exact onShuttle_id
  · exact onShuttle_addAreg a _

/-- The post-increment as the statements write it. -/
theorem finish_eq (x i : Bool) (m : BitVec 2) (a : RegNo) (s : State) : (vecForm x i m).finish a s =
    (if i ∧ m ≠ 2 then s.setAreg a (s.areg a + (if m = 1 then 8 else 512)) else s).warnIf (vecForm x i m).warn := by
  have hinc : ((vecForm x i m).inc = true) = (i = true ∧ m ≠ 2) := by simp [vecForm]
  unfold VecForm.finish VecForm.advance
  simp only [hinc]
  rfl

end

end Sys2Proof.Machine
end

section
namespace Sys2Proof.Machine
open Sys2Proof

/-! ## Loads of 64 cells (R155 to R158) -/

section
variable {f : VecForm} {v a : RegNo} {o : BitVec 8} {tr : Bool} {eas : List Int} {s t : State} {g : State → Eff}

/-- An access to the cells at the addresses, which passes its checks or takes their trap (R63, R156, R266). -/
def checkVector (tr : Bool) (eas : List Int) (s : State) (g : State → Eff) : Eff :=
  match s.pocketFault 8 eas with
  | some (c, e) => .trap c e
  | none => if s.trShape tr eas then .trap 0x2A (evalOf (eas.headD 0)) else g s

theorem checkVector_of_fault {c : BitVec 8} {e : W64} (h : s.pocketFault 8 eas = some (c, e)) :
    checkVector tr eas s g = .trap c e := by
  unfold checkVector
  rw [h]

theorem checkVector_of_shape (h : s.pocketFault 8 eas = none) (hshape : s.trShape tr eas = true) :
    checkVector tr eas s g = .trap 0x2A (evalOf (eas.headD 0)) := by
  unfold checkVector
  rw [h]
  exact if_pos hshape

theorem checkVector_of_none (h : s.pocketFault 8 eas = none) (hshape : s.trShape tr eas = false) :
    checkVector tr eas s g = g s := by
  unfold checkVector
  rw [h]
  exact if_neg (Bool.eq_false_iff.mp hshape)

/-- A load from `t`, the addresses being made. -/
def VecForm.loadAt (f : VecForm) (v a : RegNo) (eas : List Int) (rev : Bool) (t : State) : Eff :=
  if rev then
    withVregs t (if t.anyDiff eas then [v] else []) [] fun t =>
      checkVector f.tr eas t fun t => (vecContribute t v f.tr eas).andThen fun t => .done (f.finish a t)
  else withVregs t [] [v] fun t => checkVector f.tr eas t fun t => (vecRead t v f.tr eas).andThen fun t => .done (f.finish a t)

theorem vecLoad_eq (rev : Bool) :
    vecLoad s f v a o rev = withIndex s f v fun t => f.loadAt v a (vecAddrs t v a f.mode o) rev t := rfl

/-- What a plain load puts in its register. -/
def State.loaded (s : State) (tr : Bool) (eas : List Int) : VReg :=
  if tr then transpose16 (packElems 8 (s.cellsAt eas)) else packElems 8 (s.cellsAt eas)

theorem loaded_seen {k : BitVec 4} (h : t.visible = (s.popped k).visible) : t.loaded tr eas = s.loaded tr eas := by
  unfold State.loaded State.cellsAt
  simp only [pocketNat_seen h]

theorem length_vecAddrs (m : BitVec 2) : (vecAddrs s v a m o).length = 64 := by simp [vecAddrs]

theorem velem_loaded (hlen : eas.length = 64) {c : Nat} (hc : c < 64) :
    velem (packElems 8 (s.cellsAt eas)) 8 c = s.pocketNat (eas.getD c 0) 8 := by
  have hcell : c < eas.length := hlen ▸ hc
  rw [velem_packElems (by simp [State.cellsAt, hlen]) (by simpa [State.cellsAt] using hcell)]
  simp only [State.cellsAt, List.getElem_map, List.getD_eq_getElem _ _ hcell]
  refine Nat.mod_eq_of_lt ?_
  exact (leNat_lt _).trans_eq (by rw [memBytes_length]; norm_num)

/-- A 16-bit element is a quarter of a doubleword. -/
theorem velem_two_of_eight (x : VReg) (c : Nat) {q : Nat} (hq : q < 4) :
    velem x 2 (4 * c + q) = velem x 8 c / 2 ^ (16 * q) % 2 ^ 16 := by
  have hsplit : x.toNat / 2 ^ (8 * 2 * (4 * c + q)) = x.toNat / 2 ^ (8 * 8 * c) / 2 ^ (16 * q) := by
    rw [Nat.div_div_eq_div_mul, ← pow_add]
    congr 2
    ring
  unfold velem
  rw [hsplit]
  interval_cases q <;> omega

theorem velem_transpose16 (x : VReg) {p : Nat} (hp : p < 256) : velem (transpose16 x) 2 (16 * (p % 16) + p / 16) = velem x 2 p := by
  have hback : 16 * ((16 * (p % 16) + p / 16) % 16) + (16 * (p % 16) + p / 16) / 16 = p := by omega
  refine (velem_packElems_range 2 _ (by omega)).trans ?_
  rw [hback]
  exact Nat.mod_eq_of_lt (velem_lt x 2 p)

end

/-! ## VLD and DPLD -/

section
variable {f : VecForm} {v a : RegNo} {o : BitVec 8} {eas : List Int} {i : Instr} {k : BitVec 4} {s s0 s1 : State} {st : Stream}
  {body : State → Eff} {rev : Bool}

/-- A load goes on from the state after its index is read. -/
theorem vecLoad_of_index (hmade : Made (withIndex (s.popped k) f v) s0) :
    s0.visible = (s.popped k).visible ∧
      vecLoad (s.popped k) f v a o rev = f.loadAt v a (vecAddrs s v a f.mode o) rev s0 := by
  obtain ⟨hseen, hgo⟩ := goes_withIndex.of_made hmade
  refine ⟨hseen, ?_⟩
  rw [vecLoad_eq, hgo, vecAddrs_of_bearings (bearings_seen hseen)]

/-- The checks of an access pass in any state that is seen as after the pops. -/
theorem checkVector_seen {tr : Bool} {t : State} {g : State → Eff} (hseen : t.visible = (s.popped k).visible)
    (hfault : s.pocketFault 8 eas = none) (hshape : s.trShape tr eas = false) : checkVector tr eas t g = g t :=
  checkVector_of_none ((pocketFault_seen hseen ..).trans hfault) ((trShape_of_bearings (bearings_seen hseen) ..).trans hshape)

/-- A plain load that passes its checks and makes its accesses. -/
theorem plainLoad_completes (hs : OnT s st k) (hc : st ≠ .c) (hx : exec i s = runT s k body)
    (hbody : body (s.popped k) = vecLoad (s.popped k) f v a o false) (heas : vecAddrs s v a f.mode o = eas)
    (hfault : s.pocketFault 8 eas = none) (hshape : s.trShape f.tr eas = false)
    (hfree : ∃ s0 s1, Made (withIndex (s.popped k) f v) s0 ∧ Made (withVregs s0 [] [v]) s1 ∧
      s1.cellsFree false .plain s.ownExt eas) :
    CompletesT i k s (f.finish a (s.setVreg v (s.loaded f.tr eas))) := by
  obtain ⟨s0, s1, hindex, hmade, s2, hcells⟩ := hfree
  obtain ⟨hseen0, hload⟩ := vecLoad_of_index (a := a) (o := o) (rev := false) hindex
  obtain ⟨hseen1, hgo1⟩ := (goes_withVregs [] [v]).of_made hmade
  have hseen1 : s1.visible = (s.popped k).visible := hseen1.trans hseen0
  rw [← ownExt_seen hseen1] at hcells
  obtain ⟨hseen2, hgo2⟩ := (goes_withCells eas).of_made hcells
  have hseen2 : s2.visible = (s.popped k).visible := hseen2.trans hseen1
  have hread : vecRead s1 v f.tr eas = .done (s2.setVreg v (s.loaded f.tr eas)) := by
    rw [← loaded_seen hseen2]
    exact hgo2 _
  have hF := (onShuttle_finish f a).comp (onShuttle_setVreg v (s.loaded f.tr eas))
  refine completesT_of_popped hF hs hc hx (e := f.finish a (s2.setVreg v (s.loaded f.tr eas))) ?_ (hF.seen hseen2)
  rw [hbody, hload, heas, VecForm.loadAt, if_neg Bool.false_ne_true, hgo1, checkVector_seen hseen1 hfault hshape, hread]
  rfl

end

section
variable {v a : RegNo} {x i : Bool} {m : BitVec 2} {o : BitVec 8} {k : BitVec 4} {s : State} {st : Stream}

theorem exec_vld : exec (.vld v a x i m o k) s = runT s k fun s => vecLoad s (vecForm x i m) v a o s.reversed := rfl
theorem exec_dpld : exec (.dpld v a o k) s = runT s k fun s => vecLoad s (vecForm false false 0) v a o false := rfl

/-- The checks stand before every effect of VLD. -/
theorem vld_checked (hs : OnT s st k) (hc : st ≠ .c) (hfree : (s.popped k).vregsFree ((vecForm x i m).index v ++ [v]) [v])
    {c : BitVec 8} {e : W64}
    (hcheck : ∀ t g, t.visible = (s.popped k).visible → checkVector (vecForm x i m).tr (vecAddrs s v a m o) t g = .trap c e) :
    Traps (.vld v a x i m o k) s c e := by
  obtain ⟨s0, hindex, hseen0, hregs⟩ := index_of_free (unmarked_popped s k hs.2.2.1) hfree
  obtain ⟨-, hload⟩ := vecLoad_of_index (a := a) (o := o) (rev := (s.popped k).reversed) hindex
  refine trapsAt_of_popped hs hc exec_vld (hload.trans ?_)
  unfold VecForm.loadAt
  split
  · exact withVregs_of_free (hregs _ _ (by split <;> simp) (by simp)) fun t ht => hcheck t _ (ht.trans hseen0)
  · exact withVregs_of_free (hregs _ _ (by simp) (by simp)) fun t ht => hcheck t _ (ht.trans hseen0)

/-! ## Loads in reverse mode (R266) -/

/-- An access that goes on to a next state has been made. -/
theorem Goes.of_done {α : Type} {P : α → Prop} {op : (α → Eff) → Eff} (h : Goes P op) {f : α → Eff} {e : State}
    (hdone : op f = .done e) : ∃ b, P b ∧ f b = .done e := by
  obtain ⟨b, hb, hgo⟩ | ⟨e', hne, hend⟩ := h
  · exact ⟨b, hb, (hgo f).symm.trans hdone⟩
  · exact absurd ((hend f).symm.trans hdone) (hne e)

/-- The differentiable elements among the cells, each with the number of its cell. -/
def State.contributors (s : State) (eas : List Int) : List (Nat × Nat × Int × Fmt × Nat) :=
  (eas.zip (List.range 64)).flatMap fun p => (s.cellElems p.1).map fun e => (p.2, e)

/-- The elements of `reg` contributed to their shadows. -/
def State.contributed (s : State) (reg : VReg) (tr : Bool) (elems : List (Nat × Nat × Int × Fmt × Nat)) : State :=
  elems.foldl (fun s e =>
    let f := e.2.2.2.1
    s.contributeAt e.2.1 e.2.2.1 (fmtValue f (velem reg f.width (placeInReg tr f.width e.1 e.2.2.2.2)))) s

theorem vecContribute_eq {tr : Bool} {eas : List Int} : vecContribute s v tr eas =
    withPlaces s false .plain (s.diffCells eas) fun t =>
      withPlaces t true contributes ((s.contributors eas).flatMap fun e => shadowLocs e.2.1) fun t =>
        .done (t.contributed (t.vreg v) tr (s.contributors eas)) := rfl

theorem cur_contributed (reg : VReg) (tr : Bool) (elems : List (Nat × Nat × Int × Fmt × Nat)) :
    (s.contributed reg tr elems).cur = s.cur := by
  induction elems generalizing s with
  | nil => rfl
  | cons e elems ih => exact ih

/-- Contributions leave the turn where it is. -/
theorem here_of_vecContribute {tr : Bool} {eas : List Int} {t : State} (h : vecContribute s v tr eas = .done t) :
    t.here = s.here := by
  rw [vecContribute_eq] at h
  obtain ⟨t1, hseen1, h⟩ := (goes_withPlaces _).of_done h
  obtain ⟨t2, hseen2, h⟩ := (goes_withPlaces _).of_done h
  obtain rfl := Eff.done.inj h
  exact (congrArg Prod.fst (cur_contributed ..)).trans (here_of_visible (hseen2.trans hseen1))

theorem anyDiff_eq_false {eas : List Int} : s.anyDiff eas = false ↔ ∀ ea ∈ eas, s.regionOfEa ea = none := by
  simp [State.anyDiff]

theorem withPlaces_nil (write : Bool) (kind : AccKind) :
    ∃ t, t.visible = s.visible ∧ ∀ f, withPlaces s write kind [] f = f t := by
  refine ⟨_, ?_, fun _ => rfl⟩
  exact visible_tickSeq s s.here s.stream

/-- A reverse load of cells of which none is differentiable contributes nothing. -/
theorem vecContribute_of_plain {tr : Bool} {eas : List Int} (h : s.anyDiff eas = false) :
    ∃ t, vecContribute s v tr eas = .done t ∧ t.visible = s.visible := by
  have hregion := anyDiff_eq_false.mp h
  have hcells : s.diffCells eas = [] := by
    rw [State.diffCells, List.filter_eq_nil_iff.mpr fun ea hea => by rw [hregion ea hea]; exact nofun]
    rfl
  have helems : s.contributors eas = [] := List.flatMap_eq_nil_iff.mpr fun p hp => by
    rw [State.cellElems, hregion p.1 (List.of_mem_zip hp).1]
    rfl
  obtain ⟨t1, hseen1, hgo1⟩ := withPlaces_nil (s := s) false .plain
  obtain ⟨t2, hseen2, hgo2⟩ := withPlaces_nil (s := t1) true contributes
  rw [vecContribute_eq, hcells, helems, hgo1]
  exact ⟨t2, hgo2 _, hseen2.trans hseen1⟩

/-- An access to no register is made. -/
theorem withVregs_nil (hm : Unmarked s) : ∃ t, t.visible = s.visible ∧ ∀ f, withVregs s [] [] f = f t := by
  obtain ⟨t, hmade⟩ := (vregsFree_iff hm [] []).mpr ⟨nofun, nofun⟩
  exact ⟨t, (goes_withVregs [] []).of_made hmade⟩

section
variable {eas : List Int} (hs : OnT s st k) (hc : st ≠ .c) (heas : vecAddrs s v a m o = eas)
  (hfault : s.pocketFault 8 eas = none) (hshape : s.trShape (vecForm x i m).tr eas = false) (hrev : s.reversed = true)
include hs hc heas hfault hshape hrev

/-- VLD in reverse mode, from its access to the register on. -/
theorem vld_back {s0 s1 : State} {reads : List RegNo} (hindex : Made (withIndex (s.popped k) (vecForm x i m) v) s0)
    (hreads : (if s.anyDiff eas then [v] else []) = reads) (hseen1 : s1.visible = s0.visible)
    (hgo1 : ∀ f, withVregs s0 reads [] f = f s1) :
    vecLoad (s.popped k) (vecForm x i m) v a o (s.popped k).reversed =
      (vecContribute s1 v (vecForm x i m).tr eas).andThen fun t => .done ((vecForm x i m).finish a t) := by
  obtain rfl := hs.1
  obtain ⟨hseen0, hload⟩ := vecLoad_of_index (a := a) (o := o) (rev := (s.popped k).reversed) hindex
  have hrev' : (s.popped k).reversed = true := (reversed_seen hc rfl).trans hrev
  have hmode : vecAddrs s v a (vecForm x i m).mode o = eas := heas
  rw [hload, hmode, VecForm.loadAt, if_pos hrev', anyDiff_of_bearings (bearings_seen hseen0), hreads, hgo1,
    checkVector_seen (hseen1.trans hseen0) hfault hshape]

theorem vld_back_plain (hdiff : s.anyDiff eas = false) (hfree : (s.popped k).vregsFree ((vecForm x i m).index v) []) :
    CompletesT (.vld v a x i m o k) k s ((vecForm x i m).finish a s) := by
  have hm := unmarked_popped s k hs.2.2.1
  have hindex : ∃ s0, Made (withIndex (s.popped k) (vecForm x i m) v) s0 := by
    unfold VecForm.index at hfree
    unfold withIndex
    split at hfree
    · next hmode => simp only [if_pos hmode]; exact hfree
    · next hmode => exact ⟨_, if_neg hmode⟩
  obtain ⟨s0, hindex⟩ := hindex
  have hseen0 := (vecLoad_of_index (a := a) (o := o) (rev := true) hindex).1
  obtain ⟨s1, hseen1, hgo1⟩ := withVregs_nil (unmarked_of_visible hseen0 hm)
  have hseen1' := hseen1.trans hseen0
  obtain ⟨t, hgo, hseen⟩ := vecContribute_of_plain (v := v) (tr := (vecForm x i m).tr)
    ((anyDiff_of_bearings (bearings_seen hseen1') eas).trans hdiff)
  refine completesT_of_popped (onShuttle_finish _ a) hs hc exec_vld (e := (vecForm x i m).finish a t) ?_
    ((onShuttle_finish _ a).seen (hseen.trans hseen1'))
  rw [vld_back hs hc heas hfault hshape hrev hindex (by rw [hdiff]; rfl) hseen1 hgo1, hgo]
  rfl

theorem vld_back_completes (hdiff : s.anyDiff eas = true) {s0 s1 s2 : State}
    (hindex : Made (withIndex (s.popped k) (vecForm x i m) v) s0) (hmade : Made (withVregs s0 [v] []) s1)
    (hcontribute : vecContribute s1 v (vecForm x i m).tr eas = .done s2) :
    CompletesPopped (.vld v a x i m o k) k s ((vecForm x i m).finish a s2) := by
  obtain ⟨hseen1, hgo1⟩ := (goes_withVregs [v] []).of_made hmade
  have hseen1' := hseen1.trans (vecLoad_of_index (a := a) (o := o) (rev := true) hindex).1
  refine completesPopped_of_popped hs hc exec_vld (e' := (vecForm x i m).finish a s2) ?_ rfl ?_
  · rw [vld_back hs hc heas hfault hshape hrev hindex (by rw [hdiff]; rfl) hseen1 hgo1, hcontribute]
    rfl
  · exact ((onShuttle_finish _ a).here s2).trans
      ((here_of_vecContribute hcontribute).trans (here_of_bearings (bearings_seen hseen1')))

end

end

end Sys2Proof.Machine
end

section
namespace Sys2Proof.Machine
open Sys2Proof

/-! ## Gradient loads (R262, R276) -/

section
variable {s t : State}

/-- The checks pass where every address is reached. -/
theorem pocketFault_eq_none {size : Nat} {eas : List Int} : s.pocketFault size eas = none ↔ ∀ ea ∈ eas, s.Reaches size ea := by
  induction eas with
  | nil => exact iff_of_true rfl nofun
  | cons ea eas ih =>
    rw [List.forall_mem_cons, ← ih]
    rw [State.pocketFault]
    unfold State.Reaches State.placeOf
    by_cases halign : ea % size = 0
    · rcases s.pocketAt s.here ea with _ | p
      · simp [halign]
      · cases hbad : s.badCell p <;> simp [halign, hbad]
    · simp [halign]

/-- Bytes put one after another at addresses: where they are does not change on the way. -/
theorem foldl_putBytes_placeOf {β : Type} (ea : β → Int) (bs : β → List Byte) (l : List β) (hplace : ∀ x, t.placeOf x = s.placeOf x) :
    l.foldl (fun e p => e.putBytes (e.placeOf (ea p)) (bs p)) t = l.foldl (fun e p => e.putBytes (s.placeOf (ea p)) (bs p)) t := by
  induction l generalizing t with
  | nil => rfl
  | cons p l ih =>
    rw [List.foldl_cons, List.foldl_cons, hplace (ea p)]
    exact ih hplace

/-- The addresses of 128 shadow-form cells. -/
def gradientPairs (base : Int) : List Int := (List.range 128).map fun (j : Nat) => base + 16 * (j : Int)

/-- The cells of the Pocket that they fill. -/
def gradientCells (base : Int) : List Int := (gradientPairs base).flatMap fun ea => [ea, ea + 8]

/-- The gradients at the addresses, with their flags. -/
def State.gradients (s : State) (n : BitVec 8) (base : Int) : List (Nat × W64) :=
  (gradientPairs base).map fun ea => takeBytes n.toInt .fp32 (memBytes s.mem (s.placeOf ea) 16)

/-- All flags of a list of results. -/
def flagsOf (l : List (Nat × W64)) : W64 := l.foldl (fun a r => a ||| r.2) 0

/-- Gradients taken into `v`, their flags in the issuing sequencer's status. -/
def State.tookGradients (e : State) (v : RegNo) (l : List (Nat × W64)) : State :=
  (e.setVreg v (packElems 4 (l.map Prod.fst))).orStatus e.here e.stream (flagsOf l)

/-- The shadow-form cells emptied, where they are in `s`. -/
def State.emptied (s : State) (base : Int) (e : State) : State :=
  (gradientPairs base).foldl (fun e ea => e.putBytes (s.placeOf ea) (List.replicate 16 0)) e

theorem operands_tookGradients (v : RegNo) (l : List (Nat × W64)) : (s.tookGradients v l).operands = s.operands := by
  have hput (x : VReg) : (s.setVreg v x).operands = s.operands := operands_modShuttle s s.here fun _ => rfl
  refine (operands_modShuttle _ s.here fun x => ?_).trans (hput (packElems 4 (l.map Prod.fst)))
  rw [setSeq_sregs, setSeq_task, setSeq_rwin]

theorem gradientLoad_of_checked {v a : RegNo} {n : BitVec 8} {clear : Bool} (halign : (s.areg a).toInt % 16 = 0)
    (hfault : s.pocketFault 8 (gradientCells (s.areg a).toInt) = none) :
    gradientLoad s v a n clear = withVregs s [] [v] fun t =>
      withCells t clear .plain t.ownExt (gradientCells (s.areg a).toInt) fun t =>
        let u := t.tookGradients v (t.gradients n (s.areg a).toInt)
        .done (if clear then
          (gradientPairs (s.areg a).toInt).foldl (fun e ea => e.putBytes (e.placeOf ea) (List.replicate 16 0)) u else u) := by
  have hbad : ((List.range 128).map fun (j : Nat) => (s.areg a).toInt + 16 * (j : Int)).findSome? (fun ea =>
      if ea % 16 ≠ 0 then some (0x04, evalOf ea) else s.pocketFault 8 [ea, ea + 8]) = none := by
    refine List.findSome?_eq_none_iff.mpr fun ea hea => ?_
    obtain ⟨j, -, rfl⟩ := List.mem_map.mp hea
    rw [if_neg (by omega), pocketFault_eq_none]
    exact fun x hx => pocketFault_eq_none.mp hfault x (List.mem_flatMap.mpr ⟨_, hea, hx⟩)
  unfold gradientLoad
  simp only [hbad]
  rfl

theorem gradients_seen {k : BitVec 4} {n : BitVec 8} {base : Int} (h : t.visible = (s.popped k).visible) :
    t.gradients n base = s.gradients n base := by
  unfold State.gradients
  simp only [placeOf_of_bearings (bearings_seen h), mem_of_visible h]
  rfl

theorem onShuttle_tookGradients (v : RegNo) (l : List (Nat × W64)) : OnShuttle (State.tookGradients · v l) :=
  (onShuttle_modMySeq (f := fun q => { q with status := q.status ||| flagsOf l })
    fun _ _ h => congrArg (fun q : Seq => { q with status := q.status ||| flagsOf l }) h).comp
    (onShuttle_setVreg v (packElems 4 (l.map Prod.fst)))

theorem aroundPops_emptied (s : State) (base : Int) : AroundPops (s.emptied base) :=
  aroundPops_foldl (fun ea => aroundPops_putBytes (s.placeOf ea) _) (gradientPairs base)

theorem velem_gradients (n : BitVec 8) (base : Int) {j : Nat} (hj : j < 128) :
    velem (packElems 4 ((s.gradients n base).map Prod.fst)) 4 j =
      (takeBytes n.toInt .fp32 (memBytes s.mem (s.placeOf (base + 16 * (j : Int))) 16)).1 % 2 ^ 32 := by
  rw [State.gradients, gradientPairs, List.map_map, List.map_map]
  exact velem_packElems_range 4 _ hj

theorem gradients_flags (n : BitVec 8) (base : Int) (b : Nat) :
    (flagsOf (s.gradients n base)).getLsbD b = true ↔
      ∃ j < 128, (takeBytes n.toInt .fp32 (memBytes s.mem (s.placeOf (base + 16 * ((j : Nat) : Int))) 16)).2.getLsbD b = true := by
  rw [flagsOf, foldl_or_getLsbD, State.gradients, gradientPairs]
  simp

end

section
variable {v a : RegNo} {n : BitVec 8} {k : BitVec 4} {s : State} {st : Stream} {i : Instr} {clear : Bool}

theorem exec_dgld : exec (.dgld v a n k) s = runT s k fun s => gradientLoad s v a n false := rfl
theorem exec_dgldc : exec (.dgldc v a n k) s = runT s k fun s => gradientLoad s v a n true := rfl

/-- The effect of a gradient load: the gradients taken, and the cells emptied where it clears. -/
def State.gradientEffect (s : State) (v : RegNo) (n : BitVec 8) (base : Int) (clear : Bool) (e : State) : State :=
  if clear then s.emptied base (e.tookGradients v (s.gradients n base)) else e.tookGradients v (s.gradients n base)

theorem aroundPops_gradientEffect (base : Int) : AroundPops (s.gradientEffect v n base clear) := by
  have htook := (onShuttle_tookGradients v (s.gradients n base)).aroundPops
  unfold State.gradientEffect
  cases clear
  · exact htook
  · exact (aroundPops_emptied s base).comp htook

/-- The cells are emptied where they are before the gradients are taken. -/
theorem gradientEffect_eq {t : State} {base : Int} (hplace : ∀ ea, t.placeOf ea = s.placeOf ea) :
    (if clear then (gradientPairs base).foldl (fun e ea => e.putBytes (e.placeOf ea) (List.replicate 16 0))
        (t.tookGradients v (s.gradients n base)) else t.tookGradients v (s.gradients n base)) =
      s.gradientEffect v n base clear t := by
  unfold State.gradientEffect
  split
  · exact foldl_putBytes_placeOf (s := s) id (fun _ => List.replicate 16 0) _ fun ea =>
      (placeOf_of_operands (operands_tookGradients v _) ea).trans (hplace ea)
  · rfl

/-- A gradient load that passes its checks and makes its accesses. -/
theorem gradientLoad_completes (hs : OnT s st k) (hc : st ≠ .c) (hx : exec i s = runT s k fun s => gradientLoad s v a n clear)
    (halign : (s.areg a).toInt % 16 = 0) (hfault : s.pocketFault 8 (gradientCells (s.areg a).toInt) = none)
    (hfree : ∃ s1, Made (withVregs (s.popped k) [] [v]) s1 ∧
      s1.cellsFree clear .plain s.ownExt (gradientCells (s.areg a).toInt)) :
    CompletesT i k s (s.gradientEffect v n (s.areg a).toInt clear s) := by
  obtain ⟨s1, hmade, s2, hcells⟩ := hfree
  obtain ⟨hseen1, hgo1⟩ := (goes_withVregs [] [v]).of_made hmade
  rw [← ownExt_seen hseen1] at hcells
  obtain ⟨hseen2, hgo2⟩ := (goes_withCells _).of_made hcells
  have hseen2 : s2.visible = (s.popped k).visible := hseen2.trans hseen1
  have hareg : (s.popped k).areg a = s.areg a := areg_of_bearings (bearings_popped s k) a
  have hbody : gradientLoad (s.popped k) v a n clear = .done (s.gradientEffect v n (s.areg a).toInt clear s2) := by
    rw [gradientLoad_of_checked (hareg.symm ▸ halign) (by rw [hareg, pocketFault_seen rfl, hfault]), hgo1, hareg, hgo2,
      gradients_seen hseen2]
    exact congrArg Eff.done (gradientEffect_eq fun ea => placeOf_of_bearings (bearings_seen hseen2) ea)
  have hF : AroundPops (s.gradientEffect v n (s.areg a).toInt clear) := aroundPops_gradientEffect _
  exact completesT_of_aroundPops (body := fun s => gradientLoad s v a n clear) hF hs hc hx hbody (hF.seen _ _ hseen2)

end

section
variable {v a : RegNo} {x i : Bool} {m : BitVec 2} {o : BitVec 8} {k : BitVec 4} {s : State} {st : Stream}

theorem vld_forward (hs : OnT s st k) (hc : st ≠ .c) (hrev : s.reversed = false) :
    vecLoad (s.popped k) (vecForm x i m) v a o (s.popped k).reversed = vecLoad (s.popped k) (vecForm x i m) v a o false := by
  obtain rfl := hs.1
  rw [reversed_seen hc rfl, hrev]

/-- What a plain load puts in its register, by element. -/
theorem loaded_right {tr : Bool} {eas : List Int} (hlen : eas.length = 64) :
    (tr = false → ∀ c < 64, velem (s.loaded tr eas) 8 c = s.pocketNat (eas.getD c 0) 8) ∧
    (tr = true → ∀ c < 64, ∀ q < 4, velem (s.loaded tr eas) 2 (16 * ((4 * c + q) % 16) + (4 * c + q) / 16) =
      s.pocketNat (eas.getD c 0) 8 / 2 ^ (16 * q) % 2 ^ 16) := by
  refine ⟨?_, ?_⟩
  · rintro rfl c hc
    exact velem_loaded hlen hc
  · rintro rfl c hc q hq
    have htr : s.loaded true eas = transpose16 (packElems 8 (s.cellsAt eas)) := rfl
    rw [htr, velem_transpose16 _ (by omega), velem_two_of_eight _ _ hq, velem_loaded hlen hc]

/-- Settles O44: the accesses are made, the checks pass, and the register takes the cells or is contributed from; the gradient
loads take 128 gradients before they empty them. -/
theorem vectorLoads : Obligations.VectorLoads := by
  intro v a x i m o n k s st hst hs
  have hc : st ≠ .c := by rcases hst with rfl | rfl <;> nofun
  have hstep := finish_eq x i m a
  refine ⟨fun hfree => ⟨fun c e hfault => ?_, fun hfault hshape => ?_⟩, fun hfault hshape => ⟨?_, ?_, ?_⟩, ?_, ?_⟩
  · exact vld_checked hs hc hfree fun t g ht => checkVector_of_fault ((pocketFault_seen ht ..).trans hfault)
  · exact vld_checked hs hc hfree fun t g ht => checkVector_of_shape ((pocketFault_seen ht ..).trans hfault)
      ((trShape_of_bearings (bearings_seen ht) ..).trans hshape)
  · intro hrev hfree
    have hload := plainLoad_completes (i := .vld v a x i m o k) (body := fun s => vecLoad s (vecForm x i m) v a o s.reversed)
      hs hc exec_vld (vld_forward hs hc hrev) rfl hfault hshape hfree
    rw [hstep] at hload
    exact ⟨_, hload, loaded_right (length_vecAddrs m)⟩
  · intro hrev hdiff hfree
    have hload := vld_back_plain hs hc rfl hfault hshape hrev hdiff hfree
    rwa [hstep] at hload
  · intro hrev hdiff s0 s1 s2 hindex hmade hcontribute
    have hload := vld_back_completes hs hc rfl hfault hshape hrev hdiff hindex hmade hcontribute
    rwa [hstep] at hload
  · intro hfault hfree
    have hload := plainLoad_completes (i := .dpld v a o k) (body := fun s => vecLoad s (vecForm false false 0) v a o false)
      hs hc exec_dpld rfl rfl hfault rfl hfree
    exact ⟨_, hload, loaded_right (length_vecAddrs 0)⟩
  · intro halign hfault
    have hright := And.intro (fun j (hj : j < 128) => velem_gradients (s := s) n (s.areg a).toInt hj)
      (gradients_flags (s := s) n (s.areg a).toInt)
    refine ⟨fun hfree => ⟨packElems 4 ((s.gradients n (s.areg a).toInt).map Prod.fst),
      flagsOf (s.gradients n (s.areg a).toInt), ?_, hright⟩, fun hfree =>
      ⟨packElems 4 ((s.gradients n (s.areg a).toInt).map Prod.fst), flagsOf (s.gradients n (s.areg a).toInt), ?_, hright⟩⟩
    · exact gradientLoad_completes (n := n) (clear := false) hs hc exec_dgld halign hfault hfree
    · have hload := gradientLoad_completes (n := n) (clear := true) hs hc exec_dgldc halign hfault hfree
      unfold State.gradientEffect State.emptied at hload
      exact hload

end

end Sys2Proof.Machine
end

section
namespace Sys2Proof.Machine
open Sys2Proof

/-! # What records of the tape leave alone (R168, R271, R272)

A record is pushed or popped by way of global memory, where other tasks may be aborted. The registers, windows and regions of
every shuttle stand through that. -/

section
variable (s : State)

theorem bearings_modShuttle (n : ShNo) {f : Shuttle → Shuttle} (hf : ∀ x, (f x).bearings = x.bearings) :
    (s.modShuttle n f).bearings = s.bearings := by
  refine Prod.ext rfl (funext fun m => ?_)
  by_cases hm : n = m
  · subst hm
    exact (congrArg Shuttle.bearings (shuttle_modShuttle ..)).trans (hf _)
  · exact congrArg Shuttle.bearings (shuttle_modShuttle_ne _ _ _ _ hm)

theorem bearings_modMySeq (f : Seq → Seq) : (s.modMySeq f).bearings = s.bearings :=
  bearings_modShuttle s s.here fun x => by cases s.stream <;> rfl

@[simp] theorem bearings_bind (who : Option (Nat × Nat)) : (s.bind who).bearings = s.bearings := by
  unfold State.bind
  split <;> rfl

@[simp] theorem bearings_noteRange (who : Option (Nat × Nat)) (j : Nat) (d : Desc) (write : Bool) :
    (s.noteRange who j d write).bearings = s.bearings := by
  unfold State.noteRange
  split <;> rfl

@[simp] theorem bearings_modTask (tid : Nat) (f : Task → Task) : (s.modTask tid f).bearings = s.bearings := rfl

@[simp] theorem bearings_sendRemote (owner : Nat) (p : BitVec 8) (pa : Nat) (op : RemoteOp) (ea : W64) (by_ : Option Actor) :
    (s.sendRemote owner p pa op ea by_).bearings = s.bearings := rfl

theorem bearings_healthRecord (cls unit kind count : Nat) (detail : W64) :
    (s.healthRecord cls unit kind count detail).bearings = s.bearings := by
  obtain ⟨m, d, l, ms, hs, heq⟩ := healthRecord_eq s cls unit kind count detail
  rw [heq]
  rfl

theorem bearings_stopTask (tid : Nat) : (s.stopTask tid).bearings = s.bearings := by
  unfold State.stopTask
  split
  · rfl
  · next t _ =>
    have hstop (u : State) (n : ShNo) : ((u.modShuttle n Shuttle.stopAll).bump n).bearings = u.bearings :=
      (bearings_modShuttle _ n (f := Shuttle.bumped) fun _ => rfl).trans (bearings_modShuttle u n (f := Shuttle.stopAll) fun _ => rfl)
    have hdrop (u : State) : (u.dropAwayLines tid).bearings = u.bearings :=
      (foldl_kept (π := State.bearings) (by intros; rfl) _ _).trans rfl
    refine (hdrop _).trans (Eq.trans rfl (foldl_kept (π := State.bearings) (fun u n => ?_) t.shuttles s))
    split
    · exact (apply_ite State.bearings _ _ _).trans (by rw [hstop, ite_self])
    · rfl

theorem bearings_abortTask (tid : Nat) : (s.abortTask tid).bearings = s.bearings := by
  unfold State.abortTask
  split
  · rfl
  · exact (bearings_healthRecord ..).trans (bearings_stopTask s tid)

@[simp] theorem bearings_performWrite (key : Option Nat) (pa va : Nat) (bs : List Byte) :
    (s.performWrite key pa va bs).bearings = s.bearings := by
  unfold State.performWrite
  dsimp only
  split
  · rfl
  · exact foldl_kept (π := State.bearings) bearings_abortTask _ _

@[simp] theorem bearings_writePiece (who : Option (Nat × Nat)) (owner : Nat) (panel : BitVec 2) (va : Nat) (bs : List Byte)
    (now : Bool) : (s.writePiece who owner panel va bs now).bearings = s.bearings := by
  unfold State.writePiece
  repeat' split
  all_goals simp

theorem bearings_writeHome (who : Option (Nat × Nat)) (owner : Nat) (panel : BitVec 2) (va : Nat) (bs : List Byte) :
    (s.writeHome who owner panel va bs).bearings = s.bearings := by
  unfold State.writeHome
  refine foldl_kept (π := State.bearings) (fun u p => ?_) _ s
  split <;> simp

theorem bearings_performStaged (t : Task) (ws : List StagedWrite) : (s.performStaged t ws).bearings = s.bearings := by
  unfold State.performStaged
  refine foldl_kept (π := State.bearings) (fun u w => foldl_kept (π := State.bearings) (fun u p => ?_) _ u) ws s
  dsimp only
  split <;> simp

end

section
variable {s u : State}

theorem bearings_becomeCommitting {t : Task} (h : s.becomeCommitting t = .ok u) : u.bearings = s.bearings := by
  unfold State.becomeCommitting at h
  dsimp only at h
  repeat' split at h
  all_goals cases h
  exact bearings_performStaged s t _

theorem bearings_readPiece {who : Option (Nat × Nat)} {owner va n : Nat} {need : Perm} {bs : List Byte}
    (h : s.readPiece who owner va n need = .ok (bs, u)) : u.bearings = s.bearings := by
  unfold State.readPiece at h
  dsimp only at h
  repeat' split at h
  all_goals cases h
  all_goals simp

theorem bearings_readGlobal {who : Option (Nat × Nat)} {owner va n : Nat} {need : Perm} {bs : List Byte}
    (h : s.readGlobal who owner va n need = .ok (bs, u)) : u.bearings = s.bearings := by
  refine List.foldlRecOn (pieces va n) _ (motive := fun acc : Except GFault (List Byte × State) =>
    ∀ bs u, acc = .ok (bs, u) → u.bearings = s.bearings) ?_ ?_ bs u h
  · rintro bs u ⟨⟩
    rfl
  · intro acc ih p _ bs u h
    split at h
    · cases h
    · split at h
      · cases h
      · next hpiece =>
        cases h
        exact (bearings_readPiece hpiece).trans (ih _ _ rfl)

/-! ## Global accesses -/

/-- An access after which every shuttle's bearings are as they were. -/
def KeepsBearings (s : State) (op : (State → Eff) → Eff) : Prop := Goes (fun t => t.bearings = s.bearings) op

theorem keepsBearings_withIntervals (write : Bool) (kind : AccKind) (ext : Ext) (spans : List (Nat × Nat)) :
    KeepsBearings s (withIntervals s write kind ext spans) := by
  unfold withIntervals
  split
  · exact goes_on rfl
  · dsimp only
    split
    · exact goes_end fun _ => nofun
    · have htick := bearings_of_visible (visible_tickSeq s s.here s.stream)
      exact goes_on htick

theorem keepsBearings_whenOldest : KeepsBearings s (whenOldest s) := by
  unfold whenOldest
  split
  · exact goes_on rfl
  · split
    · exact goes_end fun _ => nofun
    · exact goes_ite (goes_on (bearings_bind ..)) (goes_end fun _ => nofun)

theorem keepsBearings_withShare (s1 : State) (past : Task → Nat → Bool) : KeepsBearings s1 (withShare s s1 past) := by
  unfold withShare
  split
  · exact goes_on rfl
  · refine goes_ite (goes_on rfl) (goes_ite (goes_end fun _ => nofun) (goes_ite (goes_end fun _ => nofun) ?_))
    split
    · exact goes_on (bearings_becomeCommitting ‹_›)
    · exact goes_end fun _ => nofun

section
variable {α : Type} {P : α → Prop} {go : (α → Eff) → State → Eff} (h : ∀ u, u.bearings = s.bearings → Goes P fun f => go f u)
include h

/-- What is done by the oldest task only, or at once. -/
theorem goes_oldest (c : Prop) [Decidable c] : Goes P fun f => if c then whenOldest s (go f) else go f s :=
  goes_ite (Goes.andThen keepsBearings_whenOldest h) (h s rfl)

theorem goes_not_oldest (c : Prop) [Decidable c] : Goes P fun f => if c then go f s else whenOldest s (go f) :=
  goes_ite (h s rfl) (Goes.andThen keepsBearings_whenOldest h)

end

theorem keepsBearings_seqWrite (va : Nat) (bs : List Byte) : KeepsBearings s (seqWrite s va bs) := by
  unfold seqWrite
  split
  · exact goes_end (seqGFault_ne_done _)
  · refine goes_withResidency _ ?_
    split
    · exact goes_end (seqGFault_ne_done _)
    · refine goes_oldest (fun u hu => ?_) _
      refine Goes.andThen (keepsBearings_withIntervals true .plain u.ownExt _) fun v hv => Goes.andThen (goes_remoteCalls _ 0) ?_
      rintro _ rfl
      split
      · exact goes_end fun _ => nofun
      · exact (keepsBearings_withShare _ _).mono fun t ht => ht.trans ((bearings_writeHome ..).trans (hv.trans hu))

theorem goes_seqRead_bearings {α : Type} {P : α → Prop} {op : State → List Byte → (α → Eff) → Eff} (va n : Nat) (keep : Bool)
    (h : ∀ t bs, t.bearings = s.bearings → Goes P (op t bs)) : Goes P fun f => seqRead s va n keep fun t bs => op t bs f := by
  refine goes_withResidency _ (goes_not_oldest (fun u hu => ?_) _)
  refine Goes.andThen (keepsBearings_withIntervals false .plain u.ownExt _) fun v hv => Goes.andThen (goes_remoteCalls _ 0) ?_
  rintro _ rfl
  split
  · exact goes_end fun _ => nofun
  · exact goes_end (seqGFault_ne_done _)
  · next hread =>
    refine h _ _ ?_
    exact (apply_ite State.bearings _ _ _).trans (ite_self _ ▸ (bearings_readGlobal hread).trans (hv.trans hu))

theorem keepsBearings_pushRecord (rec : List Byte) : KeepsBearings s (pushRecord s rec) :=
  goes_ite (goes_end fun _ => nofun) (goes_ite (goes_end fun _ => nofun)
    (Goes.andThen (keepsBearings_seqWrite _ rec) fun u hu => goes_on ((bearings_modMySeq u _).trans hu)))

theorem goes_popRecord_bearings (len head : Nat) (want : List Byte) (cmp : List Byte → List Byte) :
    Goes (fun p : State × List Byte => p.1.bearings = s.bearings) fun f => popRecord s len head want cmp fun t bs => f (t, bs) := by
  refine goes_ite (goes_end fun _ => nofun) (goes_ite (goes_end fun _ => nofun) ?_)
  refine goes_seqRead_bearings _ head true fun t bs ht => goes_ite (goes_end fun _ => nofun) ?_
  refine goes_seqRead_bearings _ _ false fun u rec hu => ?_
  exact goes_on (a := (_, rec)) ((bearings_modMySeq u _).trans (hu.trans ht))

/-- The pop of a record leaves the bearings as they are. -/
theorem bearings_of_popRecord {len head : Nat} {want rec : List Byte} {cmp : List Byte → List Byte}
    (h : popRecord s len head want cmp (fun e bs => if bs = rec then .done e else .trap 0 0) = .done u) :
    u.bearings = s.bearings := by
  obtain ⟨⟨t, bs⟩, hkept, ht⟩ := (goes_popRecord_bearings (s := s) len head want cmp).of_done
    (f := fun p => if p.2 = rec then .done p.1 else .trap 0 0) h
  dsimp only at ht
  split at ht <;> cases ht
  exact hkept

end

end Sys2Proof.Machine
end

section
namespace Sys2Proof.Machine
open Sys2Proof

/-! # Vector stores (R155, R156, R266, R270) -/

/-! ## The cells that are written -/

section
variable {s t : State}

theorem vecWrite_fst (t : State) (reg : VReg) (l : List (Int × Nat)) :
    (vecWrite t reg l).1 = l.foldl (fun e p => e.putBytes (e.placeOf p.1) (leBytes 8 (velem reg 8 p.2))) t := by
  induction l generalizing t with
  | nil => rfl
  | cons p l ih => exact ih _

/-- The old values turn on the memory and on where the cells are. -/
theorem vecWrite_snd (reg : VReg) (l : List (Int × Nat)) (hmem : t.mem = s.mem) (hplace : ∀ ea, t.placeOf ea = s.placeOf ea) :
    (vecWrite t reg l).2 = (vecWrite s reg l).2 := by
  induction l generalizing s t with
  | nil => rfl
  | cons p l ih =>
    have hold : t.pocketNat p.1 8 = s.pocketNat p.1 8 := by rw [State.pocketNat, State.pocketNat, hmem, hplace]
    rw [vecWrite, vecWrite, hold, hplace]
    refine congrArg (s.pocketNat p.1 8 :: ·) (ih ?_ hplace)
    rw [State.putBytes, State.putBytes, hmem]

theorem zip_range (eas : List Int) : eas.zip (List.range eas.length) = (List.range eas.length).map fun c => (eas.getD c 0, c) :=
  List.ext_getElem (by simp) fun c h _ => by
    have hc : c < eas.length := by simpa using h
    simp [hc]

/-- The 64 cells written in rising order, where they are in `s`. -/
def State.storedVector (s : State) (reg : VReg) (eas : List Int) (e : State) : State :=
  (List.range 64).foldl (fun e c => e.putBytes (s.placeOf (eas.getD c 0)) (leBytes 8 (velem reg 8 c))) e

theorem aroundPops_storedVector (reg : VReg) (eas : List Int) : AroundPops (s.storedVector reg eas) :=
  aroundPops_foldl (fun c => aroundPops_putBytes (s.placeOf (eas.getD c 0)) _) (List.range 64)

theorem vecWrite_eq {reg : VReg} {eas : List Int} (hlen : eas.length = 64) (hplace : ∀ ea, t.placeOf ea = s.placeOf ea) :
    (vecWrite t reg (eas.zip (List.range 64))).1 = s.storedVector reg eas t := by
  have hwrite := foldl_putBytes_placeOf Prod.fst (fun p : Int × Nat => leBytes 8 (velem reg 8 p.2)) (eas.zip (List.range 64)) hplace
  have hzip := zip_range eas
  rw [hlen] at hzip
  rw [vecWrite_fst, hwrite, hzip, List.foldl_map]
  rfl

/-! ## Places accessed in any order -/

theorem findRace_eq_none {k : Know} {a : Access} {tags : List (Nat × List Access)} {locs : List Nat} :
    findRace k a tags locs = none ↔ ∀ l ∈ locs, racesWith k a (tagOf tags l) = false := by
  induction locs with
  | nil => simp [findRace]
  | cons l locs ih =>
    rw [findRace, List.forall_mem_cons, ← ih]
    cases racesWith k a (tagOf tags l) <;> simp

theorem placesFree_iff {write : Bool} {kind : AccKind} {locs : List Nat} : s.placesFree write kind locs ↔
    locs.find? s.badCell = none ∧
      findRace (s.tickSeq s.here s.stream).mySeq.know ((s.tickSeq s.here s.stream).accessOf s.here s.stream write kind s.ownExt)
        (s.tickSeq s.here s.stream).tags locs = none := by
  unfold State.placesFree Made withPlaces
  dsimp only
  constructor
  · rintro ⟨s1, h⟩
    split at h
    · cases h
    · cases h
    · next hbad hrace => exact ⟨hbad, hrace⟩
  · rintro ⟨hbad, hrace⟩
    rw [hbad, hrace]
    exact ⟨_, rfl⟩

/-- The order of the places, and how often one of them stands there, is nothing to whether they are free. -/
theorem placesFree_of_subset {write : Bool} {kind : AccKind} {locs locs' : List Nat} (hsub : locs' ⊆ locs)
    (h : s.placesFree write kind locs) : s.placesFree write kind locs' := by
  rw [placesFree_iff, List.find?_eq_none, findRace_eq_none] at h ⊢
  exact ⟨fun l hl => h.1 l (hsub hl), fun l hl => h.2 l (hsub hl)⟩

end

/-! ## Stores taken back -/

section
variable {s t : State} {v : RegNo}

/-- The adjoint of an element taken into its place of the register. -/
def State.restoredElem (s : State) (v : RegNo) (j : Nat) (e : Nat × Int × Fmt × Nat) : State :=
  let r := s.takeAt e.1 e.2.1 e.2.2.1
  let w := e.2.2.1.width
  let i := 8 / w * j + e.2.2.2
  r.2.setVreg v (packElems w ((List.range (velems w)).map fun n => if n = i then r.1 else velem (s.vreg v) w n))

theorem vecRestore_cons (rec : List Byte) (ea : Int) (j : Nat) (l : List (Int × Nat)) : vecRestore s v rec ((ea, j) :: l) =
    if (s.cellElems ea).isEmpty then vecRestore s v rec l
    else
      let s1 := (s.cellElems ea).foldl (fun s e => s.restoredElem v j e) s
      vecRestore (s1.putBytes (s1.placeOf ea) ((rec.drop (64 + 512 + 8 * j)).take 8)) v rec l := rfl

theorem visible_restoredElem (h : s.visible = t.visible) (j : Nat) (e : Nat × Int × Fmt × Nat) :
    (s.restoredElem v j e).visible = (t.restoredElem v j e).visible := by
  obtain ⟨hvalue, hstate⟩ := visible_takeAt_congr h e.1 e.2.1 e.2.2.1
  unfold State.restoredElem
  simp only [hvalue, vreg_of_bearings (bearings_of_visible h)]
  exact (onShuttle_setVreg v _).seen hstate

theorem foldl_seen {β : Type} {F : State → β → State} (hF : ∀ s t b, s.visible = t.visible → (F s b).visible = (F t b).visible)
    (l : List β) (h : s.visible = t.visible) : (l.foldl F s).visible = (l.foldl F t).visible := by
  induction l generalizing s t with
  | nil => exact h
  | cons b l ih => exact ih (hF s t b h)

/-- A store taken back in states that are seen alike leaves such states. -/
theorem visible_vecRestore (rec : List Byte) (l : List (Int × Nat)) (h : s.visible = t.visible) :
    (vecRestore s v rec l).visible = (vecRestore t v rec l).visible := by
  induction l generalizing s t with
  | nil => exact h
  | cons p l ih =>
    have hfold := foldl_seen (fun _ _ e h => visible_restoredElem (v := v) h p.2 e) (t.cellElems p.1) h
    rw [vecRestore_cons, vecRestore_cons, cellElems_of_bearings (bearings_of_visible h)]
    split
    · exact ih h
    · dsimp only
      rw [placeOf_of_bearings (bearings_of_visible hfold)]
      exact ih (visible_putBytes_congr hfold ..)

theorem cur_vecRestore (rec : List Byte) (l : List (Int × Nat)) : (vecRestore s v rec l).cur = s.cur := by
  induction l generalizing s with
  | nil => rfl
  | cons p l ih =>
    rw [vecRestore_cons]
    split
    · exact ih
    · have hfold := foldl_kept (π := State.cur) (f := fun s e => s.restoredElem v p.2 e) (fun _ _ => rfl) (s.cellElems p.1) s
      exact ih.trans hfold

end

/-! ## VST -/

section
variable {f : VecForm} {v a : RegNo} {o : BitVec 8} {eas : List Int} {s t : State}

/-- The places that a store taken back writes. -/
def State.restorePlaces (s : State) (eas : List Int) : List Nat :=
  s.diffCells eas ++ eas.flatMap fun ea => (s.cellElems ea).flatMap fun e => shadowLocs e.1

/-- A store from `t`, the addresses being made. -/
def VecForm.storeAt (f : VecForm) (v a : RegNo) (eas : List Int) (t : State) : Eff :=
  if t.reversed then
    if t.anyDiff eas then
      withVregs t [] [v] fun t => checkVector false eas t fun t =>
        popRecord t 17 576 (vectorKeyOf (vectorRecord eas [])) vectorKeyOf fun t rec =>
          withPlaces t true .plain (t.restorePlaces eas) fun t =>
            .done (f.finish a (vecRestore t v rec (eas.zip (List.range 64)).reverse))
    else checkVector false eas t fun t => .done (f.finish a t)
  else
    withVregs t [v] [] fun t => checkVector false eas t fun t => withCells t true .plain t.ownExt eas fun t =>
      if t.anyDiff eas then
        pushRecord t (vectorRecord eas (vecWrite t (t.vreg v) (eas.zip (List.range 64))).2) fun t =>
          .done (f.finish a (vecWrite t (t.vreg v) (eas.zip (List.range 64))).1)
      else .done (f.finish a (vecWrite t (t.vreg v) (eas.zip (List.range 64))).1)

theorem vecStore_eq : vecStore s f v a o = withIndex s f v fun t => f.storeAt v a (vecAddrs t v a f.mode o) t := rfl

end

section
variable {v a : RegNo} {i : Bool} {m : BitVec 2} {o : BitVec 8} {k : BitVec 4} {s : State}

theorem exec_vst : exec (.vst v a i m o k) s = runT s k fun s => vecStore s (vecForm false i m) v a o := rfl

section
variable {st : Stream} {eas : List Int} {s0 s1 s2 s3 : State}

/-- A store goes on from the state after its index is read. -/
theorem vecStore_of_index (hmade : Made (withIndex (s.popped k) (vecForm false i m) v) s0) : s0.visible = (s.popped k).visible ∧
    vecStore (s.popped k) (vecForm false i m) v a o = (vecForm false i m).storeAt v a (vecAddrs s v a m o) s0 := by
  obtain ⟨hseen, hgo⟩ := goes_withIndex.of_made hmade
  refine ⟨hseen, ?_⟩
  rw [vecStore_eq, hgo, vecAddrs_of_bearings (bearings_seen hseen)]
  rfl

/-- The checks stand before every effect of VST. -/
theorem vst_checked (hs : OnT s st k) (hc : st ≠ .c) (hfree : (s.popped k).vregsFree ((vecForm false i m).index v ++ [v]) [v])
    {c : BitVec 8} {e : W64} (hfault : s.pocketFault 8 (vecAddrs s v a m o) = some (c, e)) :
    Traps (.vst v a i m o k) s c e := by
  obtain ⟨s0, hindex, hseen0, hregs⟩ := index_of_free (unmarked_popped s k hs.2.2.1) hfree
  have hstore := (vecStore_of_index (a := a) (o := o) hindex).2
  have hcheck {t : State} (ht : t.visible = (s.popped k).visible) (g : State → Eff) :
      checkVector false (vecAddrs s v a m o) t g = .trap c e := checkVector_of_fault ((pocketFault_seen ht ..).trans hfault)
  refine trapsAt_of_popped hs hc exec_vst (hstore.trans ?_)
  unfold VecForm.storeAt
  split
  · split
    · exact withVregs_of_free (hregs _ _ (by simp) (by simp)) fun t ht => hcheck (ht.trans hseen0) _
    · exact hcheck hseen0 _
  · exact withVregs_of_free (hregs _ _ (by simp) (by simp)) fun t ht => hcheck (ht.trans hseen0) _

variable (hs : OnT s st k) (hc : st ≠ .c) (heas : vecAddrs s v a m o = eas) (hfault : s.pocketFault 8 eas = none)
  (hindex : Made (withIndex (s.popped k) (vecForm false i m) v) s0)
include hs hc heas hfault hindex

section
variable (hrev : s.reversed = false) (hmade : Made (withVregs s0 [v] []) s1)
  (hcells : Made (withCells s1 true .plain s.ownExt eas) s2)
include hrev hmade hcells

/-- VST forwards, from its access to the cells on. -/
theorem vst_forward : s2.visible = (s.popped k).visible ∧ vecStore (s.popped k) (vecForm false i m) v a o =
    if s.anyDiff eas then
      pushRecord s2 (vectorRecord eas (vecWrite s (s.vreg v) (eas.zip (List.range 64))).2) fun t =>
        .done ((vecForm false i m).finish a (vecWrite t (t.vreg v) (eas.zip (List.range 64))).1)
    else .done ((vecForm false i m).finish a (vecWrite s2 (s2.vreg v) (eas.zip (List.range 64))).1) := by
  obtain rfl := hs.1
  obtain ⟨hseen0, hstore⟩ := vecStore_of_index (a := a) (o := o) hindex
  obtain ⟨hseen1, hgo1⟩ := (goes_withVregs [v] []).of_made hmade
  have hseen1 := hseen1.trans hseen0
  rw [← ownExt_seen hseen1] at hcells
  obtain ⟨hseen2, hgo2⟩ := (goes_withCells eas).of_made hcells
  have hseen2 : s2.visible = (s.popped k).visible := hseen2.trans hseen1
  have hkept := bearings_seen hseen2
  have hmem : s2.mem = (s.popped k).mem := mem_of_visible hseen2
  refine ⟨hseen2, ?_⟩
  rw [hstore, heas, VecForm.storeAt, if_neg (by rw [reversed_seen hc hseen0, hrev]; exact Bool.false_ne_true), hgo1,
    checkVector_seen hseen1 hfault rfl, hgo2, anyDiff_of_bearings hkept, vreg_of_bearings hkept,
    vecWrite_snd (s := s) _ _ hmem fun ea => placeOf_of_bearings hkept ea]

theorem vst_completes (hdiff : s.anyDiff eas = false) :
    CompletesT (.vst v a i m o k) k s ((vecForm false i m).finish a (s.storedVector (s.vreg v) eas s)) := by
  obtain ⟨hseen2, hgo⟩ := vst_forward hs hc heas hfault hindex hrev hmade hcells
  have hkept := bearings_seen hseen2
  have hF : AroundPops fun e => (vecForm false i m).finish a (s.storedVector (s.vreg v) eas e) :=
    (onShuttle_finish (vecForm false i m) a).aroundPops.comp (aroundPops_storedVector (s.vreg v) eas)
  have hbody : vecStore (s.popped k) (vecForm false i m) v a o =
      .done ((vecForm false i m).finish a (s.storedVector (s.vreg v) eas s2)) := by
    rw [hgo, hdiff, if_neg Bool.false_ne_true, vecWrite_eq (s := s) (heas ▸ length_vecAddrs m) fun ea =>
      placeOf_of_bearings hkept ea, vreg_of_bearings hkept]
  have hdone := completesT_of_aroundPops (body := fun s => vecStore s (vecForm false i m) v a o) hF hs hc exec_vst hbody
    (hF.seen _ _ hseen2)
  exact hdone

theorem vst_recorded (hdiff : s.anyDiff eas = true)
    (hpush : Made (pushRecord s2 (vectorRecord eas (vecWrite s (s.vreg v) (eas.zip (List.range 64))).2)) s3) :
    CompletesPopped (.vst v a i m o k) k s ((vecForm false i m).finish a (s.storedVector (s.vreg v) eas s3)) := by
  obtain ⟨hseen2, hgo⟩ := vst_forward hs hc heas hfault hindex hrev hmade hcells
  obtain ⟨hkept3, hgo3⟩ := (keepsBearings_pushRecord _).of_made hpush
  have hkept := hkept3.trans (bearings_seen hseen2)
  refine completesPopped_of_popped hs hc exec_vst
    (e' := (vecForm false i m).finish a (s.storedVector (s.vreg v) eas s3)) ?_ rfl ?_
  · rw [hgo, hdiff, if_pos rfl, hgo3, vecWrite_eq (s := s) (heas ▸ length_vecAddrs m) fun ea => placeOf_of_bearings hkept ea,
      vreg_of_bearings hkept]
  · exact ((onShuttle_finish _ a).here _).trans (((aroundPops_storedVector (s.vreg v) eas).here s3).trans (here_of_bearings hkept))

end

variable (hrev : s.reversed = true)
include hrev

/-- In reverse mode VST has no effect where it meets no differentiable region. -/
theorem vst_back_plain (hdiff : s.anyDiff eas = false) :
    CompletesT (.vst v a i m o k) k s ((vecForm false i m).finish a s) := by
  obtain ⟨hseen0, hstore⟩ := vecStore_of_index (a := a) (o := o) hindex
  refine completesT_of_popped (onShuttle_finish _ a) hs hc exec_vst (e := (vecForm false i m).finish a s0) ?_
    ((onShuttle_finish _ a).seen hseen0)
  obtain rfl := hs.1
  rw [hstore, heas, VecForm.storeAt, if_pos ((reversed_seen hc hseen0).trans hrev), anyDiff_of_bearings (bearings_seen hseen0), hdiff,
    if_neg Bool.false_ne_true, checkVector_seen hseen0 hfault rfl]

/-- In reverse mode VST takes its record back. -/
theorem vst_takenBack (hdiff : s.anyDiff eas = true) {rec : List Byte} (hmade : Made (withVregs s0 [] [v]) s1)
    (hpop : popRecord s1 17 576 (vectorKeyOf (vectorRecord eas [])) vectorKeyOf
      (fun e bs => if bs = rec then .done e else .trap 0 0) = .done s2)
    (hfree : s2.placesFree true .plain (s.restorePlaces eas)) :
    CompletesPopped (.vst v a i m o k) k s
      ((vecForm false i m).finish a (vecRestore s2 v rec (eas.zip (List.range 64)).reverse)) := by
  obtain ⟨hseen0, hstore⟩ := vecStore_of_index (a := a) (o := o) hindex
  obtain ⟨hseen1, hgo1⟩ := (goes_withVregs [] [v]).of_made hmade
  have hseen1 := hseen1.trans hseen0
  have hkept := (bearings_of_popRecord hpop).trans (bearings_seen hseen1)
  have hplaces : s2.restorePlaces eas = s.restorePlaces eas := by
    unfold State.restorePlaces State.diffCells
    simp only [regionOfEa_of_bearings hkept, placeOf_of_bearings hkept, cellElems_of_bearings hkept]
  rw [← hplaces] at hfree
  obtain ⟨s3, hfree⟩ := hfree
  obtain ⟨hseen3, hgo3⟩ := (goes_withPlaces _).of_made hfree
  refine completesPopped_of_popped hs hc exec_vst
    (e' := (vecForm false i m).finish a (vecRestore s3 v rec (eas.zip (List.range 64)).reverse)) ?_
    ((onShuttle_finish _ a).seen (visible_vecRestore rec _ hseen3)) ?_
  · obtain rfl := hs.1
    rw [hstore, heas, VecForm.storeAt, if_pos ((reversed_seen hc hseen0).trans hrev), anyDiff_of_bearings (bearings_seen hseen0),
      hdiff, if_pos rfl, hgo1, checkVector_seen hseen1 hfault rfl, (popRecord_of_done hpop).2, hgo3]
  · exact ((onShuttle_finish _ a).here _).trans ((congrArg Prod.fst (cur_vecRestore rec _)).trans (here_of_bearings hkept))

end

/-- The places of a store taken back, cell by cell, are those of the statement. -/
theorem restorePlaces_subset (s : State) (eas : List Int) : s.restorePlaces eas ⊆ eas.flatMap fun ea =>
    (s.cellElems ea).flatMap (fun e => shadowLocs e.1) ++
      (if (s.regionOfEa ea).isSome then [cellOf (s.placeOf ea)] else []) := by
  intro l hl
  rcases List.mem_append.mp hl with hcell | hshadow
  · obtain ⟨ea, hea, rfl⟩ := List.mem_map.mp hcell
    obtain ⟨hea, hregion⟩ := List.mem_filter.mp hea
    exact List.mem_flatMap.mpr ⟨ea, hea, List.mem_append_right _ (by rw [if_pos hregion]; exact List.mem_singleton_self _)⟩
  · obtain ⟨ea, hea, hl⟩ := List.mem_flatMap.mp hshadow
    exact List.mem_flatMap.mpr ⟨ea, hea, List.mem_append_left _ hl⟩

/-- Settles O45: the cells are written after the record that holds what they were, and the record is taken back over the same
registers and regions. -/
theorem vectorStores : Obligations.VectorStores := by
  intro v a i m o k s st hst hs
  have hc : st ≠ .c := by rcases hst with rfl | rfl <;> nofun
  have hstep := finish_eq false i m a
  refine ⟨fun hfree c e hfault => vst_checked hs hc hfree hfault, fun hfault s0 hindex => ⟨?_, ?_, ?_⟩⟩
  · intro hrev s1 s2 hmade hcells
    refine ⟨fun hdiff => ?_, fun hdiff s3 hpush => ?_⟩
    · have hstore := vst_completes hs hc rfl hfault hindex hrev hmade hcells hdiff
      rwa [hstep] at hstore
    · have hstore := vst_recorded hs hc rfl hfault hindex hrev hmade hcells hdiff hpush
      rwa [hstep] at hstore
  · intro hrev hdiff
    have hstore := vst_back_plain hs hc rfl hfault hindex hrev hdiff
    rwa [hstep] at hstore
  · intro hrev hdiff s1 s2 rec hmade hpop hfree
    have hstore := vst_takenBack hs hc rfl hfault hindex hrev hdiff hmade hpop
      (placesFree_of_subset (restorePlaces_subset s _) hfree)
    rwa [hstep] at hstore

end

end Sys2Proof.Machine
end
